-- ==== Sys2Proof/Word.lean ====
section
/-!
DEFINITION. Sys2Proof/Word.lean: bytes, register images and fixed-length vectors of plain data.
-/
namespace Sys2Proof

/-- One byte. -/
abbrev Byte := BitVec 8

/-- Element `i` of a vector; the index wraps at the vector's length. -/
def vat {α : Type} {n : Nat} [NeZero n] (v : Vector α n) (i : Nat) : α := v[Fin.ofNat n i]

/-- The vector with `f` applied at element `i`; the index wraps at the vector's length. -/
def vupd {α : Type} {n : Nat} [NeZero n] (v : Vector α n) (i : Nat) (f : α → α) : Vector α n :=
  v.set (Fin.ofNat n i) (f (vat v i))

/-- `x` raised to `cap` at most. -/
def satAdd (cap x d : Nat) : Nat := min cap (x + d)

end Sys2Proof
end

