-- ==== Sys2Proof/Syntax.lean ====
section
/-!
DEFINITION. Sys2Proof/Syntax.lean: the commands and events of the block, one constructor per row of
spec/opcode_table.json, and the operands they carry.
-/
namespace Sys2Proof

/-- What comes back for a read or a translation that the device asked the host for (R501, R502). -/
inductive HostReply where
  /-- A completion with data. -/
  | data (bytes : List Byte)
  /-- A translation with the needed permission. -/
  | granted
  /-- A translation refused. -/
  | refused
  /-- Unsupported Request or Completer Abort. -/
  | failed
  /-- Poisoned data. -/
  | poisoned
  /-- The Completion Timeout range passed without a completion. -/
  | timeout
  deriving DecidableEq, Repr

/-- One of `n` ports whose link comes up, and what it comes up at (R498, Table 13-2): its rate in GT/s, its width in lanes, and
Flit Mode. -/
structure LinkTrained (n : Nat) where
  port : Fin n
  rate : Nat
  width : Nat
  flit : Bool
  deriving DecidableEq, Repr

/-- What a configuration read may ask for beside the identity (R497, R498, R502, R504, R505, R509, Tables 13-2 to 13-5). -/
inductive ConfigReg where
  /-- The identifiers of the capabilities that are present. -/
  | capabilities
  /-- Device Capabilities and Device Control. -/
  | device
  /-- Device Capabilities 2 and Device Control 2. -/
  | device2
  /-- Link Status: rate and width. -/
  | link
  /-- BAR0, BAR2 or BAR4. -/
  | bar (i : Fin 3)
  /-- InitialVFs and TotalVFs of the PF. -/
  | totalVfs
  /-- NumVFs, First VF Offset, VF Stride and VF Device ID of the PF. -/
  | vfs
  /-- VF BAR0 or VF BAR2 of the PF. -/
  | vfBar (i : Fin 2)
  /-- MSI-X Table Size with its enable and mask, and the offsets of the table and the PBA. -/
  | msix
  /-- Uncorrectable Error Status, Mask and Severity of AER. -/
  | aer
  /-- ACS Control. -/
  | acs
  /-- ATS and PASID Enable. -/
  | ats
  deriving DecidableEq, Repr

/-- A configuration read or write of one function (R497 to R502, R504, R505, R509, R510, R512, Tables 13-2 and 13-4). -/
inductive ConfigReq where
  /-- Memory Space Enable of the Command register. -/
  | memorySpace (on : Bool)
  /-- VF Enable of the PF, set. -/
  | vfEnable
  /-- NumVFs of the PF, to a value that is not lower. -/
  | numVfs (n : Fin 16)
  /-- PASID Enable of the PF. -/
  | pasidEnable (on : Bool)
  /-- ATS Enable. -/
  | atsEnable (on : Bool)
  /-- MSI-X Enable. -/
  | msixEnable (on : Bool)
  /-- MSI-X Function Mask. -/
  | functionMask (on : Bool)
  /-- PowerState D3hot. -/
  | toD3hot
  /-- A read of Vendor ID and Device ID. -/
  | readIdentity
  /-- A read of Revision ID and Class Code. -/
  | readClass
  /-- Another read. -/
  | read (r : ConfigReg)
  /-- Max_Payload_Size. -/
  | maxPayload (n : Fin 8)
  /-- Max_Read_Request_Size. -/
  | maxReadRequest (n : Fin 8)
  /-- Relaxed Ordering Enable. -/
  | relaxedOrdering (on : Bool)
  /-- ID-Based Ordering enables, for requests and completions. -/
  | idOrdering (on : Bool)
  /-- 10-Bit Tag Requester Enable. -/
  | tenBitTags (on : Bool)
  /-- Completion Timeout Value and Disable of Device Control 2. -/
  | completionTimeout (range : Fin 16) (off : Bool)
  /-- Error Reporting Enables of Device Control: correctable, non-fatal, fatal. -/
  | errorReporting (v : BitVec 3)
  /-- Uncorrectable Error Status, write 1 to clear. -/
  | aerClear (v : BitVec 32)
  /-- Uncorrectable Error Mask. -/
  | aerMask (v : BitVec 32)
  /-- Uncorrectable Error Severity. -/
  | aerSeverity (v : BitVec 32)
  /-- ACS Control of the PF. -/
  | acsControl (v : BitVec 7)
  /-- The bus number that the write carries, which the port captures. -/
  | captureBus (bus : BitVec 8)
  /-- BAR0, BAR2 or BAR4. -/
  | bar (i : Fin 3) (v : BitVec 64)
  /-- VF BAR0 or VF BAR2 of the PF. -/
  | vfBar (i : Fin 2) (v : BitVec 64)
  deriving DecidableEq, Repr

/-- A part that can be lost (Table 20-8): a slice with its stack, a bridge, an RDIMM by socket, an expander on port index
4 + `e`. -/
inductive PartId where
  | slice (k : Fin 17)
  | bridge (b : Fin 2)
  | dimm (d : Fin 16)
  | expander (e : Fin 4)
  deriving DecidableEq, Repr

/-- What a patrol scrub reads next: an atom of a stack, or a 64-byte access of an RDIMM (R652, R662). -/
inductive ScrubPart where
  | stack (k : Fin 17)
  | dimm (d : Fin 16)
  deriving DecidableEq, Repr

/-- How the ECC of a read turns out (R649). -/
inductive EccResult where
  | good
  | corrected
  | uncorrectable
  deriving DecidableEq, Repr

/-- An event record of an expander (Table 17-8): a corrected or an uncorrectable read at a device physical address, or a
fatal error. -/
inductive CxlRecord where
  | corrected
  | uncorrectable (dpa : Nat)
  | fatal
  deriving DecidableEq, Repr

/-- A UCIe module of a furrow link: module `m` of the link of slice `k` to bridge `b`, or ring hop `k` (R43). -/
inductive ModuleId where
  | sliceLink (k : Fin 17) (b m : Fin 2)
  | ringHop (k : Fin 17)
  deriving DecidableEq, Repr

/-- What waits for a host read: a command in flight, by identity, or a function's mailbox (R502, R829). -/
inductive ReadOf where
  | command (u : Nat)
  | mailbox (f : Fin 64)
  deriving DecidableEq, Repr

/-- Who runs a mailbox operation: a function, or the BMC on one of its two endpoints (R826, R840). -/
inductive MbxId where
  | func (f : Fin 64)
  | endpoint (e : Fin 2)
  deriving DecidableEq, Repr

/-- The commands and events, one constructor per row of spec/opcode_table.json, in its order. -/
inductive Instr where
  /-- POWER_ON (R115): The 54 V input enters its accepted range; the carrier raises the control-die and flash
  supplies and the device enters BOOT, with beat 0 beginning. -/
  | powerOn
  /-- ROM_DONE (R115): The ROM self-test, fuse read and flash initialization finish, and the device enters IMAGE with
  out-of-band MCTP on. -/
  | romDone
  /-- IMAGE_CHECK (R135): Streaming and hashing of an image slot finish, and the slot is checked in the order of
  Table 4-7. -/
  | imageCheck (slot : Fin 2)
  /-- TRAINED (R115): Furrow, stack, CXL and DDR training all finish; missing parts are counted as losses and the
  device enters REPLAY. -/
  | trained (missing : List PartId)
  /-- ENTER_RUN (R26): Replay has finished, and at the next tracked beat boundary the device enters RUN or DEGRADED,
  opens the first epoch and begins fetching from the recorded tails. -/
  | enterRun
  /-- BEAT_EDGE (R83): A rising BEAT edge qualifies and is recognised, and the tracker ignores it, uses it in its
  run, or steers the locked loop with it. -/
  | beatEdge (ns : Nat)
  /-- HOLDOVER_ENTRY (R92): A tracked boundary's window ends without an in-window edge; the tracker enters HOLDOVER
  and a BEAT_LOST event is raised. -/
  | holdoverEntry
  /-- BEAT_BOUNDARY (R85): The tracked beat ends and the beat number advances; the control die broadcasts it and
  every die realigns its tick counter. -/
  | beatBoundary
  /-- QOS_WINDOW_CLOSE (R622): Every 4,096 ticks the device resets usage and levels, writes the QoS records, computes
  the derating factors and accounts the shortfall. -/
  | qosWindowClose
  /-- DVFS_STEP (R727): Every 1,024 ticks the device reads the control temperatures, evaluates the curves and applies
  CLOCK and ISSUE targets, refresh rate and offline thresholds. -/
  | dvfsStep (temps : List Nat)
  /-- LOAD_COUNT_CLOSE (R303): At tick 0 each data slice closes its per-shard counts and rewrites its closed array.
  -/
  | loadCountClose
  /-- STOLON_DECISION (R310): At tick 32,768 the leader decides evictions, lifts and at most one shard move and
  broadcasts them. -/
  | stolonDecision
  /-- EVICTION (R311): A lift entry is evicted on every data slice between two Flail row applications. -/
  | eviction
  /-- MOVE_BATCH_START (R319): Within the MOVE_RATE cap, the leader starts a move batch of up to 64 rows or lifts,
  and the participating slices freeze them. -/
  | moveBatchStart
  /-- MOVE_BATCH_ACK (R319): Every participating slice acknowledges its writes; the leader advances the cursor or
  clears FROZEN, and after the last batch stages the home generation. -/
  | moveBatchAck
  /-- MOVE_BATCH_TIMEOUT (R323): A batch cannot end within 2 µs; it is abandoned and retried once, and a second
  failure abandons the move. -/
  | moveBatchTimeout
  /-- EPOCH_CLOSE (R689): At the epoch's end tick the device cuts the epoch figures, attributes static energy,
  recalibrates the gain and begins hashing the epoch tree. -/
  | epochClose
  /-- EPOCH_SIGNED (R700): The epoch record is signed and the signature verified, ready to journal; a second failure
  leads to HALT. -/
  | epochSigned (ok : Bool)
  /-- COUNTER_DUMP (R804): At a dump interval's close every die latches its counters, and the device forms the dump
  record and writes it to the dump ring. -/
  | counterDump
  /-- GEN_FLIP (R159): At the boundary that a committed GEN_COMMIT names, with no command of the older live
  generation remaining, the generation advances. -/
  | genFlip
  /-- CHANGE_ROLLBACK (R164): A change has not reached its target generation within 64 beats of its first flip;
  GEN_ROLLBACK is written and the device flips back. -/
  | changeRollback
  /-- ROLLBACK_FORCE_END (R165): 64 beats after a rollback is decided, a command of the older generation that still
  blocks it is ended, and a kernel completes with KERNEL_FAULT. -/
  | rollbackForceEnd
  /-- COMPACTION_START (R155): At the first boundary after the active region passes 75 %, or after a program failure,
  compaction into the other region begins. -/
  | compactionStart
  /-- JOURNAL_REGION_SWITCH (R156): At the first boundary after every SNAP record is committed, SNAPSHOT_END is
  committed, the new region becomes active and the old one starts erasing. -/
  | journalRegionSwitch
  /-- JOURNAL_ERASE_DONE (R158): The background erase of a journal region finishes, which allows a postponed
  compaction to start. -/
  | journalEraseDone
  /-- JOURNAL_RECORD_COMMIT (R141): A record's flash programming and its commit word finish, and the writer starts
  the next pending record. -/
  | journalRecordCommit
  /-- JOURNAL_PROGRAM_FAIL (R167): A flash program in the active region fails; the record is abandoned, an ERROR
  record goes to the other region, and compaction is scheduled. -/
  | journalProgramFail
  /-- METER_SAMPLE (R677): A meter sample crosses the barrier and is assigned to its epoch, or is replaced as a gap
  sample. -/
  | meterSample (mv : Nat) (ma : Nat) (good : Bool)
  /-- METER_FAULT (R705): No good meter sample arrives for 10 ms, and a METER_FAULT event is raised. -/
  | meterFault
  /-- POWER_GOVERNOR (R734): A 1 ms meter mean above 2,500 W lowers F_PWR and applies new targets at once. -/
  | powerGovernor
  /-- POWER_LIMIT (R735): The power stays above the limit for 100 ms with F_PWR at 512, and a POWER_LIMIT event is
  raised. -/
  | powerLimit
  /-- INPUT_SAG (R736): SAGF asserts; SAG is set, an event is raised and the SAG sequence runs. -/
  | inputSag
  /-- SAG_END (R736): The input has stayed at 42 V or above for 1 ms; SAG clears and the sag caps return to 1,024. -/
  | sagEnd
  /-- POWER_FAIL (R739): UVF or OVF asserts, OCF persists for 1 ms, or a sag lasts 100 ms; the device stops
  admission, closes and signs the epoch, runs SHUTDOWN and records COLD. -/
  | powerFail (cause : Fin 4)
  /-- THERMAL_TRIP (R733): A die sensor reads above 125 °C, and the carrier removes every logic supply. -/
  | thermalTrip
  /-- TRIP_RECOVERY (R733): After a thermal trip, every sensor reads below 85 °C with the input in range, and the
  device returns to BOOT. -/
  | tripRecovery
  /-- POWER_SEQ_START (R722): A due power sequence starts once any running sequence has reached its END. -/
  | powerSeqStart
  /-- POWER_SEQ_ENTRY (R129): The next power-sequence entry (ON, OFF, CLOCK, CLAMP, RELEASE, END) executes after the
  previous DELAY or WAIT_GOOD ends. -/
  | powerSeqEntry (good : Bool)
  /-- WAIT_GOOD_TIMEOUT (R725): A WAIT_GOOD expires without power-good; the domain's parts are lost in BRINGUP, and
  SEQ_FAIL is recorded otherwise. -/
  | waitGoodTimeout
  /-- HOST_LINK_UP (R515): A host port reaches DL_Up; from ORPHAN_HOLD the device returns to its earlier state. -/
  | hostLinkUp (l : LinkTrained 4)
  /-- HOST_LINK_DOWN (R516): A host port leaves DL_Up, and every function of that port is reset. -/
  | hostLinkDown (p : Fin 4)
  /-- LINK_TRAIN_FAIL (R498): A port cannot reach an allowed rate or width; the LTSSM returns to Detect and an event
  is raised. -/
  | linkTrainFail (p : Fin 8)
  /-- ORPHAN_TIMEOUT (R517): Every host port has been down for 10 s in RUN or DEGRADED, and the device enters
  ORPHAN_HOLD. -/
  | orphanTimeout
  /-- PEER_LINK_DOWN (R518): A PEER port goes down; the peer function is reset and an event is raised. -/
  | peerLinkDown (p : Fin 8)
  /-- FUNDAMENTAL_RESET (R513): PERST# or a hot reset arrives on a port, and every function of that port is reset. -/
  | fundamentalReset (p : Fin 8)
  /-- FLR (R513): A function-level reset of a PF or VF resets that function, and for a PF its VFs too. -/
  | flr (f : Fin 68)
  /-- VF_ENABLE_CLEAR (R513): A PF's VF Enable goes from 1 to 0, and its VFs are reset. -/
  | vfEnableClear (p : Fin 4)
  /-- NUMVFS_LOWERED (R513): NumVFs is lowered, and the VFs above the new value are reset. -/
  | numvfsLowered (p : Fin 4) (n : Fin 16)
  /-- D3HOT_TO_D0 (R513): A function passes from D3hot to D0 and is reset. -/
  | d3hotToD0 (f : Fin 68)
  /-- FUNC_RESET_COMPLETE (R514): The last update that a function reset let run ends, and the function's registers
  take their reset values. -/
  | funcResetComplete (f : Fin 64)
  /-- RESIZABLE_BAR_WRITE (R508): A write to the steward's Resizable BAR Control resizes BAR2 while Memory Space
  Enable is clear, and is ignored and counted otherwise. -/
  | resizableBarWrite (k : Fin 64)
  /-- ATS_INVALIDATE (R501): An ATS Invalidate Request arrives; held translations stop being used and an Invalidation
  Completion is sent once older requests complete. -/
  | atsInvalidate (f : Fin 64) (a : Nat) (n : Nat)
  /-- HOST_BAR_ACCESS (R507): A host read or write through the steward's BAR2 is translated to a device address,
  checked, and contained on a decode error. -/
  | hostBarAccess (f : Fin 68) (bar2 : Bool) (off : Nat) (len : Nat) (data : Option (List Byte))
  /-- REGISTER_WRITE (R850): A host write to a register with no behaviour of its own acts field by field under the
  access codes and collision classes, and ignored writes are counted. -/
  | registerWrite (f : Fin 64) (off : BitVec 32) (wide : Bool) (v : BitVec 64)
  /-- WINDOW_ACCESS (R587): A tenant's window access reaches a carved line, the window cache, or memory, with a hit,
  a fill, or a write allocation. -/
  | windowAccess (f : Fin 64) (off : BitVec 28) (len : Nat) (data : Option (List Byte))
  /-- WINDOW_FILL_DONE (R588): A blocking window-cache fill completes, and the bridge's held window accesses proceed.
  -/
  | windowFillDone (b : Fin 2)
  /-- WIN_SYNC (R583): A read of WIN_SYNC writes back the function's dirty lines that hold earlier window writes,
  then completes with zero. -/
  | winSync (f : Fin 64)
  /-- WIN_CLEAN (R592): WIN_MOP CLEAN writes back one line of the function if it is dirty. -/
  | winClean (f : Fin 64) (byEntry : Bool)
  /-- WIN_INVAL (R592): WIN_MOP INVAL discards one line of the function. -/
  | winInval (f : Fin 64) (byEntry : Bool)
  /-- WIN_CLEAN_INVAL (R592): WIN_MOP CLEAN_INVAL writes back one line if it is dirty and discards it. -/
  | winCleanInval (f : Fin 64) (byEntry : Bool)
  /-- WIN_LOCK (R590): WIN_MOP LOCK brings a line into the main array and locks it, up to 64 locked lines. -/
  | winLock (f : Fin 64) (byEntry : Bool)
  /-- WIN_UNLOCK (R592): WIN_MOP UNLOCK clears the lock on one line. -/
  | winUnlock (f : Fin 64) (byEntry : Bool)
  /-- RANGE_CLEAN (R593): WIN_RCTL GO queues a range CLEAN on the bridge's range engine. -/
  | rangeClean (f : Fin 64) (v : BitVec 64)
  /-- RANGE_INVAL (R593): WIN_RCTL GO queues a range INVAL on the bridge's range engine. -/
  | rangeInval (f : Fin 64) (v : BitVec 64)
  /-- RANGE_CLEAN_INVAL (R593): WIN_RCTL GO queues a range CLEAN_INVAL on the bridge's range engine. -/
  | rangeCleanInval (f : Fin 64) (v : BitVec 64)
  /-- RANGE_OP_DONE (R593): The range engine finishes an operation; RBUSY clears, RDONE is set and the vector may be
  sent. -/
  | rangeOpDone (b : Fin 2)
  /-- WIN_CARVE_WRITE (R591): A write of WIN_CTL.CARVE takes or releases carved lines of the main array. -/
  | winCarveWrite (f : Fin 64) (c : BitVec 9)
  /-- WIN_CACHE_DISABLE (R594): Clearing WIN_CTL.CEN sends the function's window accesses to memory and leaves its
  lines as they are. -/
  | winCacheDisable (f : Fin 64)
  /-- PEER_ZONE_WRITE (R576): A peer write to a landing aperture is applied in arrival order if it lies within a
  permitted zone, and dropped whole otherwise. -/
  | peerZoneWrite (p : Fin 8) (rid : BitVec 16) (off : Nat) (data : List Byte)
  /-- FLUSH_READ (R578): A zero-length read from a listed peer completes once that peer's earlier zone writes are in
  device memory. -/
  | flushRead (p : Fin 8) (rid : BitVec 16) (off : Nat) (len : Nat)
  /-- QUEUE_ENABLE (R528): Writing QDB_QCFG.EN from 0 to 1 checks the queue configuration and starts the queue, or
  raises a CONFIG queue error. -/
  | queueEnable (q : Fin 256) (v : BitVec 64)
  /-- QUEUE_DISABLE (R530): Writing QDB_QCFG.EN from 1 to 0 stops fetch, discards unadmitted commands and lets
  admitted ones finish. -/
  | queueDisable (q : Fin 256) (v : BitVec 64)
  /-- SQ_TAIL_DOORBELL (R531): A write of QDB_SQT makes slots available, or raises TAIL_RANGE, or is recorded before
  RUN. -/
  | sqTailDoorbell (q : Fin 256) (v : BitVec 32)
  /-- CQ_HEAD_DOORBELL (R532): A write of QDB_CQH hands completion entries back, or raises HEAD_RANGE. -/
  | cqHeadDoorbell (q : Fin 256) (v : BitVec 32)
  /-- SLOT_FETCH (R539): The bridge reads the slots of a command covered by TAIL, within 64 slots of the oldest
  unadmitted command, and advances SQH. -/
  | slotFetch (q : Fin 256) (r : HostReply)
  /-- NOP (R541): NOP completes with OK once its slot checks pass. -/
  | nop (q : Fin 256)
  /-- LOOKUP_POOL (R233): Once admitted, the command resolves the indices of each bag on every data slice and pools
  them into one output row per bag. -/
  | lookupPool (q : Fin 256)
  /-- LOOKUP_RAW (R237): Once admitted, the command returns one decoded or stored output row per index. -/
  | lookupRaw (q : Fin 256)
  /-- SCATTER_ADD (R274): Once admitted, the command sorts and merges the gradients per chunk and adds them to the
  rows. -/
  | scatterAdd (q : Fin 256)
  /-- SCATTER_OPT (R275): Once admitted, the command applies one SGD, ADAGRAD_ROW or ADAM step to each row that it
  touches. -/
  | scatterOpt (q : Fin 256)
  /-- KV_APPEND (R353): Once admitted, the command reserves pages, evicting if it must, then quantizes and writes the
  appended tokens. -/
  | kvAppend (q : Fin 256)
  /-- KV_RELEASE (R362): Once admitted, the command drops the references of each named slot and sets it FREE. -/
  | kvRelease (q : Fin 256)
  /-- PREFIX_MATCH (R360): Once admitted, the command walks the prefix trie, opens the slot and attaches the matched
  pages. -/
  | prefixMatch (q : Fin 256)
  /-- ATTN_DECODE (R386): Once admitted, the command forms the block lists and deals work items to the cores of each
  slice. -/
  | attnDecode (q : Fin 256)
  /-- COPY_H2D (R570): Once admitted, the command checks its ranges and copies host or device memory into device
  memory through the copy engines. -/
  | copyH2d (q : Fin 256)
  /-- COPY_D2H (R570): Once admitted, the command checks its ranges and copies device memory to host or device memory
  through the copy engines. -/
  | copyD2h (q : Fin 256)
  /-- TABLE_LOAD (R572): A COPY_H2D in table-load form loads logical rows into a table in the per-row order. -/
  | tableLoad (q : Fin 256)
  /-- BUF_ALLOC (R598): Once admitted, the command allocates a buddy block from the buffer pool and writes its
  record. -/
  | bufAlloc (q : Fin 256)
  /-- BUF_FREE (R599): Once admitted, the command checks the handle, generation and owner and frees the buffer. -/
  | bufFree (q : Fin 256)
  /-- FENCE (R554): Once admitted, the FENCE holds later admissions in its scope until its earlier set has been
  posted. -/
  | fence (q : Fin 256)
  /-- RUN_KERNEL (R480): Once admitted, the command checks the launch and launches the kernel on the named cores of
  the named slices. -/
  | runKernel (q : Fin 256)
  /-- COUNTER_SNAP (R811): Once admitted, the command checks permissions and waits for the capture tick. -/
  | counterSnap (q : Fin 256)
  /-- COUNTER_SNAP_CAPTURE (R811): At the eighth tick edge after admission the requested counters are latched and the
  snapshot is written. -/
  | counterSnapCapture (u : Nat)
  /-- SHARD_ZERO_DONE (R195): The background zeroing of a FRESH shard finishes; FRESH clears and the waiting writes
  proceed. -/
  | shardZeroDone
  /-- FAR_ROW_ARRIVAL (R58): A far-tier whole row arrives at its owning bridge and is split into segments for the
  slices. -/
  | farRowArrival (u : Nat) (row : Nat)
  /-- SLICE_RESULT_ARRIVAL (R240): Pooled or raw segments of an output row arrive at the home bridge, which writes
  the row once all sixteen are present. -/
  | sliceResultArrival (u : Nat) (p : Fin 16)
  /-- CHUNK_SORT (R264): A slice's Flail sorts the keys of a chunk by row and position. -/
  | chunkSort (k : Fin 17)
  /-- CHUNK_APPLY (R270): The Flail applies a sorted chunk's rows in ascending order, in the per-row order of the
  commands. -/
  | chunkApply (k : Fin 17)
  /-- ROW_REDUCTION_PACKET (R277): A row-sum or row-range packet reaches a slice on the ring, and that slice combines
  its values into it. -/
  | rowReductionPacket (i : Nat)
  /-- HUSK_CHAIN_PACKET (R283): A husk chain packet reaches a slice, which XORs its delta in, or reaches S16, which
  folds it into parity. -/
  | huskChainPacket (i : Nat)
  /-- HUSK_ACK (R286): An acknowledgement from S16 reaches a data slice, which releases the held records that it
  covers. -/
  | huskAck (i : Nat)
  /-- RECONSTRUCTION_PACKET (R244): A reconstruction packet reaches a slice or S16 on the ring and is folded,
  rebuilding a lost segment. -/
  | reconstructionPacket (i : Nat)
  /-- WORK_ITEM_START (R391): A core takes its next work item or launch, in priority and then admission order. -/
  | workItemStart (k : Fin 136)
  /-- SLICE_PARTIAL_FOLD (R393): The group's lowest core folds the cores' attention partials into the slice partial.
  -/
  | slicePartialFold (u : Nat) (entry : Fin 4096) (head : Fin 4096) (k : Fin 16)
  /-- ATTN_MERGE_PACKET (R394): An attention merge packet reaches a slice, which merges its slice partial, and the
  last fold normalizes. -/
  | attnMergePacket (i : Nat)
  /-- COMPLETION_POST (R546): A command's work ends; its receipt is formed and mirrored, and its completion entry is
  written to the CQ. -/
  | completionPost (u : Nat) (granted : Bool)
  /-- PART_LOSS (R760): A slice, bridge, RDIMM or expander is declared lost; admission is held, the recovery epoch is
  raised and the part is offlined. -/
  | partLoss (p : PartId) (cause : Nat)
  /-- RECOVERY_CUT (R761): The recovery actions that come before the cut end; HOLD clears and admission resumes
  against the rebuilt state. -/
  | recoveryCut
  /-- LINK_REPAIR (R47): A furrow lane fails and its module is retrained with lane repair. -/
  | linkRepair (x : ModuleId)
  /-- LINK_DEGRADED (R48): A furrow module with no spare lane left is lost; the link runs on its other module, the
  slice is lost, or the ring hop is detoured. -/
  | linkDegraded (x : ModuleId)
  /-- MGMT_RING_SEGMENT_FAIL (R53): A management-ring segment fails and traffic is routed the other way, or dies that
  are cut off are lost. -/
  | mgmtRingSegmentFail (i : Fin 20)
  /-- LANE_REPAIR (R653): A stack channel lane fails and is repaired onto a spare; accesses are held and retried. -/
  | laneRepair (k : Fin 17) (ch : Fin 16) (data : Bool)
  /-- PATROL_SCRUB (R652): The patrol scrubber reads the next atom or access and corrects or poisons it. -/
  | patrolScrub (p : ScrubPart) (r : EccResult)
  /-- HALT (R31): A DEVICE-class cause is detected; the epoch is closed early and signed if possible, and commands
  complete with DEVICE_HOLD. -/
  | halt (cause : Fin 3)
  /-- EXCEPTION_ENTRY (R472): Once pending writes and transfers drain, the core pushes a trap frame and goes to the
  trap vector. -/
  | exceptionEntry (k : Fin 136)
  /-- CORE_LOCK_EXPIRY (R479): One beat after a LOCKED_TRAP, the device resets the halted core. -/
  | coreLockExpiry (k : Fin 136)
  /-- YIELD (R475): At an allowed boundary the core saves its context and runs waiting GUARANTEED items. -/
  | yield (k : Fin 136)
  /-- YIELD_RESUME (R475): No preempting item waits any more, so the core restores its context image and resumes. -/
  | yieldResume (k : Fin 136)
  /-- ABORT (R477): The running kernel is ended at the next boundary without a frame. -/
  | abort (k : Fin 136)
  /-- BUDGET (R478): A core's cycle count reaches the launch budget, and the kernel ends as for ABORT. -/
  | budget (k : Fin 136)
  /-- YMASK_LIMIT (R478): A YIELD pends for 65,536 cycles under YMASK, and the kernel ends as for ABORT. -/
  | ymaskLimit (k : Fin 136)
  /-- CORE_LAUNCH (R483): A launched core starts at ENTRY in the ABI state. -/
  | coreLaunch (k : Fin 136)
  /-- XFER_COMPLETE (R465): A core transfer writes its last byte; XOUT falls and stalled WAITs or XFERs may proceed.
  -/
  | xferComplete (k : Fin 136) (r : HostReply)
  /-- LONG_INSTR_STEP (R466): One step of a long instruction completes and advances PROG. -/
  | longInstrStep (k : Fin 136)
  /-- BR (R458): Unconditional branch after one delay bundle. -/
  | opBr (k : Fin 136)
  /-- BRZ (R458): Branch when g[A] is zero, after one delay bundle. -/
  | opBrz (k : Fin 136)
  /-- BRNZ (R458): Branch when g[A] is nonzero, after one delay bundle. -/
  | opBrnz (k : Fin 136)
  /-- CALL (R450): Writes PC + 2 to g63 and branches. -/
  | opCall (k : Fin 136)
  /-- RET (R450): Branches to g63 after one delay bundle. -/
  | opRet (k : Fin 136)
  /-- LOOP (R459): Sets the count, start and end of a hardware loop level. -/
  | opLoop (k : Fin 136)
  /-- END (R484): Ends this core's part of the kernel once its transfers complete. -/
  | opEnd (k : Fin 136)
  /-- FAULT (R484): Ends the kernel with KERNEL_FAULT and aborts the peer cores. -/
  | opFault (k : Fin 136)
  /-- TRAP (R480): Completes its bundle and raises the TRAP exception with an immediate. -/
  | opTrap (k : Fin 136)
  /-- RTE (R474): Restores registers from the trap frame and returns to EPC. -/
  | opRte (k : Fin 136)
  /-- MOVTC (R463): Writes a control register; a MODE write takes effect after its two-bundle shadow. -/
  | opMovtc (k : Fin 136)
  /-- MOVFC (R450): Reads a control register into a general register. -/
  | opMovfc (k : Fin 136)
  /-- RDPOS (R450): Reads the scheduled-time position from the slice's tick counter. -/
  | opRdpos (k : Fin 136)
  /-- RDCYC (R450): Reads the core cycles since launch, preemption excluded. -/
  | opRdcyc (k : Fin 136)
  /-- WAIT (R465): Stalls until at most n transfers are outstanding. -/
  | opWait (k : Fin 136)
  /-- SHEAF_POOL (R468): Long instruction that pools bags of crib records under its descriptor. -/
  | opSheafPool (k : Fin 136)
  /-- FLAIL_APPLY (R469): Long instruction that applies optimizer steps to crib records. -/
  | opFlailApply (k : Fin 136)
  /-- ATTN_BLOCK (R470): Long instruction that applies the attention block algorithm to a run of blocks. -/
  | opAttnBlock (k : Fin 136)
  /-- ADD (R451): Integer add, wrapping modulo 2^64. -/
  | opAdd (k : Fin 136) (slot : Fin 2)
  /-- SUB (R451): Integer subtract, wrapping. -/
  | opSub (k : Fin 136) (slot : Fin 2)
  /-- AND (R451): Bitwise AND. -/
  | opAnd (k : Fin 136) (slot : Fin 2)
  /-- OR (R451): Bitwise OR. -/
  | opOr (k : Fin 136) (slot : Fin 2)
  /-- XOR (R451): Bitwise XOR. -/
  | opXor (k : Fin 136) (slot : Fin 2)
  /-- SHL (R451): Shift left by the low 6 bits of the count. -/
  | opShl (k : Fin 136) (slot : Fin 2)
  /-- SHR (R451): Logical shift right. -/
  | opShr (k : Fin 136) (slot : Fin 2)
  /-- SAR (R451): Arithmetic shift right. -/
  | opSar (k : Fin 136) (slot : Fin 2)
  /-- MUL (R451): Multiply, keeping the low 64 bits. -/
  | opMul (k : Fin 136) (slot : Fin 2)
  /-- CMPEQ (R451): Writes 1 when the operands are equal, 0 otherwise. -/
  | opCmpeq (k : Fin 136) (slot : Fin 2)
  /-- CMPLT (R451): Signed less-than compare. -/
  | opCmplt (k : Fin 136) (slot : Fin 2)
  /-- CMPLTU (R451): Unsigned less-than compare. -/
  | opCmpltu (k : Fin 136) (slot : Fin 2)
  /-- MOVI (R451): Loads a signed immediate into a general register. -/
  | opMovi (k : Fin 136) (slot : Fin 2)
  /-- LD1 (R452): Loads 1 byte from the crib, zero-extended. -/
  | opLd1 (k : Fin 136) (slot : Fin 2)
  /-- LD2 (R452): Loads 2 bytes from the crib, zero-extended. -/
  | opLd2 (k : Fin 136) (slot : Fin 2)
  /-- LD4 (R452): Loads 4 bytes from the crib, zero-extended. -/
  | opLd4 (k : Fin 136) (slot : Fin 2)
  /-- LD8 (R452): Loads 8 bytes from the crib. -/
  | opLd8 (k : Fin 136) (slot : Fin 2)
  /-- LDV (R452): Loads 64 bytes into a vector register. -/
  | opLdv (k : Fin 136) (slot : Fin 2)
  /-- ST1 (R452): Stores 1 byte to the crib. -/
  | opSt1 (k : Fin 136) (slot : Fin 2)
  /-- ST2 (R452): Stores 2 bytes to the crib. -/
  | opSt2 (k : Fin 136) (slot : Fin 2)
  /-- ST4 (R452): Stores 4 bytes to the crib. -/
  | opSt4 (k : Fin 136) (slot : Fin 2)
  /-- ST8 (R452): Stores 8 bytes to the crib. -/
  | opSt8 (k : Fin 136) (slot : Fin 2)
  /-- STV (R452): Stores a vector register to the crib. -/
  | opStv (k : Fin 136) (slot : Fin 2)
  /-- XFER_IN (R464): Starts an asynchronous transfer from a device address into the crib. -/
  | opXferIn (k : Fin 136) (slot : Fin 2)
  /-- XFER_OUT (R464): Starts an asynchronous transfer from the crib to a device address. -/
  | opXferOut (k : Fin 136) (slot : Fin 2)
  /-- VADD (R453): Lane-wise vector add. -/
  | opVadd (k : Fin 136) (slot : Fin 2)
  /-- VSUB (R453): Lane-wise vector subtract. -/
  | opVsub (k : Fin 136) (slot : Fin 2)
  /-- VMUL (R453): Lane-wise vector multiply. -/
  | opVmul (k : Fin 136) (slot : Fin 2)
  /-- VFMA (R453): Lane-wise fused multiply-add into vD. -/
  | opVfma (k : Fin 136) (slot : Fin 2)
  /-- VMAX (R453): Lane-wise maximum. -/
  | opVmax (k : Fin 136) (slot : Fin 2)
  /-- VMIN (R453): Lane-wise minimum. -/
  | opVmin (k : Fin 136) (slot : Fin 2)
  /-- VDIV (R453): Lane-wise floating divide. -/
  | opVdiv (k : Fin 136) (slot : Fin 2)
  /-- VSQRT (R453): Lane-wise floating square root. -/
  | opVsqrt (k : Fin 136) (slot : Fin 2)
  /-- VEXP2 (R453): Lane-wise correctly rounded 2^x. -/
  | opVexp2 (k : Fin 136) (slot : Fin 2)
  /-- VCVT (R453): Converts lanes from one element type to another. -/
  | opVcvt (k : Fin 136) (slot : Fin 2)
  /-- VAND (R453): Vector bitwise AND. -/
  | opVand (k : Fin 136) (slot : Fin 2)
  /-- VOR (R453): Vector bitwise OR. -/
  | opVor (k : Fin 136) (slot : Fin 2)
  /-- VXOR (R453): Vector bitwise XOR. -/
  | opVxor (k : Fin 136) (slot : Fin 2)
  /-- VBCAST (R453): Broadcasts a general register to every lane. -/
  | opVbcast (k : Fin 136) (slot : Fin 2)
  /-- VEXT (R453): Extracts one lane into a general register. -/
  | opVext (k : Fin 136) (slot : Fin 2)
  /-- VPERM (R453): Permutes lanes by an index vector. -/
  | opVperm (k : Fin 136) (slot : Fin 2)
  /-- VREDADD (R453): Adds all lanes in ascending order into lane 0. -/
  | opVredadd (k : Fin 136) (slot : Fin 2)
  /-- VREDMAX (R453): Takes the maximum of all lanes into lane 0. -/
  | opVredmax (k : Fin 136) (slot : Fin 2)
  /-- ACC_MAC (R455): Takes 2^KL accumulation steps of operand products into a tile slot. -/
  | opAccMac (k : Fin 136) (slot : Fin 2)
  /-- ACC_ZERO (R454): Performs the overwrite of a slot with no step. -/
  | opAccZero (k : Fin 136) (slot : Fin 2)
  /-- ACC_RDS (R424): Reads one strip of a slot at its provisional promoted value. -/
  | opAccRds (k : Fin 136) (slot : Fin 2)
  /-- ACC_WRS (R425): Writes one strip into W of a slot. -/
  | opAccWrs (k : Fin 136) (slot : Fin 2)
  /-- ACC_SAVE (R426): Writes a slot's whole state to memory as a slot image. -/
  | opAccSave (k : Fin 136) (slot : Fin 2)
  /-- ACC_RESTORE (R426): Restores a slot from a slot image. -/
  | opAccRestore (k : Fin 136) (slot : Fin 2)
  /-- ACC_DRAIN (R428): Long instruction that promotes a tile and writes it row by row, with optional statistics. -/
  | opAccDrain (k : Fin 136)
  /-- ACC_SWAP (R432): Inverts the accumulator BANK. -/
  | opAccSwap (k : Fin 136) (slot : Fin 2)
  /-- ACC_FLAGS (R454): Reads SAT, NAN and LIVE of all slots into a general register. -/
  | opAccFlags (k : Fin 136) (slot : Fin 2)
  /-- QDB_KVN_HEAD (R365): The owner advances HEAD of its notice ring, freeing room for held eviction notices. -/
  | qdbKvnHead (f : Fin 64) (h : BitVec 16)
  /-- IDENTIFY (R830): Mailbox operation that returns the part, stepping, state, generation, version, boot count and
  function number. -/
  | identify (f : Fin 64) (len : Fin 4096)
  /-- GEN_QUERY (R830): Mailbox operation that returns the generation in force and the number of pending changes. -/
  | genQuery (f : Fin 64) (len : Fin 4096)
  /-- TABLE_REGISTER (R835): Mailbox change that registers an embedding table, with a default row where needed. -/
  | tableRegister (f : Fin 64) (len : Fin 4096)
  /-- KV_REGISTER (R341): Mailbox change that declares a KV table. -/
  | kvRegister (f : Fin 64) (len : Fin 4096)
  /-- TABLE_RELEASE (R210): Mailbox change that releases a table. -/
  | tableRelease (f : Fin 64) (len : Fin 4096)
  /-- TABLE_QUERY (R830): Mailbox operation that returns a table's record and, optionally, its shard-map entries. -/
  | tableQuery (f : Fin 64) (len : Fin 4096)
  /-- SHARD_MOVE (R315): Mailbox change that requests a shard move to a target tier. -/
  | shardMove (f : Fin 64) (len : Fin 4096)
  /-- HUSK_SET (R191): Mailbox change that turns husk protection on or off for a table. -/
  | huskSet (f : Fin 64) (len : Fin 4096)
  /-- CLASS_SET (R616): Mailbox change that replaces a class or range entry. -/
  | classSet (f : Fin 64) (len : Fin 4096)
  /-- LEDGER_SET (R682): Mailbox change that replaces the LEDGER section. -/
  | ledgerSet (f : Fin 64) (len : Fin 4096)
  /-- KERNEL_LOAD (R445): Mailbox change that loads a kernel into the code area. -/
  | kernelLoad (f : Fin 64) (len : Fin 4096)
  /-- KERNEL_UNLOAD (R830): Mailbox change that unloads a kernel. -/
  | kernelUnload (f : Fin 64) (len : Fin 4096)
  /-- CORE_RESET (R830): Mailbox operation that resets a core held in LOCKED_TRAP. -/
  | coreReset (f : Fin 64) (len : Fin 4096)
  /-- FUNC_CTL (R513): Mailbox operation by which the steward enables or disables a function, a disable being a
  function reset. -/
  | funcCtl (f : Fin 64) (len : Fin 4096)
  /-- IMAGE_STAGE (R834): Mailbox operation that writes image bytes into slot B. -/
  | imageStage (f : Fin 64) (len : Fin 4096)
  /-- IMAGE_ACTIVATE (R122): Mailbox operation that validates slot B and copies it into slot A. -/
  | imageActivate (f : Fin 64) (len : Fin 4096)
  /-- KEY_READ (R830): Mailbox operation that returns the device public key, KEY_ID and OWNER_KEY. -/
  | keyRead (f : Fin 64) (len : Fin 4096)
  /-- CERT_READ (R830): Mailbox operation that returns the device certificate. -/
  | certRead (f : Fin 64) (len : Fin 4096)
  /-- ANCHOR_SET (R107): Accepts a wall-clock anchor within the boundary history and journals it. -/
  | anchorSet (f : Fin 64) (len : Fin 4096)
  /-- EVENT_RING (R753): Registers or unregisters the steward's event delivery ring. -/
  | eventRing (f : Fin 64) (len : Fin 4096)
  /-- DUMP_RING (R805): Registers or unregisters the counter dump ring. -/
  | dumpRing (f : Fin 64) (len : Fin 4096)
  /-- PIP_RING (R812): Registers or unregisters the pip ring. -/
  | pipRing (f : Fin 64) (len : Fin 4096)
  /-- NOTICE_RING (R365): Registers or unregisters a function's eviction notice ring. -/
  | noticeRing (f : Fin 64) (len : Fin 4096)
  /-- EVENT_FETCH (R830): Mailbox operation that returns journaled events by EVSEQ. -/
  | eventFetch (f : Fin 64) (len : Fin 4096)
  /-- DUMP_READ (R805): Mailbox operation that returns one of the four most recent dump records. -/
  | dumpRead (f : Fin 64) (len : Fin 4096)
  /-- PROOF_READ (R703): Mailbox operation that returns a proof bundle for a retained epoch, held until the record is
  committed. -/
  | proofRead (f : Fin 64) (len : Fin 4096)
  /-- EPOCH_READ (R703): Mailbox operation that returns journaled epoch records. -/
  | epochRead (f : Fin 64) (len : Fin 4096)
  /-- SUMMARY_READ (R703): Mailbox operation that returns an epoch's 64 function summaries. -/
  | summaryRead (f : Fin 64) (len : Fin 4096)
  /-- COLLECT_ACK (R704): Acknowledges collection up to epoch N and journals COLLECTED. -/
  | collectAck (f : Fin 64) (len : Fin 4096)
  /-- REPORT_READ (R780): Mailbox operation that returns a rebuild report, as far as the function is allowed. -/
  | reportRead (f : Fin 64) (len : Fin 4096)
  /-- CRASH_READ (R830): Mailbox operation that returns a core's crash record. -/
  | crashRead (f : Fin 64) (len : Fin 4096)
  /-- MAILBOX_COMPLETE (R826): A mailbox operation ends; output, STATUS and DONE are set and vector 0 is sent. -/
  | mailboxComplete (target : MbxId)
  /-- SET_ENDPOINT_ID (R837): MCTP Set Endpoint ID assigns the control die's endpoint ID. -/
  | setEndpointId (e : Fin 2) (eid : BitVec 8)
  /-- GET_SENSOR_READING (R838): PLDM type 2 request for a numeric sensor reading. -/
  | getSensorReading (e : Fin 2) (id : BitVec 16)
  /-- GET_STATE_SENSOR_READINGS (R838): PLDM type 2 request for the state sensors. -/
  | getStateSensorReadings (e : Fin 2) (id : BitVec 16)
  /-- GET_PDR (R838): PLDM type 2 request for a PDR repository entry. -/
  | getPdr (e : Fin 2) (handle : BitVec 32)
  /-- REQUEST_UPDATE (R843): A PLDM firmware update begins and takes the slot-B staging lock. -/
  | requestUpdate (e : Fin 2)
  /-- REQUEST_FIRMWARE_DATA (R839): A 1,024-byte image part is transferred into slot B. -/
  | requestFirmwareData (e : Fin 2) (off : BitVec 32) (bytes : List Byte)
  /-- VERIFY_COMPLETE (R839): The checks of Table 4-7 run on slot B. -/
  | verifyComplete (e : Fin 2)
  /-- ACTIVATE_FIRMWARE (R839): PLDM activation carries out the image activation of R122 and R172. -/
  | activateFirmware (e : Fin 2)
  /-- STAGING_TIMEOUT (R843): 60 s pass without a further staged part and the staging lock is released. -/
  | stagingTimeout
  /-- PLDM_OEM_REQUEST (R840): A Logaen OEM request runs a permitted mailbox operation for the BMC and returns output
  from OFFSET. -/
  | pldmOemRequest (e : Fin 2) (vendor : BitVec 16) (op : BitVec 16) (offset : BitVec 32) (inp : List Byte)
  /-- REG_READ (R841): OEM operation by which the BMC reads one register of a control-die block open to it. -/
  | regRead (e : Fin 2) (die : BitVec 8) (blk : BitVec 8) (off : BitVec 16)
  /-- UNKNOWN_OPCODE (R33): An admitted command whose OPCODE is reserved completes with BAD_OPCODE, detail 0x01
  UNKNOWN_OPCODE. -/
  | unknownOpcode (q : Fin 256)
  /-- BAD_OP (R830): A GO with a reserved mailbox OP starts an operation that completes with status BAD_OP. -/
  | badOp (f : Fin 64) (op : BitVec 16) (len : Fin 4096)
  /-- HOST_READ_COMPLETION (R502): A completion for a read or translation request that the device issued to the host
  arrives with data, Unsupported Request, Completer Abort, poisoned data or a translation. -/
  | hostReadCompletion (t : ReadOf) (r : HostReply)
  /-- COMPLETION_TIMEOUT (R502): A read that the device issued to host memory reaches the Completion Timeout range
  without a completion, and its command ends with PERMISSION. -/
  | completionTimeout (t : ReadOf)
  /-- CONFIGURATION_REQUEST (R512): A host configuration read or write arrives, such as setting VF Enable, raising
  NumVFs, PASID Enable, Memory Space Enable or a change of D-state to D3hot. -/
  | configurationRequest (f : Fin 68) (r : ConfigReq)
  /-- PEER_LINK_UP (R518): A PEER port returns to DL_Up, and its peer function leaves reset so that landing-zone
  writes resume. -/
  | peerLinkUp (l : LinkTrained 8)
  /-- CXL_EVENT_INTERRUPT (R664): A CXL expander raises an event interrupt, and the device reads its General Media,
  DRAM and Memory Module event records. -/
  | cxlEventInterrupt (e : Fin 4) (rs : List CxlRecord)
  /-- WIN_CACHE_ENABLE (R595): Setting WIN_CTL.CEN sends the function's window accesses through the window cache
  again, with the lines that it kept at the disable. -/
  | winCacheEnable (f : Fin 64)
  /-- SHARD_PARITY_DONE (R191): The parity computation of one shard under a change that turns HUSK on finishes, and
  the next generation of the change is staged. -/
  | shardParityDone
  /-- JOURNAL_ERASE_FAIL (R168): The background erase of a journal region fails, which counts toward both regions
  failing and HALT. -/
  | journalEraseFail
  /-- HOLD_UP_END (R738): After POWER_FAIL, the carrier's hold-up ends and the logic-side supplies fall, so the
  device is in COLD. -/
  | holdUpEnd
  deriving DecidableEq, Repr

end Sys2Proof
end

