-- ==== Sys2Proof/Decode.lean ====
section
/-!
DEFINITION. Sys2Proof/Decode.lean: the block has no instruction words: spec/opcode_table.json gives no row any bits, so no
word spells a command. (The bundles of the Culm cores, which the block's own memory holds, are decoded in
Machine/CulmOps.lean.)
-/
namespace Sys2Proof

/-- The command that a word of `nbits` bits spells by the opcode table: none, since no row of it has bits. -/
def decodeTableWord (_nbits _w : Nat) : Option Instr := none

end Sys2Proof
end

