-- ==== Sys2Proof/Machine/StFunc.lean ====
section
/-!
DEFINITION. Sys2Proof/Machine/StFunc.lean: rings to the host, PCI functions, window registers.
-/
namespace Sys2Proof.Machine

/-! ## Ports, functions and queues (chapters 9, 13, 14, 15, 21, 22) -/

/-- A ring the device writes to a host and the host consumes: event, dump, pip and notice rings
(Table 20-4a, Table 9-9, Table 21-10, R805). -/
structure RingCtl where
  /-- HEAD. [16; 20_errors_and_recovery Table 20-4a; 0] -/
  head : BitVec 16
  /-- EN: a ring is registered. [1; 20_errors_and_recovery Table 20-4a; 0] -/
  en : Bool
  /-- OVER. [1; 20_errors_and_recovery Table 20-4a; 0] -/
  overrun : Bool
  /-- LOST, saturating. [16; 20_errors_and_recovery Table 20-4a; 0] -/
  lost : BitVec 16
  /-- Ring base, host address. [64; 22_management R833; 0] -/
  addr : BitVec 64
  /-- ENTRIES. [32; 22_management R833; 0] -/
  entries : Nat
  /-- VECTOR. [16; 22_management R833; 0] -/
  vector : Nat
  /-- Index of the next entry the device writes. [16; 09_kv_cache R365; 0] -/
  tail : Nat
  /-- PHASE the device writes on this pass. [1; 09_kv_cache R365; 0] -/
  phase : Bool
  deriving DecidableEq, Repr

/-- One MSI-X table entry (R509): address, data, mask. -/
structure MsixEntry where
  /-- Vector. [11; 13_host_ports R509; -] -/
  vec : Nat
  /-- Message address. [64; 13_host_ports R509; 0] -/
  addr : BitVec 64
  /-- Message data. [32; 13_host_ports R509; 0] -/
  data : BitVec 32
  /-- Vector control: the mask bit in [0]. [32; 13_host_ports R510; 1] -/
  ctl : BitVec 32
  deriving DecidableEq, Repr

/-- The window registers of one tenant function (Tables 15-6 to 15-9). -/
structure WinRegs where
  /-- WIN_BASE. [64; 15_data_movement Table 15-6; 0] -/
  base : BitVec 64
  /-- WIN_CTL.CEN. [1; 15_data_movement Table 15-7; 0] -/
  cen : Bool
  /-- WIN_CTL.CARVE as written. [9; 15_data_movement Table 15-7; 0] -/
  carve : Nat
  /-- CARVE in force: carved lines this function holds. [9; 15_data_movement R591; 0] -/
  carved : Nat
  /-- WIN_MADDR. [64; 15_data_movement Table 15-6; 0] -/
  maddr : BitVec 64
  /-- WIN_RBASE. [64; 15_data_movement Table 15-6; 0] -/
  rbase : BitVec 64
  /-- WIN_RLEN. [64; 15_data_movement Table 15-6; 0] -/
  rlen : BitVec 64
  /-- WIN_RCTL's stored vector and flags. [64; 15_data_movement Table 15-8; 0] -/
  rctl : BitVec 64
  /-- WIN_STAT.RBUSY. [1; 15_data_movement Table 15-9; 0] -/
  rbusy : Bool
  /-- WIN_STAT.RDONE. [1; 15_data_movement Table 15-9; 0] -/
  rdone : Bool
  /-- WIN_STAT.MERR. [1; 15_data_movement Table 15-9; 0] -/
  merr : Bool
  /-- WIN_STAT.LOCKED: locked lines. [7; 15_data_movement Table 15-9; 0] -/
  locked : Nat
  deriving DecidableEq, Repr

/-- PCI configuration state of one function that changes what the device does (chapter 13). -/
structure PciCfg where
  /-- The function exists (FUNC_MAP EN). [1; 13_host_ports Table 13-3; false] -/
  en : Bool
  /-- VECTORS. [12; 13_host_ports Table 13-3; 0] -/
  vectors : Nat
  /-- Memory Space Enable. [1; 13_host_ports R508; PRESUMED 0 (log 3)] -/
  mse : Bool
  /-- VF Enable (PF). [1; 13_host_ports R504; PRESUMED 0 (log 3)] -/
  vfEnable : Bool
  /-- NumVFs (PF). [4; 13_host_ports R504; PRESUMED 0 (log 3)] -/
  numVfs : Nat
  /-- PASID Enable (PF). [1; 13_host_ports R500; PRESUMED 0 (log 3)] -/
  pasidEn : Bool
  /-- ATS Enable. [1; 13_host_ports R501; PRESUMED 0 (log 3)] -/
  atsEn : Bool
  /-- MSI-X Enable. [1; 13_host_ports R510; PRESUMED 0 (log 3)] -/
  msixEn : Bool
  /-- MSI-X Function Mask. [1; 13_host_ports R510; PRESUMED 0 (log 3)] -/
  funcMask : Bool
  /-- D3hot (D0 otherwise). [1; 13_host_ports Table 13-2; PRESUMED D0 (log 3)] -/
  d3hot : Bool
  /-- Disabled by the steward through FUNC_CTL. [1; 13_host_ports R513; false] -/
  disabled : Bool
  /-- Max_Payload_Size, 128 x 2^n bytes. [3; 13_host_ports Table 13-2; PRESUMED 0 (log 138)] -/
  mps : Nat
  /-- Max_Read_Request_Size, 128 x 2^n bytes. [3; 13_host_ports Table 13-2; PRESUMED 2 (log 138)] -/
  mrrs : Nat
  /-- Relaxed Ordering Enable. [1; 15_data_movement R570; PRESUMED 1 (log 138)] -/
  roEn : Bool
  /-- ID-Based Ordering enables. [1; 13_host_ports Table 13-2; PRESUMED 0 (log 138)] -/
  idoEn : Bool
  /-- 10-Bit Tag Requester Enable. [1; 13_host_ports Table 13-2; PRESUMED 0 (log 138)] -/
  tag10 : Bool
  /-- Completion Timeout Value. [4; 13_host_ports R502; PRESUMED 0 (log 138)] -/
  ctoRange : Nat
  /-- Completion Timeout Disable. [1; 13_host_ports R502; PRESUMED 0 (log 138)] -/
  ctoOff : Bool
  /-- Error reporting enables: correctable, non-fatal, fatal. [3; 13_host_ports R502; PRESUMED 0 (log 138)] -/
  errRep : BitVec 3
  /-- Uncorrectable Error Status. [32; 13_host_ports R502; PRESUMED 0 (log 138)] -/
  aerStat : BitVec 32
  /-- Uncorrectable Error Mask. [32; 13_host_ports R502; PRESUMED 0 (log 138)] -/
  aerMask : BitVec 32
  /-- Uncorrectable Error Severity. [32; 13_host_ports R502; PRESUMED 0x00462030 (log 138)] -/
  aerSev : BitVec 32
  /-- ACS Control (PF). [7; 13_host_ports Table 13-2; PRESUMED 0 (log 138)] -/
  acs : BitVec 7
  /-- BAR0, BAR2 and BAR4. [3 x 64; 13_host_ports R505; PRESUMED 0 (log 138)] -/
  bars : Vector (BitVec 64) 3
  /-- VF BAR0 and VF BAR2 (PF). [2 x 64; 13_host_ports R505; PRESUMED 0 (log 138)] -/
  vfBars : Vector (BitVec 64) 2
  deriving DecidableEq, Repr

/-- A port (Table 13-1). -/
structure Port where
  /-- DL_Up. [1; 13_host_ports R515; 0] -/
  up : Bool
  /-- Rate in GT/s while the link is up. [7; 13_host_ports R498; DESIGN CHOICE 0 while it is down (log 138)] -/
  rate : Nat
  /-- Width in lanes while the link is up. [5; 13_host_ports R498; DESIGN CHOICE 0 while it is down (log 138)] -/
  width : Nat
  /-- Flit Mode. [1; 13_host_ports Table 13-2; DESIGN CHOICE false while it is down (log 138)] -/
  flit : Bool
  /-- Bus number captured from configuration writes. [8; 13_host_ports R503; PRESUMED 0 (log 138)] -/
  bus : BitVec 8
  /-- Configuration state of the peer function of a PEER port. [-; 13_host_ports R495; PRESUMED (log 138)] -/
  peer : PciCfg
  deriving DecidableEq, Repr

end Sys2Proof.Machine
end

