-- ==== Sys2Proof/Machine/StPower.lean ====
section
/-!
DEFINITION. Sys2Proof/Machine/StPower.lean: QoS, memory tiers, ledger, power management.
-/
namespace Sys2Proof.Machine

/-! ## QoS, memory tiers, energy, power (chapters 16 to 19) -/

/-- Priority levels (Table 16-4). -/
inductive Level where
  | guaranteed | normal | demoted | scavenger
  deriving DecidableEq, Repr

/-- A guarantee and a ceiling (none: no ceiling), in the resource's unit (Tables 16-2, 16-3). -/
structure Budget where
  /-- G. [32; 16_qos Table 16-2; 0] -/
  g : Nat
  /-- C, none when all ones. [32; 16_qos Table 16-2; none] -/
  c : Option Nat
  deriving DecidableEq, Repr

/-- A class entry or a range entry (Tables 16-2 and 16-3). Resource 0 is SLOTS, then STACK, CRIB, DDR, CXL. -/
structure ClassEnt where
  /-- BASE. [8; 16_qos Table 16-2; -] -/
  base : Level
  /-- FUNC_MASK, for a class. [64; 16_qos Table 16-2; -] -/
  mask : BitVec 64
  /-- DA of a range entry. [64; 16_qos Table 16-3; -] -/
  da : Nat
  /-- SIZE of a range entry. [64; 16_qos Table 16-3; -] -/
  size : Nat
  /-- Guarantee and ceiling by resource. [5 x 2; 16_qos Table 16-2; -] -/
  budget : Vector Budget 5
  deriving DecidableEq, Repr

/-- What one class or range class has used in the current window. -/
structure ClassUse where
  /-- Bytes used by resource (entry 0 unused). [5; 16_qos R614; 0] -/
  used : Vector Nat 5
  /-- Commands in flight n. [13; 16_qos R618; 0] -/
  n : Nat
  /-- Largest n in the window. [16; 16_qos Table 16-7; 0] -/
  peak : Nat
  /-- Sum of n over the window's ticks, for the mean. [-; 16_qos Table 16-7; 0] -/
  area : Nat
  /-- Lowest level reached, by resource. [5 x 2; 16_qos Table 16-7; GUARANTEED] -/
  low : Vector Level 5
  /-- Downward level changes. [16; 16_qos Table 16-7; 0] -/
  drops : Nat
  /-- Commands relabelled. [32; 16_qos Table 16-7; 0] -/
  relabel : Nat
  deriving DecidableEq, Repr

/-- The QoS regulator and its registers. -/
structure Qos where
  /-- CTL_QOS_WIN.TICK. [16; 16_qos Table 16-8; 0xFFFF] -/
  winTick : BitVec 16
  /-- CTL_QOS_WIN.BEAT. [48; 16_qos Table 16-8; 0xFFFF_FFFF_FFFF] -/
  winBeat : BitVec 48
  /-- CTL_QOS_FACT: F_SLOTS, F_STACK, F_CRIB, F_DDR, F_CXL. [5 x 11; 16_qos Table 16-9; 0x400] -/
  fact : Vector Nat 5
  /-- CTL_QOS_REC records 0 to 31, as bytes. [32 x 32 bytes; 16_qos Table 16-7; DC 0 (log 3)] -/
  recs : List (List Byte)
  /-- Usage of classes 0 to 15 and range classes 0 to 15. [32; 16_qos R614; 0] -/
  usage : Vector ClassUse 32
  /-- Usage of the window that has ended, until QOS_WINDOW_CLOSE. [32; 16_qos R614, 03_beat_timebase R101; 0] -/
  closing : Vector ClassUse 32
  /-- The current window takes in ticks of a HOLDOVER or ACQUIRE beat. [1; 03_beat_timebase R99; true] -/
  hold : Bool
  /-- The window that has ended did. [1; 03_beat_timebase R99; false] -/
  closingHold : Bool
  /-- Tick and beat at which the current window opened. [64; 16_qos R622; 0] -/
  openPos : Nat
  /-- Grants since the last aged grant of the bridge admission. [2 x 5; 16_qos R621; 0] -/
  aged : Vector Nat 2
  /-- Shortfall totals of the epoch by resource. [5 x 64; 16_qos R628; 0] -/
  shortfall : Vector Nat 5
  /-- Reservation weights summed over the epoch's windows. [16; 18_energy_ledger Table 18-6; 0] -/
  weights : Vector Nat 16
  deriving DecidableEq, Repr

/-- One slice die as a part: stack status, clocks, Flail, counters of Stolon. -/
structure Slice where
  /-- The slice and its stack are offline. [1; 20_errors_and_recovery R760; false] -/
  offline : Bool
  /-- SLC_HBM_STAT.TEMP. [12; 17_memory_tiers Table 17-4; 0] -/
  temp : BitVec 12
  /-- SLC_HBM_STAT.REF2X. [1; 17_memory_tiers Table 17-4; 0] -/
  ref2x : Bool
  /-- SLC_HBM_STAT.HOT_EV. [1; 17_memory_tiers Table 17-4; 0] -/
  hotEv : Bool
  /-- Spare data lanes left by channel (SPARES is the least, and reads 0 until the stack is trained). [16 x 3; 17_memory_tiers R653, Table 17-4; 4] -/
  spareData : Vector Nat 16
  /-- Spare command-address lanes left by channel. [16; 17_memory_tiers R653; 1] -/
  spareCa : Vector Nat 16
  /-- The stack is trained: SPARES reads the lanes left. [1; 17_memory_tiers Table 17-4; false] -/
  trained : Bool
  /-- DRAM rows of its stack that this BOOT has repaired. [-; 17_memory_tiers R654; none] -/
  repaired : List Nat
  /-- SLC_HBM_STAT.CE. [16; 17_memory_tiers Table 17-4; 0] -/
  ce : BitVec 16
  /-- SLC_HBM_STAT.UE. [16; 17_memory_tiers Table 17-4; 0] -/
  ue : BitVec 16
  /-- Uncorrectable atoms of this beat by channel. [16; 17_memory_tiers Table 17-3; 0] -/
  ueBeat : Vector Nat 16
  /-- Uncorrectable atoms by channel not yet named in a MEM_UE record. [-; 20_errors_and_recovery R757; 0] -/
  ueMissed : Vector Nat 16
  /-- SLC_STOLON_STAT.LIFT_SKIP_EV. [1; 08_row_migration Table 8-2; 0] -/
  liftSkipEv : Bool
  /-- SLC_STOLON_STAT.ENTRIES. [16; 08_row_migration Table 8-2; 0] -/
  entries : BitVec 16
  /-- SLC_STOLON_STAT.CLOSED_BEAT. [32; 08_row_migration Table 8-2; 0xFFFF_FFFF] -/
  closedBeat : BitVec 32
  /-- SLC_STOLON_CH0 to CH15. [16 x 48; 08_row_migration R304; 0] -/
  ch : Vector (BitVec 48) 16
  /-- Atom counts of the current beat by channel. [16; 08_row_migration R304; 0] -/
  chNow : Vector Nat 16
  /-- Atoms on each channel in the beat that has ended, until LOAD_COUNT_CLOSE. [48 x 16; 03_beat_timebase R101, 08_row_migration R304; 0] -/
  chLatch : Vector Nat 16
  /-- Next offset of the patrol scrub. [36; 17_memory_tiers R652; DC 0 (log 3)] -/
  scrub : Nat
  deriving DecidableEq, Repr

/-- BRG_DIMM_STATn or BRG_CXL_STATn (Table 17-7), with what judges a loss. -/
structure FarPart where
  /-- PRESENT. [1; 17_memory_tiers Table 17-7; 0] -/
  present : Bool
  /-- LOST. [1; 17_memory_tiers Table 17-7; 0] -/
  lost : Bool
  /-- CE. [16; 17_memory_tiers Table 17-7; 0] -/
  ce : BitVec 16
  /-- UE. [16; 17_memory_tiers Table 17-7; 0] -/
  ue : BitVec 16
  /-- Uncorrectable accesses of this beat. [-; 17_memory_tiers R663; 0] -/
  ueBeat : Nat
  /-- Uncorrectable accesses not yet named in a MEM_UE record. [-; 20_errors_and_recovery R757; 0] -/
  ueMissed : Nat
  /-- Next address of the patrol scrub. [-; 17_memory_tiers R662; DC 0 (log 3)] -/
  scrub : Nat
  deriving DecidableEq, Repr

/-- LEDGER policies (Table 18-3). -/
inductive Policy where
  | reservation | usage | house
  deriving DecidableEq, Repr

/-- The LEDGER section in force (Table 18-3). -/
structure LedgerCfg where
  /-- POLICY. [8; 18_energy_ledger Table 18-3; -] -/
  policy : Policy
  /-- HOUSE_PPM. [32; 18_energy_ledger Table 18-3; -] -/
  housePpm : Nat
  /-- RECON_PPM. [32; 18_energy_ledger Table 18-3; -] -/
  reconPpm : Nat
  /-- INIT_GAIN. [32; 18_energy_ledger Table 18-3; -] -/
  initGain : Nat
  /-- WEIGHT and LEAK of domains 0 to 331. [332 x 64; 18_energy_ledger Table 18-3; -] -/
  domains : List (Nat × Nat)
  deriving DecidableEq, Repr

/-- One receipt of the epoch as the subtree holds it (R685, R695). -/
structure Receipt where
  /-- Full sequence Q. [64; 18_energy_ledger R686; -] -/
  q : Nat
  /-- FUNC. [6; 18_energy_ledger Table 18-4; -] -/
  func : Nat
  /-- CLASS. [4; 18_energy_ledger Table 18-4; -] -/
  cls : Nat
  /-- ENERGY. [40; 18_energy_ledger Table 18-4; -] -/
  energy : Nat
  /-- Its 16 bytes. [16 bytes; 18_energy_ledger R685; -] -/
  bytes : List Byte
  deriving DecidableEq, Repr

/-- What an epoch has gathered when it ends: everything after it counts in the next epoch (R101, R106, R689). -/
structure EpochCut where
  /-- Meter energy, pJ. [-; 18_energy_ledger R677; -] -/
  meterPj : Nat
  /-- Gap samples. [32; 18_energy_ledger R678; -] -/
  gaps : Nat
  /-- Highest 1 ms mean. [32; 18_energy_ledger Table 18-8; -] -/
  peakMw : Nat
  /-- House energy in whole nJ. [64; 18_energy_ledger Table 18-5; -] -/
  house : Nat
  /-- Receipts, newest first. [-; 18_energy_ledger R688; -] -/
  receipts : List Receipt
  /-- Functions a reset reached. [64; 18_energy_ledger Table 18-7; -] -/
  resets : BitVec 64
  /-- Commands admitted and not posted, with their energy in whole nJ. [-; 18_energy_ledger Table 18-5; -] -/
  open_ : List (Nat × Nat)
  /-- STATE of the device. [8; 18_energy_ledger Table 18-8; -] -/
  state : Nat
  /-- The device serves degraded, or a part has been lost. [1; 18_energy_ledger Table 18-8; -] -/
  degraded : Bool
  deriving DecidableEq, Repr

/-- A closed epoch on its way to the journal (R689, R700). -/
structure ClosedEpoch where
  /-- EPOCH. [64; 18_energy_ledger R699; -] -/
  num : Nat
  /-- Record bytes [0, 448): all but the signature and what precedes it as reserved. [448 bytes; 18_energy_ledger Table 18-8; -] -/
  body : List Byte
  /-- The 64 summaries of 112 bytes. [64 x 112 bytes; 18_energy_ledger Table 18-7; -] -/
  summaries : List (List Byte)
  /-- Signatures that failed so far. [1; 18_energy_ledger R710; -] -/
  fails : Nat
  deriving DecidableEq, Repr

/-- Metering and the ledger. -/
structure Ledger where
  /-- MTR_STAT.LIVE. [1; 18_energy_ledger Table 18-2; 0] -/
  live : Bool
  /-- MTR_STAT.GAP_EV. [1; 18_energy_ledger Table 18-2; 0] -/
  gapEv : Bool
  /-- MTR_STAT.RANGE_EV. [1; 18_energy_ledger Table 18-2; 0] -/
  rangeEv : Bool
  /-- MTR_STAT.GAPS. [16; 18_energy_ledger Table 18-2; 0] -/
  gaps : BitVec 16
  /-- MTR_STAT.POWER_MW. [32; 18_energy_ledger Table 18-2; 0] -/
  powerMw : BitVec 32
  /-- MTR_ENERGY, nJ. [64; 18_energy_ledger R679; 0] -/
  energy : BitVec 64
  /-- MTR_GAIN. [32; 18_energy_ledger R679; 0] -/
  gain : BitVec 32
  /-- Last good sample: mV and mA. [-; 18_energy_ledger R678; DC 0 (log 3)] -/
  lastSample : Nat × Nat
  /-- Samples of the current 1 ms: count, sum of mW, sum of mV, and good ones. [-; 18_energy_ledger Table 18-2; 0] -/
  msAcc : Nat × Nat × Nat × Nat
  /-- Samples since the last good one. [-; 18_energy_ledger R705; 0] -/
  sinceGood : Nat
  /-- Meter energy of the epoch, pJ. [-; 18_energy_ledger R677; 0] -/
  meterPj : Nat
  /-- Meter energy since BOOT below a whole nJ, pJ. [-; 18_energy_ledger R679; 0] -/
  fracPj : Nat
  /-- Gap samples of the epoch. [32; 18_energy_ledger R678; 0] -/
  epochGaps : Nat
  /-- Highest 1 ms mean of the epoch. [32; 18_energy_ledger Table 18-8; 0] -/
  peakMw : Nat
  /-- An epoch is open. [1; 01_overview R26; false] -/
  isOpen : Bool
  /-- Number of the open epoch. [64; 18_energy_ledger R699; 0] -/
  epoch : Nat
  /-- Epoch floor kept in the device area. [64; 18_energy_ledger R699; 0] -/
  floor : Nat
  /-- Position at which it opened. [64; 18_energy_ledger Table 18-8; 0] -/
  openPos : Nat
  /-- Control-die clock at which it opened, 1/16 ns. [-; 03_beat_timebase R108; 0] -/
  openClk : Nat
  /-- Beats left in it. [12; 03_beat_timebase R96; 0] -/
  beatsLeft : Nat
  /-- Flags gathered for its record: HOLDOVER, STRETCH, SPLIT, FIRST. [16; 18_energy_ledger Table 18-8; 0] -/
  flags : BitVec 16
  /-- C_in, nJ. [64; 18_energy_ledger Table 18-5; 0] -/
  carryIn : Nat
  /-- House accumulator in 2^-32 nJ. [80; 18_energy_ledger R683; 0] -/
  house : Nat
  /-- Receipts of the epoch, newest first. [-; 18_energy_ledger R688; empty] -/
  receipts : List Receipt
  /-- Functions a reset reached in the epoch. [64; 18_energy_ledger Table 18-7; 0] -/
  resets : BitVec 64
  /-- The epoch that has ended and is to close at this tick. [-; 03_beat_timebase R101, R106; none] -/
  cut : Option EpochCut
  /-- Policy in force in the open epoch. [-; 18_energy_ledger R711; none] -/
  cfg : Option LedgerCfg
  /-- Epochs closed and not yet journaled, oldest first. [-; 18_energy_ledger R701; empty] -/
  closed : List ClosedEpoch
  /-- Retained: epoch number, its 64 summaries and its record, newest first. [256; 18_energy_ledger R702, R703; empty] -/
  retained : List (Nat × List (List Byte) × List Byte)
  /-- Digest of the last epoch record, if known. [256; 18_energy_ledger R700; none] -/
  prevDigest : Option (List Byte)
  /-- An epoch was left without a record at HALT: the next BOOT breaks the chain. [1; 18_energy_ledger R708; false] -/
  broken : Bool
  /-- Highest epoch whose collection is acknowledged. [64; 18_energy_ledger R704; 0] -/
  collected : Nat
  deriving DecidableEq, Repr

/-- One power domain (Table 19-4). -/
structure Domain where
  /-- Switched on. [1; 19_power_and_thermal R741; DC control domains on, others off (log 3)] -/
  on : Bool
  /-- Clamped. [1; 19_power_and_thermal R741; 0] -/
  clamped : Bool
  /-- Power-good did not come in BRINGUP. [1; 19_power_and_thermal R725; false] -/
  bad : Bool
  /-- Remainder of activity events in 1/1024. [10; 19_power_and_thermal R720; 0] -/
  rem : Nat
  /-- On-time of the epoch up to `since`, in 1/16 ns. [64; 18_energy_ledger R693; 0] -/
  onTime : Nat
  /-- Control-die clock up to which `onTime` counts. [-; 18_energy_ledger R693; 0] -/
  since : Nat
  deriving DecidableEq, Repr

/-- One power-sequence entry (R129). -/
structure SeqEntry where
  /-- OP. [8; 04_image_and_startup Table 4-5; -] -/
  op : Nat
  /-- DOMAIN. [16; 04_image_and_startup R129; -] -/
  domain : Nat
  /-- ARG. [32; 04_image_and_startup R129; -] -/
  arg : Nat
  deriving DecidableEq, Repr

/-- A sequence that is due: ID and the part it is for (slice, or bridge for FAR_OFF) (R722, R724). -/
structure SeqDue where
  /-- ID. [8; 04_image_and_startup R129; -] -/
  id : Nat
  /-- Part. [8; 19_power_and_thermal R724; -] -/
  part : Nat
  deriving DecidableEq, Repr

/-- Power management: operating points and sequences. Die numbers are those of Table 2-1. -/
structure Pmc where
  /-- PMC_STAT.SAG. [1; 19_power_and_thermal Table 19-9; 0] -/
  sag : Bool
  /-- PMC_STAT.SAG_EV. [1; 19_power_and_thermal Table 19-9; 0] -/
  sagEv : Bool
  /-- PMC_STAT.SEQ_RUN: the running sequence. [1; 19_power_and_thermal Table 19-9; none] -/
  run : Option SeqDue
  /-- PMC_STAT.SEQ_FAIL_EV. [1; 19_power_and_thermal Table 19-9; 0] -/
  seqFailEv : Bool
  /-- PMC_STAT.SEQ_ID. [4; 19_power_and_thermal Table 19-9; 0] -/
  seqId : BitVec 4
  /-- PMC_STAT.ENTRY. [12; 19_power_and_thermal Table 19-9; 0] -/
  entry : BitVec 12
  /-- PMC_STAT.F_PWR. [11; 19_power_and_thermal Table 19-9; 0x400] -/
  fPwr : Nat
  /-- PMC_STAT.VIN. [16; 19_power_and_thermal Table 19-9; 0] -/
  vin : BitVec 16
  /-- Sequences due and waiting. [-; 19_power_and_thermal R722; empty] -/
  due : List SeqDue
  /-- A WAIT_GOOD is pending for this domain. [-; 04_image_and_startup Table 4-5; none] -/
  waitGood : Option Nat
  /-- Domains 0 to 331. [332; 19_power_and_thermal R716; see Domain] -/
  domains : Vector Domain 332
  /-- PMC_OPP.CLOCK in force by die. [20 x 11; 19_power_and_thermal R741; DC 1024 (log 3)] -/
  clock : Vector Nat 20
  /-- PMC_OPP.ISSUE in force by die. [20 x 11; 19_power_and_thermal R741; DC 1024 (log 3)] -/
  issue : Vector Nat 20
  /-- Sag cap by die. [20 x 11; 19_power_and_thermal R736; 1024] -/
  cap : Vector Nat 20
  /-- Consecutive control steps above the offline threshold by die. [20; 19_power_and_thermal R732; 0] -/
  hotSteps : Vector Nat 20
  /-- Every 1 ms mean since the last step stayed at or below 2,300 W. [1; 19_power_and_thermal R734; true] -/
  lowPower : Bool
  /-- Consecutive 1 ms means above the limit with F_PWR at 512. [-; 19_power_and_thermal R735; 0] -/
  limitMs : Nat
  /-- A 1 ms mean has come that the governor has not judged. [1; 19_power_and_thermal R734; false] -/
  meanDue : Bool
  /-- Position of the last DVFS step. [64; 19_power_and_thermal R727; DC 2^64 - 1 (log 3)] -/
  lastStep : Nat
  /-- Control-die clock at which the running entry's DELAY or WAIT_GOOD ends, 1/16 ns. [-; 19_power_and_thermal R722; 0] -/
  entryEnd : Nat
  /-- Position of the first assertion of SAGF of the sag. [-; 19_power_and_thermal R737; 0] -/
  sagClk : Nat
  /-- Index of the next entry of the running sequence. [12; 19_power_and_thermal R722; 0] -/
  step : Nat
  /-- A domain that R119 requires has failed in BRINGUP. [1; 19_power_and_thermal R725; false] -/
  failed : Bool
  /-- Control-die clock of the fail tick. [-; 19_power_and_thermal R739; 0] -/
  failClk : Nat
  /-- Control temperatures of the last step by die, 1/16 °C. [20; 19_power_and_thermal R727; DC 0 (log 3)] -/
  temps : Vector Nat 20
  /-- A DVFS step waits for the sequence's END, with its temperatures. [20; 19_power_and_thermal R742; none] -/
  held : Option (List Nat)
  deriving DecidableEq, Repr

end Sys2Proof.Machine
end

