-- ==== Sys2Proof/Machine/StSystem.lean ====
section
/-!
DEFINITION. Sys2Proof/Machine/StSystem.lean: device state, dies, links, decode-error registers.
-/
namespace Sys2Proof.Machine

/-! ## Device state, dies and links (chapters 1, 2, 4, 23) -/

/-- Table 1-4: the device states. -/
inductive DevState where
  | cold | boot | image | train | replay | run | degraded | orphanHold | halt
  deriving DecidableEq, Repr

/-- Table 2-9: the agents a decode error can be charged to. -/
inductive Agent where
  | steward | tenant | copyEngine | kernel | peer | thresherFlail | stolon | control
  deriving DecidableEq, Repr

/-- Control-die block 0x00 and the device's own mode (R25, R856 to R858, Table 4-8). -/
structure Sys where
  /-- CTL_STATE.STATE: the device state. [4; 23_register_reference R856, 01_overview R25; BOOT (0x1)] -/
  state : DevState
  /-- CTL_STATE.CAUSE: cause of entry into the state. [8; 23_register_reference R856; 0x01] -/
  cause : BitVec 8
  /-- CTL_STATE.ENTERED: beat in which the state was entered. [48; 23_register_reference R856; 0] -/
  entered : BitVec 48
  /-- CTL_PART.STEPPING: the device's stepping. [8; 23_register_reference R857; DC 0 (log 3)] -/
  stepping : BitVec 8
  /-- CTL_HALT.CAUSE. [8; 23_register_reference R858; 0x00] -/
  haltCause : BitVec 8
  /-- CTL_BOOT_STAT.SRC: slot booted. [2; 04_image_and_startup Table 4-8; 0] -/
  bootSrc : BitVec 2
  /-- CTL_BOOT_STAT.A_CODE. [8; 04_image_and_startup Table 4-8; 0] -/
  aCode : BitVec 8
  /-- CTL_BOOT_STAT.B_CODE. [8; 04_image_and_startup Table 4-8; 0] -/
  bCode : BitVec 8
  /-- CTL_BOOT_STAT.REPLAY: replay outcome. [4; 04_image_and_startup Table 4-8; 0] -/
  replay : BitVec 4
  /-- CTL_BOOT_STAT.VERSION_LO. [32; 04_image_and_startup Table 4-8; 0] -/
  versionLo : BitVec 32
  /-- Slot A has been checked in this boot. [1; 04_image_and_startup R135; false] -/
  aChecked : Bool
  /-- Slot B has been checked in this boot. [1; 04_image_and_startup R135, R137; false] -/
  bChecked : Bool
  /-- The owner-key digest fused at provisioning, if any. [256; 04_image_and_startup R126; DC none (log 3)] -/
  ownerDigest : Option (List Byte)
  /-- BOOT_COUNT: boots since manufacture, this one included. [32; 18_energy_ledger Table 18-9; DC 1 (log 3)] -/
  bootCount : BitVec 32
  /-- The state held before ORPHAN_HOLD. [4; 01_overview R30; DC RUN (log 3)] -/
  prior : DevState
  /-- A loss has been found since BOOT: RUN is replaced by DEGRADED. [1; 01_overview R37, R30; false] -/
  lossSeen : Bool
  /-- Replay has finished and the device waits for the boundary of ENTER_RUN. [1; 04_image_and_startup Table 4-1; false] -/
  replayDone : Bool
  /-- Admission is stopped for good by POWER_FAIL. [1; 19_power_and_thermal R739; false] -/
  powerFailing : Bool
  /-- log2 of the steward's BAR2 size. [6; 13_host_ports Table 13-5, R508; 30] -/
  bar2 : Nat
  /-- A thermal trip holds the logic supplies off. [1; 19_power_and_thermal R733; false] -/
  tripped : Bool
  deriving DecidableEq, Repr

/-- One UCIe module of a furrow link (R43, R47, R48). -/
structure LinkModule where
  /-- The module carries traffic. [1; 02_package_and_address_map R48; true] -/
  up : Bool
  /-- Lanes repaired onto spares so far. [Nat; 02_package_and_address_map R47; 0] -/
  repaired : Nat
  deriving DecidableEq, Repr

/-- Where a lost ring hop's traffic goes (R77). -/
inductive Detour where
  | none | viaB0 | viaB1
  deriving DecidableEq, Repr

/-- Furrow links and the management ring (Table 2-2, section 2.3). -/
structure Links where
  /-- Slice links: link 2k+b joins slice k to bridge b, two modules each. [34 x 2; 02_package_and_address_map R43; up] -/
  slice : Vector (Vector LinkModule 2) 34
  /-- Ring hops: hop k leaves slice k. [17; 02_package_and_address_map R43; up] -/
  ring : Vector LinkModule 17
  /-- Detour in use for each ring hop. [17 x 2; 02_package_and_address_map R77; none] -/
  detour : Vector Detour 17
  /-- Management-ring segments in ring order from C to B0. [20; 02_package_and_address_map R53; up] -/
  mgmt : Vector Bool 20
  deriving DecidableEq, Repr

/-- CTL_DERR_STAT and CTL_DERR_ADDR of one function (Tables 2-10, 2-11). -/
structure Derr where
  /-- VALID. [1; 02_package_and_address_map R71; 0] -/
  valid : Bool
  /-- OVER. [1; 02_package_and_address_map R71; 0] -/
  overrun : Bool
  /-- KIND. [4; 02_package_and_address_map R71; 0] -/
  kind : BitVec 4
  /-- AGENT. [4; 02_package_and_address_map R71; 0] -/
  agent : BitVec 4
  /-- COUNT, saturating. [16; 02_package_and_address_map R71; 0] -/
  count : BitVec 16
  /-- TICK at capture. [16; 02_package_and_address_map R71; 0] -/
  tick : BitVec 16
  /-- CTL_DERR_ADDR.DA. [56; 02_package_and_address_map R71; 0] -/
  da : BitVec 56
  deriving DecidableEq, Repr

end Sys2Proof.Machine
end

