-- ==== Sys2Proof/Machine/StQueue.lean ====
section
/-!
DEFINITION. Sys2Proof/Machine/StQueue.lean: mailboxes, functions, queues, commands, window cache, buffers.
-/
namespace Sys2Proof.Machine

/-- States of a mailbox (chapter 22). -/
inductive MbxState where
  | idle | busy | done
  deriving DecidableEq, Repr

/-- A read of host memory that a command or a mailbox operation waits for (R502). -/
structure HostRead where
  /-- Function whose requester ID it carries. [6; 13_host_ports R499; -] -/
  func : Nat
  /-- Host address. [64; 13_host_ports R499; -] -/
  addr : Nat
  /-- Bytes asked for. [-; 13_host_ports R499; -] -/
  len : Nat
  /-- It asks for a translation and no data (ATS). [1; 13_host_ports R501; -] -/
  ats : Bool
  deriving DecidableEq, Repr

/-- A mailbox: its registers and the operation in progress (Tables 22-1 to 22-3). -/
structure Mailbox where
  /-- MBX_CMD.OP. [16; 22_management Table 22-2; 0] -/
  op : BitVec 16
  /-- MBX_CMD.LEN. [12; 22_management Table 22-2; 0] -/
  len : BitVec 16
  /-- MBX_XADDR. [64; 22_management Table 22-1; 0] -/
  xaddr : BitVec 64
  /-- MBX_XLEN. [32; 22_management Table 22-1; 0] -/
  xlen : BitVec 64
  /-- MBX_STAT.STATE. [2; 22_management Table 22-3; IDLE] -/
  st : MbxState
  /-- MBX_STAT.STATUS. [8; 22_management Table 22-3; 0] -/
  status : BitVec 8
  /-- MBX_STAT.DONE_EV. [1; 22_management Table 22-3; 0] -/
  doneEv : Bool
  /-- MBX_STAT.OPSEQ. [32; 22_management Table 22-3; 0] -/
  opseq : BitVec 32
  /-- MBX_STAT.OUT_LEN. [32; 22_management Table 22-3; 0] -/
  outLen : Nat
  /-- MBX_DATA. [3072 bytes; 22_management Table 22-1; 0] -/
  data : List Byte
  /-- Result of an operation that has ended and waits for MAILBOX_COMPLETE: status and output. [-; 22_management R826; none] -/
  result : Option (BitVec 8 × List Byte)
  /-- The read of MBX_XADDR that the operation waits for. [-; 22_management R829; none] -/
  want : Option HostRead
  /-- What it read. [-; 22_management R835; empty] -/
  input : List Byte
  /-- Output on its way to MBX_XADDR. [-; 22_management R826; empty] -/
  bulk : List Byte
  deriving DecidableEq, Repr

/-- Everything the device keeps for one of the 64 functions. -/
structure Func where
  /-- PCI configuration. [-; 13_host_ports section 13.3; see PciCfg] -/
  pci : PciCfg
  /-- CTL_DERR_STAT and CTL_DERR_ADDR. [128; 02_package_and_address_map R71; 0] -/
  derr : Derr
  /-- QDB_KVN and the notice ring. [64; 09_kv_cache Table 9-9; 0] -/
  kvn : RingCtl
  /-- Notices held while the ring is full, oldest first. [256 x 32 bytes; 09_kv_cache R365; empty] -/
  held : List (List Byte)
  /-- CTL_PASID. [32; 13_host_ports R500; 0] -/
  pasid : BitVec 32
  /-- Window registers. [-; 15_data_movement Table 15-6; 0] -/
  win : WinRegs
  /-- WIN_STAT.MCODE. [4; 15_data_movement Table 15-9; 0] -/
  mcode : BitVec 4
  /-- WIN_CTL.PFEN. [1; 15_data_movement Table 15-7; 0] -/
  pfen : Bool
  /-- WIN_CTL.PFDEPTH. [2; 15_data_movement Table 15-7; 0] -/
  pfdepth : BitVec 2
  /-- The mailbox. [-; 22_management Table 22-1; IDLE] -/
  mbx : Mailbox
  /-- MSI-X table entries that differ from reset, by vector. [16 bytes each; 13_host_ports R509; empty] -/
  msix : List MsixEntry
  /-- Pending bits set in the PBA. [2048; 13_host_ports R510; empty] -/
  pba : List Nat
  /-- Receipt sequence Q of the next receipt. [-; 18_energy_ledger R686; 1] -/
  seq : Nat
  /-- The eight counters of Table 21-2. [8 x 48; 21_counters Table 21-2; 0] -/
  cnt : Vector (BitVec 64) 8
  /-- CTL_CNT_PERM. [64; 21_counters Table 21-5; OWN 1] -/
  cntPerm : BitVec 64
  /-- A function reset is in progress. [1; 13_host_ports R514; false] -/
  resetting : Bool
  /-- ATS Invalidation Completions that wait: by command, the reads still out under the old translation. [-; 13_host_ports R501; empty] -/
  invals : List (List (Nat × Nat))
  deriving DecidableEq, Repr

/-- A fetched command not yet admitted: its slots' bytes (R539). -/
structure Fetched where
  /-- First slot and chained slots, 64 bytes each. [64 x 8; 14_queues_and_commands R536; -] -/
  bytes : List Byte
  /-- Index of its first slot. [12; 14_queues_and_commands R536; -] -/
  slot : Nat
  /-- Its place among the fetches of its bridge. [-; 16_qos R621; -] -/
  no : Nat
  /-- Position of the fetch. [64; 21_counters Table 21-11; -] -/
  pos : Nat
  /-- Control-die clock of the fetch, 1/16 ns. [-; 21_counters R815; -] -/
  clk : Nat
  deriving DecidableEq, Repr

/-- One queue pair (Tables 14-1 to 14-6). -/
structure Queue where
  /-- Owning function, if assigned. [8; 14_queues_and_commands Table 14-1; none] -/
  func : Option Nat
  /-- RESERVE. [16; 14_queues_and_commands Table 14-1; 0] -/
  reserve : Nat
  /-- MAXF. [16; 14_queues_and_commands Table 14-1; 0] -/
  maxf : Nat
  /-- QDB_SQT.TAIL. [12; 14_queues_and_commands Table 14-3; 0] -/
  tail : Nat
  /-- QDB_CQH.HEAD. [12; 14_queues_and_commands Table 14-3; 0] -/
  head : Nat
  /-- QDB_SQB. [64; 14_queues_and_commands Table 14-4; 0] -/
  sqb : BitVec 64
  /-- QDB_CQB. [64; 14_queues_and_commands Table 14-4; 0] -/
  cqb : BitVec 64
  /-- QDB_QCFG.SQS. [12; 14_queues_and_commands Table 14-5; 0] -/
  sqs : Nat
  /-- QDB_QCFG.CQS. [12; 14_queues_and_commands Table 14-5; 0] -/
  cqs : Nat
  /-- QDB_QCFG.VEC. [11; 14_queues_and_commands Table 14-5; 0] -/
  vec : Nat
  /-- QDB_QCFG.EN. [1; 14_queues_and_commands Table 14-5; 0] -/
  en : Bool
  /-- QDB_QCFG.IEN. [1; 14_queues_and_commands Table 14-5; 0] -/
  ien : Bool
  /-- QDB_QCFG.IALL. [1; 14_queues_and_commands Table 14-5; 0] -/
  iall : Bool
  /-- QDB_QSTAT.SQH. [12; 14_queues_and_commands Table 14-6; 0] -/
  sqh : Nat
  /-- QDB_QSTAT.CQT. [12; 14_queues_and_commands Table 14-6; 0] -/
  cqt : Nat
  /-- QDB_QSTAT.CPH. [1; 14_queues_and_commands Table 14-6; 1] -/
  cph : Bool
  /-- QDB_QSTAT.ERR. [1; 14_queues_and_commands Table 14-6; 0] -/
  err : Bool
  /-- QDB_QSTAT.ERRCODE. [4; 14_queues_and_commands Table 14-6; 0] -/
  errcode : BitVec 4
  /-- QDB_QSTAT.INFLIGHT. [13; 14_queues_and_commands Table 14-6; 0] -/
  inflight : Nat
  /-- Stopped by a queue error. [1; 14_queues_and_commands R534; false] -/
  stopped : Bool
  /-- A CQ_WRITE error drops later completion writes. [1; 14_queues_and_commands R534; false] -/
  cqDead : Bool
  /-- Commands fetched and not admitted, oldest first. [-; 14_queues_and_commands R539; empty] -/
  fetched : List Fetched
  /-- Failed commands of the current fence group. [32; 14_queues_and_commands R555; 0] -/
  groupFails : Nat
  /-- The next completion posted on this queue carries RMARK. [1; 20_errors_and_recovery R763; false] -/
  rmark : Bool
  deriving DecidableEq, Repr

/-- How a command stands (R542 to R546). -/
inductive Phase where
  /-- It waits for data it asked the host for. -/
  | waitHost
  /-- It waits for work of slices, cores or rings. -/
  | working
  /-- Its work has ended and its completion may be posted. -/
  | ended
  /-- Its function was reset: it runs to its end and posts nothing. -/
  | discarded
  deriving DecidableEq, Repr

/-- One page that an ATTN_DECODE reads (R381): entry, KV head, page of the sequence, slice position and page number. -/
structure KvRead where
  /-- Entry. [12; 10_attention R389; -] -/
  entry : Nat
  /-- KV head. [12; 10_attention R389; -] -/
  head : Nat
  /-- Page of the sequence. [-; 09_kv_cache R343; -] -/
  page : Nat
  /-- Slice position. [4; 09_kv_cache R346; -] -/
  slice : Nat
  /-- Page number. [28; 09_kv_cache R345; -] -/
  num : Nat
  deriving DecidableEq, Repr

/-- A command in flight. -/
structure Cmd where
  /-- Its in-flight identity, never reused. [-; 14_queues_and_commands R542; -] -/
  uid : Nat
  /-- Queue pair. [8; 14_queues_and_commands Table 14-11; -] -/
  q : Nat
  /-- Submitting function. [6; 14_queues_and_commands R525; -] -/
  func : Nat
  /-- The slots' bytes as fetched. [-; 14_queues_and_commands Table 14-8; -] -/
  bytes : List Byte
  /-- Stamped generation. [32; 14_queues_and_commands R544; -] -/
  gen : Nat
  /-- Admission position: beat * 65536 + tick. [64; 07_scatter_updates R268; -] -/
  pos : Nat
  /-- Place among the admissions of that tick, then the bridge. [-; 07_scatter_updates R268; -] -/
  order : Nat
  /-- Class label after R611. [4; 16_qos R611; -] -/
  cls : Nat
  /-- It occupies a shared entry. [1; 14_queues_and_commands R542; -] -/
  shared : Bool
  /-- How it stands. [-; 14_queues_and_commands R546; -] -/
  phase : Phase
  /-- Data read so far (its list, its rows). [-; 06_gather_and_pooling R226; -] -/
  data : List Byte
  /-- The host reads and translations it waits for, next one first. [-; 13_host_ports R502; -] -/
  wants : List HostRead
  /-- Translations granted and still held: host range. [-; 13_host_ports R501; -] -/
  held : List (Nat × Nat)
  /-- Fresh translations asked for after an Invalidate Request and not yet granted, first in what it waits for. [-;
  13_host_ports R501; 0] -/
  fresh : Nat
  /-- Data of reads issued under an old translation, kept until the fresh ones are granted. [-; 13_host_ports R501; empty] -/
  early : List (List Byte)
  /-- How many results each slice S0 to S15 has sent to the home bridge. [-; 06_gather_and_pooling R239; -] -/
  sent : List Nat
  /-- Segments that have arrived and wait for their row: row, slice and bytes. [-; 06_gather_and_pooling R240; -] -/
  arrived : List (Nat × Nat × List Byte)
  /-- Whole far-home rows read for it: row, chunk (0 for a lookup) and its 16 segment records. [-; 06_gather_and_pooling R245,
  07_scatter_updates R269; -] -/
  far : List (Nat × Nat × List Byte)
  /-- Output rows, entries or chunks written so far. [-; 06_gather_and_pooling R247; -] -/
  done : Nat
  /-- Output rows, entries or chunks in all. [-; 06_gather_and_pooling R239; -] -/
  total : Nat
  /-- Substitutions. [-; 06_gather_and_pooling R230; -] -/
  subst : Nat
  /-- S16 stood in for some part. [1; 06_gather_and_pooling R231; -] -/
  degraded : Bool
  /-- Status once ended. [8; 14_queues_and_commands Table 14-12; -] -/
  status : BitVec 8
  /-- DETAIL once ended. [32; 14_queues_and_commands Table 14-13; -] -/
  detail : BitVec 32
  /-- It has passed its checks. [1; 07_scatter_updates R299; -] -/
  checked : Bool
  /-- A read of a row's bytes failed: first chunk and row, in the order of application, that no slice applies any more.
  [-; 07_scatter_updates R270, 13_host_ports R502; none] -/
  cutAt : Option (Nat × Nat)
  /-- FENCE: uids of the earlier set not yet posted. [-; 14_queues_and_commands R554; -] -/
  waits : List Nat
  /-- RUN_KERNEL: cores still running, and the first fault by rank. [-; 12_culm_core R484; -] -/
  cores : Nat
  /-- RUN_KERNEL: rank and cause of the faulting core of least rank. [-; 12_culm_core R484; -] -/
  fault : Option (Nat × Nat)
  /-- COUNTER_SNAP: tick edges still to pass. [-; 21_counters R811; -] -/
  edges : Nat
  /-- ATTN_DECODE: attended length of each entry, once it has had its turn. [-; 10_attention R381; -] -/
  attLens : List Nat
  /-- ATTN_DECODE: the pages it reads. [-; 10_attention R381; -] -/
  kvReads : List KvRead
  /-- Dynamic energy so far, in 2^-32 nJ. [-; 18_energy_ledger R683; -] -/
  energy : Nat
  /-- Its accumulator in nJ as the last epoch close counted it in C_out. [-; 18_energy_ledger R689; 0] -/
  carry : Nat
  /-- Its pip tag is set. [1; 21_counters R813; -] -/
  pip : Bool
  /-- PIPSEQ of a tagged command. [48; 21_counters Table 21-11; -] -/
  pipNo : Nat
  /-- Position of its fetch. [64; 21_counters Table 21-11; -] -/
  fetchPos : Nat
  /-- Control-die clock of its fetch, 1/16 ns. [-; 21_counters R815; -] -/
  fetchClk : Nat
  /-- Pip stamps taken: stage and ns. [32 each; 21_counters Table 21-12; empty] -/
  stamps : List (Nat × Nat)
  /-- Die numbers of the last slice to reach stages 5 and 7. [8 each; 21_counters Table 21-11; -] -/
  lastDies : Nat × Nat
  deriving DecidableEq, Repr

/-- One line of the window cache (R585). -/
structure WinLine where
  /-- Entry index. [14; 15_data_movement Table 15-5; -] -/
  idx : Nat
  /-- Function. [6; 15_data_movement R585; -] -/
  func : Nat
  /-- Line address in device memory. [56; 15_data_movement R585; -] -/
  da : Nat
  /-- Its 512 bytes. [512 bytes; 15_data_movement R585; -] -/
  bytes : List Byte
  /-- Dirty. [1; 15_data_movement R587; -] -/
  dirty : Bool
  /-- Locked. [1; 15_data_movement R590; -] -/
  locked : Bool
  /-- A carved line: its number i. [9; 15_data_movement R591; -] -/
  carved : Option Nat
  deriving DecidableEq, Repr

/-- A part of a window access that waits behind a blocking fill, as translated at its arrival (R581, R588). -/
structure WinAccess where
  /-- Function. [6; 15_data_movement R588; -] -/
  func : Nat
  /-- The carved line it reaches, if any. [9; 15_data_movement R581; -] -/
  carved : Option Nat
  /-- Device address of its first byte. [56; 15_data_movement R581; -] -/
  da : Nat
  /-- Offset of its first byte in the line. [9; 15_data_movement R582; -] -/
  off : Nat
  /-- Write data, none for a read. [-; 15_data_movement R587; -] -/
  write : Option (List Byte)
  /-- Length in bytes. [-; 15_data_movement R582; -] -/
  len : Nat
  deriving DecidableEq, Repr

/-- What waits behind a blocking fill, in arrival order (R588, R592, R583). -/
inductive WinWait where
  /-- A part of a window access. -/
  | access (a : WinAccess)
  /-- A write of WIN_MOP by function `f`, with its OP and what WIN_MADDR held. -/
  | mop (f op : Nat) (byEntry : Bool) (maddr : Nat)
  /-- A read of `n` bytes of WIN_SYNC by function `f`. -/
  | sync (f n : Nat)
  deriving DecidableEq, Repr

/-- The function that a waiting window operation belongs to. -/
def winWaitFunc : WinWait → Nat
  | .access a => a.func
  | .mop f _ _ _ => f
  | .sync f _ => f

/-- Prefetch watch of one function (R589). -/
structure PfWatch where
  /-- Function. [6; 15_data_movement R589; -] -/
  func : Nat
  /-- The last read misses' lines, newest first. [-; 15_data_movement R589; -] -/
  misses : List Nat
  /-- The run's stride in lines. [-; 15_data_movement R589; -] -/
  stride : Option Int
  /-- Last line fetched ahead. [-; 15_data_movement R589; -] -/
  ahead : Nat
  deriving DecidableEq, Repr

/-- A range operation queued or running on a bridge (R593). -/
structure RangeOp where
  /-- Function. [6; 15_data_movement R593; -] -/
  func : Nat
  /-- OP, CLEAN to CLEAN_INVAL. [3; 15_data_movement Table 15-8; -] -/
  op : Nat
  /-- First byte of the range. [56; 15_data_movement R593; -] -/
  base : Nat
  /-- Length in bytes. [41; 15_data_movement R593; -] -/
  len : Nat
  /-- Vector to send, when IEN. [11; 15_data_movement R593; -] -/
  vec : Option Nat
  deriving DecidableEq, Repr

/-- What one bridge keeps. -/
structure Bridge where
  /-- The bridge is offline. [1; 20_errors_and_recovery R771; false] -/
  offline : Bool
  /-- Lines of the main array, victim buffer and side buffer. [12288 x 512 bytes; 15_data_movement Table 15-5; empty] -/
  lines : List WinLine
  /-- Victim buffer entries, oldest first. [256; 15_data_movement Table 15-5; empty] -/
  victims : List Nat
  /-- Side buffer entries, oldest first. [512; 15_data_movement Table 15-5; empty] -/
  side : List Nat
  /-- The access whose fill blocks the cache. [-; 15_data_movement R588; none] -/
  filling : Option WinAccess
  /-- Accesses, WIN_MOP writes and WIN_SYNC reads held behind it. [-; 15_data_movement R588, R592, R583; empty] -/
  waiting : List WinWait
  /-- Prefetch watches. [-; 15_data_movement R589; empty] -/
  watches : List PfWatch
  /-- The range engine's queue, running operation first. [-; 15_data_movement R593; empty] -/
  ranges : List RangeOp
  /-- Queue pair admitted last. [8; 14_queues_and_commands R543; DC 255 (log 3)] -/
  lastQ : Nat
  /-- Commands fetched so far. [-; 16_qos R621; 0] -/
  fetches : Nat
  /-- Admissions in the current tick. [-; 07_scatter_updates R268; 0] -/
  admits : Nat
  deriving DecidableEq, Repr

/-- One allocated or freed-and-waiting buffer of the pool (R596, R597, R602). -/
structure Buffer where
  /-- First granule. [-; 15_data_movement R596; -] -/
  base : Nat
  /-- k: the buffer has 2^k granules. [5; 15_data_movement R596; -] -/
  k : Nat
  /-- Generation at its allocation. [32; 15_data_movement R597; -] -/
  gen : Nat
  /-- Owner tag: function. [6; 15_data_movement R597; -] -/
  func : Nat
  /-- Owner tag: queue. [8; 15_data_movement R597; -] -/
  q : Nat
  /-- Owner tag: FQ. [1; 15_data_movement R597; -] -/
  fq : Bool
  /-- Freed; the block waits for these commands before it rejoins the free list. [-; 15_data_movement R602; -] -/
  freed : Option (List Nat)
  deriving DecidableEq, Repr

/-- The buffer pool. -/
structure Pool where
  /-- Buffers held or waiting, by first granule. [-; 15_data_movement R596; empty] -/
  bufs : List Buffer
  /-- Granule generations that differ from 1. [32 each; 15_data_movement R597; empty] -/
  gens : List (Nat × Nat)
  deriving DecidableEq, Repr

end Sys2Proof.Machine
end

