-- ==== Sys2Proof/Machine/StTables.lean ====
section
/-!
DEFINITION. Sys2Proof/Machine/StTables.lean: tables, shards, KV tables, Stolon.
-/
namespace Sys2Proof.Machine

/-! ## Configuration: tables, shards, KV declarations, classes (chapters 5, 8, 9, 16) -/

/-- Table 4-6: the element formats. -/
inductive Fmt where
  | fp32 | bf16 | fp16 | e4m3 | e5m2 | int8 | int4
  deriving DecidableEq, Repr

/-- Optimizer state kept in a row (Table 5-1, OPT). -/
inductive OptState where
  | none | adagradRow | adam
  deriving DecidableEq, Repr

/-- Invalid-index policy (R201). -/
inductive Invalid where
  | zero | default | fail
  deriving DecidableEq, Repr

/-- Home tiers (Table 5-5). -/
inductive Tier where
  | stack | ddr | cxl | none
  deriving DecidableEq, Repr

/-- One shard-map entry (Table 5-5) with what the device keeps beside it. -/
structure Shard where
  /-- TIER. [2; 05_tables Table 5-5; 0x3] -/
  tier : Tier
  /-- MOVING. [1; 05_tables Table 5-5; 0] -/
  moving : Bool
  /-- FRESH. [1; 05_tables Table 5-5; 1] -/
  fresh : Bool
  /-- BASE in 64 KiB units. [28; 05_tables Table 5-5; 0] -/
  base : Nat
  /-- The shard's parity is complete. [1; 05_tables R191; false] -/
  parity : Bool
  /-- Consecutive closed beats at or above PROMOTE_MIN, and at or below DEMOTE_MAX. [Nat x 2; 08_row_migration R314; 0] -/
  streak : Nat × Nat
  /-- LOOKUPS and UPDATES that each slice has counted in the current beat: slice, counts. [17 x 32 x 2; 08_row_migration R302; empty] -/
  load : List (Nat × Nat × Nat)
  /-- The counts of the beat that has ended, until LOAD_COUNT_CLOSE. [17 x 32 x 2; 03_beat_timebase R101; empty] -/
  closing : List (Nat × Nat × Nat)
  /-- LOOKUPS and UPDATES of the last closed beat, by slice. [17 x 32 x 2; 08_row_migration R303; empty] -/
  closed : List (Nat × Nat × Nat)
  deriving DecidableEq, Repr

/-- An embedding table: its registration record (Table 5-1), its default row, its shard map and its loss mark. -/
structure TableDecl where
  /-- TABLE_ID. [16; 05_tables Table 5-1; -] -/
  id : Nat
  /-- FORMAT. [8; 05_tables Table 5-1; -] -/
  fmt : Fmt
  /-- OPT. [8; 05_tables Table 5-1; -] -/
  opt : OptState
  /-- DIM. [16; 05_tables Table 5-1; -] -/
  dim : Nat
  /-- FLAGS.HUSK. [1; 05_tables Table 5-1; -] -/
  husk : Bool
  /-- FLAGS.MIGRATE. [1; 05_tables Table 5-1; -] -/
  migrate : Bool
  /-- INVALID. [8; 05_tables Table 5-1; -] -/
  invalid : Invalid
  /-- ON_LOSS is RELEASE. [8; 05_tables Table 5-1; -] -/
  releaseOnLoss : Bool
  /-- OWNER. [8; 05_tables Table 5-1; -] -/
  owner : Nat
  /-- HOME_TIER. [8; 05_tables Table 5-1; -] -/
  homeTier : Tier
  /-- ROWS. [64; 05_tables Table 5-1; -] -/
  rows : Nat
  /-- HOME_BASE. [64; 05_tables Table 5-1; -] -/
  homeBase : Nat
  /-- READ_MASK. [64; 05_tables Table 5-1; -] -/
  readMask : BitVec 64
  /-- WRITE_MASK. [64; 05_tables Table 5-1; -] -/
  writeMask : BitVec 64
  /-- SEG_STRIDE. [16; 05_tables Table 5-1; -] -/
  segStride : Nat
  /-- LOGICAL_STRIDE. [32; 05_tables Table 5-1; -] -/
  logicalStride : Nat
  /-- USER_TAG. [16 bytes; 05_tables Table 5-1; -] -/
  userTag : List Byte
  /-- The default row in the logical layout, empty without one. [LOGICAL_STRIDE bytes; 05_tables R175, R204; -] -/
  defaultRow : List Byte
  /-- Stack offset of its default-row record on every data slice, 0 without one. [36; 05_tables R204; 0 until placed] -/
  defaultOff : Nat
  /-- The table is marked LOST. [1; 05_tables R211; false] -/
  lost : Bool
  /-- The shard map of the table, shard 0 first. [4 bytes each; 05_tables R192; FRESH] -/
  shards : List Shard
  deriving DecidableEq, Repr

/-- KV page modes (Table 9-1). -/
inductive PageMode where
  | tok16 | pow2 | contig
  deriving DecidableEq, Repr

/-- KV eviction policies (Table 9-5). -/
inductive EvictPolicy where
  | preserve | idle | priority | largest
  deriving DecidableEq, Repr

/-- A KV table declaration (Table 9-1). -/
structure KvDecl where
  /-- TABLE_ID. [16; 09_kv_cache Table 9-1; -] -/
  id : Nat
  /-- KFMT is INT8 (FP8-E4M3 otherwise). [8; 09_kv_cache Table 9-1; -] -/
  int8 : Bool
  /-- PAGE_MODE. [8; 09_kv_cache Table 9-1; -] -/
  mode : PageMode
  /-- PAGE_LOG2. [8; 09_kv_cache Table 9-1; -] -/
  pageLog2 : Nat
  /-- PLACE is POSITION (HEAD otherwise). [8; 09_kv_cache Table 9-1; -] -/
  byPosition : Bool
  /-- PLACE_LOG2. [8; 09_kv_cache Table 9-1; -] -/
  placeLog2 : Nat
  /-- EVICT. [8; 09_kv_cache Table 9-1; -] -/
  evict : EvictPolicy
  /-- HEAD_DIM. [16; 09_kv_cache Table 9-1; -] -/
  headDim : Nat
  /-- NHEADS. [16; 09_kv_cache Table 9-1; -] -/
  nheads : Nat
  /-- LAYERS. [16; 09_kv_cache Table 9-1; -] -/
  layers : Nat
  /-- OWNER. [8; 09_kv_cache Table 9-1; -] -/
  owner : Nat
  /-- ON_LOSS is RELEASE. [8; 09_kv_cache Table 9-1; -] -/
  releaseOnLoss : Bool
  /-- MAX_SEQS. [32; 09_kv_cache Table 9-1; -] -/
  maxSeqs : Nat
  /-- MAX_TOKENS. [32; 09_kv_cache Table 9-1; -] -/
  maxTokens : Nat
  /-- STORE_TIER is STACK (CRIB otherwise). [8; 09_kv_cache Table 9-1; -] -/
  inStack : Bool
  /-- STORE_BASE. [64; 09_kv_cache Table 9-1; -] -/
  storeBase : Nat
  /-- STORE_SIZE. [64; 09_kv_cache Table 9-1; -] -/
  storeSize : Nat
  /-- READ_MASK. [64; 09_kv_cache Table 9-1; -] -/
  readMask : BitVec 64
  /-- WRITE_MASK. [64; 09_kv_cache Table 9-1; -] -/
  writeMask : BitVec 64
  /-- MAX_NODES. [32; 09_kv_cache Table 9-1; -] -/
  maxNodes : Nat
  /-- HEADROOM, FP32. [32; 09_kv_cache Table 9-1; -] -/
  headroom : BitVec 32
  /-- USER_TAG. [16 bytes; 09_kv_cache Table 9-1; -] -/
  userTag : List Byte
  /-- The KV table is marked LOST. [1; 09_kv_cache R370; false] -/
  lost : Bool
  deriving DecidableEq, Repr

/-- States of a sequence slot (section 9.4). -/
inductive SlotState where
  | free | open | evicted
  deriving DecidableEq, Repr

/-- One sequence slot of a KV table. -/
structure KvSlot where
  /-- FREE, OPEN or EVICTED. [2; 09_kv_cache section 9.4; FREE] -/
  st : SlotState
  /-- Salt. [64; 09_kv_cache section 9.4; 0] -/
  salt : BitVec 64
  /-- PRIO. [3; 09_kv_cache section 9.4; 0] -/
  prio : Nat
  /-- LEN of each layer. [32 x LAYERS; 09_kv_cache section 9.4; 0] -/
  lens : List Nat
  /-- Stamp of its last use. [-; 09_kv_cache R350; 0] -/
  lastUse : Nat
  /-- Token IDs of layer 0. [32 each; 09_kv_cache section 9.4; empty] -/
  tokens : List (BitVec 32)
  /-- Trie node slot each unit is attached to, unit 0 first. [-; 09_kv_cache section 9.4; empty] -/
  attached : List Nat
  /-- Units below this count raised their node's SEQREFS through this slot. [-; 09_kv_cache R359, R362; empty] -/
  contributed : List Nat
  /-- Insertion has stopped for this slot. [1; 09_kv_cache R359; false] -/
  stopped : Bool
  /-- The slot's pages: slice, page-table index within the slice, page number. [-; 09_kv_cache R345; empty] -/
  pages : List (Nat × Nat × Nat)
  deriving DecidableEq, Repr

/-- One prefix-trie node (R357). -/
structure KvNode where
  /-- Its slot in the node area. [20; 09_kv_cache R357; -] -/
  slot : Nat
  /-- Key. [64; 09_kv_cache R357; -] -/
  key : BitVec 64
  /-- Parent slot, none for unit 0. [32; 09_kv_cache R357; -] -/
  parent : Option Nat
  /-- Unit number. [32; 09_kv_cache R357; -] -/
  unit : Nat
  /-- The U token IDs. [32 each; 09_kv_cache R357; -] -/
  tokens : List (BitVec 32)
  /-- SEQREFS. [32; 09_kv_cache R357; -] -/
  seqRefs : Nat
  /-- CHILDREN. [32; 09_kv_cache R357; -] -/
  children : Nat
  /-- LAST. [48; 09_kv_cache R357; -] -/
  last : BitVec 48
  /-- Pages of the unit: slice, layer-and-head index, page number. [-; 09_kv_cache R357; -] -/
  pages : List (Nat × Nat × Nat)
  deriving DecidableEq, Repr

/-- The run-time state of one KV table. -/
structure KvTable where
  /-- The table it belongs to. [16; 09_kv_cache R340; -] -/
  id : Nat
  /-- The slots, slot 0 first. [MAX_SEQS; 09_kv_cache section 9.4; FREE] -/
  slots : List KvSlot
  /-- The trie's nodes. [MAX_NODES; 09_kv_cache R357; empty] -/
  nodes : List KvNode
  /-- SipHash key K_T. [128; 09_kv_cache R356; free value (log 7)] -/
  key : BitVec 128
  /-- Reference counts of the pages in use: slice, page number, REFS. [-; 09_kv_cache R361; empty] -/
  refs : List (Nat × Nat × Nat)
  /-- Collisions counted. [Nat; 09_kv_cache R358; 0] -/
  collisions : Nat
  /-- Pages without references that an earlier command still reads: slice, page number, commands. [-; 09_kv_cache R349; empty] -/
  parked : List (Nat × Nat × List Nat)
  deriving DecidableEq, Repr

/-- One lift-table entry (Table 5-6); every data slice holds the same (R198). -/
structure LiftEntry where
  /-- Bucket and place within it. [-; 05_tables R197; -] -/
  bucket : Nat
  /-- Place 0 to 3 in the bucket. [2; 05_tables R197; -] -/
  way : Nat
  /-- FROZEN. [1; 05_tables Table 5-6; -] -/
  frozen : Bool
  /-- TABLE_ID. [12; 05_tables Table 5-6; -] -/
  table : Nat
  /-- ROW. [40; 05_tables Table 5-6; -] -/
  row : Nat
  /-- DATA_OFF in 8-byte units. [22; 05_tables Table 5-6; -] -/
  dataOff : Nat
  /-- HITS, as the leader counts it. [16; 05_tables Table 5-6; -] -/
  hits : Nat
  deriving DecidableEq, Repr

/-- Parameters of Table 8-3. -/
structure Migration where
  /-- SAMPLE. [16; 08_row_migration Table 8-3; 64] -/
  sample : Nat
  /-- MIG_CLASS. [8; 08_row_migration Table 8-3; 15] -/
  cls : Nat
  /-- MFLAGS.AUTO_LIFT. [1; 08_row_migration Table 8-3; 1] -/
  autoLift : Bool
  /-- MFLAGS.AUTO_MOVE. [1; 08_row_migration Table 8-3; 0] -/
  autoMove : Bool
  /-- LIFT_MIN. [32; 08_row_migration Table 8-3; 4096] -/
  liftMin : Nat
  /-- EVICT_HITS. [32; 08_row_migration Table 8-3; 256] -/
  evictHits : Nat
  /-- LIFT_PER_BEAT. [32; 08_row_migration Table 8-3; 65536] -/
  liftPerBeat : Nat
  /-- PROMOTE_MIN. [32; 08_row_migration Table 8-3; 4194304] -/
  promoteMin : Nat
  /-- DEMOTE_MAX. [32; 08_row_migration Table 8-3; 65536] -/
  demoteMax : Nat
  /-- PROMOTE_BEATS. [16; 08_row_migration Table 8-3; 50] -/
  promoteBeats : Nat
  /-- DEMOTE_BEATS. [16; 08_row_migration Table 8-3; 500] -/
  demoteBeats : Nat
  /-- MOVE_RATE. [32; 08_row_migration Table 8-3; 16] -/
  moveRate : Nat
  /-- Base and size of the stack, DDR and CXL pools. [64 x 6; 08_row_migration Table 8-3; 0] -/
  pools : Vector (Nat × Nat) 3
  deriving DecidableEq, Repr

/-- What an abandoned or running move batch works on (R319). -/
inductive BatchKind where
  | shard (table shard firstRow count : Nat)
  | lift (keys : List (Nat × Nat))
  deriving DecidableEq, Repr

/-- The move batch in flight (R319 to R323). -/
structure MoveBatch where
  /-- What it copies. [-; 08_row_migration R319; -] -/
  what : BatchKind
  /-- The batch has been retried once. [1; 08_row_migration R323; -] -/
  retried : Bool
  /-- Position of the clock at which its rows were frozen (the model's own). [Nat; 08_row_migration R320; -] -/
  since : Nat
  deriving DecidableEq, Repr

/-- A shard move in progress (R316 to R318). -/
structure ShardMove where
  /-- Table. [12; 08_row_migration R315; -] -/
  table : Nat
  /-- Shard. [20; 08_row_migration R315; -] -/
  shard : Nat
  /-- Destination tier. [2; 08_row_migration R315; -] -/
  dstTier : Tier
  /-- Destination BASE, 64 KiB units. [28; 08_row_migration R313; -] -/
  dstBase : Nat
  /-- Copy cursor: rows below it are copied. [21; 08_row_migration R319; 0] -/
  cursor : Nat
  /-- The home generation has been staged. [1; 08_row_migration R316; false] -/
  staged : Bool
  /-- Generation N of the copy. [32; 08_row_migration R316; -] -/
  gen : Nat
  deriving DecidableEq, Repr

/-- Stolon: lift table, candidates and moves (chapter 8). -/
structure Stolon where
  /-- The lift table's entries. [16 bytes each; 05_tables R197; empty] -/
  lift : List LiftEntry
  /-- The leader's candidate table: table, row, count. [4096; 08_row_migration R307; empty] -/
  candidates : List (Nat × Nat × Nat)
  /-- Misses since the last sampled one. [16; 08_row_migration R307; 0] -/
  sampleCtr : Nat
  /-- The leader took over since the last decision. [1; 08_row_migration R308; false] -/
  newLeader : Bool
  /-- Evictions decided and not yet carried out: bucket, way. [-; 08_row_migration R311; empty] -/
  evictions : List (Nat × Nat)
  /-- Lifts decided and not yet copied, at the places the leader chose. [-; 08_row_migration R310, R312; empty] -/
  liftsDue : List LiftEntry
  /-- The batch in flight. [-; 08_row_migration R319; none] -/
  batch : Option MoveBatch
  /-- The shard move in progress. [-; 08_row_migration R316; none] -/
  move : Option ShardMove
  /-- The batch that was abandoned and is retried once. [-; 08_row_migration R323; none] -/
  stalled : Option BatchKind
  /-- Beat of the last decision at tick 32,768. [48; 03_beat_timebase R104; none] -/
  decided : Option Nat
  /-- Source bytes of batches started in this QoS window. [Nat; 08_row_migration R331; 0] -/
  windowBytes : Nat
  /-- SKIP: chosen lifts skipped for want of data area. [Nat; 08_row_migration R310; 0] -/
  skips : Nat
  deriving DecidableEq, Repr

end Sys2Proof.Machine
end

