-- ==== Sys2Proof/Machine/StTimebase.lean ====
section
/-!
DEFINITION. Sys2Proof/Machine/StTimebase.lean: the beat timebase.
-/
namespace Sys2Proof.Machine

/-! ## The beat timebase (chapter 3) -/

/-- Table 3-2: the tracker's states. -/
inductive TrkState where
  | holdover | acquire | locked
  deriving DecidableEq, Repr

/-- A wall-clock anchor (R107). -/
structure Anchor where
  /-- Anchor ID. [32; 03_beat_timebase R107; -] -/
  id : BitVec 32
  /-- B_a. [48; 03_beat_timebase R107; -] -/
  beat : BitVec 48
  /-- Facility time of boundary B_a, ns since 1970. [64; 03_beat_timebase R107; -] -/
  time : BitVec 64
  /-- Measured start of boundary B_a on the control-die clock, 1/16 ns. [-; 03_beat_timebase R108; -] -/
  start : Nat
  deriving DecidableEq, Repr

/-- One measured boundary: the beat and its start on the control-die clock, in 1/16 ns (R107). -/
structure Boundary where
  /-- Beat number. [48; 03_beat_timebase R107; -] -/
  beat : BitVec 48
  /-- Start time in 1/16 ns. [Nat; 03_beat_timebase R107; -] -/
  start : Nat
  deriving DecidableEq, Repr

/-- The beat tracker and scheduled time. Times are Nat counts of 1/16 ns on the control-die clock
since the start of BOOT. -/
structure Tb where
  /-- CTL_TB_STAT.STATE. [2; 03_beat_timebase R86; HOLDOVER (0x0)] -/
  trk : TrkState
  /-- The current beat is a holdover or an ACQUIRE beat: the tracker was not LOCKED when it began, or has entered HOLDOVER in
  it. [1; 03_beat_timebase R92, R99; true] -/
  held : Bool
  /-- CTL_TB_STAT.NEVER_LOCKED. [1; 03_beat_timebase Table 3-3; 1] -/
  neverLocked : Bool
  /-- CTL_TB_STAT.HOLD_EV. [1; 03_beat_timebase Table 3-3; 0] -/
  holdEv : Bool
  /-- CTL_TB_STAT.STRETCH_EV. [1; 03_beat_timebase Table 3-3; 0] -/
  stretchEv : Bool
  /-- CTL_TB_STAT.SPLIT_EV. [1; 03_beat_timebase Table 3-3; 0] -/
  splitEv : Bool
  /-- CTL_TB_STAT.STRAY, saturating. [16; 03_beat_timebase Table 3-3; 0] -/
  stray : BitVec 16
  /-- CTL_TB_STAT.PERIOD: length of the current tracked beat as the register shows it. [32; 03_beat_timebase Table 3-3, R872; 0] -/
  period : BitVec 32
  /-- CTL_TB_NOW.TICK. [16; 03_beat_timebase R91; 0] -/
  tick : BitVec 16
  /-- CTL_TB_NOW.BEAT. [48; 03_beat_timebase R85, R91; 0] -/
  beat : BitVec 48
  /-- CTL_TB_PHASE: phase error at the last lock edge, ns. [32; 03_beat_timebase R91; 0] -/
  phase : BitVec 32
  /-- Length of the current tracked beat in 1/16 ns. [Nat; 03_beat_timebase R84, R117; 320000000 (50.000 Hz)] -/
  length : Nat
  /-- Start of the current tracked beat. [Nat; 03_beat_timebase R85; 0] -/
  start : Nat
  /-- Tracked period T the loop aims at. [Nat; 03_beat_timebase R86, R94; 320000000] -/
  target : Nat
  /-- Nominal beat period in use before the first lock. [Nat; 04_image_and_startup R117; 320000000] -/
  nominal : Nat
  /-- Crossing of the previous qualified edge. [Nat; 03_beat_timebase R83; none] -/
  prevEdge : Option Nat
  /-- Crossings of the edges of the run in ACQUIRE, newest first. [list; 03_beat_timebase R87; empty] -/
  run : List Nat
  /-- An in-window edge has been seen for the last tracked boundary. [1; 03_beat_timebase R92; false] -/
  edgeSeen : Bool
  /-- An in-window edge has been seen for the boundary that ends the current beat. [1; 03_beat_timebase R88; false] -/
  edgeEarly : Bool
  /-- Holdover beats begun since HOLDOVER was entered and before any used edge. [Nat; 03_beat_timebase R93; 0] -/
  holdBeats : Nat
  /-- No edge has been used since HOLDOVER was entered. [1; 03_beat_timebase R93; true] -/
  firstEdgeDue : Bool
  /-- Correction that lengthened the current beat: of a stretch, or of a slip beat. [Int; 03_beat_timebase R95, R96; 0] -/
  part : Int
  /-- The current beat is a slip beat. [1; 03_beat_timebase R96, R872; false] -/
  slipped : Bool
  /-- In-window edges since the lock edge (counted to 8). [4; 03_beat_timebase R872; 0] -/
  lockEdges : Nat
  /-- Crossings of the last three edges used, newest first. [list; 03_beat_timebase R872; empty] -/
  inEdges : List Nat
  /-- A slip beat of length T + e begins at the next boundary. [Int; 03_beat_timebase R90, R96; none] -/
  slip : Option Int
  /-- An epoch split is due at the next boundary. [1; 03_beat_timebase R96; false] -/
  splitDue : Bool
  /-- Correction per beat still to apply, and beats left. [Int x Nat; 03_beat_timebase R95; (0, 0)] -/
  stretch : Int × Nat
  /-- A correction held over to the next epoch. [Int; 03_beat_timebase R97; none] -/
  nextEpochE : Option Int
  /-- Sum of the corrections taken in the current epoch. [Int; 03_beat_timebase R98; 0] -/
  epochE : Int
  /-- The 64 most recent boundaries, newest first. [64 entries; 03_beat_timebase R107; beat 0 at time 0] -/
  history : List Boundary
  /-- The anchor in force. [-; 03_beat_timebase R107, R109; none] -/
  anchor : Option Anchor
  deriving DecidableEq, Repr

end Sys2Proof.Machine
end

