-- ==== Sys2Proof/Machine/StJournal.lean ====
section
/-!
DEFINITION. Sys2Proof/Machine/StJournal.lean: image, journal, generations, management.
-/
namespace Sys2Proof.Machine

/-! ## Image, journal, changes, events (chapters 4, 20, 22) -/

/-- One 16-byte event-ring entry (R150). -/
structure Event where
  /-- TYPE. [16; 04_image_and_startup R150; -] -/
  type : BitVec 16
  /-- SOURCE: die in [15:8], block in [7:0]. [16; 04_image_and_startup R150; -] -/
  source : BitVec 16
  /-- ARG. [32; 04_image_and_startup R150; -] -/
  arg : BitVec 32
  /-- POS: beat in [63:16], tick in [15:0]. [64; 04_image_and_startup R150; -] -/
  pos : Nat
  deriving DecidableEq, Repr

/-- One pair of the coalesce table (R151, R152). -/
structure Coalesced where
  /-- TYPE. [16; 04_image_and_startup R151; -] -/
  type : BitVec 16
  /-- SOURCE. [16; 04_image_and_startup R151; -] -/
  source : BitVec 16
  /-- COUNT, saturating. [32; 04_image_and_startup R151; -] -/
  count : Nat
  /-- POS of the first coalesced event. [64; 04_image_and_startup R151; -] -/
  first : Nat
  /-- POS of the last coalesced event. [64; 04_image_and_startup R151; -] -/
  last : Nat
  deriving DecidableEq, Repr

/-- Rollback reasons (Table 22-6). -/
inductive Reason where
  | timeout | moveFailed | sliceLost | farLost
  deriving DecidableEq, Repr

/-- A loaded kernel (R134, R445). -/
structure Kernel where
  /-- KERNEL_ID. [16; 04_image_and_startup R134; -] -/
  id : Nat
  /-- Offset of its code in the code area. [32; 12_culm_core R445; -] -/
  off : Nat
  /-- CODE_LEN. [32; 04_image_and_startup R134; -] -/
  len : Nat
  /-- ENTRY. [32; 04_image_and_startup R134; -] -/
  entry : Nat
  /-- TRAP_BYTES. [32; 04_image_and_startup R134; -] -/
  trapBytes : Nat
  /-- SCRATCH. [32; 04_image_and_startup R134; -] -/
  scratch : Nat
  /-- Its code. [CODE_LEN bytes; 04_image_and_startup R134; -] -/
  code : List Byte
  deriving DecidableEq, Repr

/-- The configuration of one generation (R159 to R162). -/
structure Cfg where
  /-- Generation number. [32; 04_image_and_startup R160; 0] -/
  gen : Nat
  /-- Embedding tables, in ascending TABLE_ID. [4096; 05_tables R173; empty] -/
  tables : List TableDecl
  /-- KV tables, in ascending TABLE_ID. [4096; 09_kv_cache R340; empty] -/
  kvs : List KvDecl
  /-- Class entries 0 to 15 and range entries 16 to 31. [32 x 64 bytes; 16_qos R615; DC class 15 and range class 15 NORMAL, others SCAVENGER (log 3)] -/
  classes : Vector ClassEnt 32
  /-- LEDGER section in force. [2688 bytes; 18_energy_ledger R682; DC none before an image (log 3)] -/
  ledger : LedgerCfg
  /-- MIGRATION parameters. [128 bytes; 08_row_migration R307a; defaults of Table 8-3] -/
  migration : Migration
  /-- The kernel library. [1024; 04_image_and_startup R134; empty] -/
  kernels : List Kernel
  deriving DecidableEq, Repr

/-- A runtime change (R159, Table 22-5). -/
inductive ChangeKind where
  | tableRegister (t : TableDecl)
  | kvRegister (t : KvDecl)
  | tableRelease (id : Nat)
  | shardMove (table shard : Nat) (tier : Tier)
  | huskSet (table : Nat) (on : Bool)
  | classSet (index : Nat) (e : ClassEnt)
  | migrationSet (m : Migration)
  | ledgerSet (l : LedgerCfg)
  | kernelLoad (k : Kernel)
  | kernelUnload (id : Nat)
  deriving DecidableEq, Repr

/-- A change that waits for its validation: a function's mailbox operation, or one that the device makes itself (R831). -/
inductive QueuedChange where
  | mailbox (f : Nat)
  | own (k : ChangeKind)
  /-- The operation of a function that has been reset since (R519). -/
  | left (f : Nat) (M : Mailbox)
  deriving DecidableEq, Repr

/-- A change accepted and not yet finished (R163). -/
structure Change where
  /-- What it changes. [-; 04_image_and_startup R159; -] -/
  kind : ChangeKind
  /-- The function whose mailbox waits for it; none for the device's own. [6; 22_management R831; -] -/
  origin : Option Nat
  /-- SEQ of its CONFIG_CHANGE item. [64; 04_image_and_startup Table 4-10; -] -/
  seq : Nat
  /-- Boundary its next flip is named for, and whether that GEN_COMMIT is committed. [48 + 1; 04_image_and_startup R159; -] -/
  flipAt : Option (Nat × Bool)
  /-- Beat of its first flip. [48; 04_image_and_startup R164; none] -/
  firstFlip : Option Nat
  /-- Generations of it that have flipped. [-; 04_image_and_startup R163; 0] -/
  steps : Nat
  /-- The step in force has done its work and the next may be staged. [1; 08_row_migration R316; false] -/
  stepDone : Bool
  deriving DecidableEq, Repr

/-- The configuration and its changes. -/
structure ConfigState where
  /-- The generation in force. [-; 04_image_and_startup R161; generation 0] -/
  cur : Cfg
  /-- The older live generation. [-; 04_image_and_startup R162; none] -/
  old : Option Cfg
  /-- The last generation that completed a change: what a rollback restores. [-; 04_image_and_startup R164; generation 0] -/
  base : Cfg
  /-- Changes accepted, the one in progress first. [-; 04_image_and_startup R163; empty] -/
  changes : List Change
  /-- A rollback decided: reason, beat of the decision, GEN_ROLLBACK committed. [-; 04_image_and_startup R164, R165; none] -/
  rollback : Option (Reason × Nat × Bool)
  /-- A flip takes place at the boundary that began this beat. [1; 04_image_and_startup R159, R162; false] -/
  flipNow : Bool
  deriving DecidableEq, Repr

/-- What a journal record says (Table 4-10). -/
inductive JBody where
  | regionOpen (region s : Nat)
  | snapshotEnd (count : Nat)
  | configChange (c : ChangeKind)
  | configSnap (c : Cfg) (imageDigest : List Byte)
  | genCommit (gen flip firstSeq : Nat)
  | genRollback (abandoned newGen : Nat) (content : Cfg) (r : Reason)
  | epoch (bytes : List Byte)
  | error (bytes : List Byte)
  | event (es : List Event)
  | coalesce (es : List Coalesced)
  | anchor (a : Anchor)
  | state (old new cause : Nat) (arg : BitVec 32)
  | imageBoot (src aCode bCode : Nat) (version : BitVec 64) (digest : List Byte)
  | collected (n : Nat)
  | ledgerGap (first last : Nat)
  deriving DecidableEq, Repr

/-- One journal record (Table 4-9, R140, R141). -/
structure JRec where
  /-- Type and body. [16 + body; 04_image_and_startup Table 4-9; -] -/
  body : JBody
  /-- FLAGS.SNAP. [1; 04_image_and_startup Table 4-9; -] -/
  snap : Bool
  /-- Records of its item that follow it; FLAGS.MORE is set when there is one. [Nat; 04_image_and_startup Table 4-9, R142; -] -/
  left : Nat
  /-- SEQ. [64; 04_image_and_startup Table 4-9; -] -/
  seq : Nat
  /-- POS. [64; 04_image_and_startup Table 4-9; -] -/
  pos : Nat
  /-- GEN. [32; 04_image_and_startup Table 4-9; -] -/
  gen : Nat
  /-- REGION. [32; 04_image_and_startup Table 4-9; -] -/
  region : Nat
  /-- The CRC-32C as programmed. [32; 04_image_and_startup R140; -] -/
  crc : BitVec 32
  /-- The commit word; all ones while it is not programmed. [64; 04_image_and_startup R141; -] -/
  commit : BitVec 64
  deriving DecidableEq, Repr

/-- One journal region (Table 4-2). -/
structure Region where
  /-- Region number of its REGION_OPEN. [32; 04_image_and_startup R155; DC 0 (log 3)] -/
  number : Nat
  /-- Its records in flash order. [128 MiB; 04_image_and_startup R140; empty (erased)] -/
  recs : List JRec
  /-- A background erase is running. [1; 04_image_and_startup R156; false] -/
  erasing : Bool
  /-- A program or an erase of it failed. [1; 04_image_and_startup R167, R168; false] -/
  failed : Bool
  deriving DecidableEq, Repr

/-- Compaction (R155 to R158). -/
inductive Compaction where
  /-- None is due. -/
  | none
  /-- It starts at the next boundary that allows it, after the position at which it became due or could start. -/
  | due (since : Nat)
  /-- It runs: SNAP records still to write, and the position of the last SNAP commit. -/
  | running (snaps : List JBody) (since : Nat)
  deriving DecidableEq, Repr

/-- The journal and the event path (sections 4.6 to 4.9, 20.2). -/
structure Journal where
  /-- J0 and J1. [2 x 128 MiB; 04_image_and_startup Table 4-2; erased] -/
  regions : Vector Region 2
  /-- The active region. [1; 04_image_and_startup R156; J0] -/
  active : Fin 2
  /-- SEQ of the next record. [64; 04_image_and_startup Table 4-9; DC 1 (log 3)] -/
  nextSeq : Nat
  /-- The record being programmed. [-; 04_image_and_startup R141; none] -/
  writing : Option JRec
  /-- The next record of an item whose earlier records are written (R142). [-; 04_image_and_startup R142; none] -/
  cont : Option JRec
  /-- Items waiting for the writer, first in front: body, SNAP. [4 MiB; 04_image_and_startup R167; empty] -/
  waiting : List (JBody × Bool)
  /-- Compaction. [-; 04_image_and_startup R155; none] -/
  compaction : Compaction
  /-- LEDGER_BACKLOG has been raised. [1; 04_image_and_startup R157; false] -/
  backlog : Bool
  /-- The event ring's entries, oldest first. [512 x 16 bytes; 04_image_and_startup R150; empty] -/
  ring : List Event
  /-- The coalesce table. [64 pairs; 04_image_and_startup R151; empty] -/
  coalesce : List Coalesced
  /-- The 65th entry. [1; 04_image_and_startup R151; none] -/
  overflow : Option Coalesced
  /-- EVSEQ of the last event. [48; 20_errors_and_recovery Table 20-3; 0] -/
  evseq : Nat
  /-- CTL_EVT and the event delivery ring. [64; 20_errors_and_recovery Table 20-4a; 0] -/
  evt : RingCtl
  /-- Events, with their EVSEQ, that wait while the steward is in reset. [-; 13_host_ports R514; empty] -/
  evtHeld : List (Nat × Event)
  deriving DecidableEq, Repr

/-- One crib part (Table 4-13). -/
structure CribPart where
  /-- FUNC. [8; 04_image_and_startup Table 4-13; -] -/
  func : Nat
  /-- KIND is SCRATCH. [8; 04_image_and_startup Table 4-13; -] -/
  scratch : Bool
  /-- SLICES. [17; 04_image_and_startup Table 4-13; -] -/
  slices : Nat
  /-- OFFSET. [32; 04_image_and_startup Table 4-13; -] -/
  off : Nat
  /-- SIZE. [32; 04_image_and_startup Table 4-13; -] -/
  size : Nat
  deriving DecidableEq, Repr

/-- A range assigned to a function: a stack range (Table 4-14) or a far range (Table 17-5). -/
structure OwnedRange where
  /-- FUNC. [8; 04_image_and_startup Table 4-14; -] -/
  func : Nat
  /-- First offset or device address. [64; 04_image_and_startup Table 4-14; -] -/
  base : Nat
  /-- SIZE. [64; 04_image_and_startup Table 4-14; -] -/
  size : Nat
  deriving DecidableEq, Repr

/-- MEM_CARVE (Tables 4-12 and 17-5). -/
structure Carve where
  /-- LIFT_BYTES. [32; 04_image_and_startup Table 4-12; 0] -/
  liftBytes : Nat
  /-- KV_POOL_BYTES. [32; 04_image_and_startup Table 4-12; 0] -/
  kvPoolBytes : Nat
  /-- STRIPE_BASE. [64; 04_image_and_startup Table 4-12; 0] -/
  stripeBase : Nat
  /-- STRIPE_SIZE. [64; 04_image_and_startup Table 4-12; 0] -/
  stripeSize : Nat
  /-- POOL_BYTES. [64; 04_image_and_startup Table 4-12; 0] -/
  poolBytes : Nat
  /-- QUOTA of functions 0 to 63. [64 x 64; 04_image_and_startup Table 4-12; 0] -/
  quotas : List Nat
  /-- Crib parts. [1024; 04_image_and_startup Table 4-13; empty] -/
  cribParts : List CribPart
  /-- Stack ranges. [256; 04_image_and_startup Table 4-14; empty] -/
  stackRanges : List OwnedRange
  /-- DIMM_GB. [16; 17_memory_tiers Table 17-5; 0] -/
  dimmGb : Nat
  /-- CXL_GB of ports B0.2, B0.3, B1.2, B1.3. [4 x 16; 17_memory_tiers Table 17-5; 0] -/
  cxlGb : List Nat
  /-- Far ranges, by device address. [128; 17_memory_tiers Table 17-5; empty] -/
  farRanges : List OwnedRange
  deriving DecidableEq, Repr

/-- A landing zone (Table 15-4). -/
structure Zone where
  /-- ZONE_ID. [8; 15_data_movement Table 15-4; -] -/
  id : Nat
  /-- PORT. [8; 15_data_movement Table 15-4; -] -/
  port : Nat
  /-- OWNER. [8; 15_data_movement Table 15-4; -] -/
  owner : Nat
  /-- REQMASK. [32; 15_data_movement Table 15-4; -] -/
  reqMask : Nat
  /-- DA. [64; 15_data_movement Table 15-4; -] -/
  da : Nat
  /-- SIZE. [64; 15_data_movement Table 15-4; -] -/
  size : Nat
  /-- AP_OFF. [32; 15_data_movement Table 15-4; -] -/
  apOff : Nat
  deriving DecidableEq, Repr

/-- What the accepted image fixes until the next BOOT. -/
structure ImageCfg where
  /-- VERSION. [64; 04_image_and_startup Table 4-3; 0] -/
  version : BitVec 64
  /-- SHA-256 digest of the image. [256; 04_image_and_startup Table 4-10; empty] -/
  digest : List Byte
  /-- OWNER_KEY. [256; 04_image_and_startup Table 4-3; empty] -/
  ownerKey : List Byte
  /-- BEAT_NOM, mHz. [32; 04_image_and_startup Table 4-3; 50000] -/
  beatNom : Nat
  /-- EPOCH_BEATS. [16; 04_image_and_startup Table 4-3; 50] -/
  epochBeats : Nat
  /-- DUMP_BEATS. [16; 04_image_and_startup Table 4-3; 10] -/
  dumpBeats : Nat
  /-- DIMMS. [16; 04_image_and_startup Table 4-3; 0] -/
  dimms : BitVec 16
  /-- CXL. [4; 04_image_and_startup Table 4-3; 0] -/
  cxl : BitVec 4
  /-- FUNC_MAP: EN and VECTORS of functions 0 to 63. [64 x 16 bytes; 13_host_ports Table 13-3; empty] -/
  funcs : List (Bool × Nat)
  /-- FUNC_MAP: FUNC, RESERVE, MAXF of queue pairs 0 to 255. [256 x 8 bytes; 14_queues_and_commands Table 14-1; empty] -/
  queues : List (Option Nat × Nat × Nat)
  /-- MEM_CARVE. [-; 04_image_and_startup R873; zero] -/
  carve : Carve
  /-- POWER_SEQ: ID and entries. [16; 04_image_and_startup R129; empty] -/
  seqs : List (Nat × List SeqEntry)
  /-- DVFS_THERMAL: TEMP, CLOCK, ISSUE of each point of curves 0 to 2. [3 x 16; 04_image_and_startup R131; empty] -/
  curves : List (List (Nat × Nat × Nat))
  /-- FORMAT_DECODE: OVF is SPECIAL, by format code. [7; 04_image_and_startup R133; SATURATE] -/
  special : List Bool
  /-- PEER_LIST requesters: port and routing ID. [32; 15_data_movement R573; empty] -/
  reqs : List (Nat × Nat)
  /-- PEER_LIST zones. [64; 15_data_movement Table 15-4; empty] -/
  zones : List Zone
  deriving DecidableEq, Repr

/-- One flash device: its descriptor magic and its image slot (Table 4-2). -/
structure Flash where
  /-- Descriptor magic. [64; 04_image_and_startup R121; the right magic] -/
  magic : BitVec 64
  /-- The image slot's bytes from offset 0; what lies beyond reads 0xFF. [96 MiB; 04_image_and_startup Table 4-2; erased] -/
  slot : List Byte
  /-- The slot reads without an xSPI error. [1; 04_image_and_startup Table 4-7; true] -/
  readable : Bool
  /-- The device certificate in its device area. [31 MiB with the next; 04_image_and_startup R120; free (log 7)] -/
  cert : List Byte
  /-- The PLDM component metadata in its device area. [-; 04_image_and_startup R120; free (log 7)] -/
  metadata : List Byte
  deriving DecidableEq, Repr

/-- Who holds the slot-B staging lock (R843). -/
inductive Stager where
  | steward | bmc
  deriving DecidableEq, Repr

/-- Management: staging and the out-of-band endpoint (chapter 22). -/
structure Mgmt where
  /-- The staging lock. [-; 22_management R843; none] -/
  staging : Option Stager
  /-- Parts staged since the lock was taken: offset and length. [-; 04_image_and_startup R172; empty] -/
  parts : List (Nat × Nat)
  /-- Control-die clock of the last part. [-; 22_management R843; 0] -/
  lastPart : Nat
  /-- Slot B passed VerifyComplete. [1; 22_management R839; false] -/
  verified : Bool
  /-- MCTP endpoint ID. [8; 22_management R837; PRESUMED 0 (log 3)] -/
  eid : BitVec 8
  /-- The output kept for each endpoint: STATUS and bytes. [2; 22_management R840; none] -/
  oem : Vector (Option (BitVec 8 × List Byte)) 2
  /-- An operation of this endpoint is running. [2; 22_management R841; false] -/
  oemBusy : Vector Bool 2
  /-- Changes not yet validated, in the order of their GOs. [-; 22_management R831; empty] -/
  changeQueue : List QueuedChange
  /-- IMAGE_STAGE operations of a function that has been reset since, whose bytes are still to come. [-; 13_host_ports R519;
  empty] -/
  left : List (Nat × Mailbox)
  deriving DecidableEq, Repr

end Sys2Proof.Machine
end

