-- ==== Sys2Proof/Config.lean ====
section
/-!
DEFINITION. Sys2Proof/Config.lean: the free values: what the spec leaves open, as constants without a body.
A proof can use nothing about them. Draw `n` of a run is `Config.freeWord n`, with `n` the state's `freeCtr`.
-/
namespace Sys2Proof.Config

/-- A free 128-bit word: salts and keys drawn by the device (R348, R356), sampling draws (R813), values of a core's
registers and tiles after a reset where the spec gives none (R443, R444) (log 7). -/
opaque freeWord : Nat → BitVec 128

/-- Length of the next locked beat, in 1/16 ns, as the loop filter of R88 would make it, before the bounds of R872
(log 7): from the draw and the length of the beat before. -/
opaque loopLength : Nat → Nat → Nat

/-- The seed of the device's signing key, fused at manufacture (R126, R700) (log 7). -/
opaque deviceSeed : List Byte

/-- The device certificate, kept in the device area of flash (R120) (log 7). -/
opaque deviceCert : List Byte

/-- The PLDM component metadata, kept in the device area of flash (R120) (log 7). -/
opaque componentMetadata : List Byte

/-- The body of a journal record whose bytes the spec leaves open: it says what the body holds and not where (Table 4-10)
(log 11). -/
opaque recordBody : Machine.JBody → List Byte

/-- The DRAM row in which a stack offset lies: the spec gives its channel and pseudo-channel only (R640, R654) (log 132). -/
opaque dramRow : Nat → Nat

/-- Activity units that a domain reported for the work tagged with one command, or with the house account, up to a cut
(R680 to R683, R720): from the draw and the domain number (log 7). -/
opaque activity : Nat → Nat → Nat

/-- A lane of a VCVT or VEXT result that Table 12-7 does not state: from the source and destination type codes, the lane
number and the source register (log 30). -/
opaque freeLane : Nat → Nat → Nat → BitVec 512 → Nat

/-- Cycles for which an ACC operation other than ACC.MAC and ACC.DRAIN holds its slot, from its code (R419, log 31). -/
opaque accBusy : Nat → Nat

/-- Cycles that a step of a long instruction takes, from its descriptor and the step number; not of ACC.DRAIN, whose
cycles section 11.7 gives (log 31). -/
opaque stepCycles : List Byte → Nat → Nat

/-- The PDR repository of the out-of-band endpoint: the record of a handle, whose bytes the spec leaves open (R838)
(log 7). -/
opaque pdr : Nat → List Byte

end Sys2Proof.Config
end

