-- ==== Sys2Proof/Machine/Bytes.lean ====
section
/-!
DEFINITION. Sys2Proof/Machine/Bytes.lean: little-endian byte strings and bit fields (00_scope R6 to R8).
-/
namespace Sys2Proof.Machine

/-- The `n` bytes of `v`, least significant first (R6). -/
def leBytes : Nat → Nat → List Byte
  | 0, _ => []
  | n + 1, v => BitVec.ofNat 8 v :: leBytes n (v / 256)

/-- The number that little-endian bytes spell (R6). -/
def leNat : List Byte → Nat
  | [] => 0
  | b :: bs => b.toNat + 256 * leNat bs

/-- Byte `i` of a string; zero beyond its end. -/
def byteAt (bs : List Byte) (i : Nat) : Byte := bs.getD i 0

/-- `n` bytes of a string from `off`; zeros beyond its end. -/
def slice (bs : List Byte) (off n : Nat) : List Byte :=
  let t := (bs.drop off).take n
  t ++ List.replicate (n - t.length) 0

/-- The `n`-byte little-endian number at `off`. -/
def numAt (bs : List Byte) (off n : Nat) : Nat := leNat (slice bs off n)

/-- A string of `n` zero bytes. -/
def zeros (n : Nat) : List Byte := List.replicate n 0

/-- A string padded with zeros, or cut, to `n` bytes. -/
def fitTo (bs : List Byte) (n : Nat) : List Byte := slice bs 0 n

/-- A string with `new` written at `off`; what lies beyond its end is dropped. -/
def patch (bs : List Byte) (off : Nat) (new : List Byte) : List Byte :=
  bs.take off ++ new.take (bs.length - off) ++ bs.drop (off + new.length)

/-- Bits `lo` to `lo + w - 1` of a number. -/
def bits (v lo w : Nat) : Nat := v / 2 ^ lo % 2 ^ w

/-- Bit `i` of a number. -/
def bit (v i : Nat) : Bool := v.testBit i

/-- A Bool as a number. -/
def b2n (b : Bool) : Nat := if b then 1 else 0

/-- A Bool placed at bit `i`. -/
def flag (b : Bool) (i : Nat) : Nat := if b then 2 ^ i else 0

/-- A number cut to `w` bits and placed at bit `lo`. -/
def put (v lo w : Nat) : Nat := v % 2 ^ w * 2 ^ lo

/-- Bitwise exclusive-or of two byte strings, as long as the first. -/
def xorBytes : List Byte → List Byte → List Byte
  | [], _ => []
  | a :: as, [] => a :: as
  | a :: as, b :: bs => (a ^^^ b) :: xorBytes as bs

/-- Whether every byte is zero. -/
def allZero (bs : List Byte) : Bool := bs.all (· == 0)

/-- A string cut into pieces of `k` bytes, `n` of them. -/
def pieces (k : Nat) : Nat → List Byte → List (List Byte)
  | 0, _ => []
  | n + 1, bs => slice bs 0 k :: pieces k n (bs.drop k)

/-- Division rounded up. -/
def ceilDiv (a b : Nat) : Nat := (a + b - 1) / b

/-- `a` rounded up to a multiple of `b`. -/
def alignUp (a b : Nat) : Nat := ceilDiv a b * b

/-- Base-2 logarithm rounded down (0 for 0). -/
def ilog2 (n : Nat) : Nat := Nat.log2 n

/-- Two half-open ranges given as base and size meet. -/
def rangesMeet (a n b m : Nat) : Bool := decide (0 < n ∧ 0 < m ∧ a < b + m ∧ b < a + n)

/-- The range `a, n` lies within the range `b, m`. -/
def rangeIn (a n b m : Nat) : Bool := decide (b ≤ a ∧ a + n ≤ b + m)

/-- The first `n` natural numbers. -/
def upTo (n : Nat) : List Nat := List.range n

/-- An element of a list with default. -/
def nth {α : Type} (l : List α) (i : Nat) (d : α) : α := l.getD i d

/-- A list with `f` applied at position `i`. -/
def updAt {α : Type} (l : List α) (i : Nat) (f : α → α) : List α := l.modify i f

/-- Insertion sort by a strict order test on keys, stable. -/
def insertBy {α : Type} (lt : α → α → Bool) (x : α) : List α → List α
  | [] => [x]
  | y :: ys => if lt x y then x :: y :: ys else y :: insertBy lt x ys

/-- The list in ascending order of `lt`, equal elements in their old order. -/
def sortBy {α : Type} (lt : α → α → Bool) (l : List α) : List α :=
  l.foldl (fun acc x => insertBy lt x acc) []

end Sys2Proof.Machine
end

