-- ==== Sys2Proof/Machine/Crypto.lean ====
section
/-!
DEFINITION. Sys2Proof/Machine/Crypto.lean: the public algorithms the spec names: SHA-256 (FIPS 180-4, section 18.8),
Ed25519 with its SHA-512 (RFC 8032, R700), SipHash-2-4 (R357) and CRC-32C (R140).
-/
namespace Sys2Proof.Machine

/-! ### SHA-256 -/

/-- Round constants of SHA-256. -/
def sha256K : List (BitVec 32) :=
  [0x428A2F98, 0x71374491, 0xB5C0FBCF, 0xE9B5DBA5, 0x3956C25B, 0x59F111F1, 0x923F82A4, 0xAB1C5ED5, 0xD807AA98,
       0x12835B01, 0x243185BE, 0x550C7DC3, 0x72BE5D74, 0x80DEB1FE, 0x9BDC06A7, 0xC19BF174]
    ++ [0xE49B69C1, 0xEFBE4786, 0x0FC19DC6, 0x240CA1CC, 0x2DE92C6F, 0x4A7484AA, 0x5CB0A9DC, 0x76F988DA, 0x983E5152,
       0xA831C66D, 0xB00327C8, 0xBF597FC7, 0xC6E00BF3, 0xD5A79147, 0x06CA6351, 0x14292967]
    ++ [0x27B70A85, 0x2E1B2138, 0x4D2C6DFC, 0x53380D13, 0x650A7354, 0x766A0ABB, 0x81C2C92E, 0x92722C85, 0xA2BFE8A1,
       0xA81A664B, 0xC24B8B70, 0xC76C51A3, 0xD192E819, 0xD6990624, 0xF40E3585, 0x106AA070]
    ++ [0x19A4C116, 0x1E376C08, 0x2748774C, 0x34B0BCB5, 0x391C0CB3, 0x4ED8AA4A, 0x5B9CCA4F, 0x682E6FF3, 0x748F82EE,
       0x78A5636F, 0x84C87814, 0x8CC70208, 0x90BEFFFA, 0xA4506CEB, 0xBEF9A3F7, 0xC67178F2]

/-- Initial hash value of SHA-256. -/
def sha256H : List (BitVec 32) :=
  [0x6A09E667, 0xBB67AE85, 0x3C6EF372, 0xA54FF53A, 0x510E527F, 0x9B05688C, 0x1F83D9AB, 0x5BE0CD19]

/-- The number that big-endian bytes spell. -/
def beNat (bs : List Byte) : Nat := leNat bs.reverse
/-- The `n` bytes of a number, most significant first. -/
def beBytes (n v : Nat) : List Byte := (leBytes n v).reverse

/-- Consecutive big-endian words of `k` bytes. -/
def beWords (k n : Nat) (bs : List Byte) : List Nat := (pieces k n bs).map beNat

/-- A message padded to whole blocks of `b` bytes with a length field of `l` bytes. -/
def shaPad (b l : Nat) (m : List Byte) : List Byte :=
  let z := (b - (m.length + 1 + l) % b) % b
  m ++ [0x80] ++ zeros z ++ beBytes l (8 * m.length)

/-- One word more of the message schedule, newest first: w(t) from w(t-2), w(t-7), w(t-15), w(t-16). -/
def sha256Next (ws : List (BitVec 32)) : BitVec 32 :=
  let w (i : Nat) : BitVec 32 := ws.getD (i - 1) 0
  let s0 (x : BitVec 32) := x.rotateRight 7 ^^^ x.rotateRight 18 ^^^ (x >>> 3)
  let s1 (x : BitVec 32) := x.rotateRight 17 ^^^ x.rotateRight 19 ^^^ (x >>> 10)
  s1 (w 2) + w 7 + s0 (w 15) + w 16

/-- The message schedule extended by `n` words, newest first. -/
def sha256Sched : Nat → List (BitVec 32) → List (BitVec 32)
  | 0, ws => ws
  | n + 1, ws => sha256Sched n (sha256Next ws :: ws)

/-- One round of SHA-256. -/
def sha256Round (v : List (BitVec 32)) (kw : BitVec 32 × BitVec 32) : List (BitVec 32) :=
  match v with
  | [a, b, c, d, e, f, g, h] =>
    let t1 := h + (e.rotateRight 6 ^^^ e.rotateRight 11 ^^^ e.rotateRight 25) + ((e &&& f) ^^^ (~~~e &&& g)) + kw.1 + kw.2
    let t2 := (a.rotateRight 2 ^^^ a.rotateRight 13 ^^^ a.rotateRight 22) + ((a &&& b) ^^^ (a &&& c) ^^^ (b &&& c))
    [t1 + t2, a, b, c, d + t1, e, f, g]
  | _ => v

/-- One block of SHA-256. -/
def sha256Block (h : List (BitVec 32)) (blk : List Byte) : List (BitVec 32) :=
  let w0 := (beWords 4 16 blk).map (BitVec.ofNat 32)
  let ws := (sha256Sched 48 w0.reverse).reverse
  List.zipWith (· + ·) h ((List.zip sha256K ws).foldl sha256Round h)

/-- SHA-256. -/
def sha256 (m : List Byte) : List Byte :=
  let p := shaPad 64 8 m
  (((pieces 64 (p.length / 64) p).foldl sha256Block sha256H).map fun w => beBytes 4 w.toNat).flatten

/-! ### SHA-512 -/

/-- Round constants of SHA-512. -/
def sha512K : List (BitVec 64) :=
  [0x428A2F98D728AE22, 0x7137449123EF65CD, 0xB5C0FBCFEC4D3B2F, 0xE9B5DBA58189DBBC, 0x3956C25BF348B538,
       0x59F111F1B605D019, 0x923F82A4AF194F9B, 0xAB1C5ED5DA6D8118, 0xD807AA98A3030242, 0x12835B0145706FBE,
       0x243185BE4EE4B28C, 0x550C7DC3D5FFB4E2, 0x72BE5D74F27B896F, 0x80DEB1FE3B1696B1, 0x9BDC06A725C71235,
       0xC19BF174CF692694]
    ++ [0xE49B69C19EF14AD2, 0xEFBE4786384F25E3, 0x0FC19DC68B8CD5B5, 0x240CA1CC77AC9C65, 0x2DE92C6F592B0275,
       0x4A7484AA6EA6E483, 0x5CB0A9DCBD41FBD4, 0x76F988DA831153B5, 0x983E5152EE66DFAB, 0xA831C66D2DB43210,
       0xB00327C898FB213F, 0xBF597FC7BEEF0EE4, 0xC6E00BF33DA88FC2, 0xD5A79147930AA725, 0x06CA6351E003826F,
       0x142929670A0E6E70]
    ++ [0x27B70A8546D22FFC, 0x2E1B21385C26C926, 0x4D2C6DFC5AC42AED, 0x53380D139D95B3DF, 0x650A73548BAF63DE,
       0x766A0ABB3C77B2A8, 0x81C2C92E47EDAEE6, 0x92722C851482353B, 0xA2BFE8A14CF10364, 0xA81A664BBC423001,
       0xC24B8B70D0F89791, 0xC76C51A30654BE30, 0xD192E819D6EF5218, 0xD69906245565A910, 0xF40E35855771202A,
       0x106AA07032BBD1B8]
    ++ [0x19A4C116B8D2D0C8, 0x1E376C085141AB53, 0x2748774CDF8EEB99, 0x34B0BCB5E19B48A8, 0x391C0CB3C5C95A63,
       0x4ED8AA4AE3418ACB, 0x5B9CCA4F7763E373, 0x682E6FF3D6B2B8A3, 0x748F82EE5DEFB2FC, 0x78A5636F43172F60,
       0x84C87814A1F0AB72, 0x8CC702081A6439EC, 0x90BEFFFA23631E28, 0xA4506CEBDE82BDE9, 0xBEF9A3F7B2C67915,
       0xC67178F2E372532B]
    ++ [0xCA273ECEEA26619C, 0xD186B8C721C0C207, 0xEADA7DD6CDE0EB1E, 0xF57D4F7FEE6ED178, 0x06F067AA72176FBA,
       0x0A637DC5A2C898A6, 0x113F9804BEF90DAE, 0x1B710B35131C471B, 0x28DB77F523047D84, 0x32CAAB7B40C72493,
       0x3C9EBE0A15C9BEBC, 0x431D67C49C100D4C, 0x4CC5D4BECB3E42B6, 0x597F299CFC657E2A, 0x5FCB6FAB3AD6FAEC,
       0x6C44198C4A475817]

/-- Initial hash value of SHA-512. -/
def sha512H : List (BitVec 64) :=
  [0x6A09E667F3BCC908, 0xBB67AE8584CAA73B, 0x3C6EF372FE94F82B, 0xA54FF53A5F1D36F1, 0x510E527FADE682D1,
       0x9B05688C2B3E6C1F, 0x1F83D9ABFB41BD6B, 0x5BE0CD19137E2179]

/-- See `sha256Next`. -/
def sha512Next (ws : List (BitVec 64)) : BitVec 64 :=
  let w (i : Nat) : BitVec 64 := ws.getD (i - 1) 0
  let s0 (x : BitVec 64) := x.rotateRight 1 ^^^ x.rotateRight 8 ^^^ (x >>> 7)
  let s1 (x : BitVec 64) := x.rotateRight 19 ^^^ x.rotateRight 61 ^^^ (x >>> 6)
  s1 (w 2) + w 7 + s0 (w 15) + w 16

/-- See `sha256Sched`. -/
def sha512Sched : Nat → List (BitVec 64) → List (BitVec 64)
  | 0, ws => ws
  | n + 1, ws => sha512Sched n (sha512Next ws :: ws)

/-- One round of SHA-512. -/
def sha512Round (v : List (BitVec 64)) (kw : BitVec 64 × BitVec 64) : List (BitVec 64) :=
  match v with
  | [a, b, c, d, e, f, g, h] =>
    let t1 := h + (e.rotateRight 14 ^^^ e.rotateRight 18 ^^^ e.rotateRight 41) + ((e &&& f) ^^^ (~~~e &&& g)) + kw.1 + kw.2
    let t2 := (a.rotateRight 28 ^^^ a.rotateRight 34 ^^^ a.rotateRight 39) + ((a &&& b) ^^^ (a &&& c) ^^^ (b &&& c))
    [t1 + t2, a, b, c, d + t1, e, f, g]
  | _ => v

/-- One block of SHA-512. -/
def sha512Block (h : List (BitVec 64)) (blk : List Byte) : List (BitVec 64) :=
  let w0 := (beWords 8 16 blk).map (BitVec.ofNat 64)
  let ws := (sha512Sched 64 w0.reverse).reverse
  List.zipWith (· + ·) h ((List.zip sha512K ws).foldl sha512Round h)

/-- SHA-512. -/
def sha512 (m : List Byte) : List Byte :=
  let p := shaPad 128 16 m
  (((pieces 128 (p.length / 128) p).foldl sha512Block sha512H).map fun w => beBytes 8 w.toNat).flatten

/-! ### Ed25519 (RFC 8032) -/

/-- The field's prime. -/
def edP : Nat := 2 ^ 255 - 19
/-- The order of the base point. -/
def edL : Nat := 2 ^ 252 + 27742317777372353535851937790883648493

/-- x to the power given by its bits, most significant first, modulo the prime. -/
def edPow (x : Nat) (bs : List Bool) : Nat :=
  bs.foldl (fun acc b => let sq := acc * acc % edP; if b then sq * x % edP else sq) 1

/-- The low `n` bits of a number, most significant first. -/
def bitsMsb (n v : Nat) : List Bool := ((List.range n).map v.testBit).reverse

/-- The inverse modulo the prime. -/
def edInv (x : Nat) : Nat := edPow x (bitsMsb 255 (edP - 2))

/-- The curve's constant d = -121665/121666. -/
def edD : Nat := (edP - 121665) * edInv 121666 % edP

/-- A point in extended coordinates X, Y, Z, T. -/
structure EdPoint where
  x : Nat
  y : Nat
  z : Nat
  t : Nat
  deriving DecidableEq, Repr

/-- The neutral point. -/
def edZero : EdPoint := { x := 0, y := 1, z := 1, t := 0 }

/-- Addition of points (RFC 8032, section 5.1.4). -/
def edAdd (p q : EdPoint) : EdPoint :=
  let sub (a b : Nat) : Nat := (a + edP - b) % edP
  let a := sub p.y p.x * sub q.y q.x % edP
  let b := (p.y + p.x) * (q.y + q.x) % edP
  let c := p.t * 2 % edP * edD % edP * q.t % edP
  let d := p.z * 2 * q.z % edP
  let e := sub b a
  let f := sub d c
  let g := (d + c) % edP
  let h := (b + a) % edP
  { x := e * f % edP, y := g * h % edP, z := f * g % edP, t := e * h % edP }

/-- A multiple of a point. -/
def edMul (n : Nat) (p : EdPoint) : EdPoint :=
  (bitsMsb 256 n).foldl (fun acc b => let d := edAdd acc acc; if b then edAdd d p else d) edZero

/-- The base point. -/
def edBase : EdPoint :=
  let y := 4 * edInv 5 % edP
  let x := 15112221349535400772501151409588531511454012693041857206046113283949847762202
  { x := x, y := y, z := 1, t := x * y % edP }

/-- The 32 bytes of a point. -/
def edEncode (p : EdPoint) : List Byte :=
  let i := edInv p.z
  leBytes 32 (p.y * i % edP + (p.x * i % edP) % 2 * 2 ^ 255)

/-- The secret scalar and the prefix of a seed. -/
def edSecret (seed : List Byte) : Nat × List Byte :=
  let h := sha512 seed
  let a := leNat (h.take 32)
  (2 ^ 254 + a % 2 ^ 254 / 8 * 8, h.drop 32)

/-- The public key of a seed. -/
def edPublic (seed : List Byte) : List Byte := edEncode (edMul (edSecret seed).1 edBase)

/-- The signature of a message under a seed. -/
def edSign (seed m : List Byte) : List Byte :=
  let (a, pre) := edSecret seed
  let pk := edPublic seed
  let r := leNat (sha512 (pre ++ m)) % edL
  let rb := edEncode (edMul r edBase)
  let k := leNat (sha512 (rb ++ pk ++ m)) % edL
  rb ++ leBytes 32 ((r + k * a) % edL)

/-- The x coordinate of a y with the given parity, when there is one (RFC 8032, section 5.1.3). -/
def edRecover (y sign : Nat) : Option Nat :=
  let u := (y * y + edP - 1) % edP
  let v := (edD * (y * y) + 1) % edP
  let uv := u * edInv v % edP
  let x0 := edPow uv (bitsMsb 253 ((edP + 3) / 8))
  let x1 := if x0 * x0 % edP = uv then x0 else x0 * edPow 2 (bitsMsb 253 ((edP - 1) / 4)) % edP
  if edP ≤ y ∨ x1 * x1 % edP ≠ uv ∨ (x1 = 0 ∧ sign = 1) then none
  else some (if x1 % 2 = sign then x1 else edP - x1)

/-- A point from its 32 bytes. -/
def edDecode (bs : List Byte) : Option EdPoint :=
  let n := leNat (fitTo bs 32)
  let y := n % 2 ^ 255
  (edRecover y (n / 2 ^ 255)).map fun x => { x := x, y := y, z := 1, t := x * y % edP }

/-- A signature verifies under a public key. -/
def edVerify (pk m sig : List Byte) : Bool :=
  match edDecode pk, edDecode (sig.take 32) with
  | some a, some r =>
    let sc := leNat (slice sig 32 32)
    let k := leNat (sha512 (fitTo sig 32 ++ fitTo pk 32 ++ m)) % edL
    decide (sig.length = 64 ∧ sc < edL) && edEncode (edMul sc edBase) == edEncode (edAdd r (edMul k a))
  | _, _ => false

/-! ### SipHash-2-4 -/

/-- One SipRound. -/
def sipRound (v : List (BitVec 64)) : List (BitVec 64) :=
  match v with
  | [v0, v1, v2, v3] =>
    let v0 := v0 + v1
    let v1 := v1.rotateLeft 13 ^^^ v0
    let v0 := v0.rotateLeft 32
    let v2 := v2 + v3
    let v3 := v3.rotateLeft 16 ^^^ v2
    let v0 := v0 + v3
    let v3 := v3.rotateLeft 21 ^^^ v0
    let v2 := v2 + v1
    let v1 := v1.rotateLeft 17 ^^^ v2
    let v2 := v2.rotateLeft 32
    [v0, v1, v2, v3]
  | _ => v

/-- One message word is mixed in. -/
def sipWord (v : List (BitVec 64)) (m : BitVec 64) : List (BitVec 64) :=
  match v with
  | [v0, v1, v2, v3] =>
    match sipRound (sipRound [v0, v1, v2, v3 ^^^ m]) with
    | [a, b, c, d] => [a ^^^ m, b, c, d]
    | w => w
  | _ => v

/-- SipHash-2-4 of a message under a 128-bit key. -/
def sipHash (key : BitVec 128) (m : List Byte) : BitVec 64 :=
  let k0 := key.setWidth 64
  let k1 := (key >>> 64).setWidth 64
  let v := [k0 ^^^ 0x736F6D6570736575, k1 ^^^ 0x646F72616E646F6D, k0 ^^^ 0x6C7967656E657261, k1 ^^^ 0x7465646279746573]
  let n := m.length / 8
  let lastWord := BitVec.ofNat 64 (leNat (m.drop (8 * n)) + m.length % 256 * 2 ^ 56)
  let ws := (pieces 8 n m).map (fun p => BitVec.ofNat 64 (leNat p)) ++ [lastWord]
  match ws.foldl sipWord v with
  | [a, b, c, d] =>
    match sipRound (sipRound (sipRound (sipRound [a, b, c ^^^ 0xFF, d]))) with
    | [a, b, c, d] => a ^^^ b ^^^ c ^^^ d
    | _ => 0
  | _ => 0

/-! ### CRC-32C -/

/-- Eight steps of the reflected CRC. -/
def crcSteps : Nat → BitVec 32 → BitVec 32
  | 0, c => c
  | n + 1, c => crcSteps n (if c.getLsbD 0 then (c >>> 1) ^^^ 0x82F63B78 else c >>> 1)

/-- CRC-32C (Castagnoli). -/
def crc32c (m : List Byte) : BitVec 32 :=
  ~~~ m.foldl (fun c b => crcSteps 8 (c ^^^ b.setWidth 32)) 0xFFFFFFFF

end Sys2Proof.Machine
end

