-- ==== Sys2Proof/Machine/Float.lean ====
section
/-!
DEFINITION. Sys2Proof/Machine/Float.lean: exact numbers, FP32 arithmetic with one rounding, and the element formats
(05_tables R178 to R183, R871).
-/
namespace Sys2Proof.Machine

/-- An FP32 bit pattern. -/
abbrev F32 := BitVec 32

/-- A decoded number: NaN, an infinity, or (-1)^neg · m · 2^e exactly. -/
inductive Num where
  | nan
  | inf (neg : Bool)
  | fin (neg : Bool) (m : Nat) (e : Int)
  deriving DecidableEq, Repr

/-- Positive zero. -/
def Num0 : Num := .fin false 0 0

/-- The layout of a floating-point format: exponent bits, mantissa bits, bias, and whether the top exponent is kept for
infinities and NaN (FP8-E4M3 keeps only mantissa 111 for NaN) (Table 5-3). -/
structure Layout where
  eb : Nat
  mb : Nat
  bias : Nat
  ieee : Bool
  deriving DecidableEq, Repr

def layFp32 : Layout := { eb := 8, mb := 23, bias := 127, ieee := true }
def layBf16 : Layout := { eb := 8, mb := 7, bias := 127, ieee := true }
def layFp16 : Layout := { eb := 5, mb := 10, bias := 15, ieee := true }
def layE4m3 : Layout := { eb := 4, mb := 3, bias := 7, ieee := false }
def layE5m2 : Layout := { eb := 5, mb := 2, bias := 15, ieee := true }

/-- Exponent of the last mantissa bit of subnormals. -/
def emin (l : Layout) : Int := 1 - (l.bias : Int) - (l.mb : Int)

/-- The number a code of a layout stands for (R178, R179). -/
def decodeFp (l : Layout) (c : Nat) : Num :=
  let neg := bit c (l.eb + l.mb)
  let ex := bits c l.mb l.eb
  let ma := bits c 0 l.mb
  let top := 2 ^ l.eb - 1
  if ex = top && l.ieee then (if ma = 0 then .inf neg else .nan)
  else if ex = top && ma = 2 ^ l.mb - 1 then .nan
  else if ex = 0 then .fin neg ma (emin l)
  else .fin neg (2 ^ l.mb + ma) (emin l + (ex : Int) - 1)

/-- `m · 2^e` to nearest even at `p` bits, with no last bit below `2^low`. A sticky remainder is an odd last bit. -/
def roundAt (p : Nat) (low : Int) (m : Nat) (e : Int) : Nat × Int :=
  let have_ := Nat.log2 m + 1
  let sh : Int := max ((have_ : Int) - (p : Int)) (low - e)
  if sh ≤ 0 then (m, e)
  else
    let k := sh.toNat
    let q := m / 2 ^ k
    let r := m % 2 ^ k
    let half := 2 ^ (k - 1)
    (if half < r || (r = half && q % 2 = 1) then q + 1 else q, e + sh)

/-- The code of a rounded finite magnitude that the layout can hold, without its sign. -/
def packFp (l : Layout) (m : Nat) (e : Int) : Nat :=
  if m = 0 then 0
  else
    let up := min ((l.mb : Int) - (Nat.log2 m : Int)) (e - emin l)
    let m' := if 0 ≤ up then m * 2 ^ up.toNat else m / 2 ^ (-up).toNat
    let e' := e - up
    if m' < 2 ^ l.mb then m'
    else m' - 2 ^ l.mb + ((e' - emin l + 1).toNat) * 2 ^ l.mb

/-- The largest finite code of a layout, without its sign. -/
def maxCode (l : Layout) : Nat :=
  if l.ieee then (2 ^ l.eb - 1) * 2 ^ l.mb - 1 else 2 ^ (l.eb + l.mb) - 2

/-- The canonical NaN of a layout (R180). -/
def nanCode (l : Layout) : Nat :=
  if l.ieee then (2 ^ l.eb - 1) * 2 ^ l.mb + 2 ^ (l.mb - 1) else 2 ^ (l.eb + l.mb) - 1

/-- A number into a layout under an overflow rule: SPECIAL gives infinity, or 0x7F for FP8-E4M3 (R180, R181). -/
def encodeFp (l : Layout) (special : Bool) (x : Num) : Nat :=
  let sgn (neg : Bool) : Nat := if neg then 2 ^ (l.eb + l.mb) else 0
  let ovf (neg : Bool) : Nat :=
    if special then (if l.ieee then sgn neg + (2 ^ l.eb - 1) * 2 ^ l.mb else nanCode l) else sgn neg + maxCode l
  match x with
  | .nan => nanCode l
  | .inf neg => ovf neg
  | .fin neg m e =>
    let (m', e') := roundAt (l.mb + 1) (emin l) m e
    let c := packFp l m' e'
    if maxCode l < c then ovf neg else sgn neg + c

/-- FP32 to an exact number. -/
def ofF32 (x : F32) : Num := decodeFp layFp32 x.toNat

/-- The nearest FP32, infinities on overflow (R179, IEEE 754). -/
def toF32 (x : Num) : F32 := BitVec.ofNat 32 (encodeFp layFp32 true x)

/-- The canonical NaN (R180). -/
def nan32 : F32 := 0x7FC00000

/-- Whether an FP32 pattern is a NaN. -/
def isNan (x : F32) : Bool := bits x.toNat 23 8 == 255 && bits x.toNat 0 23 != 0

/-! ### Exact arithmetic -/

/-- A finite number as a signed mantissa. -/
def signed (neg : Bool) (m : Nat) : Int := if neg then -(m : Int) else (m : Int)

/-- Sum of two finite numbers; an exact zero is positive unless both terms are negative. -/
def addFin (n1 : Bool) (m1 : Nat) (e1 : Int) (n2 : Bool) (m2 : Nat) (e2 : Int) : Num :=
  let e := min e1 e2
  let s : Int := signed n1 m1 * (2 ^ (e1 - e).toNat : Nat) + signed n2 m2 * (2 ^ (e2 - e).toNat : Nat)
  if s = 0 then .fin (n1 && n2) 0 e else .fin (decide (s < 0)) s.natAbs e

/-- Exact sum with IEEE specials. -/
def numAdd : Num → Num → Num
  | .nan, _ => .nan
  | _, .nan => .nan
  | .inf a, .inf b => if a == b then .inf a else .nan
  | .inf a, _ => .inf a
  | _, .inf b => .inf b
  | .fin n1 m1 e1, .fin n2 m2 e2 => addFin n1 m1 e1 n2 m2 e2

/-- Negation. -/
def numNeg : Num → Num
  | .nan => .nan
  | .inf a => .inf (!a)
  | .fin n m e => .fin (!n) m e

/-- Exact product with IEEE specials. -/
def numMul : Num → Num → Num
  | .nan, _ => .nan
  | _, .nan => .nan
  | .inf a, .inf b => .inf (a != b)
  | .inf a, .fin n m _ => if m = 0 then .nan else .inf (a != n)
  | .fin n m _, .inf b => if m = 0 then .nan else .inf (n != b)
  | .fin n1 m1 e1, .fin n2 m2 e2 => .fin (n1 != n2) (m1 * m2) (e1 + e2)

/-- Quotient to 64 more bits than the divisor needs, with a sticky last bit; IEEE specials. -/
def numDiv : Num → Num → Num
  | .nan, _ => .nan
  | _, .nan => .nan
  | .inf _, .inf _ => .nan
  | .inf a, .fin n _ _ => .inf (a != n)
  | .fin n _ _, .inf b => .fin (n != b) 0 0
  | .fin n1 m1 e1, .fin n2 m2 e2 =>
    if m2 = 0 then (if m1 = 0 then .nan else .inf (n1 != n2))
    else
      let k := Nat.log2 m2 + 64
      let q := m1 * 2 ^ k / m2
      let r := m1 * 2 ^ k % m2
      .fin (n1 != n2) (2 * q + if r = 0 then 0 else 1) (e1 - e2 - (k : Int) - 1)

/-- Integer square root from the top bit down: `r` so far, `b` bits still to try. -/
def isqrtLoop (n : Nat) : Nat → Nat → Nat
  | 0, r => r
  | b + 1, r => let t := r + 2 ^ b; if t * t ≤ n then isqrtLoop n b t else isqrtLoop n b r

/-- Integer square root. -/
def isqrt (n : Nat) : Nat := isqrtLoop n (Nat.log2 n / 2 + 1) 0

/-- Square root with a sticky last bit; IEEE specials. -/
def numSqrt : Num → Num
  | .nan => .nan
  | .inf neg => if neg then .nan else .inf false
  | .fin neg m e =>
    if m = 0 then .fin neg 0 e
    else if neg then .nan
    else
      let odd := e % 2 != 0
      let m' := (if odd then 2 * m else m) * 2 ^ 64
      let e' := (if odd then e - 1 else e) - 64
      let r := isqrt m'
      .fin false (2 * r + if r * r = m' then 0 else 1) (e' / 2 - 1)

/-- ln 2 scaled by 2^160. -/
def ln2Scaled : Nat := 1013035739299659071135698605846798551586536899366

/-- The series of exp at `y / 2^160`: `k` terms still to add, the last term and the sum, scaled by 2^160. -/
def expSeries (y : Nat) : Nat → Nat → Nat → Nat → Nat
  | 0, _, _, sum => sum
  | k + 1, i, term, sum =>
    let t := term * y / 2 ^ 160 / i
    expSeries y k (i + 1) t (sum + t)

/-- 2^x of a finite number, accurate far beyond the rounding of FP32 (R453, R386): 2^n times the series of the
fraction, with a sticky last bit unless the fraction is zero. -/
def numExp2 : Num → Num
  | .nan => .nan
  | .inf neg => if neg then .fin false 0 0 else .inf false
  | .fin neg m e =>
    if m = 0 then .fin false 1 0
    else if 20 ≤ (Nat.log2 m : Int) + e then (if neg then .fin false 1 (-300) else .inf false)
    else if (Nat.log2 m : Int) + e < -40 then .fin false (if neg then 2 ^ 60 - 1 else 2 ^ 60 + 1) (-60)
    else
      let f := 100 + e
      let scaled : Int := signed neg m * (2 ^ f.toNat : Nat) / (2 ^ (-f).toNat : Nat)
      let n := scaled / (2 ^ 100 : Nat)
      let fr := (scaled % (2 ^ 100 : Nat)).toNat
      if fr = 0 then .fin false 1 n
      else
        let y := fr * ln2Scaled / 2 ^ 100
        let v := expSeries y 48 1 (2 ^ 160) (2 ^ 160)
        .fin false (2 * v + 1) (n - 161)

/-- Order of two numbers, −0 equal to +0: `some true` when the first is less; none with a NaN. -/
def numLt : Num → Num → Option Bool
  | .nan, _ => none
  | _, .nan => none
  | .inf a, .inf b => some (a && !b)
  | .inf a, _ => some a
  | _, .inf b => some (!b)
  | .fin n1 m1 e1, .fin n2 m2 e2 =>
    let e := min e1 e2
    some (decide (signed n1 m1 * (2 ^ (e1 - e).toNat : Nat) < signed n2 m2 * (2 ^ (e2 - e).toNat : Nat)))

/-- Equal in value, −0 equal to +0. -/
def numEq (a b : Num) : Bool := numLt a b == some false && numLt b a == some false

/-! ### FP32 operations, one rounding each -/

def f32Add (a b : F32) : F32 := toF32 (numAdd (ofF32 a) (ofF32 b))
def f32Sub (a b : F32) : F32 := toF32 (numAdd (ofF32 a) (numNeg (ofF32 b)))
def f32Mul (a b : F32) : F32 := toF32 (numMul (ofF32 a) (ofF32 b))
def f32Div (a b : F32) : F32 := toF32 (numDiv (ofF32 a) (ofF32 b))
def f32Sqrt (a : F32) : F32 := toF32 (numSqrt (ofF32 a))
def f32Exp2 (a : F32) : F32 := toF32 (numExp2 (ofF32 a))
/-- `a · b + c` with one rounding. -/
def f32Fma (a b c : F32) : F32 := toF32 (numAdd (numMul (ofF32 a) (ofF32 b)) (ofF32 c))
/-- The sign bit inverted. -/
def f32Neg (a : F32) : F32 := a ^^^ 0x80000000
/-- An integer rounded to FP32. -/
def f32OfInt (i : Int) : F32 := toF32 (.fin (decide (i < 0)) i.natAbs 0)

/-- Nearest integer of the exact quotient `n / d`, ties to even; `d` positive. -/
def rneDiv (n : Int) (d : Nat) : Int :=
  let q := n / (d : Int)
  let r := 2 * (n % (d : Int))
  if r < (d : Int) then q
  else if (d : Int) < r then q + 1
  else if q % 2 = 0 then q else q + 1

/-- A finite number over 2^0 as a fraction: numerator and positive denominator. -/
def asFraction (neg : Bool) (m : Nat) (e : Int) : Int × Nat :=
  (signed neg m * (2 ^ e.toNat : Nat), 2 ^ (-e).toNat)

/-- Nearest integer of a quotient of exact numbers, clamped; 0 without a value (R182, R871). -/
def quantize (x s : Num) (lo hi : Int) : Int :=
  match x, s with
  | .nan, _ => 0
  | _, .nan => 0
  | .inf _, .inf _ => 0
  | .inf a, .fin n m _ => if m = 0 then 0 else if a != n then lo else hi
  | .fin _ _ _, .inf _ => 0
  | .fin n1 m1 e1, .fin n2 m2 e2 =>
    if m2 = 0 then 0
    else
      let (p, q) := asFraction (n1 != n2) m1 (e1 - e2)
      max lo (min hi (rneDiv p (q * m2)))

/-! ### Element formats -/

/-- Element width in bits (Table 4-6). -/
def fmtWidth : Fmt → Nat
  | .fp32 => 32 | .bf16 => 16 | .fp16 => 16 | .e4m3 => 8 | .e5m2 => 8 | .int8 => 8 | .int4 => 4

/-- Row scale and bias bytes (Table 4-6). -/
def fmtScale : Fmt → Nat
  | .int8 => 4 | .int4 => 8 | _ => 0

/-- The format of a code of Table 4-6. -/
def fmtOf : Nat → Option Fmt
  | 0 => some .fp32 | 1 => some .bf16 | 2 => some .fp16 | 3 => some .e4m3 | 4 => some .e5m2 | 5 => some .int8
  | 6 => some .int4 | _ => none

/-- Layout of a floating-point element format. -/
def fmtLayout : Fmt → Option Layout
  | .fp32 => some layFp32 | .bf16 => some layBf16 | .fp16 => some layFp16 | .e4m3 => some layE4m3
  | .e5m2 => some layE5m2 | _ => none

/-- An element's code to FP32, with its row's scale and bias (R179, R180, R216). -/
def decodeElem (f : Fmt) (scale bias : F32) (c : Nat) : F32 :=
  match fmtLayout f with
  | some l => toF32 (decodeFp l c)
  | none =>
    if f == .int8 then
      let q : Int := (BitVec.ofNat 8 c).toInt
      toF32 (numMul (.fin (decide (q < 0)) q.natAbs 0) (ofF32 scale))
    else toF32 (numAdd (numMul (.fin false (c % 16) 0) (ofF32 scale)) (ofF32 bias))

/-- FP32 to an element's code under the row's scale and bias and the format's overflow rule (R180 to R182, R871). -/
def encodeElem (f : Fmt) (special : Bool) (scale bias x : F32) : Nat :=
  match fmtLayout f with
  | some l => encodeFp l special (ofF32 x)
  | none =>
    if f == .int8 then (BitVec.ofInt 8 (quantize (ofF32 x) (ofF32 scale) (-127) 127)).toNat
    else (quantize (numAdd (ofF32 x) (numNeg (ofF32 bias))) (ofF32 scale) 0 15).toNat

/-- Element `p` of a packed string of a format, two INT4 codes to a byte, even position low (R186, R188). -/
def codeAt (f : Fmt) (bs : List Byte) (p : Nat) : Nat :=
  match f with
  | .int4 => bits (byteAt bs (p / 2)).toNat (4 * (p % 2)) 4
  | f => numAt bs (p * (fmtWidth f / 8)) (fmtWidth f / 8)

/-- Codes packed into bytes (R186, R188). -/
def packCodes (f : Fmt) : List Nat → List Byte
  | [] => []
  | c :: cs =>
    match f with
    | .int4 =>
      match cs with
      | [] => [BitVec.ofNat 8 (c % 16)]
      | d :: ds => BitVec.ofNat 8 (c % 16 + 16 * (d % 16)) :: packCodes f ds
    | f => leBytes (fmtWidth f / 8) c ++ packCodes f cs

end Sys2Proof.Machine
end

