-- ==== Sys2Proof/Machine/Memory.lean ====
section
/-!
DEFINITION. Sys2Proof/Machine/Memory.lean: device memory as one canonical list of cells (chapter 2, Table 2-6).
-/
namespace Sys2Proof.Machine

/-- What a byte that no write has reached reads as. DESIGN CHOICE (log 4): zero. -/
def emptyByte : Byte := 0

/-- One byte of memory. -/
def memRead1 : List Host.Cell → Nat → Byte
  | [], _ => emptyByte
  | (k, b) :: m, a => if a = k then b else if a < k then emptyByte else memRead1 m a

/-- A cell in front of a list, left out when it holds the empty byte. -/
def consCell (a : Nat) (b : Byte) (m : List Host.Cell) : List Host.Cell :=
  if b = emptyByte then m else (a, b) :: m

/-- Memory with one byte written, in canonical form. -/
def memWrite1 : List Host.Cell → Nat → Byte → List Host.Cell
  | [], a, b => consCell a b []
  | (k, c) :: m, a, b =>
    if a = k then consCell a b m
    else if a < k then consCell a b ((k, c) :: m)
    else (k, c) :: memWrite1 m a b

/-- `n` bytes of memory from address `a`. -/
def memRead (m : List Host.Cell) (a : Nat) : Nat → List Byte
  | 0 => []
  | n + 1 => memRead1 m a :: memRead m (a + 1) n

/-- Memory with bytes written from address `a` upwards. -/
def memWrite (m : List Host.Cell) (a : Nat) : List Byte → List Host.Cell
  | [] => m
  | b :: bs => memWrite (memWrite1 m a b) (a + 1) bs

/-- Memory with every byte of a range the empty byte. -/
def memClear (m : List Host.Cell) (a n : Nat) : List Host.Cell := m.filter fun c => !decide (a ≤ c.1 ∧ c.1 < a + n)

/-- Canonical form: addresses strictly rising from `lo`, no entry equal to the empty byte. -/
def memWfFrom : Nat → List Host.Cell → Bool
  | _, [] => true
  | lo, (k, b) :: m => decide (lo ≤ k) && decide (b ≠ emptyByte) && memWfFrom (k + 1) m

/-- Memory in canonical form. -/
def memWf (m : List Host.Cell) : Bool := memWfFrom 0 m

end Sys2Proof.Machine
end

