-- ==== Sys2Proof/Machine/StCore.lean ====
section
/-!
DEFINITION. Sys2Proof/Machine/StCore.lean: the Culm core and attention partials.
-/
namespace Sys2Proof.Machine

/-! ## The Culm core (chapters 10 to 12) -/

/-- One cell of a slot: A20 in `a`, the full-width register in `w` (R406). -/
structure Cell where
  /-- A. [20; 11_accumulation R406; 0] -/
  a : BitVec 20
  /-- W. [32; 11_accumulation R406; 0] -/
  w : BitVec 32
  deriving DecidableEq, Repr

/-- A tile: one accumulator slot over its 256 cells, with Table 11-1. -/
structure Tile where
  /-- FMT is integer. [1; 11_accumulation Table 11-1; DC floating (log 3)] -/
  int : Bool
  /-- KC. [6; 11_accumulation Table 11-1; DC 8 (log 3)] -/
  kc : Nat
  /-- N. [5; 11_accumulation Table 11-1; DC 0 (log 3)] -/
  n : Nat
  /-- SHAPE. [3; 11_accumulation Table 11-1; DC 0 (log 3)] -/
  shape : Nat
  /-- SAT. [1; 11_accumulation Table 11-1, R443; 0] -/
  sat : Bool
  /-- NAN. [1; 11_accumulation Table 11-1, R443; 0] -/
  nan : Bool
  /-- LIVE. [1; 11_accumulation Table 11-1, R443; 0] -/
  live : Bool
  /-- The 256 cells, in index order; a short list reads zero beyond its end. [256; 11_accumulation R406; DC 0 (log 3)] -/
  cells : List Cell
  deriving DecidableEq, Repr

/-- A register write that has issued and not landed (R456). -/
inductive RegDst where
  | g (r : Nat) | v (r : Nat) | lc (l : Nat) | ls (l : Nat) | le (l : Nat) | prog | tsp
  deriving DecidableEq, Repr

/-- A pending register write: destination, value and the cycle from which it is readable (R456). -/
structure PendReg where
  /-- Destination. [-; 12_culm_core R456; -] -/
  dst : RegDst
  /-- Value, 512 bits wide. [512; 12_culm_core R456; -] -/
  val : BitVec 512
  /-- First cycle at which a bundle reads it. [64; 12_culm_core R456; -] -/
  due : Nat
  deriving DecidableEq, Repr

/-- A store whose bytes a load sees two cycles later (R456). -/
structure PendStore where
  /-- Crib offset. [25; 12_culm_core R456; -] -/
  addr : Nat
  /-- Bytes. [-; 12_culm_core R456; -] -/
  bytes : List Byte
  /-- First cycle at which a load sees it. [64; 12_culm_core R456; -] -/
  due : Nat
  deriving DecidableEq, Repr

/-- An outstanding transfer (R464, R465). -/
structure Xfer where
  /-- Source device address. [56; 12_culm_core R464; -] -/
  src : Nat
  /-- Destination device address. [56; 12_culm_core R464; -] -/
  dst : Nat
  /-- Bytes. [20; 12_culm_core R464; -] -/
  len : Nat
  deriving DecidableEq, Repr

/-- What a core is doing. -/
inductive CoreMode where
  | idle | kernel | attn | draining | locked
  deriving DecidableEq, Repr

/-- Why the core is draining (R457, R465): what it does once pending writes and transfers are gone. -/
inductive DrainFor where
  | none
  /-- `at_` is the trapping bundle (Table 12-19), which for a TRAP is not EPC (R480). -/
  | exception (code kind slot imm badAddr epc at_ : Nat) (bd ms li : Bool)
  | endKernel
  | faultKernel
  | yield
  deriving DecidableEq, Repr

/-- The launch a core is running for (R480 to R484). -/
structure Launch where
  /-- Command it belongs to. [-; 12_culm_core R480; -] -/
  cmd : Nat
  /-- KERNEL_ID. [16; 12_culm_core Table 12-20; -] -/
  kernel : Nat
  /-- Rank. [8; 12_culm_core R483; -] -/
  rank : Nat
  /-- Cores launched. [8; 12_culm_core R483; -] -/
  total : Nat
  /-- Crib offset of its launch area. [25; 12_culm_core R481; -] -/
  area : Nat
  /-- Cycle budget. [42; 12_culm_core R478; -] -/
  budget : Nat
  /-- ARG0 to ARG2. [3 x 64; 12_culm_core Table 12-20; -] -/
  args : List (BitVec 64)
  deriving DecidableEq, Repr

/-- One attention work item: the run of blocks one core takes for one pair (R391). -/
structure WorkItem where
  /-- Command. [-; 10_attention R391; -] -/
  cmd : Nat
  /-- Entry. [12; 10_attention R390; -] -/
  entry : Nat
  /-- KV head. [12; 10_attention R390; -] -/
  head : Nat
  /-- Blocks of the run, in position order. [-; 10_attention R390; -] -/
  blocks : List Nat
  deriving DecidableEq, Repr

/-- What may wait for a core, in arrival order (R391). -/
inductive CoreWork where
  | item (w : WorkItem)
  | launch (l : Launch)
  deriving DecidableEq, Repr

/-- A partial of one query row (R386): empty, or m, l and o. -/
structure Partial where
  /-- The run held no block. [1; 10_attention R386; -] -/
  empty : Bool
  /-- m. [32; 10_attention R386; -] -/
  m : BitVec 32
  /-- l. [32; 10_attention R386; -] -/
  l : BitVec 32
  /-- o, HEAD_DIM elements. [32 each; 10_attention R386; -] -/
  o : List (BitVec 32)
  deriving DecidableEq, Repr

/-- A context saved by YIELD (R475, R476). -/
structure SavedCtx where
  /-- What was interrupted. [-; 12_culm_core R475; -] -/
  work : CoreWork
  /-- The 20,480-byte image is in memory at this device address. [56; 12_culm_core R476; -] -/
  at_ : Nat
  /-- The command that preempted it, which the save and the restore are charged to. [-; 12_culm_core R475; -] -/
  by_ : Nat
  /-- That command's class. [5; 16_qos R614; -] -/
  cls : Nat
  /-- Partials of an attention item in progress. [-; 10_attention R386; -] -/
  parts : List Partial
  deriving DecidableEq, Repr

/-- One Culm core (Table 12-1, Tables 12-10 to 12-12). -/
structure Core where
  /-- What it is doing. [3; 12_culm_core 12.12; idle] -/
  mode : CoreMode
  /-- g0 to g63. [64 x 64; 12_culm_core R444; DC 0 (log 3)] -/
  g : Vector (BitVec 64) 64
  /-- v0 to v31. [32 x 512; 12_culm_core R444; DC 0 (log 3)] -/
  v : Vector (BitVec 512) 32
  /-- lc0 to lc2. [3 x 64; 12_culm_core R444; DC 0 (log 3)] -/
  lc : Vector (BitVec 64) 3
  /-- ls0 to ls2. [3 x 32; 12_culm_core R444; DC 0 (log 3)] -/
  ls : Vector (BitVec 32) 3
  /-- le0 to le2. [3 x 32; 12_culm_core R444; DC 0 (log 3)] -/
  le : Vector (BitVec 32) 3
  /-- PC. [32; 12_culm_core R444; DC 0 (log 3)] -/
  pc : Nat
  /-- MODE in force. [64; 12_culm_core Table 12-10; KC 8, DBUF 0, YMASK 0] -/
  modeReg : BitVec 64
  /-- A MODE write in its shadow: the value, and bundles of shadow left. [64; 12_culm_core R463; none] -/
  modePend : Option (BitVec 64 × Nat)
  /-- EPC. [32; 12_culm_core R461; DC 0 (log 3)] -/
  epc : BitVec 32
  /-- TSP. [56; 12_culm_core R461; DC 0 (log 3)] -/
  tsp : BitVec 56
  /-- PROG. [32; 12_culm_core R461; 0] -/
  prog : BitVec 32
  /-- CAUSE. [64; 12_culm_core Table 12-12; 0] -/
  cause : BitVec 64
  /-- STAT.BD. [1; 12_culm_core Table 12-11; 0] -/
  bd : Bool
  /-- STAT.MS. [1; 12_culm_core Table 12-11; 0] -/
  ms : Bool
  /-- STAT.LI. [1; 12_culm_core Table 12-11; 0] -/
  li : Bool
  /-- STAT.NEST. [4; 12_culm_core Table 12-11; 0] -/
  nest : BitVec 4
  /-- STAT.BANK. [1; 12_culm_core Table 12-11, R443; 0] -/
  bank : Bool
  /-- Accumulator slots 0 to 7. [8 x 256 cells; 11_accumulation R406; DC 0 (log 3)] -/
  tiles : Vector Tile 8
  /-- Register writes that have not landed. [-; 12_culm_core R456; empty] -/
  pend : List PendReg
  /-- Stores that loads do not see yet. [-; 12_culm_core R456; empty] -/
  stores : List PendStore
  /-- Transfers outstanding, oldest first (STAT.XOUT is its length). [8; 12_culm_core R465; empty] -/
  xfers : List Xfer
  /-- Branch taken and waiting for its delay bundle: branch bundle and next PC. [-; 12_culm_core R458; none] -/
  branch : Option (Nat × Nat)
  /-- Cycles since launch, preemption excluded. [64; 12_culm_core R450; DC 0 (log 3)] -/
  cycles : Nat
  /-- Cycles a YIELD has been pending under YMASK. [17; 12_culm_core R478; 0] -/
  ymaskCycles : Nat
  /-- A long instruction is in progress at PC. [1; 12_culm_core R466; false] -/
  long : Bool
  /-- g[A], g[B] and g[D] of that long instruction, as they stood before its bundle issued. [3 x 64; 12_culm_core R448; DC 0 (log 3)] -/
  lsrc : Vector (BitVec 64) 3
  /-- Its descriptor, as it was read then. [-; 12_culm_core R448, R466; empty] -/
  ldesc : List Byte
  /-- Cycle at which the array has taken the last step of every ACC.MAC issued. [64; 11_accumulation R419, 12_culm_core R455; 0] -/
  arrFree : Nat
  /-- Cycle at which the last ACC.MAC into each slot has taken its last step. [8 x 64; 11_accumulation R419; 0] -/
  slotFree : Vector Nat 8
  /-- Cycle at which the last read, write, save or restore of each slot has finished. [8 x 64; 11_accumulation R419; 0] -/
  slotBusy : Vector Nat 8
  /-- An ABORT waits for the next boundary: its cause. [8; 12_culm_core R477; none] -/
  abort : Option Nat
  /-- What the drain is for. [-; 12_culm_core R457, R465; none] -/
  drain : DrainFor
  /-- The launch it runs. [-; 12_culm_core R480; none] -/
  launch : Option Launch
  /-- The attention item it runs. [-; 10_attention R391; none] -/
  item : Option WorkItem
  /-- Partials of the item in progress, one for each query row. [-; 10_attention R386; empty] -/
  parts : List Partial
  /-- Work waiting for this core, in admission order. [-; 10_attention R391; empty] -/
  queue : List CoreWork
  /-- A preempted kernel or item. [-; 12_culm_core R475; none] -/
  saved : Option SavedCtx
  /-- Beat and tick at which LOCKED_TRAP was entered. [-; 12_culm_core R479; none] -/
  lockedAt : Option Nat
  deriving DecidableEq, Repr

/-- The partials one core has finished for one pair (R393). -/
structure CorePartial where
  /-- Command. [-; 10_attention R393; -] -/
  cmd : Nat
  /-- Entry. [12; 10_attention R393; -] -/
  entry : Nat
  /-- Head. [12; 10_attention R393; -] -/
  head : Nat
  /-- Slice. [5; 10_attention R393; -] -/
  slice : Nat
  /-- Core within the slice; 8 once folded to the slice partial. [4; 10_attention R393; -] -/
  core : Nat
  /-- Q partials. [-; 10_attention R393; -] -/
  parts : List Partial
  deriving DecidableEq, Repr

/-- A merge packet on the ring (R394). -/
structure MergePkt where
  /-- Command. [-; 10_attention R394; -] -/
  cmd : Nat
  /-- Entry. [12; 10_attention R394; -] -/
  entry : Nat
  /-- Head. [12; 10_attention R394; -] -/
  head : Nat
  /-- Slice it has reached next. [5; 10_attention R394; -] -/
  next : Nat
  /-- Running Q partials. [-; 10_attention R394; -] -/
  parts : List Partial
  deriving DecidableEq, Repr

end Sys2Proof.Machine
end

