-- ==== Sys2Proof/Machine/StFlail.lean ====
section
/-!
DEFINITION. Sys2Proof/Machine/StFlail.lean: Flail, husk chain, ring packets.
-/
namespace Sys2Proof.Machine

/-! ## Flail, husk chain and ring packets (chapters 6, 7, 10) -/

/-- A chunk sorted by one slice: command, chunk number, and (row, position) keys in order (R264). -/
structure SortedChunk where
  /-- Command. [-; 07_scatter_updates R263; -] -/
  uid : Nat
  /-- Chunk number. [-; 07_scatter_updates R263; -] -/
  chunk : Nat
  /-- Keys in ascending order: row, position within the chunk. [64 each; 07_scatter_updates R264; -] -/
  keys : List (Nat × Nat)
  deriving DecidableEq, Repr

/-- An old record held until the husk acknowledges it (R286). -/
structure HoldRec where
  /-- CHAIN_SEQ. [48; 07_scatter_updates R281; -] -/
  seq : BitVec 48
  /-- Command. [-; 07_scatter_updates R286; -] -/
  uid : Nat
  /-- Chunk of the command. [-; 07_scatter_updates R291; -] -/
  chunk : Nat
  /-- Table. [12; 07_scatter_updates R283; -] -/
  table : Nat
  /-- Row. [40; 07_scatter_updates R283; -] -/
  row : Nat
  /-- The old record, or the old whole row of a far-home row. [-; 07_scatter_updates R286; -] -/
  old : List Byte
  deriving DecidableEq, Repr

/-- One slice's Flail. -/
structure Flail where
  /-- The chunk sorted and waiting. [512 KiB; 07_scatter_updates R286; none] -/
  sorted : Option SortedChunk
  /-- The chunk being applied. [512 KiB; 07_scatter_updates R286; none] -/
  cur : Option SortedChunk
  /-- Results of row reductions received for it: row, two FP32 values. [-; 07_scatter_updates R277; empty] -/
  reduced : List (Nat × BitVec 32 × BitVec 32)
  /-- Row ranges received for it, when RESCALE is set: row, minimum, maximum. [-; 07_scatter_updates R278; empty] -/
  ranges : List (Nat × BitVec 32 × BitVec 32)
  /-- Distinct rows of the current chunk applied so far. [-; 07_scatter_updates R270; 0] -/
  applied : Nat
  /-- The hold area, newest first. [1 MiB; 07_scatter_updates R286; empty] -/
  holds : List HoldRec
  /-- Update chunks this slice has finished applying: command and chunk. [-; 07_scatter_updates R270; empty] -/
  finished : List (Nat × Nat)
  deriving DecidableEq, Repr

/-- A row-reduction packet on the ring (R277): a sum, or a minimum and a maximum, per row. -/
structure RedPkt where
  /-- Command. [-; 07_scatter_updates R277; -] -/
  uid : Nat
  /-- Chunk. [-; 07_scatter_updates R277; -] -/
  chunk : Nat
  /-- It carries a range (minimum, maximum); otherwise a sum. [1; 07_scatter_updates R277; -] -/
  range : Bool
  /-- Values by row, up to 64 rows. [64; 07_scatter_updates R277; -] -/
  vals : List (Nat × BitVec 32 × BitVec 32)
  /-- The slice it reaches next. [5; 07_scatter_updates R277; -] -/
  next : Nat
  /-- Every live data slice has combined its value: it now carries the result. [1; 07_scatter_updates R277; -] -/
  total : Bool
  /-- Slices that have received the result. [17; 07_scatter_updates R277; -] -/
  got : List Nat
  deriving DecidableEq, Repr

/-- A husk chain packet on the ring (R283). -/
structure ChainPkt where
  /-- Command (the model's own: the packet itself does not name it). [-; 07_scatter_updates R283; -] -/
  uid : Nat
  /-- Chunk (the model's own). [-; 07_scatter_updates R283; -] -/
  chunk : Nat
  /-- CHAIN_SEQ. [48; 07_scatter_updates R283; -] -/
  seq : BitVec 48
  /-- TABLE_ID. [12; 07_scatter_updates R283; -] -/
  table : Nat
  /-- Row. [40; 07_scatter_updates R283; -] -/
  row : Nat
  /-- The combined delta, none for a far-home row. [SEG_STRIDE bytes; 07_scatter_updates R283; -] -/
  payload : Option (List Byte)
  /-- The XOR of the sixteen new records of a far-home row with a copy on the stacks, from its bridge. [SEG_STRIDE bytes; 08_row_migration R324; none] -/
  parity : Option (List Byte)
  /-- The slice it reaches next. [5; 07_scatter_updates R283; -] -/
  next : Nat
  /-- Its place in the order of arrival on the ring (the model's own). [Nat; 06_gather_and_pooling R246; -] -/
  arr : Nat
  deriving DecidableEq, Repr

/-- An acknowledgement on the ring (R285). -/
structure AckPkt where
  /-- Highest CHAIN_SEQ folded. [48; 07_scatter_updates R285; -] -/
  seq : BitVec 48
  /-- The slice it reaches next. [5; 07_scatter_updates R285; -] -/
  next : Nat
  deriving DecidableEq, Repr

/-- A reconstruction packet on the ring (R244). -/
structure ReconPkt where
  /-- Command it serves. [-; 06_gather_and_pooling R244; -] -/
  uid : Nat
  /-- Chunk of the command, for an update (the model's own). [-; 07_scatter_updates R289; 0] -/
  chunk : Nat
  /-- Table. [12; 06_gather_and_pooling R244; -] -/
  table : Nat
  /-- Row. [40; 06_gather_and_pooling R244; -] -/
  row : Nat
  /-- The XOR so far. [32 x a bytes; 06_gather_and_pooling R244; -] -/
  payload : List Byte
  /-- The slice it reaches next. [5; 06_gather_and_pooling R244; -] -/
  next : Nat
  /-- Its place in the order of arrival on the ring (the model's own). [Nat; 06_gather_and_pooling R246; -] -/
  arr : Nat
  deriving DecidableEq, Repr

/-- A slice's new record of a row that has a copy in a far tier, at the bridge that owns the copy. -/
structure RowPart where
  /-- Command. [-; 07_scatter_updates R280; -] -/
  uid : Nat
  /-- Chunk. [-; 07_scatter_updates R280; -] -/
  chunk : Nat
  /-- Table. [12; 07_scatter_updates R280; -] -/
  table : Nat
  /-- Row. [40; 07_scatter_updates R280; -] -/
  row : Nat
  /-- Position of the slice. [4; 07_scatter_updates R280; -] -/
  pos : Nat
  /-- Its new record. [SEG_STRIDE bytes; 07_scatter_updates R280; -] -/
  rec_ : List Byte
  deriving DecidableEq, Repr

/-- The husk chain and the ring's packets. -/
structure Ring where
  /-- CHAIN_SEQ of the next applied row. [48; 07_scatter_updates R281; DC 1 (log 3)] -/
  nextSeq : BitVec 48
  /-- Highest CHAIN_SEQ S16 has folded. [48; 07_scatter_updates R285, R290; DC 0 (log 3)] -/
  folded : BitVec 48
  /-- Highest CHAIN_SEQ acknowledged by S16. [48; 07_scatter_updates R285; DC 0 (log 3)] -/
  acked : BitVec 48
  /-- Each data slice's own deltas waiting for their packet: slice, CHAIN_SEQ, delta. [-; 07_scatter_updates R283; empty] -/
  deltas : List (Nat × BitVec 48 × List Byte)
  /-- CHAIN_SEQ given to a row being applied: command, chunk, row. [-; 07_scatter_updates R281; empty] -/
  given : List (Nat × Nat × Nat × BitVec 48)
  /-- Far-home rows held by their bridges. [-; 07_scatter_updates R286; empty] -/
  farHolds : List HoldRec
  /-- Rows of far tiers being assembled by their bridge. [-; 07_scatter_updates R280; empty] -/
  farParts : List RowPart
  /-- Chain packets in flight. [-; 07_scatter_updates R283; empty] -/
  chain : List ChainPkt
  /-- Acknowledgements in flight. [-; 07_scatter_updates R285; empty] -/
  acks : List AckPkt
  /-- Row-reduction packets in flight. [-; 07_scatter_updates R277; empty] -/
  reds : List RedPkt
  /-- Reconstruction packets in flight. [-; 06_gather_and_pooling R244; empty] -/
  recons : List ReconPkt
  /-- Segments rebuilt at S16 for commands in flight, newest first: command, chunk (0 for a lookup), table, row, record. [-;
  06_gather_and_pooling R244, 07_scatter_updates R289; empty] -/
  rebuilt : List (Nat × Nat × Nat × Nat × List Byte)
  /-- Arrivals of chain and reconstruction packets at slices so far (the model's own). [Nat; 06_gather_and_pooling R246; 0] -/
  arrivals : Nat
  /-- Attention merge packets in flight. [-; 10_attention R394; empty] -/
  merges : List MergePkt
  deriving DecidableEq, Repr

end Sys2Proof.Machine
end

