-- ==== Sys2Proof/Machine/StRecovery.lean ====
section
/-!
DEFINITION. Sys2Proof/Machine/StRecovery.lean: recovery, counters, sampling.
-/
namespace Sys2Proof.Machine

/-! ## Errors, recovery, counters, sampling (chapters 20 and 21) -/

/-- Kinds of part (Table 20-8). -/
inductive PartKind where
  | slice | bridge | dimm | expander
  deriving DecidableEq, Repr

/-- A recovery in progress (R760 to R764). -/
structure Recovery where
  /-- Its recovery epoch. [32; 20_errors_and_recovery R760; -] -/
  epoch : Nat
  /-- PART_KIND. [8; 20_errors_and_recovery Table 20-12; -] -/
  kind : PartKind
  /-- PART_NUM. [8; 20_errors_and_recovery Table 20-12; -] -/
  num : Nat
  /-- CAUSE. [8; 20_errors_and_recovery Table 20-7; -] -/
  cause : Nat
  /-- LOSS_POS. [64; 20_errors_and_recovery Table 20-12; -] -/
  lossPos : Nat
  /-- CUT_POS, once the cut has come. [64; 20_errors_and_recovery Table 20-12; none] -/
  cutPos : Option Nat
  /-- Generation in force at the loss tick. [32; 20_errors_and_recovery Table 20-12; -] -/
  gen : Nat
  /-- Commands of the pre-loss set not yet posted or discarded, by uid. [-; 20_errors_and_recovery R760; -] -/
  preLoss : List Nat
  /-- Embedding tables marked LOST. [-; 20_errors_and_recovery R778; -] -/
  tables : List Nat
  /-- KV tables marked LOST. [-; 20_errors_and_recovery R778; -] -/
  kvs : List Nat
  /-- NEVICT. [32; 20_errors_and_recovery Table 20-12; 0] -/
  nevict : Nat
  /-- KV slots that this loss evicted: table and slot. [-; 20_errors_and_recovery R369; empty] -/
  evicted : List (Nat × Nat)
  /-- Their notices, held until the cut: owner and bytes. [-; 20_errors_and_recovery Table 20-8; empty] -/
  notices : List (Nat × List Byte)
  /-- The rollback section, if any. [-; 07_scatter_updates R292; -] -/
  rollback : List Byte
  /-- Commands that the rollback section names, by uid. [-; 20_errors_and_recovery R779; -] -/
  rolled : List Nat
  /-- Commands that this loss ended, by uid. [-; 20_errors_and_recovery R779; -] -/
  ended : List Nat
  /-- Abort entries so far, by uid, 32 bytes each. [-; 20_errors_and_recovery Table 20-13; empty] -/
  aborts : List (Nat × List Byte)
  deriving DecidableEq, Repr

/-- CTL_RECOV and what stands behind it (Table 20-9). -/
structure Rec where
  /-- CTL_RECOV.EPOCH. [32; 20_errors_and_recovery Table 20-9; 0] -/
  epoch : BitVec 32
  /-- CTL_RECOV.HOLD. [1; 20_errors_and_recovery Table 20-9; 0] -/
  hold : Bool
  /-- CTL_RECOV.STANDIN and STANDIN_FOR. [1 + 4; 20_errors_and_recovery Table 20-9; none] -/
  standin : Option Nat
  /-- CTL_RECOV.HUSK_LOST. [1; 20_errors_and_recovery Table 20-9; 0] -/
  huskLost : Bool
  /-- CTL_RECOV.DONE. [1; 20_errors_and_recovery Table 20-9; 1] -/
  done : Bool
  /-- Recoveries not yet done, oldest first. [-; 20_errors_and_recovery R789; empty] -/
  active : List Recovery
  /-- The eight most recent rebuild reports: recovery epoch and bytes, newest first. [8; 20_errors_and_recovery R780; empty] -/
  reports : List (Nat × List Byte)
  /-- Slices holding the two receipt mirrors of each function. [64 x 2; 20_errors_and_recovery R774; f mod 16 and (f + 8) mod 16] -/
  mirrors : Vector (List Nat) 64
  /-- Crash records of CTL_CRASH, by core number 8 s + c. [136 x 64 bytes; 23_register_reference R859; zeros] -/
  crash : List (Nat × List Byte)
  deriving DecidableEq, Repr

/-- A counter bank: programmable counters and selects, then fixed counters (Table 21-1). -/
structure Bank where
  /-- Programmable counters. [48 each; 21_counters R796; 0] -/
  prog : List (BitVec 64)
  /-- Select registers. [64 each; 21_counters Table 21-3; 0] -/
  sel : List (BitVec 64)
  /-- Select registers written in the current dump interval. [-; 21_counters R807; false] -/
  changed : List Bool
  /-- Fixed counters in the order of Table 21-7. [48 each; 21_counters Table 21-1; 0] -/
  fixed : List (BitVec 64)
  deriving DecidableEq, Repr

/-- The counters as the dies latched them at a tick edge (R804, R811). -/
structure Latch where
  /-- Position of the edge. [64; 21_counters R804; -] -/
  pos : Nat
  /-- Slice banks. [17; 21_counters R804; -] -/
  slice : Vector Bank 17
  /-- Core banks. [136; 21_counters R804; -] -/
  core : Vector Bank 136
  /-- Bridge banks. [2; 21_counters R804; -] -/
  bridge : Vector Bank 2
  /-- Control bank. [1; 21_counters R804; -] -/
  control : Bank
  /-- Function banks. [64 x 8; 21_counters R804; -] -/
  funcs : Vector (Vector (BitVec 64) 8) 64
  /-- First of the draws that stand for what the model leaves open (the model's own). [-; log 20; -] -/
  draw : Nat
  deriving DecidableEq, Repr

/-- Counters, dumps and sampling. -/
structure Cnt where
  /-- Slice banks: 16 programmable, 6 fixed. [17; 21_counters Table 21-1; 0] -/
  slice : Vector Bank 17
  /-- Core banks: 4 programmable, CYCLES. [136; 21_counters Table 21-1; 0] -/
  core : Vector Bank 136
  /-- Bridge banks: 16 programmable, 16 + 4 + 34 fixed. [2; 21_counters Table 21-1; 0] -/
  bridge : Vector Bank 2
  /-- Control bank: 8 programmable. [1; 21_counters Table 21-1; 0] -/
  control : Bank
  /-- CTL_DUMP and the dump ring. [64; 21_counters R805; 0] -/
  dump : RingCtl
  /-- The four most recent dump records, newest first. [4 x 16384 bytes; 21_counters R805; empty] -/
  dumps : List (List Byte)
  /-- SEQ of the next dump. [64; 21_counters Table 21-6; 1] -/
  dumpSeq : Nat
  /-- LOST of the next record written. [32; 21_counters R806; 0] -/
  dumpLost : Nat
  /-- Position at which the interval opened. [64; 21_counters R804; 0] -/
  dumpOpen : Nat
  /-- Beats left in the interval. [12; 21_counters R804; 0] -/
  dumpLeft : Nat
  /-- HOLDOVER, STRETCH and SPLIT seen in the interval. [3; 03_beat_timebase R99; 0] -/
  dumpFlags : BitVec 16
  /-- The last latch. [-; 21_counters R804; none] -/
  latch : Option Latch
  /-- CTL_PIP.HEAD, EN, OVER, LOST and the pip ring. [64; 21_counters Table 21-10; 0] -/
  pip : RingCtl
  /-- CTL_PIP.RATE. [5; 21_counters Table 21-10; 0x0E] -/
  pipRate : Nat
  /-- CTL_PIP.SAMPLE. [1; 21_counters Table 21-10; 0] -/
  pipSample : Bool
  /-- CTL_PIP.SKIP, saturating. [12; 21_counters Table 21-10; 0] -/
  pipSkip : Nat
  /-- PIPSEQ of the last tagged command. [48; 21_counters Table 21-11; 0] -/
  pipSeq : Nat
  /-- Ignored-write counters by die number and block. [32 each; 23_register_reference R853; 0] -/
  ignored : List (Nat × BitVec 32)
  deriving DecidableEq, Repr

end Sys2Proof.Machine
end

