-- ==== Sys2Proof/Machine/ResetParts.lean ====
section
/-!
DEFINITION. Sys2Proof/Machine/ResetParts.lean: each part of the machine at entry into BOOT. Values that no rule
gives are DESIGN CHOICE or PRESUMED (log 3).
-/
namespace Sys2Proof.Machine

/-- Control-die block 0x00 at entry into BOOT (R856: STATE 0x1, CAUSE 0x01). -/
def resetSys : Sys :=
  { state := .boot, cause := 0x01, entered := 0, stepping := 0, haltCause := 0, bootSrc := 0, aCode := 0, bCode := 0,
    replay := 0, versionLo := 0, aChecked := false, bChecked := false, ownerDigest := none, bootCount := 1,
    prior := .run, lossSeen := false, replayDone := false, powerFailing := false,
    bar2 := 30, tripped := false }

/-- A module with both its lanes and spares intact. -/
def goodModule : LinkModule := { up := true, repaired := 0 }

/-- Every furrow link and management-ring segment up. -/
def resetLinks : Links :=
  { slice := Vector.replicate 34 (Vector.replicate 2 goodModule), ring := Vector.replicate 17 goodModule,
    detour := Vector.replicate 17 .none, mgmt := Vector.replicate 20 true }

/-- Decode-error registers at reset (Tables 2-10 and 2-11). -/
def resetDerr : Derr := { valid := false, overrun := false, kind := 0, agent := 0, count := 0, tick := 0, da := 0 }

/-- 1/16 ns in one beat of 50.000 Hz (R117). -/
def beat50Hz : Nat := 320000000

/-- The tracker at the start of BOOT (R85, R86, Table 3-3). -/
def resetTb : Tb :=
  { trk := .holdover, neverLocked := true, held := true, holdEv := false, stretchEv := false, splitEv := false, stray := 0,
    period := 0, tick := 0, beat := 0, phase := 0, length := beat50Hz, start := 0, target := beat50Hz,
    nominal := beat50Hz, prevEdge := none, run := [], edgeSeen := false, edgeEarly := false, holdBeats := 0, firstEdgeDue := true,
    part := 0, slipped := false, lockEdges := 0, inEdges := [],
    slip := none, splitDue := false, stretch := (0, 0), nextEpochE := none, epochE := 0,
    history := [{ beat := 0, start := 0 }], anchor := none }

/-- The default parameters of Table 8-3. -/
def defaultMigration : Migration :=
  { sample := 64, cls := 15, autoLift := true, autoMove := false, liftMin := 4096, evictHits := 256,
    liftPerBeat := 65536, promoteMin := 4194304, demoteMax := 65536, promoteBeats := 50, demoteBeats := 500,
    moveRate := 16, pools := Vector.replicate 3 (0, 0) }

/-- Stolon with nothing lifted. -/
def resetStolon : Stolon :=
  { lift := [], candidates := [], sampleCtr := 0, newLeader := false, evictions := [], liftsDue := [], batch := none,
    move := none, stalled := none, decided := none, windowBytes := 0, skips := 0 }

/-- A budget with no guarantee and no ceiling. -/
def freeBudget : Budget := { g := 0, c := none }

/-- A class that no function may name. -/
def noClass : ClassEnt :=
  { base := .scavenger, mask := 0, da := 0, size := 0, budget := Vector.replicate 5 freeBudget }

/-- Classes before an image: class 15 and range class 15 are NORMAL (log 3). -/
def resetClasses : Vector ClassEnt 32 :=
  ((Vector.replicate 32 noClass).set 15 { noClass with base := .normal, mask := BitVec.allOnes 64 }).set 31
    { noClass with base := .normal }

/-- Usage of a class at the opening of a window. -/
def noUse : ClassUse :=
  { used := Vector.replicate 5 0, n := 0, peak := 0, area := 0, low := Vector.replicate 5 .guaranteed, drops := 0,
    relabel := 0 }

/-- The regulator before its first window (Tables 16-8 and 16-9). -/
def resetQos : Qos :=
  { winTick := 0xFFFF, winBeat := 0xFFFFFFFFFFFF, fact := Vector.replicate 5 0x400,
    recs := List.replicate 32 (List.replicate 32 0), usage := Vector.replicate 32 noUse,
    closing := Vector.replicate 32 noUse, hold := true, closingHold := false, openPos := 0,
    aged := Vector.replicate 2 0, shortfall := Vector.replicate 5 0, weights := Vector.replicate 16 0 }

/-- One slice die before its stack is trained (Tables 8-2 and 17-4). -/
def resetSlice : Slice :=
  { offline := false, temp := 0, ref2x := false, hotEv := false, spareData := Vector.replicate 16 4,
    spareCa := Vector.replicate 16 1, trained := false, repaired := [], ce := 0, ue := 0, ueBeat := Vector.replicate 16 0, ueMissed := Vector.replicate 16 0,
    liftSkipEv := false, entries := 0, closedBeat := 0xFFFFFFFF, ch := Vector.replicate 16 0,
    chNow := Vector.replicate 16 0, chLatch := Vector.replicate 16 0, scrub := 0 }

/-- A DIMM or expander before training (Table 17-7). -/
def resetFar : FarPart := { present := false, lost := false, ce := 0, ue := 0, ueBeat := 0, ueMissed := 0, scrub := 0 }

/-- The ledger at the start of BOOT (Table 18-2, R679). -/
def resetLedger : Ledger :=
  { live := false, gapEv := false, rangeEv := false, gaps := 0, powerMw := 0, energy := 0, gain := 0,
    lastSample := (0, 0), msAcc := (0, 0, 0, 0), sinceGood := 0, meterPj := 0, fracPj := 0, epochGaps := 0,
    peakMw := 0, isOpen := false, epoch := 0, floor := 0, openPos := 0, openClk := 0, beatsLeft := 0, flags := 0, carryIn := 0,
    house := 0, receipts := [], resets := 0, cut := none, cfg := none, closed := [], retained := [], prevDigest := none,
    broken := false, collected := 0 }

/-- The LEDGER section before an image (log 3). -/
def resetLedgerCfg : LedgerCfg :=
  { policy := .house, housePpm := 0, reconPpm := 0, initGain := 0, domains := [] }

/-- A domain switched off. -/
def offDomain : Domain := { on := false, clamped := false, bad := false, rem := 0, onTime := 0, since := 0 }

/-- Power management at the start of BOOT (Table 19-9); the boot ROM drives the control die's domains only (R116):
they are the last six, 326 to 331 (log 3). -/
def resetPmc : Pmc :=
  { sag := false, sagEv := false, run := none, seqFailEv := false, seqId := 0, entry := 0, fPwr := 0x400, vin := 0,
    due := [], waitGood := none,
    domains := Vector.ofFn fun i : Fin 332 => { offDomain with on := decide (326 ≤ i.val) },
    clock := Vector.replicate 20 1024, issue := Vector.replicate 20 1024, cap := Vector.replicate 20 1024,
    hotSteps := Vector.replicate 20 0, lowPower := true, limitMs := 0, meanDue := false, lastStep := 2 ^ 64 - 1,
    entryEnd := 0, sagClk := 0, step := 0, failed := false, failClk := 0, temps := Vector.replicate 20 0, held := none }

/-- A ring that is not registered. -/
def resetRing : RingCtl :=
  { head := 0, en := false, overrun := false, lost := 0, addr := 0, entries := 0, vector := 0, tail := 0, phase := true }

/-- Window registers of a function at reset (Tables 15-6 to 15-9). -/
def resetWin : WinRegs :=
  { base := 0, cen := false, carve := 0, carved := 0, maddr := 0, rbase := 0, rlen := 0, rctl := 0, rbusy := false,
    rdone := false, merr := false, locked := 0 }

/-- PCI state of a function that no image enables. -/
def resetPci : PciCfg :=
  { en := false, vectors := 0, mse := false, vfEnable := false, numVfs := 0, pasidEn := false, atsEn := false,
    msixEn := false, funcMask := false, d3hot := false, disabled := false, mps := 0, mrrs := 2, roEn := true, idoEn := false,
    tag10 := false, ctoRange := 0, ctoOff := false, errRep := 0, aerStat := 0, aerMask := 0, aerSev := 0x00462030, acs := 0,
    bars := Vector.replicate 3 0, vfBars := Vector.replicate 2 0 }

/-- A port whose link is down; its bus number and the registers of a peer function are as at reset. -/
def resetPort : Port :=
  { up := false, rate := 0, width := 0, flit := false, bus := 0, peer := { resetPci with en := true } }

/-- The configuration before an image: generation 0 with nothing declared. -/
def resetCfg : Cfg :=
  { gen := 0, tables := [], kvs := [], classes := resetClasses, ledger := resetLedgerCfg,
    migration := defaultMigration, kernels := [] }

/-- Generations with no change in progress. -/
def resetConfig : ConfigState :=
  { cur := resetCfg, old := none, base := resetCfg, changes := [], rollback := none, flipNow := false }

/-- An erased journal region. -/
def resetRegion : Region := { number := 0, recs := [], erasing := false, failed := false }

/-- The journal writer with both regions erased. -/
def resetJournal : Journal :=
  { regions := Vector.replicate 2 resetRegion, active := 0, nextSeq := 1, writing := none, cont := none, waiting := [],
    compaction := .none, backlog := false, ring := [], coalesce := [], overflow := none, evseq := 0, evt := resetRing,
    evtHeld := [] }

/-- No carve declared. -/
def resetCarve : Carve :=
  { liftBytes := 0, kvPoolBytes := 0, stripeBase := 0, stripeSize := 0, poolBytes := 0, quotas := [], cribParts := [],
    stackRanges := [], dimmGb := 0, cxlGb := [], farRanges := [] }

/-- Before an image is accepted (R117: the nominal beat is 50.000 Hz). -/
def resetImage : ImageCfg :=
  { version := 0, digest := [], ownerKey := [], beatNom := 50000, epochBeats := 50, dumpBeats := 10, dimms := 0,
    cxl := 0, funcs := [], queues := [], carve := resetCarve, seqs := [], curves := [], special := [], reqs := [],
    zones := [] }

/-- The magic of a flash descriptor (R121). -/
def descriptorMagic : BitVec 64 := 0x4C474E4546313744

/-- An erased flash device whose descriptor and device area are in place. -/
def resetFlash : Flash :=
  { magic := descriptorMagic, slot := [], readable := true, cert := Config.deviceCert, metadata := Config.componentMetadata }

/-- The management endpoint at reset. -/
def resetMgmt : Mgmt :=
  { staging := none, parts := [], lastPart := 0, verified := false, eid := 0, oem := Vector.replicate 2 none,
    oemBusy := Vector.replicate 2 false, changeQueue := [], left := [] }

/-- A cell holding zero. -/
def zeroCell : Cell := { a := 0, w := 0 }

/-- A slot after a core reset (R443: SAT, NAN and LIVE clear). -/
def resetTile : Tile :=
  { int := false, kc := 8, n := 0, shape := 0, sat := false, nan := false, live := false, cells := [] }

/-- A core at the start of BOOT (Tables 12-10 to 12-12, R443). -/
def resetCore : Core :=
  { mode := .idle, g := Vector.replicate 64 0, v := Vector.replicate 32 0, lc := Vector.replicate 3 0,
    ls := Vector.replicate 3 0, le := Vector.replicate 3 0, pc := 0, modeReg := 8, modePend := none, epc := 0,
    tsp := 0, prog := 0, cause := 0, bd := false, ms := false, li := false, nest := 0, bank := false,
    tiles := Vector.replicate 8 resetTile, pend := [], stores := [], xfers := [], branch := none, cycles := 0,
    ymaskCycles := 0, long := false, lsrc := Vector.replicate 3 0, ldesc := [], arrFree := 0,
    slotFree := Vector.replicate 8 0, slotBusy := Vector.replicate 8 0, abort := none, drain := .none, launch := none, item := none, parts := [], queue := [], saved := none, lockedAt := none }

/-- A Flail with nothing to do. -/
def resetFlail : Flail :=
  { sorted := none, cur := none, reduced := [], ranges := [], applied := 0, holds := [], finished := [] }

/-- The ring with nothing in flight. -/
def resetHuskRing : Ring :=
  { nextSeq := 1, folded := 0, acked := 0, deltas := [], given := [], farHolds := [], farParts := [], chain := [],
    acks := [], reds := [], recons := [], rebuilt := [], arrivals := 0, merges := [] }

/-- A mailbox at reset (Tables 22-1 to 22-3). -/
def resetMbx : Mailbox :=
  { op := 0, len := 0, xaddr := 0, xlen := 0, st := .idle, status := 0, doneEv := false, opseq := 0, outLen := 0,
    data := List.replicate 3072 0, result := none, want := none, input := [], bulk := [] }

/-- A function at reset; its receipts start at 1 (R686) and CTL_CNT_PERM.OWN is 1 (Table 21-5). -/
def resetFunc : Func :=
  { pci := resetPci, derr := resetDerr, kvn := resetRing, held := [], pasid := 0, win := resetWin, mcode := 0,
    pfen := false, pfdepth := 0, mbx := resetMbx, msix := [], pba := [], seq := 1, cnt := Vector.replicate 8 0,
    cntPerm := 1, resetting := false, invals := [] }

/-- A queue pair at reset (Tables 14-3 to 14-6). -/
def resetQueue : Queue :=
  { func := none, reserve := 0, maxf := 0, tail := 0, head := 0, sqb := 0, cqb := 0, sqs := 0, cqs := 0, vec := 0,
    en := false, ien := false, iall := false, sqh := 0, cqt := 0, cph := true, err := false, errcode := 0,
    inflight := 0, stopped := false, cqDead := false, fetched := [], groupFails := 0, rmark := false }

/-- A bridge at reset. -/
def resetBridge : Bridge :=
  { offline := false, lines := [], victims := [], side := [], filling := none, waiting := [], watches := [],
    ranges := [], lastQ := 255, fetches := 0, admits := 0 }

/-- An empty buffer pool. -/
def resetPool : Pool := { bufs := [], gens := [] }

/-- Recovery registers at reset (Table 20-9); the mirrors of R774. -/
def resetRec : Rec :=
  { epoch := 0, hold := false, standin := none, huskLost := false, done := true, active := [], reports := [],
    mirrors := Vector.ofFn fun f : Fin 64 => [f.val % 16, (f.val + 8) % 16], crash := [] }

/-- A counter bank of `p` programmable and `k` fixed counters. -/
def resetBank (p k : Nat) : Bank :=
  { prog := List.replicate p 0, sel := List.replicate p 0, changed := List.replicate p false,
    fixed := List.replicate k 0 }

/-- Counters and sampling at reset (Tables 21-1, 21-10). -/
def resetCnt : Cnt :=
  { slice := Vector.replicate 17 (resetBank 16 6), core := Vector.replicate 136 (resetBank 4 1),
    bridge := Vector.replicate 2 (resetBank 16 54), control := resetBank 8 0, dump := resetRing, dumps := [],
    dumpSeq := 1, dumpLost := 0, dumpOpen := 0, dumpLeft := 0, dumpFlags := 0, latch := none, pip := resetRing, pipRate := 0x0E,
    pipSample := false, pipSkip := 0, pipSeq := 0, ignored := [] }

end Sys2Proof.Machine
end

