-- ==== Sys2Proof/Machine/State.lean ====
section
/-!
DEFINITION. Sys2Proof/Machine/State.lean: the whole machine.
-/
namespace Sys2Proof.Machine

/-! ## What leaves the device, and the whole machine -/

/-- What a request on a host port carries beside its address (R240, R499, R500, R503, R570). -/
structure Attr where
  /-- Requester ID: the routing ID of the function. [16; 13_host_ports R503; -] -/
  rid : Nat
  /-- PASID prefix. [20; 13_host_ports R500; -] -/
  pasid : Option Nat
  /-- Relaxed Ordering. [1; 15_data_movement R570; -] -/
  ro : Bool
  deriving DecidableEq, Repr

/-- What the device sends: the transcript of its outputs (log 8). -/
inductive Out where
  /-- A memory write to the host for function `func` (R63). -/
  | hostWrite (func addr : Nat) (bytes : List Byte) (attr : Attr)
  /-- An MSI-X message of a function's vector (R511). -/
  | msix (func vec : Nat) (attr : Attr)
  /-- A memory read or a translation request to the host. -/
  | hostRead (r : HostRead) (attr : Attr)
  /-- An error message of a function, fatal or not (R502). -/
  | errorMessage (func : Nat) (fatal : Bool) (attr : Attr)
  /-- Completion data of a host or peer read. -/
  | readData (bytes : List Byte)
  /-- A completion with Unsupported Request. -/
  | unsupported
  /-- An ATS Invalidation Completion for a function. -/
  | invalidation (func : Nat)
  /-- A response to an out-of-band request on an endpoint. -/
  | bmc (endpoint : Nat) (bytes : List Byte)
  deriving DecidableEq, Repr

/-- The whole machine. -/
structure State where
  /-- Commands waiting, first in first out (the model's own). -/
  pending : List Instr
  /-- Device state and boot. -/
  sys : Sys
  /-- The beat timebase. -/
  tb : Tb
  /-- Furrow links and the management ring. -/
  links : Links
  /-- Ports 0 to 7 of Table 13-1. -/
  ports : Vector Port 8
  /-- Control-die clock at which every HOST port was down, for R517. [Nat; 13_host_ports R517; none] -/
  orphanSince : Option Nat
  /-- Flash devices A and B. -/
  flash : Vector Flash 2
  /-- The accepted image. [-; 04_image_and_startup R135; none] -/
  image : ImageCfg
  /-- An image is in force. [1; 04_image_and_startup R122; false] -/
  imageOk : Bool
  /-- Generations and changes. -/
  cfg : ConfigState
  /-- The journal and events. -/
  jr : Journal
  /-- Management. -/
  mg : Mgmt
  /-- Functions 0 to 63. -/
  funcs : Vector Func 64
  /-- Queue pairs 0 to 255. -/
  qs : Vector Queue 256
  /-- Bridges B0 and B1. -/
  brg : Vector Bridge 2
  /-- Commands in flight, in admission order. -/
  cmds : List Cmd
  /-- uid of the next command (the model's own). -/
  nextUid : Nat
  /-- Slices S0 to S16. -/
  slices : Vector Slice 17
  /-- The Flails of S0 to S16. -/
  flails : Vector Flail 17
  /-- The husk chain and the ring. -/
  ring : Ring
  /-- RDIMMs 0 to 15. -/
  dimms : Vector FarPart 16
  /-- Expanders on ports B0.2, B0.3, B1.2, B1.3. -/
  cxl : Vector FarPart 4
  /-- Stolon. -/
  stolon : Stolon
  /-- KV tables in use. -/
  kv : List KvTable
  /-- Attention partials not yet folded. -/
  partials : List CorePartial
  /-- Culm cores, core c of slice s at 8 s + c. -/
  cores : Vector Core 136
  /-- The buffer pool. -/
  pool : Pool
  /-- QoS. -/
  qos : Qos
  /-- Metering and the ledger. -/
  led : Ledger
  /-- Power management. -/
  pmc : Pmc
  /-- Recovery. -/
  recov : Rec
  /-- Counters and sampling. -/
  cnt : Cnt
  /-- Cribs, stacks, DDR and CXL memory by device address; a byte not listed reads 0 (log 4). [-; 02_package_and_address_map Table 2-6; DC 0 (log 4)] -/
  mem : List Host.Cell
  /-- Poisoned units by first device address. [-; 17_memory_tiers R649, R650; none] -/
  poison : List Nat
  /-- What the device has sent, newest first (the model's own). -/
  out : List Out
  /-- Free values drawn so far (the model's own). [Nat; log 7; DESIGN CHOICE 0] -/
  freeCtr : Nat
  deriving DecidableEq, Repr

/-- Why a step stops with a fault. No command of this block stops the machine: the spec gives every row an effect,
and a row whose own enabling condition does not hold leaves the state as it is (log 2). -/
inductive Fault where
  /-- Nobody raises it in this model: no rule of the spec stops the block without an effect. Safe. -/
  | stuck
  deriving DecidableEq, Repr

/-- Why a command is refused. -/
inductive Refusal where
  /-- Raised by Dispatch for a command that has no meaning yet, named by its mnemonic. Safe: nothing is claimed. -/
  | notModelled (mnemonic : String)
  deriving DecidableEq, Repr

/-- The machine at entry into BOOT (R85, R115 step 2): beat 0, every register at its reset value, flash erased but
for the descriptors (log 5), nothing in memory (log 4). -/
def State.reset : State :=
  { pending := [], sys := resetSys, tb := resetTb, links := resetLinks, ports := Vector.replicate 8 resetPort,
    orphanSince := none, flash := Vector.replicate 2 resetFlash, image := resetImage, imageOk := false,
    cfg := resetConfig, jr := resetJournal, mg := resetMgmt, funcs := Vector.replicate 64 resetFunc,
    qs := Vector.replicate 256 resetQueue, brg := Vector.replicate 2 resetBridge, cmds := [], nextUid := 0,
    slices := Vector.replicate 17 resetSlice, flails := Vector.replicate 17 resetFlail, ring := resetHuskRing,
    dimms := Vector.replicate 16 resetFar, cxl := Vector.replicate 4 resetFar, stolon := resetStolon, kv := [],
    partials := [], cores := Vector.replicate 136 resetCore, pool := resetPool, qos := resetQos, led := resetLedger,
    pmc := resetPmc, recov := resetRec, cnt := resetCnt, mem := [], poison := [], out := [], freeCtr := 0 }

end Sys2Proof.Machine
end

