-- ==== Sys2Proof/Machine/Ops.lean ====
section
/-!
DEFINITION. Sys2Proof/Machine/Ops.lean: the operations that every family shares: position and clock, updates of
numbered parts, messages to hosts, events, journal items and changes of device state.
-/
namespace Sys2Proof.Machine

/-! ### Position, clock, numbering -/

/-- Scheduled time as one number: beat in [63:16], tick in [15:0] (R85, Table 4-9). -/
def posOf (s : State) : Nat := s.tb.beat.toNat * 65536 + s.tb.tick.toNat

/-- 1/16 ns in a microsecond, a millisecond and a second. -/
def usec : Nat := 16000
/-- See `usec`. -/
def msec : Nat := 16000000
/-- See `usec`. -/
def second : Nat := 16000000000

/-- Control-die clock at the current tick, in 1/16 ns since the start of BOOT (R84: ticks of a beat are equal). -/
def clkOf (s : State) : Nat := s.tb.start + s.tb.tick.toNat * s.tb.length / 65536

/-- Die numbers of Table 2-1. -/
def dieB (b : Nat) : Nat := 0x11 + b
/-- The control die's number (Table 2-1). -/
def dieC : Nat := 0x13

/-- The bridge that serves a function: functions 0 to 31 lie on B0's ports, 32 to 63 on B1's (R503). -/
def bridgeOf (f : Nat) : Nat := f / 32

/-- The host-facing port index of a function: f = 16 p + v (R503). -/
def portOf (f : Nat) : Nat := f / 16

/-- Die and block of a function's register page (R506). -/
def pageDie (f : Nat) : Nat := dieB (bridgeOf f)
/-- See `pageDie`. -/
def pageBlock (f : Nat) : Nat := 0x40 + f % 32

/-- The draw of the next free value. -/
def freeAt (s : State) : BitVec 128 := Config.freeWord s.freeCtr

/-- One free value has been drawn. -/
def drew (s : State) : State := { s with freeCtr := s.freeCtr + 1 }

/-! ### Updates of numbered parts -/

/-- Function `f` changed by `g`. -/
def onFunc (f : Nat) (g : Func → Func) (s : State) : State := { s with funcs := vupd s.funcs f g }
/-- Queue pair `q` changed by `g`. -/
def onQ (q : Nat) (g : Queue → Queue) (s : State) : State := { s with qs := vupd s.qs q g }
/-- Bridge `b` changed by `g`. -/
def onBrg (b : Nat) (g : Bridge → Bridge) (s : State) : State := { s with brg := vupd s.brg b g }
/-- Slice `k` changed by `g`. -/
def onSlice (k : Nat) (g : Slice → Slice) (s : State) : State := { s with slices := vupd s.slices k g }
/-- The Flail of slice `k` changed by `g`. -/
def onFlail (k : Nat) (g : Flail → Flail) (s : State) : State := { s with flails := vupd s.flails k g }
/-- Core `k` changed by `g`. -/
def onCore (k : Nat) (g : Core → Core) (s : State) : State := { s with cores := vupd s.cores k g }

/-- The command in flight with identity `u`. -/
def cmdOf (s : State) (u : Nat) : Option Cmd := s.cmds.find? (·.uid == u)

/-- The command with identity `u` changed by `g`. -/
def onCmd (u : Nat) (g : Cmd → Cmd) (s : State) : State :=
  { s with cmds := s.cmds.map fun c => if c.uid == u then g c else c }

/-- The device is in RUN or DEGRADED. -/
def running (s : State) : Bool := s.sys.state == .run || s.sys.state == .degraded

/-- The device is in RUN, DEGRADED or ORPHAN_HOLD. -/
def inService (s : State) : Bool := running s || s.sys.state == .orphanHold

/-- A slice is live: not offline. -/
def sliceLive (s : State) (k : Nat) : Bool := !(vat s.slices k).offline

/-- The data slices that are live, in ascending order. -/
def liveData (s : State) : List Nat := (List.range 16).filter (sliceLive s)

/-- The data slices that are lost. -/
def lostData (s : State) : List Nat := (List.range 16).filter fun k => !sliceLive s k

/-- Host-facing port `p` is up. -/
def portUp (s : State) (p : Nat) : Bool := (vat s.ports p).up

/-! ### Programmable counters (chapter 21) -/

/-- A counter bank of Table 21-1. -/
inductive BankId where
  | slice (k : Nat)
  | core (k : Nat)
  | bridge (b : Nat)
  | control
  deriving DecidableEq, Repr

/-- The tag of an occurrence (R680, R681, R799). -/
inductive Tag where
  | none
  | house
  | cmd (func cls : Nat)
  deriving DecidableEq, Repr

/-- A select register counts occurrences of event `e` with this tag (Table 21-3, R799). -/
def selCounts (sel : BitVec 64) (e : Nat) (tag : Tag) : Bool :=
  let v := sel.toNat
  let fen := bit v 13
  let cen := bit v 20
  bit v 12 && bits v 0 12 == e && e != 0
    && if bit v 25 then tag == .house
       else match tag with
       | .cmd f c => (!fen || bits v 14 6 == f) && (!cen || bits v 21 4 == c)
       | _ => !fen && !cen

/-- A bank after `n` occurrences (R796, R800): 48-bit counters that wrap. -/
def bankTally (e n : Nat) (tag : Tag) (b : Bank) : Bank :=
  let up := fun (c sel : BitVec 64) =>
    if selCounts sel e tag then BitVec.ofNat 64 ((c.toNat + n) % 2 ^ 48) else c
  { b with prog := List.zipWith up b.prog b.sel }

/-- `n` occurrences of event `e` on a bank. -/
def tally (id : BankId) (e n : Nat) (tag : Tag) (s : State) : State :=
  let g := bankTally e n tag
  match id with
  | .slice k => { s with cnt := { s.cnt with slice := vupd s.cnt.slice k g } }
  | .core k => { s with cnt := { s.cnt with core := vupd s.cnt.core k g } }
  | .bridge b => { s with cnt := { s.cnt with bridge := vupd s.cnt.bridge b g } }
  | .control => { s with cnt := { s.cnt with control := g s.cnt.control } }

/-! ### Messages to hosts -/

/-- One more thing sent. -/
def emit (o : Out) (s : State) : State := { s with out := o :: s.out }

/-- The routing ID of a function: the PF's, whose bus number the port has captured, plus the VF number (R503, log 138). -/
def routingId (s : State) (f : Nat) : Nat := 256 * (vat s.ports (portOf f)).bus.toNat + f % 16

/-- The attributes of a request for function `f`, with Relaxed Ordering as given: its routing ID, and the PASID of a PF that
has it enabled (R499, R500, R503). -/
def attrOf (s : State) (f : Nat) (ro : Bool) : Attr :=
  let F := vat s.funcs f
  { rid := routingId s f, ro := ro,
    pasid := if f % 16 = 0 ∧ F.pci.pasidEn = true ∧ bit F.pasid.toNat 31 = true then some (bits F.pasid.toNat 0 20) else none }

/-- A function may issue requests: its port is up, and it is not in reset (R63, R514 step 1). -/
def mayIssue (s : State) (f : Nat) : Bool := portUp s (portOf f) && !(vat s.funcs f).resetting

/-- A memory write to the host of function `f`, with Relaxed Ordering as given (R63, R570). -/
def hostWriteRo (ro : Bool) (f addr : Nat) (bytes : List Byte) (s : State) : State :=
  if mayIssue s f then emit (.hostWrite f addr bytes (attrOf s f ro)) s else s

/-- A memory write to the host of function `f` with Relaxed Ordering clear (R63, R240, R546). -/
def hostWrite (f addr : Nat) (bytes : List Byte) (s : State) : State := hostWriteRo false f addr bytes s

/-- A memory read or a translation request goes out to the host. -/
def hostAsk (r : HostRead) (s : State) : State := emit (.hostRead r (attrOf s r.func false)) s

/-- An uncorrectable error of function `f` is logged in AER and, if it is not masked and its severity is reported, sent as a
message (R502, PRESUMED, log 138). -/
def aerError (f b : Nat) (s : State) : State :=
  let p := (vat s.funcs f).pci
  let fatal := bit p.aerSev.toNat b
  let s := onFunc f (fun F => { F with pci := { F.pci with aerStat := F.pci.aerStat ||| (1 <<< b) } }) s
  if !bit p.aerMask.toNat b && bit p.errRep.toNat (if fatal then 2 else 1) && portUp s (portOf f) then
    emit (.errorMessage f fatal (attrOf s f false)) s
  else s

/-- The MSI-X table entry of a vector: masked with zero address and data until written (R509). -/
def msixEntry (F : Func) (v : Nat) : MsixEntry :=
  (F.msix.find? (·.vec == v)).getD { vec := v, addr := 0, data := 0, ctl := 1 }

/-- Function `f` raises vector `v`: a message, or a pending bit under a mask (R510, R511). -/
def raiseMsix (f v : Nat) (s : State) : State :=
  let F := vat s.funcs f
  if !F.pci.msixEn || !(v < F.pci.vectors) then s
  else if F.pci.funcMask || bit (msixEntry F v).ctl.toNat 0 then
    onFunc f (fun F => { F with pba := if F.pba.contains v then F.pba else v :: F.pba }) s
  else if mayIssue s f then emit (.msix f v (attrOf s f false)) s else s

/-- A 16-bit count raised by one, saturating. -/
def sat16 (x : BitVec 16) : BitVec 16 := if x = 0xFFFF then x else x + 1

/-- A ring has room: the entry after the one written next is not the one at HEAD (R365, R754; log 9). -/
def ringRoom (r : RingCtl) : Bool :=
  r.en && decide ((r.tail + r.entries - r.head.toNat % r.entries) % r.entries + 1 < r.entries)

/-- The ring after one entry is written: the index wraps and PHASE inverts on each pass. -/
def ringStep (r : RingCtl) : RingCtl :=
  let t := r.tail + 1
  if t < r.entries then { r with tail := t } else { r with tail := 0, phase := !r.phase }

/-- One thing more that the ring could not take: LOST and OVER (R365, R754, R806, R818). -/
def ringLost (r : RingCtl) : RingCtl := { r with overrun := true, lost := sat16 r.lost }

/-! ### The journal writer -/

/-- Bytes of an item's body (Table 4-10). The encodings of configuration items are not laid down; their lengths are
those of the records they carry (log 11). -/
def bodyLen : JBody → Nat
  | .regionOpen _ _ => 16
  | .snapshotEnd _ => 8
  | .configChange c =>
    match c with
    | .tableRegister t => 128 + t.defaultRow.length
    | .kernelLoad k => 32 + k.code.length
    | .ledgerSet _ => 2688
    | _ => 128
  | .configSnap c _ =>
    128 * (c.tables.length + c.kvs.length) + (c.tables.map fun t => 4 * t.shards.length).sum + 64 * 32 + 2688 + 128
      + (c.kernels.map fun k => 32 + k.code.length).sum
  | .genCommit _ _ _ => 24
  | .genRollback _ _ _ _ => 128
  | .epoch b => b.length
  | .error b => b.length
  | .event es => 16 * es.length
  | .coalesce es => 8 + 24 * es.length
  | .anchor _ => 24
  | .state _ _ _ _ => 16
  | .imageBoot _ _ _ _ _ => 48
  | .collected _ => 8
  | .ledgerGap _ _ => 16

/-- Records an item takes: 2,000 bytes of body each (R140, R142). -/
def itemRecords (b : JBody) : Nat := max 1 (ceilDiv (bodyLen b) 2000)

/-- LENGTH of the `i`-th record of an item (Table 4-9). -/
def partLen (b : JBody) (i : Nat) : Nat := min 2000 (bodyLen b - 2000 * i)

/-- Flash bytes of the `i`-th record of an item (R140): header, padded body, CRC, reserved bytes and commit word, on 64. -/
def partBytes (b : JBody) (i : Nat) : Nat := alignUp (48 + alignUp (partLen b i) 8) 64

/-- A record's place in its item. -/
def partOfItem (r : JRec) : Nat := itemRecords r.body - 1 - r.left

/-- Flash bytes of a record. -/
def recBytes (r : JRec) : Nat := partBytes r.body (partOfItem r)

/-- Flash bytes of a whole item. -/
def itemBytes (b : JBody) : Nat := ((List.range (itemRecords b)).map (partBytes b)).sum

/-- TYPE of an item (Table 4-10); the configuration of a snapshot is a CONFIG_CHANGE with SNAP set (log 11). -/
def recordType : JBody → Nat
  | .regionOpen _ _ => 1
  | .snapshotEnd _ => 2
  | .configChange _ => 3
  | .configSnap _ _ => 3
  | .genCommit _ _ _ => 4
  | .genRollback _ _ _ _ => 5
  | .epoch _ => 6
  | .error _ => 7
  | .event _ => 8
  | .coalesce _ => 9
  | .anchor _ => 10
  | .state _ _ _ _ => 11
  | .imageBoot _ _ _ _ _ => 12
  | .collected _ => 13
  | .ledgerGap _ _ => 14

/-- The 16 bytes of an event-ring entry (R150). -/
def eventBytes (e : Event) : List Byte :=
  leBytes 2 e.type.toNat ++ leBytes 2 e.source.toNat ++ leBytes 4 e.arg.toNat ++ leBytes 8 e.pos

/-- One entry of a COALESCE body (R152). -/
def coalescedBytes (c : Coalesced) : List Byte :=
  leBytes 2 c.type.toNat ++ leBytes 2 c.source.toNat ++ leBytes 4 c.count ++ leBytes 8 c.first ++ leBytes 8 c.last

/-! ### Records that restate a registration (R174, R340) -/

/-- The code of a format (Table 4-6). -/
def fmtCode : Fmt → Nat
  | .fp32 => 0 | .bf16 => 1 | .fp16 => 2 | .e4m3 => 3 | .e5m2 => 4 | .int8 => 5 | .int4 => 6

/-- Codes of TIER (Table 5-5). -/
def tierCode : Tier → Nat
  | .stack => 0 | .ddr => 1 | .cxl => 2 | .none => 3
/-- Codes of OPT (Table 5-1). -/
def optCode : OptState → Nat
  | .none => 0 | .adagradRow => 1 | .adam => 2
/-- Codes of INVALID (Table 5-1). -/
def invalidCode : Invalid → Nat
  | .zero => 0 | .default => 1 | .fail => 2

/-- The record in force of a table (Table 5-1). -/
def tableBytes (t : TableDecl) : List Byte :=
  leBytes 2 t.id ++ leBytes 1 (fmtCode t.fmt) ++ leBytes 1 (optCode t.opt) ++ leBytes 2 t.dim
    ++ leBytes 1 (flag t.husk 0 + flag t.migrate 1) ++ leBytes 1 (invalidCode t.invalid) ++ leBytes 1 (b2n t.releaseOnLoss)
    ++ leBytes 1 t.owner ++ leBytes 1 (tierCode t.homeTier) ++ zeros 5 ++ leBytes 8 t.rows ++ leBytes 8 t.homeBase
    ++ leBytes 8 t.readMask.toNat ++ leBytes 8 t.writeMask.toNat ++ leBytes 2 t.segStride ++ zeros 2
    ++ leBytes 4 t.logicalStride ++ zeros 8 ++ fitTo t.userTag 16 ++ zeros 48

/-- The record in force of a KV table (Table 9-1). -/
def kvBytes (d : KvDecl) : List Byte :=
  leBytes 2 d.id ++ leBytes 1 (if d.int8 then 5 else 3)
    ++ leBytes 1 (match d.mode with | .tok16 => 0 | .pow2 => 1 | .contig => 2) ++ leBytes 1 d.pageLog2
    ++ leBytes 1 (b2n d.byPosition) ++ leBytes 1 d.placeLog2
    ++ leBytes 1 (match d.evict with | .preserve => 0 | .idle => 1 | .priority => 2 | .largest => 3)
    ++ leBytes 2 d.headDim ++ leBytes 2 d.nheads ++ leBytes 2 d.layers ++ leBytes 1 d.owner ++ leBytes 1 (b2n d.releaseOnLoss)
    ++ leBytes 4 d.maxSeqs ++ leBytes 4 d.maxTokens ++ leBytes 1 (b2n d.inStack) ++ zeros 7 ++ leBytes 8 d.storeBase
    ++ leBytes 8 d.storeSize ++ leBytes 8 d.readMask.toNat ++ leBytes 8 d.writeMask.toNat ++ leBytes 4 d.maxNodes
    ++ leBytes 4 d.headroom.toNat ++ fitTo d.userTag 16 ++ zeros 40

/-! ### Bodies and records -/

/-- The body of an item: as the spec lays it out, or free bytes of the length of log 11. -/
def bodyBytes (b : JBody) : List Byte :=
  match b with
  | .epoch l => l
  | .error l => l
  | .event es => (es.map eventBytes).flatten
  | .coalesce es => leBytes 2 es.length ++ zeros 6 ++ (es.map coalescedBytes).flatten
  | .configChange (.tableRegister t) => tableBytes t ++ t.defaultRow
  | .configChange (.kvRegister d) => kvBytes d
  | .state old new cause arg => [BitVec.ofNat 8 old, BitVec.ofNat 8 new, BitVec.ofNat 8 cause, 0] ++ leBytes 4 arg.toNat ++ zeros 8
  | _ => fitTo (Config.recordBody b) (bodyLen b)

/-- Header and padded body of a record: what its CRC covers (R140, Table 4-9). FLAGS [15:2] are zero (R11). -/
def recordText (r : JRec) : List Byte :=
  let i := partOfItem r
  let n := partLen r.body i
  leBytes 2 (recordType r.body) ++ leBytes 2 (flag r.snap 0 + flag (decide (0 < r.left)) 1) ++ leBytes 4 n ++ leBytes 8 r.seq
    ++ leBytes 8 r.pos ++ leBytes 4 r.gen ++ leBytes 4 r.region ++ fitTo (slice (bodyBytes r.body) (2000 * i) n) (alignUp n 8)

/-- The CRC-32C of a record (R140). -/
def recordCrc (r : JRec) : BitVec 32 := crc32c (recordText r)

/-- The commit word of a record: SEQ[31:0], and 0x4A52_4E4C above it (R141). -/
def commitWord (seq : Nat) : BitVec 64 := 0x4A524E4C#32 ++ BitVec.ofNat 32 seq

/-- A commit word that is not programmed: erased flash. -/
def erasedWord : BitVec 64 := BitVec.allOnes 64

/-- The bytes of a record in flash: after the CRC, 4 reserved bytes and the commit word, then erased flash up to the next
64-byte boundary (R11, R140, R141). -/
def recordBytes (r : JRec) : List Byte :=
  let b := recordText r ++ leBytes 4 r.crc.toNat ++ zeros 4 ++ leBytes 8 r.commit.toNat
  b ++ List.replicate (recBytes r - b.length) 0xFF

/-- A record's commit word is the one R141 gives (R144). -/
def JRec.committed (r : JRec) : Bool := r.commit == commitWord r.seq

/-- A record's CRC matches (R144). -/
def JRec.crcOk (r : JRec) : Bool := r.crc == recordCrc r

/-- A record as it stands once committed in the region of a number: header, body, CRC and commit word (R140, R141). -/
def sealRec (n : Nat) (r : JRec) : JRec :=
  { r with region := n, crc := recordCrc { r with region := n }, commit := commitWord r.seq }

/-- A record whose programming was not finished in the region of a number: no commit word (R141). -/
def tornRec (n : Nat) (r : JRec) : JRec := { r with region := n, commit := erasedWord }

/-- Bytes used in a region. -/
def regionUsed (r : Region) : Nat := (r.recs.map recBytes).sum

/-- Size of a region: 128 MiB (Table 4-2). -/
def regionSize : Nat := 134217728

/-- The writer works once the authoritative region is known, and while a region is sound (R149, R168). -/
def writerOn (s : State) : Bool := s.sys.replayDone && !((s.jr.regions[0]).failed && (s.jr.regions[1]).failed)

/-- The first item that waits and is of a kind, with the others (R154, R167). -/
def splitFirst (p : JBody → Bool) : List (JBody × Bool) → Option ((JBody × Bool) × List (JBody × Bool))
  | [] => none
  | x :: xs => if p x.1 then some (x, xs) else (splitFirst p xs).map fun r => (r.1, x :: r.2)

/-- An EPOCH item. -/
def isEpochItem : JBody → Bool
  | .epoch _ => true
  | _ => false

/-- Items that a change in progress waits for. -/
def isChangeItem : JBody → Bool
  | .configChange _ => true
  | .genCommit _ _ _ => true
  | .genRollback _ _ _ _ => true
  | _ => false

/-- The ERROR item of a failed flash program (R167, Table 20-5). -/
def isProgramError : JBody → Bool
  | .error b => numAt b 0 2 == 5
  | _ => false

/-- The records of an item begin: the first of them is being programmed, with consecutive SEQ values set aside. -/
def beginItem (b : JBody) (snap : Bool) (s : State) : State :=
  let n := itemRecords b
  let r : JRec := { body := b, snap := snap, left := n - 1, seq := s.jr.nextSeq, pos := posOf s, gen := s.cfg.cur.gen,
                    region := 0, crc := 0, commit := erasedWord }
  { s with jr := { s.jr with writing := some r, nextSeq := s.jr.nextSeq + n } }

/-- The next SNAP record of a compaction begins (R155). -/
def kickSnap (s : State) : State :=
  match s.jr.compaction with
  | .running (b :: bs) p =>
    if s.sys.powerFailing then s else beginItem b true { s with jr := { s.jr with compaction := .running bs p } }
  | _ => s

/-- The region that is not active. -/
def otherRegion (s : State) : Nat := 1 - s.jr.active.val

/-- A program of the active region has failed: nothing but the ERROR record of R167, EPOCH records and the snapshot is
written, in the other region once it is erased; the rest is held until the switch (R154, R167). A SNAP item begun there
goes on (R142). -/
def kickFailed (s : State) : State :=
  if (vat s.jr.regions (otherRegion s)).erasing then s
  else match splitFirst isProgramError s.jr.waiting with
  | some ((b, snap), rest) => beginItem b snap { s with jr := { s.jr with waiting := rest } }
  | none => match splitFirst isEpochItem s.jr.waiting with
    | some ((b, snap), rest) => beginItem b snap { s with jr := { s.jr with waiting := rest } }
    | none => match s.jr.cont with
      | some r => { s with jr := { s.jr with writing := some r, cont := none } }
      | none => kickSnap s

/-- The writer takes its next record when it is free: an EPOCH item first (R154), then a COALESCE record when the
coalesce table is not empty (R152), then the rest of an item begun (R142), then the items waiting in order, then the
snapshot of a compaction (R155), then events from the ring, up to 125 of them (R150). -/
def jKick (s : State) : State :=
  if s.jr.writing.isSome || !writerOn s then s
  else if (vat s.jr.regions s.jr.active.val).failed then kickFailed s
  else match splitFirst isEpochItem s.jr.waiting with
  | some ((b, snap), rest) => beginItem b snap { s with jr := { s.jr with waiting := rest } }
  | none =>
    if !s.jr.coalesce.isEmpty || s.jr.overflow.isSome then
      beginItem (.coalesce (s.jr.coalesce ++ s.jr.overflow.toList)) false
        { s with jr := { s.jr with coalesce := [], overflow := none } }
    else match s.jr.cont with
    | some r => { s with jr := { s.jr with writing := some r, cont := none } }
    | none =>
      match s.jr.waiting with
      | (b, snap) :: rest => beginItem b snap { s with jr := { s.jr with waiting := rest } }
      | [] =>
        match s.jr.compaction with
        | .running (_ :: _) _ => kickSnap s
        | _ =>
          if s.jr.ring.isEmpty then s
          else beginItem (.event (s.jr.ring.take 125)) false { s with jr := { s.jr with ring := s.jr.ring.drop 125 } }

/-- The records of the power-fail path: EPOCH records and the STATE record to COLD (R739). -/
def failItem : JBody → Bool
  | .epoch _ => true
  | .state _ 0 _ _ => true
  | _ => false

/-- The 4 MiB in which items are held once a program of the active region has failed take no more of this one (R167);
EPOCH records are not held, and the items of changes always find room (log 133). -/
def heldFull (b : JBody) (s : State) : Bool :=
  (vat s.jr.regions s.jr.active.val).failed && !isEpochItem b && !isChangeItem b
    && decide (4194304 < (s.jr.waiting.map fun x => itemBytes x.1).sum + itemBytes b)

/-- One more item for the journal; from the fail tick on only the power-fail path's (R739). -/
def jAdd (b : JBody) (s : State) : State :=
  if (s.sys.powerFailing && !failItem b) || heldFull b s then s
  else jKick { s with jr := { s.jr with waiting := s.jr.waiting ++ [(b, false)] } }

/-! ### Events -/

/-- An event that finds the ring full is counted in the coalesce table (R151). -/
def coalesceEvent (e : Event) (j : Journal) : Journal :=
  let bump (c : Coalesced) : Coalesced := { c with count := min 0xFFFFFFFF (c.count + 1), last := e.pos }
  if j.coalesce.any fun c => c.type == e.type && c.source == e.source then
    { j with coalesce := j.coalesce.map fun c => if c.type == e.type && c.source == e.source then bump c else c }
  else if j.coalesce.length < 64 then
    { j with coalesce := j.coalesce ++ [{ type := e.type, source := e.source, count := 1, first := e.pos, last := e.pos }] }
  else
    { j with overflow := some (match j.overflow with
        | some c => bump c
        | none => { type := 0xFFFF, source := 0xFFFF, count := 1, first := e.pos, last := e.pos }) }

/-- Delivery of an event to the steward's ring, or its count in LOST (R753, R754, Table 20-3); it waits while the steward is
in reset (R514 step 8). -/
def deliverEvent (seq : Nat) (e : Event) (s : State) : State :=
  let r := s.jr.evt
  if ringRoom r && portUp s 0 then
    if (vat s.funcs 0).resetting then { s with jr := { s.jr with evtHeld := s.jr.evtHeld ++ [(seq, e)] } }
    else
      let entry := leBytes 8 (seq % 2 ^ 48 + flag r.phase 48) ++ eventBytes e ++ zeros 8
      raiseMsix 0 0 (hostWrite 0 (r.addr.toNat + 32 * r.tail) entry { s with jr := { s.jr with evt := ringStep r } })
  else { s with jr := { s.jr with evt := ringLost r } }

/-- The events that waited for the end of the steward's reset are delivered, in arrival order (R514, R754). -/
def releaseEvents (s : State) : State :=
  s.jr.evtHeld.foldl (fun s e => deliverEvent e.1 e.2 s) { s with jr := { s.jr with evtHeld := [] } }

/-- SOURCE of an event: die in [15:8], block in [7:0] (R150). -/
def source (die block : Nat) : Nat := die * 256 + block

/-- An event is raised (R150, R151, R752, R754); none in HALT (R788), and none after the fail tick, when the rings are
lost (R739). -/
def raiseEvent (type src arg : Nat) (s : State) : State :=
  if s.sys.state == .halt || s.sys.powerFailing then s
  else
    let e : Event := { type := BitVec.ofNat 16 type, source := BitVec.ofNat 16 src, arg := BitVec.ofNat 32 arg,
                       pos := posOf s }
    if s.jr.ring.length < 512 then
      tally .control 0x400 1 .none <| jKick
        (deliverEvent (s.jr.evseq + 1) e { s with jr := { s.jr with ring := s.jr.ring ++ [e], evseq := s.jr.evseq + 1 } })
    else tally .control 0x401 1 .none { s with jr := coalesceEvent e s.jr }

/-- Event types of Table 20-2. -/
def evPartLost : Nat := 0x01
def evRecoveryDone : Nat := 0x02
def evStateChange : Nat := 0x03
def evErrorLogged : Nat := 0x04
def evCoalesced : Nat := 0x05
def evLinkRepair : Nat := 0x06
def evLinkDegraded : Nat := 0x07
def evRingDetour : Nat := 0x08
def evMgmtRing : Nat := 0x09
def evLaneRepair : Nat := 0x0A
def evDecodeError : Nat := 0x0B
def evQueueError : Nat := 0x0C
def evFuncReset : Nat := 0x0D
def evBufMisuse : Nat := 0x0E
def evClassMisuse : Nat := 0x0F
def evCoreLocked : Nat := 0x10
def evLinkTrainFail : Nat := 0x11
def evPeerLinkDown : Nat := 0x12
def evMoveStall : Nat := 0x13
def evImageFallback : Nat := 0x14
def evBeatLost : Nat := 0x15
def evMeterGap : Nat := 0x16
def evMeterFault : Nat := 0x17
def evRecon : Nat := 0x18
def evPowerLimit : Nat := 0x19
def evInputSag : Nat := 0x1A
def evShortfall : Nat := 0x1B
def evLedgerBacklog : Nat := 0x1C

/-! ### ERROR records and the device state -/

/-- What an ERROR record's header names beyond kind and class (Table 20-4). -/
structure ErrInfo where
  cause : Nat := 0
  die : Nat := 0x13
  unit : Nat := 0
  func : Nat := 0xFF
  queue : Nat := 0xFF
  tag : Nat := 0xFFFF
  addr : Nat := 0
  count : Nat := 0
  detail : List Byte := []
  deriving DecidableEq, Repr

/-- The 64-byte header of an ERROR record (Table 20-4) and what follows it. -/
def errorBytes (s : State) (kind cls : Nat) (e : ErrInfo) (rest : List Byte) : List Byte :=
  leBytes 2 kind ++ leBytes 1 cls ++ leBytes 1 e.cause ++ leBytes 1 e.die ++ leBytes 1 e.unit ++ zeros 2
    ++ leBytes 4 s.recov.epoch.toNat ++ leBytes 1 e.func ++ leBytes 1 e.queue ++ leBytes 2 e.tag
    ++ leBytes 8 e.addr ++ leBytes 4 e.count ++ zeros 4 ++ fitTo e.detail 32 ++ rest

/-- An ERROR record goes to the journal, with its ERROR_LOGGED event (R755, Table 20-2). -/
def logError (kind cls : Nat) (e : ErrInfo) (rest : List Byte) (s : State) : State :=
  raiseEvent evErrorLogged (source e.die 0) kind (jAdd (.error (errorBytes s kind cls e rest)) s)

/-- Codes of Table 1-4. -/
def stateCode : DevState → Nat
  | .cold => 0 | .boot => 1 | .image => 2 | .train => 3 | .replay => 4 | .run => 5 | .degraded => 6
  | .orphanHold => 7 | .halt => 8

/-- The device enters a state: CTL_STATE, a STATE record and a STATE_CHANGE event (R143, R758, R856). -/
def enterState (new : DevState) (cause : Nat) (arg : Nat) (s : State) : State :=
  let old := s.sys.state
  let s := { s with sys := { s.sys with state := new, cause := BitVec.ofNat 8 cause, entered := s.tb.beat } }
  let s := jAdd (.state (stateCode old) (stateCode new) cause (BitVec.ofNat 32 arg)) s
  raiseEvent evStateChange (source dieC 0) (stateCode old + 16 * stateCode new + 256 * cause) s

/-- A write that no field takes is counted in the counter of its block, wrapping at 32 bits (R14, R853). -/
def countIgnored (die block : Nat) (s : State) : State :=
  let k := source die block
  let old := (s.cnt.ignored.find? (·.1 == k)).map (·.2) |>.getD 0
  { s with cnt := { s.cnt with ignored := (k, old + 1) :: s.cnt.ignored.filter (·.1 != k) } }

end Sys2Proof.Machine
end

