-- ==== Sys2Proof/Machine/Layout.lean ====
section
/-!
DEFINITION. Sys2Proof/Machine/Layout.lean: how a table's rows are cut, placed and found (chapter 5), and the device
addresses of cribs, stacks and far tiers (Table 2-6).
-/
namespace Sys2Proof.Machine

/-! ### Device addresses -/

/-- First address of a region (section 2.7). -/
def regionBase (r : Nat) : Nat := r * 2 ^ 52
/-- Address of a crib byte of slice `k` (Table 2-6, region 0x1). -/
def cribDa (k off : Nat) : Nat := regionBase 1 + k * 2 ^ 25 + off
/-- Address of a stack byte of slice `k` (Table 2-6, region 0x2). -/
def stackDa (k off : Nat) : Nat := regionBase 2 + k * 2 ^ 36 + off
/-- End of the usable stack: 36,000,000,000 (Table 2-6). -/
def stackLimit : Nat := 36000000000
/-- End of the default-row extent on every stack (R204, Table 17-1). -/
def defaultTop : Nat := 0x861C40000
/-- Size of a crib (Table 2-3) and of its device-reserved part (R62). -/
def cribSize : Nat := 0x2000000
/-- See `cribSize`. -/
def cribReserved : Nat := 0x40000

/-- First-fit by ascending offset: the least multiple of `step` at which `n` bytes meet nothing in use and end by
`limit`. -/
def firstFit (used : List (Nat × Nat)) (step n limit : Nat) : Option Nat :=
  let cands := sortBy (fun a b => a < b) (0 :: used.map fun u => alignUp (u.1 + u.2) step)
  cands.find? fun o => decide (o + n ≤ limit) && used.all fun u => !rangesMeet o n u.1 u.2

/-- The pseudo-channel of a stack offset: the aligned half of its 256-byte block (R640). -/
def pseudoChannelOf (off : Nat) : Nat := off / 2 ^ 7 % 2

/-- The channel of a stack offset (R640). -/
def channelOf (off : Nat) : Nat := (off / 2 ^ 8 ^^^ off / 2 ^ 16 ^^^ off / 2 ^ 24) % 16

/-- The address under which memory keeps a byte: a striped address becomes its stack address (R60). -/
def canonDa (c : Carve) (da : Nat) : Nat :=
  if da / 2 ^ 52 = 3 then
    let o := da % 2 ^ 52
    stackDa (o / 4096 % 16) (c.stripeBase + o / 65536 * 4096 + o % 4096)
  else da

/-! ### Column split and segment records (section 5.3) -/

/-- Padded dimension D (R184). -/
def padDim (dim : Nat) : Nat := alignUp dim 16
/-- Segment length s (R184). -/
def segLen (dim : Nat) : Nat := padDim dim / 16
/-- Bytes of a segment's elements, B_d (R186). -/
def segDataBytes (f : Fmt) (dim : Nat) : Nat := ceilDiv (segLen dim * fmtWidth f) 8
/-- Bytes of a segment's optimizer state, B_t (R186). -/
def segStateBytes (o : OptState) (dim : Nat) : Nat :=
  match o with | .none => 0 | .adagradRow => 4 | .adam => 8 * segLen dim
/-- Offset A of the state columns (Table 5-4). -/
def stateOff (f : Fmt) (dim : Nat) : Nat := alignUp (fmtScale f + segDataBytes f dim) 4
/-- Raw size of a segment record (R186). -/
def segRaw (f : Fmt) (o : OptState) (dim : Nat) : Nat := stateOff f dim + segStateBytes o dim
/-- SEG_STRIDE (R186). -/
def segStrideOf (f : Fmt) (o : OptState) (dim : Nat) : Nat :=
  let raw := segRaw f o dim
  if raw ≤ 8 then 8 else if raw ≤ 16 then 16 else 32 * ceilDiv raw 32

/-- Offset of the state in a logical row (R188). -/
def logicalStateOff (f : Fmt) (dim : Nat) : Nat := alignUp (fmtScale f + ceilDiv (dim * fmtWidth f) 8) 4
/-- LOGICAL_STRIDE (R188). -/
def logicalStrideOf (f : Fmt) (o : OptState) (dim : Nat) : Nat :=
  alignUp (logicalStateOff f dim + match o with | .none => 0 | .adagradRow => 4 | .adam => 8 * dim) 8

/-- The codes of positions 0 to s − 1 of slice `k`, pad columns zero (R184, R185). -/
def segCodes (t : TableDecl) (k : Nat) (codeOf : Nat → Nat) : List Nat :=
  (List.range (segLen t.dim)).map fun p =>
    let c := k * segLen t.dim + p
    if c < t.dim then codeOf c else 0

/-- The segment record of slice `k` cut from a logical row (R184, R186, R206, R207). -/
def splitRow (t : TableDecl) (row : List Byte) (k : Nat) : List Byte :=
  let sc := fmtScale t.fmt
  let data := row.drop sc
  let elems := packCodes t.fmt (segCodes t k fun c => codeAt t.fmt data c)
  let head := slice row 0 sc ++ elems
  let body := head ++ zeros (stateOff t.fmt t.dim - head.length)
  let so := logicalStateOff t.fmt t.dim
  let state : List Byte :=
    match t.opt with
    | .none => []
    | .adagradRow => slice row so 4
    | .adam =>
      ((segCodes t k fun c => numAt row (so + 4 * c) 4).map (leBytes 4)).flatten
        ++ ((segCodes t k fun c => numAt row (so + 4 * t.dim + 4 * c) 4).map (leBytes 4)).flatten
  fitTo (body ++ state) t.segStride

/-- Row scale and row bias of a segment record. -/
def recScale (t : TableDecl) (rec_ : List Byte) : F32 × F32 :=
  (BitVec.ofNat 32 (numAt rec_ 0 4), if t.fmt == .int4 then BitVec.ofNat 32 (numAt rec_ 4 4) else 0)

/-- The elements of a segment record in FP32, position order (R179, R185: pad columns read as zero). -/
def recElems (t : TableDecl) (k : Nat) (rec_ : List Byte) : List F32 :=
  let (sc, b) := recScale t rec_
  let data := rec_.drop (fmtScale t.fmt)
  (List.range (segLen t.dim)).map fun p =>
    if k * segLen t.dim + p < t.dim then decodeElem t.fmt sc b (codeAt t.fmt data p) else 0

/-! ### Shards and addresses (section 5.6) -/

/-- Rows of one full shard. -/
def shardRowsMax : Nat := 1048576
/-- Number of shards of a table. -/
def shardCount (rows : Nat) : Nat := ceilDiv rows shardRowsMax
/-- Rows of shard `i`. -/
def shardRows (rows i : Nat) : Nat := min shardRowsMax (rows - i * shardRowsMax)
/-- Stride of a row in a tier: SEG_STRIDE, or FAR_STRIDE = 16 × SEG_STRIDE (R193). -/
def tierStride (tier : Tier) (segStride : Nat) : Nat := if tier == .stack then segStride else 16 * segStride
/-- Bytes of shard `i`'s extent (R194). -/
def shardExtent (t : TableDecl) (tier : Tier) (i : Nat) : Nat :=
  alignUp (shardRows t.rows i * tierStride tier t.segStride) 65536

/-- A shard not registered. -/
def noShard : Shard :=
  { tier := .none, moving := false, fresh := true, base := 0, parity := false, streak := (0, 0), load := [],
    closing := [], closed := [] }

/-- The shard map of a newly registered or replayed table: every shard FRESH at its home (R194, R195). A HUSK table's
zeroed shards start with parity complete, the XOR of zeros. -/
def freshShards (t : TableDecl) : List Shard :=
  (List.range (shardCount t.rows)).map fun i =>
    { noShard with tier := t.homeTier, parity := t.husk && t.homeTier == .stack,
                   base := if t.homeTier == .none then 0
                           else (t.homeBase + i * shardRowsMax * tierStride t.homeTier t.segStride) / 65536 }

/-- The shard-map entry of a row. -/
def shardOf (t : TableDecl) (row : Nat) : Shard := nth t.shards (row / shardRowsMax) noShard

/-- Device address of the segment record of slice `k` for a row of a shard (R193). -/
def segDa (t : TableDecl) (sh : Shard) (row k : Nat) : Nat :=
  let r := row % shardRowsMax
  match sh.tier with
  | .stack => stackDa k (sh.base * 65536 + r * t.segStride)
  | .ddr => regionBase 4 + sh.base * 65536 + r * 16 * t.segStride + k * t.segStride
  | .cxl => regionBase 5 + sh.base * 65536 + r * 16 * t.segStride + k * t.segStride
  | .none => 0

/-- A shard-map entry's 32 bits (Table 5-5). -/
def shardWord (sh : Shard) : Nat :=
  (match sh.tier with | .stack => 0 | .ddr => 1 | .cxl => 2 | .none => 3)
    + flag sh.moving 2 + flag sh.fresh 3 + put sh.base 4 28

/-- The table's stack extents as (offset, bytes), on every data slice. -/
def stackExtents (t : TableDecl) : List (Nat × Nat) :=
  ((List.range t.shards.length).zip t.shards).filterMap fun (i, sh) =>
    if sh.tier == .stack then some (sh.base * 65536, shardExtent t .stack i) else none

/-- The table's far extents as (device address, bytes). -/
def farExtents (t : TableDecl) : List (Nat × Nat) :=
  ((List.range t.shards.length).zip t.shards).filterMap fun (i, sh) =>
    match sh.tier with
    | .ddr => some (regionBase 4 + sh.base * 65536, shardExtent t .ddr i)
    | .cxl => some (regionBase 5 + sh.base * 65536, shardExtent t .cxl i)
    | _ => none

/-! ### The shard map in the cribs (R192) -/

/-- Most shard-map entries (R192). -/
def shardMapMax : Nat := 49152
/-- Crib offset of the shard map: the first bytes of the device-reserved part (DESIGN CHOICE, log 122). -/
def shardMapOff : Nat := cribSize - cribReserved

/-- The tables that have shard-map entries, in their order there: those of the generation in force, then those that only
the older live generation still has (R192, R210; the order: DESIGN CHOICE, log 122). -/
def mappedTables (s : State) : List TableDecl :=
  s.cfg.cur.tables ++ ((s.cfg.old.map (·.tables)).getD []).filter fun t => !s.cfg.cur.tables.any (·.id == t.id)

/-- The shard map, one entry for each shard (R192). -/
def shardMap (s : State) : List Shard := (mappedTables s).flatMap (·.shards)

/-- Address of the shard-map entry of a row in slice `k`'s crib. -/
def mapEntryDa (s : State) (t : TableDecl) (row k : Nat) : Nat :=
  let before := ((mappedTables s).takeWhile (·.id != t.id)).map (·.shards.length)
  cribDa k (shardMapOff + 4 * (before.sum + row / shardRowsMax))

/-! ### The default-row extent (R204) -/

/-- Bytes of the default-row extent (R204). -/
def defaultExtent (tables : List TableDecl) : Nat :=
  alignUp (((tables.filter fun t => t.invalid == .default).map (·.segStride)).sum) 65536

/-- A table's default-row record lies within the extent of `size` bytes. -/
def defaultIn (size : Nat) (t : TableDecl) : Bool :=
  decide (defaultTop - size ≤ t.defaultOff ∧ t.defaultOff + t.segStride ≤ defaultTop)

/-- Records that lie within the extent stay; the others take the first place free of them and of `used` (R204; the place:
DESIGN CHOICE, log 123). -/
def layDefaults (size : Nat) (used : List (Nat × Nat)) : List TableDecl → Option (List TableDecl)
  | [] => some []
  | t :: ts =>
    if t.invalid != .default || defaultIn size t then (layDefaults size used ts).map (t :: ·)
    else
      let lo := defaultTop - size
      let within := (used.filter fun u => decide (lo ≤ u.1)).map fun u => (u.1 - lo, u.2)
      match firstFit within (min t.segStride 32) t.segStride size with
      | none => none
      | some o => (layDefaults size ((lo + o, t.segStride) :: used) ts).map ({ t with defaultOff := lo + o } :: ·)

/-- The places of records packed one after the other, those of longer strides first: TABLE_ID and offset. -/
def packDefaults : Nat → List TableDecl → List (Nat × Nat)
  | _, [] => []
  | off, t :: ts => (t.id, off) :: packDefaults (off + t.segStride) ts

/-- (Offset, bytes) of the default-row records of a list of tables. -/
def defaultUse (tables : List TableDecl) : List (Nat × Nat) :=
  (tables.filter fun t => t.invalid == .default).map fun t => (t.defaultOff, t.segStride)

/-- The tables with their default-row records placed in the extent, clear of those in `held`, which older commands may still
read; where the holes between do not take them, all records are packed anew (R204, log 123). -/
def placeDefaults (held : List (Nat × Nat)) (tables : List TableDecl) : List TableDecl :=
  let size := defaultExtent tables
  let stay := tables.filter (defaultIn size)
  match layDefaults size (held ++ defaultUse stay) tables with
  | some ts => ts
  | none =>
    let order := sortBy (fun a b => b.segStride < a.segStride) (tables.filter fun t => t.invalid == .default)
    let places := packDefaults (defaultTop - size) order
    tables.map fun t => match places.find? (·.1 == t.id) with | some x => { t with defaultOff := x.2 } | none => t

/-! ### Positions -/

/-- Positions 0 to 15 that are served: live data slices, and the one S16 stands in for. -/
def positions (s : State) : List Nat := (List.range 16).filter fun p => sliceLive s p || s.recov.standin == some p

/-- The slice that serves a position. -/
def actor (s : State) (p : Nat) : Nat := if s.recov.standin == some p then 16 else p

/-- Positions 0 to 15 that no slice serves, after a loss that nothing stands in for. -/
def orphans (s : State) : List Nat := (List.range 16).filter fun p => !(positions s).contains p

/-- The slice that works for a position: its actor, or for an orphan the actor of the lowest served position; only far
rows have an orphan's part still to work on (R245, R295; log 34). -/
def server (s : State) (p : Nat) : Nat :=
  if (positions s).contains p then actor s p else actor s ((positions s).headD 16)

/-- The position that a slice serves. -/
def placeOf (s : State) (k : Nat) : Option Nat :=
  if k = 16 then (if sliceLive s 16 then s.recov.standin else none) else if sliceLive s k then some k else none

/-! ### Table identity and rights -/

/-- The table with an ID in a configuration (R173). -/
def tableOf (c : Cfg) (id : Nat) : Option TableDecl := c.tables.find? (·.id == id)

/-- Function `f` may read the table (R208). -/
def mayRead (t : TableDecl) (f : Nat) : Bool := f == 0 || f == t.owner || t.readMask.getLsbD f
/-- Function `f` may update and load the table (R208). -/
def mayWrite (t : TableDecl) (f : Nat) : Bool := f == 0 || f == t.owner || t.writeMask.getLsbD f

/-! ### The lift table (section 5.7) -/

/-- Number of buckets of the directory (R197). -/
def liftBuckets (c : Carve) : Nat := c.liftBytes / 512

/-- The bucket of a key (R197). -/
def liftBucket (c : Carve) (table row : Nat) : Nat :=
  let h := (table * 2 ^ 40 + row) * 0x9E3779B97F4A7C15 % 2 ^ 64
  h / 2 ^ (64 - Nat.log2 (liftBuckets c))

/-- The lift entry that holds a row, when the table may be lifted; a FROZEN one is a miss (R200 step 2, R312). -/
def liftHit (s : State) (t : TableDecl) (row : Nat) : Option LiftEntry :=
  if s.image.carve.liftBytes = 0 || !t.migrate then none
  else s.stolon.lift.find? fun e => e.table == t.id && e.row == row && !e.frozen

/-- Crib offset of a lifted segment record: the data area follows the first eighth (R197, Table 5-6). -/
def liftOff (c : Carve) (e : LiftEntry) : Nat := c.liftBytes / 8 + 8 * e.dataOff

/-- A lift-table entry's sixteen bytes (Table 5-6). -/
def liftWord (e : LiftEntry) : Nat :=
  1 + flag e.frozen 1 + put e.table 4 12 + put e.row 16 40 + put e.dataOff 64 22 + put e.hits 96 16

/-! ### Memory through device addresses -/

/-- Bytes of a crib that the device keeps under another name, and that only it writes: the directory of the lift table on a
data slice, and the shard map (R192, R197, Table 2-7 note (a); log 122). -/
def cribByte (s : State) (k off : Nat) : Option Byte :=
  if k < 16 ∧ off < s.image.carve.liftBytes / 8 then
    some (match s.stolon.lift.find? fun e => e.bucket == off / 64 && e.way == off % 64 / 16 with
      | some e => nth (leBytes 16 (liftWord e)) (off % 16) 0
      | none => 0)
  else if shardMapOff ≤ off ∧ off < shardMapOff + 4 * shardMapMax then
    some (match (shardMap s)[(off - shardMapOff) / 4]? with
      | some sh => nth (leBytes 4 (shardWord sh)) (off % 4) 0
      | none => 0)
  else none

/-- The byte at a device address. -/
def daByte (s : State) (da : Nat) : Byte :=
  let a := canonDa s.image.carve da
  let b := memRead1 s.mem a
  if a / 2 ^ 52 = 1 then (cribByte s (a % 2 ^ 52 / 2 ^ 25) (a % 2 ^ 25)).getD b else b

/-- `n` bytes from a device address, striped addresses included. -/
def daRead (s : State) (da : Nat) : Nat → List Byte
  | 0 => []
  | n + 1 => daByte s da :: daRead s (da + 1) n

/-- Bytes written from a device address upwards, striped addresses included. -/
def daPoke (s : State) (da : Nat) (bs : List Byte) : State :=
  match bs with
  | [] => s
  | b :: bs => daPoke { s with mem := memWrite1 s.mem (canonDa s.image.carve da) b } (da + 1) bs

/-- Size of the unit of poison at a canonical address: 32 bytes on the stack, 64 in the far tiers; cribs have none
(R649, R651). -/
def poisonUnit (da : Nat) : Nat :=
  if da / 2 ^ 52 = 2 then 32 else if da / 2 ^ 52 = 4 ∨ da / 2 ^ 52 = 5 then 64 else 0

/-- The poisoned unit that holds a byte, if any. -/
def poisonAt (s : State) (da : Nat) : Option Nat :=
  let a := canonDa s.image.carve da
  let u := poisonUnit a
  if u = 0 then none
  else if s.poison.contains (a / u * u) then some (a / u * u) else none

/-- Some byte of an access is poisoned (R650). -/
def poisoned (s : State) (da n : Nat) : Bool := (List.range n).any fun i => (poisonAt s (da + i)).isSome

/-- Poisoned units that an access touches, each once. -/
def poisonedUnits (s : State) (da n : Nat) : List Nat :=
  ((List.range n).filterMap fun i => poisonAt s (da + i)).dedup

/-- An access covers the whole of a unit. -/
def coversUnit (s : State) (da n u : Nat) : Bool :=
  (List.range (poisonUnit u)).all fun j =>
    (List.range n).any fun i => canonDa s.image.carve (da + i) == u + j

/-- One write: dropped whole when a unit it covers only in part is poisoned; else written, and the poison of the units
it covers cleared (R651). The Bool says whether it was written. -/
def daWrite (s : State) (da : Nat) (bs : List Byte) : Bool × State :=
  let us := poisonedUnits s da bs.length
  if us.all fun u => coversUnit s da bs.length u then
    (true, { daPoke s da bs with poison := s.poison.filter fun u => !us.contains u })
  else (false, s)

/-- A range of unstriped device memory is zeroed whole, poison included (R651). -/
def zeroRange (da n : Nat) (s : State) : State :=
  { s with mem := memClear s.mem da n, poison := s.poison.filter fun u => !decide (da ≤ u ∧ u < da + n) }

/-! ### Default-row records (R204, R212, R650) -/

/-- Address of a table's default-row record on slice `k`. -/
def defaultDa (t : TableDecl) (k : Nat) : Nat := stackDa k t.defaultOff

/-- One row's write: the poison of the units that it covers whole is cleared. Whether the row may be written at all is settled
for all its slices before the first of them writes (R651; `rowDropped`). -/
def rowWrite (s : State) (da : Nat) (bs : List Byte) : State :=
  let us := (poisonedUnits s da bs.length).filter (coversUnit s da bs.length)
  { daPoke s da bs with poison := s.poison.filter fun u => !us.contains u }

/-- A write of `n` bytes covers some poisoned unit only in part, and is dropped (R651). -/
def writeDropped (s : State) (da n : Nat) : Bool := (poisonedUnits s da n).any fun u => !coversUnit s da n u

/-- The record of position `p` is written on the slice that serves it, from the image or the journaled registration; an atom
that was poisoned is whole again (R204, R212, R650). -/
def storeDefault (t : TableDecl) (p : Nat) (s : State) : State :=
  let da := defaultDa t (actor s p)
  let us := poisonedUnits s da t.segStride
  { daPoke s da (splitRow t t.defaultRow p) with poison := s.poison.filter fun u => !us.contains u }

/-- Those records of a list of tables that `moved` names are written for the positions `ps`. -/
def storeDefaults (moved : TableDecl → Bool) (tables : List TableDecl) (ps : List Nat) (s : State) : State :=
  (tables.filter fun t => t.invalid == .default && moved t).foldl (fun s t => ps.foldl (fun s p => storeDefault t p s) s) s

/-- No table of the generation in force has its record where this one's stands (log 123). -/
def defaultStands (s : State) (t : TableDecl) : Bool :=
  s.cfg.cur.tables.all fun u => u.id == t.id || u.invalid != .default
    || !rangesMeet u.defaultOff u.segStride t.defaultOff t.segStride

/-- The default row's segment record for position `p`: the copy on the stack of the slice that serves it, or, when that copy
is poisoned or gone, what the device rebuilds from its source (R204, R650). -/
def defaultRecord (s : State) (t : TableDecl) (p : Nat) : List Byte :=
  let da := defaultDa t (actor s p)
  if (positions s).contains p && defaultStands s t && !poisoned s da t.segStride then daRead s da t.segStride
  else splitRow t t.defaultRow p

end Sys2Proof.Machine
end

