-- ==== Sys2Proof/Machine/AddrMap.lean ====
section
/-!
DEFINITION. Sys2Proof/Machine/AddrMap.lean: which agent may reach which device address, the checks of Table 2-8 in
their order, the far tiers' maps (R659, R666), and the capture of decode errors (R70 to R74).
-/
namespace Sys2Proof.Machine

/-! ### Who makes an access -/

/-- The agents of Table 2-7, with what their checks turn on. -/
inductive Who where
  | steward
  | tenant (f : Nat)
  | copy (f : Nat)
  | kernel (f slice : Nat)
  | peer
  deriving DecidableEq, Repr

/-- Agent code of a decode-error record (Table 2-9). -/
def agentCode : Who → Nat
  | .steward => 0 | .tenant _ => 1 | .copy _ => 2 | .kernel _ _ => 3 | .peer => 4

/-- The function charged with the agent's decode errors: for peers, the steward's (R70). -/
def chargedTo : Who → Nat
  | .steward => 0 | .tenant f => f | .copy f => f | .kernel f _ => f | .peer => 0

/-- Table 2-7: the agent has access of this kind to the region. -/
def regionAllows (w : Who) (write : Bool) (r : Nat) : Bool :=
  match w with
  | .steward => decide (r ≤ 5)
  | .tenant _ => r == 0 || r == 3 || r == 4 || r == 5
  | .copy _ => decide (1 ≤ r ∧ r ≤ 6)
  | .kernel _ _ => (r == 0 && !write) || r == 1 || r == 3 || r == 6
  | .peer => write && (r == 1 || r == 3)

/-! ### Dies and blocks -/

/-- Place of a die on the management ring, in the order C, B0, S0 to S16, B1 (section 2.3). -/
def mgmtPlace (die : Nat) : Nat :=
  if die = 0x13 then 0 else if die = 0x11 then 1 else if die = 0x12 then 19 else die + 2

/-- The die still reaches the control die over the management ring (R53). -/
def dieReached (s : State) (die : Nat) : Bool :=
  let p := mgmtPlace die
  (List.range p).all (vat s.links.mgmt ·) || (List.range (20 - p)).all fun i => vat s.links.mgmt (p + i)

/-- The die is offline: a lost slice or bridge. -/
def dieOffline (s : State) (die : Nat) : Bool :=
  if die ≤ 0x10 then (vat s.slices die).offline
  else if die = 0x11 then (vat s.brg 0).offline
  else if die = 0x12 then (vat s.brg 1).offline
  else false

/-- The blocks of Table 23-1. -/
def blockExists (die blk : Nat) : Bool :=
  if die ≤ 0x10 then decide (blk ≤ 3) || decide (0x10 ≤ blk ∧ blk ≤ 0x17) || blk == 0x3F
  else if die ≤ 0x12 then
    decide (blk ≤ 3) || blk == 0x3F || decide (0x40 ≤ blk ∧ blk ≤ 0x5F) || decide (0xC0 ≤ blk ∧ blk ≤ 0xFF)
  else die == 0x13 && (decide (blk ≤ 7) || blk == 0x3F)

/-- A register block that cannot be reached (R848). -/
def blockOffline (s : State) (die blk : Nat) : Bool :=
  !dieReached s die || (dieOffline s die && !(blk == 0x03 || blk == 0x3F))

/-! ### The far tiers -/

/-- Bytes used of each declared RDIMM, C_d (R658). -/
def dimmBytes (s : State) : Nat := s.image.carve.dimmGb * 10 ^ 9

/-- Declared sockets of a bridge, ascending. -/
def socketsOf (s : State) (b : Nat) : List Nat :=
  (List.range 8).filterMap fun i => if s.image.dimms.getLsbD (8 * b + i) then some (8 * b + i) else none

/-- Capacity of region 0x4 (R659). -/
def ddrBytes (s : State) : Nat := ((socketsOf s 0).length + (socketsOf s 1).length) * dimmBytes s

/-- End of B0's part of region 0x4, which no extent crosses (R659, R660). -/
def ddrSplit (s : State) : Nat := (socketsOf s 0).length * dimmBytes s

/-- The DIMM that holds an offset of region 0x4 (R659). -/
def dimmAt (s : State) (o : Nat) : Nat :=
  let b := if o < ddrSplit s then 0 else 1
  let o' := if o < ddrSplit s then o else o - ddrSplit s
  let ks := socketsOf s b
  nth ks (o' / 256 % ks.length) 0

/-- The DIMMs that a range of region 0x4 touches. -/
def dimmsOf (s : State) (o n : Nat) : List Nat :=
  let first := o / 256
  let count := min 16 ((o + n - 1) / 256 - first + 1)
  let low := (List.range count).map fun i => dimmAt s ((first + i) * 256)
  let high :=
    if first * 256 < ddrSplit s ∧ ddrSplit s < o + n then
      (List.range (min 8 (ceilDiv (o + n - ddrSplit s) 256))).map fun i => dimmAt s (ddrSplit s + i * 256)
    else []
  if n = 0 then [] else (low ++ high).dedup

/-- Bytes of expander `e`'s span (R666). -/
def cxlSpan (s : State) (e : Nat) : Nat := nth s.image.carve.cxlGb e 0 * 10 ^ 9

/-- Start of expander `e`'s span in region 0x5 (R666). -/
def cxlStart (s : State) (e : Nat) : Nat := ((List.range e).map (cxlSpan s)).sum

/-- Capacity of region 0x5 (R666). -/
def cxlBytes (s : State) : Nat := cxlStart s 4

/-- The expanders whose spans a range of region 0x5 touches. -/
def cxlOf (s : State) (o n : Nat) : List Nat :=
  (List.range 4).filter fun e => rangesMeet o n (cxlStart s e) (cxlSpan s e)

/-- The bridge that owns an address of a far tier (R656, R666). -/
def farBridge (s : State) (da : Nat) : Nat :=
  let o := da % 2 ^ 52
  if da / 2 ^ 52 = 4 then (if o < ddrSplit s then 0 else 1)
  else match cxlOf s o 1 with
  | e :: _ => e / 2
  | [] => 0

/-- The slices on which the 4 KiB stripes of a range of region 0x3 lie (R60). -/
def stripeSlices (o n : Nat) : List Nat :=
  if n = 0 then [] else ((List.range (min 16 ((o + n - 1) / 4096 - o / 4096 + 1))).map fun i => (o / 4096 + i) % 16)

/-- A far-tier range lies, in part, on a lost DIMM or expander, or behind a lost bridge. -/
def farOffline (s : State) (da n : Nat) : Bool :=
  let o := da % 2 ^ 52
  if da / 2 ^ 52 = 4 then
    (dimmsOf s o n).any fun d => (vat s.dimms d).lost || (vat s.brg (d / 8)).offline
  else (cxlOf s o n).any fun e => (vat s.cxl e).lost || (vat s.brg (e / 2)).offline

/-! ### Ownership (notes (d) to (i) of Table 2-7) -/

/-- The range `a, n` lies within the union of the given ranges. -/
def coveredBy (rs : List (Nat × Nat)) : Nat → Nat → Nat → Bool
  | _, _, 0 => true
  | 0, _, _ => false
  | fuel + 1, a, n =>
    match rs.find? fun r => decide (r.1 ≤ a ∧ a < r.1 + r.2) with
    | none => false
    | some r => coveredBy rs fuel (r.1 + r.2) (n - (r.1 + r.2 - a))

/-- Covered by the union of ranges. -/
def covered (rs : List (Nat × Nat)) (a n : Nat) : Bool := coveredBy rs (rs.length + 1) a n

/-- Buffers whose owner tag names `f`, and the region-0x3 landing zones of owner `f` (note (d), R579). -/
def buffersOf (s : State) (f : Nat) : List (Nat × Nat) :=
  (s.pool.bufs.filterMap fun b =>
      if b.func == f && b.freed.isNone then some (regionBase 3 + b.base * 65536, 65536 * 2 ^ b.k) else none)
    ++ s.image.zones.filterMap fun z =>
      if z.owner == f && z.da / 2 ^ 52 == 3 then some (z.da, z.size) else none

/-- Far ranges that the image assigns to `f` (note (e), Table 17-5). -/
def farRangesOf (s : State) (f : Nat) : List (Nat × Nat) :=
  s.image.carve.farRanges.filterMap fun r => if r.func == f then some (r.base, r.size) else none

/-- Crib parts that the image assigns to `f` on slice `k` (notes (f), (i), Table 4-13). -/
def cribPartsOf (s : State) (f k : Nat) : List (Nat × Nat) :=
  s.image.carve.cribParts.filterMap fun p =>
    if p.func == f && bit p.slices k then some (cribDa k p.off, p.size) else none

/-- The registers of region 0x0 that a kernel may read (R446). -/
def kernelReg (da : Nat) : Bool :=
  bits da 24 8 == 0x13 && ((bits da 16 8 == 0 && (bits da 0 16 == 0x00 || bits da 0 16 == 0x08))
    || (bits da 16 8 == 1 && (bits da 0 16 == 0x00 || bits da 0 16 == 0x08 || bits da 0 16 == 0x10)))

/-- The notes of Table 2-7 other than (a) and (b), and R63, allow the range (kind OWNER). -/
def ownerAllows (s : State) (w : Who) (da n : Nat) : Bool :=
  let r := da / 2 ^ 52
  let f := chargedTo w
  match w with
  | .steward => true
  | .peer => true
  | .kernel _ k =>
    match r with
    | 0 => kernelReg da
    | 1 => da / 2 ^ 25 % 32 == k && covered (cribPartsOf s f k) da n
    | 3 => covered (buffersOf s f) da n
    | _ => bits da 46 6 == f && bits (da + n - 1) 46 6 == f
  | _ =>
    match r with
    | 0 => bits da 24 8 == dieB (bridgeOf f) && bits da 16 8 == 0x40 + f % 32
    | 1 => f == 0 || covered (cribPartsOf s f (da / 2 ^ 25 % 32)) da n
    | 2 => f == 0
    | 3 => (w == .copy 0) || covered (buffersOf s f) da n
    | 4 => (w == .copy 0) || covered (farRangesOf s f) da n
    | 5 => (w == .copy 0) || covered (farRangesOf s f) da n
    | _ => bits da 46 6 == f && bits (da + n - 1) 46 6 == f

/-- Stack extents of husk-protected tables in any live generation (note (b)). -/
def protectedExtents (s : State) : List (Nat × Nat) :=
  let ts := s.cfg.cur.tables ++ (s.cfg.old.map (·.tables)).getD []
  ((ts.filter (·.husk)).map stackExtents).flatten

/-- A write falls where note (a) or (b) of Table 2-7 forbids it (kind PROTECTED). -/
def protectedPlace (s : State) (w : Who) (da n : Nat) : Bool :=
  let r := da / 2 ^ 52
  match w with
  | .kernel _ _ => false
  | .tenant _ => false
  | _ =>
    if r = 1 then
      let o := da % 2 ^ 25
      rangesMeet o n 0 s.image.carve.liftBytes || rangesMeet o n (cribSize - cribReserved) cribReserved
    else if r = 2 then
      decide (bits da 36 5 = 16) || (protectedExtents s).any fun e => rangesMeet (bits da 0 36) n e.1 e.2
    else false

/-! ### The checks of Table 2-8 -/

/-- A zero bit is set, or the access leaves the region's valid offsets (kind OUT_OF_RANGE, R59, R79). -/
def outOfRange (s : State) (da n : Nat) : Bool :=
  let o := da % 2 ^ 52
  match da / 2 ^ 52 with
  | 0 => o / 2 ^ 32 != 0
  | 1 => o / 2 ^ 30 != 0
  | 2 => o / 2 ^ 41 != 0 || decide (stackLimit < o % 2 ^ 36 + n)
  | 3 => decide (16 * s.image.carve.stripeSize < o + n)
  | 4 => decide (ddrBytes s < o + n)
  | 5 => decide (cxlBytes s < o + n)
  | _ => false

/-- The die, block or slice field names nothing (kind BAD_TARGET). -/
def badTarget (da : Nat) : Bool :=
  match da / 2 ^ 52 with
  | 0 => !blockExists (bits da 24 8) (bits da 16 8)
  | 1 => decide (16 < bits da 25 5)
  | 2 => decide (16 < bits da 36 5)
  | _ => false

/-- A carved-line block of a bridge: memory, to which ALIGN does not apply (R848). -/
def carvedBlock (da : Nat) : Bool := decide (0xC0 ≤ bits da 16 8) && (bits da 24 8 == 0x11 || bits da 24 8 == 0x12)

/-- A register access is not 4 or 8 bytes, naturally aligned (kind ALIGN); carved lines take any access that stays in them. -/
def misaligned (da n : Nat) : Bool :=
  decide (da / 2 ^ 52 = 0) && !(carvedBlock da && carvedBlock (da + n - 1)) && !((n == 4 || n == 8) && da % n == 0)

/-- One access spans two regions, or two cribs (kind CROSSING, R79). One that starts in S16's crib and runs past its end,
where no crib follows, counts as crossing too (DESIGN CHOICE, log 144). -/
def crossing (da n : Nat) : Bool :=
  let e := da + n - 1
  decide (da / 2 ^ 52 ≠ e / 2 ^ 52) && decide (da / 2 ^ 52 ≠ 2)
    || decide (da / 2 ^ 52 = 1 ∧ da / 2 ^ 25 ≠ e / 2 ^ 25)

/-- The target is offline (kind OFFLINE, R76). -/
def targetOffline (s : State) (w : Who) (da n : Nat) : Bool :=
  let o := da % 2 ^ 52
  match da / 2 ^ 52 with
  | 0 => blockOffline s (bits da 24 8) (bits da 16 8)
  | 1 => !sliceLive s (bits da 25 5)
  | 2 => !sliceLive s (bits da 36 5)
  | 3 => (stripeSlices o n).any fun k => !sliceLive s k
  | 4 => farOffline s da n
  | 5 => farOffline s da n
  | _ => !portUp s (portOf (chargedTo w))

/-- The kind of the first check of Table 2-8 that an access of `n` bytes fails; 0 for none (R67). -/
def decodeKind (s : State) (w : Who) (write : Bool) (a n : Nat) : Nat :=
  if 2 ^ 56 ≤ a ∨ 7 ≤ a / 2 ^ 52 then 1
  else if !regionAllows w write (a / 2 ^ 52) then 2
  else if misaligned a n then 3
  else if crossing a n then 4
  else if badTarget a then 5
  else if outOfRange s a n then 6
  else if !ownerAllows s w a n then 7
  else if write && protectedPlace s w a n then 8
  else if targetOffline s w a n then 9
  else 0

/-! ### Capture (R70 to R74) -/

/-- The registers of one function after one more decode error: captured when VALID reads 0, else OVER; COUNT
saturates (R70, R72). -/
def derrAfter (d : Derr) (kind agent tick da : Nat) : Derr :=
  if d.valid then { d with overrun := true, count := sat16 d.count }
  else { d with valid := true, kind := BitVec.ofNat 4 kind, agent := BitVec.ofNat 4 agent, count := sat16 d.count,
                tick := BitVec.ofNat 16 tick, da := BitVec.ofNat 56 da }

/-- A decode error of an agent is captured, counted and reported (R70). -/
def decodeError (w : Who) (kind da : Nat) (s : State) : State :=
  let f := chargedTo w
  raiseEvent evDecodeError (source (pageDie f) (pageBlock f)) (f + 256 * kind + 4096 * agentCode w)
    (onFunc f (fun F => { F with derr := derrAfter F.derr kind (agentCode w) s.tb.tick.toNat da }) s)

/-- Status and DETAIL of a command whose range failed a check (R69, R551). -/
def kindStatus (kind : Nat) : Nat × Nat :=
  if kind = 7 then (0x13, 7) else if kind = 9 then (0x22, 9) else (0x12, kind)

/-- A range of a command: host memory of its function, or device memory. -/
structure Rng where
  dev : Bool
  addr : Nat
  len : Nat
  deriving DecidableEq, Repr

/-- Two ranges lie in the same address space and share a byte; device addresses are taken as 56-bit numbers (R878). -/
def rngMeet (a b : Rng) : Bool :=
  let at_ (r : Rng) : Nat := if r.dev then r.addr % 2 ^ 56 else r.addr
  a.dev == b.dev && rangesMeet (at_ a) a.len (at_ b) b.len

/-- The decode kind of a command's range for its function; host ranges have no address check of Table 2-7 (R66). -/
def rngKind (s : State) (f : Nat) (write : Bool) (r : Rng) : Nat :=
  if r.dev && decide (0 < r.len) then decodeKind s (.copy f) write r.addr r.len else 0

/-- The function a region-0x6 address leads to, and its host address (R63). -/
def hostOf (da : Nat) : Nat × Nat := (bits da 46 6, bits da 0 46)

end Sys2Proof.Machine
end

