-- ==== Sys2Proof/Machine/Schedule.lean ====
section
/-!
DEFINITION. Sys2Proof/Machine/Schedule.lean: what is due at the current tick, and the order of R105: the QoS window,
the load count, the epoch and the dump interval close in that order, then the flip, the region switch and the DVFS
step. Each activity of Table 3-4 takes place once at its tick.
-/
namespace Sys2Proof.Machine

/-- A QoS window closes at ticks 0, 4,096, … , 61,440 (R104). -/
def qosDue (s : State) : Bool := inService s && s.tb.tick.toNat % 4096 == 0 && s.qos.openPos != posOf s

/-- The load counts close at tick 0 of each beat (R303). -/
def loadDue (s : State) : Bool :=
  inService s && s.tb.tick == 0
    && (liveData s).any fun k => (vat s.slices k).closedBeat != BitVec.ofNat 32 (s.tb.beat.toNat - 1)

/-- The open epoch has reached its end tick (R689, R96). -/
def epochDue (s : State) : Bool :=
  inService s && s.tb.tick == 0 && s.led.isOpen && s.led.beatsLeft == 0

/-- The counter-dump interval has reached its close tick (R804). -/
def dumpDue (s : State) : Bool := inService s && s.tb.tick == 0 && s.cnt.dumpLeft == 0

/-- A DVFS and thermal control step falls on multiples of 1,024 ticks (R104). -/
def dvfsDue (s : State) : Bool :=
  s.sys.state != .cold && s.imageOk && s.tb.tick.toNat % 1024 == 0 && s.pmc.lastStep != posOf s

/-- Nothing that R105 puts before the epoch close is due. -/
def beforeEpoch (s : State) : Bool := !qosDue s && !loadDue s

/-- No window that closes at this tick is still open. -/
def windowsClosed (s : State) : Bool := beforeEpoch s && !epochDue s && !dumpDue s

/-- A flip can take place at the boundary that begins this beat: of a rollback whose record is committed, or of the change
in progress whose GEN_COMMIT is committed for it, with no command of the older live generation left (R159, R162, R164). -/
def flipReady (s : State) : Bool :=
  s.cfg.old.isNone &&
    match s.cfg.rollback with
    | some (_, b, done) => done && decide (b < s.tb.beat.toNat)
    | none => match s.cfg.changes.head? with
      | some ch => ch.flipAt.any fun x => x.2 && decide (x.1 ≤ s.tb.beat.toNat)
      | none => false

/-- A flip is due at this boundary: it was ready as the boundary came, so that no command is admitted at its tick under the
generation before (R161). -/
def flipDue (s : State) : Bool := inService s && s.tb.tick == 0 && s.cfg.flipNow && flipReady s

/-- No record of the snapshot is on its way to flash. -/
def snapsWritten (s : State) : Bool :=
  let snap (r : Option JRec) : Bool := match r with | some r => r.snap | none => false
  !snap s.jr.writing && !snap s.jr.cont && !(s.jr.waiting.any (·.2))

/-- The switch to the new journal region is due at this boundary: every SNAP record is committed (R156). -/
def switchDue (s : State) : Bool :=
  writerOn s && s.tb.tick == 0 && snapsWritten s
    && (match s.jr.compaction with | .running [] p => decide (p < posOf s) | _ => false)

end Sys2Proof.Machine
end

