-- ==== Sys2Proof/Machine/Activity.lean ====
section
/-!
DEFINITION. Sys2Proof/Machine/Activity.lean: the activity events of the power domains (Table 19-4), the units they add up
to (R720) and the energy of a unit (R683). The events of Table 19-4 that the model's steps show are counted here, tagged as
R680 and R681 have it; what the other events add is a free value, `Config.activity` (log 7).
-/
namespace Sys2Proof.Machine

/-- The LEDGER section in force in the open epoch (R683, R711). -/
def ledgerOf (s : State) : LedgerCfg := s.led.cfg.getD s.cfg.cur.ledger

/-- Energy goes to the house account, in 2^-32 nJ. -/
def toHouse (e : Nat) (s : State) : State := { s with led := { s.led with house := s.led.house + e } }

/-- The tag of an activity unit (R680, R681). -/
inductive Payer where
  /-- The command with this identity. -/
  | cmd (u : Nat)
  /-- The house account. -/
  | house
  deriving DecidableEq, Repr

/-- Energy for a tag, in 2^-32 nJ; of a command that is discarded or has left the device it is the house's (R681). -/
def payEnergy (p : Payer) (e : Nat) (s : State) : State :=
  match p with
  | .cmd u =>
    if (cmdOf s u).any fun c => c.phase != .discarded then onCmd u (fun c => { c with energy := c.energy + e }) s
    else toHouse e s
  | .house => toHouse e s

/-- k of Table 19-5 for the CLOCK in force. -/
def clockScale (clock : Nat) : Nat :=
  if 961 ≤ clock then 1024 else if 833 ≤ clock then 892 else if 641 ≤ clock then 793 else if 385 ≤ clock then 655 else 551

/-- Die of a domain (R716). -/
def dieOfDomain (dom : Nat) : Nat := if dom < 306 then dom / 18 else if dom < 316 then 0x11 else if dom < 326 then 0x12 else 0x13

/-- What one event of a domain adds, in units of 1/1,024 (R719, R720). -/
def eventScale (s : State) (dom : Nat) : Nat := if 326 ≤ dom then 1024 else clockScale (vat s.pmc.clock (dieOfDomain dom))

/-- `n` events of a domain: the units they complete are paid by the tag, the remainder stays with the domain. A domain that
is off counts none (R683, R717, R720). -/
def activity (p : Payer) (dom n : Nat) (s : State) : State :=
  let D := vat s.pmc.domains dom
  if n == 0 || !D.on then s
  else
    let a := D.rem + n * eventScale s dom
    payEnergy p (s.led.gain.toNat * (nth (ledgerOf s).domains dom (0, 0)).1 * (a / 1024))
      { s with pmc := { s.pmc with domains := vupd s.pmc.domains dom fun D => { D with rem := a % 1024 } } }

/-- The domain that an atom of a crib or a stack is moved by: the bank, or the channels' controller. -/
def atomDomain (da : Nat) : Nat :=
  let k := da % 2 ^ 52 / 2 ^ 36
  if da / 2 ^ 52 = 1 then 18 * bits da 25 5 + (if da % 2 ^ 25 < 2 ^ 24 then 10 else 11)
  else 18 * k + (if channelOf (da % 2 ^ 36) < 8 then 13 else 14)

/-- The domain of an RDIMM's channels. -/
def dimmDomain (i : Nat) : Nat := 310 + 10 * (i / 8) + i % 8 / 4

/-- The domain of an expander's port. -/
def cxlDomain (e : Nat) : Nat := 308 + 10 * (e / 2) + e % 2

/-- An access of `n` bytes from `da` moves its atoms, its 64-byte DDR accesses or its 32-byte pieces of CXL payload
(Table 19-4). -/
def memActivity (p : Payer) (da n : Nat) (s : State) : State :=
  let o := da % 2 ^ 52
  let pieces (w : Nat) : List Nat := if n = 0 then [] else
    (List.range ((o + n - 1) / w - o / w + 1)).map fun i => w * (o / w + i)
  match da / 2 ^ 52 with
  | 4 => (pieces 64).foldl (fun s a => activity p (dimmDomain (dimmAt s a)) 1 s) s
  | 5 => (pieces 32).foldl (fun s a => match (cxlOf s a 1).head? with | some e => activity p (cxlDomain e) 1 s | none => s) s
  | r =>
    if r = 1 ∨ r = 2 ∨ r = 3 then
      (pieces 32).foldl (fun s a => activity p (atomDomain (canonDa s.image.carve (r * 2 ^ 52 + a))) 1 s) s
    else s

/-- A ring packet of `n` payload bytes under its 16-byte header is forwarded by, or folded at, slice `k`: 32 bytes an event
(R244, R277, R283, R394). -/
def ringActivity (p : Payer) (k n : Nat) (s : State) : State := activity p (18 * k + 15) (ceilDiv (16 + n) 32) s

/-- Segments of `n` bytes go from slice `k` to bridge `b`: sent at the slice, received and assembled at the bridge. -/
def linkActivity (p : Payer) (k b n : Nat) (s : State) : State :=
  let m := ceilDiv n 32
  activity p (306 + 10 * b + 8) m (activity p (306 + 10 * b + 9) m (activity p (18 * k + 16 + b) m s))

/-- `n` payload bytes of TLPs pass the host-facing port of function `f` (Table 19-4). -/
def busActivity (p : Payer) (f n : Nat) (s : State) : State :=
  activity p (306 + 10 * (portOf f / 2) + portOf f % 2) (ceilDiv n 32) s

/-- The house's `n` bytes for function `f`, if the state `s` has sent something that `was` had not (R681). -/
def houseBytes (was : State) (f n : Nat) (s : State) : State :=
  if s.out.length = was.out.length then s else busActivity .house f n s

/-- `n` bytes are hashed by the SHA-256 hasher, with its padding (Table 19-4). -/
def hashActivity (n : Nat) (s : State) : State := activity .house 328 (ceilDiv (n + 9) 64) s

/-- Bytes of a command written to a range's address: device memory, or the function's host memory, directly or through region
0x6, with Relaxed Ordering as given. The Bool is false when poison dropped the write (R651). -/
def rngWriteRo (ro : Bool) (c : Cmd) (dev : Bool) (addr : Nat) (bs : List Byte) (s : State) : Bool × State :=
  let host (a : Nat) : Bool × State := (true, busActivity (.cmd c.uid) c.func bs.length (hostWriteRo ro c.func a bs s))
  if !dev then host addr else if addr / 2 ^ 52 = 6 then host (hostOf addr).2 else daWrite s addr bs

/-- See `rngWriteRo`: with Relaxed Ordering clear. -/
def rngWrite (c : Cmd) (dev : Bool) (addr : Nat) (bs : List Byte) (s : State) : Bool × State :=
  rngWriteRo false c dev addr bs s

/-! ### The way between two slices (R77, R244, R772) -/

/-- The link of slice `k` to bridge `b` carries traffic. -/
def sliceLinkUp (s : State) (k b : Nat) : Bool :=
  !(vat s.brg b).offline && ((vat (vat s.links.slice (2 * k + b)) 0).up || (vat (vat s.links.slice (2 * k + b)) 1).up)

/-- The bridge of a detour, or of a reconstruction route around a lost slice, from slice `a` to slice `c`: B0, or B1 when
either slice's link to B0 carries nothing. -/
def routeBridge (s : State) (a c : Nat) : Nat := if sliceLinkUp s a 0 && sliceLinkUp s c 0 then 0 else 1

/-- The bridge that a ring packet from slice `a` to slice `c` passes through, if any: on a lost hop, or around the slices
that lie between. -/
def hopBridge (s : State) (a c : Nat) : Option Nat :=
  if c ≠ (a + 1) % 17 then some (routeBridge s a c)
  else match vat s.links.detour a with | .none => none | .viaB0 => some 0 | .viaB1 => some 1

/-- A ring packet of `n` payload bytes leaves slice `a` for slice `c`: over the hop, or over two slice links and their
bridge. -/
def ringSend (p : Payer) (a c n : Nat) (s : State) : State :=
  let s := ringActivity p a n s
  match hopBridge s a c with
  | none => s
  | some b =>
    let m := ceilDiv (16 + n) 32
    activity p (18 * c + 16 + b) m (activity p (306 + 10 * b + 9) (2 * m) (activity p (18 * a + 16 + b) m s))

/-! ### Accounts (sections 18.2 and 18.3) -/

/-- Energy of the activity units of one draw, in 2^-32 nJ: the gain times each domain's WEIGHT (R683). These are the units
that the events not counted in Machine/Activity.lean complete. -/
def activityEnergy (s : State) (n : Nat) : Nat :=
  s.led.gain.toNat * (((List.range 332).map fun d => (nth (ledgerOf s).domains d (0, 0)).1 * Config.activity n d).sum)

/-- 2^32: fractions of a nJ in an accumulator. -/
def njUnit : Nat := 2 ^ 32

/-- Energy in a command's accumulator at a cut (R683, R684): what its counted events have added, and a free value for the
others since the last cut. -/
def cutEnergy (s : State) (c : Cmd) : Nat := c.energy + activityEnergy s s.freeCtr

/-- The accumulator of a command is cut. -/
def cutCmd (u : Nat) (s : State) : State :=
  match cmdOf s u with
  | none => s
  | some c => drew (onCmd u (fun x => { x with energy := cutEnergy s c }) s)

/-- The house account takes the whole energy of a discarded command (R681, R706). -/
def houseCmd (c : Cmd) (s : State) : State := drew (toHouse (cutEnergy s c) s)

/-- A command that a reset discards and that runs on gives up its energy now (R514 step 4, R706). -/
def houseNow (u : Nat) (s : State) : State :=
  match cmdOf s u with
  | some c => onCmd u (fun c => { c with energy := 0 }) (houseCmd c s)
  | none => s

/-- The device serves degraded: DEGRADED, or S16 stands in. -/
def degradedNow (s : State) : Bool := s.sys.state == .degraded || s.recov.standin.isSome

/-- Commands admitted and neither posted nor discarded; what a discarded one that runs on still uses is the house's. -/
def openCmds (s : State) : List Cmd := s.cmds.filter fun c => c.phase != .discarded

/-- Every open command and the house account are cut, one free value each (R689, R106). -/
def cutAll (s : State) : State :=
  let s := (openCmds s).foldl (fun s c => cutCmd c.uid s) s
  drew (toHouse (activityEnergy s s.freeCtr) s)

/-- The epoch that ends here is cut: its accounts, receipts and samples are set aside, and what follows counts in the next
one (R101, R106, R689). -/
def takeCut (s : State) : State :=
  let s := cutAll s
  let l := s.led
  { s with led := { l with meterPj := 0, epochGaps := 0, peakMw := 0, house := l.house % njUnit, receipts := [], resets := 0,
                           cut := some { meterPj := l.meterPj, gaps := l.epochGaps, peakMw := l.peakMw,
                                         house := l.house / njUnit, receipts := l.receipts, resets := l.resets,
                                         open_ := (openCmds s).map fun c => (c.uid, c.energy / njUnit),
                                         state := stateCode s.sys.state, degraded := degradedNow s || s.sys.lossSeen } },
           cmds := s.cmds.map fun c => { c with carry := c.energy / njUnit } }

/-- An epoch that was cut and has not closed goes on, as an early close then has it. -/
def undoCut (s : State) : State :=
  match s.led.cut with
  | none => s
  | some k =>
    let l := s.led
    { s with led := { l with meterPj := l.meterPj + k.meterPj, epochGaps := l.epochGaps + k.gaps,
                             peakMw := max l.peakMw k.peakMw, house := l.house + k.house * njUnit,
                             receipts := l.receipts ++ k.receipts, resets := l.resets ||| k.resets, cut := none } }

/-- A command that is posted on the close tick is not carried out of the epoch that closes (R113). -/
def leaveCut (u : Nat) (s : State) : State :=
  { s with led := { s.led with cut := s.led.cut.map fun k => { k with open_ := k.open_.filter (·.1 != u) } } }

/-- A command's receipt joins the epoch that opens at this tick, where one closes, or else the open one (R101, R113). -/
def epochStart (s : State) : Nat := if s.led.cut.isSome then posOf s else s.led.openPos

end Sys2Proof.Machine
end

