-- ==== Sys2Proof/Machine/Qos.lean ====
section
/-!
DEFINITION. Sys2Proof/Machine/Qos.lean: classes, levels, usage and the QoS window (chapter 16).
Resources are numbered as in Table 16-1: 0 SLOTS, 1 STACK, 2 CRIB, 3 DDR, 4 CXL. Classes are 0 to 15, range classes 16
to 31.
-/
namespace Sys2Proof.Machine

/-- Codes of Table 16-4; a higher code is a lower level. -/
def levelCode : Level → Nat
  | .guaranteed => 0 | .normal => 1 | .demoted => 2 | .scavenger => 3

/-- The lower of two levels (R619). -/
def lowerLevel (a b : Level) : Level := if levelCode a < levelCode b then b else a

/-- The level of a usage under a base level, a guarantee and a ceiling in the usage's unit (Table 16-5). -/
def levelFor (base : Level) (g : Nat) (c : Option Nat) (u : Nat) : Level :=
  match base with
  | .scavenger => .scavenger
  | _ =>
    if base == .guaranteed && decide (u ≤ g) then .guaranteed
    else match c with
    | none => .normal
    | some c => if u ≤ c then .normal else if u ≤ 2 * c then .demoted else .scavenger

/-- A guarantee scaled by a factor (R626). -/
def scaledG (g f : Nat) : Nat := g * f / 1024

/-- A ceiling scaled by a factor (R626). -/
def scaledC (b : Budget) (f : Nat) : Option Nat := b.c.map fun c => max (scaledG b.g f) (c * f / 1024)

/-- The budget of class `i` in resource `r` under the factor in force (R626). The window's length
plays no part in it: in a slip or stretched window budgets, ceilings and factors stay as they are (R638). -/
def budgetNow (s : State) (i r : Nat) : Nat × Option Nat :=
  let b := vat (vat s.cfg.cur.classes i).budget r
  let f := vat s.qos.fact r
  (scaledG b.g f, scaledC b f)

/-- The level of class `i` in resource `r` at usage `u`: entries for SLOTS, bytes otherwise (R617, R618). -/
def levelAt (s : State) (i r u : Nat) : Level :=
  let (g, c) := budgetNow s i r
  let k := if r = 0 then 1 else 1024
  levelFor (vat s.cfg.cur.classes i).base (g * k) (c.map (· * k)) u

/-- Usage of class `i` in resource `r` so far (R614, R618). -/
def usageOf (s : State) (i r : Nat) : Nat := if r = 0 then (vat s.qos.usage i).n else vat (vat s.qos.usage i).used r

/-- The level of class `i` in resource `r` now. -/
def levelOf (s : State) (i r : Nat) : Level := levelAt s i r (usageOf s i r)

/-- The command level of a class: the lowest over the five resources (R619). -/
def commandLevel (s : State) (c : Nat) : Level :=
  [0, 1, 2, 3, 4].foldl (fun l r => lowerLevel l (levelOf s c r)) .guaranteed

/-! ### Requests and arbiters

Every request is granted in the row that issues it, so no two wait in the model and the order of grants shows only in time
(log 129). -/

/-- A request that waits at a stack, crib, DDR or CXL arbiter: its level there and its place in order of age. -/
structure MemReq where
  /-- Its level in the arbiter's resource (R619). -/
  level : Level
  /-- Smaller is older. -/
  age : Nat
  deriving DecidableEq, Repr

/-- The request an arbiter prefers: the older one when the grant is its 32nd, else the higher level and then the older
(R620). -/
def preferred (aged : Bool) (x y : MemReq) : MemReq :=
  let older := if y.age < x.age then y else x
  if aged || x.level == y.level then older else if levelCode y.level < levelCode x.level then y else x

/-- The request that an arbiter grants after `n` grants: every 32nd goes to the oldest whatever its level (R620). -/
def grant (n : Nat) : List MemReq → Option MemReq
  | [] => none
  | x :: l => some (l.foldl (preferred (n % 32 == 31)) x)

/-- The level reached after a change of usage is noted: the lowest so far, and a drop when it fell (Table 16-7). -/
def noteLevel (before after : Level) (r : Nat) (u : ClassUse) : ClassUse :=
  { u with low := vupd u.low r (lowerLevel after),
           drops := if levelCode before < levelCode after then min 0xFFFF (u.drops + 1) else u.drops }

/-- `bytes` are charged to class `i` in a bandwidth resource (R614). -/
def charge (i r bytes : Nat) (s : State) : State :=
  let u := usageOf s i r
  let before := levelAt s i r u
  let after := levelAt s i r (u + bytes)
  let g (x : ClassUse) : ClassUse := noteLevel before after r { x with used := vupd x.used r (· + bytes) }
  { s with qos := { s.qos with usage := vupd s.qos.usage i g } }

/-- The commands in flight of class `i` become `n` (R618). -/
def setSlots (i n : Nat) (s : State) : State :=
  let before := levelOf s i 0
  let after := levelAt s i 0 n
  let g (x : ClassUse) : ClassUse := noteLevel before after 0 { x with n := n, peak := max x.peak n }
  { s with qos := { s.qos with usage := vupd s.qos.usage i g } }

/-- The range class of a device address: 16 + k for the range that covers it, else 31 (R612). -/
def rangeClass (s : State) (da : Nat) : Nat :=
  match (List.range 15).find? fun k =>
      let e := vat s.cfg.cur.classes (16 + k)
      decide (e.da ≤ da ∧ da < e.da + e.size) with
  | some k => 16 + k
  | none => 31

/-- A label that the submitting function may use; class 15 is open to all (R611). -/
def classPermits (s : State) (f c : Nat) : Bool := c == 15 || (vat s.cfg.cur.classes c).mask.getLsbD f

/-- The class a command is admitted under; a label not permitted is relabelled 15, counted and reported (R611). -/
def relabel (f q tag c : Nat) (s : State) : Nat × State :=
  if classPermits s f c then (c, s)
  else
    (15, raiseEvent evClassMisuse (source (pageDie f) (pageBlock f)) (q + 256 * c + 65536 * tag)
      { s with qos := { s.qos with usage := vupd s.qos.usage c fun u => { u with relabel := min 0xFFFFFFFF (u.relabel + 1) } } })

/-! ### The window close -/

/-- The slices that serve: live data slices, and S16 while it stands in (R625). -/
def servingSlices (s : State) : List Nat :=
  liveData s ++ (if s.recov.standin.isSome && sliceLive s 16 then [16] else [])

/-- Live bridges. -/
def liveBridges (s : State) : List Nat := [0, 1].filter fun b => !(vat s.brg b).offline

/-- RDIMM sockets that the image declares. -/
def declaredDimms (s : State) : List Nat := (List.range 16).filter fun i => s.image.dimms.getLsbD i

/-- Expanders that the image declares: 0 to 3 for ports B0.2, B0.3, B1.2, B1.3. -/
def declaredCxl (s : State) : List Nat := (List.range 4).filter fun i => s.image.cxl.getLsbD i

/-- The least of a list of factors, 1,024 for none. -/
def leastOf (l : List Nat) : Nat := l.foldl min 1024

/-- The factors of R625 for SLOTS, STACK, CRIB, DDR and CXL. -/
def factorsNow (s : State) : Vector Nat 5 :=
  let l := if s.recov.standin.isSome then 205 else 1024
  let i := leastOf ((servingSlices s).map (vat s.pmc.issue ·))
  let k := leastOf ((servingSlices s).map (vat s.pmc.clock ·))
  let dd := declaredDimms s
  let dx := declaredCxl s
  let clk (b : Nat) : Nat := vat s.pmc.clock (dieB b)
  let far (decl live : List Nat) (per : Nat) : Nat :=
    if decl.isEmpty then 1024 else min 1024 ((live.map fun j => clk (j / per)).sum / decl.length)
  #v[1024 * (liveBridges s).length / 2, l * i / 1024, l * k / 1024,
     far dd (dd.filter fun j => !(vat s.dimms j).lost) 8, far dx (dx.filter fun j => !(vat s.cxl j).lost) 2]

/-- The closed-window record of one class (Table 16-7). -/
def qosRecord (u : ClassUse) (range : Bool) : List Byte :=
  let kib (r : Nat) : Nat := min 0xFFFFFFFF (vat u.used r / 1024)
  let z (n : Nat) : Nat := if range then 0 else n
  leBytes 4 (kib 1) ++ leBytes 4 (z (kib 2)) ++ leBytes 4 (kib 3) ++ leBytes 4 (kib 4)
    ++ leBytes 2 (z (min 0xFFFF u.peak)) ++ leBytes 2 (z (min 0xFFFF (u.area / 4096)))
    ++ leBytes 2 (([0, 1, 2, 3, 4].map fun r => levelCode (vat u.low r) * 4 ^ r).sum)
    ++ leBytes 2 u.drops ++ leBytes 4 (z u.relabel) ++ zeros 4

/-- Usage of a class in the window that opens, under the budgets that apply to it: what the tick itself has counted so far
(R105, R622). -/
def openUse (s : State) (i : Nat) (u : ClassUse) : ClassUse :=
  { u with low := Vector.ofFn fun r : Fin 5 => levelAt s i r.val (if r.val = 0 then u.n else vat u.used r.val) }

/-- The levels at which the QoS window that opens now begins, under the entries now in force (R616, R631). -/
def relevel (s : State) : State :=
  { s with qos := { s.qos with usage := Vector.ofFn fun i : Fin 32 => openUse s i.val (vat s.qos.usage i.val) } }

/-- What the window just closed withheld of guarantees, by resource (R628). -/
def withheld (s : State) (r : Nat) : Nat :=
  ((List.range 32).map fun i =>
    let g := (vat (vat s.cfg.cur.classes i).budget r).g
    g - scaledG g (vat s.qos.fact r)).sum

/-- The weight a window adds for class `c` under RESERVATION (Table 18-6). -/
def windowWeight (s : State) (c : Nat) : Nat :=
  let ents := (List.range 16).map (vat s.cfg.cur.classes ·)
  let gOf (e : ClassEnt) (r : Nat) : Nat := if e.base == .guaranteed then (vat e.budget r).g else 0
  ([0, 1, 2, 3, 4].map fun r =>
    let tot := (ents.map (gOf · r)).sum
    if tot = 0 then 0 else scaledG (gOf (nth ents c noClass) r) (vat s.qos.fact r) * 2 ^ 20 / tot).sum

/-- A change of a factor is reported, one event for each resource (R627). R99 has the event flagged HOLDOVER when the window
just closed takes in ticks of a HOLDOVER or ACQUIRE beat; the bit, ARG[4], is the model's choice (DESIGN CHOICE, log 115). -/
def shortfallEvents (old new : Vector Nat 5) (s : State) : State :=
  [0, 1, 2, 3, 4].foldl (fun s r =>
    if vat old r = vat new r then s
    else raiseEvent evShortfall (source dieC 4) (r + flag s.qos.closingHold 4 + 65536 * vat new r) s) s

/-- QOS_WINDOW_CLOSE: the records are rewritten, usage and levels start again, the factors are computed for the window
that opens, and each change is reported (R622 to R628). The rewrite is done at the close tick (log 15). -/
def qosClose (s : State) : State :=
  let f := factorsNow s
  let old := s.qos.fact
  let recs := (List.range 32).map fun i => qosRecord (vat s.qos.closing i) (decide (16 ≤ i))
  let short := Vector.ofFn fun r : Fin 5 => vat s.qos.shortfall r.val + if s.led.isOpen then withheld s r.val else 0
  let q := { s.qos with recs := recs, winTick := BitVec.ofNat 16 s.qos.openPos,
                        winBeat := BitVec.ofNat 48 (s.qos.openPos / 65536), fact := f, shortfall := short,
                        openPos := posOf s,
                        weights := Vector.ofFn fun c : Fin 16 => vat s.qos.weights c.val + windowWeight s c.val }
  shortfallEvents old f (relevel { s with qos := q })

/-- QOS_WINDOW_CLOSE (R622). -/
def execQosWindowClose (s : State) : Host.Outcome State Fault Refusal :=
  .next (if qosDue s then qosClose s else s)

/-! ### Traffic of commands (R611 to R614) -/

/-- The resource of a region's memory: CRIB for region 0x1, STACK for 0x2 and 0x3, DDR, CXL (Table 16-1). -/
def resourceOf (da : Nat) : Nat :=
  if da / 2 ^ 52 = 1 then 2 else if da / 2 ^ 52 = 4 then 3 else if da / 2 ^ 52 = 5 then 4 else 1

/-- Bytes that an access moves: whole 32-byte atoms (Table 16-1). -/
def atomBytes (da n : Nat) : Nat := if n = 0 then 0 else 32 * ((da + n - 1) / 32 - da / 32 + 1)

/-- A device address on the far tiers. -/
def farAddr (da : Nat) : Bool := da / 2 ^ 52 == 4 || da / 2 ^ 52 == 5

/-- A device address in the crib or the stack of S16. -/
def onS16 (da : Nat) : Bool := (da / 2 ^ 52 == 1 && bits da 25 5 == 16) || (da / 2 ^ 52 == 2 && bits da 36 5 == 16)

/-- Bytes of an access that Table 16-1 counts: whole atoms of cribs and stacks, those of S16 while it stands in, and bytes
of the far tiers (R614). -/
def countedBytes (s : State) (da n : Nat) : Nat :=
  if farAddr da then n else if onS16 da && s.recov.standin.isNone then 0 else atomBytes da n

/-- The parts of an access that lie in a declared range: range class, first address, length (R612). -/
def rangeParts (s : State) (da n : Nat) : List (Nat × Nat × Nat) :=
  (List.range 15).filterMap fun k =>
    let e := vat s.cfg.cur.classes (16 + k)
    let lo := max da e.da
    let hi := min (da + n) (e.da + e.size)
    if lo < hi then some (16 + k, lo, hi - lo) else none

/-- Each part of an access is charged to the range class that covers it, and the rest to range class 15 (R612). -/
def chargeRanges (da n : Nat) (s : State) : State :=
  let ps := rangeParts s da n
  let own := (ps.map fun p => countedBytes s p.2.1 p.2.2).sum
  ps.foldl (fun s p => charge p.1 (resourceOf da) (countedBytes s p.2.1 p.2.2) s)
    (charge 31 (resourceOf da) (countedBytes s da n - own) s)

/-- An access is charged to class `i`, and in regions 0x4 and 0x5 to the range classes too (R612, R614). -/
def chargeClass (i da n : Nat) (s : State) : State :=
  let s := charge i (resourceOf da) (countedBytes s da n) s
  if farAddr da then chargeRanges da n s else s

/-- Command traffic is charged to the command's class; its activity is the command's (R680). -/
def chargeCmd (c : Cmd) (da n : Nat) (s : State) : State :=
  let r := da / 2 ^ 52
  if r = 0 ∨ 5 < r then s else chargeClass c.cls da n (memActivity (.cmd c.uid) da n s)

/-! ### Levels of requests (R613, R619, R320, R637) -/

/-- A command's or kernel's request: the lower level of its class and, in regions 0x4 and 0x5, of the range class (R612,
R619). -/
def requestLevel (s : State) (cls da : Nat) : Level :=
  let l := levelOf s cls (resourceOf da)
  if farAddr da then lowerLevel l (levelOf s (rangeClass s da) (resourceOf da)) else l

/-- Window traffic carries its range class only (R613). -/
def windowLevel (s : State) (da : Nat) : Level := levelOf s (rangeClass s da) (resourceOf da)

/-- A prefetch: the lower of its range class's level and NORMAL, so never GUARANTEED (R637). -/
def prefetchLevel (s : State) (da : Nat) : Level := lowerLevel (windowLevel s da) .normal

/-- Migration: GUARANTEED for a batch once its rows are frozen, else the level of MIG_CLASS (R320, R330, R635). -/
def migrationLevel (s : State) (frozen : Bool) (da : Nat) : Level :=
  if frozen then .guaranteed else requestLevel s s.cfg.cur.migration.cls da

/-- Other internal traffic: zeroing, rebuild and scrubbing (R613). -/
def internalLevel : Level := .scavenger

end Sys2Proof.Machine
end

