-- ==== Sys2Proof/Machine/Gens.lean ====
section
/-!
DEFINITION. Sys2Proof/Machine/Gens.lean: runtime changes and the generations they pass through (R159 to R166, R191,
R210, R316): acceptance, staging, and the end of an older generation.
-/
namespace Sys2Proof.Machine

/-! ### What a change does to the configuration -/

/-- A list with an element placed by a key, ascending. -/
def placeBy {α : Type} (key : α → Nat) (x : α) (l : List α) : List α :=
  l.takeWhile (fun y => key y < key x) ++ [x] ++ l.dropWhile (fun y => key y < key x)

/-- Bytes of a library's code: the total CODE_LEN (R445). -/
def codeTotal (ks : List Kernel) : Nat := (ks.map (·.len)).sum

/-- A library laid out in the code area: kernel after kernel, in its order, from `off` on (R445, log 94). -/
def packKernels : Nat → List Kernel → List Kernel
  | _, [] => []
  | off, k :: ks => { k with off := off } :: packKernels (off + k.len) ks

/-- Shards of a table that a HUSK change computes parity for, ascending (R191). -/
def huskShards (t : TableDecl) : List Nat :=
  (List.range t.shards.length).filter fun i => (nth t.shards i noShard).tier == .stack

/-- Generations that a change passes through (R163, R191, R316). -/
def changeSteps (c : Cfg) : ChangeKind → Nat
  | .shardMove _ _ _ => 2
  | .huskSet id true => match tableOf c id with | some t => max 1 (huskShards t).length | none => 1
  | _ => 1

/-- One table of a configuration changed. -/
def editTable (id : Nat) (g : TableDecl → TableDecl) (c : Cfg) : Cfg :=
  { c with tables := c.tables.map fun t => if t.id == id then g t else t }

/-- The configuration after flip number `step` of a change; `dst` is the place that a shard move goes to. -/
def stepCfg (k : ChangeKind) (step : Nat) (dst : Tier × Nat) (c : Cfg) : Cfg :=
  match k with
  | .tableRegister t => { c with tables := placeBy (·.id) t c.tables }
  | .kvRegister d => { c with kvs := placeBy (·.id) d c.kvs }
  | .tableRelease id => { c with tables := c.tables.filter (·.id != id), kvs := c.kvs.filter (·.id != id) }
  | .shardMove table shard _ =>
    editTable table (fun t => { t with shards := t.shards.modify shard fun sh =>
      if step = 0 then { sh with moving := true }
      else { sh with moving := false, tier := dst.1, base := dst.2, streak := (0, 0), parity := t.husk && dst.1 == .stack } }) c
  | .huskSet table true => editTable table (fun t => { t with husk := true }) c
  | .huskSet table false =>
    editTable table (fun t => { t with husk := false, shards := t.shards.map fun sh => { sh with parity := false } }) c
  | .classSet i e => { c with classes := vupd c.classes i fun _ => e }
  | .migrationSet m => { c with migration := m }
  | .ledgerSet l => { c with ledger := l }
  | .kernelLoad k => { c with kernels := packKernels 0 (placeBy (·.id) k c.kernels) }
  | .kernelUnload id => { c with kernels := packKernels 0 (c.kernels.filter (·.id != id)) }

/-! ### Acceptance and staging (R159, R163) -/

/-- A validated change is taken: its CONFIG_CHANGE item is written (R159 step 2). -/
def acceptChange (k : ChangeKind) (origin : Option Nat) (s : State) : State :=
  let ch : Change := { kind := k, origin := origin, seq := 0, flipAt := none, firstFlip := none, steps := 0, stepDone := false }
  jAdd (.configChange k) { s with cfg := { s.cfg with changes := s.cfg.changes ++ [ch] } }

/-- The change in progress may be staged for its next flip: its first, or after the work of the step in force. -/
def stepReady (s : State) (ch : Change) : Bool :=
  match ch.kind with
  | .shardMove _ _ _ => ch.steps == 0 || ch.stepDone
  | .huskSet id true =>
    ch.stepDone || (match tableOf s.cfg.cur id with | some t => (huskShards t).isEmpty | none => true)
  | _ => true

/-- The change in progress with `g` applied. -/
def onHead (g : Change → Change) (s : State) : State :=
  { s with cfg := { s.cfg with changes := s.cfg.changes.modify 0 g } }

/-- GEN_COMMIT is written for the next boundary when the change in progress is ready for it (R159 step 3). -/
def stageHead (s : State) : State :=
  match s.cfg.changes.head? with
  | none => s
  | some ch =>
    if ch.seq == 0 || ch.flipAt.isSome || !stepReady s ch || s.cfg.rollback.isSome then s
    else
      let b := s.tb.beat.toNat + 1
      jAdd (.genCommit (s.cfg.cur.gen + 1) b ch.seq) (onHead (fun ch => { ch with flipAt := some (b, false), stepDone := false }) s)

/-- The step in force of the change in progress has done its work. -/
def headStepDone (s : State) : State := stageHead (onHead (fun ch => { ch with stepDone := true }) s)

/-- Codes of Table 22-6. -/
def reasonCode : Reason → Nat
  | .timeout => 1 | .moveFailed => 2 | .sliceLost => 3 | .farLost => 4

/-- The target generation of the change at place `i`: the last of those that it and the changes before it pass through, their
first flips being done (R159, R163, R164; log 126). -/
def targetGen (s : State) (i : Nat) : Nat :=
  s.cfg.cur.gen + ((s.cfg.changes.take (i + 1)).map fun ch => changeSteps s.cfg.base ch.kind - ch.steps).sum

/-- The change in progress is rolled back: GEN_ROLLBACK, which names the abandoned target generation, is written, and the
flip back follows under R162 (R164). -/
def decideRollback (r : Reason) (s : State) : State :=
  match s.cfg.changes.head? with
  | none => s
  | some _ =>
    if s.cfg.rollback.isSome then s
    else
      jAdd (.genRollback (targetGen s 0) (s.cfg.cur.gen + 1) s.cfg.base r) { s with cfg := { s.cfg with rollback := some (r, s.tb.beat.toNat, false) } }

/-! ### The end of an older generation (R162, R210, R317) -/

/-- What only the older generation held is freed: released tables' lift entries and KV tables. -/
def freeOld (s : State) : State :=
  let tableHere (id : Nat) : Bool := s.cfg.cur.tables.any (·.id == id)
  { s with stolon := { s.stolon with lift := s.stolon.lift.filter fun e => tableHere e.table },
           kv := s.kv.filter fun k => s.cfg.cur.kvs.any (·.id == k.id) }

/-- The older live generation ends when no command of it remains. -/
def settleOld (s : State) : State :=
  match s.cfg.old with
  | none => s
  | some o => if s.cmds.any (·.gen == o.gen) then s else freeOld { s with cfg := { s.cfg with old := none } }

/-- A boundary has come before the GEN_COMMIT that names it was committed: the flip position moves to the next one, with a new
GEN_COMMIT (R159). -/
def retimeHead (s : State) : State :=
  if s.cfg.changes.head?.any fun ch => ch.flipAt.any fun x => !x.2 && decide (x.1 ≤ s.tb.beat.toNat) then
    stageHead (onHead (fun ch => { ch with flipAt := none, stepDone := true }) s)
  else s

end Sys2Proof.Machine
end

