-- ==== Sys2Proof/Machine/Timebase.lean ====
section
/-!
DEFINITION. Sys2Proof/Machine/Timebase.lean: the beat tracker and the tick (chapter 3), and the idle step.
-/
namespace Sys2Proof.Machine

/-- Distances of R83 in 1/16 ns: 14.286 ms and 25.000 ms. -/
def edgeMin : Nat := 228576000
/-- See `edgeMin`. -/
def edgeMax : Nat := 400000000
/-- Qualification of an edge: 50 µs (R82). -/
def edgeHold : Nat := 50 * usec

/-- Flag bits of an epoch record (Table 18-8). -/
def efHoldover : Nat := 0
/-- See `efHoldover`. -/
def efStretch : Nat := 1
/-- See `efHoldover`. -/
def efSplit : Nat := 2

/-- A flag of the open epoch and of the open dump interval (R99, Tables 18-8 and 21-6). -/
def markInterval (b : Nat) (s : State) : State :=
  { s with led := { s.led with flags := s.led.flags ||| BitVec.ofNat 16 (2 ^ b) },
           cnt := { s.cnt with dumpFlags := s.cnt.dumpFlags ||| BitVec.ofNat 16 (2 ^ (b + 1)) } }

/-- The tracked period: the last locked one, or the nominal one before the first lock (Table 3-2). -/
def trackedPeriod (t : Tb) : Nat := if t.neverLocked then t.nominal else t.target

/-- The tracked boundary nearest to a time: the start of the current beat or its end, with whether it is the end. A time
in the middle of the beat is nearer to the end, so that the error from it is −T/2 (R94). -/
def nearestBoundary (t : Tb) (at_ : Nat) : Nat × Bool :=
  if 2 * at_ < 2 * t.start + t.length then (t.start, false) else (t.start + t.length, true)

/-- Time from the nearest boundary (R94). -/
def phaseOf (t : Tb) (at_ : Nat) : Int := (at_ : Int) - ((nearestBoundary t at_).1 : Int)

/-- The part of a phase correction that is not applied by the end of the current beat (R90, R95 to R97). -/
def owed (t : Tb) : Int := t.slip.getD 0 + t.stretch.1 + t.nextEpochE.getD 0

/-- Where the edge of the boundary that began the current beat is expected, and that of the boundary that ends it: on the
boundary itself, or off it by the correction still to be applied there (log 12). -/
def expected (t : Tb) : Int × Int :=
  ((t.start : Int) + t.part + owed t, ((t.start + t.length : Nat) : Int) + owed t)

/-- The edge belongs to the boundary that ends the current beat. -/
def edgeOfEnd (t : Tb) (at_ : Nat) : Bool :=
  let (a, b) := expected t
  decide (((at_ : Int) - b).natAbs < ((at_ : Int) - a).natAbs)

/-- An edge lies within ±1 % of the tracked period of the nearest boundary (R88, log 12). -/
def inWindow (t : Tb) (at_ : Nat) : Bool :=
  let (a, b) := expected t
  decide (((at_ : Int) - if edgeOfEnd t at_ then b else a).natAbs * 100 ≤ trackedPeriod t)

/-- An in-window edge is noted for its boundary. -/
def noteEdge (t : Tb) (at_ : Nat) : Tb :=
  let t := { t with lockEdges := min 8 (t.lockEdges + 1), inEdges := (at_ :: t.inEdges).take 3 }
  if edgeOfEnd t at_ then { t with edgeEarly := true } else { t with edgeSeen := true }

/-- An ignored edge is counted in STRAY (Table 3-3). -/
def strayEdge (t : Tb) : Tb := { t with stray := sat16 t.stray }

/-- The periods of a run whose newest crossing comes first. -/
def runPeriods : List Nat → List Nat
  | a :: b :: rest => (a - b) :: runPeriods (b :: rest)
  | _ => []

/-- Every period of a run differs from their mean by at most 0.1 % (R87). -/
def runPasses (run : List Nat) : Bool :=
  let ps := runPeriods run
  let n := ps.length
  let sum := ps.sum
  ps.all fun p => decide (((p * n : Nat) - (sum : Int)).natAbs * 1000 ≤ sum)

/-- The correction `e` is spread over the `r` beats that begin after the lock edge, if it fits R95 and R98. The
epoch's earlier correction counts whole, also where HOLDOVER abandoned part of it (DESIGN CHOICE, log 145). -/
def stretchFits (s : State) (e : Int) (r : Nat) : Bool :=
  let t := trackedPeriod s.tb
  decide (0 < r) && decide (e.natAbs * 100 ≤ r * t)
    && (s.tb.epochE == 0 || decide ((s.tb.epochE + e).natAbs * 100 ≤ s.image.epochBeats * t))

/-- The epoch is stretched or shrunk by `e` over `r` beats (R95). -/
def stretchEpoch (e : Int) (r : Nat) (s : State) : State :=
  markInterval efStretch
    { s with tb := { s.tb with stretch := (e, r), epochE := s.tb.epochE + e, stretchEv := true } }

/-- The epoch is to be split at the next boundary, which begins a slip beat of length T + e (R96). -/
def splitEpoch (e : Int) (s : State) : State :=
  markInterval efSplit { s with tb := { s.tb with slip := some e, splitDue := true, splitEv := true, stretch := (0, 0) } }

/-- What the lock edge's phase error leads to (R90, R94 to R98). In the last beat of an epoch the correction is the next
epoch's, spread over all its beats, or taken in a slip beat at the boundary on which it opens (R97). -/
def reacquire (e : Int) (s : State) : State :=
  if !s.led.isOpen then { s with tb := { s.tb with slip := some e } }
  else
    let r := s.led.beatsLeft - 1
    if r = 0 then
      (if decide (e.natAbs * 100 ≤ s.image.epochBeats * trackedPeriod s.tb) then
        { s with tb := { s.tb with nextEpochE := some e, stretch := (0, 0) } }
      else splitEpoch e s)
    else if stretchFits s e r then stretchEpoch e r s
    else splitEpoch e s

/-- The tracker locks at an edge (R87): the phase error is measured and its correction chosen. CTL_TB_PHASE takes the error
in whole ns; that a fraction is dropped towards minus infinity is the model's choice (DESIGN CHOICE, log 114). The boundary
that began the current beat passed before the lock, so it is not judged (R92). -/
def lockAt (at_ : Nat) (s : State) : State :=
  let e := phaseOf s.tb at_
  reacquire e
    { s with tb := { s.tb with trk := .locked, neverLocked := false, target := trackedPeriod s.tb, run := [],
                               phase := BitVec.ofInt 32 (e / 16), edgeSeen := true,
                               edgeEarly := (nearestBoundary s.tb at_).2, holdBeats := 0, lockEdges := 0,
                               inEdges := (at_ :: s.tb.run).take 3 } }

/-- A used edge in ACQUIRE extends the run, completes it, or begins a new one (R87, R114). -/
def acquireEdge (at_ : Nat) (period : Bool) (s : State) : State :=
  let run := at_ :: s.tb.run
  if s.tb.run.isEmpty || !period || !runPasses run then { s with tb := { s.tb with run := [at_] } }
  else if run.length < 8 then { s with tb := { s.tb with run := run } }
  else lockAt at_ s

/-- The first edge used after HOLDOVER was entered returns the tracker to LOCKED when it is in-window for the boundary
that begins the second or third holdover beat; otherwise it begins a run (R93). The boundary that began the current beat
passed in HOLDOVER, so it is not judged (R92). -/
def holdoverEdge (at_ : Nat) (s : State) : State :=
  let t := s.tb
  let n := t.holdBeats + if edgeOfEnd t at_ then 1 else 0
  if !t.neverLocked && t.firstEdgeDue && inWindow t at_ && (n == 2 || n == 3) then
    { s with tb := noteEdge { t with trk := .locked, firstEdgeDue := false, holdBeats := 0, edgeSeen := true, lockEdges := 0,
                                     inEdges := [] } at_ }
  else { s with tb := { t with trk := .acquire, firstEdgeDue := false, run := [at_] } }

/-- A used edge, with whether its distance is a period (R83, R88, R92, R93). -/
def useEdge (at_ : Nat) (period : Bool) (s : State) : State :=
  match s.tb.trk with
  | .locked => if inWindow s.tb at_ then { s with tb := noteEdge s.tb at_ } else { s with tb := strayEdge s.tb }
  | .holdover => holdoverEdge at_ s
  | .acquire => acquireEdge at_ period s

/-- BEAT_EDGE: an edge whose crossing lies at `ns` on the control-die clock is recognised (R82, R83). -/
def beatEdge (ns : Nat) (s : State) : State :=
  let at_ := 16 * ns
  let s' := { s with tb := { s.tb with prevEdge := some at_ } }
  match s.tb.prevEdge with
  | none => useEdge at_ false s'
  | some p =>
    if at_ - p < edgeMin then { s' with tb := strayEdge { s'.tb with run := [] } }
    else useEdge at_ (decide (at_ - p ≤ edgeMax)) s'

/-- The edge has been recognised: 50 µs have passed since its crossing, and it comes after the one before it. An epoch that
ends at this tick closes first (R101). -/
def edgeDue (ns : Nat) (s : State) : Bool :=
  s.sys.state != .cold && !epochDue s && decide (16 * ns + edgeHold ≤ clkOf s) &&
    (match s.tb.prevEdge with | none => true | some p => decide (p < 16 * ns))

/-- BEAT_EDGE (R83). -/
def execBeatEdge (ns : Nat) (s : State) : Host.Outcome State Fault Refusal :=
  .next (if edgeDue ns s then beatEdge ns s else s)

/-- No in-window edge came by the end of the window of the boundary that began this beat, whose last crossing takes 50 µs to
be recognised (R82, R92). While a correction runs the window lies where the edge is expected (R110, log 12). -/
def beatLost (s : State) : Bool :=
  s.tb.trk == .locked && !s.tb.edgeSeen
    && decide ((expected s.tb).1 + ((trackedPeriod s.tb / 100 + edgeHold : Nat) : Int) < (clkOf s : Int))

/-- The open QoS window takes in ticks of a beat that is not locked (R99). -/
def markWindow (s : State) : State := { s with qos := { s.qos with hold := true } }

/-- HOLDOVER_ENTRY (R92, R110). -/
def execHoldoverEntry (s : State) : Host.Outcome State Fault Refusal :=
  .next (if beatLost s then
    raiseEvent evBeatLost (source dieC 1) 0
      (markWindow (markInterval efHoldover
        { s with tb := { s.tb with trk := .holdover, held := true, holdEv := true, holdBeats := 1, firstEdgeDue := true, run := [],
                                   stretch := (0, 0), nextEpochE := none } }))
  else s)

/-- A length within ±1 % of another (R872). -/
def boundLength (prev len : Nat) : Nat := max (prev - prev / 100) (min (prev + prev / 100) len)

/-- The length that a locked beat's is held to: that of the beat before it, or the locked period after a slip beat (R872). -/
def lengthBefore (t : Tb) : Nat := if t.slipped then t.target else t.length

/-- Whether the edge of the boundary that ends the beat now beginning is the next one to come, or the one after it. -/
def edgesAhead (t : Tb) : Nat := if t.edgeEarly then 1 else 2

/-- Where the last edges used put the edge of the boundary that ends the beat now beginning, while the mains keep their
period, or its change from cycle to cycle (R872, log 29). -/
def edgeAhead (t : Tb) : Option Int :=
  let k : Int := edgesAhead t
  match t.inEdges with
  | a :: b :: c :: _ =>
    let p : Int := (a : Int) - b
    some (a + k * p + k * (k + 1) / 2 * (p - ((b : Int) - c)))
  | [a, b] => some (a + k * ((a : Int) - b))
  | _ => none

/-- How far from that edge the beat may end: 2 µs from the boundary of the eighth in-window edge after the lock edge on, and
a quarter of the window before it, so that R872's bound on lengths leaves the 2 µs in reach (log 29). -/
def edgeSlack (t : Tb) : Nat := if 8 ≤ t.lockEdges + edgesAhead t then 2 * usec else trackedPeriod t / 400

/-- A length whose end meets that edge, but for the part `off` of a correction that is then still to be applied (R872). -/
def meetEdge (t : Tb) (start : Nat) (off len : Int) : Int :=
  match edgeAhead t with
  | none => len
  | some e => max (e - off - start - edgeSlack t) (min (e - off - start + edgeSlack t) len)

/-- The beat is lengthened or shortened by a stretch, or the stretch goes on (R95). -/
def stretchedBeat (t : Tb) : Bool := (t.stretch.2 != 0 || t.part != 0) && !t.slipped

/-- A correction that the next epoch takes begins with it: it is spread over all its beats (R97). -/
def nextStretch (s : State) : State :=
  match s.tb.nextEpochE with
  | some e =>
    if s.led.isOpen && decide (s.led.beatsLeft ≤ 1) then
      { s with tb := { s.tb with nextEpochE := none, stretch := (e, s.image.epochBeats), epochE := e, stretchEv := true },
               cnt := { s.cnt with dumpFlags := if s.cnt.dumpLeft ≤ 1 then s.cnt.dumpFlags else s.cnt.dumpFlags ||| 4 } }
    else s
  | none => s

/-- Length of the beat that begins at `start`, and the tracker after it is fixed (R84, R90, R95, R96, R117, R872). -/
def nextLength (start : Nat) (s : State) : State :=
  let t := s.tb
  let nominal := if s.imageOk then 16000000000000 / max 1 s.image.beatNom else beat50Hz
  let t := if t.neverLocked then { t with nominal := nominal, target := nominal } else t
  match t.slip with
  | some e =>
    { s with tb := { t with slip := none, length := (trackedPeriod t + e).toNat, part := e, slipped := true } }
  | none =>
    if t.trk == .locked then
      let part : Int := if 0 < t.stretch.2 then t.stretch.1 / t.stretch.2 else 0
      let free := meetEdge t start (owed t - part) (Config.loopLength s.freeCtr t.target + part)
      let len := boundLength (lengthBefore t) free.toNat
      let took : Int := if 0 < t.stretch.2 then part + ((len : Int) - free) else 0
      drew { s with tb := { t with stretch := (t.stretch.1 - took, t.stretch.2 - 1), length := len,
                                   target := ((len : Int) - took).toNat, part := took, slipped := false } }
    else { s with tb := { t with length := trackedPeriod t, part := 0, slipped := false } }

/-- Ticks of one beat (R84). -/
def ticksPerBeat : Nat := 65536

/-- Every die's tick counter passes an edge: counters of TICKS count it (Table 21-4). -/
def tallyTick (c : Cnt) : Cnt :=
  let g := bankTally 0x002 1 .none
  { c with slice := c.slice.map g, core := c.core.map g, bridge := c.bridge.map g, control := g c.control }

/-- Draws that a latch sets aside: one for each counter. -/
def latchDraws : Nat := 2048

/-- Every die latches its counters at this edge, before anything that the edge itself counts (R804). -/
def takeLatch (s : State) : State :=
  let l : Latch := { pos := posOf s, slice := s.cnt.slice, core := s.cnt.core, bridge := s.cnt.bridge,
                     control := s.cnt.control, funcs := s.funcs.map fun F => F.cnt, draw := s.freeCtr }
  { s with cnt := { s.cnt with latch := some l }, freeCtr := s.freeCtr + latchDraws }

/-- This edge is a latch tick: a dump interval closes, or a COUNTER_SNAP has come to its eighth edge (R804, R811). -/
def latchDue (s : State) : Bool :=
  inService s && ((s.tb.tick == 0 && s.cnt.dumpLeft == 0) || s.cmds.any (·.edges == 1))

/-- Usage of a class at the start of a window: only its commands in flight go on (R622). -/
def newUse (u : ClassUse) : ClassUse :=
  { used := Vector.replicate 5 0, n := u.n, peak := u.n, area := 0, low := Vector.replicate 5 .guaranteed, drops := 0,
    relabel := 0 }

/-- This edge ends a QoS window (R101, R104). -/
def windowEnds (s : State) : Bool := inService s && s.tb.tick.toNat % 4096 == 0

/-- A QoS window ends at this edge: what it used is set aside for QOS_WINDOW_CLOSE, and what follows counts in the next
window (R101, R614). -/
def cutWindow (s : State) : State :=
  { s with qos := { s.qos with closing := s.qos.usage, closingHold := s.qos.hold, usage := s.qos.usage.map newUse,
                               hold := s.tb.held },
           stolon := { s.stolon with windowBytes := 0 } }

/-- A tick edge passes: a QoS window that ends is cut, admissions of the tick are counted anew, commands in flight are
summed for the QoS mean, and a COUNTER_SNAP waits for one edge less (R811, Table 16-7). -/
def tickEdge (s : State) : State :=
  let s := if latchDue s then takeLatch s else s
  let s := if windowEnds s then cutWindow s else s
  { s with brg := s.brg.map fun b => { b with admits := 0 },
           qos := { s.qos with usage := s.qos.usage.map fun u => { u with area := u.area + u.n } },
           cnt := tallyTick s.cnt,
           cmds := s.cmds.map fun c => { c with edges := c.edges - 1 } }

/-- Counts kept for one beat start again (R757, Table 17-3). -/
def newBeatCounts (s : State) : State :=
  { s with slices := s.slices.map fun k => { k with ueBeat := Vector.replicate 16 0 },
           dimms := s.dimms.map fun d => { d with ueBeat := 0 },
           cxl := s.cxl.map fun d => { d with ueBeat := 0 } }

/-- The beat that begins is no locked one: the interval that goes on through this boundary is flagged HOLDOVER; one that
opens here is flagged as it opens (R99). -/
def markOpen (s : State) : State :=
  { s with led := { s.led with flags := if s.led.beatsLeft = 0 then s.led.flags else s.led.flags ||| 1 },
           cnt := { s.cnt with dumpFlags := if s.cnt.dumpLeft = 0 then s.cnt.dumpFlags else s.cnt.dumpFlags ||| 2 } }

/-- The load counts of a shard are set aside at the end of a beat, and those of the next beat start (R101, R302). -/
def cutLoad (sh : Shard) : Shard := { sh with closing := sh.load, load := [] }

/-- The load counts of every shard, the atom counts of every channel and HITS are cut at the boundary (R101, R304, Table
5-6). -/
def cutLoads (s : State) : State :=
  let g (c : Cfg) : Cfg := { c with tables := c.tables.map fun t => { t with shards := t.shards.map cutLoad } }
  if inService s then
    { s with cfg := { s.cfg with cur := g s.cfg.cur, old := s.cfg.old.map g, base := g s.cfg.base },
             slices := s.slices.map fun S => { S with chLatch := S.chNow, chNow := Vector.replicate 16 0 },
             stolon := { s.stolon with lift := s.stolon.lift.map fun e => { e with hits := 0 } } }
  else s

/-- BEAT_BOUNDARY: the beat number advances, the tick returns to 0, the new beat's length is fixed, a flip that is
ready takes this boundary, and an epoch that ends here is cut (R50, R85, R106, R159). -/
def beatBoundary (s : State) : State :=
  let t := s.tb
  let start := t.start + t.length
  let s := nextLength start (nextStretch s)
  let s := { s with tb := { s.tb with start := start, beat := t.beat + 1, tick := 0, held := t.trk != .locked,
                                      edgeSeen := t.edgeEarly, edgeEarly := false,
                                      holdBeats := if t.trk == .holdover then t.holdBeats + 1 else t.holdBeats,
                                      history := ({ beat := t.beat + 1, start := start } :: t.history).take 64,
                                      period := BitVec.ofNat 32 s.tb.length },
                    led := { s.led with beatsLeft := if t.splitDue then 0 else s.led.beatsLeft - 1 },
                    cnt := { s.cnt with dumpLeft := s.cnt.dumpLeft - 1 } }
  let s := if t.trk == .locked then s else markOpen s
  let s := { s with cfg := { s.cfg with flipNow := flipReady s } }
  let s := if inService s then retimeHead s else s
  newBeatCounts (tickEdge (cutLoads (if epochDue s && s.led.cut.isNone then takeCut s else s)))

/-- BEAT_BOUNDARY is due at the end of the beat's last tick (R85, log 1). -/
def execBeatBoundary (s : State) : Host.Outcome State Fault Refusal :=
  .next (if s.sys.state != .cold && s.tb.tick == 0xFFFF then beatBoundary s else s)

/-- One tick passes on an empty queue (log 1); the last tick of a beat ends with BEAT_BOUNDARY. -/
def idleTick (s : State) : State :=
  if s.sys.state == .cold || s.tb.tick == 0xFFFF then s
  else tickEdge { s with tb := { s.tb with tick := s.tb.tick + 1 } }

end Sys2Proof.Machine
end

