-- ==== Sys2Proof/Machine/Ledger.lean ====
section
/-!
DEFINITION. Sys2Proof/Machine/Ledger.lean: the meter, energy accounts, receipts, epoch figures, trees and records
(chapter 18).
-/
namespace Sys2Proof.Machine

/-! ### The meter (section 18.1) -/

/-- Samples in a millisecond. -/
def msSamples : Nat := 1000
/-- Samples in 10 ms, after which METER_FAULT is due (R705). -/
def faultSamples : Nat := 10000

/-- A whole millisecond of samples has come: POWER_MW, VIN, the epoch's peak, and the governor's work (R734, R735,
Tables 18-2 and 19-9). -/
def closeMs (s : State) : State :=
  let (_, pj, mv, _) := s.led.msAcc
  let mw := pj / 1000000
  let p := s.pmc
  { s with led := { s.led with powerMw := BitVec.ofNat 32 mw, msAcc := (0, 0, 0, 0),
                               peakMw := max s.led.peakMw mw },
           pmc := { p with vin := BitVec.ofNat 16 (mv / msSamples / 10), meanDue := true,
                           lowPower := p.lowPower && decide (mw ≤ 2300000),
                           limitMs := if p.fPwr = 512 ∧ 2500000 < mw then (if p.limitMs < 100 then p.limitMs + 1 else p.limitMs) else 0 } }

/-- One sample is added: millivolts, milliamperes; pJ over its microsecond (R677). -/
def addSample (mv ma : Nat) (good : Bool) (s : State) : State :=
  let l := s.led
  let pj := mv * ma
  let frac := l.fracPj + pj
  let (n, sp, sv, sg) := l.msAcc
  let l := { l with meterPj := l.meterPj + pj, fracPj := frac % 1000, energy := l.energy + BitVec.ofNat 64 (frac / 1000),
                    msAcc := (n + 1, sp + pj, sv + mv, sg + b2n good),
                    rangeEv := l.rangeEv || decide (mv < 40000 ∨ 60000 < mv ∨ 2750000000 < pj) }
  let s := { s with led := l }
  if n + 1 < msSamples then s else closeMs s

/-- METER_SAMPLE: a good sample, or a gap sample that takes the previous good one (R677, R678); LIVE falls once a millisecond
has brought no good one (Table 18-2). -/
def meterSample (mv ma : Nat) (good : Bool) (s : State) : State :=
  if good then
    addSample mv ma true { s with led := { s.led with lastSample := (mv, ma), sinceGood := 0, live := true } }
  else
    let l := s.led
    addSample l.lastSample.1 l.lastSample.2 false
      { s with led := { l with gapEv := true, gaps := sat16 l.gaps, epochGaps := l.epochGaps + 1,
                               live := l.live && decide (l.sinceGood + 1 < msSamples),
                               sinceGood := if l.sinceGood < faultSamples then l.sinceGood + 1 else l.sinceGood } }

/-- METER_SAMPLE (R677). -/
def execMeterSample (mv ma : Nat) (good : Bool) (s : State) : Host.Outcome State Fault Refusal :=
  .next (if s.sys.state != .cold then meterSample mv ma good s else s)

/-- No good sample for 10 ms, not yet reported. -/
def meterFaultDue (s : State) : Bool := s.sys.state != .cold && s.led.sinceGood == faultSamples

/-- METER_FAULT (R705): the event is raised once for a gap. -/
def execMeterFault (s : State) : Host.Outcome State Fault Refusal :=
  .next (if meterFaultDue s then
    raiseEvent evMeterFault (source dieC 2) 0 { s with led := { s.led with sinceGood := faultSamples + 1 } }
  else s)

/-! ### Receipts (section 18.3) -/

/-- Largest ENERGY of a receipt. -/
def energyMax : Nat := 2 ^ 40 - 1

/-- SEQ of a full sequence (R686). -/
def seqOf (q : Nat) : Nat := (q - 1) % (2 ^ 40 - 1) + 1

/-- The receipt of a command whose accumulator has been cut (R684 to R686, Table 18-4). -/
def receiptOf (s : State) (c : Cmd) : Receipt :=
  let nj := c.energy / njUnit
  let e := min energyMax nj
  let q := (vat s.funcs c.func).seq
  let v := put (seqOf q) 0 40 + put e 40 40 + put c.func 80 6 + put c.cls 86 4 + flag (decide (c.pos < epochStart s)) 90
    + flag (degradedNow s) 91 + flag (decide (energyMax < nj)) 92 + put c.gen 96 32
  { q := q, func := c.func, cls := c.cls, energy := e, bytes := leBytes 16 v }

/-- A receipt is bound into the open epoch: the function's sequence advances, and the excess of a saturated energy goes
to the house (R684, R686, R695). -/
def bindReceipt (c : Cmd) (s : State) : State :=
  let r := receiptOf s c
  let s := toHouse ((c.energy / njUnit - energyMax) * njUnit) s
  onFunc c.func (fun F => { F with seq := F.seq + 1 }) { s with led := { s.led with receipts := r :: s.led.receipts } }

/-! ### Trees (section 18.8) -/

/-- A leaf of a subtree. -/
def receiptLeaf (r : Receipt) : List Byte := sha256 (0x00 :: r.bytes)

/-- The largest power of two below `n`, for n of 2 or more. -/
def splitPoint (n : Nat) : Nat := 2 ^ Nat.log2 (n - 1)

/-- The Merkle tree over a list of leaves, with enough fuel (R695). -/
def merkle : Nat → List (List Byte) → List Byte
  | _, [] => zeros 32
  | _, [x] => x
  | 0, x :: _ => x
  | f + 1, xs => sha256 (0x01 :: (merkle f (xs.take (splitPoint xs.length)) ++ merkle f (xs.drop (splitPoint xs.length))))

/-- The receipts of a function in ascending sequence. -/
def receiptsOf (s : State) (f : Nat) : List Receipt := (s.led.receipts.filter (·.func == f)).reverse

/-- SUBTREE_ROOT (R695). -/
def subtreeRoot (rs : List Receipt) : List Byte := merkle 64 (rs.map receiptLeaf)

/-- Adjacent nodes joined. -/
def joinPairs : List (List Byte) → List (List Byte)
  | a :: b :: xs => sha256 (0x03 :: (a ++ b)) :: joinPairs xs
  | xs => xs

/-- The levels of the epoch tree from its 64 leaves upwards (R697). -/
def epochLevels (summaries : List (List Byte)) : List (List (List Byte)) :=
  let l0 := summaries.map fun x => sha256 (0x02 :: x)
  let l1 := joinPairs l0
  let l2 := joinPairs l1
  let l3 := joinPairs l2
  let l4 := joinPairs l3
  let l5 := joinPairs l4
  [l0, l1, l2, l3, l4, l5, joinPairs l5]

/-- EPOCH_ROOT (R697). -/
def epochRoot (summaries : List (List Byte)) : List Byte := nth (nth (epochLevels summaries) 6 []) 0 []

/-- The audit path of a function (R697). -/
def auditPath (summaries : List (List Byte)) (f : Nat) : List Byte :=
  let ls := epochLevels summaries
  ((List.range 6).map fun i =>
    let k := f / 2 ^ i
    nth (nth ls i []) (if k % 2 = 0 then k + 1 else k - 1) []).flatten

/-! ### Epoch figures (sections 18.4 to 18.6) -/

/-- The figures of Table 18-5 and those that follow from them. -/
structure Figures where
  m : Nat
  cin : Nat
  cout : Nat
  r : Nat
  h : Nat
  p : Int
  leak : Nat
  deriving DecidableEq, Repr

/-- ENERGY of receipts of a class, and of a function in it. -/
def classEnergy (s : State) (c : Nat) : Nat := ((s.led.receipts.filter (·.cls == c)).map (·.energy)).sum
/-- See `classEnergy`. -/
def funcEnergy (s : State) (f c : Nat) : Nat :=
  ((s.led.receipts.filter fun r => r.cls == c && r.func == f).map (·.energy)).sum

/-- FUNC_MAP enables the function. -/
def funcEnabled (s : State) (f : Nat) : Bool := (nth s.image.funcs f (false, 0)).1

/-- Weight of a class under the policy of the epoch (Table 18-6). -/
def classWeight (s : State) (c : Nat) : Nat :=
  match (ledgerOf s).policy with
  | .reservation => vat s.qos.weights c
  | .usage => classEnergy s c
  | .house => 0

/-- P′, what the policy divides (R690, R691 step 1). -/
def divided (s : State) (p : Int) : Nat := p.toNat - p.toNat * (ledgerOf s).housePpm / 1000000

/-- S_c (R691 step 2). -/
def classShare (s : State) (p : Int) (c : Nat) : Nat :=
  let w := ((List.range 16).map (classWeight s)).sum
  if w = 0 then 0 else divided s p * classWeight s c / w

/-- Functions that a class is open to (R691 step 3). -/
def openTo (s : State) (c : Nat) : List Nat :=
  (List.range 64).filter fun f => funcEnabled s f && classPermits s f c

/-- What function `f` takes of class `c`'s share (R691 step 3). -/
def funcShare (s : State) (p : Int) (f c : Nat) : Nat :=
  let sc := classShare s p c
  let e := classEnergy s c
  if e ≠ 0 then sc * funcEnergy s f c / e
  else if (openTo s c).contains f then sc / (openTo s c).length else 0

/-- STATIC of a function (R692). -/
def funcStatic (s : State) (p : Int) (f : Nat) : Nat := ((List.range 16).map (funcShare s p f)).sum

/-- On-time of a domain in the epoch, ns. -/
def onNs (s : State) (d : Nat) : Nat :=
  let x := vat s.pmc.domains d
  (x.onTime + if x.on then clkOf s - x.since else 0) / 16

/-- The on-time of every domain counts anew (R693). -/
def restartOnTime (s : State) : Pmc :=
  { s.pmc with domains := s.pmc.domains.map fun d => { d with onTime := 0, since := clkOf s } }

/-- The leakage model L (R693). -/
def leakModel (s : State) : Nat :=
  ((List.range 332).map fun d => (nth (ledgerOf s).domains d (0, 0)).2 * onNs s d / 1000).sum

/-- The state with what the epoch that closes has gathered. -/
def atCut (k : EpochCut) (s : State) : State :=
  { s with led := { s.led with meterPj := k.meterPj, epochGaps := k.gaps, peakMw := k.peakMw, receipts := k.receipts,
                               resets := k.resets } }

/-- The figures of an epoch that has been cut (Table 18-5). -/
def figures (k : EpochCut) (s : State) : Figures :=
  let first := s.led.flags.getLsbD 8
  let m := s.led.meterPj / 1000
  let cin := s.led.carryIn
  let r := (s.led.receipts.map (·.energy)).sum
  let h := k.house + if first then cin else 0
  let cout := (k.open_.map (·.2)).sum
  { m := m, cin := cin, cout := cout, r := r, h := h, p := (m + cin : Nat) - ((r + h + cout : Nat) : Int),
    leak := leakModel s }

/-- The recalibrated gain and whether the clamp acted (R694). -/
def nextGain (s : State) (g : Figures) (gapOrHalt : Bool) : Nat × Bool :=
  let old := s.led.gain.toNat
  let d : Int := (g.r + g.h + g.cout : Nat) - (g.cin : Int)
  let ml : Int := (g.m : Int) - g.leak
  if 0 < d ∧ 0 < ml ∧ gapOrHalt = false then
    let raw := old * ml.toNat / d.toNat
    let cl := max 32768 (min 131072 raw)
    ((old + cl) / 2, decide (cl ≠ raw))
  else (old, false)

/-- RESIDUAL_PPM (R693). -/
def residualPpm (g : Figures) : Int :=
  if g.m = 0 then 0 else ((g.p - g.leak) * 1000000).tdiv g.m

/-- The residual exceeds the tolerance (R693). -/
def reconExceeded (s : State) (g : Figures) : Bool :=
  decide ((ledgerOf s).reconPpm * g.m < (g.p - g.leak).natAbs * 1000000)

/-- A signed number in `n` bytes, two's complement. -/
def leInt (n : Nat) (x : Int) : List Byte := leBytes n (x % (2 ^ (8 * n) : Nat)).toNat

/-- A function summary (Table 18-7), with its salt. -/
def summaryOf (s : State) (p : Int) (salt : BitVec 128) (f : Nat) : List Byte :=
  let rs := receiptsOf s f
  let firstQ := (rs.head?.map (·.q)).getD 0
  let lastQ := (rs.getLast?.map (·.q)).getD 0
  leBytes 1 f ++ leBytes 1 (flag (funcEnabled s f) 0 + flag (s.led.resets.getLsbD f) 1) ++ zeros 6
    ++ leBytes 8 s.led.epoch ++ leBytes 8 rs.length ++ leBytes 8 firstQ ++ leBytes 8 lastQ
    ++ leBytes 8 ((rs.map (·.energy)).sum) ++ leBytes 8 (if 0 < p then funcStatic s p f else 0) ++ zeros 8
    ++ leBytes 16 salt.toNat ++ subtreeRoot rs

/-- Time of a moment of the control-die clock under the anchor in force, in ns; 0 without an anchor (R108, R109). -/
def facilityTime (s : State) (clk : Nat) : Nat :=
  match s.tb.anchor with
  | none => 0
  | some a => ((a.time.toNat : Int) + ((clk : Int) - a.start) / 16).toNat

/-- Codes of the static policies (Table 18-3). -/
def policyCode : Policy → Nat
  | .reservation => 0 | .usage => 1 | .house => 2

/-- Flag bits of an epoch record beyond those gathered while it is open (Table 18-8). -/
def closeFlags (s : State) (k : EpochCut) (g : Figures) (halt clamp : Bool) : Nat :=
  s.led.flags.toNat % 8 + flag halt 3 + flag k.degraded 4 + flag (reconExceeded s g) 5
    + flag (decide (1000 < s.led.epochGaps)) 6 + flag (s.led.flags.getLsbD 8) 8 + flag clamp 9 + flag (decide (g.p ≤ 0)) 10

/-- The record's bytes up to PREV_DIGEST, and from EPOCH_ROOT to the signature (Table 18-8); CHAIN_BREAK and
PREV_DIGEST are filled in when it is signed. -/
def recordHead (s : State) (k : EpochCut) (g : Figures) (flags gain : Nat) : List Byte :=
  let share (c : Nat) : Nat := if 0 < g.p then classShare s g.p c else 0
  let given := if 0 < g.p then ((List.range 64).map (funcStatic s g.p)).sum else 0
  leBytes 4 0x434F5045 ++ leBytes 2 1 ++ leBytes 2 0x0E17 ++ leBytes 1 s.sys.stepping.toNat
    ++ leBytes 1 k.state ++ leBytes 2 flags ++ leBytes 4 s.sys.bootCount.toNat ++ leBytes 8 s.led.epoch
    ++ leBytes 8 s.led.openPos ++ leBytes 8 (posOf s) ++ leBytes 8 (facilityTime s s.led.openClk)
    ++ leBytes 8 (facilityTime s (clkOf s)) ++ leBytes 4 ((s.tb.anchor.map (·.id.toNat)).getD 0)
    ++ leBytes 4 s.cfg.cur.gen ++ leBytes 8 s.image.version.toNat ++ leBytes 1 (policyCode (ledgerOf s).policy) ++ zeros 3
    ++ leBytes 4 s.led.gain.toNat ++ leBytes 8 g.m ++ leBytes 8 g.cin ++ leBytes 8 g.cout ++ leBytes 8 g.r
    ++ leBytes 8 g.h ++ leInt 8 g.p ++ leInt 8 (g.p - given) ++ leBytes 8 g.leak ++ leInt 4 (residualPpm g)
    ++ leBytes 4 gain ++ leBytes 8 s.led.receipts.length ++ leBytes 4 s.led.peakMw ++ leBytes 4 s.led.epochGaps ++ zeros 8
    ++ ((List.range 16).map fun c => leBytes 8 (share c)).flatten
    ++ ([0, 1, 2, 3, 4].map fun r => leBytes 8 (vat s.qos.shortfall r)).flatten

/-- KEY_ID: the digest of the device's public key (Table 18-8). -/
def keyId : List Byte := sha256 (edPublic Config.deviceSeed)

/-- An epoch that has been cut closes (R689, R696, R697): figures and shares are formed, and the record is put aside for its
signature. `halt` and `early` mark the closes of R31 and R739, which keep the gain. -/
def closeCut (halt early : Bool) (k : EpochCut) (s : State) : State :=
  let v := atCut k s
  let g := figures k v
  let gap := decide (1000 < k.gaps)
  let (gain, clamp) := nextGain v g (gap || early)
  let n := s.freeCtr
  let sums := (List.range 64).map fun f => summaryOf v g.p (Config.freeWord (n + f)) f
  let rec_ : ClosedEpoch :=
    { num := s.led.epoch,
      body := recordHead v k g (closeFlags v k g halt clamp) gain ++ zeros 32 ++ epochRoot sums ++ keyId ++ zeros 8,
      summaries := sums, fails := 0 }
  let s := if gap then raiseEvent evMeterGap (source dieC 2) s.led.epoch s else s
  let s := if reconExceeded v g then
    raiseEvent evRecon (source dieC 2) (residualPpm g % (2 ^ 32 : Nat)).toNat s else s
  { s with freeCtr := n + 64,
           led := { s.led with closed := s.led.closed ++ [rec_], gain := BitVec.ofNat 32 gain, carryIn := g.cout, cut := none,
                               isOpen := false, flags := 0 },
           qos := { s.qos with shortfall := Vector.replicate 5 0, weights := Vector.replicate 16 0 },
           pmc := restartOnTime s }

/-- The open epoch closes: at its end tick what the tick has cut, and early (R31, R739) all that it has gathered. -/
def closeEpoch (halt final : Bool) (s : State) : State :=
  let s := if halt || final then takeCut (undoCut s) else if s.led.cut.isSome then s else takeCut s
  match s.led.cut with
  | some k => closeCut halt (halt || final) k s
  | none => s

/-- The next epoch opens at the current tick (R99, R683, R699). `first` marks the first epoch after BOOT, whose carry-in
is the energy drawn so far (R27). -/
def openEpoch (first : Bool) (s : State) : State :=
  let l := s.led
  let l := if first then { l with carryIn := l.meterPj / 1000, meterPj := 0, house := 0, epochGaps := 0, peakMw := 0,
                                  resets := 0, gain := BitVec.ofNat 32 s.cfg.cur.ledger.initGain }
           else l
  let hold := s.tb.held
  let stretched := !first && stretchedBeat s.tb
  let l := { l with isOpen := true, epoch := l.epoch + 1, openPos := posOf s, openClk := clkOf s,
                    beatsLeft := s.image.epochBeats, cfg := some s.cfg.cur.ledger,
                    flags := BitVec.ofNat 16 (flag hold 0 + flag stretched 1 + flag s.tb.splitDue 2 + flag first 8) }
  { s with led := l, tb := { s.tb with epochE := if stretched then s.tb.epochE else 0, splitDue := false },
           pmc := if first then restartOnTime s else s.pmc }

/-! ### Signing (R700, R701) -/

/-- A record with its chain filled in: PREV_DIGEST, and CHAIN_BREAK when no previous record is known. -/
def chained (s : State) (b : List Byte) : List Byte :=
  let b := patch b 0x158 (s.led.prevDigest.getD (zeros 32))
  if s.led.prevDigest.isSome then b else patch b 0x0A (leBytes 2 (numAt b 0x0A 2 + 0x80))

/-- A record signed over the digest of its first 448 bytes (R700). -/
def signedRecord (s : State) (b : List Byte) : List Byte :=
  let head := fitTo (chained s b) 448
  head ++ edSign Config.deviceSeed (sha256 head)

/-- The oldest closed epoch is signed and goes to the journal; its summaries are kept (R700 to R702). -/
def signEpoch (s : State) : State :=
  match s.led.closed with
  | [] => s
  | e :: rest =>
    let r := signedRecord s e.body
    tally .control 0x405 1 .house <| hashActivity r.length <| jAdd (.epoch r)
      { s with led := { s.led with closed := rest, prevDigest := some (sha256 r),
                                   retained := ((e.num, e.summaries, r) :: s.led.retained).take 256 } }

/-- The summaries of an epoch that gets no record are kept all the same (R702). -/
def keepSummaries (e : ClosedEpoch) (s : State) : State :=
  { s with led := { s.led with retained := ((e.num, e.summaries, []) :: s.led.retained).take 256 } }

/-- EPOCH_CLOSE: the epoch closes at its end tick and the next one opens (R689, R105). -/
def epochTurn (s : State) : State := openEpoch false (closeEpoch false false s)

/-- EPOCH_CLOSE (R689). -/
def execEpochClose (s : State) : Host.Outcome State Fault Refusal :=
  .next (if beforeEpoch s && epochDue s then epochTurn s else s)

end Sys2Proof.Machine
end

