-- ==== Sys2Proof/Machine/Queues.lean ====
section
/-!
DEFINITION. Sys2Proof/Machine/Queues.lean: queue pairs, doorbells, slot fetch, admission and the slot checks
(chapter 14).
-/
namespace Sys2Proof.Machine

/-! ### Functions -/

/-- Modes of a port (Table 13-1). -/
inductive PortMode where
  | host | off | cxl | peer
  deriving DecidableEq, Repr

/-- Mode of port index `p` (R494, R495). -/
def portMode (s : State) (p : Nat) : PortMode :=
  if p < 4 then (if (vat s.funcs (16 * p)).pci.en then .host else .off)
  else if bit s.image.cxl.toNat (p - 4) then .cxl
  else if s.image.reqs.any (·.1 == p) || s.image.zones.any (·.port == p) then .peer
  else .off

/-- A VF above NumVFs, or any VF while VF Enable is clear (section 13.3). -/
def funcAbsent (s : State) (f : Nat) : Bool :=
  let pf := vat s.funcs (f / 16 * 16)
  decide (f % 16 ≠ 0) && (!pf.pci.vfEnable || decide (pf.pci.numVfs < f % 16))

/-- The function is held in reset: a reset in progress, an absent VF, or a function disabled by the steward. -/
def funcInReset (s : State) (f : Nat) : Bool :=
  let F := vat s.funcs f
  F.resetting || F.pci.disabled || funcAbsent s f

/-- From TRAIN on, a register page takes writes (R512, R533). -/
def linksTraining (s : State) : Bool :=
  match s.sys.state with
  | .cold => false | .boot => false | .image => false | _ => true

/-- From link training until RUN or DEGRADED is entered, when most memory requests are dropped (R512). -/
def earlyState (s : State) : Bool :=
  match s.sys.state with
  | .train => true | .replay => true | _ => false

/-- Counter `i` of a function's bank counts `n` (R796, Table 21-2). -/
def countFunc (f i n : Nat) (s : State) : State :=
  onFunc f (fun F => { F with cnt := vupd F.cnt i fun c => BitVec.ofNat 64 ((c.toNat + n) % 2 ^ 48) }) s

/-- A write into a page that no field takes (R855). -/
def countPage (f : Nat) (s : State) : State := countIgnored (pageDie f) (pageBlock f) s

/-! ### Queues -/

/-- The owning function of a queue pair; 64 when unassigned. -/
def funcOfQ (s : State) (q : Nat) : Nat := (vat s.qs q).func.getD 64

/-- QDB_QSTAT.ACTIVE (Table 14-6). -/
def queueActive (Q : Queue) : Bool := Q.en || decide (0 < Q.inflight)

/-- Completion entries written and not handed back: (CQT − HEAD) mod the CQ size (R542). -/
def cqUsed (Q : Queue) : Nat := (Q.cqt + (Q.cqs + 1) - Q.head) % (Q.cqs + 1)

/-- Fetched commands not yet admitted are discarded: no completion, their energy to the house, counted in DISCARD
(R530, R681). -/
def dropFetched (q : Nat) (s : State) : State :=
  let Q := vat s.qs q
  let n := Q.fetched.length
  let s := onQ q (fun Q => { Q with fetched := [] }) s
  if n = 0 then s else drew (toHouse (activityEnergy s s.freeCtr) (countFunc (funcOfQ s q) 7 n s))

/-- The queue's part of an error: ERR, and ERRCODE when ERR read 0 (R528, R534). -/
def noteQueueError (q code : Nat) (s : State) : State :=
  onQ q (fun Q => { Q with err := true, errcode := if Q.err then Q.errcode else BitVec.ofNat 4 code }) s

/-- The QUEUE_ERROR event (Table 20-2). -/
def queueErrorEvent (q code : Nat) (s : State) : State :=
  raiseEvent evQueueError (source (pageDie (funcOfQ s q)) (pageBlock (funcOfQ s q))) (q + 256 * code) s

/-- A CONFIG queue error (R528). -/
def configError (q : Nat) (s : State) : State := queueErrorEvent q 1 (noteQueueError q 1 s)

/-- A queue error other than CONFIG: the queue stops fetching until EN is cleared and set again (R534). -/
def queueError (q code : Nat) (s : State) : State :=
  let s := dropFetched q (noteQueueError q code s)
  let s := onQ q (fun Q => { Q with stopped := true, cqDead := Q.cqDead || code == 6 }) s
  let Q := vat s.qs q
  let s := if Q.ien then raiseMsix (funcOfQ s q) Q.vec s else s
  queueErrorEvent q code s

/-- The configuration that R528 accepts. -/
def configOk (s : State) (q : Nat) (Q : Queue) : Bool :=
  let F := vat s.funcs (funcOfQ s q)
  decide (1 ≤ Q.sqs ∧ 1 ≤ Q.cqs) && (!Q.ien || decide (1 ≤ Q.vec ∧ Q.vec < F.pci.vectors))
    && Q.sqb != 0 && Q.cqb != 0 && Q.inflight == 0

/-- The fields of QDB_QCFG that a write of `v` brings while EN reads 0 (Table 14-5). -/
def qcfgFields (v : Nat) (Q : Queue) : Queue :=
  { Q with sqs := bits v 0 12, cqs := bits v 16 12, vec := bits v 32 11, ien := bit v 49, iall := bit v 50 }

/-- A queue that starts (R528). -/
def startQueue (Q : Queue) : Queue :=
  { Q with en := true, tail := 0, head := 0, sqh := 0, cqt := 0, cph := true, stopped := false, cqDead := false,
           groupFails := 0, rmark := false }

/-- A write that changes EN from 0 to 1 (R528). -/
def queueEnable (q v : Nat) (s : State) : State :=
  let Q := qcfgFields v (vat s.qs q)
  if configOk s q Q then onQ q (fun _ => startQueue Q) s else configError q (onQ q (fun _ => Q) s)

/-- A register write into the page of the queue's function finds the page in service. -/
def pageTakes (s : State) (f : Nat) : Bool := linksTraining s && !funcInReset s f

/-- QUEUE_ENABLE of queue pair `q`, `v` being the value written to QDB_QCFG (R528). -/
def execQueueEnable (q : Fin 256) (v : BitVec 64) (s : State) : Host.Outcome State Fault Refusal :=
  let Q := vat s.qs q.val
  .next (if !linksTraining s || Q.func.isNone || !bit v.toNat 48 || Q.en then s
    else if funcInReset s (funcOfQ s q.val) then countPage (funcOfQ s q.val) s
    else queueEnable q.val v.toNat s)

/-- A write that changes EN from 1 to 0: fetch stops and what is not admitted is discarded; SQS, CQS and VEC take
nothing, which is counted (R529, R530). -/
def queueDisable (q v : Nat) (s : State) : State :=
  let s := countPage (funcOfQ s q) (dropFetched q s)
  onQ q (fun Q => { Q with en := false, ien := bit v 49, iall := bit v 50 }) s

/-- QUEUE_DISABLE of queue pair `q`, `v` being the value written to QDB_QCFG (R530). -/
def execQueueDisable (q : Fin 256) (v : BitVec 64) (s : State) : Host.Outcome State Fault Refusal :=
  let Q := vat s.qs q.val
  .next (if linksTraining s && Q.func.isSome && Q.en && !bit v.toNat 48 && !funcInReset s (funcOfQ s q.val)
    then queueDisable q.val v.toNat s else s)

/-- A write of `v` to QDB_SQT (R531, R534, R866). -/
def tailDoorbell (q v : Nat) (s : State) : State :=
  let Q := vat s.qs q
  let f := funcOfQ s q
  let t := v % 4096
  if funcInReset s f || !Q.en || Q.stopped then countPage f s
  else if Q.sqs < t then queueError q 2 s
  else onQ q (fun Q => { Q with tail := t }) s

/-- SQ_TAIL_DOORBELL (R531). -/
def execSqTailDoorbell (q : Fin 256) (v : BitVec 32) (s : State) : Host.Outcome State Fault Refusal :=
  .next (if linksTraining s && (vat s.qs q.val).func.isSome then tailDoorbell q.val v.toNat s else s)

/-- A HEAD value within the CQ and the cyclic range from the previous HEAD to CQT (R532). -/
def headOk (Q : Queue) (h : Nat) : Bool :=
  decide (h ≤ Q.cqs) && decide ((h + (Q.cqs + 1) - Q.head) % (Q.cqs + 1) ≤ cqUsed Q)

/-- A write of `v` to QDB_CQH (R532, R866). -/
def headDoorbell (q v : Nat) (s : State) : State :=
  let Q := vat s.qs q
  let f := funcOfQ s q
  let h := v % 4096
  if funcInReset s f || !queueActive Q then countPage f s
  else if !headOk Q h then queueError q 3 s
  else onQ q (fun Q => { Q with head := h }) s

/-- CQ_HEAD_DOORBELL (R532). -/
def execCqHeadDoorbell (q : Fin 256) (v : BitVec 32) (s : State) : Host.Outcome State Fault Refusal :=
  .next (if linksTraining s && (vat s.qs q.val).func.isSome then headDoorbell q.val v.toNat s else s)

/-! ### Commands -/

/-- OPCODE of a command (Table 14-8). -/
def opcodeOf (bs : List Byte) : Nat := (byteAt bs 0).toNat
/-- CHAIN's count of chained slots (Table 14-8). -/
def chainOf (bs : List Byte) : Nat := (byteAt bs 1).toNat % 8
/-- TAG (Table 14-8). -/
def tagOf (bs : List Byte) : Nat := numAt bs 2 2
/-- CLASS (Table 14-8). -/
def classOf (bs : List Byte) : Nat := (byteAt bs 4).toNat % 16
/-- CFLAGS.IRQ (Table 14-8). -/
def irqOf (bs : List Byte) : Bool := bit (byteAt bs 5).toNat 0
/-- An `n`-byte field of the parameter area (Table 14-8). -/
def param (bs : List Byte) (off n : Nat) : Nat := numAt bs (0x10 + off) n
/-- The chained slots' payload (R536). -/
def payload (bs : List Byte) : List Byte := bs.drop 64

/-- The opcodes of Table 14-9. -/
def knownOpcode (o : Nat) : Bool :=
  [0x00, 0x10, 0x11, 0x20, 0x21, 0x30, 0x31, 0x32, 0x38, 0x40, 0x41, 0x48, 0x49, 0x50, 0x60, 0x70].contains o

/-- The INLINE flag of an opcode's parameter block, where it has one. -/
def inlineOf (bs : List Byte) : Option Bool :=
  let o := opcodeOf bs
  if o = 0x10 ∨ o = 0x11 ∨ o = 0x20 ∨ o = 0x21 then some (bit (param bs 4 1) 1)
  else if o = 0x30 then some (bit (param bs 5 1) 0)
  else if o = 0x31 ∨ o = 0x32 then some (bit (param bs 2 1) 0)
  else if o = 0x38 then some (bit (param bs 6 1) 0)
  else if o = 0x40 ∨ o = 0x41 then some (param bs 0 1 == 2 && bit (param bs 1 1) 2)
  else none

/-- CHAIN breaks R536 or R568: only a command whose list is INLINE chains slots. -/
def badChain (bs : List Byte) : Bool := chainOf bs != 0 && inlineOf bs != some true

/-- An identity and what goes with a fetched command when it becomes a command in flight. The second part of its stamp is
the number of commands that both bridges have admitted in the tick (R268, DESIGN CHOICE log 118). -/
def newCmd (s : State) (q : Nat) (F : Fetched) (cls : Nat) (shared pip : Bool) : Cmd :=
  { uid := s.nextUid, q := q, func := funcOfQ s q, bytes := F.bytes, gen := s.cfg.cur.gen, pos := posOf s,
    order := ((vat s.brg 0).admits + (vat s.brg 1).admits) * 2 + bridgeOf (funcOfQ s q), cls := cls, shared := shared,
    phase := .working, data := [], wants := [], held := [], fresh := 0, early := [], sent := List.replicate 16 0, arrived := [], far := [],
    done := 0, total := 0, subst := 0, degraded := false, status := 0, detail := 0, checked := false, cutAt := none, waits := [],
    cores := 0, fault := none, edges := 0, attLens := [], kvReads := [], energy := 0, carry := 0, pip := pip, pipNo := s.cnt.pipSeq, fetchPos := F.pos, fetchClk := F.clk,
    stamps := [], lastDies := (0, 0) }

/-- A command's work ends with a status and DETAIL; its completion may be posted. -/
def endCmd (u status detail : Nat) (s : State) : State :=
  onCmd u (fun c => if c.phase == .discarded then c else
    { c with phase := .ended, status := BitVec.ofNat 8 status, detail := BitVec.ofNat 32 detail, wants := [] }) s

/-- A part loss ends a command: the recoveries whose pre-loss set holds it note it (R779). -/
def noteLoss (u : Nat) (s : State) : State :=
  let note (r : Recovery) : Recovery :=
    if r.preLoss.contains u && !r.ended.contains u then { r with ended := u :: r.ended } else r
  { s with recov := { s.recov with active := s.recov.active.map note } }

/-- A command ended by a part loss, with its status and DETAIL (R766, R777). -/
def endLoss (u status detail : Nat) (s : State) : State := endCmd u status detail (noteLoss u s)

/-- A discarded command leaves the device once its work has ended. -/
def commandGone (u : Nat) (s : State) : State := { s with cmds := s.cmds.filter (·.uid != u) }

/-- An opcode check fails: BAD_OPCODE with SOURCE 0x00 (R551). -/
def badOpcode (u code : Nat) (s : State) : State := endCmd u 0x10 code s

/-- A pip stamp of a stage, in ns from the fetch; where within the tick it falls is a free value (R815). -/
def stampAt (s : State) (c : Cmd) : Nat :=
  let tick := s.tb.length / 65536 / 16
  min 0xFFFFFFFE ((clkOf s - c.fetchClk) / 16 + (freeAt s).toNat % (tick + 1))

/-- A tagged command passes a stage: the first time only, or each time for the "last" stages (Table 21-12). -/
def stamp (u stage : Nat) (again : Bool) (s : State) : State :=
  match cmdOf s u with
  | none => s
  | some c =>
    if !c.pip || (!again && c.stamps.any (·.1 == stage)) then s
    else drew (onCmd u (fun x =>
      { x with stamps := (stage, stampAt s c) :: x.stamps.filter (·.1 != stage) }) s)

/-! ### Slot fetch (R539) -/

/-- Slots of the queue covered by TAIL and not fetched. -/
def slotsReady (Q : Queue) : Nat := (Q.tail + (Q.sqs + 1) - Q.sqh) % (Q.sqs + 1)

/-- Slots from the oldest command not admitted up to the fetch point. -/
def slotsAhead (Q : Queue) : Nat := (Q.fetched.map fun F => 1 + chainOf F.bytes).sum

/-- Commands held by a device in HALT for a queue. -/
def heldIn (s : State) (q : Nat) : Nat := (s.cmds.filter (·.q == q)).length

/-- The bridge may fetch on the queue: in RUN or DEGRADED, or in HALT while a completion entry is free (R28, R563). -/
def mayFetch (s : State) (q : Nat) : Bool :=
  let Q := vat s.qs q
  let f := funcOfQ s q
  Q.func.isSome && Q.en && !Q.stopped && !funcInReset s f && portUp s (portOf f) && !(vat s.brg (bridgeOf f)).offline
    && !s.sys.powerFailing
    && (running s || (s.sys.state == .halt && decide (heldIn s q + cqUsed Q ≤ Q.cqs + 1 - 2)))

/-- A command fetched in HALT is held for its DEVICE_HOLD completion (R563). -/
def holdFetched (q : Nat) (F : Fetched) (s : State) : State :=
  let c := newCmd s q F (classOf F.bytes) false false
  { s with nextUid := s.nextUid + 1, cmds := s.cmds ++ [{ c with phase := .ended, status := 0x3F }] }

/-- The reads of `n` slots from the head of a ring, in ring order: those up to the ring's end, and the rest from slot 0 (R536,
R539). -/
def slotReads (Q : Queue) (f n : Nat) : List HostRead :=
  let k := min n (Q.sqs + 1 - Q.sqh)
  let piece (at_ len : Nat) : HostRead := { func := f, addr := Q.sqb.toNat + 64 * at_, len := 64 * len, ats := false }
  piece Q.sqh k :: (if k < n then [piece 0 (n - k)] else [])

/-- The slots of one command have come (R539, R611). -/
def fetchCommand (q : Nat) (bs : List Byte) (s : State) : State :=
  let Q := vat s.qs q
  let b := bridgeOf (funcOfQ s q)
  let F : Fetched := { bytes := fitTo bs (64 * (1 + chainOf bs)), slot := Q.sqh, no := (vat s.brg b).fetches,
                       pos := posOf s, clk := clkOf s }
  let s := onQ q (fun Q => { Q with sqh := (Q.sqh + 1 + chainOf bs) % (Q.sqs + 1) }) s
  let s := onBrg b (fun B => { B with fetches := B.fetches + 1 }) s
  let cl := if classPermits s (funcOfQ s q) (classOf bs) then classOf bs else 15
  let s := tally (.bridge b) 0x300 (1 + chainOf bs) (.cmd (funcOfQ s q) cl)
    ((slotReads Q (funcOfQ s q) (1 + chainOf bs)).foldl (fun s r => hostAsk r s) s)
  if s.sys.state == .halt then holdFetched q F s else onQ q (fun Q => { Q with fetched := Q.fetched ++ [F] }) s

/-- AER's record of an answer: a poisoned TLP received (bit 12), a Completion Timeout (bit 14) (R502, PRESUMED, log 138). -/
def noteReply (f : Nat) (r : HostReply) (s : State) : State :=
  match r with
  | .poisoned => aerError f 12 s
  | .timeout => aerError f 14 s
  | _ => s

/-- An answer that cannot come: a timeout of a function whose Device Control 2 disables it (R502). -/
def timeoutOff (f : Nat) (r : HostReply) (s : State) : Bool := r == .timeout && (vat s.funcs f).pci.ctoOff

/-- SLOT_FETCH's effect: the head command's slots, CHAIN_LONG, or SQ_READ (Table 14-7); a command that TAIL covers in
part stays unfetched (R557). -/
def slotFetch (q : Nat) (r : HostReply) (s : State) : State :=
  let Q := vat s.qs q
  match r with
  | .data bs =>
    let n := 1 + chainOf bs
    if Q.sqs ≤ chainOf bs then queueError q 4 s
    else if slotsReady Q < n ∨ 64 < slotsAhead Q + n ∨ bs.length < 64 * n then s
    else fetchCommand q bs s
  | .granted => s
  | _ => queueError q 5 s

/-- SLOT_FETCH on queue pair `q`: `r` is what the host answered the slot reads with (R539, log 14). -/
def execSlotFetch (q : Fin 256) (r : HostReply) (s : State) : Host.Outcome State Fault Refusal :=
  .next (if mayFetch s q.val && decide (0 < slotsReady (vat s.qs q.val)) && !timeoutOff (funcOfQ s q.val) r s then
      slotFetch q.val r (noteReply (funcOfQ s q.val) r s)
    else s)

/-! ### Admission (R542 to R544) -/

/-- A valid FENCE: its SCOPE is not reserved (R553), and it passes the slot checks of Table 14-10. -/
def validFence (c : Cmd) : Bool := opcodeOf c.bytes == 0x50 && decide (param c.bytes 0 1 ≤ 1) && !badChain c.bytes

/-- A FENCE in flight holds the queue (R554). -/
def fenceHolds (s : State) (q : Nat) : Bool :=
  s.cmds.any fun c => validFence c && c.phase != .discarded && c.status != 0x10
    && (c.q == q || (param c.bytes 0 1 == 1 && c.func == funcOfQ s q))

/-- Queue pairs of a bridge's functions. -/
def queuesOf (s : State) (b : Nat) : List Nat :=
  (List.range 256).filter fun q => (vat s.qs q).func.isSome && bridgeOf (funcOfQ s q) == b

/-- Shared entries of a bridge, and how many are taken (R542). -/
def sharedFree (s : State) (b : Nat) : Nat :=
  2048 - ((queuesOf s b).map fun q => (vat s.qs q).reserve).sum
    - (s.cmds.filter fun c => c.shared && bridgeOf c.func == b).length

/-- In-flight commands of a queue as R542 counts them, the updates that a function reset let run included (R514). -/
def inFlightOf (s : State) (q : Nat) : Nat := (s.cmds.filter (·.q == q)).length

/-- The conditions of R542. -/
def eligible (s : State) (q : Nat) : Bool :=
  let Q := vat s.qs q
  let n := inFlightOf s q
  Q.en && !Q.fetched.isEmpty && !fenceHolds s q && (Q.maxf == 0 || decide (n < Q.maxf))
    && decide (n + cqUsed Q ≤ Q.cqs + 1 - 2)
    && (decide (n < Q.reserve) || decide (0 < sharedFree s (bridgeOf (funcOfQ s q))))

/-- The class that a queue's head command would be admitted under (R611). -/
def headClass (s : State) (q : Nat) : Nat :=
  match (vat s.qs q).fetched with
  | [] => 15
  | F :: _ => if classPermits s (funcOfQ s q) (classOf F.bytes) then classOf F.bytes else 15

/-- Distance of a queue pair in the round that follows the one admitted last (R543). -/
def roundOf (s : State) (b q : Nat) : Nat := (q + 255 - (vat s.brg b).lastQ) % 256

/-- The better of two candidates of R543, or of R621 for an aged admission. -/
def better (s : State) (b : Nat) (aged : Bool) (x y : Nat) : Nat :=
  let no (q : Nat) : Nat := ((vat s.qs q).fetched.head?.map (·.no)).getD 0
  let lv (q : Nat) : Nat := levelCode (commandLevel s (headClass s q))
  if aged then (if no y < no x then y else x)
  else if lv y < lv x then y
  else if lv x < lv y then x
  else if roundOf s b y < roundOf s b x then y else x

/-- The queue whose head command the bridge admits next (R543, R621). -/
def nextQueue (s : State) (b : Nat) : Option Nat :=
  match (queuesOf s b).filter (eligible s) with
  | [] => none
  | q :: qs => some (qs.foldl (better s b (vat s.qos.aged b == 31)) q)

/-- The device admits commands: in RUN or DEGRADED, not while a recovery holds admission, not after POWER_FAIL, and at
a flip tick only after the flip (R161, R739, R760). -/
def mayAdmit (s : State) (b : Nat) : Bool :=
  running s && !s.recov.hold && !s.sys.powerFailing && !(vat s.brg b).offline && !flipDue s

/-- The head command of queue pair `q` has this opcode and is the one its bridge admits next. -/
def admits (s : State) (q : Nat) (isOp : Nat → Bool) : Bool :=
  let b := bridgeOf (funcOfQ s q)
  match (vat s.qs q).fetched with
  | [] => false
  | F :: _ => (vat s.qs q).func.isSome && isOp (opcodeOf F.bytes) && mayAdmit s b && nextQueue s b == some q

/-- A draw of the pip sampler tags the command (R813). -/
def pipDraw (s : State) (b : Nat) : Bool × State :=
  if !(s.cnt.pipSample && s.cnt.pip.en) then (false, s)
  else
    let hit := (freeAt s).toNat % 2 ^ 20 % 2 ^ s.cnt.pipRate == 0
    let n := (s.cmds.filter fun c => c.pip && bridgeOf c.func == b).length
    let s := drew s
    if !hit then (false, s)
    else if n < 16 then (true, { s with cnt := { s.cnt with pipSeq := s.cnt.pipSeq + 1 } })
    else (false, { s with cnt := { s.cnt with pipSkip := min 0xFFF (s.cnt.pipSkip + 1) } })

/-- Commands in flight of a class, as SLOTS counts them. -/
def classCount (s : State) (c : Nat) : Nat := (s.cmds.filter (·.cls == c)).length

/-- The head command of a queue is admitted: stamped, given its class and its entry, counted (R543, R544, R611, R621). -/
def admitHead (q : Nat) (s : State) : State :=
  match (vat s.qs q).fetched with
  | [] => s
  | F :: rest =>
    let f := funcOfQ s q
    let b := bridgeOf f
    let shared := decide ((vat s.qs q).reserve ≤ inFlightOf s q)
    let (cls, s) := relabel f q (tagOf F.bytes) (classOf F.bytes) s
    let (pip, s) := pipDraw s b
    let c := newCmd s q F cls shared pip
    let s := { s with nextUid := s.nextUid + 1, cmds := s.cmds ++ [c],
                      qos := { s.qos with aged := vupd s.qos.aged b fun n => if n = 31 then 0 else n + 1 } }
    let s := onQ q (fun Q => { Q with fetched := rest, inflight := Q.inflight + 1 }) s
    let s := onBrg b (fun B => { B with lastQ := q, admits := B.admits + 1 }) s
    let s := tally (.bridge b) 0x301 1 (.cmd f cls)
      (busActivity (.cmd c.uid) f F.bytes.length (activity (.cmd c.uid) (306 + 10 * b + 8) (F.bytes.length / 32) s))
    stamp c.uid 0 false (countFunc f 0 1 (setSlots cls (classCount s cls) s))

/-- A command with one of the opcodes is admitted from queue pair `q` and started when it passes the slot checks of
Table 14-10. -/
def admitCommand (isOp : Nat → Bool) (q : Nat) (start : Nat → State → State) (s : State) : State :=
  if admits s q isOp then
    let u := s.nextUid
    let s := admitHead q s
    match cmdOf s u with
    | none => s
    | some c =>
      if !knownOpcode (opcodeOf c.bytes) then stamp u 1 false (endCmd u 0x10 0x0101 s)
      else if badChain c.bytes then stamp u 1 false (endCmd u 0x10 0x0102 s)
      else start u s
  else s

/-- NOP from queue pair `q` (R541). -/
def execNop (q : Fin 256) (s : State) : Host.Outcome State Fault Refusal :=
  .next (admitCommand (· == 0x00) q.val (fun u s => stamp u 1 false (endCmd u 0 0 s)) s)

/-- UNKNOWN_OPCODE: a command with a reserved opcode from queue pair `q` (R33, R544). -/
def execUnknownOpcode (q : Fin 256) (s : State) : Host.Outcome State Fault Refusal :=
  .next (admitCommand (fun o => !knownOpcode o) q.val (fun _ s => s) s)

/-! ### FENCE (R553 to R555) -/

/-- The earlier set of a FENCE: the commands of its scope admitted before it and not yet posted. -/
def earlierSet (s : State) (c : Cmd) : List Nat :=
  (s.cmds.filter fun x => x.uid < c.uid && x.phase != .discarded
    && (x.q == c.q || (param c.bytes 0 1 == 1 && x.func == c.func))).map (·.uid)

/-- A FENCE that passes its checks waits for its earlier set. -/
def startFence (u : Nat) (s : State) : State :=
  match cmdOf s u with
  | none => s
  | some c =>
    let s := stamp u 1 false s
    if 1 < param c.bytes 0 1 then badOpcode u 1 s
    else
      let w := earlierSet s c
      if w.isEmpty then endCmd u 0 0 s else onCmd u (fun x => { x with waits := w, checked := true }) s

/-- FENCE from queue pair `q` (R554). -/
def execFence (q : Fin 256) (s : State) : Host.Outcome State Fault Refusal :=
  .next (admitCommand (· == 0x50) q.val startFence s)

/-- A command has been posted: every FENCE waits for one command less, and one that waits for none may be posted. -/
def releaseFences (u : Nat) (s : State) : State :=
  { s with cmds := s.cmds.map fun c =>
      if validFence c && c.waits.contains u then
        let w := c.waits.erase u
        if w.isEmpty && c.phase == .working then { c with waits := w, phase := .ended } else { c with waits := w }
      else c }

/-- DETAIL of a FENCE is fixed when it is posted: the failed commands of its group (R555). -/
def fenceDetail (s : State) (c : Cmd) : Nat := if validFence c then min 0xFFFFFFFF (vat s.qs c.q).groupFails else 0

/-! ### Host data (R501, R502) -/

/-- A command asks the host for data or translations. -/
def askHost (u : Nat) (rs : List HostRead) (s : State) : State :=
  let ats := (rs.filter (·.ats)).length
  let s := match cmdOf s u with
    | none => s
    | some c => tally (.bridge (bridgeOf c.func)) 0x310 ats (.cmd c.func c.cls) s
  let s := rs.foldl (fun s r => hostAsk r s) s
  onCmd u (fun c => { c with wants := c.wants ++ rs, phase := .waitHost }) s

/-- The function translates through ATS. -/
def usesAts (s : State) (f : Nat) : Bool := (vat s.funcs f).pci.atsEn

/-- The translations a command needs for its host ranges before its first access (R501). -/
def translations (s : State) (f : Nat) (rs : List Rng) : List HostRead :=
  if usesAts s f then
    (rs.filter fun r => !r.dev && decide (0 < r.len)).map fun r => { func := f, addr := r.addr, len := r.len, ats := true }
  else []

/-- A read of host memory of a function, directly or through region 0x6. -/
def readOf (f : Nat) (r : Rng) : HostRead :=
  { func := f, addr := if r.dev then (hostOf r.addr).2 else r.addr, len := r.len, ats := false }

/-- A range that is read from the host: a host address, or a device address in region 0x6. -/
def onHost (r : Rng) : Bool := !r.dev || r.addr / 2 ^ 52 == 6

end Sys2Proof.Machine
end

