-- ==== Sys2Proof/Machine/Buffers.lean ====
section
/-!
DEFINITION. Sys2Proof/Machine/Buffers.lean: the buffer pool and the commands BUF_ALLOC and BUF_FREE (section 15.8).
-/
namespace Sys2Proof.Machine

/-- 64 KiB. -/
def granule : Nat := 65536

/-- Granules of the pool. -/
def poolGranules (s : State) : Nat := s.image.carve.poolBytes / granule

/-- A granule range is free: no buffer held or waiting meets it. -/
def rangeFree (s : State) (base n : Nat) : Bool := s.pool.bufs.all fun b => !rangesMeet base n b.base (2 ^ b.k)

/-- The largest free blocks within the block of 2^k granules at `base`, in ascending order (R596). -/
def freeBlocks (s : State) : Nat → Nat → List (Nat × Nat)
  | 0, base => if base + 1 ≤ poolGranules s && rangeFree s base 1 then [(base, 0)] else []
  | k + 1, base =>
    if base + 2 ^ (k + 1) ≤ poolGranules s && rangeFree s base (2 ^ (k + 1)) then [(base, k + 1)]
    else if poolGranules s ≤ base then []
    else freeBlocks s k base ++ freeBlocks s k (base + 2 ^ k)

/-- Every free block of the pool; none while a data slice is lost, since each granule has a stripe on every slice
(R60, R608; log 17). -/
def freeList (s : State) : List (Nat × Nat) :=
  if !(lostData s).isEmpty then []
  else ((List.range (ceilDiv (poolGranules s) (2 ^ 20))).map fun i => freeBlocks s 20 (i * 2 ^ 20)).flatten

/-- The block that a request of 2^k granules takes: the smallest free block large enough, lowest offset first (R596). -/
def pickBlock (s : State) (k : Nat) : Option Nat :=
  let fits := (freeList s).filter fun b => k ≤ b.2
  match fits with
  | [] => none
  | b :: bs => some (bs.foldl (fun x y => if y.2 < x.2 then y else x) b).1

/-- Generation of a granule: 1 until a free raises it (R597). -/
def granuleGen (s : State) (g : Nat) : Nat := ((s.pool.gens.find? (·.1 == g)).map (·.2)).getD 1

/-- Granules that a function holds. -/
def heldGranules (s : State) (f : Nat) : Nat :=
  ((s.pool.bufs.filter fun b => b.func == f && b.freed.isNone).map fun b => 2 ^ b.k).sum

/-- Device address of a granule. -/
def granuleDa (g : Nat) : Nat := regionBase 3 + g * granule

/-- Window-cache lines of function `f` that meet a range of device addresses go without a write-back (R602). -/
def discardLines (f da n : Nat) (s : State) : State :=
  let b := bridgeOf f
  let gone (l : WinLine) : Bool := l.func == f && l.carved.isNone && rangesMeet l.da 512 da n
  let idxs := ((vat s.brg b).lines.filter gone).map (·.idx)
  let locked := ((vat s.brg b).lines.filter fun l => gone l && l.locked).length
  let s := onBrg b (fun B => { B with lines := B.lines.filter fun l => !gone l,
                                      victims := B.victims.filter fun i => !idxs.contains i,
                                      side := B.side.filter fun i => !idxs.contains i }) s
  onFunc f (fun F => { F with win := { F.win with locked := F.win.locked - locked } }) s

/-- A buffer's granules are zeroed: one 4 KiB stripe of each on every data slice (R60, R602). -/
def zeroGranules (base n : Nat) (s : State) : State :=
  (List.range 16).foldl (fun s k => zeroRange (stackDa k (s.image.carve.stripeBase + base * 4096)) (n * 4096) s) s

/-- Buffers freed and waited for no longer are zeroed and rejoin the free list (R602). -/
def settleBuffers (s : State) : State :=
  let (gone, keep) := s.pool.bufs.partition fun b => b.freed == some []
  let s := { s with pool := { s.pool with bufs := keep } }
  gone.foldl (fun s b => zeroGranules b.base (2 ^ b.k) s) s

/-- A command of any function has been posted or discarded: freed buffers wait for it no longer. -/
def releaseBuffers (u : Nat) (s : State) : State :=
  settleBuffers { s with pool := { s.pool with bufs := s.pool.bufs.map fun b =>
    { b with freed := b.freed.map fun us => us.erase u } } }

/-- A buffer is freed: its generation rises, its lines go, and it waits for the owner's commands admitted before
(R597, R602). -/
def freeBuffer (before : List Nat) (b : Buffer) (s : State) : State :=
  let g := granuleGen s b.base
  let s := { s with pool :=
    { bufs := s.pool.bufs.map fun x => if x.base == b.base then { x with freed := some before } else x,
      gens := (b.base, if g = 2 ^ 32 - 1 then 1 else g + 1) :: s.pool.gens.filter (·.1 != b.base) } }
  settleBuffers (discardLines b.func (granuleDa b.base) (granule * 2 ^ b.k) s)

/-- Commands of a function in flight, admitted before command `u`. -/
def earlierOf (s : State) (f u : Nat) : List Nat :=
  (s.cmds.filter fun c => c.func == f && c.uid < u).map (·.uid)

/-- The 16-byte record of a buffer (R598). -/
def bufferRecord (base gen sizeLog2 : Nat) : List Byte :=
  leBytes 8 (granuleDa base) ++ leBytes 4 gen ++ leBytes 1 sizeLog2 ++ zeros 3

/-- BUF_ALLOC once admitted (R598, R600). -/
def startAlloc (u : Nat) (s : State) : State :=
  match cmdOf s u with
  | none => s
  | some c =>
    let s := stamp u 1 false s
    let sz := param c.bytes 0 1
    let res := param c.bytes 8 8
    if sz < 16 ∨ 36 < sz then badOpcode u 2 s
    else if res % 16 ≠ 0 then badOpcode u 3 s
    else
      let k := sz - 16
      if nth s.image.carve.quotas c.func 0 < (heldGranules s c.func + 2 ^ k) * granule then endCmd u 0x15 2 s
      else match pickBlock s k with
      | none => endCmd u 0x15 1 s
      | some base =>
        let b : Buffer := { base := base, k := k, gen := granuleGen s base, func := c.func, q := c.q,
                            fq := bit (param c.bytes 1 1) 0, freed := none }
        let s := zeroGranules base (2 ^ k) { s with pool := { s.pool with bufs := s.pool.bufs ++ [b] } }
        stamp u 10 false (endCmd u 0 base (hostWrite c.func res (bufferRecord base b.gen sz) s))

/-- A failed BUF_FREE is reported to the steward (R601, Table 20-2). -/
def bufMisuse (c : Cmd) (kind : Nat) (s : State) : State :=
  raiseEvent evBufMisuse (source (pageDie c.func) (pageBlock c.func)) (c.q + 256 * kind + 65536 * tagOf c.bytes) s

/-- The first byte of some block of the pool: a multiple of 64 KiB in region 0x3 below the pool's end. -/
def poolHandle (s : State) (da : Nat) : Bool :=
  decide (da / 2 ^ 52 = 3 ∧ da % granule = 0 ∧ da % 2 ^ 52 / granule < poolGranules s)
    && s.pool.bufs.all fun b => !rangesMeet (da % 2 ^ 52 / granule) 1 (b.base + 1) (2 ^ b.k - 1)

/-- BUF_FREE once admitted (R599, R601, R602). -/
def startFree (u : Nat) (s : State) : State :=
  match cmdOf s u with
  | none => s
  | some c =>
    let s := stamp u 1 false s
    let da := param c.bytes 0 8
    let gen := param c.bytes 8 4
    if !poolHandle s da then badOpcode u 1 s
    else match s.pool.bufs.find? fun b => b.base == da % 2 ^ 52 / granule with
    | none => endCmd u 0x14 1 (bufMisuse c 1 s)
    | some b =>
      if b.freed.isSome then endCmd u 0x14 1 (bufMisuse c 1 s)
      else if gen ≠ b.gen then endCmd u 0x14 2 (bufMisuse c 1 s)
      else if c.func ≠ 0 ∧ (c.func ≠ b.func ∨ (c.q ≠ b.q ∧ b.fq = false)) then endCmd u 0x13 0x100 (bufMisuse c 2 s)
      else endCmd u 0 0 (freeBuffer (earlierOf s b.func u) b s)

/-- A buffer command that has not run to its end. -/
def bufOpen (c : Cmd) : Bool :=
  (opcodeOf c.bytes == 0x48 || opcodeOf c.bytes == 0x49) && (c.phase == .working || c.phase == .waitHost)

/-- Buffer commands run in admission order, up to the first that waits for a translation (R596). -/
def pumpBufs (s : State) : State :=
  ((s.cmds.filter bufOpen).foldl (fun (x : Bool × State) c =>
    if x.1 || c.phase == .waitHost then (true, x.2)
    else (false, if opcodeOf c.bytes == 0x48 then startAlloc c.uid x.2 else startFree c.uid x.2)) (false, s)).2

/-- BUF_ALLOC: with ATS the translation of RESULT comes first (R501, R600); buffer commands run one at a time in
admission order (R596). -/
def beginAlloc (u : Nat) (s : State) : State :=
  match cmdOf s u with
  | none => s
  | some c =>
    let ts := translations s c.func [{ dev := false, addr := param c.bytes 8 8, len := 16 }]
    if param c.bytes 0 1 < 16 ∨ 36 < param c.bytes 0 1 ∨ param c.bytes 8 8 % 16 ≠ 0 ∨ ts.isEmpty then pumpBufs s
    else askHost u ts s

/-- BUF_ALLOC from queue pair `q` (R598). -/
def execBufAlloc (q : Fin 256) (s : State) : Host.Outcome State Fault Refusal :=
  .next (admitCommand (· == 0x48) q.val beginAlloc s)

/-- BUF_FREE from queue pair `q` (R599). -/
def execBufFree (q : Fin 256) (s : State) : Host.Outcome State Fault Refusal :=
  .next (admitCommand (· == 0x49) q.val (fun _ s => pumpBufs s) s)

/-- Every buffer of a function is freed as a function reset does (R603). -/
def reclaimBuffers (f : Nat) (s : State) : State :=
  (s.pool.bufs.filter fun b => b.func == f && b.freed.isNone).foldl
    (fun s b => freeBuffer ((s.cmds.filter (·.func == f)).map (·.uid)) b s) s

end Sys2Proof.Machine
end

