-- ==== Sys2Proof/Machine/Copy.lean ====
section
/-!
DEFINITION. Sys2Proof/Machine/Copy.lean: COPY_H2D and COPY_D2H in their LINEAR and LIST forms (section 15.1).
-/
namespace Sys2Proof.Machine

/-! ### The parameter block (Table 15-1, R566) -/

/-- FORM. -/
def copyForm (bs : List Byte) : Nat := param bs 0 1
/-- The command is COPY_H2D. -/
def isH2d (bs : List Byte) : Bool := opcodeOf bs == 0x40
/-- The source is a device address; SRC_DA is reserved in COPY_D2H (R566). -/
def srcDev (bs : List Byte) : Bool := !isH2d bs || bit (param bs 1 1) 0
/-- The destination is a device address; DST_DA is reserved in COPY_H2D (R566). -/
def dstDev (bs : List Byte) : Bool := isH2d bs || bit (param bs 1 1) 1
/-- INLINE. -/
def copyInline (bs : List Byte) : Bool := bit (param bs 1 1) 2
/-- Bytes of the segment list. -/
def segListLen (bs : List Byte) : Nat := 24 * param bs 4 4
/-- The fetched segment list: a device address when SRC_DA is set in COPY_H2D, a host address otherwise (DEDUCED from
R225 and R566, log 23). -/
def segListRange (bs : List Byte) : Rng := ⟨isH2d bs && bit (param bs 1 1) 0, param bs 8 8, segListLen bs⟩

/-- One segment: source, destination and length. -/
structure Seg where
  src : Nat
  dst : Nat
  len : Nat
  deriving DecidableEq, Repr

/-- The segments that a list's bytes spell (R567). -/
def segsOf (list : List Byte) (n : Nat) : List Seg :=
  (List.range n).map fun i => ⟨numAt list (24 * i) 8, numAt list (24 * i + 8) 8, numAt list (24 * i + 16) 8⟩

/-- The segments of a command once its list is known. -/
def copySegs (c : Cmd) : List Seg :=
  if copyForm c.bytes = 2 then segsOf (if copyInline c.bytes then payload c.bytes else c.data) (param c.bytes 4 4)
  else [⟨param c.bytes 8 8, param c.bytes 0x10 8, param c.bytes 0x18 8⟩]

/-- Source range of a segment. -/
def segSrc (bs : List Byte) (g : Seg) : Rng := ⟨srcDev bs, g.src, g.len⟩
/-- Destination range of a segment. -/
def segDst (bs : List Byte) (g : Seg) : Rng := ⟨dstDev bs, g.dst, g.len⟩

/-! ### Checks (Table 15-2) -/

/-- Largest LEN. -/
def maxCopy : Nat := 2 ^ 36

/-- Some pair of the ranges meets. -/
def anyMeet : List Rng → Bool
  | [] => false
  | r :: rs => rs.any (rngMeet r) || anyMeet rs

/-- Step 8: a source meets a destination, or two destinations meet (R567, R878). -/
def copyOverlap (bs : List Byte) (gs : List Seg) : Bool :=
  gs.any (fun g => gs.any fun h => rngMeet (segSrc bs g) (segDst bs h)) || anyMeet (gs.map (segDst bs))

/-- Step 9: the kind and address of the first range that fails Table 2-7. -/
def copyRangeFault (s : State) (c : Cmd) (gs : List Seg) : Option (Nat × Nat) :=
  (gs.flatMap fun g => [(rngKind s c.func false (segSrc c.bytes g), g.src), (rngKind s c.func true (segDst c.bytes g), g.dst)]).find?
    (·.1 != 0)

/-- A recovery still waits for the command: it was in flight at the loss (R760). -/
def inPreLoss (s : State) (u : Nat) : Bool := s.recov.active.any (·.preLoss.contains u)

/-- A command's range failed a check of Table 2-8: captured, and the command ends as R69 lays down; one that was in
flight at a loss ends as Table 20-10 lays down when its range has gone offline. -/
def failRange (u : Nat) (kind da : Nat) (s : State) : State :=
  match cmdOf s u with
  | none => s
  | some c =>
    let (status, detail) := kindStatus kind
    if kind = 9 ∧ inPreLoss s u then endLoss u 0x20 0 s
    else endCmd u status detail (decodeError (.copy c.func) kind da s)

/-- A segment's LEN is out of range (step 5). -/
def badSegLen (g : Seg) : Bool := g.len == 0 || decide (maxCopy < g.len)

/-- The segments of an inline list that lie whole in the chained slots. -/
def inlineSegs (bs : List Byte) : List Seg :=
  if copyForm bs = 2 ∧ copyInline bs = true then
    segsOf (payload bs) (min (param bs 4 4) ((payload bs).length / 24))
  else []

/-- What is known before a list is fetched: steps 1, 5 and 6, with the check code of the first failure. -/
def copyHeadCode (bs : List Byte) : Option Nat :=
  let form := copyForm bs
  if 2 < form ∨ (form = 1 ∧ isH2d bs = false) then some 1
  else if (form = 0 ∧ ¬(1 ≤ param bs 0x18 8 ∧ param bs 0x18 8 ≤ maxCopy)) ∨
      (form = 2 ∧ ¬(1 ≤ param bs 4 4 ∧ param bs 4 4 ≤ 4096)) ∨ (inlineSegs bs).any badSegLen = true then some 2
  else if copyInline bs = true ∧
      (form ≠ 2 ∨ 448 < segListLen bs ∨ chainOf bs ≠ ceilDiv (segListLen bs) 64) then some 3
  else none

/-! ### Moving the bytes (R570, R571) -/

/-- Bytes of one piece. -/
def pieceSize : Nat := 65536

/-- Piece number `i` of a list of segments: source and destination ranges. -/
def pieceAt (bs : List Byte) : List Seg → Nat → Option (Rng × Rng)
  | [], _ => none
  | g :: gs, i =>
    let n := ceilDiv g.len pieceSize
    if i < n then
      let o := i * pieceSize
      let k := min pieceSize (g.len - o)
      some (⟨srcDev bs, g.src + o, k⟩, ⟨dstDev bs, g.dst + o, k⟩)
    else pieceAt bs gs (i - n)

/-- Pieces in all. -/
def pieceCount (gs : List Seg) : Nat := (gs.map fun g => ceilDiv g.len pieceSize).sum

/-- One piece's bytes go to its destination; the piece is dropped, and the command ends with SLICE_LOST, where a unit
it covers in part is poisoned (R651). Host writes have Relaxed Ordering as the function enables it (R570). The Bool says whether it was written. -/
def putPiece (c : Cmd) (dst : Rng) (bs : List Byte) (s : State) : Bool × State :=
  let s := tally (.bridge (bridgeOf c.func)) 0x305 (ceilDiv bs.length 64) (.cmd c.func c.cls) s
  let s := activity (.cmd c.uid) (306 + 10 * bridgeOf c.func + 6) (ceilDiv bs.length 64) s
  let s := if dst.dev then chargeCmd c dst.addr bs.length s else s
  rngWriteRo (vat s.funcs c.func).pci.roEn c dst.dev dst.addr bs s

/-- A piece has been written, or has ended the command. -/
def donePiece (u : Nat) (ok : Bool) (s : State) : State :=
  if ok then onCmd u (fun c => { c with done := c.done + 1 }) s else endCmd u 0x22 0 s

/-- Pieces move in ascending order until one waits for the host (R570). -/
def movePieces (u : Nat) : Nat → State → State
  | 0, s => s
  | n + 1, s =>
    match cmdOf s u with
    | none => s
    | some c =>
      if c.phase == .ended then s
      else match pieceAt c.bytes (copySegs c) c.done with
      | none => stamp u 10 false (endCmd u 0 0 s)
      | some (src, dst) =>
        if onHost src then askHost u [readOf c.func src] s
        else if poisoned s src.addr src.len then endCmd u 0x22 0 s
        else
          let s := chargeCmd c src.addr src.len s
          let (ok, s) := putPiece c dst (daRead s src.addr src.len) s
          movePieces u n (donePiece u ok s)

/-- The copy proceeds from where it stands. -/
def moveCopy (u : Nat) (s : State) : State :=
  match cmdOf s u with
  | none => s
  | some c => movePieces u (c.total - c.done + 1) (onCmd u (fun c => { c with phase := .working }) s)

/-- Step 7: a fetched segment list breaks R225. -/
def badListAddr (bs : List Byte) : Bool :=
  copyForm bs == 2 && !copyInline bs && decide ((segListRange bs).addr % 8 ≠ 0)

/-- Segments known: steps 5, 7, 8 and 9, then the translations, then the move (Table 15-2, R501). -/
def checkSegs (u : Nat) (s : State) : State :=
  match cmdOf s u with
  | none => s
  | some c =>
    let gs := copySegs c
    if gs.any badSegLen then badOpcode u 2 s
    else if badListAddr c.bytes then badOpcode u 4 s
    else if copyOverlap c.bytes gs then badOpcode u 5 s
    else match copyRangeFault s c gs with
    | some (k, da) => failRange u k da s
    | none =>
      let s := stamp u 1 false (onCmd u (fun c => { c with total := pieceCount gs, checked := true }) s)
      let ts := translations s c.func (gs.flatMap fun g => [segSrc c.bytes g, segDst c.bytes g])
      if ts.isEmpty then moveCopy u s else askHost u ts s

/-- A list is read once: from the host, or from device memory, where poison ends the command (R226, R650). -/
def fetchList (u : Nat) (r : Rng) (next : State → State) (s : State) : State :=
  match cmdOf s u with
  | none => s
  | some c =>
    if onHost r then askHost u (translations s c.func [r] ++ [readOf c.func r]) s
    else if poisoned s r.addr r.len then endCmd u 0x22 0 s
    else next (onCmd u (fun x => { x with data := daRead s r.addr r.len }) (chargeCmd c r.addr r.len s))

/-- A copy once admitted (R565 to R570). A fetched segment list is read even from a LIST_ADDR that step 7 refuses, since
step 5 checks its LENs first; where the list's own range fails it cannot be read (log 106). -/
def startCopy (u : Nat) (s : State) : State :=
  match cmdOf s u with
  | none => s
  | some c =>
    match copyHeadCode c.bytes with
    | some code => stamp u 1 false (badOpcode u code s)
    | none =>
      if copyForm c.bytes = 2 ∧ copyInline c.bytes = false then
        let r := segListRange c.bytes
        let k := rngKind s c.func false r
        if k = 0 then fetchList u r (checkSegs u) s
        else if badListAddr c.bytes then badOpcode u 4 s
        else failRange u k r.addr s
      else checkSegs u s

/-- Host data, or the last translation, has come for a copy: its list before the checks, a piece after them. -/
def copyHost (u : Nat) (data : Option (List Byte)) (s : State) : State :=
  match cmdOf s u with
  | none => s
  | some c =>
    match data with
    | none => if c.checked then moveCopy u s else s
    | some bs =>
      if !c.checked then checkSegs u (onCmd u (fun c => { c with data := bs, phase := .working }) s)
      else match pieceAt c.bytes (copySegs c) c.done with
      | none => s
      | some (_, dst) =>
        let (ok, s) := putPiece c dst bs s
        if ok then moveCopy u (donePiece u ok s) else donePiece u ok s

/-- FORM of a queue's head command. -/
def headForm (s : State) (q : Nat) : Nat :=
  match (vat s.qs q).fetched with
  | F :: _ => copyForm F.bytes
  | [] => 0

/-- COPY_H2D from queue pair `q`, in any form but the table-load form, which is the row TABLE_LOAD (R570). -/
def execCopyH2d (q : Fin 256) (s : State) : Host.Outcome State Fault Refusal :=
  .next (if headForm s q.val = 1 then s else admitCommand (· == 0x40) q.val startCopy s)

/-- COPY_D2H from queue pair `q` (R570). -/
def execCopyD2h (q : Fin 256) (s : State) : Host.Outcome State Fault Refusal :=
  .next (admitCommand (· == 0x41) q.val startCopy s)

end Sys2Proof.Machine
end

