-- ==== Sys2Proof/Machine/Accum.lean ====
section
/-!
DEFINITION. Sys2Proof/Machine/Accum.lean: the accumulation array: A20, steps, promotion, tiles, slot images, drains and
row statistics (chapter 11).
-/
namespace Sys2Proof.Machine

/-! ### A20 and one cell (R409 to R411, R420 to R422) -/

/-- A20F (Table 11-2). -/
def layA20 : Layout := { eb := 8, mb := 11, bias := 127, ieee := true }

/-- A number is a NaN. -/
def numNan (x : Num) : Bool := x == .nan

/-- A number is finite. -/
def numFin : Num → Bool
  | .fin _ _ _ => true
  | _ => false

/-- A sum into a layout: its code, and whether it saturated (R420): finite inputs beyond the largest magnitude. -/
def satEncode (l : Layout) (x : Num) : Nat × Bool :=
  if numFin x then
    let hi := encodeFp l true x
    (encodeFp l false x, decide (hi % 2 ^ (l.eb + l.mb) = (2 ^ l.eb - 1) * 2 ^ l.mb))
  else (encodeFp l true x, false)

/-- A cell after a step or a promotion, and whether SAT and NAN are raised. -/
structure CellStep where
  cell : Cell
  sat : Bool
  nan : Bool
  deriving DecidableEq, Repr

/-- A floating step (R410, R420, R422). -/
def stepFloat (c : Cell) (x y : Num) : CellStep :=
  let a := decodeFp layA20 c.a.toNat
  let r := numAdd a (numMul x y)
  let (code, sat) := satEncode layA20 r
  { cell := { c with a := BitVec.ofNat 20 code }, sat := sat, nan := numNan r && !(numNan a || numNan x || numNan y) }

/-- An integer step (R410, R421). -/
def stepInt (c : Cell) (x y : Int) : CellStep :=
  let r := c.a.toInt + x * y
  let q := max (-524288) (min 524287 r)
  { cell := { c with a := BitVec.ofInt 20 q }, sat := q != r, nan := false }

/-- A floating promotion (R411, R420, R422). -/
def promoteFloat (c : Cell) : CellStep :=
  let a := decodeFp layA20 c.a.toNat
  let w := ofF32 c.w
  let r := numAdd w a
  let (code, sat) := satEncode layFp32 r
  { cell := { a := 0, w := BitVec.ofNat 32 code }, sat := sat, nan := numNan r && !(numNan a || numNan w) }

/-- An integer promotion (R411, R421). -/
def promoteInt (c : Cell) : CellStep :=
  let r := c.w.toInt + c.a.toInt
  let q := max (-2147483648) (min 2147483647 r)
  { cell := { a := 0, w := BitVec.ofInt 32 q }, sat := q != r, nan := false }

/-- A promotion of a cell of either kind. -/
def promoteCell (int : Bool) (c : Cell) : CellStep := if int then promoteInt c else promoteFloat c

/-! ### The ordered dot product (R385) -/

/-- DOT's steps from step `k` of its chunk, with K_c 8. -/
def dotFrom : Cell → Nat → List (F32 × F32) → F32
  | c, n, [] => if n = 0 then c.w else (promoteFloat c).cell.w
  | c, n, (x, y) :: l =>
    let c := (stepFloat c (ofF32 x) (ofF32 y)).cell
    if n + 1 = 8 then dotFrom (promoteFloat c).cell 0 l else dotFrom c (n + 1) l

/-- The ordered FP32 dot product of the accumulation array, in the order of the list (R385, R412). -/
def dot (l : List (F32 × F32)) : F32 := dotFrom { a := 0, w := 0 } 0 l

/-! ### Tiles -/

/-- Cells of a slot (R406). -/
def tileCells : Nat := 256

/-- Cell `i`; zero where none is kept. -/
def cellAt (t : Tile) (i : Nat) : Cell := nth t.cells i { a := 0, w := 0 }

/-- All 256 cells. -/
def allCells (t : Tile) : List Cell := (List.range tileCells).map (cellAt t)

/-- An overwrite (R414). -/
def tileOverwrite (int : Bool) (kc shape : Nat) : Tile :=
  { int := int, kc := kc, n := 0, shape := shape, sat := false, nan := false, live := true,
    cells := List.replicate tileCells { a := 0, w := 0 } }

/-- A tile with its cells after a step or promotion. -/
def withCells (t : Tile) (rs : List CellStep) : Tile :=
  { t with cells := rs.map (·.cell), sat := t.sat || rs.any (·.sat), nan := t.nan || rs.any (·.nan) }

/-- Promotion of a slot; N returns to 0 (R411). -/
def tilePromote (t : Tile) : Tile := { withCells t ((allCells t).map (promoteCell t.int)) with n := 0 }

/-- After a step: N rises, and a full chunk is promoted (R411). -/
def tileCount (t : Tile) : Tile := if t.n + 1 = t.kc then tilePromote t else { t with n := t.n + 1 }

/-- One floating step of a tile: a product pair for each cell (R417). -/
def tileStepF (t : Tile) (x y : Nat → Num) : Tile :=
  tileCount (withCells t ((List.range tileCells).map fun i => stepFloat (cellAt t i) (x i) (y i)))

/-- One integer step of a tile. -/
def tileStepI (t : Tile) (x y : Nat → Int) : Tile :=
  tileCount (withCells t ((List.range tileCells).map fun i => stepInt (cellAt t i) (x i) (y i)))

/-- The end of a reduction (R415). -/
def tileEnd (t : Tile) : Tile := if t.n = 0 then t else tilePromote t

/-- The value an element has, or would have if promoted now (R424). -/
def provisional (t : Tile) (i : Nat) : BitVec 32 := (promoteCell t.int (cellAt t i)).cell.w

/-- ACC.RDS: one strip of 16 elements; zeros when nothing is live (R424). -/
def readStrip (t : Tile) (strip : Nat) : List (BitVec 32) :=
  (List.range 16).map fun j => if t.live then provisional t (16 * strip + j) else 0

/-- ACC.WRS: one strip into W (R425). -/
def writeStrip (t : Tile) (int : Bool) (kc shape strip : Nat) (ws : List (BitVec 32)) : Tile :=
  let t := if t.live then t else tileOverwrite int kc shape
  { t with n := 0, cells := (List.range tileCells).map fun i =>
      if i / 16 = strip then { a := 0, w := nth ws (i % 16) 0 } else cellAt t i }

/-- Bytes of a slot image (R426). -/
def slotImageLen : Nat := 2112

/-- The slot image (Table 11-4). -/
def slotImage (t : Tile) : List Byte :=
  leBytes 1 (b2n t.int) ++ leBytes 1 t.kc ++ leBytes 1 t.n ++ leBytes 1 (flag t.sat 0 + flag t.nan 1 + flag t.live 2)
    ++ leBytes 1 t.shape ++ zeros 59
    ++ ((allCells t).map fun c => leBytes 8 (c.w.toNat + put c.a.toNat 32 20)).flatten

/-- The tile that an image holds; none when R426 refuses it. -/
def tileOfImage (bs : List Byte) : Option Tile :=
  let fmt := numAt bs 0 1
  let kc := numAt bs 1 1
  let n := numAt bs 2 1
  let fl := numAt bs 3 1
  let shape := numAt bs 4 1
  let cell (i : Nat) : Nat := numAt bs (0x40 + 8 * i) 8
  if 1 < fmt ∨ kc < 4 ∨ 32 < kc ∨ kc ≤ n ∨ 7 < fl ∨ 4 < shape then none
  else if !allZero (slice bs 5 59) || (List.range tileCells).any (fun i => cell i / 2 ^ 52 != 0) then none
  else
    some { int := fmt == 1, kc := kc, n := n, shape := shape, sat := bit fl 0, nan := bit fl 1, live := bit fl 2,
           cells := (List.range tileCells).map fun i =>
             { a := BitVec.ofNat 20 (bits (cell i) 32 20), w := BitVec.ofNat 32 (bits (cell i) 0 32) } }

/-! ### Drains and statistics (R427 to R430) -/

/-- Columns of a tile (R407). -/
def tileCols (t : Tile) : Nat := 256 / 2 ^ t.shape

/-- The full-width values of row `r`. -/
def tileRow (t : Tile) (r : Nat) : List (BitVec 32) :=
  (List.range (tileCols t)).map fun c => (cellAt t (r * tileCols t + c)).w

/-- A drain format is allowed for the tile (Table 11-5). -/
def drainAllowed (t : Tile) (fmt : Nat) : Bool :=
  match fmt with | 0 => true | 1 => !t.int | 2 => !t.int | 3 => t.int | _ => false

/-- One element in a drain format (Table 11-5). -/
def drainElem (spBf spFp : Bool) (fmt shift : Nat) (w : BitVec 32) : List Byte :=
  match fmt with
  | 1 => leBytes 2 (encodeElem .bf16 spBf 0 0 w)
  | 2 => leBytes 2 (encodeElem .fp16 spFp 0 0 w)
  | 3 => leBytes 1 (BitVec.ofInt 8 (max (-127) (min 127 (rneDiv w.toInt (2 ^ shift))))).toNat
  | _ => leBytes 4 w.toNat

/-- The greater of two FP32 values by the max of R232: a NaN, when either is one. -/
def statMax (int : Bool) (a b : BitVec 32) (fmax : F32 → F32 → F32) : BitVec 32 :=
  if int then (if a.toInt < b.toInt then b else a) else fmax a b

/-- The statistics record of a row over its first `ncol` columns (R429, R430). -/
def statRecord (t : Tile) (r ncol : Nat) (fmax : F32 → F32 → F32) : List Byte :=
  let ws := (tileRow t r).take ncol
  let fp (w : BitVec 32) : F32 := if t.int then f32OfInt w.toInt else w
  match ws with
  | [] => zeros 32
  | w0 :: rest =>
    let mx := rest.foldl (fun a w => statMax t.int a w fmax) w0
    let sm := rest.foldl (fun a w => f32Add a (fp w)) (fp w0)
    let sq := rest.foldl (fun a w => f32Fma (fp w) (fp w) a) (f32Mul (fp w0) (fp w0))
    let n := f32OfInt ncol
    let mean := f32Div sm n
    let var := f32Sub (f32Div sq n) (f32Mul mean mean)
    let var := if numLt (ofF32 var) Num0 == some true then 0 else var
    leBytes 4 mx.toNat ++ leBytes 4 sm.toNat ++ leBytes 4 sq.toNat ++ leBytes 4 mean.toNat ++ leBytes 4 var.toNat
      ++ leBytes 2 ncol ++ zeros 10

/-- What CLR leaves of a tile after its last row: A, W and N as an overwrite leaves them, and nothing live (R414, R428). -/
def tileClear (t : Tile) : Tile :=
  { t with live := false, sat := false, nan := false, n := 0, cells := List.replicate tileCells { a := 0, w := 0 } }

end Sys2Proof.Machine
end

