-- ==== Sys2Proof/Machine/Pooling.lean ====
section
/-!
DEFINITION. Sys2Proof/Machine/Pooling.lean: the Thresher's arithmetic and the index list (chapter 6), as functions of
data; the lookup commands themselves are in Lookup.lean.
-/
namespace Sys2Proof.Machine

/-- Pooling modes (Table 6-2). -/
inductive PoolMode where
  | sum | mean | max | wsum | wmean
  deriving DecidableEq, Repr

/-- The pooling mode of a code (Table 6-2). -/
def poolModeOf : Nat → Option PoolMode
  | 0 => some .sum | 1 => some .mean | 2 => some .max | 3 => some .wsum | 4 => some .wmean | _ => none

/-- The mode takes weights (R222). -/
def weighted (m : PoolMode) : Bool := m == .wsum || m == .wmean

/-- max of R232: a NaN gives the canonical NaN; otherwise the larger, +0 above −0. -/
def f32Max (a b : F32) : F32 :=
  if isNan a || isNan b then nan32
  else if numEq (ofF32 a) (ofF32 b) then (if a.getLsbD 31 then b else a)
  else if numLt (ofF32 a) (ofF32 b) == some true then b else a

/-- min, with −0 below +0; a NaN gives the canonical NaN. -/
def f32Min (a b : F32) : F32 :=
  if isNan a || isNan b then nan32
  else if numEq (ofF32 a) (ofF32 b) then (if a.getLsbD 31 then a else b)
  else if numLt (ofF32 a) (ofF32 b) == some true then a else b

/-- Either zero. -/
def isZero32 (a : F32) : Bool := a.toNat % 2 ^ 31 == 0

/-- One further index of a bag enters the accumulator and the sum of weights (R233). -/
def poolStep (m : PoolMode) (acc : F32 × F32) (x w : F32) : F32 × F32 :=
  match m with
  | .sum => (f32Add acc.1 x, acc.2)
  | .mean => (f32Add acc.1 x, acc.2)
  | .max => (f32Max acc.1 x, acc.2)
  | .wsum => (f32Fma w x acc.1, f32Add acc.2 w)
  | .wmean => (f32Fma w x acc.1, f32Add acc.2 w)

/-- The pooled value of one element of a bag, from its values and weights in list order (R233, R234). Zero
rows under an infinite or NaN weight give the NaN of R233 (DESIGN CHOICE, log 147). -/
def poolElem (m : PoolMode) (xs : List (F32 × F32)) : F32 :=
  match xs with
  | [] => 0
  | (x, w) :: rest =>
    let start : F32 × F32 := if weighted m then (f32Mul w x, w) else (toF32 (ofF32 x), 0)
    let (a, wt) := rest.foldl (fun acc p => poolStep m acc p.1 p.2) start
    match m with
    | .mean => f32Div a (f32OfInt xs.length)
    | .wmean => if isZero32 wt then 0 else f32Div a wt
    | _ => a

/-- A bag pooled element by element over a segment: rows as lists of `n` elements, with their weights (R233). -/
def poolSegment (m : PoolMode) (n : Nat) (rows : List (List F32 × F32)) : List F32 :=
  (List.range n).map fun p => poolElem m (rows.map fun r => (nth r.1 p 0, r.2))

/-! ### The index list (section 6.2) -/

/-- Length of an index list (R222). -/
def listLen (nbags nidx w : Nat) (wts : Bool) : Nat :=
  alignUp (4 * nbags) 8 + alignUp (w * nidx) 8 + if wts then 4 * nidx else 0

/-- LEN of each bag (Table 6-4). -/
def bagLens (bs : List Byte) (nbags : Nat) : List Nat := (List.range nbags).map fun b => bits (numAt bs (4 * b) 4) 0 24

/-- The indices; an 8-byte index with bits [63:40] set stays above 2^40 and so is invalid (R223). -/
def listIdx (bs : List Byte) (nbags nidx w : Nat) : List Nat :=
  (List.range nidx).map fun i => numAt bs (alignUp (4 * nbags) 8 + w * i) w

/-- The weights, one for each index. -/
def listWeights (bs : List Byte) (nbags nidx w : Nat) (wts : Bool) : List F32 :=
  (List.range nidx).map fun i =>
    if wts then BitVec.ofNat 32 (numAt bs (alignUp (4 * nbags) 8 + alignUp (w * nidx) 8 + 4 * i) 4) else 0

/-- A list cut into bags of the given lengths. -/
def cutBags {α : Type} : List Nat → List α → List (List α)
  | [], _ => []
  | n :: ns, l => l.take n :: cutBags ns (l.drop n)

/-! ### Resolution (R200, R201) -/

/-- Where an index leads (R200). -/
inductive Found where
  | invalid
  | lifted (e : LiftEntry)
  | missing
  | fresh
  | home (sh : Shard)
  deriving DecidableEq, Repr

/-- The order of resolution of R200. -/
def resolve (s : State) (t : TableDecl) (row : Nat) : Found :=
  if t.rows ≤ row then .invalid
  else match liftHit s t row with
  | some e => .lifted e
  | none =>
    let sh := shardOf t row
    if sh.tier == .none then .missing
    else if sh.fresh then .fresh
    else .home sh

/-- The index is resolved by the INVALID policy (R201, R230). -/
def substituted : Found → Bool
  | .invalid => true
  | .missing => true
  | _ => false

/-- The first position of a list that the FAIL policy ends the command for (R201, R228). -/
def firstBad (s : State) (t : TableDecl) (idx : List Nat) : Option Nat :=
  idx.findIdx? fun r => substituted (resolve s t r)

/-- The index needs slice `k`'s segment rebuilt: a stack-home row of the table while data slice `k` is lost
(section 6.10). -/
def affected (s : State) (t : TableDecl) (row : Nat) : Bool :=
  let sh := shardOf t row
  decide (row < t.rows) && sh.tier == .stack && !sh.fresh && s.recov.standin.isSome

/-- The segment record of slice `k` for an index, as slice `k` (or its home tier) holds it: zeros or the default row for
a substitution, zeros for a FRESH shard, the lift copy, or the home copy (R200, R201). -/
def segRecord (s : State) (t : TableDecl) (row k : Nat) : List Byte :=
  match resolve s t row with
  | .invalid => if t.invalid == .default then defaultRecord s t k else zeros t.segStride
  | .missing => if t.invalid == .default then defaultRecord s t k else zeros t.segStride
  | .fresh => zeros t.segStride
  | .lifted e =>
    if sliceLive s k then daRead s (cribDa k (liftOff s.image.carve e)) t.segStride
    else daRead s (segDa t (shardOf t row) row k) t.segStride
  | .home sh => daRead s (segDa t sh row k) t.segStride

/-- The record that slice `k` holds in the row's home tier. -/
def homeRecord (s : State) (t : TableDecl) (row k : Nat) : List Byte :=
  daRead s (segDa t (shardOf t row) row k) t.segStride

/-- The parity record of a stack-home row on S16, at the same stack offset (R189). -/
def parityRecord (s : State) (t : TableDecl) (row : Nat) : List Byte :=
  daRead s (segDa t (shardOf t row) row 16) t.segStride

/-- The home copy of a row is poisoned somewhere: in a record of a live slice, in the far row, or, where S16 rebuilds its
segment, in its parity (R650, R671). -/
def homePoisoned (s : State) (t : TableDecl) (row : Nat) : Bool :=
  let sh := shardOf t row
  (sh.tier != .none && (List.range 16).any fun k =>
    (sh.tier != .stack || sliceLive s k) && poisoned s (segDa t sh row k) t.segStride) ||
  (affected s t row && poisoned s (segDa t sh row 16) t.segStride)

/-- The segment of some position comes from the home copy of a lifted row: S16 stands in, or nothing does (R244, R245). -/
def homeServes (s : State) : Bool := s.recov.standin.isSome || !(orphans s).isEmpty

/-- A row of a table is read from a poisoned unit (R650). Lift copies lie in the cribs, whose SRAM is never poisoned. -/
def rowPoisoned (s : State) (t : TableDecl) (row : Nat) : Bool :=
  match resolve s t row with
  | .home _ => homePoisoned s t row
  | .lifted _ => homeServes s && homePoisoned s t row
  | _ => false

/-- What slice `k` itself reads of a row at position `p` has become poisoned since the checks (R650). -/
def sourcePoisoned (s : State) (t : TableDecl) (row p k : Nat) : Bool :=
  match resolve s t row with
  | .home sh => sh.tier == .stack && k == p && poisoned s (segDa t sh row k) t.segStride
  | _ => false

/-- A far-home row lies, in part, on a lost DIMM or expander is judged in Lookup.lean; the elements of a slice's segment
encoded for output (R235). -/
def encodeSegment (special : Bool) (out : Fmt) (xs : List F32) : List Byte :=
  packCodes out (xs.map fun x => encodeElem out special 0 0 x)

/-- Bytes of an output row of DIM elements with the pad columns dropped (R239). -/
def joinOut (dim width : Nat) (segs : List (List Byte)) : List Byte := segs.flatten.take (dim * width)

/-- The logical row spelled by sixteen segment records (R188, R238). -/
def joinRow (t : TableDecl) (recs : List (List Byte)) : List Byte :=
  let s := segLen t.dim
  let recOf (c : Nat) : List Byte := nth recs (c / s) []
  let sc := fmtScale t.fmt
  let so := stateOff t.fmt t.dim
  let r0 := nth recs 0 []
  let elems := packCodes t.fmt ((List.range t.dim).map fun c => codeAt t.fmt ((recOf c).drop sc) (c % s))
  let head := slice r0 0 sc ++ elems
  let body := head ++ zeros (logicalStateOff t.fmt t.dim - head.length)
  let state : List Byte :=
    match t.opt with
    | .none => []
    | .adagradRow => slice r0 so 4
    | .adam =>
      ((List.range t.dim).map fun c => slice (recOf c) (so + 4 * (c % s)) 4).flatten
        ++ ((List.range t.dim).map fun c => slice (recOf c) (so + 4 * s + 4 * (c % s)) 4).flatten
  fitTo (body ++ state) t.logicalStride

end Sys2Proof.Machine
end

