-- ==== Sys2Proof/Machine/Sparse.lean ====
section
/-!
DEFINITION. Sys2Proof/Machine/Sparse.lean: what lookups, updates and loads share: the stamped generation's tables,
stamps, the positions that serve, gradient lists, chunks and the arithmetic of one row's step (sections 7.1 to 7.6).
-/
namespace Sys2Proof.Machine

/-! ### Generations and tables -/

/-- The configuration of a live generation (R162). -/
def cfgOf (s : State) (gen : Nat) : Cfg :=
  if s.cfg.cur.gen = gen then s.cfg.cur
  else match s.cfg.old with
  | some o => if o.gen = gen then o else s.cfg.cur
  | none => s.cfg.cur

/-- A table of a command's stamped generation. -/
def tableFor (s : State) (c : Cmd) (id : Nat) : Option TableDecl := tableOf (cfgOf s c.gen) id

/-- A table changed by `g` in one configuration. -/
def cfgTable (id : Nat) (g : TableDecl → TableDecl) (c : Cfg) : Cfg :=
  { c with tables := c.tables.map fun t => if t.id == id then g t else t }

/-- A table changed by `g` in every configuration that holds it. -/
def onTable (id : Nat) (g : TableDecl → TableDecl) (s : State) : State :=
  let f := cfgTable id g
  { s with cfg := { s.cfg with cur := f s.cfg.cur, old := s.cfg.old.map f, base := f s.cfg.base } }

/-- Shard `i` of a table changed by `g` in every configuration that holds it. -/
def onShard (id i : Nat) (g : Shard → Shard) (s : State) : State :=
  onTable id (fun t => { t with shards := t.shards.modify i g }) s

/-! ### Stamps -/

/-- The place of a command's chunk in the per-row order, as one number (R268, R269). -/
def stampKey (c : Cmd) (chunk : Nat) : Nat := (c.pos * 2 ^ 32 + c.order) * 32 + chunk

/-- The command was admitted before the other (R268). -/
def before (a b : Cmd) : Bool := decide (stampKey a 0 < stampKey b 0)

/-- The OVF rule of a format: SPECIAL or SATURATE (R133). -/
def special (s : State) (f : Fmt) : Bool := nth s.image.special (fmtCode f) false

/-! ### Update and load commands (Tables 7-1 and 15-1) -/

/-- SCATTER_ADD or SCATTER_OPT. -/
def isUpdate (c : Cmd) : Bool := opcodeOf c.bytes == 0x20 || opcodeOf c.bytes == 0x21
/-- A COPY_H2D in table-load form. -/
def isLoad (c : Cmd) : Bool := opcodeOf c.bytes == 0x40 && copyForm c.bytes == 1
/-- It writes rows through the Flail (R270). -/
def writesRows (c : Cmd) : Bool := isUpdate c || isLoad c
/-- LOOKUP_POOL or LOOKUP_RAW. -/
def isLookup (c : Cmd) : Bool := opcodeOf c.bytes == 0x10 || opcodeOf c.bytes == 0x11

/-- TABLE_ID of a lookup, an update or a load. -/
def cmdTable (c : Cmd) : Nat := if isLoad c then param c.bytes 2 2 else param c.bytes 0 2

/-- The command has not ended. -/
def unfinished (c : Cmd) : Bool := c.phase != .ended

/-- Entries of an update, or rows of a load. -/
def entryCount (c : Cmd) : Nat := if isLoad c then param c.bytes 0x20 4 else param c.bytes 8 4

/-- Entries of one chunk (R263). -/
def chunkSize : Nat := 65536

/-- Chunks of a command. -/
def chunkCount (c : Cmd) : Nat := ceilDiv (entryCount c) chunkSize

/-- IDX8's index width. -/
def idxWidth (bs : List Byte) : Nat := if bit (param bs 4 1) 0 then 8 else 4

/-- Bytes of a gradient row (R258). -/
def gradRow (t : TableDecl) (g : Fmt) : Nat := alignUp (t.dim * fmtWidth g / 8) 8

/-- GRAD_FMT (Table 6-3). -/
def gradFmt (bs : List Byte) : Option Fmt :=
  match param bs 3 1 with | 0 => some .fp32 | 1 => some .bf16 | 2 => some .fp16 | _ => none

/-- Bytes of an update's list up to its gradient rows (R258). -/
def listHead (bs : List Byte) : Nat := 16 + alignUp (idxWidth bs * param bs 8 4) 8

/-- The part of a command's list that has been read. -/
def listOf (c : Cmd) : List Byte := if inlineOf c.bytes == some true then payload c.bytes else c.data

/-- The row that an entry names (R223, R258, R572). -/
def entryRow (c : Cmd) (i : Nat) : Nat :=
  if isLoad c then param c.bytes 0x18 8 % 2 ^ 40 + i
  else let w := idxWidth c.bytes
       numAt (listOf c) (16 + w * i) w

/-- Positions of a chunk. -/
def chunkPositions (c : Cmd) (j : Nat) : List Nat :=
  (List.range (min chunkSize (entryCount c - j * chunkSize))).map (j * chunkSize + ·)

/-- The chunk's keys before substituted entries are removed. -/
def chunkAll (c : Cmd) (j : Nat) : List (Nat × Nat) := (chunkPositions c j).map fun i => (entryRow c i, i)

/-- A key of chunk `j` lies before the place from which nothing is applied any more (R502). -/
def keptKey (cutAt : Option (Nat × Nat)) (j : Nat) (k : Nat × Nat) : Bool :=
  match cutAt with
  | none => true
  | some (j', row) => j < j' || (j == j' && k.1 < row)

/-- The sorted keys of a chunk: by row, then by position; entries that the policy resolves are removed (R264, R267). -/
def chunkKeys (s : State) (t : TableDecl) (c : Cmd) (j : Nat) : List (Nat × Nat) :=
  sortBy (fun a b => a.1 < b.1 || (a.1 == b.1 && a.2 < b.2))
    ((chunkAll c j).filter fun k => keptKey c.cutAt j k && !substituted (resolve s t k.1))

/-- Distinct rows of sorted keys, ascending. -/
def rowsOf (keys : List (Nat × Nat)) : List Nat := (keys.map (·.1)).dedup

/-! ### One row's step (section 7.6) -/

/-- Hyperparameters of an update (Table 7-1, R258). -/
structure Hyper where
  lr : F32
  eps : F32
  b1 : F32
  b2 : F32
  c1 : F32
  c2 : F32
  deriving DecidableEq, Repr

/-- The hyperparameters a command carries. -/
def hyperOf (c : Cmd) : Hyper :=
  let f (o : Nat) : F32 := BitVec.ofNat 32 (param c.bytes o 4)
  { lr := f 0x0C, eps := f 0x18, b1 := f 0x1C, b2 := f 0x20, c1 := BitVec.ofNat 32 (numAt (listOf c) 0 4),
    c2 := BitVec.ofNat 32 (numAt (listOf c) 4 4) }

/-- Neither infinite nor a NaN. -/
def finite32 (x : F32) : Bool := bits x.toNat 23 8 != 255

/-- Strictly less, of numbers. -/
def less32 (a b : F32) : Bool := numLt (ofF32 a) (ofF32 b) == some true

/-- 1.0. -/
def one32 : F32 := 0x3F800000

/-- A used hyperparameter breaks its limits (step 11 of Table 7-3). -/
def badHyper (optim : Nat) (h : Hyper) : Bool :=
  let lr := !finite32 h.lr || less32 h.lr 0
  let eps := !finite32 h.eps || !less32 0 h.eps
  let beta (b : F32) : Bool := !finite32 b || less32 b 0 || !less32 b one32
  let bc (b : F32) : Bool := !finite32 b || less32 b one32
  if optim = 0 then false
  else if optim = 1 then lr
  else if optim = 2 then lr || eps
  else lr || eps || beta h.b1 || beta h.b2 || bc h.c1 || bc h.c2

/-- Segment positions of slice `k` that are not pad columns (R184). -/
def liveColumns (t : TableDecl) (k : Nat) : List Nat :=
  (List.range (segLen t.dim)).filter fun p => k * segLen t.dim + p < t.dim

/-- A gradient row's decoded element of a column. -/
def gradElem (g : Fmt) (row : List Byte) (col : Nat) : F32 := decodeElem g one32 0 (codeAt g row col)

/-- The merged gradient of a row over a segment: the entries' elements added in ascending position (R266). -/
def mergedGrad (t : TableDecl) (g : Fmt) (k : Nat) (rows : List (List Byte)) : List F32 :=
  (List.range (segLen t.dim)).map fun p =>
    let col := k * segLen t.dim + p
    if t.dim ≤ col then 0
    else match rows with
    | [] => 0
    | r :: rs => rs.foldl (fun acc x => f32Add acc (gradElem g x col)) (gradElem g r col)

/-- An FP32 field of a record. -/
def recF32 (r : List Byte) (off : Nat) : F32 := BitVec.ofNat 32 (numAt r off 4)

/-- The slice's part of the row sum: q over its columns (R275). -/
def gradSquare (t : TableDecl) (k : Nat) (g : List F32) : F32 :=
  (liveColumns t k).foldl (fun q p => f32Fma (nth g p 0) (nth g p 0) q) 0

/-- New FP32 values of a segment and its new state, before encoding (R274 to R276). `sum` is S of R275, `dv` its
divisor. -/
def stepSegment (t : TableDecl) (optim : Nat) (h : Hyper) (k : Nat) (old : List Byte) (g : List F32) (sum : F32)
    (dv : Nat) :
    List F32 × List Byte :=
  let w := recElems t k old
  let so := stateOff t.fmt t.dim
  let n := segLen t.dim
  let keep := slice old so (segStateBytes t.opt t.dim)
  let onLive (f : Nat → F32) : List F32 :=
    (List.range n).map fun p => if k * n + p < t.dim then f p else 0
  if optim = 0 then (onLive fun p => f32Add (nth w p 0) (nth g p 0), keep)
  else if optim = 1 then (onLive fun p => f32Fma (f32Neg h.lr) (nth g p 0) (nth w p 0), keep)
  else if optim = 2 then
    let a := f32Add (recF32 old so) (f32Div sum (f32OfInt dv))
    let r := f32Div h.lr (f32Add (f32Sqrt a) h.eps)
    (onLive fun p => f32Fma (f32Neg r) (nth g p 0) (nth w p 0), leBytes 4 a.toNat)
  else
    let d1 := f32Sub one32 h.b1
    let d2 := f32Sub one32 h.b2
    let m := onLive fun p => f32Fma h.b1 (recF32 old (so + 4 * p)) (f32Mul d1 (nth g p 0))
    let v := onLive fun p =>
      f32Fma h.b2 (recF32 old (so + 4 * n + 4 * p)) (f32Mul d2 (f32Mul (nth g p 0) (nth g p 0)))
    let u (p : Nat) : F32 :=
      f32Div (f32Mul (nth m p 0) h.c1) (f32Add (f32Sqrt (f32Mul (nth v p 0) h.c2)) h.eps)
    (onLive fun p => f32Fma (f32Neg h.lr) (u p) (nth w p 0),
      (m.map fun x => leBytes 4 x.toNat).flatten ++ (v.map fun x => leBytes 4 x.toNat).flatten)

/-- Minimum and maximum of a segment's new values over its columns; (+∞, −∞) where it has none (R278). -/
def segRange (t : TableDecl) (k : Nat) (w : List F32) : F32 × F32 :=
  (liveColumns t k).foldl (fun r p => (f32Min r.1 (nth w p 0), f32Max r.2 (nth w p 0))) (0x7F800000, 0xFF800000)

/-- |x|. -/
def f32Abs (x : F32) : F32 := if isNan x then nan32 else x &&& 0x7FFFFFFF

/-- Scale and bias after RESCALE, from the row range (R278). -/
def rescaled (t : TableDecl) (lo hi : F32) : F32 × F32 :=
  if t.fmt == .int8 then (f32Div (f32Max (f32Abs lo) (f32Abs hi)) (f32OfInt 127), 0)
  else (f32Div (f32Sub hi lo) (f32OfInt 15), lo)

/-- A segment record from its values, scale, bias and state (R186, R278, R279). -/
def buildRecord (sp : Bool) (t : TableDecl) (k : Nat) (w : List F32) (scale bias : F32) (state : List Byte) : List Byte :=
  let n := segLen t.dim
  let codes := (List.range n).map fun p =>
    if k * n + p < t.dim then encodeElem t.fmt sp scale bias (nth w p 0) else 0
  let sc := if t.fmt == .int8 then leBytes 4 scale.toNat
            else if t.fmt == .int4 then leBytes 4 scale.toNat ++ leBytes 4 bias.toNat else []
  let head := sc ++ packCodes t.fmt codes
  fitTo (head ++ zeros (stateOff t.fmt t.dim - head.length) ++ state) t.segStride

/-! ### Copies of a row (R199, R317, R324) -/

/-- The XOR of records of `n` bytes. -/
def xorAll (n : Nat) (l : List (List Byte)) : List Byte := l.foldl (fun a r => xorBytes r a) (zeros n)

/-- A shard move has copied the row: the move's destination holds it too. -/
def movedTo (s : State) (t : TableDecl) (row : Nat) : Option Shard :=
  match s.stolon.move with
  | some m =>
    if m.table == t.id && m.shard == row / shardRowsMax && row % shardRowsMax < m.cursor then
      some { noShard with tier := m.dstTier, base := m.dstBase, fresh := false }
    else none
  | none => none

/-- Every place that holds the row: its home in each live generation, and the destination of a move that has copied
it. -/
def rowPlaces (s : State) (t : TableDecl) (row : Nat) : List (Tier × Nat) :=
  let own := [shardOf t row]
  let gens := ([some s.cfg.cur, s.cfg.old].filterMap id).filterMap fun c => (tableOf c t.id).map (shardOf · row)
  ((own ++ gens ++ (movedTo s t row).toList).filterMap fun sh =>
    if sh.tier == .none then none else some (sh.tier, sh.base)).dedup

/-- A place as a shard-map entry. -/
def placeShard (p : Tier × Nat) : Shard := { noShard with tier := p.1, base := p.2, fresh := false }

/-- The row's write would cover a poisoned unit only in part, at some place and on some slice (R651). -/
def rowDropped (s : State) (t : TableDecl) (row : Nat) : Bool :=
  (rowPlaces s t row).any fun pl =>
    let sh := placeShard pl
    if pl.1 == .stack then (liveData s).any fun k => writeDropped s (segDa t sh row k) t.segStride
    else writeDropped s (segDa t sh row 0) (16 * t.segStride)

/-- The row is frozen by the move batch in flight (R319, R321). -/
def frozenRow (s : State) (t : TableDecl) (row : Nat) : Bool :=
  match s.stolon.batch with
  | none => false
  | some b =>
    match b.what with
    | .shard table shard first count =>
      table == t.id && shard == row / shardRowsMax && decide (first ≤ row % shardRowsMax ∧ row % shardRowsMax < first + count)
    | .lift keys => keys.contains (t.id, row)

/-- The row is kept in parity: S16 is there, and its shard has its parity, or is far-home in a protected table (R191,
R281). -/
def inParity (s : State) (t : TableDecl) (row : Nat) : Bool :=
  let sh := shardOf t row
  sliceLive s 16 && (if sh.tier == .stack then sh.parity else t.husk)

/-- A slice has applied the row for chunk `j` of command `uid`. -/
def appliedOn (F : Flail) (uid j row : Nat) : Bool :=
  F.finished.contains (uid, j) ||
    F.cur.any fun x => x.uid == uid && x.chunk == j && ((rowsOf x.keys).take F.applied).contains row

/-- The row takes a CHAIN_SEQ on this slice: the first slice to apply it for the chunk decides for all (R281). -/
def takesSeq (s : State) (t : TableDecl) (uid j row : Nat) : Bool :=
  s.ring.given.any (fun g => g.1 == uid && g.2.1 == j && g.2.2.1 == row) ||
    (inParity s t row && !s.flails.any fun F => appliedOn F uid j row)

/-! ### Traffic of rows (R304, R614, R640) -/

/-- The atoms of an access to a data slice's stack are counted by channel (R304). -/
def noteAtoms (da n : Nat) (s : State) : State :=
  if da / 2 ^ 52 != 2 || n == 0 || decide (16 ≤ da % 2 ^ 52 / 2 ^ 36) then s
  else
    let off := da % 2 ^ 36
    let first := off / 32
    onSlice (da % 2 ^ 52 / 2 ^ 36) (fun S =>
      { S with chNow := ((List.range ((off + n - 1) / 32 - first + 1)).foldl (fun v i =>
          vupd v (channelOf (32 * (first + i))) (· + 1)) S.chNow) }) s

/-- The Thresher or the Flail reads or writes a record for a command. -/
def rowTraffic (c : Cmd) (da n : Nat) (s : State) : State := chargeCmd c da n (noteAtoms da n s)

/-- Migration traffic carries MIG_CLASS, and the range class of a far address; its energy is the house's (R330, R332). -/
def chargeMove (da n : Nat) (s : State) : State :=
  chargeClass s.cfg.cur.migration.cls da n (memActivity .house da n (noteAtoms da n s))

/-- The Thresher of slice `k` issues the atom reads of an access for a lookup (Table 19-4). -/
def issueAtoms (c : Cmd) (k da n : Nat) (s : State) : State :=
  if isLookup c then activity (.cmd c.uid) (18 * k + 8) (atomBytes da n / 32) s else s

/-- Slice `k` reads a row's shard-map entry, one crib atom (R200 step 3). -/
def mapTraffic (c : Cmd) (t : TableDecl) (row k : Nat) (s : State) : State :=
  let da := mapEntryDa s t row k
  issueAtoms c k da 4 (chargeCmd c da 4 s)

/-- What one lookup or update of a row at position `p` reads: the bucket of a table that may be lifted, then the lift
copy, or the shard-map entry and after it the home record or the default row's; a poisoned default-row record is rebuilt
(R200, R242, R614, R650). -/
def readTraffic (c : Cmd) (t : TableDecl) (row p : Nat) (s : State) : State :=
  let k := server s p
  let probe := t.migrate && decide (0 < s.image.carve.liftBytes)
  let found := resolve s t row
  let s := if probe && found != .invalid then
      issueAtoms c k 0 64 (chargeCmd c (cribDa k (64 * liftBucket s.image.carve t.id row)) 64 s) else s
  let s := match found with
    | .invalid => s
    | .lifted _ => s
    | _ => mapTraffic c t row k s
  match found with
  | .lifted e =>
    let da := cribDa k (liftOff s.image.carve e)
    if k ≠ p then s else issueAtoms c k da t.segStride (chargeCmd c da t.segStride s)
  | .home sh =>
    let da := segDa t sh row k
    if sh.tier == .stack && k == p then issueAtoms c k da t.segStride (rowTraffic c da t.segStride s) else s
  | .fresh => s
  | _ =>
    if t.invalid == .default && (positions s).contains p then
      let da := defaultDa t k
      let s := if poisoned s da t.segStride then storeDefault t p s else s
      issueAtoms c k da t.segStride (rowTraffic c da t.segStride s)
    else s

end Sys2Proof.Machine
end

