-- ==== Sys2Proof/Machine/Lookup.lean ====
section
/-!
DEFINITION. Sys2Proof/Machine/Lookup.lean: LOOKUP_POOL and LOOKUP_RAW: checks, resolution, segments of slices and the
assembly of output rows (chapter 6).
-/
namespace Sys2Proof.Machine

/-! ### The parameter block (Table 6-1) -/

/-- LOOKUP_POOL. -/
def isPool (c : Cmd) : Bool := opcodeOf c.bytes == 0x10
/-- MODE. -/
def lkMode (c : Cmd) : Nat := param c.bytes 2 1
/-- MODE is STORED. -/
def isStored (c : Cmd) : Bool := !isPool c && lkMode c == 1
/-- The mode takes weights (R222). -/
def lkWeighted (c : Cmd) : Bool := isPool c && (lkMode c == 3 || lkMode c == 4)
/-- NBAGS. -/
def nBags (c : Cmd) : Nat := param c.bytes 8 4
/-- NIDX. -/
def nIdx (c : Cmd) : Nat := param c.bytes 0x0C 4
/-- Bytes of the index list (R222). -/
def lkListLen (c : Cmd) : Nat := listLen (nBags c) (nIdx c) (idxWidth c.bytes) (lkWeighted c)
/-- Output rows. -/
def lkRows (c : Cmd) : Nat := if isPool c then nBags c else nIdx c
/-- OUT_STRIDE. -/
def outStride (c : Cmd) : Nat := param c.bytes 0x20 4
/-- Width of an output element in bytes; 8 for STORED (step 8 of Table 6-5). -/
def outWidth (c : Cmd) : Nat := if isStored c then 8 else if param c.bytes 3 1 = 0 then 4 else 2
/-- OUT_FMT. -/
def outFmt (c : Cmd) : Fmt := (gradFmt c.bytes).getD .fp32
/-- Bytes of one output row (step 9). -/
def outRowLen (t : TableDecl) (c : Cmd) : Nat := if isStored c then t.logicalStride else t.dim * outWidth c
/-- The fetched list. -/
def lkListRange (c : Cmd) : Rng := ⟨bit (param c.bytes 4 1) 2, param c.bytes 0x10 8, lkListLen c⟩
/-- The output range. -/
def lkOutRange (t : TableDecl) (c : Cmd) : Rng :=
  ⟨bit (param c.bytes 4 1) 3, param c.bytes 0x18 8, (lkRows c - 1) * outStride c + outRowLen t c⟩
/-- INLINE. -/
def lkInline (c : Cmd) : Bool := bit (param c.bytes 4 1) 1

/-! ### Checks (Table 6-5) -/

/-- INLINE breaks R224 for a list of `n` bytes. -/
def badInline (bs : List Byte) (n : Nat) : Bool := decide (448 < n) || chainOf bs != ceilDiv n 64

/-- Steps 4 to 9: the check code of the first that fails. -/
def lookupCode (t : TableDecl) (c : Cmd) : Option Nat :=
  let mode := lkMode c
  if (isPool c && decide (4 < mode)) || (!isPool c && decide (1 < mode)) then some 1
  else if !isStored c && decide (2 < param c.bytes 3 1) then some 2
  else if if isPool c then decide (nBags c < 1 ∨ 65536 < nBags c ∨ 16777215 < nIdx c)
          else decide (nBags c ≠ 0 ∨ nIdx c < 1 ∨ 1048576 < nIdx c) then some 3
  else if lkInline c && badInline c.bytes (lkListLen c) then some 4
  else if (!lkInline c && decide (param c.bytes 0x10 8 % 8 ≠ 0)) ||
      decide (param c.bytes 0x18 8 % outWidth c ≠ 0 ∨ outStride c % outWidth c ≠ 0) then some 5
  else if outStride c < outRowLen t c then some 6
  else if !lkInline c && rngMeet (lkListRange c) (lkOutRange t c) then some 7
  else none

/-- Steps 1 to 3 of Tables 6-5 and 7-3: the status and DETAIL of the first that fails, or the table. -/
def tableChecks (s : State) (c : Cmd) (write : Bool) : (Nat × Nat) ⊕ TableDecl :=
  match tableFor s c (cmdTable c) with
  | none => .inl (0x11, 0xFFFFFFFF)
  | some t =>
    if !(if write then mayWrite t c.func else mayRead t c.func) then .inl (0x12, 0)
    else if t.lost then .inl (0x22, 0)
    else .inr t

/-! ### Output rows -/

/-- Indices of the command in list order. -/
def lkIdx (c : Cmd) : List Nat := listIdx (listOf c) (nBags c) (nIdx c) (idxWidth c.bytes)

/-- Indices and weights of output row `r`. -/
def rowEntries (c : Cmd) (r : Nat) : List (Nat × F32) :=
  let ws := listWeights (listOf c) (nBags c) (nIdx c) (idxWidth c.bytes) (lkWeighted c)
  let es := (lkIdx c).zip ws
  if isPool c then nth (cutBags (bagLens (listOf c) (nBags c)) es) r [] else (es.drop r).take 1

/-- A chunk of an update, as slice `k` holds it: its keys and how many of its rows are applied. -/
def chunkOn (s : State) (k uid j : Nat) : Option (List (Nat × Nat) × Nat) :=
  let F := vat s.flails k
  let is (x : SortedChunk) : Bool := x.uid == uid && x.chunk == j
  match F.cur, F.sorted with
  | some x, y => if is x then some (x.keys, F.applied) else (y.filter is).map fun y => (y.keys, 0)
  | none, y => (y.filter is).map fun y => (y.keys, 0)

/-- Slice `k` has written the row for chunk `j` of an update, or its sort has found that the chunk leaves it alone
(R271). -/
def chunkPast (s : State) (k uid j row : Nat) : Bool :=
  (vat s.flails k).finished.contains (uid, j) ||
    match chunkOn s k uid j with
    | some (keys, n) => let rs := rowsOf keys
                        !rs.contains row || (rs.take n).contains row
    | none => false

/-- Chunk `j` of an update keeps slice `k` from reading a row: it has neither written the row nor been found by its sort not
to touch it. A row of a FRESH shard, which reads as zero, waits only for a chunk that names it (R213, R271). -/
def chunkOpen (s : State) (u : Cmd) (k j row : Nat) (fresh : Bool) : Bool :=
  !chunkPast s k u.uid j row && (!fresh || (chunkAll u j).any (·.1 == row))

/-- An earlier update or load of the table keeps slice `k` from reading the row (R271). -/
def readBlocked (s : State) (c : Cmd) (table row k : Nat) : Bool :=
  let fresh := (tableFor s c table).any fun t => decide (row < t.rows) && (shardOf t row).fresh
  s.cmds.any fun u => writesRows u && unfinished u && cmdTable u == table && before u c
    && (!u.checked || (List.range (chunkCount u)).any fun j => chunkOpen s u k j row fresh)

/-- Bytes 16 × SEG_STRIDE of a far row read for a chunk of the command (R196, R269). -/
def farRow (c : Cmd) (chunk row : Nat) : Option (List Byte) :=
  (c.far.find? fun x => x.1 == row && x.2.1 == chunk).map (·.2.2)

/-- Times a far row has been read for the command. -/
def farCount (c : Cmd) (row : Nat) : Nat := (c.far.filter (·.1 == row)).length

/-- The read of a far row for its occurrence number `n` in the index list: one fetch for each (R196). -/
def farAt (c : Cmd) (row n : Nat) : Option (List Byte) := ((c.far.filter (·.1 == row)).reverse[n]?).map (·.2.2)

/-- The shard lies in a far tier. -/
def isFar (sh : Shard) : Bool := sh.tier == .ddr || sh.tier == .cxl

/-- A record that S16 has rebuilt belongs to a row of a command's chunk. -/
def rebuiltIs (uid chunk table row : Nat) (r : Nat × Nat × Nat × Nat × List Byte) : Bool :=
  r.1 == uid && r.2.1 == chunk && r.2.2.1 == table && r.2.2.2.1 == row

/-- The segment that S16 has rebuilt for a row of a command's chunk (R244, R289). -/
def rebuiltFor (s : State) (uid chunk table row : Nat) : Option (List Byte) :=
  (s.ring.rebuilt.find? (rebuiltIs uid chunk table row)).map (·.2.2.2.2)

/-- What S16 has rebuilt for occurrence number `n` of a row: one reconstruction for each affected index (R244). -/
def rebuiltAt (s : State) (uid table row n : Nat) : Option (List Byte) :=
  ((s.ring.rebuilt.filter (rebuiltIs uid 0 table row)).reverse[n]?).map (·.2.2.2.2)

/-- The record that position `p` uses for an index, occurrence number `n` of its row in the list, once it can be read: none
while it must wait for an earlier update, a far row or a reconstruction. Nothing read for one index serves another (R196,
R200, R229, R242, R244, R245, R271). -/
def lookupRecord (s : State) (c : Cmd) (t : TableDecl) (row p n : Nat) : Option (List Byte) :=
  let k := server s p
  let far : Option (List Byte) := (farAt c row n).map fun b => slice b (p * t.segStride) t.segStride
  if readBlocked s c t.id row k then none
  else match resolve s t row with
  | .lifted _ =>
    if k ≠ p then (if isFar (shardOf t row) then far else rebuiltAt s c.uid t.id row n)
    else some (segRecord s t row p)
  | .home sh =>
    if isFar sh then far
    else if k ≠ p then rebuiltAt s c.uid t.id row n
    else some (segRecord s t row p)
  | _ => some (segRecord s t row p)

/-- Place in the index list of the first index of output row `r`. -/
def rowStart (c : Cmd) (r : Nat) : Nat := if isPool c then ((bagLens (listOf c) (nBags c)).take r).sum else r

/-- The records of all the indices of output row `r` at position `p`, if every one can be read. -/
def rowRecords (s : State) (c : Cmd) (t : TableDecl) (r p : Nat) : Option (List (List Byte × F32)) :=
  let es := rowEntries c r
  ((List.range es.length).zip es).mapM fun x =>
    (lookupRecord s c t x.2.1 p (((lkIdx c).take (rowStart c r + x.1)).count x.2.1)).map fun b => (b, x.2.2)

/-- The segment that position `p` sends for an output row (R233, R235, R237, R238). -/
def outSegment (s : State) (c : Cmd) (t : TableDecl) (p : Nat) (recs : List (List Byte × F32)) : List Byte :=
  if isStored c then (recs.map (·.1)).flatten
  else
    let xs :=
      if isPool c then
        poolSegment ((poolModeOf (lkMode c)).getD .sum) (segLen t.dim) (recs.map fun r => (recElems t p r.1, r.2))
      else (recs.map fun r => recElems t p r.1).flatten
    encodeSegment (special s (outFmt c)) (outFmt c) xs

/-- The bytes of output row `r` once its sixteen segments are there (R239). -/
def outRow (t : TableDecl) (c : Cmd) (r : Nat) : Option (List Byte) :=
  let segs := (List.range 16).mapM fun p => (c.arrived.find? fun a => a.1 == r && a.2.1 == p).map (·.2.2)
  segs.map fun ss => if isStored c then joinRow t ss else joinOut t.dim (outWidth c) ss

/-- Status and DETAIL of a lookup that has written every row (R230, R231). -/
def lookupStatus (c : Cmd) : Nat × Nat :=
  if 0 < c.subst then (1, min 0xFFFFFFFF c.subst) else if c.degraded then (2, 0) else (0, 0)

/-- Output rows are written in ascending order as far as their segments are there; after the last the command ends
(R240). -/
def writeRows (u : Nat) (t : TableDecl) : Nat → State → State
  | 0, s => s
  | n + 1, s =>
    match cmdOf s u with
    | none => s
    | some c =>
      if c.total ≤ c.done then
        let (st, d) := lookupStatus c
        stamp u 10 false (stamp u 9 false (endCmd u st d s))
      else match outRow t c c.done with
      | none => s
      | some bs =>
        let o := lkOutRange t c
        let s := if o.dev then chargeCmd c (o.addr + c.done * outStride c) bs.length s else s
        let (ok, s) := rngWrite c o.dev (o.addr + c.done * outStride c) bs s
        if !ok then endCmd u 0x22 0 s
        else writeRows u t n (onCmd u (fun c =>
          { c with done := c.done + 1, arrived := c.arrived.filter (·.1 != c.done) }) s)

/-! ### What the leader counts (R230, R302, R307) -/

/-- One miss of a MIGRATE table is sampled into the candidate table (R307). -/
def sampleMiss (table row : Nat) (st : Stolon) (sample : Nat) : Stolon :=
  if st.sampleCtr + 1 < sample then { st with sampleCtr := st.sampleCtr + 1 }
  else
    let st := { st with sampleCtr := 0 }
    if st.candidates.any fun e => e.1 == table && e.2.1 == row then
      { st with candidates := st.candidates.map fun e =>
          if e.1 == table && e.2.1 == row then (e.1, e.2.1, e.2.2 + 1) else e }
    else if st.candidates.length < 4096 then { st with candidates := st.candidates ++ [(table, row, 1)] }
    else
      let low := st.candidates.foldl (fun m e => min m e.2.2) (2 ^ 64)
      let i := st.candidates.findIdx fun e => e.2.2 == low
      { st with candidates := st.candidates.set i (table, row, low + 1) }

/-- LOOKUPS and UPDATES that a slice has counted for a shard. -/
def loadOf (l : List (Nat × Nat × Nat)) (k : Nat) : Nat × Nat := ((l.find? (·.1 == k)).map (·.2)).getD (0, 0)

/-- A slice's counts for a shard with one LOOKUPS or UPDATES more, saturating (R302). -/
def bumpLoad (update : Bool) (k : Nat) (l : List (Nat × Nat × Nat)) : List (Nat × Nat × Nat) :=
  let c := loadOf l k
  (k, if update then (c.1, satAdd 0xFFFFFFFF c.2 1) else (satAdd 0xFFFFFFFF c.1 1, c.2)) :: l.filter (·.1 != k)

/-- One LOOKUPS or UPDATES more that data slice `k` counts for a row's shard (R302). -/
def countLoad (update : Bool) (t : TableDecl) (row k : Nat) (s : State) : State :=
  if sliceLive s k && decide (k < 16) then
    onShard t.id (row / shardRowsMax) (fun sh => { sh with load := bumpLoad update k sh.load }) s
  else s

/-- What data slice `k` counts for one index it has resolved: the leader a lift hit or a sampled miss, every slice the
LOOKUPS of the shard that the map gave (R302, R306, R307). -/
def countIndex (t : TableDecl) (k row : Nat) (s : State) : State :=
  let leads := (liveData s).head? == some k
  match resolve s t row with
  | .invalid => s
  | .lifted e => if !leads then s else
    { s with stolon := { s.stolon with lift := s.stolon.lift.map fun x =>
        if x.bucket == e.bucket && x.way == e.way then { x with hits := satAdd 0xFFFF x.hits 1 } else x } }
  | _ =>
    let s := if leads && t.migrate && decide (0 < s.image.carve.liftBytes) then
        { s with stolon := sampleMiss t.id row s.stolon s.cfg.cur.migration.sample } else s
    countLoad false t row k s

/-! ### SLICE_RESULT_ARRIVAL -/

/-- A lookup still has rows to read at position `p`. -/
def readsAt (c : Cmd) (p : Nat) : Bool :=
  isLookup c && c.checked && c.phase == .working && decide (nth c.sent p 0 < c.total)

/-- A lookup is among the 64 that the Thresher of position `p` keeps active; they become active in admission order (R241,
log 131). -/
def activeAt (s : State) (c : Cmd) (p : Nat) : Bool :=
  readsAt c p && decide ((s.cmds.filter fun d => readsAt d p && before d c).length < 64)

/-- The segment of position `p`'s next output row arrives at the home bridge (R240). -/
def sliceResult (u p : Nat) (s : State) : State :=
  match cmdOf s u with
  | none => s
  | some c =>
    match tableFor s c (cmdTable c) with
    | none => s
    | some t =>
      let r := nth c.sent p 0
      if !activeAt s c p || c.wants.any (·.ats) then s
      else match rowRecords s c t r p with
      | none => s
      | some recs =>
        let rows := (rowEntries c r).map (·.1)
        if rows.any fun x => sourcePoisoned s t x p (server s p) then endCmd u 0x22 0 s
        else
        let subs := (rows.filter fun x => substituted (resolve s t x)).length
        let lead := (positions s).head? == some p
        let seg := outSegment s c t p recs
        let s := rows.foldl (fun s x => readTraffic c t x p s) s
        let s := if (positions s).contains p then rows.foldl (fun s x => countIndex t (actor s p) x s) s else s
        let s := if isPool c then activity (.cmd u) (18 * server s p + 8) (ceilDiv (recs.length * segLen t.dim) 16) s else s
        let s := linkActivity (.cmd u) (server s p) (bridgeOf c.func) seg.length s
        let byHusk := server s p == 16 && decide (subs < rows.length)
        let s := onCmd u (fun c =>
          { c with sent := c.sent.modify p (· + 1), arrived := (r, p, seg) :: c.arrived,
                   subst := if lead then c.subst + subs else c.subst, degraded := c.degraded || byHusk,
                   lastDies := (if r = 0 then server s p else c.lastDies.1,
                                if r + 1 = c.total then server s p else c.lastDies.2) }) s
        let s := if r = 0 then stamp u 5 true (stamp u 4 false s) else s
        let s := if r + 1 = c.total then stamp u 7 true (stamp u 6 false s) else s
        writeRows u t (c.total - c.done + 1) s

/-- SLICE_RESULT_ARRIVAL: the segment of position `p` (slice `p`, or S16 in its place) for command `u`. -/
def execSliceResultArrival (u : Nat) (p : Fin 16) (s : State) : Host.Outcome State Fault Refusal :=
  .next (sliceResult u p.val s)

/-! ### Start -/

/-- Reconstruction packets for rows of a command's chunk start at the lowest live slice, in their order (R244, R246). -/
def sendRecons (u chunk : Nat) (t : TableDecl) (rows : List Nat) (s : State) : State :=
  let first := (liveData s).headD 0
  let g := s.ring
  { s with ring := { g with
      arrivals := g.arrivals + rows.length,
      recons := g.recons ++ ((List.range rows.length).zip rows).map fun x =>
        { uid := u, chunk := chunk, table := t.id, row := x.2, payload := zeros (alignUp t.segStride 32), next := first,
          arr := g.arrivals + x.1 } } }

/-- Reconstruction packets for the affected indices of a lookup, one for each (R244). -/
def startRecons (u : Nat) (t : TableDecl) (rows : List Nat) (s : State) : State :=
  sendRecons u 0 t (rows.filter (affected s t)) s

/-- The indices of a lookup that S16, in position `p`'s place, has already read. -/
def readBy (c : Cmd) (p : Nat) : List Nat := (lkIdx c).take (rowStart c (nth c.sent p 0))

/-- Shard `i` of a table is FRESH no more while S16 stands in: what a lookup in flight has still to read of the shard's rows at
that position is rebuilt from here on, index by index; what it has read there needs nothing (R213, R214, R244). -/
def reconsAfterFresh (t : TableDecl) (i : Nat) (s : State) (c : Cmd) : State :=
  match s.recov.standin with
  | none => s
  | some p =>
    let mine (r : Nat) : Bool := decide (r < t.rows) && r / shardRowsMax == i && affected s t r
    if !readsAt c p || cmdTable c != t.id then s
    else
      let past := readBy c p
      let blank := (past.filter mine).map fun r => (c.uid, 0, t.id, r, zeros t.segStride)
      sendRecons c.uid 0 t (((lkIdx c).drop past.length).filter mine)
        { s with ring := { s.ring with rebuilt := blank ++ s.ring.rebuilt } }

/-- The far row of an index lies on a part that is offline (R773, R777). -/
def rowOffline (s : State) (c : Cmd) (t : TableDecl) (row : Nat) : Bool :=
  match resolve s t row with
  | .home sh => isFar sh && !sh.fresh && targetOffline s (.copy c.func) (segDa t sh row 0) (16 * t.segStride)
  | _ => false

/-- The resolution pass of a FAIL-policy table: every slice reads the shard-map entry of every index below ROWS (R228). -/
def resolutionPass (c : Cmd) (t : TableDecl) (idx : List Nat) (s : State) : State :=
  if t.invalid == .fail then
    (positions s).foldl (fun s p => (idx.filter fun r => decide (r < t.rows)).foldl (fun s r => mapTraffic c t r (actor s p) s) s) s
  else s

/-- The list is there: step 12, the FAIL policy, poison, and the command leaves for the slices (R227, R228, R650). -/
def dispatchLookup (u : Nat) (s : State) : State :=
  match cmdOf s u with
  | none => s
  | some c =>
    match tableFor s c (cmdTable c) with
    | none => endCmd u 0x11 0xFFFFFFFF s
    | some t =>
      let idx := lkIdx c
      if isPool c && (bagLens (listOf c) (nBags c)).sum != nIdx c then stamp u 1 false (badOpcode u 8 s)
      else match if t.invalid == .fail then firstBad s t idx else none with
      | some i => stamp u 1 false (endCmd u 0x11 i (resolutionPass c t idx s))
      | none =>
        let s := resolutionPass c t idx s
        if idx.any (rowPoisoned s t) then stamp u 1 false (endCmd u 0x22 0 s)
        else if idx.any (rowOffline s c t) then stamp u 1 false (endLoss u 0x20 0 s)
        else
          let s := onCmd u (fun c => { c with phase := .working, checked := true, total := lkRows c }) s
          stamp u 3 false (stamp u 1 false (startRecons u t idx s))

/-- A lookup once admitted: steps 1 to 11, then its translations and its list (R227, R501). When both ranges fail step 11
the list range is reported (DESIGN CHOICE, log 135). -/
def startLookup (u : Nat) (s : State) : State :=
  match cmdOf s u with
  | none => s
  | some c =>
    match tableChecks s c false with
    | .inl (st, d) => stamp u 1 false (endCmd u st d s)
    | .inr t =>
      match lookupCode t c with
      | some code => stamp u 1 false (badOpcode u code s)
      | none =>
        let l := lkListRange c
        let o := lkOutRange t c
        let kl := if lkInline c then 0 else rngKind s c.func false l
        let ko := rngKind s c.func true o
        if kl ≠ 0 then failRange u kl l.addr s
        else if ko ≠ 0 then failRange u ko o.addr s
        else
          let ts := translations s c.func (if lkInline c then [o] else [l, o])
          if lkInline c then (if ts.isEmpty then dispatchLookup u s else askHost u ts s)
          else if onHost l then askHost u (ts ++ [readOf c.func l]) s
          else if poisoned s l.addr l.len then endCmd u 0x22 0 s
          else
            let s := onCmd u (fun x => { x with data := daRead s l.addr l.len }) (chargeCmd c l.addr l.len s)
            if ts.isEmpty then dispatchLookup u s else askHost u ts s

/-- Host data, or the last translation, has come for a lookup. -/
def lookupHost (u : Nat) (data : Option (List Byte)) (s : State) : State :=
  match data with
  | none => dispatchLookup u s
  | some bs => dispatchLookup u (stamp u 2 false (onCmd u (fun c => { c with data := bs }) s))

/-- LOOKUP_POOL from queue pair `q` (R233). -/
def execLookupPool (q : Fin 256) (s : State) : Host.Outcome State Fault Refusal :=
  .next (admitCommand (· == 0x10) q.val startLookup s)

/-- LOOKUP_RAW from queue pair `q` (R237). -/
def execLookupRaw (q : Fin 256) (s : State) : Host.Outcome State Fault Refusal :=
  .next (admitCommand (· == 0x11) q.val startLookup s)

end Sys2Proof.Machine
end

