-- ==== Sys2Proof/Machine/KvTable.lean ====
section
/-!
DEFINITION. Sys2Proof/Machine/KvTable.lean: the layout of a KV store, the state of one KV table and what happens to it:
pages and their counts, the prefix trie, eviction (chapter 9).
-/
namespace Sys2Proof.Machine

/-! ### Geometry (sections 9.2 and 9.3) -/

/-- Tokens of a page, T. -/
def kvPageTokens (d : KvDecl) : Nat := 2 ^ d.pageLog2
/-- Tokens of a unit, U (section 9.2). -/
def kvUnit (d : KvDecl) : Nat := match d.mode with | .pow2 => kvPageTokens d | _ => 16
/-- Page group G. -/
def kvGroup (d : KvDecl) : Nat := 2 ^ d.placeLog2
/-- H_s (R346). -/
def kvHeadSlots (d : KvDecl) : Nat := if d.byPosition then d.nheads else ceilDiv d.nheads 16
/-- PT_LEN (R346). -/
def kvPtLen (d : KvDecl) : Nat :=
  if d.byPosition then ceilDiv d.maxTokens (16 * kvPageTokens d * kvGroup d) * kvGroup d else d.maxTokens / kvPageTokens d
/-- PAGE_BYTES (R343). -/
def kvPageBytes (d : KvDecl) : Nat := 64 + 2 * kvPageTokens d * d.headDim
/-- Bytes of the sequence area. -/
def kvSeqArea (d : KvDecl) : Nat :=
  d.maxSeqs * (alignUp (64 + 4 * d.layers) 64 + if d.maxNodes = 0 then 0 else 4 * d.maxTokens)
/-- Bytes of the page-table area. -/
def kvPtArea (d : KvDecl) : Nat :=
  if d.mode == .contig then 0 else d.maxSeqs * d.layers * kvHeadSlots d * kvPtLen d * 4
/-- Bytes of the node area. -/
def kvNodeArea (d : KvDecl) : Nat := d.maxNodes * alignUp (32 + 4 * kvUnit d + 4 * d.layers * kvHeadSlots d) 64
/-- Start of the page area. -/
def kvPageArea (d : KvDecl) : Nat := kvSeqArea d + kvPtArea d + kvNodeArea d
/-- P, the pages of each slice's store. -/
def kvPages (d : KvDecl) : Nat := (d.storeSize - kvPageArea d) / kvPageBytes d

/-- Slice position, head slot and page-table index of page `p` of head `h` (R346). -/
def kvPlace (d : KvDecl) (h p : Nat) : Nat × Nat × Nat :=
  if d.byPosition then ((h + p / kvGroup d) % 16, h, p / (16 * kvGroup d) * kvGroup d + p % kvGroup d)
  else (h % 16, h / 16, p)

/-- Place of an entry within one sequence's page table of a slice (R345). -/
def kvIndex (d : KvDecl) (layer hs j : Nat) : Nat := (layer * kvHeadSlots d + hs) * kvPtLen d + j

/-- The page number that CONTIG fixes (R344). -/
def contigPage (d : KvDecl) (seq layer hs p : Nat) : Nat :=
  ((seq * d.layers + layer) * kvHeadSlots d + hs) * (d.maxTokens / 16) + p

/-- Device address of a store offset at slice position `k`; S16 acts for the slice it stands in for (R342, R368). -/
def kvDa (s : State) (d : KvDecl) (k off : Nat) : Nat :=
  if d.inStack then stackDa (actor s k) (d.storeBase + off) else cribDa (actor s k) (d.storeBase + off)

/-- Device address of page `n` at slice position `k` (R343). -/
def kvPageDa (s : State) (d : KvDecl) (k n : Nat) : Nat := kvDa s d k (kvPageArea d + n * kvPageBytes d)

/-- Device address of a page-table entry (R345). -/
def kvEntryDa (s : State) (d : KvDecl) (k seq i : Nat) : Nat :=
  kvDa s d k (kvSeqArea d + 4 * (seq * d.layers * kvHeadSlots d * kvPtLen d + i))

/-- What a read of block `b` of a page reads of it, offset and length: the header, the block's key rows and its value
rows (R383, Table 9-2). -/
def blockParts (d : KvDecl) (b : Nat) : List (Nat × Nat) :=
  let row := 16 * b % kvPageTokens d
  [(0, 64), (0x40 + row * d.headDim, 16 * d.headDim), (0x40 + (kvPageTokens d + row) * d.headDim, 16 * d.headDim)]

/-- The read of block `b` from page `n` at slice position `k` meets poison (R650). -/
def poisonedBlock (s : State) (d : KvDecl) (k n b : Nat) : Bool :=
  (blockParts d b).any fun x => poisoned s (kvPageDa s d k n + x.1) x.2

/-- The page-table area of a table's store on every slice reads FREE: no entry is VALID (R345). -/
def clearPageTables (d : KvDecl) (s : State) : State :=
  (List.range 17).foldl (fun s j =>
    zeroRange ((if d.inStack then stackDa j d.storeBase else cribDa j d.storeBase) + kvSeqArea d) (kvPtArea d) s) s

/-! ### Slots and pages -/

/-- A FREE slot. -/
def freeSlot : KvSlot :=
  { st := .free, salt := 0, prio := 0, lens := [], lastUse := 0, tokens := [], attached := [], contributed := [],
    stopped := false, pages := [] }

/-- The state of a KV table when it is registered or replayed, with its key K_T (R356). -/
def newKvTable (d : KvDecl) (key : BitVec 128) : KvTable :=
  { id := d.id, slots := List.replicate d.maxSeqs freeSlot, nodes := [], key := key, refs := [], collisions := 0, parked := [] }

/-- A slot of a table. -/
def slotOf (t : KvTable) (i : Nat) : KvSlot := nth t.slots i freeSlot

/-- A table with one slot changed. -/
def onSlot (i : Nat) (g : KvSlot → KvSlot) (t : KvTable) : KvTable := { t with slots := updAt t.slots i g }

/-- The node in a slot of the node area. -/
def nodeOf (t : KvTable) (i : Nat) : Option KvNode := t.nodes.find? (·.slot == i)

/-- A table with one node changed. -/
def onNode (i : Nat) (g : KvNode → KvNode) (t : KvTable) : KvTable :=
  { t with nodes := t.nodes.map fun n => if n.slot == i then g n else n }

/-- Page number at slice position and index, from a slot's page table. -/
def slotPage (x : KvSlot) (k i : Nat) : Option Nat := (x.pages.find? fun e => e.1 == k && e.2.1 == i).map (·.2.2)

/-- REFS of a page. -/
def refsOf (t : KvTable) (k n : Nat) : Nat := ((t.refs.find? fun e => e.1 == k && e.2.1 == n).map (·.2.2)).getD 0

/-- REFS of a page raised by one. -/
def raiseRef (k n : Nat) (t : KvTable) : KvTable :=
  if refsOf t k n = 0 then { t with refs := t.refs ++ [(k, n, 1)] }
  else { t with refs := t.refs.map fun e => if e.1 == k && e.2.1 == n then (k, n, e.2.2 + 1) else e }

/-- REFS of a page lowered by one; at zero the page is free once `readers k n`, the earlier commands that read it, have
completed (R349, R361). -/
def lowerRef (readers : Nat → Nat → List Nat) (k n : Nat) (t : KvTable) : KvTable :=
  if 1 < refsOf t k n then
    { t with refs := t.refs.map fun e => if e.1 == k && e.2.1 == n then (k, n, e.2.2 - 1) else e }
  else
    let us := readers k n
    { t with refs := t.refs.filter fun e => !(e.1 == k && e.2.1 == n),
             parked := if us.isEmpty then t.parked else t.parked ++ [(k, n, us)] }

/-- Pages at slice position `k` without references, the parked ones included. -/
def availPages (d : KvDecl) (t : KvTable) (k : Nat) : Nat := kvPages d - (t.refs.filter (·.1 == k)).length

/-- Pages at slice position `k` that are free now. -/
def freePages (d : KvDecl) (t : KvTable) (k : Nat) : Nat := availPages d t k - (t.parked.filter (·.1 == k)).length

/-- The lowest-numbered free page of slice position `k` (R347). -/
def lowestPage (t : KvTable) (k : Nat) : Nat :=
  let taken := ((t.refs.filter (·.1 == k)).map (·.2.1)) ++ ((t.parked.filter (·.1 == k)).map (·.2.1))
  ((List.range (taken.length + 1)).find? fun n => !taken.contains n).getD 0

/-- A command has completed: pages parked for it wait for it no longer (R372). -/
def unparkFor (u : Nat) (t : KvTable) : KvTable :=
  { t with parked := (t.parked.map fun e => (e.1, e.2.1, e.2.2.erase u)).filter fun e => !e.2.2.isEmpty }

/-! ### The trie (section 9.6) -/

/-- Log2 of MAX_NODES. -/
def trieBits (d : KvDecl) : Nat := Nat.log2 d.maxNodes

/-- The next chain value after a block of 16 tokens (R356). -/
def chainStep (key : BitVec 128) (c : BitVec 64) (toks : List (BitVec 32)) : BitVec 64 :=
  sipHash key (leBytes 8 c.toNat ++ (toks.map fun t => leBytes 4 t.toNat).flatten)

/-- The chain value after `b` blocks of a token list (R356). -/
def chainValue (key : BitVec 128) (salt : BitVec 64) (toks : List (BitVec 32)) : Nat → BitVec 64
  | 0 => salt
  | b + 1 => chainStep key (chainValue key salt toks b) ((toks.drop (16 * b)).take 16)

/-- The key of unit `u` (R356). -/
def unitKey (d : KvDecl) (t : KvTable) (salt : BitVec 64) (toks : List (BitVec 32)) (u : Nat) : BitVec 64 :=
  chainValue t.key salt toks ((u + 1) * kvUnit d / 16)

/-- The tokens of unit `u`. -/
def unitTokens (d : KvDecl) (toks : List (BitVec 32)) (u : Nat) : List (BitVec 32) :=
  (toks.drop (u * kvUnit d)).take (kvUnit d)

/-- The eight slots in which a node with this key may lie (R357). -/
def trieWindow (d : KvDecl) (k : BitVec 64) : List Nat :=
  (List.range 8).map fun i => (k.toNat / 2 ^ (64 - trieBits d) + i) % d.maxNodes

/-- The nodes in a window whose key is `k`. -/
def sameKey (t : KvTable) (w : List Nat) (k : BitVec 64) : List KvNode :=
  (w.filterMap (nodeOf t)).filter (·.key == k)

/-- The node matches the unit (R358). -/
def nodeMatches (parent : Option Nat) (u : Nat) (toks : List (BitVec 32)) (n : KvNode) : Bool :=
  n.parent == parent && n.unit == u && n.tokens == toks

/-- A look-up in the trie: the matching node, whether a collision was met, and the table with its collisions counted
(R358). -/
def trieFind (d : KvDecl) (t : KvTable) (salt : BitVec 64) (toks : List (BitVec 32)) (parent : Option Nat) (u : Nat) :
    Option KvNode × Bool × KvTable :=
  let k := unitKey d t salt toks u
  let same := sameKey t (trieWindow d k) k
  let hit := same.find? (nodeMatches parent u (unitTokens d toks u))
  let bad := (same.filter fun n => !nodeMatches parent u (unitTokens d toks u) n).length
  (hit, decide (0 < bad), { t with collisions := t.collisions + bad })

/-- A node is evictable (section 9.8). -/
def evictable (n : KvNode) : Bool := n.children == 0 && n.seqRefs == 0

/-- The evictable node of least LAST, then lowest slot, among some nodes. -/
def oldestNode (ns : List KvNode) : Option KvNode :=
  match ns.filter evictable with
  | [] => none
  | n :: rest => some (rest.foldl (fun m x =>
      if x.last.toNat * 2 ^ 32 + x.slot < m.last.toNat * 2 ^ 32 + m.slot then x else m) n)

/-- A slot whose attached node goes: its leading units end before it and it inserts no more. -/
def detach (node : Nat) (x : KvSlot) : KvSlot :=
  if x.attached.contains node then { x with attached := x.attached.takeWhile (· != node), stopped := true } else x

/-- A node is evicted: its pages lose its reference, its parent a child (section 9.8). -/
def evictNode (readers : Nat → Nat → List Nat) (n : KvNode) (t : KvTable) : KvTable :=
  let t := { t with nodes := t.nodes.filter (·.slot != n.slot), slots := t.slots.map (detach n.slot) }
  let t := n.pages.foldl (fun t e => lowerRef readers e.1 e.2.2 t) t
  match n.parent with
  | none => t
  | some p => onNode p (fun m => { m with children := m.children - 1 }) t

/-- A slot gives up its pages and its contributions to nodes (R362). -/
def dropSlot (readers : Nat → Nat → List Nat) (i : Nat) (st : SlotState) (t : KvTable) : KvTable :=
  let x := slotOf t i
  let t := x.pages.foldl (fun t e => lowerRef readers e.1 e.2.2 t) t
  let t := x.contributed.foldl (fun t u =>
    match x.attached[u]? with
    | none => t
    | some n => onNode n (fun m => { m with seqRefs := m.seqRefs - 1 }) t) t
  onSlot i (fun x => { x with st := st, tokens := [], attached := [], contributed := [], stopped := false, pages := [],
                              lens := if st == .free then [] else x.lens }) t

/-- The pages of unit `u` of a slot, for every layer and head: slice position, layer-and-head index, page number. -/
def unitPages (d : KvDecl) (x : KvSlot) (u : Nat) : List (Nat × Nat × Nat) :=
  (List.range d.layers).flatMap fun l => (List.range d.nheads).filterMap fun h =>
    let (k, hs, j) := kvPlace d h u
    (slotPage x k (kvIndex d l hs j)).map fun n => (k, l * kvHeadSlots d + hs, n)

/-- A node written for unit `u` of slot `i` (R359, second case). -/
def writeNode (d : KvDecl) (beat : BitVec 48) (i u place : Nat) (t : KvTable) : KvTable :=
  let x := slotOf t i
  let parent := if u = 0 then none else x.attached[u - 1]?
  let pg := unitPages d x u
  let n : KvNode := { slot := place, key := unitKey d t x.salt x.tokens u, parent := parent, unit := u,
                      tokens := unitTokens d x.tokens u, seqRefs := 1, children := 0, last := beat, pages := pg }
  let t := { t with nodes := t.nodes ++ [n] }
  let t := pg.foldl (fun t e => raiseRef e.1 e.2.2 t) t
  let t := match parent with
    | none => t
    | some p => onNode p (fun m => { m with children := m.children + 1 }) t
  onSlot i (fun x => { x with attached := x.attached ++ [place], contributed := x.contributed ++ [u] }) t

/-- Unit `u` of slot `i`, complete in every layer, is inserted (R359). The node it hangs from is never replaced, and a look-up
that finds a match and meets a collision too attaches the match (DESIGN CHOICE, log 119). -/
def insertUnit (d : KvDecl) (readers : Nat → Nat → List Nat) (beat : BitVec 48) (i u : Nat) (t : KvTable) : KvTable :=
  let x := slotOf t i
  let parent := if u = 0 then none else x.attached[u - 1]?
  let f := trieFind d t x.salt x.tokens parent u
  let t := f.2.2
  let w := trieWindow d (unitKey d t x.salt x.tokens u)
  match f.1 with
  | some n => onSlot i (fun x => { x with attached := x.attached ++ [n.slot] })
      (onNode n.slot (fun n => { n with last := beat }) t)
  | none =>
    if f.2.1 then onSlot i (fun x => { x with stopped := true }) t
    else match w.find? fun p => (nodeOf t p).isNone with
    | some p => writeNode d beat i u p t
    | none =>
      match oldestNode ((w.filterMap (nodeOf t)).filter fun n => some n.slot != parent) with
      | some n => writeNode d beat i u n.slot (evictNode readers n t)
      | none => onSlot i (fun x => { x with stopped := true }) t

/-- The units of slot `i` that are complete in every layer and follow the attached ones are inserted, up to `n` of
them (R359). -/
def insertUnits (d : KvDecl) (readers : Nat → Nat → List Nat) (beat : BitVec 48) (i : Nat) : Nat → KvTable → KvTable
  | 0, t => t
  | n + 1, t =>
    let x := slotOf t i
    let u := x.attached.length
    if d.maxNodes = 0 || x.stopped || x.st != .open then t
    else if x.lens.foldl min (2 ^ 32) < (u + 1) * kvUnit d then t
    else insertUnits d readers beat i n (insertUnit d readers beat i u t)

/-- The nodes that match the leading units of a token list, from unit `u` on, with the table's collisions counted
(R360). -/
def trieWalk (d : KvDecl) (salt : BitVec 64) (toks : List (BitVec 32)) :
    Nat → Nat → Option Nat → KvTable → List KvNode × KvTable
  | 0, _, _, t => ([], t)
  | fuel + 1, u, parent, t =>
    if toks.length < (u + 1) * kvUnit d then ([], t)
    else
      let f := trieFind d t salt toks parent u
      match f.1 with
      | none => ([], f.2.2)
      | some n =>
        let r := trieWalk d salt toks fuel (u + 1) (some n.slot) f.2.2
        (n :: r.1, r.2)

/-- A matched node's pages enter a slot's page tables (R360). -/
def attachNode (d : KvDecl) (beat : BitVec 48) (i : Nat) (n : KvNode) (t : KvTable) : KvTable :=
  let u := n.unit
  let es := (List.range d.layers).flatMap fun l => (List.range d.nheads).filterMap fun h =>
    let (k, hs, j) := kvPlace d h u
    (n.pages.find? fun e => e.1 == k && e.2.1 == l * kvHeadSlots d + hs).map fun e => (k, kvIndex d l hs j, e.2.2)
  let t := es.foldl (fun t e => raiseRef e.1 e.2.2 t) t
  let t := onNode n.slot (fun m => { m with seqRefs := m.seqRefs + 1, last := beat }) t
  onSlot i (fun x => { x with pages := x.pages ++ es, attached := x.attached ++ [n.slot],
                              contributed := x.contributed ++ [u] }) t

/-- PREFIX_MATCH's effect on a table, and M (R360). -/
def prefixMatch (d : KvDecl) (beat : BitVec 48) (stampKey seq prio : Nat) (salt : BitVec 64) (toks : List (BitVec 32))
    (t : KvTable) : Nat × KvTable :=
  let (ns, t) := trieWalk d salt toks (toks.length + 1) 0 none t
  let m := kvUnit d * ns.length
  let t := onSlot seq (fun _ => { freeSlot with st := .open, salt := salt, prio := prio, lens := List.replicate d.layers m,
                                                lastUse := stampKey, tokens := toks.take m }) t
  (m, ns.foldl (fun t n => attachNode d beat seq n t) t)

/-! ### Eviction (section 9.8) -/

/-- Pages of a slot with REFS 1. -/
def solePages (t : KvTable) (x : KvSlot) : Nat := (x.pages.filter fun e => refsOf t e.1 e.2.2 == 1).length

/-- Sort key of a slot under the policy: what comes first is evicted first (Table 9-5). -/
def slotRank (p : EvictPolicy) (t : KvTable) (x : KvSlot) : Nat × Nat :=
  match p with
  | .priority => (x.prio, x.lastUse)
  | .largest => (2 ^ 64 - solePages t x, x.lastUse)
  | _ => (0, x.lastUse)

/-- The OPEN slots that the policy lets go, in its order, without those the command names (R363). Of slots that Table 9-5
ranks alike the lower goes first (DESIGN CHOICE, log 119). -/
def slotVictims (d : KvDecl) (t : KvTable) (named : List Nat) : List Nat :=
  let xs := (List.range t.slots.length).filter fun i => (slotOf t i).st == .open && !named.contains i
  let less (a b : Nat) : Bool :=
    let ra := slotRank d.evict t (slotOf t a)
    let rb := slotRank d.evict t (slotOf t b)
    decide (ra.1 < rb.1) || (ra.1 == rb.1 && decide (ra.2 < rb.2))
  if d.evict == .preserve then [] else sortBy less xs

/-- A demand for pages by slice position fits without more evictions. -/
def demandFits (d : KvDecl) (t : KvTable) (demand : Nat → Nat) : Bool :=
  (List.range 16).all fun k => demand k ≤ availPages d t k

/-- Tokens of an evicted slot's leading attached units whose nodes remain; `nodes` are those it was attached to
(Table 9-8, KEPT). -/
def keptTokens (d : KvDecl) (t : KvTable) (nodes : List Nat) : Nat :=
  kvUnit d * (nodes.takeWhile fun n => (nodeOf t n).isSome).length

/-- A slot that has been evicted: its number, LEN[0], and the nodes it was attached to. -/
abbrev Evicted := Nat × Nat × List Nat

/-- A slot is evicted (R364). -/
def evictSlot (readers : Nat → Nat → List Nat) (i : Nat) (t : KvTable) : Evicted × KvTable :=
  ((i, nth (slotOf t i).lens 0 0, (slotOf t i).attached), dropSlot readers i .evicted t)

/-- Evictable nodes, then slots in order, go until the demand fits; none when that is not enough (R363). A node that
becomes evictable only because a slot has gone goes before the next slot (DESIGN CHOICE, log 119). -/
def evictUntil (d : KvDecl) (readers : Nat → Nat → List Nat) (demand : Nat → Nat) :
    Nat → List Nat → List Evicted → KvTable → Option (List Evicted × KvTable)
  | 0, _, _, _ => none
  | fuel + 1, slots, gone, t =>
    if demandFits d t demand then some (gone, t)
    else match oldestNode t.nodes with
    | some n => evictUntil d readers demand fuel slots gone (evictNode readers n t)
    | none =>
      match slots with
      | [] => none
      | i :: rest =>
        let e := evictSlot readers i t
        evictUntil d readers demand fuel rest (gone ++ [e.1]) e.2

/-! ### Appending (section 9.5) -/

/-- One append entry (Table 9-4). -/
structure AppendEntry where
  seq : Nat
  pos : Nat
  ntok : Nat
  prio : Nat
  salt : BitVec 64
  deriving DecidableEq, Repr

/-- Entry `i` of an append list. -/
def appendEntry (bs : List Byte) (i : Nat) : AppendEntry :=
  { seq := numAt bs (32 * i) 4, pos := numAt bs (32 * i + 4) 4, ntok := numAt bs (32 * i + 8) 4,
    prio := numAt bs (32 * i + 12) 1 % 8, salt := BitVec.ofNat 64 (numAt bs (32 * i + 16) 8) }

/-- A slot after an entry has taken its place in it, as the checks and the success see it (R352, R353). -/
def appendLen (d : KvDecl) (layer : Nat) (stampKey : Nat) (e : AppendEntry) (x : KvSlot) : KvSlot :=
  let x := if x.st == .free then
      { freeSlot with st := .open, salt := e.salt, prio := e.prio, lens := List.replicate d.layers 0 } else x
  { x with lens := updAt x.lens layer fun _ => e.pos + e.ntok, lastUse := stampKey }

/-- An entry meets R352 against a slot. -/
def appendOk (d : KvDecl) (layer : Nat) (e : AppendEntry) (x : KvSlot) : Bool :=
  ((x.st == .free && e.pos == 0) || (x.st == .open && e.pos == nth x.lens layer 0))
    && decide (e.pos + e.ntok ≤ d.maxTokens)
    && (layer == 0 || decide (e.pos + e.ntok ≤ nth x.lens 0 0))

/-- The entries meet R352 in list order, each against what the ones before it leave. -/
def appendsOk (d : KvDecl) (layer : Nat) : List AppendEntry → KvTable → Bool
  | [], _ => true
  | e :: es, t =>
    appendOk d layer e (slotOf t e.seq) && appendsOk d layer es (onSlot e.seq (appendLen d layer 0 e) t)

/-- Pages that an entry writes, first and number. -/
def entryPages (d : KvDecl) (e : AppendEntry) : List Nat :=
  let a := e.pos / kvPageTokens d
  (List.range ((e.pos + e.ntok - 1) / kvPageTokens d - a + 1)).map (a + ·)

/-- The pages that an entry needs anew, in head and page order: slice position, page-table index, head slot, page
(R346). A page begun before the entry is there already. -/
def entryNew (d : KvDecl) (layer : Nat) (e : AppendEntry) : List (Nat × Nat × Nat × Nat) :=
  (List.range d.nheads).flatMap fun h => ((entryPages d e).filter fun p => e.pos ≤ p * kvPageTokens d).map fun p =>
    let (k, hs, j) := kvPlace d h p
    (k, kvIndex d layer hs j, hs, p)

/-- Pages needed at each slice position. -/
def appendDemand (d : KvDecl) (layer : Nat) (es : List AppendEntry) (k : Nat) : Nat :=
  ((es.map fun e => ((entryNew d layer e).filter (·.1 == k)).length)).sum

/-- An entry's slot opened or continued, its new pages allocated, lowest-numbered first (R347, R353). -/
def allocEntry (d : KvDecl) (layer stampKey : Nat) (e : AppendEntry) (t : KvTable) : KvTable :=
  let t := onSlot e.seq (appendLen d layer stampKey e) t
  (entryNew d layer e).foldl (fun t x =>
    let n := if d.mode == .contig then contigPage d e.seq layer x.2.2.1 x.2.2.2 else lowestPage t x.1
    onSlot e.seq (fun y => { y with pages := y.pages ++ [(x.1, x.2.1, n)] }) (raiseRef x.1 n t)) t

/-! ### Quantization (R354) -/

/-- Q. -/
def kvTop (d : KvDecl) : F32 := if d.int8 then f32OfInt 127 else f32OfInt 448

/-- A stored element decoded without the page scale (R355, R385). -/
def kvDecode (d : KvDecl) (c : Nat) : F32 :=
  if d.int8 then decodeElem .int8 one32 0 c else decodeElem .e4m3 one32 0 c

/-- ±Q as a code. -/
def kvTopCode (d : KvDecl) (neg : Bool) : Nat :=
  if d.int8 then (if neg then 0x81 else 0x7F) else (if neg then 0xFE else 0x7E)

/-- An element encoded under scale `sc` (R354 step 3). With an unset scale every finite element is a zero and encodes as
itself (R355); so does an element whose scale has underflowed to +0 (DESIGN CHOICE, log 149). -/
def kvEncode (d : KvDecl) (sc x : F32) : Nat :=
  if !isNan x && !finite32 x then kvTopCode d (x.getLsbD 31)
  else if d.int8 then encodeElem .int8 false sc 0 x
  else encodeElem .e4m3 false 0 0 (if isZero32 sc then x else f32Div x sc)

/-- One side of a page, keys or values, after its incoming tokens: the scale, and the codes of all its tokens in
position order (R354). -/
def kvQuantize (d : KvDecl) (sc : F32) (old : List (List Nat)) (new : List (List F32)) : F32 × List (List Nat) :=
  let a := ((new.flatten.filter finite32).map f32Abs).foldl f32Max 0
  let grow := less32 (f32Mul sc (kvTop d)) a
  let sc' := if grow then f32Div (f32Mul a d.headroom) (kvTop d) else sc
  let old' := if grow then old.map fun r => r.map fun c => kvEncode d sc' (f32Mul (kvDecode d c) sc) else old
  (sc', old' ++ new.map fun r => r.map (kvEncode d sc'))

/-- The codes of tokens 0 to n − 1 of one side of a page; `side` 0 for keys, 1 for values (Table 9-2). -/
def pageRows (d : KvDecl) (page : List Byte) (side n : Nat) : List (List Nat) :=
  (List.range n).map fun i =>
    (slice page (0x40 + (side * kvPageTokens d + i) * d.headDim) d.headDim).map (·.toNat)

/-- A page after incoming tokens (R354); `fill` is its FILL before them. -/
def kvAppendPage (d : KvDecl) (page : List Byte) (fill refs : Nat) (ks vs : List (List F32)) : List Byte :=
  let sc (off : Nat) : F32 := if fill = 0 then 0 else BitVec.ofNat 32 (numAt page off 4)
  let k := kvQuantize d (sc 0) (pageRows d page 0 fill) ks
  let v := kvQuantize d (sc 4) (pageRows d page 1 fill) vs
  let bytes (rows : List (List Nat)) : List Byte := rows.flatten.map (BitVec.ofNat 8 ·)
  let head := leBytes 4 k.1.toNat ++ leBytes 4 v.1.toNat ++ leBytes 2 (fill + ks.length) ++ zeros 2 ++ leBytes 4 refs
    ++ zeros 48
  let body := patch (patch page 0x40 (bytes k.2)) (0x40 + kvPageTokens d * d.headDim) (bytes v.2)
  head ++ body.drop 64

end Sys2Proof.Machine
end

