-- ==== Sys2Proof/Machine/KvOps.lean ====
section
/-!
DEFINITION. Sys2Proof/Machine/KvOps.lean: KV tables in memory, eviction notices, and the turns of KV_APPEND, KV_RELEASE
and PREFIX_MATCH in the per-table order (chapter 9).
-/
namespace Sys2Proof.Machine

/-! ### Tables, rights, readers -/

/-- The KV declaration that a command stamped with its generation finds (R367 step 1). -/
def kvFor (s : State) (c : Cmd) : Option KvDecl := (cfgOf s c.gen).kvs.find? (·.id == cmdTable c)

/-- Run-time state of a KV table. -/
def kvState (s : State) (id : Nat) : Option KvTable := s.kv.find? (·.id == id)

/-- Function `f` passes READ_MASK (R208, R342). -/
def mayReadKv (d : KvDecl) (f : Nat) : Bool := f == 0 || f == d.owner || d.readMask.getLsbD f
/-- Function `f` passes WRITE_MASK (R208, R342). -/
def mayWriteKv (d : KvDecl) (f : Nat) : Bool := f == 0 || f == d.owner || d.writeMask.getLsbD f

/-- A loss that the command was in flight at has evicted the slot (R369, R402). -/
def lossEvicted (s : State) (u id slot : Nat) : Bool :=
  s.recov.active.any fun r => r.preLoss.contains u && r.evicted.contains (id, slot)

/-- A command of the per-table order (R348). -/
def isKv (c : Cmd) : Bool := [0x30, 0x31, 0x32, 0x38].contains (opcodeOf c.bytes)

/-- It has not had its turn in the per-table order. -/
def kvWaits (id : Nat) (c : Cmd) : Bool :=
  isKv c && cmdTable c == id && (c.phase == .working || c.phase == .waitHost) && c.attLens.isEmpty

/-- Commands that still read a page (R349). -/
def kvReaders (s : State) (id k n : Nat) : List Nat :=
  (s.cmds.filter fun c => opcodeOf c.bytes == 0x38 && cmdTable c == id &&
    c.kvReads.any fun r => r.slice == k && r.num == n).map (·.uid)

/-! ### Eviction notices (R365) -/

/-- An eviction notice without its PHASE (Table 9-8); `by_` is the function, queue and tag of the appending command,
none for a loss. -/
def noticeBytes (s : State) (id kept : Nat) (e : Evicted) (by_ : Option (Nat × Nat × Nat)) : List Byte :=
  leBytes 1 0 ++ leBytes 1 (if by_.isSome then 1 else 2) ++ leBytes 2 id ++ leBytes 4 e.1 ++ leBytes 4 e.2.1
    ++ leBytes 4 kept ++ leBytes 8 (posOf s)
    ++ (match by_ with
        | some (f, q, tag) => leBytes 1 f ++ leBytes 1 q ++ leBytes 2 tag
        | none => leBytes 1 0xFF ++ leBytes 1 0xFF ++ leBytes 2 0xFFFF)
    ++ zeros 4

/-- A notice is written to the owner's ring, and its vector raised. -/
def writeNotice (f : Nat) (bs : List Byte) (s : State) : State :=
  let r := (vat s.funcs f).kvn
  let t := hostWrite f (r.addr.toNat + 32 * r.tail) (leBytes 1 (b2n r.phase) ++ bs.drop 1) s
  houseBytes s f bs.length (raiseMsix f r.vector (onFunc f (fun F => { F with kvn := ringStep F.kvn }) t))

/-- A notice for the owner: written, held, or counted in LOST (R365). -/
def postNotice (f : Nat) (bs : List Byte) (s : State) : State :=
  let F := vat s.funcs f
  if !F.kvn.en then onFunc f (fun F => { F with kvn := ringLost F.kvn }) s
  else if F.held.isEmpty && ringRoom F.kvn then writeNotice f bs s
  else if F.held.length < 256 then onFunc f (fun F => { F with held := F.held ++ [bs] }) s
  else onFunc f (fun F => { F with kvn := ringLost F.kvn }) s

/-- Held notices go to the ring while it has room. -/
def flushNotices (f : Nat) : Nat → State → State
  | 0, s => s
  | n + 1, s =>
    match (vat s.funcs f).held with
    | [] => s
    | b :: bs =>
      if ringRoom (vat s.funcs f).kvn then flushNotices f n (writeNotice f b (onFunc f (fun F => { F with held := bs }) s))
      else s

/-- Every held notice is counted in LOST: the ring goes, or another takes its place (R365, R374, R845). -/
def loseNotices (f : Nat) (s : State) : State :=
  onFunc f (fun F => { F with held := [], kvn := F.held.foldl (fun r _ => ringLost r) F.kvn }) s

/-- The owner writes HEAD of QDB_KVN (R365). -/
def kvnHead (f : Nat) (h : BitVec 16) (s : State) : State :=
  flushNotices f 256 (onFunc f (fun F => { F with kvn := { F.kvn with head := h } }) s)

/-- QDB_KVN_HEAD: function `f` writes `h` to HEAD of its QDB_KVN (R365). -/
def execQdbKvnHead (f : Fin 64) (h : BitVec 16) (s : State) : Host.Outcome State Fault Refusal :=
  .next (if !linksTraining s || earlyState s then s
    else if pageTakes s f.val then kvnHead f.val h s else countPage f.val s)

/-! ### The store in memory -/

/-- The page-table entries of a slot that differ, as they are to read (R345). -/
def entryChanges (old new : KvSlot) : List (Nat × Nat × Nat) :=
  (new.pages.filter fun e => !old.pages.contains e).map (fun e => (e.1, e.2.1, 0x80000000 + e.2.2))
    ++ (old.pages.filter fun e => (slotPage new e.1 e.2.1).isNone).map fun e => (e.1, e.2.1, 0)

/-- The REFS fields that differ, as they are to read. -/
def refChanges (old new : KvTable) : List (Nat × Nat × Nat) :=
  (new.refs.filter fun e => !old.refs.contains e)
    ++ (old.refs.filter fun e => refsOf new e.1 e.2.1 == 0).map fun e => (e.1, e.2.1, 0)

/-- A page-table entry or REFS field of a store is written, for a command or, at a loss or a reset, for the house (R366,
R614). -/
def kvPoke (by_ : Option Cmd) (da v : Nat) (s : State) : State :=
  let s := match by_ with
    | some c => rowTraffic c da 4 s
    | none => memActivity .house da 4 (noteAtoms da 4 s)
  daPoke s da (leBytes 4 v)

/-- A KV table's new state, with its page tables and REFS fields in memory brought up to date (R343, R345, R366). -/
def commitKv (by_ : Option Cmd) (d : KvDecl) (old new : KvTable) (s : State) : State :=
  let s := { s with kv := s.kv.map fun t => if t.id == new.id then new else t }
  let s := if d.mode == .contig then s else (List.range new.slots.length).foldl (fun s i =>
    (entryChanges (slotOf old i) (slotOf new i)).foldl (fun s e =>
      kvPoke by_ (kvEntryDa s d e.1 i e.2.1) e.2.2 s) s) s
  (refChanges old new).foldl (fun s e => kvPoke by_ (kvPageDa s d e.1 e.2.1 + 0x0C) e.2.2 s) s

/-- A KV table comes into force empty, under a new key, and no page-table entry is VALID (R148, R345, R356). -/
def openKv (d : KvDecl) (s : State) : State :=
  drew (clearPageTables d { s with kv := s.kv ++ [newKvTable d (freeAt s)] })

/-! ### KV_APPEND (section 9.5) -/

/-- LAYER of an append or a decode. -/
def kvLayer (c : Cmd) : Nat := param c.bytes 2 2
/-- NENT of an append. -/
def kvNent (c : Cmd) : Nat := param c.bytes 8 4
/-- IN_FMT. -/
def kvInFmt (c : Cmd) : Option Fmt :=
  match param c.bytes 4 1 with | 0 => some .fp32 | 1 => some .bf16 | 2 => some .fp16 | _ => none

/-- The entries of an append, from its list's bytes. -/
def appendEntries (c : Cmd) : List AppendEntry := (List.range (kvNent c)).map (appendEntry (listOf c))

/-- The token section is there (R351). -/
def hasTokens (d : KvDecl) (c : Cmd) : Bool := kvLayer c == 0 && d.maxNodes != 0

/-- Bytes of the token section. -/
def tokenBytes (d : KvDecl) (c : Cmd) (es : List AppendEntry) : Nat :=
  if hasTokens d c then (es.map fun e => alignUp (4 * e.ntok) 8).sum else 0

/-- Width of an input element. -/
def inWidth (c : Cmd) : Nat := if param c.bytes 4 1 = 0 then 4 else 2

/-- Bytes of one entry's keys, or values. -/
def sideBytes (d : KvDecl) (c : Cmd) (e : AppendEntry) : Nat := e.ntok * d.nheads * d.headDim * inWidth c

/-- Bytes of an append list (R351). -/
def appendLenBytes (d : KvDecl) (c : Cmd) (es : List AppendEntry) : Nat :=
  32 * kvNent c + tokenBytes d c es + (es.map fun e => 2 * sideBytes d c e).sum

/-- Token IDs of entry `i`. -/
def entryTokens (d : KvDecl) (c : Cmd) (es : List AppendEntry) (i : Nat) : List (BitVec 32) :=
  let off := 32 * kvNent c + ((es.take i).map fun e => alignUp (4 * e.ntok) 8).sum
  match es[i]? with
  | none => []
  | some e => if hasTokens d c then (List.range e.ntok).map fun j => BitVec.ofNat 32 (numAt (listOf c) (off + 4 * j) 4) else []

/-- The row of token `j`, head `h` of entry `i`: keys for side 0, values for side 1, in FP32 (R351). -/
def entryRowF (d : KvDecl) (c : Cmd) (es : List AppendEntry) (i side j h : Nat) : List F32 :=
  match es[i]? with
  | none => []
  | some e =>
    let base := 32 * kvNent c + tokenBytes d c es + ((es.take i).map fun e => 2 * sideBytes d c e).sum + side * sideBytes d c e
    let at_ := base + (j * d.nheads + h) * d.headDim * inWidth c
    let row := slice (listOf c) at_ (d.headDim * inWidth c)
    let f := (kvInFmt c).getD .fp32
    (List.range d.headDim).map fun x => decodeElem f one32 0 (codeAt f row x)

/-- One page of an append: entry, head and page number within the sequence. -/
abbrev PageWrite := Nat × Nat × Nat

/-- The pages that an append writes, in entry, head and page order. -/
def pageWrites (d : KvDecl) (es : List AppendEntry) : List PageWrite :=
  (List.range es.length).flatMap fun i =>
    match es[i]? with
    | none => []
    | some e => (List.range d.nheads).flatMap fun h => (entryPages d e).map fun p => (i, h, p)

/-- Position, number and REFS of a page of a slot. -/
def pagePlace (d : KvDecl) (t : KvTable) (seq layer h p : Nat) : Option (Nat × Nat) :=
  let (k, hs, j) := kvPlace d h p
  (slotPage (slotOf t seq) k (kvIndex d layer hs j)).map fun n => (k, n)

/-- The open tail pages that an append writes: slot, position and number (R355, R401). -/
def tailPages (d : KvDecl) (t : KvTable) (layer : Nat) (es : List AppendEntry) : List (Nat × Nat × Nat) :=
  (es.filter fun e => e.pos % kvPageTokens d != 0).flatMap fun e => (List.range d.nheads).filterMap fun h =>
    (pagePlace d t e.seq layer h (e.pos / kvPageTokens d)).map fun x => (e.seq, x.1, x.2)

/-- One page of an append written (R354). The Bool is false once a write has been dropped (R651). -/
def writeKvPage (c : Cmd) (d : KvDecl) (t : KvTable) (es : List AppendEntry) (x : Bool × State) (w : PageWrite) :
    Bool × State :=
  let s := x.2
  match es[w.1]?, x.1 with
  | some e, true =>
    match pagePlace d t e.seq (kvLayer c) w.2.1 w.2.2 with
    | none => x
    | some (k, n) =>
      let T := kvPageTokens d
      let first := max e.pos (w.2.2 * T)
      let last := min (e.pos + e.ntok) ((w.2.2 + 1) * T)
      let rows (side : Nat) := (List.range (last - first)).map fun j => entryRowF d c es w.1 side (first - e.pos + j) w.2.1
      let da := kvPageDa s d k n
      let page := daRead s da (kvPageBytes d)
      let new := kvAppendPage d page (first - w.2.2 * T) (refsOf t k n) (rows 0) (rows 1)
      daWrite (rowTraffic c da (kvPageBytes d) s) da new
  | _, _ => x

/-- The slots of an append take their tokens; then their complete units enter the trie (R353, R359). -/
def finishAppend (c : Cmd) (d : KvDecl) (readers : Nat → Nat → List Nat) (beat : BitVec 48) (es : List AppendEntry)
    (t : KvTable) : KvTable :=
  let t := (List.range es.length).foldl (fun t i =>
    match es[i]? with
    | none => t
    | some e => onSlot e.seq (fun x => { x with tokens := x.tokens ++ entryTokens d c es i }) t) t
  ((es.map (·.seq)).dedup).foldl (fun t i => insertUnits d readers beat i (d.maxTokens / kvUnit d + 1) t) t

/-- Notices of evicted slots for the owner, in order; `t` is the table once every victim has gone. -/
def postNotices (d : KvDecl) (t : KvTable) (by_ : Option (Nat × Nat × Nat)) (es : List Evicted) (s : State) : State :=
  es.foldl (fun s e => postNotice d.owner (noticeBytes s d.id (keptTokens d t e.2.2) e by_) s) s

/-- Slots evicted with KIND SLICE_LOST (R364, R368, R650). -/
def loseSlots (d : KvDecl) (slots : List Nat) (t : KvTable) (s : State) : State :=
  let r := slots.foldl (fun (x : List Evicted × KvTable) i =>
    let e := evictSlot (kvReaders s d.id) i x.2
    (x.1 ++ [e.1], e.2)) ([], t)
  postNotices d r.2 none r.1 (commitKv none d t r.2 s)

/-- The pages are there: the append allocates, writes and ends (R353, R354). -/
def doAppend (u : Nat) (c : Cmd) (d : KvDecl) (t : KvTable) (es : List AppendEntry) (s : State) : State :=
  let readers := kvReaders s d.id
  let t1 := es.foldl (fun t e => allocEntry d (kvLayer c) (stampKey c 0) e t) t
  let r := (pageWrites d es).foldl (writeKvPage c d t1 es) (true, s)
  if !r.1 then endCmd u 0x22 0 r.2
  else
    let t2 := finishAppend c d readers s.tb.beat es t1
    stamp u 10 false (endCmd u 0 c.subst (commitKv (some c) d t t2 r.2))

/-- The work item, of which `n` blocks are done, is still to read the page. -/
def itemReads (d : KvDecl) (u : Nat) (r : KvRead) (n : Nat) (w : CoreWork) : Bool :=
  match w with
  | .item w => w.cmd == u && w.entry == r.entry && w.head == r.head
      && (w.blocks.drop n).any fun b => 16 * b / kvPageTokens d == r.page
  | .launch _ => false

/-- Some core is still to read the page for command `u` (R401). -/
def coreReads (s : State) (d : KvDecl) (u : Nat) (r : KvRead) (K : Core) : Bool :=
  K.queue.any (itemReads d u r 0) || K.item.any (fun w => itemReads d u r K.prog.toNat (.item w))
    || K.saved.any fun x => itemReads d u r (leNat (daRead s (x.at_ + 0x10) 4)) x.work

/-- A decode that has had its turn is still to read page `n` of slice position `k` (R401). -/
def pageAwaited (s : State) (d : KvDecl) (k n : Nat) : Bool :=
  s.cmds.any fun c => opcodeOf c.bytes == 0x38 && cmdTable c == d.id &&
    c.kvReads.any fun r => r.slice == k && r.num == n && s.cores.toList.any (coreReads s d c.uid r)

/-- The append cannot proceed yet: a page it needs is parked (R349), or a tail page it writes is still to be read by an
earlier decode (R401). -/
def appendHeld (c : Cmd) (d : KvDecl) (t : KvTable) (es : List AppendEntry) (s : State) : Bool :=
  let layer := kvLayer c
  let contigHeld := es.any fun e => (entryNew d layer e).any fun x =>
    t.parked.any fun y => y.1 == x.1 && y.2.1 == contigPage d e.seq layer x.2.2.1 x.2.2.2
  let short := (List.range 16).any fun k => decide (freePages d t k < appendDemand d layer es k)
  (if d.mode == .contig then contigHeld else short)
    || (tailPages d t layer es).any fun x => pageAwaited s d x.2.1 x.2.2

/-- KV_APPEND's turn with its pages certain to fit (R353, R401, R650). The Bool is false while it must wait. -/
def appendFits (u : Nat) (c : Cmd) (d : KvDecl) (t : KvTable) (es : List AppendEntry) (s : State) : Bool × State :=
  if appendHeld c d t es s then (false, s)
  else
    let bad := ((tailPages d t (kvLayer c) es).filter fun x => poisoned s (kvPageDa s d x.2.1 x.2.2) (kvPageBytes d)).map (·.1)
    if !bad.isEmpty then (true, endCmd u 0x20 0 (loseSlots d bad.dedup t s))
    else (true, doAppend u c d t es s)

/-- KV_APPEND's turn: steps 11 to 15 of Table 9-6, eviction, and the append (R352, R353, R363); a slot that a loss evicted while
the command was in flight ends it, whatever has become of the slot since (R369). -/
def appendTurn (u : Nat) (c : Cmd) (d : KvDecl) (t : KvTable) (s : State) : Bool × State :=
  let es := appendEntries c
  let layer := kvLayer c
  if es.any fun e => lossEvicted s u d.id e.seq then (true, endLoss u 0x20 0 s)
  else if es.any fun e => d.maxSeqs ≤ e.seq then (true, badOpcode u 6 s)
  else match es.findIdx? fun e => (slotOf t e.seq).st == .evicted with
  | some i => (true, endCmd u 0x30 i s)
  | none =>
    if !appendsOk d layer es t then (true, badOpcode u 7 s)
    else
      let demand := appendDemand d layer es
      if d.mode == .contig || demandFits d t demand then appendFits u c d t es s
      else
        let named := es.map (·.seq)
        match evictUntil d (kvReaders s d.id) demand (t.nodes.length + t.slots.length + 1) (slotVictims d t named) [] t with
        | none => (true, endCmd u 0x15 0 s)
        | some (gone, t') =>
          let s := postNotices d t' (some (c.func, c.q, tagOf c.bytes)) gone (commitKv (some c) d t t' s)
          let s := onCmd u (fun c => { c with subst := c.subst + gone.length }) s
          appendFits u { c with subst := c.subst + gone.length } d t' es s

/-! ### KV_RELEASE and PREFIX_MATCH -/

/-- Slot numbers of a release. -/
def releaseSlots (c : Cmd) : List Nat := (List.range (param c.bytes 4 4)).map fun i => numAt (listOf c) (4 * i) 4

/-- KV_RELEASE's turn (R362). -/
def releaseTurn (u : Nat) (c : Cmd) (d : KvDecl) (t : KvTable) (s : State) : State :=
  let xs := releaseSlots c
  if xs.any fun i => d.maxSeqs ≤ i then badOpcode u 6 s
  else
    let r := xs.foldl (fun (x : Nat × KvTable) i =>
      if (slotOf x.2 i).st == .free then x else (x.1 + 1, dropSlot (kvReaders s d.id) i .free x.2)) (0, t)
    endCmd u 0 r.1 (commitKv (some c) d t r.2 s)

/-- Tokens of a match. -/
def matchTokens (c : Cmd) : List (BitVec 32) :=
  (List.range (param c.bytes 8 4)).map fun i => BitVec.ofNat 32 (numAt (listOf c) (4 * i) 4)

/-- PREFIX_MATCH's turn (R360, R369). -/
def matchTurn (u : Nat) (c : Cmd) (d : KvDecl) (t : KvTable) (s : State) : State :=
  let seq := param c.bytes 4 4
  if lossEvicted s u d.id seq then endLoss u 0x20 0 s
  else if d.maxSeqs ≤ seq then badOpcode u 6 s
  else if (slotOf t seq).st == .evicted then endCmd u 0x30 0 s
  else if (slotOf t seq).st == .open then badOpcode u 9 s
  else
    let r := prefixMatch d s.tb.beat (stampKey c 0) seq (param c.bytes 3 1 % 8) (BitVec.ofNat 64 (param c.bytes 0x18 8))
      (matchTokens c) t
    endCmd u (if r.1 = 0 then 0x31 else 0) r.1 (commitKv (some c) d t r.2 s)

/-! ### Checks 1 to 10 (Table 9-6) -/

/-- The declaration that a KV command works on, or the status and DETAIL of steps 1 to 3. A PREFIX_MATCH passes step 2 when
its function holds READ_MASK or WRITE_MASK (DEDUCED, log 119). -/
def kvChecks (s : State) (c : Cmd) : (Nat × Nat) ⊕ KvDecl :=
  match kvFor s c with
  | none => .inl (0x11, 0xFFFFFFFF)
  | some d =>
    let ok := match opcodeOf c.bytes with
      | 0x38 => mayReadKv d c.func
      | 0x32 => mayReadKv d c.func || mayWriteKv d c.func
      | _ => mayWriteKv d c.func
    if !ok then .inl (0x12, 0) else if d.lost then .inl (0x22, 0) else .inr d

/-- The list is INLINE. -/
def kvInline (c : Cmd) : Bool := inlineOf c.bytes == some true

/-- LIST_DA of a KV command. -/
def kvListDa (c : Cmd) : Bool :=
  if opcodeOf c.bytes = 0x30 then bit (param c.bytes 5 1) 1
  else if opcodeOf c.bytes = 0x38 then bit (param c.bytes 6 1) 1 else bit (param c.bytes 2 1) 1

/-- LIST_ADDR of a KV command. -/
def kvListAddr (c : Cmd) : Nat := if opcodeOf c.bytes = 0x31 then param c.bytes 8 8 else param c.bytes 0x10 8

/-- The first `n` bytes of the list as a range. -/
def kvListRange (c : Cmd) (n : Nat) : Rng := ⟨kvListDa c, kvListAddr c, n⟩

/-- Steps 4 to 6 as far as the parameter block shows them, with the check code of the first that fails. -/
def kvHeadCode (c : Cmd) (d : KvDecl) : Option Nat :=
  match opcodeOf c.bytes with
  | 0x30 =>
    if (kvInFmt c).isNone then some 1 else if d.layers ≤ kvLayer c then some 2
    else if kvNent c < 1 ∨ 4096 < kvNent c then some 3 else none
  | 0x31 => if param c.bytes 4 4 < 1 ∨ 65536 < param c.bytes 4 4 then some 3 else none
  | _ => if param c.bytes 8 4 < 1 ∨ d.maxTokens < param c.bytes 8 4 then some 3 else none

/-- Entries of an append out of range: an NTOK of zero, or a sum above 65,536 (step 6). -/
def badCounts (es : List AppendEntry) : Bool := es.any (·.ntok == 0) || decide (65536 < (es.map (·.ntok)).sum)

/-- Bytes of the list of a release or a match. -/
def shortListLen (c : Cmd) : Nat := 4 * (if opcodeOf c.bytes = 0x31 then param c.bytes 4 4 else param c.bytes 8 4)

end Sys2Proof.Machine
end

