-- ==== Sys2Proof/Machine/Attn.lean ====
section
/-!
DEFINITION. Sys2Proof/Machine/Attn.lean: ATTN_DECODE: its checks, what a query attends, the block algorithm, the split
over cores and slices, folds and merges; and the per-table order of KV commands (chapters 9 and 10).
-/
namespace Sys2Proof.Machine

/-! ### The parameter block (Table 10-1) -/

/-- Q, the query rows of a KV head (R377). -/
def attnQ (c : Cmd) : Nat := 2 ^ (bits (param c.bytes 6 1) 5 3)
/-- W, the cores of a head (R390). -/
def attnW (c : Cmd) : Nat := 8 / 2 ^ (bits (param c.bytes 6 1) 3 2)
/-- SCALE. -/
def attnScale (c : Cmd) : F32 := BitVec.ofNat 32 (param c.bytes 0x0C 4)
/-- WINDOW. -/
def attnWindow (c : Cmd) : Nat := bits (param c.bytes 0x24 4) 0 21
/-- SINK. -/
def attnSink (c : Cmd) : Nat := bits (param c.bytes 0x24 4) 24 8
/-- A format of Table 6-3. -/
def ioFmt (n : Nat) : Option Fmt := match n with | 0 => some .fp32 | 1 => some .bf16 | 2 => some .fp16 | _ => none
/-- Q_FMT. -/
def attnQFmt (c : Cmd) : Fmt := (ioFmt (param c.bytes 4 1)).getD .fp32
/-- OUT_FMT. -/
def attnOutFmt (c : Cmd) : Fmt := (ioFmt (param c.bytes 5 1)).getD .fp32
/-- Width of a format of Table 6-3 in bytes. -/
def ioWidth (n : Nat) : Nat := if n = 0 then 4 else 2
/-- Bytes of a query row. -/
def attnRowBytes (d : KvDecl) (c : Cmd) : Nat := d.headDim * ioWidth (param c.bytes 4 1)
/-- L, the bytes of the query list (R377). -/
def attnListLen (d : KvDecl) (c : Cmd) : Nat := 16 * kvNent c + kvNent c * d.nheads * attnQ c * attnRowBytes d c
/-- OUT_LEN (R378). -/
def attnOutLen (d : KvDecl) (c : Cmd) : Nat := d.nheads * attnQ c * d.headDim * ioWidth (param c.bytes 5 1)
/-- OUT_STRIDE. -/
def attnStride (c : Cmd) : Nat := param c.bytes 0x20 4
/-- The output range. -/
def attnOutRange (d : KvDecl) (c : Cmd) : Rng :=
  ⟨bit (param c.bytes 6 1) 2, param c.bytes 0x18 8, (kvNent c - 1) * attnStride c + attnOutLen d c⟩

/-- Steps 4 to 13 of Table 10-3: the check code of the first that fails. -/
def attnCode (d : KvDecl) (c : Cmd) : Option Nat :=
  let w := ioWidth (param c.bytes 5 1)
  if (ioFmt (param c.bytes 4 1)).isNone then some 1
  else if (ioFmt (param c.bytes 5 1)).isNone then some 2
  else if d.layers ≤ kvLayer c then some 3
  else if kvNent c < 1 ∨ 4096 < kvNent c ∨ 4 < bits (param c.bytes 6 1) 5 3 then some 4
  else if !finite32 (attnScale c) then some 5
  else if d.maxTokens < attnWindow c ∨ d.maxTokens < 16 * attnSink c then some 6
  else if kvInline c && badInline c.bytes (attnListLen d c) then some 7
  else if (!kvInline c && decide (kvListAddr c % 8 ≠ 0))
      || decide (param c.bytes 0x18 8 % w ≠ 0 ∨ attnStride c % w ≠ 0) then some 8
  else if attnStride c < attnOutLen d c then some 9
  else if !kvInline c && rngMeet (kvListRange c (attnListLen d c)) (attnOutRange d c) then some 0x0A
  else none

/-- SEQ of entry `i`. -/
def attnSeq (c : Cmd) (i : Nat) : Nat := numAt (listOf c) (16 * i) 4
/-- ATT_LEN of entry `i`. -/
def attnLen (c : Cmd) (i : Nat) : Nat := numAt (listOf c) (16 * i + 4) 4

/-- The query row of entry `i`, head `h`, group row `j`, in FP32 (R377). -/
def queryRow (d : KvDecl) (c : Cmd) (i h j : Nat) : List F32 :=
  let n := attnRowBytes d c
  let row := slice (listOf c) (16 * kvNent c + ((i * d.nheads + h) * attnQ c + j) * n) n
  (List.range d.headDim).map fun e => decodeElem (attnQFmt c) one32 0 (codeAt (attnQFmt c) row e)

/-! ### What is attended (R382, R383) -/

/-- Position `x` is attended (R382). -/
def attended (l window sink x : Nat) : Bool :=
  decide (x < l) && (window == 0 || decide (l ≤ x + window) || decide (x < 16 * sink))

/-- The attended blocks of an entry, in position order (R383). -/
def attendedBlocks (l window sink : Nat) : List Nat :=
  (List.range (ceilDiv l 16)).filter fun b => (List.range 16).any fun i => attended l window sink (16 * b + i)

/-- The blocks of a pair whose pages lie at slice position `k` (R389). -/
def blockList (d : KvDecl) (blocks : List Nat) (h k : Nat) : List Nat :=
  blocks.filter fun b => (kvPlace d h (16 * b / kvPageTokens d)).1 == k

/-- Slice positions at which a pair of a command is present. -/
def pairSlices (c : Cmd) (i h : Nat) : List Nat :=
  (List.range 16).filter fun k => c.kvReads.any fun r => r.entry == i && r.head == h && r.slice == k

/-! ### The block algorithm (R386) and the merge (R392) -/

/-- A run that has taken no block: m = −∞, l = +0, o = +0. -/
def emptyPartial (d : KvDecl) : Partial :=
  { empty := true, m := 0xFF800000, l := 0, o := List.replicate d.headDim 0 }

/-- One block of a query row: `f` is mul(SCALE, s_K), `ts` the attended positions' keys and values (R386). -/
def blockStep (f sv : F32) (q : List F32) (ts : List (List F32 × List F32)) (p : Partial) : Partial :=
  let ss := ts.map fun t => f32Mul f (dot (q.zip t.1))
  let mb := match ss with | [] => p.m | x :: xs => xs.foldl f32Max x
  let mn := f32Max p.m mb
  let a := f32Exp2 (f32Sub p.m mn)
  let ws := ss.map fun x => f32Exp2 (f32Sub x mn)
  let ps := ws.foldl f32Add 0
  { empty := false, m := mn, l := f32Add (f32Mul p.l a) ps,
    o := (List.range p.o.length).map fun e =>
      f32Fma sv (dot (ws.zip (ts.map fun t => nth t.2 e 0))) (f32Mul (nth p.o e 0) a) }

/-- merge (R392). -/
def mergePartial (a b : Partial) : Partial :=
  if b.empty then a else if a.empty then b
  else
    let m := f32Max a.m b.m
    let al := f32Exp2 (f32Sub a.m m)
    let be := f32Exp2 (f32Sub b.m m)
    { empty := false, m := m, l := f32Add (f32Mul a.l al) (f32Mul b.l be),
      o := List.zipWith (fun x y => f32Add (f32Mul x al) (f32Mul y be)) a.o b.o }

/-- merge, row by row. -/
def mergeRows (a b : List Partial) : List Partial := List.zipWith mergePartial a b

/-- A row normalized and encoded (R395). -/
def normalized (sp : Bool) (fmt : Fmt) (p : Partial) : List Byte :=
  encodeSegment sp fmt (p.o.map fun x => if p.empty then 0 else f32Div x p.l)

/-! ### Output (R379) -/

/-- The bytes of entry `i` once every head has arrived. -/
def entryOutput (d : KvDecl) (c : Cmd) (i : Nat) : Option (List Byte) :=
  ((List.range d.nheads).mapM fun h => (c.arrived.find? fun a => a.1 == i && a.2.1 == h).map (·.2.2)).map (·.flatten)

/-- Work of a command that no longer runs leaves cores, partials and packets. -/
def dropAttn (u : Nat) (s : State) : State :=
  let mine (w : CoreWork) : Bool := match w with | .item w => w.cmd == u | .launch _ => false
  let clear (k : Core) : Core :=
    let k := { k with queue := k.queue.filter fun w => !mine w,
                      saved := k.saved.filter fun x => !mine x.work }
    match k.item with
    | some w => if w.cmd == u then { k with mode := .idle, item := none, parts := [], prog := 0 } else k
    | none => k
  { s with cores := s.cores.map clear, partials := s.partials.filter (·.cmd != u),
           ring := { s.ring with merges := s.ring.merges.filter (·.cmd != u) } }

/-- Entries are written in ascending order as far as their rows are there; after the last the command ends. -/
def writeEntries (u : Nat) (d : KvDecl) : Nat → State → State
  | 0, s => s
  | n + 1, s =>
    match cmdOf s u with
    | none => s
    | some c =>
      if c.total ≤ c.done then stamp u 10 false (stamp u 9 false (endCmd u 0 0 s))
      else match entryOutput d c c.done with
      | none => s
      | some bs =>
        let o := attnOutRange d c
        let at_ := o.addr + c.done * attnStride c
        let s := if o.dev then chargeCmd c at_ bs.length s else s
        let r := rngWrite c o.dev at_ bs s
        if !r.1 then dropAttn u (endCmd u 0x22 0 r.2)
        else writeEntries u d n (onCmd u (fun c =>
          { c with done := c.done + 1, arrived := c.arrived.filter (·.1 != c.done) }) r.2)

/-- The rows of a pair arrive at the home bridge. -/
def pairArrives (u : Nat) (d : KvDecl) (i h : Nat) (bs : List Byte) (s : State) : State :=
  let s := onCmd u (fun c => { c with arrived := (i, h, bs) :: c.arrived }) s
  match cmdOf s u with
  | none => s
  | some c => writeEntries u d (c.total - c.done + 1) s

/-- A pair's final partials are normalized at slice `k` and sent to the home bridge (R395, R399). -/
def normalizePair (u : Nat) (d : KvDecl) (i h k : Nat) (ps : List Partial) (s : State) : State :=
  match cmdOf s u with
  | none => s
  | some c =>
    let bs := (ps.map (normalized (special s (attnOutFmt c)) (attnOutFmt c))).flatten
    pairArrives u d i h bs (linkActivity (.cmd u) k (bridgeOf c.func) bs.length s)

/-! ### The turn of ATTN_DECODE (R381, R389, R390) -/

/-- The reads of one pair: one for each page with an attended block. -/
def pairReads (d : KvDecl) (x : KvSlot) (layer i h : Nat) (blocks : List Nat) : List KvRead :=
  ((blocks.map fun b => 16 * b / kvPageTokens d).dedup).filterMap fun p =>
    let (k, hs, j) := kvPlace d h p
    (slotPage x k (kvIndex d layer hs j)).map fun n => { entry := i, head := h, page := p, slice := k, num := n }

/-- Core `k` is given a work item; a run without blocks is an empty partial at once (R390, R391). -/
def dealItem (d : KvDecl) (c : Cmd) (i h k core : Nat) (run : List Nat) (s : State) : State :=
  if run.isEmpty then
    { s with partials := s.partials ++ [{ cmd := c.uid, entry := i, head := h, slice := k, core := core,
                                          parts := List.replicate (attnQ c) (emptyPartial d) }] }
  else
    onCore (8 * actor s k + core) (fun x =>
      { x with queue := x.queue ++ [.item { cmd := c.uid, entry := i, head := h, blocks := run }] }) s

/-- Pair number `n` of slice position `k` is split over its group's cores (R390). -/
def dealPair (d : KvDecl) (c : Cmd) (k n i h : Nat) (blocks : List Nat) (s : State) : State :=
  let w := attnW c
  let g := n % (8 / w)
  let N := blocks.length
  (List.range w).foldl (fun s x =>
    let a := x * N / w
    let b := (x + 1) * N / w
    dealItem d c i h k (g * w + x) ((blocks.drop a).take (b - a)) s) s

/-- Every pair present at slice position `k`, in ascending entry and head (R389, R390). -/
def dealSlice (d : KvDecl) (c : Cmd) (lens : List Nat) (s : State) (k : Nat) : State :=
  let pairs := (List.range (kvNent c)).flatMap fun i =>
    let bl := attendedBlocks (nth lens i 0) (attnWindow c) (attnSink c)
    (List.range d.nheads).filterMap fun h =>
      let l := blockList d bl h k
      if l.isEmpty then none else some (i, h, l)
  (pairs.foldl (fun (x : Nat × State) p => (x.1 + 1, dealPair d c k x.1 p.1 p.2.1 p.2.2 x.2)) (0, s)).2

/-- Pairs that attend nothing are +0 at once; those on several slices get their merge packet (R394, R404). -/
def openPair (d : KvDecl) (u : Nat) (s : State) (p : Nat × Nat) : State :=
  match cmdOf s u with
  | none => s
  | some c =>
    match pairSlices c p.1 p.2 with
    | [] => onCmd u (fun c => { c with arrived :=
        (p.1, p.2, zeros (attnQ c * d.headDim * ioWidth (param c.bytes 5 1))) :: c.arrived }) s
    | [_] => s
    | _ => { s with ring := { s.ring with merges := s.ring.merges ++
        [{ cmd := u, entry := p.1, head := p.2, next := (positions s).headD 0,
           parts := List.replicate (attnQ c) (emptyPartial d) }] } }

/-- The slots of an ATTN_DECODE that have a poisoned attended block to read (R383, R650). -/
def poisonedSlots (d : KvDecl) (c : Cmd) (lens : List Nat) (reads : List KvRead) (s : State) : List Nat :=
  let bad (r : KvRead) : Bool := (attendedBlocks (nth lens r.entry 0) (attnWindow c) (attnSink c)).any fun b =>
    16 * b / kvPageTokens d == r.page && poisonedBlock s d r.slice r.num b
  ((reads.filter bad).map fun r => attnSeq c r.entry).dedup

/-- ATTN_DECODE's turn: steps 15 to 18, then its block lists and work items (R380, R381, R389, R390, R402). -/
def attnTurn (u : Nat) (c : Cmd) (d : KvDecl) (t : KvTable) (s : State) : State :=
  let n := kvNent c
  let es := List.range n
  let layer := kvLayer c
  let slot (i : Nat) : KvSlot := slotOf t (attnSeq c i)
  let len (i : Nat) : Nat := nth (slot i).lens layer 0
  if es.any fun i => lossEvicted s u d.id (attnSeq c i) then endLoss u 0x20 0 s
  else if es.any fun i => d.maxSeqs ≤ attnSeq c i then badOpcode u 0x0B s
  else match es.find? fun i => (slot i).st == .evicted with
  | some i => endCmd u 0x30 i s
  | none =>
    if es.any fun i => (slot i).st == .free then badOpcode u 0x0C s
    else if es.any fun i => len i < attnLen c i then badOpcode u 0x0D s
    else
      let lens := es.map fun i => if attnLen c i = 0 then len i else attnLen c i
      let reads := es.flatMap fun i =>
        let bl := attendedBlocks (nth lens i 0) (attnWindow c) (attnSink c)
        (List.range d.nheads).flatMap fun h => pairReads d (slot i) layer i h bl
      let bad := poisonedSlots d c lens reads s
      if !bad.isEmpty then endCmd u 0x20 0 (loseSlots d bad t s)
      else
        let s := onCmd u (fun c => { c with attLens := lens, kvReads := reads, total := n }) s
        let s := (List.range 16).foldl (dealSlice d c lens) s
        let s := (es.flatMap fun i => (List.range d.nheads).map fun h => (i, h)).foldl (openPair d u) s
        writeEntries u d (n + 1) (stamp u 3 false s)

/-! ### The per-table order (R348) -/

/-- The turn of a command whose list is there. The Bool is false while it must wait. -/
def kvTurn (c : Cmd) (s : State) : Bool × State :=
  match kvFor s c, kvState s (cmdTable c) with
  | some d, some t =>
    match opcodeOf c.bytes with
    | 0x30 => appendTurn c.uid c d t s
    | 0x31 => (true, releaseTurn c.uid c d t s)
    | 0x32 => (true, matchTurn c.uid c d t s)
    | _ => (true, attnTurn c.uid c d t s)
  | _, _ => (true, endCmd c.uid 0x11 0xFFFFFFFF s)

/-- The command of a table whose turn is next. -/
def nextKv (s : State) (id : Nat) : Option Cmd :=
  match s.cmds.filter (kvWaits id) with
  | [] => none
  | c :: cs => some (cs.foldl (fun m x => if before x m then x else m) c)

/-- Pages would be placed on a position whose stand-in begins only at the recovery cut (R767). -/
def kvParked (s : State) : Bool := s.recov.hold && !(orphans s).isEmpty

/-- Commands of one KV table take their turns in ascending stamp, up to the first that must wait (R348). -/
def pumpKv (id : Nat) : Nat → State → State
  | 0, s => s
  | n + 1, s =>
    match nextKv s id with
    | none => s
    | some c =>
      if !c.checked || kvParked s then s
      else
        let r := kvTurn c s
        if r.1 then pumpKv id n r.2 else r.2

/-- One KV table's commands go on as far as they can. -/
def pumpTable (id : Nat) (s : State) : State := pumpKv id (s.cmds.length + 1) s

/-- Every KV table's commands go on as far as they can. -/
def pumpAllKv (s : State) : State := s.kv.foldl (fun s t => pumpTable t.id s) s

/-- A command has left the device: pages parked for it are free, and commands that waited for it go on (R349, R372). -/
def kvLeft (c : Cmd) (s : State) : State :=
  if isKv c then pumpAllKv { (dropAttn c.uid s) with kv := s.kv.map (unparkFor c.uid) } else s

/-! ### Start -/

/-- A command's list is complete. -/
def kvReady (u : Nat) (s : State) : State :=
  match cmdOf s u with
  | none => s
  | some c =>
    pumpTable (cmdTable c)
      (stamp u 1 false (onCmd u (fun c => { c with checked := true, phase := .working }) s))

/-- The rest of an append's list is read once its entries are known: the counts of step 6, then steps 8 and 9, then the
data (R351, R367). -/
def appendRest (u : Nat) (s : State) : State :=
  match cmdOf s u with
  | none => s
  | some c =>
    match kvFor s c with
    | none => endCmd u 0x11 0xFFFFFFFF s
    | some d =>
      let es := appendEntries c
      let whole := kvListRange c (appendLenBytes d c es)
      let rest : Rng := ⟨whole.dev, whole.addr + 32 * kvNent c, whole.len - 32 * kvNent c⟩
      let k := rngKind s c.func false whole
      if badCounts es then badOpcode u 3 s
      else if whole.addr % 8 ≠ 0 then badOpcode u 5 s
      else if k ≠ 0 then failRange u k whole.addr s
      else
        let s := onCmd u (fun c => { c with done := 1, phase := .working }) s
        if onHost rest then askHost u (translations s c.func [rest] ++ [readOf c.func rest]) s
        else if poisoned s rest.addr rest.len then endCmd u 0x22 0 s
        else kvReady u (onCmd u (fun x => { x with data := x.data ++ daRead s rest.addr rest.len, done := 0 })
          (chargeCmd c rest.addr rest.len s))

/-- An INLINE append's checks (R224, R367). -/
def appendInline (u : Nat) (c : Cmd) (d : KvDecl) (s : State) : State :=
  let es := appendEntries c
  if (payload c.bytes).length < 32 * kvNent c then badOpcode u 4 s
  else if badCounts es then badOpcode u 3 s
  else if badInline c.bytes (appendLenBytes d c es) then badOpcode u 4 s
  else kvReady u s

/-- KV_APPEND, KV_RELEASE or PREFIX_MATCH once admitted: steps 1 to 10 of Table 9-6. An append's entries, which step 6
needs, are read even from a LIST_ADDR that step 8 refuses, unless their own range fails (log 106). -/
def startKv (u : Nat) (s : State) : State :=
  match cmdOf s u with
  | none => s
  | some c =>
    match kvChecks s c with
    | .inl (st, x) => endCmd u st x s
    | .inr d =>
      let noTrie := opcodeOf c.bytes == 0x32 && d.maxNodes == 0
      let append := opcodeOf c.bytes == 0x30
      match kvHeadCode c d with
      | some code => badOpcode u code s
      | none =>
        if kvInline c then
          if append then appendInline u c d s
          else if badInline c.bytes (shortListLen c) then badOpcode u 4 s
          else if noTrie then badOpcode u 8 s else kvReady u s
        else
          let r := kvListRange c (if append then 32 * kvNent c else shortListLen c)
          let k := rngKind s c.func false r
          if r.addr % 8 ≠ 0 && (!append || k != 0) then badOpcode u 5 s
          else if k ≠ 0 then failRange u k r.addr s
          else if noTrie then badOpcode u 8 s
          else fetchList u r (if append then appendRest u else kvReady u) s

/-- ATTN_DECODE once admitted: steps 1 to 14 of Table 10-3, its translations and its list. When both ranges fail step 14 the
list range is reported (DESIGN CHOICE, log 135). -/
def startAttn (u : Nat) (s : State) : State :=
  match cmdOf s u with
  | none => s
  | some c =>
    match kvChecks s c with
    | .inl (st, x) => endCmd u st x s
    | .inr d =>
      match attnCode d c with
      | some code => badOpcode u code s
      | none =>
        let l := kvListRange c (attnListLen d c)
        let o := attnOutRange d c
        let kl := if kvInline c then 0 else rngKind s c.func false l
        let ko := rngKind s c.func true o
        if kl ≠ 0 then failRange u kl l.addr s
        else if ko ≠ 0 then failRange u ko o.addr s
        else
          let ts := translations s c.func (if kvInline c then [o] else [l, o])
          if kvInline c then (if ts.isEmpty then kvReady u s else askHost u ts s)
          else if onHost l then askHost u (ts ++ [readOf c.func l]) s
          else if poisoned s l.addr l.len then endCmd u 0x22 0 s
          else
            let s := onCmd u (fun x => { x with data := daRead s l.addr l.len }) (chargeCmd c l.addr l.len s)
            if ts.isEmpty then kvReady u s else askHost u ts s

/-- Host data, or the last translation, has come for a KV command or an ATTN_DECODE. -/
def kvHost (u : Nat) (data : Option (List Byte)) (s : State) : State :=
  match cmdOf s u with
  | none => s
  | some c =>
    let s := onCmd u (fun c => { c with data := c.data ++ data.getD [] }) s
    if opcodeOf c.bytes = 0x30 ∧ c.done = 0 then appendRest u s
    else kvReady u (onCmd u (fun c => { c with done := 0 }) s)

/-- A command whose checks have ended it lets the next one of its table go on. -/
def andPump (start : Nat → State → State) (u : Nat) (s : State) : State := pumpAllKv (start u s)

/-- KV_APPEND from queue pair `q` (R353). -/
def execKvAppend (q : Fin 256) (s : State) : Host.Outcome State Fault Refusal :=
  .next (admitCommand (· == 0x30) q.val (andPump startKv) s)

/-- KV_RELEASE from queue pair `q` (R362). -/
def execKvRelease (q : Fin 256) (s : State) : Host.Outcome State Fault Refusal :=
  .next (admitCommand (· == 0x31) q.val (andPump startKv) s)

/-- PREFIX_MATCH from queue pair `q` (R360). -/
def execPrefixMatch (q : Fin 256) (s : State) : Host.Outcome State Fault Refusal :=
  .next (admitCommand (· == 0x32) q.val (andPump startKv) s)

/-- ATTN_DECODE from queue pair `q` (R386). -/
def execAttnDecode (q : Fin 256) (s : State) : Host.Outcome State Fault Refusal :=
  .next (admitCommand (· == 0x38) q.val (andPump startAttn) s)

/-! ### Work on a core (R386, R391) -/

/-- The page of a pair that a command reads. -/
def readOfPage (c : Cmd) (i h p : Nat) : Option KvRead :=
  c.kvReads.find? fun r => r.entry == i && r.head == h && r.page == p

/-- The attended positions' keys and values of block `b`, and its page's scales (R383, R386). -/
def blockData (d : KvDecl) (page : List Byte) (l window sink b : Nat) : F32 × F32 × List (List F32 × List F32) :=
  let T := kvPageTokens d
  let row (side x : Nat) : List F32 :=
    (slice page (0x40 + (side * T + x % T) * d.headDim) d.headDim).map fun c => kvDecode d c.toNat
  let xs := ((List.range 16).map fun i => 16 * b + i).filter (attended l window sink)
  (BitVec.ofNat 32 (numAt page 0 4), BitVec.ofNat 32 (numAt page 4 4), xs.map fun x => (row 0 x, row 1 x))

/-- What step `n` of a run of blocks reads of its page, at offsets from it: the block's keys and values, and the header of a
page that the step before did not read (R383, R400). -/
def blockTouches (d : KvDecl) (run : List Nat) (n : Nat) : List (Nat × Nat) :=
  let page (i : Nat) : Nat := 16 * nth run i 0 / kvPageTokens d
  (blockParts d (nth run n 0)).drop (if 0 < n ∧ page (n - 1) = page n then 1 else 0)

/-- Activity events of a core for one block and `q` query rows: the products of 16 positions for keys and values, 16 to an
event (Table 19-4), which R400's HEAD_DIM × Q / 8 cycles of the 256 cells are (DEDUCED, log 7). -/
def blockEvents (d : KvDecl) (q : Nat) : Nat := 2 * d.headDim * q

/-- One block of a work item: the partials of its Q query rows go on (R386). -/
def attnBlock (d : KvDecl) (c : Cmd) (w : WorkItem) (b : Nat) (page : List Byte) (ps : List Partial) : List Partial :=
  let x := blockData d page (nth c.attLens w.entry 0) (attnWindow c) (attnSink c) b
  let f := f32Mul (attnScale c) x.1
  (List.range ps.length).map fun j =>
    blockStep f x.2.1 (queryRow d c w.entry w.head j) x.2.2 (nth ps j (emptyPartial d))

/-- A command's decode ends with ABORTED_RECOVERY and the number of entries written (R369, R402, R650). -/
def abortAttn (u : Nat) (s : State) : State :=
  match cmdOf s u with
  | none => s
  | some c => dropAttn u (endCmd u 0x20 c.done s)

/-- One ATTN.BLOCK step on core `k`: the next block of its work item; after the last the core's partials are finished
and it is idle (R386, R388, R393). An append that waits for the page may go on (R401). -/
def attnStep (k : Nat) (s : State) : State :=
  let K := vat s.cores k
  match K.item with
  | none => s
  | some w =>
    match cmdOf s w.cmd with
    | none => s
    | some c =>
      match kvFor s c, w.blocks[K.prog.toNat]? with
      | some d, some b =>
        match readOfPage c w.entry w.head (16 * b / kvPageTokens d) with
        | none => s
        | some r =>
          let da := kvPageDa s d r.slice r.num
          if poisonedBlock s d r.slice r.num b then
            match kvState s d.id with
            | none => s
            | some t => abortAttn c.uid (loseSlots d [attnSeq c w.entry] t s)
          else
            let s := if K.prog = 0 then stamp c.uid 5 true (stamp c.uid 4 false s) else s
            let s := (blockTouches d w.blocks K.prog.toNat).foldl (fun s x => rowTraffic c (da + x.1) x.2 s) s
            let s := activity (.cmd c.uid) (18 * (k / 8) + k % 8) (blockEvents d (attnQ c)) s
            let ps := attnBlock d c w b (daRead s da (kvPageBytes d)) K.parts
            if K.prog.toNat + 1 < w.blocks.length then
              pumpTable d.id (onCore k (fun K => { K with parts := ps, prog := K.prog + 1 }) s)
            else
              let s := onCore k (fun K => { K with mode := .idle, item := none, parts := [], prog := 0 }) s
              let p : CorePartial :=
                { cmd := c.uid, entry := w.entry, head := w.head, slice := r.slice, core := k % 8, parts := ps }
              pumpTable d.id { s with partials := s.partials ++ [p] }
      | _, _ => s

/-! ### SLICE_PARTIAL_FOLD and ATTN_MERGE_PACKET -/

/-- Partials of a pair at a slice position that are not folded. -/
def corePartials (s : State) (u i h k : Nat) : List CorePartial :=
  sortBy (fun a b => decide (a.core < b.core)) (s.partials.filter fun p =>
    p.cmd == u && p.entry == i && p.head == h && p.slice == k && decide (p.core < 8))

/-- The group's lowest core folds its cores' partials in ascending order (R393); a pair on one slice is normalized at
once (R395). -/
def foldSlice (u i h k : Nat) (s : State) : State :=
  match cmdOf s u with
  | none => s
  | some c =>
    match kvFor s c, corePartials s u i h k with
    | some d, p :: ps =>
      if (p :: ps).length ≠ attnW c then s
      else
        let f := ps.foldl (fun a x => mergeRows a x.parts) p.parts
        let rest := s.partials.filter fun x => !(x.cmd == u && x.entry == i && x.head == h && x.slice == k)
        if (pairSlices c i h).length ≤ 1 then normalizePair u d i h (actor s k) f { s with partials := rest }
        else { s with partials := rest ++ [{ p with core := 8, parts := f }] }
    | _, _ => s

/-- SLICE_PARTIAL_FOLD: command `u`, entry, head, slice position (R393). -/
def execSlicePartialFold (u : Nat) (entry head : Fin 4096) (k : Fin 16) (s : State) : Host.Outcome State Fault Refusal :=
  .next (foldSlice u entry.val head.val k.val s)

/-- The slice position after `k` that is live or stood in for. -/
def nextPosition (s : State) (k : Nat) : Nat := ((positions s).find? fun p => k < p).getD 16

/-- Packet `i` reaches its next slice: it merges the slice partial there, passes on, or, at the last slice that holds
the pair, is normalized (R394, R395). It waits for a slice partial not yet folded. -/
def mergeHop (i : Nat) (s : State) : State :=
  match s.ring.merges[i]? with
  | none => s
  | some m =>
    match cmdOf s m.cmd with
    | none => s
    | some c =>
      match kvFor s c with
      | none => s
      | some d =>
        let put (x : MergePkt) : State :=
          let k := if m.next = 16 then 16 else actor s m.next
          ringSend (.cmd c.uid) k ((k + 1) % 17) (attnQ c * (8 + 4 * d.headDim))
            { s with ring := { s.ring with merges := s.ring.merges.set i x } }
        let here := pairSlices c m.entry m.head
        if !here.contains m.next then put { m with next := nextPosition s m.next }
        else match s.partials.find? fun p => p.cmd == m.cmd && p.entry == m.entry && p.head == m.head
            && p.slice == m.next && p.core == 8 with
        | none => s
        | some p =>
          let ps := mergeRows m.parts p.parts
          if c.wants.any (·.ats) then s
          else if here.getLast? == some m.next then
            let rest := s.partials.filter fun x => !(x.cmd == m.cmd && x.entry == m.entry && x.head == m.head)
            normalizePair c.uid d m.entry m.head (actor s m.next) ps
              { (put m) with ring := { s.ring with merges := s.ring.merges.eraseIdx i }, partials := rest }
          else put { m with next := nextPosition s m.next, parts := ps }

/-- ATTN_MERGE_PACKET: packet `i` of those on the ring (R394). -/
def execAttnMergePacket (i : Nat) (s : State) : Host.Outcome State Fault Refusal :=
  .next (mergeHop i s)

end Sys2Proof.Machine
end

