-- ==== Sys2Proof/Machine/RegView.lean ====
section
/-!
DEFINITION. Sys2Proof/Machine/RegView.lean: every register of region 0x0 as a list of fields, and what a read of it
returns (chapter 23).
-/
namespace Sys2Proof.Machine

/-- How a field takes a write: its access code with its collision class (Tables 0-3 and 0-4). -/
inductive FieldKind where
  /-- RO, HOWN: a write is ignored and counted. -/
  | ro
  /-- RW, SWIN. -/
  | rw
  /-- W1C, HSET. -/
  | w1c
  /-- RW, CSUM, wrapping at its width. -/
  | csum
  /-- RW, CSUM, saturating. -/
  | csumSat
  deriving DecidableEq, Repr

/-- One field of a register: its place and its current value. Bits in no field are RsvdZ. -/
structure Field where
  lo : Nat
  width : Nat
  kind : FieldKind
  val : Nat
  deriving DecidableEq, Repr

/-- An RO field. -/
def roF (lo w v : Nat) : Field := ⟨lo, w, .ro, v⟩
/-- An RW field of class SWIN. -/
def rwF (lo w v : Nat) : Field := ⟨lo, w, .rw, v⟩
/-- A status bit. -/
def evF (lo : Nat) (b : Bool) : Field := ⟨lo, 1, .w1c, b2n b⟩

/-- The 64 bits of a register (R850). -/
def regVal (fs : List Field) : Nat := (fs.map fun f => put f.val f.lo f.width).sum

/-! ### Control die (Table 23-5) -/

/-- CTL_PART (Table 23-4, R34). -/
def partFields (s : State) : List Field := [roF 0 16 0x0E17, roF 16 8 s.sys.stepping.toNat]

/-- Block CTL_SYS. -/
def sysFields (s : State) (off : Nat) : Option (List Field) :=
  match off with
  | 0x00 => some [roF 0 4 (stateCode s.sys.state), roF 8 8 s.sys.cause.toNat, roF 16 48 s.sys.entered.toNat]
  | 0x08 => some (partFields s)
  | 0x10 => some [roF 0 2 s.sys.bootSrc.toNat, roF 8 8 s.sys.aCode.toNat, roF 16 8 s.sys.bCode.toNat,
                  roF 24 4 s.sys.replay.toNat, roF 32 32 s.sys.versionLo.toNat]
  | 0x18 => some [roF 0 8 s.sys.haltCause.toNat]
  | 0x20 =>
    let lost := ((lostData s).map (2 ^ ·)).sum
    some [roF 0 32 s.recov.epoch.toNat, roF 32 1 (b2n s.recov.hold), roF 33 1 (b2n s.recov.standin.isSome),
          roF 34 4 (s.recov.standin.getD 0), roF 38 1 (b2n s.recov.huskLost), roF 39 1 (b2n s.recov.done),
          roF 40 16 lost, roF 56 2 (b2n (vat s.brg 0).offline + 2 * b2n (vat s.brg 1).offline)]
  | _ => none

/-- Codes of Table 3-2. -/
def trkCode : TrkState → Nat
  | .holdover => 0 | .acquire => 1 | .locked => 2

/-- Block CTL_TB. -/
def tbFields (s : State) (off : Nat) : Option (List Field) :=
  let t := s.tb
  match off with
  | 0x00 => some [roF 0 2 (trkCode t.trk), roF 2 1 (b2n t.neverLocked), evF 4 t.holdEv, evF 5 t.stretchEv,
                  evF 6 t.splitEv, ⟨16, 16, .csumSat, t.stray.toNat⟩, roF 32 32 t.period.toNat]
  | 0x08 => some [roF 0 16 t.tick.toNat, roF 16 48 t.beat.toNat]
  | 0x10 => some [roF 0 32 t.phase.toNat]
  | _ => none

/-- Block MTR. -/
def mtrFields (s : State) (off : Nat) : Option (List Field) :=
  let l := s.led
  match off with
  | 0x00 => some [roF 0 1 (b2n l.live), evF 1 l.gapEv, evF 2 l.rangeEv, ⟨16, 16, .csumSat, l.gaps.toNat⟩,
                  roF 32 32 l.powerMw.toNat]
  | 0x08 => some [roF 0 64 l.energy.toNat]
  | 0x10 => some [roF 0 32 l.gain.toNat]
  | _ => none

/-- Block PMC of the control die. -/
def pmcFields (s : State) (off : Nat) : Option (List Field) :=
  let p := s.pmc
  match off with
  | 0x00 => some [roF 0 1 (b2n p.sag), evF 1 p.sagEv, roF 2 1 (b2n p.run.isSome), evF 3 p.seqFailEv,
                  roF 4 4 p.seqId.toNat, roF 8 12 p.entry.toNat, roF 24 11 p.fPwr, roF 48 16 p.vin.toNat]
  | _ => none

/-- Block CTL_QOS. -/
def qosFields (s : State) (off : Nat) : Option (List Field) :=
  let q := s.qos
  match off with
  | 0x00 => some [roF 0 16 q.winTick.toNat, roF 16 48 q.winBeat.toNat]
  | 0x08 => some ((List.range 5).map fun i => roF (11 * i) 11 (vat q.fact i))
  | _ =>
    if 0x400 ≤ off ∧ off < 0x800 then
      some [roF 0 64 (numAt (nth q.recs ((off - 0x400) / 32) []) ((off - 0x400) % 32) 8)]
    else none

/-- CTL_EVT, CTL_DUMP and QDB_KVN (Table 20-4a). -/
def ringFields (r : RingCtl) : List Field :=
  [rwF 0 16 r.head.toNat, roF 32 1 (b2n r.en), evF 33 r.overrun, ⟨48, 16, .csumSat, r.lost.toNat⟩]

/-- Block CTL_RING. -/
def ringBlock (s : State) (off : Nat) : Option (List Field) :=
  match off with
  | 0x00 => some (ringFields s.jr.evt)
  | 0x08 => some (ringFields s.cnt.dump)
  | 0x10 =>
    let r := s.cnt.pip
    some [rwF 0 16 r.head.toNat, rwF 16 5 s.cnt.pipRate, rwF 21 1 (b2n s.cnt.pipSample), roF 32 1 (b2n r.en),
          evF 33 r.overrun, ⟨36, 12, .csumSat, s.cnt.pipSkip⟩, ⟨48, 16, .csumSat, r.lost.toNat⟩]
  | _ => none

/-- A counter register (R796). -/
def cntF (v : Nat) : List Field := [⟨0, 48, .csum, v⟩]

/-- Occurrences that the model's step does not itself count (stall cycles, atoms, link flits): a free value added to
what is stored (log 7, log 20). Events it counts step by step are exact. -/
def countedEvent (e : Nat) : Bool :=
  [0x000, 0x002, 0x200, 0x201, 0x204, 0x206, 0x207, 0x209, 0x300, 0x301, 0x302, 0x400, 0x401, 0x402, 0x405, 0x406].contains e

/-- A select register (Table 21-3). -/
def selF (v : Nat) : List Field :=
  [rwF 0 12 (bits v 0 12), rwF 12 1 (bits v 12 1), rwF 13 1 (bits v 13 1), rwF 14 6 (bits v 14 6),
   rwF 20 1 (bits v 20 1), rwF 21 4 (bits v 21 4), rwF 25 1 (bits v 25 1)]

/-- What a read adds to a counter for occurrences that happened since its last read and that the model leaves open. -/
def openCount (s : State) (sel : Nat) : Nat :=
  if bit sel 12 && !countedEvent (bits sel 0 12) then (freeAt s).toNat % 2 ^ 48 else 0

/-- Programmable counters of a bank from `base`, its selects from `sels`. -/
def bankFields (s : State) (b : Bank) (base sels off : Nat) : Option (List Field) :=
  let n := b.prog.length
  if base ≤ off ∧ off < base + 8 * n then
    let i := (off - base) / 8
    some (cntF ((nth b.prog i 0).toNat + openCount s (nth b.sel i 0).toNat))
  else if sels ≤ off ∧ off < sels + 8 * n then some (selF (nth b.sel ((off - sels) / 8) 0).toNat)
  else none

/-- A fixed counter: flits, accesses and cycles are left open (log 20). -/
def fixedF (s : State) (b : Bank) (i : Nat) : List Field :=
  cntF ((nth b.fixed i 0).toNat + (freeAt s).toNat % 2 ^ 48)

/-- Block CTL_CNT. -/
def ctlCntFields (s : State) (off : Nat) : Option (List Field) :=
  if 0x100 ≤ off ∧ off < 0x300 then
    let v := (vat s.funcs ((off - 0x100) / 8)).cntPerm.toNat
    some ((List.range 5).map fun i => rwF i 1 (bits v i 1))
  else bankFields s s.cnt.control 0x0000 0x0040 off

/-- The crash record of core `k`, zeros until its core first enters LOCKED_TRAP (R859). -/
def crashRecord (s : State) (k : Nat) : List Byte := ((s.recov.crash.find? (·.1 == k)).map (·.2)).getD (zeros 64)

/-- The ignored-write counter of a block. -/
def ignoredCount (s : State) (die blk : Nat) : BitVec 32 :=
  ((s.cnt.ignored.find? (·.1 == source die blk)).map (·.2)).getD 0

/-- Block IGNW of a die (R853). -/
def ignwFields (s : State) (die off : Nat) : Option (List Field) :=
  let b := off / 8
  if b < 0x100 ∧ b ≠ 0x3F ∧ b < 0xC0 ∧ blockExists die b then
    some [⟨0, 32, .csum, (ignoredCount s die b).toNat⟩]
  else none

/-! ### Slices and bridges (Tables 23-6 and 23-8) -/

/-- First domain number and domain count of a die (Table 19-4). -/
def dieDomains (die : Nat) : Nat × Nat :=
  if die ≤ 0x10 then (18 * die, 18) else if die = 0x11 then (306, 10) else if die = 0x12 then (316, 10) else (326, 6)

/-- Rail voltage in mV by CLOCK in force (Table 19-5). -/
def railMv (clock : Nat) : Nat :=
  if 961 ≤ clock then 750 else if 833 ≤ clock then 700 else if 641 ≤ clock then 660 else if 385 ≤ clock then 600 else 550

/-- PMC_DOMSTAT and PMC_OPP (R741). -/
def dieFields (s : State) (die off : Nat) : Option (List Field) :=
  let (first, n) := dieDomains die
  match off with
  | 0x00 => some ((List.range n).flatMap fun i =>
      [roF i 1 (b2n (vat s.pmc.domains (first + i)).on), roF (32 + i) 1 (b2n (vat s.pmc.domains (first + i)).clamped)])
  | 0x08 => some [roF 0 11 (vat s.pmc.clock die), roF 11 11 (vat s.pmc.issue die), roF 22 10 (railMv (vat s.pmc.clock die))]
  | _ => none

/-- The Stolon leader: the live data slice of lowest number (section 8.2). -/
def leaderSlice (s : State) : Option Nat := (liveData s).head?

/-- Crib offset of the closed array: the start of the Stolon work area, 1,536 KiB at the top of the scratch carve
(R301, log 21). -/
def closedBase : Nat := cribSize - cribReserved - 0x180000

/-- Block SLC_STOLON of slice `k`; on S16 every field reads its reset value (R863). -/
def stolonFields (s : State) (k off : Nat) : Option (List Field) :=
  let S := vat s.slices k
  let d := k != 16
  match off with
  | 0x00 => some [roF 0 1 (b2n (d && leaderSlice s == some k)),
                  roF 1 1 (b2n (d && (s.stolon.move.any (!·.staged)))), evF 2 (d && S.liftSkipEv),
                  roF 16 16 (if d then S.entries.toNat else 0), roF 32 32 (if d then S.closedBeat.toNat else 0xFFFFFFFF)]
  | 0x08 => some [roF 0 25 (if d then closedBase else 0)]
  | _ => if 0x80 ≤ off ∧ off < 0x100 then some [roF 0 48 (if d then (vat S.ch ((off - 0x80) / 8)).toNat else 0)] else none

/-- SLC_HBM_STAT (Table 17-4); SPARES reads 0 until the stack is trained. -/
def hbmFields (s : State) (k : Nat) : List Field :=
  let S := vat s.slices k
  let spares := if S.trained then S.spareData.toList.foldl min 4 else 0
  [roF 0 12 S.temp.toNat, roF 12 1 (b2n S.ref2x), evF 13 S.hotEv, roF 16 3 spares, ⟨32, 16, .csumSat, S.ce.toNat⟩,
   ⟨48, 16, .csumSat, S.ue.toNat⟩]

/-- One slice's registers. -/
def sliceFields (s : State) (k blk off : Nat) : Option (List Field) :=
  if blk = 0 then stolonFields s k off
  else if blk = 1 then (if off = 0 then some (hbmFields s k) else none)
  else if blk = 2 then
    let b := vat s.cnt.slice k
    if 0x100 ≤ off ∧ off < 0x130 then some (fixedF s b ((off - 0x100) / 8)) else bankFields s b 0 0x80 off
  else if blk = 3 then dieFields s k off
  else if 0x10 ≤ blk ∧ blk ≤ 0x17 then
    let b := vat s.cnt.core (8 * k + (blk - 0x10))
    if off = 0 then some (fixedF s b 0) else bankFields s b 0x08 0x40 off
  else none

/-- BRG_DIMM_STATn and BRG_CXL_STATn (Table 17-7). -/
def farFields (p : FarPart) : List Field :=
  [roF 0 1 (b2n p.present), roF 1 1 (b2n p.lost), ⟨16, 16, .csumSat, p.ce.toNat⟩, ⟨32, 16, .csumSat, p.ue.toNat⟩]

/-- One bridge's registers outside the pages. -/
def bridgeFields (s : State) (b blk off : Nat) : Option (List Field) :=
  if blk = 0 then
    if off < 0x40 then some (farFields (vat s.dimms (8 * b + off / 8)))
    else if off < 0x50 then some (farFields (vat s.cxl (2 * b + (off - 0x40) / 8)))
    else none
  else if blk = 1 then
    let B := vat s.cnt.bridge b
    if 0x100 ≤ off ∧ off < 0x1A0 then some (fixedF s B ((off - 0x100) / 8))
    else if 0x200 ≤ off ∧ off < 0x310 then some (fixedF s B (20 + (off - 0x200) / 8))
    else bankFields s B 0 0x80 off
  else if blk = 2 then
    if off < 0x800 then some (cntF (vat (vat s.funcs (32 * b + off / 64)).cnt (off % 64 / 8)).toNat) else none
  else if blk = 3 then dieFields s (0x11 + b) off
  else none

/-! ### Register pages (Table 23-7) -/

/-- Queue pairs of a function, in local order (R527). -/
def localQueues (s : State) (f : Nat) : List Nat := (List.range 256).filter fun q => (vat s.qs q).func == some f

/-- The registers of one queue pair. -/
def queueFields (Q : Queue) (off : Nat) : Option (List Field) :=
  match off with
  | 0x00 => some [rwF 0 12 Q.tail, rwF 32 12 Q.head]
  | 0x08 => some [rwF 12 52 (Q.sqb.toNat / 4096)]
  | 0x10 => some [rwF 12 52 (Q.cqb.toNat / 4096)]
  | 0x18 => some [rwF 0 12 Q.sqs, rwF 16 12 Q.cqs, rwF 32 11 Q.vec, rwF 48 1 (b2n Q.en), rwF 49 1 (b2n Q.ien),
                  rwF 50 1 (b2n Q.iall)]
  | 0x20 => some [roF 0 12 Q.sqh, roF 16 12 Q.cqt, roF 28 1 (b2n Q.cph), roF 32 1 (b2n (queueActive Q)),
                  evF 33 Q.err, roF 36 4 Q.errcode.toNat, roF 48 13 Q.inflight]
  | _ => none

/-- Codes of MBX_STAT.STATE. -/
def mbxCode : MbxState → Nat
  | .idle => 0 | .busy => 1 | .done => 2

/-- The mailbox registers; MBX_DATA reads zero while BUSY (R825). -/
def mbxFields (M : Mailbox) (off : Nat) : Option (List Field) :=
  match off with
  | 0x4000 => some [rwF 0 16 M.op.toNat, rwF 16 12 M.len.toNat, rwF 63 1 0]
  | 0x4008 => some [rwF 0 64 M.xaddr.toNat]
  | 0x4010 => some [rwF 0 32 M.xlen.toNat]
  | 0x4018 => some [roF 0 2 (mbxCode M.st), evF 2 M.doneEv, roF 8 8 M.status.toNat, roF 16 12 M.outLen,
                    roF 32 32 M.opseq.toNat]
  | _ =>
    if 0x4100 ≤ off ∧ off < 0x4D00 then
      some [rwF 0 64 (if M.st == .busy then 0 else numAt M.data (off - 0x4100) 8)]
    else none

/-- The window registers (Tables 15-6 to 15-9). -/
def winFields (F : Func) (off : Nat) : Option (List Field) :=
  let w := F.win
  match off with
  | 0x5100 => some [rwF 16 40 (w.base.toNat / 65536)]
  | 0x5108 => some [rwF 0 1 (b2n w.cen), rwF 1 1 (b2n F.pfen), rwF 2 2 F.pfdepth.toNat, rwF 16 9 w.carve]
  | 0x5110 => some [rwF 0 56 w.maddr.toNat]
  | 0x5118 => some [rwF 0 4 0]
  | 0x5120 => some [rwF 9 47 (w.rbase.toNat / 512)]
  | 0x5128 => some [rwF 9 32 (w.rlen.toNat / 512)]
  | 0x5130 => some [rwF 0 3 (bits w.rctl.toNat 0 3), rwF 3 1 (bits w.rctl.toNat 3 1), rwF 4 11 (bits w.rctl.toNat 4 11),
                    rwF 15 1 0]
  | 0x5138 => some [roF 0 1 (b2n w.rbusy), evF 1 w.rdone, evF 2 w.merr, roF 4 4 F.mcode.toNat, roF 16 7 w.locked,
                    roF 32 9 w.carved]
  | 0x5140 => some [roF 0 64 0]
  | _ => none

/-- CTL_DERR_STAT (Table 2-10). -/
def derrFields (d : Derr) : List Field :=
  [evF 0 d.valid, evF 1 d.overrun, roF 4 4 d.kind.toNat, roF 8 4 d.agent.toNat, ⟨16, 16, .csumSat, d.count.toNat⟩,
   roF 48 16 d.tick.toNat]

/-- One 8-byte word of the MSI-X table: address, or data and vector control (R509). -/
def msixFields (F : Func) (off : Nat) : Option (List Field) :=
  let v := (off - 0x8000) / 16
  if v < F.pci.vectors then
    let e := msixEntry F v
    some (if off % 16 = 0 then [rwF 0 64 e.addr.toNat] else [rwF 0 32 e.data.toNat, rwF 32 32 e.ctl.toNat])
  else none

/-- A word of the Pending Bit Array. -/
def pbaWord (F : Func) (i : Nat) : Nat := ((List.range 64).map fun j => flag (F.pba.contains (64 * i + j)) j).sum

/-- One page, of function `f` with registers `F`, its queue pairs being given in local order. -/
def pageFields (s : State) (f : Nat) (F : Func) (Qs : List Queue) (off : Nat) : Option (List Field) :=
  if off < 0x4000 then
    match Qs[off / 64]? with
    | some Q => queueFields Q (off % 64)
    | none => none
  else if off < 0x5000 then mbxFields F.mbx off
  else if off = 0x5000 then some (derrFields F.derr)
  else if off = 0x5008 then some [roF 0 56 F.derr.da.toNat]
  else if off = 0x5010 then some (ringFields F.kvn)
  else if off = 0x5020 then
    (if f % 16 = 0 then some [rwF 0 20 (bits F.pasid.toNat 0 20), rwF 31 1 (bits F.pasid.toNat 31 1)] else none)
  else if 0x5100 ≤ off ∧ off < 0x5200 then (if f = 0 then none else winFields F off)
  else if off = 0x5F00 then some (partFields s)
  else if 0x7000 ≤ off ∧ off < 0x7100 then
    (if (off - 0x7000) * 8 < F.pci.vectors then some [roF 0 64 (pbaWord F ((off - 0x7000) / 8))] else none)
  else if 0x8000 ≤ off then msixFields F off
  else none

/-- The page of a function under reset reads its reset values (R866). -/
def pageView (s : State) (f off : Nat) : Option (List Field) :=
  let F := vat s.funcs f
  let Qs := (localQueues s f).map (vat s.qs ·)
  if funcInReset s f then
    pageFields s f { resetFunc with pci := F.pci } (Qs.map fun _ => resetQueue) off
  else pageFields s f F Qs off

/-- The register at a place of region 0x0, `off` a multiple of 8; none where no register lies (R847). -/
def regAt (s : State) (die blk off : Nat) : Option (List Field) :=
  if blk = 0x3F then ignwFields s die off
  else if die ≤ 0x10 then sliceFields s die blk off
  else if die ≤ 0x12 then
    if 0x40 ≤ blk ∧ blk ≤ 0x5F then pageView s (32 * (die - 0x11) + (blk - 0x40)) off else bridgeFields s (die - 0x11) blk off
  else if die ≠ 0x13 then none
  else if blk = 0 then sysFields s off
  else if blk = 1 then tbFields s off
  else if blk = 2 then mtrFields s off
  else if blk = 3 then pmcFields s off
  else if blk = 4 then qosFields s off
  else if blk = 5 then ringBlock s off
  else if blk = 6 then ctlCntFields s off
  else if blk = 7 then
    (if off < 0x2200 then some [roF 0 64 (numAt (crashRecord s (off / 64)) (off % 64) 8)] else none)
  else none

/-- The value of a register; reserved offsets read zero (R847). -/
def regRead (s : State) (die blk off : Nat) : Nat := ((regAt s die blk off).map regVal).getD 0

/-- The bytes that an aligned read of 4 or 8 bytes of region 0x0 returns (R850, R851). -/
def regBytes (s : State) (da n : Nat) : List Byte :=
  let v := regRead s (bits da 24 8) (bits da 16 8) (bits da 0 16 / 8 * 8)
  if n = 8 then leBytes 8 v else leBytes 4 (v / 2 ^ (8 * (da % 8)))

end Sys2Proof.Machine
end

