-- ==== Sys2Proof/Machine/Vec.lean ====
section
/-!
DEFINITION. Sys2Proof/Machine/Vec.lean: the vector operations of the Culm core on 512-bit registers (R453), and the
operands of ACC.MAC (R455).
-/
namespace Sys2Proof.Machine

/-- A vector register. -/
abbrev V512 := BitVec 512

/-! ### Element types and lanes (R453) -/

/-- Element types of a VEC operation. -/
inductive VType where
  | fp (f : Fmt)
  | i8
  | i32
  deriving DecidableEq, Repr

/-- The element type of a code of X[28:26]. -/
def vtypeOf : Nat → Option VType
  | 0 => some (.fp .fp32) | 1 => some (.fp .bf16) | 2 => some (.fp .fp16) | 3 => some (.fp .e4m3)
  | 4 => some (.fp .e5m2) | 5 => some .i8 | 6 => some .i32 | _ => none

/-- The code of an element type (R453). -/
def vtypeCode : VType → Nat
  | .fp f => ((List.range 5).find? fun n => vtypeOf n == some (.fp f)).getD 7
  | .i8 => 5 | .i32 => 6

/-- Width of a lane in bits. -/
def laneWidth : VType → Nat
  | .fp f => fmtWidth f | .i8 => 8 | .i32 => 32

/-- Lanes of a register. -/
def laneCount (t : VType) : Nat := 512 / laneWidth t

/-- A floating type. -/
def isFloat : VType → Bool
  | .fp _ => true | _ => false

/-- The bits of lane `j`. -/
def laneAt (t : VType) (v : V512) (j : Nat) : Nat := bits v.toNat (laneWidth t * j) (laneWidth t)

/-- A register from the bits of its lanes, lane 0 first; absent lanes are zero. -/
def ofLanes (t : VType) (l : List Nat) : V512 :=
  BitVec.ofNat 512 (l.foldr (fun x acc => x % 2 ^ laneWidth t + acc * 2 ^ laneWidth t) 0)

/-- The bits of all lanes. -/
def lanesOf (t : VType) (v : V512) : List Nat := (List.range (laneCount t)).map (laneAt t v)

/-- A lane as a signed integer. -/
def laneInt (t : VType) (x : Nat) : Int := (BitVec.ofNat (laneWidth t) x).toInt

/-- An integer wrapped into a lane. -/
def wrapInt (t : VType) (i : Int) : Nat := (BitVec.ofInt (laneWidth t) i).toNat

/-- A lane decoded exactly: a floating value, or the integer itself. -/
def laneNum (t : VType) (x : Nat) : Num :=
  match t with
  | .fp f => match fmtLayout f with | some l => decodeFp l x | none => .nan
  | t => let i := laneInt t x
         .fin (decide (i < 0)) i.natAbs 0

/-- A lane in FP32 (R453). -/
def laneF32 (t : VType) (x : Nat) : F32 := toF32 (laneNum t x)

/-- A value encoded into a floating lane under R181; `sp` gives the OVF rules. -/
def encLane (sp : Fmt → Bool) (f : Fmt) (x : F32) : Nat := encodeElem f (sp f) one32V 0 x
where
  /-- 1.0. -/
  one32V : F32 := 0x3F800000

/-! ### Lane-wise arithmetic -/

/-- A binary operation lane by lane: `ff` on floating types, `fi` on integer types. -/
def lanes2 (sp : Fmt → Bool) (t : VType) (ff : F32 → F32 → F32) (fi : Int → Int → Int) (a b : V512) : V512 :=
  ofLanes t ((List.range (laneCount t)).map fun j =>
    match t with
    | .fp f => encLane sp f (ff (laneF32 t (laneAt t a j)) (laneF32 t (laneAt t b j)))
    | t => wrapInt t (fi (laneInt t (laneAt t a j)) (laneInt t (laneAt t b j))))

/-- A unary floating operation lane by lane. -/
def lanes1 (sp : Fmt → Bool) (t : VType) (ff : F32 → F32) (a : V512) : V512 :=
  ofLanes t ((List.range (laneCount t)).map fun j =>
    match t with
    | .fp f => encLane sp f (ff (laneF32 t (laneAt t a j)))
    | _ => 0)

/-- VADD. -/
def vAdd (sp : Fmt → Bool) (t : VType) : V512 → V512 → V512 := lanes2 sp t f32Add (· + ·)
/-- VSUB. -/
def vSub (sp : Fmt → Bool) (t : VType) : V512 → V512 → V512 := lanes2 sp t f32Sub (· - ·)
/-- VMUL. -/
def vMul (sp : Fmt → Bool) (t : VType) : V512 → V512 → V512 := lanes2 sp t f32Mul (· * ·)
/-- VMAX (R232). -/
def vMax (sp : Fmt → Bool) (t : VType) : V512 → V512 → V512 := lanes2 sp t f32Max max
/-- VMIN. -/
def vMin (sp : Fmt → Bool) (t : VType) : V512 → V512 → V512 := lanes2 sp t f32Min min
/-- VDIV. -/
def vDiv (sp : Fmt → Bool) (t : VType) : V512 → V512 → V512 := lanes2 sp t f32Div (fun a _ => a)
/-- VSQRT. -/
def vSqrt (sp : Fmt → Bool) (t : VType) : V512 → V512 := lanes1 sp t f32Sqrt
/-- VEXP2. -/
def vExp2 (sp : Fmt → Bool) (t : VType) : V512 → V512 := lanes1 sp t f32Exp2

/-- VFMA: fma(a, b, d). -/
def vFma (sp : Fmt → Bool) (t : VType) (a b d : V512) : V512 :=
  ofLanes t ((List.range (laneCount t)).map fun j =>
    let x := laneAt t a j
    let y := laneAt t b j
    let z := laneAt t d j
    match t with
    | .fp f => encLane sp f (f32Fma (laneF32 t x) (laneF32 t y) (laneF32 t z))
    | t => wrapInt t (laneInt t x * laneInt t y + laneInt t z))

/-- A finite value that is an integer. -/
def exactInt : Num → Option Int
  | .fin neg m e =>
    if 0 ≤ e then some (signed neg (m * 2 ^ e.toNat))
    else if m % 2 ^ (-e).toNat = 0 then some (signed neg (m / 2 ^ (-e).toNat)) else none
  | _ => none

/-- One lane converted (VCVT). Between integer types it wraps, into a floating type it is encoded under R181, and an
integer value that fits an integer type is kept. The spec states no result for any other conversion into an integer
type: `free` stands for it (log 30). -/
def cvtLane (sp : Fmt → Bool) (src dst : VType) (free : Nat) (x : Nat) : Nat :=
  match dst with
  | .fp f => match fmtLayout f with | some l => encodeFp l (sp f) (laneNum src x) | none => 0
  | t =>
    if !isFloat src then wrapInt t (laneInt src x)
    else match exactInt (laneNum src x) with
    | some i => if laneInt t (wrapInt t i) = i then wrapInt t i else free
    | none => free

/-- The free value of lane `j` of a result of one type from a source of another: the same for the same operands (R21,
log 30). -/
def freeLane (src dst : VType) (a : V512) (j : Nat) : Nat :=
  Config.freeLane (vtypeCode src) (vtypeCode dst) j a % 2 ^ laneWidth dst

/-- VCVT: lane j of the result is lane j of the source, converted; lanes of the result beyond the source's last are
free (log 30). -/
def vCvt (sp : Fmt → Bool) (src dst : VType) (a : V512) : V512 :=
  ofLanes dst ((List.range (laneCount dst)).map fun j =>
    if j < laneCount src then cvtLane sp src dst (freeLane src dst a j) (laneAt src a j) else freeLane src dst a j)

/-- VBCAST: every lane takes the low bits of a general register. -/
def vBcast (t : VType) (g : BitVec 64) : V512 := ofLanes t (List.replicate (laneCount t) g.toNat)

/-- VEXT: one lane, zero-extended; a lane number past the last lane reads a free value (log 30). -/
def vExt (t : VType) (a : V512) (j : Nat) : BitVec 64 :=
  BitVec.ofNat 64 (if j < laneCount t then laneAt t a j else freeLane t t a j)

/-- VPERM. -/
def vPerm (t : VType) (a b : V512) : V512 :=
  ofLanes t ((lanesOf t b).map fun i => laneAt t a (i % laneCount t))

/-- VREDADD: the lanes added in ascending order, in lane 0. -/
def vRedAdd (sp : Fmt → Bool) (t : VType) (a : V512) : V512 :=
  match lanesOf t a with
  | [] => 0
  | x :: xs =>
    ofLanes t [match t with
      | .fp f => encLane sp f (xs.foldl (fun s y => f32Add s (laneF32 t y)) (laneF32 t x))
      | t => wrapInt t (xs.foldl (fun s y => s + laneInt t y) (laneInt t x))]

/-- VREDMAX: as VREDADD with max. -/
def vRedMax (sp : Fmt → Bool) (t : VType) (a : V512) : V512 :=
  match lanesOf t a with
  | [] => 0
  | x :: xs =>
    ofLanes t [match t with
      | .fp f => encLane sp f (xs.foldl (fun s y => f32Max s (laneF32 t y)) (laneF32 t x))
      | t => wrapInt t (xs.foldl (fun s y => max s (laneInt t y)) (laneInt t x))]

/-! ### ACC.MAC (R455) -/

/-- The fields of an ACC.MAC (Table 12-8). -/
structure MacFields where
  fa : Nat
  fb : Nat
  sh : Nat
  kl : Nat
  ow : Bool
  eor : Bool
  rn : Nat
  cn : Nat
  deriving DecidableEq, Repr

/-- The fields in an operation's word. -/
def macFields (w : Nat) : MacFields :=
  { fa := bits w 29 3, fb := bits w 32 3, sh := bits w 35 3, kl := bits w 38 3, ow := bit w 41, eor := bit w 42,
    rn := bits w 43 4, cn := bits w 47 8 }

/-- Both operand formats are integer formats. -/
def intPair (fa fb : Fmt) : Bool := (fa == .int8 || fa == .int4) && (fb == .int8 || fb == .int4)

/-- A pair of formats that Table 11-3 allows, with the tile kind it makes: INT8 with INT8 is taken as an integer pair. -/
def pairAllowed (fa fb : Fmt) : Bool := intPair fa fb || (fa != .int4 && fb != .int4)

/-- Registers that an operand of `n` elements fills. -/
def operandRegs (f : Fmt) (n : Nat) : Nat := ceilDiv (n * fmtWidth f) 512

/-- Element `e` of an operand packed from register `r` upward. -/
def operandElem (regs : Nat → V512) (r : Nat) (f : Fmt) (e : Nat) : Nat :=
  let b := e * fmtWidth f
  bits (regs (r + b / 512)).toNat (b % 512) (fmtWidth f)

/-- The value an operand element gives a floating tile (Table 11-3). -/
def operandNum (f : Fmt) (c : Nat) : Num :=
  match fmtLayout f with
  | some l => decodeFp l c
  | none => let i : Int := (BitVec.ofNat 8 c).toInt
            .fin (decide (i < 0)) i.natAbs 0

/-- The value an operand element gives an integer tile (Table 11-3). -/
def operandInt (f : Fmt) (c : Nat) : Int := if f == .int8 then (BitVec.ofNat 8 c).toInt else (c % 16 : Nat)

/-- One step `j` of an ACC.MAC: cell (r, c) takes a(j, r) × b(j, c) within the extents, +0 × +0 elsewhere (R417, R455). -/
def macStep (fa fb : Fmt) (R C rn cn : Nat) (a b : Nat → Nat) (t : Tile) (j : Nat) : Tile :=
  let live (i : Nat) : Bool := decide (i / C < rn + 1 ∧ i % C < cn + 1)
  if t.int then
    tileStepI t (fun i => if live i then operandInt fa (a (j * R + i / C)) else 0)
      (fun i => if live i then operandInt fb (b (j * C + i % C)) else 0)
  else
    tileStepF t (fun i => if live i then operandNum fa (a (j * R + i / C)) else Num0)
      (fun i => if live i then operandNum fb (b (j * C + i % C)) else Num0)

/-- ACC.MAC on its slot (R414, R415, R455). -/
def macTile (regs : Nat → V512) (kc : Nat) (m : MacFields) (ra rb : Nat) (fa fb : Fmt) (t : Tile) : Tile :=
  let t := if m.ow then tileOverwrite (intPair fa fb) kc m.sh else t
  let R := 2 ^ t.shape
  let C := 256 / R
  let t := (List.range (2 ^ m.kl)).foldl
    (macStep fa fb R C m.rn m.cn (operandElem regs ra fa) (operandElem regs rb fb)) t
  if m.eor then tileEnd t else t

end Sys2Proof.Machine
end

