-- ==== Sys2Proof/Machine/CulmOps.lean ====
section
/-!
DEFINITION. Sys2Proof/Machine/CulmOps.lean: bundles of a Culm core: how a slot operation is read from its word, what it
reads and writes, and the checks a bundle must pass (sections 12.1 to 12.7).
-/
namespace Sys2Proof.Machine

/-! ### A slot operation (Table 12-3) -/

/-- One operation of a bundle: its slot and its 64-bit word. -/
structure Op where
  slot : Nat
  w : Nat
  deriving DecidableEq, Repr

/-- OP. -/
def Op.code (o : Op) : Nat := bits o.w 0 8
/-- D. -/
def Op.d (o : Op) : Nat := bits o.w 8 6
/-- A. -/
def Op.a (o : Op) : Nat := bits o.w 14 6
/-- B. -/
def Op.b (o : Op) : Nat := bits o.w 20 6
/-- The signed value of the bits of X from `lo` to 63. -/
def Op.signed (o : Op) (lo : Nat) : Int := (BitVec.ofNat (64 - lo) (o.w / 2 ^ lo)).toInt

/-- Classes of operations. -/
inductive OpClass where
  | nop
  | ctl
  | int
  | mem
  | vec
  | acc
  /-- A code that the slot does not accept (R449, rule 1). -/
  | refused
  deriving DecidableEq, Repr

/-- The class of an operation in its slot (Tables 12-2 and 12-7; R454). -/
def Op.cls (o : Op) : OpClass :=
  let c := o.code
  if c = 0 then .nop
  else match o.slot with
  | 0 => .ctl
  | 1 => .int
  | 2 => .int
  | 3 => .mem
  | 4 => .mem
  | 5 => .vec
  | 6 => if c = 0x86 then .refused else if 0x80 ≤ c then .acc else .vec
  | _ => if 0x80 ≤ c ∧ c ≤ 0x89 then .acc else .refused

/-- The operations of a bundle of 64 bytes (R447). -/
def bundleOps (bs : List Byte) : List Op := (List.range 8).map fun i => { slot := i, w := numAt bs (8 * i) 8 }

/-- An operation of class `c` with code `n`. -/
def Op.is (o : Op) (c : OpClass) (n : Nat) : Bool := o.cls == c && o.code == n

/-! ### Registers -/

/-- The slice of core `k`. -/
def coreSlice (k : Nat) : Nat := k / 8

/-- g0 reads zero (R444). -/
def rdG (K : Core) (r : Nat) : BitVec 64 := if r = 0 then 0 else vat K.g r

/-- A vector register; a register number uses the low five bits of its field (R447). -/
def rdV (K : Core) (r : Nat) : V512 := vat K.v (r % 32)

/-- Control register numbers that R450 lists. -/
def ctlKnown (c : Nat) : Bool := decide (c ≤ 5) || decide (8 ≤ c ∧ c ≤ 0x10)

/-- The control register an operation names, in X[31:26]. -/
def Op.ctlReg (o : Op) : Nat := bits o.w 26 6

/-- The priority level of a work item or launch. -/
def workLevel (s : State) (w : CoreWork) : Level :=
  let u := match w with | .item w => w.cmd | .launch l => l.cmd
  match cmdOf s u with
  | some c => commandLevel s c.cls
  | none => .scavenger

/-- The work a core runs. -/
def runningWork (K : Core) : Option CoreWork :=
  match K.item, K.launch with
  | some w, _ => some (.item w)
  | none, some l => some (.launch l)
  | none, none => none

/-- A YIELD is pending on core `k` (R475). -/
def yieldPending (s : State) (k : Nat) : Bool :=
  let K := vat s.cores k
  K.saved.isNone && (K.mode == .kernel || K.mode == .attn || K.mode == .draining) &&
    (match runningWork K with
     | some w => workLevel s w == .demoted || workLevel s w == .scavenger
     | none => false) &&
    K.queue.any fun w => workLevel s w == .guaranteed

/-- STAT (Table 12-11). -/
def statWord (s : State) (k : Nat) : Nat :=
  let K := vat s.cores k
  flag K.bd 1 + flag K.ms 2 + flag K.li 3 + put K.nest.toNat 8 4 + put K.xfers.length 16 4
    + flag (yieldPending s k) 20 + flag K.bank 21

/-- The value a MOVFC reads (R450, R461). -/
def ctlValue (s : State) (k : Nat) (K : Core) (c : Nat) : BitVec 64 :=
  match c with
  | 0 => K.modeReg
  | 1 => K.epc.setWidth 64
  | 2 => K.tsp.setWidth 64
  | 3 => K.prog.setWidth 64
  | 4 => K.cause
  | 5 => BitVec.ofNat 64 (statWord s k)
  | _ =>
    if c < 0x0B then vat K.lc (c - 8)
    else if c < 0x0E then (vat K.ls (c - 0x0B)).setWidth 64
    else (vat K.le (c - 0x0E)).setWidth 64

/-- K_c of MODE. -/
def modeKc (m : BitVec 64) : Nat := bits m.toNat 0 6
/-- MODE.DBUF. -/
def modeDbuf (m : BitVec 64) : Bool := bit m.toNat 6
/-- MODE.YMASK. -/
def modeYmask (m : BitVec 64) : Bool := bit m.toNat 7

/-- What a register write names, for the checks of R449: kind (0 general, 1 vector, 2 control) and number. -/
abbrev RegName := Nat × Nat

/-- General register names, g0 left out. -/
def gName (r : Nat) : List RegName := if r = 0 then [] else [(0, r)]
/-- A vector register's name. -/
def vName (r : Nat) : List RegName := [(1, r % 32)]

/-- Registers that an operation writes (R449, rule 2); a reserved code writes none. -/
def Op.writes (o : Op) : List RegName :=
  match o.cls with
  | .ctl =>
    match o.code with
    | 0x04 => [(0, 63)]
    | 0x06 => let l := bits o.w 26 2
              [(2, 8 + l), (2, 0x0B + l), (2, 0x0E + l)]
    | 0x0A => (List.range 15).map (fun i => (0, i + 1)) ++ [(2, 0), (2, 2), (2, 3)] ++ (List.range 9).map fun i => (2, 8 + i)
    | 0x0B => [(2, o.ctlReg)]
    | 0x0C => gName o.d
    | 0x0D => gName o.d
    | 0x0E => gName o.d
    | _ => []
  | .int => if o.code ≤ 0x0D then gName o.d else []
  | .mem => if o.code = 5 then vName o.d else if o.code ≤ 4 then gName o.d else []
  | .vec => if 0x12 < o.code then [] else if o.code = 0x0F then gName o.d else vName o.d
  | .acc => if o.code = 0x82 then vName o.d else if o.code = 0x88 then gName o.d else []
  | _ => []

/-- The immediate of an INT operation replaces g[B] (R451). -/
def Op.immB (o : Op) : Bool := bit o.w 26

/-- The format pair of an ACC.MAC. -/
def macFmts (o : Op) : Option (Fmt × Fmt) :=
  let m := macFields o.w
  match fmtOf m.fa, fmtOf m.fb with
  | some a, some b => some (a, b)
  | _, _ => none

/-- Registers that an operand of ACC.MAC covers. -/
def macRegs (r : Nat) (f : Fmt) (n : Nat) : List RegName := (List.range (operandRegs f n)).map fun i => (1, r % 32 + i)

/-- Registers that an operation reads; a reserved code reads none. -/
def Op.reads (o : Op) : List RegName :=
  match o.cls with
  | .ctl =>
    match o.code with
    | 0x02 => gName o.a
    | 0x03 => gName o.a
    | 0x05 => [(0, 63)]
    | 0x06 => gName o.a
    | 0x0A => [(2, 2)]
    | 0x0B => gName o.a
    | 0x0C => [(2, o.ctlReg)]
    | 0x10 => gName o.a ++ [(2, 3)]
    | 0x11 => gName o.a ++ [(2, 3)]
    | 0x12 => gName o.a ++ [(2, 3)]
    | _ => []
  | .int => if 0x0D ≤ o.code then [] else gName o.a ++ if o.immB then [] else gName o.b
  | .mem =>
    if o.code ≤ 5 then gName o.a
    else if o.code ≤ 9 then gName o.a ++ gName o.b
    else if o.code = 0x0A then gName o.a ++ vName o.b
    else if o.code ≤ 0x0C then gName o.a ++ gName o.b ++ gName o.d
    else []
  | .vec =>
    if 0x12 < o.code then []
    else match o.code with
    | 0x04 => vName o.a ++ vName o.b ++ vName o.d
    | 0x0E => gName o.a
    | c => if c = 0x08 ∨ c = 0x09 ∨ c = 0x0A ∨ c = 0x0F ∨ c = 0x11 ∨ c = 0x12 then vName o.a else vName o.a ++ vName o.b
  | .acc =>
    match o.code with
    | 0x80 =>
      let m := macFields o.w
      match macFmts o with
      | some (fa, fb) => macRegs o.a fa (2 ^ m.sh * 2 ^ m.kl) ++ macRegs o.b fb (256 / 2 ^ m.sh * 2 ^ m.kl)
      | none => []
    | 0x83 => vName o.a
    | 0x84 => gName o.a
    | 0x85 => gName o.a
    | 0x86 => gName o.a ++ gName o.b ++ gName o.d ++ [(2, 3)]
    | _ => []
  | _ => []

/-- Two names of a list are equal. -/
def hasRepeat : List RegName → Bool
  | [] => false
  | x :: xs => xs.contains x || hasRepeat xs

/-- A control transfer (R449, rule 5). -/
def Op.transfers (o : Op) : Bool := o.cls == .ctl && decide (1 ≤ o.code ∧ o.code ≤ 6)

/-- A long instruction (section 12.8). -/
def Op.isLong (o : Op) : Bool := (o.cls == .ctl && decide (0x10 ≤ o.code ∧ o.code ≤ 0x12)) || o.is .acc 0x86

/-- A store or a transfer to or from memory. -/
def Op.storesOrXfers (o : Op) : Bool := o.cls == .mem && decide (6 ≤ o.code ∧ o.code ≤ 0x0C)

/-! ### Accumulator slots (R431, R454) -/

/-- T. -/
def Op.tile (o : Op) : Nat := bits o.w 26 3

/-- The physical slot of a name: the front bank, or the back bank for drains, saves and restores (R431). -/
def physSlot (K : Core) (back : Bool) (t : Nat) : Nat :=
  if modeDbuf K.modeReg then t % 4 + 4 * b2n (K.bank != back) else t

/-- The operation reaches the back bank (R431). The rule does not place ACC.ZERO: with ACC.MAC, whose overwrite it performs,
it reaches the front bank (DESIGN CHOICE, log 116). -/
def Op.back (o : Op) : Bool := o.code == 0x84 || o.code == 0x85 || o.code == 0x86

/-- The physical slot that an ACC operation names; a T of 4 to 7 under DBUF = 1 names none (R454). -/
def accSlot (K : Core) (o : Op) : Option Nat :=
  if o.cls == .acc && decide (0x80 ≤ o.code ∧ o.code ≤ 0x86) && !(modeDbuf K.modeReg && decide (4 ≤ o.tile)) then some (physSlot K o.back o.tile) else none

/-- Rule 4 of R449. -/
def accClash (K : Core) (ops : List Op) : Bool :=
  let accs := ops.filter (·.cls == .acc)
  hasRepeat ((accs.filterMap (accSlot K)).map fun n => (3, n))
    || (accs.any (·.code == 0x87) && decide (1 < accs.length))

/-! ### The checks of a bundle (R449, R471) -/

/-- Level `l` is active (R459). -/
def loopActive (K : Core) (l : Nat) : Bool := vat K.lc l != 0

/-- A bundle index is the end of an active loop. -/
def endsLoop (K : Core) (pc : Nat) : Bool :=
  (List.range 3).any fun l => loopActive K l && (vat K.le l).toNat == pc

/-- ILLEGAL_BUNDLE: a rule of R449 holds. RTE writes MODE (R474). -/
def illegalBundle (K : Core) (ops : List Op) : Bool :=
  let xfer := ops.any (·.transfers)
  let reads := ops.flatMap (·.reads)
  ops.any (·.cls == .refused)
    || hasRepeat (ops.flatMap (·.writes))
    || (ops.any (·.isLong) && decide (1 < (ops.filter fun o => o.cls != .nop).length))
    || accClash K ops
    || (xfer && ops.any fun o => o.storesOrXfers || o.cls == .acc || o.writes.any reads.contains)
    || (xfer && K.branch.isSome)
    || (xfer && (endsLoop K K.pc || endsLoop K (K.pc + 1)))
    || (K.modePend.isSome && ops.any fun o =>
        o.cls == .acc || o.is .ctl 0x0A || ((o.is .ctl 0x0B || o.is .ctl 0x0C) && o.ctlReg == 0))

/-- The access that an access check is made for: device address, bytes, write. -/
abbrev Access := Nat × Nat × Bool

/-- The kernel agent of core `k`. -/
def kernelWho (f k : Nat) : Who := .kernel f (coreSlice k)

/-- Kind with which an access to the core's own crib fails, 0 for none (R446, R452). -/
def cribKind (s : State) (f k align : Nat) (x : Access) : Nat :=
  let r := if 2 ^ 56 ≤ x.1 ∨ 7 ≤ x.1 / 2 ^ 52 then 1 else if x.1 / 2 ^ 52 ≠ 1 then 2 else 0
  if r ≠ 0 then r else if x.1 % align ≠ 0 then 3 else decodeKind s (kernelWho f k) x.2.2 x.1 x.2.1

/-- The first of some crib accesses, with their alignments, that fails: kind and address. -/
def firstBadAccess (s : State) (f k : Nat) (xs : List (Nat × Access)) : Option (Nat × Nat) :=
  (xs.map fun x => (cribKind s f k x.1 x.2, x.2.1)).find? (·.1 != 0)

/-- g[A] plus the signed extension (R452). -/
def memAddr (K : Core) (o : Op) : Nat := ((((rdG K o.a).toNat : Int) + o.signed 26) % 2 ^ 64).toNat

/-- Bytes that a load or store moves. -/
def memSize (code : Nat) : Nat :=
  match code with
  | 1 => 1 | 2 => 2 | 3 => 4 | 4 => 8 | 5 => 64 | 6 => 1 | 7 => 2 | 8 => 4 | 9 => 8 | _ => 64

/-- A length that R464 does not allow. -/
def badXferLen (n : Nat) : Bool := n % 8 != 0 || decide (n < 8 ∨ 2 ^ 20 < n)

/-- A range of region 0x3 cut at its 4 KiB stripes, any other range whole: first address and length of each part (R68). -/
def stripeParts (da n : Nat) : List (Nat × Nat) :=
  if da / 2 ^ 52 ≠ 3 ∨ n = 0 then [(da, n)]
  else (List.range ((da + n - 1) / 4096 - da / 4096 + 1)).map fun i =>
    let a := max da ((da / 4096 + i) * 4096)
    (a, min (da + n) ((da / 4096 + i + 1) * 4096) - a)

/-- Kind and address with which the device side of a transfer fails, in the order of Table 2-8 (R67, R446, R464): a kernel's
transfer has no access to the cribs and the stacks (log 102), its address is a multiple of 8, a register is read alone, as 8
bytes, and a range of region 0x3 fails at its first stripe that does. -/
def xferDevFault (s : State) (f k : Nat) (isIn : Bool) (da n : Nat) : Option (Nat × Nat) :=
  let r := da / 2 ^ 52
  if 2 ^ 56 ≤ da ∨ 7 ≤ r then some (1, da)
  else if r = 1 ∨ r = 2 ∨ !regionAllows (kernelWho f k) (!isIn) r then some (2, da)
  else if da % 8 ≠ 0 ∨ (r = 0 ∧ n ≠ 8) ∨ badXferLen n then some (3, da)
  else (stripeParts da n).findSome? fun p =>
    let x := decodeKind s (kernelWho f k) (!isIn) p.1 p.2
    if x = 0 then none else some (x, p.1)

/-- The check of an XFER: length, both addresses, both ranges (R464). No kind of Table 2-8 names a length that R464 does not
allow: ALIGN, with the device address, stands for it (DESIGN CHOICE, log 102). -/
def xferFault (s : State) (f k : Nat) (K : Core) (o : Op) : Option (Nat × Nat) :=
  let isIn := o.code == 0x0B
  let n := (rdG K o.d).toNat
  let crib := (rdG K o.a).toNat
  let dev := (rdG K o.b).toNat
  let kc := cribKind s f k 8 (crib, if badXferLen n then 8 else n, isIn)
  let onCrib := if kc = 0 then none else some (kc, crib)
  let onDev := xferDevFault s f k isIn dev n
  if isIn then onDev.or onCrib else onCrib.or onDev

/-- Bytes of a long instruction's descriptor: 0 for ACC.DRAIN, which has none. -/
def descSize (code : Nat) : Nat := if code = 0x10 then 64 else if code = 0x11 then 128 else if code = 0x12 then 64 else 0

/-- Kind and address of an operation's failing access; long instructions check their descriptor here and their steps
later (R452, R464, R466). A slot image that does not lie at a multiple of 64 (R426) takes kind ALIGN, where the spec names
no exception (DESIGN CHOICE, log 99). -/
def dataFault (s : State) (f k : Nat) (K : Core) (o : Op) : Option (Nat × Nat) :=
  match o.cls with
  | .mem =>
    if o.code = 0x0B ∨ o.code = 0x0C then xferFault s f k K o
    else
      let n := memSize o.code
      firstBadAccess s f k [(n, memAddr K o, n, decide (6 ≤ o.code))]
  | .ctl =>
    if o.isLong then firstBadAccess s f k [(64, (rdG K o.a).toNat, descSize o.code, false)]
    else if o.code = 0x0A then firstBadAccess s f k [(1, K.tsp.toNat, 256, false)]
    else none
  | .acc =>
    if o.code = 0x84 then firstBadAccess s f k [(64, (rdG K o.a).toNat, slotImageLen, true)]
    else if o.code = 0x85 then firstBadAccess s f k [(64, (rdG K o.a).toNat, slotImageLen, false)]
    else none
  | _ => none

/-- A long instruction's descriptor. -/
def descOf (s : State) (K : Core) (o : Op) : List Byte := daRead s (rdG K o.a).toNat (descSize o.code)

/-- A descriptor with an invalid code or a count out of range (R468 to R470). -/
def badDesc (code : Nat) (d : List Byte) : Bool :=
  let n (off k : Nat) := numAt d off k
  match code with
  | 0x10 => decide (n 0x30 4 < 1 ∨ 65536 < n 0x30 4 ∨ n 0x34 2 < 1 ∨ 256 < n 0x34 2 ∨ 4 < n 0x37 1 ∨ 2 < n 0x38 1)
              || (fmtOf (n 0x36 1)).isNone
  | 0x11 => decide (n 0x28 4 < 1 ∨ 65536 < n 0x28 4 ∨ n 0x2C 2 < 1 ∨ 256 < n 0x2C 2 ∨ 3 < n 0x2F 1
              ∨ n 0x48 2 < 16 ∨ 4096 < n 0x48 2) || (fmtOf (n 0x2E 1)).isNone
  | _ => decide (4 < n 0x1A 1 ∨ 2 < n 0x1B 1)

/-- ACC.MAC takes ILLEGAL_OP (R416, R455). -/
def macIllegal (K : Core) (o : Op) : Bool :=
  let m := macFields o.w
  let t := vat K.tiles (physSlot K false o.tile)
  match macFmts o with
  | none => true
  | some (fa, fb) =>
    let sh := if m.ow then m.sh else t.shape
    let R := 2 ^ sh
    let C := 256 / R
    let k := 2 ^ m.kl
    decide (4 < m.sh ∨ 4 < m.kl ∨ R < m.rn + 1 ∨ C < m.cn + 1)
      || decide (32 < o.a % 32 + operandRegs fa (R * k) ∨ 32 < o.b % 32 + operandRegs fb (C * k))
      || !pairAllowed fa fb
      || (!m.ow && (!t.live || (if t.int then !intPair fa fb else fa == .int4 || fb == .int4)))

/-- ILLEGAL_OP of an ACC operation, the image of a RESTORE left aside (R426, R427, R454, R455). A drain whose NCOL exceeds
C takes it too, with STATS clear as well: R427 bounds NCOL and names no exception (DESIGN CHOICE, log 99). -/
def accIllegal (K : Core) (o : Op) : Bool :=
  let t := vat K.tiles (physSlot K o.back o.tile)
  if o.code = 0x87 ∨ o.code = 0x88 then false
  else if 0x88 < o.code then true
  else if modeDbuf K.modeReg ∧ 4 ≤ o.tile then true
  else match o.code with
  | 0x80 => macIllegal K o
  | 0x81 => decide (4 < bits o.w 30 3)
  | 0x83 => !t.live && decide (4 < bits o.w 34 3)
  | 0x86 => !t.live || !drainAllowed t (bits o.w 29 4) || decide (tileCols t < bits o.w 40 8 + 1)
  | _ => false

/-- An operation takes ILLEGAL_OP (Table 12-13). -/
def illegalOp (s : State) (f k : Nat) (K : Core) (o : Op) : Bool :=
  match o.cls with
  | .ctl =>
    if 0x12 < o.code then true
    else match o.code with
    | 0x06 => bits o.w 26 2 == 3
    | 0x0A => K.nest == 0
    | 0x0B =>
      let kc := modeKc (rdG K o.a)
      !ctlKnown o.ctlReg || (o.ctlReg == 0 && decide (kc < 4 ∨ 32 < kc))
    | 0x0C => !ctlKnown o.ctlReg
    | _ => o.isLong && (dataFault s f k K o).isNone && badDesc o.code (descOf s K o)
  | .int => decide (0x0D < o.code)
  | .mem => decide (0x0C < o.code)
  | .vec =>
    match vtypeOf (bits o.w 26 3) with
    | none => true
    | some t =>
      decide (0x12 < o.code) || ((o.code == 7 || o.code == 8 || o.code == 9) && !isFloat t)
        || (o.code == 0x0A && (vtypeOf (bits o.w 29 3)).isNone)
  | .acc =>
    accIllegal K o ||
      (o.code == 0x85 && (dataFault s f k K o).isNone && (tileOfImage (daRead s (rdG K o.a).toNat slotImageLen)).isNone)
  | _ => false

/-- An exception: cause code, KIND, SLOT, failing address. -/
structure Trap where
  code : Nat
  kind : Nat
  slot : Nat
  addr : Nat
  deriving DecidableEq, Repr

/-- The first exception of a bundle in the order of R471, TRAP left aside. -/
def bundleTrap (s : State) (f k : Nat) (K : Core) (ops : List Op) : Option Trap :=
  if illegalBundle K ops then some ⟨2, 0, 0, 0⟩
  else match ops.find? (illegalOp s f k K) with
  | some o => some ⟨3, 0, o.slot, 0⟩
  | none =>
    match (ops.filterMap fun o => (dataFault s f k K o).map fun x => (o.slot, x)).head? with
    | some (slot, kind, da) => some ⟨4, kind, slot, da⟩
    | none => if ops.any fun o => o.is .ctl 6 && o.w / 2 ^ 28 == 0 then some ⟨5, 0, 0, 0⟩ else none

end Sys2Proof.Machine
end

