-- ==== Sys2Proof/Machine/CulmRun.lean ====
section
/-!
DEFINITION. Sys2Proof/Machine/CulmRun.lean: the issue of a bundle by a Culm core: landing of earlier results, the effect
of each operation, branches, loops, MODE and TRAP (sections 12.2 to 12.7 and 12.9).
-/
namespace Sys2Proof.Machine

/-! ### Results that land (R456) -/

/-- A register takes a value. -/
def putReg (K : Core) (p : PendReg) : Core :=
  match p.dst with
  | .g r => if r = 0 then K else { K with g := vupd K.g r fun _ => p.val.setWidth 64 }
  | .v r => { K with v := vupd K.v r fun _ => p.val }
  | .lc l => { K with lc := vupd K.lc l fun _ => p.val.setWidth 64 }
  | .ls l => { K with ls := vupd K.ls l fun _ => p.val.setWidth 32 }
  | .le l => { K with le := vupd K.le l fun _ => p.val.setWidth 32 }
  | .prog => { K with prog := p.val.setWidth 32 }
  | .tsp => { K with tsp := p.val.setWidth 56 }

/-- Register writes and stores due by cycle `n` land, each in its cycle, those of one cycle in issue order. -/
def landBy (n k : Nat) (s : State) : State :=
  let K := vat s.cores k
  let s := (sortBy (fun a b => decide (a.due < b.due)) (K.stores.filter (·.due ≤ n))).foldl (fun s x => daPoke s x.addr x.bytes) s
  onCore k (fun K =>
    let K' := (sortBy (fun a b => decide (a.due < b.due)) (K.pend.filter (·.due ≤ n))).foldl putReg K
    { K' with pend := K.pend.filter fun p => !decide (p.due ≤ n), stores := K.stores.filter fun p => !decide (p.due ≤ n) }) s

/-- What is due at the core's present cycle lands. -/
def landNow (k : Nat) (s : State) : State := landBy (vat s.cores k).cycles k s

/-- Everything issued lands (R457). -/
def landAll (k : Nat) (s : State) : State :=
  let K := vat s.cores k
  landBy ((K.pend.map (·.due) ++ K.stores.map (·.due)).foldl max K.cycles) k s

/-- A result of core `k`, readable `lat` cycles after the bundle that `K` issues (Table 12-9). -/
def result (k : Nat) (K : Core) (dst : RegDst) (val : V512) (lat : Nat) (s : State) : State :=
  onCore k (fun C => { C with pend := C.pend ++ [{ dst := dst, val := val, due := K.cycles + lat }] }) s

/-- A 64-bit result in a general register. -/
def resultG (k : Nat) (K : Core) (d : Nat) (v : BitVec 64) (lat : Nat) (s : State) : State :=
  if d = 0 then s else result k K (.g d) (v.setWidth 512) lat s

/-! ### INT (R451) -/

/-- The value of an INT operation. -/
def intValue (code : Nat) (a b : BitVec 64) : BitVec 64 :=
  let n := b.toNat % 64
  match code with
  | 0x01 => a + b
  | 0x02 => a - b
  | 0x03 => a &&& b
  | 0x04 => a ||| b
  | 0x05 => a ^^^ b
  | 0x06 => a <<< n
  | 0x07 => a >>> n
  | 0x08 => a.sshiftRight n
  | 0x09 => a * b
  | 0x0A => if a = b then 1 else 0
  | 0x0B => if a.slt b then 1 else 0
  | _ => if a.ult b then 1 else 0

/-- The second operand of an INT operation (R451). -/
def intB (K : Core) (o : Op) : BitVec 64 := if o.immB then BitVec.ofInt 64 (o.signed 27) else rdG K o.b

/-- An INT operation's effect. -/
def intEffect (k : Nat) (K : Core) (o : Op) (s : State) : State :=
  if o.code = 0x0D then resultG k K o.d (BitVec.ofInt 64 (o.signed 27)) 1 s
  else resultG k K o.d (intValue o.code (rdG K o.a) (intB K o)) (if o.code = 9 then 3 else 1) s

/-! ### MEM (R452, R464) -/

/-- A transfer is issued: it waits for its completion; a read of host memory goes out (R464, R465, R63). -/
def issueXfer (f k : Nat) (K : Core) (o : Op) (s : State) : State :=
  let n := (rdG K o.d).toNat
  let crib := (rdG K o.a).toNat
  let dev := (rdG K o.b).toNat
  let x : Xfer := if o.code = 0x0B then { src := dev, dst := crib, len := n } else { src := crib, dst := dev, len := n }
  let s := onCore k (fun C => { C with xfers := C.xfers ++ [x] }) s
  if x.src / 2 ^ 52 = 6 then hostAsk { func := f, addr := (hostOf x.src).2, len := n, ats := false } s else s

/-- A MEM operation's effect. A load or store is charged to the kernel's class, and waits for no arbiter (R456, R620). -/
def memEffect (c : Cmd) (k : Nat) (K : Core) (o : Op) (s : State) : State :=
  let a := memAddr K o
  let n := memSize o.code
  let s := if o.code ≤ 0x0A then chargeCmd c a n s else s
  if o.code ≤ 4 then resultG k K o.d (BitVec.ofNat 64 (leNat (daRead s a n))) 6 s
  else if o.code = 5 then result k K (.v (o.d % 32)) (BitVec.ofNat 512 (leNat (daRead s a 64))) 8 s
  else if o.code = 0x0B ∨ o.code = 0x0C then issueXfer c.func k K o s
  else
    let bs := if o.code = 0x0A then leBytes 64 (rdV K o.b).toNat else leBytes n (rdG K o.b).toNat
    onCore k (fun C => { C with stores := C.stores ++ [{ addr := a, bytes := bs, due := K.cycles + 2 }] }) s

/-! ### VEC (R453) -/

/-- Latency of a VEC operation (Table 12-9). -/
def vecLatency (code : Nat) (t : VType) : Nat :=
  if code = 7 ∨ code = 8 ∨ code = 9 then 12
  else if code = 0x10 ∨ code = 0x11 ∨ code = 0x12 then 6
  else if code = 0x0A then 4
  else if 0x0B ≤ code then 2
  else if isFloat t then 4 else 2

/-- A VEC operation's vector result. -/
def vecValue (sp : Fmt → Bool) (code : Nat) (t t2 : VType) (a b d : V512) (g : BitVec 64) : V512 :=
  match code with
  | 0x01 => vAdd sp t a b
  | 0x02 => vSub sp t a b
  | 0x03 => vMul sp t a b
  | 0x04 => vFma sp t a b d
  | 0x05 => vMax sp t a b
  | 0x06 => vMin sp t a b
  | 0x07 => vDiv sp t a b
  | 0x08 => vSqrt sp t a
  | 0x09 => vExp2 sp t a
  | 0x0A => vCvt sp t t2 a
  | 0x0B => a &&& b
  | 0x0C => a ||| b
  | 0x0D => a ^^^ b
  | 0x0E => vBcast t g
  | 0x10 => vPerm t a b
  | 0x11 => vRedAdd sp t a
  | _ => vRedMax sp t a

/-- A VEC operation's effect. -/
def vecEffect (k : Nat) (K : Core) (o : Op) (s : State) : State :=
  let t := (vtypeOf (bits o.w 26 3)).getD .i8
  if o.code = 0x0F then resultG k K o.d (vExt t (rdV K o.a) (bits o.w 32 6)) 2 s
  else
    let t2 := (vtypeOf (bits o.w 29 3)).getD .i8
    result k K (.v (o.d % 32)) (vecValue (special s) o.code t t2 (rdV K o.a) (rdV K o.b) (rdV K o.d) (rdG K o.a))
      (vecLatency o.code t) s

/-! ### ACC (R454, section 11) -/

/-- One accumulator slot of core `k` changed. -/
def onTile (k n : Nat) (g : Tile → Tile) (s : State) : State := onCore k (fun C => { C with tiles := vupd C.tiles n g }) s

/-- A 512-bit register from 16 full-width elements. -/
def ofStrip (ws : List (BitVec 32)) : V512 := ofLanes .i32 (ws.map (·.toNat))

/-- The flags word of ACC.FLAGS (Table 12-8). -/
def accFlags (K : Core) : Nat :=
  ((List.range 8).map fun i => let t := vat K.tiles i
    flag t.sat i + flag t.nan (8 + i) + flag t.live (16 + i)).sum

/-- Cycles that an ACC operation waits for its slot (R419): an ACC.MAC for the reads and writes before it, ACC.SWAP and
ACC.FLAGS for every slot, any other operation for the ACC.MACs before it, and ACC.ZERO, which overwrites, for both. -/
def accWait (K : Core) (o : Op) : Nat :=
  let free (n : Nat) : Nat := vat K.slotFree n - K.cycles
  let busy (n : Nat) : Nat := vat K.slotBusy n - K.cycles
  match accSlot K o with
  | none => (List.range 8).foldl (fun m n => max m (max (free n) (busy n))) 0
  | some n => if o.code = 0x80 then busy n else if o.code = 0x81 then max (free n) (busy n) else free n

/-- Cycles that a bundle's ACC operations wait (R419). -/
def bundleWait (K : Core) (ops : List Op) : Nat :=
  ((ops.filter (·.cls == .acc)).map (accWait K)).foldl max 0

/-- Cycles that go by with a bundle: one, and the wait of R419. -/
def bundleCycles (K : Core) (ops : List Op) : Nat := 1 + bundleWait K ops

/-- An ACC operation holds the array and its slot from cycle `at_` on: an ACC.MAC for 2^KL cycles after those before it
(R455), another operation for a time that the spec leaves open (log 31), beside those before it; a drain, whose steps are
the core's own (R428), is over when the core goes on. -/
def accBook (at_ : Nat) (o : Op) (K : Core) : Core :=
  match accSlot K o with
  | none => K
  | some n =>
    if o.code = 0x80 then
      let done := max at_ K.arrFree + 2 ^ (macFields o.w).kl
      { K with arrFree := done, slotFree := vupd K.slotFree n fun _ => done }
    else if o.code = 0x86 then K
    else { K with slotBusy := vupd K.slotBusy n fun b => max b (at_ + Config.accBusy o.code) }

/-- Memory as the ACC operations of a bundle read it (R448): before the bundle, with the stores that land in the wait of
R419. -/
def preMem (wait k : Nat) (s : State) : List Host.Cell := (landBy ((vat s.cores k).cycles + wait) k s).mem

/-- An ACC operation's effect; a drain is taken row by row (R428). `K` is the core before the bundle, at the cycle at which
the wait of R419 is over (R456), `M` memory as the bundle reads it. The crib accesses of ACC.SAVE and ACC.RESTORE are charged as
loads and stores are (R620). -/
def accEffect (M : List Host.Cell) (c : Cmd) (k : Nat) (K : Core) (o : Op) (s : State) : State :=
  let n := physSlot K o.back o.tile
  let t := vat K.tiles n
  let kc := modeKc K.modeReg
  let strip := bits o.w 29 4
  let addr := (rdG K o.a).toNat
  match o.code with
  | 0x80 =>
    match macFmts o with
    | none => s
    | some (fa, fb) =>
      let m := macFields o.w
      tally (.core k) 0x204 (2 ^ m.kl) (.cmd c.func c.cls) <| activity (.cmd c.uid) (18 * (k / 8) + k % 8) (16 * 2 ^ m.kl)
        (onTile k n (macTile (fun r => vat K.v r) kc m (o.a % 32) (o.b % 32) fa fb) s)
  | 0x81 => onTile k n (fun _ => tileOverwrite (bit o.w 29) kc (bits o.w 30 3)) s
  | 0x82 => result k K (.v (o.d % 32)) (ofStrip (readStrip t strip)) 6 s
  | 0x83 => onTile k n (fun t => writeStrip t (bit o.w 33) kc (bits o.w 34 3) strip
      ((lanesOf .i32 (rdV K o.a)).map fun x => BitVec.ofNat 32 x)) s
  | 0x84 => daPoke (chargeCmd c addr slotImageLen s) addr (slotImage t)
  | 0x85 => match tileOfImage (daRead { s with mem := M } addr slotImageLen) with
    | some x => onTile k n (fun _ => x) (chargeCmd c addr slotImageLen s)
    | none => s
  | 0x86 => s
  | 0x87 => onCore k (fun C => { C with bank := !C.bank }) s
  | _ => resultG k K o.d (BitVec.ofNat 64 (accFlags K)) 2 s

/-! ### CTL (R450, R459, R474) -/

/-- RTE: registers, loops, MODE and PROG from the frame at TSP (R474), whose read is charged (R614). Outside a handler
CAUSE.CODE is 0x00 (R484): the return from the outermost one clears CAUSE (log 137). -/
def rteEffect (c : Cmd) (k : Nat) (K : Core) (s : State) : State :=
  let fr := daRead s K.tsp.toNat 256
  let w (off : Nat) : Nat := numAt fr off 8
  onCore k (fun C =>
    { C with g := (List.range 15).foldl (fun g i => vupd g (i + 1) fun _ => BitVec.ofNat 64 (w (0x88 + 8 * i))) C.g,
             lc := Vector.ofFn fun i : Fin 3 => BitVec.ofNat 64 (w (0x40 + 8 * i.val)),
             ls := Vector.ofFn fun i : Fin 3 => BitVec.ofNat 32 (w (0x58 + 8 * i.val)),
             le := Vector.ofFn fun i : Fin 3 => BitVec.ofNat 32 (w (0x70 + 8 * i.val)),
             modeReg := BitVec.ofNat 64 (bits (w 0x18) 0 8), modePend := none,
             prog := BitVec.ofNat 32 (w 0x20), tsp := K.tsp + 256, nest := K.nest - 1, bd := false, ms := false,
             li := false, cause := if K.nest = 1 then 0 else K.cause }) (chargeCmd c K.tsp.toNat 256 s)

/-- A MOVTC: RO registers take nothing; a MODE write opens its shadow (R461, R463). -/
def movtcEffect (k : Nat) (K : Core) (o : Op) (s : State) : State :=
  let v := rdG K o.a
  let c := o.ctlReg
  let put (d : RegDst) : State := result k K d (v.setWidth 512) 1 s
  if c = 0 then onCore k (fun C => { C with modePend := some (BitVec.ofNat 64 (bits v.toNat 0 8), 3) }) s
  else if c = 2 then put .tsp
  else if c = 3 then put .prog
  else if c < 8 then s
  else if c < 0x0B then put (.lc (c - 8))
  else if c < 0x0E then put (.ls (c - 0x0B))
  else put (.le (c - 0x0E))

/-- A CTL operation's effect on registers; where the core goes next is `nextPc`. -/
def ctlEffect (c : Cmd) (k : Nat) (K : Core) (o : Op) (s : State) : State :=
  match o.code with
  | 0x04 => resultG k K 63 (BitVec.ofNat 64 (K.pc + 2)) 1 s
  | 0x06 =>
    let l := bits o.w 26 2
    let off := o.w / 2 ^ 28
    onCore k (fun C => { C with lc := vupd C.lc l fun _ => rdG K o.a,
                                ls := vupd C.ls l fun _ => BitVec.ofNat 32 (K.pc + 1),
                                le := vupd C.le l fun _ => BitVec.ofNat 32 (K.pc + off) }) s
  | 0x0A => rteEffect c k K s
  | 0x0B => movtcEffect k K o s
  | 0x0C => resultG k K o.d (ctlValue s k K o.ctlReg) 1 s
  | 0x0D => resultG k K o.d (BitVec.ofNat 64 (posOf s)) 1 s
  | 0x0E => resultG k K o.d (BitVec.ofNat 64 K.cycles) 1 s
  | _ => s

/-- One operation's effect, its sources read from `K` and `M`, the core and memory before the bundle (R448), in a bundle whose ACC operations
wait `wait` cycles (R419, R456). -/
def opEffect (M : List Host.Cell) (wait : Nat) (c : Cmd) (k : Nat) (K : Core) (s : State) (o : Op) : State :=
  match o.cls with
  | .ctl => ctlEffect c k K o s
  | .int => intEffect k K o s
  | .mem => memEffect c k K o s
  | .vec => vecEffect k K o s
  | .acc =>
    let K := { K with cycles := K.cycles + wait }
    onCore k (accBook K.cycles o) (accEffect M c k K o s)
  | _ => s

/-! ### Where the core goes next (R458 to R460) -/

/-- The levels evaluated in ascending order after bundle `b` (R460). -/
def evalLoops (b : Nat) : List Nat → Core → Core × Option Nat
  | [], K => (K, none)
  | l :: ls, K =>
    if loopActive K l && (vat K.le l).toNat == b then
      if 1 < (vat K.lc l).toNat then ({ K with lc := vupd K.lc l (· - 1) }, some (vat K.ls l).toNat)
      else evalLoops b ls { K with lc := vupd K.lc l fun _ => 0 }
    else evalLoops b ls K

/-- A branch's target when it is taken: PC plus the offset, where a sum below 0 wraps past every kernel's code, so that the
FETCH exception comes there (R450, R458). -/
def branchTarget (K : Core) (o : Op) : Option Nat :=
  let dst : Nat := (((K.pc : Int) + o.signed 26) % 2 ^ 64).toNat
  if o.cls != .ctl then none
  else match o.code with
  | 0x01 => some dst
  | 0x02 => some (if rdG K o.a = 0 then dst else K.pc + 2)
  | 0x03 => some (if rdG K o.a = 0 then K.pc + 2 else dst)
  | 0x04 => some dst
  | 0x05 => some (rdG K 63).toNat
  | _ => none

/-- A MODE write's shadow is one bundle shorter; after its last bundle the value is in force (R463). -/
def stepMode (K : Core) : Core :=
  match K.modePend with
  | some (v, n + 2) => { K with modePend := some (v, n + 1) }
  | some (v, _) => { K with modeReg := v, modePend := none }
  | none => K

/-- The bundle at PC, with operations `ops`, has completed: the next PC (R458 to R460). -/
def nextPc (K0 : Core) (ops : List Op) (K : Core) : Core :=
  match K0.branch with
  | some (_, t) => { K with pc := t, branch := none }
  | none =>
    match (ops.filterMap (branchTarget K0)).head? with
    | some t => { K with pc := K0.pc + 1, branch := some (K0.pc, t) }
    | none =>
      if ops.any fun o => o.is .ctl 0x0A then K
      else match ops.find? fun o => o.is .ctl 0x06 && rdG K0 o.a == 0 with
      | some o => { K with pc := K0.pc + o.w / 2 ^ 28 + 1 }
      | none =>
        let r := evalLoops K0.pc [0, 1, 2] K
        { r.1 with pc := r.2.getD (K0.pc + 1) }

/-- RTE goes to the frame's EPC (R474). -/
def rteTarget (s : State) (K0 : Core) (ops : List Op) (K : Core) : Core :=
  if ops.any fun o => o.is .ctl 0x0A then { K with pc := numAt (daRead s K0.tsp.toNat 8) 0 4 } else K

/-- Cycles pass on a core; results that fall due land. -/
def passCycles (n k : Nat) (s : State) : State :=
  landNow k (onCore k (fun K =>
    { K with cycles := K.cycles + n,
             ymaskCycles := if yieldPending s k && modeYmask K.modeReg then K.ymaskCycles + n else 0 }) s)

/-! ### The issue of a bundle -/

/-- The launch and command a core runs a kernel for, with the kernel. -/
def kernelOf (s : State) (k : Nat) : Option (Launch × Cmd × Kernel) :=
  match (vat s.cores k).launch with
  | none => none
  | some l =>
    match cmdOf s l.cmd with
    | none => none
    | some c => ((cfgOf s c.gen).kernels.find? (·.id == l.kernel)).map fun x => (l, c, x)

/-- Bundle `i` of a kernel: the 64 bytes at offset 64 × `i` of its code (R445). -/
def bundleBytes (x : Kernel) (i : Nat) : List Byte := slice x.code (64 * i) 64

/-- The operations of the bundle at PC; none when PC lies outside CODE_LEN. -/
def bundleAt (s : State) (k : Nat) (x : Kernel) : Option (List Op) :=
  let K := vat s.cores k
  if (K.pc + 1) * 64 ≤ x.len then some (bundleOps (bundleBytes x K.pc)) else none

/-- The YIELD is taken at this boundary: not in a MODE shadow (R463), and between bundles neither before a delay bundle nor
under YMASK (R475, R488). -/
def yieldTaken (s : State) (k : Nat) : Bool :=
  let K := vat s.cores k
  yieldPending s k &&
    (K.mode == .attn || (K.mode == .kernel && K.modePend.isNone &&
      (K.long || (K.branch.isNone && !modeYmask K.modeReg))))

/-- The core has reached its budget (R478). -/
def overBudget (K : Core) : Bool := match K.launch with | some l => decide (l.budget ≤ K.cycles) | none => false

/-- The YIELD has been pending under YMASK for 65,536 cycles (R478). -/
def overYmask (K : Core) : Bool := decide (65536 ≤ K.ymaskCycles)

/-- The core ends at this boundary: ABORT, the budget or the YMASK limit (R477, R478). -/
def mustEnd (K : Core) : Bool := K.abort.isSome || overBudget K || overYmask K

/-- Nothing keeps the core from issuing the next bundle or step: no ABORT, YIELD, budget or YMASK limit. -/
def mayGo (s : State) (k : Nat) : Bool := !mustEnd (vat s.cores k) && !yieldTaken s k

/-- The core issues bundles. -/
def issues (s : State) (k : Nat) : Bool := (vat s.cores k).mode == .kernel && !(vat s.cores k).long && mayGo s k

/-- An exception the core must take: it drains first (R457, R465, R472). EPC is the branch bundle in a delay bundle
(R473, R485). -/
def raiseTrap (k : Nat) (t : Trap) (li : Bool) (s : State) : State :=
  onCore k (fun K =>
    let epc := (K.branch.map (·.1)).getD K.pc
    let d : DrainFor := .exception t.code t.kind t.slot 0 t.addr epc K.pc K.branch.isSome K.modePend.isSome li
    { K with mode := .draining, drain := d, long := false }) s

/-- The operation of a bundle that ends or traps, once the rest has taken effect (R480, R484). -/
def endingOp (K0 : Core) (ops : List Op) (k : Nat) (s : State) : State :=
  if ops.any fun o => o.is .ctl 0x07 then onCore k (fun K => { K with mode := .draining, drain := .endKernel }) s
  else if ops.any fun o => o.is .ctl 0x08 then onCore k (fun K => { K with mode := .draining, drain := .faultKernel }) s
  else match ops.find? fun o => o.is .ctl 0x09 with
  | some o => onCore k (fun K =>
      let d : DrainFor := .exception 6 0 0 (bits o.w 26 16) 0 K.pc K0.pc false K0.modePend.isSome false
      { K with mode := .draining, drain := d }) s
  | none => s

/-- A long instruction begins: it keeps its sources and its descriptor as they stand before the bundle issues (R448, R466).
The read of the descriptor is charged (R620). -/
def beginLong (c : Cmd) (k : Nat) (K0 : Core) (ops : List Op) (s : State) : State :=
  let o := (ops.find? (·.isLong)).getD { slot := 0, w := 0 }
  let d := if o.cls == .acc then [] else descOf s K0 o
  onCore k (fun K => { K with long := true, lsrc := #v[rdG K0 o.a, rdG K0 o.b, rdG K0 o.d], ldesc := d })
    (chargeCmd c (rdG K0 o.a).toNat d.length s)

/-- A bundle without exception and without stall issues: every operation takes effect, time passes, and the core goes on
(R448, R456 to R460). -/
def issueBundle (c : Cmd) (ops : List Op) (k : Nat) (s : State) : State :=
  let K0 := vat s.cores k
  let live := (ops.filter fun o => o.cls != .nop).length
  let wait := bundleWait K0 ops
  let n := bundleCycles K0 ops
  let M := preMem wait k s
  let s := tally (.core k) 0x200 1 (.cmd c.func c.cls) (tally (.core k) 0x201 live (.cmd c.func c.cls) s)
  let s := activity (.cmd c.uid) (18 * (k / 8) + k % 8) live (tally (.core k) 0x205 wait (.cmd c.func c.cls) s)
  let s1 := ops.foldl (opEffect M wait c k K0) s
  if ops.any (·.isLong) then passCycles n k (beginLong c k K0 ops s1)
  else
    let s2 := passCycles n k s1
    endingOp K0 ops k (onCore k (fun K => rteTarget s K0 ops (nextPc K0 ops (stepMode K))) s2)

/-- The bundle stalls: a WAIT with more transfers outstanding, or an XFER with eight (R450, R465). -/
def stallEvent (K : Core) (ops : List Op) : Option Nat :=
  if ops.any fun o => o.is .ctl 0x0F && decide (bits o.w 26 3 < K.xfers.length) then some 0x203
  else if (ops.any fun o => o.is .mem 0x0B || o.is .mem 0x0C) && decide (8 ≤ K.xfers.length) then some 0x202
  else none

/-- A stalled cycle goes by. -/
def stallCycle (e : Nat) (c : Cmd) (k : Nat) (s : State) : State :=
  passCycles 1 k (tally (.core k) e 1 (.cmd c.func c.cls) s)

/-- Two transfers in one bundle both need room. -/
def xferRoom (K : Core) (ops : List Op) : Bool :=
  decide (K.xfers.length + (ops.filter fun o => o.is .mem 0x0B || o.is .mem 0x0C).length ≤ 8)

/-- The core at a bundle with no operation goes past it, up to `n` such bundles in a row. -/
def skipEmpty : Nat → Nat → State → State
  | 0, _, s => s
  | n + 1, k, s =>
    if !issues s k then s
    else match kernelOf s k with
    | none => s
    | some (_, c, x) =>
      match bundleAt s k x with
      | none => s
      | some ops => if ops.all (·.cls == .nop) then skipEmpty n k (issueBundle c ops k s) else s

/-- Most bundles that `skipEmpty` goes past at once: those of the longest code. -/
def emptyRun : Nat := 65536

/-- A bundle with the operation that a row names issues, or stalls; a bundle with an exception is left to the row
EXCEPTION_ENTRY. -/
def issueAt (has : Op → Bool) (k : Nat) (s0 : State) : State :=
  let s := skipEmpty emptyRun k s0
  if !issues s k then s
  else match kernelOf s k with
  | none => s
  | some (_, c, x) =>
    match bundleAt s k x with
    | none => s
    | some ops =>
      let K := vat s.cores k
      if !ops.any has then s
      else if (bundleTrap s c.func k K ops).isSome then s
      else match stallEvent K ops with
      | some e => stallCycle e c k s
      | none => if xferRoom K ops then issueBundle c ops k s else stallCycle 0x202 c k s

end Sys2Proof.Machine
end

