-- ==== Sys2Proof/Machine/Reports.lean ====
section
/-!
DEFINITION. Sys2Proof/Machine/Reports.lean: rebuild reports and the end of a recovery (sections 20.4 and 20.8).
-/
namespace Sys2Proof.Machine

/-- Codes of Table 20-8. -/
def kindCode : PartKind → Nat
  | .slice => 0 | .bridge => 1 | .dimm => 2 | .expander => 3

/-- The header of a rebuild report (Table 20-12). -/
def reportHeader (r : Recovery) (done nabort rollOff : Nat) : List Byte :=
  leBytes 4 0x444C4252 ++ leBytes 2 1 ++ leBytes 1 (kindCode r.kind) ++ leBytes 1 r.num ++ leBytes 1 r.cause ++ zeros 3
    ++ leBytes 4 r.epoch ++ leBytes 8 r.lossPos ++ leBytes 8 (r.cutPos.getD 0) ++ leBytes 8 done ++ leBytes 4 r.gen
    ++ leBytes 2 r.tables.length ++ leBytes 2 r.kvs.length ++ leBytes 4 r.nevict ++ leBytes 4 nabort
    ++ leBytes 4 rollOff ++ zeros 4

/-- The LOST list (R778). -/
def lostList (r : Recovery) : List Byte :=
  let l := ((r.tables ++ r.kvs).map (leBytes 2)).flatten
  l ++ zeros (alignUp l.length 32 - l.length)

/-- Abort entries in admission order (R779). -/
def abortSection (r : Recovery) : List Byte := ((sortBy (fun a b => a.1 < b.1) r.aborts).map (·.2)).flatten

/-- The rebuild report (R778). -/
def rebuildReport (r : Recovery) (done : Nat) : List Byte :=
  let ll := lostList r
  let off := if r.rollback.isEmpty then 0 else 64 + ll.length
  reportHeader r done r.aborts.length off ++ ll ++ r.rollback ++ abortSection r

/-- The abort entry of a command (Table 20-13). -/
def abortEntry (c : Cmd) (detail seq : Nat) : List Byte :=
  leBytes 1 c.func ++ leBytes 1 c.q ++ leBytes 2 (tagOf c.bytes) ++ leBytes 1 (opcodeOf c.bytes)
    ++ leBytes 1 c.status.toNat ++ zeros 2 ++ leBytes 4 detail ++ leBytes 4 c.gen ++ leBytes 8 seq ++ zeros 8

/-- A recovery is done: its report is kept and journaled, and RECOVERY_DONE is raised (R764, R780). -/
def finishRecovery (r : Recovery) (s : State) : State :=
  let rep := rebuildReport r (posOf s)
  let die := match r.kind with | .slice => r.num | .bridge => r.num | _ => dieC
  let s := logError 3 4 { cause := r.cause, die := die } rep s
  let active := s.recov.active.filter (·.epoch != r.epoch)
  let s := { s with recov := { s.recov with reports := ((r.epoch, rep) :: s.recov.reports).take 8, active := active,
                                            done := active.isEmpty } }
  raiseEvent evRecoveryDone (source dieC 0) r.epoch s

/-- Recoveries that have had their cut and wait for no command are done (R764); none ends in HALT (R788). -/
def settleRecoveries (s : State) : State :=
  if s.sys.state == .halt then s
  else (s.recov.active.filter fun r => r.cutPos.isSome && r.preLoss.isEmpty).foldl (fun s r => finishRecovery r s) s

/-- A command of a pre-loss set has been posted, with its abort entry where the loss ended it, or discarded without one
(R764, R779, R782). -/
def leavePreLoss (u : Nat) (entry : Option (List Byte)) (s : State) : State :=
  let f (r : Recovery) : Recovery :=
    if r.preLoss.contains u then
      let r' := { r with preLoss := r.preLoss.erase u }
      match entry with
      | some e => if r.ended.contains u && !r.rolled.contains u then { r' with aborts := (u, e) :: r'.aborts } else r'
      | none => r'
    else r
  settleRecoveries { s with recov := { s.recov with active := s.recov.active.map f } }

/-- What follows when a command leaves the device, posted or discarded: buffers and recoveries wait for it no longer,
its class and its queue count one less. -/
def retire (c : Cmd) (entry : Option (List Byte)) (s : State) : State :=
  let s := releaseFences c.uid { s with cmds := s.cmds.filter (·.uid != c.uid) }
  let s := onQ c.q (fun Q => { Q with inflight := Q.inflight - 1 }) s
  let s := settleOld (setSlots c.cls (classCount s c.cls) s)
  kvLeft c (leavePreLoss c.uid entry (releaseBuffers c.uid s))

end Sys2Proof.Machine
end

