-- ==== Sys2Proof/Machine/Post.lean ====
section
/-!
DEFINITION. Sys2Proof/Machine/Post.lean: completions, their receipts and pip records (sections 14.6, 18.3 and 21.7).
-/
namespace Sys2Proof.Machine

/-- A completion entry (Table 14-11). -/
def completionEntry (c : Cmd) (Q : Queue) (detail : Nat) (receipt : List Byte) : List Byte :=
  leBytes 2 (tagOf c.bytes) ++ leBytes 1 c.status.toNat ++ leBytes 1 (flag Q.cph 0 + flag Q.rmark 1)
    ++ leBytes 2 Q.sqh ++ leBytes 1 c.q ++ leBytes 1 (opcodeOf c.bytes) ++ leBytes 4 detail ++ leBytes 4 c.gen
    ++ receipt

/-- The queue after a completion has been posted: CQT advances, CPH inverts on a wrap, the marker is used up, and the
fence group counts a failure or starts again after a valid FENCE (R546, R549, R555, R763). -/
def postedQueue (c : Cmd) (Q : Queue) : Queue :=
  let wrap := decide (Q.cqt = Q.cqs)
  { Q with cqt := if wrap then 0 else Q.cqt + 1, cph := Q.cph != wrap, rmark := false,
           groupFails := if validFence c then 0 else if 0x10 ≤ c.status.toNat then Q.groupFails + 1 else Q.groupFails }

/-- The counters of Table 21-2 at a posting. -/
def countPost (c : Cmd) (s : State) : State :=
  let st := c.status.toNat
  let f := c.func
  let one (b : Bool) (i : Nat) (s : State) : State := if b then countFunc f i 1 s else s
  let free := opcodeOf c.bytes == 0x49
  one (free && st == 0x13) 6 (one (free && st == 0x14) 5
    (countFunc f 4 c.subst (one (st == 0x20 || st == 0x21 || st == 0x22) 3 (one (decide (0x10 ≤ st)) 2 (countFunc f 1 1 s)))))

/-- One stage stamp of a pip record; a stage not passed reads all ones (R815). -/
def stageStamp (c : Cmd) (i : Nat) : Nat := ((c.stamps.find? (·.1 == i)).map (·.2)).getD 0xFFFFFFFF

/-- A pip record (Table 21-11). -/
def pipRecord (s : State) (c : Cmd) (seq : Nat) (rmark discarded : Bool) : List Byte :=
  leBytes 1 (flag s.cnt.pip.phase 0 + flag discarded 1 + flag rmark 2 + flag (degradedNow s && !discarded) 3)
    ++ leBytes 1 c.func ++ leBytes 1 c.q ++ leBytes 1 (opcodeOf c.bytes) ++ leBytes 2 (tagOf c.bytes)
    ++ leBytes 1 (if discarded then 0xFF else c.status.toNat) ++ leBytes 1 c.cls ++ leBytes 4 c.gen ++ zeros 4
    ++ leBytes 8 c.fetchPos ++ leBytes 8 c.pipNo ++ leBytes 8 seq ++ leBytes 1 c.lastDies.1
    ++ leBytes 1 c.lastDies.2 ++ zeros 6 ++ ((List.range 14).map fun i => leBytes 4 (stageStamp c i)).flatten ++ zeros 24

/-- The pip record of a tagged command goes to the ring, or is counted in LOST (R816, R820, R821). -/
def writePip (c : Cmd) (seq : Nat) (rmark discarded : Bool) (s : State) : State :=
  if !c.pip || s.sys.state == .halt then s
  else
    let r := s.cnt.pip
    if ringRoom r && mayIssue s 0 then
      let t := hostWrite 0 (r.addr.toNat + 128 * r.tail) (pipRecord s c seq rmark discarded) s
      houseBytes s 0 128 (raiseMsix 0 r.vector { t with cnt := { t.cnt with pip := ringStep r } })
    else { s with cnt := { s.cnt with pip := ringLost r } }

/-- The completion write and its interrupt (R546, R548, R511); a queue with a CQ_WRITE error gets neither (R534). -/
def writeCompletion (c : Cmd) (Q : Queue) (entry : List Byte) (s : State) : State :=
  if Q.cqDead then s
  else
    let s := houseBytes s c.func entry.length (hostWrite c.func (Q.cqb.toNat + 32 * Q.cqt) entry s)
    if Q.ien && (Q.iall || irqOf c.bytes) then stamp c.uid 12 false (houseBytes s c.func 4 (raiseMsix c.func Q.vec s)) else s

/-- A completion is posted: the accumulator is cut, the receipt bound, the entry written, the counts made (R545 to
R548, R684 to R688). -/
def postCmd (u : Nat) (s : State) : State :=
  match cmdOf (cutCmd u s) u with
  | none => s
  | some c =>
    let s := cutCmd u s
    let hold := c.status == 0x3F
    let detail := if validFence c && !hold then fenceDetail s c else c.detail.toNat
    let Q := vat s.qs c.q
    let seq := if hold then 0 else seqOf (vat s.funcs c.func).seq
    let entry := completionEntry c Q detail (if hold then zeros 16 else (receiptOf s c).bytes)
    let s := leaveCut u (if hold then toHouse c.energy s else bindReceipt c s)
    let s := tally (.bridge (bridgeOf c.func)) 0x302 1 .house (stamp u 11 false s)
    let s := writeCompletion c Q entry s
    let s := countPost c (onQ c.q (postedQueue c) s)
    let s := match cmdOf s u with | none => s | some c' => writePip c' seq Q.rmark false s
    retire c (some (abortEntry c detail seq)) s

/-- The fresh translation of a completion write is refused: the receipt is bound, the write and its interrupt are
dropped, the queue stops with CQ_WRITE and a DECODE_ERROR event is raised (R524, R534; log 18 for its agent). -/
def postRefused (u : Nat) (s : State) : State :=
  match cmdOf s u with
  | none => s
  | some c =>
    let s := queueError c.q 6 s
    let s := raiseEvent evDecodeError (source (pageDie c.func) (pageBlock c.func)) (c.func + 256 * 2 + 4096 * 7) s
    postCmd u s

/-- In HALT the completions of a queue go in the order of R563, and a FENCE after its earlier set on every queue of its scope
(R554). -/
def postOrder (s : State) (c : Cmd) : Bool :=
  (s.cmds.find? (·.q == c.q)).map (·.uid) == some c.uid
    && (!validFence c || s.cmds.all fun x => x.stamps.isEmpty || !(earlierSet s c).contains x.uid)

/-- An epoch has closed at this tick, and the next one has opened. -/
def opensNow (s : State) : Bool := s.led.isOpen && s.led.openPos == posOf s && !s.led.flags.getLsbD 8

/-- The command's work has ended and its completion may be written; in HALT into a free entry only (R546, R563).
An Invalidation Completion still due to its function goes first (R524). On a close tick completions come before the epoch
closes (R113, log 139). -/
def mayPost (s : State) (u : Nat) : Bool :=
  match cmdOf s u with
  | none => false
  | some c => c.phase == .ended && !opensNow s && !s.sys.powerFailing && portUp s (portOf c.func) && (vat s.funcs c.func).invals.isEmpty &&
      (running s || (s.sys.state == .halt && postOrder s c && decide (cqUsed (vat s.qs c.q) < (vat s.qs c.q).cqs)))

/-- The translation of a completion write is asked for (R501, R524). -/
def askPost (c : Cmd) (s : State) : State :=
  let Q := vat s.qs c.q
  hostAsk { func := c.func, addr := Q.cqb.toNat + 32 * Q.cqt, len := 32, ats := true }
    (tally (.bridge (bridgeOf c.func)) 0x310 1 (.cmd c.func c.cls) s)

/-- COMPLETION_POST of command `u` (R546); `granted` is the host's answer when the function translates through ATS. On
the tick on which an epoch closes, the receipt joins the next one (R101, R102, R113). -/
def execCompletionPost (u : Nat) (granted : Bool) (s : State) : Host.Outcome State Fault Refusal :=
  .next (if !mayPost s u then s
    else match cmdOf s u with
    | none => s
    | some c =>
      if usesAts s c.func && !(vat s.qs c.q).cqDead then
        (if granted then postCmd u (askPost c s) else postRefused u (askPost c s))
      else postCmd u s)

/-- A command is discarded without completion or receipt: its energy to the house, counted in DISCARD, its pip record
written (R514, R688, R820). -/
def discardNow (c : Cmd) (s : State) : State :=
  writePip c 0 false true (countFunc c.func 7 1 (houseCmd c s))

end Sys2Proof.Machine
end

