-- ==== Sys2Proof/Machine/Scatter.lean ====
section
/-!
DEFINITION. Sys2Proof/Machine/Scatter.lean: SCATTER_ADD, SCATTER_OPT and TABLE_LOAD, the Flail's sort and apply, row
reductions, the husk chain and its acknowledgements (chapter 7, section 5.9).
-/
namespace Sys2Proof.Machine

/-! ### Commands in flight that write rows -/

/-- OPTIM. -/
def optimOf (c : Cmd) : Nat := param c.bytes 2 1
/-- RESCALE. -/
def rescales (c : Cmd) : Bool := isUpdate c && bit (param c.bytes 4 1) 3
/-- The command's rows need a row sum (R275). -/
def needsSum (c : Cmd) : Bool := isUpdate c && optimOf c == 2
/-- The fetched gradient list. -/
def updListRange (t : TableDecl) (g : Fmt) (c : Cmd) : Rng :=
  ⟨bit (param c.bytes 4 1) 2, param c.bytes 0x10 8, listHead c.bytes + entryCount c * gradRow t g⟩

/-- Source of a load: NROWS logical rows from SRC. -/
def loadRange (t : TableDecl) (c : Cmd) : Rng := ⟨srcDev c.bytes, param c.bytes 8 8, entryCount c * t.logicalStride⟩

/-- Updates and loads in flight, in stamp order (R268). -/
def updQueue (s : State) : List Cmd := sortBy before (s.cmds.filter fun c => writesRows c && unfinished c)

/-- Bytes of the gradient row, or of the source row, of an entry, once they are there. -/
def entryBytes (t : TableDecl) (c : Cmd) (i : Nat) : Option (List Byte) :=
  let n := if isLoad c then t.logicalStride else gradRow t ((gradFmt c.bytes).getD .fp32)
  let o := if isLoad c then i * n else listHead c.bytes + i * n
  if o + n ≤ (listOf c).length then some (slice (listOf c) o n)
  else (c.arrived.find? (·.1 == i)).map (·.2.2)

/-- The bytes of all entries of a row, in position order. -/
def rowBytes (t : TableDecl) (c : Cmd) (keys : List (Nat × Nat)) (row : Nat) : Option (List (List Byte)) :=
  (keys.filter (·.1 == row)).mapM fun k => entryBytes t c k.2

/-- The old record that position `p` uses for a row: the lift copy, the home copy, the far row's part, or what S16 has
rebuilt; none until it is there, or while its shard is FRESH (section 7.6, R195, R267, R289). -/
def oldRecord (s : State) (c : Cmd) (t : TableDecl) (chunk row p : Nat) : Option (List Byte) :=
  let k := server s p
  let sh := shardOf t row
  let home : Option (List Byte) :=
    if isFar sh then (farRow c chunk row).map fun b => slice b (p * t.segStride) t.segStride
    else if k ≠ p then rebuiltFor s c.uid chunk t.id row
    else some (daRead s (segDa t sh row p) t.segStride)
  if sh.fresh then none
  else match liftHit s t row with
  | some e => if k ≠ p then home else some (daRead s (cribDa k (liftOff s.image.carve e)) t.segStride)
  | none => home

/-- The merged gradient of a row over position `p`'s segment. -/
def rowGrad (t : TableDecl) (c : Cmd) (keys : List (Nat × Nat)) (row p : Nat) : Option (List F32) :=
  (rowBytes t c keys row).map (mergedGrad t ((gradFmt c.bytes).getD .fp32) p)

/-- A row's result of a reduction. -/
def reducedOf (l : List (Nat × F32 × F32)) (row : Nat) : Option (F32 × F32) := (l.find? (·.1 == row)).map (·.2)

/-! ### Row reductions (R277) -/

/-- Position `p`'s value of a row of chunk `x` for a reduction: its part of the sum, or the range of its new values (R275,
R278). -/
def reductionPart (s : State) (c : Cmd) (t : TableDecl) (F : Flail) (x : SortedChunk) (range : Bool)
    (p row : Nat) : Option (F32 × F32) :=
  match oldRecord s c t x.chunk row p, rowGrad t c x.keys row p with
  | some old, some g =>
    if !range then some (gradSquare t p g, 0)
    else if needsSum c && (reducedOf F.reduced row).isNone then none
    else
      let sum := ((reducedOf F.reduced row).map (·.1)).getD 0
      some (segRange t p (stepSegment t (optimOf c) (hyperOf c) p old g sum t.dim).1)
  | _, _ => none

/-- Two values combined: added, or by minimum and maximum. -/
def combine (range : Bool) (a b : F32 × F32) : F32 × F32 :=
  if range then (f32Min a.1 b.1, f32Max a.2 b.2) else (f32Add a.1 b.1, 0)

/-- The lowest position's value of a row, those of the orphans combined into it (log 34). -/
def leadPart (s : State) (c : Cmd) (t : TableDecl) (F : Flail) (x : SortedChunk) (range : Bool) (p row : Nat) :
    Option (F32 × F32) :=
  (orphans s).foldl (fun acc q => match acc, reductionPart s c t F x range q row with
    | some a, some b => some (combine range a b)
    | _, _ => none) (reductionPart s c t F x range p row)

/-- A list cut into runs of at most `n`. -/
def runsOf {α : Type} (n : Nat) : Nat → List α → List (List α)
  | 0, _ => []
  | fuel + 1, l => if l.isEmpty then [] else l.take n :: runsOf n fuel (l.drop n)

/-- The served position after `p`, or none. -/
def nextPlace (s : State) (p : Nat) : Option Nat := (positions s).find? (p < ·)

/-- The packets of a reduction start at the lowest position with its own values, up to 64 rows each. -/
def redPackets (s : State) (uid chunk : Nat) (range : Bool) (p : Nat) (vals : List (Nat × F32 × F32)) : List RedPkt :=
  (runsOf 64 (vals.length + 1) vals).map fun vs =>
    match nextPlace s p with
    | some n => { uid := uid, chunk := chunk, range := range, vals := vs, next := n, total := false, got := [] }
    | none => { uid := uid, chunk := chunk, range := range, vals := vs, next := p, total := true, got := [] }

/-- The chunk that the lowest position applies, with its command and table. -/
def leadChunk (s : State) : Option (Nat × Flail × SortedChunk × Cmd × TableDecl) :=
  match (positions s).head? with
  | none => none
  | some p =>
    let F := vat s.flails (actor s p)
    match F.cur with
    | none => none
    | some x =>
      match cmdOf s x.uid with
      | none => none
      | some c => (tableFor s c (cmdTable c)).map fun t => (p, F, x, c, t)

/-- A reduction of the lowest position's chunk begins as soon as its own values are there (R277); where S16 stands in for slice
0, S16 begins it (DESIGN CHOICE, log 148). -/
def startReds (range : Bool) (s : State) : State :=
  match leadChunk s with
  | none => s
  | some (p, F, x, c, t) =>
    let done := if range then F.ranges else F.reduced
    let need := if range then rescales c else needsSum c
    let running := s.ring.reds.any fun r => r.uid == x.uid && r.chunk == x.chunk && r.range == range
    if !need || running || !done.isEmpty then s
    else match (rowsOf x.keys).mapM fun r => (leadPart s c t F x range p r).map fun v => (r, v) with
    | none => s
    | some vals => { s with ring := { s.ring with reds := s.ring.reds ++ redPackets s x.uid x.chunk range p vals } }

/-- Reconstruction packets of the lowest position's chunk for its affected rows, one after another's use (R289). -/
def startChunkRecons (s : State) : State :=
  match leadChunk s with
  | none => s
  | some (_, F, x, _, t) =>
    let rows := ((rowsOf x.keys).drop F.applied).filter fun r => affected s t r
      && (rebuiltFor s x.uid x.chunk t.id r).isNone
      && !s.ring.recons.any fun k => k.uid == x.uid && k.chunk == x.chunk && k.table == t.id && k.row == r
    sendRecons x.uid x.chunk t rows s

/-- Whatever the Flails can start now is started. -/
def kickFlail (s : State) : State := startReds true (startReds false (startChunkRecons s))

/-- A reduction's result reaches a position. -/
def deliverRed (pk : RedPkt) (k : Nat) (s : State) : State :=
  onFlail k (fun F => if pk.range then { F with ranges := F.ranges ++ pk.vals } else { F with reduced := F.reduced ++ pk.vals }) s

/-- The packet leaves slice `k`: forgotten once every served position has its result. -/
def placeRed (i k : Nat) (pk : RedPkt) (s : State) : State :=
  let done := pk.total && (positions s).all pk.got.contains
  ringSend (.cmd pk.uid) k ((k + 1) % 17) ((if pk.range then 8 else 4) * pk.vals.length) <|
  { s with ring := { s.ring with reds := if done then s.ring.reds.eraseIdx i else s.ring.reds.set i pk } }

/-- A row-reduction packet reaches its next position: it combines, or brings the result (R277). -/
def redHop (i : Nat) (s : State) : State :=
  match s.ring.reds[i]? with
  | none => s
  | some pk =>
    let p := pk.next
    if pk.total then
      if (positions s).contains p && !pk.got.contains p then
        placeRed i (actor s p) { pk with got := p :: pk.got, next := (p + 1) % 17 } (deliverRed pk (actor s p) s)
      else placeRed i p { pk with next := (p + 1) % 17 } s
    else
      let F := vat s.flails (actor s p)
      match F.cur, cmdOf s pk.uid with
      | some x, some c =>
        if x.uid ≠ pk.uid ∨ x.chunk ≠ pk.chunk then s
        else match tableFor s c (cmdTable c) with
        | none => s
        | some t =>
          match pk.vals.mapM fun v => (reductionPart s c t F x pk.range p v.1).map fun w =>
              (v.1, combine pk.range v.2 w) with
          | none => s
          | some vals =>
            match nextPlace s p with
            | some n => placeRed i (actor s p) { pk with vals := vals, next := n } s
            | none =>
              let pk := { pk with vals := vals, total := true, got := [p], next := (p + 1) % 17 }
              placeRed i (actor s p) pk (deliverRed pk (actor s p) s)
      | _, _ => s

/-- ROW_REDUCTION_PACKET: packet `i` in flight makes its next hop. -/
def execRowReductionPacket (i : Nat) (s : State) : Host.Outcome State Fault Refusal :=
  .next (kickFlail (redHop i s))

/-! ### Sort (R264) -/

/-- The chunk is finished, being applied or sorted on a Flail. -/
def flailHas (F : Flail) (uid j : Nat) : Bool :=
  F.finished.contains (uid, j) || F.cur.any (fun x => x.uid == uid && x.chunk == j)
    || F.sorted.any fun x => x.uid == uid && x.chunk == j

/-- An update or a load applies no row from `at_` on, its first chunk and row not to be applied, and then ends with that
status. -/
def cutUpdate (u : Nat) (at_ : Nat × Nat) (status detail : Nat) (s : State) : State :=
  let cut (x : SortedChunk) : SortedChunk :=
    if x.uid == u then { x with keys := x.keys.filter (keptKey (some at_) x.chunk) } else x
  let gone (chunk row : Nat) : Bool := !keptKey (some at_) chunk (row, 0)
  let s := onCmd u (fun c => { c with
    cutAt := some at_, status := BitVec.ofNat 8 status, detail := BitVec.ofNat 32 detail }) s
  kickFlail { s with
    flails := s.flails.map fun F => { F with cur := F.cur.map cut, sorted := F.sorted.map cut },
    ring := { s.ring with
      reds := (s.ring.reds.map fun r =>
        if r.uid == u then { r with vals := r.vals.filter fun v => !gone r.chunk v.1 } else r).filter (!·.vals.isEmpty),
      recons := s.ring.recons.filter fun k => !(k.uid == u && gone k.chunk k.row) } }

/-- A chunk and row that another comes after in the order of application (R270). -/
def later (a b : Nat × Nat) : Bool := a.1 < b.1 || (a.1 == b.1 && a.2 < b.2)

/-- How far the Flails have come with an update or a load: the first chunk and row that no slice has applied. -/
def updateReach (s : State) (u : Nat) : Nat × Nat :=
  let reach (F : Flail) : Nat × Nat :=
    match F.cur.filter (·.uid == u) with
    | some x => match (rowsOf x.keys)[F.applied]? with | some r => (x.chunk, r) | none => (x.chunk + 1, 0)
    | none => ((F.finished.filter (·.1 == u)).foldl (fun m f => max m (f.2 + 1)) 0, 0)
  (s.flails.toList.map reach).foldl (fun m x => if later m x then x else m) (0, 0)

/-- A read that a row needs has failed (R502, R650), or its write must be dropped (R651): rows that a slice has applied are
applied by every slice, no other row is, and the command then ends with the status of the first failure. -/
def failUpdate (u status detail : Nat) (s : State) : State :=
  match cmdOf s u with
  | none => s
  | some c =>
    let at_ := match c.cutAt with
      | some x => if later x (updateReach s u) then updateReach s u else x
      | none => updateReach s u
    let s := onCmd u (fun c => { c with wants := [] }) s
    if c.status = 0 then cutUpdate u at_ status detail s else cutUpdate u at_ c.status.toNat c.detail.toNat s

/-- The gradient rows of chunk `j` in the order of its sort keys: the entry and the range (R260, R264, R265). -/
def chunkRanges (t : TableDecl) (c : Cmd) (j : Nat) : List (Nat × Rng) :=
  let n := gradRow t ((gradFmt c.bytes).getD .fp32)
  let key (x : Nat × Nat) : Nat := x.1 % 2 ^ 40 * 65536 + x.2 % 65536
  (sortBy (fun a b => key a < key b) (chunkAll c j)).map fun k =>
    (k.2, ⟨bit (param c.bytes 4 1) 2, param c.bytes 0x10 8 + listHead c.bytes + k.2 * n, n⟩)

/-- The home bridge reads the gradient rows of a list in device memory one after another, up to one that it cannot read (R265,
R650, R773; log 140). -/
def readRows (c : Cmd) : List (Nat × Rng) → State → State
  | [], s => s
  | (i, r) :: rs, s =>
    if poisoned s r.addr r.len then failUpdate c.uid 0x22 0 s
    else if targetOffline s (.copy c.func) r.addr r.len then failUpdate c.uid 0x20 0 (noteLoss c.uid s)
    else readRows c rs (chargeCmd c r.addr r.len
      (onCmd c.uid (fun c => { c with arrived := (i, 0, daRead s r.addr r.len) :: c.arrived }) s))

/-- The sorted sequence of an update's chunk reaches the home bridge, which reads the gradient rows in it, from the host or from
device memory (R260, R265). For a function that has been reset nothing more is asked of the host: the update runs to its end
with the chunks before this one (R299, R514 step 1; log 124). -/
def askRows (c : Cmd) (t : TableDecl) (j : Nat) (s : State) : State :=
  let rows := chunkRanges t c j
  if isLoad c || c.cutAt.isSome || (entryBytes t c (j * chunkSize)).isSome then s
  else if rows.any fun x => !onHost x.2 then readRows c rows s
  else if c.phase == .discarded then cutUpdate c.uid (j, 0) 0 0 s
  else askHost c.uid (rows.map fun x => readOf c.func x.2) s

/-- The next chunk that slice `k` sorts, in the order of the commands (R270). -/
def nextChunk (s : State) (k : Nat) : Option (Cmd × Nat) :=
  (((updQueue s).takeWhile (·.checked)).flatMap fun c => (List.range (chunkCount c)).map fun j => (c, j)).find?
    fun x => !flailHas (vat s.flails k) x.1.uid x.2

/-- A sorted chunk begins to be applied when the Flail is free for it. -/
def promoteChunk (F : Flail) : Flail :=
  match F.cur with
  | some _ => F
  | none => { F with cur := F.sorted, sorted := none, reduced := [], ranges := [], applied := 0 }

/-- A sorted chunk stands on slice `k`; the lowest position counts the entries that the policy removes (R264, R267). -/
def placeChunk (k p : Nat) (t : TableDecl) (u j : Nat) (s : State) : State :=
  match cmdOf s u with
  | none => s
  | some c =>
    let keys := chunkKeys s t c j
    let gone := (chunkPositions c j).length - keys.length
    let s := if (positions s).head? == some p then onCmd u (fun c => { c with subst := c.subst + gone }) s else s
    let s := activity (.cmd u) (18 * k + 9) keys.length (stamp u 4 false s)
    kickFlail (onFlail k (fun F => promoteChunk { F with sorted := some { uid := u, chunk := j, keys := keys } }) s)

/-- Slice `k` sorts its next chunk; from the lowest-numbered live data slice the sequence goes to the home bridge (R264,
R265). -/
def chunkSort (k : Nat) (s : State) : State :=
  match placeOf s k, nextChunk s k with
  | some p, some (c, j) =>
    if (vat s.flails k).sorted.isSome then s
    else match tableFor s c (cmdTable c) with
    | none => s
    | some t => placeChunk k p t c.uid j (if (liveData s).head? == some k then askRows c t j s else s)
  | _, _ => s

/-- CHUNK_SORT on slice `k`. -/
def execChunkSort (k : Fin 17) (s : State) : Host.Outcome State Fault Refusal :=
  .next (chunkSort k.val s)

/-! ### End of a command -/

/-- Every chunk of the command is applied everywhere and no old record of it is held. -/
def updateSettled (s : State) (c : Cmd) : Bool :=
  let ks := (positions s).map (actor s)
  c.checked && ks.all (fun k => (List.range (chunkCount c)).all fun j => (vat s.flails k).finished.contains (c.uid, j))
    && ks.all (fun k => (vat s.flails k).holds.all (·.uid != c.uid)) && s.ring.farHolds.all (·.uid != c.uid)
    && s.ring.chain.all (·.uid != c.uid)

/-- What the Flails and the ring keep for a command goes. -/
def forgetUpdate (u : Nat) (s : State) : State :=
  let is (o : Option SortedChunk) : Bool := o.any (·.uid == u)
  let clean (F : Flail) : Flail := promoteChunk
    { F with finished := F.finished.filter (·.1 != u), cur := if is F.cur then none else F.cur,
             sorted := if is F.sorted then none else F.sorted, applied := if is F.cur then 0 else F.applied }
  { s with flails := s.flails.map clean,
           ring := { s.ring with given := s.ring.given.filter (·.1 != u), recons := s.ring.recons.filter (·.uid != u),
                                 rebuilt := s.ring.rebuilt.filter (·.1 != u), reds := s.ring.reds.filter (·.uid != u),
                                 farParts := s.ring.farParts.filter (·.uid != u) } }

/-- A command's work ends: its completion may be posted, or, when its function was reset, it leaves without one
(R299, R514). -/
def finishWork (u status detail : Nat) (s : State) : State :=
  match cmdOf s u with
  | none => s
  | some c => if c.phase == .discarded then retire c none (discardNow c s) else endCmd u status detail s

/-- Status and DETAIL of an update or load whose work is over (R202, R289, R502, R650, R651). -/
def updateStatus (c : Cmd) : Nat × Nat :=
  if c.cutAt.isSome then (c.status.toNat, c.detail.toNat)
  else if 0 < c.subst then (1, min 0xFFFFFFFF c.subst) else if c.degraded then (2, 0) else (0, 0)

/-- Updates and loads whose work is over are ended. -/
def settleUpdates (s : State) : State :=
  ((updQueue s).filter (updateSettled s)).foldl (fun s c =>
    let (st, d) := updateStatus c
    finishWork c.uid st d (stamp c.uid 8 false (stamp c.uid 7 true (forgetUpdate c.uid s)))) s

/-! ### Apply (R270, R280, R281, R286) -/

/-- `a` is later than `b` (R281). -/
def seqLater (a b : BitVec 48) : Bool := decide (1 ≤ (a - b).toNat ∧ (a - b).toNat ≤ 2 ^ 47 - 1)

/-- Bytes of a hold area. -/
def holdArea : Nat := 1048576

/-- One more row of a protected table may be applied on slice `k`: its hold area has room, and a row that has no CHAIN_SEQ yet
finds fewer than 2^20 unacknowledged ones (R282, R286). -/
def holdRoom (s : State) (t : TableDecl) (k : Nat) (numbered : Bool) : Bool :=
  decide (((vat s.flails k).holds.map fun h => h.old.length).sum + t.segStride ≤ holdArea)
    && (numbered || decide ((s.ring.nextSeq - 1 - s.ring.acked).toNat < 2 ^ 20))

/-- Every earlier lookup of the table has read the row at position `p`, and its far row (R271). -/
def lookupsPast (s : State) (c : Cmd) (t : TableDecl) (row p : Nat) : Bool :=
  s.cmds.all fun l => !(isLookup l && unfinished l && l.phase != .discarded && cmdTable l == t.id && before l c) ||
    (l.checked &&
      let left (q : Nat) : Bool :=
        ((List.range l.total).drop (nth l.sent q 0)).any fun r => (rowEntries l r).any (·.1 == row)
      !left p && !(isFar (shardOf t row) && decide (farCount l row < (lkIdx l).count row) && (List.range 16).any left))

/-- No reconstruction that must see the row as it stands has still to pass position `p` (R244, R289). -/
def reconsPast (s : State) (c : Cmd) (chunk : Nat) (t : TableDecl) (row p : Nat) : Bool :=
  s.ring.recons.all fun k => !(k.table == t.id && k.row == row) ||
    (match cmdOf s k.uid with
     | none => true
     | some x => decide (stampKey c chunk < stampKey x k.chunk) || (decide (p < k.next) && actor s p != 16))

/-- Position `p` may apply a row of its chunk now (R195, R271, R277, R282, R286, R297). -/
def rowReady (s : State) (c : Cmd) (t : TableDecl) (x : SortedChunk) (F : Flail) (p row : Nat) : Bool :=
  let numbered := s.ring.given.any fun g => g.1 == c.uid && g.2.1 == x.chunk && g.2.2.1 == row
  (rowBytes t c x.keys row).isSome && (oldRecord s c t x.chunk row p).isSome
    && (!isFar (shardOf t row) || (farRow c x.chunk row).isSome)
    && !(shardOf t row).fresh && !frozenRow s t row
    && (!needsSum c || (reducedOf F.reduced row).isSome) && (!rescales c || (reducedOf F.ranges row).isSome)
    && (!takesSeq s t c.uid x.chunk row || holdRoom s t (actor s p) numbered) && lookupsPast s c t row p && reconsPast s c x.chunk t row p

/-- The new record of a row at position `p` (R206, R274 to R279). -/
def newRecord (s : State) (c : Cmd) (t : TableDecl) (x : SortedChunk) (F : Flail) (p row : Nat) (old : List Byte) :
    List Byte :=
  let src := (rowBytes t c x.keys row).getD []
  if isLoad c then splitRow t (src.getLastD []) p
  else
    let g := mergedGrad t ((gradFmt c.bytes).getD .fp32) p src
    let sum := ((reducedOf F.reduced row).map (·.1)).getD 0
    let (w, state) := stepSegment t (optimOf c) (hyperOf c) p old g sum t.dim
    let (sc, b) :=
      if rescales c then (match reducedOf F.ranges row with | some (lo, hi) => rescaled t lo hi | none => recScale t old)
      else recScale t old
    buildRecord (special s t.fmt) t p w sc b state

/-- The CHAIN_SEQ of a row of a chunk: the first slice to apply it takes the next number (R281). -/
def giveSeq (uid chunk row : Nat) (s : State) : BitVec 48 × State :=
  match s.ring.given.find? fun g => g.1 == uid && g.2.1 == chunk && g.2.2.1 == row with
  | some g => (g.2.2.2, s)
  | none =>
    let n := s.ring.nextSeq
    (n, { s with ring := { s.ring with nextSeq := n + 1, given := s.ring.given ++ [(uid, chunk, row, n)] } })

/-- The record goes to every stack copy of the row on slice `k`, and to its lift copy (R199, R280, R317, R324). -/
def writeStackCopies (t : TableDecl) (row k : Nat) (r : List Byte) (s : State) : State :=
  let s := ((rowPlaces s t row).filter (·.1 == .stack)).foldl
    (fun s pl => rowWrite s (segDa t (placeShard pl) row k) r) s
  match liftHit s t row with
  | some e => daPoke s (cribDa k (liftOff s.image.carve e)) r
  | none => s

/-- Traffic of that: the home copy and the lift copy are the command's, a second copy is migration's (R330, R332; log 125). -/
def writeTraffic (c : Cmd) (t : TableDecl) (row k : Nat) (s : State) : State :=
  let home := shardOf t row
  let s := ((rowPlaces s t row).filter (·.1 == .stack)).foldl (fun s pl =>
    let da := segDa t (placeShard pl) row k
    if pl == (home.tier, home.base) then rowTraffic c da t.segStride s else chargeMove da t.segStride s) s
  match liftHit s t row with
  | some e => chargeCmd c (cribDa k (liftOff s.image.carve e)) t.segStride s
  | none => s

/-- The whole far row as it stood, of a row's home. -/
def oldFarRow (s : State) (t : TableDecl) (row : Nat) : List Byte :=
  daRead s (segDa t (shardOf t row) row 0) (16 * t.segStride)

/-- The part belongs to a row of a command's chunk. -/
def partOfStep (uid chunk table row : Nat) (f : RowPart) : Bool :=
  f.uid == uid && f.chunk == chunk && f.table == table && f.row == row

/-- The bridge of a protected far-home row keeps the old row for the husk, and its chain packet takes the XOR of the sixteen
new records, for the parity of a copy on the stacks (R286, R324). -/
def holdFar (c : Cmd) (t : TableDecl) (x : SortedChunk) (row : Nat) (recs : List (List Byte)) (s : State) : State :=
  let (n, s) := giveSeq c.uid x.chunk row s
  let h : HoldRec := { seq := n, uid := c.uid, chunk := x.chunk, table := t.id, row := row, old := oldFarRow s t row }
  let par := xorAll t.segStride recs
  { s with ring := { s.ring with
      farHolds := h :: s.ring.farHolds,
      chain := s.ring.chain.map fun k => if k.seq == n then { k with parity := some par } else k } }

/-- The owning bridge writes a far row once the sixteen records of one step are there, and keeps the old row for the husk
(R280, R286, R324). -/
def assembleFar (c : Cmd) (t : TableDecl) (x : SortedChunk) (row : Nat) (s : State) : State :=
  let mine := partOfStep c.uid x.chunk t.id row
  let parts := s.ring.farParts.filter mine
  match (List.range 16).mapM fun p => (parts.find? (·.pos == p)).map (·.rec_) with
  | none => s
  | some recs =>
    let home := shardOf t row
    let s := if isFar home && takesSeq s t c.uid x.chunk row then holdFar c t x row recs s else s
    let s := ((rowPlaces s t row).filter fun pl => isFar (placeShard pl)).foldl (fun s pl =>
      let da := segDa t (placeShard pl) row 0
      let s := rowWrite s da recs.flatten
      if pl == (home.tier, home.base) then chargeCmd c da (16 * t.segStride) s else chargeMove da (16 * t.segStride) s) s
    onCmd c.uid (fun c => { c with far := c.far.filter fun f => !(f.1 == row && f.2.1 == x.chunk) })
      { s with ring := { s.ring with farParts := s.ring.farParts.filter fun f => !mine f } }

/-- The slice's part of the husk chain for one applied row: its delta, its hold, and at the lowest live data slice the
packet itself (R283, R286, R289). A slice's delta for a far-home row is empty: it says that the slice has applied it, so
that no packet is folded whose row does not stand (R291; log 35). -/
def chainRow (c : Cmd) (t : TableDecl) (x : SortedChunk) (k row : Nat) (old new : List Byte) (s : State) : State :=
  let (n, s) := giveSeq c.uid x.chunk row s
  let stack := !isFar (shardOf t row)
  let delta := xorBytes old new
  let h : HoldRec := { seq := n, uid := c.uid, chunk := x.chunk, table := t.id, row := row, old := old }
  let s := if stack && k != 16 then onFlail k (fun F => { F with holds := h :: F.holds }) s else s
  if (liveData s).head? == some k then
    let nx := ((liveData s).find? (k < ·)).getD 16
    { s with ring := { s.ring with
        arrivals := s.ring.arrivals + 1,
        chain := s.ring.chain ++
          [{ uid := c.uid, chunk := x.chunk, seq := n, table := t.id, row := row,
             payload := if stack then some delta else none, parity := none, next := nx, arr := s.ring.arrivals }] } }
  else { s with ring := { s.ring with deltas := (k, n, if stack then delta else []) :: s.ring.deltas } }

/-- Position `p` applies one row. -/
def applyRow (c : Cmd) (t : TableDecl) (x : SortedChunk) (p row : Nat) (s : State) : State :=
  let k := actor s p
  let F := vat s.flails k
  let sh := shardOf t row
  let old := (oldRecord s c t x.chunk row p).getD (zeros t.segStride)
  let new := newRecord s c t x F p row old
  let s := if takesSeq s t c.uid x.chunk row then chainRow c t x k row old new s else s
  let s := readTraffic c t row p s
  let s := if k = 16 then s else writeTraffic c t row k (writeStackCopies t row k new s)
  let lead := (positions s).head? == some p
  let part (q : Nat) (r : List Byte) : RowPart :=
    { uid := c.uid, chunk := x.chunk, table := t.id, row := row, pos := q, rec_ := r }
  let orphan (q : Nat) : RowPart := part q (newRecord s c t x F q row ((oldRecord s c t x.chunk row q).getD (zeros t.segStride)))
  let s := if (rowPlaces s t row).any fun pl => isFar (placeShard pl) then
      let parts := part p new :: (if lead then (orphans s).map orphan else [])
      assembleFar c t x row { s with ring := { s.ring with farParts := parts ++ s.ring.farParts } }
    else s
  let s := if k = 16 && !isFar sh then
      onCmd c.uid (fun c => { c with degraded := true })
        { s with ring := { s.ring with rebuilt := s.ring.rebuilt.filter fun r => !rebuiltIs c.uid x.chunk t.id row r } }
    else s
  let s := activity (.cmd c.uid) (18 * k + 9) 1 (countLoad true t row k s)
  onFlail k (fun F => { F with applied := F.applied + 1 }) s

/-- A row that no slice has applied yet cannot be: an update cannot read it, or its write is dropped on every slice (R650,
R651). -/
def rowFails (s : State) (c : Cmd) (t : TableDecl) (x : SortedChunk) (row : Nat) : Bool :=
  !(s.flails.any fun F => appliedOn F c.uid x.chunk row)
    && ((isUpdate c && rowPoisoned s t row) || rowDropped s t row)

/-- Rows are applied in ascending order up to the first that must wait (R270), or that poison stops. -/
def applyRows (c : Cmd) (t : TableDecl) (x : SortedChunk) (p : Nat) : List Nat → State → State
  | [], s => s
  | r :: rs, s =>
    match cmdOf s c.uid with
    | none => s
    | some c =>
      if !rowReady s c t x (vat s.flails (actor s p)) p r then s
      else if rowFails s c t x r then failUpdate c.uid 0x22 0 s
      else applyRows c t x p rs (applyRow c t x p r s)

/-- A slice has applied its whole chunk: the sorted one takes its place. -/
def chunkEnd (k : Nat) (x : SortedChunk) (s : State) : State :=
  onFlail k (fun F => promoteChunk { F with finished := (x.uid, x.chunk) :: F.finished, cur := none }) s

/-- The entries of a chunk that every position has finished need no bytes any more. -/
def dropEntries (u j : Nat) (s : State) : State :=
  if ((positions s).map (actor s)).all fun k => (vat s.flails k).finished.contains (u, j) then
    onCmd u (fun c => { c with arrived := c.arrived.filter fun a => a.1 / chunkSize != j }) s
  else s

/-- Slice `k` applies what it can of its chunk. -/
def chunkApply (k : Nat) (s : State) : State :=
  match placeOf s k, (vat s.flails k).cur with
  | some p, some x =>
    match cmdOf s x.uid with
    | none => s
    | some c =>
      match tableFor s c (cmdTable c) with
      | none => s
      | some t =>
        let s := applyRows c t x p ((rowsOf x.keys).drop (vat s.flails k).applied) s
        let left := (vat s.flails k).cur.any fun y => decide ((vat s.flails k).applied < (rowsOf y.keys).length)
        if left then kickFlail s
        else kickFlail (settleUpdates (dropEntries x.uid x.chunk (chunkEnd k x s)))
  | _, _ => s

/-- CHUNK_APPLY on slice `k`. -/
def execChunkApply (k : Fin 17) (s : State) : Host.Outcome State Fault Refusal :=
  .next (chunkApply k.val s)

/-! ### The husk chain (R283 to R286) -/

/-- An earlier reconstruction of the row must see the parity before this fold. -/
def foldHeld (s : State) (pk : ChainPkt) : Bool :=
  match cmdOf s pk.uid with
  | none => false
  | some c => s.ring.recons.any fun k => k.table == pk.table && k.row == pk.row &&
      (match cmdOf s k.uid with | none => false | some x => decide (stampKey x k.chunk < stampKey c pk.chunk))

/-- The parity record of every stack copy of a row becomes `par`. Parity folded from a poisoned record stays poisoned (log 78). -/
def writeParity (t : TableDecl) (row : Nat) (par : List Byte) (s : State) : State :=
  ((rowPlaces s t row).filter (·.1 == .stack)).foldl (fun s pl => daPoke s (segDa t (placeShard pl) row 16) par) s

/-- Traffic of that: the home copy's read and write are the command's, the write of a second copy is migration's (R332,
R614, Table 19-4). -/
def parityTraffic (pk : ChainPkt) (c : Cmd) (t : TableDecl) (s : State) : State :=
  let home := shardOf t pk.row
  ((rowPlaces s t pk.row).filter (·.1 == .stack)).foldl (fun s pl =>
    let da := segDa t (placeShard pl) pk.row 16
    if pl != (home.tier, home.base) then chargeMove da t.segStride s
    else
      let s := rowTraffic c da t.segStride s
      if pk.payload.isSome then rowTraffic c da t.segStride s else s) s

/-- S16 folds a packet into the parity of every stack copy of the row: the delta of a stack-home row, with its own, or the
parity that a far-home row's bridge has formed (R284, R289, R324). -/
def foldParity (pk : ChainPkt) (own : List Byte) (s : State) : State :=
  match (cmdOf s pk.uid).bind fun c => (tableFor s c pk.table).map fun t => (c, t) with
  | none => s
  | some (c, t) =>
    match pk.payload, pk.parity with
    | some d, _ => parityTraffic pk c t (writeParity t pk.row
        (xorBytes (xorBytes (daRead s (segDa t (shardOf t pk.row) pk.row 16) t.segStride) d) own) s)
    | none, some par => parityTraffic pk c t (writeParity t pk.row par s)
    | none, none => s

/-- S16 acknowledges after 256 folds, or when nothing waits to be folded (R285). -/
def ackIfDue (s : State) : State :=
  let g := s.ring
  if g.folded == g.acked then s
  else if 256 ≤ (g.folded - g.acked).toNat ∨ g.chain.all (·.next != 16) then
    { s with ring := { g with acked := g.folded, acks := g.acks ++ [{ seq := g.folded, next := (liveData s).headD 16 }] } }
  else s

/-- The packet's command is still being applied: its packet waits for the deltas of every slice (R283). -/
def awaited (s : State) (pk : ChainPkt) : Bool := (cmdOf s pk.uid).any unfinished

/-- The delta of slice `k` for a packet. -/
def deltaFor (s : State) (pk : ChainPkt) (k : Nat) : Option (List Byte) :=
  (s.ring.deltas.find? fun d => d.1 == k && d.2.1 == pk.seq).map (·.2.2)

/-- A chain packet can go on from the slice where it stands: that slice's delta is ready, and S16 takes it in CHAIN_SEQ order
(R283, R284). -/
def chainReady (s : State) (pk : ChainPkt) : Bool :=
  if pk.next = 16 then
    pk.seq == s.ring.folded + 1 && !foldHeld s pk
      && !(s.recov.standin.isSome && (deltaFor s pk 16).isNone && awaited s pk)
  else (deltaFor s pk pk.next).isSome || !awaited s pk

/-- A chain packet of an earlier update of the row has still to be folded at S16. -/
def chainAhead (s : State) (c : Cmd) (pk : ReconPkt) : Bool :=
  s.ring.chain.any fun x => x.table == pk.table && x.row == pk.row &&
    match cmdOf s x.uid with
    | none => false
    | some d => decide (stampKey d x.chunk < stampKey c pk.chunk)

/-- A reconstruction packet can go on: every earlier update has written the row there, or been folded (R244, R271, R289). -/
def reconReady (s : State) (pk : ReconPkt) : Bool :=
  match cmdOf s pk.uid with
  | none => true
  | some c =>
    if pk.next = 16 then !chainAhead s c pk
    else !readBlocked s c pk.table pk.row pk.next
      && (isLookup c || (List.range pk.chunk).all fun j => chunkPast s pk.next c.uid j pk.row)

/-- Of the packets at slice `k` that can go on, none came before the one that arrived as number `arr`: chain and
reconstruction packets share the ring in arrival order (R246). -/
def ringTurn (s : State) (k arr : Nat) : Bool :=
  s.ring.chain.all (fun y => y.next != k || decide (arr ≤ y.arr) || !chainReady s y)
    && s.ring.recons.all fun y => y.next != k || decide (arr ≤ y.arr) || !reconReady s y

/-- The next slice of the ring's order after data slice `k` (R244, R283). -/
def ringNext (s : State) (k : Nat) : Nat := ((liveData s).find? (k < ·)).getD 16

/-- A chain packet reaches its next slice: the delta is XORed in, or S16 folds it in CHAIN_SEQ order. -/
def chainHop (i : Nat) (s : State) : State :=
  match s.ring.chain[i]? with
  | none => s
  | some pk =>
    let k := pk.next
    let mine := deltaFor s pk k
    let rest := s.ring.deltas.filter fun d => !(d.1 == k && d.2.1 == pk.seq)
    let n := (pk.payload.map (·.length)).getD 0
    if !chainReady s pk || !ringTurn s k pk.arr then s
    else if k = 16 then
      let s := foldParity pk (mine.getD []) s
      ackIfDue <| ringActivity (.cmd pk.uid) k n
        { s with ring := { s.ring with chain := s.ring.chain.eraseIdx i, folded := pk.seq, deltas := rest } }
    else
      let pk' := { pk with payload := pk.payload.map fun d => (mine.map (xorBytes d)).getD d, next := ringNext s k,
                           arr := s.ring.arrivals }
      ringSend (.cmd pk.uid) k pk'.next n
        { s with ring := { s.ring with chain := s.ring.chain.set i pk', deltas := rest, arrivals := s.ring.arrivals + 1 } }

/-- HUSK_CHAIN_PACKET: packet `i` in flight makes its next hop. -/
def execHuskChainPacket (i : Nat) (s : State) : Host.Outcome State Fault Refusal :=
  .next (settleUpdates (chainHop i s))

/-- An acknowledgement reaches a slice, which releases what it covers; past the last one the bridges release theirs
(R285, R286). -/
def ackHop (i : Nat) (s : State) : State :=
  match s.ring.acks[i]? with
  | none => s
  | some a =>
    let keep (h : HoldRec) : Bool := seqLater h.seq a.seq
    let s := if a.next = 16 then s else onFlail a.next (fun F => { F with holds := F.holds.filter keep }) s
    match (liveData s).find? (a.next < ·) with
    | some n => if a.next = 16 then { s with ring := { s.ring with acks := s.ring.acks.eraseIdx i } }
                else { s with ring := { s.ring with acks := s.ring.acks.set i { a with next := n } } }
    | none => { s with ring := { s.ring with acks := s.ring.acks.eraseIdx i, farHolds := s.ring.farHolds.filter keep } }

/-- HUSK_ACK: acknowledgement `i` in flight makes its next hop. -/
def execHuskAck (i : Nat) (s : State) : Host.Outcome State Fault Refusal :=
  .next (settleUpdates (ackHop i s))

/-! ### Start (Tables 7-3 and 15-2, R205) -/

/-- Steps 4 to 9 of Table 7-3: the check code of the first that fails. -/
def updateCode (t : TableDecl) (c : Cmd) : Option Nat :=
  let o := optimOf c
  let okOptim :=
    if opcodeOf c.bytes = 0x20 then o == 0
    else o == 1 || (o == 2 && t.opt == .adagradRow) || (o == 3 && t.opt == .adam)
  if !okOptim then some 1
  else match gradFmt c.bytes with
  | none => some 2
  | some g =>
    let inl := bit (param c.bytes 4 1) 1
    let len := listHead c.bytes + entryCount c * gradRow t g
    if entryCount c < 1 ∨ 1048576 < entryCount c then some 3
    else if inl && badInline c.bytes len then some 4
    else if !inl && decide (param c.bytes 0x10 8 % 8 ≠ 0) then some 5
    else if rescales c && !(t.fmt == .int8 || t.fmt == .int4) then some 7
    else none

/-- Reads of a load's rows, in ascending order (R206, R572). -/
def entryReads (t : TableDecl) (c : Cmd) : List HostRead :=
  (List.range (entryCount c)).map fun i =>
    readOf c.func ⟨srcDev c.bytes, param c.bytes 8 8 + i * t.logicalStride, t.logicalStride⟩

/-- The command has passed its checks and joins the per-row order; a load asks for its rows that are still with the host, an
update once its chunks are sorted (R265). -/
def enterOrder (u : Nat) (t : TableDecl) (s : State) : State :=
  match cmdOf s u with
  | none => s
  | some c =>
    let s := onCmd u (fun c => { c with phase := .working, checked := true, total := chunkCount c }) s
    let s := stamp u 3 false (stamp u 1 false s)
    if isLoad c && (entryBytes t c 0).isNone then askHost u (entryReads t c) s else s

/-- The header and the indices are there: step 11, the FAIL policy and poison (R261, R262, R650). -/
def dispatchUpdate (u : Nat) (s : State) : State :=
  match cmdOf s u with
  | none => s
  | some c =>
    match tableFor s c (cmdTable c) with
    | none => endCmd u 0x11 0xFFFFFFFF s
    | some t =>
      let idx := (List.range (entryCount c)).map (entryRow c)
      if badHyper (optimOf c) (hyperOf c) then stamp u 1 false (badOpcode u 6 s)
      else match if t.invalid == .fail then firstBad s t idx else none with
      | some i => stamp u 1 false (endCmd u 0x11 i (resolutionPass c t idx s))
      | none =>
        let s := resolutionPass c t idx s
        if idx.any (rowPoisoned s t) then stamp u 1 false (endCmd u 0x22 0 s) else enterOrder u t s

/-- An update once admitted: its list is checked whole, its header and indices are read at once, its gradient rows as the chunks
are sorted (R260, R261, R265, R650). -/
def startUpdate (u : Nat) (s : State) : State :=
  match cmdOf s u with
  | none => s
  | some c =>
    match tableChecks s c true with
    | .inl (st, d) => stamp u 1 false (endCmd u st d s)
    | .inr t =>
      match updateCode t c with
      | some code => stamp u 1 false (badOpcode u code s)
      | none =>
        if bit (param c.bytes 4 1) 1 then dispatchUpdate u s
        else
          let r := updListRange t ((gradFmt c.bytes).getD .fp32) c
          let k := rngKind s c.func false r
          if k ≠ 0 then failRange u k r.addr s
          else if onHost r then
            askHost u (translations s c.func [r] ++ [readOf c.func { r with len := listHead c.bytes }]) s
          else if poisoned s r.addr r.len then endCmd u 0x22 0 s
          else
            let h := listHead c.bytes
            dispatchUpdate u (onCmd u (fun x => { x with data := daRead s r.addr h }) (chargeCmd c r.addr h s))

/-- The first row of a load that is invalid or whose shard is NONE (R205). -/
def badLoadRow (t : TableDecl) (c : Cmd) : Option Nat :=
  let first := param c.bytes 0x18 8 % 2 ^ 40
  (List.range (entryCount c)).find? fun i => decide (t.rows ≤ first + i) || (shardOf t (first + i)).tier == .none

/-- A load once admitted (Table 15-2, R205). DETAIL of a refused row is its position in the load (log 24). -/
def startLoad (u : Nat) (s : State) : State :=
  match cmdOf s u with
  | none => s
  | some c =>
    let s := stamp u 1 false s
    match tableChecks s c true with
    | .inl (st, d) => endCmd u st d s
    | .inr t =>
      let r := loadRange t c
      let k := rngKind s c.func false r
      if entryCount c < 1 ∨ 1048576 < entryCount c then badOpcode u 2 s
      else if copyInline c.bytes then badOpcode u 3 s
      else if k ≠ 0 then failRange u k r.addr s
      else match badLoadRow t c with
      | some i => endCmd u 0x11 i s
      | none =>
        if onHost r then
          let ts := translations s c.func [r]
          if ts.isEmpty then enterOrder u t s else askHost u ts s
        else if poisoned s r.addr r.len then endCmd u 0x22 0 s
        else enterOrder u t (onCmd u (fun x => { x with data := daRead s r.addr r.len }) (chargeCmd c r.addr r.len s))

/-- The entry whose bytes a host read brings. -/
def entryOfRead (t : TableDecl) (c : Cmd) (r : HostRead) : Nat :=
  if isLoad c then
    (r.addr - (readOf c.func ⟨srcDev c.bytes, param c.bytes 8 8, 0⟩).addr) / max 1 t.logicalStride
  else
    let base := (readOf c.func ⟨bit (param c.bytes 4 1) 2, param c.bytes 0x10 8 + listHead c.bytes, 0⟩).addr
    (r.addr - base) / max 1 (gradRow t ((gradFmt c.bytes).getD .fp32))

/-- Host data, or the last translation, has come for an update or a load. -/
def updateHost (u : Nat) (r : HostRead) (data : Option (List Byte)) (s : State) : State :=
  match cmdOf s u with
  | none => s
  | some c =>
    match tableFor s c (cmdTable c), data with
    | none, _ => s
    | some t, none => if c.checked then s else if isLoad c then enterOrder u t s else s
    | some t, some bs =>
      if c.checked then
        kickFlail (onCmd u (fun c => { c with arrived := (entryOfRead t c r, 0, bs) :: c.arrived }) s)
      else dispatchUpdate u (stamp u 2 false (onCmd u (fun c => { c with data := bs }) s))

/-- SCATTER_ADD from queue pair `q` (R274). -/
def execScatterAdd (q : Fin 256) (s : State) : Host.Outcome State Fault Refusal :=
  .next (admitCommand (· == 0x20) q.val startUpdate s)

/-- SCATTER_OPT from queue pair `q` (R275). -/
def execScatterOpt (q : Fin 256) (s : State) : Host.Outcome State Fault Refusal :=
  .next (admitCommand (· == 0x21) q.val startUpdate s)

/-- TABLE_LOAD from queue pair `q`: COPY_H2D in table-load form (R572). -/
def execTableLoad (q : Fin 256) (s : State) : Host.Outcome State Fault Refusal :=
  .next (if headForm s q.val = 1 then admitCommand (· == 0x40) q.val startLoad s else s)

end Sys2Proof.Machine
end

