-- ==== Sys2Proof/Machine/Kernel.lean ====
section
/-!
DEFINITION. Sys2Proof/Machine/Kernel.lean: launches, transfers, long instructions, exceptions and interrupts of the Culm
cores (sections 12.7 to 12.12 and 10.5).
-/
namespace Sys2Proof.Machine

/-! ### A core stops (R443, R477, R484) -/

/-- Cells whose contents a core reset leaves undefined: free values (R443, log 7). -/
def freeTile (ctr : Nat) (t : Tile) : Tile :=
  { t with live := false, sat := false, nan := false,
           cells := (List.range tileCells).map fun i =>
             let x := (Config.freeWord (ctr + i)).toNat
             { a := BitVec.ofNat 20 x, w := BitVec.ofNat 32 (x / 2 ^ 20) } }

/-- A core reset (R443, R479). Transfers already issued still complete (R465). -/
def coreReset (k : Nat) (s : State) : State :=
  let n := s.freeCtr
  let s := onCore k (fun K =>
    { K with g := Vector.replicate 64 0, v := Vector.replicate 32 0, lc := Vector.replicate 3 0,
             ls := Vector.replicate 3 0, le := Vector.replicate 3 0, prog := 0, nest := 0, modeReg := 8,
             modePend := none, bank := false, bd := false, ms := false, li := false,
             tiles := Vector.ofFn fun i : Fin 8 => freeTile (n + 256 * i.val) (vat K.tiles i.val),
             pend := [], stores := [], branch := none, long := false, drain := .none, ymaskCycles := 0,
             arrFree := 0, slotFree := Vector.replicate 8 0, slotBusy := Vector.replicate 8 0 }) s
  { s with freeCtr := n + 2048 }

/-- A core of a launch ended with a fault: the first by rank is kept; a core that ends for another core's fault is none
(R484). -/
def noteFault (u rank cause : Nat) (s : State) : State :=
  onCmd u (fun c =>
    let f := match c.fault with
      | some (r, x) => if rank < r then (rank, cause) else (r, x)
      | none => (rank, cause)
    if cause = 0x24 then c else { c with fault := some f }) s

/-- One core fewer runs for a command; after the last the command ends (R484). A status set before, for a loss or a
refused transfer, stands. -/
def coreDone (u : Nat) (s : State) : State :=
  let s := onCmd u (fun c => { c with cores := c.cores - 1 }) s
  match cmdOf s u with
  | none => s
  | some c =>
    if 0 < c.cores then s
    else
      let s := stamp u 8 false s
      if c.status ≠ 0 then finishWork u c.status.toNat c.detail.toNat s
      else match c.fault with
      | none => finishWork u 0 0 s
      | some (rank, cause) => finishWork u 0x23 (cause + 256 * rank) s

/-- Core `k` ends its part of a kernel, with a cause when it did not end with END (R465, R477, R484). -/
def stopCore (k : Nat) (cause : Option Nat) (s : State) : State :=
  match (vat s.cores k).launch with
  | none => s
  | some l =>
    let s := landAll k s
    let s := onCore k (fun K =>
      { K with mode := .idle, launch := none, long := false, abort := none, drain := .none, branch := none,
               modePend := none, pend := [] }) s
    match cause with
    | none => coreDone l.cmd s
    | some x => coreDone l.cmd (noteFault l.cmd l.rank x (coreReset k s))

/-- The launches of a command among what waits for a core. -/
def launchesOf (u : Nat) (q : List CoreWork) : List Launch :=
  q.filterMap fun w => match w with | .launch l => if l.cmd == u then some l else none | .item _ => none

/-- The work is a launch of a command. -/
def isLaunchOf (u : Nat) : CoreWork → Bool
  | .launch l => l.cmd == u
  | .item _ => false

/-- ABORT is raised on one core for a command: a core that runs it ends at its next boundary; a launch that waits, or
is preempted, or has not started, ends at once (R477, R491). -/
def abortOn (u cause : Nat) (s : State) (k : Nat) : State :=
  let K := vat s.cores k
  let gone := launchesOf u (K.queue ++ (K.saved.map (·.work)).toList)
  let s := onCore k (fun K =>
    { K with queue := K.queue.filter fun w => !isLaunchOf u w, saved := K.saved.filter fun x => !isLaunchOf u x.work }) s
  let s := gone.foldl (fun s l => coreDone u (noteFault u l.rank cause s)) s
  if (K.launch.map (·.cmd)) == some u then
    if K.mode == .idle then stopCore k (some cause) s
    else if K.mode == .locked || K.abort.isSome then s
    else onCore k (fun K => { K with abort := some cause }) s
  else s

/-- ABORT on every core of a launch (R477). -/
def abortLaunch (u cause : Nat) (s : State) : State := (List.range 136).foldl (abortOn u cause) s

/-- A launch ends with a status of its own: a refused host read (R502), poison (R650, R651). -/
def killLaunch (u status detail : Nat) (s : State) : State :=
  abortLaunch u 0x21 (onCmd u (fun c =>
    if c.status = 0 then { c with status := BitVec.ofNat 8 status, detail := BitVec.ofNat 32 detail } else c) s)

/-- The cause that a FAULT reports: CAUSE.CODE, which is 0x00 outside a handler (R484). -/
def faultCause (K : Core) : Nat := if K.nest = 0 then 0 else bits K.cause.toNat 0 8

/-- A core that drains for END or FAULT stops once no transfer is outstanding (R465, R484). -/
def settleDrain (k : Nat) (s : State) : State :=
  let K := vat s.cores k
  if K.mode != .draining || !K.xfers.isEmpty then s
  else match K.drain, K.launch with
  | .endKernel, _ => stopCore k none s
  | .faultKernel, some l => abortLaunch l.cmd 0x24 (stopCore k (some (faultCause K)) s)
  | _, _ => s

/-- ABORT on core `k` (R477). -/
def execAbort (k : Fin 136) (s : State) : Host.Outcome State Fault Refusal :=
  let K := vat s.cores k.val
  .next (match K.abort with
    | some x => if K.mode == .kernel || K.mode == .draining then stopCore k.val (some x) s else s
    | none => s)

/-- BUDGET on core `k` (R478). -/
def execBudget (k : Fin 136) (s : State) : Host.Outcome State Fault Refusal :=
  let K := vat s.cores k.val
  .next (if (K.mode == .kernel || K.mode == .draining) && overBudget K then stopCore k.val (some 0x22) s else s)

/-- YMASK_LIMIT on core `k` (R478). -/
def execYmaskLimit (k : Fin 136) (s : State) : Host.Outcome State Fault Refusal :=
  let K := vat s.cores k.val
  .next (if (K.mode == .kernel || K.mode == .draining) && overYmask K then stopCore k.val (some 0x23) s else s)

/-! ### XFER_COMPLETE (R465) -/

/-- The bytes a transfer carries; none when a source atom is poisoned, or host data is not there. -/
def xferBytes (x : Xfer) (r : HostReply) (s : State) : Option (List Byte) :=
  let reg := x.src / 2 ^ 52
  if reg = 6 then match r with | .data bs => some (fitTo bs x.len) | _ => none
  else if reg = 0 then some (regBytes s x.src x.len)
  else if poisoned s x.src x.len then none
  else some (daRead s x.src x.len)

/-- The function and command that a core works for. -/
def coreCmd (s : State) (k : Nat) : Option Cmd := (vat s.cores k).launch.bind fun l => cmdOf s l.cmd

/-- `n` bytes of a transfer of core `k` pass the port of a host address (Table 19-4). -/
def hostActivity (k da n : Nat) (s : State) : State :=
  busActivity (match coreCmd s k with | some c => .cmd c.uid | none => .house) (hostOf da).1 n s

/-- The oldest transfer of core `k` ends: its bytes are written, or its launch is killed (R465, R502, R650, R651). -/
def xferComplete (k : Nat) (r : HostReply) (s : State) : State :=
  match (vat s.cores k).xfers with
  | [] => s
  | x :: xs =>
    if x.src / 2 ^ 52 = 6 ∧ r = .granted then s
    else
      let s := onCore k (fun K => { K with xfers := xs }) s
      let kill (status detail : Nat) (s : State) : State :=
        match coreCmd s k with
        | some c => killLaunch c.uid status detail s
        | none => s
      let charge (s : State) : State :=
        match coreCmd s k with
        | some c => chargeCmd c x.src x.len (chargeCmd c x.dst x.len s)
        | none => s
      let s := if x.src / 2 ^ 52 = 6 && r != .refused then hostActivity k x.src x.len s else s
      match xferBytes x r s with
      | none => settleDrain k (if x.src / 2 ^ 52 = 6 then kill 0x12 2 s else kill 0x22 0 s)
      | some bs =>
        if x.dst / 2 ^ 52 = 6 then
          settleDrain k (hostWrite (hostOf x.dst).1 (hostOf x.dst).2 bs (hostActivity k x.dst x.len (charge s)))
        else
          let w := daWrite (charge s) x.dst bs
          settleDrain k (if w.1 then w.2 else kill 0x22 0 w.2)

/-- The function whose host memory the oldest transfer of core `k` reads; none where it reads none. -/
def xferReader (k : Nat) (s : State) : Option Nat :=
  (vat s.cores k).xfers.head?.bind fun x => if x.src / 2 ^ 52 = 6 then some (hostOf x.src).1 else none

/-- XFER_COMPLETE on core `k`; `r` is what the host answered, when the source is host memory (log 14). -/
def execXferComplete (k : Fin 136) (r : HostReply) (s : State) : Host.Outcome State Fault Refusal :=
  .next (match xferReader k.val s with
    | some f => if timeoutOff f r s then s else xferComplete k.val r (noteReply f r s)
    | none => xferComplete k.val r s)

/-! ### Exceptions (R472, R479) -/

/-- CAUSE (Table 12-12). -/
def causeWord (code kind slot imm : Nat) : Nat := put code 0 8 + put kind 8 4 + put slot 12 3 + put imm 16 16

/-- The trap frame (Table 12-17). -/
def trapFrame (s : State) (k : Nat) (tsp0 badAddr : Nat) : List Byte :=
  let K := vat s.cores k
  leBytes 8 K.epc.toNat ++ leBytes 8 K.cause.toNat ++ leBytes 8 (statWord s k) ++ leBytes 8 K.modeReg.toNat
    ++ leBytes 8 K.prog.toNat ++ leBytes 8 badAddr ++ leBytes 8 tsp0 ++ zeros 8
    ++ ((List.range 3).map fun i => leBytes 8 (vat K.lc i).toNat).flatten
    ++ ((List.range 3).map fun i => leBytes 8 (vat K.ls i).toNat).flatten
    ++ ((List.range 3).map fun i => leBytes 8 (vat K.le i).toNat).flatten
    ++ ((List.range 15).map fun i => leBytes 8 (rdG K (i + 1)).toNat).flatten

/-- The crash record (Table 12-19). -/
def crashBytes (s : State) (k reason pc cause badAddr : Nat) (l : Launch) (c : Cmd) : List Byte :=
  let K := vat s.cores k
  leBytes 1 (coreSlice k) ++ leBytes 1 (k % 8) ++ leBytes 2 l.kernel ++ leBytes 1 c.func ++ leBytes 1 c.q
    ++ leBytes 2 (tagOf c.bytes) ++ leBytes 8 (posOf s) ++ leBytes 8 pc ++ leBytes 8 cause ++ leBytes 8 (statWord s k)
    ++ leBytes 8 K.tsp.toNat ++ leBytes 8 badAddr ++ leBytes 4 K.prog.toNat ++ leBytes 1 reason ++ zeros 3

/-- REASON of Table 12-19 for the checks of R479; 0 when all hold. -/
def lockReason (K : Core) (start stop : Nat) : Nat :=
  let t := K.tsp.toNat
  if t % 256 ≠ 0 then 1
  else if t < start + 20480 + 256 ∨ stop < t then 2
  else if K.nest = 15 then 3 else 0

/-- LOCKED_TRAP, in place of step 5 of R472; `pc` is the trapping bundle (R479). -/
def lockCore (k reason pc cause badAddr : Nat) (l : Launch) (c : Cmd) (s : State) : State :=
  let rec_ := crashBytes s k reason pc cause badAddr l c
  let s := { s with recov := { s.recov with crash := (k, rec_) :: s.recov.crash.filter (·.1 != k) } }
  let s := raiseEvent evCoreLocked (source (coreSlice k) (0x10 + k % 8)) (coreSlice k + 256 * (k % 8) + 65536 * reason) s
  let s := onCore k (fun K => { K with mode := .locked, launch := none, long := false, abort := none, drain := .none,
                                       branch := none, lockedAt := some (posOf s) }) s
  abortLaunch l.cmd 0x24 (coreDone l.cmd (noteFault l.cmd l.rank 0x30 s))

/-- A DATA_ADDR exception is a decode error of the kernel's function: it is captured, counted and reported (R69, R70). -/
def captureTrap (k : Nat) (t : Trap) (s : State) : State :=
  match coreCmd s k with
  | some c => if t.code = 4 then decodeError (kernelWho c.func k) t.kind t.addr s else s
  | none => s

/-- Exception entry of a core whose writes and transfers are done (R472, R479); `at_` is the trapping bundle. NEST has four
bits: a sixteenth frame, which LOCKED_TRAP turns away, would take it to 0 (log 137). -/
def enterTrap (k code kind slot imm badAddr epc at_ : Nat) (bd ms li : Bool) (l : Launch) (c : Cmd) (x : Kernel) (s : State) :
    State :=
  let s := tally (.core k) 0x206 1 (.cmd c.func c.cls) (landAll k s)
  let s := onCore k (fun K => { K with modeReg := (K.modePend.map (·.1)).getD K.modeReg, modePend := none }) s
  let K := vat s.cores k
  let start := cribDa (coreSlice k) l.area
  let reason := lockReason K start (start + x.trapBytes)
  let cause := causeWord code kind slot imm
  let s := onCore k (fun K =>
    { K with cause := BitVec.ofNat 64 cause, epc := BitVec.ofNat 32 epc, bd := bd, ms := ms, li := li,
             nest := K.nest + 1 }) s
  if reason ≠ 0 then lockCore k reason at_ cause badAddr l c s
  else
    let s := onCore k (fun K =>
      { K with tsp := K.tsp - 256, pc := 0, branch := none, mode := .kernel, drain := .none, long := false }) s
    daPoke (chargeCmd c (K.tsp.toNat - 256) 256 s) (K.tsp.toNat - 256) (trapFrame s k K.tsp.toNat badAddr)

/-- A draining core enters its trap when no transfer is outstanding. -/
def tryEnter (k : Nat) (s : State) : State :=
  let K := vat s.cores k
  if K.mode != .draining || !K.xfers.isEmpty || K.abort.isSome then s
  else match K.drain, kernelOf s k with
  | .exception code kind slot imm addr epc at_ bd ms li, some (l, c, x) =>
    enterTrap k code kind slot imm addr epc at_ bd ms li l c x s
  | _, _ => s

/-! ### Long instructions (section 12.8) -/

/-- A pseudo table whose segment 0 is a record of `n` elements (R468, R469). -/
def recordTable (f : Fmt) (o : OptState) (n : Nat) : TableDecl :=
  { id := 0, fmt := f, opt := o, dim := 16 * n, husk := false, migrate := false, invalid := .zero, releaseOnLoss := false,
    owner := 0, homeTier := .stack, rows := 1, homeBase := 0, readMask := 0, writeMask := 0,
    segStride := segRaw f o (16 * n), logicalStride := 0, userTag := [], defaultRow := [], defaultOff := 0, lost := false, shards := [] }

/-- What a step of a long instruction does: its accesses, with alignments, and its writes; or a failing check. -/
structure LongStep where
  fault : Option (Nat × Nat)
  /-- Reads of earlier steps that this one depends on, checked before its own accesses. -/
  before : List (Nat × Access)
  accesses : List (Nat × Access)
  /-- Reads that the engine makes beside them, of pages of a KV store. -/
  pages : List (Nat × Nat)
  writes : List (Nat × List Byte)
  deriving DecidableEq, Repr

/-- Step `n` of SHEAF.POOL: one bag (R468). Its indices follow those of the bags before it, whose LEN entries are checked
with it: PROG may name any step (R461, R466). -/
def sheafStep (s : State) (d : List Byte) (n : Nat) : LongStep :=
  let f (off k : Nat) : Nat := numAt d off k
  let fmt := (fmtOf (f 0x36 1)).getD .fp32
  let S := f 0x34 2
  let t := recordTable fmt .none S
  let mode := (poolModeOf (f 0x37 1)).getD .sum
  let out := (ioFmt (f 0x38 1)).getD .fp32
  let ow := ioWidth (f 0x38 1)
  let len (b : Nat) : Nat := bits (leNat (daRead s (f 0x08 8 + 4 * b) 4)) 0 24
  let first := ((List.range n).map len).sum
  let m := len n
  let idx := (List.range m).map fun i => leNat (daRead s (f 0 8 + 4 * (first + i)) 4)
  let recAt (r : Nat) : Nat := f 0x18 8 + r * f 0x28 4
  let wt (i : Nat) : F32 := if weighted mode then BitVec.ofNat 32 (leNat (daRead s (f 0x10 8 + 4 * (first + i)) 4)) else 0
  let raw := t.segStride
  let rows := (List.range m).map fun i => (recElems t 0 (daRead s (recAt (nth idx i 0)) raw), wt i)
  let dst := f 0x20 8 + n * f 0x2C 4
  { fault := none, pages := [],
    before := (List.range n).map fun b => (4, f 0x08 8 + 4 * b, 4, false),
    accesses := [(4, f 0x08 8 + 4 * n, 4, false)]
      ++ (if m = 0 then [] else [(4, f 0 8 + 4 * first, 4 * m, false)])
      ++ (if weighted mode && m != 0 then [(4, f 0x10 8 + 4 * first, 4 * m, false)] else [])
      ++ idx.map (fun r => (8, recAt r, raw, false)) ++ [(ow, dst, S * ow, true)],
    writes := [(dst, encodeSegment (special s out) out (poolSegment mode S rows))] }

/-- Step `n` of FLAIL.APPLY: one row (R469). -/
def flailStep (s : State) (d : List Byte) (n : Nat) : LongStep :=
  let f (off k : Nat) : Nat := numAt d off k
  let fl (off : Nat) : F32 := BitVec.ofNat 32 (f off 4)
  let fmt := (fmtOf (f 0x2E 1)).getD .fp32
  let optim := f 0x2F 1
  let opt : OptState := if optim = 2 then .adagradRow else if optim = 3 then .adam else .none
  let S := f 0x2C 2
  let t := recordTable fmt opt S
  let row := leNat (daRead s (f 0 8 + 4 * n) 4)
  let at_ := f 0x10 8 + row * f 0x20 4
  let gr := f 0x08 8 + n * f 0x24 4
  let g := (List.range S).map fun i => (BitVec.ofNat 32 (leNat (daRead s (gr + 4 * i) 4)) : F32)
  let sum : F32 := BitVec.ofNat 32 (leNat (daRead s (f 0x18 8 + 4 * n) 4))
  let h : Hyper := { lr := fl 0x30, eps := fl 0x34, b1 := fl 0x38, b2 := fl 0x3C, c1 := fl 0x40, c2 := fl 0x44 }
  let old := daRead s at_ t.segStride
  let r := stepSegment t optim h 0 old g sum (f 0x48 2)
  let sc := recScale t old
  { fault := none, pages := [], before := [],
    accesses := [(4, f 0 8 + 4 * n, 4, false), (4, gr, 4 * S, false)]
      ++ (if optim = 2 then [(4, f 0x18 8 + 4 * n, 4, false)] else []) ++ [(8, at_, t.segStride, true)],
    writes := [(at_, buildRecord (special s fmt) t 0 r.1 sc.1 sc.2 r.2)] }

/-- The attended blocks that an ATTN.BLOCK takes (R470). -/
def attnRun (d : List Byte) : List Nat :=
  let f (off k : Nat) : Nat := numAt d off k
  (attendedBlocks (f 0x10 4) (bits (f 0x14 4) 0 21) (bits (f 0x14 4) 24 8)).filter fun b =>
    decide (f 8 4 ≤ b ∧ b < f 8 4 + f 0x0C 4)

/-- A partial's bytes: m, l, then o (R470). -/
def partialBytes (p : Partial) : List Byte :=
  leBytes 4 p.m.toNat ++ leBytes 4 p.l.toNat ++ (p.o.map fun x => leBytes 4 x.toNat).flatten

/-- The partial that bytes spell. -/
def partialOf (hd : Nat) (bs : List Byte) : Partial :=
  { empty := false, m := BitVec.ofNat 32 (numAt bs 0 4), l := BitVec.ofNat 32 (numAt bs 4 4),
    o := (List.range hd).map fun i => BitVec.ofNat 32 (numAt bs (8 + 4 * i) 4) }

/-- Step `n` of ATTN.BLOCK: one attended block (R470). A check of the table or its pages fails at the partials'
address. -/
def attnInstrStep (s : State) (c : Cmd) (k : Nat) (d : List Byte) (n : Nat) : LongStep :=
  let f (off j : Nat) : Nat := numAt d off j
  let bad (kind : Nat) : LongStep := { fault := some (kind, f 0x28 8), before := [], accesses := [], pages := [], writes := [] }
  match (cfgOf s c.gen).kvs.find? (·.id == f 0 2), kvState s (f 0 2) with
  | some D, some t =>
    let x := slotOf t (f 4 4)
    let b := nth (attnRun d) n 0
    let layer := f 2 2
    let h := f 0x18 2
    let pl := kvPlace D h (16 * b / kvPageTokens D)
    if !mayReadKv D c.func then bad 2
    else if D.maxSeqs ≤ f 4 4 ∨ x.st ≠ .open ∨ D.layers ≤ layer ∨ D.nheads ≤ h ∨ nth x.lens layer 0 ≤ 16 * b
        ∨ pl.1 ≠ coreSlice k then bad 5
    else match slotPage x pl.1 (kvIndex D layer pl.2.1 pl.2.2) with
    | none => bad 5
    | some num =>
      let page := daRead s (kvPageDa s D pl.1 num) (kvPageBytes D)
      let bd := blockData D page (f 0x10 4) (bits (f 0x14 4) 0 21) (bits (f 0x14 4) 24 8) b
      let Q := 2 ^ f 0x1A 1
      let qf := (ioFmt (f 0x1B 1)).getD .fp32
      let qw := ioWidth (f 0x1B 1)
      let pb := 8 + 4 * D.headDim
      let q (j : Nat) : List F32 :=
        let row := daRead s (f 0x20 8 + j * D.headDim * qw) (D.headDim * qw)
        (List.range D.headDim).map fun e => decodeElem qf one32 0 (codeAt qf row e)
      let fs := f32Mul (BitVec.ofNat 32 (f 0x1C 4)) bd.1
      let out (j : Nat) : List Byte :=
        partialBytes (blockStep fs bd.2.1 (q j) bd.2.2 (partialOf D.headDim (daRead s (f 0x28 8 + j * pb) pb)))
      { fault := none, before := [],
        pages := (blockTouches D (attnRun d) n).map fun x => (kvPageDa s D pl.1 num + x.1, x.2),
        accesses := [(qw, f 0x20 8, Q * D.headDim * qw, false), (4, f 0x28 8, Q * pb, true)],
        writes := [(f 0x28 8, ((List.range Q).map out).flatten)] }
  | _, _ => bad 5

/-- The first of a drain step's accesses that fails, in the order of Table 2-8 for each (R67, R69, R427): one whose Bool is
set, since the row pitch or the statistics address is not a multiple of 64, takes ALIGN where it fails no check before. -/
def drainFault (s : State) (f k : Nat) (xs : List (Bool × Nat × Access)) : Option (Nat × Nat) :=
  (xs.map fun x =>
    let kind := cribKind s f k x.2.1 x.2.2
    (if x.1 && (kind == 0 || decide (3 < kind)) then 3 else kind, x.2.2.1)).find? (·.1 != 0)

/-- Step `r` of ACC.DRAIN: one tile row, by the sources that the drain began with (R427, R428, R448). -/
def drainStep (s : State) (f k : Nat) (K : Core) (o : Op) (r : Nat) : LongStep :=
  let t := vat K.tiles (physSlot K true o.tile)
  let fmt := bits o.w 29 4
  let pitch := (vat K.lsrc 1).toNat
  let dst := (vat K.lsrc 0).toNat + r * pitch
  let stats := (vat K.lsrc 2).toNat
  let row := ((tileRow t r).map (drainElem (special s .bf16) (special s .fp16) fmt (bits o.w 33 5))).flatten
  let rec_ := statRecord t r (bits o.w 40 8 + 1) f32Max
  let st := bit o.w 38
  let xs : List (Bool × Nat × Access) := (pitch % 64 != 0, 64, dst, row.length, true) ::
    (if st then [(stats % 64 != 0, 32, stats + 32 * r, 32, true)] else [])
  { fault := drainFault s f k xs, pages := [], before := [], accesses := xs.map (·.2),
    writes := (dst, row) :: (if st then [(stats + 32 * r, rec_)] else []) }

/-- The steps of a long instruction (section 12.8). -/
def longTotal (K : Core) (o : Op) : Nat :=
  if o.cls == .acc then 2 ^ (vat K.tiles (physSlot K true o.tile)).shape
  else
    let d := K.ldesc
    if o.code = 0x10 then numAt d 0x30 4 else if o.code = 0x11 then numAt d 0x28 4 else (attnRun d).length

/-- Step `n` of a long instruction. -/
def longStep (s : State) (c : Cmd) (k : Nat) (K : Core) (o : Op) (n : Nat) : LongStep :=
  if o.cls == .acc then drainStep s c.func k K o n
  else
    let d := K.ldesc
    if o.code = 0x10 then sheafStep s d n else if o.code = 0x11 then flailStep s d n else attnInstrStep s c k d n

/-- The check of a step that fails, before it has made any access (R466). -/
def stepFault (s : State) (f k : Nat) (L : LongStep) : Option (Nat × Nat) :=
  match L.fault with
  | some x => some x
  | none => firstBadAccess s f k (L.before ++ L.accesses)

/-- Cycles of a step: a drain writes one strip a cycle, and a row's statistics take eight more (section 11.7); other steps
take a time that the spec leaves open (log 31). -/
def stepTime (K : Core) (o : Op) (n : Nat) : Nat :=
  if o.cls == .acc then tileCols (vat K.tiles (physSlot K true o.tile)) / 16 + 8 * flag (bit o.w 38) 0
  else 1 + Config.stepCycles K.ldesc n

/-- What a step reads and writes is charged to the kernel's class (R620). -/
def chargeStep (c : Cmd) (L : LongStep) (s : State) : State :=
  L.pages.foldl (fun s x => rowTraffic c x.1 x.2 s) (L.accesses.foldl (fun s x => chargeCmd c x.2.1 x.2.2.1 s) s)

/-- The poisoned block that an ATTN.BLOCK step would read, as its slot: the slot goes and the command is aborted (R369,
R383, R650). -/
def poisonedRead (s : State) (c : Cmd) (K : Core) (o : Op) (n : Nat) : Option (KvDecl × KvTable × Nat) :=
  if o.cls == .acc || o.code != 0x12 then none
  else
    let d := K.ldesc
    let f (off j : Nat) : Nat := numAt d off j
    match (cfgOf s c.gen).kvs.find? (·.id == f 0 2), kvState s (f 0 2) with
    | some D, some t =>
      let pl := kvPlace D (f 0x18 2) (16 * nth (attnRun d) n 0 / kvPageTokens D)
      match slotPage (slotOf t (f 4 4)) pl.1 (kvIndex D (f 2 2) pl.2.1 pl.2.2) with
      | some num => if poisonedBlock s D pl.1 num (nth (attnRun d) n 0) then some (D, t, f 4 4) else none
      | none => none
    | _, _ => none

/-- The last step is done: PROG returns to 0 and the core goes on (R428, R466). -/
def endLong (k : Nat) (K0 : Core) (ops : List Op) (o : Op) (s : State) : State :=
  let s := if o.cls == .acc && bit o.w 39 then onTile k (physSlot K0 true o.tile) tileClear s else s
  onCore k (fun K => nextPc K0 ops (stepMode { K with prog := 0, long := false })) s

/-- A drain first promotes its slot when N is not 0 (R428); a step whose check fails leaves it (R466). -/
def promoteDrain (k : Nat) (o : Op) (s : State) : State :=
  if o.cls == .acc then onTile k (physSlot (vat s.cores k) true o.tile) tileEnd s else s

/-- The accumulation products of an ATTN.BLOCK step, as of the fixed decode routine (`blockEvents`). -/
def stepActivity (c : Cmd) (k : Nat) (K : Core) (o : Op) (s : State) : State :=
  if o.cls == .acc || o.code != 0x12 then s
  else match (cfgOf s c.gen).kvs.find? (·.id == numAt K.ldesc 0 2) with
  | some D => activity (.cmd c.uid) (18 * (k / 8) + k % 8) (blockEvents D (2 ^ numAt K.ldesc 0x1A 1)) s
  | none => s

/-- A step of the long instruction at PC, if its checks hold. -/
def longInstr (k : Nat) (c : Cmd) (ops : List Op) (o : Op) (s : State) : State :=
  let s0 := s
  let s := promoteDrain k o s
  let K := vat s.cores k
  let n := K.prog.toNat
  let total := longTotal K o
  if total ≤ n then endLong k K ops o s
  else
    let L := longStep s c k K o n
    if (stepFault s c.func k L).isSome then s0
    else match poisonedRead s c K o n with
    | some (D, t, seq) => killLaunch c.uid 0x20 0 (loseSlots D [seq] t s)
    | none =>
      let s := tally (.core k) 0x209 1 (.cmd c.func c.cls) s
      let s := L.writes.foldl (fun s w => daPoke s w.1 w.2) (stepActivity c k K o (chargeStep c L s))
      let s := passCycles (stepTime K o n) k s
      if n + 1 < total then onCore k (fun K => { K with prog := K.prog + 1 }) s else endLong k K ops o s

/-- The bundle at PC with its long instruction. -/
def longAt (s : State) (k : Nat) : Option (Cmd × List Op × Op) :=
  match kernelOf s k with
  | none => none
  | some (_, c, x) =>
    match bundleAt s k x with
    | none => none
    | some ops => (ops.find? (·.isLong)).map fun o => (c, ops, o)

/-- LONG_INSTR_STEP on core `k`: a step of a kernel's long instruction, or a block of an attention item (R386, R466). -/
def execLongInstrStep (k : Fin 136) (s : State) : Host.Outcome State Fault Refusal :=
  let K := vat s.cores k.val
  .next (if !mayGo s k.val then s
    else if K.mode == .attn then attnStep k.val s
    else if K.mode == .kernel && K.long then
      match longAt s k.val with
      | some (c, ops, o) => longInstr k.val c ops o s
      | none => s
    else s)

/-- The exception that core `k` must take next: of the bundle at PC, or of the next step of a long instruction (R466,
R471). It goes before a YIELD at the same boundary (R490). -/
def trapDue (s : State) (k : Nat) : Option (Trap × Bool) :=
  let K := vat s.cores k
  if K.mode != .kernel || mustEnd K then none
  else match kernelOf s k with
  | none => none
  | some (_, c, x) =>
    match bundleAt s k x with
    | none => some (⟨1, 0, 0, 0⟩, false)
    | some ops =>
      if K.long then
        match ops.find? (·.isLong) with
        | some o =>
          if longTotal K o ≤ K.prog.toNat then none
          else (stepFault s c.func k (longStep s c k K o K.prog.toNat)).map fun x => (⟨4, x.1, o.slot, x.2⟩, true)
        | none => none
      else (bundleTrap s c.func k K ops).map fun t => (t, false)

/-- EXCEPTION_ENTRY on core `k` (R449, R472, R479): the exception is raised if it has not been, and entered once
transfers have drained. -/
def execExceptionEntry (k : Fin 136) (s : State) : Host.Outcome State Fault Refusal :=
  let s1 := skipEmpty emptyRun k.val s
  .next (match trapDue s1 k.val with
    | some (t, li) => tryEnter k.val (raiseTrap k.val t li (captureTrap k.val t s1))
    | none => tryEnter k.val s1)

/-- One beat after LOCKED_TRAP the device resets the core (R479). -/
def lockExpired (s : State) (k : Nat) : Bool :=
  let K := vat s.cores k
  K.mode == .locked && (match K.lockedAt with | some p => decide (p + 65536 ≤ posOf s) | none => false)

/-- A locked core is reset, and may take work again. -/
def unlockCore (k : Nat) (s : State) : State :=
  onCore k (fun K => { K with mode := .idle, lockedAt := none }) (coreReset k s)

/-- CORE_LOCK_EXPIRY on core `k` (R479). -/
def execCoreLockExpiry (k : Fin 136) (s : State) : Host.Outcome State Fault Refusal :=
  .next (if lockExpired s k.val then unlockCore k.val s else s)

/-! ### Work items and launches (R391, R483) -/

/-- The better of two waiting works: higher level, then earlier admission, then earlier in the queue (R391). -/
def betterWork (s : State) (a b : CoreWork) : CoreWork :=
  let u (w : CoreWork) : Nat := match w with | .item w => w.cmd | .launch l => l.cmd
  let key (w : CoreWork) : Nat := match cmdOf s (u w) with | some c => stampKey c 0 | none => 2 ^ 300
  let la := levelCode (workLevel s a)
  let lb := levelCode (workLevel s b)
  if lb < la then b else if la < lb then a else if key b < key a then b else a

/-- What a core takes next; while a preempted context is saved, only works at GUARANTEED level (R475). -/
def nextWork (s : State) (k : Nat) : Option CoreWork :=
  let K := vat s.cores k
  match K.queue.filter fun w => K.saved.isNone || workLevel s w == .guaranteed with
  | [] => none
  | w :: ws => some (ws.foldl (betterWork s) w)

/-- The core is free to take work. -/
def coreFree (K : Core) : Bool :=
  K.mode == .idle && K.launch.isNone && K.item.isNone && K.xfers.isEmpty

/-- A core takes its next work item, which starts with empty partials, or its next launch, which CORE_LAUNCH starts. -/
def takeWork (k : Nat) (s : State) : State :=
  if !coreFree (vat s.cores k) then s
  else match nextWork s k with
  | none => s
  | some w =>
    let s := onCore k (fun K => { K with queue := K.queue.erase w }) s
    match w with
    | .launch l => onCore k (fun K => { K with launch := some l }) s
    | .item w =>
      match cmdOf s w.cmd with
      | none => s
      | some c =>
        match kvFor s c with
        | none => s
        | some d => onCore k (fun K => { K with mode := .attn, item := some w, prog := 0,
                                                parts := List.replicate (attnQ c) (emptyPartial d) }) s

/-- WORK_ITEM_START on core `k` (R391). -/
def execWorkItemStart (k : Fin 136) (s : State) : Host.Outcome State Fault Refusal := .next (takeWork k.val s)

/-- The general registers of the kernel ABI (Table 12-23). -/
def abiRegs (k : Nat) (l : Launch) (x : Kernel) (f : Nat) : Vector (BitVec 64) 64 :=
  let scratch := cribDa (coreSlice k) (l.area + x.trapBytes)
  let v (r : Nat) (n : Nat) (g : Vector (BitVec 64) 64) : Vector (BitVec 64) 64 := vupd g r fun _ => BitVec.ofNat 64 n
  let g : Vector (BitVec 64) 64 := Vector.replicate 64 0
  let g := (List.range 3).foldl (fun g i => v (i + 1) (nth l.args i 0).toNat g) g
  v 62 (scratch + x.scratch) (v 7 f
    (v 6 (put (coreSlice k) 0 5 + put (k % 8) 8 3 + put l.rank 16 8 + put (l.total - 1) 24 8)
      (v 5 x.scratch (v 4 scratch g))))

/-- A launched core at ENTRY in the ABI state (R483). -/
def launchCore (k : Nat) (s : State) : State :=
  let K := vat s.cores k
  match K.mode, kernelOf s k with
  | .idle, some (l, c, x) =>
    onCore k (fun K =>
      { K with mode := .kernel, g := abiRegs k l x c.func, v := Vector.replicate 32 0, lc := Vector.replicate 3 0,
               ls := Vector.replicate 3 0, le := Vector.replicate 3 0, pc := x.entry, modeReg := 8, modePend := none,
               prog := 0, nest := 0, bd := false, ms := false, li := false, bank := false, cause := 0, epc := 0,
               tsp := BitVec.ofNat 56 (cribDa (coreSlice k) (l.area + x.trapBytes)),
               tiles := K.tiles.map fun t => { t with live := false }, pend := [], stores := [], branch := none,
               cycles := 0, ymaskCycles := 0, long := false, abort := none, drain := .none,
               arrFree := 0, slotFree := Vector.replicate 8 0, slotBusy := Vector.replicate 8 0 }) (stamp c.uid 4 false s)
  | _, _ => s

/-- CORE_LAUNCH on core `k` (R483). -/
def execCoreLaunch (k : Fin 136) (s : State) : Host.Outcome State Fault Refusal := .next (launchCore k.val s)

/-! ### RUN_KERNEL (R480 to R482) -/

/-- AREA (R481). -/
def launchArea (x : Kernel) : Nat := 4096 * ceilDiv (x.trapBytes + x.scratch) 4096

/-- The named cores of a mask, in ascending order. -/
def maskBits (m n : Nat) : List Nat := (List.range n).filter (bit m)

/-- Kind with which a launch area fails step 5 of Table 12-21, 0 for none. -/
def areaKind (s : State) (f k : Nat) (da n : Nat) : Nat :=
  let scratch := s.image.carve.cribParts.filterMap fun p =>
    if p.func == f && p.scratch && bit p.slices k then some (cribDa k p.off, p.size) else none
  let x := decodeKind s (.kernel f k) true da n
  if x ≠ 0 then x else if covered scratch da n then 0 else 7

/-- The launch areas of a command: slice, core, crib offset, in rank order (R481, R483). -/
def launchPlaces (c : Cmd) (x : Kernel) : List (Nat × Nat × Nat) :=
  let cores := maskBits (param c.bytes 2 1) 8
  (maskBits (param c.bytes 4 2) 16).flatMap fun k =>
    (List.range cores.length).map fun i => (k, nth cores i 0, param c.bytes 8 4 + i * launchArea x)

/-- RUN_KERNEL once admitted: its checks, then a launch for each named core (R480 to R483). -/
def startKernel (u : Nat) (s : State) : State :=
  match cmdOf s u with
  | none => s
  | some c =>
    let s := stamp u 1 false s
    match (cfgOf s c.gen).kernels.find? (·.id == param c.bytes 0 2) with
    | none => badOpcode u 1 s
    | some x =>
      let ps := launchPlaces c x
      if ps.isEmpty then badOpcode u 2 s
      else if param c.bytes 8 4 % 4096 ≠ 0 then badOpcode u 3 s
      else if ps.any fun p => !sliceLive s p.1 then endCmd u 0x22 0 s
      else match (ps.map fun p => (areaKind s c.func p.1 (cribDa p.1 p.2.2) (launchArea x), cribDa p.1 p.2.2)).find? (·.1 != 0) with
      | some (kind, da) =>
        let st := kindStatus kind
        endCmd u st.1 st.2 (decodeError (.kernel c.func (bits da 25 5)) kind da s)
      | none =>
        let b := param c.bytes 0x0C 4
        let args := (List.range 3).map fun i => (BitVec.ofNat 64 (param c.bytes (0x10 + 8 * i) 8) : BitVec 64)
        let s := onCmd u (fun c => { c with cores := ps.length, checked := true }) s
        stamp u 3 false ((List.range ps.length).foldl (fun s r =>
          let p := nth ps r (0, 0, 0)
          let l : Launch := { cmd := u, kernel := x.id, rank := r, total := ps.length, area := p.2.2,
                              budget := (if b = 0 then 2 ^ 32 - 1 else b) * 1024, args := args }
          onCore (8 * p.1 + p.2.1) (fun K => { K with queue := K.queue ++ [.launch l] }) s) s)

/-- RUN_KERNEL from queue pair `q` (R480). -/
def execRunKernel (q : Fin 256) (s : State) : Host.Outcome State Fault Refusal :=
  .next (admitCommand (· == 0x60) q.val startKernel s)

/-! ### YIELD and YIELD_RESUME (R475, R476) -/

/-- The context image of a kernel, 20,480 bytes (Table 12-18). -/
def contextImage (s : State) (k : Nat) : List Byte :=
  let K := vat s.cores k
  let pc := (K.branch.map (·.1)).getD K.pc
  let left := match K.launch with | some l => l.budget - K.cycles | none => 0
  leBytes 8 pc ++ leBytes 8 K.modeReg.toNat ++ leBytes 8 K.prog.toNat ++ leBytes 8 K.cause.toNat
    ++ leBytes 8 (statWord s k) ++ leBytes 8 K.tsp.toNat ++ leBytes 8 K.epc.toNat ++ leBytes 8 left
    ++ ((List.range 3).map fun i => leBytes 8 (vat K.lc i).toNat).flatten
    ++ ((List.range 3).map fun i => leBytes 8 (vat K.ls i).toNat).flatten
    ++ ((List.range 3).map fun i => leBytes 8 (vat K.le i).toNat).flatten
    ++ zeros 120
    ++ ((List.range 64).map fun i => leBytes 8 (rdG K i).toNat).flatten
    ++ ((List.range 32).map fun i => leBytes 64 (vat K.v i).toNat).flatten
    ++ ((List.range 8).map fun i => slotImage (vat K.tiles i)).flatten ++ zeros 768

/-- Device address at which the context of core `k` is saved: its trap region, or its save cell (R476). -/
def saveDa (k : Nat) (K : Core) : Nat :=
  match K.launch with
  | some l => cribDa (coreSlice k) l.area
  | none => stackDa (coreSlice k) (0x861C40000 + 3072 * (k % 8))

/-- The command whose work preempts what core `k` runs: that of the best of the GUARANTEED works that wait (R391, R475). -/
def preempting (s : State) (k : Nat) : Option Cmd :=
  match nextWork s k with
  | some (.item w) => cmdOf s w.cmd
  | some (.launch l) => cmdOf s l.cmd
  | none => none

/-- The save or the restore of a context: its crib or stack traffic is of the preempting command's class and its energy the
preempting command's, the house's when that command has left (R475, R614, R680). -/
def contextTraffic (u cls da n : Nat) (s : State) : State :=
  chargeClass cls da n (memActivity (.cmd u) da n s)

/-- Bytes of a context image: a kernel's, or a decode item's, which stops before the slots (R476). -/
def contextLen : CoreWork → Nat
  | .launch _ => 20480
  | .item _ => 0xB00

/-- The context is saved and the core is free for the waiting GUARANTEED works (R475, R476). -/
def saveContext (k : Nat) (s : State) : State :=
  let s := landAll k s
  let s := onCore k (fun K => { K with modeReg := (K.modePend.map (·.1)).getD K.modeReg, modePend := none }) s
  let K := vat s.cores k
  let img := contextImage s k
  let img := if K.launch.isSome then img else img.take 0xB00
  match runningWork K with
  | none => s
  | some w =>
    let at_ := saveDa k K
    let u := (preempting s k).elim 0 (·.uid)
    let cls := (preempting s k).elim 31 (·.cls)
    let tag : Tag := (preempting s k).elim .house fun c => .cmd c.func c.cls
    let s := tally (.core k) 0x207 1 tag (daPoke (contextTraffic u cls at_ (contextLen w) s) at_ img)
    onCore k (fun K => { K with saved := some { work := w, at_ := at_, by_ := u, cls := cls, parts := K.parts }, mode := .idle, launch := none,
                                item := none, parts := [], long := false, branch := none, drain := .none,
                                ymaskCycles := 0 }) s

/-- YIELD on core `k` (R475): it waits for outstanding transfers, then saves. An exception of the bundle or step at PC is
taken first, and the YIELD stays pending (R490). -/
def yield_ (k : Nat) (s : State) : State :=
  let K := vat s.cores k
  if K.mode == .draining && K.drain == .yield && K.abort.isNone then
    if K.xfers.isEmpty then saveContext k s else s
  else if yieldTaken s k && !mustEnd K && (trapDue s k).isNone then
    if K.xfers.isEmpty then saveContext k s else onCore k (fun K => { K with mode := .draining, drain := .yield }) s
  else s

/-- YIELD on core `k` (R475). -/
def execYield (k : Fin 136) (s : State) : Host.Outcome State Fault Refusal := .next (yield_ k.val s)

/-- The registers of a kernel from its context image (R475, Table 12-18). Nothing is in progress on its slots: the restore
follows every operation of the works between (R419). -/
def restoreCore (bs : List Byte) (l : Launch) (K : Core) : Core :=
  let w (off : Nat) : Nat := numAt bs off 8
  let st := w 0x20
  { K with mode := .kernel, launch := some l, saved := none, pc := w 0, modeReg := BitVec.ofNat 64 (bits (w 8) 0 8),
           prog := BitVec.ofNat 32 (w 0x10), cause := BitVec.ofNat 64 (w 0x18), bd := bit st 1, ms := bit st 2,
           li := bit st 3, nest := BitVec.ofNat 4 (bits st 8 4), bank := bit st 21, tsp := BitVec.ofNat 56 (w 0x28),
           epc := BitVec.ofNat 32 (w 0x30), cycles := l.budget - w 0x38,
           lc := Vector.ofFn fun i : Fin 3 => BitVec.ofNat 64 (w (0x40 + 8 * i.val)),
           ls := Vector.ofFn fun i : Fin 3 => BitVec.ofNat 32 (w (0x58 + 8 * i.val)),
           le := Vector.ofFn fun i : Fin 3 => BitVec.ofNat 32 (w (0x70 + 8 * i.val)),
           g := Vector.ofFn fun i : Fin 64 => BitVec.ofNat 64 (w (0x100 + 8 * i.val)),
           v := Vector.ofFn fun i : Fin 32 => BitVec.ofNat 512 (numAt bs (0x300 + 64 * i.val) 64),
           arrFree := 0, slotFree := Vector.replicate 8 0, slotBusy := Vector.replicate 8 0,
           tiles := Vector.ofFn fun i : Fin 8 =>
             (tileOfImage (slice bs (0xB00 + slotImageLen * i.val) slotImageLen)).getD (vat K.tiles i.val) }

/-- The preempted work resumes (R475). -/
def resume (k : Nat) (s : State) : State :=
  let K := vat s.cores k
  match K.saved with
  | none => s
  | some x =>
    if !coreFree K || (nextWork s k).isSome then s
    else
    let s := contextTraffic x.by_ x.cls x.at_ (contextLen x.work) s
    match x.work with
    | .launch l => onCore k (restoreCore (daRead s x.at_ 20480) l) s
    | .item w => onCore k (fun K => { K with mode := .attn, item := some w, saved := none, parts := x.parts,
                                             prog := BitVec.ofNat 32 (leNat (daRead s (x.at_ + 0x10) 4)) }) s

/-- YIELD_RESUME on core `k` (R475). -/
def execYieldResume (k : Fin 136) (s : State) : Host.Outcome State Fault Refusal := .next (resume k.val s)

end Sys2Proof.Machine
end

