-- ==== Sys2Proof/Machine/Rows.lean ====
section
/-!
DEFINITION. Sys2Proof/Machine/Rows.lean: far rows, reconstruction packets and the zeroing of FRESH shards
(R58, R195, R196, R244, R289).
-/
namespace Sys2Proof.Machine

/-! ### FAR_ROW_ARRIVAL -/

/-- Every position has written the row for the earlier chunks of the command, or found that they leave it alone. -/
def ownChunksPast (s : State) (c : Cmd) (chunk row : Nat) : Bool :=
  (positions s).all fun p => (List.range chunk).all fun j => chunkPast s (actor s p) c.uid j row

/-- The whole far row may be read now for an index of a lookup, each of which has its own fetch, or for the chunk that an
update's slices apply: every earlier write of it has reached the far tier (R196, R271, R280). -/
def farReady (s : State) (c : Cmd) (t : TableDecl) (row : Nat) : Bool :=
  let settled := s.ring.farParts.all (fun f => !(f.table == t.id && f.row == row))
    && (positions s).all fun p => !readBlocked s c t.id row (actor s p)
  if isLookup c then decide (farCount c row < (lkIdx c).count row) && settled
  else if writesRows c then
    match leadChunk s with
    | some (_, F, x, _, _) =>
      x.uid == c.uid && ((rowsOf x.keys).drop F.applied).contains row && settled && ownChunksPast s c x.chunk row
    | none => false
  else false

/-- The chunk that a far row is read for: the one that an update's slices apply, 0 for a lookup. -/
def farChunk (s : State) (c : Cmd) : Nat :=
  if isLookup c then 0
  else match leadChunk s with
  | some (_, _, x, _, _) => if x.uid == c.uid then x.chunk else 0
  | none => 0

/-- A far row reaches its owning bridge for command `u` and is split into segments; a poisoned one is not delivered (R58, R196,
R650, R662, R667). -/
def farArrival (u row : Nat) (s : State) : State :=
  match cmdOf s u with
  | none => s
  | some c =>
    match tableFor s c (cmdTable c) with
    | none => s
    | some t =>
      let sh := shardOf t row
      let j := farChunk s c
      if !(c.checked && c.phase != .ended && decide (row < t.rows) && isFar sh && !sh.fresh
          && (isLookup c || (farRow c j row).isNone) && farReady s c t row) then s
      else
        let da := segDa t sh row 0
        let n := 16 * t.segStride
        let s := chargeCmd c da n s
        if poisoned s da n then (if isLookup c then endCmd u 0x22 0 s else settleUpdates (failUpdate u 0x22 0 s))
        else kickFlail (onCmd u (fun c => { c with far := (row, j, daRead s da n) :: c.far }) s)

/-- FAR_ROW_ARRIVAL for command `u` and a row (R58). -/
def execFarRowArrival (u row : Nat) (s : State) : Host.Outcome State Fault Refusal :=
  .next (farArrival u row s)

/-! ### RECONSTRUCTION_PACKET -/

/-- A reconstruction packet makes its next hop, in its turn (R244, R246, R289): a data slice XORs its home record in, S16 the
parity. Poison met on the way ends the command, but for a row that some slice has applied already (R650, R671; log 78). -/
def reconHop (i : Nat) (s : State) : State :=
  match s.ring.recons[i]? with
  | none => s
  | some pk =>
    let gone := { s with ring := { s.ring with recons := s.ring.recons.eraseIdx i } }
    match cmdOf s pk.uid with
    | none => gone
    | some c =>
      match tableFor s c pk.table with
      | none => gone
      | some t =>
        let k := pk.next
        let read (s : State) : State := rowTraffic c (segDa t (shardOf t pk.row) pk.row k) t.segStride s
        if !reconReady s pk || !ringTurn s k pk.arr then s
        else if poisoned s (segDa t (shardOf t pk.row) pk.row k) t.segStride
            && (isLookup c || !(s.flails.any fun F => appliedOn F c.uid pk.chunk pk.row)) then
          (if isLookup c then endCmd c.uid 0x22 0 gone else settleUpdates (failUpdate c.uid 0x22 0 gone))
        else if k = 16 then
          let r := slice (xorBytes pk.payload (parityRecord s t pk.row)) 0 t.segStride
          kickFlail <| read <| ringActivity (.cmd pk.uid) k pk.payload.length
            { gone with ring := { gone.ring with rebuilt := (pk.uid, pk.chunk, t.id, pk.row, r) :: gone.ring.rebuilt } }
        else
          let pk' := { pk with payload := xorBytes pk.payload (homeRecord s t pk.row k), next := ringNext s k,
                               arr := s.ring.arrivals }
          read <| ringSend (.cmd pk.uid) k pk'.next pk.payload.length
            { s with ring := { s.ring with recons := s.ring.recons.set i pk', arrivals := s.ring.arrivals + 1 } }

/-- RECONSTRUCTION_PACKET: packet `i` in flight makes its next hop (R244). -/
def execReconstructionPacket (i : Nat) (s : State) : Host.Outcome State Fault Refusal :=
  .next (reconHop i s)

/-! ### SHARD_ZERO_DONE -/

/-- The tables of the live generations: those in force, and those that only the older one still has (R162, R210). -/
def liveTables (s : State) : List TableDecl := mappedTables s

/-- The FRESH shards, as (TABLE_ID, shard), in ascending order. -/
def freshList (s : State) : List (Nat × Nat) :=
  (sortBy (fun a b => a.id < b.id) (liveTables s)).flatMap fun t =>
    ((List.range t.shards.length).filter fun i => (nth t.shards i noShard).fresh).map fun i => (t.id, i)

/-- The first stamp of a write that waits for a shard; an entry at or above ROWS waits for none. -/
def waitingWrite (s : State) (x : Nat × Nat) : Option Nat :=
  ((updQueue s).find? fun c => c.checked && cmdTable c == x.1 && (tableFor s c x.1).any fun t =>
    (List.range (entryCount c)).any fun i => decide (entryRow c i < t.rows) && entryRow c i / shardRowsMax == x.2).map (stampKey · 0)

/-- The shard that the background zeroing finishes next: those with waiting writes first, by the earliest stamp. -/
def nextFresh (s : State) : Option (Nat × Nat) :=
  let l := freshList s
  let waiting := l.filterMap fun x => (waitingWrite s x).map fun k => (k, x)
  match sortBy (fun a b => a.1 < b.1) waiting with
  | w :: _ => some w.2
  | [] => l.head?

/-- The shard's extent is zeroed, the one on S16 too for a protected stack-home shard, and FRESH clears (R195). Lookups in flight
go on as for any row from there (R213, R214). -/
def zeroShard (x : Nat × Nat) (s : State) : State :=
  match (liveTables s).find? (·.id == x.1) with
  | none => s
  | some t =>
    let sh := nth t.shards x.2 noShard
    let n := shardExtent t sh.tier x.2
    let ks := (List.range 17).filter fun k => sliceLive s k && (k != 16 || t.husk)
    let s := match sh.tier with
      | .stack => ks.foldl (fun s k => zeroRange (stackDa k (sh.base * 65536)) n s) s
      | .ddr => zeroRange (regionBase 4 + sh.base * 65536) n s
      | .cxl => zeroRange (regionBase 5 + sh.base * 65536) n s
      | .none => s
    let s := onShard x.1 x.2 (fun sh => { sh with fresh := false }) s
    s.cmds.foldl (fun s c => match tableFor s c x.1 with
      | some t => reconsAfterFresh t x.2 s c
      | none => s) s

/-- SHARD_ZERO_DONE: the zeroing of the next FRESH shard finishes (R195), and what waited for it goes on. -/
def execShardZeroDone (s : State) : Host.Outcome State Fault Refusal :=
  .next (match nextFresh s with
    | some x => if inService s then kickFlail (zeroShard x s) else s
    | none => s)

end Sys2Proof.Machine
end

