-- ==== Sys2Proof/Machine/Stolon.lean ====
section
/-!
DEFINITION. Sys2Proof/Machine/Stolon.lean: load counts, lifts and evictions, shard moves and move batches (chapter 8).
-/
namespace Sys2Proof.Machine

/-! ### LOAD_COUNT_CLOSE (R303, R304) -/

/-- A closed load record of slice `k` (Table 8-1). -/
def loadRecord (k : Nat) (t : TableDecl) (i : Nat) (sh : Shard) : List Byte :=
  leBytes 8 (t.id % 4096 + put i 16 20 + put (shardWord sh) 36 2)
    ++ leBytes 4 (loadOf sh.closing k).1 ++ leBytes 4 (loadOf sh.closing k).2

/-- The closed array of slice `k`: one record for each shard of the generation in force, in ascending order. -/
def closedArray (c : Cfg) (k : Nat) : List Byte :=
  (c.tables.flatMap fun t => ((List.range t.shards.length).zip t.shards).map fun x => loadRecord k t x.1 x.2).flatten

/-- LOOKUPS + UPDATES of a shard in the last closed beat, as slice `k` counted them. -/
def closedLoad (sh : Shard) (k : Nat) : Nat := (loadOf sh.closed k).1 + (loadOf sh.closed k).2

/-- A shard whose beat of counts closes; its streaks of R314, by the counts of the leader `k`, go on or start again. -/
def closeShard (m : Migration) (k : Nat) (sh : Shard) : Shard :=
  let n := (loadOf sh.closing k).1 + (loadOf sh.closing k).2
  { sh with closed := sh.closing, closing := [],
            streak := (if m.promoteMin ≤ n then sh.streak.1 + 1 else 0, if n ≤ m.demoteMax then sh.streak.2 + 1 else 0) }

/-- Every table of a configuration with its shards changed. -/
def mapShards (g : Shard → Shard) (c : Cfg) : Cfg :=
  { c with tables := c.tables.map fun t => { t with shards := t.shards.map g } }

/-- The counts close, the closed array is rewritten on every live data slice, and the new beat's counts start (R303,
R304). The rewrite is done at the tick (log 15). -/
def loadClose (s : State) : State :=
  let arr := closedArray s.cfg.cur
  let close (S : Slice) : Slice :=
    { S with entries := BitVec.ofNat 16 ((arr 0).length / 16), closedBeat := BitVec.ofNat 32 (s.tb.beat.toNat - 1),
             ch := S.chLatch.map (BitVec.ofNat 48 ·) }
  let s := (liveData s).foldl (fun s k => onSlice k close (daPoke s (cribDa k closedBase) (arr k))) s
  let g := mapShards (closeShard s.cfg.cur.migration ((liveData s).headD 16))
  { s with cfg := { s.cfg with cur := g s.cfg.cur, old := s.cfg.old.map g, base := g s.cfg.base } }

/-- LOAD_COUNT_CLOSE, after the QoS window of the same tick (R105, R303). -/
def execLoadCountClose (s : State) : Host.Outcome State Fault Refusal :=
  .next (if loadDue s && !qosDue s then loadClose s else s)

/-! ### Lifts and evictions (R306 to R312) -/

/-- SEG_STRIDE of a table in a live generation. -/
def strideOf (s : State) (id : Nat) : Nat :=
  match tableOf s.cfg.cur id with
  | some t => t.segStride
  | none => match s.cfg.old.bind (tableOf · id) with | some t => t.segStride | none => 32

/-- Data area in use, as (offset, bytes), of a list of entries. -/
def dataUse (s : State) (l : List LiftEntry) : List (Nat × Nat) := l.map fun e => (8 * e.dataOff, strideOf s e.table)

/-- A candidate that R310 skips whatever the space: too few, lifted, its shard unable, or an affected row. -/
def skipsCandidate (s : State) (m : Migration) (l : List LiftEntry) (c : Nat × Nat × Nat) : Bool :=
  match tableOf s.cfg.cur c.1 with
  | none => true
  | some t =>
    let sh := shardOf t c.2.1
    decide (c.2.2 * m.sample < m.liftMin) || l.any (fun e => e.table == c.1 && e.row == c.2.1)
      || sh.fresh || sh.moving || sh.tier == .none || !t.migrate || affected s t c.2.1 || decide (t.rows ≤ c.2.1)

/-- Where the leader stands in one decision: entries that stay, lifts decided in earlier beats and not yet carried out,
evictions, lifts and skips so far. -/
structure LiftPlan where
  keep : List LiftEntry
  due : List LiftEntry
  evict : List (Nat × Nat)
  lifts : List LiftEntry
  skips : Nat
  deriving DecidableEq, Repr

/-- The place of a candidate in its bucket: a free entry, or the one with the lowest HITS when 4 × HITS lies below the
estimate (R310 step 3). The Bool says that the entry is replaced. -/
def liftPlace (s : State) (m : Migration) (p : LiftPlan) (c : Nat × Nat × Nat) : Option (Nat × Bool) :=
  let b := liftBucket s.image.carve c.1 c.2.1
  let here := (p.keep ++ p.due ++ p.lifts).filter (·.bucket == b)
  match (List.range 4).find? fun w => here.all (·.way != w) with
  | some w => some (w, false)
  | none =>
    match sortBy (fun x y => x.hits < y.hits || (x.hits == y.hits && x.way < y.way)) (p.keep.filter fun e => e.bucket == b && !e.frozen) with
    | [] => none
    | e :: _ => if 4 * e.hits < c.2.2 * m.sample then some (e.way, true) else none

/-- One candidate is taken, skipped, or finds no place (R310 steps 2 to 5). -/
def planLift (s : State) (m : Migration) (p : LiftPlan) (c : Nat × Nat × Nat) : LiftPlan :=
  if m.liftPerBeat ≤ p.lifts.length || skipsCandidate s m (p.keep ++ p.due ++ p.lifts) c then p
  else match liftPlace s m p c with
  | none => p
  | some (w, replaced) =>
    let b := liftBucket s.image.carve c.1 c.2.1
    let keep := if replaced then p.keep.filter fun e => !(e.bucket == b && e.way == w) else p.keep
    let n := strideOf s c.1
    match firstFit (dataUse s (keep ++ p.due ++ p.lifts)) (min n 32) n (s.image.carve.liftBytes / 8 * 7) with
    | none => { p with skips := p.skips + 1 }
    | some o =>
      let e : LiftEntry := { bucket := b, way := w, frozen := true, table := c.1, row := c.2.1, dataOff := o / 8, hits := 0 }
      { p with keep := keep, evict := if replaced then p.evict ++ [(b, w)] else p.evict, lifts := p.lifts ++ [e] }

/-- The lift and eviction decision of the leader (R310, R339); a new leader's first one makes evictions only (R308). -/
def liftDecision (s : State) : State :=
  let st := s.stolon
  let m := s.cfg.cur.migration
  if s.image.carve.liftBytes = 0 then s
  else
    let gone := st.lift.filter fun e => !e.frozen && decide (e.hits < m.evictHits)
    let p : LiftPlan := { keep := st.lift.filter fun e => !gone.contains e, due := st.liftsDue,
                          evict := gone.map fun e => (e.bucket, e.way), lifts := [], skips := 0 }
    let cands := sortBy (fun a b => b.2.2 < a.2.2 || (a.2.2 == b.2.2 && decide (a.1 * 2 ^ 40 + a.2.1 < b.1 * 2 ^ 40 + b.2.1))) st.candidates
    let p := if m.autoLift && !st.newLeader then cands.foldl (planLift s m) p else p
    let s := { s with stolon := { st with evictions := st.evictions ++ p.evict.filter (!st.evictions.contains ·),
                                          liftsDue := p.due ++ p.lifts, skips := st.skips + p.skips } }
    match (liveData s).head? with
    | none => s
    | some k => if p.skips = 0 then s
                else tally (.slice k) 0x143 p.skips .house (onSlice k (fun S => { S with liftSkipEv := true }) s)

/-! ### Shard moves (R313, R314) -/

/-- The own place of a shard: where registration put it (R194). -/
def ownShard (t : TableDecl) (i : Nat) : Shard := nth (freshShards t) i noShard

/-- A shard lives in its own extent. -/
def atOwn (t : TableDecl) (i : Nat) : Bool :=
  let a := nth t.shards i noShard
  let b := ownShard t i
  a.tier == b.tier && a.base == b.base

/-- Index of a tier's move pool in Table 8-3. -/
def poolIndex : Tier → Option Nat
  | .stack => some 0 | .ddr => some 1 | .cxl => some 2 | .none => none

/-- Extents that shards of any kept generation, or the move in progress, occupy in a tier, in bytes of that tier. -/
def tierUse (s : State) (tier : Tier) : List (Nat × Nat) :=
  let ofCfg (c : Cfg) : List (Nat × Nat) := c.tables.flatMap fun t =>
    ((List.range t.shards.length).zip t.shards).filterMap fun x =>
      if x.2.tier == tier then some (x.2.base * 65536, shardExtent t tier x.1) else none
  let mv : List (Nat × Nat) := match s.stolon.move with
    | some m => if m.dstTier == tier then
        (match tableOf s.cfg.cur m.table with
         | some t => [(m.dstBase * 65536, shardExtent t tier m.shard)]
         | none => [])
        else []
    | none => []
  ofCfg s.cfg.cur ++ ofCfg s.cfg.base ++ ((s.cfg.old.map ofCfg).getD []) ++ mv

/-- The place that a move to a tier goes to: the own extent when the tier is the shard's own, else the first fit in that
tier's pool, in 64 KiB units (R313, R315). -/
def moveDst (s : State) (t : TableDecl) (i : Nat) (tier : Tier) : Option (Tier × Nat) :=
  let own := ownShard t i
  if tier == own.tier then (if atOwn t i then none else some (own.tier, own.base))
  else if !atOwn t i then none
  else match poolIndex tier with
  | none => none
  | some p =>
    let pool := vat s.cfg.cur.migration.pools p
    let used := (tierUse s tier).filterMap fun u =>
      if rangesMeet u.1 u.2 pool.1 pool.2 then some (u.1 - pool.1, u.2) else none
    (firstFit used 65536 (shardExtent t tier i) pool.2).map fun o => (tier, (pool.1 + o) / 65536)

/-- The copy would take at most 32 beats at MOVE_RATE (R314). -/
def moveInTime (s : State) (t : TableDecl) (i : Nat) : Bool :=
  decide (shardRows t.rows i * 16 * t.segStride * 16 ≤ 32 * s.cfg.cur.migration.moveRate * s.tb.target)

/-- Shards that the leader may move by itself: table, shard, load and target; returns, then promotions (R314). -/
def moveCandidates (s : State) (ret : Bool) : List (Nat × Nat × Nat × Tier) :=
  let m := s.cfg.cur.migration
  (s.cfg.cur.tables.filter (·.migrate)).flatMap fun t =>
    (List.range t.shards.length).filterMap fun i =>
      let sh := nth t.shards i noShard
      let own := (ownShard t i).tier
      let n := closedLoad sh ((liveData s).headD 16)
      let ok := if ret then sh.tier == .stack && !atOwn t i && decide (m.demoteBeats ≤ sh.streak.2)
                else (own == .ddr || own == .cxl) && atOwn t i && decide (m.promoteBeats ≤ sh.streak.1)
                  && (moveDst s t i .stack).isSome
      if ok && moveInTime s t i then some (t.id, i, n, if ret then own else .stack) else none

/-- EVICTION: the oldest decided eviction is carried out on every data slice (R311). Rows are applied one at a time, so
it never falls within one. -/
def execEviction (s : State) : Host.Outcome State Fault Refusal :=
  .next (match s.stolon.evictions with
    | [] => s
    | (b, w) :: rest =>
      (liveData s).foldl (fun s k => tally (.slice k) 0x141 1 .house s)
        { s with stolon := { s.stolon with evictions := rest,
                                           lift := s.stolon.lift.filter fun e => !(e.bucket == b && e.way == w) } })

/-! ### Move batches (R319 to R323) -/

/-- A table of a live generation: as it stands in the one in force, if it is still there (R162). -/
def tableAny (s : State) (id : Nat) : Option TableDecl := (liveTables s).find? (·.id == id)

/-- The rows that a batch works on, with their tables. -/
def batchRows (s : State) (k : BatchKind) : List (TableDecl × Nat) :=
  match k with
  | .shard table shard first n =>
    match tableOf s.cfg.cur table with
    | none => []
    | some t => (List.range n).map fun i => (t, shard * shardRowsMax + first + i)
  | .lift keys => keys.filterMap fun x => (tableAny s x.1).map fun t => (t, x.2)

/-- The batch that the work decided leads to: up to 64 of the lifts, while AUTO_LIFT is set and once the evictions before
them are done; else up to 64 rows at the cursor of the shard move (R319, R339). -/
def freshBatch (s : State) : Option BatchKind :=
  let st := s.stolon
  if !st.liftsDue.isEmpty && s.cfg.cur.migration.autoLift then
    if st.evictions.isEmpty then some (.lift ((st.liftsDue.take 64).map fun e => (e.table, e.row))) else none
  else match st.move with
  | none => none
  | some m =>
    match tableOf s.cfg.cur m.table with
    | none => none
    | some t =>
      let left := shardRows t.rows m.shard - m.cursor
      if m.staged || left = 0 || s.cfg.rollback.isSome then none else some (.shard m.table m.shard m.cursor (min 64 left))

/-- The next batch: the abandoned one is retried before any other (R323; log 128). -/
def nextBatch (s : State) : Option BatchKind := s.stolon.stalled.orElse fun _ => freshBatch s

/-- Source bytes of a row: its sixteen records. -/
def sourceBytes (k : BatchKind) (s : State) : Nat := ((batchRows s k).map fun x => 16 * x.1.segStride).sum

/-- Bytes that MOVE_RATE lets start in one QoS window (R331): GB/s times 4,096 ticks. -/
def windowCap (s : State) : Nat := s.cfg.cur.migration.moveRate * s.tb.length / 256

/-- Traffic of a row at one place. -/
def chargePlace (t : TableDecl) (sh : Shard) (row : Nat) (s : State) : State :=
  if isFar sh then chargeMove (segDa t sh row 0) (16 * t.segStride) s
  else (liveData s).foldl (fun s k => chargeMove (segDa t sh row k) t.segStride s) s

/-- The destination of a shard batch. -/
def batchDst (s : State) : Shard :=
  match s.stolon.move with
  | some m => { noShard with tier := m.dstTier, base := m.dstBase, fresh := false }
  | none => noShard

/-- Traffic of a whole batch. -/
def chargeBatch (k : BatchKind) (s : State) : State :=
  (batchRows s k).foldl (fun s x =>
    let s := chargePlace x.1 (shardOf x.1 x.2) x.2 s
    match k with
    | .shard _ _ _ _ =>
      let dst := batchDst s
      let s := chargePlace x.1 dst x.2 s
      if x.1.husk && !isFar dst && sliceLive s 16 then chargeMove (segDa x.1 dst x.2 16) x.1.segStride s else s
    | .lift keys => (liveData s).foldl (fun s p => chargeMove (cribDa p 0) (if keys.isEmpty then 0 else x.1.segStride) s) s) s

/-- A row stands half-applied: some slice has applied it for a chunk, another has still to. -/
def rowHalf (s : State) (t : TableDecl) (row : Nat) : Bool :=
  let ks := (positions s).map (actor s)
  (updQueue s).any fun c => c.checked && cmdTable c == t.id && (List.range (chunkCount c)).any fun j =>
    (chunkAll c j).any (·.1 == row) &&
      (ks.any (fun k => appliedOn (vat s.flails k) c.uid j row) && ks.any fun k => !chunkPast s k c.uid j row)

/-- An application of the row is in progress: some slices have applied it, or its bridge is putting it together. -/
def rowBusy (s : State) (t : TableDecl) (row : Nat) : Bool :=
  rowHalf s t row || s.ring.farParts.any fun f => f.table == t.id && f.row == row

/-- MOVE_BATCH_START: the leader starts a batch within MOVE_RATE and its rows are frozen, once no application of them is in
progress (R319, R331). -/
def startBatch (s : State) : State :=
  match nextBatch s with
  | none => s
  | some k =>
    let n := sourceBytes k s
    if (batchRows s k).any (fun x => rowBusy s x.1 x.2) || windowCap s < s.stolon.windowBytes + n then s
    else
      let st := s.stolon
      let mine (e : LiftEntry) : Bool := match k with
        | .lift keys => keys.contains (e.table, e.row)
        | .shard _ _ _ _ => false
      let b : MoveBatch := { what := k, retried := st.stalled.isSome, since := clkOf s }
      chargeBatch k { s with stolon := { st with
        batch := some b, stalled := none, windowBytes := st.windowBytes + n,
        liftsDue := st.liftsDue.filter fun e => !mine e, lift := st.lift ++ st.liftsDue.filter mine } }

/-- MOVE_BATCH_START (R319). -/
def execMoveBatchStart (s : State) : Host.Outcome State Fault Refusal :=
  .next (if inService s && s.stolon.batch.isNone && !(liveData s).isEmpty then startBatch s else s)

/-- The sixteen home records of a row; zeros in a FRESH shard (R195). -/
def homeRecords (s : State) (t : TableDecl) (row : Nat) : List (List Byte) :=
  (List.range 16).map fun p =>
    if (shardOf t row).fresh then zeros t.segStride else daRead s (segDa t (shardOf t row) row p) t.segStride

/-- One row is copied to the destination of the shard move, with its parity (R322, R326). -/
def copyRow (t : TableDecl) (row : Nat) (dst : Shard) (s : State) : State :=
  let recs := homeRecords s t row
  if isFar dst then (daWrite s (segDa t dst row 0) recs.flatten).2
  else
    let s := (liveData s).foldl (fun s p => (daWrite s (segDa t dst row p) (nth recs p [])).2) s
    if t.husk && sliceLive s 16 then (daWrite s (segDa t dst row 16) (xorAll t.segStride recs)).2 else s

/-- One row is copied into the cribs of the data slices (R312). -/
def copyLift (t : TableDecl) (row : Nat) (s : State) : State :=
  let recs := homeRecords s t row
  match s.stolon.lift.find? fun e => e.table == t.id && e.row == row with
  | none => s
  | some e => (liveData s).foldl (fun s p => tally (.slice p) 0x140 1 .house
      (daPoke s (cribDa p (liftOff s.image.carve e)) (nth recs p []))) s

/-- A source can be read and a destination written: no poison, and every slice that must take part is live (R322, R323). -/
def batchPossible (s : State) (k : BatchKind) : Bool :=
  let all := decide ((liveData s).length = 16)
  (batchRows s k).all fun x =>
    let sh := shardOf x.1 x.2
    !homePoisoned s x.1 x.2 && (sh.tier != .stack || all) &&
      (match k with
       | .lift _ => true
       | .shard _ _ _ _ => isFar (batchDst s) || all || (x.1.husk && sliceLive s 16))

/-- MOVE_BATCH_ACK: every participating slice has written; the rows are copied and unfrozen, and the last batch of a
shard lets the home generation be staged (R316, R319). -/
def ackBatch (s : State) : State :=
  match s.stolon.batch with
  | none => s
  | some b =>
    if !batchPossible s b.what then s
    else
      let rows := batchRows s b.what
      let s := (liveData s).foldl (fun s k => tally (.slice k) 0x142 1 .house s) s
      match b.what with
      | .lift keys =>
        let s := rows.foldl (fun s x => copyLift x.1 x.2 s) s
        let thaw (e : LiftEntry) : LiftEntry := if keys.contains (e.table, e.row) then { e with frozen := false } else e
        { s with stolon := { s.stolon with batch := none, lift := s.stolon.lift.map thaw } }
      | .shard table shard first n =>
        let dst := batchDst s
        let s := rows.foldl (fun s x => copyRow x.1 x.2 dst s) s
        let total := match tableOf s.cfg.cur table with | some t => shardRows t.rows shard | none => 0
        let last := decide (total ≤ first + n)
        let on (m : ShardMove) : ShardMove := { m with cursor := first + n, staged := last }
        let s := { s with stolon := { s.stolon with batch := none, move := s.stolon.move.map on } }
        if last then headStepDone s else s

/-- The batch in flight is abandoned: its rows are unfrozen and stand at the source. -/
def dropBatch (s : State) : State :=
  match s.stolon.batch with
  | none => s
  | some b =>
    match b.what with
    | .shard _ _ _ _ => { s with stolon := { s.stolon with batch := none } }
    | .lift keys =>
      let mine := s.stolon.lift.filter fun e => e.frozen && keys.contains (e.table, e.row)
      { s with stolon := { s.stolon with batch := none, lift := s.stolon.lift.filter fun e => !mine.contains e,
                                         liftsDue := mine ++ s.stolon.liftsDue } }

/-- The table and shard a batch works on, for MOVE_STALL. -/
def batchShard (k : BatchKind) : Nat × Nat :=
  match k with
  | .shard table shard _ _ => (table, shard)
  | .lift keys => match keys with | [] => (0, 0) | x :: _ => (x.1, x.2 / shardRowsMax)

/-- A batch cannot end: MOVE_STALL, one retry, and after a second failure the move is rolled back, or the lifts are
given up (R323). -/
def batchTimeout (s : State) : State :=
  match s.stolon.batch with
  | none => s
  | some b =>
    let x := batchShard b.what
    let s := raiseEvent evMoveStall (source ((liveData s).headD 0) 0) (x.1 + 4096 * x.2) (dropBatch s)
    if !b.retried then { s with stolon := { s.stolon with stalled := some b.what } }
    else match b.what with
    | .shard _ _ _ _ => decideRollback .moveFailed { s with stolon := { s.stolon with move := none } }
    | .lift keys =>
      { s with stolon := { s.stolon with liftsDue := s.stolon.liftsDue.filter fun e => !keys.contains (e.table, e.row) } }

/-- The rows have been frozen for more than 2 µs (R320). -/
def frozenLong (s : State) : Bool := s.stolon.batch.any fun b => decide (b.since + 2 * usec < clkOf s)

/-- MOVE_BATCH_ACK (R319). A freeze ends after 2 µs: a batch that is acknowledged later has been abandoned (R320, R323). -/
def execMoveBatchAck (s : State) : Host.Outcome State Fault Refusal :=
  .next (if inService s then kickFlail (if frozenLong s then batchTimeout s else ackBatch s) else s)

/-- MOVE_BATCH_TIMEOUT (R323). -/
def execMoveBatchTimeout (s : State) : Host.Outcome State Fault Refusal :=
  .next (if inService s then kickFlail (batchTimeout s) else s)

/-! ### SHARD_PARITY_DONE (R191) -/

/-- Some row of the shard stands half-applied. -/
def halfApplied (s : State) (t : TableDecl) (i : Nat) : Bool :=
  (updQueue s).any fun c => cmdTable c == t.id && (List.range (chunkCount c)).any fun j =>
    ((rowsOf (chunkAll c j)).filter (· / shardRowsMax == i)).any (rowHalf s t)

/-- The XOR of the data slices' extents is written to S16's. -/
def xorExtents (off n : Nat) (s : State) : State :=
  let z := zeroRange (stackDa 16 off) n s
  (List.range 16).foldl (fun acc k =>
    (s.mem.filter fun c => decide (stackDa k off ≤ c.1 ∧ c.1 < stackDa k off + n)).foldl (fun acc c =>
      let a := stackDa 16 (off + (c.1 - stackDa k off))
      daPoke acc a (xorBytes (daRead acc a 1) [c.2])) acc) z

/-- The shard whose parity the change in progress computes next. -/
def parityShard (s : State) : Option (TableDecl × Nat) :=
  match s.cfg.changes.head? with
  | none => none
  | some ch =>
    match ch.kind with
    | .huskSet id true =>
      if ch.seq == 0 || ch.stepDone || ch.flipAt.isSome || s.cfg.rollback.isSome then none
      else (tableOf s.cfg.cur id).bind fun t => ((huskShards t)[ch.steps]?).map fun i => (t, i)
    | _ => none

/-- The parity of the next shard is complete and kept from here on; the next generation of the change is staged. -/
def parityDone (s : State) : State :=
  match parityShard s with
  | none => s
  | some (t, i) =>
    let sh := nth t.shards i noShard
    if halfApplied s t i || decide ((liveData s).length ≠ 16) || !sliceLive s 16 then s
    else
      let n := shardExtent t .stack i
      let s := if sh.fresh then zeroRange (stackDa 16 (sh.base * 65536)) n s else xorExtents (sh.base * 65536) n s
      headStepDone (onShard t.id i (fun sh => { sh with parity := true }) s)

/-- SHARD_PARITY_DONE (R191). -/
def execShardParityDone (s : State) : Host.Outcome State Fault Refusal :=
  .next (if inService s then parityDone s else s)

end Sys2Proof.Machine
end

