-- ==== Sys2Proof/Machine/Validate.lean ====
section
/-!
DEFINITION. Sys2Proof/Machine/Validate.lean: the checks of a registration, a declaration and every other change, as
they apply to a configuration (R138, R176, R341, R309, R445, R616, R624, R682, R831). A check answers its code of
Table 4-7, 0 for OK.
-/
namespace Sys2Proof.Machine

/-- Check codes of Table 4-7. -/
def ckReserved : Nat := 0x08
/-- See `ckReserved`. -/
def ckRange : Nat := 0x09
/-- See `ckReserved`. -/
def ckCapacity : Nat := 0x0A
/-- See `ckReserved`. -/
def ckAssignment : Nat := 0x0B
/-- See `ckReserved`. -/
def ckGuarantee : Nat := 0x0C
/-- See `ckReserved`. -/
def ckKernel : Nat := 0x0D

/-- The first failing check of a list in check order. -/
def firstFail : List (Bool × Nat) → Nat
  | [] => 0
  | (ok, code) :: rest => if ok then firstFail rest else code

/-- The code of a decoded object, or its failure. -/
abbrev Read (α : Type) := Except Nat α

/-! ### Codes of the records -/

/-- OPT codes (Table 5-1). -/
def optOf : Nat → Option OptState
  | 0 => some .none | 1 => some .adagradRow | 2 => some .adam | _ => none
/-- INVALID codes (Table 5-1). -/
def invalidOf : Nat → Option Invalid
  | 0 => some .zero | 1 => some .default | 2 => some .fail | _ => none
/-- TIER codes (Table 5-5). -/
def tierOf : Nat → Option Tier
  | 0 => some .stack | 1 => some .ddr | 2 => some .cxl | 3 => some .none | _ => none
/-- ON_LOSS codes (Tables 5-1 and 9-1): RELEASE. -/
def lossOf : Nat → Option Bool
  | 0 => some false | 1 => some true | _ => none
/-! ### Registration records (Table 5-1) -/

/-- A registration record's reserved codes (Table 5-2, first check) and what it declares; its shards start FRESH. -/
def readTable (b : List Byte) : Read TableDecl :=
  match fmtOf (numAt b 2 1), optOf (numAt b 3 1), invalidOf (numAt b 7 1), lossOf (numAt b 8 1), tierOf (numAt b 10 1) with
  | some fmt, some opt, some inv, some rel, some tier =>
    .ok { id := numAt b 0 2, fmt := fmt, opt := opt, dim := numAt b 4 2, husk := bit (numAt b 6 1) 0,
          migrate := bit (numAt b 6 1) 1, invalid := inv, releaseOnLoss := rel, owner := numAt b 9 1, homeTier := tier,
          rows := numAt b 0x10 8, homeBase := numAt b 0x18 8, readMask := BitVec.ofNat 64 (numAt b 0x20 8),
          writeMask := BitVec.ofNat 64 (numAt b 0x28 8), segStride := numAt b 0x30 2, logicalStride := numAt b 0x34 4,
          userTag := slice b 0x40 16, defaultRow := [], defaultOff := 0, lost := false, shards := [] }
  | _, _, _, _, _ => .error ckReserved

/-- The own fields of a record lie in their ranges, and its strides are those of section 5.3 (Table 5-2). -/
def tableFieldsOk (enabled : Nat → Bool) (t : TableDecl) : Bool :=
  decide (t.id ≤ 4095 ∧ 16 ≤ t.dim ∧ t.dim ≤ 4096 ∧ 1 ≤ t.rows ∧ t.rows ≤ 2 ^ 40 ∧ t.owner ≤ 63) && enabled t.owner
    && t.segStride == segStrideOf t.fmt t.opt t.dim && t.logicalStride == logicalStrideOf t.fmt t.opt t.dim
    && decide (t.homeBase % 65536 = 0) && (t.homeTier != .none || t.homeBase == 0)

/-- The default row of an entry of R175, when the entry fits the table (Table 5-2). -/
def defaultOf (t : TableDecl) (entry : Option (List Byte)) : Option (List Byte) :=
  match t.invalid with
  | .default => entry.bind fun e =>
    let row := slice e 16 t.logicalStride
    let stateLen := match t.opt with | .none => 0 | .adagradRow => 4 | .adam => 8 * t.dim
    if numAt e 0 2 = t.id ∧ numAt e 4 4 = t.logicalStride ∧ allZero (slice row (logicalStateOff t.fmt t.dim) stateLen) = true
    then some row else none
  | _ => some []

/-- A registration as it arrives: its record, and its default-row entry (R174, R175). -/
def readRegistration (enabled : Nat → Bool) (b : List Byte) (entry : Option (List Byte)) : Read TableDecl :=
  (readTable b).bind fun t =>
    if !tableFieldsOk enabled t then .error ckRange
    else match defaultOf t entry with
    | none => .error ckRange
    | some row => let t := { t with defaultRow := row }; .ok { t with shards := freshShards t }

/-! ### KV declaration records (Table 9-1) -/

/-- PAGE_MODE codes. -/
def modeOf : Nat → Option PageMode
  | 0 => some .tok16 | 1 => some .pow2 | 2 => some .contig | _ => none
/-- EVICT codes (Table 9-5). -/
def evictOf : Nat → Option EvictPolicy
  | 0 => some .preserve | 1 => some .idle | 2 => some .priority | 3 => some .largest | _ => none

/-- The own fields of a declaration lie in their ranges (Table 9-1, R341). -/
def kvFieldsOk (enabled : Nat → Bool) (kfmt : Nat) (d : KvDecl) : Bool :=
  let unit := if d.inStack then 65536 else 4096
  decide (d.id ≤ 4095) && (kfmt == 3 || kfmt == 5)
    && (match d.mode with | .pow2 => decide (5 ≤ d.pageLog2 ∧ d.pageLog2 ≤ 10) | _ => d.pageLog2 == 4)
    && (if d.byPosition then decide (d.placeLog2 ≤ 8) else d.placeLog2 == 0)
    && decide (16 ≤ d.headDim ∧ d.headDim ≤ 256 ∧ d.headDim % 16 = 0 ∧ 1 ≤ d.nheads ∧ d.nheads ≤ 4096)
    && decide (1 ≤ d.layers ∧ d.layers ≤ 256 ∧ d.owner ≤ 63) && enabled d.owner
    && decide (1 ≤ d.maxSeqs ∧ d.maxSeqs ≤ 65536 ∧ 1 ≤ d.maxTokens ∧ d.maxTokens ≤ 1048576)
    && decide (d.maxTokens % 2 ^ d.pageLog2 = 0 ∧ d.storeBase % unit = 0 ∧ d.storeSize % unit = 0)
    && (d.maxNodes == 0 || (List.range 17).any fun n => d.maxNodes == 2 ^ (n + 4))
    && numLt (ofF32 d.headroom) (ofF32 0x3F800000) == some false && numLt (ofF32 0x41800000) (ofF32 d.headroom) == some false
    && !(d.mode == .contig && (d.byPosition || d.maxNodes != 0))

/-- A KV declaration record: reserved codes, then ranges (R340, R341). -/
def readKv (enabled : Nat → Bool) (b : List Byte) : Read KvDecl :=
  match modeOf (numAt b 3 1), evictOf (numAt b 7 1), lossOf (numAt b 0x0F 1) with
  | some mode, some ev, some rel =>
    if 1 < numAt b 5 1 ∨ 1 < numAt b 0x18 1 then .error ckReserved
    else
      let d : KvDecl :=
        { id := numAt b 0 2, int8 := numAt b 2 1 == 5, mode := mode, pageLog2 := numAt b 4 1, byPosition := numAt b 5 1 == 1,
          placeLog2 := numAt b 6 1, evict := ev, headDim := numAt b 8 2, nheads := numAt b 10 2, layers := numAt b 12 2,
          owner := numAt b 14 1, releaseOnLoss := rel, maxSeqs := numAt b 0x10 4, maxTokens := numAt b 0x14 4,
          inStack := numAt b 0x18 1 == 1, storeBase := numAt b 0x20 8, storeSize := numAt b 0x28 8,
          readMask := BitVec.ofNat 64 (numAt b 0x30 8), writeMask := BitVec.ofNat 64 (numAt b 0x38 8),
          maxNodes := numAt b 0x40 4, headroom := BitVec.ofNat 32 (numAt b 0x44 4), userTag := slice b 0x48 16, lost := false }
      if kvFieldsOk enabled (numAt b 2 1) d then .ok d else .error ckRange
  | _, _, _ => .error ckReserved

/-! ### Classes, ledger, migration, kernels -/

/-- BASE codes (Table 16-2); 0x2 and codes above 0x3 fail as RANGE (R616). -/
def baseOf : Nat → Option Level
  | 0 => some .guaranteed | 1 => some .normal | 3 => some .scavenger | _ => none

/-- A guarantee and a ceiling at an offset, in `n` bytes each. -/
def budgetAt (b : List Byte) (off n : Nat) : Budget :=
  let c := numAt b (off + n) n
  { g := numAt b off n, c := if c = 2 ^ (8 * n) - 1 then none else some c }

/-- An entry of Table 16-2 (class) or Table 16-3 (range). -/
def readClass (range : Bool) (b : List Byte) : Read ClassEnt :=
  match baseOf (numAt b 0 1) with
  | none => .error ckRange
  | some base =>
    if range then
      .ok { base := base, mask := 0, da := numAt b 8 8, size := numAt b 0x10 8,
            budget := #v[freeBudget, budgetAt b 0x18 4, freeBudget, budgetAt b 0x20 4, budgetAt b 0x28 4] }
    else
      .ok { base := base, mask := BitVec.ofNat 64 (numAt b 8 8), da := 0, size := 0,
            budget := #v[budgetAt b 4 2, budgetAt b 0x10 4, budgetAt b 0x18 4, budgetAt b 0x20 4, budgetAt b 0x28 4] }

/-- One budget stands with its base level (R616). -/
def budgetOk (base : Level) (r : Nat) (b : Budget) : Bool :=
  let c := b.c.getD (2 ^ 32)
  (base == .guaranteed || b.g == 0) && (base != .scavenger || b.c == some 0) && decide (b.g ≤ c)
    && (r != 0 || (decide (b.g ≤ 4096) && (b.c.isNone || decide (c ≤ 4096))))

/-- Budgets of entry `i`: a range entry holds none for SLOTS and CRIB (R616). -/
def classBudgetsOk (i : Nat) (e : ClassEnt) : Bool :=
  (if i < 16 then [0, 1, 2, 3, 4] else [1, 3, 4]).all fun r => budgetOk e.base r (vat e.budget r)

/-- The range of range entry `i` among the entries (R616). -/
def rangeEntryOk (classes : Vector ClassEnt 32) (i : Nat) : Bool :=
  let e := vat classes (16 + i)
  if i = 15 then e.da == 0 && e.size == 0
  else if e.size = 0 then e.da == 0
  else decide (e.da % 65536 = 0 ∧ e.size % 65536 = 0 ∧ e.da / 2 ^ 52 = (e.da + e.size - 1) / 2 ^ 52
      ∧ 3 ≤ e.da / 2 ^ 52 ∧ e.da / 2 ^ 52 ≤ 5)
    && (List.range 15).all fun j => j == i || !rangesMeet e.da e.size (vat classes (16 + j)).da (vat classes (16 + j)).size

/-- R616 of the whole of CLASS_DECL. -/
def classesOk (classes : Vector ClassEnt 32) : Bool :=
  ((List.range 32).all fun i => classBudgetsOk i (vat classes i)) && (List.range 16).all (rangeEntryOk classes)

/-- Twenty times 0.85 of a resource's capacity: SLOTS in entries, the others in bytes per second (Table 16-1). -/
def capacity85 (dimms cxls r : Nat) : Nat :=
  match r with
  | 0 => 17 * 4096
  | 1 => 17 * 12288000000000
  | 2 => 17 * 32768000000000
  | 3 => 17 * 33600000000 * dimms
  | _ => 17 * 64000000000 * cxls

/-- Both sums of R624 stand for a resource: in KiB per window of 1/1,120 s, the window at 70 Hz. -/
def guaranteeOk (dimms cxls : Nat) (classes : Vector ClassEnt 32) (r : Nat) : Bool :=
  let total (base : Nat) := ((List.range 16).map fun i =>
    let e := vat classes (base + i)
    if e.base == .guaranteed then (vat e.budget r).g else 0).sum
  let unit := if r = 0 then 20 else 20 * 1024 * 1120
  decide (total 0 * unit ≤ capacity85 dimms cxls r) && (r == 0 || r == 2 || decide (total 16 * unit ≤ capacity85 dimms cxls r))

/-- R624 of the whole of CLASS_DECL, with the RDIMMs and expanders that the image declares. -/
def guaranteesOk (img : ImageCfg) (classes : Vector ClassEnt 32) : Bool :=
  let dimms := ((List.range 16).filter fun i => img.dimms.getLsbD i).length
  let cxls := ((List.range 4).filter fun i => img.cxl.getLsbD i).length
  (List.range 5).all (guaranteeOk dimms cxls classes)

/-- At most 4,096 slots are guaranteed (Table 4-7, ASSIGNMENT). -/
def slotsOk (classes : Vector ClassEnt 32) : Bool :=
  decide (((List.range 16).map fun i => let e := vat classes i; if e.base == .guaranteed then (vat e.budget 0).g else 0).sum ≤ 4096)

/-- POLICY codes (Table 18-3). -/
def policyOf : Nat → Option Policy
  | 0 => some .reservation | 1 => some .usage | 2 => some .house | _ => none

/-- A LEDGER section (R682). -/
def readLedger (b : List Byte) : Read LedgerCfg :=
  match policyOf (numAt b 0 1) with
  | none => .error ckReserved
  | some p =>
    let l : LedgerCfg :=
      { policy := p, housePpm := numAt b 4 4, reconPpm := numAt b 8 4, initGain := numAt b 12 4,
        domains := (List.range 332).map fun d => (numAt b (0x20 + 8 * d) 4, numAt b (0x24 + 8 * d) 4) }
    if l.housePpm ≤ 1000000 ∧ 1000 ≤ l.reconPpm ∧ l.reconPpm ≤ 100000 ∧ 32768 ≤ l.initGain ∧ l.initGain ≤ 131072
        ∧ numAt b 0x10 2 = 332 then .ok l else .error ckRange

/-- A MIGRATION section (Table 8-3). -/
def readMigration (b : List Byte) : Read Migration :=
  let m : Migration :=
    { sample := numAt b 0 2, cls := numAt b 2 1, autoLift := bit (numAt b 3 1) 0, autoMove := bit (numAt b 3 1) 1,
      liftMin := numAt b 4 4, evictHits := numAt b 8 4, liftPerBeat := numAt b 12 4, promoteMin := numAt b 0x10 4,
      demoteMax := numAt b 0x14 4, promoteBeats := numAt b 0x18 2, demoteBeats := numAt b 0x1A 2,
      moveRate := numAt b 0x1C 4,
      pools := #v[(numAt b 0x20 8, numAt b 0x28 8), (numAt b 0x30 8, numAt b 0x38 8), (numAt b 0x40 8, numAt b 0x48 8)] }
  if 1 ≤ m.sample ∧ m.cls ≤ 15 ∧ 1 ≤ m.liftMin ∧ m.evictHits ≤ 65535 ∧ m.liftPerBeat ≤ 262144 ∧ 1 ≤ m.promoteMin
      ∧ 1 ≤ m.promoteBeats ∧ m.promoteBeats ≤ 3000 ∧ 1 ≤ m.demoteBeats ∧ m.demoteBeats ≤ 3000 ∧ 1 ≤ m.moveRate
      ∧ m.moveRate ≤ 128 ∧ (List.range 3).all (fun i => (vat m.pools i).1 % 65536 == 0 && (vat m.pools i).2 % 65536 == 0) = true
  then .ok m else .error ckRange

/-- An operation whose code or field its table lists as reserved (Tables 11-5 and 12-4 to 12-8; check KERNEL). A code that
its slot does not accept is none, unless Table 12-8 reserves it: rule 1 of R449 turns it away when the bundle issues. -/
def reservedOp (o : Op) : Bool :=
  match o.cls with
  | .nop => false
  | .ctl => decide (0x12 < o.code) || (o.code == 6 && bits o.w 26 2 == 3)
      || ((o.code == 0x0B || o.code == 0x0C) && !ctlKnown o.ctlReg)
  | .int => decide (0x0D < o.code)
  | .mem => decide (0x0C < o.code)
  | .vec => decide (0x12 < o.code) || (vtypeOf (bits o.w 26 3)).isNone || (o.code == 0x0A && (vtypeOf (bits o.w 29 3)).isNone)
  | .acc => decide (0x88 < o.code) || (o.code == 0x80 && (bits o.w 29 3 == 7 || bits o.w 32 3 == 7))
      || (o.code == 0x86 && decide (3 < bits o.w 29 4))
  | .refused => decide (0x8A ≤ o.code)

/-- Some bundle of a kernel's code encodes a reserved operation. -/
def reservedCode (code : List Byte) : Bool := (pieces 64 (code.length / 64) code).any fun b => (bundleOps b).any reservedOp

/-- The ranges of one kernel entry (R134, R481). -/
def kernelFieldsOk (k : Kernel) : Bool :=
  decide (k.len % 64 = 0 ∧ k.len ≤ 1048576 ∧ k.trapBytes % 256 = 0 ∧ 20736 ≤ k.trapBytes ∧ k.code.length = k.len)

/-- A kernel entry of 32 bytes with its code (R134). -/
def readKernel (b code : List Byte) : Kernel :=
  { id := numAt b 0 2, off := 0, len := numAt b 8 4, entry := numAt b 12 4, trapBytes := numAt b 16 4,
    scratch := numAt b 20 4, code := code }

/-! ### What occupies a tier -/

/-- What a claimed extent is. -/
inductive ClaimKind where
  | stripe | defaults | pool | table | store
  | assigned (func : Nat)
  deriving DecidableEq, Repr

/-- An extent of a tier that is in use: stack offsets, or offsets of region 0x4 or 0x5. -/
structure Claim where
  tier : Tier
  base : Nat
  size : Nat
  what : ClaimKind
  deriving DecidableEq, Repr

/-- Bytes of a table's own extent (R194). -/
def ownBytes (t : TableDecl) : Nat := ((List.range (shardCount t.rows)).map (shardExtent t t.homeTier)).sum

/-- A table's own extent, if it has one. -/
def ownClaims (t : TableDecl) : List Claim :=
  if t.homeTier == .none then [] else [{ tier := t.homeTier, base := t.homeBase, size := ownBytes t, what := .table }]

/-- Tier of a far-range address. -/
def farTier (da : Nat) : Tier := if da / 2 ^ 52 = 4 then .ddr else .cxl

/-- What the image's MEM_CARVE occupies or assigns. -/
def carveClaims (c : Carve) : List Claim :=
  { tier := .stack, base := c.stripeBase, size := c.stripeSize, what := .stripe }
    :: (c.stackRanges.map fun r => { tier := .stack, base := r.base, size := r.size, what := .assigned r.func })
    ++ c.farRanges.map fun r => { tier := farTier r.base, base := r.base % 2 ^ 52, size := r.size, what := .assigned r.func }

/-- The three move pools. -/
def poolClaims (m : Migration) : List Claim :=
  [{ tier := .stack, base := (vat m.pools 0).1, size := (vat m.pools 0).2, what := .pool },
   { tier := .ddr, base := (vat m.pools 1).1, size := (vat m.pools 1).2, what := .pool },
   { tier := .cxl, base := (vat m.pools 2).1, size := (vat m.pools 2).2, what := .pool }]

/-- The default-row extent with `extra` bytes of records more (R204). -/
def defaultClaim (tables : List TableDecl) (extra : Nat) : Claim :=
  let n := alignUp (((tables.filter fun t => t.invalid == .default).map (·.segStride)).sum + extra) 65536
  { tier := .stack, base := defaultTop - n, size := n, what := .defaults }

/-- A STACK KV store. -/
def storeClaims (d : KvDecl) : List Claim :=
  if d.inStack then [{ tier := .stack, base := d.storeBase, size := d.storeSize, what := .store }] else []

/-- Tables that are released and still read by commands of the older live generation (R210). -/
def lingering (s : State) (c : Cfg) : List TableDecl :=
  match s.cfg.old with
  | none => []
  | some o => o.tables.filter fun t => !(s.cfg.cur.tables.any (·.id == t.id)) && !(c.tables.any (·.id == t.id))

/-- Everything that occupies a tier in a configuration. -/
def claimsOf (s : State) (c : Cfg) (extra : Nat) : List Claim :=
  let tables := c.tables ++ lingering s c
  carveClaims s.image.carve ++ poolClaims c.migration ++ [defaultClaim tables extra] ++ tables.flatMap ownClaims
    ++ c.kvs.flatMap storeClaims

/-- A claim meets none of a list; ranges assigned to `owner` do not count. -/
def meetsNone (owner : Option Nat) (x : Claim) (l : List Claim) : Bool :=
  l.all fun y => y.tier != x.tier || !rangesMeet x.base x.size y.base y.size
    || (match y.what, owner with | .assigned f, some o => f == o | _, _ => false)

/-- An extent ends within its tier, and crosses no boundary of sections 17.5 and 17.6 (R194, R660, R666). -/
def withinTier (s : State) (x : Claim) : Bool :=
  match x.tier with
  | .stack => decide (x.base + x.size ≤ defaultTop)
  | .ddr => decide (x.base + x.size ≤ ddrSplit s ∨ (ddrSplit s ≤ x.base ∧ x.base + x.size ≤ ddrBytes s))
  | .cxl => (List.range 4).any fun e => rangeIn x.base x.size (cxlStart s e) (cxlSpan s e)
  | .none => true

/-- Ranges of a tier that the image assigns to a function. -/
def assignedTo (s : State) (tier : Tier) (f : Nat) : List (Nat × Nat) :=
  ((carveClaims s.image.carve).filter fun x => x.tier == tier && x.what == .assigned f).map fun x => (x.base, x.size)

/-- Checks of a registration against a configuration (Table 5-2, R177); `tenant` is a function that registers for itself.
Extents of KV stores and move pools count with those that Table 5-2 names (R309, R341, R641). -/
def checkTable (s : State) (c : Cfg) (tenant : Option Nat) (t : TableDecl) : Nat :=
  let extra := if t.invalid == .default then t.segStride else 0
  let own := ownClaims t
  let claims := claimsOf s c extra
  let dflt := defaultClaim (c.tables ++ lingering s c) extra
  firstFail
    [(!(c.tables.any (·.id == t.id)) && !(c.kvs.any (·.id == t.id)), ckRange),
     (own.all fun x => withinTier s x && meetsNone (some t.owner) x claims, ckCapacity),
     (match tenant with | some f => own.all fun x => covered (assignedTo s x.tier f) x.base x.size | none => true, ckCapacity),
     (t.invalid != .default || meetsNone none dflt (claims.filter (·.what != .defaults)), ckCapacity),
     (decide ((((c.tables ++ lingering s c).map (·.shards.length)).sum + shardCount t.rows) ≤ shardMapMax), ckCapacity)]

/-- A CRIB store lies in the KV page pool carve and, on every slice, in parts assigned to its owner (R341). -/
def cribStoreOk (s : State) (c : Cfg) (d : KvDecl) : Bool :=
  let carve := s.image.carve
  rangeIn d.storeBase d.storeSize carve.liftBytes carve.kvPoolBytes
    && ((List.range 17).all fun k =>
      covered ((carve.cribParts.filter fun p => p.func == d.owner && !p.scratch && bit p.slices k).map fun p => (p.off, p.size))
        d.storeBase d.storeSize)
    && c.kvs.all fun e => e.inStack || !rangesMeet d.storeBase d.storeSize e.storeBase e.storeSize

/-- Checks of a KV declaration against a configuration (R341). -/
def checkKv (s : State) (c : Cfg) (tenant : Option Nat) (d : KvDecl) : Nat :=
  let own := storeClaims d
  let place := if d.inStack then
      (own.all fun x => withinTier s x && meetsNone (some d.owner) x (claimsOf s c 0))
        && (match tenant with | some f => covered (assignedTo s .stack f) d.storeBase d.storeSize | none => true)
    else cribStoreOk s c d
  let need := if d.mode == .contig then d.maxSeqs * d.layers * kvHeadSlots d * (d.maxTokens / 16) else 1
  firstFail
    [(!(c.tables.any (·.id == d.id)) && !(c.kvs.any (·.id == d.id)), ckRange),
     (place, ckCapacity), (decide (need ≤ kvPages d), ckCapacity)]

/-- The move pools of a configuration overlap nothing else and lie within their tiers (R309). -/
def poolsOk (s : State) (c : Cfg) (m : Migration) : Bool :=
  let pools := (poolClaims m).filter (·.size != 0)
  let rest := (claimsOf s c 0).filter fun x => x.what == .stripe || x.what == .defaults || x.what == .table || x.what == .store
  pools.all fun x => withinTier s x && meetsNone none x rest && (pools.all fun y => y == x || meetsNone none x [y])

/-- Offset and end of the scratch carve of every crib (R874). -/
def scratchCarve (c : Carve) : Nat × Nat := (c.liftBytes + c.kvPoolBytes, cribSize - cribReserved)

/-- The code area and the Stolon work area fit the scratch carve, and no scratch part lies in the code area (R301,
R445). -/
def codeFits (carve : Carve) (code : Nat) : Bool :=
  let (lo, hi) := scratchCarve carve
  let area := alignUp code 65536
  decide (lo + area + 1572864 ≤ hi)
    && carve.cribParts.all fun p => !p.scratch || !rangesMeet p.off p.size lo area

/-- Checks of a kernel library (R134, R445). -/
def checkKernels (s : State) (c : Cfg) (k : Kernel) : Nat :=
  firstFail
    [(codeFits s.image.carve (codeTotal c.kernels + k.len), ckCapacity),
     (kernelFieldsOk k && decide (c.kernels.length < 1024) && !(c.kernels.any (·.id == k.id)) && !reservedCode k.code, ckKernel)]

/-- Checks of a shard move; a shard that is MOVING in the generation in force is refused, whatever the changes before this
one lead to (R313, R315, R338). -/
def checkMove (s : State) (c : Cfg) (table shard : Nat) (tier : Tier) : Nat :=
  match tableOf c table with
  | none => ckRange
  | some t =>
    let s' := { s with cfg := { s.cfg with cur := c } }
    let toOwn := tier == (ownShard t shard).tier
    firstFail
      [(decide (shard < t.shards.length) && !(nth t.shards shard noShard).moving && tier != .none
          && !((tableOf s.cfg.cur table).any fun u => (nth u.shards shard noShard).moving), ckRange),
       (if toOwn then !atOwn t shard else atOwn t shard && (ownShard t shard).tier != .none, ckRange),
       ((moveDst s' t shard tier).isSome, ckCapacity)]

/-- Checks 0x08 to 0x0D of a change against the configuration it applies to (R138, R831). HUSK_SET
ON of a table that is protected already passes and computes its parity again (DESIGN CHOICE, log 146). -/
def checkChange (s : State) (c : Cfg) (tenant : Option Nat) : ChangeKind → Nat
  | .tableRegister t => checkTable s c tenant t
  | .kvRegister d => checkKv s c tenant d
  | .tableRelease id => if c.tables.any (·.id == id) || c.kvs.any (·.id == id) then 0 else ckRange
  | .shardMove t i tier => checkMove s c t i tier
  | .huskSet t _ => if (tableOf c t).isSome then 0 else ckRange
  | .classSet i e =>
    let cl := vupd c.classes i fun _ => e
    firstFail [(classesOk cl, ckRange), (slotsOk cl, ckAssignment), (guaranteesOk s.image cl, ckGuarantee)]
  | .migrationSet m => if poolsOk s c m then 0 else ckCapacity
  | .ledgerSet _ => 0
  | .kernelLoad k => checkKernels s c k
  | .kernelUnload id => if c.kernels.any (·.id == id) then 0 else ckRange

/-- The configuration after the steps of a change that have not flipped. -/
def applyChange (s : State) (ch : Change) (c : Cfg) : Cfg :=
  (List.range (changeSteps c ch.kind)).foldl (fun c i =>
    if i < ch.steps then c
    else
      let dst : Tier × Nat := match ch.kind with
        | .shardMove t sh tier => ((tableOf c t).bind fun d => moveDst { s with cfg := { s.cfg with cur := c } } d sh tier).getD (.none, 0)
        | _ => (.none, 0)
      stepCfg ch.kind i dst c) c

/-- The configuration that every accepted change together would produce, for validation (R831). -/
def projected (s : State) : Cfg :=
  s.cfg.changes.foldl (fun c ch => applyChange s ch c) (if s.cfg.rollback.isSome then s.cfg.base else s.cfg.cur)

/-- A function that changes what it owns, when it is not the steward (R177). -/
def tenantOf (origin : Option Nat) : Option Nat := origin.filter (· != 0)

/-! ### Changes that the device makes itself (R138, R209, R314, R831) -/

/-- Such a change is validated as any other in its turn; one that fails is not made. A busy journal refuses only the changes
of mailboxes (R138, R158, R159; log 127). -/
def validateOwn (k : ChangeKind) (s : State) : State :=
  if checkChange s (projected s) none k = 0 then acceptChange k none s else s

/-- It is validated at once, or after those that wait for their validation (R831). -/
def ownChange (k : ChangeKind) (s : State) : State :=
  if s.mg.changeQueue.isEmpty then validateOwn k s
  else { s with mg := { s.mg with changeQueue := s.mg.changeQueue ++ [.own k] } }

end Sys2Proof.Machine
end

