-- ==== Sys2Proof/Machine/Changes.lean ====
section
/-!
DEFINITION. Sys2Proof/Machine/Changes.lean: how runtime changes end: the generation flip, its rollback, and what their
mailboxes are told (R159 to R165, R831, R832, R876).
-/
namespace Sys2Proof.Machine

/-- Mailbox status codes (Table 22-4). -/
def mbOk : Nat := 0x00
/-- See `mbOk`. -/
def mbRolledBack : Nat := 0x02
/-- See `mbOk`. -/
def mbInvalid : Nat := 0x08

/-- The result of a mailbox operation is known; MAILBOX_COMPLETE delivers it (R826). A function that was reset, and the
device itself, are told nothing (R519). -/
def answerMbx (origin : Option Nat) (status : Nat) (data : List Byte) (s : State) : State :=
  match origin with
  | none => s
  | some f => onFunc f (fun F =>
      if F.mbx.st == .busy then { F with mbx := { F.mbx with result := some (BitVec.ofNat 8 status, data) } } else F) s

/-- The changes from place `n` on are validated again, in order, against the configuration that those before them lead to from
the one in force; one that fails completes with INVALID (R831). -/
def revalidate (n : Nat) (s : State) : State :=
  let first := s.cfg.changes.take n
  let keep := fun (acc : Cfg × List Change × List (Option Nat × Nat)) (ch : Change) =>
    let (c, ok, bad) := acc
    let code := checkChange s c (tenantOf ch.origin) ch.kind
    if code = 0 then (applyChange s ch c, ok ++ [ch], bad) else (c, ok, bad ++ [(ch.origin, code)])
  let (_, ok, bad) := (s.cfg.changes.drop n).foldl keep (first.foldl (fun c ch => applyChange s ch c) s.cfg.cur, first, [])
  bad.foldl (fun s b => answerMbx b.1 mbInvalid (leBytes 1 b.2) s) { s with cfg := { s.cfg with changes := ok } }

/-- Shards of a table that HUSK is not set for have no parity: what a change that leaves had computed is of no use. -/
def withoutHusk (c : Cfg) : Cfg :=
  { c with tables := c.tables.map fun t =>
      if t.husk then t else { t with shards := t.shards.map fun sh => { sh with parity := false } } }

/-- The change in progress leaves with a status; the later ones go on. -/
def dropHead (status : Nat) (data : List Byte) (again : Bool) (s : State) : State :=
  let origin := s.cfg.changes.head?.bind (·.origin)
  let s := { s with cfg := { s.cfg with changes := s.cfg.changes.drop 1, cur := withoutHusk s.cfg.cur,
                                        base := withoutHusk s.cfg.base } }
  let s := answerMbx origin status data s
  stageHead (if again then revalidate 0 s else s)

/-- The change at place `i`, which waits for its first flip, is abandoned without any flip (R876). -/
def abandonAt (i : Nat) (r : Reason) (s : State) : State :=
  match s.cfg.changes[i]? with
  | none => s
  | some ch =>
    let s := jAdd (.genRollback (targetGen s i) s.cfg.cur.gen s.cfg.cur r) s
    if i = 0 then dropHead mbRolledBack (leBytes 1 (reasonCode r)) true s
    else
      revalidate i (answerMbx ch.origin mbRolledBack (leBytes 1 (reasonCode r))
        { s with cfg := { s.cfg with changes := s.cfg.changes.eraseIdx i } })

/-- Changes behind the one in progress that a loss hits are abandoned, the last first (R876, log 95). -/
def abandonLater (r : Reason) (hit : Change → Bool) (s : State) : State :=
  (List.range (s.cfg.changes.length - 1)).reverse.foldl (fun s i =>
    if (s.cfg.changes[i + 1]?).any hit then abandonAt (i + 1) r s else s) s

/-- The change in progress cannot finish: it is rolled back, or abandoned before its first flip (R164, R876). -/
def rollHead (r : Reason) (s : State) : State :=
  match s.cfg.changes.head? with
  | none => s
  | some ch => if s.cfg.rollback.isSome then s else if ch.steps = 0 then abandonAt 0 r s else decideRollback r s

/-- TABLE_IDs with a default-row record. -/
def defaultIds (c : Cfg) : List Nat := (c.tables.filter fun t => t.invalid == .default).map (·.id)

/-- The default-row records of a configuration that replaces the one in force: placed anew only where a DEFAULT table comes or
goes (R204). -/
def settleDefaults (s : State) (c : Cfg) : Cfg :=
  if defaultIds c = defaultIds s.cfg.cur then c else { c with tables := placeDefaults (defaultUse s.cfg.cur.tables) c.tables }

/-- Default-row records whose place differs from the one in the configuration `old` are written (R204). -/
def writeDefaults (old : Cfg) (s : State) : State :=
  storeDefaults (fun t => !old.tables.any fun u => u.id == t.id && u.invalid == .default && u.defaultOff == t.defaultOff)
    s.cfg.cur.tables (positions s) s

/-- A new generation comes into force; the one before it is the older live one while commands of it remain (R161, R162).
An epoch that opened at this tick opens under it (R105, R171, R711). -/
def enterGen (c : Cfg) (s : State) : State :=
  let old := s.cfg.cur
  let c := settleDefaults s c
  let s := writeDefaults old { s with cfg := { s.cfg with cur := { c with gen := old.gen + 1 }, old := some old, flipNow := false } }
  let s := if s.led.isOpen && s.led.openPos == posOf s then { s with led := { s.led with cfg := some c.ledger } } else s
  settleOld s

/-- The library is written into the code area of every data slice (R445, Table 4-1 step 17). -/
def placeKernels (s : State) : State :=
  s.cfg.cur.kernels.foldl (fun s k => (liveData s).foldl (fun s j =>
      daPoke s (cribDa j (s.image.carve.liftBytes + s.image.carve.kvPoolBytes + k.off)) k.code) s) s

/-- The batch copies rows of a shard. -/
def isShard : BatchKind → Bool
  | .shard _ _ _ _ => true
  | .lift _ => false

/-- What a flip does beside bringing the new configuration into force. Lifts decided and not begun fall with their table, or
with AUTO_LIFT (R339); without S16 a shard arrives in the stack unprotected (R334). -/
def flipEffect (k : ChangeKind) (step : Nat) (dst : Tier × Nat) (s : State) : State :=
  match k with
  | .kvRegister d => openKv d s
  | .kernelLoad _ => placeKernels s
  | .kernelUnload _ => placeKernels s
  | .classSet _ _ => relevel s
  | .tableRelease id => { s with stolon := { s.stolon with liftsDue := s.stolon.liftsDue.filter (·.table != id) } }
  | .migrationSet m => if m.autoLift then s else { s with stolon := { s.stolon with liftsDue := [], stalled := s.stolon.stalled.filter isShard } }
  | .shardMove t i _ =>
    let mv : Option ShardMove :=
      if step = 0 then some { table := t, shard := i, dstTier := dst.1, dstBase := dst.2, cursor := 0, staged := false,
                              gen := s.cfg.cur.gen }
      else none
    let s := { s with stolon := { s.stolon with move := mv } }
    if step = 1 && !sliceLive s 16 then onShard t i (fun sh => { sh with parity := false }) s else s
  | _ => s

/-- The place that a flip of the change takes a shard to. -/
def flipDst (s : State) (ch : Change) : Option (Tier × Nat) :=
  match ch.kind with
  | .shardMove t i tier =>
    if ch.steps = 0 then (tableOf s.cfg.cur t).bind fun d => moveDst s d i tier
    else s.stolon.move.map fun m => (m.dstTier, m.dstBase)
  | _ => some (.none, 0)

/-- The change in progress has reached its target generation (R159, R831). -/
def finishHead (s : State) : State :=
  dropHead mbOk (leBytes 4 s.cfg.cur.gen) false { s with cfg := { s.cfg with base := s.cfg.cur } }

/-- The flip of the change in progress (R159, R163). A move whose place has gone since its validation fails as it would
there. -/
def flipHead (ch : Change) (s : State) : State :=
  match flipDst s ch with
  | none => dropHead mbInvalid (leBytes 1 ckCapacity) true s
  | some dst =>
    let s := enterGen (stepCfg ch.kind ch.steps dst s.cfg.cur) s
    let s := flipEffect ch.kind ch.steps dst s
    let n := changeSteps s.cfg.base ch.kind
    let s := onHead (fun c => { c with steps := c.steps + 1, flipAt := none, stepDone := false,
                                       firstFlip := some (c.firstFlip.getD s.tb.beat.toNat) }) s
    if ch.steps + 1 < n then stageHead s else finishHead s

/-- The shard move in progress is abandoned, with its batch (R318, R333). -/
def abandonMove (s : State) : State :=
  let s := match s.stolon.batch with
    | some b => (match b.what with | .shard _ _ _ _ => dropBatch s | .lift _ => s)
    | none => s
  { s with stolon := { s.stolon with move := none, stalled := s.stolon.stalled.filter (!isShard ·) } }

/-- The flip back to the configuration that the last completed change left (R164, R318). -/
def flipBack (r : Reason) (s : State) : State :=
  let s := enterGen s.cfg.base s
  let s := { s with cfg := { s.cfg with base := s.cfg.cur, rollback := none } }
  dropHead mbRolledBack (leBytes 1 (reasonCode r)) true (abandonMove s)

/-- GEN_FLIP: the flip of this boundary, after every window that closes at it (R105, R159, R162). -/
def execGenFlip (s : State) : Host.Outcome State Fault Refusal :=
  .next (if flipDue s && windowsClosed s then
      match s.cfg.rollback with
      | some (r, _, _) => flipBack r s
      | none => match s.cfg.changes.head? with
        | some ch => flipHead ch s
        | none => s
    else s)

/-- A change has had 64 beats since its first flip (R164). -/
def changeLate (s : State) : Bool :=
  match s.cfg.changes.head? with
  | some ch => (ch.firstFlip.any fun b => decide (b + 64 ≤ s.tb.beat.toNat)) && s.cfg.rollback.isNone
  | none => false

/-- CHANGE_ROLLBACK (R164, R318): the change in progress is rolled back with the reason TIMEOUT. -/
def execChangeRollback (s : State) : Host.Outcome State Fault Refusal :=
  .next (if inService s && changeLate s && !flipDue s then decideRollback .timeout s else s)

/-- Kernels of the older live generation that still run on some core, and block a rollback decided 64 beats ago (R165). -/
def forcedKernels (s : State) : List Nat :=
  match s.cfg.rollback, s.cfg.old with
  | some (_, b, _), some o =>
    if b + 64 ≤ s.tb.beat.toNat then
      (s.cmds.filter fun c => c.gen == o.gen && opcodeOf c.bytes == 0x60 && c.phase == .working).map (·.uid)
    else []
  | _, _ => []

/-- ROLLBACK_FORCE_END (R165): they complete with KERNEL_FAULT; every other command runs to its end. -/
def execRollbackForceEnd (s : State) : Host.Outcome State Fault Refusal :=
  .next (if inService s then (forcedKernels s).foldl (fun s u => abortLaunch u 0x21 s) s else s)

/-! ### STOLON_DECISION (R307, R310, R314) -/

/-- At most one shard move is decided, when no change is pending and none waits for its validation (R314, R338). -/
def moveDecision (s : State) : State :=
  if !s.cfg.cur.migration.autoMove || !s.cfg.changes.isEmpty || !s.mg.changeQueue.isEmpty || s.stolon.newLeader then s
  else
    let best (l : List (Nat × Nat × Nat × Tier)) := (sortBy (fun a b => decide (b.2.2.1 < a.2.2.1)) l).head?
    match (best (moveCandidates s true)).orElse fun _ => best (moveCandidates s false) with
    | none => s
    | some x => ownChange (.shardMove x.1 x.2.1 x.2.2.2) s

/-- STOLON_DECISION at tick 32,768, once in a beat: evictions and lifts, at most one shard move, and the candidate table is
emptied (R104, R307, R310, R314). -/
def execStolonDecision (s : State) : Host.Outcome State Fault Refusal :=
  .next (if inService s && s.tb.tick == 32768 && !(liveData s).isEmpty && s.stolon.decided != some s.tb.beat.toNat then
      let s := moveDecision (liftDecision s)
      { s with stolon := { s.stolon with candidates := [], newLeader := false, decided := some s.tb.beat.toNat } }
    else s)

end Sys2Proof.Machine
end

