-- ==== Sys2Proof/Machine/Halt.lean ====
section
/-!
DEFINITION. Sys2Proof/Machine/Halt.lean: entry into HALT (R31, R786 to R788, R795).
-/
namespace Sys2Proof.Machine

/-- Causes of HALT (Table 20-6). -/
def haltLockstep : Nat := 0x30
/-- See `haltLockstep`. -/
def haltControlSram : Nat := 0x31
/-- See `haltLockstep`. -/
def haltOverTemp : Nat := 0x32
/-- See `haltLockstep`. -/
def haltNoBridge : Nat := 0x33
/-- See `haltLockstep`. -/
def haltJournal : Nat := 0x34
/-- See `haltLockstep`. -/
def haltSigner : Nat := 0x35
/-- See `haltLockstep`. -/
def haltSequence : Nat := 0x36
/-- See `haltLockstep`. -/
def haltLedgerState : Nat := 0x37
/-- See `haltLockstep`. -/
def haltControlDecode : Nat := 0x38

/-- The signer counts as sound under a cause (R787). -/
def signerSound (cause : Nat) : Bool := cause != haltLockstep && cause != haltControlSram && cause != haltSigner
/-- The journal counts as sound under a cause (R787). -/
def journalSound (cause : Nat) : Bool := cause != haltLockstep && cause != haltControlSram && cause != haltJournal

/-- The open epoch closes early, flagged HALT; its record is signed and journaled where both are sound, and otherwise
not written (R31 steps 1 and 2, R708). -/
def haltEpoch (cause : Nat) (s : State) : State :=
  if !s.led.isOpen then s
  else
    let n := s.led.closed.length
    let s := closeEpoch true false s
    if signerSound cause && journalSound cause then (List.range (n + 1)).foldl (fun s _ => signEpoch s) s
    else (s.led.closed.drop n).foldl (fun s e => keepSummaries e s)
      { s with led := { s.led with closed := s.led.closed.take n, broken := true } }

/-- A command that the device holds will be completed with DEVICE_HOLD (R31 step 3). -/
def holdCmd (c : Cmd) : Cmd :=
  { c with phase := .ended, status := 0x3F, detail := 0, wants := [], held := [], waits := [] }

/-- A core in HALT runs nothing. -/
def haltedCore (K : Core) : Core :=
  { K with mode := .idle, launch := none, item := none, queue := [], saved := none, xfers := [], long := false,
           abort := none, drain := .none }

/-- Commands of reset functions leave without completion; the others, and those fetched and not admitted, are held
(R31 step 3, R563). -/
def holdAll (s : State) : State :=
  let s := (s.cmds.filter (·.phase == .discarded)).foldl (fun s c => retire c none (discardNow c (forgetUpdate c.uid s))) s
  let s := (s.cmds.map (·.uid)).foldl (fun s u => forgetUpdate u s) s
  let s := { s with cmds := s.cmds.map holdCmd, cores := s.cores.map haltedCore, partials := [] }
  (List.range 256).foldl (fun s q =>
    onQ q (fun Q => { Q with fetched := [] }) ((vat s.qs q).fetched.foldl (fun s F => holdFetched q F s) s)) s

/-- Mailbox operations in progress end with HOLD (R828). -/
def holdMbx (F : Func) : Func :=
  if F.mbx.st == .busy && F.mbx.result.isNone then { F with mbx := { F.mbx with result := some (0x0B, []) } } else F

/-- The device enters HALT, from a state with supplies (R31, R786 to R788); on the power-fail path it records the cause only (R795). No event is
raised in HALT, so none goes with this STATE record (R758, R788). -/
def enterHalt (cause : Nat) (s : State) : State :=
  if s.sys.state == .halt || s.sys.state == .cold then s
  else if s.sys.powerFailing then { s with sys := { s.sys with haltCause := BitVec.ofNat 8 cause } }
  else
    let s := haltEpoch cause s
    let old := s.sys.state
    let s := { s with sys := { s.sys with state := .halt, cause := BitVec.ofNat 8 cause, entered := s.tb.beat,
                                          haltCause := BitVec.ofNat 8 cause } }
    let s := if journalSound cause then
        jAdd (.state (stateCode old) (stateCode .halt) cause 0)
          (jAdd (.error (errorBytes s 8 6 { cause := cause } [])) s)
      else s
    let s := holdAll s
    { s with funcs := s.funcs.map holdMbx }

/-- HALT: a fault of the control die itself is found: the two control cores disagree (LOCKSTEP), its SRAM reads
uncorrectably (CONTROL_SRAM), or an access of its own fails decoding (CONTROL_DECODE). The other causes of Table 20-6
arise within other rows. -/
def execHalt (cause : Fin 3) (s : State) : Host.Outcome State Fault Refusal :=
  let code := if cause.val = 0 then haltLockstep else if cause.val = 1 then haltControlSram else haltControlDecode
  .next (if s.sys.state == .cold then s else enterHalt code s)

end Sys2Proof.Machine
end

