-- ==== Sys2Proof/Machine/Window.lean ====
section
/-!
DEFINITION. Sys2Proof/Machine/Window.lean: the tenant window's cache: hits, fills, replacement, prefetch, locking,
carving and maintenance (sections 15.3 to 15.7).
-/
namespace Sys2Proof.Machine

/-! ### The three parts (Table 15-5) -/

/-- Lines of the main array; entries 11,520 to 11,775 are the victim buffer, those from 11,776 the side buffer. -/
def mainLines : Nat := 11520
/-- First entry of the side buffer. -/
def sideFirst : Nat := 11776
/-- Entries in all. -/
def allEntries : Nat := 12288
/-- Bytes of a line. -/
def lineSize : Nat := 512

/-- The entry lies in the main array. -/
def inMain (l : WinLine) : Bool := decide (l.idx < mainLines)

/-- The line of a function at a line address, in any part. -/
def lineAt (s : State) (f da : Nat) : Option WinLine :=
  (vat s.brg (bridgeOf f)).lines.find? fun l => l.func == f && l.carved.isNone && l.da == da

/-- Carved line `i` of a function. -/
def carvedLine (s : State) (f i : Nat) : Option WinLine :=
  (vat s.brg (bridgeOf f)).lines.find? fun l => l.func == f && l.carved == some i

/-- Window traffic is charged to the range class of its address (R612, R614), its energy to the house (R681). -/
def chargeWindow (da n : Nat) (s : State) : State :=
  chargeRanges da n (memActivity .house da n s)

/-- Lines of a bridge replaced by `g`. -/
def onLines (b : Nat) (g : List WinLine → List WinLine) (s : State) : State :=
  onBrg b (fun B => { B with lines := g B.lines }) s

/-- The entry leaves the parts' order lists and the lines. -/
def dropEntry (b idx : Nat) (s : State) : State :=
  onBrg b (fun B => { B with lines := B.lines.filter (·.idx != idx), victims := B.victims.erase idx,
                             side := B.side.erase idx }) s

/-- A dirty line is written back to memory; memory that is offline takes nothing, nor does a poisoned unit (R587,
R651). -/
def writeBack (l : WinLine) (s : State) : State :=
  if !l.dirty then s
  else
    let s := tally (.bridge (bridgeOf l.func)) 0x30B 1 .house (chargeWindow l.da lineSize s)
    if targetOffline s (.tenant l.func) l.da lineSize then s else (daWrite s l.da l.bytes).2

/-- The line at an entry is clean from now on. -/
def markClean (b idx : Nat) (s : State) : State :=
  onLines b (fun ls => ls.map fun l => if l.idx == idx then { l with dirty := false } else l) s

/-- The lowest free entry of a part. -/
def freeEntry (s : State) (b lo n : Nat) : Option Nat :=
  ((List.range n).map (lo + ·)).find? fun i => (vat s.brg b).lines.all (·.idx != i)

/-- A line enters the victim buffer; when that is full its oldest line leaves, written back when dirty (R586). -/
def toVictim (b : Nat) (l : WinLine) (s : State) : State :=
  let put (i : Nat) (s : State) : State :=
    onBrg b (fun B => { B with lines := { l with idx := i } :: B.lines, victims := B.victims ++ [i] }) s
  match freeEntry s b mainLines 256 with
  | some i => put i s
  | none =>
    match (vat s.brg b).victims with
    | [] => s
    | i :: _ =>
      let s := match (vat s.brg b).lines.find? (·.idx == i) with
        | some old => dropEntry b i (writeBack old s)
        | none => dropEntry b i s
      put i s

/-- A main-array entry is made free: a free one, or a victim drawn from those neither locked nor carved (R586). -/
def takeMain (b : Nat) (s : State) : Nat × State :=
  match freeEntry s b 0 mainLines with
  | some i => (i, s)
  | none =>
    let can := (vat s.brg b).lines.filter fun l => inMain l && !l.locked && l.carved.isNone
    let i := (freeAt s).toNat % can.length
    match can[i]? with
    | some l => (l.idx, toVictim b l (dropEntry b l.idx (drew s)))
    | none => (0, s)

/-- A line is put into the main array. -/
def installMain (b : Nat) (l : WinLine) (s : State) : State :=
  let (i, s) := takeMain b s
  onLines b (fun ls => { l with idx := i } :: ls) s

/-- A hit in the victim or side buffer moves the line into the main array (R587). -/
def promote (b : Nat) (l : WinLine) (s : State) : State :=
  if inMain l then tally (.bridge b) 0x306 1 .house s
  else
    let e := if l.idx < sideFirst then 0x308 else 0x309
    installMain b l (dropEntry b l.idx (tally (.bridge b) e 1 .house s))

/-! ### Reads and writes of lines -/

/-- All ones, what a contained or poisoned host read returns (R69, R650). -/
def onesBytes (n : Nat) : List Byte := List.replicate n 0xFF

/-- A read's data goes back to the host, or a write's data goes into the line that is present (R587). -/
def applyHit (a : WinAccess) (s : State) : State :=
  match lineAt s a.func (a.da - a.off) with
  | none => s
  | some l =>
    match a.write with
    | none => emit (.readData (slice l.bytes a.off a.len)) s
    | some bs => onLines (bridgeOf a.func) (fun ls => ls.map fun x =>
        if x.idx == l.idx then { x with bytes := patch x.bytes a.off bs, dirty := true } else x) s

/-- An access goes to memory itself: in bypass, or where a fill would meet poison (R582, R650, R651, log 19). Where its
slice, DIMM or expander has gone offline since it was decoded, a read returns all ones and a write is dropped (R75); where
its buffer has been freed since, it fails as OWNER (R602). -/
def directAccess (a : WinAccess) (s : State) : State :=
  if !ownerAllows s (.tenant a.func) a.da a.len then
    let s := decodeError (.tenant a.func) 7 a.da s
    if a.write.isNone then emit (.readData (onesBytes a.len)) s else s
  else if targetOffline s (.tenant a.func) a.da a.len then
    (if a.write.isNone then emit (.readData (onesBytes a.len)) s else s)
  else
  let s := chargeWindow a.da a.len s
  match a.write with
  | none => emit (.readData (if poisoned s a.da a.len then onesBytes a.len else daRead s a.da a.len)) s
  | some bs => (daWrite s a.da bs).2

/-- An access to a carved line: plain memory, zero where the line is not carved (R591, R869). -/
def carvedAccess (a : WinAccess) (i : Nat) (s : State) : State :=
  match a.write, carvedLine s a.func i with
  | none, some l => emit (.readData (slice l.bytes a.off a.len)) s
  | none, none => emit (.readData (zeros a.len)) s
  | some bs, some l => onLines (bridgeOf a.func) (fun ls => ls.map fun x =>
      if x.idx == l.idx then { x with bytes := patch x.bytes a.off bs } else x) s
  | some _, none => s

/-! ### Prefetch (R589) -/

/-- The watch of a function. -/
def watchOf (s : State) (f : Nat) : PfWatch :=
  ((vat s.brg (bridgeOf f)).watches.find? (·.func == f)).getD { func := f, misses := [], stride := none, ahead := 0 }

/-- The watch of a function is replaced. -/
def setWatch (w : PfWatch) (s : State) : State :=
  onBrg (bridgeOf w.func) (fun B => { B with watches := w :: B.watches.filter (·.func != w.func) }) s

/-- A line may be prefetched: inside the window mapping, in no part, allowed, and free of poison (R589). -/
def mayPrefetch (s : State) (f da : Nat) : Bool :=
  let w := (vat s.funcs f).win
  let span := 2 ^ 28 - lineSize * w.carve
  decide (w.base.toNat ≤ da ∧ da + lineSize ≤ w.base.toNat + span)
    && (lineAt s f da).isNone && decide (1 ≤ da / 2 ^ 52) && decodeKind s (.tenant f) false da lineSize == 0
    && !poisoned s da lineSize

/-- One line is fetched into the side buffer, whose oldest line leaves when it is full (R589, Table 15-5). -/
def prefetchLine (f da : Nat) (s : State) : State :=
  let b := bridgeOf f
  if !mayPrefetch s f da then s
  else
    let s := tally (.bridge b) 0x30A 1 .house (chargeWindow da lineSize s)
    let s := match freeEntry s b sideFirst 512, (vat s.brg b).side with
      | none, i :: _ => dropEntry b i s
      | _, _ => s
    match freeEntry s b sideFirst 512 with
    | none => s
    | some i =>
      let l : WinLine := { idx := i, func := f, da := da, bytes := daRead s da lineSize, dirty := false, locked := false,
                           carved := none }
      onBrg b (fun B => { B with lines := l :: B.lines, side := B.side ++ [i] }) s

/-- Lines ahead of line number `at_` along a stride, up to the depth of the function (R589). -/
def fetchAhead (f at_ : Nat) (d : Int) (s : State) : State :=
  let depth := 2 ^ (vat s.funcs f).pfdepth.toNat
  (List.range depth).foldl (fun s (i : Nat) =>
    let n := (at_ : Int) + d * ((i : Int) + 1)
    if n < 0 then s else prefetchLine f (n.toNat * lineSize) s) s

/-- A run goes on by one line: `line` is its last access, and the line at its depth is fetched (R589). -/
def extendRun (f line : Nat) (d : Int) (s : State) : State :=
  let n := (line : Int) + d * 2 ^ (vat s.funcs f).pfdepth.toNat
  let s := setWatch { watchOf s f with ahead := line } s
  if n < 0 then s else prefetchLine f (n.toNat * lineSize) s

/-- The line is the one that the run of a function predicts next. -/
def predicted (w : PfWatch) (line : Nat) : Bool := w.stride.any fun d => (line : Int) == (w.ahead : Int) + d

/-- A read miss of the main array is watched: three at one stride begin a run, one at the predicted stride goes on with it,
and one off the stride ends it (R589). -/
def watchMiss (f line : Nat) (s : State) : State :=
  if !(vat s.funcs f).pfen then s
  else
    let w := watchOf s f
    let ms := (line :: w.misses).take 3
    if predicted w line then extendRun f line (w.stride.getD 0) (setWatch { w with misses := ms } s)
    else match ms with
    | [a, b, c] =>
      let d := (a : Int) - b
      if d ≠ 0 ∧ d.natAbs ≤ 64 ∧ d = (b : Int) - c then
        fetchAhead f line d (setWatch { w with misses := ms, stride := some d, ahead := line } s)
      else setWatch { w with misses := ms, stride := none } s
    | _ => setWatch { w with misses := ms, stride := none } s

/-- A hit at the predicted stride extends the run by one line (R589). -/
def watchHit (f line : Nat) (s : State) : State :=
  let w := watchOf s f
  if (vat s.funcs f).pfen && predicted w line then extendRun f line (w.stride.getD 0) s else s

/-! ### One access (R587, R588) -/

/-- The window cache of bridge `b` has one line access, for a host and so for the house (Table 19-4, R681). -/
def lineActivity (b : Nat) (s : State) : State := activity .house (306 + 10 * b + 7) 1 s

/-- One access takes its turn: a carved line, memory in bypass, a hit, a whole-line write, or a miss that blocks. -/
def serveAccess (a : WinAccess) (s : State) : State :=
  let b := bridgeOf a.func
  let line := a.da - a.off
  match a.carved with
  | some i => carvedAccess a i (lineActivity b s)
  | none =>
    if !(vat s.funcs a.func).win.cen || !ownerAllows s (.tenant a.func) a.da a.len then directAccess a s
    else match lineAt s a.func line with
    | some l => watchHit a.func (line / lineSize) (applyHit a (promote b l (lineActivity b s)))
    | none =>
      let s := tally (.bridge b) 0x307 1 .house (lineActivity b s)
      if a.write.isSome && a.len == lineSize then
        let l : WinLine := { idx := 0, func := a.func, da := line, bytes := zeros lineSize, dirty := true, locked := false,
                             carved := none }
        applyHit a (installMain b l s)
      else onBrg b (fun B => { B with filling := some a }) s

/-- An access arrives at the bridge: it waits behind a fill in progress (R588). -/
def arriveAccess (a : WinAccess) (s : State) : State :=
  let b := bridgeOf a.func
  if (vat s.brg b).filling.isSome then onBrg b (fun B => { B with waiting := B.waiting ++ [.access a] }) s
  else serveAccess a s

/-- A line is read from memory into the main array. -/
def fillLine (f da : Nat) (s : State) : State :=
  let s := chargeWindow da lineSize s
  installMain (bridgeOf f)
    { idx := 0, func := f, da := da, bytes := daRead s da lineSize, dirty := false, locked := false, carved := none } s

/-! ### Maintenance (sections 15.5 and 15.6) -/

/-- The function's window registers are reached: it is a tenant, in service, after R512's early time. -/
def windowOpen (s : State) (f : Nat) : Bool :=
  decide (f ≠ 0) && linksTraining s && !earlyState s && !funcInReset s f && (vat s.funcs f).pci.en

/-- None of the function's window accesses, nor what waits in order with them, is still held (R592, R583). -/
def windowIdle (s : State) (f : Nat) : Bool :=
  let B := vat s.brg (bridgeOf f)
  B.filling.all (·.func != f) && B.waiting.all (winWaitFunc · != f)

/-- The function's window registers are reached, and an operation that keeps the order of its window accesses acts at once. -/
def windowFree (s : State) (f : Nat) : Bool := windowOpen s f && windowIdle s f

/-- The first failure of a maintenance operation since MERR was cleared (Table 15-9). -/
def maintFail (f code : Nat) (s : State) : State :=
  onFunc f (fun F => { F with mcode := if F.win.merr then F.mcode else BitVec.ofNat 4 code,
                              win := { F.win with merr := true } }) s

/-- A function's count of locked lines, taken anew. -/
def countLocked (f : Nat) (s : State) : State :=
  let n := ((vat s.brg (bridgeOf f)).lines.filter fun l => l.func == f && l.locked).length
  onFunc f (fun F => { F with win := { F.win with locked := n } }) s

/-- One operation on one line that is present (Table 15-8). -/
def maintLine (op : Nat) (l : WinLine) (s : State) : State :=
  let b := bridgeOf l.func
  if op = 1 then markClean b l.idx (writeBack l s)
  else if op = 2 then countLocked l.func (dropEntry b l.idx s)
  else if op = 3 then countLocked l.func (dropEntry b l.idx (writeBack l s))
  else if op = 5 then
    countLocked l.func (onLines b (fun ls => ls.map fun x => if x.idx == l.idx then { x with locked := false } else x) s)
  else s

/-- The address of WIN_MADDR names something, and Table 2-7 does not deny it to the function (R592); whether it is offline does
not matter. -/
def maintAddrOk (s : State) (f da : Nat) : Bool :=
  [0, 9].contains (decodeKind s (.tenant f) false (da / 4 * 4) 4)

/-- A line can be filled from there: device memory that is not offline. -/
def lockable (s : State) (f da : Nat) : Bool := decide (1 ≤ da / 2 ^ 52) && decodeKind s (.tenant f) false da 1 == 0

/-- CLEAN, INVAL, CLEAN_INVAL or UNLOCK of the line that the value `m` of WIN_MADDR names (R592). -/
def maintOp (f op : Nat) (byEntry : Bool) (m : Nat) (s : State) : State :=
  if byEntry then
    match (vat s.brg (bridgeOf f)).lines.find? fun l => l.idx == m % 2 ^ 14 && l.func == f && l.carved.isNone with
    | some l => maintLine op l s
    | none => s
  else if !maintAddrOk s f m then maintFail f 2 s
  else match lineAt s f (m / lineSize * lineSize) with
    | some l => maintLine op l s
    | none => s

/-- LOCK of the line that the value `m` of WIN_MADDR names (R590, R592). -/
def lockOp (f : Nat) (byEntry : Bool) (m : Nat) (s : State) : State :=
  let da := m / lineSize * lineSize
  let b := bridgeOf f
  let setLock (s : State) : State :=
    countLocked f (onLines b (fun ls => ls.map fun l =>
      if l.func == f && l.carved.isNone && l.da == da then { l with locked := true } else l) s)
  if byEntry then maintFail f 3 s
  else if !lockable s f m then maintFail f 2 s
  else match lineAt s f da with
    | some l =>
      if l.locked then s
      else if 64 ≤ (vat s.funcs f).win.locked then maintFail f 1 s
      else setLock (promote b l s)
    | none =>
      if 64 ≤ (vat s.funcs f).win.locked then maintFail f 1 s
      else if poisoned s da lineSize then maintFail f 2 s
      else setLock (fillLine f da s)

/-- A write of WIN_MOP takes its turn, with its OP and what WIN_MADDR held; a reserved OP fails with BAD_OP (R592). -/
def mopTurn (f op : Nat) (byEntry : Bool) (m : Nat) (s : State) : State :=
  if op = 4 then lockOp f byEntry m s
  else if 1 ≤ op ∧ op ≤ 5 then maintOp f op byEntry m s
  else maintFail f 3 s

/-- A write of WIN_MOP: it waits behind the function's window accesses that are still held (R592). -/
def winMop (f op : Nat) (byEntry : Bool) (s : State) : State :=
  let m := (vat s.funcs f).win.maddr.toNat
  if windowIdle s f then mopTurn f op byEntry m s
  else onBrg (bridgeOf f) (fun B => { B with waiting := B.waiting ++ [.mop f op byEntry m] }) s

/-- WIN_CLEAN by function `f` (R592). -/
def execWinClean (f : Fin 64) (byEntry : Bool) (s : State) : Host.Outcome State Fault Refusal :=
  .next (if windowOpen s f.val then winMop f.val 1 byEntry s else s)

/-- WIN_INVAL by function `f` (R592). -/
def execWinInval (f : Fin 64) (byEntry : Bool) (s : State) : Host.Outcome State Fault Refusal :=
  .next (if windowOpen s f.val then winMop f.val 2 byEntry s else s)

/-- WIN_CLEAN_INVAL by function `f` (R592). -/
def execWinCleanInval (f : Fin 64) (byEntry : Bool) (s : State) : Host.Outcome State Fault Refusal :=
  .next (if windowOpen s f.val then winMop f.val 3 byEntry s else s)

/-- WIN_LOCK by function `f` (R590). -/
def execWinLock (f : Fin 64) (byEntry : Bool) (s : State) : Host.Outcome State Fault Refusal :=
  .next (if windowOpen s f.val then winMop f.val 4 byEntry s else s)

/-- WIN_UNLOCK by function `f` (R592). -/
def execWinUnlock (f : Fin 64) (byEntry : Bool) (s : State) : Host.Outcome State Fault Refusal :=
  .next (if windowOpen s f.val then winMop f.val 5 byEntry s else s)

/-- A read of `n` bytes of WIN_SYNC takes its turn: the function's dirty lines in the main array and the victim buffer are
written back, and the read returns zero (R583). -/
def syncTurn (f n : Nat) (s : State) : State :=
  let b := bridgeOf f
  let ls := (vat s.brg b).lines.filter fun l => l.func == f && l.dirty
  emit (.readData (zeros n)) (ls.foldl (fun s l => markClean b l.idx (writeBack l s)) s)

/-- A read of WIN_SYNC: it completes after the window writes that arrived before it (R583). -/
def winSync (f n : Nat) (s : State) : State :=
  if windowIdle s f then syncTurn f n s
  else onBrg (bridgeOf f) (fun B => { B with waiting := B.waiting ++ [.sync f n] }) s

/-- WIN_SYNC read by function `f`. -/
def execWinSync (f : Fin 64) (s : State) : Host.Outcome State Fault Refusal :=
  .next (if windowOpen s f.val then winSync f.val 8 s else s)

/-! ### The end of a fill (R587, R588) -/

/-- What waits behind a fill takes its turn: it waits on behind the next miss (R588, R592, R583). -/
def waitTurn (b : Nat) (s : State) (x : WinWait) : State :=
  if (vat s.brg b).filling.isSome then onBrg b (fun B => { B with waiting := B.waiting ++ [x] }) s
  else match x with
  | .access a => serveAccess a s
  | .mop f op byEntry m => mopTurn f op byEntry m s
  | .sync f n => syncTurn f n s

/-- What is held proceeds in arrival order up to the next miss (R588). -/
def serveWaiting (b : Nat) (s : State) : State :=
  (vat s.brg b).waiting.foldl (waitTurn b) (onBrg b (fun B => { B with waiting := [] }) s)

/-- The fill that blocks bridge `b` ends (R587, R588); a line with poison in it is not kept (log 19). -/
def fillDone (b : Nat) (a : WinAccess) (s : State) : State :=
  let line := a.da - a.off
  let s := onBrg b (fun B => { B with filling := none }) s
  let s :=
    if poisoned s line lineSize || targetOffline s (.tenant a.func) line lineSize || !ownerAllows s (.tenant a.func) a.da a.len
    then directAccess a s
    else
      let s := applyHit a (fillLine a.func line s)
      if a.write.isNone then watchMiss a.func (line / lineSize) s else s
  serveWaiting b s

/-- WINDOW_FILL_DONE on bridge `b`. -/
def execWindowFillDone (b : Fin 2) (s : State) : Host.Outcome State Fault Refusal :=
  .next (match (vat s.brg b.val).filling with
    | some a => fillDone b.val a s
    | none => s)

/-! ### Range operations (R593) -/

/-- A code that Table 15-8 lists as reserved. -/
def reservedMop (op : Nat) : Bool := op == 0 || decide (5 < op)

/-- WIN_RCTL takes OP, IEN and VEC of a written value; a reserved OP leaves that field as it is and is counted (R13, R14). -/
def storeRctl (f v : Nat) (s : State) : State :=
  let old := bits (vat s.funcs f).win.rctl.toNat 0 3
  let bad := reservedMop (bits v 0 3)
  let op := if bad then old else bits v 0 3
  let s := onFunc f (fun F => { F with win := { F.win with rctl := BitVec.ofNat 64 (op + put (bits v 3 12) 3 12) } }) s
  if bad then countPage f s else s

/-- GO of WIN_RCTL with the value written: the operation of the register is queued, or fails. LOCK, UNLOCK and the OP 0 of
reset are no range operations and fail with BAD_OP as in WIN_MOP (DEDUCED, log 22). -/
def rangeGo (f v : Nat) (s : State) : State :=
  let w := (vat s.funcs f).win
  let s := storeRctl f v s
  let op := bits (vat s.funcs f).win.rctl.toNat 0 3
  if w.rbusy then maintFail f 4 s
  else if op = 0 ∨ 3 < op then maintFail f 3 s
  else
    let r : RangeOp := { func := f, op := op, base := w.rbase.toNat, len := w.rlen.toNat,
                         vec := if bit v 3 then some (bits v 4 11) else none }
    onBrg (bridgeOf f) (fun B => { B with ranges := B.ranges ++ [r] })
      (onFunc f (fun F => { F with win := { F.win with rbusy := true } }) s)

/-- The write `v` of WIN_RCTL asks for operation `op`. -/
def rangeWrite (op : Nat) (f : Nat) (v : Nat) (s : State) : State :=
  if windowOpen s f && bit v 15 && bits v 0 3 == op then rangeGo f v s else s

/-- RANGE_CLEAN by function `f`, `v` being the value written to WIN_RCTL (R593). -/
def execRangeClean (f : Fin 64) (v : BitVec 64) (s : State) : Host.Outcome State Fault Refusal :=
  .next (rangeWrite 1 f.val v.toNat s)

/-- RANGE_INVAL (R593). -/
def execRangeInval (f : Fin 64) (v : BitVec 64) (s : State) : Host.Outcome State Fault Refusal :=
  .next (rangeWrite 2 f.val v.toNat s)

/-- RANGE_CLEAN_INVAL (R593). -/
def execRangeCleanInval (f : Fin 64) (v : BitVec 64) (s : State) : Host.Outcome State Fault Refusal :=
  .next (rangeWrite 3 f.val v.toNat s)

/-- The range engine ends an operation: OP on each line of the function in the range, then RDONE (R593, R606). -/
def rangeDone (b : Nat) (r : RangeOp) (s : State) : State :=
  let ls := (vat s.brg b).lines.filter fun l =>
    l.func == r.func && l.carved.isNone && rangesMeet l.da lineSize r.base r.len
  let s := ls.foldl (fun s l => maintLine r.op l s) s
  let s := onBrg b (fun B => { B with ranges := B.ranges.drop 1 }) s
  let s := onFunc r.func (fun F => { F with win := { F.win with rbusy := false, rdone := true } }) s
  match r.vec with
  | some v => raiseMsix r.func v s
  | none => s

/-- RANGE_OP_DONE on bridge `b`. -/
def execRangeOpDone (b : Fin 2) (s : State) : Host.Outcome State Fault Refusal :=
  .next (match (vat s.brg b.val).ranges with
    | r :: _ => rangeDone b.val r s
    | [] => s)

/-! ### Carving and CEN (R591, R594, R595) -/

/-- Carved line `i` is taken, zeroed, out of the main array; the line it replaces is written back when dirty and goes to the
victim buffer (R586, R591). -/
def takeCarved (f i : Nat) (s : State) : State :=
  let b := bridgeOf f
  let zero (idx : Nat) : WinLine :=
    { idx := idx, func := f, da := 0, bytes := zeros lineSize, dirty := false, locked := false, carved := some i }
  match freeEntry s b 0 mainLines with
  | some idx => onLines b (fun ls => zero idx :: ls) s
  | none =>
    let can := (vat s.brg b).lines.filter fun l => inMain l && !l.locked && l.carved.isNone
    match can[(freeAt s).toNat % can.length]? with
    | some l => onLines b (fun ls => zero l.idx :: ls)
        (toVictim b { l with dirty := false } (dropEntry b l.idx (writeBack l (drew s))))
    | none => s

/-- WIN_CTL.CARVE goes from its value to `c`. -/
def setCarve (f c : Nat) (s : State) : State :=
  let old := (vat s.funcs f).win.carve
  let s := onFunc f (fun F => { F with win := { F.win with carve := c, carved := c } }) s
  if old < c then ((List.range (c - old)).map (old + ·)).foldl (fun s i => takeCarved f i s) s
  else onLines (bridgeOf f) (fun ls => ls.filter fun l =>
    !(l.func == f && (match l.carved with | some i => decide (c ≤ i) | none => false))) s

/-- A write of CARVE: above 256 it leaves the field unchanged and is counted (Table 15-7). -/
def carveWrite (f c : Nat) (s : State) : State := if 256 < c then countPage f s else setCarve f c s

/-- WIN_CARVE_WRITE of the 9-bit value `c` by function `f` (R591). -/
def execWinCarveWrite (f : Fin 64) (c : BitVec 9) (s : State) : Host.Outcome State Fault Refusal :=
  .next (if windowOpen s f.val then carveWrite f.val c.toNat s else s)

/-- WIN_CTL.CEN takes a value; the function's lines stay as they are (R594, R595). -/
def setCen (f : Nat) (v : Bool) (s : State) : State :=
  onFunc f (fun F => { F with win := { F.win with cen := v } }) s

/-- WIN_CACHE_DISABLE by function `f`. -/
def execWinCacheDisable (f : Fin 64) (s : State) : Host.Outcome State Fault Refusal :=
  .next (if windowOpen s f.val then setCen f.val false s else s)

/-- WIN_CACHE_ENABLE by function `f`. -/
def execWinCacheEnable (f : Fin 64) (s : State) : Host.Outcome State Fault Refusal :=
  .next (if windowOpen s f.val then setCen f.val true s else s)

/-- Every line, lock and carved line of a function goes without a write-back, with its accesses and range operations
(R603, R514 step 7). -/
def dropWindow (f : Nat) (s : State) : State :=
  let b := bridgeOf f
  let idxs := ((vat s.brg b).lines.filter (·.func == f)).map (·.idx)
  let s := onBrg b (fun B =>
    { B with lines := B.lines.filter (·.func != f), victims := B.victims.filter fun i => !idxs.contains i,
             side := B.side.filter fun i => !idxs.contains i, filling := B.filling.filter (·.func != f),
             waiting := B.waiting.filter (winWaitFunc · != f), watches := B.watches.filter (·.func != f),
             ranges := B.ranges.filter (·.func != f) }) s
  serveWaiting b s

end Sys2Proof.Machine
end

