-- ==== Sys2Proof/Machine/Ports.lean ====
section
/-!
DEFINITION. Sys2Proof/Machine/Ports.lean: host and peer ports, function resets, ORPHAN_HOLD (chapter 13).
-/
namespace Sys2Proof.Machine

/-- Functions of host port `p` that exist and are not absent (R503, R504). -/
def portFuncs (s : State) (p : Nat) : List Nat :=
  ((List.range 16).map (16 * p + ·)).filter fun f => (vat s.funcs f).pci.en && !funcAbsent s f

/-- No HOST port is up (R517). -/
def noHostUp (s : State) : Bool := (List.range 4).all fun p => !(portMode s p == .host && portUp s p)

/-- The 10 s count of R517 starts when no HOST port is up, and ends when one is. -/
def watchOrphan (s : State) : State :=
  { s with orphanSince := if noHostUp s then (match s.orphanSince with | some t => some t | none => some (clkOf s)) else none }

/-- The power domain of port index `p` (Table 19-4). -/
def portDomain (p : Nat) : Nat := if p < 4 then 306 + 10 * (p / 2) + p % 2 else 308 + 10 * ((p - 4) / 2) + p % 2

/-- Port `p` may come up: it trains from TRAIN on, its bridge is live, and its domain came good (R119, R515, R725). -/
def mayTrain (s : State) (p : Nat) : Bool :=
  let b := if p < 4 then p / 2 else (p - 4) / 2
  linksTraining s && !(vat s.brg b).offline && !(vat s.pmc.domains (portDomain p)).bad

/-! ### Function reset (R514) -/

/-- The command is an update or a load that has passed its checks and has not ended (R299, R572). -/
def runsThroughReset (c : Cmd) : Bool :=
  (isUpdate c || isLoad c) && c.checked && c.phase != .ended

/-- One admitted command of a reset function (R514 steps 3 and 4): an update past its checks runs on, a kernel is
aborted, any other command is discarded. -/
def resetCmd (s : State) (u : Nat) : State :=
  match cmdOf s u with
  | none => s
  | some c =>
    let left := leavePreLoss u none (onCmd u (fun c => { c with phase := .discarded }) s)
    if runsThroughReset c then houseNow u left
    else if opcodeOf c.bytes = 0x60 ∧ 0 < c.cores then abortLaunch u 0x21 (houseNow u left)
    else retire c none (discardNow c (forgetUpdate u s))

/-- The queue pairs of a function stop, their recorded doorbells and fetched commands discarded (R514 step 2). -/
def resetQueues (f : Nat) (s : State) : State :=
  ((List.range 256).filter fun q => (vat s.qs q).func == some f).foldl (fun s q =>
    onQ q (fun Q => { Q with en := false, tail := 0, head := 0, stopped := false }) (dropFetched q s)) s

/-- ON_LOSS: tables and KV tables of the functions with RELEASE are released by runtime changes, in ascending table ID
(R209, R374, R831). -/
def applyOnLoss (fs : List Nat) (s : State) : State :=
  let ids := sortBy (fun a b => a < b) (((s.cfg.cur.tables.filter fun t => fs.contains t.owner && t.releaseOnLoss).map (·.id))
    ++ ((s.cfg.cur.kvs.filter fun t => fs.contains t.owner && t.releaseOnLoss).map (·.id)))
  let due := ids.filter fun i => !(s.cfg.changes.any fun c => c.kind == .tableRelease i)
    && !s.mg.changeQueue.contains (.own (.tableRelease i))
  due.foldl (fun s i => ownChange (.tableRelease i) s) s

/-- PCI configuration after a reset: what the image and the steward fix stays, with the sticky registers of AER and, unless
the port itself was reset, the payload size (log 75). -/
def pciAfter (port : Bool) (p : PciCfg) : PciCfg :=
  { resetPci with en := p.en, vectors := p.vectors, disabled := p.disabled, mps := if port then 0 else p.mps,
                  aerStat := p.aerStat, aerMask := p.aerMask, aerSev := p.aerSev }

/-! ### Mailbox operations in progress (R519) -/

/-- The mailbox of a function. -/
def mbxOf (s : State) (f : Nat) : Mailbox := (vat s.funcs f).mbx

/-- The inline input: the first LEN bytes of MBX_DATA. -/
def mbxInput (M : Mailbox) : List Byte := fitTo M.data M.len.toNat

/-- A ring descriptor: ADDR, ENTRIES, VECTOR and UNREGISTER. -/
structure RingDesc where
  addr : Nat
  entries : Nat
  vector : Nat
  unregister : Bool
  deriving DecidableEq, Repr

/-- The descriptor of an input (R833). -/
def ringDesc (inp : List Byte) : RingDesc :=
  { addr := numAt inp 0 8, entries := numAt inp 8 4, vector := numAt inp 12 2, unregister := bit (numAt inp 14 2) 0 }

/-- A power of two between two others. -/
def powerIn (lo hi n : Nat) : Bool := (List.range 16).any fun i => n == 2 ^ i && decide (lo ≤ n ∧ n ≤ hi)

/-- The descriptor meets the rule of its ring's chapter. -/
def ringOk (s : State) (f op : Nat) (d : RingDesc) : Bool :=
  d.unregister || (decide (d.addr % 4096 = 0) && decide (d.vector < (vat s.funcs f).pci.vectors)
    && if op = 0x61 then powerIn 4 1024 d.entries else powerIn 64 32768 d.entries)

/-- A ring once its registration completes: HEAD and PHASE start afresh. -/
def registerRing (d : RingDesc) (r : RingCtl) : RingCtl :=
  if d.unregister then { r with en := false }
  else { r with en := true, head := 0, addr := BitVec.ofNat 64 d.addr, entries := d.entries, vector := d.vector, tail := 0,
                phase := true }

/-- The ring of an operation is replaced or taken away. -/
def setRing (f op : Nat) (d : RingDesc) (s : State) : State :=
  match op with
  | 0x60 => { s with jr := { s.jr with evt := registerRing d s.jr.evt } }
  | 0x61 => { s with cnt := { s.cnt with dump := registerRing d s.cnt.dump } }
  | 0x62 => { s with cnt := { s.cnt with pip := registerRing d s.cnt.pip } }
  | _ => onFunc f (fun F => { F with kvn := registerRing d F.kvn }) (loseNotices f s)

/-- The mailbox operation of function `f` that is in progress at its reset runs to its end without a mailbox: a change that
waits for its turn or its bytes, staged bytes still to come, a registration of one of the device's rings (R519). -/
def leaveMailbox (f : Nat) (s : State) : State :=
  let M := mbxOf s f
  let op := M.op.toNat
  let s := { s with mg := { s.mg with changeQueue := s.mg.changeQueue.map fun q => if q = .mailbox f then .left f M else q } }
  if M.st != .busy then s
  else if op = 0x30 ∧ M.want.isSome then { s with mg := { s.mg with left := s.mg.left ++ [(f, M)] } }
  else if 0x60 ≤ op ∧ op ≤ 0x62 ∧ M.result.map (·.1) = some 0 then setRing f op (ringDesc (mbxInput M)) s
  else s

/-! ### The reset of a function -/

/-- Function `f` is reset with a trigger of Table 20-2 (R514): the part that happens at once, but for ON_LOSS. -/
def funcStops (trigger : Nat) (s : State) (f : Nat) : State :=
  let s := onFunc f (fun F => { F with resetting := true, pci := pciAfter (decide (trigger ≤ 1)) F.pci, pba := [], invals := [] }) s
  let s := { s with led := { s.led with resets := s.led.resets ||| (1 <<< f) } }
  let s := resetQueues f s
  let s := ((s.cmds.filter (·.func == f)).map (·.uid)).foldl resetCmd s
  let s := dropWindow f (loseNotices f s)
  let s := onFunc f (fun F => { F with kvn := { F.kvn with en := false }, win := resetWin, mbx := resetMbx })
    (leaveMailbox f s)
  let s := { s with cfg := { s.cfg with changes := s.cfg.changes.map fun c =>
                      if c.origin == some f then { c with origin := none } else c } }
  let s := if f = 0 then { s with sys := { s.sys with bar2 := 30 } } else s
  raiseEvent evFuncReset (source (pageDie f) (pageBlock f)) (f + 256 * trigger) s

/-- Several functions are reset together, in ascending order (R522). -/
def resetFuncs (fs : List Nat) (trigger : Nat) (s : State) : State := applyOnLoss fs (fs.foldl (funcStops trigger) s)

/-- One function is reset. A PF's VF Enable goes to 0 with it, which resets its VFs (R513). -/
def funcReset (trigger : Nat) (s : State) (f : Nat) : State :=
  let vfs := if f % 16 = 0 then (portFuncs s (portOf f)).filter (· != f) else []
  let s := resetFuncs [f] trigger s
  if vfs.isEmpty then s else resetFuncs vfs 3 s

/-- The peer function of port `p` is reset, with its port or alone (R495, R513). -/
def peerReset (port : Bool) (p : Nat) (s : State) : State :=
  { s with ports := vupd s.ports p fun P => { P with peer := pciAfter port P.peer } }

/-- The registers of function `f` after its reset (R514 step 7, R686, R797, R852). -/
def funcAfterReset (F : Func) : Func :=
  { resetFunc with pci := F.pci, seq := F.seq, cnt := F.cnt, cntPerm := F.cntPerm }

/-- FUNC_RESET_COMPLETE of function `f`: no command of it remains (R299, R514). -/
def execFuncResetComplete (f : Fin 64) (s : State) : Host.Outcome State Fault Refusal :=
  let F := vat s.funcs f.val
  .next (if F.resetting && s.cmds.all (·.func != f.val) then
      let s := reclaimBuffers f.val s
      let s := onFunc f.val funcAfterReset s
      let s := { s with qs := s.qs.map fun Q =>
          if Q.func == some f.val then
            { resetQueue with func := Q.func, reserve := Q.reserve, maxf := Q.maxf }
          else Q }
      if f.val = 0 then releaseEvents s else s
    else s)

/-- FUNDAMENTAL_RESET (PERST# or hot reset) of port `p`: every function of the port is reset, on a peer port its peer
function (R495, R513). -/
def execFundamentalReset (p : Fin 8) (s : State) : Host.Outcome State Fault Refusal :=
  .next (if !linksTraining s then s
    else if portMode s p.val == .host then resetFuncs (portFuncs s p.val) 0 s
    else if portMode s p.val == .peer then peerReset true p.val s
    else s)

/-- FLR of function `f`: a PF's VFs are reset with it (R513, R522); 64 to 67 are the peer functions of ports 4 to 7. -/
def execFlr (f : Fin 68) (s : State) : Host.Outcome State Fault Refusal :=
  .next (if 64 ≤ f.val then
      (if linksTraining s && portMode s (f.val - 60) == .peer then peerReset false (f.val - 60) s else s)
    else if !linksTraining s || funcAbsent s f.val || !(vat s.funcs f.val).pci.en then s
    else if f.val % 16 = 0 then
      resetFuncs (f.val :: (portFuncs s (portOf f.val)).drop 1) 2 s
    else funcReset 4 s f.val)

/-- VF_ENABLE_CLEAR on the PF of host port `p` (R513). -/
def execVfEnableClear (p : Fin 4) (s : State) : Host.Outcome State Fault Refusal :=
  let f := 16 * p.val
  let vfs := (portFuncs s p.val).filter (· != f)
  .next (if linksTraining s && (vat s.funcs f).pci.vfEnable then
      resetFuncs vfs 3 (onFunc f (fun F => { F with pci := { F.pci with vfEnable := false } }) s)
    else s)

/-- NUMVFS_LOWERED to `n` on the PF of host port `p` (R513). -/
def execNumvfsLowered (p : Fin 4) (n : Fin 16) (s : State) : Host.Outcome State Fault Refusal :=
  let f := 16 * p.val
  let vfs := (portFuncs s p.val).filter fun g => decide (f + n.val < g)
  .next (if linksTraining s && decide (n.val < (vat s.funcs f).pci.numVfs) then
      resetFuncs vfs 5 (onFunc f (fun F => { F with pci := { F.pci with numVfs := n.val } }) s)
    else s)

/-- D3HOT_TO_D0 of function `f` (R513); 64 to 67 are the peer functions of ports 4 to 7. -/
def execD3hotToD0 (f : Fin 68) (s : State) : Host.Outcome State Fault Refusal :=
  .next (if 64 ≤ f.val then
      (if (vat s.ports (f.val - 60)).peer.d3hot && portMode s (f.val - 60) == .peer then peerReset false (f.val - 60) s else s)
    else if (vat s.funcs f.val).pci.d3hot then funcReset 6 s f.val else s)

/-! ### Configuration (R500, R501, R504, R508, R512) -/

/-- Enabled VFs of a PF: TotalVFs (R504). -/
def totalVfs (s : State) (f : Nat) : Nat :=
  ((List.range 15).filter fun v => (vat s.funcs (f + 1 + v)).pci.en).length

/-- Kinds of functions (Tables 13-2, 13-4 and 13-5). -/
inductive FuncKind where
  | pf | vf | peer
  deriving DecidableEq, Repr

/-- The kind of a function; 64 to 67 are the peer functions of ports 4 to 7. -/
def funcKind (f : Nat) : FuncKind := if 64 ≤ f then .peer else if f % 16 = 0 then .pf else .vf

/-- What a configuration read of a function's identity returns (Table 13-4). -/
def configIdentity (f : Nat) : Nat :=
  0x1E71 + 65536 * (match funcKind f with | .pf => 0x0E17 | .vf => 0x0E18 | .peer => 0x0E19)

/-- log2 of the size of a port's landing aperture: the smallest power of two, at least 64 KiB, that holds the port's zones;
none when the port has none (R505). -/
def apertureLog (s : State) (p : Nat) : Option Nat :=
  let zs := s.image.zones.filter (·.port == p)
  let top : Nat := (zs.map fun z => z.apOff + z.size).foldl max 0
  if zs.isEmpty then none else (List.range 64).find? fun (n : Nat) => decide (16 ≤ n ∧ top ≤ 2 ^ n)

/-- log2 of the size of BAR0, BAR2 or BAR4 of a function; none where Table 13-5 leaves it empty. The BARs of VFs are in their
PF's SR-IOV capability. -/
def barLog (s : State) (f i : Nat) : Option Nat :=
  match funcKind f, i with
  | .pf, 0 => some (if f = 0 then 29 else 16)
  | .pf, 1 => some (if f = 0 then s.sys.bar2 else 28)
  | .pf, _ => apertureLog s (portOf f)
  | .peer, 0 => some 16
  | .peer, 1 => apertureLog s (f - 60)
  | _, _ => none

/-- log2 of the size of VF BAR0 or VF BAR2 (Table 13-5). -/
def vfBarLog (i : Nat) : Nat := if i = 0 then 16 else 28

/-- A base address takes the bits above the size of its BAR. -/
def barBase (v : BitVec 64) (n : Nat) : BitVec 64 := (v >>> n) <<< n

/-- A BAR as it reads: 64-bit, BAR2 prefetchable, an empty one zero (R505; the bits PRESUMED, log 138). -/
def barWord (v : BitVec 64) (n : Option Nat) (i : Nat) : Nat :=
  match n with
  | some n => (barBase v n).toNat + 4 + (if i = 1 then 8 else 0)
  | none => 0

/-- Identifiers of the capabilities that a function presents (Table 13-2; the numbers PRESUMED, log 138): power management,
PCI Express, MSI-X; AER, ACS, ARI, ATS, SR-IOV, Resizable BAR, PASID. -/
def capabilityIds (f : Nat) : List Nat :=
  match funcKind f with
  | .pf => [0x01, 0x10, 0x11, 0x01, 0x0D, 0x0E, 0x0F, 0x10] ++ (if f = 0 then [0x15] else []) ++ [0x1B]
  | .vf => [0x01, 0x10, 0x11, 0x01, 0x0E, 0x0F]
  | .peer => [0x01, 0x10, 0x01]

/-- Code of a rate in Link Status (PRESUMED, log 138). -/
def rateCode (r : Nat) : Nat := if r = 64 then 6 else if r = 32 then 5 else if r = 16 then 4 else 0

/-- The PCI configuration of a function, a peer function's included. -/
def pciOf (s : State) (f : Nat) : PciCfg := if 64 ≤ f then (vat s.ports (f - 60)).peer else (vat s.funcs f).pci

/-- The port of a function, a peer function's included. -/
def funcPort (f : Nat) : Nat := if 64 ≤ f then f - 60 else portOf f

/-- What a configuration read returns (R497, R498, R502, R504, R505, R509; field places PRESUMED, log 138). For the steward
the MSI-X offsets are within its own register page. -/
def configRead (s : State) (f : Nat) (r : ConfigReg) : List Byte :=
  let p := pciOf s f
  let P := vat s.ports (funcPort f)
  let page := if f = 0 then 0x11400000 else 0
  match r with
  | .capabilities => (capabilityIds f).flatMap (leBytes 2)
  | .device => leBytes 4 (2 + flag true 28) ++ leBytes 4 (p.errRep.toNat + flag p.roEn 4 + put p.mps 5 3 + put p.mrrs 12 3)
  | .device2 =>
    leBytes 4 (0x1F + flag true 16 + flag true 17)
      ++ leBytes 4 (p.ctoRange + flag p.ctoOff 4 + flag p.idoEn 8 + flag p.idoEn 9 + flag p.tag10 12)
  | .link => leBytes 4 (rateCode P.rate + put P.width 4 6)
  | .bar i => leBytes 8 (barWord (vat p.bars i.val) (barLog s f i.val) i.val)
  | .totalVfs => if funcKind f = .pf then leBytes 2 (totalVfs s f) ++ leBytes 2 (totalVfs s f) else zeros 4
  | .vfs => if funcKind f = .pf then leBytes 2 p.numVfs ++ leBytes 2 1 ++ leBytes 2 1 ++ leBytes 2 0x0E18 else zeros 8
  | .vfBar i => leBytes 8 (if funcKind f = .pf then barWord (vat p.vfBars i.val) (some (vfBarLog i.val)) i.val else 0)
  | .msix =>
    if funcKind f = .peer then zeros 12
    else leBytes 4 (put (p.vectors - 1) 16 11 + flag p.funcMask 30 + flag p.msixEn 31) ++ leBytes 4 (page + 0x8000)
      ++ leBytes 4 (page + 0x7000)
  | .aer => leBytes 4 p.aerStat.toNat ++ leBytes 4 p.aerMask.toNat ++ leBytes 4 p.aerSev.toNat
  | .acs => leBytes 2 (if funcKind f = .pf then p.acs.toNat else 0)
  | .ats => leBytes 2 (flag p.atsEn 0 + flag p.pasidEn 1)

/-- What a configuration write leaves of a function's registers. A feature that Table 13-2 does not give the function takes
nothing, and a size beyond its range neither (DESIGN CHOICE, log 138). -/
def pciWrite (s : State) (f : Nat) (r : ConfigReq) (p : PciCfg) : PciCfg :=
  let pf := decide (funcKind f = .pf)
  let host := decide (funcKind f ≠ .peer)
  match r with
  | .memorySpace on => { p with mse := on }
  | .vfEnable => if pf then { p with vfEnable := true } else p
  | .numVfs n => if pf && decide (p.numVfs ≤ n.val) && decide (n.val ≤ totalVfs s f) then { p with numVfs := n.val } else p
  | .pasidEnable on => if pf then { p with pasidEn := on } else p
  | .atsEnable on => if host then { p with atsEn := on } else p
  | .msixEnable on => if host then { p with msixEn := on } else p
  | .functionMask on => if host then { p with funcMask := on } else p
  | .toD3hot => { p with d3hot := true }
  | .maxPayload n => if n.val ≤ 2 then { p with mps := n.val } else p
  | .maxReadRequest n => if n.val ≤ 5 then { p with mrrs := n.val } else p
  | .relaxedOrdering on => { p with roEn := on }
  | .idOrdering on => { p with idoEn := on }
  | .tenBitTags on => { p with tag10 := on }
  | .completionTimeout range off => { p with ctoRange := range.val, ctoOff := off }
  | .errorReporting v => { p with errRep := v }
  | .aerClear v => { p with aerStat := p.aerStat &&& ~~~v }
  | .aerMask v => { p with aerMask := v }
  | .aerSeverity v => { p with aerSev := v }
  | .acsControl v => if pf then { p with acs := v } else p
  | .bar i v => match barLog s f i.val with
    | some n => { p with bars := vupd p.bars i.val fun _ => barBase v n }
    | none => p
  | .vfBar i v => if pf then { p with vfBars := vupd p.vfBars i.val fun _ => barBase v (vfBarLog i.val) } else p
  | .captureBus _ => p
  | .readIdentity => p
  | .readClass => p
  | .read _ => p

/-- A configuration request to function `f`: a read answers, and a write acts on the function's registers or, for the bus
number, on its port (R500 to R505, R509, R512). -/
def configWrite (f : Nat) (r : ConfigReq) (s : State) : State :=
  match r with
  | .readIdentity => emit (.readData (leBytes 4 (configIdentity f))) s
  | .readClass => emit (.readData (leBytes 4 (s.sys.stepping.toNat + 256 * 0x120000))) s
  | .read x => emit (.readData (configRead s f x)) s
  | .captureBus bus => { s with ports := vupd s.ports (funcPort f) fun P => { P with bus := bus } }
  | _ =>
    if 64 ≤ f then { s with ports := vupd s.ports (f - 60) fun P => { P with peer := pciWrite s f r P.peer } }
    else onFunc f (fun F => { F with pci := pciWrite s f r F.pci }) s

/-- The vectors pending of a function that has become unmasked go out (R510). -/
def sendPending (f : Nat) (s : State) : State :=
  let F := vat s.funcs f
  if !F.pci.msixEn || F.pci.funcMask then s
  else
    let due := (F.pba.filter fun v => !bit (msixEntry F v).ctl.toNat 0).reverse
    let s := onFunc f (fun F => { F with pba := F.pba.filter fun v => !due.contains v }) s
    due.foldl (fun s v => raiseMsix f v s) s

/-- CONFIGURATION_REQUEST to function `f` (R512); an absent function answers nothing. 64 to 67 are the peer functions of
ports 4 to 7. -/
def execConfigurationRequest (f : Fin 68) (r : ConfigReq) (s : State) : Host.Outcome State Fault Refusal :=
  .next (if 64 ≤ f.val then
      (if linksTraining s && portUp s (f.val - 60) && portMode s (f.val - 60) == .peer then configWrite f.val r s else s)
    else if linksTraining s && portUp s (portOf f.val) && (vat s.funcs f.val).pci.en && !funcAbsent s f.val then
      sendPending f.val (configWrite f.val r s)
    else s)

/-- RESIZABLE_BAR_WRITE: the steward's BAR2 becomes 2^`k` bytes; with Memory Space Enable set the write is ignored and
counted (R508). A size that Table 13-5 does not name has no effect (log 32). -/
def execResizableBarWrite (k : Fin 64) (s : State) : Host.Outcome State Fault Refusal :=
  .next (if !linksTraining s || !portUp s 0 then s
    else if (vat s.funcs 0).pci.mse then countPage 0 s
    else if 30 ≤ k.val ∧ k.val ≤ 45 then { s with sys := { s.sys with bar2 := k.val } }
    else s)

/-! ### ATS invalidation (R501) -/

/-- A command after an Invalidate Request: a held translation that the range covers is dropped and asked for afresh, in
front of what it waits for; with the number of its reads out under the old one, whose data it still takes. -/
def invalidateCmd (f a n : Nat) (c : Cmd) : Cmd × Option (Nat × Nat) :=
  let hit := c.held.filter fun h => rangesMeet h.1 h.2 a n
  if c.func != f || hit.isEmpty then (c, none)
  else
    let out := (c.wants.filter fun w => !w.ats && rangesMeet w.addr w.len a n).length
    let ask := hit.map fun h => { func := f, addr := h.1, len := h.2, ats := true : HostRead }
    ({ c with held := c.held.filter fun h => !rangesMeet h.1 h.2 a n,
              wants := if c.phase == .ended then c.wants else ask ++ c.wants,
              fresh := if c.phase == .ended then c.fresh else ask.length + c.fresh },
     if out = 0 then none else some (c.uid, out))

/-- ATS_INVALIDATE of `n` bytes at host address `a` of function `f`; the completion goes out once no read is out under
an old translation (R501). -/
def execAtsInvalidate (f : Fin 64) (a n : Nat) (s : State) : Host.Outcome State Fault Refusal :=
  .next (if !usesAts s f.val then s
    else
      let rs := s.cmds.map (invalidateCmd f.val a n)
      let fresh := ((rs.map (·.1)).zip s.cmds).flatMap fun p => p.1.wants.take (p.1.wants.length - p.2.wants.length)
      let s := fresh.foldl (fun s w => hostAsk w s) { s with cmds := rs.map (·.1) }
      let out := rs.filterMap (·.2)
      if out.isEmpty then emit (.invalidation f.val) s
      else onFunc f.val (fun F => { F with invals := F.invals ++ [out] }) s)

/-- A read of command `u` has completed: an Invalidation Completion that waited for nothing else goes out (R501). -/
def readDone (f u : Nat) (s : State) : State :=
  let step (l : List (Nat × Nat)) : List (Nat × Nat) :=
    (l.map fun x => if x.1 = u then (x.1, x.2 - 1) else x).filter fun x => x.2 != 0
  let after := (vat s.funcs f).invals.map step
  let n := (after.filter (·.isEmpty)).length
  let s := onFunc f (fun F => { F with invals := after.filter fun l => !l.isEmpty }) s
  (List.range n).foldl (fun s _ => emit (.invalidation f) s) s

/-! ### Links (R498, R515 to R518) -/

/-- A HOST port goes down: every function of it is reset (R516). -/
def hostDown (p : Nat) (s : State) : State :=
  let fs := portFuncs s p
  let s := { s with ports := vupd s.ports p fun _ => resetPort }
  watchOrphan (resetFuncs fs 1 s)

/-- A PEER port goes down, and its peer function is reset (R518). -/
def peerDown (p : Nat) (s : State) : State :=
  raiseEvent evPeerLinkDown (source (dieB ((p - 4) / 2)) 0) p
    { s with ports := vupd s.ports p fun _ => resetPort }

/-- A link of port `p` cannot come up as Table 13-2 allows: an event is raised, and the port counts as down (R498). -/
def trainFail (p : Nat) (s : State) : State :=
  let m := portMode s p
  let s := raiseEvent evLinkTrainFail (source (dieB (if p < 4 then p / 2 else (p - 4) / 2)) 0) p s
  if !portUp s p then s else if m == .host then hostDown p s else peerDown p s

/-- A rate and a width that Table 13-2 allows on a port of a mode; 64 GT/s is in Flit Mode. -/
def linkAllowed {n : Nat} (m : PortMode) (l : LinkTrained n) : Bool :=
  [16, 32, 64].contains l.rate && ([8, 16].contains l.width || (m == .peer && l.width == 4)) && (l.rate != 64 || l.flit)

/-- The port after its link has come up. -/
def linkedPort {n : Nat} (l : LinkTrained n) (P : Port) : Port := { P with up := true, rate := l.rate, width := l.width, flit := l.flit }

/-- HOST_LINK_UP on a host port, which has trained as `l`; below what Table 13-2 allows it fails (R498). From ORPHAN_HOLD the
device returns to the state before it, or to DEGRADED after a loss (R30, R515). Where that ends ORPHAN_HOLD, an epoch that ends at this tick closes first, under the state before (R41,
R101). -/
def execHostLinkUp (l : LinkTrained 4) (s : State) : Host.Outcome State Fault Refusal :=
  .next (if !(portMode s l.port.val == .host && mayTrain s l.port.val && !portUp s l.port.val) then s
    else if !linkAllowed .host l then trainFail l.port.val s
    else if !(s.sys.state == .orphanHold && epochDue s) then
      let s := watchOrphan { s with ports := vupd s.ports l.port.val (linkedPort l) }
      if s.sys.state == .orphanHold then
        enterState (if s.sys.lossSeen then .degraded else s.sys.prior) 0x12 0 s
      else s
    else s)

/-- HOST_LINK_DOWN on host port `p` (R516). -/
def execHostLinkDown (p : Fin 4) (s : State) : Host.Outcome State Fault Refusal :=
  .next (if portMode s p.val == .host && portUp s p.val then hostDown p.val s else s)

/-- PEER_LINK_DOWN on port index `p` (R518). -/
def execPeerLinkDown (p : Fin 8) (s : State) : Host.Outcome State Fault Refusal :=
  .next (if portMode s p.val == .peer && portUp s p.val then peerDown p.val s else s)

/-- PEER_LINK_UP on a PEER port, which has trained as `l` (R498, R518). -/
def execPeerLinkUp (l : LinkTrained 8) (s : State) : Host.Outcome State Fault Refusal :=
  .next (if !(portMode s l.port.val == .peer && mayTrain s l.port.val) then s
    else if !linkAllowed .peer l then trainFail l.port.val s
    else { s with ports := vupd s.ports l.port.val (linkedPort l) })

/-- LINK_TRAIN_FAIL on port index `p`: the port counts as down (R498). -/
def execLinkTrainFail (p : Fin 8) (s : State) : Host.Outcome State Fault Refusal :=
  let m := portMode s p.val
  .next (if !linksTraining s || !(m == .host || m == .peer) then s else trainFail p.val s)

/-- ORPHAN_TIMEOUT: no HOST port has been up for 10 s in RUN or DEGRADED (R517). An epoch that ends at this tick closes
first, under the state before (R41, R101). -/
def execOrphanTimeout (s : State) : Host.Outcome State Fault Refusal :=
  .next (match s.orphanSince with
    | some t =>
      if running s && !epochDue s && decide (t + 10 * second ≤ clkOf s) then
        enterState .orphanHold 0x11 0 { s with sys := { s.sys with prior := s.sys.state } }
      else s
    | none => s)

end Sys2Proof.Machine
end

