-- ==== Sys2Proof/Machine/Losses.lean ====
section
/-!
DEFINITION. Sys2Proof/Machine/Losses.lean: what becomes of tables, KV tables and commands in flight when a slice, an
RDIMM or an expander is lost (sections 7.11, 9.9, 10.9, 20.5 and 20.7).
-/
namespace Sys2Proof.Machine

/-- The recovery that runs its actions: the latest one, with `g` applied. -/
def onLatest (g : Recovery → Recovery) (s : State) : State :=
  { s with recov := { s.recov with active := s.recov.active.modify (s.recov.active.length - 1) g } }

/-- It has ended with a success code, or PREFIX_MISS, and its completion is not posted: it is still in flight (section
14.5, log 120). -/
def unposted (c : Cmd) : Bool := c.phase == .ended && (decide (c.status.toNat < 0x10) || c.status == 0x31)

/-! ### Tables -/

/-- The table that a command names, as the generation in force has it, or else its own. -/
def tableNow (s : State) (c : Cmd) : Option TableDecl :=
  (tableOf s.cfg.cur (cmdTable c)).orElse fun _ => tableFor s c (cmdTable c)

/-- Some shard of the table has its home on the stacks. -/
def stackHome (t : TableDecl) : Bool := t.shards.any (·.tier == .stack)

/-- The husk protects every stack-home shard of the table: HUSK is set, and no shard waits for a change that turns it on
(R191, R877). -/
def protectedTable (s : State) (t : TableDecl) : Bool :=
  t.husk && sliceLive s 16 &&
    match s.cfg.changes.head? with
    | some ch =>
      if ch.kind == .huskSet t.id true && decide (0 < ch.steps) && !(tableOf s.cfg.base t.id).any (·.husk) then
        ((huskShards t).drop ch.steps).isEmpty
      else t.shards.all fun sh => sh.tier != .stack || sh.parity
    | none => t.shards.all fun sh => sh.tier != .stack || sh.parity

/-- The tables are marked LOST, and the recovery lists them (R211, R778). -/
def loseTables (ids : List Nat) (s : State) : State :=
  let new := ids.filter fun i => (tableOf s.cfg.cur i).any fun t => !t.lost
  let s := ids.foldl (fun s i => onTable i (fun t => { t with lost := true }) s) s
  onLatest (fun r => { r with tables := r.tables ++ new }) s

/-- The KV tables are marked LOST, and the recovery lists them (R370, R778). -/
def loseKvs (ids : List Nat) (s : State) : State :=
  let f (c : Cfg) : Cfg := { c with kvs := c.kvs.map fun d => if ids.contains d.id then { d with lost := true } else d }
  let new := ids.eraseDups.filter fun i => (s.cfg.cur.kvs ++ (s.cfg.old.map (·.kvs)).getD []).any fun d => d.id == i && !d.lost
  onLatest (fun r => { r with kvs := r.kvs ++ new })
    { s with cfg := { s.cfg with cur := f s.cfg.cur, old := s.cfg.old.map f, base := f s.cfg.base } }

/-! ### Updates at a slice loss (R290 to R296) -/

/-- The rows of each chunk of an update or load, in the order of application. -/
def chunkRows (s : State) (t : TableDecl) (c : Cmd) : List (Nat × List Nat) :=
  (List.range (chunkCount c)).map fun j => (j, rowsOf (chunkKeys s t c j))

/-- A row stands: it took a CHAIN_SEQ not later than F; or, of a shard without parity at the time, it was applied on every
slice, without one (R290, R291). -/
def rowStands (s : State) (c : Cmd) (j row : Nat) : Bool :=
  match s.ring.given.find? fun g => g.1 == c.uid && g.2.1 == j && g.2.2.1 == row with
  | some g => !seqLater g.2.2.2 s.ring.folded
  | none => (liveData s).all fun k => appliedOn (vat s.flails k) c.uid j row

/-- A held record is restored: it is later than F, and its table is protected (R290, R296). -/
def restores (s : State) (h : HoldRec) : Bool :=
  seqLater h.seq s.ring.folded && (tableAny s h.table).any (protectedTable s)

/-- Rows of a command that are restored: each chunk and row once (Table 7-8, ROWS_ROLLED). -/
def rolledRows (s : State) (u : Nat) : Nat :=
  let hs := s.flails.toList.flatMap (·.holds) ++ s.ring.farHolds
  (((hs.filter fun h => h.uid == u && restores s h).map fun h => (h.chunk, h.row)).dedup).length

/-- How an update on a protected table stands at the loss: whole, in part, or not at all (R291). -/
inductive Stands where
  | whole
  | torn (chunk row : Nat)
  | none
  deriving DecidableEq, Repr

/-- See `Stands`; a command not past its checks has changed nothing. -/
def standing (s : State) (t : TableDecl) (c : Cmd) : Stands :=
  if !c.checked then .none
  else
    let rows := (chunkRows s t c).flatMap fun x => x.2.map fun r => (x.1, r)
    match rows.find? fun x => !rowStands s c x.1 x.2 with
    | none => .whole
    | some (j, r) => if rows.any fun x => rowStands s c x.1 x.2 then .torn j r else .none

/-- A rollback entry (Table 7-8). -/
def rollbackEntry (c : Cmd) (torn : Bool) (chunk rolled row : Nat) : List Byte :=
  leBytes 1 c.func ++ leBytes 1 c.q ++ leBytes 2 (tagOf c.bytes) ++ leBytes 2 (cmdTable c)
    ++ leBytes 1 (if torn then 0 else 1) ++ zeros 1 ++ leBytes 4 chunk ++ leBytes 4 rolled ++ leBytes 8 row ++ zeros 8

/-- The entry of one update, none when it stands whole (R292). -/
def rollbackOf (s : State) (t : TableDecl) (c : Cmd) : Option (List Byte) :=
  match standing s t c with
  | .whole => none
  | .torn j r => some (rollbackEntry c true j (rolledRows s c.uid) r)
  | .none => some (rollbackEntry c false 0 (rolledRows s c.uid) 0)

/-- Status of an update on a table that the husk does not protect: SLICE_LOST where the table is marked LOST, else
ABORTED_RECOVERY (R211, R295, R296, R877). -/
def plainLoss (s : State) (c : Cmd) : Nat := if (tableNow s c).any stackHome then 0x22 else 0x20

/-- The command's table is protected, as it now stands (R877). -/
def onProtected (s : State) (c : Cmd) : Bool := (tableNow s c).any (protectedTable s)

/-- How one update ends at the loss of a data slice that S16 stands in for (R291, R293, R296, R877). -/
def endUpdate (s : State) (c : Cmd) : Nat × Nat × Bool :=
  match tableFor s c (cmdTable c) with
  | none => (0x20, 0, true)
  | some t =>
    if !onProtected s c then (plainLoss s c, 0, true)
    else match standing s t c with
    | .whole =>
      let gone := entryCount c - ((chunkRows s t c).map fun x => (chunkKeys s t c x.1).length).sum
      let (st, d) := updateStatus { c with subst := gone }
      (st, d, false)
    | .torn _ _ => (0x21, rolledRows s c.uid, true)
    | .none => (0x20, 0, true)

/-- Updates and loads that have ended and are not posted, on tables that the husk does not protect, take the status of those
in flight (R295, R296, log 120). -/
def lateUpdates (hit : Cmd → Bool) (s : State) : State :=
  (s.cmds.filter fun c => writesRows c && unposted c && hit c).foldl (fun s' c => endLoss c.uid (plainLoss s c) 0 s') s

/-- An update or load that the loss has stopped leaves the Flails with its status; of a reset function it leaves the
device (R299). -/
def stopUpdate (u : Nat) (x : Nat × Nat × Bool) (s : State) : State :=
  match cmdOf s u with
  | none => s
  | some c =>
    let s := forgetUpdate u s
    if c.phase == .discarded then retire c none (discardNow c s)
    else if x.2.2 then endLoss u x.1 x.2.1 s else endCmd u x.1 x.2.1 s

/-- The far places of a row. -/
def farPlaces (s : State) (t : TableDecl) (row : Nat) : List Shard :=
  ((rowPlaces s t row).map placeShard).filter isFar

/-- A held record goes back to every copy of slice `k`'s segment: home, destination and lift copy (R290, R325). -/
def restoreHold (k : Nat) (s : State) (h : HoldRec) : State :=
  match tableAny s h.table with
  | none => s
  | some t =>
    (farPlaces s t h.row).foldl (fun s sh => daPoke s (segDa t sh h.row k) h.old) (writeStackCopies t h.row k h.old s)

/-- A whole row goes to its copies on the stacks, their parity and its lift copies (R280, R325). -/
def spreadRow (t : TableDecl) (row : Nat) (bs : List Byte) (s : State) : State :=
  let seg (p : Nat) : List Byte := slice bs (p * t.segStride) t.segStride
  let s := (liveData s).foldl (fun s k => writeStackCopies t row k (seg k) s) s
  if t.husk && sliceLive s 16 then writeParity t row (xorAll t.segStride ((List.range 16).map seg)) s else s

/-- A held far row goes back to every copy of the row (R290, R325). -/
def restoreFar (s : State) (h : HoldRec) : State :=
  match tableAny s h.table with
  | none => s
  | some t =>
    spreadRow t h.row h.old ((farPlaces s t h.row).foldl (fun s sh => daPoke s (segDa t sh h.row 0) h.old) s)

/-- The lost slice's segment of a restored row in its far copies: what the parity and the other slices give (R244, R333). -/
def restoreLost (k : Nat) (s : State) (x : Nat × Nat) : State :=
  match tableAny s x.1 with
  | none => s
  | some t =>
    match (rowPlaces s t x.2).find? (·.1 == .stack) with
    | none => s
    | some pl =>
      let rec_ (j : Nat) : List Byte := daRead s (segDa t (placeShard pl) x.2 j) t.segStride
      let r := xorAll t.segStride (((liveData s) ++ [16]).map rec_)
      (farPlaces s t x.2).foldl (fun s sh => daPoke s (segDa t sh x.2 k) r) s

/-- Far-home rows that not every slice had returned stay as the far tier holds them; the other copies follow (R280, R290). -/
def dropFarParts (s : State) : State :=
  ((s.ring.farParts.map fun f => (f.uid, f.table, f.row)).dedup).foldl (fun s x =>
    match (cmdOf s x.1).bind fun c => tableFor s c x.2.1 with
    | none => s
    | some t => if isFar (shardOf t x.2.2) then spreadRow t x.2.2 (oldFarRow s t x.2.2) s else s) s

/-- The rollback of R290 at the loss of data slice `k`: every held record later than F is restored, the latest first. -/
def rollback (k : Nat) (s : State) : State :=
  let later (l : List HoldRec) : List HoldRec := l.filter (restores s)
  let rows := (((liveData s).flatMap fun j => later (vat s.flails j).holds).map fun h => (h.table, h.row)).dedup
  let far := later s.ring.farHolds
  let s := (liveData s).foldl (fun s' j => (later (vat s.flails j).holds).foldl (restoreHold j) s') s
  far.foldl restoreFar (dropFarParts (rows.foldl (restoreLost k) s))

/-- A Flail that holds nothing. -/
def emptyFlail : Flail := { sorted := none, cur := none, reduced := [], ranges := [], applied := 0, holds := [], finished := [] }

/-- The Flails stop, and the ring carries nothing of theirs any more; numbering goes on from `f` (log 33). -/
def stopFlails (f : BitVec 48) (s : State) : State :=
  { s with flails := Vector.replicate 17 emptyFlail,
           ring := { s.ring with nextSeq := f + 1, folded := f, acked := f, deltas := [], given := [], farHolds := [],
                                 farParts := [], chain := [], acks := [], reds := [], recons := [], rebuilt := [] } }

/-- The rollback section (Tables 7-7 and 7-8). -/
def rollbackSection (k f rows : Nat) (entries : List (List Byte)) : List Byte :=
  leBytes 1 k ++ zeros 7 ++ leBytes 8 f ++ leBytes 4 rows ++ leBytes 4 entries.length ++ zeros 8 ++ entries.flatten

/-- Updates and loads at the loss of data slice `k`: those that the husk still keeps are undone by `undo` as far as they stand
later than F, and end as R291 has it, with their entries in the rollback section; the others as R211, R295 and R296. -/
def lossUpdates (k : Nat) (kept : Cmd → Bool) (undo : State → State) (s : State) : State :=
  let q := updQueue s
  let ends := q.map fun c => (c.uid, if kept c then endUpdate s c else (plainLoss s c, 0, true))
  let named := (q.filter fun c => c.phase != .discarded && kept c).filterMap fun c =>
    ((tableFor s c (cmdTable c)).bind fun t => rollbackOf s t c).map fun e => (c.uid, e)
  let rows := ((q.filter kept).map fun c => rolledRows s c.uid).sum
  let sec := rollbackSection k s.ring.folded.toNat rows (named.map (·.2))
  let s := lateUpdates (fun c => !kept c) s
  let s := onLatest (fun r => { r with rollback := sec, rolled := named.map (·.1) }) (undo s)
  ends.foldl (fun s x => stopUpdate x.1 x.2 s) (stopFlails s.ring.folded s)

/-- Updates and loads at the loss of data slice `k` that S16 stands in for (R290 to R293, R296). -/
def firstLossUpdates (k : Nat) (s : State) : State := lossUpdates k (onProtected s) (rollback k) s

/-- The rollback of the tables that stay protected at a second loss, whose homes all lie in far tiers: their bridges restore
every held row later than F (R290, R295). -/
def rollbackFar (s : State) : State :=
  let later := s.ring.farHolds.filter fun h => restores s h && !(tableAny s h.table).any stackHome
  later.foldl restoreFar (dropFarParts s)

/-- Updates and loads at the loss of part `k` that nothing stands in for: SLICE_LOST on tables with a stack-home shard, without
rollback; while S16 folds, a protected table that is far-home throughout is rolled back as at any loss of a data slice; the
others as R296 (R290, R295). -/
def lastLossUpdates (k : Nat) (s : State) : State :=
  if k < 16 ∧ sliceLive s 16 = true then
    lossUpdates k (fun c => onProtected s c && !(tableNow s c).any stackHome) rollbackFar s
  else
    let ends := (updQueue s).map fun c => (c.uid, plainLoss s c, 0, true)
    let s := dropFarParts (lateUpdates (fun _ => true) s)
    ends.foldl (fun s x => stopUpdate x.1 x.2 s) (stopFlails (s.ring.nextSeq - 1) s)

/-! ### Other commands in flight -/

/-- Its work goes on. -/
def atWork (c : Cmd) : Bool := c.phase == .working || c.phase == .waitHost

/-- Lookups that have not written every row end (R247). -/
def endLookups (s : State) : State :=
  (s.cmds.filter fun c => isLookup c && atWork c).foldl (fun s c => endLoss c.uid 0x20 c.done s) s

/-- Some known range of the copy has its target offline. -/
def copyTouches (s : State) (c : Cmd) : Bool :=
  let known := copyForm c.bytes != 2 || copyInline c.bytes || c.checked
  let off (r : Rng) : Bool := r.dev && targetOffline s (.copy c.func) r.addr r.len
  known && (copySegs c).any fun g => off (segSrc c.bytes g) || off (segDst c.bytes g)

/-- Copies whose ranges touch what has gone offline end, those not yet posted too (Table 20-10, R777, log 120). -/
def endCopies (s : State) : State :=
  (s.cmds.filter fun c => (opcodeOf c.bytes == 0x40 || opcodeOf c.bytes == 0x41) && !isLoad c && (atWork c || unposted c) && copyTouches s c).foldl
    (fun s c => endLoss c.uid 0x20 0 s) s

/-- Kernels with a named core on slice `k` end, those not yet posted too, and what the slice's cores do stops (R484, Table
20-10, log 120). -/
def endKernels (k : Nat) (s : State) : State :=
  let mine := s.cmds.filter fun c => opcodeOf c.bytes == 0x60 && bit (param c.bytes 4 2) k
  let s := (mine.filter (·.phase != .ended)).foldl (fun s c => killLaunch c.uid 0x20 0 (noteLoss c.uid s)) s
  let s := (mine.filter unposted).foldl (fun s c => endLoss c.uid 0x20 0 s) s
  (List.range 8).foldl (fun s i =>
    stopCore (8 * k + i) (some 0x21) (onCore (8 * k + i) (fun K => { K with xfers := [] }) s)) s

/-! ### KV tables at a slice loss (R368 to R370, R402) -/

/-- The declaration of a KV table at run time. -/
def kvDeclOf (s : State) (id : Nat) : Option KvDecl :=
  (s.cfg.cur.kvs ++ (s.cfg.old.map (·.kvs)).getD []).find? (·.id == id)

/-- The table may place pages on slice position `k` (R346). -/
def kvPlacesOn (d : KvDecl) (k : Nat) : Bool :=
  if d.byPosition then
    (List.range d.nheads).any fun h => decide ((k + 16 - h % 16) % 16 ≤ (ceilDiv d.maxTokens (kvPageTokens d) - 1) / kvGroup d)
  else decide (k < d.nheads)

/-- Trie nodes with a page at position `k`, and all their descendants (R368). -/
def lostNodes (k : Nat) (t : KvTable) : List KvNode :=
  (sortBy (fun a b => a.unit < b.unit) t.nodes).foldl (fun acc n =>
    if n.pages.any (·.1 == k) || n.parent.any (fun p => acc.any (·.slot == p)) then acc ++ [n] else acc) []

/-- Slots that a loss at position `k` evicts. -/
def lostSlots (k : Nat) (t : KvTable) : List Nat :=
  let bad := (lostNodes k t).map (·.slot)
  (List.range t.slots.length).filter fun i =>
    let x := slotOf t i
    x.st == .open && (x.pages.any (·.1 == k) || x.attached.any bad.contains)

/-- A KV table after the loss at position `k`: slots evicted, nodes removed, the position's pages gone (R368). -/
def kvAfterLoss (readers : Nat → Nat → List Nat) (k : Nat) (t : KvTable) : KvTable :=
  let bad := lostNodes k t
  let t := (lostSlots k t).foldl (fun t i => dropSlot readers i .evicted t) t
  let t := bad.reverse.foldl (fun t n => match nodeOf t n.slot with | some m => evictNode readers m t | none => t) t
  { t with refs := t.refs.filter (·.1 != k), parked := t.parked.filter (·.1 != k) }

/-- The slots that a KV_APPEND or a PREFIX_MATCH names (R369). -/
def kvNamed (c : Cmd) : List Nat :=
  if opcodeOf c.bytes = 0x30 then (appendEntries c).map (·.seq)
  else if opcodeOf c.bytes = 0x32 then [param c.bytes 4 4] else []

/-- One KV table at the loss of slice position `k`: its slots, its notices, held until the cut, and the decodes, appends
and matches that name them (R365, R368, R369, R402). -/
def kvLoss (k : Nat) (s : State) (t : KvTable) : State :=
  match kvDeclOf s t.id with
  | none => s
  | some d =>
    let gone := lostSlots k t
    let bad := (lostNodes k t).map (·.slot)
    let kept (i : Nat) : Nat := kvUnit d * ((slotOf t i).attached.takeWhile fun n => !bad.contains n).length
    let notes := gone.map fun i => (d.owner, noticeBytes s d.id (kept i) (i, nth (slotOf t i).lens 0 0, []) none)
    let done := s.cmds.filter fun c => unposted c && cmdTable c == t.id && (kvNamed c).any gone.contains
    let hit := s.cmds.filter fun c => opcodeOf c.bytes == 0x38 && atWork c && cmdTable c == t.id && !c.attLens.isEmpty
      && (List.range (kvNent c)).any fun i => gone.contains (attnSeq c i)
    let s := hit.foldl (fun s c => abortAttn c.uid (noteLoss c.uid s)) s
    let s := done.foldl (fun s c => endLoss c.uid 0x20 0 s) s
    let s := commitKv none d t (kvAfterLoss (kvReaders s t.id) k t) s
    onLatest (fun r => { r with nevict := r.nevict + gone.length, evicted := r.evicted ++ gone.map fun i => (t.id, i),
                                notices := r.notices ++ notes }) s

/-- KV tables that place pages on a position that nothing serves any more are LOST, and their commands in flight end
(R370). -/
def kvGone (k : Nat) (s : State) : State :=
  let ids := ((s.cfg.cur.kvs ++ (s.cfg.old.map (·.kvs)).getD []).filter fun d => kvPlacesOn d k).map (·.id)
  let s := loseKvs ids s
  (s.cmds.filter fun c => isKv c && atWork c && opcodeOf c.bytes != 0x31 && ids.contains (cmdTable c)).foldl
    (fun s c => abortAttn c.uid (noteLoss c.uid s)) s

/-! ### Slices -/

/-- A change that turns HUSK on cannot go on after the loss of a slice that it needs (R877). -/
def rollHusk (s : State) : State :=
  match s.cfg.changes.head? with
  | none => s
  | some ch =>
    match ch.kind with
    | .huskSet id true =>
      match tableOf s.cfg.cur id with
      | some t => if protectedTable s t || !stackHome t then s else rollHead .sliceLost s
      | none => s
    | _ => s

/-- A change that moves a shard. -/
def movesShard (ch : Change) : Bool := match ch.kind with | .shardMove _ _ _ => true | _ => false

/-- Nor can a shard move after the loss of a data slice, the one in progress or one that waits (R333, R876). -/
def rollOnSlice (s : State) : State :=
  let s := abandonLater .sliceLost movesShard s
  if s.cfg.changes.head?.any movesShard then rollHead .sliceLost (abandonMove s) else rollHusk s

/-- The leader's role passes on (R308). -/
def passLeader (k : Nat) (s : State) : State :=
  if (liveData s).headD 16 < k then s
  else { s with stolon := { s.stolon with candidates := [], newLeader := true } }

/-- What the loss of any data slice does beside its updates and KV tables. -/
def sliceCommon (k : Nat) (s : State) : State :=
  let s := endKernels k (endCopies (endLookups s))
  passLeader k (dropBatch s)

/-- The loss of data slice `k` with S16 able to stand in (R290, R368, R877). -/
def firstSliceLoss (k : Nat) (s : State) : State :=
  let lost := ((liveTables s).filter fun t => stackHome t && !protectedTable s t).map (·.id)
  let s := sliceCommon k (firstLossUpdates k s)
  let s := rollOnSlice s
  s.kv.foldl (kvLoss k) (loseTables lost s)

/-- A loss after which nothing stands in for position `k` (R295, R370, R770). -/
def lastSliceLoss (k : Nat) (s : State) : State :=
  let lost := ((liveTables s).filter stackHome).map (·.id)
  let s := lastLossUpdates k s
  let s := if k < 16 then sliceCommon k s else endLookups (endCopies s)
  let s := rollOnSlice s
  let s := loseTables lost s
  let p := if k < 16 then k else s.recov.standin.getD 16
  let s := s.kv.foldl (kvLoss p) (kvGone p s)
  { s with recov := { s.recov with standin := none, huskLost := true } }

/-- The loss of S16 with no data slice lost: every table is unprotected, nothing is undone, and a shard move goes on (R38,
R294, R334, R769). A copy whose range touches S16 goes on too (DESIGN CHOICE, log 143). -/
def huskLoss (s : State) : State :=
  let plain (t : TableDecl) : TableDecl := { t with shards := t.shards.map fun sh => { sh with parity := false } }
  let strip (c : Cfg) : Cfg := { c with tables := c.tables.map plain }
  let s := rollHusk s
  let f := s.ring.nextSeq - 1
  let s := { s with cfg := { s.cfg with cur := strip s.cfg.cur, old := s.cfg.old.map strip, base := strip s.cfg.base },
                    flails := s.flails.map fun F => { F with holds := [] },
                    ring := { s.ring with folded := f, acked := f, deltas := [], given := [], farHolds := [], chain := [],
                                          acks := [], recons := [] },
                    recov := { s.recov with huskLost := true } }
  kickFlail (settleUpdates (endKernels 16 s))

/-- A slice has been lost (Table 20-8). -/
def sliceLoss (k : Nat) (s : State) : State :=
  let others := (lostData s).filter (· != k)
  if k = 16 then (if others.isEmpty then huskLoss s else lastSliceLoss 16 s)
  else if sliceLive s 16 && others.isEmpty then firstSliceLoss k s
  else lastSliceLoss k s

/-! ### Far tiers (R663, R668, R777) -/

/-- An extent at a far device address touches the part: a socket 0 to 15, or an expander on port index 4 to 7. -/
def farTouches (s : State) (kind : PartKind) (num da n : Nat) : Bool :=
  let o := da % 2 ^ 52
  match kind with
  | .dimm => da / 2 ^ 52 == 4 && (dimmsOf s o n).contains num
  | .expander => da / 2 ^ 52 == 5 && (cxlOf s o n).contains (num - 4)
  | _ => false

/-- Some shard of the table lies, in part, on the far part, in some live generation. -/
def tableOnFar (s : State) (kind : PartKind) (num id : Nat) : Bool :=
  ((s.cfg.cur :: s.cfg.old.toList).filterMap fun c => tableOf c id).any fun t =>
    (farExtents t).any fun x => farTouches s kind num x.1 x.2

/-- The packets of a command that has been stopped pass on empty, and numbers given without a packet get one, so that
the numbers after them can be folded. -/
def emptyPackets (u : Nat) (s : State) : State :=
  let mine := s.ring.given.filter fun g => g.1 == u && seqLater g.2.2.2 s.ring.folded
  let missing := mine.filter fun g => !s.ring.chain.any fun p => p.seq == g.2.2.2
  let first := (liveData s).headD 16
  { s with ring := { s.ring with
      deltas := s.ring.deltas.filter fun d => !mine.any fun g => g.2.2.2 == d.2.1,
      chain := (s.ring.chain.map fun p => if p.uid == u then { p with payload := none } else p) ++
        missing.map fun g => { uid := u, chunk := g.2.1, seq := g.2.2.2, table := 0, row := g.2.2.1, payload := none,
                               parity := none, next := first, arr := s.ring.arrivals } } }

/-- A shard move that the far part's loss stops: its source, or the destination that it has or would take at its first flip,
holds part of it (R663, R668, R876). -/
def moveOnFar (s : State) (kind : PartKind) (num : Nat) (ch : Change) : Bool :=
  match ch.kind with
  | .shardMove id i _ =>
    match tableOf s.cfg.cur id with
    | none => false
    | some t =>
      let sh := nth t.shards i noShard
      let src := isFar sh && farTouches s kind num (segDa t sh (i * shardRowsMax) 0) (shardExtent t sh.tier i)
      let dst := (flipDst s ch).any fun m =>
        let to_ := { noShard with tier := m.1, base := m.2 }
        isFar to_ && farTouches s kind num (segDa t to_ (i * shardRowsMax) 0) (shardExtent t m.1 i)
      src || dst
  | _ => false

/-- An RDIMM or an expander, already marked lost, takes its tables, moves and commands with it (R663, R668, R777). -/
def farLoss (kind : PartKind) (num : Nat) (s : State) : State :=
  let ids := ((liveTables s).filter fun t => tableOnFar s kind num t.id).map (·.id)
  let us := (updQueue s).filter fun c => tableOnFar s kind num (cmdTable c)
  let s := us.foldl (fun s c => stopUpdate c.uid (0x22, 0, true) (emptyPackets c.uid s)) s
  let s := (s.cmds.filter fun c => writesRows c && unposted c && tableOnFar s kind num (cmdTable c)).foldl
    (fun s c => endLoss c.uid 0x22 0 s) s
  let s := { s with ring := { s.ring with farParts := s.ring.farParts.filter fun f => !ids.contains f.table } }
  let needs (c : Cmd) : Bool := match tableFor s c (cmdTable c) with
    | some t => (lkIdx c).any (rowOffline s c t)
    | none => false
  let s := (s.cmds.filter fun c => isLookup c && atWork c && c.checked && needs c).foldl
    (fun s c => endLoss c.uid 0x20 c.done s) s
  let s := endCopies s
  let s := abandonLater .farLost (moveOnFar s kind num) s
  let s := if s.cfg.changes.head?.any (moveOnFar s kind num) then rollHead .farLost (abandonMove s) else s
  let s := { s with stolon := { s.stolon with liftsDue := s.stolon.liftsDue.filter fun e => !ids.contains e.table } }
  kickFlail (loseTables ids s)

end Sys2Proof.Machine
end

