-- ==== Sys2Proof/Machine/Recovery.lean ====
section
/-!
DEFINITION. Sys2Proof/Machine/Recovery.lean: part losses and the recovery cut (chapter 20), links (chapter 2), and what
the ECC, the lanes and the expanders report (chapter 17).
-/
namespace Sys2Proof.Machine

/-! ### Parts -/

/-- Kind and number of a part (Table 20-8). -/
def partOf : PartId → PartKind × Nat
  | .slice k => (.slice, k.val)
  | .bridge b => (.bridge, dieB b.val)
  | .dimm d => (.dimm, d.val)
  | .expander e => (.expander, 4 + e.val)

/-- The image declares the far part. -/
def farDeclared (s : State) (kind : PartKind) (num : Nat) : Bool :=
  match kind with
  | .dimm => s.image.dimms.getLsbD num
  | .expander => s.image.cxl.getLsbD (num - 4)
  | _ => true

/-- The part is there and has not been lost. -/
def partLive (s : State) (kind : PartKind) (num : Nat) : Bool :=
  match kind with
  | .slice => sliceLive s num
  | .bridge => !(vat s.brg (num - 0x11)).offline
  | .dimm => farDeclared s .dimm num && !(vat s.dimms num).lost
  | .expander => farDeclared s .expander num && !(vat s.cxl (num - 4)).lost

/-- The part goes offline: every access decoded from now on fails as OFFLINE (R76, R760). -/
def offlinePart (kind : PartKind) (num : Nat) (s : State) : State :=
  match kind with
  | .slice => onSlice num (fun S => { S with offline := true }) s
  | .bridge => onBrg (num - 0x11) (fun B => { B with offline := true }) s
  | .dimm => { s with dimms := vupd s.dimms num fun d => { d with lost := true } }
  | .expander => { s with cxl := vupd s.cxl (num - 4) fun d => { d with lost := true } }

/-- The bridge that a far part or a bridge stands for. -/
def partBridge (kind : PartKind) (num : Nat) : Nat :=
  match kind with
  | .dimm => num / 8
  | .expander => (num - 4) / 2
  | _ => num - 0x11

/-- Die that declares a part lost, as its records name it: the part's own die, or the bridge that holds it. -/
def lossDie (kind : PartKind) (num : Nat) : Nat :=
  match kind with
  | .slice => num
  | .bridge => num
  | k => dieB (partBridge k num)

/-- ARG of PART_LOST (Table 20-2). -/
def lossArg (kind : PartKind) (num cause : Nat) : Nat := kindCode kind + 256 * num + 65536 * cause

/-! ### Bridges (R771 to R776) -/

/-- Ring detours pass through the surviving bridge (R77, R772). -/
def moveDetour (b : Nat) (d : Detour) : Detour :=
  match d with
  | .none => .none
  | x => if b = 0 ∧ x = .viaB0 then .viaB1 else if b = 1 ∧ x = .viaB1 then .viaB0 else x

/-- What a bridge kept goes with it. -/
def emptyBridge (B : Bridge) : Bridge :=
  { B with lines := [], victims := [], side := [], filling := none, waiting := [], watches := [], ranges := [] }

/-- A command of a reset function of the bridge waits for data that never comes: it goes no further than it has come. -/
def cutOff (b : Nat) (s : State) : State :=
  (s.cmds.filter fun c => bridgeOf c.func == b && c.phase == .discarded && writesRows c && !c.wants.isEmpty).foldl
    (fun s c => failUpdate c.uid 0x12 2 s) s

/-- The recovery of a loss declared now. -/
def newRecovery (s : State) (kind : PartKind) (num cause : Nat) : Recovery :=
  let gone := s.recov.active.flatMap (·.ended)
  { epoch := s.recov.epoch.toNat, kind := kind, num := num, cause := cause, lossPos := posOf s, cutPos := none,
    gen := s.cfg.cur.gen,
    preLoss := (s.cmds.filter fun c => c.phase != .discarded && !gone.contains c.uid).map (·.uid),
    tables := [], kvs := [], nevict := 0, evicted := [], notices := [], rollback := [], rolled := [], ended := [], aborts := [] }

/-- A part's own PART_LOST record and event (step 5 of R760). -/
def reportLoss (kind : PartKind) (num cause : Nat) (r : Recovery) (s : State) : State :=
  let unit := match kind with | .dimm => num | .expander => num | _ => 0
  let s := logError 2 4 { cause := cause, die := lossDie kind num, unit := unit, detail := (reportHeader r 0 0 0).take 32 } [] s
  raiseEvent evPartLost (source (lossDie kind num) 0) (lossArg kind num cause) s

/-- A far part of a lost bridge is declared lost with it, by the bridge's cause and within its recovery (R771). -/
def farOfBridge (kind : PartKind) (num cause : Nat) (s : State) : State :=
  if farDeclared s kind num && partLive s kind num then
    let s := offlinePart kind num s
    farLoss kind num (reportLoss kind num cause (newRecovery s kind num cause) s)
  else s

/-- Both mirrors of an enabled function of the bridge are gone (R775). -/
def mirrorsGone (s : State) (b : Nat) : Bool :=
  (List.range 32).any fun i =>
    (vat s.funcs (32 * b + i)).pci.en && (vat s.recov.mirrors (32 * b + i)).all fun k => !sliceLive s k

/-- Bridge `b` has been lost (R771 to R776). -/
def bridgeLoss (b cause : Nat) (s : State) : State :=
  let hosts := [2 * b, 2 * b + 1].filter fun p => portMode s p == .host
  let peers := [4 + 2 * b, 5 + 2 * b].filter fun p => portMode s p == .peer && portUp s p
  let s := resetFuncs (hosts.flatMap (portFuncs s)) 8 s
  let s := { s with ports := hosts.foldl (fun v p => vupd v p fun _ => resetPort) s.ports }
  let s := watchOrphan (peers.foldl (fun s p => peerDown p s) s)
  let s := cutOff b (onBrg b emptyBridge s)
  let s := (List.range 8).foldl (fun s i => farOfBridge .dimm (8 * b + i) cause s) s
  let s := [4 + 2 * b, 5 + 2 * b].foldl (fun s p => farOfBridge .expander p cause s) s
  let s := { s with links := { s.links with detour := s.links.detour.map (moveDetour b) } }
  if (vat s.brg 0).offline && (vat s.brg 1).offline then enterHalt haltNoBridge s
  else if mirrorsGone s b then enterHalt haltLedgerState s
  else settleUpdates s

/-! ### PART_LOSS (R760) -/

/-- The steps of R760: admission held, the recovery epoch raised, the part offline, DEGRADED, the record and the event. -/
def declareLoss (kind : PartKind) (num cause : Nat) (s : State) : State :=
  let s := { s with recov := { s.recov with hold := true, epoch := s.recov.epoch + 1, done := false } }
  let r := newRecovery s kind num cause
  let s := offlinePart kind num { s with recov := { s.recov with active := s.recov.active ++ [r] },
                                         sys := { s.sys with lossSeen := true } }
  let arg := lossArg kind num cause
  let s := if s.sys.state == .run then enterState .degraded 0x10 arg s else s
  reportLoss kind num cause r s

/-- What goes with the part (Table 20-8). -/
def lossActions (kind : PartKind) (num cause : Nat) (s : State) : State :=
  match kind with
  | .slice => sliceLoss num s
  | .bridge => bridgeLoss (num - 0x11) cause s
  | k => farLoss k num s

/-- A part is declared lost (R760), unless it is gone already. -/
def partLoss (kind : PartKind) (num cause : Nat) (s : State) : State :=
  if s.sys.state == .cold || s.sys.state == .halt || !partLive s kind num then s
  else settleRecoveries (pumpAllKv (lossActions kind num cause (declareLoss kind num cause s)))

/-- Causes that Table 20-7 gives for the kind of part. -/
def causeFits (kind : PartKind) (cause : Nat) : Bool :=
  match kind with
  | .slice => decide (1 ≤ cause ∧ cause ≤ 6) || cause == 0x10 || cause == 0x11
  | .bridge => [0x10, 0x11, 0x13, 0x14].contains cause
  | .dimm => [0x11, 0x12, 0x15, 0x16, 0x17].contains cause
  | .expander => [0x11, 0x12, 0x18, 0x19, 0x1A].contains cause

/-- Every activity scheduled for the tick is over: a loss declared on it comes after them (R105, R759). -/
def tickSettled (s : State) : Bool := windowsClosed s && !flipDue s && !switchDue s && !dvfsDue s

/-- The device finds losses: from TRAIN on, outside HALT (R37, R119, R788). -/
def mayLose (s : State) : Bool := linksTraining s && s.sys.state != .halt && tickSettled s

/-- PART_LOSS: the part is declared lost with a cause of Table 20-7 (R760). -/
def execPartLoss (p : PartId) (cause : Nat) (s : State) : Host.Outcome State Fault Refusal :=
  let (kind, num) := partOf p
  .next (if mayLose s && causeFits kind cause then partLoss kind num cause s else s)

/-! ### RECOVERY_CUT (R761 to R763) -/

/-- The mirror places of a function with those on lost slices passed on (R774, R791). -/
def replaceMirrors (s : State) (ms : List Nat) : List Nat :=
  let next (k : Nat) (others : List Nat) : Option Nat :=
    ((List.range 16).map fun i => (k + 1 + i) % 16).find? fun j => sliceLive s j && !others.contains j
  match ms with
  | [a, b] =>
    let a' := if sliceLive s a then some a else next a [b]
    let b' := if sliceLive s b then some b else next b a'.toList
    a'.toList ++ b'.toList
  | [a] => if sliceLive s a then [a] else (next a []).toList
  | l => l

/-- The data slice that S16 may stand in for at the cut (R767). -/
def standinFor (s : State) : Option Nat :=
  match lostData s with
  | [k] => if sliceLive s 16 && !s.recov.huskLost then some k else none
  | _ => none

/-- The sequence that follows a loss, if the image has it (R723, Table 20-8). -/
def lossSequence (s : State) (r : Recovery) : List SeqDue :=
  let d : SeqDue := match r.kind with
    | .slice => { id := 2, part := r.num }
    | k => { id := 3, part := partBridge k r.num }
  if s.image.seqs.any (·.1 == d.id) then [d] else []

/-- The default-row records of the position that S16 stands in for are rebuilt on it from their source, for both live
generations (R204, R212). -/
def rebuildDefaults (s : State) : State :=
  match s.recov.standin with
  | none => s
  | some p =>
    let old := (s.cfg.old.map (·.tables)).getD []
    storeDefaults (fun _ => true) s.cfg.cur.tables [p] (storeDefaults (fun _ => true) old [p] s)

/-- The recovery cut: HOLD clears, S16 stands in, mirrors are re-placed, every enabled queue gets its marker, and what
Table 20-8 puts after the cut proceeds. -/
def recoveryCut (s : State) : State :=
  let cut := s.recov.active.filter (·.cutPos.isNone)
  let close (r : Recovery) : Recovery := if r.cutPos.isNone then { r with cutPos := some (posOf s), notices := [] } else r
  let mark (Q : Queue) : Queue := if Q.en then { Q with rmark := true } else Q
  let s := { s with recov := { s.recov with hold := false, active := s.recov.active.map close, standin := standinFor s,
                                            mirrors := s.recov.mirrors.map (replaceMirrors s) },
                    qs := s.qs.map mark }
  let s := rebuildDefaults { s with pmc := { s.pmc with due := s.pmc.due ++ cut.flatMap (lossSequence s) } }
  let s := (cut.flatMap (·.notices)).foldl (fun s n => postNotice n.1 n.2 s) s
  settleRecoveries (kickFlail (pumpAllKv s))

/-- RECOVERY_CUT (R761); one cut for the losses declared since the last (R789). -/
def execRecoveryCut (s : State) : Host.Outcome State Fault Refusal :=
  .next (if s.recov.hold && s.sys.state != .halt && s.sys.state != .cold && tickSettled s then recoveryCut s else s)

/-! ### Furrow links and the management ring (R47, R48, R53, R77) -/

/-- ARG of LINK_REPAIR and LINK_DEGRADED: the slice of a slice link, seen from its bridge; the next slice of a ring hop. -/
def linkArg : ModuleId → Nat
  | .sliceLink k _ _ => k.val
  | .ringHop k => (k.val + 1) % 17 + 256

/-- The die that reports a module. -/
def linkDie : ModuleId → Nat
  | .sliceLink _ b _ => dieB b.val
  | .ringHop k => k.val

/-- The module carries traffic. -/
def moduleUp (s : State) : ModuleId → Bool
  | .sliceLink k b m => (vat (vat s.links.slice (2 * k.val + b.val)) m.val).up
  | .ringHop k => (vat s.links.ring k.val).up

/-- A module changed by `g`. -/
def onModule (x : ModuleId) (g : LinkModule → LinkModule) (s : State) : State :=
  match x with
  | .sliceLink k b m =>
    { s with links := { s.links with slice := vupd s.links.slice (2 * k.val + b.val) fun l => vupd l m.val g } }
  | .ringHop k => { s with links := { s.links with ring := vupd s.links.ring k.val g } }

/-- LINK_REPAIR: a lane of the module fails and is repaired onto a spare (R47). -/
def execLinkRepair (x : ModuleId) (s : State) : Host.Outcome State Fault Refusal :=
  .next (if linksTraining s && moduleUp s x then
      raiseEvent evLinkRepair (source (linkDie x) 0) (linkArg x) (onModule x (fun l => { l with repaired := l.repaired + 1 }) s)
    else s)

/-- The detour of ring hop `k` (R77). -/
def detourFor (s : State) (k : Nat) : Detour := if routeBridge s k ((k + 1) % 17) = 0 then .viaB0 else .viaB1

/-- Detours in use follow their slice links: one through B0 passes to B1 when a link of it has lost both modules (R77). -/
def checkDetours (s : State) : State :=
  let fix (k : Nat) (d : Detour) : Detour := if d = .viaB0 then detourFor s k else d
  { s with links := { s.links with detour := Vector.ofFn fun k : Fin 17 => fix k.val (vat s.links.detour k.val) } }

/-- A ring hop is lost and detoured. -/
def loseHop (k : Nat) (s : State) : State :=
  let d := detourFor s k
  raiseEvent evRingDetour (source k 0) (k + 256 * dieB (if d = .viaB0 then 0 else 1))
    { s with links := { s.links with detour := vupd s.links.detour k fun _ => d } }

/-- A module without spare lanes is lost (R48). -/
def loseModule (x : ModuleId) (s : State) : State :=
  let s := checkDetours (onModule x (fun l => { l with up := false }) s)
  match x with
  | .ringHop k => loseHop k.val s
  | .sliceLink k b _ =>
    let l := vat s.links.slice (2 * k.val + b.val)
    if (vat l 0).up || (vat l 1).up then raiseEvent evLinkDegraded (source (linkDie x) 0) (linkArg x) s
    else partLoss .slice k.val 5 s

/-- LINK_DEGRADED: a further lane fails on a module whose spare lanes are used up (R48). -/
def execLinkDegraded (x : ModuleId) (s : State) : Host.Outcome State Fault Refusal :=
  .next (if mayLose s && moduleUp s x then loseModule x s else s)

/-- Dies in the order of the management ring: C, B0, S0 to S16, B1 (section 2.3). -/
def mgmtDie (i : Nat) : Nat := if i = 0 then 0x13 else if i = 1 then 0x11 else if i = 19 then 0x12 else i - 2

/-- Segment `i`, between the dies at places `i` and `i + 1`, fails: traffic goes the other way; dies that are cut off by
a second failure are lost (R53). -/
def loseSegment (i : Nat) (s : State) : State :=
  let s := { s with links := { s.links with mgmt := vupd s.links.mgmt i fun _ => false } }
  if (s.links.mgmt.toList.filter fun up => !up).length = 1 then
    raiseEvent evMgmtRing (source dieC 0) (mgmtDie i + 256 * mgmtDie ((i + 1) % 20)) s
  else
    ((List.range 19).map fun j => mgmtDie (j + 1)).foldl (fun s die =>
      if dieReached s die then s
      else if die ≤ 0x10 then partLoss .slice die 0x10 s
      else partLoss .bridge die 0x10 s) s

/-- MGMT_RING_SEGMENT_FAIL on segment `i` (R53). -/
def execMgmtRingSegmentFail (i : Fin 20) (s : State) : Host.Outcome State Fault Refusal :=
  .next (if mayLose s && vat s.links.mgmt i.val then loseSegment i.val s else s)

/-! ### Stack lanes (R653, Table 17-3) -/

/-- A data lane, or a command-address lane, of channel `ch` of slice `k` fails. -/
def laneFail (k ch : Nat) (data : Bool) (s : State) : State :=
  let S := vat s.slices k
  let left := if data then vat S.spareData ch else vat S.spareCa ch
  if left = 0 then partLoss .slice k 1 s
  else
    let s := onSlice k (fun S =>
      if data then { S with spareData := vupd S.spareData ch (· - 1) }
      else { S with spareCa := vupd S.spareCa ch (· - 1) }) s
    raiseEvent evLaneRepair (source k 1) (ch + 16 * vat (vat s.slices k).spareData ch) s

/-- LANE_REPAIR: a lane of a stack channel fails; it is repaired onto a spare, or the stack is lost for want of one
(R653). -/
def execLaneRepair (k : Fin 17) (ch : Fin 16) (data : Bool) (s : State) : Host.Outcome State Fault Refusal :=
  .next (if mayLose s && sliceLive s k.val then laneFail k.val ch.val data s else s)

/-! ### Patrol scrub and uncorrectable reads (R649, R652, R662, R757) -/

/-- A MEM_UE record for the first four uncorrectable reads of a part in a beat; COUNT names those unreported before. -/
def memUe (die unit addr missed : Nat) (repaired : Bool) (s : State) : State :=
  logError 1 2 { die := die, unit := unit, addr := addr, count := missed, detail := [if repaired then 1 else 2] } [] s

/-- The atom lies in a stack-home row of a protected table, and its segment can be rebuilt from parity and the other
slices (R649). -/
def repairable (s : State) (k off : Nat) : Bool :=
  decide (k < 16) && s.recov.standin.isNone && (lostData s).isEmpty &&
    s.cfg.cur.tables.any fun t => protectedTable s t &&
      ((List.range t.shards.length).zip t.shards).any fun (i, sh) =>
        sh.tier == .stack && sh.parity && decide (sh.base * 65536 ≤ off) &&
          decide (off < sh.base * 65536 + shardRows t.rows i * t.segStride)

/-- The save cells and the device-reserved 2 KiB at the top of a stack (Table 17-1). -/
def reservedTop (off : Nat) : Bool := decide (0x861C40000 ≤ off ∧ off < 0x861C46800)

/-- A unit of memory is marked with poison. -/
def addPoison (da : Nat) (s : State) : State :=
  { s with poison := if s.poison.contains da then s.poison else sortBy (fun a b => a < b) (da :: s.poison) }

/-- An uncorrectable read of one atom of slice `k` (R649, R757, Table 17-3). -/
def stackUe (k off : Nat) (s : State) : State :=
  let ch := channelOf off
  let fix := repairable s k off
  let s := if fix then s else addPoison (stackDa k off) s
  let n := vat (vat s.slices k).ueBeat ch + 1
  let missed := vat (vat s.slices k).ueMissed ch
  let tell := decide (n ≤ 4)
  let s := onSlice k (fun S => { S with ue := sat16 S.ue, ueBeat := vupd S.ueBeat ch fun _ => n,
                                        ueMissed := vupd S.ueMissed ch fun m => if tell then 0 else m + 1 }) s
  let s := if tell then memUe k ch off missed fix s else s
  if reservedTop off ∨ 64 < n then partLoss .slice k 4 s else s

/-- An uncorrectable read of one access of a far part (R662, R663, R667, R668). -/
def farUe (kind : PartKind) (num da : Nat) (s : State) : State :=
  let P := match kind with | .dimm => vat s.dimms num | _ => vat s.cxl (num - 4)
  let n := P.ueBeat + 1
  let tell := decide (n ≤ 4)
  let g (d : FarPart) : FarPart :=
    { d with ue := sat16 d.ue, ueBeat := n, ueMissed := if tell then 0 else d.ueMissed + 1 }
  let s := addPoison da s
  let s := match kind with
    | .dimm => { s with dimms := vupd s.dimms num g }
    | _ => { s with cxl := vupd s.cxl (num - 4) g }
  let s := if tell then memUe (dieB (partBridge kind num)) num (da % 2 ^ 52) P.ueMissed false s else s
  if 64 < n then partLoss kind num (if kind = .dimm then 0x16 else 0x1A) s else s

/-- Device address of an access of a DIMM: the map of R659 read backwards. -/
def dimmDa (s : State) (d a : Nat) : Nat :=
  let b := d / 8
  let ks := socketsOf s b
  let g := a / 256 * ks.length + ks.findIdx (· == d)
  regionBase 4 + (if b = 0 then 0 else ddrSplit s) + g * 256 + a % 256

/-- The scrub reads the next atom of a stack, or the next access of a DIMM. -/
def scrub (p : ScrubPart) (r : EccResult) (s : State) : State :=
  match p with
  | .stack k =>
    let off := (vat s.slices k.val).scrub
    let s := onSlice k.val (fun S => { S with scrub := if off + 32 < stackLimit then off + 32 else 0 }) s
    match r with
    | .good => s
    | .corrected => onSlice k.val (fun S => { S with ce := sat16 S.ce }) s
    | .uncorrectable => stackUe k.val off s
  | .dimm d =>
    let a := (vat s.dimms d.val).scrub
    let s := { s with dimms := vupd s.dimms d.val fun x => { x with scrub := if a + 64 < dimmBytes s then a + 64 else 0 } }
    match r with
    | .good => s
    | .corrected => { s with dimms := vupd s.dimms d.val fun x => { x with ce := sat16 x.ce } }
    | .uncorrectable => farUe .dimm d.val (dimmDa s d.val a) s

/-- The part that a scrub reads is live. -/
def scrubLive (s : State) : ScrubPart → Bool
  | .stack k => sliceLive s k.val
  | .dimm d => partLive s .dimm d.val && !(vat s.brg (d.val / 8)).offline

/-- PATROL_SCRUB: the next read of a part, and what its ECC finds (R652, R662). -/
def execPatrolScrub (p : ScrubPart) (r : EccResult) (s : State) : Host.Outcome State Fault Refusal :=
  .next (if mayLose s && scrubLive s p then scrub p r s else s)

/-- The event records of expander `e` are taken in turn (R667, R668, Table 17-8). -/
def cxlRecord (e : Nat) (s : State) (r : CxlRecord) : State :=
  if !partLive s .expander (4 + e) then s
  else match r with
  | .corrected => { s with cxl := vupd s.cxl e fun d => { d with ce := sat16 d.ce } }
  | .uncorrectable dpa => if cxlSpan s e ≤ dpa then s else farUe .expander (4 + e) (regionBase 5 + cxlStart s e + dpa / 64 * 64) s
  | .fatal => partLoss .expander (4 + e) 0x19 s

/-- CXL_EVENT_INTERRUPT of expander `e`: the device reads its event records (R664). -/
def execCxlEventInterrupt (e : Fin 4) (rs : List CxlRecord) (s : State) : Host.Outcome State Fault Refusal :=
  .next (if mayLose s && !(vat s.brg (e.val / 2)).offline then rs.foldl (cxlRecord e.val) s else s)

end Sys2Proof.Machine
end

