-- ==== Sys2Proof/Machine/Counters.lean ====
section
/-!
DEFINITION. Sys2Proof/Machine/Counters.lean: the periodic dump and COUNTER_SNAP (chapter 21).
-/
namespace Sys2Proof.Machine

/-! ### Counters as a record holds them (R807) -/

/-- The last latch, taken now if there is none. -/
def latched (s : State) : State := if s.cnt.latch.isSome then s else takeLatch s

/-- A programmable counter of a bank: its value, event number, FILTERED, CHANGED and DISABLED. -/
def progWord (draw : Nat) (b : Bank) (i : Nat) : List Byte :=
  let sel := (nth b.sel i 0).toNat
  let e := bits sel 0 12
  let v := (nth b.prog i 0).toNat + if bit sel 12 && !countedEvent e then (Config.freeWord (draw + i)).toNat else 0
  leBytes 8 (v % 2 ^ 48 + put e 48 12 + flag (bit sel 13 || bit sel 20 || bit sel 25) 60
    + flag (nth b.changed i false) 61 + flag (!bit sel 12) 62)

/-- The programmable counters of a bank. -/
def progWords (draw : Nat) (b : Bank) : List Byte := ((List.range b.prog.length).map (progWord draw b)).flatten

/-- The fixed counters of a bank; what the model leaves open is a free value (log 20). -/
def fixedWords (draw : Nat) (b : Bank) : List Byte :=
  ((List.range b.fixed.length).map fun i =>
    leBytes 8 (((nth b.fixed i 0).toNat + (Config.freeWord (draw + i)).toNat) % 2 ^ 48)).flatten

/-- The counters of a function's bank (Table 21-2). -/
def funcWords (c : Vector (BitVec 64) 8) : List Byte := (c.toList.map fun x => leBytes 8 x.toNat).flatten

/-- A section: its header and its counters, all zero on a die that is offline (R807, R808). -/
def dumpSection (die n : Nat) (off : Bool) (body : List Byte) : List Byte :=
  leBytes 1 die ++ leBytes 1 (flag off 0) ++ leBytes 2 n ++ zeros 12 ++ if off then zeros body.length else body

/-- The section of slice `k`. -/
def sliceSection (s : State) (l : Latch) (k : Nat) : List Byte :=
  let d := l.draw + 64 * k
  let core (c : Nat) : List Byte :=
    fixedWords (d + 22 + 5 * c) (vat l.core (8 * k + c)) ++ progWords (d + 23 + 5 * c) (vat l.core (8 * k + c))
  dumpSection k 62 (!sliceLive s k)
    (progWords d (vat l.slice k) ++ ((List.range 8).map core).flatten ++ fixedWords (d + 16) (vat l.slice k))

/-- The section of bridge `b`. -/
def bridgeSection (s : State) (l : Latch) (b : Nat) : List Byte :=
  let d := l.draw + 1100 + 80 * b
  dumpSection (dieB b) 326 (vat s.brg b).offline
    (progWords d (vat l.bridge b) ++ fixedWords (d + 16) (vat l.bridge b)
      ++ ((List.range 32).map fun i => funcWords (vat l.funcs (32 * b + i))).flatten)

/-- The control section. -/
def controlSection (l : Latch) : List Byte := dumpSection dieC 8 false (progWords (l.draw + 1300) l.control)

/-- The QoS section: the records of the last window closed. -/
def qosSection (s : State) : List Byte := dumpSection dieC 32 false s.qos.recs.flatten

/-- Section `i` in the bit order of Table 21-8, for a command of function `f`. -/
def sectionOf (s : State) (l : Latch) (f i : Nat) : List Byte :=
  if i < 17 then sliceSection s l i
  else if i < 19 then bridgeSection s l (i - 17)
  else if i = 19 then controlSection l
  else if i = 20 then qosSection s
  else dumpSection (dieB (bridgeOf f)) 8 false (funcWords (vat l.funcs f))

/-- What a record's header says (Table 21-6). -/
structure DumpHead where
  flags : Nat
  seq : Nat
  opened : Nat
  lost : Nat
  sections : Nat
  len : Nat
  deriving DecidableEq, Repr

/-- The epoch that holds the last tick before a position at which an epoch may just have opened. -/
def epochBefore (s : State) (pos : Nat) : Nat := if s.led.openPos = pos then s.led.epoch - 1 else s.led.epoch

/-- The 64-byte header of Table 21-6 for a latch. -/
def dumpHeader (s : State) (pos : Nat) (h : DumpHead) : List Byte :=
  leBytes 4 0x504D5544 ++ leBytes 2 1 ++ leBytes 2 0x0E17 ++ leBytes 2 h.flags ++ zeros 2 ++ leBytes 4 s.cfg.cur.gen
    ++ leBytes 8 h.seq ++ leBytes 8 h.opened ++ leBytes 8 pos ++ leBytes 8 (epochBefore s pos) ++ leBytes 4 h.lost
    ++ leBytes 4 h.sections ++ leBytes 4 h.len ++ zeros 4

/-- FLAGS beyond PHASE and SNAP: HOLDOVER, STRETCH, SPLIT, DEGRADED and FIRST. -/
def dumpFlagBits (s : State) : Nat :=
  s.cnt.dumpFlags.toNat / 2 % 8 * 2 + flag (degradedNow s) 4 + flag (decide (s.cnt.dumpSeq = 1)) 5

/-! ### The periodic dump (R804 to R808) -/

/-- Bytes of a dump's header and sections. -/
def dumpLen : Nat := 0x3B20

/-- The 16,384-byte record of the interval that closes (Tables 21-6 and 21-7). -/
def dumpRecord (s : State) (l : Latch) : List Byte :=
  let h : DumpHead := { flags := flag s.cnt.dump.phase 0 + dumpFlagBits s, seq := s.cnt.dumpSeq, opened := s.cnt.dumpOpen,
                        lost := s.cnt.dumpLost, sections := 2 ^ 21 - 1, len := dumpLen }
  fitTo (dumpHeader s l.pos h ++ ((List.range 21).map (sectionOf s l 0)).flatten) 16384

/-- Select registers written in an interval are noted for that interval only (R818). -/
def freshBank (b : Bank) : Bank := { b with changed := b.changed.map fun _ => false }

/-- The next interval opens: HOLDOVER outside LOCKED, STRETCH while beats are stretched, SPLIT when the epoch that opened
with it follows a split (R99). -/
def openDump (s : State) : State :=
  let fl := flag s.tb.held 1 + flag (stretchedBeat s.tb) 2
    + flag (s.led.openPos == posOf s && s.led.flags.getLsbD 2) 3
  { s with cnt := { s.cnt with dumpOpen := posOf s, dumpLeft := s.image.dumpBeats, dumpFlags := BitVec.ofNat 16 fl,
                               slice := s.cnt.slice.map freshBank, core := s.cnt.core.map freshBank,
                               bridge := s.cnt.bridge.map freshBank, control := freshBank s.cnt.control } }

/-- The record goes to the steward's ring and its vector is raised, or it is counted in LOST (R805, R806). -/
def deliverDump (bytes : List Byte) (s : State) : State :=
  let r := s.cnt.dump
  if ringRoom r && mayIssue s 0 then
    let t := hostWrite 0 (r.addr.toNat + 16384 * r.tail) bytes s
    houseBytes s 0 bytes.length (raiseMsix 0 r.vector { t with cnt := { t.cnt with dump := ringStep r, dumpLost := 0 } })
  else { s with cnt := { s.cnt with dump := ringLost r, dumpLost := s.cnt.dumpLost + 1 } }

/-- COUNTER_DUMP: the record is formed, kept, and delivered, and the next interval opens. -/
def counterDump (s : State) : State :=
  let s := latched s
  match s.cnt.latch with
  | none => s
  | some l =>
    let bytes := dumpRecord s l
    let s := deliverDump bytes s
    openDump { s with cnt := { s.cnt with dumps := (bytes :: s.cnt.dumps).take 4, dumpSeq := s.cnt.dumpSeq + 1 } }

/-- COUNTER_DUMP at the close tick, after the QoS window and the epoch (R105, R805). -/
def execCounterDump (s : State) : Host.Outcome State Fault Refusal :=
  .next (if beforeEpoch s && !epochDue s && dumpDue s then counterDump s else s)

/-! ### COUNTER_SNAP (R809 to R811) -/

/-- SECTIONS. -/
def snapSections (bs : List Byte) : Nat := param bs 0 4 % 2 ^ 22

/-- Destination of the snapshot. -/
def snapDst (bs : List Byte) (n : Nat) : Rng :=
  ⟨bit (param bs 4 1) 0, param bs 8 8, n⟩

/-- Bytes of the sections asked for. -/
def snapLen (secs : Nat) : Nat :=
  64 + ((List.range 22).map fun i =>
    if !bit secs i then 0 else if i < 17 then 512 else if i < 19 then 2624 else if i = 20 then 1040 else 80).sum

/-- CTL_CNT_PERM lets the function capture the sections (R802). -/
def snapPermitted (s : State) (f secs : Nat) : Bool :=
  let p := (vat s.funcs f).cntPerm.toNat
  f == 0 || ((secs % 2 ^ 17 == 0 || bit p 1) && (bits secs 17 2 == 0 || bit p 2) && (!bit secs 19 || bit p 3)
    && (!bit secs 20 || bit p 4) && (!bit secs 21 || bit p 0))

/-- COUNTER_SNAP once admitted: the checks of Table 21-9; then the wait for the capture tick (R810, R811). -/
def startSnap (u : Nat) (s : State) : State :=
  match cmdOf s u with
  | none => s
  | some c =>
    let s := stamp u 1 false s
    let secs := snapSections c.bytes
    let dst := snapDst c.bytes (snapLen secs)
    if secs = 0 then badOpcode u 1 s
    else if dst.addr % 64 ≠ 0 then badOpcode u 2 s
    else if !snapPermitted s c.func secs then endCmd u 0x12 0 s
    else
      let kind := rngKind s c.func true dst
      if kind ≠ 0 then failRange u kind dst.addr s
      else
        let s := onCmd u (fun x => { x with edges := 8, checked := true }) s
        let ats := translations s c.func [dst]
        if ats.isEmpty then s else askHost u ats s

/-- COUNTER_SNAP from queue pair `q`. -/
def execCounterSnap (q : Fin 256) (s : State) : Host.Outcome State Fault Refusal :=
  .next (admitCommand (· == 0x70) q.val startSnap s)

/-- The bytes of a snapshot (R811). -/
def snapshot (s : State) (l : Latch) (c : Cmd) : List Byte :=
  let secs := snapSections c.bytes
  let h : DumpHead := { flags := flag true 6 + dumpFlagBits s, seq := 0, opened := l.pos, lost := 0, sections := secs,
                        len := snapLen secs }
  dumpHeader s l.pos h ++ (((List.range 22).filter fun i => bit secs i).map (sectionOf s l c.func)).flatten

/-- The snapshot is written, and the command's work ends with DETAIL LENGTH (R811). -/
def captureSnap (c : Cmd) (s : State) : State :=
  let s := latched s
  match s.cnt.latch with
  | none => s
  | some l =>
    let bytes := snapshot s l c
    let dst := snapDst c.bytes bytes.length
    let kind := rngKind s c.func true dst
    if kind ≠ 0 then failRange c.uid kind dst.addr s
    else
      let s := if dst.dev then chargeCmd c dst.addr bytes.length s else s
      let (ok, s) := rngWrite c dst.dev dst.addr bytes s
      if ok then stamp c.uid 10 false (endCmd c.uid 0 bytes.length s) else endCmd c.uid 0x22 0 s

/-- COUNTER_SNAP_CAPTURE of command `u`: the eighth tick edge after its admission has passed, the window that closes at it
has been closed, and its translation is there (R811). -/
def execCounterSnapCapture (u : Nat) (s : State) : Host.Outcome State Fault Refusal :=
  .next (match cmdOf s u with
    | none => s
    | some c =>
      if opcodeOf c.bytes == 0x70 && c.checked && c.phase == .working && c.wants.isEmpty && c.edges == 0 && !qosDue s then
        captureSnap c s
      else s)

end Sys2Proof.Machine
end

