-- ==== Sys2Proof/Machine/Image.lean ====
section
/-!
DEFINITION. Sys2Proof/Machine/Image.lean: the E17 image: its header, directory and sections, and the checks of Table 4-7
(chapter 4, R504, R526, R573, R574, R615, R657, R723, R875).
-/
namespace Sys2Proof.Machine

/-! ### Slots and headers (R121, R123) -/

/-- Magic of an image header (Table 4-3). -/
def imageMagic : Nat := 0x494D473731454E47

/-- `n` bytes of an image slot from `off`; what lies beyond the bytes written reads as erased flash. -/
def slotBytes (f : Flash) (off n : Nat) : List Byte :=
  let t := (f.slot.drop off).take n
  t ++ List.replicate (n - t.length) 0xFF

/-- Some byte of a range is not zero. -/
def someSet (b : List Byte) (off n : Nat) : Bool := !allZero (slice b off n)

/-- Every pair of a list, in order, meets `p`. -/
def pairsOk {α : Type} (p : α → α → Bool) : List α → Bool
  | [] => true
  | x :: xs => xs.all (p x) && pairsOk p xs

/-- LENGTH and FORMAT (check BAD_LENGTH). -/
def lengthOk (hdr : List Byte) : Bool :=
  let n := numAt hdr 0x10 4
  numAt hdr 8 2 == 1 && decide (n % 64 = 0 ∧ 320 ≤ n ∧ n ≤ 100663296)

/-- PART and stepping (check BAD_TARGET, R32). -/
def targetOk (stepping : Nat) (hdr : List Byte) : Bool :=
  numAt hdr 0xA 2 == 0x0E17 && decide (numAt hdr 0xC 1 ≤ stepping ∧ stepping ≤ numAt hdr 0xD 1)

/-- The owner key (check OWNER_KEY, R126). -/
def ownerOk (owner : Option (List Byte)) (hdr : List Byte) : Bool := owner == some (sha256 (slice hdr 0x40 32))

/-- The signature of an image of LENGTH bytes (check SIGNATURE, R125). -/
def signatureOk (img : List Byte) : Bool :=
  edVerify (slice img 0x40 32) (sha256 (img.take (img.length - 64))) (img.drop (img.length - 64))

/-- Reserved fields and bits of the header are zero (check RESERVED_CODE). -/
def headerClean (img : List Byte) : Bool :=
  !(someSet img 0xE 2 || someSet img 0x16 2 || someSet img 0x30 16 || someSet img 0x60 160
    || decide (2 ^ 16 ≤ numAt img 0x28 4 ∨ 2 ^ 4 ≤ numAt img 0x2C 4))

/-- BEAT_NOM, EPOCH_BEATS and DUMP_BEATS lie in their ranges (check RANGE). -/
def headerRanges (img : List Byte) : Bool :=
  let nom := numAt img 0x20 4
  let ep := numAt img 0x24 2
  let du := numAt img 0x26 2
  decide (40000 ≤ nom ∧ nom ≤ 70000 ∧ 10 ≤ ep ∧ ep ≤ 3000 ∧ 1 ≤ du ∧ du ≤ 3000)

/-! ### The section directory (R124, R127) -/

/-- One directory entry; `clean` says that its reserved fields are zero. -/
structure DirEntry where
  type : Nat
  inst : Nat
  off : Nat
  size : Nat
  clean : Bool
  deriving DecidableEq, Repr

/-- The directory entries of an image. -/
def dirEntries (img : List Byte) : List DirEntry :=
  (List.range (numAt img 0x14 2)).map fun i =>
    let e := slice img (0x100 + 32 * i) 32
    { type := numAt e 0 2, inst := numAt e 2 2, off := numAt e 8 4, size := numAt e 12 4,
      clean := !(someSet e 4 4 || someSet e 16 16) }

/-- Check DIRECTORY. -/
def directoryOk (img : List Byte) : Bool :=
  let n := numAt img 0x14 2
  let es := dirEntries img
  let first := 0x100 + 32 * n
  decide (7 ≤ n ∧ n ≤ 64 ∧ first + 64 ≤ img.length)
    && (es.all fun e => decide (1 ≤ e.type ∧ e.type ≤ 13 ∧ e.inst = 0 ∧ e.off % 64 = 0 ∧ first ≤ e.off
          ∧ e.off + e.size + 64 ≤ img.length))
    && pairsOk (fun a b => a.type != b.type && !rangesMeet a.off a.size b.off b.size) es
    && ((List.range 7).all fun t => es.any (·.type == t + 1))

/-- The bytes of a section; none when the image lacks it. -/
def imageSection (img : List Byte) (type : Nat) : Option (List Byte) :=
  ((dirEntries img).find? (·.type == type)).map fun e => slice img e.off e.size

/-- The bytes of a section, empty when the image lacks it. -/
def imageBytes (img : List Byte) (type : Nat) : List Byte := (imageSection img type).getD []

/-! ### Checks as lists

A section's checks are a list of facts with the code that each fails as; the image's code is the lowest of those that
fail, since Table 4-7 is in check order (R135). -/

/-- The lowest code among the facts that fail; 0 when all stand. -/
def lowestFail (l : List (Bool × Nat)) : Nat :=
  match (l.filter (!·.1)).map (·.2) with
  | [] => 0
  | c :: cs => cs.foldl min c

/-- A code of another check: 0 stands. -/
def asFact (code : Nat) : Bool × Nat := (code == 0, code)

/-! ### FUNC_MAP (R504, R525, R526) -/

/-- EN and VECTORS of the 64 functions. -/
def readFuncs (b : List Byte) : List (Bool × Nat) :=
  (List.range 64).map fun f => (bit (numAt b (16 * f) 1) 0, numAt b (16 * f + 2) 2)

/-- FUNC_MAP enables a function. -/
def mapEnables (fs : List (Bool × Nat)) (f : Nat) : Bool := (nth fs f (false, 0)).1

/-- R504. -/
def funcsOk (fs : List (Bool × Nat)) : Bool :=
  let en := mapEnables fs
  let vec (f : Nat) : Nat := (nth fs f (false, 0)).2
  en 0
    && ((List.range 64).all fun f =>
        if en f then
          decide (1 ≤ vec f ∧ vec f ≤ 2048) && (f % 16 == 0 || en (f - f % 16)) && (f % 16 < 2 || en (f - 1))
        else vec f == 0)
    && (List.range 4).all fun p => decide (((List.range 16).map fun v => vec (16 * p + v)).sum ≤ 2048)

/-- FUNC, RESERVE and MAXF of the 256 queue pairs, as they stand. -/
def rawQueues (b : List Byte) : List (Nat × Nat × Nat) :=
  (List.range 256).map fun q => (numAt b (0x400 + 8 * q) 1, numAt b (0x402 + 8 * q) 2, numAt b (0x404 + 8 * q) 2)

/-- R526, the failures of RANGE. -/
def queueRanges (e : Nat × Nat × Nat) : Bool :=
  let (f, r, m) := e
  if f = 0xFF then r == 0 && m == 0
  else decide (f ≤ 0x3F ∧ r ≤ 2048 ∧ (m = 0 ∨ (r ≤ m ∧ m ≤ 2048)))

/-- RESERVE summed over a bridge's queue pairs (R526). -/
def reserveSum (qs : List (Nat × Nat × Nat)) (b : Nat) : Nat :=
  ((qs.filter fun q => q.1 / 32 == b).map (·.2.1)).sum

/-- Checks of FUNC_MAP. -/
def funcMapChecks (b : List Byte) : List (Bool × Nat) :=
  let fs := readFuncs b
  let qs := rawQueues b
  [(b.length == 3072, ckRange), (funcsOk fs, ckRange), (qs.all queueRanges, ckRange),
   (qs.all fun q => decide (0x3F < q.1) || mapEnables fs q.1, ckAssignment),
   (decide (reserveSum qs 0 ≤ 2048 ∧ reserveSum qs 1 ≤ 2048), ckAssignment)]

/-- The queue-pair assignment. -/
def readQueues (b : List Byte) : List (Option Nat × Nat × Nat) :=
  (rawQueues b).map fun q => (if q.1 ≤ 0x3F then some q.1 else none, q.2)

/-! ### PEER_LIST (R573, R574) -/

/-- Requester entries. -/
def readReqs (b : List Byte) : List (Nat × Nat) :=
  (List.range (numAt b 0 2)).map fun i => (numAt b (16 + 8 * i) 1, numAt b (18 + 8 * i) 2)

/-- Zone entries. -/
def readZones (b : List Byte) : List Zone :=
  (List.range (numAt b 2 2)).map fun j =>
    let z := slice b (16 + 8 * numAt b 0 2 + 32 * j) 32
    { id := numAt z 0 1, port := numAt z 1 1, owner := numAt z 2 1, reqMask := numAt z 4 4, da := numAt z 8 8,
      size := numAt z 0x10 8, apOff := numAt z 0x18 4 }

/-- The own fields of a zone (Table 15-4, R574). -/
def zoneOk (fs : List (Bool × Nat)) (reqs : List (Nat × Nat)) (z : Zone) : Bool :=
  decide (z.id ≤ 63 ∧ z.port ≤ 7 ∧ z.owner ≤ 63 ∧ z.da % 4096 = 0 ∧ 4096 ≤ z.size ∧ z.size ≤ 67108864
      ∧ z.size % 4096 = 0 ∧ z.apOff % 4096 = 0)
    && (z.da / 2 ^ 52 == 1 || z.da / 2 ^ 52 == 3) && mapEnables fs z.owner
    && (List.range 32).all fun i => !bit z.reqMask i || (match reqs[i]? with | some r => r.1 == z.port | none => false)

/-- A port that PEER_LIST may name: not one that the header field CXL marks (R494, R574). -/
def peerPort (cxl p : Nat) : Bool := decide (p ≤ 7) && !(decide (4 ≤ p) && bit cxl (p - 4))

/-- A zone lies where R574 asks. -/
def zonePlaced (c : Carve) (z : Zone) : Bool :=
  if z.da / 2 ^ 52 = 1 then
    let k := bits z.da 25 5
    let o := z.da % 2 ^ 25
    decide (k ≤ 16) && bits z.da 30 22 == 0 && decide (o + z.size ≤ cribSize)
      && covered ((c.cribParts.filter fun p => p.func == z.owner && p.scratch && bit p.slices k).map fun p => (p.off, p.size)) o z.size
  else
    let o := z.da % 2 ^ 52
    decide (c.poolBytes ≤ o ∧ o + z.size ≤ 16 * c.stripeSize)

/-- Checks of PEER_LIST. -/
def peerChecks (fs : List (Bool × Nat)) (cxl : Nat) (c : Carve) (b : List Byte) : List (Bool × Nat) :=
  let reqs := readReqs b
  let zs := readZones b
  [(decide (16 ≤ b.length ∧ reqs.length ≤ 32 ∧ zs.length ≤ 64) && b.length == 16 + 8 * reqs.length + 32 * zs.length, ckRange),
   (reqs.all fun r => peerPort cxl r.1, ckRange), (zs.all fun z => peerPort cxl z.port && zoneOk fs reqs z, ckRange),
   (pairsOk (fun a b => a.id != b.id && !(a.port == b.port && rangesMeet a.apOff a.size b.apOff b.size)
      && !rangesMeet a.da a.size b.da b.size) zs, ckRange),
   (zs.all (zonePlaced c), ckCapacity)]

/-! ### MEM_CARVE (R873 to R875, R657) -/

/-- Crib parts as they stand: KIND beside the part. -/
def rawParts (b : List Byte) : List (Nat × CribPart) :=
  (List.range (numAt b 0x28 2)).map fun i =>
    let e := slice b (0x240 + 32 * i) 32
    (numAt e 1 1, { func := numAt e 0 1, scratch := numAt e 1 1 == 1, slices := numAt e 4 4 % 2 ^ 17, off := numAt e 8 4,
                    size := numAt e 12 4 })

/-- MEM_CARVE (Tables 4-12 to 4-14, 17-5). -/
def readCarve (b : List Byte) : Carve :=
  let nc := numAt b 0x28 2
  let far := numAt b 0x2C 4
  { liftBytes := numAt b 0 4, kvPoolBytes := numAt b 4 4, stripeBase := numAt b 0x10 8, stripeSize := numAt b 0x18 8,
    poolBytes := numAt b 0x20 8, quotas := (List.range 64).map fun f => numAt b (0x40 + 8 * f) 8,
    cribParts := (rawParts b).map (·.2),
    stackRanges := (List.range (numAt b 0x2A 2)).map fun j =>
      let e := slice b (0x240 + 32 * (nc + j)) 32
      { func := numAt e 0 1, base := numAt e 8 8, size := numAt e 0x10 8 },
    dimmGb := numAt b far 2, cxlGb := (List.range 4).map fun i => numAt b (far + 0x10 + 2 * i) 2,
    farRanges := (List.range (numAt b (far + 2) 2)).map fun j =>
      let e := slice b (far + 0x20 + 32 * j) 32
      { func := numAt e 0 1, base := numAt e 8 8, size := numAt e 0x10 8 } }

/-- The counts and the size of the section (R873, R875, Table 17-5). -/
def carveShape (b : List Byte) : Bool :=
  let nc := numAt b 0x28 2
  let ns := numAt b 0x2A 2
  let far := numAt b 0x2C 4
  let nr := numAt b (far + 2) 2
  decide (nc ≤ 1024 ∧ ns ≤ 256 ∧ far = 0x240 + 32 * (nc + ns) ∧ nr ≤ 128 ∧ b.length = far + 32 + 32 * nr)

/-- LIFT_BYTES is 0, or 64 KiB × 2^n up to 16 MiB. -/
def liftOk (n : Nat) : Bool := n == 0 || (List.range 9).any fun i => n == 65536 * 2 ^ i

/-- R875's ranges. -/
def carveRanges (fs : List (Bool × Nat)) (c : Carve) : Bool :=
  let en := mapEnables fs
  liftOk c.liftBytes
    && decide (c.kvPoolBytes % 4096 = 0 ∧ c.stripeBase % 65536 = 0 ∧ c.stripeSize % 65536 = 0 ∧ c.poolBytes % 65536 = 0
        ∧ c.poolBytes ≤ 16 * c.stripeSize)
    && ((List.range 64).all fun f => let q := nth c.quotas f 0; q % 65536 == 0 && (q == 0 || en f))
    && (c.cribParts.all fun p => decide (p.off % 4096 = 0 ∧ p.size % 4096 = 0 ∧ p.size ≠ 0 ∧ p.func ≤ 63 ∧ p.slices ≠ 0) && en p.func)
    && c.stackRanges.all fun r => decide (r.base % 65536 = 0 ∧ r.size % 65536 = 0 ∧ r.size ≠ 0 ∧ r.func ≤ 63) && en r.func

/-- R657's ranges of the far-tier block, with the header's DIMMS and CXL. -/
def farRangesOk (fs : List (Bool × Nat)) (dimms cxl : Nat) (c : Carve) : Bool :=
  let count (b : Nat) : Nat := ((List.range 8).filter fun i => bit dimms (8 * b + i)).length
  let legal (n : Nat) : Bool := n == 0 || n == 1 || n == 2 || n == 4 || n == 8
  (c.dimmGb == 16 || c.dimmGb == 32 || c.dimmGb == 64 || c.dimmGb == 128) && legal (count 0) && legal (count 1)
    && ((List.range 4).all fun i =>
        let g := nth c.cxlGb i 0
        if bit cxl i then decide (1 ≤ g ∧ g ≤ 4000) else g == 0)
    && c.farRanges.all fun r => (r.base / 2 ^ 52 == 4 || r.base / 2 ^ 52 == 5) && decide (r.base % 65536 = 0 ∧ r.size % 65536 = 0)
        && decide (r.func ≤ 63) && mapEnables fs r.func

/-- R875's fit of the cribs; `code` is the size of the kernel library. -/
def cribsFit (c : Carve) (code : Nat) : Bool :=
  let (lo, hi) := scratchCarve c
  codeFits c code
    && (c.cribParts.all fun p =>
        if p.scratch then rangeIn p.off p.size lo (hi - lo - 1572864) else rangeIn p.off p.size c.liftBytes c.kvPoolBytes)
    && pairsOk (fun a b => Nat.land a.slices b.slices == 0 || !rangesMeet a.off a.size b.off b.size) c.cribParts

/-- R875's fit of the stack and R657's of the far ranges; `dflt` is the start of the default-row extent. -/
def rangesFit (s : State) (c : Carve) (dflt : Nat) : Bool :=
  let far := (carveClaims c).filter fun x => x.tier != .stack
  decide (c.stripeBase + c.stripeSize ≤ dflt)
    && (c.stackRanges.all fun r => decide (r.base + r.size ≤ dflt) && !rangesMeet r.base r.size c.stripeBase c.stripeSize)
    && pairsOk (fun a b => !rangesMeet a.base a.size b.base b.size) c.stackRanges
    && far.all (withinTier s) && pairsOk (fun a b => a.tier != b.tier || !rangesMeet a.base a.size b.base b.size) far

/-! ### CLASS_DECL and LEDGER (R615, R616, R624, R682) -/

/-- The 32 entries of CLASS_DECL. -/
def readClasses (b : List Byte) : List (Read ClassEnt) :=
  (List.range 32).map fun i => readClass (decide (16 ≤ i)) (slice b (64 * i) 64)

/-- The entries in force; an entry that cannot be read stands as no class. -/
def classVector (l : List (Read ClassEnt)) : Vector ClassEnt 32 :=
  Vector.ofFn fun i : Fin 32 => match l[i.val]? with | some (.ok e) => e | _ => noClass

/-- The code of a record that could not be read, 0 otherwise. -/
def readCode {α : Type} : Read α → Nat
  | .ok _ => 0
  | .error c => c

/-- Checks of CLASS_DECL. -/
def classChecks (img : ImageCfg) (b : List Byte) : List (Bool × Nat) :=
  let l := readClasses b
  let v := classVector l
  [(b.length == 2048, ckRange), (classesOk v, ckRange), (slotsOk v, ckAssignment), (guaranteesOk img v, ckGuarantee)]
    ++ l.map fun e => asFact (readCode e)

/-! ### POWER_SEQ (R129, R130, R722, R723, Table 19-6) -/

/-- The sequences of the section, in order: ID and entries; none when it does not divide into at most `fuel`. -/
def readSeqs : Nat → List Byte → Option (List (Nat × List SeqEntry))
  | _, [] => some []
  | 0, _ => none
  | fuel + 1, bs =>
    let n := numAt bs 2 2
    if bs.length < 8 + 8 * n then none
    else
      let es : List SeqEntry := (List.range n).map fun j =>
        let e := slice bs (8 + 8 * j) 8
        { op := numAt e 0 1, domain := numAt e 2 2, arg := numAt e 4 4 }
      (readSeqs fuel (bs.drop (8 + 8 * n))).map ((numAt bs 0 1, es) :: ·)

/-- The domains that entries of a sequence may name (Table 19-6). -/
def seqAllowed (id d : Nat) : Bool :=
  if id = 2 then decide (d ≤ 17) else if id = 3 then decide (306 ≤ d ∧ d ≤ 315) else decide (d ≤ 325)

/-- Domains on, clamped, and switched on without WAIT_GOOD since, as a sequence runs; `ok` while R723 stands. -/
structure SeqWalk where
  on : List Nat
  clamped : List Nat
  unproved : List Nat
  ok : Bool
  deriving DecidableEq, Repr

/-- A list without a number. -/
def without (d : Nat) (l : List Nat) : List Nat := l.filter (· != d)

/-- One entry of a sequence is followed (R723). -/
def walkEntry (w : SeqWalk) (e : SeqEntry) : SeqWalk :=
  let d := e.domain
  match e.op with
  | 1 => { w with on := d :: w.on, unproved := d :: w.unproved }
  | 2 => { w with on := without d w.on, ok := w.ok && w.clamped.contains d }
  | 3 => { w with unproved := without d w.unproved }
  | 6 => { w with clamped := d :: w.clamped }
  | 7 => { w with clamped := without d w.clamped, ok := w.ok && !w.unproved.contains d }
  | _ => w

/-- The fields of one entry (R129, R130, Table 4-5, Table 19-6). END, whose place ends the sequence, is held to R723's
rule alone, that no entry names domains 326 to 331; DELAY, which acts on no domain either, is held to the domains that Table 19-6 lets a sequence name
(DESIGN CHOICE, log 117). -/
def seqEntryOk (id : Nat) (e : SeqEntry) : Bool :=
  (if e.op = 0 then decide (e.domain ≤ 325) else seqAllowed id e.domain)
    && (e.op != 4 || decide (e.arg ≤ 10000)) && (e.op != 5 || decide (128 ≤ e.arg ∧ e.arg ≤ 1024))
    && (id != 4 || e.op == 0 || e.op == 4 || e.op == 5) && (id != 1 || e.op != 3)

/-- Microseconds of a sequence (R722). -/
def seqTime (es : List SeqEntry) : Nat :=
  es.length + ((es.filter fun e => e.op == 3 || e.op == 4).map (·.arg)).sum

/-- END is the last entry and stands nowhere else, of at most 4,096 (R130). -/
def seqEnds (es : List SeqEntry) : Bool :=
  decide (es.length ≤ 4096) && (match es.getLast? with | some e => e.op == 0 | none => false) && es.dropLast.all (·.op != 0)

/-- Domains 0 to `n` − 1. -/
def allDomains (n : Nat) (p : Nat → Bool) : Bool := (List.range n).all p

/-- What a sequence leaves (Table 19-6); `used` are the port, DDR and window domains that the image uses. No
domain is clamped when a sequence begins (DESIGN CHOICE, log 3). -/
def seqResult (id : Nat) (used : List Nat) (es : List SeqEntry) : Bool :=
  let before := if id = 0 then [] else (List.range 326).filter (seqAllowed id)
  let w := es.foldl walkEntry { on := before, clamped := [], unproved := [], ok := true }
  let live (d : Nat) : Bool := w.on.contains d && !w.clamped.contains d
  let dead (d : Nat) : Bool := !w.on.contains d && w.clamped.contains d
  w.ok && match id with
    | 0 => decide (seqTime es ≤ 40000) && allDomains 306 live && [314, 315, 324, 325].all live && used.all live
    | 1 => decide (seqTime es ≤ 1000) && allDomains 326 dead
    | 2 => allDomains 18 dead
    | _ => true

/-- Domains of ports, DDR groups and window caches that the image uses (Table 19-6): the ports whose mode is not OFF, the
groups with a declared socket, and the window caches of bridges with an enabled function. -/
def usedDomains (fs : List (Bool × Nat)) (dimms cxl : Nat) (named : List Nat) : List Nat :=
  ((List.range 8).filter fun p =>
      if p < 4 then mapEnables fs (16 * p) else bit cxl (p - 4) || named.contains p).map portDomain
    ++ ((List.range 4).filter fun g => (List.range 4).any fun i => bit dimms (4 * g + i)).map
        (fun g => 310 + 10 * (g / 2) + g % 2)
    ++ ((List.range 2).filter fun b => (List.range 32).any fun i => mapEnables fs (32 * b + i)).map fun b => 313 + 10 * b

/-- Checks of POWER_SEQ. -/
def seqChecks (used : List Nat) (b : List Byte) : List (Bool × Nat) :=
  match readSeqs 16 b with
  | none => [(false, ckRange)]
  | some seqs =>
    [(seqs.any (·.1 == 0) && seqs.any (·.1 == 1), ckRange), (pairsOk (fun x y => x.1 != y.1) seqs, ckRange),
     (seqs.all fun q => decide (q.1 ≤ 4), ckReserved), (seqs.all fun q => q.2.all fun e => decide (e.op ≤ 7), ckReserved)]
      ++ seqs.flatMap fun q => [(seqEnds q.2 && q.2.all (seqEntryOk q.1) && seqResult q.1 used q.2, ckRange)]

/-! ### DVFS_THERMAL and FORMAT_DECODE (R131 to R133, R183, R731) -/

/-- The curves, from `n` of them; none when the section does not divide so. -/
def readCurves : Nat → List Byte → Option (List (List (Nat × Nat × Nat)))
  | 0, bs => if bs.isEmpty then some [] else none
  | n + 1, bs =>
    let k := numAt bs 0 2
    if k < 2 ∨ 16 < k ∨ bs.length < 8 + 8 * k then none
    else
      let pts := (List.range k).map fun j =>
        let o := 8 + 8 * j
        (numAt bs o 2, numAt bs (o + 2) 2, numAt bs (o + 4) 2)
      (readCurves n (bs.drop (8 + 8 * k))).map (pts :: ·)

/-- Neighbouring points of a list. -/
def neighbours {α : Type} (l : List α) : List (α × α) := l.zip (l.drop 1)

/-- Curve `c` meets R132 and R731. -/
def curveOk (c : Nat) (pts : List (Nat × Nat × Nat)) : Bool :=
  let first := (pts.head?).getD (0, 0, 0)
  let last := (pts.getLast?).getD (0, 0, 0)
  first.2 == (1024, 1024)
    && ((neighbours pts).all fun p => decide (p.1.1 < p.2.1 ∧ p.2.2.1 ≤ p.1.2.1 ∧ p.2.2.2 ≤ p.1.2.2))
    && (pts.all fun p => decide (128 ≤ p.2.1 ∧ 128 ≤ p.2.2))
    && if c = 0 then first.1 == 1520 && decide (last.1 ≤ 1680)
       else decide (1440 ≤ first.1 ∧ last.1 ≤ 1840) && (c != 2 || pts.all fun p => decide (512 ≤ p.2.1))

/-- Checks of DVFS_THERMAL. -/
def curveChecks (b : List Byte) : List (Bool × Nat) :=
  match readCurves 3 b with
  | none => [(false, ckRange)]
  | some cs => [((cs.zip (List.range 3)).all fun c => curveOk c.2 c.1, ckRange)]

/-- WIDTH and SCALE by format code (Table 4-6). -/
def widthScale : List (Nat × Nat) := [(32, 0), (16, 0), (16, 0), (8, 0), (8, 0), (8, 4), (4, 8)]

/-- Checks of FORMAT_DECODE: a CODE of 0x7 to 0xF is reserved, one above is out of range (R133, Table 4-6). -/
def formatChecks (b : List Byte) : List (Bool × Nat) :=
  (b.length == 112, ckRange) :: (List.range 7).flatMap fun i =>
    let e := slice b (16 * i) 16
    let code := numAt e 0 1
    let ovf := numAt e 2 1
    [(!decide (7 ≤ code ∧ code ≤ 15) && decide (ovf ≤ 1), ckReserved),
     (code == i && (numAt e 1 1, numAt e 3 1) == nth widthScale i (0, 0) && (decide (i < 5) || ovf == 0), ckRange)]

/-- OVF is SPECIAL, by format code. -/
def readSpecial (b : List Byte) : List Bool := (List.range 7).map fun i => numAt b (16 * i + 2) 1 == 1

/-! ### Registrations, KV declarations and kernels (R134, R174, R175, R340, R445) -/

/-- The records of TABLE_DECL or KV_DECL. -/
def declRecords (b : List Byte) : List (List Byte) := pieces 128 (numAt b 0 2) (b.drop 16)

/-- Their COUNT, their order and the section's size (R175). -/
def declShape (b : List Byte) : Bool :=
  let rs := declRecords b
  decide (16 ≤ b.length ∧ rs.length ≤ 4096) && b.length == 16 + 128 * rs.length
    && (neighbours rs).all fun p => decide (numAt p.1 0 2 < numAt p.2 0 2)

/-- The entries of DEFAULT_ROWS, `n` of them; none when the section does not divide so (R175). -/
def readDefaults : Nat → List Byte → Option (List (List Byte))
  | 0, bs => if bs.isEmpty then some [] else none
  | n + 1, bs =>
    let size := 16 + alignUp (numAt bs 4 4) 16
    if bs.length < size then none else (readDefaults n (bs.drop size)).map (bs.take size :: ·)

/-- The default-row entries of an image. -/
def defaultEntries (b : List Byte) : Option (List (List Byte)) :=
  if b.length < 16 then none else readDefaults (numAt b 0 2) (b.drop 16)

/-- A configuration with the facts that its registrations have been checked for. -/
abbrev Checked := Cfg × List (Bool × Nat)

/-- One registration of the image (R176). -/
def addTable (s : State) (en : Nat → Bool) (entries : List (List Byte)) (acc : Checked) (b : List Byte) : Checked :=
  match readRegistration en b (entries.find? fun e => numAt e 0 2 == numAt b 0 2) with
  | .error c => (acc.1, asFact c :: acc.2)
  | .ok t => ({ acc.1 with tables := acc.1.tables ++ [t] }, asFact (checkTable s acc.1 none t) :: acc.2)

/-- One KV declaration of the image (R341). -/
def addKv (s : State) (en : Nat → Bool) (acc : Checked) (b : List Byte) : Checked :=
  match readKv en b with
  | .error c => (acc.1, asFact c :: acc.2)
  | .ok d => ({ acc.1 with kvs := acc.1.kvs ++ [d] }, asFact (checkKv s acc.1 none d) :: acc.2)

/-- DEFAULT_ROWS entries stand in ascending order and name only tables that TABLE_DECL declares with INVALID = DEFAULT. -/
def defaultsOk (records entries : List (List Byte)) : Bool :=
  ((neighbours entries).all fun p => decide (numAt p.1 0 2 < numAt p.2 0 2))
    && entries.all fun e => records.any fun r => numAt r 0 2 == numAt e 0 2 && numAt r 7 1 == 1

/-- The kernels of KERNEL_LIB (R134). -/
def readKernels (b : List Byte) : List (Nat × Kernel) :=
  (List.range (numAt b 0 2)).map fun i =>
    let e := slice b (16 + 32 * i) 32
    (numAt e 4 4, readKernel e (slice b (numAt e 4 4) (numAt e 8 4)))

/-- Check KERNEL of the library (R134). -/
def kernelsOk (b : List Byte) : Bool :=
  let ks := readKernels b
  decide (16 ≤ b.length ∧ ks.length ≤ 1024 ∧ 16 + 32 * ks.length ≤ b.length)
    && (ks.all fun k => k.1 % 64 == 0 && decide (k.1 + k.2.len ≤ b.length) && kernelFieldsOk k.2 && !reservedCode k.2.code)
    && pairsOk (fun x y => x.2.id != y.2.id) ks

/-! ### The image as a whole -/

/-- What an image fixes until the next BOOT; `img` is its LENGTH bytes. -/
def readImage (img : List Byte) : ImageCfg :=
  let fm := imageBytes img 1
  let peer := imageBytes img 0xB
  { version := BitVec.ofNat 64 (numAt img 0x18 8), digest := sha256 img, ownerKey := slice img 0x40 32,
    beatNom := numAt img 0x20 4, epochBeats := numAt img 0x24 2, dumpBeats := numAt img 0x26 2,
    dimms := BitVec.ofNat 16 (numAt img 0x28 4), cxl := BitVec.ofNat 4 (numAt img 0x2C 4), funcs := readFuncs fm,
    queues := readQueues fm, carve := readCarve (imageBytes img 2), seqs := (readSeqs 16 (imageBytes img 5)).getD [],
    curves := (readCurves 3 (imageBytes img 6)).getD [], special := readSpecial (imageBytes img 7),
    reqs := readReqs peer, zones := readZones peer }

/-- Generation 0 before its registrations (R128, R160). -/
def baseCfg (img : List Byte) : Cfg :=
  let ledger := match readLedger (imageBytes img 4) with | .ok l => l | .error _ => resetLedgerCfg
  let mig := match (imageSection img 0xC).map readMigration with | some (.ok m) => m | _ => defaultMigration
  { resetCfg with classes := classVector (readClasses (imageBytes img 3)), ledger := ledger, migration := mig }

/-- The checks of the sections whose contents need nothing of the configuration. -/
def plainChecks (img : List Byte) (ic : ImageCfg) : List (Bool × Nat) :=
  let dimms := ic.dimms.toNat
  let cxl := ic.cxl.toNat
  let carve := imageBytes img 2
  let ledger := imageBytes img 4
  let named := ic.reqs.map (·.1) ++ ic.zones.map (·.port)
  [(headerClean img && (dirEntries img).all (·.clean), ckReserved), (headerRanges img, ckRange)]
    ++ funcMapChecks (imageBytes img 1)
    ++ [((rawParts carve).all fun p => decide (p.1 ≤ 1), ckReserved), (carveShape carve, ckRange),
        (carveRanges ic.funcs ic.carve && farRangesOk ic.funcs dimms cxl ic.carve, ckRange)]
    ++ classChecks ic (imageBytes img 3)
    ++ [(ledger.length == 2688, ckRange), asFact (readCode (readLedger ledger))]
    ++ seqChecks (usedDomains ic.funcs dimms cxl named) (imageBytes img 5)
    ++ curveChecks (imageBytes img 6) ++ formatChecks (imageBytes img 7)
    ++ (match imageSection img 0xB with | some b => peerChecks ic.funcs cxl ic.carve b | none => [])
    ++ match imageSection img 0xC with
       | some b => [(b.length == 128, ckRange), asFact (readCode (readMigration b))]
       | none => []

/-- Generation 0, with what is checked as tables, KV tables and kernels join it. -/
def imageConfig (s : State) (img : List Byte) (ic : ImageCfg) : Checked :=
  let en := mapEnables ic.funcs
  let decls := imageBytes img 8
  let kvs := imageBytes img 9
  let entries := (imageSection img 0xA).map defaultEntries
  let rows := ((entries.getD (some [])).getD [])
  let lib := imageBytes img 0xD
  let ks := (readKernels lib).map (·.2)
  let shapes : List (Bool × Nat) :=
    [((imageSection img 8).isNone || declShape decls, ckRange), ((imageSection img 9).isNone || declShape kvs, ckRange),
     (entries != some none, ckRange), (defaultsOk (declRecords decls) rows, ckRange),
     ((imageSection img 0xD).isNone || kernelsOk lib, ckKernel)]
  let c := (declRecords decls).foldl (addTable s en rows) (baseCfg img, shapes)
  let c := (declRecords kvs).foldl (addKv s en) c
  let cfg := ks.foldl (fun c k => stepCfg (.kernelLoad k) 0 (.none, 0) c) c.1
  let dflt := (defaultClaim cfg.tables 0).base
  (cfg, (cribsFit ic.carve (codeTotal cfg.kernels), ckCapacity) :: (rangesFit s ic.carve dflt, ckCapacity)
    :: (poolsOk s cfg cfg.migration, ckCapacity) :: c.2)

/-- Checks 0x08 to 0x0D of an image, with what it configures (R135, R138). -/
def checkContents (s : State) (img : List Byte) : Nat × ImageCfg × Cfg :=
  let ic := readImage img
  let (cfg, facts) := imageConfig { s with image := ic, cfg := resetConfig } img ic
  (lowestFail (plainChecks img ic ++ facts), ic, cfg)

/-- The check of an image slot in the order of Table 4-7: its code, and for a good image what it configures (R135). -/
def checkSlot (s : State) (f : Flash) : Nat × Option (ImageCfg × Cfg) :=
  let hdr := slotBytes f 0 256
  let img := slotBytes f 0 (numAt hdr 0x10 4)
  let code := firstFail
    [(f.readable, 1), (f.magic == descriptorMagic && numAt hdr 0 8 == imageMagic, 2), (lengthOk hdr, 3),
     (targetOk s.sys.stepping.toNat hdr, 4), (ownerOk s.sys.ownerDigest hdr, 5)]
  if code ≠ 0 then (code, none)
  else if !signatureOk img then (6, none)
  else if !directoryOk img then (7, none)
  else match checkContents s img with
  | (0, ic, cfg) => (0, some (ic, cfg))
  | (c, _, _) => (c, none)

end Sys2Proof.Machine
end

