-- ==== Sys2Proof/Machine/Journal.lean ====
section
/-!
DEFINITION. Sys2Proof/Machine/Journal.lean: what happens when a record is committed, when flash fails, and compaction
(sections 4.6 to 4.11).
-/
namespace Sys2Proof.Machine

/-! ### Regions -/

/-- The active region. -/
def activeRegion (s : State) : Region := vat s.jr.regions s.jr.active.val

/-- A region changed by `g`. -/
def onRegion (i : Nat) (g : Region → Region) (s : State) : State :=
  { s with jr := { s.jr with regions := vupd s.jr.regions i g } }

/-- Compaction is under way: new records go to both regions (R155 step 4). -/
def compacting (s : State) : Bool := match s.jr.compaction with | .running _ _ => true | _ => false

/-- Regions that a record is written to: a SNAP record to the new one; others to the active one, or to the other when a
program of the active one has failed, or to both from the snapshot point on (R155, R167). -/
def recordTargets (s : State) (r : JRec) : List Nat :=
  if r.snap || (activeRegion s).failed then [otherRegion s]
  else if compacting s then [s.jr.active.val, otherRegion s]
  else [s.jr.active.val]

/-- The number of a region that a record is written to: the one being filled has the active one's plus one (R155). -/
def regionNo (s : State) (i : Nat) : Nat := (activeRegion s).number + (if i = s.jr.active.val then 0 else 1)

/-- A record stands committed at the end of its regions. -/
def putRecord (r : JRec) (s : State) : State :=
  (recordTargets s r).foldl (fun t i => onRegion i (fun R => { R with recs := R.recs ++ [sealRec (regionNo s i) r] }) t) s

/-- EPOCH of an epoch record (Table 18-8). -/
def epochOf (b : List Byte) : Nat := numAt b 0x10 8

/-- The committed records of the journal that is in force, in flash order: those of the active region and, once a program of
it has failed, those written to the other one since (R167). -/
def journalRecs (s : State) : List JRec :=
  ((activeRegion s).recs ++
    if (activeRegion s).failed then (vat s.jr.regions (otherRegion s)).recs.filter (!·.snap) else []).filter (·.committed)

/-- Epoch numbers of the journal's EPOCH records, in flash order. -/
def journaledEpochs (s : State) : List Nat :=
  (journalRecs s).filterMap fun r => match r.body with | .epoch b => some (epochOf b) | _ => none

/-- Highest epoch number committed, 0 with none (R704). -/
def highestEpoch (s : State) : Nat := (journaledEpochs s).foldl max 0

/-- EPOCH records that no COLLECTED record covers, and how many (R155, R157). -/
def uncollected (s : State) : List Nat := (journaledEpochs s).filter fun n => decide (s.led.collected < n)

/-- Flash bytes of an EPOCH record. -/
def epochBytes : Nat := 576

/-- LEDGER_BACKLOG when the uncollected EPOCH records pass 25 % of a region; once for each time they do (R157). -/
def watchBacklog (s : State) : State :=
  let n := (uncollected s).length
  let high := decide (regionSize < 4 * n * epochBytes)
  let s' := { s with jr := { s.jr with backlog := high } }
  if high && !s.jr.backlog then raiseEvent evLedgerBacklog (source dieC 0) n s' else s'

/-- Compaction is due once the active region passes 75 % (R155). -/
def watchFill (s : State) : State :=
  if s.jr.compaction == .none && decide (3 * regionSize < 4 * regionUsed (activeRegion s)) then
    { s with jr := { s.jr with compaction := .due (posOf s) } }
  else s

/-- The journal refuses configuration changes: 95 % full before the switch (R158). -/
def journalBusy (s : State) : Bool :=
  s.jr.compaction != .none && decide (95 * regionSize ≤ 100 * regionUsed (activeRegion s))

/-! ### JOURNAL_RECORD_COMMIT (R141, R142, R152, R159) -/

/-- The change whose CONFIG_CHANGE item is committed takes its SEQ, and the first in line is staged (R159). -/
def noteChange (k : ChangeKind) (seq : Nat) (s : State) : State :=
  let i := s.cfg.changes.findIdx fun ch => ch.seq == 0 && ch.kind == k
  stageHead { s with cfg := { s.cfg with changes := s.cfg.changes.modify i fun ch => { ch with seq := seq } } }

/-- A GEN_COMMIT is committed before its boundary (R159). One that a boundary has overtaken, or of a change that has been
abandoned, says nothing of the change in progress. -/
def noteCommit (flip seq : Nat) (s : State) : State :=
  match s.cfg.changes.head? with
  | none => s
  | some ch =>
    if ch.flipAt == some (flip, false) && ch.seq == seq && decide (s.tb.beat.toNat < flip) then
      onHead (fun c => { c with flipAt := some (flip, true) }) s
    else s

/-- What the commit of an item leads to. -/
def itemCommitted (r : JRec) (s : State) : State :=
  if r.snap then s
  else match r.body with
  | .configChange k => noteChange k (r.seq + 1 - itemRecords r.body) s
  | .genCommit _ flip seq => noteCommit flip seq s
  | .genRollback _ _ _ _ =>
    { s with cfg := { s.cfg with rollback := s.cfg.rollback.map fun x => (x.1, x.2.1, true) } }
  | .epoch _ => watchBacklog s
  | .coalesce es => raiseEvent evCoalesced (source dieC 0) es.length s
  | _ => s

/-- The rest of an item of several records follows under the next SEQ (R142). -/
def nextRecord (r : JRec) : Option JRec :=
  if r.left = 0 then none else some { r with left := r.left - 1, seq := r.seq + 1 }

/-- The position of the last SNAP commit of a compaction that runs (R156). -/
def noteSnap (s : State) : Compaction :=
  match s.jr.compaction with
  | .running l _ => .running l (posOf s)
  | c => c

/-- The record in progress is committed. An item whose records it came between goes on after it (R142, R154). -/
def recordCommit (r : JRec) (s : State) : State :=
  let s := putRecord r s
  let n := (recordTargets s r).length
  let s := tally .control 0x403 (n * recBytes r / 64) .house (tally .control 0x402 1 .house s)
  let s := activity .house 331 (n * recBytes r / 32) s
  let s := { s with jr := { s.jr with writing := none, cont := if r.left = 0 then s.jr.cont else nextRecord r,
                                      compaction := if r.snap then noteSnap s else s.jr.compaction } }
  jKick (watchFill (if r.left = 0 then itemCommitted r s else s))

/-- JOURNAL_RECORD_COMMIT (R141): within 2 ms of the start of its programming. -/
def execJournalRecordCommit (s : State) : Host.Outcome State Fault Refusal :=
  .next (match s.jr.writing with
    | some r => if writerOn s then recordCommit r s else s
    | none => s)

/-! ### Flash failures (R167, R168) -/

/-- Flash offset of the end of what a region holds (Table 4-2). -/
def flashOffset (R : Region) : Nat := 0x6100000 + regionUsed R

/-- An item of the active region that was begun and must be written again. -/
def begunItem (c : Option JRec) : List (JBody × Bool) :=
  match c with
  | some r => if r.snap then [] else [(r.body, false)]
  | none => []

/-- The ERROR record of a failed program, in front of what waits (R154, R167); the item that failed, and one that it came
between, are pending again. -/
def programError (r : JRec) (off : Nat) (s : State) : State :=
  let e := errorBytes s 5 6 { addr := off } []
  let s := { s with jr := { s.jr with writing := none, cont := s.jr.cont.filter (·.snap),
                                      waiting := (.error e, false) :: (r.body, r.snap) :: begunItem s.jr.cont ++ s.jr.waiting,
                                      compaction := if s.jr.compaction == .none then .due (posOf s) else s.jr.compaction } }
  raiseEvent evErrorLogged (source dieC 0) 5 s

/-- Both regions have failed: HALT (R168); otherwise the writer goes on. -/
def regionsFailed (s : State) : State :=
  if s.jr.regions.toList.all (·.failed) then enterHalt haltJournal s else jKick s

/-- A program of the active region fails: the record is abandoned (R167). -/
def programFail (r : JRec) (s : State) : State :=
  let i := s.jr.active.val
  let off := flashOffset (activeRegion s)
  regionsFailed (programError r off (onRegion i (fun R => { R with recs := R.recs ++ [tornRec R.number r], failed := true }) s))

/-- A program of the other region alone fails: with the active one failed too the device halts (R168); otherwise the
compaction starts again once that region has been erased (log 36). -/
def snapFail (r : JRec) (s : State) : State :=
  if (activeRegion s).failed then
    regionsFailed (onRegion (otherRegion s) (fun R => { R with failed := true })
      { s with jr := { s.jr with writing := none, cont := none, waiting := (r.body, r.snap) :: s.jr.waiting } })
  else
    jKick (onRegion (otherRegion s) (fun R => { R with erasing := true })
      { s with jr := { s.jr with writing := none, cont := none, compaction := .due (posOf s) } })

/-- JOURNAL_PROGRAM_FAIL (R167): the program of the record in progress fails. -/
def execJournalProgramFail (s : State) : Host.Outcome State Fault Refusal :=
  .next (match s.jr.writing with
    | some r =>
      if !writerOn s then s
      else if (recordTargets s r).contains s.jr.active.val then programFail r s else snapFail r s
    | none => s)

/-- JOURNAL_ERASE_DONE: the background erase of a region finishes; compaction that is due starts at the first boundary
after it (R156, R158). -/
def execJournalEraseDone (s : State) : Host.Outcome State Fault Refusal :=
  let i := otherRegion s
  let due : Compaction := match s.jr.compaction with | .due _ => .due (posOf s) | c => c
  .next (if (vat s.jr.regions i).erasing then
      jKick (onRegion i (fun _ => resetRegion) { s with jr := { s.jr with compaction := due } })
    else s)

/-- JOURNAL_ERASE_FAIL: the background erase of a region fails (R168). -/
def execJournalEraseFail (s : State) : Host.Outcome State Fault Refusal :=
  let i := otherRegion s
  .next (if (vat s.jr.regions i).erasing then
      regionsFailed (onRegion i (fun R => { R with erasing := false, failed := true }) s)
    else s)

/-! ### Compaction (R155 to R158) -/

/-- The SNAP records of the configuration and the anchor in force (R155 step 2). -/
def configSnaps (s : State) : List JBody :=
  .configSnap s.cfg.cur s.image.digest :: (s.tb.anchor.map JBody.anchor).toList

/-- The EPOCH records to copy: the newest uncollected ones that fit in half a region, and a LEDGER_GAP for those dropped
(R155 step 3, R157). -/
def epochSnaps (s : State) : List JBody :=
  let es := (activeRegion s).recs.filterMap fun r =>
    if r.committed then (match r.body with | .epoch b => if s.led.collected < epochOf b then some b else none | _ => none) else none
  let room := regionSize / 2 / epochBytes
  let drop := es.length - room
  let gone := (es.take drop).map epochOf
  let gap : List JBody := match gone.head?, gone.getLast? with
    | some a, some b => [.ledgerGap a b]
    | _, _ => []
  gap ++ (es.drop drop).map JBody.epoch

/-- SEQ of the last record committed in the active region: the snapshot point S (R155 step 1). -/
def snapshotPoint (s : State) : Nat :=
  ((activeRegion s).recs.filter (·.committed)).foldl (fun m r => max m r.seq) 0

/-- A record that the row itself commits in the region of a number. -/
def markRecord (n : Nat) (b : JBody) (s : State) : JRec :=
  sealRec n { body := b, snap := false, left := 0, seq := s.jr.nextSeq, pos := posOf s, gen := s.cfg.cur.gen, region := n,
              crc := 0, commit := erasedWord }

/-- Compaction into the other region begins with its REGION_OPEN (R155). -/
def startCompaction (s : State) : State :=
  let i := otherRegion s
  let n := (activeRegion s).number + 1
  let r := markRecord n (.regionOpen n (snapshotPoint s)) s
  let snaps := configSnaps s ++ epochSnaps s
  let s := onRegion i (fun R => { R with number := n, recs := R.recs ++ [r] }) s
  jKick { s with jr := { s.jr with nextSeq := s.jr.nextSeq + 1, compaction := .running snaps (posOf s) } }

/-- COMPACTION_START is due at this boundary: it is the first after the mark was passed or a program failed, and after the
other region was erased (R104, R155, R158, R167). -/
def compactionDue (s : State) : Bool :=
  writerOn s && s.tb.tick == 0 && (match s.jr.compaction with | .due p => decide (p < posOf s) | _ => false)
    && !(vat s.jr.regions (otherRegion s)).erasing
    && !(vat s.jr.regions (otherRegion s)).failed && !s.sys.powerFailing && s.sys.state != .cold

/-- COMPACTION_START (R155). -/
def execCompactionStart (s : State) : Host.Outcome State Fault Refusal :=
  .next (if compactionDue s && windowsClosed s && !flipDue s then startCompaction s else s)

/-- SNAP records of a region. -/
def snapCount (R : Region) : Nat := (R.recs.filter fun r => r.snap && r.committed).length

/-- The switch: SNAPSHOT_END is committed, the new region is active, and the old one is erased (R156). -/
def switchRegion (s : State) : State :=
  let i := s.jr.active.val
  let o := otherRegion s
  let r := markRecord (regionNo s o) (.snapshotEnd (snapCount (vat s.jr.regions o))) s
  let s := onRegion i (fun R => { R with erasing := true, failed := false })
    (onRegion o (fun R => { R with recs := R.recs ++ [r] }) s)
  jKick (watchBacklog { s with jr := { s.jr with active := if s.jr.active = 0 then 1 else 0, nextSeq := s.jr.nextSeq + 1,
                                                 compaction := .none } })

/-- JOURNAL_REGION_SWITCH, after the flip of the same boundary (R105, R156). -/
def execJournalRegionSwitch (s : State) : Host.Outcome State Fault Refusal :=
  .next (if switchDue s && windowsClosed s && !flipDue s && !s.sys.powerFailing then switchRegion s else s)

end Sys2Proof.Machine
end

