-- ==== Sys2Proof/Machine/Power.lean ====
section
/-!
DEFINITION. Sys2Proof/Machine/Power.lean: power, operating points and sequences, sag and power loss (chapter 19), and the
signature of an epoch record (R700, R710).
-/
namespace Sys2Proof.Machine

/-! ### Operating points (R727 to R731) -/

/-- Value between two points of a curve, rounded toward minus infinity (R728). -/
def lerp (va vb ta tb t : Nat) : Nat :=
  ((va : Int) + ((vb : Int) - va) * ((t : Int) - ta) / ((tb : Int) - ta)).toNat

/-- CLOCK and ISSUE of a curve at a temperature (R728). -/
def curveAt (t : Nat) : List (Nat × Nat × Nat) → Nat × Nat
  | [] => (1024, 1024)
  | [p] => p.2
  | p :: q :: rest =>
    if t ≤ p.1 then p.2
    else if t < q.1 then (lerp p.2.1 q.2.1 p.1 q.1 t, lerp p.2.2 q.2.2 p.1 q.1 t)
    else curveAt t (q :: rest)

/-- The curve of a die: 0 for a slice, 1 for a bridge, 2 for the control die (R131). -/
def curveOf (die : Nat) : Nat := if die ≤ 0x10 then 0 else if die ≤ 0x12 then 1 else 2

/-- CLOCK_t and ISSUE_t of a die (R729). ISSUE has no effect on the control die and stays. -/
def targets (s : State) (die : Nat) : Nat × Nat :=
  let c := curveAt (vat s.pmc.temps die) (nth s.image.curves (curveOf die) [])
  let f := s.pmc.fPwr
  if die = dieC then (c.1, vat s.pmc.issue die)
  else (max 128 (min c.1 (vat s.pmc.cap die) * f / 1024), max 128 (c.2 * f / 1024))

/-- A value falls at once, and rises by at most 64 (R730). -/
def toward (cur target : Nat) : Nat := if target ≤ cur then target else min target (cur + 64)

/-- A die takes no operating point while its domains are off or it is lost. -/
def dieRuns (s : State) (die : Nat) : Bool :=
  let (first, n) := dieDomains die
  !dieOffline s die && (List.range n).any fun i => (vat s.pmc.domains (first + i)).on

/-- The operating point of one die at a step. -/
def stepDie (s : State) (die : Nat) : State :=
  if !dieRuns s die then s
  else
    let (c, i) := targets s die
    { s with pmc := { s.pmc with clock := vupd s.pmc.clock die fun x => toward x c,
                                 issue := vupd s.pmc.issue die fun x => toward x i } }

/-- Offline thresholds of Table 19-7, in 1/16 °C. -/
def offlineAbove (die : Nat) : Nat := if die ≤ 0x10 then 1680 else 1840

/-- The offline action of a die that stayed above its threshold at two consecutive steps (R648, R732). -/
def hotDie (s : State) (die : Nat) : State :=
  if vat s.pmc.hotSteps die < 2 then s
  else if die ≤ 0x10 then partLoss .slice die 3 s
  else if die ≤ 0x12 then partLoss .bridge die 0x13 s
  else enterHalt haltOverTemp s

/-- The targets are applied, and then the offline actions (R727 step 4). -/
def applyStep (s : State) : State :=
  (List.range 20).foldl hotDie ((List.range 20).foldl stepDie s)

/-- What a slice publishes of its stack temperature (R645, R646). -/
def publishTemp (t : Nat) (S : Slice) : Slice :=
  if S.offline then S
  else { S with temp := BitVec.ofNat 12 (min 4095 t), hotEv := S.hotEv || decide (1520 ≤ t),
                ref2x := if 1360 ≤ t then true else if t < 1328 then false else S.ref2x }

/-- Temperatures, thresholds and F_PWR of a step (R645, R646, R732, R734). -/
def readStep (temps : List Nat) (s : State) : State :=
  let p := s.pmc
  let t (die : Nat) : Nat := nth temps die 0
  let f := if p.lowPower then min 1024 (p.fPwr + 32) else p.fPwr
  let hot := Vector.ofFn fun d : Fin 20 => if offlineAbove d.val < t d.val then vat p.hotSteps d.val + 1 else 0
  { s with slices := Vector.ofFn fun k : Fin 17 => publishTemp (t k.val) (vat s.slices k.val),
           pmc := { p with lastStep := posOf s, fPwr := f, lowPower := true, hotSteps := hot,
                           temps := Vector.ofFn fun d : Fin 20 => t d.val } }

/-- DVFS_STEP with the control temperatures of dies 0x00 to 0x13 in 1/16 °C (R727); while a sequence runs, the points are
applied after its END (R742). -/
def dvfsStep (temps : List Nat) (s : State) : State :=
  let s := readStep temps s
  if s.pmc.run.isSome then { s with pmc := { s.pmc with held := some temps } } else applyStep s

/-- DVFS_STEP is last among what falls on its tick (R105). -/
def execDvfsStep (temps : List Nat) (s : State) : Host.Outcome State Fault Refusal :=
  .next (if dvfsDue s && windowsClosed s && !flipDue s && !switchDue s then dvfsStep temps s else s)

/-! ### Holding input power (R734, R735) -/

/-- The limit on a 1 ms mean, mW. -/
def powerLimit : Nat := 2500000

/-- The new targets of a slice or bridge at once: values fall, and rise only at a step (R730, R734). -/
def governDie (s : State) (die : Nat) : State :=
  if !dieRuns s die then s
  else
    let (c, i) := targets s die
    { s with pmc := { s.pmc with clock := vupd s.pmc.clock die (min c), issue := vupd s.pmc.issue die (min i) } }

/-- A mean above the limit waits for the governor. -/
def governorDue (s : State) : Bool :=
  s.sys.state != .cold && s.pmc.meanDue && decide (powerLimit < s.led.powerMw.toNat)

/-- POWER_GOVERNOR (R734). -/
def execPowerGovernor (s : State) : Host.Outcome State Fault Refusal :=
  .next (if governorDue s then
      (List.range 19).foldl governDie
        { s with pmc := { s.pmc with meanDue := false, fPwr := max 512 (s.pmc.fPwr - 64) } }
    else s)

/-- POWER_LIMIT: 100 means in a row above the limit with F_PWR at 512; the event is raised once (R735). -/
def execPowerLimit (s : State) : Host.Outcome State Fault Refusal :=
  .next (if s.sys.state != .cold && s.pmc.limitMs == 100 then
      raiseEvent evPowerLimit (source dieC 0) s.pmc.fPwr { s with pmc := { s.pmc with limitMs := 101 } }
    else s)

/-! ### Power sequences (R722 to R726) -/

/-- Entries of a sequence of the image. -/
def seqEntries (s : State) (id : Nat) : List SeqEntry := ((s.image.seqs.find? (·.1 == id)).map (·.2)).getD []

/-- A sequence becomes due, if the image has it (R722, R723). -/
def dueSeq (id part : Nat) (s : State) : State :=
  if s.image.seqs.any (·.1 == id) then
    { s with pmc := { s.pmc with due := s.pmc.due ++ [{ id := id, part := part : SeqDue }] } }
  else s

/-- The domain that an entry acts on (R724). -/
def seqDomain (d : SeqDue) (e : SeqEntry) : Nat :=
  if d.id = 2 then 18 * d.part + e.domain else if d.id = 3 then e.domain + 10 * d.part else e.domain

/-- The domain still switches a live DIMM, a live expander or a port whose mode is not OFF (R724). -/
def stillSwitches (s : State) (dom : Nat) : Bool :=
  let b := (dom - 306) / 10
  let j := (dom - 306) % 10
  if j < 2 then portMode s (2 * b + j) != .off
  else if j < 4 then portMode s (4 + 2 * b + (j - 2)) != .off || partLive s .expander (4 + 2 * b + (j - 2))
  else if j < 6 then (List.range 4).any fun i => partLive s .dimm (8 * b + 4 * (j - 4) + i)
  else false

/-- An entry of FAR_OFF that names a domain in use is skipped (R724). -/
def skipped (s : State) (d : SeqDue) (e : SeqEntry) : Bool :=
  d.id == 3 && e.op != 0 && e.op != 4 && stillSwitches s (seqDomain d e)

/-- A domain changed by `g`. -/
def onDomain (dom : Nat) (g : Domain → Domain) (s : State) : State :=
  { s with pmc := { s.pmc with domains := vupd s.pmc.domains dom g } }

/-- A domain is switched on; its on-time counts from now (R720). -/
def switchOn (dom : Nat) (s : State) : State :=
  let now := clkOf s
  onDomain dom (fun d => if d.on then d else { d with on := true, since := now }) s

/-- What a slice domain held is lost with it: a crib bank, or the stack when both controllers are off (R717). -/
def loseContents (dom : Nat) (s : State) : State :=
  let k := dom / 18
  let i := dom % 18
  if 306 ≤ dom then s
  else if i = 10 ∨ i = 11 then zeroRange (cribDa k ((i - 10) * 2 ^ 24)) (2 ^ 24) s
  else if i = 13 ∨ i = 14 then
    if (vat s.pmc.domains (18 * k + 13)).on || (vat s.pmc.domains (18 * k + 14)).on then s
    else zeroRange (stackDa k 0) stackLimit s
  else s

/-- A domain is switched off: its on-time stops and its contents are lost (R717, R720). -/
def switchOff (dom : Nat) (s : State) : State :=
  let now := clkOf s
  loseContents dom
    (onDomain dom (fun d => if d.on then { d with on := false, onTime := d.onTime + (now - d.since), since := now } else d) s)

/-- A CLOCK entry sets its die's operating point until the next step, and in a sag the sag cap (R726, R736). -/
def clockEntry (d : SeqDue) (dom arg : Nat) (s : State) : State :=
  let die := dieOfDomain dom
  let p := s.pmc
  { s with pmc := { p with clock := vupd p.clock die fun _ => arg,
                           cap := if d.id = 4 ∧ p.sag then vupd p.cap die fun _ => arg else p.cap } }

/-- END of a sequence: BRINGUP leads to TRAIN, or to HALT when a required domain has failed; a step that was held is
applied (R116, R725, R742). -/
def endSeq (d : SeqDue) (s : State) : State :=
  let held := s.pmc.held.isSome
  let s := { s with pmc := { s.pmc with run := none, held := none } }
  let s := if d.id != 0 then s
    else if s.pmc.failed then enterHalt haltSequence s
    else if s.sys.state == .image then enterState .train 0x03 0 s else s
  if held then applyStep s else s

/-- One entry of the running sequence is executed (Table 4-5). -/
def runEntry (d : SeqDue) (e : SeqEntry) (s : State) : State :=
  let dom := seqDomain d e
  let wait : Nat := clkOf s + e.arg * usec
  if skipped s d e then s
  else match e.op with
  | 0 => endSeq d s
  | 1 => switchOn dom s
  | 2 => switchOff dom s
  | 3 => { s with pmc := { s.pmc with waitGood := some dom, entryEnd := wait } }
  | 4 => { s with pmc := { s.pmc with entryEnd := wait } }
  | 5 => clockEntry d dom e.arg s
  | 6 => onDomain dom (fun x => { x with clamped := true }) s
  | 7 => onDomain dom (fun x => { x with clamped := false }) s
  | _ => s

/-- POWER_SEQ_START: the first due sequence starts (R722). -/
def execPowerSeqStart (s : State) : Host.Outcome State Fault Refusal :=
  .next (match s.pmc.run, s.pmc.due with
    | none, d :: rest =>
      if s.sys.state == .cold then s
      else { s with pmc := { s.pmc with run := some d, due := rest, seqId := BitVec.ofNat 4 d.id, entry := 0, step := 0,
                                        waitGood := none, entryEnd := clkOf s } }
    | _, _ => s)

/-- The entry before has ended: its DELAY has passed, or the power-good it waits for has come. -/
def entryOver (s : State) (good : Bool) : Bool :=
  match s.pmc.waitGood with
  | some _ => good
  | none => decide (s.pmc.entryEnd ≤ clkOf s)

/-- POWER_SEQ_ENTRY: the next entry of the running sequence is executed; `good` says that the power-good that a WAIT_GOOD
waits for has come (R129, R722). A sequence that holds a step back goes on once the windows of the tick have closed, since
its END applies the step (R41, R105). -/
def execPowerSeqEntry (good : Bool) (s : State) : Host.Outcome State Fault Refusal :=
  .next (match s.pmc.run with
    | none => s
    | some d =>
      if s.sys.state == .cold || !entryOver s good || (s.pmc.held.isSome && !tickSettled s) then s
      else match (seqEntries s d.id)[s.pmc.step]? with
        | none => s
        | some e =>
          runEntry d e { s with pmc := { s.pmc with entry := BitVec.ofNat 12 s.pmc.step, step := s.pmc.step + 1,
                                                    waitGood := none } })

/-- The parts of a domain whose power-good fails in BRINGUP are lost (R119, R725). -/
def bringupFail (dom : Nat) (s : State) : State :=
  let s := onDomain dom (fun d => { d with bad := true }) s
  if dom < 306 then partLoss .slice (dom / 18) 0x11 s
  else
    let b := (dom - 306) / 10
    let j := (dom - 306) % 10
    if j < 2 then s
    else if j < 4 then partLoss .expander (4 + 2 * b + (j - 2)) 0x11 s
    else if j < 6 then (List.range 4).foldl (fun s i => partLoss .dimm (8 * b + 4 * (j - 4) + i) 0x11 s) s
    else if (vat s.brg (1 - b)).offline then { s with pmc := { s.pmc with failed := true } }
    else partLoss .bridge (dieB b) 0x11 s

/-- A WAIT_GOOD outside BRINGUP fails: SEQ_FAIL_EV and a SEQ_FAIL record (R725, Table 20-5). -/
def seqFail (d : SeqDue) (dom : Nat) (s : State) : State :=
  logError 6 6 { die := dieC, unit := dom % 256, detail := leBytes 2 d.id ++ leBytes 2 s.pmc.entry.toNat } []
    { s with pmc := { s.pmc with seqFailEv := true } }

/-- WAIT_GOOD_TIMEOUT (R725): the sequence goes on. -/
def execWaitGoodTimeout (s : State) : Host.Outcome State Fault Refusal :=
  .next (match s.pmc.run, s.pmc.waitGood with
    | some d, some dom =>
      if s.sys.state == .cold || clkOf s < s.pmc.entryEnd then s
      else
        let s := { s with pmc := { s.pmc with waitGood := none } }
        if d.id = 0 then bringupFail dom s else seqFail d dom s
    | _, _ => s)

/-! ### Sag (R736, R748) -/

/-- INPUT_SAG: SAGF is asserted (R736). -/
def execInputSag (s : State) : Host.Outcome State Fault Refusal :=
  .next (if s.sys.state == .cold || s.pmc.sag then s
    else
      let s := { s with pmc := { s.pmc with sag := true, sagEv := true, sagClk := clkOf s } }
      dueSeq 4 0 (raiseEvent evInputSag (source dieC 0) s.pmc.vin.toNat s))

/-- SAG_END: the input has stayed at 42 V or above for 1 ms (R736). -/
def execSagEnd (s : State) : Host.Outcome State Fault Refusal :=
  .next (if s.pmc.sag then { s with pmc := { s.pmc with sag := false, cap := Vector.replicate 20 1024 } } else s)

/-! ### COLD (R717, R733, R737 to R740) -/

/-- A journal region as a fall of the supplies leaves it: a record in progress has its header and no commit word, and an
erase that was running leaves nothing. -/
def fallenRegion (s : State) (i : Nat) : Region :=
  let R := vat s.jr.regions i
  if R.erasing then resetRegion
  else match s.jr.writing with
    | some r =>
      let both := match s.jr.compaction with | .running _ _ => true | _ => false
      if writerOn s && (both || i == s.jr.active.val) then { R with recs := R.recs ++ [tornRec R.number r] } else R
    | none => R

/-- The supplies fall. What stays is what flash and fuses hold, the commands that wait, and the model's own transcript and
draws (R120, R148, R699). -/
def coldState (s : State) : State :=
  let r := State.reset
  { r with pending := s.pending, out := s.out, freeCtr := s.freeCtr, flash := s.flash,
           sys := { r.sys with state := .cold, cause := if s.sys.powerFailing then 0x20 else 0, stepping := s.sys.stepping,
                               ownerDigest := s.sys.ownerDigest, bootCount := s.sys.bootCount },
           jr := { r.jr with regions := Vector.ofFn fun i : Fin 2 => fallenRegion s i.val },
           led := { r.led with floor := s.led.floor, broken := s.led.broken } }

/-- The STATE record of the power-fail path, after every EPOCH record (R739 step 6, R745). -/
def failState (s : State) : State := jAdd (.state (stateCode s.sys.state) 0 0x20 0) s

/-- Only EPOCH items stay in the journal's queue: whatever else waits is lost (R739 step 7, R744). -/
def dropWaiting (j : Journal) : Journal :=
  { j with waiting := j.waiting.filter fun x => (match x.1 with | .epoch _ => true | _ => false), cont := none,
           coalesce := [], overflow := none, ring := [] }

/-- POWER_FAIL with an image in force: the fail tick (R739). -/
def failTick (s : State) : State :=
  let s := if s.led.isOpen then closeEpoch false true s else s
  let s := { s with sys := { s.sys with powerFailing := true }, pmc := { s.pmc with failClk := clkOf s },
                    jr := dropWaiting s.jr }
  let s := dueSeq 1 0 s
  if s.led.closed.isEmpty || s.sys.state == .halt then failState s else s

/-- What asserts POWER_FAIL: UVF, OVF, OCF for 1 ms, or a sag of 100 ms (R737). -/
def failCause (s : State) (cause : Nat) : Bool := cause != 3 || (s.pmc.sag && decide (s.pmc.sagClk + 100 * msec ≤ clkOf s))

/-- POWER_FAIL: cause 0 UVF, 1 OVF, 2 OCF, 3 a sag of 100 ms (R737, R739); before an image is accepted the supplies fall
at once. -/
def execPowerFail (cause : Fin 4) (s : State) : Host.Outcome State Fault Refusal :=
  .next (if s.sys.state == .cold || s.sys.powerFailing || !failCause s cause.val then s
    else if s.imageOk then failTick s else coldState s)

/-- The power-fail path is complete (R740). -/
def pathDone (s : State) : Bool :=
  (s.led.closed.isEmpty || s.sys.haltCause != 0) && (!writerOn s || (s.jr.writing.isNone && s.jr.waiting.isEmpty))

/-- HOLD_UP_END: the hold-up of at least 20 ms ends after the path is complete (R738, R740). -/
def execHoldUpEnd (s : State) : Host.Outcome State Fault Refusal :=
  .next (if s.sys.powerFailing && pathDone s && decide (s.pmc.failClk + 20 * msec ≤ clkOf s) then coldState s else s)

/-- THERMAL_TRIP: the carrier removes the supplies; no record is written (R733). -/
def execThermalTrip (s : State) : Host.Outcome State Fault Refusal :=
  .next (if s.sys.state == .cold then s
    else
      let c := coldState s
      { c with sys := { c.sys with tripped := true } })

/-- Entry into BOOT from COLD: every register at its reset value, beat 0, and one more boot (R85, R115 step 2, R699,
R852, Table 20-6). -/
def bootEntry (s : State) : State :=
  { s with sys := { s.sys with state := .boot, cause := 0x01, bootCount := s.sys.bootCount + 1, tripped := false } }

/-- POWER_ON: the input enters its accepted range (R115, R740); a trip keeps the supplies off (R733). -/
def execPowerOn (s : State) : Host.Outcome State Fault Refusal :=
  .next (if s.sys.state == .cold && !s.sys.tripped then bootEntry s else s)

/-- TRIP_RECOVERY: every sensor reads below 85 °C and the input lies in range (R733). -/
def execTripRecovery (s : State) : Host.Outcome State Fault Refusal :=
  .next (if s.sys.state == .cold && s.sys.tripped then bootEntry s else s)

/-! ### EPOCH_SIGNED (R700, R710) -/

/-- The oldest closed epoch leaves without a record, after a second failed signature (R710). -/
def signFail (e : ClosedEpoch) (s : State) : State :=
  let s := keepSummaries e { s with led := { s.led with closed := s.led.closed.drop 1, broken := true } }
  let s := logError 7 6 { detail := leBytes 8 e.num } [] s
  let s := enterHalt haltSigner s
  if s.sys.powerFailing then failState { s with led := { s.led with closed := [] } } else s

/-- EPOCH_SIGNED: the record of the oldest closed epoch is signed, and its signature verifies (`ok`) or not. -/
def execEpochSigned (ok : Bool) (s : State) : Host.Outcome State Fault Refusal :=
  .next (match s.led.closed with
    | [] => s
    | e :: rest =>
      if s.sys.state == .halt || s.sys.state == .cold then s
      else if ok then
        let s := signEpoch s
        if s.sys.powerFailing && s.led.closed.isEmpty then failState s else s
      else if e.fails = 0 then { s with led := { s.led with closed := { e with fails := 1 } :: rest } }
      else signFail e s)

end Sys2Proof.Machine
end

