-- ==== Sys2Proof/Machine/Startup.lean ====
section
/-!
DEFINITION. Sys2Proof/Machine/Startup.lean: from BOOT to RUN: the image, replay of the journal, and the entry into RUN
or DEGRADED (sections 1.4, 4.1, 4.5, 4.7).
-/
namespace Sys2Proof.Machine

/-! ### ROM_DONE and IMAGE_CHECK -/

/-- ROM_DONE: the STATE record from COLD to BOOT is formed, and IMAGE is entered (R115, R143). -/
def execRomDone (s : State) : Host.Outcome State Fault Refusal :=
  .next (if s.sys.state == .boot then
      let s := jAdd (.state 0 1 0x01 0) s
      enterState .image 0x02 0 (raiseEvent evStateChange (source dieC 0) (16 + 256) s)
    else s)

/-- What FUNC_MAP gives function `f`. -/
def imageFunc (ic : ImageCfg) (f : Nat) (F : Func) : Func :=
  let e := nth ic.funcs f (false, 0)
  { F with pci := { F.pci with en := e.1, vectors := e.2 } }

/-- What FUNC_MAP gives queue pair `q`. -/
def imageQueue (ic : ImageCfg) (q : Nat) (Q : Queue) : Queue :=
  let e := nth ic.queues q (none, 0, 0)
  { Q with func := e.1, reserve := e.2.1, maxf := e.2.2 }

/-- An image is accepted: its configuration is generation 0, the IMAGE_BOOT record is written, and its BRINGUP sequence
becomes due (R116, R143, R160, Table 4-8). -/
def acceptImage (slot : Nat) (ic : ImageCfg) (c : Cfg) (s : State) : State :=
  let s := { s with image := ic, imageOk := true, cfg := { resetConfig with cur := c, base := c },
                    sys := { s.sys with bootSrc := BitVec.ofNat 2 (slot + 1), versionLo := ic.version.setWidth 32 },
                    funcs := Vector.ofFn fun f : Fin 64 => imageFunc ic f.val (vat s.funcs f.val),
                    qs := Vector.ofFn fun q : Fin 256 => imageQueue ic q.val (vat s.qs q.val) }
  let s := jAdd (.imageBoot (slot + 1) s.sys.aCode.toNat s.sys.bCode.toNat ic.version ic.digest) s
  dueSeq 0 0 s

/-- The slot that is checked next: A, and B once A has failed (R135, R137). -/
def slotNext (s : State) : Option Nat :=
  if !s.sys.aChecked then some 0 else if s.sys.aCode != 0 && !s.sys.bChecked then some 1 else none

/-- IMAGE_CHECK of a slot: its code is recorded; a good image is accepted, from B with an IMAGE_FALLBACK event; when both
fail the device stays in IMAGE (R35, R135, R137). -/
def execImageCheck (slot : Fin 2) (s : State) : Host.Outcome State Fault Refusal :=
  .next (if s.sys.state != .image || s.imageOk || slotNext s != some slot.val then s
    else
      let r := checkSlot s (vat s.flash slot.val)
      let code := BitVec.ofNat 8 r.1
      let s := { s with sys := if slot = 0 then { s.sys with aChecked := true, aCode := code }
                               else { s.sys with bChecked := true, bCode := code } }
      match r.2 with
      | none => s
      | some (ic, c) =>
        let s := if slot = 0 then s else raiseEvent evImageFallback (source dieC 0) s.sys.aCode.toNat s
        acceptImage slot.val ic c s)

/-! ### Finding the authoritative region (R144) -/

/-- The record is whole: committed, with a good CRC. -/
def goodRec (r : JRec) : Bool := r.committed && r.crcOk

/-- Region number and snapshot point S of a region's committed REGION_OPEN. -/
def regionOpenOf (R : Region) : Option (Nat × Nat) :=
  R.recs.findSome? fun r => if goodRec r then (match r.body with | .regionOpen n p => some (n, p) | _ => none) else none

/-- A region is complete: SNAPSHOT_END counts every SNAP record as committed with a good CRC. -/
def regionComplete (R : Region) : Bool :=
  let snaps := (R.recs.filter fun r => r.snap && goodRec r).length
  (regionOpenOf R).isSome
    && R.recs.any fun r => goodRec r && (match r.body with | .snapshotEnd n => n == snaps | _ => false)

/-- Its region number, 0 without one. -/
def regionNumber (R : Region) : Nat := ((regionOpenOf R).map (·.1)).getD 0

/-- The authoritative region: the complete one with the higher number. -/
def authoritative (s : State) : Option Nat :=
  let a := vat s.jr.regions 0
  let b := vat s.jr.regions 1
  if regionComplete a && !(regionComplete b && decide (regionNumber a < regionNumber b)) then some 0
  else if regionComplete b then some 1 else none

/-! ### Replaying it (R145 to R148) -/

/-- A configuration with nothing of a run in it: every row reads as zero until it is loaded, and default-row records get
their places (R148, R195, R204). -/
def replayCfg (c : Cfg) : Cfg :=
  let shard (t : TableDecl) (sh : Shard) : Shard :=
    { noShard with tier := sh.tier, base := sh.base, parity := t.husk && sh.tier == .stack }
  let fresh (t : TableDecl) : TableDecl := { t with lost := false, defaultOff := 0, shards := t.shards.map (shard t) }
  { c with tables := placeDefaults [] (c.tables.map fresh),
           kvs := c.kvs.map fun d => { d with lost := false } }

/-- Replay so far: the configuration, and the items read that no GEN_COMMIT has named yet. -/
structure Replay where
  cfg : Cfg
  changes : List (Nat × ChangeKind)
  deriving DecidableEq, Repr

/-- A change without history. -/
def plainChange (k : ChangeKind) : Change :=
  { kind := k, origin := none, seq := 1, flipAt := none, firstFlip := none, steps := 0, stepDone := false }

/-- A committed GEN_COMMIT brings its generation, and the item it names takes effect, whole, with the first that names it
(R145 step 5). -/
def replayCommit (s : State) (gen seq : Nat) (p : Replay) : Replay :=
  if gen ≤ p.cfg.gen then p
  else match p.changes.find? (·.1 == seq) with
  | none => { p with cfg := { p.cfg with gen := gen } }
  | some (_, k) =>
    { cfg := { applyChange s (plainChange k) p.cfg with gen := gen }, changes := p.changes.filter (·.1 != seq) }

/-- One record after the snapshot point is applied (R145 step 5). -/
def replayRec (s : State) (p : Replay) (r : JRec) : Replay :=
  if r.left ≠ 0 then p
  else match r.body with
  | .configChange k => { p with changes := p.changes ++ [(r.seq + 1 - itemRecords r.body, k)] }
  | .genCommit gen _ seq => replayCommit s gen seq p
  | .genRollback _ gen c _ => { p with cfg := { c with gen := gen } }
  | _ => p

/-- The snapshot of a region: its configuration and the digest of the image it belongs to. -/
def snapshotOf (rs : List JRec) : Option (Cfg × List Byte) :=
  rs.findSome? fun r => if r.snap && r.left == 0 then (match r.body with | .configSnap c d => some (c, d) | _ => none) else none

/-- Highest generation that a region's records name (R147). -/
def highestGen (rs : List JRec) : Nat :=
  rs.foldl (fun m r => max m (max r.gen (match r.body with
    | .configSnap c _ => c.gen
    | .genCommit g _ _ => g
    | .genRollback _ g _ _ => g
    | _ => 0))) 0

/-- Highest epoch number that EPOCH, COLLECTED and LEDGER_GAP records name (R699). -/
def highestNamed (rs : List JRec) : Nat :=
  rs.foldl (fun m r => max m (match r.body with
    | .epoch b => epochOf b
    | .collected n => n
    | .ledgerGap _ n => n
    | _ => 0)) 0

/-- What a region says of the ledger: epochs, collection and the chain (R699, R700, R704, R708). -/
def replayLedger (rs : List JRec) (s : State) : State :=
  let last := (rs.filterMap fun r => match r.body with | .epoch b => some b | _ => none).getLast?
  let got := rs.foldl (fun m r => max m (match r.body with | .collected n => n | _ => 0)) 0
  let n := max (highestNamed rs) s.led.floor
  { s with led := { s.led with epoch := n, floor := n, collected := got, broken := false,
                               prevDigest := if s.led.broken then none else last.map sha256 } }

/-- A committed record of the region has a bad CRC (R146). -/
def crcBroken (R : Region) : Bool := R.recs.any fun r => r.committed && !r.crcOk

/-- The outcome of a replay (Table 4-11) and the configuration it gives: IMAGE_CHANGED, TRUNCATED at the first committed
record with a bad CRC, or CLEAN. A bad record that stands before the region's configuration leaves the image's (DESIGN CHOICE,
log 55). -/
def replayConfig (s : State) (R : Region) : Nat × Cfg :=
  let rs := R.recs.filter (·.committed)
  let good := rs.takeWhile (·.crcOk)
  let point := ((regionOpenOf R).map (·.2)).getD 0
  let code := if crcBroken R then 2 else 0
  match snapshotOf good with
  | none => (code, { s.cfg.cur with gen := highestGen (rs.filter (·.crcOk)) })
  | some (c, d) =>
    if d ≠ s.image.digest then (3, { s.cfg.cur with gen := highestGen (rs.filter (·.crcOk)) + 1 })
    else
      let p := (good.filter fun r => !r.snap && decide (point < r.seq)).foldl (replayRec s) { cfg := c, changes := [] }
      (code, p.cfg)

/-- The ERROR record of R146: the flash offset of the first committed record with a bad CRC. -/
def crcError (R : Region) (s : State) : State :=
  let before := R.recs.takeWhile fun r => !(r.committed && !r.crcOk)
  logError 4 6 { addr := 0x6100000 + (before.map recBytes).sum } [] s

/-- SEQ of the next record: above every one in flash (Table 4-9). -/
def seqAfter (s : State) : Nat :=
  (s.jr.regions.toList.flatMap (·.recs)).foldl (fun m r => max m (r.seq + 1)) 1

/-- The records of one item as they stand in the region of a number. -/
def itemRecs (s : State) (number : Nat) (b : JBody) (snap : Bool) (seq : Nat) : List JRec :=
  let n := itemRecords b
  (List.range n).map fun i =>
    sealRec number { body := b, snap := snap, left := n - 1 - i, seq := seq + i, pos := posOf s, gen := s.cfg.cur.gen,
                     region := number, crc := 0, commit := erasedWord }

/-- A new journal opens in region `i`, complete with a snapshot of the image's configuration (Table 4-11). -/
def newJournal (i : Nat) (s : State) : State :=
  let q := seqAfter s
  let number := (s.jr.regions.toList.map regionNumber).foldl max 0 + 1
  let snap := itemRecs s number (.configSnap s.cfg.cur s.image.digest) true (q + 1)
  let recs := itemRecs s number (.regionOpen number (q - 1)) false q ++ snap
    ++ itemRecs s number (.snapshotEnd snap.length) false (q + 1 + snap.length)
  let s := onRegion i (fun _ => { resetRegion with number := number, recs := recs }) s
  { s with jr := { s.jr with active := Fin.ofNat 2 i, nextSeq := q + 2 + snap.length } }

/-- Discarded or damaged records of a region. -/
def failedRecs (R : Region) : Nat := (R.recs.filter fun r => !goodRec r).length

/-- The region that is not authoritative is erased before it is used again. -/
def eraseOther (s : State) : State :=
  onRegion (otherRegion s) (fun R => { R with erasing := !R.recs.isEmpty }) s

/-- The configuration in force at the end of replay. -/
def setReplayed (c : Cfg) (s : State) : State :=
  let c := replayCfg c
  { s with cfg := { s.cfg with cur := c, base := c } }

/-- No region is complete: a new journal (NEW or LOST of Table 4-11). -/
def freshJournal (s : State) : State :=
  let a := vat s.jr.regions 0
  let b := vat s.jr.regions 1
  let i := if failedRecs b < failedRecs a then 1 else 0
  let code := if a.recs.isEmpty && b.recs.isEmpty then 1 else 4
  let s := setReplayed s.cfg.cur s
  let s := replayLedger [] s
  eraseOther (newJournal i { s with sys := { s.sys with replay := BitVec.ofNat 4 code } })

/-- JOURNAL_REPLAY (R144 to R149): from the authoritative region, or a new journal. -/
def replayJournal (s : State) : State :=
  match authoritative s with
  | none => freshJournal s
  | some i =>
    let R := vat s.jr.regions i
    let (code, c) := replayConfig s R
    let s := { s with sys := { s.sys with replay := BitVec.ofNat 4 code },
                      jr := { s.jr with active := Fin.ofNat 2 i, nextSeq := seqAfter s } }
    let s := eraseOther (replayLedger (R.recs.filter goodRec) (setReplayed c s))
    if crcBroken R then crcError R s else s

/-! ### What the restored configuration needs -/

/-- KV tables of the configuration start empty, each under a new key (R148, R356). -/
def openKvs (s : State) : State :=
  s.cfg.cur.kvs.foldl (fun s d => openKv d s) s

/-- What the parts lost before replay take from the restored configuration (R37, R211, R370, R663, R668, R769). -/
def replayLosses (s : State) : State :=
  let ids (p : TableDecl → Bool) : List Nat := (s.cfg.cur.tables.filter p).map (·.id)
  let gone := lostData s
  let s :=
    if gone.isEmpty then
      if sliceLive s 16 then s
      else
        let plain (t : TableDecl) : TableDecl := { t with shards := t.shards.map fun sh => { sh with parity := false } }
        let strip (c : Cfg) : Cfg := { c with tables := c.tables.map plain }
        { s with cfg := { s.cfg with cur := strip s.cfg.cur, base := strip s.cfg.base } }
    else if gone.length = 1 ∧ sliceLive s 16 = true then loseTables (ids fun t => stackHome t && !protectedTable s t) s
    else loseKvs ((s.cfg.cur.kvs.filter fun d => gone.any (kvPlacesOn d)).map (·.id)) (loseTables (ids stackHome) s)
  let far := ((List.range 16).filter fun d => (vat s.dimms d).lost).map (PartKind.dimm, ·)
    ++ ((List.range 4).filter fun e => (vat s.cxl e).lost).map fun e => (PartKind.expander, 4 + e)
  loseTables (ids fun t => far.any fun p => tableOnFar s p.1 p.2 t.id) s

/-- The stack and the offset that an ERROR record of kind MEM_UE names (Tables 20-4 and 20-5). -/
def stackUeOf (r : JRec) : Option (Nat × Nat) :=
  match r.body with
  | .error b => if goodRec r && decide (numAt b 0 2 = 1 ∧ numAt b 4 1 < 17) then some (numAt b 4 1, numAt b 0x10 8) else none
  | _ => none

/-- The DRAM rows of stack `k` that ERROR records of the authoritative region name as having had two or more
uncorrectable reads (R654). -/
def worstRows (s : State) (k : Nat) : List Nat :=
  let recs := match authoritative s with | some i => (vat s.jr.regions i).recs | none => []
  let rows := (recs.filterMap stackUeOf).filterMap fun x => if x.1 = k then some (Config.dramRow x.2) else none
  rows.eraseDups.filter fun r => decide (2 ≤ rows.count r)

/-- Parts that training found: stacks, with the rows repaired in them (R654), and the declared DIMMs and expanders (Tables 17-4 and 17-7). -/
def markTrained (missing : List PartId) (s : State) : State :=
  { s with slices := Vector.ofFn fun k : Fin 17 =>
             let S := vat s.slices k.val
             let ok := !S.offline && !missing.contains (.slice k)
             { S with trained := ok, repaired := if ok then worstRows s k.val else [] },
           dimms := Vector.ofFn fun d : Fin 16 =>
             { vat s.dimms d.val with present := farDeclared s .dimm d.val && !missing.contains (.dimm d) },
           cxl := Vector.ofFn fun e : Fin 4 =>
             { vat s.cxl e.val with present := farDeclared s .expander (4 + e.val) && !missing.contains (.expander e) } }

/-- A part that training did not find is lost: ABSENT for a DIMM or expander, CHANNEL_FAILED for a slice, whose stack failed
training, BRINGUP for another (R119, R139, R655, R658, R665; log 37). -/
def missingPart (s : State) (p : PartId) : State :=
  let (kind, num) := partOf p
  partLoss kind num (match kind with | .dimm => 0x12 | .expander => 0x12 | .slice => 2 | _ => 0x11) s

/-- The poison list of expander `e`: the poisoned units that lie in its span (R664, Get Poison List). -/
def poisonList (s : State) (e : Nat) : List Nat :=
  s.poison.filter fun u => u / 2 ^ 52 == 5 && (cxlOf s (u % 2 ^ 52) 1).contains e

/-- At TRAINED the device reads the poison list of every expander found, has the units on it repaired by Perform Maintenance,
and clears their poison (R664; DESIGN CHOICE, log 141). -/
def repairExpanders (s : State) : State :=
  let listed := ((List.range 4).filter fun e => (vat s.cxl e).present).flatMap (poisonList s)
  { s with poison := s.poison.filter fun u => !listed.contains u }

/-- TRAINED with the parts that training did not find: they are lost, and the journal is replayed against the others (R37,
R115, R145). -/
def trained (missing : List PartId) (s : State) : State :=
  let s := replayLosses (replayJournal s)
  let s := missing.foldl missingPart (repairExpanders (markTrained missing s))
  if s.sys.state != .train then s
  else
    let s := enterState .replay 0x04 0 s
    let s := storeDefaults (fun _ => true) s.cfg.cur.tables (positions s) (placeKernels (openKvs s))
    jKick { s with sys := { s.sys with replayDone := true } }

/-- TRAINED (R115). -/
def execTrained (missing : List PartId) (s : State) : Host.Outcome State Fault Refusal :=
  .next (if s.sys.state == .train then trained missing s else s)

/-! ### ENTER_RUN (R26, R28, R99, R622, R804) -/

/-- RUN is entered, or DEGRADED after a loss: the first epoch, QoS window and dump interval open. -/
def enterRun (s : State) : State :=
  let s := enterState (if s.sys.lossSeen then .degraded else .run) 0x05 0 s
  let s := openDump (openEpoch true s)
  watchOrphan (relevel { s with qos := { s.qos with openPos := posOf s, hold := s.tb.held }, orphanSince := none })

/-- ENTER_RUN at a tracked boundary after replay (R26). -/
def execEnterRun (s : State) : Host.Outcome State Fault Refusal :=
  .next (if s.sys.state == .replay && s.sys.replayDone && s.tb.tick == 0 then enterRun s else s)

end Sys2Proof.Machine
end

