-- ==== Sys2Proof/Machine/Mailbox.lean ====
section
/-!
DEFINITION. Sys2Proof/Machine/Mailbox.lean: the functions' mailboxes: GO, every operation of Table 22-5, and completion
(chapter 22).
-/
namespace Sys2Proof.Machine

/-! ### Status codes and answers (Table 22-4) -/

/-- See `mbOk`. -/
def mbJournalBusy : Nat := 0x01
/-- See `mbOk`. -/
def mbAbsent : Nat := 0x03
/-- See `mbOk`. -/
def mbBadOp : Nat := 0x04
/-- See `mbOk`. -/
def mbBadLen : Nat := 0x05
/-- See `mbOk`. -/
def mbDenied : Nat := 0x06
/-- See `mbOk`. -/
def mbXfer : Nat := 0x07
/-- See `mbOk`. -/
def mbStateDenied : Nat := 0x09
/-- See `mbOk`. -/
def mbRejected : Nat := 0x0A
/-- See `mbOk`. -/
def mbHold : Nat := 0x0B

/-- An answer: STATUS, output for MBX_DATA, and output for MBX_XADDR. -/
structure Reply where
  status : Nat
  out : List Byte
  bulk : List Byte
  deriving DecidableEq, Repr

/-- An answer without output. -/
def bare (status : Nat) : Reply := { status := status, out := [], bulk := [] }
/-- OK with output for MBX_DATA. -/
def okWith (out : List Byte) : Reply := { status := mbOk, out := out, bulk := [] }
/-- INVALID with a check code of Table 4-7. -/
def invalid (code : Nat) : Reply := { status := mbInvalid, out := leBytes 1 code, bulk := [] }

/-- Who asks: the function whose rights apply, and its own number as IDENTIFY reports it; the BMC asks with the steward's
rights and has no function number (R841, log 40). -/
structure Asker where
  func : Nat
  own : Nat
  deriving DecidableEq, Repr

/-- A mailbox changed by `g`. -/
def onMbx (f : Nat) (g : Mailbox → Mailbox) (s : State) : State := onFunc f (fun F => { F with mbx := g F.mbx }) s

/-- The answer of a mailbox operation is known; output for MBX_XADDR must fit MBX_XLEN at an address that is a multiple of
64 (Table 22-4, log 41). -/
def reply (f : Nat) (r : Reply) (s : State) : State :=
  let M := mbxOf s f
  if !r.bulk.isEmpty && (decide (M.xlen.toNat < r.bulk.length) || decide (M.xaddr.toNat % 64 ≠ 0)) then
    onMbx f (fun M => { M with result := some (BitVec.ofNat 8 mbBadLen, []) }) s
  else onMbx f (fun M => { M with result := some (BitVec.ofNat 8 r.status, r.out), bulk := r.bulk }) s

/-! ### Operations that answer from what the device holds -/

/-- IDENTIFY. -/
def opIdentify (a : Asker) (s : State) : Reply :=
  okWith (leBytes 2 0x0E17 ++ leBytes 1 s.sys.stepping.toNat ++ leBytes 1 (stateCode s.sys.state) ++ leBytes 4 s.cfg.cur.gen
    ++ leBytes 8 s.image.version.toNat ++ leBytes 4 s.sys.bootCount.toNat ++ leBytes 1 a.own ++ zeros 11)

/-- GEN_QUERY. -/
def opGenQuery (s : State) : Reply := okWith (leBytes 4 s.cfg.cur.gen ++ leBytes 4 s.cfg.changes.length)

/-- A shard-map entry (Table 5-5). -/
def shardBytes (sh : Shard) : List Byte :=
  leBytes 4 (tierCode sh.tier + flag sh.moving 2 + flag sh.fresh 3 + put sh.base 4 28)

/-- TABLE_QUERY: the record in force, and the shard map where MBX_XLEN has room for it (R192, R830). -/
def opTableQuery (a : Asker) (inp : List Byte) (room : Nat) (s : State) : Reply :=
  let id := numAt inp 0 2
  match tableOf s.cfg.cur id, s.cfg.cur.kvs.find? (·.id == id) with
  | some t, _ =>
    if !mayRead t a.func then bare mbDenied
    else { okWith (tableBytes t) with bulk := if 4 * t.shards.length ≤ room then (t.shards.map shardBytes).flatten else [] }
  | none, some d => if mayReadKv d a.func then okWith (kvBytes d) else bare mbDenied
  | none, none => bare mbRejected

/-- KEY_READ. -/
def opKeyRead (s : State) : Reply :=
  okWith (edPublic Config.deviceSeed ++ keyId ++ fitTo s.image.ownerKey 32)

/-- CERT_READ. -/
def opCertRead (s : State) : Reply := okWith ((vat s.flash 0).cert.take 2048)

/-- Number of the core that a die and core number name. -/
def coreNamed (inp : List Byte) : Option Nat :=
  if numAt inp 0 1 ≤ 0x10 ∧ numAt inp 1 1 ≤ 7 then some (8 * numAt inp 0 1 + numAt inp 1 1) else none

/-- The asker is the steward, or the function that the crash record names (R830). -/
def crashOwner (s : State) (a : Asker) (k : Nat) : Bool := a.func == 0 || numAt (crashRecord s k) 4 1 == a.func

/-- CRASH_READ. -/
def opCrashRead (a : Asker) (inp : List Byte) (s : State) : Reply :=
  match coreNamed inp with
  | none => invalid ckRange
  | some k => if crashOwner s a k then okWith (crashRecord s k) else bare mbDenied

/-- The journal's events, oldest first. -/
def journaledEvents (s : State) : List Event :=
  (journalRecs s).flatMap fun r => match r.body with | .event es => es | _ => []

/-- Events that have an EVSEQ and are not yet committed. -/
def eventsPending (s : State) : Nat :=
  let inRec (b : JBody) : Nat := match b with | .event es => es.length | _ => 0
  s.jr.ring.length + (s.jr.writing.map fun r => inRec r.body).getD 0 + (s.jr.waiting.map fun x => inRec x.1).sum

/-- EVSEQ with its event, for the journaled events of this boot (Table 20-3). -/
def numberedEvents (s : State) : List (Nat × Event) :=
  let es := journaledEvents s
  let last := s.jr.evseq - eventsPending s
  let own := es.drop (es.length - last)
  ((List.range own.length).map fun i => last - own.length + 1 + i).zip own

/-- EVENT_FETCH. -/
def opEventFetch (inp : List Byte) (s : State) : Reply :=
  let first := numAt inp 0 8
  let es := (numberedEvents s).filter fun e => decide (first ≤ e.1 ∧ e.1 < first + numAt inp 8 4)
  { okWith (leBytes 4 es.length) with bulk := (es.map fun e => eventBytes e.2).flatten }

/-- DUMP_READ. -/
def opDumpRead (inp : List Byte) (s : State) : Reply :=
  match s.cnt.dumps[numAt inp 0 1]? with
  | some b => { okWith [] with bulk := b }
  | none => bare mbAbsent

/-- The journal's epoch records, in flash order. -/
def journaledRecords (s : State) : List (Nat × List Byte) :=
  (journalRecs s).filterMap fun r => match r.body with | .epoch b => some (epochOf b, b) | _ => none

/-- EPOCH_READ: ABSENT when the first record asked for is not in the journal. -/
def opEpochRead (inp : List Byte) (s : State) : Reply :=
  let first := numAt inp 0 8
  let rs := (journaledRecords s).filter fun e => decide (first ≤ e.1 ∧ e.1 < first + numAt inp 8 4)
  if !rs.any (·.1 == first) then bare mbAbsent
  else { okWith (leBytes 4 rs.length) with bulk := (rs.map (·.2)).flatten }

/-- The summaries of a retained epoch (R702). -/
def summariesOf (s : State) (n : Nat) : Option (List (List Byte)) :=
  ((s.led.closed.find? (·.num == n)).map (·.summaries)).orElse fun _ => (s.led.retained.find? (·.1 == n)).map (·.2.1)

/-- SUMMARY_READ. -/
def opSummaryRead (inp : List Byte) (s : State) : Reply :=
  match summariesOf s (numAt inp 0 8) with
  | some l => { okWith [] with bulk := l.flatten }
  | none => bare mbAbsent

/-- The EPOCH record of an epoch waits for its commit. -/
def epochPending (s : State) (n : Nat) : Bool :=
  let is (b : JBody) : Bool := match b with | .epoch r => epochOf r == n | _ => false
  s.led.closed.any (·.num == n) || (s.jr.writing.any fun r => is r.body) || s.jr.waiting.any fun x => is x.1

/-- The proof bundle of function `g` for a committed epoch (Table 18-9, R703). -/
def proofBundle (s : State) (n g : Nat) : Reply :=
  match s.led.retained.find? (·.1 == n) with
  | some (_, sums, r) => if r.isEmpty then bare mbAbsent else okWith (r ++ nth sums g [] ++ zeros 16 ++ auditPath sums g)
  | none => bare mbAbsent

/-- Highest epoch whose record is, or has been, committed (R704). -/
def highestCommitted (s : State) : Nat := max (highestEpoch s) s.led.collected

/-- COLLECT_ACK (R704, R844). -/
def opCollectAck (inp : List Byte) (s : State) : Reply × State :=
  let n := numAt inp 0 8
  if highestCommitted s < n then (bare mbRejected, s)
  else if n < s.led.collected then (bare mbOk, s)
  else (bare mbOk, jAdd (.collected n) (watchBacklog { s with led := { s.led with collected := n } }))

/-- ANCHOR_SET: an anchor within the history of the last 64 boundaries takes the next ID and is journaled (R107). -/
def opAnchorSet (inp : List Byte) (s : State) : Reply × State :=
  match s.tb.history.find? fun h => h.beat.toNat == numAt inp 0 8 with
  | none => (bare mbRejected, s)
  | some h =>
    let id : BitVec 32 := match s.tb.anchor with | some a => (if a.id = 0xFFFFFFFF then 1 else a.id + 1) | none => 1
    let a : Anchor := { id := id, beat := h.beat, time := BitVec.ofNat 64 (numAt inp 8 8), start := h.start }
    (okWith (leBytes 4 id.toNat), jAdd (.anchor a) { s with tb := { s.tb with anchor := some a } })

/-- Entries of 32 bytes that name a function in their first byte. -/
def ownEntries (f : Nat) (b : List Byte) : List Byte := ((pieces 32 (b.length / 32) b).filter fun e => numAt e 0 1 == f).flatten

/-- What a tenant sees of a rebuild report: the header, the LOST list, and the entries that name its own commands, with the
counts of what it holds (R780, log 42). -/
def reportFor (f : Nat) (b : List Byte) : List Byte :=
  let nlost := alignUp (2 * (numAt b 44 2 + numAt b 46 2)) 32
  let rest := b.drop (64 + nlost)
  let roll := numAt b 56 4 ≠ 0
  let nroll := if roll then numAt rest 20 4 else 0
  let mine := ownEntries f (slice rest 32 (32 * nroll))
  let aborts := ownEntries f (if roll then rest.drop (32 + 32 * nroll) else rest)
  let sec := if roll then patch (rest.take 32) 20 (leBytes 4 (mine.length / 32)) ++ mine else []
  patch (b.take (64 + nlost)) 52 (leBytes 4 (aborts.length / 32)) ++ sec ++ aborts

/-- REPORT_READ. -/
def opReportRead (a : Asker) (inp : List Byte) (s : State) : Reply :=
  match s.recov.reports.find? (·.1 == numAt inp 0 4) with
  | none => bare mbAbsent
  | some (_, b) => { okWith [] with bulk := if a.func = 0 then b else reportFor a.func b }

/-! ### Operations that act -/

/-- CORE_RESET (R479, R830). -/
def opCoreReset (a : Asker) (inp : List Byte) (s : State) : Reply × State :=
  match coreNamed inp with
  | none => (invalid ckRange, s)
  | some k =>
    if !crashOwner s a k then (bare mbDenied, s)
    else if (vat s.cores k).mode != .locked then (bare mbRejected, s)
    else (bare mbOk, unlockCore k s)

/-- FUNC_CTL: a disable is a function reset (R513). -/
def opFuncCtl (inp : List Byte) (s : State) : Reply × State :=
  let g := numAt inp 0 1
  if 63 < g ∨ (vat s.funcs g).pci.en = false then (bare mbRejected, s)
  else
    let set (off : Bool) (s : State) : State := onFunc g (fun F => { F with pci := { F.pci with disabled := off } }) s
    if bit (numAt inp 1 1) 0 then (bare mbOk, set false s)
    else if (vat s.funcs g).pci.disabled then (bare mbOk, s)
    else (bare mbOk, set true (funcReset 7 s g))

/-- The device holds the staging lock for this path (R843). -/
def stagingHeld (s : State) (by_ : Stager) : Bool :=
  s.mg.staging == some by_ && decide (clkOf s < s.mg.lastPart + 60 * second)

/-- The path takes the lock, or keeps it: a staging begins, or goes on. -/
def takeStaging (by_ : Stager) (s : State) : State :=
  let fresh := !stagingHeld s by_
  { s with mg := { s.mg with staging := some by_, parts := if fresh then [] else s.mg.parts, lastPart := clkOf s,
                             verified := false } }

/-- Bytes of an image are written into slot B (R834). -/
def stageBytes (off : Nat) (bs : List Byte) (s : State) : State :=
  let write (F : Flash) : Flash :=
    let n := max F.slot.length (off + bs.length)
    { F with slot := patch (F.slot ++ List.replicate (n - F.slot.length) 0xFF) off bs }
  { s with flash := vupd s.flash 1 write,
           mg := { s.mg with parts := s.mg.parts ++ [(off, bs.length)], lastPart := clkOf s, verified := false } }

/-- The parts staged under the lock make up a whole image (R172). -/
def stagingComplete (s : State) : Bool :=
  let n := numAt (slotBytes (vat s.flash 1) 0 256) 0x10 4
  s.mg.staging.isNone || covered s.mg.parts 0 n

/-- The SHA-256 digest of the first `n` bytes of an image slot; none when it cannot be read. -/
def slotDigest (F : Flash) (n : Nat) : Option (List Byte) := if F.readable then some (sha256 (slotBytes F 0 n)) else none

/-- Slot B is copied into slot A. -/
def copySlot (s : State) : State :=
  { s with flash := vupd s.flash 0 fun a => { a with slot := (vat s.flash 1).slot } }

/-- Activation of the image in slot B: it is validated and copied into slot A, whose digest is checked against that of slot
B and comes back; none when it is refused (R122, R172). A copy whose digest is another ends the activation as refused
(log 134). A device held in IMAGE without an image begins IMAGE again (R36). -/
def activate (by_ : Stager) (s : State) : Option (List Byte) × State :=
  let other : Stager := match by_ with | .steward => .bmc | .bmc => .steward
  let b := vat s.flash 1
  let n := numAt (slotBytes b 0 256) 0x10 4
  if (checkSlot s b).1 ≠ 0 ∨ stagingHeld s other = true ∨ stagingComplete s = false then (none, s)
  else
    let s := copySlot s
    match slotDigest (vat s.flash 0) n with
    | none => (none, s)
    | some d =>
      if slotDigest b n ≠ some d then (none, s)
      else
        let s := { s with mg := { s.mg with staging := none, parts := [], verified := false } }
        let again := s.sys.state == .image && !s.imageOk
        (some d,
          if again then { s with sys := { s.sys with aChecked := false, bChecked := false, aCode := 0, bCode := 0 } } else s)

/-- IMAGE_ACTIVATE. -/
def opImageActivate (s : State) : Reply × State :=
  match activate .steward s with
  | (some d, s) => (okWith d, s)
  | (none, s) => (bare mbRejected, s)

/-! ### Changes (R831, R835) -/

/-- Operations that are changes. -/
def isChangeOp (op : Nat) : Bool := decide (0x10 ≤ op ∧ op ≤ 0x21 ∧ op ≠ 0x13)

/-- Length of the default-row entry of a registration record, padded (R835). -/
def entryLen (rec_ : List Byte) : Nat := alignUp (16 + numAt rec_ 0x34 4) 16

/-- LEN and MBX_XLEN of a TABLE_REGISTER fit one of its two ways (R835). -/
def registerFits (M : Mailbox) : Bool :=
  let n := M.len.toNat
  let x := M.xlen.toNat
  let rec_ := mbxInput M
  decide (128 ≤ n ∧ n ≤ 3072)
    && if numAt rec_ 7 1 = 1 then
         (n == 128 && (x == 0 || x == entryLen rec_)) || (x == 0 && n == 128 + entryLen rec_)
       else n == 128 && x == 0

/-- The bytes of MBX_XADDR that an operation reads; none when MBX_XLEN does not fit it. -/
def inputLen (M : Mailbox) : Option Nat :=
  let x := M.xlen.toNat
  match M.op.toNat with
  | 0x10 => some x
  | 0x20 => if x = numAt (mbxInput M) 8 4 then some x else none
  | 0x30 => let off := numAt (mbxInput M) 0 4
            if off % 64 = 0 ∧ off + x ≤ 100663296 then some x else none
  | _ => some 0

/-- What a change operation asks for: a change, or INVALID with a check code. -/
def changeOf (s : State) (M : Mailbox) : Read ChangeKind :=
  let inp := mbxInput M
  let en := mapEnables s.image.funcs
  let id := numAt inp 0 2
  match M.op.toNat with
  | 0x10 =>
    let entry := if 128 < inp.length then some (inp.drop 128) else if M.input.isEmpty then none else some M.input
    (readRegistration en inp entry).map ChangeKind.tableRegister
  | 0x11 => (readKv en inp).map ChangeKind.kvRegister
  | 0x12 => .ok (.tableRelease id)
  | 0x14 => match tierOf (numAt inp 2 1) with
    | some t => .ok (.shardMove id (numAt inp 4 4) t)
    | none => .error ckReserved
  | 0x15 => .ok (.huskSet id (bit (numAt inp 2 1) 0))
  | 0x16 =>
    let i := numAt inp 0 1
    if 31 < i then .error ckRange else (readClass (decide (16 ≤ i)) (slice inp 8 64)).map (ChangeKind.classSet i)
  | 0x17 => (readMigration inp).map ChangeKind.migrationSet
  | 0x18 => (readLedger inp).map ChangeKind.ledgerSet
  | 0x20 => .ok (.kernelLoad (readKernel inp M.input))
  | _ => .ok (.kernelUnload id)

/-- The function owns what its change names (R177, R342, R830); ownership of a release is judged on the configuration that
every change accepted before it would produce. -/
def ownsChange (s : State) (f : Nat) (M : Mailbox) : Bool :=
  let inp := mbxInput M
  f == 0 || match M.op.toNat with
    | 0x10 => numAt inp 9 1 == f
    | 0x11 => numAt inp 14 1 == f
    | 0x12 =>
      let c := projected s
      let id := numAt inp 0 2
      c.tables.any (fun t => t.id == id && t.owner == f) || c.kvs.any fun d => d.id == id && d.owner == f
    | _ => false

/-- A change of function `f` whose turn it is: the change and its check code, or the answer that refuses it (R158, R159). -/
def judgeChange (f : Nat) (M : Mailbox) (s : State) : Except Reply ChangeKind :=
  if !ownsChange s f M then .error (bare mbDenied)
  else if journalBusy s then .error (bare mbJournalBusy)
  else match changeOf s M with
  | .error c => .error (invalid c)
  | .ok k =>
    let code := checkChange s (projected s) (tenantOf (some f)) k
    if code = 0 then .ok k else .error (invalid code)

/-- A change whose turn it is is accepted or refused (R831); one whose function has been reset since reports nothing
(R519). -/
def validateChange (f : Nat) (left : Option Mailbox) (s : State) : State :=
  match judgeChange f (left.getD (mbxOf s f)) s with
  | .ok k => acceptChange k (if left.isSome then none else some f) s
  | .error r => if left.isSome then s else reply f r s

/-- Changes are validated in the order of their GOs, as far as their data has come; at most `n` of them. -/
def pumpChanges : Nat → State → State
  | 0, s => s
  | n + 1, s =>
    match s.mg.changeQueue with
    | [] => s
    | .own k :: rest => pumpChanges n (validateOwn k { s with mg := { s.mg with changeQueue := rest } })
    | .mailbox f :: rest =>
      if (mbxOf s f).want.isSome then s
      else pumpChanges n (validateChange f none { s with mg := { s.mg with changeQueue := rest } })
    | .left f M :: rest =>
      if M.want.isSome then s
      else pumpChanges n (validateChange f (some M) { s with mg := { s.mg with changeQueue := rest } })

/-- See `pumpChanges`. -/
def pump (s : State) : State := pumpChanges s.mg.changeQueue.length s

/-- The operation asks the host for `n` bytes at MBX_XADDR (R829). Mailbox transfers ask for no translation (log 43). -/
def askInput (f n : Nat) (s : State) : State :=
  let M := mbxOf s f
  if n = 0 then s
  else
    let r : HostRead := { func := f, addr := M.xaddr.toNat, len := n, ats := false }
    hostAsk r (onMbx f (fun M => { M with want := some r }) s)

/-! ### GO (R824 to R830) -/

/-- Input bytes of an operation; none for a code that Table 22-5 does not list. TABLE_REGISTER has its own rule. -/
def inlineLen (op : Nat) : Option Nat :=
  match op with
  | 0x01 => some 0 | 0x02 => some 0 | 0x10 => some 128 | 0x11 => some 128 | 0x12 => some 8 | 0x13 => some 8
  | 0x14 => some 8 | 0x15 => some 8 | 0x16 => some 72 | 0x17 => some 128 | 0x18 => some 2688 | 0x20 => some 32
  | 0x21 => some 8 | 0x22 => some 8 | 0x23 => some 8 | 0x30 => some 8 | 0x31 => some 0 | 0x40 => some 0 | 0x41 => some 0
  | 0x50 => some 16 | 0x60 => some 16 | 0x61 => some 16 | 0x62 => some 16 | 0x63 => some 16 | 0x64 => some 16
  | 0x65 => some 8 | 0x70 => some 16 | 0x71 => some 16 | 0x72 => some 8 | 0x73 => some 8 | 0x74 => some 8 | 0x75 => some 8
  | _ => none

/-- Operations that only the steward may issue (Table 22-5). -/
def stewardOnly (op : Nat) : Bool :=
  [0x14, 0x15, 0x16, 0x17, 0x18, 0x20, 0x21, 0x23, 0x30, 0x31, 0x50, 0x60, 0x61, 0x62, 0x64, 0x65, 0x71, 0x72, 0x73].contains op

/-- Operations served before RUN (R828). -/
def earlyOp (op : Nat) : Bool := op == 0x01 || op == 0x40 || op == 0x41

/-- LEN fits the operation (Table 22-4). -/
def lenFits (M : Mailbox) : Bool :=
  if M.op.toNat = 0x10 then registerFits M else inlineLen M.op.toNat == some M.len.toNat

/-- An operation whose answer comes at once. -/
def quickOp (f op : Nat) (inp : List Byte) (room : Nat) (s : State) : Reply × State :=
  let a : Asker := { func := f, own := f }
  match op with
  | 0x01 => (opIdentify a s, s)
  | 0x02 => (opGenQuery s, s)
  | 0x13 => (opTableQuery a inp room s, s)
  | 0x22 => opCoreReset a inp s
  | 0x31 => opImageActivate s
  | 0x40 => (opKeyRead s, s)
  | 0x41 => (opCertRead s, s)
  | 0x50 => opAnchorSet inp s
  | 0x64 => (opEventFetch inp s, s)
  | 0x65 => (opDumpRead inp s, s)
  | 0x71 => (opEpochRead inp s, s)
  | 0x72 => (opSummaryRead inp s, s)
  | 0x73 => opCollectAck inp s
  | 0x74 => (opReportRead a inp s, s)
  | 0x75 => (opCrashRead a inp s, s)
  | _ => (if ringOk s f op (ringDesc inp) then bare mbOk else invalid ckRange, s)

/-- PROOF_READ: refused at once, or held until the record is committed (R703, R712). -/
def startProof (f : Nat) (inp : List Byte) (s : State) : State :=
  let n := numAt inp 0 8
  let g := numAt inp 8 1
  if f ≠ 0 ∧ g ≠ f then reply f (bare mbDenied) s
  else if 63 < g then reply f (invalid ckRange) s
  else if epochPending s n then s
  else reply f (proofBundle s n g) s

/-- IMAGE_STAGE: the lock is taken and the bytes are read (R834, R843). -/
def startStage (f n : Nat) (s : State) : State :=
  if stagingHeld s .bmc then reply f (bare mbRejected) s
  else
    let s := askInput f n (takeStaging .steward s)
    if n = 0 then reply f (bare mbOk) s else s

/-- An accepted operation that may run starts. -/
def runOp (f : Nat) (s : State) : State :=
  let M := mbxOf s f
  let op := M.op.toNat
  let inp := mbxInput M
  match inputLen M with
  | none => reply f (bare mbBadLen) s
  | some n =>
    if n ≠ 0 ∧ M.xaddr.toNat % 64 ≠ 0 then reply f (bare mbBadLen) s
    else if isChangeOp op then
      if op ≠ 0x12 && !ownsChange s f M then reply f (bare mbDenied) s
      else pump (askInput f n { s with mg := { s.mg with changeQueue := s.mg.changeQueue ++ [.mailbox f] } })
    else if op = 0x23 then
      let r := opFuncCtl inp s
      reply f r.1 r.2
    else if op = 0x30 then startStage f n s
    else if op = 0x70 then startProof f inp s
    else
      let r := quickOp f op inp M.xlen.toNat s
      reply f r.1 r.2

/-- An accepted operation: refused by state, by code, by right or by length, or started (R828, R830, Table 22-4). -/
def startOp (f : Nat) (s : State) : State :=
  let M := mbxOf s f
  let op := M.op.toNat
  if s.sys.state == .halt then reply f (bare mbHold) s
  else if !inService s && !earlyOp op then reply f (bare mbStateDenied) s
  else if (inlineLen op).isNone then reply f (bare mbBadOp) s
  else if stewardOnly op && f ≠ 0 then reply f (bare mbDenied) s
  else if !lenFits M then reply f (bare mbBadLen) s
  else runOp f s

/-- A write of MBX_CMD with GO by function `f` (R824, R825): ignored and counted while the mailbox is BUSY or its page
takes no write. -/
def mbxGo (op len f : Nat) (s : State) : State :=
  if !linksTraining s || !(vat s.funcs f).pci.en then s
  else if funcInReset s f || (mbxOf s f).st == .busy then countPage f s
  else
    startOp f (onMbx f (fun M =>
      { M with op := BitVec.ofNat 16 op, len := BitVec.ofNat 16 len, st := .busy, opseq := M.opseq + 1, result := none,
               want := none, input := [], bulk := [] }) s)

/-! ### MAILBOX_COMPLETE (R826) -/

/-- The operation still waits: a FUNC_CTL for the reset of its function to complete. -/
def stillRuns (s : State) (M : Mailbox) : Bool :=
  M.op == 0x23 && M.result.isSome && decide (numAt M.data 0 1 ≤ 63)
    && (vat s.funcs (numAt M.data 0 1)).resetting

/-- A PROOF_READ that was held is answered once its record is committed. -/
def settleProof (f : Nat) (s : State) : State :=
  let M := mbxOf s f
  let inp := mbxInput M
  if M.op == 0x70 && M.st == .busy && M.result.isNone && !epochPending s (numAt inp 0 8) then
    reply f (proofBundle s (numAt inp 0 8) (numAt inp 8 1)) s
  else s

/-- The output is written, STATUS, OUT_LEN, DONE and DONE_EV are set, a ring comes into force, and vector 0 goes out. -/
def finishOp (f : Nat) (status : BitVec 8) (out : List Byte) (s : State) : State :=
  let M := mbxOf s f
  let op := M.op.toNat
  let inp := mbxInput M
  let s := if M.bulk.isEmpty then s else houseBytes s f M.bulk.length (hostWrite f M.xaddr.toNat M.bulk s)
  let s := if 0x60 ≤ op ∧ op ≤ 0x63 ∧ status = 0 then setRing f op (ringDesc inp) s else s
  let s := onMbx f (fun M =>
    { M with data := patch M.data 0 out, status := status, outLen := out.length, st := .done, doneEv := true,
             result := none, input := [], bulk := [] }) s
  raiseMsix f 0 (tally .control 0x406 1 .none s)

/-- An operation of a function completes, if its answer is known. -/
def completeOp (f : Nat) (s : State) : State :=
  let s := settleProof f (pump s)
  let M := mbxOf s f
  match M.result with
  | some (status, out) => if M.st != .busy || stillRuns s M then s else finishOp f status out s
  | none => s

/-! ### The rows of Table 22-5: a GO with each OP -/

/-- IDENTIFY. -/
def execIdentify (f : Fin 64) (len : Fin 4096) (s : State) : Host.Outcome State Fault Refusal := .next (mbxGo 0x01 len f s)
/-- GEN_QUERY. -/
def execGenQuery (f : Fin 64) (len : Fin 4096) (s : State) : Host.Outcome State Fault Refusal := .next (mbxGo 0x02 len f s)
/-- TABLE_REGISTER. -/
def execTableRegister (f : Fin 64) (len : Fin 4096) (s : State) : Host.Outcome State Fault Refusal := .next (mbxGo 0x10 len f s)
/-- KV_REGISTER. -/
def execKvRegister (f : Fin 64) (len : Fin 4096) (s : State) : Host.Outcome State Fault Refusal := .next (mbxGo 0x11 len f s)
/-- TABLE_RELEASE. -/
def execTableRelease (f : Fin 64) (len : Fin 4096) (s : State) : Host.Outcome State Fault Refusal := .next (mbxGo 0x12 len f s)
/-- TABLE_QUERY. -/
def execTableQuery (f : Fin 64) (len : Fin 4096) (s : State) : Host.Outcome State Fault Refusal := .next (mbxGo 0x13 len f s)
/-- SHARD_MOVE. -/
def execShardMove (f : Fin 64) (len : Fin 4096) (s : State) : Host.Outcome State Fault Refusal := .next (mbxGo 0x14 len f s)
/-- HUSK_SET. -/
def execHuskSet (f : Fin 64) (len : Fin 4096) (s : State) : Host.Outcome State Fault Refusal := .next (mbxGo 0x15 len f s)
/-- CLASS_SET. -/
def execClassSet (f : Fin 64) (len : Fin 4096) (s : State) : Host.Outcome State Fault Refusal := .next (mbxGo 0x16 len f s)
/-- LEDGER_SET. -/
def execLedgerSet (f : Fin 64) (len : Fin 4096) (s : State) : Host.Outcome State Fault Refusal := .next (mbxGo 0x18 len f s)
/-- KERNEL_LOAD. -/
def execKernelLoad (f : Fin 64) (len : Fin 4096) (s : State) : Host.Outcome State Fault Refusal := .next (mbxGo 0x20 len f s)
/-- KERNEL_UNLOAD. -/
def execKernelUnload (f : Fin 64) (len : Fin 4096) (s : State) : Host.Outcome State Fault Refusal := .next (mbxGo 0x21 len f s)
/-- CORE_RESET. -/
def execCoreReset (f : Fin 64) (len : Fin 4096) (s : State) : Host.Outcome State Fault Refusal := .next (mbxGo 0x22 len f s)
/-- FUNC_CTL. -/
def execFuncCtl (f : Fin 64) (len : Fin 4096) (s : State) : Host.Outcome State Fault Refusal := .next (mbxGo 0x23 len f s)
/-- IMAGE_STAGE. -/
def execImageStage (f : Fin 64) (len : Fin 4096) (s : State) : Host.Outcome State Fault Refusal := .next (mbxGo 0x30 len f s)
/-- IMAGE_ACTIVATE. -/
def execImageActivate (f : Fin 64) (len : Fin 4096) (s : State) : Host.Outcome State Fault Refusal := .next (mbxGo 0x31 len f s)
/-- KEY_READ. -/
def execKeyRead (f : Fin 64) (len : Fin 4096) (s : State) : Host.Outcome State Fault Refusal := .next (mbxGo 0x40 len f s)
/-- CERT_READ. -/
def execCertRead (f : Fin 64) (len : Fin 4096) (s : State) : Host.Outcome State Fault Refusal := .next (mbxGo 0x41 len f s)
/-- ANCHOR_SET. -/
def execAnchorSet (f : Fin 64) (len : Fin 4096) (s : State) : Host.Outcome State Fault Refusal := .next (mbxGo 0x50 len f s)
/-- EVENT_RING. -/
def execEventRing (f : Fin 64) (len : Fin 4096) (s : State) : Host.Outcome State Fault Refusal := .next (mbxGo 0x60 len f s)
/-- DUMP_RING. -/
def execDumpRing (f : Fin 64) (len : Fin 4096) (s : State) : Host.Outcome State Fault Refusal := .next (mbxGo 0x61 len f s)
/-- PIP_RING. -/
def execPipRing (f : Fin 64) (len : Fin 4096) (s : State) : Host.Outcome State Fault Refusal := .next (mbxGo 0x62 len f s)
/-- NOTICE_RING. -/
def execNoticeRing (f : Fin 64) (len : Fin 4096) (s : State) : Host.Outcome State Fault Refusal := .next (mbxGo 0x63 len f s)
/-- EVENT_FETCH. -/
def execEventFetch (f : Fin 64) (len : Fin 4096) (s : State) : Host.Outcome State Fault Refusal := .next (mbxGo 0x64 len f s)
/-- DUMP_READ. -/
def execDumpRead (f : Fin 64) (len : Fin 4096) (s : State) : Host.Outcome State Fault Refusal := .next (mbxGo 0x65 len f s)
/-- PROOF_READ. -/
def execProofRead (f : Fin 64) (len : Fin 4096) (s : State) : Host.Outcome State Fault Refusal := .next (mbxGo 0x70 len f s)
/-- EPOCH_READ. -/
def execEpochRead (f : Fin 64) (len : Fin 4096) (s : State) : Host.Outcome State Fault Refusal := .next (mbxGo 0x71 len f s)
/-- SUMMARY_READ. -/
def execSummaryRead (f : Fin 64) (len : Fin 4096) (s : State) : Host.Outcome State Fault Refusal := .next (mbxGo 0x72 len f s)
/-- COLLECT_ACK. -/
def execCollectAck (f : Fin 64) (len : Fin 4096) (s : State) : Host.Outcome State Fault Refusal := .next (mbxGo 0x73 len f s)
/-- REPORT_READ. -/
def execReportRead (f : Fin 64) (len : Fin 4096) (s : State) : Host.Outcome State Fault Refusal := .next (mbxGo 0x74 len f s)
/-- CRASH_READ. -/
def execCrashRead (f : Fin 64) (len : Fin 4096) (s : State) : Host.Outcome State Fault Refusal := .next (mbxGo 0x75 len f s)
/-- BAD_OP: a GO with an OP that Table 22-5 does not list; one that it lists is another row's. -/
def execBadOp (f : Fin 64) (op : BitVec 16) (len : Fin 4096) (s : State) : Host.Outcome State Fault Refusal :=
  .next (if (inlineLen op.toNat).isNone then mbxGo op.toNat len f s else s)

end Sys2Proof.Machine
end

