-- ==== Sys2Proof/Machine/Bmc.lean ====
section
/-!
DEFINITION. Sys2Proof/Machine/Bmc.lean: out-of-band access: MCTP, PLDM for monitoring and for firmware update, the Logaen
OEM type, and the completion of mailbox operations (section 22.3, R826).
-/
namespace Sys2Proof.Machine

/-! ### The endpoint (R837) -/

/-- Out-of-band access is on, from the start of IMAGE; endpoint 0 is SMBus, endpoint 1 PCIe VDM on port B0.0 (R837). -/
def bmcOn (s : State) (e : Nat) : Bool :=
  !(s.sys.state == .cold || s.sys.state == .boot) && (e == 0 || portUp s 0)

/-- A request on endpoint `e` is served by `g`; none is while out-of-band access is off. -/
def onEndpoint (e : Fin 2) (g : State → State) (s : State) : State := if bmcOn s e.val then g s else s

/-- A response whose first byte is the PLDM completion code (log 44). -/
def answerBmc (e : Fin 2) (code : Nat) (rest : List Byte) (s : State) : State := emit (.bmc e.val (leBytes 1 code ++ rest)) s

/-- PLDM completion codes: SUCCESS (log 44). -/
def pldmOk : Nat := 0x00
/-- PLDM ERROR_INVALID_DATA (log 44). -/
def pldmInvalid : Nat := 0x02
/-- PLDM ERROR_NOT_READY (R841, log 44). -/
def pldmNotReady : Nat := 0x04
/-- INVALID_SENSOR_ID of PLDM type 2 and INVALID_RECORD_HANDLE of GetPDR (log 44). -/
def pldmNoSensor : Nat := 0x80
/-- ALREADY_IN_UPDATE_MODE of PLDM type 5 (R843, log 44). -/
def pldmAlready : Nat := 0x81
/-- NOT_IN_UPDATE_MODE of PLDM type 5 (log 44). -/
def pldmNotUpdating : Nat := 0x80

/-- SET_ENDPOINT_ID (R837). -/
def execSetEndpointId (e : Fin 2) (eid : BitVec 8) (s : State) : Host.Outcome State Fault Refusal :=
  .next (onEndpoint e (fun s => answerBmc e pldmOk [] { s with mg := { s.mg with eid := eid } }) s)

/-! ### PLDM type 2 (R838) -/

/-- The reading of a numeric sensor (Table 22-7). -/
def sensorReading (s : State) (id : Nat) : Option Nat :=
  if id = 0x0001 then some s.led.powerMw.toNat
  else if id = 0x0002 then some s.pmc.vin.toNat
  else if id = 0x0003 then some (s.led.energy.toNat / 1000000)
  else if 0x0010 ≤ id ∧ id ≤ 0x0023 then some (vat s.pmc.temps (id - 0x10))
  else none

/-- GET_SENSOR_READING (R838). -/
def execGetSensorReading (e : Fin 2) (id : BitVec 16) (s : State) : Host.Outcome State Fault Refusal :=
  .next (onEndpoint e (fun s => match sensorReading s id.toNat with
    | some v => answerBmc e pldmOk (leBytes 8 v) s
    | none => answerBmc e pldmNoSensor [] s) s)

/-- The reading of a state sensor (Table 22-7). -/
def stateReading (s : State) (id : Nat) : Option Nat :=
  if id = 0x0030 then some (stateCode s.sys.state) else if id = 0x0031 then some (trkCode s.tb.trk) else none

/-- GET_STATE_SENSOR_READINGS (R838). -/
def execGetStateSensorReadings (e : Fin 2) (id : BitVec 16) (s : State) : Host.Outcome State Fault Refusal :=
  .next (onEndpoint e (fun s => match stateReading s id.toNat with
    | some v => answerBmc e pldmOk (leBytes 1 v) s
    | none => answerBmc e pldmNoSensor [] s) s)

/-- GET_PDR: the repository describes the sensors; its bytes are left open (R838, log 7). -/
def execGetPdr (e : Fin 2) (handle : BitVec 32) (s : State) : Host.Outcome State Fault Refusal :=
  .next (onEndpoint e (fun s => answerBmc e pldmOk (Config.pdr handle.toNat) s) s)

/-! ### PLDM type 5 (R839, R843) -/

/-- REQUEST_UPDATE takes the staging lock (R843). -/
def execRequestUpdate (e : Fin 2) (s : State) : Host.Outcome State Fault Refusal :=
  .next (onEndpoint e (fun s =>
    if stagingHeld s .steward || stagingHeld s .bmc then answerBmc e pldmAlready [] s
    else answerBmc e pldmOk [] (takeStaging .bmc s)) s)

/-- Bytes of an image slot (Table 4-2, R834). -/
def slotLimit : Nat := 100663296

/-- REQUEST_FIRMWARE_DATA: a part of 1,024 bytes goes into slot B (R839). -/
def execRequestFirmwareData (e : Fin 2) (off : BitVec 32) (bytes : List Byte) (s : State) : Host.Outcome State Fault Refusal :=
  .next (onEndpoint e (fun s =>
    if !stagingHeld s .bmc then answerBmc e pldmNotUpdating [] s
    else if bytes.length ≠ 1024 ∨ off.toNat % 1024 ≠ 0 ∨ slotLimit < off.toNat + 1024 then answerBmc e pldmInvalid [] s
    else answerBmc e pldmOk [] (stageBytes off.toNat bytes s)) s)

/-- VERIFY_COMPLETE: the checks of Table 4-7 run on slot B, and the code of the check that failed goes back (R839). -/
def execVerifyComplete (e : Fin 2) (s : State) : Host.Outcome State Fault Refusal :=
  .next (onEndpoint e (fun s =>
    if !stagingHeld s .bmc then answerBmc e pldmNotUpdating [] s
    else
      let code := (checkSlot s (vat s.flash 1)).1
      answerBmc e pldmOk (leBytes 1 code) { s with mg := { s.mg with verified := code == 0 } }) s)

/-- ACTIVATE_FIRMWARE (R122, R172, R839). -/
def execActivateFirmware (e : Fin 2) (s : State) : Host.Outcome State Fault Refusal :=
  .next (onEndpoint e (fun s =>
    if !stagingHeld s .bmc then answerBmc e pldmNotUpdating [] s
    else match activate .bmc s with
    | (some _, s) => answerBmc e pldmOk [] s
    | (none, s) => answerBmc e pldmInvalid [] s) s)

/-- STAGING_TIMEOUT: 60 s have passed since the last part (R843). -/
def execStagingTimeout (s : State) : Host.Outcome State Fault Refusal :=
  .next (if s.mg.staging.isSome && decide (s.mg.lastPart + 60 * second ≤ clkOf s)
    then { s with mg := { s.mg with staging := none, parts := [], verified := false } } else s)

/-! ### The Logaen OEM type (R840, R841) -/

/-- The operations that the BMC may issue (R841). -/
def oemAllowed (op : Nat) : Bool :=
  [0x01, 0x02, 0x40, 0x41, 0x50, 0x64, 0x65, 0x71, 0x72, 0x73, 0x74, 0x75].contains op

/-- An operation for the BMC, with the steward's rights (R841). -/
def oemOp (op : Nat) (inp : List Byte) (s : State) : Reply × State :=
  let a : Asker := { func := 0, own := 0xFF }
  if !oemAllowed op then (bare mbDenied, s)
  else if inlineLen op ≠ some inp.length then (bare mbBadLen, s)
  else match op with
  | 0x01 => (opIdentify a s, s)
  | 0x02 => (opGenQuery s, s)
  | 0x40 => (opKeyRead s, s)
  | 0x41 => (opCertRead s, s)
  | 0x50 => opAnchorSet inp s
  | 0x64 => (opEventFetch inp s, s)
  | 0x65 => (opDumpRead inp s, s)
  | 0x71 => (opEpochRead inp s, s)
  | 0x72 => (opSummaryRead inp s, s)
  | 0x73 => opCollectAck inp s
  | 0x74 => (opReportRead a inp s, s)
  | _ => (opCrashRead a inp s, s)

/-- The endpoint keeps an operation's output, what Table 22-5 puts at MBX_XADDR in front, and is busy until the operation
completes (R840, R841, log 45). -/
def keepOutput (e : Nat) (r : Reply) (s : State) : State :=
  { s with mg := { s.mg with oem := vupd s.mg.oem e fun _ => some (BitVec.ofNat 8 r.status, r.bulk ++ r.out),
                             oemBusy := vupd s.mg.oemBusy e fun _ => true } }

/-- The bytes after the completion code: STATUS, the total output length and up to 1,024 bytes from OFFSET (R840). -/
def oemBytes (status : BitVec 8) (out : List Byte) (offset : Nat) : List Byte :=
  leBytes 1 status.toNat ++ leBytes 4 out.length ++ (out.drop offset).take 1024

/-- PLDM_OEM_REQUEST: with OFFSET 0 an operation starts; with another OFFSET the output kept is read on (R840, R841). -/
def execPldmOemRequest (e : Fin 2) (vendor op : BitVec 16) (offset : BitVec 32) (inp : List Byte) (s : State) :
    Host.Outcome State Fault Refusal :=
  .next (onEndpoint e (fun s =>
    if vat s.mg.oemBusy e.val then answerBmc e pldmNotReady [] s
    else if vendor ≠ 0x1E71 then answerBmc e pldmInvalid [] s
    else if offset ≠ 0 then
      match vat s.mg.oem e.val with
      | some (status, out) => answerBmc e pldmOk (oemBytes status out offset.toNat) s
      | none => answerBmc e pldmInvalid [] s
    else
      let r := oemOp op.toNat inp s
      keepOutput e.val r.1 r.2) s)

/-- Blocks of the control die open to the BMC (Table 23-2). -/
def bmcBlock (blk : Nat) : Bool := [0x00, 0x01, 0x02, 0x03, 0x05, 0x07, 0x3F].contains blk

/-- What REG_READ answers (R841, R849, R867). -/
def regReadReply (s : State) (die blk off : Nat) : Reply :=
  if die ≠ dieC ∨ bmcBlock blk = false then bare mbDenied
  else if off % 8 ≠ 0 then bare mbRejected
  else okWith (leBytes 8 (regRead s die blk off))

/-- REG_READ, OP 0x0080 of the OEM type with OFFSET 0 (R841). -/
def execRegRead (e : Fin 2) (die blk : BitVec 8) (off : BitVec 16) (s : State) : Host.Outcome State Fault Refusal :=
  .next (onEndpoint e (fun s =>
    if vat s.mg.oemBusy e.val then answerBmc e pldmNotReady [] s
    else keepOutput e.val (regReadReply s die.toNat blk.toNat off.toNat) s) s)

/-! ### MAILBOX_COMPLETE (R826, R840) -/

/-- An operation of the BMC completes: its response goes out. -/
def completeOem (e : Nat) (s : State) : State :=
  match vat s.mg.oemBusy e, vat s.mg.oem e with
  | true, some (status, out) =>
    let s := { s with mg := { s.mg with oemBusy := vupd s.mg.oemBusy e fun _ => false } }
    emit (.bmc e (leBytes 1 pldmOk ++ oemBytes status out 0)) (tally .control 0x406 1 .none s)
  | _, _ => s

/-- MAILBOX_COMPLETE of a function's mailbox or of an endpoint's operation (R826). -/
def execMailboxComplete (target : MbxId) (s : State) : Host.Outcome State Fault Refusal :=
  .next (match target with
    | .func f => completeOp f.val s
    | .endpoint e => completeOem e.val s)

end Sys2Proof.Machine
end

