-- ==== Sys2Proof/Machine/RegWrite.lean ====
section
/-!
DEFINITION. Sys2Proof/Machine/RegWrite.lean: what a host write does to a register: field by field under Tables 0-3 and 0-4,
or as the register's own rule lays down (chapter 23).
-/
namespace Sys2Proof.Machine

/-! ### Fields (R10, R15, R850) -/

/-- Bits `lo` to `lo + n - 1` of `old` replaced. -/
def setBits (old lo n x : Nat) : Nat := old - put (bits old lo n) lo n + put x lo n

/-- A write covers a part of the field: bits `lo` to `lo + w - 1` of the register. -/
def fieldHit (F : Field) (lo w : Nat) : Bool := rangesMeet F.lo F.width lo w

/-- The field's value with the covered part replaced by the written bits (R850). -/
def formedVal (F : Field) (lo w v : Nat) : Nat :=
  let a := max F.lo lo
  let n := min (F.lo + F.width) (lo + w) - a
  setBits F.val (a - F.lo) n (bits v (a - lo) n)

/-- What software and hardware do to a field in one cycle leaves in it, by its collision class (R15, Table 0-4). `soft` is
the value that the write forms, for HSET the bit that it clears; `hard` is what hardware makes of it, for CSUM the increment:
HOWN takes the hardware's value alone; under SWIN the software's value wins and the hardware update is discarded; the hardware
set of HSET wins over the clear; CSUM sums both, and wraps or saturates at its width. -/
def collide (F : Field) (soft hard : Option Nat) : Nat :=
  match F.kind with
  | .ro => hard.getD F.val
  | .rw => (soft.orElse fun _ => hard).getD F.val
  | .w1c => max (F.val - F.val % 2 * soft.getD 0) (hard.getD 0)
  | .csum => (soft.getD F.val + hard.getD 0) % 2 ^ F.width
  | .csumSat => min (2 ^ F.width - 1) (soft.getD F.val + hard.getD 0)

/-- What a write of `v` to bits `lo` to `lo + w - 1` forms for a field that it covers in part or whole. -/
def softVal (lo w v : Nat) (F : Field) : Nat :=
  if F.kind == .w1c then bits v (F.lo - lo) 1 else formedVal F lo w v

/-- A field after a write of `v` to bits `lo` to `lo + w - 1`, where hardware does `hard` to it in the same cycle. -/
def writeFieldWith (lo w v : Nat) (hard : Option Nat) (F : Field) : Field :=
  { F with val := collide F (if fieldHit F lo w then some (softVal lo w v F) else none) hard }

/-- A field after a write that is alone in its cycle, as each row is (log 46). -/
def writeField (lo w v : Nat) (F : Field) : Field := writeFieldWith lo w v none F

/-- The write reaches an RO field (R854). -/
def reachesRo (fs : List Field) (lo w : Nat) : Bool := fs.any fun F => F.kind == .ro && fieldHit F lo w

/-- The write reaches some field. -/
def reachesAny (fs : List Field) (lo w : Nat) : Bool := fs.any fun F => fieldHit F lo w

/-- A register's value after a write. -/
def writtenVal (fs : List Field) (lo w v : Nat) : Nat := regVal (fs.map (writeField lo w v))

/-! ### Where a register's fields are kept -/

/-- The RW, W1C and CSUM fields of Table 20-4a. -/
def storeRing (v : Nat) (r : RingCtl) : RingCtl :=
  { r with head := BitVec.ofNat 16 (bits v 0 16), overrun := bit v 33, lost := BitVec.ofNat 16 (bits v 48 16) }

/-- A counter or a select register of a bank. A write of a select register that names an unlisted event changes no event and sets
CHANGED all the same (DESIGN CHOICE, log 142). -/
def storeBank (base sels off v : Nat) (b : Bank) : Bank :=
  if base ≤ off ∧ off < base + 8 * b.prog.length then
    { b with prog := b.prog.set ((off - base) / 8) (BitVec.ofNat 64 (v % 2 ^ 48)) }
  else if sels ≤ off ∧ off < sels + 8 * b.sel.length then
    let i := (off - sels) / 8
    { b with sel := b.sel.set i (BitVec.ofNat 64 (v % 2 ^ 26)), changed := b.changed.set i true }
  else b

/-- A fixed counter of a bank. -/
def storeFixed (i v : Nat) (b : Bank) : Bank := { b with fixed := b.fixed.set i (BitVec.ofNat 64 (v % 2 ^ 48)) }

/-- A register of the control die (Table 23-5). -/
def storeControl (blk off v : Nat) (s : State) : State :=
  if blk = 1 ∧ off = 0 then
    { s with tb := { s.tb with holdEv := bit v 4, stretchEv := bit v 5, splitEv := bit v 6,
                               stray := BitVec.ofNat 16 (bits v 16 16) } }
  else if blk = 2 ∧ off = 0 then
    { s with led := { s.led with gapEv := bit v 1, rangeEv := bit v 2, gaps := BitVec.ofNat 16 (bits v 16 16) } }
  else if blk = 3 ∧ off = 0 then { s with pmc := { s.pmc with sagEv := bit v 1, seqFailEv := bit v 3 } }
  else if blk = 5 ∧ off = 0 then { s with jr := { s.jr with evt := storeRing v s.jr.evt } }
  else if blk = 5 ∧ off = 8 then { s with cnt := { s.cnt with dump := storeRing v s.cnt.dump } }
  else if blk = 5 ∧ off = 0x10 then
    { s with cnt := { s.cnt with pip := storeRing v s.cnt.pip, pipRate := bits v 16 5, pipSample := bit v 21,
                                 pipSkip := bits v 36 12 } }
  else if blk = 6 ∧ 0x100 ≤ off ∧ off < 0x300 then
    onFunc ((off - 0x100) / 8) (fun F => { F with cntPerm := BitVec.ofNat 64 (bits v 0 5) }) s
  else if blk = 6 then { s with cnt := { s.cnt with control := storeBank 0 0x40 off v s.cnt.control } }
  else s

/-- A register of a slice (Table 23-8). -/
def storeSlice (k blk off v : Nat) (s : State) : State :=
  if blk = 0 ∧ off = 0 then onSlice k (fun S => { S with liftSkipEv := bit v 2 }) s
  else if blk = 1 ∧ off = 0 then
    onSlice k (fun S => { S with hotEv := bit v 13, ce := BitVec.ofNat 16 (bits v 32 16), ue := BitVec.ofNat 16 (bits v 48 16) }) s
  else if blk = 2 then
    let g := if 0x100 ≤ off then storeFixed ((off - 0x100) / 8) v else storeBank 0 0x80 off v
    { s with cnt := { s.cnt with slice := vupd s.cnt.slice k g } }
  else if 0x10 ≤ blk ∧ blk ≤ 0x17 then
    let g := if off = 0 then storeFixed 0 v else storeBank 0x08 0x40 off v
    { s with cnt := { s.cnt with core := vupd s.cnt.core (8 * k + (blk - 0x10)) g } }
  else s

/-- CE and UE of a far part (Table 17-7). -/
def storeFar (v : Nat) (p : FarPart) : FarPart :=
  { p with ce := BitVec.ofNat 16 (bits v 16 16), ue := BitVec.ofNat 16 (bits v 32 16) }

/-- A register of a bridge outside the pages (Table 23-6). -/
def storeBridge (b blk off v : Nat) (s : State) : State :=
  if blk = 0 ∧ off < 0x40 then { s with dimms := vupd s.dimms (8 * b + off / 8) (storeFar v) }
  else if blk = 0 then { s with cxl := vupd s.cxl (2 * b + (off - 0x40) / 8) (storeFar v) }
  else if blk = 1 then
    let g := if 0x200 ≤ off then storeFixed (20 + (off - 0x200) / 8) v
             else if 0x100 ≤ off then storeFixed ((off - 0x100) / 8) v else storeBank 0 0x80 off v
    { s with cnt := { s.cnt with bridge := vupd s.cnt.bridge b g } }
  else if blk = 2 then
    onFunc (32 * b + off / 64) (fun F =>
      { F with cnt := vupd F.cnt (off % 64 / 8) fun _ => BitVec.ofNat 64 (v % 2 ^ 48) }) s
  else s

/-- An ignored-write counter (R853). -/
def storeIgnored (die off v : Nat) (s : State) : State :=
  let k := source die (off / 8)
  { s with cnt := { s.cnt with ignored := (k, BitVec.ofNat 32 (v % 2 ^ 32)) :: s.cnt.ignored.filter (·.1 != k) } }

/-- A vector's entry in the MSI-X table. -/
def storeMsix (off v : Nat) (F : Func) : Func :=
  let n := (off - 0x8000) / 16
  let e := msixEntry F n
  let e := if off % 16 = 0 then { e with addr := BitVec.ofNat 64 v }
           else { e with data := BitVec.ofNat 32 (bits v 0 32), ctl := BitVec.ofNat 32 (bits v 32 32) }
  { F with msix := e :: F.msix.filter (·.vec != n) }

/-- A register of a page that only keeps what is written (Table 23-7). -/
def storePage (off v : Nat) (F : Func) : Func :=
  if off = 0x4000 then { F with mbx := { F.mbx with op := BitVec.ofNat 16 (bits v 0 16), len := BitVec.ofNat 16 (bits v 16 12) } }
  else if off = 0x4008 then { F with mbx := { F.mbx with xaddr := BitVec.ofNat 64 v } }
  else if off = 0x4010 then { F with mbx := { F.mbx with xlen := BitVec.ofNat 64 (bits v 0 32) } }
  else if off = 0x4018 then { F with mbx := { F.mbx with doneEv := bit v 2 } }
  else if 0x4100 ≤ off ∧ off < 0x4D00 then
    { F with mbx := { F.mbx with data := patch (fitTo F.mbx.data 3072) (off - 0x4100) (leBytes 8 v) } }
  else if off = 0x5000 then
    { F with derr := { F.derr with valid := bit v 0, overrun := bit v 1, count := BitVec.ofNat 16 (bits v 16 16) } }
  else if off = 0x5010 then { F with kvn := storeRing v F.kvn }
  else if off = 0x5020 then { F with pasid := BitVec.ofNat 32 (bits v 0 20 + flag (bit v 31) 31) }
  else if off = 0x5100 then { F with win := { F.win with base := BitVec.ofNat 64 v } }
  else if off = 0x5110 then { F with win := { F.win with maddr := BitVec.ofNat 64 v } }
  else if off = 0x5120 then { F with win := { F.win with rbase := BitVec.ofNat 64 v } }
  else if off = 0x5128 then { F with win := { F.win with rlen := BitVec.ofNat 64 v } }
  else if off = 0x5138 then { F with win := { F.win with rdone := bit v 1, merr := bit v 2 } }
  else if 0x8000 ≤ off then storeMsix off v F
  else F

/-- The function whose register page a block of a die is (R506). -/
def pageFunc (die blk : Nat) : Option Nat :=
  if (die = 0x11 ∨ die = 0x12) ∧ 0x40 ≤ blk ∧ blk ≤ 0x5F then some (32 * (die - 0x11) + (blk - 0x40)) else none

/-- A register takes a value in the fields that software may change. -/
def storeReg (die blk off v : Nat) (s : State) : State :=
  match pageFunc die blk with
  | some f => onFunc f (storePage off v) s
  | none =>
    if blk = 0x3F then storeIgnored die off v s
    else if die ≤ 0x10 then storeSlice die blk off v s
    else if die ≤ 0x12 then storeBridge (die - 0x11) blk off v s
    else storeControl blk off v s

/-! ### Codes that a register refuses (R13, R798, Table 21-10) -/

/-- The events that a bank may count (Table 21-4), by die and block. -/
def eventListed (die blk e : Nat) : Bool :=
  decide (e ≤ 2) ||
    if die ≤ 0x10 then
      (if blk = 2 then decide (0x100 ≤ e ∧ e ≤ 0x108) || decide (0x110 ≤ e ∧ e ≤ 0x115) || decide (0x120 ≤ e ∧ e ≤ 0x125)
          || e == 0x130 || e == 0x131 || decide (0x140 ≤ e ∧ e ≤ 0x143)
       else decide (0x200 ≤ e ∧ e ≤ 0x209))
    else if die ≤ 0x12 then decide (0x300 ≤ e ∧ e ≤ 0x313)
    else decide (0x400 ≤ e ∧ e ≤ 0x407)

/-- The place is a select register. -/
def isSelect (die blk off : Nat) : Bool :=
  if die ≤ 0x10 then
    (blk == 2 && decide (0x80 ≤ off ∧ off < 0x100)) || (decide (0x10 ≤ blk ∧ blk ≤ 0x17) && decide (0x40 ≤ off ∧ off < 0x60))
  else if die ≤ 0x12 then blk == 1 && decide (0x80 ≤ off ∧ off < 0x100)
  else blk == 6 && decide (0x40 ≤ off ∧ off < 0x80)

/-- The value to store and whether something of the write is refused: an event that is not listed leaves the register as it
is, RATE above 20 leaves that field. -/
def refused (die blk off old v : Nat) : Nat × Bool :=
  if isSelect die blk off && !eventListed die blk (bits v 0 12) then (old, true)
  else if die = dieC ∧ blk = 5 ∧ off = 0x10 ∧ 20 < bits v 16 5 then (setBits v 16 5 (bits old 16 5), true)
  else (v, false)

/-- A write to a register without a behaviour of its own. -/
def plainWrite (die blk off lo w v : Nat) (fs : List Field) (s : State) : State :=
  if !reachesAny fs lo w then s
  else
    let (nv, no) := refused die blk off (regVal fs) (writtenVal fs lo w v)
    let s := storeReg die blk off nv s
    if no || reachesRo fs lo w then countIgnored die blk s else s

/-! ### Registers with a behaviour of their own -/

/-- One access counts at most once in the counter of its block (R854). -/
def countOnce (die blk : Nat) (old s : State) : State :=
  if ignoredCount s die blk = ignoredCount old die blk then s else countIgnored die blk { s with cnt := { s.cnt with ignored := old.cnt.ignored } }

/-- The doorbell registers of local queue `q` (Table 23-7): QDB_SQT and QDB_CQH are two registers of 32 bits. -/
def queueWrite (f q off lo w v : Nat) (fs : List Field) (s : State) : State :=
  let Q := vat s.qs q
  let nv := writtenVal fs lo w v
  if off = 0 then
    let s1 := if lo = 0 then tailDoorbell q (bits v 0 32) s else s
    let s2 := if 32 < lo + w then headDoorbell q (bits v (32 - lo) 32) s1 else s1
    countOnce (pageDie f) (pageBlock f) s s2
  else if off = 0x08 ∨ off = 0x10 then
    if !reachesAny fs lo w then s
    else if Q.en then countPage f s
    else if off = 0x08 then onQ q (fun Q => { Q with sqb := BitVec.ofNat 64 nv }) s
    else onQ q (fun Q => { Q with cqb := BitVec.ofNat 64 nv }) s
  else if off = 0x18 then
    if Q.en then
      (if bit nv 48 then countPage f (onQ q (fun Q => { Q with ien := bit nv 49, iall := bit nv 50 }) s)
       else queueDisable q nv s)
    else if bit nv 48 then queueEnable q nv s
    else onQ q (qcfgFields nv) s
  else
    let s := onQ q (fun Q => { Q with err := bit nv 33 }) s
    if reachesRo fs lo w then countPage f s else s

/-- The mailbox registers: nothing is taken while BUSY; GO starts an operation (R824, R825). -/
def mbxWrite (f off lo w v : Nat) (fs : List Field) (s : State) : State :=
  let nv := writtenVal fs lo w v
  if off ≠ 0x4018 ∧ (mbxOf s f).st = .busy then countPage f s
  else if off = 0x4000 ∧ bit nv 63 = true then mbxGo (bits nv 0 16) (bits nv 16 12) f s
  else plainWrite (pageDie f) (pageBlock f) off lo w v fs s

/-- The window registers: CEN, PFEN, PFDEPTH and CARVE; WIN_MOP; WIN_RCTL with GO (Tables 15-6 to 15-8). Each takes its
write when it arrives; WIN_MOP waits behind the function's window accesses (R592). -/
def winWrite (f off lo w v : Nat) (fs : List Field) (s : State) : State :=
  let nv := writtenVal fs lo w v
  if off = 0x5108 then
    if lo ≠ 0 then s
    else carveWrite f (bits nv 16 9)
      (onFunc f (fun F => { F with pfen := bit nv 1, pfdepth := BitVec.ofNat 2 (bits nv 2 2) }) (setCen f (bit nv 0) s))
  else if off = 0x5118 then (if lo = 0 then winMop f (bits v 0 3) (bit v 3) s else s)
  else if off = 0x5130 then (if lo ≠ 0 then s else if bit v 15 then rangeGo f v s else storeRctl f v s)
  else plainWrite (pageDie f) (pageBlock f) off lo w v fs s

/-- A write into a register page in service. -/
def pageWrite (f off lo w v : Nat) (fs : List Field) (s : State) : State :=
  if off < 0x4000 then
    match (localQueues s f)[off / 64]? with
    | some q => queueWrite f q (off % 64) lo w v fs s
    | none => s
  else if off < 0x5000 then mbxWrite f off lo w v fs s
  else if 0x5100 ≤ off ∧ off < 0x5200 then winWrite f off lo w v fs s
  else
    let s := plainWrite (pageDie f) (pageBlock f) off lo w v fs s
    if off = 0x5010 ∧ lo = 0 then kvnHead f (vat s.funcs f).kvn.head s
    else if 0x8000 ≤ off then sendPending f s
    else s

/-- A write of `v` to bits `lo` to `lo + w - 1` of the register at a place: reserved offsets take nothing; a page under
reset takes nothing and counts (R847, R854, R855, R866). -/
def regWriteAt (die blk off lo w v : Nat) (s : State) : State :=
  match regAt s die blk off with
  | none => s
  | some fs =>
    match pageFunc die blk with
    | some f => if funcInReset s f then countPage f s else pageWrite f off lo w v fs s
    | none => plainWrite die blk off lo w v fs s

/-- A write of 4 or 8 bytes at an address of region 0x0 (R850). -/
def regWrite (da n v : Nat) (s : State) : State :=
  regWriteAt (bits da 24 8) (bits da 16 8) (bits da 0 16 / 8 * 8) (8 * (da % 8)) (8 * n) v s

end Sys2Proof.Machine
end

