-- ==== Sys2Proof/Machine/Access.lean ====
section
/-!
DEFINITION. Sys2Proof/Machine/Access.lean: memory requests that arrive at the ports: BARs, windows, landing apertures
(sections 13.4, 13.6, 15.2 and 15.3).
-/
namespace Sys2Proof.Machine

/-! ### One checked access (R69, R70, R512) -/

/-- The function may be addressed over its port: it exists, and its link is up. -/
def hostReaches (s : State) (f : Nat) : Bool :=
  linksTraining s && portUp s (portOf f) && (vat s.funcs f).pci.en && !funcAbsent s f

/-- What a register access before RUN still reaches: writes to the doorbell area and to the mailbox, reads of the mailbox,
CTL_STATE, CTL_PART with its mirrors, and CTL_BOOT_STAT (R512, R533, R828, log 47). -/
def earlyAllows (da : Nat) (write : Bool) : Bool :=
  if da / 2 ^ 52 ≠ 0 then false
  else
    let off := bits da 0 16
    match pageFunc (bits da 24 8) (bits da 16 8) with
    | some _ => (write && decide (off < 0x4000)) || decide (0x4000 ≤ off ∧ off < 0x4D00) || (!write && off / 8 * 8 == 0x5F00)
    | none => !write && [0x13000000, 0x13000008, 0x13000010].contains (da / 8 * 8)

/-- A contained access: a read returns all ones, a write is dropped (R69, R512). -/
def contain (n : Nat) (data : Option (List Byte)) (s : State) : State :=
  if data.isNone then emit (.readData (onesBytes n)) s else s

/-- The access reads WIN_SYNC of a tenant. -/
def syncRead (s : State) (da : Nat) : Option Nat :=
  match pageFunc (bits da 24 8) (bits da 16 8) with
  | some f => if bits da 0 16 / 8 * 8 = 0x5140 ∧ windowOpen s f = true then some f else none
  | none => none

/-- A register access of 4 or 8 bytes. -/
def regAccess (da n : Nat) (data : Option (List Byte)) (s : State) : State :=
  match data with
  | some bs => regWrite da n (leNat bs) s
  | none =>
    match syncRead s da with
    | some f => winSync f n s
    | none => drew (emit (.readData (regBytes s da n)) s)

/-- A part of an access to carved lines that lies in one line (R848, R869). -/
def carvedPart (da n : Nat) (data : Option (List Byte)) (s : State) : State :=
  let b := bits da 24 8 - 0x11
  let k := bits da 16 8 - 0xC0
  carvedAccess { func := 32 * b + k / 2, carved := none, da := 0, off := da % 512, write := data, len := n }
    (k % 2 * 128 + bits da 0 16 / 512) s

/-- An access cut at 512-byte line boundaries: first offset from its start, and length, of each part (R582). -/
def lineParts (addr n : Nat) : List (Nat × Nat) :=
  if n = 0 then []
  else
    let first := addr / 512
    (List.range ((addr + n - 1) / 512 - first + 1)).map fun i =>
      let a := max addr ((first + i) * 512)
      (a - addr, min (addr + n) ((first + i + 1) * 512) - a)

/-- The bytes of a part of a write. -/
def partData (data : Option (List Byte)) (p : Nat × Nat) : Option (List Byte) := data.map fun bs => slice bs p.1 p.2

/-- An access to device memory without the window cache; regions 0x4 and 0x5 charge the range class (R612, R650, R651). -/
def memAccess (da n : Nat) (data : Option (List Byte)) (s : State) : State :=
  let s := if farAddr da then chargeWindow da n s else s
  match data with
  | none => emit (.readData (if poisoned s da n then onesBytes n else daRead s da n)) s
  | some bs => (daWrite s da bs).2

/-- An access that passed its checks reaches a register, a carved line or memory. -/
def reach (da n : Nat) (data : Option (List Byte)) (s : State) : State :=
  if da / 2 ^ 52 ≠ 0 then memAccess da n data s
  else if carvedBlock da then
    (lineParts da n).foldl (fun s p => carvedPart (da + p.1) p.2 (partData data p) s) s
  else regAccess da n data s

/-- A host's access of `n` bytes to a device address: early accesses, none of which is a decode error (R512), the checks of
Table 2-8, and the access itself (R67, R69, R70). -/
def hostAccess (w : Who) (da n : Nat) (data : Option (List Byte)) (s : State) : State :=
  let k := decodeKind s w data.isSome da n
  if earlyState s then (if earlyAllows da data.isSome && k == 0 then reach da n data s else contain n data s)
  else if k ≠ 0 then contain n data (decodeError w k da s) else reach da n data s

/-! ### BARs (R505 to R507) -/

/-- Device address of an offset of the steward's BAR2 (Table 13-7). -/
def bar2Da (o : Nat) : Nat :=
  if o < 2 ^ 30 then regionBase 1 + o
  else if o < 0x20000000000 then regionBase 0xF + o
  else if o < 0x40000000000 then regionBase 2 + (o - 0x20000000000)
  else if o < 0x50000000000 then regionBase 3 + (o - 0x40000000000)
  else if o < 0x60000000000 then regionBase 0xF + o
  else if o < 0x80000000000 then regionBase 4 + (o - 0x60000000000)
  else if o < 0x100000000000 then regionBase 0xF + o
  else if o < 0x200000000000 then regionBase 5 + (o - 0x100000000000)
  else regionBase 0xF + o

/-- Longest memory request, in bytes (Table 13-2). -/
def maxRequest : Nat := 4096

/-- An access at an offset of a function's BAR0: the steward's is region 0x0, another function's its register page. What the
BAR does not cover it does not decode. -/
def bar0Access (f off n : Nat) (data : Option (List Byte)) (s : State) : State :=
  if f = 0 then (if off + n ≤ 2 ^ 29 then hostAccess .steward off n data s else s)
  else if off + n ≤ 65536 then hostAccess (.tenant f) (pageDie f * 2 ^ 24 + pageBlock f * 2 ^ 16 + off) n data s
  else s

/-- An access at an offset of the steward's BAR2 (R507). -/
def bar2Access (off n : Nat) (data : Option (List Byte)) (s : State) : State :=
  if off + n ≤ 2 ^ s.sys.bar2 then hostAccess .steward (bar2Da off) n data s else s

/-- Bytes of a request: those it carries, or those it asks for. -/
def requestLen (len : Nat) (data : Option (List Byte)) : Nat :=
  match data with | some bs => bs.length | none => len

/-- A byte of a peer function's BAR0 (R505): the read-only mirror of CTL_PART where a register page has it, and the identity
of Table 13-4 from offset 0 on (DESIGN CHOICE, log 138); other bytes read zero. -/
def peerByte (s : State) (off : Nat) : Byte :=
  let id := leBytes 4 (0x1E71 + 65536 * 0x0E19) ++ leBytes 4 (s.sys.stepping.toNat + 256 * 0x120000)
  if off < 8 then nth id off 0
  else if 0x5F00 ≤ off ∧ off < 0x5F08 then nth (leBytes 8 (regVal (partFields s))) (off - 0x5F00) 0
  else 0

/-- An access to BAR0 of the peer function of port `p`: writes have no effect; before RUN a read that is not of CTL_PART
returns all ones (R505, R512). -/
def peerBar0 (p off n : Nat) (data : Option (List Byte)) (s : State) : State :=
  if !(linksTraining s && portUp s p) || decide (65536 < off + n) || data.isSome then s
  else if earlyState s && !decide (0x5F00 ≤ off ∧ off + n ≤ 0x5F08) then contain n data s
  else emit (.readData ((List.range n).map fun i => peerByte s (off + i))) s

/-- HOST_BAR_ACCESS: a read of `len` bytes or a write of `data` at offset `off` of BAR2 of the steward, or of BAR0 of
function `f` (R505 to R507); 64 to 67 are the peer functions of ports 4 to 7. A tenant's BAR2 is its window, the row
WINDOW_ACCESS, and a peer function's its landing aperture. -/
def execHostBarAccess (f : Fin 68) (bar2 : Bool) (off len : Nat) (data : Option (List Byte)) (s : State) :
    Host.Outcome State Fault Refusal :=
  let n := requestLen len data
  .next (if n == 0 || decide (maxRequest < n) then s
    else if 64 ≤ f.val then (if bar2 || portMode s (f.val - 60) != .peer then s else peerBar0 (f.val - 60) off n data s)
    else if !hostReaches s f.val then s
    else if !bar2 then bar0Access f.val off n data s
    else if f.val = 0 then bar2Access off n data s
    else s)

/-- REGISTER_WRITE: function `f` writes 4 bytes, or with `wide` 8, of `v` at offset `off` of its BAR0 (R850). -/
def execRegisterWrite (f : Fin 64) (off : BitVec 32) (wide : Bool) (v : BitVec 64) (s : State) :
    Host.Outcome State Fault Refusal :=
  let n := if wide then 8 else 4
  .next (if hostReaches s f.val then bar0Access f.val off.toNat n (some (leBytes n v.toNat)) s else s)

/-! ### The tenant window (R581, R582) -/

/-- Window registers as an access finds them: reset values while the function is reset. -/
def windowRegs (s : State) (f : Nat) : WinRegs := if funcInReset s f then resetFunc.win else (vat s.funcs f).win

/-- One part of a window access, within one line. -/
def windowPart (f o n : Nat) (data : Option (List Byte)) (s : State) : State :=
  let w := windowRegs s f
  if 2 ^ 28 - 512 * w.carved ≤ o then
    arriveAccess { func := f, carved := some ((2 ^ 28 - 1 - o) / 512), da := 0, off := o % 512, write := data, len := n } s
  else
    let da := w.base.toNat + o
    if da / 2 ^ 52 = 0 then hostAccess (.tenant f) da n data s
    else
      let k := decodeKind s (.tenant f) data.isSome da n
      if k ≠ 0 then contain n data (decodeError (.tenant f) k da s)
      else arriveAccess { func := f, carved := none, da := da, off := da % 512, write := data, len := n } s

/-- WINDOW_ACCESS by tenant `f` at window offset `off`: a read of `len` bytes, or a write of `data` (R581, R582, R587). -/
def execWindowAccess (f : Fin 64) (off : BitVec 28) (len : Nat) (data : Option (List Byte)) (s : State) :
    Host.Outcome State Fault Refusal :=
  let n := requestLen len data
  let o := off.toNat
  .next (if !hostReaches s f.val || f.val == 0 || n == 0 || decide (maxRequest < n) || decide (2 ^ 28 < o + n) then s
    else if earlyState s then contain n data s
    else (lineParts o n).foldl (fun s p => windowPart f.val (o + p.1) p.2 (partData data p) s) s)

/-! ### Landing zones (R575 to R580) -/

/-- The bridge of a port index (Table 13-1). -/
def portBridge (p : Nat) : Nat := if p < 4 then p / 2 else (p - 4) / 2

/-- The zone of a port that holds an aperture offset (R575). -/
def zoneAt (s : State) (p o : Nat) : Option Zone :=
  s.image.zones.find? fun z => z.port == p && decide (z.apOff ≤ o ∧ o < z.apOff + z.size)

/-- The requester is listed for the port (R573). -/
def listedPeer (s : State) (p rid : Nat) : Bool := s.image.reqs.contains (p, rid)

/-- A zone takes writes of the requester (Table 15-4). -/
def zoneTakes (s : State) (z : Zone) (p rid : Nat) : Bool :=
  (List.range s.image.reqs.length).any fun i => bit z.reqMask i && nth s.image.reqs i (8, 0) == (p, rid)

/-- The port's link is up, and `n` bytes at an offset lie in its landing aperture (R505). -/
def apertureUp (s : State) (p o n : Nat) : Bool :=
  linksTraining s && portUp s p && (apertureLog s p).any fun k => decide (o + n ≤ 2 ^ k)

/-- Device address that an aperture offset translates to: its zone's, or region 0xF (R575). -/
def apertureDa (s : State) (p o : Nat) : Nat :=
  match zoneAt s p o with
  | some z => z.da + (o - z.apOff)
  | none => regionBase 0xF + o

/-- Why a write is not accepted: no zone at its first byte, a byte outside the zone or a requester that the zone does not
name, or a check of Table 2-8 (R575, R576, R607); 0 for none. -/
def zoneKind (s : State) (p rid o n : Nat) : Nat :=
  match zoneAt s p o with
  | none => 1
  | some z =>
    if z.apOff + z.size < o + n || !zoneTakes s z p rid then 7 else decodeKind s .peer true (apertureDa s p o) n

/-- A peer write arrives: applied at once, in arrival order, or dropped whole (R576, R577). -/
def zoneWrite (p rid o : Nat) (bs : List Byte) (s : State) : State :=
  let k := zoneKind s p rid o bs.length
  let da := apertureDa s p o
  if k = 0 then (daWrite (tally (.bridge (portBridge p)) 0x311 1 .none s) da bs).2
  else decodeError .peer k da (tally (.bridge (portBridge p)) 0x312 1 .none s)

/-- PEER_ZONE_WRITE on port index `p` by requester `rid` at aperture offset `off` (R576). -/
def execPeerZoneWrite (p : Fin 8) (rid : BitVec 16) (off : Nat) (data : List Byte) (s : State) :
    Host.Outcome State Fault Refusal :=
  .next (if !apertureUp s p.val off data.length || data.isEmpty || decide (512 < data.length) || earlyState s then s
    else zoneWrite p.val rid.toNat off data s)

/-- Why an aperture read fails: RESERVED_REGION at an offset in no zone, else PERMISSION (R67, R575, Table 2-7). -/
def readKind (s : State) (p o : Nat) : Nat := if (zoneAt s p o).isNone then 1 else 2

/-- A read of a landing aperture: a flush read of a listed requester, whose earlier writes are all in memory already; any
other read of a listed requester, a peer's error (R65, R70); a read of anybody else, contained as a host read (R69, R578). The
kind is that of an offset in no zone, or PERMISSION (Table 2-8, R575). -/
def apertureRead (p rid o len : Nat) (s : State) : State :=
  let failed := decodeError .peer (readKind s p o) (apertureDa s p o) s
  if listedPeer s p rid then (if len = 0 then emit (.readData (zeros 4)) s else emit .unsupported failed)
  else emit (.readData (onesBytes (max 4 len))) failed

/-- FLUSH_READ on port index `p` by requester `rid`; with `len` other than 0, any other read of the aperture (R578). -/
def execFlushRead (p : Fin 8) (rid : BitVec 16) (off len : Nat) (s : State) : Host.Outcome State Fault Refusal :=
  .next (if !apertureUp s p.val off len || decide (maxRequest < len) then s
    else if earlyState s then emit (.readData (onesBytes (max 4 len))) s
    else apertureRead p.val rid.toNat off len s)

end Sys2Proof.Machine
end

