-- ==== Sys2Proof/Machine/Bundle.lean ====
section
/-!
DEFINITION. Sys2Proof/Machine/Bundle.lean: the operations of a Culm bundle, one row each (chapter 12). A row issues the
whole bundle at the core's PC, when the bundle holds that operation in that slot; empty bundles before it are passed.
-/
namespace Sys2Proof.Machine

/-- The bundle at core `k`'s PC issues, if it holds operation `code` of class `cls` in slot `n`. -/
def issueOp (cls : OpClass) (code n k : Nat) (s : State) : State :=
  settleDrain k (issueAt (fun o => o.slot == n && o.is cls code) k s)

/-! ### CTL operations, slot 0 (Table 12-4) -/

/-- BR on core `k` (R458). -/
def execBr (k : Fin 136) (s : State) : Host.Outcome State Fault Refusal :=
  .next (issueOp .ctl 1 0 k.val s)

/-- BRZ on core `k` (R458). -/
def execBrz (k : Fin 136) (s : State) : Host.Outcome State Fault Refusal :=
  .next (issueOp .ctl 2 0 k.val s)

/-- BRNZ on core `k` (R458). -/
def execBrnz (k : Fin 136) (s : State) : Host.Outcome State Fault Refusal :=
  .next (issueOp .ctl 3 0 k.val s)

/-- CALL on core `k` (R450). -/
def execCall (k : Fin 136) (s : State) : Host.Outcome State Fault Refusal :=
  .next (issueOp .ctl 4 0 k.val s)

/-- RET on core `k` (R450). -/
def execRet (k : Fin 136) (s : State) : Host.Outcome State Fault Refusal :=
  .next (issueOp .ctl 5 0 k.val s)

/-- LOOP on core `k` (R459). -/
def execLoop (k : Fin 136) (s : State) : Host.Outcome State Fault Refusal :=
  .next (issueOp .ctl 6 0 k.val s)

/-- END on core `k` (R484). -/
def execEnd (k : Fin 136) (s : State) : Host.Outcome State Fault Refusal :=
  .next (issueOp .ctl 7 0 k.val s)

/-- FAULT on core `k` (R484). -/
def execFault (k : Fin 136) (s : State) : Host.Outcome State Fault Refusal :=
  .next (issueOp .ctl 8 0 k.val s)

/-- TRAP on core `k` (R480). -/
def execTrap (k : Fin 136) (s : State) : Host.Outcome State Fault Refusal :=
  .next (issueOp .ctl 9 0 k.val s)

/-- RTE on core `k` (R474). -/
def execRte (k : Fin 136) (s : State) : Host.Outcome State Fault Refusal :=
  .next (issueOp .ctl 10 0 k.val s)

/-- MOVTC on core `k` (R463). -/
def execMovtc (k : Fin 136) (s : State) : Host.Outcome State Fault Refusal :=
  .next (issueOp .ctl 11 0 k.val s)

/-- MOVFC on core `k` (R450). -/
def execMovfc (k : Fin 136) (s : State) : Host.Outcome State Fault Refusal :=
  .next (issueOp .ctl 12 0 k.val s)

/-- RDPOS on core `k` (R450). -/
def execRdpos (k : Fin 136) (s : State) : Host.Outcome State Fault Refusal :=
  .next (issueOp .ctl 13 0 k.val s)

/-- RDCYC on core `k` (R450). -/
def execRdcyc (k : Fin 136) (s : State) : Host.Outcome State Fault Refusal :=
  .next (issueOp .ctl 14 0 k.val s)

/-- WAIT on core `k` (R465). -/
def execWait (k : Fin 136) (s : State) : Host.Outcome State Fault Refusal :=
  .next (issueOp .ctl 15 0 k.val s)

/-- SHEAF.POOL on core `k` (R468). -/
def execSheafPool (k : Fin 136) (s : State) : Host.Outcome State Fault Refusal :=
  .next (issueOp .ctl 16 0 k.val s)

/-- FLAIL.APPLY on core `k` (R469). -/
def execFlailApply (k : Fin 136) (s : State) : Host.Outcome State Fault Refusal :=
  .next (issueOp .ctl 17 0 k.val s)

/-- ATTN.BLOCK on core `k` (R470). -/
def execAttnBlock (k : Fin 136) (s : State) : Host.Outcome State Fault Refusal :=
  .next (issueOp .ctl 18 0 k.val s)

/-! ### INT operations, slots 1 and 2 (Table 12-5) -/

/-- ADD in INT slot `slot` of core `k` (R451). -/
def execAdd (k : Fin 136) (slot : Fin 2) (s : State) : Host.Outcome State Fault Refusal :=
  .next (issueOp .int 1 (slot.val + 1) k.val s)

/-- SUB in INT slot `slot` of core `k` (R451). -/
def execSub (k : Fin 136) (slot : Fin 2) (s : State) : Host.Outcome State Fault Refusal :=
  .next (issueOp .int 2 (slot.val + 1) k.val s)

/-- AND in INT slot `slot` of core `k` (R451). -/
def execAnd (k : Fin 136) (slot : Fin 2) (s : State) : Host.Outcome State Fault Refusal :=
  .next (issueOp .int 3 (slot.val + 1) k.val s)

/-- OR in INT slot `slot` of core `k` (R451). -/
def execOr (k : Fin 136) (slot : Fin 2) (s : State) : Host.Outcome State Fault Refusal :=
  .next (issueOp .int 4 (slot.val + 1) k.val s)

/-- XOR in INT slot `slot` of core `k` (R451). -/
def execXor (k : Fin 136) (slot : Fin 2) (s : State) : Host.Outcome State Fault Refusal :=
  .next (issueOp .int 5 (slot.val + 1) k.val s)

/-- SHL in INT slot `slot` of core `k` (R451). -/
def execShl (k : Fin 136) (slot : Fin 2) (s : State) : Host.Outcome State Fault Refusal :=
  .next (issueOp .int 6 (slot.val + 1) k.val s)

/-- SHR in INT slot `slot` of core `k` (R451). -/
def execShr (k : Fin 136) (slot : Fin 2) (s : State) : Host.Outcome State Fault Refusal :=
  .next (issueOp .int 7 (slot.val + 1) k.val s)

/-- SAR in INT slot `slot` of core `k` (R451). -/
def execSar (k : Fin 136) (slot : Fin 2) (s : State) : Host.Outcome State Fault Refusal :=
  .next (issueOp .int 8 (slot.val + 1) k.val s)

/-- MUL in INT slot `slot` of core `k` (R451). -/
def execMul (k : Fin 136) (slot : Fin 2) (s : State) : Host.Outcome State Fault Refusal :=
  .next (issueOp .int 9 (slot.val + 1) k.val s)

/-- CMPEQ in INT slot `slot` of core `k` (R451). -/
def execCmpeq (k : Fin 136) (slot : Fin 2) (s : State) : Host.Outcome State Fault Refusal :=
  .next (issueOp .int 10 (slot.val + 1) k.val s)

/-- CMPLT in INT slot `slot` of core `k` (R451). -/
def execCmplt (k : Fin 136) (slot : Fin 2) (s : State) : Host.Outcome State Fault Refusal :=
  .next (issueOp .int 11 (slot.val + 1) k.val s)

/-- CMPLTU in INT slot `slot` of core `k` (R451). -/
def execCmpltu (k : Fin 136) (slot : Fin 2) (s : State) : Host.Outcome State Fault Refusal :=
  .next (issueOp .int 12 (slot.val + 1) k.val s)

/-- MOVI in INT slot `slot` of core `k` (R451). -/
def execMovi (k : Fin 136) (slot : Fin 2) (s : State) : Host.Outcome State Fault Refusal :=
  .next (issueOp .int 13 (slot.val + 1) k.val s)

/-! ### MEM operations, slots 3 and 4 (Table 12-6) -/

/-- LD1 in MEM slot `slot` of core `k` (R452). -/
def execLd1 (k : Fin 136) (slot : Fin 2) (s : State) : Host.Outcome State Fault Refusal :=
  .next (issueOp .mem 1 (slot.val + 3) k.val s)

/-- LD2 in MEM slot `slot` of core `k` (R452). -/
def execLd2 (k : Fin 136) (slot : Fin 2) (s : State) : Host.Outcome State Fault Refusal :=
  .next (issueOp .mem 2 (slot.val + 3) k.val s)

/-- LD4 in MEM slot `slot` of core `k` (R452). -/
def execLd4 (k : Fin 136) (slot : Fin 2) (s : State) : Host.Outcome State Fault Refusal :=
  .next (issueOp .mem 3 (slot.val + 3) k.val s)

/-- LD8 in MEM slot `slot` of core `k` (R452). -/
def execLd8 (k : Fin 136) (slot : Fin 2) (s : State) : Host.Outcome State Fault Refusal :=
  .next (issueOp .mem 4 (slot.val + 3) k.val s)

/-- LDV in MEM slot `slot` of core `k` (R452). -/
def execLdv (k : Fin 136) (slot : Fin 2) (s : State) : Host.Outcome State Fault Refusal :=
  .next (issueOp .mem 5 (slot.val + 3) k.val s)

/-- ST1 in MEM slot `slot` of core `k` (R452). -/
def execSt1 (k : Fin 136) (slot : Fin 2) (s : State) : Host.Outcome State Fault Refusal :=
  .next (issueOp .mem 6 (slot.val + 3) k.val s)

/-- ST2 in MEM slot `slot` of core `k` (R452). -/
def execSt2 (k : Fin 136) (slot : Fin 2) (s : State) : Host.Outcome State Fault Refusal :=
  .next (issueOp .mem 7 (slot.val + 3) k.val s)

/-- ST4 in MEM slot `slot` of core `k` (R452). -/
def execSt4 (k : Fin 136) (slot : Fin 2) (s : State) : Host.Outcome State Fault Refusal :=
  .next (issueOp .mem 8 (slot.val + 3) k.val s)

/-- ST8 in MEM slot `slot` of core `k` (R452). -/
def execSt8 (k : Fin 136) (slot : Fin 2) (s : State) : Host.Outcome State Fault Refusal :=
  .next (issueOp .mem 9 (slot.val + 3) k.val s)

/-- STV in MEM slot `slot` of core `k` (R452). -/
def execStv (k : Fin 136) (slot : Fin 2) (s : State) : Host.Outcome State Fault Refusal :=
  .next (issueOp .mem 10 (slot.val + 3) k.val s)

/-- XFER.IN in MEM slot `slot` of core `k` (R464). -/
def execXferIn (k : Fin 136) (slot : Fin 2) (s : State) : Host.Outcome State Fault Refusal :=
  .next (issueOp .mem 11 (slot.val + 3) k.val s)

/-- XFER.OUT in MEM slot `slot` of core `k` (R464). -/
def execXferOut (k : Fin 136) (slot : Fin 2) (s : State) : Host.Outcome State Fault Refusal :=
  .next (issueOp .mem 12 (slot.val + 3) k.val s)

/-! ### VEC operations, slots 5 and 6 (Table 12-7) -/

/-- VADD in VEC slot `slot` of core `k` (R453). -/
def execVadd (k : Fin 136) (slot : Fin 2) (s : State) : Host.Outcome State Fault Refusal :=
  .next (issueOp .vec 1 (slot.val + 5) k.val s)

/-- VSUB in VEC slot `slot` of core `k` (R453). -/
def execVsub (k : Fin 136) (slot : Fin 2) (s : State) : Host.Outcome State Fault Refusal :=
  .next (issueOp .vec 2 (slot.val + 5) k.val s)

/-- VMUL in VEC slot `slot` of core `k` (R453). -/
def execVmul (k : Fin 136) (slot : Fin 2) (s : State) : Host.Outcome State Fault Refusal :=
  .next (issueOp .vec 3 (slot.val + 5) k.val s)

/-- VFMA in VEC slot `slot` of core `k` (R453). -/
def execVfma (k : Fin 136) (slot : Fin 2) (s : State) : Host.Outcome State Fault Refusal :=
  .next (issueOp .vec 4 (slot.val + 5) k.val s)

/-- VMAX in VEC slot `slot` of core `k` (R453). -/
def execVmax (k : Fin 136) (slot : Fin 2) (s : State) : Host.Outcome State Fault Refusal :=
  .next (issueOp .vec 5 (slot.val + 5) k.val s)

/-- VMIN in VEC slot `slot` of core `k` (R453). -/
def execVmin (k : Fin 136) (slot : Fin 2) (s : State) : Host.Outcome State Fault Refusal :=
  .next (issueOp .vec 6 (slot.val + 5) k.val s)

/-- VDIV in VEC slot `slot` of core `k` (R453). -/
def execVdiv (k : Fin 136) (slot : Fin 2) (s : State) : Host.Outcome State Fault Refusal :=
  .next (issueOp .vec 7 (slot.val + 5) k.val s)

/-- VSQRT in VEC slot `slot` of core `k` (R453). -/
def execVsqrt (k : Fin 136) (slot : Fin 2) (s : State) : Host.Outcome State Fault Refusal :=
  .next (issueOp .vec 8 (slot.val + 5) k.val s)

/-- VEXP2 in VEC slot `slot` of core `k` (R453). -/
def execVexp2 (k : Fin 136) (slot : Fin 2) (s : State) : Host.Outcome State Fault Refusal :=
  .next (issueOp .vec 9 (slot.val + 5) k.val s)

/-- VCVT in VEC slot `slot` of core `k` (R453). -/
def execVcvt (k : Fin 136) (slot : Fin 2) (s : State) : Host.Outcome State Fault Refusal :=
  .next (issueOp .vec 10 (slot.val + 5) k.val s)

/-- VAND in VEC slot `slot` of core `k` (R453). -/
def execVand (k : Fin 136) (slot : Fin 2) (s : State) : Host.Outcome State Fault Refusal :=
  .next (issueOp .vec 11 (slot.val + 5) k.val s)

/-- VOR in VEC slot `slot` of core `k` (R453). -/
def execVor (k : Fin 136) (slot : Fin 2) (s : State) : Host.Outcome State Fault Refusal :=
  .next (issueOp .vec 12 (slot.val + 5) k.val s)

/-- VXOR in VEC slot `slot` of core `k` (R453). -/
def execVxor (k : Fin 136) (slot : Fin 2) (s : State) : Host.Outcome State Fault Refusal :=
  .next (issueOp .vec 13 (slot.val + 5) k.val s)

/-- VBCAST in VEC slot `slot` of core `k` (R453). -/
def execVbcast (k : Fin 136) (slot : Fin 2) (s : State) : Host.Outcome State Fault Refusal :=
  .next (issueOp .vec 14 (slot.val + 5) k.val s)

/-- VEXT in VEC slot `slot` of core `k` (R453). -/
def execVext (k : Fin 136) (slot : Fin 2) (s : State) : Host.Outcome State Fault Refusal :=
  .next (issueOp .vec 15 (slot.val + 5) k.val s)

/-- VPERM in VEC slot `slot` of core `k` (R453). -/
def execVperm (k : Fin 136) (slot : Fin 2) (s : State) : Host.Outcome State Fault Refusal :=
  .next (issueOp .vec 16 (slot.val + 5) k.val s)

/-- VREDADD in VEC slot `slot` of core `k` (R453). -/
def execVredadd (k : Fin 136) (slot : Fin 2) (s : State) : Host.Outcome State Fault Refusal :=
  .next (issueOp .vec 17 (slot.val + 5) k.val s)

/-- VREDMAX in VEC slot `slot` of core `k` (R453). -/
def execVredmax (k : Fin 136) (slot : Fin 2) (s : State) : Host.Outcome State Fault Refusal :=
  .next (issueOp .vec 18 (slot.val + 5) k.val s)

/-! ### ACC operations, slots 6 and 7 (Table 12-8) -/

/-- ACC.MAC in ACC slot `slot` of core `k` (R454, R455). -/
def execAccMac (k : Fin 136) (slot : Fin 2) (s : State) : Host.Outcome State Fault Refusal :=
  .next (issueOp .acc 128 (slot.val + 6) k.val s)

/-- ACC.ZERO in ACC slot `slot` of core `k` (R454, R455). -/
def execAccZero (k : Fin 136) (slot : Fin 2) (s : State) : Host.Outcome State Fault Refusal :=
  .next (issueOp .acc 129 (slot.val + 6) k.val s)

/-- ACC.RDS in ACC slot `slot` of core `k` (R454, R455). -/
def execAccRds (k : Fin 136) (slot : Fin 2) (s : State) : Host.Outcome State Fault Refusal :=
  .next (issueOp .acc 130 (slot.val + 6) k.val s)

/-- ACC.WRS in ACC slot `slot` of core `k` (R454, R455). -/
def execAccWrs (k : Fin 136) (slot : Fin 2) (s : State) : Host.Outcome State Fault Refusal :=
  .next (issueOp .acc 131 (slot.val + 6) k.val s)

/-- ACC.SAVE in ACC slot `slot` of core `k` (R454, R455). -/
def execAccSave (k : Fin 136) (slot : Fin 2) (s : State) : Host.Outcome State Fault Refusal :=
  .next (issueOp .acc 132 (slot.val + 6) k.val s)

/-- ACC.RESTORE in ACC slot `slot` of core `k` (R454, R455). -/
def execAccRestore (k : Fin 136) (slot : Fin 2) (s : State) : Host.Outcome State Fault Refusal :=
  .next (issueOp .acc 133 (slot.val + 6) k.val s)

/-- ACC.SWAP in ACC slot `slot` of core `k` (R454, R455). -/
def execAccSwap (k : Fin 136) (slot : Fin 2) (s : State) : Host.Outcome State Fault Refusal :=
  .next (issueOp .acc 135 (slot.val + 6) k.val s)

/-- ACC.FLAGS in ACC slot `slot` of core `k` (R454, R455). -/
def execAccFlags (k : Fin 136) (slot : Fin 2) (s : State) : Host.Outcome State Fault Refusal :=
  .next (issueOp .acc 136 (slot.val + 6) k.val s)

/-- ACC.DRAIN in slot 7 of core `k` (R428, R448). -/
def execAccDrain (k : Fin 136) (s : State) : Host.Outcome State Fault Refusal :=
  .next (issueOp .acc 0x86 7 k.val s)

end Sys2Proof.Machine
end

