-- ==== Sys2Proof/Machine/HostReads.lean ====
section
/-!
DEFINITION. Sys2Proof/Machine/HostReads.lean: what the host answers to the device's reads and translations
(R501, R502, R829).
-/
namespace Sys2Proof.Machine

/-! ### Commands -/

/-- The first request that a command waits for is answered. -/
def popWant (u : Nat) (s : State) : State := onCmd u (fun c => { c with wants := c.wants.drop 1 }) s

/-- A command that waits for nothing more of the host works on. -/
def backToWork (u : Nat) (s : State) : State :=
  onCmd u (fun c => if c.phase == .waitHost && c.wants.isEmpty then { c with phase := .working } else c) s

/-- A command goes on with the data of its read, or with none after its last translation, as its opcode has it. -/
def resumeCmd (u : Nat) (c : Cmd) (w : HostRead) (data : Option (List Byte)) (s : State) : State :=
  let op := opcodeOf c.bytes
  if op = 0x10 ∨ op = 0x11 then lookupHost u data s
  else if op = 0x20 ∨ op = 0x21 ∨ isLoad c = true then updateHost u w data s
  else if op = 0x40 ∨ op = 0x41 then copyHost u data s
  else if op = 0x30 ∨ op = 0x31 ∨ op = 0x32 ∨ op = 0x38 then kvHost u data s
  else if op = 0x48 then pumpBufs s
  else s

/-- Commands that waited for one that has ended go on. -/
def letOthers (s : State) : State := pumpAllKv (pumpBufs s)

/-- A read fails or a translation is refused: PERMISSION with kind 0x2; an update whose rows are being read keeps what it has
applied whole (R501, R502, log 48). -/
def readFailed (u : Nat) (c : Cmd) (s : State) : State :=
  if writesRows c && c.checked then settleUpdates (failUpdate u 0x12 2 s)
  else letOthers (endCmd u 0x12 2 s)

/-- Data that came under an old translation are used, once the fresh ones have been granted (R501). -/
def useEarly (u : Nat) : Nat → State → State
  | 0, s => s
  | n + 1, s =>
    match cmdOf s u with
    | none => s
    | some c =>
      match c.early, c.wants with
      | bs :: es, w :: _ =>
        if w.ats then s
        else useEarly u n (letOthers (settleUpdates (resumeCmd u c w (some bs)
          (backToWork u (popWant u (onCmd u (fun c => { c with early := es }) s))))))
      | _, _ => s

/-- Data of the oldest read that is out under an old translation: it is kept, and an Invalidation Completion may go out
(R501). -/
def keepEarly (u : Nat) (c : Cmd) (bs : List Byte) (s : State) : State :=
  match (c.wants.filter fun w => !w.ats)[c.early.length]? with
  | some x => if bs.length = x.len then readDone c.func u (onCmd u (fun c => { c with early := c.early ++ [bs] }) s) else s
  | none => s

/-- The answer to a command's first request. -/
def commandReply (u : Nat) (c : Cmd) (w : HostRead) (r : HostReply) (s : State) : State :=
  match r with
  | .granted =>
    if !w.ats then s
    else
      let s := onCmd u (fun c => { c with held := (w.addr, w.len) :: c.held, fresh := c.fresh - 1 }) (popWant u s)
      if !c.early.isEmpty then useEarly u c.early.length s
      else if c.phase == .waitHost && c.wants.length == 1 then letOthers (settleUpdates (resumeCmd u c w none (backToWork u s))) else s
  | .data bs =>
    let s := busActivity (.cmd u) c.func bs.length s
    if w.ats then (if c.fresh = 0 then s else keepEarly u c bs s)
    else if bs.length ≠ w.len then s
    else letOthers (settleUpdates (resumeCmd u c w (some bs) (backToWork u (readDone c.func u (popWant u s)))))
  | .refused => if w.ats then readFailed u c s else s
  | _ => readFailed u c (if w.ats && c.fresh == 0 then s else readDone c.func u s)

/-- A completion arrives for a command that waits for it no longer: only an Invalidation Completion may have waited for it
(R501). -/
def lateReply (u : Nat) (s : State) : State :=
  match (List.range 64).find? fun f => (vat s.funcs f).invals.any fun l => l.any (·.1 == u) with
  | some f => readDone f u s
  | none => s

/-- What the host answers to command `u`. -/
def answerCommand (u : Nat) (r : HostReply) (s : State) : State :=
  match cmdOf s u with
  | none => lateReply u s
  | some c =>
    match c.wants with
    | [] => lateReply u s
    | w :: _ => commandReply u c w r s

/-! ### Mailboxes (R829) -/

/-- The bytes at MBX_XADDR are there. -/
def mailboxData (f : Nat) (bs : List Byte) (s : State) : State :=
  let M := mbxOf s f
  let s := onMbx f (fun M => { M with want := none, input := bs }) s
  if M.op.toNat = 0x30 then reply f (bare mbOk) (stageBytes (numAt (mbxInput M) 0 4) bs s) else pump s

/-- The read of MBX_XADDR fails: XFER with the kind PERMISSION, and no effect. -/
def mailboxFails (f : Nat) (s : State) : State :=
  let waits (q : QueuedChange) : Bool := match q with | .mailbox g => g == f | _ => false
  let s := onMbx f (fun M => { M with want := none }) s
  let s := { s with mg := { s.mg with changeQueue := s.mg.changeQueue.filter fun q => !waits q } }
  pump (reply f { status := mbXfer, out := leBytes 1 2, bulk := [] } s)

/-- What the host answers to the mailbox of function `f`. -/
def answerMailbox (f : Nat) (r : HostReply) (s : State) : State :=
  match (mbxOf s f).want with
  | none => s
  | some w =>
    match r with
    | .data bs => if bs.length = w.len then mailboxData f bs s else s
    | .granted => s
    | .refused => s
    | _ => mailboxFails f s

/-! ### Operations of a function that has been reset since (R519) -/

/-- The oldest queued change of function `f` whose bytes are still to come and whose function has been reset. -/
def leftChange (s : State) (f : Nat) : Option (Mailbox × HostRead) :=
  s.mg.changeQueue.findSome? fun q => match q with
    | .left g M => if g = f then M.want.map fun w => (M, w) else none
    | _ => none

/-- That change goes on as `q` says: with its bytes, or not at all. -/
def setLeft (f : Nat) (M : Mailbox) (q : List QueuedChange) (s : State) : State :=
  let i := s.mg.changeQueue.findIdx (· == .left f M)
  { s with mg := { s.mg with changeQueue := s.mg.changeQueue.take i ++ q ++ s.mg.changeQueue.drop (i + 1) } }

/-- What the host answers to an operation whose function has been reset since: it runs to its end, and no mailbox reports it
(R519). -/
def answerLeft (f : Nat) (r : HostReply) (s : State) : Option State :=
  match leftChange s f, s.mg.left.find? (·.1 == f) with
  | some (M, w), _ => match r with
    | .data bs =>
      some (if bs.length = w.len then pump (setLeft f M [.left f { M with want := none, input := bs }] s) else s)
    | .granted => some s
    | .refused => some s
    | _ => some (pump (setLeft f M [] s))
  | none, some (g, M) =>
    let s' : State := { s with mg := { s.mg with left := s.mg.left.erase (g, M) } }
    match r with
    | .data bs => some (if (M.want.map (·.len)) = some bs.length then stageBytes (numAt (mbxInput M) 0 4) bs s' else s)
    | .granted => some s
    | .refused => some s
    | _ => some s'
  | none, none => none

/-! ### The rows -/

/-- The function whose port a request's completion arrives on. -/
def readFunc (s : State) (t : ReadOf) : Option Nat :=
  match t with
  | .mailbox f => some f.val
  | .command u => (cmdOf s u).map (·.func)

/-- The answer to a request. -/
def answerRead (t : ReadOf) (r : HostReply) (s : State) : State :=
  match t with
  | .mailbox f => (answerLeft f.val r s).getD (answerMailbox f.val r s)
  | .command u => answerCommand u r s

/-- HOST_READ_COMPLETION: an answer arrives on the port of the request's function (R502). -/
def execHostReadCompletion (t : ReadOf) (r : HostReply) (s : State) : Host.Outcome State Fault Refusal :=
  .next (if r == .timeout || (readFunc s t).any fun f => !portUp s (portOf f) then s
    else answerRead t r ((readFunc s t).elim s fun f => noteReply f r s))

/-- COMPLETION_TIMEOUT: no completion came, and Device Control 2 does not disable the timeout (R502). -/
def execCompletionTimeout (t : ReadOf) (s : State) : Host.Outcome State Fault Refusal :=
  .next (if (readFunc s t).any fun f => timeoutOff f .timeout s then s
    else answerRead t .timeout ((readFunc s t).elim s fun f => noteReply f .timeout s))

end Sys2Proof.Machine
end

