-- ==== Sys2Proof/Machine/Dispatch.lean ====
section
/-!
DEFINITION. Sys2Proof/Machine/Dispatch.lean: one arm per command, each a call of its meaning.
-/
namespace Sys2Proof.Machine

/-- The effect of a command on everything but the queue. -/
def exec (i : Instr) (s : State) : Host.Outcome State Fault Refusal :=
  match i with
  | .powerOn => Sys2Proof.Machine.execPowerOn s
  | .romDone => Sys2Proof.Machine.execRomDone s
  | .imageCheck slot => Sys2Proof.Machine.execImageCheck slot s
  | .trained missing => Sys2Proof.Machine.execTrained missing s
  | .enterRun => Sys2Proof.Machine.execEnterRun s
  | .beatEdge ns => Sys2Proof.Machine.execBeatEdge ns s
  | .holdoverEntry => Sys2Proof.Machine.execHoldoverEntry s
  | .beatBoundary => Sys2Proof.Machine.execBeatBoundary s
  | .qosWindowClose => Sys2Proof.Machine.execQosWindowClose s
  | .dvfsStep temps => Sys2Proof.Machine.execDvfsStep temps s
  | .loadCountClose => Sys2Proof.Machine.execLoadCountClose s
  | .stolonDecision => Sys2Proof.Machine.execStolonDecision s
  | .eviction => Sys2Proof.Machine.execEviction s
  | .moveBatchStart => Sys2Proof.Machine.execMoveBatchStart s
  | .moveBatchAck => Sys2Proof.Machine.execMoveBatchAck s
  | .moveBatchTimeout => Sys2Proof.Machine.execMoveBatchTimeout s
  | .epochClose => Sys2Proof.Machine.execEpochClose s
  | .epochSigned ok => Sys2Proof.Machine.execEpochSigned ok s
  | .counterDump => Sys2Proof.Machine.execCounterDump s
  | .genFlip => Sys2Proof.Machine.execGenFlip s
  | .changeRollback => Sys2Proof.Machine.execChangeRollback s
  | .rollbackForceEnd => Sys2Proof.Machine.execRollbackForceEnd s
  | .compactionStart => Sys2Proof.Machine.execCompactionStart s
  | .journalRegionSwitch => Sys2Proof.Machine.execJournalRegionSwitch s
  | .journalEraseDone => Sys2Proof.Machine.execJournalEraseDone s
  | .journalRecordCommit => Sys2Proof.Machine.execJournalRecordCommit s
  | .journalProgramFail => Sys2Proof.Machine.execJournalProgramFail s
  | .meterSample mv ma good => Sys2Proof.Machine.execMeterSample mv ma good s
  | .meterFault => Sys2Proof.Machine.execMeterFault s
  | .powerGovernor => Sys2Proof.Machine.execPowerGovernor s
  | .powerLimit => Sys2Proof.Machine.execPowerLimit s
  | .inputSag => Sys2Proof.Machine.execInputSag s
  | .sagEnd => Sys2Proof.Machine.execSagEnd s
  | .powerFail cause => Sys2Proof.Machine.execPowerFail cause s
  | .thermalTrip => Sys2Proof.Machine.execThermalTrip s
  | .tripRecovery => Sys2Proof.Machine.execTripRecovery s
  | .powerSeqStart => Sys2Proof.Machine.execPowerSeqStart s
  | .powerSeqEntry good => Sys2Proof.Machine.execPowerSeqEntry good s
  | .waitGoodTimeout => Sys2Proof.Machine.execWaitGoodTimeout s
  | .hostLinkUp l => Sys2Proof.Machine.execHostLinkUp l s
  | .hostLinkDown p => Sys2Proof.Machine.execHostLinkDown p s
  | .linkTrainFail p => Sys2Proof.Machine.execLinkTrainFail p s
  | .orphanTimeout => Sys2Proof.Machine.execOrphanTimeout s
  | .peerLinkDown p => Sys2Proof.Machine.execPeerLinkDown p s
  | .fundamentalReset p => Sys2Proof.Machine.execFundamentalReset p s
  | .flr f => Sys2Proof.Machine.execFlr f s
  | .vfEnableClear p => Sys2Proof.Machine.execVfEnableClear p s
  | .numvfsLowered p n => Sys2Proof.Machine.execNumvfsLowered p n s
  | .d3hotToD0 f => Sys2Proof.Machine.execD3hotToD0 f s
  | .funcResetComplete f => Sys2Proof.Machine.execFuncResetComplete f s
  | .resizableBarWrite k => Sys2Proof.Machine.execResizableBarWrite k s
  | .atsInvalidate f a n => Sys2Proof.Machine.execAtsInvalidate f a n s
  | .hostBarAccess f bar2 off len data => Sys2Proof.Machine.execHostBarAccess f bar2 off len data s
  | .registerWrite f off wide v => Sys2Proof.Machine.execRegisterWrite f off wide v s
  | .windowAccess f off len data => Sys2Proof.Machine.execWindowAccess f off len data s
  | .windowFillDone b => Sys2Proof.Machine.execWindowFillDone b s
  | .winSync f => Sys2Proof.Machine.execWinSync f s
  | .winClean f byEntry => Sys2Proof.Machine.execWinClean f byEntry s
  | .winInval f byEntry => Sys2Proof.Machine.execWinInval f byEntry s
  | .winCleanInval f byEntry => Sys2Proof.Machine.execWinCleanInval f byEntry s
  | .winLock f byEntry => Sys2Proof.Machine.execWinLock f byEntry s
  | .winUnlock f byEntry => Sys2Proof.Machine.execWinUnlock f byEntry s
  | .rangeClean f v => Sys2Proof.Machine.execRangeClean f v s
  | .rangeInval f v => Sys2Proof.Machine.execRangeInval f v s
  | .rangeCleanInval f v => Sys2Proof.Machine.execRangeCleanInval f v s
  | .rangeOpDone b => Sys2Proof.Machine.execRangeOpDone b s
  | .winCarveWrite f c => Sys2Proof.Machine.execWinCarveWrite f c s
  | .winCacheDisable f => Sys2Proof.Machine.execWinCacheDisable f s
  | .peerZoneWrite p rid off data => Sys2Proof.Machine.execPeerZoneWrite p rid off data s
  | .flushRead p rid off len => Sys2Proof.Machine.execFlushRead p rid off len s
  | .queueEnable q v => Sys2Proof.Machine.execQueueEnable q v s
  | .queueDisable q v => Sys2Proof.Machine.execQueueDisable q v s
  | .sqTailDoorbell q v => Sys2Proof.Machine.execSqTailDoorbell q v s
  | .cqHeadDoorbell q v => Sys2Proof.Machine.execCqHeadDoorbell q v s
  | .slotFetch q r => Sys2Proof.Machine.execSlotFetch q r s
  | .nop q => Sys2Proof.Machine.execNop q s
  | .lookupPool q => Sys2Proof.Machine.execLookupPool q s
  | .lookupRaw q => Sys2Proof.Machine.execLookupRaw q s
  | .scatterAdd q => Sys2Proof.Machine.execScatterAdd q s
  | .scatterOpt q => Sys2Proof.Machine.execScatterOpt q s
  | .kvAppend q => Sys2Proof.Machine.execKvAppend q s
  | .kvRelease q => Sys2Proof.Machine.execKvRelease q s
  | .prefixMatch q => Sys2Proof.Machine.execPrefixMatch q s
  | .attnDecode q => Sys2Proof.Machine.execAttnDecode q s
  | .copyH2d q => Sys2Proof.Machine.execCopyH2d q s
  | .copyD2h q => Sys2Proof.Machine.execCopyD2h q s
  | .tableLoad q => Sys2Proof.Machine.execTableLoad q s
  | .bufAlloc q => Sys2Proof.Machine.execBufAlloc q s
  | .bufFree q => Sys2Proof.Machine.execBufFree q s
  | .fence q => Sys2Proof.Machine.execFence q s
  | .runKernel q => Sys2Proof.Machine.execRunKernel q s
  | .counterSnap q => Sys2Proof.Machine.execCounterSnap q s
  | .counterSnapCapture u => Sys2Proof.Machine.execCounterSnapCapture u s
  | .shardZeroDone => Sys2Proof.Machine.execShardZeroDone s
  | .farRowArrival u row => Sys2Proof.Machine.execFarRowArrival u row s
  | .sliceResultArrival u p => Sys2Proof.Machine.execSliceResultArrival u p s
  | .chunkSort k => Sys2Proof.Machine.execChunkSort k s
  | .chunkApply k => Sys2Proof.Machine.execChunkApply k s
  | .rowReductionPacket ix => Sys2Proof.Machine.execRowReductionPacket ix s
  | .huskChainPacket ix => Sys2Proof.Machine.execHuskChainPacket ix s
  | .huskAck ix => Sys2Proof.Machine.execHuskAck ix s
  | .reconstructionPacket ix => Sys2Proof.Machine.execReconstructionPacket ix s
  | .workItemStart k => Sys2Proof.Machine.execWorkItemStart k s
  | .slicePartialFold u entry head k => Sys2Proof.Machine.execSlicePartialFold u entry head k s
  | .attnMergePacket ix => Sys2Proof.Machine.execAttnMergePacket ix s
  | .completionPost u granted => Sys2Proof.Machine.execCompletionPost u granted s
  | .partLoss p cause => Sys2Proof.Machine.execPartLoss p cause s
  | .recoveryCut => Sys2Proof.Machine.execRecoveryCut s
  | .linkRepair x => Sys2Proof.Machine.execLinkRepair x s
  | .linkDegraded x => Sys2Proof.Machine.execLinkDegraded x s
  | .mgmtRingSegmentFail ix => Sys2Proof.Machine.execMgmtRingSegmentFail ix s
  | .laneRepair k ch data => Sys2Proof.Machine.execLaneRepair k ch data s
  | .patrolScrub p r => Sys2Proof.Machine.execPatrolScrub p r s
  | .halt cause => Sys2Proof.Machine.execHalt cause s
  | .exceptionEntry k => Sys2Proof.Machine.execExceptionEntry k s
  | .coreLockExpiry k => Sys2Proof.Machine.execCoreLockExpiry k s
  | .yield k => Sys2Proof.Machine.execYield k s
  | .yieldResume k => Sys2Proof.Machine.execYieldResume k s
  | .abort k => Sys2Proof.Machine.execAbort k s
  | .budget k => Sys2Proof.Machine.execBudget k s
  | .ymaskLimit k => Sys2Proof.Machine.execYmaskLimit k s
  | .coreLaunch k => Sys2Proof.Machine.execCoreLaunch k s
  | .xferComplete k r => Sys2Proof.Machine.execXferComplete k r s
  | .longInstrStep k => Sys2Proof.Machine.execLongInstrStep k s
  | .opBr k => Sys2Proof.Machine.execBr k s
  | .opBrz k => Sys2Proof.Machine.execBrz k s
  | .opBrnz k => Sys2Proof.Machine.execBrnz k s
  | .opCall k => Sys2Proof.Machine.execCall k s
  | .opRet k => Sys2Proof.Machine.execRet k s
  | .opLoop k => Sys2Proof.Machine.execLoop k s
  | .opEnd k => Sys2Proof.Machine.execEnd k s
  | .opFault k => Sys2Proof.Machine.execFault k s
  | .opTrap k => Sys2Proof.Machine.execTrap k s
  | .opRte k => Sys2Proof.Machine.execRte k s
  | .opMovtc k => Sys2Proof.Machine.execMovtc k s
  | .opMovfc k => Sys2Proof.Machine.execMovfc k s
  | .opRdpos k => Sys2Proof.Machine.execRdpos k s
  | .opRdcyc k => Sys2Proof.Machine.execRdcyc k s
  | .opWait k => Sys2Proof.Machine.execWait k s
  | .opSheafPool k => Sys2Proof.Machine.execSheafPool k s
  | .opFlailApply k => Sys2Proof.Machine.execFlailApply k s
  | .opAttnBlock k => Sys2Proof.Machine.execAttnBlock k s
  | .opAdd k slot => Sys2Proof.Machine.execAdd k slot s
  | .opSub k slot => Sys2Proof.Machine.execSub k slot s
  | .opAnd k slot => Sys2Proof.Machine.execAnd k slot s
  | .opOr k slot => Sys2Proof.Machine.execOr k slot s
  | .opXor k slot => Sys2Proof.Machine.execXor k slot s
  | .opShl k slot => Sys2Proof.Machine.execShl k slot s
  | .opShr k slot => Sys2Proof.Machine.execShr k slot s
  | .opSar k slot => Sys2Proof.Machine.execSar k slot s
  | .opMul k slot => Sys2Proof.Machine.execMul k slot s
  | .opCmpeq k slot => Sys2Proof.Machine.execCmpeq k slot s
  | .opCmplt k slot => Sys2Proof.Machine.execCmplt k slot s
  | .opCmpltu k slot => Sys2Proof.Machine.execCmpltu k slot s
  | .opMovi k slot => Sys2Proof.Machine.execMovi k slot s
  | .opLd1 k slot => Sys2Proof.Machine.execLd1 k slot s
  | .opLd2 k slot => Sys2Proof.Machine.execLd2 k slot s
  | .opLd4 k slot => Sys2Proof.Machine.execLd4 k slot s
  | .opLd8 k slot => Sys2Proof.Machine.execLd8 k slot s
  | .opLdv k slot => Sys2Proof.Machine.execLdv k slot s
  | .opSt1 k slot => Sys2Proof.Machine.execSt1 k slot s
  | .opSt2 k slot => Sys2Proof.Machine.execSt2 k slot s
  | .opSt4 k slot => Sys2Proof.Machine.execSt4 k slot s
  | .opSt8 k slot => Sys2Proof.Machine.execSt8 k slot s
  | .opStv k slot => Sys2Proof.Machine.execStv k slot s
  | .opXferIn k slot => Sys2Proof.Machine.execXferIn k slot s
  | .opXferOut k slot => Sys2Proof.Machine.execXferOut k slot s
  | .opVadd k slot => Sys2Proof.Machine.execVadd k slot s
  | .opVsub k slot => Sys2Proof.Machine.execVsub k slot s
  | .opVmul k slot => Sys2Proof.Machine.execVmul k slot s
  | .opVfma k slot => Sys2Proof.Machine.execVfma k slot s
  | .opVmax k slot => Sys2Proof.Machine.execVmax k slot s
  | .opVmin k slot => Sys2Proof.Machine.execVmin k slot s
  | .opVdiv k slot => Sys2Proof.Machine.execVdiv k slot s
  | .opVsqrt k slot => Sys2Proof.Machine.execVsqrt k slot s
  | .opVexp2 k slot => Sys2Proof.Machine.execVexp2 k slot s
  | .opVcvt k slot => Sys2Proof.Machine.execVcvt k slot s
  | .opVand k slot => Sys2Proof.Machine.execVand k slot s
  | .opVor k slot => Sys2Proof.Machine.execVor k slot s
  | .opVxor k slot => Sys2Proof.Machine.execVxor k slot s
  | .opVbcast k slot => Sys2Proof.Machine.execVbcast k slot s
  | .opVext k slot => Sys2Proof.Machine.execVext k slot s
  | .opVperm k slot => Sys2Proof.Machine.execVperm k slot s
  | .opVredadd k slot => Sys2Proof.Machine.execVredadd k slot s
  | .opVredmax k slot => Sys2Proof.Machine.execVredmax k slot s
  | .opAccMac k slot => Sys2Proof.Machine.execAccMac k slot s
  | .opAccZero k slot => Sys2Proof.Machine.execAccZero k slot s
  | .opAccRds k slot => Sys2Proof.Machine.execAccRds k slot s
  | .opAccWrs k slot => Sys2Proof.Machine.execAccWrs k slot s
  | .opAccSave k slot => Sys2Proof.Machine.execAccSave k slot s
  | .opAccRestore k slot => Sys2Proof.Machine.execAccRestore k slot s
  | .opAccDrain k => Sys2Proof.Machine.execAccDrain k s
  | .opAccSwap k slot => Sys2Proof.Machine.execAccSwap k slot s
  | .opAccFlags k slot => Sys2Proof.Machine.execAccFlags k slot s
  | .qdbKvnHead f h => Sys2Proof.Machine.execQdbKvnHead f h s
  | .identify f len => Sys2Proof.Machine.execIdentify f len s
  | .genQuery f len => Sys2Proof.Machine.execGenQuery f len s
  | .tableRegister f len => Sys2Proof.Machine.execTableRegister f len s
  | .kvRegister f len => Sys2Proof.Machine.execKvRegister f len s
  | .tableRelease f len => Sys2Proof.Machine.execTableRelease f len s
  | .tableQuery f len => Sys2Proof.Machine.execTableQuery f len s
  | .shardMove f len => Sys2Proof.Machine.execShardMove f len s
  | .huskSet f len => Sys2Proof.Machine.execHuskSet f len s
  | .classSet f len => Sys2Proof.Machine.execClassSet f len s
  | .ledgerSet f len => Sys2Proof.Machine.execLedgerSet f len s
  | .kernelLoad f len => Sys2Proof.Machine.execKernelLoad f len s
  | .kernelUnload f len => Sys2Proof.Machine.execKernelUnload f len s
  | .coreReset f len => Sys2Proof.Machine.execCoreReset f len s
  | .funcCtl f len => Sys2Proof.Machine.execFuncCtl f len s
  | .imageStage f len => Sys2Proof.Machine.execImageStage f len s
  | .imageActivate f len => Sys2Proof.Machine.execImageActivate f len s
  | .keyRead f len => Sys2Proof.Machine.execKeyRead f len s
  | .certRead f len => Sys2Proof.Machine.execCertRead f len s
  | .anchorSet f len => Sys2Proof.Machine.execAnchorSet f len s
  | .eventRing f len => Sys2Proof.Machine.execEventRing f len s
  | .dumpRing f len => Sys2Proof.Machine.execDumpRing f len s
  | .pipRing f len => Sys2Proof.Machine.execPipRing f len s
  | .noticeRing f len => Sys2Proof.Machine.execNoticeRing f len s
  | .eventFetch f len => Sys2Proof.Machine.execEventFetch f len s
  | .dumpRead f len => Sys2Proof.Machine.execDumpRead f len s
  | .proofRead f len => Sys2Proof.Machine.execProofRead f len s
  | .epochRead f len => Sys2Proof.Machine.execEpochRead f len s
  | .summaryRead f len => Sys2Proof.Machine.execSummaryRead f len s
  | .collectAck f len => Sys2Proof.Machine.execCollectAck f len s
  | .reportRead f len => Sys2Proof.Machine.execReportRead f len s
  | .crashRead f len => Sys2Proof.Machine.execCrashRead f len s
  | .mailboxComplete target => Sys2Proof.Machine.execMailboxComplete target s
  | .setEndpointId e eid => Sys2Proof.Machine.execSetEndpointId e eid s
  | .getSensorReading e id => Sys2Proof.Machine.execGetSensorReading e id s
  | .getStateSensorReadings e id => Sys2Proof.Machine.execGetStateSensorReadings e id s
  | .getPdr e handle => Sys2Proof.Machine.execGetPdr e handle s
  | .requestUpdate e => Sys2Proof.Machine.execRequestUpdate e s
  | .requestFirmwareData e off bytes => Sys2Proof.Machine.execRequestFirmwareData e off bytes s
  | .verifyComplete e => Sys2Proof.Machine.execVerifyComplete e s
  | .activateFirmware e => Sys2Proof.Machine.execActivateFirmware e s
  | .stagingTimeout => Sys2Proof.Machine.execStagingTimeout s
  | .pldmOemRequest e vendor op offset inp => Sys2Proof.Machine.execPldmOemRequest e vendor op offset inp s
  | .regRead e die blk off => Sys2Proof.Machine.execRegRead e die blk off s
  | .unknownOpcode q => Sys2Proof.Machine.execUnknownOpcode q s
  | .badOp f op len => Sys2Proof.Machine.execBadOp f op len s
  | .hostReadCompletion t r => Sys2Proof.Machine.execHostReadCompletion t r s
  | .completionTimeout t => Sys2Proof.Machine.execCompletionTimeout t s
  | .configurationRequest f r => Sys2Proof.Machine.execConfigurationRequest f r s
  | .peerLinkUp l => Sys2Proof.Machine.execPeerLinkUp l s
  | .cxlEventInterrupt e rs => Sys2Proof.Machine.execCxlEventInterrupt e rs s
  | .winCacheEnable f => Sys2Proof.Machine.execWinCacheEnable f s
  | .shardParityDone => Sys2Proof.Machine.execShardParityDone s
  | .journalEraseFail => Sys2Proof.Machine.execJournalEraseFail s
  | .holdUpEnd => Sys2Proof.Machine.execHoldUpEnd s

end Sys2Proof.Machine
end

