-- ==== Sys2Proof/Safety.lean ====
section
/-!
DEFINITION. Sys2Proof/Safety.lean: what a sound state and a sound move of the block are, in the terms the statements use.
-/
namespace Sys2Proof.Machine

/-- The states that a start passes through in order, with DEGRADED after RUN (Table 1-4, section 4.1). -/
def onStartPath : DevState → Bool
  | .boot | .image | .train | .replay | .run | .degraded => true
  | _ => false

/-- What happens inside the device moves it forward along the start path, or into HALT from any state with supplies. -/
def forward (a b : DevState) : Bool :=
  a == b || (b == .halt && a != .cold) || (onStartPath a && onStartPath b && decide (stateCode a ≤ stateCode b))

/-- The moves between device states that chapter 1 allows within one command: forward moves; COLD from every state, by the
supplies (R739, R733); BOOT from COLD (R115); ORPHAN_HOLD from RUN and DEGRADED (R517), and back (R30). -/
def allowed (a b : DevState) : Bool :=
  forward a b || b == .cold || (a == .cold && b == .boot) || ((a == .run || a == .degraded) && b == .orphanHold)
    || (a == .orphanHold && (b == .run || b == .degraded))

/-- A loss shows in the device state: after one the device is never in RUN, DEGRADED is never held without one, and
ORPHAN_HOLD goes back to the state that the losses ask for (R26, R29, R30). -/
def lossShown (y : Sys) : Bool :=
  !(y.lossSeen && y.state == .run) && (y.state != .degraded || y.lossSeen)
    && (y.state != .orphanHold || y.prior == .run || (y.prior == .degraded && y.lossSeen))

/-- A sound state: memory in canonical form, and losses shown in the device state. -/
def Sound (s : State) : Prop := memWf s.mem = true ∧ lossShown s.sys = true

/-- The device serves its hosts: RUN or DEGRADED, and no power failure under way. -/
def Serving (s : State) : Prop := (s.sys.state = .run ∨ s.sys.state = .degraded) ∧ s.sys.powerFailing = false

/-! ### Culm cores -/

/-- The command and the operations of the bundle at core `k`'s PC. -/
def bundleNow (s : State) (k : Nat) : Option (Cmd × List Op) :=
  (kernelOf s k).bind fun p => (bundleAt s k p.2.2).map fun ops => (p.2.1, ops)

/-- Core `k` issues the bundle `ops` for command `c`: nothing keeps it from issuing, the bundle takes no exception (R449,
R471) and does not stall (R450, R465). -/
def Issuing (s : State) (k : Nat) (c : Cmd) (ops : List Op) : Prop :=
  issues s k = true ∧ bundleNow s k = some (c, ops) ∧ bundleTrap s c.func k (vat s.cores k) ops = none
    ∧ stallEvent (vat s.cores k) ops = none ∧ xferRoom (vat s.cores k) ops = true

/-- The bundle neither ends its kernel nor raises FAULT (R484). -/
def goesOn (ops : List Op) : Bool := ops.all fun o => !o.is .ctl 7 && !o.is .ctl 8

/-- The value of a register that results land in. -/
def regValue (K : Core) : RegDst → BitVec 512
  | .g r => (rdG K r).setWidth 512
  | .v r => vat K.v r
  | .lc l => (vat K.lc l).setWidth 512
  | .ls l => (vat K.ls l).setWidth 512
  | .le l => (vat K.le l).setWidth 512
  | .prog => K.prog.setWidth 512
  | .tsp => K.tsp.setWidth 512

/-- Width of a register. -/
def dstWidth : RegDst → Nat
  | .g _ => 64
  | .v _ => 512
  | .lc _ => 64
  | .ls _ => 32
  | .le _ => 32
  | .prog => 32
  | .tsp => 56

/-- The name that the checks of R449 give a register. -/
def dstName : RegDst → RegName
  | .g r => (0, r)
  | .v r => (1, r)
  | .lc l => (2, 8 + l)
  | .ls l => (2, 0x0B + l)
  | .le l => (2, 0x0E + l)
  | .prog => (2, 3)
  | .tsp => (2, 2)

/-- A register that exists and takes values. -/
def dstOk : RegDst → Bool
  | .g r => decide (0 < r ∧ r < 64)
  | .v r => decide (r < 32)
  | .lc l => decide (l < 3)
  | .ls l => decide (l < 3)
  | .le l => decide (l < 3)
  | _ => true

/-- A value cut to the width of a register. -/
def cutTo (dst : RegDst) (val : BitVec 512) : BitVec 512 := (val.setWidth (dstWidth dst)).setWidth 512

/-- The register that a destination's number names: numbers wrap, as in `vat`. -/
def wrapDst : RegDst → RegDst
  | .g r => .g (r % 64)
  | .v r => .v (r % 32)
  | .lc l => .lc (l % 3)
  | .ls l => .ls (l % 3)
  | .le l => .le (l % 3)
  | .prog => .prog
  | .tsp => .tsp

/-- No result that waits on the core for the register lands in it after cycle `due` (R456). -/
def SettledBy (K : Core) (dst : RegDst) (due : Nat) : Prop := ∀ p ∈ K.pend, wrapDst p.dst = dst → p.due ≤ due

/-- A result of cycle `due` on core `k`: the register holds it once its cycle has come, and until then it waits (R456). -/
@[irreducible] def Lands (t : State) (k : Nat) (dst : RegDst) (val : BitVec 512) (due : Nat) : Prop :=
  if due ≤ (vat t.cores k).cycles then regValue (vat t.cores k) dst = cutTo dst val
  else ({ dst := dst, val := val, due := due } : PendReg) ∈ (vat t.cores k).pend

/-- A 64-bit result in general register `d`; g0 takes nothing and reads zero (R444). -/
@[irreducible] def LandsG (t : State) (k d : Nat) (val : BitVec 64) (due : Nat) : Prop :=
  if d = 0 then rdG (vat t.cores k) 0 = 0 else Lands t k (.g d) (val.setWidth 512) due

end Sys2Proof.Machine
end

