-- ==== Sys2Proof/Certificates/Slice0/Obligations.lean ====
section
/-!
DEFINITION. Sys2Proof/Certificates/Slice0/Obligations.lean: the statements about the block.
-/
open Sys2Proof Sys2Proof.Machine

namespace Sys2Proof.Machine

/-! ### Which row is which -/

/-- The core, class, code and slot of the operation that a row of chapter 12 names (Tables 12-2 and 12-4 to 12-8). -/
def coreRow : Instr → Option (Nat × OpClass × Nat × Nat)
  | .opBr k => some (k, .ctl, 1, 0)
  | .opBrz k => some (k, .ctl, 2, 0)
  | .opBrnz k => some (k, .ctl, 3, 0)
  | .opCall k => some (k, .ctl, 4, 0)
  | .opRet k => some (k, .ctl, 5, 0)
  | .opLoop k => some (k, .ctl, 6, 0)
  | .opEnd k => some (k, .ctl, 7, 0)
  | .opFault k => some (k, .ctl, 8, 0)
  | .opTrap k => some (k, .ctl, 9, 0)
  | .opRte k => some (k, .ctl, 10, 0)
  | .opMovtc k => some (k, .ctl, 11, 0)
  | .opMovfc k => some (k, .ctl, 12, 0)
  | .opRdpos k => some (k, .ctl, 13, 0)
  | .opRdcyc k => some (k, .ctl, 14, 0)
  | .opWait k => some (k, .ctl, 15, 0)
  | .opSheafPool k => some (k, .ctl, 16, 0)
  | .opFlailApply k => some (k, .ctl, 17, 0)
  | .opAttnBlock k => some (k, .ctl, 18, 0)
  | .opAdd k slot => some (k, .int, 1, slot + 1)
  | .opSub k slot => some (k, .int, 2, slot + 1)
  | .opAnd k slot => some (k, .int, 3, slot + 1)
  | .opOr k slot => some (k, .int, 4, slot + 1)
  | .opXor k slot => some (k, .int, 5, slot + 1)
  | .opShl k slot => some (k, .int, 6, slot + 1)
  | .opShr k slot => some (k, .int, 7, slot + 1)
  | .opSar k slot => some (k, .int, 8, slot + 1)
  | .opMul k slot => some (k, .int, 9, slot + 1)
  | .opCmpeq k slot => some (k, .int, 10, slot + 1)
  | .opCmplt k slot => some (k, .int, 11, slot + 1)
  | .opCmpltu k slot => some (k, .int, 12, slot + 1)
  | .opMovi k slot => some (k, .int, 13, slot + 1)
  | .opLd1 k slot => some (k, .mem, 1, slot + 3)
  | .opLd2 k slot => some (k, .mem, 2, slot + 3)
  | .opLd4 k slot => some (k, .mem, 3, slot + 3)
  | .opLd8 k slot => some (k, .mem, 4, slot + 3)
  | .opLdv k slot => some (k, .mem, 5, slot + 3)
  | .opSt1 k slot => some (k, .mem, 6, slot + 3)
  | .opSt2 k slot => some (k, .mem, 7, slot + 3)
  | .opSt4 k slot => some (k, .mem, 8, slot + 3)
  | .opSt8 k slot => some (k, .mem, 9, slot + 3)
  | .opStv k slot => some (k, .mem, 10, slot + 3)
  | .opXferIn k slot => some (k, .mem, 11, slot + 3)
  | .opXferOut k slot => some (k, .mem, 12, slot + 3)
  | .opVadd k slot => some (k, .vec, 1, slot + 5)
  | .opVsub k slot => some (k, .vec, 2, slot + 5)
  | .opVmul k slot => some (k, .vec, 3, slot + 5)
  | .opVfma k slot => some (k, .vec, 4, slot + 5)
  | .opVmax k slot => some (k, .vec, 5, slot + 5)
  | .opVmin k slot => some (k, .vec, 6, slot + 5)
  | .opVdiv k slot => some (k, .vec, 7, slot + 5)
  | .opVsqrt k slot => some (k, .vec, 8, slot + 5)
  | .opVexp2 k slot => some (k, .vec, 9, slot + 5)
  | .opVcvt k slot => some (k, .vec, 10, slot + 5)
  | .opVand k slot => some (k, .vec, 11, slot + 5)
  | .opVor k slot => some (k, .vec, 12, slot + 5)
  | .opVxor k slot => some (k, .vec, 13, slot + 5)
  | .opVbcast k slot => some (k, .vec, 14, slot + 5)
  | .opVext k slot => some (k, .vec, 15, slot + 5)
  | .opVperm k slot => some (k, .vec, 16, slot + 5)
  | .opVredadd k slot => some (k, .vec, 17, slot + 5)
  | .opVredmax k slot => some (k, .vec, 18, slot + 5)
  | .opAccMac k slot => some (k, .acc, 128, slot + 6)
  | .opAccZero k slot => some (k, .acc, 129, slot + 6)
  | .opAccRds k slot => some (k, .acc, 130, slot + 6)
  | .opAccWrs k slot => some (k, .acc, 131, slot + 6)
  | .opAccSave k slot => some (k, .acc, 132, slot + 6)
  | .opAccRestore k slot => some (k, .acc, 133, slot + 6)
  | .opAccSwap k slot => some (k, .acc, 135, slot + 6)
  | .opAccFlags k slot => some (k, .acc, 136, slot + 6)
  | .opAccDrain k => some (k, .acc, 0x86, 7)
  | _ => none

/-- The queue pair and the opcode of a row that admits one. -/
def admitRow : Instr → Option (Nat × Nat)
  | .nop q => some (q, 0x00)
  | .lookupPool q => some (q, 0x10)
  | .lookupRaw q => some (q, 0x11)
  | .scatterAdd q => some (q, 0x20)
  | .scatterOpt q => some (q, 0x21)
  | .kvAppend q => some (q, 0x30)
  | .kvRelease q => some (q, 0x31)
  | .prefixMatch q => some (q, 0x32)
  | .attnDecode q => some (q, 0x38)
  | .copyH2d q => some (q, 0x40)
  | .tableLoad q => some (q, 0x40)
  | .copyD2h q => some (q, 0x41)
  | .bufAlloc q => some (q, 0x48)
  | .bufFree q => some (q, 0x49)
  | .fence q => some (q, 0x50)
  | .runKernel q => some (q, 0x60)
  | .counterSnap q => some (q, 0x70)
  | _ => none

/-- Command `u` waits for the host, which has been asked for every one of the reads. -/
def asks (t : State) (u : Nat) (rs : List HostRead) : Prop :=
  (∃ x ∈ t.cmds, x.uid = u ∧ x.phase = .waitHost ∧ ∀ r ∈ rs, r ∈ x.wants) ∧
    ∀ r ∈ rs, .hostRead r (attrOf t r.func false) ∈ t.out

/-- The OP, the function and the LEN of a row that writes GO (Table 22-5). -/
def goRow : Instr → Option (Nat × Nat × Nat)
  | .identify f n => some (0x01, f.val, n.val)
  | .genQuery f n => some (0x02, f.val, n.val)
  | .tableRegister f n => some (0x10, f.val, n.val)
  | .kvRegister f n => some (0x11, f.val, n.val)
  | .tableRelease f n => some (0x12, f.val, n.val)
  | .tableQuery f n => some (0x13, f.val, n.val)
  | .shardMove f n => some (0x14, f.val, n.val)
  | .huskSet f n => some (0x15, f.val, n.val)
  | .classSet f n => some (0x16, f.val, n.val)
  | .ledgerSet f n => some (0x18, f.val, n.val)
  | .kernelLoad f n => some (0x20, f.val, n.val)
  | .kernelUnload f n => some (0x21, f.val, n.val)
  | .coreReset f n => some (0x22, f.val, n.val)
  | .funcCtl f n => some (0x23, f.val, n.val)
  | .imageStage f n => some (0x30, f.val, n.val)
  | .imageActivate f n => some (0x31, f.val, n.val)
  | .keyRead f n => some (0x40, f.val, n.val)
  | .certRead f n => some (0x41, f.val, n.val)
  | .anchorSet f n => some (0x50, f.val, n.val)
  | .eventRing f n => some (0x60, f.val, n.val)
  | .dumpRing f n => some (0x61, f.val, n.val)
  | .pipRing f n => some (0x62, f.val, n.val)
  | .noticeRing f n => some (0x63, f.val, n.val)
  | .eventFetch f n => some (0x64, f.val, n.val)
  | .dumpRead f n => some (0x65, f.val, n.val)
  | .proofRead f n => some (0x70, f.val, n.val)
  | .epochRead f n => some (0x71, f.val, n.val)
  | .summaryRead f n => some (0x72, f.val, n.val)
  | .collectAck f n => some (0x73, f.val, n.val)
  | .reportRead f n => some (0x74, f.val, n.val)
  | .crashRead f n => some (0x75, f.val, n.val)
  | .badOp f op n => if (inlineLen op.toNat).isNone then some (op.toNat, f.val, n.val) else none
  | _ => none

/-- The commands in flight, but for the energy charged to them. -/
def cmdsBut (s : State) : List Cmd := s.cmds.map fun c => { c with energy := 0 }

/-- A write of GO by function `f` starts an operation: its register page takes writes and its mailbox is not BUSY. -/
def goTaken (s : State) (f : Nat) : Prop :=
  linksTraining s = true ∧ (vat s.funcs f).pci.en = true ∧ funcInReset s f = false ∧ (mbxOf s f).st ≠ .busy

/-- What a GO changes in the cycle that takes it (R824). -/
def goStarted (op len f : Nat) (s : State) : State :=
  onMbx f (fun M => { M with op := BitVec.ofNat 16 op, len := BitVec.ofNat 16 len, st := .busy, opseq := M.opseq + 1,
                             result := none, want := none, input := [], bulk := [] }) s

/-- That, and the operation's answer on its way. -/
def goAnswered (op len f : Nat) (r : Reply) (s : State) : State :=
  onMbx f (fun M => { M with result := some (BitVec.ofNat 8 r.status, r.out), bulk := r.bulk }) (goStarted op len f s)

/-- Output fits MBX_XADDR and MBX_XLEN of the mailbox. -/
def bulkFits (M : Mailbox) (b : List Byte) : Prop := b.length ≤ M.xlen.toNat ∧ M.xaddr.toNat % 64 = 0

end Sys2Proof.Machine

/-! ### The statements -/

/-- R25, R85, R115 step 2, R443, R509, R528: what the block holds at reset, at the start of BOOT: the device state, beat 0, no
image, no command, no queue enabled, no link up, MSI-X disabled, every core idle in its reset mode. -/
def Obligations.ResetState : Prop :=
  let s := State.reset
  s.sys.state = .boot ∧ s.sys.cause = 1 ∧ s.sys.entered = 0 ∧ s.tb.beat = 0 ∧ s.tb.tick = 0 ∧ s.tb.trk = .holdover ∧
  s.tb.neverLocked = true ∧ s.imageOk = false ∧ s.pending = [] ∧ s.cmds = [] ∧ s.out = [] ∧ s.poison = [] ∧
  (∀ p < 8, portUp s p = false) ∧ (∀ q < 256, (vat s.qs q).en = false ∧ (vat s.qs q).fetched = []) ∧
  (∀ f < 64, (vat s.funcs f).pci.msixEn = false) ∧
  (∀ k < 136, (vat s.cores k).mode = .idle ∧ (vat s.cores k).modeReg = 8 ∧ (vat s.cores k).bank = false) ∧
  s.led.isOpen = false ∧ s.sys.bar2 = 30 ∧ s.recov.epoch = 0

/-- A step takes the command in front of the queue: it is that command's effect on the state with the rest of the queue. The
model's choice (log 1), in the terms of R82, R85 and R91: with no command waiting a step lets one tick of the tracked beat
pass, and nothing but BEAT_BOUNDARY ends the beat's last tick; in COLD no time passes. -/
def Obligations.StepRunsTheFrontCommand : Prop :=
   (∀ (c : Instr) (rest : List Instr) (s : State), s.pending = c :: rest → step s = exec c { s with pending := rest }) ∧
   (∀ s : State, s.pending = [] →
      (s.sys.state ≠ .cold → s.tb.tick ≠ 0xFFFF → ∃ t, step s = .next t ∧ t.tb.tick = s.tb.tick + 1 ∧ t.tb.beat = s.tb.beat ∧
        t.pending = [] ∧ t.sys = s.sys ∧ t.mem = s.mem ∧ t.out = s.out ∧ t.cores = s.cores ∧ t.qs = s.qs) ∧
      (s.sys.state = .cold ∨ s.tb.tick = 0xFFFF → step s = .next s))

/-- Every command answers a next state in every state, and none puts a command into the queue or takes one from it: the queue is
the model's (log 2); a command whose condition does not hold leaves the state as it is. -/
def Obligations.EveryCommandCompletes : Prop :=
  ∀ (i : Instr) (s : State), ∃ t, exec i s = .next t ∧ t.pending = s.pending ∧ t.sys.stepping = s.sys.stepping ∧
    t.sys.ownerDigest = s.sys.ownerDigest

/-- What has been sent to a host, a peer or the BMC stays sent: no command of the block takes it back. -/
def Obligations.NothingIsUnsent : Prop :=
  ∀ (i : Instr) (s t : State), exec i s = .next t → ∃ l, t.out = l ++ s.out

/-- The state at reset is sound: memory in its canonical form, and no loss hidden (R26, R29, R30). -/
def Obligations.ResetIsSound : Prop :=
 Sound State.reset

/-- R26, R29, R30 and the canonical form of memory: every step of the block keeps a sound state sound. -/
def Obligations.EveryStepKeepsSound : Prop :=
  ∀ s t : State, Sound s → step s = .next t → Sound t

/-- Chapter 1's device states: in every step the device stays in its state or moves as Table 1-4 and R29 to R31, R115, R517, R733
and R739 allow. -/
def Obligations.DeviceStateMovesAsAllowed : Prop :=
  ∀ s t : State, Sound s → step s = .next t → allowed s.sys.state t.sys.state = true

/-- R29: from DEGRADED a step leads only to DEGRADED, ORPHAN_HOLD, HALT and COLD, and from the ORPHAN_HOLD entered from it back to
DEGRADED; whatever else is lost, the device does not come back to RUN. -/
def Obligations.DegradedNeverReturnsToRun : Prop :=
  ∀ s t : State, Sound s → step s = .next t →
    (s.sys.state = .degraded → t.sys.state = .degraded ∨ t.sys.state = .orphanHold ∨ t.sys.state = .halt ∨ t.sys.state = .cold) ∧
    (s.sys.state = .degraded → t.sys.state = .orphanHold → t.sys.prior = .degraded) ∧
    (s.sys.state = .orphanHold → s.sys.prior = .degraded →
      (t.sys.state = .orphanHold ∧ t.sys.prior = .degraded) ∨ t.sys.state = .degraded ∨ t.sys.state = .halt ∨ t.sys.state = .cold) ∧
    (s.sys.state = .degraded → t.sys.state = .cold → ∃ c, s.pending.head? = some c ∧
      (c = .holdUpEnd ∨ c = .thermalTrip ∨ ∃ x, c = .powerFail x))

/-- R31: a device in HALT stays in HALT or goes to COLD, and in COLD it stays until POWER_ON or TRIP_RECOVERY (R115, R733). -/
def Obligations.HaltIsLeftThroughCold : Prop :=
  ∀ s t : State, step s = .next t →
    (s.sys.state = .halt → t.sys.state = .halt ∨ t.sys.state = .cold) ∧
    (s.sys.state = .cold → t.sys.state ≠ .cold → t.sys.state = .boot ∧
      (s.pending.head? = some .powerOn ∨ s.pending.head? = some .tripRecovery))

/-- R25, Table 1-4: STATE[3:0] of CTL_STATE, register 0x00 of block 0x00, reads the code of the device state. -/
def Obligations.CtlStateShowsTheState : Prop :=
  ∀ s : State, ∃ fs, sysFields s 0 = some fs ∧
    regVal fs % 16 = (match s.sys.state with
      | .cold => 0 | .boot => 1 | .image => 2 | .train => 3 | .replay => 4 | .run => 5 | .degraded => 6 | .orphanHold => 7
      | .halt => 8)

/-- R115, R733, R740: with the input in its range POWER_ON brings a device in COLD to BOOT, one boot counted; after a thermal trip
only TRIP_RECOVERY does. Nothing else changes, and elsewhere neither has an effect. -/
def Obligations.PowerBringsTheDeviceToBoot : Prop :=
  ∀ s : State,
    let up : State := { s with sys := { s.sys with
      state := .boot, cause := 0x01, bootCount := s.sys.bootCount + 1, tripped := false } }
    (s.sys.state = .cold → s.sys.tripped = false → exec .powerOn s = .next up) ∧
    (s.sys.state = .cold → s.sys.tripped = true → exec .tripRecovery s = .next up ∧ exec .powerOn s = .next s) ∧
    (s.sys.state ≠ .cold → exec .powerOn s = .next s ∧ exec .tripRecovery s = .next s)

/-- R115, R135, R137, R26, R28, Table 4-1: ROM_DONE takes BOOT to IMAGE; IMAGE_CHECK records the code of the slot that is next and
puts a good image in force; TRAINED takes TRAIN to REPLAY once the journal has been replayed; ENTER_RUN, at a tracked
boundary, takes REPLAY to RUN, or to DEGRADED after a loss, and opens the first epoch. -/
def Obligations.StartupGoesStateByState : Prop :=
  ∀ s : State,
    (s.sys.state = .boot → ∃ t, exec .romDone s = .next t ∧ t.sys.state = .image ∧ t.sys.cause = 0x02 ∧
      t.sys.entered = s.tb.beat ∧ t.mem = s.mem ∧ t.cores = s.cores ∧ t.cfg = s.cfg) ∧
    (∀ slot : Fin 2, s.sys.state = .image → s.imageOk = false → slotNext s = some slot.val →
      ∃ t, exec (.imageCheck slot) s = .next t ∧
        let r := checkSlot s (vat s.flash slot.val)
        t.sys.state = .image ∧ t.imageOk = r.2.isSome ∧
        (if slot = 0 then t.sys.aChecked = true ∧ t.sys.aCode = BitVec.ofNat 8 r.1 ∧ t.sys.bCode = s.sys.bCode
         else t.sys.bChecked = true ∧ t.sys.bCode = BitVec.ofNat 8 r.1 ∧ t.sys.aCode = s.sys.aCode) ∧
        (∀ ic c, r.2 = some (ic, c) → t.image = ic ∧ t.cfg.cur = c ∧ t.sys.bootSrc = BitVec.ofNat 2 (slot.val + 1)) ∧
        (r.2 = none → t.image = s.image ∧ t.cfg = s.cfg ∧ t.jr = s.jr)) ∧
    (s.sys.state = .train → (replayLosses (replayJournal s)).sys.state = .train →
      ∃ t, exec (.trained []) s = .next t ∧ t.sys.state = .replay ∧ t.sys.cause = 0x04 ∧ t.sys.replayDone = true ∧
        t.cfg.cur.tables = (replayLosses (replayJournal s)).cfg.cur.tables ∧
        ∀ k < 17, (vat t.slices k).trained = !(vat (replayLosses (replayJournal s)).slices k).offline) ∧
    (s.sys.state = .replay → s.sys.replayDone = true → s.tb.tick = 0 →
      ∃ t, exec .enterRun s = .next t ∧ t.sys.state = (if s.sys.lossSeen then .degraded else .run) ∧ t.sys.cause = 0x05 ∧
        t.sys.entered = s.tb.beat ∧ t.led.isOpen = true ∧ t.led.epoch = s.led.epoch + 1 ∧ t.led.house = 0 ∧
        t.led.carryIn = s.led.meterPj / 1000 ∧ t.qos.openPos = posOf s ∧ t.mem = s.mem)

/-- R31, R517, R733, R737 to R740: HALT stops a device that has supplies, with its cause, every command held for DEVICE_HOLD;
THERMAL_TRIP, POWER_FAIL before an image is in force, and HOLD_UP_END put it into COLD with nothing but flash, fuses, the
floor of its epochs and the waiting commands kept; POWER_FAIL in service closes the open epoch and starts SHUTDOWN;
ORPHAN_TIMEOUT after 10 s without a host port takes RUN or DEGRADED to ORPHAN_HOLD, which it notes. -/
def Obligations.DeviceStopsAsTheCauseSays : Prop :=
  ∀ s : State,
    let dark (t : State) : Prop := t.sys.state = .cold ∧ t.flash = s.flash ∧ t.mem = [] ∧ t.cmds = [] ∧ t.imageOk = false ∧
      t.pending = s.pending ∧ t.out = s.out ∧ t.sys.bootCount = s.sys.bootCount ∧ t.sys.ownerDigest = s.sys.ownerDigest ∧
      t.led.floor = s.led.floor ∧ t.led.broken = s.led.broken ∧ ∀ p < 8, portUp t p = false
    (∀ x : Fin 3, s.sys.state ≠ .cold → s.sys.state ≠ .halt → s.sys.powerFailing = false →
      ∃ t, exec (.halt x) s = .next t ∧ t.sys.state = .halt ∧ t.sys.haltCause = t.sys.cause ∧ t.sys.entered = s.tb.beat ∧
        t.sys.cause = BitVec.ofNat 8 (if x.val = 0 then haltLockstep else if x.val = 1 then haltControlSram else haltControlDecode) ∧
        ∀ c ∈ t.cmds, c.phase = .ended ∧ c.status = 0x3F) ∧
    (s.sys.state ≠ .cold → ∃ t, exec .thermalTrip s = .next t ∧ dark t ∧ t.sys.tripped = true) ∧
    (∀ x : Fin 4, s.sys.state ≠ .cold → s.sys.powerFailing = false → failCause s x.val = true →
      (s.imageOk = false → ∃ t, exec (.powerFail x) s = .next t ∧ dark t ∧ t.sys.tripped = false) ∧
      (s.imageOk = true → ∃ t, exec (.powerFail x) s = .next t ∧ t.sys.state = s.sys.state ∧ t.sys.powerFailing = true ∧
        t.pmc.failClk = clkOf s ∧ t.led.isOpen = false ∧
        t.cmds.map (fun c => (c.uid, c.phase)) = s.cmds.map (fun c => (c.uid, c.phase)) ∧ t.mem = s.mem)) ∧
    (s.sys.powerFailing = true → pathDone s = true → s.pmc.failClk + 20 * msec ≤ clkOf s →
      ∃ t, exec .holdUpEnd s = .next t ∧ dark t ∧ t.sys.cause = 0x20) ∧
    (∀ c, s.orphanSince = some c → running s = true → c + 10 * second ≤ clkOf s → epochDue s = false →
      ∃ t, exec .orphanTimeout s = .next t ∧ t.sys.state = .orphanHold ∧ t.sys.prior = s.sys.state ∧ t.sys.cause = 0x11 ∧
        t.cmds = s.cmds ∧ t.mem = s.mem)

/-- R83, R87, R88, R93, R114: a qualified edge recognised by BEAT_EDGE. Too close to the one before it, it is counted in STRAY and
ends a run. Otherwise it is used: while LOCKED it is noted when it lies within 1 % of the nearest boundary and counted in
STRAY when it does not; a tracker that never locked goes from HOLDOVER to ACQUIRE; in ACQUIRE it extends the run, locks at the
eighth edge, or begins a new run. R84, R85, R92, R872: HOLDOVER_ENTRY, when a boundary's window ends without an edge while
LOCKED; and BEAT_BOUNDARY, which ends the last tick of a beat in every state with supplies: the beat number rises by one, the
tick returns to 0, the new beat starts where the old one ends, and its length is the tracked period, that of a locked beat
within 1 % of the beat before it, or of the locked period after a slip beat. -/
def Obligations.BeatsAreTracked : Prop :=
   (∀ (s : State) (ns : Nat), edgeDue ns s = true →
      let a := 16 * ns
      let close : Prop := ∃ p, s.tb.prevEdge = some p ∧ a - p < edgeMin
      let period : Prop := ∃ p, s.tb.prevEdge = some p ∧ a - p ≤ edgeMax
      ∃ t, exec (.beatEdge ns) s = .next t ∧ t.tb.prevEdge = some a ∧ t.tb.beat = s.tb.beat ∧ t.tb.tick = s.tb.tick ∧
        t.cmds = s.cmds ∧ t.mem = s.mem ∧
        (close → t.tb.stray = sat16 s.tb.stray ∧ t.tb.run = [] ∧ t.tb.trk = s.tb.trk) ∧
        (¬ close → s.tb.trk = .locked → inWindow s.tb a = true → t.tb.trk = .locked ∧ t.tb.stray = s.tb.stray ∧
          (t.tb.edgeSeen = true ∨ t.tb.edgeEarly = true)) ∧
        (¬ close → s.tb.trk = .locked → inWindow s.tb a = false → t.tb.trk = .locked ∧ t.tb.stray = sat16 s.tb.stray ∧
          t.tb.edgeSeen = s.tb.edgeSeen ∧ t.tb.edgeEarly = s.tb.edgeEarly) ∧
        (¬ close → s.tb.trk = .holdover → s.tb.neverLocked = true → t.tb.trk = .acquire ∧ t.tb.run = [a]) ∧
        (¬ close → s.tb.trk = .acquire → (s.tb.run = [] ∨ ¬ period ∨ runPasses (a :: s.tb.run) = false) →
          t.tb.trk = .acquire ∧ t.tb.run = [a]) ∧
        (¬ close → s.tb.trk = .acquire → s.tb.run ≠ [] → period → runPasses (a :: s.tb.run) = true → s.tb.run.length < 7 →
          t.tb.trk = .acquire ∧ t.tb.run = a :: s.tb.run) ∧
        (¬ close → s.tb.trk = .acquire → period → runPasses (a :: s.tb.run) = true → 7 ≤ s.tb.run.length →
          t.tb.trk = .locked ∧ t.tb.neverLocked = false ∧ t.tb.run = [] ∧ t.tb.edgeSeen = true)) ∧
   (∀ s : State,
      (s.tb.trk = .locked → s.tb.edgeSeen = false →
        (expected s.tb).1 + ((trackedPeriod s.tb / 100 + edgeHold : Nat) : Int) < (clkOf s : Int) →
        ∃ t, exec .holdoverEntry s = .next t ∧
          t.tb.trk = .holdover ∧ t.tb.holdEv = true ∧ t.tb.holdBeats = 1 ∧ t.tb.run = [] ∧ t.tb.beat = s.tb.beat ∧
          t.tb.tick = s.tb.tick ∧ t.tb.target = s.tb.target ∧ t.cmds = s.cmds ∧ t.mem = s.mem ∧ t.sys = s.sys) ∧
      (s.sys.state ≠ .cold → s.tb.tick = 0xFFFF → ∃ t, exec .beatBoundary s = .next t ∧
        t.tb.beat = s.tb.beat + 1 ∧ t.tb.tick = 0 ∧ t.tb.start = s.tb.start + s.tb.length ∧ t.tb.trk = s.tb.trk ∧
        t.tb.period = BitVec.ofNat 32 t.tb.length ∧ t.mem = s.mem ∧ t.sys = s.sys ∧ t.cores = s.cores ∧
        (let p := lengthBefore s.tb
         s.tb.trk = .locked → s.tb.neverLocked = false → s.tb.slip = none →
          p - p / 100 ≤ t.tb.length ∧ t.tb.length ≤ p + p / 100 ∧
          (s.tb.stretch.2 = 0 → s.tb.nextEpochE = none → t.tb.target = t.tb.length)) ∧
        (s.tb.trk ≠ .locked → s.tb.neverLocked = false → s.tb.slip = none → s.tb.stretch.2 = 0 → s.tb.nextEpochE = none →
          t.tb.length = s.tb.target) ∧
        (∀ e, s.tb.neverLocked = false → s.tb.slip = some e → t.tb.length = (s.tb.target + e).toNat ∧ t.tb.slip = none)))

/-- R727 to R730, R742, R645: DVFS_STEP publishes the temperatures of the slices that are not offline, lets F_PWR rise by 32 after
a beat below the limit, and with no die above its offline threshold brings every running die to its operating point: a value
falls at once and rises by at most 64. While a sequence runs the step is held until its END. R734 to R736: POWER_GOVERNOR
after a mean above the limit lowers F_PWR by 64, not below 512, and no operating point rises; POWER_LIMIT raises its event at
the hundredth such mean, once; INPUT_SAG raises its event and makes sequence 4 due; SAG_END frees the clocks that the sag
capped. -/
def Obligations.PowerIsGoverned : Prop :=
   (∀ (s : State) (temps : List Nat), dvfsDue s = true → windowsClosed s = true → flipDue s = false → switchDue s = false →
      (s.pmc.run = none → (∀ d < 20, nth temps d 0 ≤ offlineAbove d) →
        ∃ t, exec (.dvfsStep temps) s = .next t ∧ t.pmc.lastStep = posOf s ∧
          t.pmc.fPwr = (if s.pmc.lowPower then min 1024 (s.pmc.fPwr + 32) else s.pmc.fPwr) ∧
          (∀ d < 20, vat t.pmc.temps d = nth temps d 0 ∧
            vat t.pmc.clock d = (if dieRuns s d then toward (vat s.pmc.clock d) (targets t d).1 else vat s.pmc.clock d) ∧
            vat t.pmc.clock d ≤ vat s.pmc.clock d + 64 ∧ vat t.pmc.issue d ≤ vat s.pmc.issue d + 64) ∧
          (∀ k < 17, (vat s.slices k).offline = false → (vat t.slices k).temp = BitVec.ofNat 12 (min 4095 (nth temps k 0))) ∧
          t.sys = s.sys ∧ t.mem = s.mem ∧ t.cmds = s.cmds ∧ t.cores = s.cores) ∧
      (∀ d, s.pmc.run = some d → ∃ t, exec (.dvfsStep temps) s = .next t ∧ t.pmc.held = some temps ∧
        t.pmc.clock = s.pmc.clock ∧ t.pmc.issue = s.pmc.issue ∧ t.sys = s.sys ∧ t.mem = s.mem ∧ t.cmds = s.cmds)) ∧
   (∀ s : State,
      (s.sys.state ≠ .cold → s.pmc.meanDue = true → powerLimit < s.led.powerMw.toNat →
        ∃ t, exec .powerGovernor s = .next t ∧ t.pmc.fPwr = max 512 (s.pmc.fPwr - 64) ∧ t.pmc.meanDue = false ∧
          (∀ d < 20, vat t.pmc.clock d ≤ vat s.pmc.clock d ∧ vat t.pmc.issue d ≤ vat s.pmc.issue d) ∧
          t.pmc.temps = s.pmc.temps ∧ t.sys = s.sys ∧ t.mem = s.mem ∧ t.cmds = s.cmds ∧ t.slices = s.slices) ∧
      (s.sys.state ≠ .cold → s.pmc.limitMs = 100 → exec .powerLimit s = .next (raiseEvent evPowerLimit (source dieC 0) s.pmc.fPwr
        { s with pmc := { s.pmc with limitMs := 101 } })) ∧
      (s.sys.state ≠ .cold → s.pmc.sag = false → ∃ t, exec .inputSag s = .next t ∧ t.pmc.sag = true ∧ t.pmc.sagEv = true ∧
        t.pmc.sagClk = clkOf s ∧ t.pmc.clock = s.pmc.clock ∧ t.sys = s.sys ∧ t.mem = s.mem ∧ t.cmds = s.cmds ∧
        t.pmc.due = (if s.image.seqs.any (·.1 == 4) then s.pmc.due ++ [{ id := 4, part := 0 }] else s.pmc.due)) ∧
      (s.pmc.sag = true → exec .sagEnd s = .next { s with pmc := { s.pmc with
        sag := false, cap := Vector.replicate 20 1024 } }))

/-- R722 to R725: POWER_SEQ_START takes the first due sequence when none runs; POWER_SEQ_ENTRY executes the entry in turn once the
entry before it has ended: power on and off, a wait, a delay, a clamp, and END, after which no sequence runs;
WAIT_GOOD_TIMEOUT ends a wait whose time has passed, and outside BRINGUP sets SEQ_FAIL_EV. -/
def Obligations.PowerSequencesRun : Prop :=
  ∀ s : State, s.sys.state ≠ .cold →
    (∀ d rest, s.pmc.run = none → s.pmc.due = d :: rest → ∃ t, exec .powerSeqStart s = .next t ∧ t.pmc.run = some d ∧
      t.pmc.due = rest ∧ t.pmc.seqId = BitVec.ofNat 4 d.id ∧ t.pmc.step = 0 ∧ t.pmc.waitGood = none ∧
      t.pmc.domains = s.pmc.domains ∧ t.sys = s.sys ∧ t.mem = s.mem ∧ t.cmds = s.cmds) ∧
    (∀ d e good, s.pmc.run = some d → entryOver s good = true → (s.pmc.held = none ∨ tickSettled s = true) →
      (seqEntries s d.id)[s.pmc.step]? = some e → skipped s d e = false → e.op ≠ 0 →
      ∃ t, exec (.powerSeqEntry good) s = .next t ∧ t.pmc.run = some d ∧ t.pmc.step = s.pmc.step + 1 ∧
        t.pmc.entry = BitVec.ofNat 12 s.pmc.step ∧ t.sys = s.sys ∧ t.cmds = s.cmds ∧
        (e.op = 1 → seqDomain d e < 332 → (vat t.pmc.domains (seqDomain d e)).on = true ∧ t.mem = s.mem) ∧
        (e.op = 2 → seqDomain d e < 332 → (vat t.pmc.domains (seqDomain d e)).on = false) ∧
        (e.op = 3 → t.pmc.waitGood = some (seqDomain d e) ∧ t.pmc.entryEnd = clkOf s + e.arg * usec ∧ t.mem = s.mem) ∧
        (e.op = 4 → t.pmc.waitGood = none ∧ t.pmc.entryEnd = clkOf s + e.arg * usec ∧ t.mem = s.mem) ∧
        (e.op = 5 → dieOfDomain (seqDomain d e) < 20 → vat t.pmc.clock (dieOfDomain (seqDomain d e)) = e.arg ∧ t.mem = s.mem) ∧
        (e.op = 6 → seqDomain d e < 332 → (vat t.pmc.domains (seqDomain d e)).clamped = true ∧ t.mem = s.mem) ∧
        (e.op = 7 → seqDomain d e < 332 → (vat t.pmc.domains (seqDomain d e)).clamped = false ∧ t.mem = s.mem)) ∧
    (∀ d e good, s.pmc.run = some d → entryOver s good = true → (seqEntries s d.id)[s.pmc.step]? = some e →
      skipped s d e = false → e.op = 0 → d.id ≠ 0 → s.pmc.held = none →
      ∃ t, exec (.powerSeqEntry good) s = .next t ∧ t.pmc.run = none ∧ t.pmc.domains = s.pmc.domains ∧ t.sys = s.sys ∧
        t.mem = s.mem ∧ t.cmds = s.cmds) ∧
    (∀ d dom, s.pmc.run = some d → s.pmc.waitGood = some dom → s.pmc.entryEnd ≤ clkOf s → d.id ≠ 0 →
      ∃ t, exec .waitGoodTimeout s = .next t ∧ t.pmc.waitGood = none ∧ t.pmc.seqFailEv = true ∧ t.pmc.run = some d ∧
        t.pmc.domains = s.pmc.domains ∧ t.sys = s.sys ∧ t.mem = s.mem ∧ t.cmds = s.cmds)

/-- R30, R498, R515 to R518: HOST_LINK_UP at a rate and width that Table 13-2 allows brings a host port up, ends the count of R517,
and from ORPHAN_HOLD returns to the state before it, or to DEGRADED after a loss; at any other it is the failure of
LINK_TRAIN_FAIL, which raises its event and counts the port as down; HOST_LINK_DOWN takes a host port down and resets its
functions; a peer port comes up and goes down. -/
def Obligations.LinksComeAndGo : Prop :=
  ∀ s : State,
    (∀ l : LinkTrained 4, portMode s l.port = .host → mayTrain s l.port = true → portUp s l.port = false →
      linkAllowed .host l = true → (s.sys.state = .orphanHold → epochDue s = false) →
      ∃ t, exec (.hostLinkUp l) s = .next t ∧ vat t.ports l.port = linkedPort l (vat s.ports l.port) ∧
        (∀ q < 8, q ≠ l.port.val → vat t.ports q = vat s.ports q) ∧ t.orphanSince = none ∧ t.mem = s.mem ∧ t.cmds = s.cmds ∧
        (∀ f < 64, vat t.funcs f = { vat s.funcs f with pba := (vat t.funcs f).pba }) ∧ t.qs = s.qs ∧
        t.sys.state = (if s.sys.state = .orphanHold then (if s.sys.lossSeen then .degraded else s.sys.prior) else s.sys.state)) ∧
    (∀ l : LinkTrained 4, portMode s l.port = .host → mayTrain s l.port = true → portUp s l.port = false →
      linkAllowed .host l = false → exec (.hostLinkUp l) s = .next
        (raiseEvent evLinkTrainFail (source (dieB (l.port.val / 2)) 0) l.port s)) ∧
    (∀ p : Fin 4, portMode s p = .host → portUp s p = true → exec (.hostLinkDown p) s = .next (watchOrphan
      (resetFuncs (portFuncs s p) 1 { s with ports := vupd s.ports p fun _ => resetPort }))) ∧
    (∀ p : Fin 4, portMode s p = .host → portUp s p = true → ∃ t, exec (.hostLinkDown p) s = .next t ∧ portUp t p = false ∧
      ∀ f ∈ portFuncs s p, (vat t.funcs f).resetting = true) ∧
    (∀ l : LinkTrained 8, portMode s l.port = .peer → mayTrain s l.port = true → linkAllowed .peer l = true →
      exec (.peerLinkUp l) s = .next { s with ports := vupd s.ports l.port (linkedPort l) }) ∧
    (∀ p : Fin 8, portMode s p = .peer → portUp s p = true → ∃ t, exec (.peerLinkDown p) s = .next t ∧ portUp t p = false ∧
      (∀ q < 8, q ≠ p.val → portUp t q = portUp s q) ∧ t.sys = s.sys ∧ t.mem = s.mem ∧ t.cmds = s.cmds ∧ t.qs = s.qs) ∧
    (∀ p : Fin 8, linksTraining s = true → portMode s p = .peer → ∃ t, exec (.linkTrainFail p) s = .next t ∧
      portUp t p = false ∧ t.sys = s.sys ∧ t.mem = s.mem ∧ t.cmds = s.cmds ∧ t.qs = s.qs) ∧
    (∀ p : Fin 8, linksTraining s = true → portMode s p = .host → portUp s p = false → exec (.linkTrainFail p) s = .next
      (raiseEvent evLinkTrainFail (source (dieB (p.val / 2)) 0) p s))

/-- R513, R522: which functions each trigger resets, with the trigger that the FUNC_RESET event names: FUNDAMENTAL_RESET those of
the port, FLR a PF with its VFs or one VF, VF_ENABLE_CLEAR every VF, NUMVFS_LOWERED the VFs above the new number, D3HOT_TO_D0
its function and, since VF Enable goes to 0 with a PF, the VFs of a PF; FLR and D3HOT_TO_D0 of a peer function reset its
registers. R514 step 7: FUNC_RESET_COMPLETE, when no command of the function remains: its registers are those of reset, but
for what the image and the steward fix and its counters, and its queue pairs keep their assignment alone. -/
def Obligations.FunctionsAreReset : Prop :=
   (∀ s : State,
      (∀ p : Fin 8, portMode s p = .host → linksTraining s = true →
        exec (.fundamentalReset p) s = .next (resetFuncs (portFuncs s p) 0 s)) ∧
      (∀ f : Fin 68, f.val < 64 → linksTraining s = true → funcAbsent s f = false → (vat s.funcs f).pci.en = true →
        exec (.flr f) s = .next (if f.val % 16 = 0 then resetFuncs (f :: (portFuncs s (f.val / 16)).drop 1) 2 s
          else resetFuncs [f] 4 s)) ∧
      (∀ p : Fin 4, linksTraining s = true → (vat s.funcs (16 * p)).pci.vfEnable = true →
        exec (.vfEnableClear p) s = .next (resetFuncs ((portFuncs s p).filter (· != 16 * p.val)) 3
          (onFunc (16 * p) (fun F => { F with pci := { F.pci with vfEnable := false } }) s))) ∧
      (∀ (p : Fin 4) (n : Fin 16), linksTraining s = true → n.val < (vat s.funcs (16 * p)).pci.numVfs →
        exec (.numvfsLowered p n) s = .next (resetFuncs ((portFuncs s p).filter fun g => decide (16 * p.val + n.val < g)) 5
          (onFunc (16 * p) (fun F => { F with pci := { F.pci with numVfs := n } }) s))) ∧
      (∀ f : Fin 68, f.val < 64 → (vat s.funcs f).pci.d3hot = true →
        let vfs := (portFuncs s (f.val / 16)).filter (· != f.val)
        exec (.d3hotToD0 f) s = .next (if f.val % 16 = 0 ∧ vfs ≠ [] then resetFuncs vfs 3 (resetFuncs [f.val] 6 s)
          else resetFuncs [f.val] 6 s)) ∧
      (∀ f : Fin 68, 64 ≤ f.val → portMode s (f.val - 60) = .peer →
        (linksTraining s = true → exec (.flr f) s = .next (peerReset false (f.val - 60) s)) ∧
        ((vat s.ports (f.val - 60)).peer.d3hot = true → exec (.d3hotToD0 f) s = .next (peerReset false (f.val - 60) s))) ∧
      (∀ (f : Fin 64) trigger, (∀ c ∈ s.cmds, c.func ≠ f.val) → (vat s.brg (f.val / 32)).waiting = [] →
        let t := funcStops trigger s f
        (vat t.funcs f).resetting = true ∧ (vat t.funcs f).mbx = resetMbx ∧ (vat t.funcs f).win = resetWin ∧
        (vat t.funcs f).pci = pciAfter (decide (trigger ≤ 1)) (vat s.funcs f).pci ∧ (vat t.funcs f).held = [] ∧
        (∀ q < 256, (vat s.qs q).func = some f.val → (vat t.qs q).en = false ∧ (vat t.qs q).fetched = []) ∧
        (∀ q < 256, (vat s.qs q).func ≠ some f.val → vat t.qs q = vat s.qs q) ∧ t.cmds = s.cmds ∧ t.mem = s.mem)) ∧
   (∀ (s : State) (f : Fin 64), (vat s.funcs f).resetting = true → (∀ c ∈ s.cmds, c.func ≠ f.val) →
      ∃ t, exec (.funcResetComplete f) s = .next t ∧ (vat t.funcs f).resetting = false ∧ (vat t.funcs f).mbx = resetMbx ∧
        (vat t.funcs f).win = resetWin ∧ (vat t.funcs f).msix = [] ∧ (vat t.funcs f).pci = (vat s.funcs f).pci ∧
        (∀ q < 256, (vat s.qs q).func = some f.val → vat t.qs q = { resetQueue with
          func := some f.val, reserve := (vat s.qs q).reserve, maxf := (vat s.qs q).maxf }) ∧
        (∀ q < 256, (vat s.qs q).func ≠ some f.val → vat t.qs q = vat s.qs q) ∧ t.sys = s.sys ∧ t.cmds = s.cmds ∧
        ∀ b ∈ t.pool.bufs, b.func = f.val → b.freed.isSome = true)

/-- R500, R501, R508, R512: a RESIZABLE_BAR_WRITE of a size of Table 13-5 sets the size of the steward's BAR2 while Memory Space
Enable is clear and is counted as ignored while it is set; a CONFIGURATION_REQUEST sets the bit it names; ATS_INVALIDATE drops
every translation held that the range covers, and completes at once when no read is out under one. -/
def Obligations.ConfigurationIsTaken : Prop :=
  ∀ s : State, linksTraining s = true →
    (∀ k : Fin 64, portUp s 0 = true → (vat s.funcs 0).pci.mse = false → 30 ≤ k.val → k.val ≤ 45 →
      exec (.resizableBarWrite k) s = .next { s with sys := { s.sys with bar2 := k } }) ∧
    (∀ k : Fin 64, portUp s 0 = true → (vat s.funcs 0).pci.mse = true →
      exec (.resizableBarWrite k) s = .next (countIgnored (pageDie 0) (pageBlock 0) s)) ∧
    (∀ (f : Fin 68) (on : Bool), f.val < 64 → portUp s (f.val / 16) = true → (vat s.funcs f).pci.en = true →
      funcAbsent s f = false → (∃ t, exec (.configurationRequest f (.memorySpace on)) s = .next t ∧ (vat t.funcs f).pci.mse = on ∧ t.sys = s.sys ∧
        t.mem = s.mem ∧ t.qs = s.qs ∧ t.cmds = s.cmds) ∧
      (∃ t, exec (.configurationRequest f (.atsEnable on)) s = .next t ∧ (vat t.funcs f).pci.atsEn = on ∧ t.sys = s.sys ∧
        t.mem = s.mem) ∧
      (∃ t, exec (.configurationRequest f (.msixEnable on)) s = .next t ∧ (vat t.funcs f).pci.msixEn = on ∧ t.sys = s.sys ∧
        t.mem = s.mem) ∧
      (∃ t, exec (.configurationRequest f .toD3hot) s = .next t ∧ (vat t.funcs f).pci.d3hot = true ∧ t.sys = s.sys ∧
        t.mem = s.mem)) ∧
    (∀ (f : Fin 64) (a n : Nat), (vat s.funcs f).pci.atsEn = true →
      ∃ t, exec (.atsInvalidate f a n) s = .next t ∧ t.mem = s.mem ∧ t.sys = s.sys ∧ t.qs = s.qs ∧
        (∀ c ∈ t.cmds, c.func = f.val → ∀ h ∈ c.held, rangesMeet h.1 h.2 a n = false) ∧
        t.cmds.map (fun c => (c.uid, c.phase, c.data)) = s.cmds.map (fun c => (c.uid, c.phase, c.data)) ∧
        ((∀ c ∈ s.cmds, c.func = f.val → c.held = []) → .invalidation f.val ∈ t.out ∧ t.cmds = s.cmds))

/-- R69, R505 to R507, R512, R651, R850: what a memory request of a host does once the device is in service: an access of the
steward's BAR2 that passes the checks of Table 2-8 reads or writes device memory, one that fails a check reads as ones or is
dropped and is captured, and REGISTER_WRITE is an access of BAR0, which keeps what it writes to the mailbox's XADDR. R575 to
R580, R607: a peer's write that its zone takes is in memory at once; any other is dropped whole and captured for the steward;
a FLUSH_READ of a listed requester reads four bytes of zeros; any other read of it is unsupported, a read of a requester that is
not listed returns ones, and both are captured, as RESERVED_REGION at an offset in no zone and as PERMISSION in one. -/
def Obligations.HostsAndPeersAccessTheDevice : Prop :=
   (∀ s : State,
      (∀ off n, hostReaches s 0 = true → earlyState s = false → 1 ≤ n → n ≤ 4096 → off + n ≤ 2 ^ s.sys.bar2 →
        bar2Da off / 2 ^ 52 ≠ 0 →
        (decodeKind s .steward false (bar2Da off) n = 0 → ∃ t, exec (.hostBarAccess 0 true off n none) s = .next t ∧
          t.out = .readData (if poisoned s (bar2Da off) n then onesBytes n else daRead s (bar2Da off) n) :: s.out ∧
          t.mem = s.mem ∧ t.sys = s.sys ∧ t.funcs = s.funcs) ∧
        (decodeKind s .steward false (bar2Da off) n ≠ 0 → ∃ t, exec (.hostBarAccess 0 true off n none) s = .next t ∧
          .readData (onesBytes n) ∈ t.out ∧ t.mem = s.mem ∧ t.sys = s.sys ∧ (vat t.funcs 0).derr =
            derrAfter (vat s.funcs 0).derr (decodeKind s .steward false (bar2Da off) n) (agentCode .steward) s.tb.tick.toNat
              (bar2Da off))) ∧
      (∀ off (bs : List Byte), hostReaches s 0 = true → earlyState s = false → 1 ≤ bs.length → bs.length ≤ 4096 →
        off + bs.length ≤ 2 ^ s.sys.bar2 → bar2Da off / 2 ^ 52 ≠ 0 → decodeKind s .steward true (bar2Da off) bs.length = 0 →
        ∃ t, exec (.hostBarAccess 0 true off 0 (some bs)) s = .next t ∧ t.mem = (daWrite s (bar2Da off) bs).2.mem ∧
          t.poison = (daWrite s (bar2Da off) bs).2.poison ∧ t.out = s.out ∧ t.sys = s.sys ∧ t.funcs = s.funcs) ∧
      (∀ (f : Fin 64) (off : BitVec 32) wide v, exec (.registerWrite f off wide v) s =
        exec (.hostBarAccess (f.castLE (by decide)) false off.toNat 0
          (some (leBytes (if wide then 8 else 4) v.toNat))) s) ∧
      (∀ (f : Fin 64) (v : BitVec 64), hostReaches s f = true → f.val ≠ 0 → funcInReset s f = false → (mbxOf s f).st ≠ .busy →
        decodeKind s (.tenant f) true (pageDie f * 2 ^ 24 + pageBlock f * 2 ^ 16 + 0x4008) 8 = 0 →
        exec (.registerWrite f 0x4008 true v) s = .next (onFunc f (fun F => { F with mbx := { F.mbx with xaddr := v } }) s))) ∧
   (∀ (s : State) (p : Fin 8) (rid : BitVec 16) (off : Nat), earlyState s = false →
      (∀ bs : List Byte, 1 ≤ bs.length → bs.length ≤ 512 → apertureUp s p off bs.length = true →
        (zoneKind s p rid.toNat off bs.length = 0 → ∃ t, exec (.peerZoneWrite p rid off bs) s = .next t ∧
          t.mem = (daWrite s (apertureDa s p off) bs).2.mem ∧ t.poison = (daWrite s (apertureDa s p off) bs).2.poison ∧
          t.out = s.out ∧ t.funcs = s.funcs ∧ t.sys = s.sys) ∧
        (zoneKind s p rid.toNat off bs.length ≠ 0 → ∃ t, exec (.peerZoneWrite p rid off bs) s = .next t ∧ t.mem = s.mem ∧
          t.poison = s.poison ∧ t.sys = s.sys ∧ (vat t.funcs 0).derr = derrAfter (vat s.funcs 0).derr
            (zoneKind s p rid.toNat off bs.length) (agentCode .peer) s.tb.tick.toNat (apertureDa s p off))) ∧
      (listedPeer s p rid.toNat = true → apertureUp s p off 0 = true →
        exec (.flushRead p rid off 0) s = .next (emit (.readData (zeros 4)) s)) ∧
      (∀ len, len ≤ 4096 → apertureUp s p off len = true → (listedPeer s p rid.toNat = true → 1 ≤ len) →
        ∃ t, exec (.flushRead p rid off len) s = .next t ∧
          (if listedPeer s p rid.toNat then .unsupported ∈ t.out else .readData (onesBytes (max 4 len)) ∈ t.out) ∧
          t.mem = s.mem ∧ t.sys = s.sys ∧ (vat t.funcs 0).derr = derrAfter (vat s.funcs 0).derr
            (if (zoneAt s p off).isNone then 1 else 2) (agentCode .peer) s.tb.tick.toNat (apertureDa s p off)))

/-- R581, R582, R587, R588: a tenant's WINDOW_ACCESS within one line of device memory that its checks allow. With the cache off it
reads or writes memory itself; with it on a line held answers, a write of a whole line that is not held needs no fill, and any
other access that misses starts the fill of its bridge. -/
def Obligations.WindowAccessesAreServed : Prop :=
  ∀ (s : State) (f : Fin 64) (off : BitVec 28) (n : Nat) (bs : List Byte),
    let w := (vat s.funcs f).win
    let da := w.base.toNat + off.toNat
    hostReaches s f = true → f.val ≠ 0 → funcInReset s f = false → earlyState s = false → 1 ≤ n → bs.length = n →
    off.toNat % 512 + n ≤ 512 → w.base.toNat % 512 = 0 → off.toNat + n ≤ 2 ^ 28 - 512 * w.carved → da / 2 ^ 52 ≠ 0 →
    decodeKind s (.tenant f) false da n = 0 → decodeKind s (.tenant f) true da n = 0 →
    (vat s.brg (f.val / 32)).filling = none →
    (w.cen = false → (∃ t, exec (.windowAccess f off n none) s = .next t ∧
        t.out = .readData (if poisoned s da n then onesBytes n else daRead s da n) :: s.out ∧ t.mem = s.mem ∧
        t.brg = s.brg) ∧
      ∃ t, exec (.windowAccess f off 0 (some bs)) s = .next t ∧ t.mem = (daWrite s da bs).2.mem ∧ t.out = s.out ∧
        t.brg = s.brg) ∧
    (∀ l, w.cen = true → lineAt s f (da - da % 512) = some l → inMain l = true →
      (∃ t, exec (.windowAccess f off n none) s = .next t ∧ .readData (slice l.bytes (da % 512) n) ∈ t.out ∧ t.mem = s.mem) ∧
      ∃ t, exec (.windowAccess f off 0 (some bs)) s = .next t ∧ t.out = s.out ∧ t.mem = s.mem) ∧
    (w.cen = true → lineAt s f (da - da % 512) = none →
      (∃ t, exec (.windowAccess f off n none) s = .next t ∧ t.mem = s.mem ∧ t.out = s.out ∧
        (vat t.brg (f.val / 32)).filling =
          some { func := f, carved := none, da := da, off := da % 512, write := none, len := n } ∧
        (vat t.brg (f.val / 32)).lines = (vat s.brg (f.val / 32)).lines) ∧
      (n < 512 → ∃ t, exec (.windowAccess f off 0 (some bs)) s = .next t ∧ t.mem = s.mem ∧ t.out = s.out ∧
        (vat t.brg (f.val / 32)).filling =
          some { func := f, carved := none, da := da, off := da % 512, write := some bs, len := n }) ∧
      (n = 512 → ∃ t, exec (.windowAccess f off 0 (some bs)) s = .next t ∧ t.out = s.out ∧
        (vat t.brg (f.val / 32)).filling = none))

/-- R583, R590 to R595, Table 15-8: the operations on a tenant's window, while its page takes them: CLEAN, INVAL, CLEAN_INVAL and
UNLOCK of a line that is held, LOCK of a line, and each with an address that is not allowed, which sets MERR; the read of
WIN_SYNC, which leaves no line of the function dirty; CARVE; and the cache enable. R587, R588, R593, R606: GO of a range
operation queues it, or fails with BUSY while one runs; RANGE_OP_DONE carries it out on every line of the function in the
range and sets RDONE; WINDOW_FILL_DONE of a read answers with the bytes of memory, and what waited is served after it. -/
def Obligations.WindowsAreMaintained : Prop :=
   (∀ (s : State) (f : Fin 64), windowFree s f = true →
      let w := (vat s.funcs f).win
      let b := f.val / 32
      let m := w.maddr.toNat
      let ls := (vat s.brg b).lines
      let fails (i : Instr) (code : Nat) : Prop := ∃ t, exec i s = .next t ∧ (vat t.funcs f).win.merr = true ∧
        (w.merr = false → (vat t.funcs f).mcode = BitVec.ofNat 4 code) ∧ (w.merr = true → (vat t.funcs f).mcode = (vat s.funcs f).mcode) ∧
        t.mem = s.mem ∧ t.brg = s.brg ∧ t.out = s.out
      (∀ l, maintAddrOk s f m = true → lineAt s f (m / 512 * 512) = some l →
        (∃ t, exec (.winClean f false) s = .next t ∧ t.mem = (writeBack l s).mem ∧
          (vat t.brg b).lines = ls.map fun x => if x.idx == l.idx then { x with dirty := false } else x) ∧
        (∃ t, exec (.winInval f false) s = .next t ∧ t.mem = s.mem ∧ (vat t.brg b).lines = ls.filter (·.idx != l.idx)) ∧
        (∃ t, exec (.winCleanInval f false) s = .next t ∧ t.mem = (writeBack l s).mem ∧
          (vat t.brg b).lines = ls.filter (·.idx != l.idx)) ∧
        (∃ t, exec (.winUnlock f false) s = .next t ∧ t.mem = s.mem ∧
          (vat t.brg b).lines = ls.map fun x => if x.idx == l.idx then { x with locked := false } else x) ∧
        (lockable s f m = true → inMain l = true → l.locked = false → w.locked < 64 → ∃ t, exec (.winLock f false) s = .next t ∧ t.mem = s.mem ∧
          lineAt t f (m / 512 * 512) = some { l with locked := true })) ∧
      (maintAddrOk s f m = true → lineAt s f (m / 512 * 512) = none →
        exec (.winClean f false) s = .next s ∧ exec (.winInval f false) s = .next s ∧
        exec (.winCleanInval f false) s = .next s ∧ exec (.winUnlock f false) s = .next s) ∧
      (maintAddrOk s f m = false → fails (.winClean f false) 2 ∧ fails (.winInval f false) 2 ∧ fails (.winCleanInval f false) 2 ∧
        fails (.winUnlock f false) 2) ∧
      (lockable s f m = false → fails (.winLock f false) 2) ∧
      fails (.winLock f true) 3 ∧
      (∃ t, exec (.winSync f) s = .next t ∧ t.out = .readData (zeros 8) :: s.out ∧
        ∀ l ∈ (vat t.brg b).lines, l.func = f.val → l.dirty = false) ∧
      (∀ c : BitVec 9, c.toNat ≤ 256 → ∃ t, exec (.winCarveWrite f c) s = .next t ∧ (vat t.funcs f).win.carve = c.toNat ∧
        (vat t.funcs f).win.carved = c.toNat ∧ t.out = s.out ∧ (c.toNat ≤ w.carve → t.mem = s.mem ∧
          ∀ l ∈ (vat t.brg b).lines, l.func = f.val → ∀ i, l.carved = some i → i < c.toNat)) ∧
      (∀ c : BitVec 9, 256 < c.toNat → exec (.winCarveWrite f c) s = .next (countIgnored (pageDie f) (pageBlock f) s)) ∧
      exec (.winCacheEnable f) s = .next (onFunc f (fun F => { F with win := { F.win with cen := true } }) s) ∧
      exec (.winCacheDisable f) s = .next (onFunc f (fun F => { F with win := { F.win with cen := false } }) s)) ∧
   (∀ s : State,
      (∀ (f : Fin 64) (v : BitVec 64) (op : Fin 3), windowFree s f = true → bit v.toNat 15 = true →
        bits v.toNat 0 3 = op.val + 1 →
        let i : Instr := if op.val = 0 then .rangeClean f v else if op.val = 1 then .rangeInval f v else .rangeCleanInval f v
        let w := (vat s.funcs f).win
        (w.rbusy = false → ∃ t, exec i s = .next t ∧ (vat t.funcs f).win.rbusy = true ∧ t.mem = s.mem ∧ t.out = s.out ∧
          (vat t.brg (f.val / 32)).ranges = (vat s.brg (f.val / 32)).ranges ++ [{
            func := f, op := op.val + 1, base := w.rbase.toNat, len := w.rlen.toNat,
            vec := if bit v.toNat 3 then some (bits v.toNat 4 11) else none }]) ∧
        (w.rbusy = true → ∃ t, exec i s = .next t ∧ (vat t.funcs f).win.merr = true ∧ t.brg = s.brg ∧ t.mem = s.mem ∧
          (w.merr = false → (vat t.funcs f).mcode = 4))) ∧
      (∀ (b : Fin 2) r rest, (vat s.brg b).ranges = r :: rest → r.func / 32 = b.val →
        ∃ t, exec (.rangeOpDone b) s = .next t ∧ (vat t.funcs r.func).win.rbusy = false ∧
          (vat t.funcs r.func).win.rdone = true ∧ (vat t.brg b).ranges = rest ∧
          (∀ l ∈ (vat t.brg b).lines, l.func = r.func → l.carved = none → rangesMeet l.da 512 r.base r.len = true →
            (r.op = 1 → l.dirty = false) ∧ ¬ (r.op = 2 ∨ r.op = 3)) ∧
          (r.op = 2 → t.mem = s.mem)) ∧
      (∀ (b : Fin 2) a, (vat s.brg b).filling = some a → a.write = none → a.carved = none → a.func / 32 = b.val →
        (vat s.brg b).waiting = [] → (vat s.funcs a.func).pfen = false →
        ∃ t, exec (.windowFillDone b) s = .next t ∧ (vat t.brg b).filling = none ∧
          (targetOffline s (.tenant a.func) (a.da - a.off) 512 = false → poisoned s (a.da - a.off) 512 = false →
            ownerAllows s (.tenant a.func) a.da a.len = true →
            .readData (slice (daRead s (a.da - a.off) 512) a.off a.len) ∈ t.out) ∧
          (ownerAllows s (.tenant a.func) a.da a.len = false → .readData (onesBytes a.len) ∈ t.out ∧ t.mem = s.mem) ∧
          (poisoned s (a.da - a.off) 512 = true → (vat t.brg b).lines = (vat s.brg b).lines ∧ t.mem = s.mem)))

/-- R528 to R534, R866: what the registers of a queue pair of a function in service do. EN from 0 to 1 with a configuration that
R528 accepts starts the queue, with another it is a CONFIG error; EN from 1 to 0 stops it and discards what is not admitted; a
tail inside the queue is taken and one outside is a SQT error; a head inside the completed range is taken, one outside is a
CQH error. R536, R539, R557, R563, Table 14-7: SLOT_FETCH on a queue pair that may fetch: a command whose slots TAIL covers is
fetched, in the order of the queue, and in HALT is held for its DEVICE_HOLD completion; a chain as long as the queue is a
CHAIN_LONG error; a read that fails is an SQ_READ error. -/
def Obligations.QueuesTakeDoorbellsAndFetch : Prop :=
   (∀ (s : State) (q : Fin 256) (f : Nat), linksTraining s = true → (vat s.qs q).func = some f → funcInReset s f = false →
      let Q := vat s.qs q
      let others (t : State) : Prop := (∀ p < 256, p ≠ q.val → vat t.qs p = vat s.qs p) ∧ t.mem = s.mem ∧ t.cmds = s.cmds ∧
        t.sys = s.sys
      (∀ v : BitVec 64, bit v.toNat 48 = true → Q.en = false → configOk s q (qcfgFields v.toNat Q) = true →
        ∃ t, exec (.queueEnable q v) s = .next t ∧ others t ∧ (vat t.qs q).en = true ∧ (vat t.qs q).tail = 0 ∧
          (vat t.qs q).head = 0 ∧ (vat t.qs q).sqh = 0 ∧ (vat t.qs q).cqt = 0 ∧ (vat t.qs q).cph = true ∧
          (vat t.qs q).sqs = bits v.toNat 0 12 ∧ (vat t.qs q).cqs = bits v.toNat 16 12 ∧ (vat t.qs q).func = some f ∧
          (vat t.qs q).fetched = Q.fetched) ∧
      (∀ v : BitVec 64, bit v.toNat 48 = true → Q.en = false → configOk s q (qcfgFields v.toNat Q) = false →
        ∃ t, exec (.queueEnable q v) s = .next t ∧ others t ∧ (vat t.qs q).en = false ∧ (vat t.qs q).err = true ∧
          (Q.err = false → (vat t.qs q).errcode = 1)) ∧
      (∀ v : BitVec 64, bit v.toNat 48 = false → Q.en = true → ∃ t, exec (.queueDisable q v) s = .next t ∧ others t ∧
        (vat t.qs q).en = false ∧ (vat t.qs q).fetched = [] ∧ (vat t.qs q).tail = Q.tail ∧ (vat t.qs q).sqs = Q.sqs ∧
        (vat t.qs q).inflight = Q.inflight) ∧
      (∀ v : BitVec 32, Q.en = true → Q.stopped = false →
        (v.toNat % 4096 ≤ Q.sqs → exec (.sqTailDoorbell q v) s = .next (onQ q (fun Q => { Q with tail := v.toNat % 4096 }) s)) ∧
        (Q.sqs < v.toNat % 4096 → ∃ t, exec (.sqTailDoorbell q v) s = .next t ∧ others t ∧ (vat t.qs q).stopped = true ∧
          (vat t.qs q).err = true ∧ (Q.err = false → (vat t.qs q).errcode = 2) ∧ (vat t.qs q).tail = Q.tail)) ∧
      (∀ v : BitVec 32, queueActive Q = true →
        (headOk Q (v.toNat % 4096) = true → exec (.cqHeadDoorbell q v) s = .next
          (onQ q (fun Q => { Q with head := v.toNat % 4096 }) s)) ∧
        (headOk Q (v.toNat % 4096) = false → ∃ t, exec (.cqHeadDoorbell q v) s = .next t ∧ others t ∧
          (vat t.qs q).stopped = true ∧ (vat t.qs q).err = true ∧ (Q.err = false → (vat t.qs q).errcode = 3)))) ∧
   (∀ (s : State) (q : Fin 256), mayFetch s q = true → 0 < slotsReady (vat s.qs q) →
      let Q := vat s.qs q
      let others (t : State) : Prop := (∀ p < 256, p ≠ q.val → vat t.qs p = vat s.qs p) ∧ t.mem = s.mem ∧ t.sys = s.sys
      (∀ bs, chainOf bs < Q.sqs → 1 + chainOf bs ≤ slotsReady Q → slotsAhead Q + 1 + chainOf bs ≤ 64 →
        64 * (1 + chainOf bs) ≤ bs.length → ∃ t, exec (.slotFetch q (.data bs)) s = .next t ∧ others t ∧
          (vat t.qs q).sqh = (Q.sqh + 1 + chainOf bs) % (Q.sqs + 1) ∧ (vat t.qs q).tail = Q.tail ∧
          (s.sys.state ≠ .halt → t.cmds = s.cmds ∧ (vat t.qs q).fetched.map (·.bytes) =
            Q.fetched.map (·.bytes) ++ [bs.take (64 * (1 + chainOf bs))]) ∧
          (s.sys.state = .halt → (vat t.qs q).fetched = Q.fetched ∧ ∃ c, t.cmds = s.cmds ++ [c] ∧ c.q = q.val ∧
            c.phase = .ended ∧ c.status = 0x3F ∧ c.uid = s.nextUid)) ∧
      (∀ bs, chainOf bs < Q.sqs → slotsReady Q < 1 + chainOf bs → exec (.slotFetch q (.data bs)) s = .next s) ∧
      (∀ bs, Q.sqs ≤ chainOf bs → ∃ t, exec (.slotFetch q (.data bs)) s = .next t ∧ others t ∧ (vat t.qs q).stopped = true ∧
        (vat t.qs q).fetched = [] ∧ (Q.err = false → (vat t.qs q).errcode = 4) ∧ t.cmds = s.cmds) ∧
      (∀ r : HostReply, timeoutOff (funcOfQ s q) r s = true → exec (.slotFetch q r) s = .next s) ∧
      (∀ r : HostReply, (∀ bs, r ≠ .data bs) → r ≠ .granted → timeoutOff (funcOfQ s q) r s = false → ∃ t, exec (.slotFetch q r) s = .next t ∧ others t ∧
        (vat t.qs q).stopped = true ∧ (vat t.qs q).fetched = [] ∧ (Q.err = false → (vat t.qs q).errcode = 5) ∧ t.cmds = s.cmds))

/-- R541 to R544, R551, R611: the command that the bridge admits next. It leaves the queue pair's fetched commands, becomes the
newest command in flight with a new identity, and counts in its queue; its class is the one it names, or 15 when its function
may not use it; no other queue pair changes. A command that chains slots without an INLINE list ends with BAD_OPCODE,
whichever row admits it. -/
def Obligations.TheNextCommandIsAdmitted : Prop :=
  ∀ (s : State) (q : Fin 256) (F : Fetched) rest f, (vat s.qs q).fetched = F :: rest → (vat s.qs q).func = some f →
    mayAdmit s (f / 32) = true → nextQueue s (f / 32) = some q.val →
    let a := admitHead q s
    (a.nextUid = s.nextUid + 1 ∧ (vat a.qs q).fetched = rest ∧ (vat a.qs q).inflight = (vat s.qs q).inflight + 1 ∧
      (∀ p < 256, p ≠ q.val → vat a.qs p = vat s.qs p) ∧ a.cmds.map (·.uid) = s.cmds.map (·.uid) ++ [s.nextUid] ∧
      (∃ x ∈ a.cmds, x.uid = s.nextUid ∧ x.bytes = F.bytes ∧ x.q = q.val ∧ x.func = f ∧ x.phase = .working ∧
        x.cls = (if classPermits s f (classOf F.bytes) then classOf F.bytes else 15) ∧ x.gen = s.cfg.cur.gen ∧
        x.pos = posOf s) ∧
      (f < 64 → (vat a.brg (f / 32)).lastQ = q.val ∧ (vat a.brg (f / 32)).admits = (vat s.brg (f / 32)).admits + 1) ∧
      a.mem = s.mem ∧ a.sys = s.sys ∧ a.cores = s.cores) ∧
    (∀ c, cmdOf a s.nextUid = some c → knownOpcode (opcodeOf c.bytes) = true → badChain c.bytes = true →
      ∀ i, admitRow i = some (q.val, opcodeOf F.bytes) → (opcodeOf F.bytes = 0x40 → (copyForm F.bytes = 1 ↔ i = .tableLoad q)) →
        ∃ t, exec i s = .next t ∧ ∃ x ∈ t.cmds, x.uid = s.nextUid ∧ x.phase = .ended ∧ x.status = 0x10 ∧ x.detail = 0x0102)

/-- R541, R544, R553, R554, R570, R572, R598 to R602, R480 to R483, R810, R811: commands that start without a list from the
host, once admitted and past their checks: NOP ends with OK, a reserved opcode with BAD_OPCODE; FENCE waits for the commands
before it, or ends; TABLE_LOAD joins the order of updates and asks the host for its rows; BUF_ALLOC allocates its block,
which reads zero; BUF_FREE frees its buffer; RUN_KERNEL queues a launch on every core it names; COUNTER_SNAP waits for its
eighth tick. -/
def Obligations.CommandsStart : Prop :=
  ∀ (s : State) (q : Fin 256) (F : Fetched) rest f, (vat s.qs q).fetched = F :: rest → (vat s.qs q).func = some f →
    mayAdmit s (f / 32) = true → nextQueue s (f / 32) = some q.val →
    let u := s.nextUid
    let a := admitHead q s
    let o := opcodeOf F.bytes
    ∀ c, cmdOf a u = some c → opcodeOf c.bytes = o →
    (knownOpcode o = false → ∃ t, exec (.unknownOpcode q) s = .next t ∧
      ∃ x ∈ t.cmds, x.uid = u ∧ x.phase = .ended ∧ x.status = 0x10 ∧ x.detail = 0x0101) ∧
    (badChain c.bytes = false →
      (o = 0x00 → ∃ t, exec (.nop q) s = .next t ∧
        ∃ x ∈ t.cmds, x.uid = u ∧ x.phase = .ended ∧ x.status = 0 ∧ x.detail = 0) ∧
      (o = 0x50 → param c.bytes 0 1 ≤ 1 → ∃ t, exec (.fence q) s = .next t ∧ ∃ x ∈ t.cmds, x.uid = u ∧
        (if earlierSet a c = [] then x.phase = .ended ∧ x.status = 0
          else x.waits = earlierSet a c ∧ x.checked = true ∧ x.phase = .working)) ∧
      (∀ T, o = 0x40 → copyForm F.bytes = 1 → tableChecks a c true = .inr T → 1 ≤ entryCount c → entryCount c ≤ 1048576 →
        copyInline c.bytes = false → rngKind a c.func false (loadRange T c) = 0 → badLoadRow T c = none →
        onHost (loadRange T c) = true → usesAts a c.func = false → entryBytes T c 0 = none →
        ∃ t, exec (.tableLoad q) s = .next t ∧ asks t u (entryReads T c) ∧ t.mem = s.mem ∧
          ∃ x ∈ t.cmds, x.uid = u ∧ x.checked = true ∧ x.total = chunkCount c) ∧
      (∀ base, o = 0x48 → (∀ x ∈ s.cmds, bufOpen x = false) → usesAts a c.func = false → 16 ≤ param c.bytes 0 1 →
        param c.bytes 0 1 ≤ 36 → param c.bytes 8 8 % 16 = 0 →
        (heldGranules a c.func + 2 ^ (param c.bytes 0 1 - 16)) * granule ≤ nth a.image.carve.quotas c.func 0 →
        pickBlock a (param c.bytes 0 1 - 16) = some base → ∃ t, exec (.bufAlloc q) s = .next t ∧
          t.mem = (zeroGranules base (2 ^ (param c.bytes 0 1 - 16)) s).mem ∧
          t.pool.bufs = s.pool.bufs ++ [{
            base := base, k := param c.bytes 0 1 - 16, gen := granuleGen a base, func := c.func, q := c.q,
            fq := bit (param c.bytes 1 1) 0, freed := none }] ∧
          ∃ x ∈ t.cmds, x.uid = u ∧ x.phase = .ended ∧ x.status = 0 ∧ x.detail = BitVec.ofNat 32 base) ∧
      (∀ b, o = 0x49 → (∀ x ∈ s.cmds, bufOpen x = false) → poolHandle a (param c.bytes 0 8) = true →
        a.pool.bufs.find? (fun b => b.base == param c.bytes 0 8 % 2 ^ 52 / granule) = some b → b.freed = none →
        param c.bytes 8 4 = b.gen → (c.func = 0 ∨ (c.func = b.func ∧ (c.q = b.q ∨ b.fq = true))) →
        ∃ t, exec (.bufFree q) s = .next t ∧ (∀ x ∈ t.pool.bufs, x.base = b.base → x.freed.isSome = true) ∧
          ∃ x ∈ t.cmds, x.uid = u ∧ x.phase = .ended ∧ x.status = 0 ∧ x.detail = 0) ∧
      (∀ k, o = 0x60 → (cfgOf a c.gen).kernels.find? (·.id == param c.bytes 0 2) = some k → launchPlaces c k ≠ [] →
        param c.bytes 8 4 % 4096 = 0 → (∀ p ∈ launchPlaces c k, sliceLive a p.1 = true ∧
          areaKind a c.func p.1 (cribDa p.1 p.2.2) (launchArea k) = 0) →
        ∃ t, exec (.runKernel q) s = .next t ∧ t.mem = s.mem ∧
          (∀ p ∈ launchPlaces c k, ∃ l, .launch l ∈ (vat t.cores (8 * p.1 + p.2.1)).queue ∧ l.cmd = u ∧ l.kernel = k.id ∧
            l.total = (launchPlaces c k).length) ∧
          ∃ x ∈ t.cmds, x.uid = u ∧ x.cores = (launchPlaces c k).length ∧ x.checked = true) ∧
      (o = 0x70 → snapSections c.bytes ≠ 0 → (snapDst c.bytes (snapLen (snapSections c.bytes))).addr % 64 = 0 →
        snapPermitted a c.func (snapSections c.bytes) = true →
        rngKind a c.func true (snapDst c.bytes (snapLen (snapSections c.bytes))) = 0 →
        ∃ t, exec (.counterSnap q) s = .next t ∧ t.mem = s.mem ∧
          ∃ x ∈ t.cmds, x.uid = u ∧ x.edges = 8 ∧ x.checked = true))

/-- R226, R227, R261, R353, R360, R362, R386, R501, R566, R570: commands whose list lies in the memory of their host, once
admitted and past the checks of their parameter block: the device asks the host for the translations that the command needs
and for its list, or an update's header and indices, and the command waits for them. -/
def Obligations.ListsAreAskedFor : Prop :=
  ∀ (s : State) (q : Fin 256) (F : Fetched) rest f, (vat s.qs q).fetched = F :: rest → (vat s.qs q).func = some f →
    mayAdmit s (f / 32) = true → nextQueue s (f / 32) = some q.val →
    let u := s.nextUid
    let a := admitHead q s
    let o := opcodeOf F.bytes
    let runs (i : Instr) (rs : List HostRead) : Prop := ∃ t, exec i s = .next t ∧ asks t u rs ∧ t.mem = s.mem ∧
      t.nextUid = u + 1 ∧ (vat t.qs q).fetched = rest
    ∀ c, cmdOf a u = some c → opcodeOf c.bytes = o → badChain c.bytes = false →
    (∀ T, tableChecks a c false = .inr T → lookupCode T c = none → lkInline c = false → (lkListRange c).dev = false →
      rngKind a c.func true (lkOutRange T c) = 0 →
      let rs := translations a c.func [lkListRange c, lkOutRange T c] ++ [readOf c.func (lkListRange c)]
      (o = 0x10 → runs (.lookupPool q) rs) ∧ (o = 0x11 → runs (.lookupRaw q) rs)) ∧
    (∀ T, tableChecks a c true = .inr T → updateCode T c = none → bit (param c.bytes 4 1) 1 = false →
      let r := updListRange T ((gradFmt c.bytes).getD .fp32) c
      let rs := translations a c.func [r] ++ [readOf c.func { r with len := listHead c.bytes }]
      r.dev = false → (o = 0x20 → runs (.scatterAdd q) rs) ∧ (o = 0x21 → runs (.scatterOpt q) rs)) ∧
    (∀ d, (∀ x ∈ s.cmds, isKv x = false) → kvChecks a c = .inr d → kvInline c = false → kvListDa c = false →
      (let r := kvListRange c (32 * kvNent c)
       o = 0x30 → kvHeadCode c d = none → kvListAddr c % 8 = 0 →
         runs (.kvAppend q) (translations a c.func [r] ++ [readOf c.func r])) ∧
      (let r := kvListRange c (shortListLen c)
       kvHeadCode c d = none → kvListAddr c % 8 = 0 →
         (o = 0x31 → runs (.kvRelease q) (translations a c.func [r] ++ [readOf c.func r])) ∧
         (o = 0x32 → d.maxNodes ≠ 0 → runs (.prefixMatch q) (translations a c.func [r] ++ [readOf c.func r]))) ∧
      (let l := kvListRange c (attnListLen d c)
       o = 0x38 → attnCode d c = none → rngKind a c.func true (attnOutRange d c) = 0 →
         runs (.attnDecode q) (translations a c.func [l, attnOutRange d c] ++ [readOf c.func l]))) ∧
    (copyHeadCode c.bytes = none → copyForm c.bytes = 2 → copyForm F.bytes = 2 → copyInline c.bytes = false →
      let r := segListRange c.bytes
      r.addr % 8 = 0 → r.dev = false → (o = 0x40 → runs (.copyH2d q) (translations a c.func [r] ++ [readOf c.func r])) ∧
        (o = 0x41 → runs (.copyD2h q) (translations a c.func [r] ++ [readOf c.func r])))

/-- R501, R502, R829: what the host answers to a command that waits for it. A translation granted is held, and the command goes
on to its next request; data of another length is no answer, and the data of a request under a translation that an
invalidation gave up is kept until the fresh one is granted; a read that fails, or a translation that is refused, ends the
command with PERMISSION and kind 0x2 and writes nothing, but an update or load whose rows are being read keeps what it has
applied whole. A request without an answer ends in a Completion Timeout, which is such a failure, unless Device Control 2 of
the function disables the timeout. R502, R826, R829, R834: the bytes that a mailbox operation waits for. IMAGE_STAGE puts
them into slot B; a change at the front of the order is validated with them, that of a function reset meanwhile without its
mailbox (R519). When the read fails the operation has no effect and answers XFER with the kind PERMISSION. R365: a write of
HEAD of QDB_KVN is taken, and lets held notices go to the ring. -/
def Obligations.HostsAnswer : Prop :=
   (∀ (s : State) (u : Nat) (c : Cmd) (w : HostRead) rest, cmdOf s u = some c → c.wants = w :: rest → c.phase = .waitHost →
      (∀ x ∈ s.cmds, x.uid = u → x = c) → portUp s (portOf c.func) = true →
      let answer (r : HostReply) (t : State) : Prop := exec (.hostReadCompletion (.command u) r) s = .next t
      (w.ats = true → rest ≠ [] → (c.early = [] ∨ rest.head?.any (·.ats) = true) → ∃ t, answer .granted t ∧
        cmdOf t u = some { c with wants := rest, held := (w.addr, w.len) :: c.held, fresh := c.fresh - 1 } ∧
        t = { s with cmds := t.cmds }) ∧
      (w.ats = false → answer .granted s ∧ answer .refused s) ∧
      (∀ bs, (w.ats = true → c.fresh = 0) → (w.ats = true ∨ bs.length ≠ w.len) → ∃ t, answer (.data bs) t ∧
        cmdsBut t = cmdsBut s ∧ t.mem = s.mem ∧ t.qs = s.qs ∧ t.out = s.out ∧ t.funcs = s.funcs) ∧
      (∀ bs x, w.ats = true → c.fresh ≠ 0 → (c.wants.filter (fun w => !w.ats))[c.early.length]? = some x → bs.length = x.len →
        ∃ t y, answer (.data bs) t ∧ cmdOf t u = some y ∧ y.early = c.early ++ [bs] ∧ y.wants = c.wants ∧ t.mem = s.mem ∧
          t.qs = s.qs) ∧
      answer .timeout s ∧
      ((∀ x ∈ s.cmds, x.uid ≠ u → isKv x = false ∧ writesRows x = false ∧ opcodeOf x.bytes ≠ 0x48 ∧
          opcodeOf x.bytes ≠ 0x49) →
        let fails (o : Host.Outcome State Fault Refusal) : Prop := ∃ t x, o = .next t ∧ cmdOf t u = some x ∧
          (writesRows c = false ∨ c.checked = false → x.phase = .ended ∧ x.status = 0x12 ∧ x.detail = 2 ∧ x.wants = [] ∧
            t.mem = s.mem ∧ t.qs = s.qs) ∧
          (writesRows c = true → c.checked = true → x.cutAt.isSome = true)
        fails (exec (.hostReadCompletion (.command u) .failed) s) ∧ fails (exec (.hostReadCompletion (.command u) .poisoned) s) ∧
        (timeoutOff c.func .timeout s = false → fails (exec (.completionTimeout (.command u)) s)) ∧
        (timeoutOff c.func .timeout s = true → exec (.completionTimeout (.command u)) s = .next s) ∧
        (w.ats = true → fails (exec (.hostReadCompletion (.command u) .refused) s)) ∧
        (∀ bs, w.ats = false → bs.length = w.len →
          (isLookup c = true → c.checked = false → rest = [] → ∃ t x, answer (.data bs) t ∧ cmdOf t u = some x ∧ x.data = bs ∧
            x.phase ≠ .waitHost ∧ t.mem = s.mem) ∧
          (∀ T, writesRows c = true → c.checked = true → tableFor s c (cmdTable c) = some T → ∃ t x, answer (.data bs) t ∧
            cmdOf t u = some x ∧ x.arrived = (entryOfRead T c w, 0, bs) :: c.arrived) ∧
          (∀ src dst, opcodeOf c.bytes = 0x40 → isLoad c = false → c.checked = true → rest = [] →
            pieceAt c.bytes (copySegs c) c.done = some (src, dst) → pieceAt c.bytes (copySegs c) (c.done + 1) = none →
            dst.dev = true → dst.addr / 2 ^ 52 ≠ 6 → poisonedUnits s dst.addr bs.length = [] → ∃ t x, answer (.data bs) t ∧
              t.mem = (daPoke s dst.addr bs).mem ∧ cmdOf t u = some x ∧ x.phase = .ended ∧ x.status = 0)))) ∧
   ((∀ (s : State) (f : Fin 64) (w : HostRead), (mbxOf s f.val).want = some w → portUp s (portOf f.val) = true →
      (∀ x ∈ s.mg.left, x.1 ≠ f.val) →
      s.mg.changeQueue = [] ∨ s.mg.changeQueue = [.mailbox f.val] →
      let M := mbxOf s f.val
      (∀ bs, bs.length = w.len → M.op = 0x30 → ∃ t, exec (.hostReadCompletion (.mailbox f) (.data bs)) s = .next t ∧
        t.flash = (stageBytes (numAt (mbxInput M) 0 4) bs s).flash ∧ t.mg = (stageBytes (numAt (mbxInput M) 0 4) bs s).mg ∧
        (mbxOf t f.val).result = some (0, []) ∧ (mbxOf t f.val).want = none) ∧
      (∀ bs, bs.length = w.len → M.op ≠ 0x30 → M.result = none → s.mg.changeQueue = [.mailbox f.val] →
        ∃ t, exec (.hostReadCompletion (.mailbox f) (.data bs)) s = .next t ∧ (mbxOf t f.val).want = none ∧
          (mbxOf t f.val).input = bs ∧ t.mg.changeQueue = [] ∧
          ((mbxOf t f.val).result.isSome = true ∨ t.cfg.changes.length = s.cfg.changes.length + 1)) ∧
      (∀ bs, bs.length ≠ w.len → exec (.hostReadCompletion (.mailbox f) (.data bs)) s = .next s) ∧
      (let fails (c : Instr) : Prop := ∃ t, exec c s = .next t ∧ (mbxOf t f.val).want = none ∧
         (mbxOf t f.val).result = some (0x07, leBytes 1 2) ∧ t.mg.changeQueue = [] ∧ t.cfg = s.cfg ∧ t.flash = s.flash
       fails (.hostReadCompletion (.mailbox f) .failed) ∧ fails (.hostReadCompletion (.mailbox f) .poisoned) ∧
       (timeoutOff f.val .timeout s = false → fails (.completionTimeout (.mailbox f))))) ∧
    (∀ (s : State) (f : Fin 64), (mbxOf s f.val).want = none → leftChange s f.val = none → (∀ x ∈ s.mg.left, x.1 ≠ f.val) →
      (∀ r : HostReply, exec (.hostReadCompletion (.mailbox f) r) s =
        .next (if r = .poisoned ∧ portUp s (portOf f.val) = true then noteReply f.val r s else s)) ∧
      exec (.completionTimeout (.mailbox f)) s =
        .next (if timeoutOff f.val .timeout s then s else noteReply f.val .timeout s)) ∧
    (∀ (s : State) (f : Fin 64) (M : Mailbox) (w : HostRead), s.mg.changeQueue = [.left f.val M] → M.want = some w →
      portUp s (portOf f.val) = true →
      (∀ bs, bs.length = w.len → ∃ t, exec (.hostReadCompletion (.mailbox f) (.data bs)) s = .next t ∧ t.mg.changeQueue = [] ∧
        t.funcs = s.funcs) ∧
      ∃ t, exec (.hostReadCompletion (.mailbox f) .failed) s = .next t ∧ t.mg.changeQueue = [] ∧ t.cfg = s.cfg ∧
        t.funcs = s.funcs) ∧
    (∀ (s : State) (f : Fin 64) (h : BitVec 16), linksTraining s = true → earlyState s = false → pageTakes s f.val = true →
      ((vat s.funcs f.val).held = [] →
        exec (.qdbKvnHead f h) s = .next (onFunc f.val (fun F => { F with kvn := { F.kvn with head := h } }) s)) ∧
      (∀ b, (vat s.funcs f.val).held = [b] → ringRoom { (vat s.funcs f.val).kvn with head := h } = true →
        ∃ t, exec (.qdbKvnHead f h) s = .next t ∧ (vat t.funcs f.val).held = [] ∧
          (vat t.funcs f.val).kvn = ringStep { (vat s.funcs f.val).kvn with head := h } ∧
          (portUp s (portOf f.val) = true → .hostWrite f.val
            ((vat s.funcs f.val).kvn.addr.toNat + 32 * (vat s.funcs f.val).kvn.tail)
            (leBytes 1 (b2n (vat s.funcs f.val).kvn.phase) ++ b.drop 1) (attrOf s f.val false) ∈ t.out))))

/-- R524, R534, R546 to R549: COMPLETION_POST of a command whose work has ended. It leaves the device; its 32-byte completion with
its TAG and STATUS goes to the queue's next entry, CQT advances and CPH inverts on a wrap. When the translation of that write
is refused the write is dropped and the queue stops with CQ_WRITE. R811: COUNTER_SNAP_CAPTURE after the eighth tick edge, with
the destination in the memory of the host: the snapshot is written to it, and the command's work ends with the snapshot's
length in DETAIL. -/
def Obligations.CompletionsAndSnapshotsAreWritten : Prop :=
   (∀ (s : State) (u : Nat) (c : Cmd) (granted : Bool), mayPost s u = true → mayIssue s c.func = true → cmdOf s u = some c →
      let Q := vat s.qs c.q
      ((usesAts s c.func = false ∨ granted = true) → Q.cqDead = false → ∃ t, exec (.completionPost u granted) s = .next t ∧
        (∀ x ∈ t.cmds, x.uid ≠ u) ∧
        (∃ rest, rest.length = 29 ∧ .hostWrite c.func (Q.cqb.toNat + 32 * Q.cqt)
          (leBytes 2 (tagOf c.bytes) ++ leBytes 1 c.status.toNat ++ rest) (attrOf s c.func false) ∈ t.out) ∧
        (vat t.qs c.q).cqt = (if Q.cqt = Q.cqs then 0 else Q.cqt + 1) ∧ (vat t.qs c.q).cph = (Q.cph != decide (Q.cqt = Q.cqs)) ∧
        (vat t.qs c.q).rmark = false ∧ (vat t.qs c.q).inflight = Q.inflight - 1 ∧ (vat t.qs c.q).head = Q.head ∧
        (vat t.qs c.q).fetched = Q.fetched) ∧
      (usesAts s c.func = true → granted = false → Q.cqDead = false → ∃ t, exec (.completionPost u granted) s = .next t ∧
        (∀ x ∈ t.cmds, x.uid ≠ u) ∧ (vat t.qs c.q).stopped = true ∧ (vat t.qs c.q).cqDead = true ∧
        (vat t.qs c.q).fetched = [] ∧ (Q.err = false → (vat t.qs c.q).errcode = 6))) ∧
   (∀ (s : State) (u : Nat) (c : Cmd), cmdOf s u = some c → opcodeOf c.bytes = 0x70 → c.checked = true → c.phase = .working →
      c.wants = [] → c.edges = 0 → qosDue s = false → bit (param c.bytes 4 1) 0 = false → mayIssue s c.func = true →
      ∃ t bytes, exec (.counterSnapCapture u) s = .next t ∧
        .hostWrite c.func (param c.bytes 8 8) bytes (attrOf s c.func false) ∈ t.out ∧
        t.mem = s.mem ∧ t.qs = s.qs ∧ ∃ x ∈ t.cmds, x.uid = u ∧ x.phase = .ended ∧ x.status = 0 ∧
          x.detail = BitVec.ofNat 32 bytes.length)

/-- R824, R828, R830, Table 22-4: a GO that a function's mailbox takes makes it BUSY with the row's OP and LEN and raises OPSEQ.
HOLD in HALT; STATE_DENIED before service but for IDENTIFY, KEY_READ and CERT_READ; BAD_OP for a code that Table 22-5 does not
list; DENIED for an operation of the steward's that another function issues; BAD_LEN for a LEN that does not fit. A refusal
has no effect but its answer. R826, R840, R845: a mailbox operation whose answer is known completes: the output, STATUS,
OUT_LEN, DONE and DONE_EV; a ring it registers comes into force with HEAD and PHASE starting afresh. One of the BMC's sends
its response. Without an answer nothing changes, once no change waits for its turn. -/
def Obligations.MailboxesTakeOperations : Prop :=
   (∀ (s : State) (c : Instr) (op f n : Nat), goRow c = some (op, f, n) → goTaken s f →
      let answers (status : Nat) : Prop := exec c s = .next (goAnswered op n f (bare status) s)
      let fits := lenFits (mbxOf (goStarted op n f s) f)
      (¬ (op = 0x23 ∧ numAt (mbxOf s f).data 0 1 = f) → ∃ t, exec c s = .next t ∧ (mbxOf t f).st = .busy ∧
        (mbxOf t f).op.toNat = op ∧ (mbxOf t f).len.toNat = n ∧ (mbxOf t f).opseq = (mbxOf s f).opseq + 1 ∧
        (mbxOf t f).data = (mbxOf s f).data) ∧
      (s.sys.state = .halt → answers 0x0B) ∧
      (s.sys.state ≠ .halt → inService s = false → op ∉ [0x01, 0x40, 0x41] → answers 0x09) ∧
      (inService s = true → inlineLen op = none → answers 0x04) ∧
      (inService s = true → stewardOnly op = true → f ≠ 0 → answers 0x06) ∧
      (inService s = true ∨ s.sys.state ≠ .halt ∧ op ∈ [0x01, 0x40, 0x41] → inlineLen op ≠ none → (stewardOnly op = true → f = 0) →
        fits = false → answers 0x05)) ∧
   ((∀ (s : State) (f : Fin 64), s.mg.changeQueue = [] →
      let M := mbxOf s f.val
      M.st = .busy → M.op ≠ 0x70 →
      (∀ status out, M.result = some (status, out) → stillRuns s M = false → ∃ t,
        exec (.mailboxComplete (.func f)) s = .next t ∧ (mbxOf t f.val).st = .done ∧ (mbxOf t f.val).doneEv = true ∧
        (mbxOf t f.val).status = status ∧ (mbxOf t f.val).outLen = out.length ∧ (mbxOf t f.val).data = patch M.data 0 out ∧
        (mbxOf t f.val).result = none ∧ (mbxOf t f.val).opseq = M.opseq ∧ t.mem = s.mem ∧ t.cmds = s.cmds ∧ t.cfg = s.cfg ∧
        (M.bulk ≠ [] → mayIssue s f.val = true → .hostWrite f.val M.xaddr.toNat M.bulk (attrOf s f.val false) ∈ t.out) ∧
        (M.op = 0x60 → status = 0 → t.jr.evt = registerRing (ringDesc (mbxInput M)) s.jr.evt) ∧
        (M.op = 0x61 → status = 0 → t.cnt.dump = registerRing (ringDesc (mbxInput M)) s.cnt.dump) ∧
        (M.op = 0x62 → status = 0 → t.cnt.pip = registerRing (ringDesc (mbxInput M)) s.cnt.pip) ∧
        (M.op = 0x63 → status = 0 → (vat t.funcs f.val).held = [] ∧
          (vat t.funcs f.val).kvn = registerRing (ringDesc (mbxInput M)) (vat (loseNotices f.val s).funcs f.val).kvn) ∧
        ((M.op.toNat < 0x60 ∨ 0x63 < M.op.toNat ∨ status ≠ 0) → t.jr = s.jr ∧ t.cnt.dump = s.cnt.dump ∧ t.cnt.pip = s.cnt.pip)) ∧
      (M.result = none → exec (.mailboxComplete (.func f)) s = .next s)) ∧
    (∀ (s : State) (e : Fin 2),
      (∀ status out, vat s.mg.oemBusy e.val = true → vat s.mg.oem e.val = some (status, out) → ∃ t,
        exec (.mailboxComplete (.endpoint e)) s = .next t ∧ vat t.mg.oemBusy e.val = false ∧ t.mg.oem = s.mg.oem ∧
        .bmc e.val (leBytes 1 0 ++ (leBytes 1 status.toNat ++ leBytes 4 out.length ++ out.take 1024)) ∈ t.out ∧
        t.mem = s.mem ∧ t.funcs = s.funcs) ∧
      (vat s.mg.oemBusy e.val = false → exec (.mailboxComplete (.endpoint e)) s = .next s)))

/-- R703, R704, R750, R778, R797, R830, Table 22-5: what the reading operations answer, each with the LEN and the right that the
table gives it. Output for MBX_XADDR has to fit it (log 41); the identity that CERT_READ and KEY_READ give is the device's
own. -/
def Obligations.MailboxReadsAnswer : Prop :=
  ∀ (s : State) (f : Fin 64), goTaken s f.val → inService s = true →
    let M := mbxOf s f.val
    let d (n : Nat) : List Byte := fitTo M.data n
    let gives (c : Instr) (op n : Nat) (r : Reply) : Prop := exec c s = .next (goAnswered op n f.val r s)
    gives (.identify f 0) 0x01 0 (okWith (leBytes 2 0x0E17 ++ leBytes 1 s.sys.stepping.toNat ++ leBytes 1 (stateCode s.sys.state)
      ++ leBytes 4 s.cfg.cur.gen ++ leBytes 8 s.image.version.toNat ++ leBytes 4 s.sys.bootCount.toNat ++ leBytes 1 f.val
      ++ zeros 11)) ∧
    gives (.genQuery f 0) 0x02 0 (okWith (leBytes 4 s.cfg.cur.gen ++ leBytes 4 s.cfg.changes.length)) ∧
    gives (.keyRead f 0) 0x40 0 (opKeyRead s) ∧
    gives (.certRead f 0) 0x41 0 (okWith ((vat s.flash 0).cert.take 2048)) ∧
    (∀ t, tableOf s.cfg.cur (numAt (d 8) 0 2) = some t → (mayRead t f.val = false → gives (.tableQuery f 8) 0x13 8 (bare 0x06)) ∧
      (mayRead t f.val = true → M.xlen.toNat < 4 * t.shards.length →
        gives (.tableQuery f 8) 0x13 8 (okWith (tableBytes t))) ∧
      (mayRead t f.val = true → 4 * t.shards.length ≤ M.xlen.toNat → M.xaddr.toNat % 64 = 0 → gives (.tableQuery f 8) 0x13 8
        { status := 0, out := tableBytes t, bulk := (t.shards.map shardBytes).flatten })) ∧
    (tableOf s.cfg.cur (numAt (d 8) 0 2) = none →
      (∀ k, s.cfg.cur.kvs.find? (·.id == numAt (d 8) 0 2) = some k →
        gives (.tableQuery f 8) 0x13 8 (if mayReadKv k f.val then okWith (kvBytes k) else bare 0x06)) ∧
      ((∀ k ∈ s.cfg.cur.kvs, k.id ≠ numAt (d 8) 0 2) → gives (.tableQuery f 8) 0x13 8 (bare 0x0A))) ∧
    (f.val = 0 → (∀ b, s.cnt.dumps[numAt (d 8) 0 1]? = some b → bulkFits M b →
        gives (.dumpRead f 8) 0x65 8 { status := 0, out := [], bulk := b }) ∧
      (s.cnt.dumps[numAt (d 8) 0 1]? = none → gives (.dumpRead f 8) 0x65 8 (bare 0x03))) ∧
    (f.val = 0 → (∀ l, summariesOf s (numAt (d 8) 0 8) = some l → bulkFits M l.flatten →
        gives (.summaryRead f 8) 0x72 8 { status := 0, out := [], bulk := l.flatten }) ∧
      (summariesOf s (numAt (d 8) 0 8) = none → gives (.summaryRead f 8) 0x72 8 (bare 0x03))) ∧
    (f.val = 0 → ((∀ r ∈ journaledRecords s, r.1 ≠ numAt (d 16) 0 8) → gives (.epochRead f 16) 0x71 16 (bare 0x03)) ∧
      (∀ b, journaledRecords s = [(numAt (d 16) 0 8, b)] → 0 < numAt (d 16) 8 4 → bulkFits M b →
        gives (.epochRead f 16) 0x71 16 { status := 0, out := leBytes 4 1, bulk := b })) ∧
    (f.val = 0 → (numberedEvents s = [] → gives (.eventFetch f 16) 0x64 16 (okWith (leBytes 4 0))) ∧
      (∀ e, numberedEvents s = [(numAt (d 16) 0 8, e)] → 0 < numAt (d 16) 8 4 → bulkFits M (eventBytes e) →
        gives (.eventFetch f 16) 0x64 16 { status := 0, out := leBytes 4 1, bulk := eventBytes e })) ∧
    ((∀ r ∈ s.recov.reports, r.1 ≠ numAt (d 8) 0 4) → gives (.reportRead f 8) 0x74 8 (bare 0x03)) ∧
    (∀ b, s.recov.reports.find? (·.1 == numAt (d 8) 0 4) = some (numAt (d 8) 0 4, b) →
      bulkFits M (if f.val = 0 then b else reportFor f.val b) →
      gives (.reportRead f 8) 0x74 8 { status := 0, out := [], bulk := if f.val = 0 then b else reportFor f.val b }) ∧
    (∀ k, coreNamed (d 8) = some k → gives (.crashRead f 8) 0x75 8
      (if f.val = 0 ∨ numAt (crashRecord s k) 4 1 = f.val then okWith (crashRecord s k) else bare 0x06)) ∧
    (coreNamed (d 8) = none → gives (.crashRead f 8) 0x75 8 (invalid ckRange)) ∧
    (f.val ≠ 0 → numAt (d 16) 8 1 ≠ f.val → gives (.proofRead f 16) 0x70 16 (bare 0x06)) ∧
    (f.val = 0 ∨ numAt (d 16) 8 1 = f.val → numAt (d 16) 8 1 ≤ 63 →
      (epochPending s (numAt (d 16) 0 8) = true → exec (.proofRead f 16) s = .next (goStarted 0x70 16 f.val s)) ∧
      (epochPending s (numAt (d 16) 0 8) = false → ((∀ r ∈ s.led.retained, r.1 ≠ numAt (d 16) 0 8) →
        gives (.proofRead f 16) 0x70 16 (bare 0x03)) ∧
        (∀ sums r, s.led.retained.find? (·.1 == numAt (d 16) 0 8) = some (numAt (d 16) 0 8, sums, r) →
          gives (.proofRead f 16) 0x70 16 (if r = [] then bare 0x03
            else okWith (r ++ nth sums (numAt (d 16) 8 1) [] ++ zeros 16 ++ auditPath sums (numAt (d 16) 8 1))))))

/-- R107, R159, R172, R177, R513, R704, R831, R833, R843, Table 22-5: what the operations that act do, each with the LEN and the
right that the table gives it. A change of the steward's with nothing in front of it and nothing to read is accepted, or
refused as JOURNAL_BUSY or INVALID; one with data at MBX_XADDR asks the host for it. -/
def Obligations.MailboxOperationsAct : Prop :=
  ∀ (s : State) (f : Fin 64), goTaken s f.val → inService s = true →
    let M := mbxOf s f.val
    let d (n : Nat) : List Byte := fitTo M.data n
    let gives (c : Instr) (op n : Nat) (r : Reply) : Prop := exec c s = .next (goAnswered op n f.val r s)
    (∀ (c : Instr) (op n : Nat), goRow c = some (op, 0, n) → f.val = 0 → isChangeOp op = true →
      (inlineLen op).isSome = true →
      lenFits (mbxOf (goStarted op n 0 s) 0) = true → s.mg.changeQueue = [] →
      let s0 := goStarted op n 0 s
      (inputLen (mbxOf s0 0) = some 0 →
        (journalBusy s = true → gives c op n (bare 0x01)) ∧
        (journalBusy s = false →
          (∀ e, changeOf s0 (mbxOf s0 0) = .error e → gives c op n (invalid e)) ∧
          (∀ k, changeOf s0 (mbxOf s0 0) = .ok k →
            (checkChange s0 (projected s0) (tenantOf (some 0)) k ≠ 0 →
              gives c op n (invalid (checkChange s0 (projected s0) (tenantOf (some 0)) k))) ∧
            (checkChange s0 (projected s0) (tenantOf (some 0)) k = 0 → exec c s = .next (acceptChange k (some 0) s0))))) ∧
      (∀ m, inputLen (mbxOf s0 0) = some m → m ≠ 0 → M.xaddr.toNat % 64 = 0 → ∃ t, exec c s = .next t ∧
        .hostRead ⟨0, M.xaddr.toNat, m, false⟩ (attrOf s 0 false) ∈ t.out ∧ (mbxOf t 0).result = none ∧ t.mg.changeQueue = [.mailbox 0] ∧
        t.cfg = s.cfg)) ∧
    (∀ k, coreNamed (d 8) = some k → f.val = 0 ∨ numAt (crashRecord s k) 4 1 = f.val →
      ((vat s.cores k).mode ≠ .locked → gives (.coreReset f 8) 0x22 8 (bare 0x0A)) ∧
      ((vat s.cores k).mode = .locked → ∃ t, exec (.coreReset f 8) s = .next t ∧ (vat t.cores k).mode = .idle ∧
        (vat t.cores k).lockedAt = none ∧ (∀ j < 136, j ≠ k → vat t.cores j = vat s.cores j) ∧
        (mbxOf t f.val).result = some (0, []))) ∧
    (f.val = 0 → numAt (d 8) 0 1 ≤ 63 → (vat s.funcs (numAt (d 8) 0 1)).pci.en = true → bit (numAt (d 8) 1 1) 0 = true →
      ∃ t, exec (.funcCtl f 8) s = .next t ∧ (vat t.funcs (numAt (d 8) 0 1)).pci.disabled = false ∧
        (mbxOf t 0).result = some (0, [])) ∧
    (f.val = 0 → numAt (d 8) 0 1 ≤ 63 → numAt (d 8) 0 1 ≠ 0 → (vat s.funcs (numAt (d 8) 0 1)).pci.en = true →
      bit (numAt (d 8) 1 1) 0 = false → (vat s.funcs (numAt (d 8) 0 1)).pci.disabled = false →
      ∃ t, exec (.funcCtl f 8) s = .next t ∧ (vat t.funcs (numAt (d 8) 0 1)).pci.disabled = true ∧
        (vat t.funcs (numAt (d 8) 0 1)).resetting = true) ∧
    (f.val = 0 → (63 < numAt (d 8) 0 1 ∨ (vat s.funcs (numAt (d 8) 0 1)).pci.en = false) →
      gives (.funcCtl f 8) 0x23 8 (bare 0x0A)) ∧
    (f.val = 0 → stagingHeld s .bmc = true → numAt (d 8) 0 4 % 64 = 0 → numAt (d 8) 0 4 + M.xlen.toNat ≤ 100663296 →
      M.xaddr.toNat % 64 = 0 → gives (.imageStage f 8) 0x30 8 (bare 0x0A)) ∧
    (f.val = 0 → stagingHeld s .bmc = false → numAt (d 8) 0 4 % 64 = 0 → numAt (d 8) 0 4 + M.xlen.toNat ≤ 100663296 →
      M.xaddr.toNat % 64 = 0 → M.xlen.toNat ≠ 0 → ∃ t, exec (.imageStage f 8) s = .next t ∧ t.mg.staging = some .steward ∧
        .hostRead ⟨0, M.xaddr.toNat, M.xlen.toNat, false⟩ (attrOf s 0 false) ∈ t.out ∧ t.flash = s.flash ∧ (mbxOf t 0).result = none) ∧
    (f.val = 0 → let r := activate .steward s
      ∃ t, exec (.imageActivate f 0) s = .next t ∧ t.flash = r.2.flash ∧ t.mg = r.2.mg ∧
        (mbxOf t 0).result = some ((r.1.map fun d => (0, d)).getD (0x0A, []))) ∧
    (f.val = 0 → (∀ h ∈ s.tb.history, h.beat.toNat ≠ numAt (d 16) 0 8) → gives (.anchorSet f 16) 0x50 16 (bare 0x0A)) ∧
    (f.val = 0 → ∀ h, s.tb.history.find? (fun h => h.beat.toNat == numAt (d 16) 0 8) = some h →
      ∃ t a, exec (.anchorSet f 16) s = .next t ∧ t.tb.anchor = some a ∧ a.beat = h.beat ∧
        a.time = BitVec.ofNat 64 (numAt (d 16) 8 8) ∧ a.id ≠ 0 ∧ (mbxOf t 0).result = some (0, leBytes 4 a.id.toNat)) ∧
    (f.val = 0 → (highestCommitted s < numAt (d 8) 0 8 → gives (.collectAck f 8) 0x73 8 (bare 0x0A)) ∧
      (numAt (d 8) 0 8 ≤ highestCommitted s → numAt (d 8) 0 8 < s.led.collected → gives (.collectAck f 8) 0x73 8 (bare 0)) ∧
      (numAt (d 8) 0 8 ≤ highestCommitted s → s.led.collected ≤ numAt (d 8) 0 8 → ∃ t, exec (.collectAck f 8) s = .next t ∧
        t.led = { s.led with collected := numAt (d 8) 0 8 } ∧ (mbxOf t 0).result = some (0, []))) ∧
    (∀ (c : Instr) (op : Nat), goRow c = some (op, f.val, 16) → 0x60 ≤ op → op ≤ 0x63 → (op ≠ 0x63 → f.val = 0) →
      gives c op 16 (if ringOk s f.val op (ringDesc (d 16)) then bare 0 else invalid ckRange))

/-- R837 to R843, R849, Tables 22-6 and 22-7: what the BMC's requests do on an endpoint that is on, and that an endpoint that is
off answers none. The completion codes and the forms of the responses are those of PLDM (PRESUMED, log 44); the bytes of a PDR
are left open (log 7). -/
def Obligations.EndpointsServeTheBmc : Prop :=
  ∀ (s : State) (e : Fin 2),
    (bmcOn s e.val = false → ∀ c : Instr, c ∈ [.requestUpdate e, .verifyComplete e, .activateFirmware e] ∨
      (∃ x, c = .setEndpointId e x) ∨ (∃ x, c = .getSensorReading e x) ∨ (∃ x, c = .getStateSensorReadings e x) ∨
      (∃ x, c = .getPdr e x) ∨ (∃ o b, c = .requestFirmwareData e o b) ∨ (∃ v o p i, c = .pldmOemRequest e v o p i) ∨
      (∃ d b o, c = .regRead e d b o) → exec c s = .next s) ∧
    (bmcOn s e.val = true →
      let sends (c : Instr) (bytes : List Byte) (t : State) : Prop := exec c s = .next (emit (.bmc e.val bytes) t)
      (∀ x, sends (.setEndpointId e x) (leBytes 1 0) { s with mg := { s.mg with eid := x } }) ∧
      sends (.getSensorReading e 1) (leBytes 1 0 ++ leBytes 8 s.led.powerMw.toNat) s ∧
      sends (.getSensorReading e 2) (leBytes 1 0 ++ leBytes 8 s.pmc.vin.toNat) s ∧
      sends (.getSensorReading e 3) (leBytes 1 0 ++ leBytes 8 (s.led.energy.toNat / 1000000)) s ∧
      (∀ i : Fin 20, sends (.getSensorReading e (BitVec.ofNat 16 (16 + i.val))) (leBytes 1 0 ++ leBytes 8 (vat s.pmc.temps i.val))
        s) ∧
      sends (.getStateSensorReadings e 0x30) (leBytes 1 0 ++ leBytes 1 (stateCode s.sys.state)) s ∧
      sends (.getStateSensorReadings e 0x31) (leBytes 1 0 ++ leBytes 1 (trkCode s.tb.trk)) s ∧
      (∀ h, sends (.getPdr e h) (leBytes 1 0 ++ Config.pdr h.toNat) s) ∧
      (stagingHeld s .steward = true ∨ stagingHeld s .bmc = true → sends (.requestUpdate e) (leBytes 1 0x81) s) ∧
      (stagingHeld s .steward = false → stagingHeld s .bmc = false → ∃ t, sends (.requestUpdate e) (leBytes 1 0) t ∧
        t.mg.staging = some .bmc ∧ t.mg.parts = [] ∧ stagingHeld t .bmc = true ∧ t.flash = s.flash ∧ t.funcs = s.funcs) ∧
      (stagingHeld s .bmc = true → ∀ off bytes, bytes.length = 1024 → off.toNat % 1024 = 0 → off.toNat + 1024 ≤ 100663296 →
        ∃ t, sends (.requestFirmwareData e off bytes) (leBytes 1 0) t ∧ vat t.flash 0 = vat s.flash 0 ∧
          (∀ i < 1024, (vat t.flash 1).slot[off.toNat + i]? = bytes[i]?) ∧
          (∀ i, i < off.toNat ∨ off.toNat + 1024 ≤ i → i < (vat s.flash 1).slot.length →
            (vat t.flash 1).slot[i]? = (vat s.flash 1).slot[i]?) ∧ t.mg.parts = s.mg.parts ++ [(off.toNat, 1024)]) ∧
      (stagingHeld s .bmc = true →
        sends (.verifyComplete e) (leBytes 1 0 ++ leBytes 1 (checkSlot s (vat s.flash 1)).1)
          { s with mg := { s.mg with verified := (checkSlot s (vat s.flash 1)).1 == 0 } } ∧
        (let r := activate .bmc s
         sends (.activateFirmware e) (leBytes 1 (if r.1.isSome then 0 else 2)) r.2 ∧
           (∀ d, r.1 = some d → (vat r.2.flash 0).slot = (vat s.flash 1).slot ∧ r.2.mg.staging = none ∧
             d = sha256 (slotBytes (vat r.2.flash 0) 0 (numAt (slotBytes (vat s.flash 1) 0 256) 0x10 4))))) ∧
      (vat s.mg.oemBusy e.val = true → (∀ v o p i, sends (.pldmOemRequest e v o p i) (leBytes 1 4) s) ∧
        ∀ d b o, sends (.regRead e d b o) (leBytes 1 4) s) ∧
      (vat s.mg.oemBusy e.val = false →
        let keeps (c : Instr) (status : BitVec 8) (out : List Byte) : Prop := ∃ t, exec c s = .next t ∧
          vat t.mg.oemBusy e.val = true ∧ vat t.mg.oem e.val = some (status, out)
        (∀ o (p : BitVec 32) i, p ≠ 0 → ∀ status out, vat s.mg.oem e.val = some (status, out) →
          sends (.pldmOemRequest e 0x1E71 o p i)
            (leBytes 1 0 ++ (leBytes 1 status.toNat ++ leBytes 4 out.length ++ (out.drop p.toNat).take 1024)) s) ∧
        (∀ (o : BitVec 16) i, oemAllowed o.toNat = false → keeps (.pldmOemRequest e 0x1E71 o 0 i) 0x06 []) ∧
        keeps (.pldmOemRequest e 0x1E71 2 0 []) 0 (leBytes 4 s.cfg.cur.gen ++ leBytes 4 s.cfg.changes.length) ∧
        keeps (.pldmOemRequest e 0x1E71 0x41 0 []) 0 ((vat s.flash 0).cert.take 2048) ∧
        (∀ (d b : BitVec 8) o, d ≠ 0x13 ∨ bmcBlock b.toNat = false → keeps (.regRead e d b o) 0x06 []) ∧
        (∀ (b : BitVec 8) (o : BitVec 16), bmcBlock b.toNat = true → o.toNat % 8 = 0 →
          keeps (.regRead e 0x13 b o) 0 (leBytes 8 (regRead s 0x13 b.toNat o.toNat))))) ∧
    ((s.mg.staging.isSome = true ∧ s.mg.lastPart + 60 * second ≤ clkOf s → exec .stagingTimeout s =
        .next { s with mg := { s.mg with staging := none, parts := [], verified := false } }) ∧
      (s.mg.staging = none ∨ clkOf s < s.mg.lastPart + 60 * second → exec .stagingTimeout s = .next s))

/-- R101, R105, R303, R304, R622 to R628, R804 to R808: the windows that close at a tick. At the edge of that tick the usage of
the QoS window and the load counts of the beat are set aside, and those that follow count from zero. Then the QoS window
rewrites its records and computes the factors of the next; the load counts close, each live crib takes its slice's array of
them; the counter dump forms, keeps and numbers its record and opens the next interval. R677 to R680, R689, R700
to R702, R705: the meter adds the energy of each microsecond, a gap sample that of the last good one, and METER_FAULT reports
10 ms without a good sample; EPOCH_CLOSE puts a record of the epoch aside and opens the next; EPOCH_SIGNED chains, signs and
journals the oldest record, and lets a signature be tried a second time. -/
def Obligations.RegulationAndEnergyAccount : Prop :=
   (∀ s : State,
      (qosDue s = true → ∃ t, exec .qosWindowClose s = .next t ∧ t.qos.openPos = posOf s ∧ t.qos.fact = factorsNow s ∧
        t.qos.recs = (List.range 32).map (fun i => qosRecord (vat s.qos.closing i) (decide (16 ≤ i))) ∧
        (∀ i < 32, (vat t.qos.usage i).n = (vat s.qos.usage i).n ∧ (vat t.qos.usage i).used = (vat s.qos.usage i).used) ∧
        qosDue t = false ∧ t.stolon = s.stolon ∧ t.mem = s.mem ∧ t.cmds = s.cmds ∧ t.sys = s.sys) ∧
      (s.pending = [] → inService s = true → s.tb.tick ≠ 0xFFFF → (s.tb.tick.toNat + 1) % 4096 = 0 → ∃ t, step s = .next t ∧
        t.qos.closing = s.qos.usage ∧ t.stolon.windowBytes = 0 ∧ t.stolon.batch = s.stolon.batch ∧
        ∀ i < 32, (vat t.qos.usage i).n = (vat s.qos.usage i).n ∧ ∀ r < 5, vat (vat t.qos.usage i).used r = 0) ∧
      (inService s = true → s.tb.tick = 0xFFFF → ∃ t, exec .beatBoundary s = .next t ∧ t.qos.closing = s.qos.usage ∧
        t.cfg.cur = { s.cfg.cur with tables := s.cfg.cur.tables.map fun T => { T with shards := T.shards.map fun sh =>
          { sh with closing := sh.load, load := [] } } } ∧
        (∀ e ∈ t.stolon.lift, e.hits = 0) ∧ ∀ k < 17, (vat t.slices k).chLatch = (vat s.slices k).chNow) ∧
      (loadDue s = true → qosDue s = false → ∃ t, exec .loadCountClose s = .next t ∧
        t.cfg.cur = mapShards (closeShard s.cfg.cur.migration ((liveData s).headD 16)) s.cfg.cur ∧
        (∀ k < 16, sliceLive s k = true → (vat t.slices k).closedBeat = BitVec.ofNat 32 (s.tb.beat.toNat - 1) ∧
          (vat t.slices k).ch = (vat s.slices k).chLatch.map (BitVec.ofNat 48 ·)) ∧
        loadDue t = false ∧ t.stolon = s.stolon ∧
        t.mem = ((liveData s).foldl (fun s k => daPoke s (cribDa k closedBase) (closedArray s.cfg.cur k)) s).mem ∧
        t.sys = s.sys ∧ t.cmds = s.cmds) ∧
      (beforeEpoch s = true → epochDue s = false → dumpDue s = true → ∃ t bytes, exec .counterDump s = .next t ∧
        bytes.length = 16384 ∧ t.cnt.dumps = (bytes :: s.cnt.dumps).take 4 ∧ t.cnt.dumpSeq = s.cnt.dumpSeq + 1 ∧
        t.cnt.dumpOpen = posOf s ∧ t.cnt.dumpLeft = s.image.dumpBeats ∧ t.mem = s.mem ∧ t.cmds = s.cmds ∧ t.sys = s.sys ∧
        (ringRoom s.cnt.dump = true → mayIssue s 0 = true →
          .hostWrite 0 (s.cnt.dump.addr.toNat + 16384 * s.cnt.dump.tail) bytes (attrOf s 0 false) ∈ t.out ∧
          t.cnt.dumpLost = 0) ∧
        (ringRoom s.cnt.dump = false → t.cnt.dumpLost = s.cnt.dumpLost + 1))) ∧
   (∀ s : State,
      (∀ mv ma, s.sys.state ≠ .cold → ∃ t, exec (.meterSample mv ma true) s = .next t ∧
        t.led.meterPj = s.led.meterPj + mv * ma ∧ t.led.lastSample = (mv, ma) ∧ t.led.sinceGood = 0 ∧
        t.led.energy = s.led.energy + BitVec.ofNat 64 ((s.led.fracPj + mv * ma) / 1000) ∧
        t.led.fracPj = (s.led.fracPj + mv * ma) % 1000 ∧ t.led.gaps = s.led.gaps ∧ t.sys = s.sys ∧ t.mem = s.mem ∧
        t.cmds = s.cmds) ∧
      (∀ mv ma, s.sys.state ≠ .cold → ∃ t, exec (.meterSample mv ma false) s = .next t ∧
        t.led.meterPj = s.led.meterPj + s.led.lastSample.1 * s.led.lastSample.2 ∧ t.led.lastSample = s.led.lastSample ∧
        t.led.gapEv = true ∧ t.led.gaps = sat16 s.led.gaps ∧ t.led.epochGaps = s.led.epochGaps + 1 ∧ t.sys = s.sys ∧
        t.mem = s.mem ∧ t.cmds = s.cmds) ∧
      (s.sys.state ≠ .cold → s.led.sinceGood = 10000 → exec .meterFault s = .next (raiseEvent evMeterFault (source dieC 2) 0
        { s with led := { s.led with sinceGood := 10001 } })) ∧
      (beforeEpoch s = true → epochDue s = true → ∃ t e, exec .epochClose s = .next t ∧ t.led.closed = s.led.closed ++ [e] ∧
        e.num = s.led.epoch ∧ e.fails = 0 ∧ e.summaries.length = 64 ∧ t.led.isOpen = true ∧ t.led.epoch = s.led.epoch + 1 ∧
        t.led.openPos = posOf s ∧ t.led.cut = none ∧
        (s.led.cut = none → t.led.meterPj = 0 ∧ t.led.receipts = [] ∧ t.led.house < 2 ^ 32) ∧
        (s.led.cut.isSome = true → t.led.meterPj = s.led.meterPj ∧ t.led.receipts = s.led.receipts ∧
          t.led.house = s.led.house) ∧ t.mem = s.mem ∧ t.sys = s.sys ∧ t.cmds.map (fun c => (c.uid, c.phase, c.status)) = s.cmds.map (fun c => (c.uid, c.phase, c.status))) ∧
      (∀ e rest, s.led.closed = e :: rest → s.sys.state ≠ .halt → s.sys.state ≠ .cold →
        (s.sys.powerFailing = false → ∃ t, exec (.epochSigned true) s = .next t ∧ t.led.closed = rest ∧
          t.led.prevDigest = some (sha256 (signedRecord s e.body)) ∧ t.led.retained =
            ((e.num, e.summaries, signedRecord s e.body) :: s.led.retained).take 256 ∧ t.mem = s.mem ∧ t.cmds = s.cmds) ∧
        (e.fails = 0 → exec (.epochSigned false) s = .next { s with led := { s.led with
          closed := { e with fails := 1 } :: rest } }) ∧
        (e.fails ≠ 0 → ∃ t, exec (.epochSigned false) s = .next t ∧ t.led.broken = true ∧
          (s.sys.powerFailing = false → t.sys.state = .halt))))

/-- R104, R307 to R311, R314: STOLON_DECISION, once in a beat, empties the candidate table, adds as many lifts as LIFT_PER_BEAT
allows at most to those due, and evicts nothing that is frozen; with no lifted rows and AUTO_MOVE clear that is all it does.
EVICTION removes the oldest decided entry from the lift table. R312, R319 to R323, R331: MOVE_BATCH_START takes the next batch
within MOVE_RATE; MOVE_BATCH_ACK within 2 µs copies its rows, a lift's entries come into use, and a shard move's cursor passes
them, and later abandons the batch as MOVE_BATCH_TIMEOUT does, which lets it be tried once more, before any other. -/
def Obligations.LiftsAndMovesGoOn : Prop :=
   (∀ s : State,
      (inService s = true → s.tb.tick = 32768 → liveData s ≠ [] →
        (s.stolon.decided = some s.tb.beat.toNat → exec .stolonDecision s = .next s) ∧
        (s.stolon.decided ≠ some s.tb.beat.toNat → ∃ t, exec .stolonDecision s = .next t ∧
          t.stolon.candidates = [] ∧ t.stolon.newLeader = false ∧ t.stolon.decided = some s.tb.beat.toNat ∧
          t.stolon.lift = s.stolon.lift ∧ t.stolon.batch = s.stolon.batch ∧
          t.stolon.liftsDue.length ≤ s.stolon.liftsDue.length + s.cfg.cur.migration.liftPerBeat ∧
          (s.image.carve.liftBytes = 0 → t.stolon.evictions = s.stolon.evictions ∧ t.stolon.liftsDue = s.stolon.liftsDue) ∧
          t.sys = s.sys ∧ t.mem = s.mem ∧ t.cmds = s.cmds)) ∧
      (∀ b w rest, s.stolon.evictions = (b, w) :: rest → ∃ t, exec .eviction s = .next t ∧ t.stolon.evictions = rest ∧
        (∀ e ∈ t.stolon.lift, ¬ (e.bucket = b ∧ e.way = w)) ∧
        (∀ e ∈ s.stolon.lift, ¬ (e.bucket = b ∧ e.way = w) → e ∈ t.stolon.lift) ∧ t.sys = s.sys ∧ t.mem = s.mem ∧
        t.cmds = s.cmds)) ∧
   (∀ s : State, inService s = true →
      (∀ k, s.stolon.batch = none → liveData s ≠ [] → nextBatch s = some k →
        (∀ x ∈ batchRows s k, rowBusy s x.1 x.2 = false) →
        s.stolon.windowBytes + sourceBytes k s ≤ windowCap s → ∃ t, exec .moveBatchStart s = .next t ∧
          t.stolon.batch = some { what := k, retried := s.stolon.stalled.isSome, since := clkOf s } ∧
          t.stolon.stalled = none ∧ t.stolon.windowBytes = s.stolon.windowBytes + sourceBytes k s ∧ t.sys = s.sys ∧
          t.mem = s.mem ∧ t.cmds = s.cmds) ∧
      (∀ b keys, s.stolon.batch = some b → b.what = .lift keys → batchPossible s b.what = true →
        clkOf s ≤ b.since + 2 * usec → ∃ t, exec .moveBatchAck s = .next t ∧ t.stolon.batch = none ∧
          t.stolon.liftsDue = s.stolon.liftsDue ∧ t.stolon.lift.map (fun e => (e.bucket, e.way, e.table, e.row)) =
            s.stolon.lift.map (fun e => (e.bucket, e.way, e.table, e.row)) ∧
          (∀ e ∈ t.stolon.lift, (e.table, e.row) ∈ keys → e.frozen = false) ∧ t.sys = s.sys) ∧
      (∀ b m table shard first n T, s.stolon.batch = some b → b.what = .shard table shard first n → s.stolon.move = some m →
        tableOf s.cfg.cur table = some T → first + n < shardRows T.rows shard → batchPossible s b.what = true →
        clkOf s ≤ b.since + 2 * usec → ∃ t, exec .moveBatchAck s = .next t ∧ t.stolon.batch = none ∧
          t.stolon.move = some { m with cursor := first + n, staged := false } ∧ t.sys = s.sys) ∧
      (∀ b, s.stolon.batch = some b → b.since + 2 * usec < clkOf s → exec .moveBatchAck s = exec .moveBatchTimeout s) ∧
      (∀ b, s.stolon.batch = some b → b.retried = false → ∃ t, exec .moveBatchTimeout s = .next t ∧ t.stolon.batch = none ∧
        t.stolon.stalled = some b.what ∧ nextBatch t = some b.what ∧ t.stolon.move = s.stolon.move ∧ t.mem = s.mem ∧
        t.sys = s.sys))

/-- R191, R195: SHARD_ZERO_DONE zeroes the extent of the next FRESH shard of the live generations and clears FRESH; SHARD_PARITY_DONE writes the parity of
the next shard of a table that becomes protected and keeps it from then on. -/
def Obligations.ShardsAreMadeReady : Prop :=
  ∀ s : State, inService s = true →
    (∀ x T, nextFresh s = some x → (liveTables s).find? (·.id == x.1) = some T → ∃ t, exec .shardZeroDone s = .next t ∧
      (∀ T' ∈ liveTables t, T'.id = x.1 → ∀ sh, T'.shards[x.2]? = some sh → sh.fresh = false) ∧
      (let sh := nth T.shards x.2 noShard
       ∀ j < shardExtent T sh.tier x.2,
        (sh.tier = .stack → ∀ k < 17, sliceLive s k = true → (k ≠ 16 ∨ T.husk = true) →
          memRead1 t.mem (stackDa k (sh.base * 65536) + j) = 0) ∧
        (sh.tier = .ddr → memRead1 t.mem (regionBase 4 + sh.base * 65536 + j) = 0) ∧
        (sh.tier = .cxl → memRead1 t.mem (regionBase 5 + sh.base * 65536 + j) = 0)) ∧
      t.sys = s.sys ∧ t.cmds = s.cmds ∧ t.cores = s.cores) ∧
    (∀ T i, parityShard s = some (T, i) → halfApplied s T i = false → (liveData s).length = 16 → sliceLive s 16 = true →
      ∃ t, exec .shardParityDone s = .next t ∧
        (∀ T' ∈ t.cfg.cur.tables, T'.id = T.id → ∀ sh, T'.shards[i]? = some sh → sh.parity = true) ∧
        (let sh := nth T.shards i noShard
         t.mem = (if sh.fresh then zeroRange (stackDa 16 (sh.base * 65536)) (shardExtent T .stack i) s
           else xorExtents (sh.base * 65536) (shardExtent T .stack i) s).mem) ∧ t.sys = s.sys ∧
        t.cmds = s.cmds ∧ t.cores = s.cores)

/-- R159 to R165, R204, R318, R334: GEN_FLIP at a boundary where one is due brings a generation into force with the next number,
its default-row records laid out anew where a DEFAULT table comes or goes, the one before it staying live while commands of it
remain; a shard that arrives without S16 has no parity; a rollback that is committed brings back the last completed
configuration.
CHANGE_ROLLBACK decides a rollback of a change that has had 64 beats; ROLLBACK_FORCE_END ends the kernels that block one. -/
def Obligations.GenerationsFlip : Prop :=
  ∀ s : State,
    (∀ r b, flipDue s = true → windowsClosed s = true → s.cfg.rollback = some (r, b, true) →
      ∃ t, exec .genFlip s = .next t ∧
        t.cfg.cur = withoutHusk { settleDefaults s s.cfg.base with gen := s.cfg.cur.gen + 1 } ∧
        t.cfg.base = t.cfg.cur ∧ t.cfg.rollback = none ∧ t.stolon.move = none ∧ t.sys = s.sys ∧ t.cmds = s.cmds ∧
        t.mem = (writeDefaults s.cfg.cur { s with cfg := t.cfg }).mem ∧
        (t.cfg.old = none ∨ t.cfg.old = some s.cfg.cur)) ∧
    (∀ ch rest, flipDue s = true → windowsClosed s = true → s.cfg.rollback = none → s.cfg.changes = ch :: rest →
      ∀ dst, flipDst s ch = some dst → ∃ t, exec .genFlip s = .next t ∧ t.cfg.cur.gen = s.cfg.cur.gen + 1 ∧
        (sliceLive s 16 = true ∨ (∀ T i x, ch.kind ≠ .shardMove T i x) → (t.cfg.old = none ∨ t.cfg.old = some s.cfg.cur) ∧
          (let c := { settleDefaults s (stepCfg ch.kind ch.steps dst s.cfg.cur) with gen := s.cfg.cur.gen + 1 }
           t.cfg.cur = (if ch.steps + 1 < changeSteps s.cfg.base ch.kind then c else withoutHusk c))) ∧
        (∀ id i x, ch.kind = .shardMove id i x → ch.steps = 1 → sliceLive s 16 = false →
          ∀ T ∈ t.cfg.cur.tables, T.id = id → ∀ sh, T.shards[i]? = some sh → sh.parity = false) ∧
        t.sys = s.sys ∧ t.cmds = s.cmds ∧
        (ch.steps + 1 < changeSteps s.cfg.base ch.kind → t.cfg.base = s.cfg.base ∧ t.cfg.changes.length = rest.length + 1) ∧
        (changeSteps s.cfg.base ch.kind ≤ ch.steps + 1 → t.cfg.base = t.cfg.cur ∧ t.cfg.changes.length = rest.length)) ∧
    (inService s = true → changeLate s = true → flipDue s = false → ∃ t, exec .changeRollback s = .next t ∧
      t.cfg.rollback = some (.timeout, s.tb.beat.toNat, false) ∧ t.cfg.cur = s.cfg.cur ∧ t.cfg.changes = s.cfg.changes ∧
      t.sys = s.sys ∧ t.mem = s.mem ∧ t.cmds = s.cmds) ∧
    (inService s = true → ∃ t, exec .rollbackForceEnd s = .next t ∧ ∀ u ∈ forcedKernels s, ∀ k < 136,
      (∀ w ∈ (vat t.cores k).queue, isLaunchOf u w = false) ∧
      ((vat s.cores k).launch.map (·.cmd) = some u → (vat s.cores k).mode = .kernel → (vat t.cores k).abort.isSome = true))

/-- R141, R155, R156, R158, R167, R168: the record in progress is committed at the end of its regions, or its program fails, which
abandons it, puts its item and an ERROR record in front of what waits and makes compaction due; a background erase ends with
the region erased, or with the region failed; compaction starts with REGION_OPEN under the next number; the switch commits
SNAPSHOT_END, makes the new region active and erases the old one. -/
def Obligations.TheJournalIsWritten : Prop :=
  ∀ s : State,
    let o := otherRegion s
    (∀ r, s.jr.writing = some r → writerOn s = true → ∃ t, exec .journalRecordCommit s = .next t ∧
      (∀ i < 2, (vat t.jr.regions i).recs = (if (recordTargets s r).contains i then
        (vat s.jr.regions i).recs ++ [sealRec (regionNo s i) r] else (vat s.jr.regions i).recs)) ∧
      t.jr.active = s.jr.active ∧ t.sys = s.sys ∧ t.mem = s.mem ∧ t.cmds = s.cmds) ∧
    (∀ r, s.jr.writing = some r → writerOn s = true → (recordTargets s r).contains s.jr.active.val = true →
      (vat s.jr.regions o).failed = false → ∃ t, exec .journalProgramFail s = .next t ∧
        (activeRegion t).failed = true ∧ (activeRegion t).recs = (activeRegion s).recs ++ [tornRec (activeRegion s).number r] ∧
        (s.jr.compaction = .none → t.jr.compaction = .due (posOf s)) ∧ t.jr.active = s.jr.active ∧
        t.sys = s.sys ∧ t.mem = s.mem ∧ t.cmds = s.cmds) ∧
    ((vat s.jr.regions o).erasing = true → ∃ t, exec .journalEraseDone s = .next t ∧ vat t.jr.regions o = resetRegion ∧
      t.sys = s.sys ∧ t.mem = s.mem ∧ t.cmds = s.cmds) ∧
    ((vat s.jr.regions o).erasing = true → (activeRegion s).failed = false → ∃ t, exec .journalEraseFail s = .next t ∧
      (vat t.jr.regions o).erasing = false ∧ (vat t.jr.regions o).failed = true ∧ t.sys = s.sys ∧ t.mem = s.mem) ∧
    (compactionDue s = true → windowsClosed s = true → flipDue s = false → ∃ t, exec .compactionStart s = .next t ∧
      (vat t.jr.regions o).number = (activeRegion s).number + 1 ∧
      (∃ r, (vat t.jr.regions o).recs = (vat s.jr.regions o).recs ++ [r] ∧ goodRec r = true ∧
        r.body = .regionOpen ((activeRegion s).number + 1) (snapshotPoint s) ∧ r.seq = s.jr.nextSeq) ∧
      t.jr.active = s.jr.active ∧ t.sys = s.sys ∧ t.mem = s.mem ∧ t.cmds = s.cmds) ∧
    (switchDue s = true → windowsClosed s = true → flipDue s = false → s.sys.powerFailing = false →
      ∃ t, exec .journalRegionSwitch s = .next t ∧ t.jr.active.val = o ∧ (vat t.jr.regions s.jr.active.val).erasing = true ∧
        t.jr.compaction = .none ∧ (∃ r, (vat t.jr.regions o).recs = (vat s.jr.regions o).recs ++ [r] ∧ goodRec r = true ∧
          r.body = .snapshotEnd (snapCount (vat s.jr.regions o))) ∧ t.sys = s.sys ∧ t.mem = s.mem ∧ t.cmds = s.cmds)

/-- R58, R196, R240, R241, R244, R246: what reaches a lookup while its rows are gathered. FAR_ROW_ARRIVAL brings a far row
whole, once for each index, or its poison, which ends the lookup; SLICE_RESULT_ARRIVAL brings the segment of a slice
position's next output row to a command that the position's Thresher keeps active, unless a row of the segment is poisoned;
RECONSTRUCTION_PACKET, in its turn, takes a slice's home record along to the next live slice, and at S16 leaves the rebuilt
record of the row. -/
def Obligations.RowsArrive : Prop :=
  ∀ s : State,
    (∀ u row c T, cmdOf s u = some c → tableFor s c (cmdTable c) = some T → c.checked = true → c.phase ≠ .ended →
      row < T.rows → isFar (shardOf T row) = true → (shardOf T row).fresh = false →
      (isLookup c = true ∨ farRow c (farChunk s c) row = none) → farReady s c T row = true →
      let da := segDa T (shardOf T row) row 0
      (poisoned s da (16 * T.segStride) = false → ∃ t, exec (.farRowArrival u row) s = .next t ∧
        t.mem = s.mem ∧ t.sys = s.sys ∧ ∃ x ∈ t.cmds, x.uid = u ∧ x.phase = c.phase ∧
          x.far = (row, farChunk s c, daRead s da (16 * T.segStride)) :: c.far) ∧
      (poisoned s da (16 * T.segStride) = true → isLookup c = true → ∃ t, exec (.farRowArrival u row) s = .next t ∧
        t.mem = s.mem ∧ t.sys = s.sys ∧ ∃ x ∈ t.cmds, x.uid = u ∧ x.phase = .ended ∧ x.status = 0x22)) ∧
    (∀ u (p : Fin 16) c T recs, cmdOf s u = some c → tableFor s c (cmdTable c) = some T → activeAt s c p = true →
      (∀ w ∈ c.wants, w.ats = false) → rowRecords s c T (nth c.sent p 0) p = some recs →
      let bad := (rowEntries c (nth c.sent p 0)).any fun x => sourcePoisoned s T x.1 p (server s p)
      (bad = false → ∃ t, exec (.sliceResultArrival u p) s = .next t ∧ t.sys = s.sys ∧
        ∃ x ∈ t.cmds, x.uid = u ∧ x.sent = c.sent.modify p (· + 1)) ∧
      (bad = true → ∃ t, exec (.sliceResultArrival u p) s = .next t ∧ t.sys = s.sys ∧ t.mem = s.mem ∧
        ∃ x ∈ t.cmds, x.uid = u ∧ x.phase = .ended ∧ x.status = 0x22)) ∧
    (∀ i pk c T, s.ring.recons[i]? = some pk → cmdOf s pk.uid = some c → tableFor s c pk.table = some T →
      reconReady s pk = true → ringTurn s pk.next pk.arr = true →
      poisoned s (segDa T (shardOf T pk.row) pk.row pk.next) T.segStride = false →
      ∃ t, exec (.reconstructionPacket i) s = .next t ∧ t.mem = s.mem ∧ t.sys = s.sys ∧ cmdsBut t = cmdsBut s ∧
        (pk.next ≠ 16 → t.ring.recons = s.ring.recons.set i { pk with
          payload := xorBytes pk.payload (homeRecord s T pk.row pk.next), next := ringNext s pk.next, arr := s.ring.arrivals }) ∧
        (pk.next = 16 →
          (pk.uid, pk.chunk, T.id, pk.row, slice (xorBytes pk.payload (parityRecord s T pk.row)) 0 T.segStride) ∈ t.ring.rebuilt))

/-- R264, R265, R270, R277: a Flail's work. CHUNK_SORT sorts the next chunk of a slice and applies it next when the Flail is
free; on the lowest live data slice the home bridge is told, and asks the host for the gradient rows of the chunk, or reads
those of a list in device memory in the order of the sort; CHUNK_APPLY applies a row that is ready and stops at one that
must wait; ROW_REDUCTION_PACKET combines the values of the next served position, and afterwards brings the result to each.
-/
def Obligations.FlailsWork : Prop :=
  ∀ s : State,
    (∀ (k : Fin 17) p c j T, placeOf s k = some p → nextChunk s k = some (c, j) → (vat s.flails k).sorted = none →
      tableFor s c (cmdTable c) = some T → cmdOf s c.uid = some c → c.phase ≠ .discarded →
      let R := chunkRanges T c j
      let fetches : Prop := (liveData s).head? = some k.val ∧ isLoad c = false ∧ c.cutAt = none ∧
        entryBytes T c (j * chunkSize) = none
      (fetches → (∀ y ∈ R, onHost y.2 = true) ∨ ∀ y ∈ R, onHost y.2 = false ∧ poisoned s y.2.addr y.2.len = false ∧
        targetOffline s (.copy c.func) y.2.addr y.2.len = false) →
      ∃ t, exec (.chunkSort k) s = .next t ∧ t.mem = s.mem ∧ t.sys = s.sys ∧
        vat t.flails k = promoteChunk { vat s.flails k with
          sorted := some { uid := c.uid, chunk := j, keys := chunkKeys s T c j } } ∧
        (∀ q < 17, q ≠ k.val → vat t.flails q = vat s.flails q) ∧
        (fetches → (∀ y ∈ R, onHost y.2 = true) → asks t c.uid (R.map fun y => readOf c.func y.2)) ∧
        (fetches → (∀ y ∈ R, onHost y.2 = false) → ∃ x ∈ t.cmds, x.uid = c.uid ∧
          ∀ y ∈ R, (y.1, 0, daRead s y.2.addr y.2.len) ∈ x.arrived)) ∧
    (∀ (k : Fin 17) p x c T row row2 rest, placeOf s k = some p → (vat s.flails k).cur = some x → cmdOf s x.uid = some c →
      c.uid = x.uid → tableFor s c (cmdTable c) = some T →
      (rowsOf x.keys).drop (vat s.flails k).applied = row :: row2 :: rest →
      rowReady s c T x (vat s.flails (actor s p)) p row = true → rowFails s c T x row = false →
      (let s1 := applyRow c T x p row s
       ∀ c1, cmdOf s1 x.uid = some c1 → rowReady s1 c1 T x (vat s1.flails (actor s1 p)) p row2 = false) →
      actor s p = k.val → ∃ t, exec (.chunkApply k) s = .next t ∧ (vat t.flails k).applied = (vat s.flails k).applied + 1 ∧
        (vat t.flails k).cur = some x ∧ t.mem = (applyRow c T x p row s).mem ∧ t.sys = s.sys) ∧
    (∀ i pk, s.ring.reds[i]? = some pk → pk.total = true → pk.next ∈ positions s → pk.next ∉ pk.got → pk.range = false →
      ∃ t, exec (.rowReductionPacket i) s = .next t ∧ t.mem = s.mem ∧
        (vat t.flails (actor s pk.next)).reduced = (vat s.flails (actor s pk.next)).reduced ++ pk.vals) ∧
    (∀ i pk x c T vals n, s.ring.reds[i]? = some pk → pk.total = false → (vat s.flails (actor s pk.next)).cur = some x →
      cmdOf s pk.uid = some c → x.uid = pk.uid → x.chunk = pk.chunk → tableFor s c (cmdTable c) = some T →
      pk.vals.mapM (fun v => (reductionPart s c T (vat s.flails (actor s pk.next)) x pk.range pk.next v.1).map fun w =>
        (v.1, combine pk.range v.2 w)) = some vals → nextPlace s pk.next = some n →
      ∃ t, exec (.rowReductionPacket i) s = .next t ∧ t.mem = s.mem ∧ t.flails = s.flails ∧
        t.ring.reds[i]? = some { pk with vals := vals, next := n })

/-- R246, R283 to R286: the husk chain. HUSK_CHAIN_PACKET, in its turn, takes the delta of the slice it reaches along to the next, and at S16 is
folded in the order of CHAIN_SEQ; HUSK_ACK releases, on each live slice, the old records that it covers. -/
def Obligations.TheHuskChainMoves : Prop :=
  ∀ s : State,
    (∀ i pk d dd, s.ring.chain[i]? = some pk → pk.next ≠ 16 → pk.payload = some d → deltaFor s pk pk.next = some dd →
      ringTurn s pk.next pk.arr = true → ∃ t, exec (.huskChainPacket i) s = .next t ∧ t.ring.folded = s.ring.folded ∧
        (updQueue s = [] → t.mem = s.mem ∧ cmdsBut t = cmdsBut s) ∧ t.ring.chain = s.ring.chain.set i { pk with
          payload := some (xorBytes d dd), next := ringNext s pk.next, arr := s.ring.arrivals }) ∧
    (∀ i pk, s.ring.chain[i]? = some pk → pk.next = 16 → pk.seq = s.ring.folded + 1 → foldHeld s pk = false →
      s.recov.standin = none → ringTurn s 16 pk.arr = true → ∃ t, exec (.huskChainPacket i) s = .next t ∧
        t.ring.folded = pk.seq ∧ t.ring.chain = s.ring.chain.eraseIdx i ∧ (updQueue s = [] → cmdsBut t = cmdsBut s ∧
          t.mem = (foldParity pk ((deltaFor s pk 16).getD []) s).mem)) ∧
    (∀ i a, s.ring.acks[i]? = some a → a.next < 16 → ∃ t, exec (.huskAck i) s = .next t ∧
      (updQueue s = [] → t.mem = s.mem ∧ t.cmds = s.cmds) ∧ (∀ h ∈ (vat t.flails a.next).holds, h ∈ (vat s.flails a.next).holds ∧ seqLater h.seq a.seq = true) ∧
      (∀ n, (liveData s).find? (a.next < ·) = some n → t.ring.acks = s.ring.acks.set i { a with next := n }) ∧
      ((liveData s).find? (a.next < ·) = none → t.ring.acks = s.ring.acks.eraseIdx i ∧
        ∀ h ∈ t.ring.farHolds, seqLater h.seq a.seq = true))

/-- R393 to R395: SLICE_PARTIAL_FOLD merges the partials of a slice's cores in ascending order into the slice's; ATTN_MERGE_PACKET
passes on from a slice that holds nothing of its pair, and at one that does merges the slice's partial in before it goes on. -/
def Obligations.PartialsAreMerged : Prop :=
  ∀ s : State,
    (∀ u (e h : Fin 4096) (k : Fin 16) c d p ps, cmdOf s u = some c → kvFor s c = some d →
      corePartials s u e h k = p :: ps → ps.length + 1 = attnW c → 1 < (pairSlices c e h).length →
      ∃ t, exec (.slicePartialFold u e h k) s = .next t ∧ t.cmds = s.cmds ∧ t.mem = s.mem ∧
        { p with core := 8, parts := ps.foldl (fun a x => mergeRows a x.parts) p.parts } ∈ t.partials ∧
        corePartials t u e h k = []) ∧
    (∀ i m c d, s.ring.merges[i]? = some m → cmdOf s m.cmd = some c → kvFor s c = some d →
      (m.next ∉ pairSlices c m.entry m.head → ∃ t, exec (.attnMergePacket i) s = .next t ∧ t.mem = s.mem ∧
        cmdsBut t = cmdsBut s ∧ t.ring.merges = s.ring.merges.set i { m with next := nextPosition s m.next }) ∧
      (∀ p, m.next ∈ pairSlices c m.entry m.head → (pairSlices c m.entry m.head).getLast? ≠ some m.next →
        (∀ w ∈ c.wants, w.ats = false) → s.partials.find? (fun p => p.cmd == m.cmd && p.entry == m.entry && p.head == m.head
          && p.slice == m.next && p.core == 8) = some p → ∃ t, exec (.attnMergePacket i) s = .next t ∧ t.mem = s.mem ∧
          cmdsBut t = cmdsBut s ∧ t.ring.merges = s.ring.merges.set i { m with
            next := nextPosition s m.next, parts := mergeRows m.parts p.parts }))

/-- R29, R760 to R763, R767, Tables 20-7 and 20-8: a part that is there is declared lost with a cause of its kind: admission is
held, the recovery epoch is raised, the part is offline, RUN becomes DEGRADED, and a recovery of commands admitted before
waits for its cut. A part already lost, or a cause of another kind, changes nothing. The recovery cut clears HOLD, closes
every recovery, marks every enabled queue, and S16 stands in for a lone lost data slice. -/
def Obligations.PartsAreLostAndRecovered : Prop :=
  (∀ (s : State) (p : PartId) (cause : Nat), mayLose s = true → causeFits (partOf p).1 cause = true →
    partLive s (partOf p).1 (partOf p).2 = true →
    (∀ r ∈ s.recov.active, r.cutPos = none ∨ r.epoch ≠ (s.recov.epoch + 1).toNat) →
    ∃ t, exec (.partLoss p cause) s = .next t ∧ t.recov.hold = true ∧ t.recov.epoch = s.recov.epoch + 1 ∧
      t.recov.done = false ∧ partLive t (partOf p).1 (partOf p).2 = false ∧ t.sys.lossSeen = true ∧
      (∃ r ∈ t.recov.active, r.kind = (partOf p).1 ∧ r.num = (partOf p).2 ∧ r.cause = cause ∧
        r.epoch = (s.recov.epoch + 1).toNat ∧ r.lossPos = posOf s ∧ r.cutPos = none ∧
        ∀ x ∈ r.preLoss, ∃ c ∈ s.cmds, c.uid = x) ∧
      ((partOf p).1 ≠ .bridge → t.sys.state = (if s.sys.state = .run then .degraded else s.sys.state)) ∧
      ((partOf p).1 = .bridge → t.sys.state = (if s.sys.state = .run then .degraded else s.sys.state) ∨ t.sys.state = .halt) ∧
      (∀ k : Fin 17, (partOf p).1 ≠ .slice ∨ k.val ≠ (partOf p).2 → sliceLive t k.val = sliceLive s k.val) ∧
      ((partOf p).1 = .dimm ∨ (partOf p).1 = .expander → t.brg.map (·.offline) = s.brg.map (·.offline))) ∧
  (∀ (s : State) (p : PartId) (cause : Nat), causeFits (partOf p).1 cause = false ∨
    partLive s (partOf p).1 (partOf p).2 = false → exec (.partLoss p cause) s = .next s) ∧
  (∀ s : State, s.recov.hold = true → s.sys.state ≠ .halt → s.sys.state ≠ .cold → tickSettled s = true →
    ∃ t, exec .recoveryCut s = .next t ∧ t.recov.hold = false ∧ (∀ r ∈ t.recov.active, r.cutPos.isSome = true) ∧
      (∀ q < 256, (vat s.qs q).en = true → (vat t.qs q).en = true ∧ (vat t.qs q).rmark = true) ∧
      (∀ q < 256, (vat s.qs q).en = false → (vat t.qs q).rmark = (vat s.qs q).rmark) ∧
      (∀ k, lostData s = [k] → sliceLive s 16 = true → s.recov.huskLost = false → t.recov.standin = some k) ∧
      (lostData s = [] → t.recov.standin = none) ∧ t.sys = s.sys) ∧
  (∀ s : State, s.recov.hold = false → exec .recoveryCut s = .next s)

/-- R47, R48, R53, R77, R653: what a failing lane, module or segment does. A lane is repaired while the module, or the channel,
has a spare; a lost ring hop is detoured through B0, or B1 where a slice link to B0 is gone; a slice whose last module to a
bridge, or whose channel's last lane, fails is lost; dies that two failed segments cut off are lost. -/
def Obligations.LinksAreRepairedOrLost : Prop :=
  (∀ (s : State) (x : ModuleId), linksTraining s = true → moduleUp s x = true → ∃ t, exec (.linkRepair x) s = .next t ∧
    moduleUp t x = true ∧ t.mem = s.mem ∧ t.cmds = s.cmds ∧ t.slices = s.slices ∧ t.brg = s.brg ∧
    match x with
    | .sliceLink k b m => (vat (vat t.links.slice (2 * k.val + b.val)) m.val).repaired =
        (vat (vat s.links.slice (2 * k.val + b.val)) m.val).repaired + 1
    | .ringHop k => (vat t.links.ring k.val).repaired = (vat s.links.ring k.val).repaired + 1) ∧
  (∀ (s : State) (k : Fin 17), mayLose s = true → moduleUp s (.ringHop k) = true → ∃ t,
    exec (.linkDegraded (.ringHop k)) s = .next t ∧ moduleUp t (.ringHop k) = false ∧ t.sys = s.sys ∧ t.slices = s.slices ∧
    vat t.links.detour k.val =
      if sliceLinkUp s k.val 0 = true ∧ sliceLinkUp s ((k.val + 1) % 17) 0 = true then .viaB0 else .viaB1) ∧
  (∀ (s : State) (k : Fin 17) (b m m' : Fin 2), m ≠ m' → mayLose s = true → moduleUp s (.sliceLink k b m) = true → ∃ t,
    exec (.linkDegraded (.sliceLink k b m)) s = .next t ∧ moduleUp t (.sliceLink k b m) = false ∧
    (moduleUp s (.sliceLink k b m') = true → t.sys = s.sys ∧ t.slices = s.slices ∧ t.recov = s.recov) ∧
    (moduleUp s (.sliceLink k b m') = false → sliceLive s k.val = true → sliceLive t k.val = false ∧ t.recov.hold = true ∧
      t.recov.epoch = s.recov.epoch + 1)) ∧
  (∀ (s : State) (i : Fin 20), mayLose s = true → vat s.links.mgmt i.val = true → ∃ t,
    exec (.mgmtRingSegmentFail i) s = .next t ∧ vat t.links.mgmt i.val = false ∧
    ((∀ j < 20, vat s.links.mgmt j = true) → t.sys = s.sys ∧ t.slices = s.slices ∧ t.brg = s.brg ∧ t.recov = s.recov) ∧
    (t.sys.state ≠ .halt → (∃ j < 20, vat s.links.mgmt j = false) →
      (∀ k : Fin 17, dieReached t k.val = false → sliceLive t k.val = false) ∧
      (∀ b : Fin 2, dieReached t (dieB b.val) = false → (vat t.brg b.val).offline = true))) ∧
  (∀ (s : State) (k : Fin 17) (ch : Fin 16) (data : Bool), mayLose s = true → sliceLive s k.val = true →
    let left (s : State) : Nat := if data then vat (vat s.slices k.val).spareData ch.val else vat (vat s.slices k.val).spareCa ch.val
    ∃ t, exec (.laneRepair k ch data) s = .next t ∧
      (left s ≠ 0 → left t = left s - 1 ∧ sliceLive t k.val = true ∧ t.sys = s.sys ∧ t.mem = s.mem ∧ t.recov = s.recov) ∧
      (left s = 0 → sliceLive t k.val = false ∧ t.recov.hold = true ∧ t.recov.epoch = s.recov.epoch + 1))

/-- R649, R652, R662 to R664, R667, R668, R757, Tables 17-5, 17-7 and 17-8: what a patrol scrub and the event records of an
expander do. Every atom, and every access, is read in turn; a corrected one is counted in CE; an uncorrectable one is counted
in UE and marked with poison, but for an atom of a protected stack row, which is rebuilt; a part with more than 64 in a beat
is lost, and so are a stack whose reserved 2 KiB or save cells fail and an expander with a fatal error. -/
def Obligations.ErrorsAreCountedAndContained : Prop :=
  (∀ (s : State) (k : Fin 17), mayLose s = true → sliceLive s k.val = true →
    let off := (vat s.slices k.val).scrub
    let next := if off + 32 < 36000000000 then off + 32 else 0
    let moved := onSlice k.val (fun S => { S with scrub := next }) s
    exec (.patrolScrub (.stack k) .good) s = .next moved ∧
    exec (.patrolScrub (.stack k) .corrected) s = .next (onSlice k.val (fun S => { S with ce := sat16 S.ce }) moved) ∧
    ∃ t, exec (.patrolScrub (.stack k) .uncorrectable) s = .next t ∧ (vat t.slices k.val).scrub = next ∧
      (vat t.slices k.val).ue = sat16 (vat s.slices k.val).ue ∧
      (repairable s k.val off = false → reservedTop off = false →
        vat (vat s.slices k.val).ueBeat (channelOf off) < 64 → stackDa k.val off ∈ t.poison) ∧
      (repairable s k.val off = true → reservedTop off = false →
        vat (vat s.slices k.val).ueBeat (channelOf off) < 64 → t.poison = s.poison ∧ t.mem = s.mem) ∧
      (reservedTop off = false → vat (vat s.slices k.val).ueBeat (channelOf off) < 64 → sliceLive t k.val = true ∧
        t.sys = s.sys) ∧
      (reservedTop off = true ∨ 64 ≤ vat (vat s.slices k.val).ueBeat (channelOf off) → sliceLive t k.val = false ∧
        t.recov.hold = true)) ∧
  (∀ (s : State) (d : Fin 16), mayLose s = true → scrubLive s (.dimm d) = true →
    let a := (vat s.dimms d.val).scrub
    let next := if a + 64 < dimmBytes s then a + 64 else 0
    let moved : State := { s with dimms := vupd s.dimms d.val fun x => { x with scrub := next } }
    exec (.patrolScrub (.dimm d) .good) s = .next moved ∧
    exec (.patrolScrub (.dimm d) .corrected) s =
      .next { moved with dimms := vupd moved.dimms d.val fun x => { x with ce := sat16 x.ce } } ∧
    ∃ t, exec (.patrolScrub (.dimm d) .uncorrectable) s = .next t ∧ (vat t.dimms d.val).scrub = next ∧
      (vat t.dimms d.val).ue = sat16 (vat s.dimms d.val).ue ∧
      ((vat s.dimms d.val).ueBeat < 64 → dimmDa s d.val a ∈ t.poison ∧ (vat t.dimms d.val).lost = (vat s.dimms d.val).lost ∧ t.sys = s.sys) ∧
      (64 ≤ (vat s.dimms d.val).ueBeat → (vat t.dimms d.val).lost = true ∧ t.recov.hold = true)) ∧
  (∀ (s : State) (e : Fin 4), mayLose s = true → (vat s.brg (e.val / 2)).offline = false →
    partLive s .expander (4 + e.val) = true →
    exec (.cxlEventInterrupt e []) s = .next s ∧
    exec (.cxlEventInterrupt e [.corrected]) s =
      .next { s with cxl := vupd s.cxl e.val fun d => { d with ce := sat16 d.ce } } ∧
    (∀ a, a < cxlSpan s e.val → ∃ t, exec (.cxlEventInterrupt e [.uncorrectable a]) s = .next t ∧
      (vat t.cxl e.val).ue = sat16 (vat s.cxl e.val).ue ∧
      ((vat s.cxl e.val).ueBeat < 64 → regionBase 5 + cxlStart s e.val + a / 64 * 64 ∈ t.poison ∧ (vat t.cxl e.val).lost = false) ∧
      (64 ≤ (vat s.cxl e.val).ueBeat → (vat t.cxl e.val).lost = true)) ∧
    ∃ t, exec (.cxlEventInterrupt e [.fatal]) s = .next t ∧ (vat t.cxl e.val).lost = true ∧ t.recov.hold = true ∧
      t.recov.epoch = s.recov.epoch + 1)

/-- Section 12.5 (R451), R444 and R456: each INT operation of an issuing bundle writes the value that Table 12-5 gives, readable
one cycle later, MUL three, where no older result for the register lands after it; a result for g0 is discarded. -/
def Obligations.IntOperationsWriteTheirResult : Prop :=
  ∀ (s : State) (k : Fin 136) (slot : Fin 2) (c : Cmd) (ops : List Op) (o : Op),
    Issuing s k.val c ops → goesOn ops = true → o ∈ ops → o.slot = slot.val + 1 →
    let K := vat s.cores k.val
    let a := rdG K o.a
    let b := if o.immB then BitVec.ofInt 64 (o.signed 27) else rdG K o.b
    let n := b.toNat % 64
    let gives (i : Instr) (v : BitVec 64) (lat : Nat) : Prop :=
      ∃ t, exec i s = .next t ∧ (SettledBy K (.g o.d) (K.cycles + lat) → LandsG t k.val o.d v (K.cycles + lat))
    (o.code = 1 → gives (.opAdd k slot) (a + b) 1) ∧
    (o.code = 2 → gives (.opSub k slot) (a - b) 1) ∧
    (o.code = 3 → gives (.opAnd k slot) (a &&& b) 1) ∧
    (o.code = 4 → gives (.opOr k slot) (a ||| b) 1) ∧
    (o.code = 5 → gives (.opXor k slot) (a ^^^ b) 1) ∧
    (o.code = 6 → gives (.opShl k slot) (a <<< n) 1) ∧
    (o.code = 7 → gives (.opShr k slot) (a >>> n) 1) ∧
    (o.code = 8 → gives (.opSar k slot) (a.sshiftRight n) 1) ∧
    (o.code = 9 → gives (.opMul k slot) (a * b) 3) ∧
    (o.code = 10 → gives (.opCmpeq k slot) (if a = b then 1 else 0) 1) ∧
    (o.code = 11 → gives (.opCmplt k slot) (if a.toInt < b.toInt then 1 else 0) 1) ∧
    (o.code = 12 → gives (.opCmpltu k slot) (if a.toNat < b.toNat then 1 else 0) 1) ∧
    (o.code = 13 → gives (.opMovi k slot) (BitVec.ofInt 64 (o.signed 27)) 1)

/-- R452, R456: a load of an issuing bundle reads its 1, 2, 4, 8 or 64 bytes at g[A] plus the sign-extended X, zero-extended,
readable six cycles later (LDV eight), where no older result for the register lands after it. -/
def Obligations.LoadsReadTheCrib : Prop :=
  ∀ (s : State) (k : Fin 136) (slot : Fin 2) (c : Cmd) (ops : List Op) (o : Op),
    Issuing s k.val c ops → goesOn ops = true → o ∈ ops → o.slot = slot.val + 3 →
    let K := vat s.cores k.val
    let a := ((((rdG K o.a).toNat : Int) + o.signed 26) % 2 ^ 64).toNat
    let reads (i : Instr) (n : Nat) : Prop :=
      ∃ t, exec i s = .next t ∧ (SettledBy K (.g o.d) (K.cycles + 6) →
        LandsG t k.val o.d (BitVec.ofNat 64 (leNat (daRead s a n))) (K.cycles + 6))
    (o.code = 1 → reads (.opLd1 k slot) 1) ∧
    (o.code = 2 → reads (.opLd2 k slot) 2) ∧
    (o.code = 3 → reads (.opLd4 k slot) 4) ∧
    (o.code = 4 → reads (.opLd8 k slot) 8) ∧
    (o.code = 5 → ∃ t, exec (.opLdv k slot) s = .next t ∧ (SettledBy K (.v (o.d % 32)) (K.cycles + 8) →
      Lands t k.val (.v (o.d % 32)) (BitVec.ofNat 512 (leNat (daRead s a 64))) (K.cycles + 8)))

/-- R452, R456, R464: a store of an issuing bundle waits with its bytes at g[A] plus the sign-extended X until loads see it two
cycles later; a transfer joins the outstanding ones, and one that reads host memory sends its read (R63). R464, R465:
XFER_COMPLETE ends the oldest transfer of a core: a device source's bytes are written to its host or device destination, or
the data that the host answered with to its device destination; a core that had drained for END with no other transfer
outstanding leaves its kernel. -/
def Obligations.StoresAndTransfersAreIssued : Prop :=
   (∀ (s : State) (k : Fin 136) (slot : Fin 2) (c : Cmd) (ops : List Op) (o : Op),
      Issuing s k.val c ops → goesOn ops = true → o ∈ ops → o.slot = slot.val + 3 →
      let K := vat s.cores k.val
      let a := ((((rdG K o.a).toNat : Int) + o.signed 26) % 2 ^ 64).toNat
      let dev := (rdG K o.b).toNat
      let crib := (rdG K o.a).toNat
      let len := (rdG K o.d).toNat
      let stores (i : Instr) (bs : List Byte) : Prop :=
        ∃ t, exec i s = .next t ∧
          ((∀ x ∈ ops, x.cls ≠ .acc) → ({ addr := a, bytes := bs, due := K.cycles + 2 } : PendStore) ∈ (vat t.cores k.val).stores)
      let moves (i : Instr) (x : Xfer) : Prop :=
        ∃ t, exec i s = .next t ∧ x ∈ (vat t.cores k.val).xfers ∧ (∃ l, (vat t.cores k.val).xfers = K.xfers ++ l) ∧
          (x.src / 2 ^ 52 = 6 → .hostRead { func := c.func, addr := (hostOf x.src).2, len := len, ats := false }
            (attrOf s c.func false) ∈ t.out)
      (o.code = 6 → stores (.opSt1 k slot) (leBytes 1 (rdG K o.b).toNat)) ∧
      (o.code = 7 → stores (.opSt2 k slot) (leBytes 2 (rdG K o.b).toNat)) ∧
      (o.code = 8 → stores (.opSt4 k slot) (leBytes 4 (rdG K o.b).toNat)) ∧
      (o.code = 9 → stores (.opSt8 k slot) (leBytes 8 (rdG K o.b).toNat)) ∧
      (o.code = 10 → stores (.opStv k slot) (leBytes 64 (rdV K o.b).toNat)) ∧
      (o.code = 11 → moves (.opXferIn k slot) { src := dev, dst := crib, len := len }) ∧
      (o.code = 12 → moves (.opXferOut k slot) { src := crib, dst := dev, len := len })) ∧
   (∀ (s : State) (k : Fin 136) (x : Xfer) (xs : List Xfer) (r : HostReply) (bs : List Byte),
      let K := vat s.cores k.val
      K.xfers = x :: xs → xferBytes x r s = some bs → ¬ (x.src / 2 ^ 52 = 6 ∧ r = .granted) →
      (∀ c, coreCmd s k.val = some c → opcodeOf c.bytes = 0x60) →
      ∃ t, exec (.xferComplete k r) s = .next t ∧ (vat t.cores k.val).xfers = xs ∧
        (x.dst / 2 ^ 52 = 6 → K.mode ≠ .draining → t.out = (hostWrite (hostOf x.dst).1 (hostOf x.dst).2 bs s).out ∧ t.mem = s.mem) ∧
        (x.dst / 2 ^ 52 ≠ 6 → K.mode ≠ .draining → (daWrite s x.dst bs).1 = true → t.mem = (daWrite s x.dst bs).2.mem ∧ t.out = s.out) ∧
        (K.mode = .draining → K.drain = .endKernel → K.launch.isSome = true → xs = [] → x.dst / 2 ^ 52 = 6 → (vat t.cores k.val).mode = .idle) ∧
        (K.mode ≠ .draining → x.dst / 2 ^ 52 = 6 → (vat t.cores k.val).mode = K.mode))

/-- R453, R456: each VEC operation of an issuing bundle gives the value of Table 12-7 over its lanes, where no older result for the
register lands after it; the lanes of VCVT and VEXT that the table leaves open are free values of the operands (log 30). -/
def Obligations.VectorOperationsWriteTheirResult : Prop :=
  ∀ (s : State) (k : Fin 136) (slot : Fin 2) (c : Cmd) (ops : List Op) (o : Op) (ty : VType),
    Issuing s k.val c ops → goesOn ops = true → o ∈ ops → o.slot = slot.val + 5 → vtypeOf (bits o.w 26 3) = some ty →
    let K := vat s.cores k.val
    let sp := special s
    let a := rdV K o.a
    let b := rdV K o.b
    let d := rdV K o.d
    let fl := if isFloat ty then 4 else 2
    let gives (i : Instr) (v : V512) (lat : Nat) : Prop :=
      ∃ t, exec i s = .next t ∧ (SettledBy K (.v (o.d % 32)) (K.cycles + lat) →
        Lands t k.val (.v (o.d % 32)) v (K.cycles + lat))
    (o.code = 1 → gives (.opVadd k slot) (vAdd sp ty a b) fl) ∧
    (o.code = 2 → gives (.opVsub k slot) (vSub sp ty a b) fl) ∧
    (o.code = 3 → gives (.opVmul k slot) (vMul sp ty a b) fl) ∧
    (o.code = 4 → gives (.opVfma k slot) (vFma sp ty a b d) fl) ∧
    (o.code = 5 → gives (.opVmax k slot) (vMax sp ty a b) fl) ∧
    (o.code = 6 → gives (.opVmin k slot) (vMin sp ty a b) fl) ∧
    (o.code = 7 → gives (.opVdiv k slot) (vDiv sp ty a b) 12) ∧
    (o.code = 8 → gives (.opVsqrt k slot) (vSqrt sp ty a) 12) ∧
    (o.code = 9 → gives (.opVexp2 k slot) (vExp2 sp ty a) 12) ∧
    (o.code = 10 → ∀ to_, vtypeOf (bits o.w 29 3) = some to_ → gives (.opVcvt k slot) (vCvt sp ty to_ a) 4) ∧
    (o.code = 11 → gives (.opVand k slot) (a &&& b) 2) ∧
    (o.code = 12 → gives (.opVor k slot) (a ||| b) 2) ∧
    (o.code = 13 → gives (.opVxor k slot) (a ^^^ b) 2) ∧
    (o.code = 14 → gives (.opVbcast k slot) (vBcast ty (rdG K o.a)) 2) ∧
    (o.code = 15 → ∃ t, exec (.opVext k slot) s = .next t ∧ (SettledBy K (.g o.d) (K.cycles + 2) →
      LandsG t k.val o.d (vExt ty a (bits o.w 32 6)) (K.cycles + 2))) ∧
    (o.code = 16 → gives (.opVperm k slot) (vPerm ty a b) 6) ∧
    (o.code = 17 → gives (.opVredadd k slot) (vRedAdd sp ty a) 6) ∧
    (o.code = 18 → gives (.opVredmax k slot) (vRedMax sp ty a) 6)

/-- R417, R419, R431, R454, R455, R456: each ACC operation of an issuing bundle has the effect that Table 12-8 gives on the physical
slot it names, its result counted from the end of the bundle's wait for its slots; ACC.SAVE and ACC.RESTORE are taken alone in their bundle. -/
def Obligations.AccumulatorOperations : Prop :=
  ∀ (s : State) (k : Fin 136) (slot : Fin 2) (c : Cmd) (ops : List Op) (o : Op),
    Issuing s k.val c ops → goesOn ops = true → o ∈ ops → o.slot = slot.val + 6 → o.cls = .acc →
    let K := vat s.cores k.val
    let n := physSlot K o.back o.tile
    let tile := vat K.tiles n
    let kc := modeKc K.modeReg
    let strip := bits o.w 29 4
    let addr := (rdG K o.a).toNat
    let start := K.cycles + bundleWait K ops
    let alone := K.stores = [] ∧ ops.filter (·.cls != .nop) = [o]
    let sets (i : Instr) (x : Tile) : Prop := ∃ t, exec i s = .next t ∧ vat (vat t.cores k.val).tiles n = x
    (o.code = 0x80 → ∀ fa fb, macFmts o = some (fa, fb) →
      sets (.opAccMac k slot) (macTile (fun r => vat K.v r) kc (macFields o.w) (o.a % 32) (o.b % 32) fa fb tile)) ∧
    (o.code = 0x81 → sets (.opAccZero k slot) (tileOverwrite (bit o.w 29) kc (bits o.w 30 3))) ∧
    (o.code = 0x82 → ∃ t, exec (.opAccRds k slot) s = .next t ∧ (SettledBy K (.v (o.d % 32)) (start + 6) →
      Lands t k.val (.v (o.d % 32)) (ofStrip (readStrip tile strip)) (start + 6))) ∧
    (o.code = 0x83 → sets (.opAccWrs k slot) (writeStrip tile (bit o.w 33) kc (bits o.w 34 3) strip
      ((lanesOf .i32 (rdV K o.a)).map fun x => BitVec.ofNat 32 x))) ∧
    (o.code = 0x84 → alone → ∃ t, exec (.opAccSave k slot) s = .next t ∧ t.mem = (daPoke s addr (slotImage tile)).mem) ∧
    (o.code = 0x85 → alone → ∀ x, tileOfImage (daRead s addr slotImageLen) = some x → sets (.opAccRestore k slot) x) ∧
    (o.code = 0x87 → ∃ t, exec (.opAccSwap k slot) s = .next t ∧ (vat t.cores k.val).bank = !K.bank ∧
      (vat t.cores k.val).tiles = K.tiles) ∧
    (o.code = 0x88 → ∃ t, exec (.opAccFlags k slot) s = .next t ∧ (SettledBy K (.g o.d) (start + 2) →
      LandsG t k.val o.d (BitVec.ofNat 64 (accFlags K)) (start + 2)))

/-- R449, R450, R458: BR, BRZ, BRNZ, CALL and RET of an issuing bundle leave the core at the delay bundle with their target
waiting; CALL also writes the index of the bundle after the delay bundle to g63. -/
def Obligations.BranchesOpenTheirDelayBundle : Prop :=
  ∀ (s : State) (k : Fin 136) (c : Cmd) (ops : List Op) (o : Op),
    Issuing s k.val c ops → goesOn ops = true → o ∈ ops → o.cls = .ctl →
    let K := vat s.cores k.val
    let dst := (((K.pc : Int) + o.signed 26) % 2 ^ 64).toNat
    let goes (i : Instr) (to_ : Nat) : Prop :=
      ∃ t, exec i s = .next t ∧ (vat t.cores k.val).pc = K.pc + 1 ∧ (vat t.cores k.val).branch = some (K.pc, to_)
    (o.code = 1 → goes (.opBr k) dst) ∧
    (o.code = 2 → goes (.opBrz k) (if rdG K o.a = 0 then dst else K.pc + 2)) ∧
    (o.code = 3 → goes (.opBrnz k) (if rdG K o.a = 0 then K.pc + 2 else dst)) ∧
    (o.code = 4 → goes (.opCall k) dst ∧
      ∃ t, exec (.opCall k) s = .next t ∧ (SettledBy K (.g 63) (K.cycles + 1) →
        LandsG t k.val 63 (BitVec.ofNat 64 (K.pc + 2)) (K.cycles + 1))) ∧
    (o.code = 5 → goes (.opRet k) (rdG K 63).toNat)

/-- R448, R458 to R460: a bundle of no control transfer goes on to the next bundle: in the delay bundle of a branch to the
branch's target, at the end of an active loop with more than one turn left back to the loop's start with one turn less, and
else to the bundle behind it. LOOP sets its level and goes on; with a count of zero it passes the loop. -/
def Obligations.NextBundleAndLoops : Prop :=
  ∀ (s : State) (k : Fin 136) (c : Cmd) (ops : List Op) (i : Instr) (o : Op),
    Issuing s k.val c ops → goesOn ops = true → o ∈ ops → o.cls ≠ .nop → coreRow i = some (k.val, o.cls, o.code, o.slot) →
    let K := vat s.cores k.val
    (∀ p ∈ K.pend, ∀ l, p.dst ≠ .lc l ∧ p.dst ≠ .ls l ∧ p.dst ≠ .le l) →
    let ends (l : Nat) : Prop := vat K.lc l ≠ 0 ∧ (vat K.le l).toNat = K.pc
    ((∀ x ∈ ops, x.isLong = false ∧ (x.cls = .ctl → 12 ≤ x.code)) → ∃ t, exec i s = .next t ∧
      (∀ b to_, K.branch = some (b, to_) → (vat t.cores k.val).pc = to_ ∧ (vat t.cores k.val).branch = none) ∧
      (K.branch = none → (∀ l < 3, ¬ ends l) → (vat t.cores k.val).pc = K.pc + 1) ∧
      (∀ l < 3, K.branch = none → (∀ j < l, ¬ ends j) → ends l → 1 < (vat K.lc l).toNat →
        (vat t.cores k.val).pc = (vat K.ls l).toNat ∧ vat (vat t.cores k.val).lc l = vat K.lc l - 1)) ∧
    (o.is .ctl 6 = true → K.pc + o.w / 2 ^ 28 < 2 ^ 32 →
      let l := bits o.w 26 2
      ∃ t, exec (.opLoop k) s = .next t ∧ (vat t.cores k.val).branch = none ∧
        vat (vat t.cores k.val).lc l = rdG K o.a ∧ vat (vat t.cores k.val).ls l = BitVec.ofNat 32 (K.pc + 1) ∧
        vat (vat t.cores k.val).le l = BitVec.ofNat 32 (K.pc + o.w / 2 ^ 28) ∧
        (vat t.cores k.val).pc = if rdG K o.a = 0 then K.pc + o.w / 2 ^ 28 + 1 else K.pc + 1)

/-- R450, R461, R463, R465, R474: MOVTC, MOVFC, RDPOS, RDCYC, WAIT and RTE of an issuing bundle. A MODE write opens its shadow;
EPC, CAUSE and STAT take nothing. RTE is taken alone in its bundle, with nothing waiting on the core; from the outermost
handler it clears CAUSE (R484). -/
def Obligations.ControlRegisterOperations : Prop :=
  ∀ (s : State) (k : Fin 136) (c : Cmd) (ops : List Op) (o : Op),
    Issuing s k.val c ops → goesOn ops = true → o ∈ ops → o.cls = .ctl →
    let K := vat s.cores k.val
    let v := rdG K o.a
    let x := o.ctlReg
    let reads (i : Instr) (v : BitVec 64) : Prop := ∃ t, exec i s = .next t ∧
      (SettledBy K (.g o.d) (K.cycles + 1) → LandsG t k.val o.d v (K.cycles + 1))
    let takes (t : State) (d : RegDst) : Prop := SettledBy K d (K.cycles + 1) → Lands t k.val d (v.setWidth 512) (K.cycles + 1)
    let fr := daRead s K.tsp.toNat 256
    (o.code = 11 → ∃ t, exec (.opMovtc k) s = .next t ∧ (vat t.cores k.val).epc = K.epc ∧ (vat t.cores k.val).cause = K.cause ∧
      (x = 0 → (vat t.cores k.val).modePend = some (BitVec.ofNat 64 (bits v.toNat 0 8), 2)) ∧
      (x = 2 → takes t .tsp) ∧ (x = 3 → takes t .prog) ∧
      (11 ≤ x ∧ x < 14 → takes t (.ls (x - 11))) ∧ (14 ≤ x ∧ x < 17 → takes t (.le (x - 14)))) ∧
    (o.code = 12 → reads (.opMovfc k) (ctlValue s k.val K x)) ∧
    (o.code = 13 → reads (.opRdpos k) (BitVec.ofNat 64 (posOf s))) ∧
    (o.code = 14 → reads (.opRdcyc k) (BitVec.ofNat 64 K.cycles)) ∧
    (o.code = 15 → K.xfers.length ≤ bits o.w 26 3 ∧ ∃ t, exec (.opWait k) s = .next t ∧
      (vat t.cores k.val).cycles = K.cycles + bundleCycles K ops) ∧
    (o.code = 10 → K.pend = [] → K.stores = [] → ops.filter (·.cls != .nop) = [o] → ∃ t, exec (.opRte k) s = .next t ∧
      (vat t.cores k.val).pc = numAt (daRead s K.tsp.toNat 8) 0 4 ∧ (vat t.cores k.val).branch = none ∧
      (∀ i, 1 ≤ i → i ≤ 15 → rdG (vat t.cores k.val) i = BitVec.ofNat 64 (numAt fr (0x80 + 8 * i) 8)) ∧
      (∀ i, 16 ≤ i → i < 64 → rdG (vat t.cores k.val) i = rdG K i) ∧
      (∀ l < 3, vat (vat t.cores k.val).lc l = BitVec.ofNat 64 (numAt fr (0x40 + 8 * l) 8) ∧
        vat (vat t.cores k.val).ls l = BitVec.ofNat 32 (numAt fr (0x58 + 8 * l) 8) ∧
        vat (vat t.cores k.val).le l = BitVec.ofNat 32 (numAt fr (0x70 + 8 * l) 8)) ∧
      (vat t.cores k.val).modeReg = BitVec.ofNat 64 (bits (numAt fr 0x18 8) 0 8) ∧
      (vat t.cores k.val).prog = BitVec.ofNat 32 (numAt fr 0x20 8) ∧
      (vat t.cores k.val).tsp = K.tsp + 256 ∧ (vat t.cores k.val).nest = K.nest - 1 ∧
      (vat t.cores k.val).bd = false ∧ (vat t.cores k.val).ms = false ∧ (vat t.cores k.val).li = false ∧
      (vat t.cores k.val).cause = if K.nest = 1 then 0 else K.cause)

/-- R465, R480, R484: END, FAULT and TRAP of an issuing bundle, which take effect once the rest of the bundle has. A core with no
transfer outstanding leaves its kernel at once; another drains first. The command of an ended core runs on one core fewer, and
after the last it ends with SUCCESS, or with KERNEL_FAULT and the fault of the core of least rank, which for a FAULT outside
a handler is 0x00. TRAP drains for its exception, whose CAUSE is 6 with the operation's code. -/
def Obligations.KernelsEnd : Prop :=
  ∀ (s : State) (k : Fin 136) (c : Cmd) (ops : List Op) (o : Op) (l : Launch),
    Issuing s k.val c ops → o ∈ ops → o.cls = .ctl → (vat s.cores k.val).launch = some l → opcodeOf c.bytes = 0x60 →
    let K := vat s.cores k.val
    let quiet := K.xfers.isEmpty && ops.all (fun o => !o.is .mem 0x0B && !o.is .mem 0x0C)
    let stops (i : Instr) (d : DrainFor) : Prop := ∃ t, exec i s = .next t ∧
      (quiet = true → (vat t.cores k.val).mode = .idle ∧ (vat t.cores k.val).launch = none) ∧
      (quiet = false → (vat t.cores k.val).mode = .draining ∧ (vat t.cores k.val).drain = d ∧
        (vat t.cores k.val).launch = some l)
    (o.code = 7 → stops (.opEnd k) .endKernel) ∧
    (o.code = 7 → ∃ t, exec (.opEnd k) s = .next t ∧ ∀ j, j ≠ k.val → j < 136 → vat t.cores j = vat s.cores j) ∧
    (o.code = 7 → quiet = true → 1 < c.cores → ∃ t, exec (.opEnd k) s = .next t ∧
      ∃ e, c.energy ≤ e ∧ cmdOf t l.cmd = some { c with cores := c.cores - 1, energy := e }) ∧
    (o.code = 7 → quiet = true → c.cores = 1 → c.phase = .working → c.status = 0 → ∃ t d, exec (.opEnd k) s = .next t ∧
      cmdOf t l.cmd = some d ∧ d.phase = .ended ∧ (c.fault = none → d.status = 0) ∧
      ∀ r x, c.fault = some (r, x) → d.status = 0x23 ∧ d.detail = BitVec.ofNat 32 (x + 256 * r)) ∧
    (o.code = 8 → stops (.opFault k) .faultKernel) ∧
    (o.code = 8 → quiet = true → K.nest = 0 → c.cores = 1 → c.phase = .working → c.status = 0 → c.fault = none →
      ∃ t d, exec (.opFault k) s = .next t ∧ cmdOf t l.cmd = some d ∧ d.phase = .ended ∧ d.status = 0x23 ∧
        d.detail = BitVec.ofNat 32 (256 * l.rank)) ∧
    (o.code = 9 → ∃ t, exec (.opTrap k) s = .next t ∧ (vat t.cores k.val).mode = .draining ∧
      (vat t.cores k.val).drain =
        .exception 6 0 0 (bits o.w 26 16) 0 (vat t.cores k.val).pc K.pc false K.modePend.isSome false)

/-- R477, R478, R443, R479: ABORT, BUDGET and YMASK_LIMIT end a core's part of a kernel with their cause, and CORE_LOCK_EXPIRY
ends the lock of a core one beat after LOCKED_TRAP; each leaves the core idle and reset, and every other core as it was. -/
def Obligations.CoresAreStopped : Prop :=
  ∀ (s : State) (k : Fin 136),
    let K := vat s.cores k.val
    let clean (t : State) : Prop :=
      let T := vat t.cores k.val
      T.mode = .idle ∧ T.launch = none ∧ (∀ i, rdG T i = 0) ∧ (∀ i < 32, vat T.v i = 0) ∧
        (∀ i < 3, vat T.lc i = 0 ∧ vat T.ls i = 0 ∧ vat T.le i = 0) ∧ T.modeReg = 8 ∧ T.prog = 0 ∧ T.nest = 0 ∧ T.bank = false ∧
        (∀ i < 8, (vat T.tiles i).live = false ∧ (vat T.tiles i).sat = false ∧ (vat T.tiles i).nan = false) ∧
        ∀ j, j ≠ k.val → j < 136 → vat t.cores j = vat s.cores j
    let stops (i : Instr) (x : Nat) : Prop := ∀ l c, K.launch = some l → (K.mode = .kernel ∨ K.mode = .draining) →
      cmdOf s l.cmd = some c → opcodeOf c.bytes = 0x60 →
      ∃ t, exec i s = .next t ∧ clean t ∧ (vat t.cores k.val).abort = none ∧
        (1 < c.cores → cmdOf t l.cmd = some { c with
          cores := c.cores - 1,
          fault := if x = 0x24 then c.fault else match c.fault with
            | some (r, y) => if l.rank < r then some (l.rank, x) else some (r, y)
            | none => some (l.rank, x) })
    (∀ x, K.abort = some x → stops (.abort k) x) ∧
    ((∃ l, K.launch = some l ∧ l.budget ≤ K.cycles) → stops (.budget k) 0x22) ∧
    (65536 ≤ K.ymaskCycles → stops (.ymaskLimit k) 0x23) ∧
    (∀ p, K.mode = .locked → K.launch = none → K.lockedAt = some p → p + 65536 ≤ posOf s →
      ∃ t, exec (.coreLockExpiry k) s = .next t ∧ clean t ∧ (vat t.cores k.val).lockedAt = none)

/-- R483, R391, R475, R476: CORE_LAUNCH starts a launched core in the state of Table 12-23; WORK_ITEM_START gives a free core
its next work, none waiting being at a better level; YIELD saves the context of a core with no transfer outstanding and
frees it, or drains first, where no exception is due (R490); YIELD_RESUME takes the saved work up again from its image.
Other cores stay as they were. -/
def Obligations.CoresStartWork : Prop :=
  ∀ (s : State) (k : Fin 136),
    let K := vat s.cores k.val
    let core (t : State) : Core := vat t.cores k.val
    let others (t : State) : Prop := ∀ j, j ≠ k.val → j < 136 → vat t.cores j = vat s.cores j
    (∀ l c x, K.mode = .idle → kernelOf s k.val = some (l, c, x) → ∃ t, exec (.coreLaunch k) s = .next t ∧ others t ∧
      let scratch := cribDa (coreSlice k.val) (l.area + x.trapBytes)
      (core t).mode = .kernel ∧ (core t).pc = x.entry ∧ (core t).modeReg = 8 ∧ (core t).prog = 0 ∧ (core t).nest = 0 ∧
      (core t).bank = false ∧ (core t).cycles = 0 ∧ (core t).pend = [] ∧ (core t).stores = [] ∧ (core t).branch = none ∧
      (core t).tsp = BitVec.ofNat 56 (cribDa (coreSlice k.val) (l.area + x.trapBytes)) ∧
      (∀ i < 3, rdG (core t) (i + 1) = BitVec.ofNat 64 (nth l.args i 0).toNat) ∧ rdG (core t) 4 = BitVec.ofNat 64 scratch ∧
      rdG (core t) 5 = BitVec.ofNat 64 x.scratch ∧
      rdG (core t) 6 = BitVec.ofNat 64 (put (coreSlice k.val) 0 5 + put (k.val % 8) 8 3 + put l.rank 16 8 + put (l.total - 1) 24 8) ∧
      rdG (core t) 7 = BitVec.ofNat 64 c.func ∧ rdG (core t) 62 = BitVec.ofNat 64 (scratch + x.scratch) ∧
      (∀ i, i = 0 ∨ i = 63 ∨ (8 ≤ i ∧ i < 62) → rdG (core t) i = 0) ∧
      (∀ i < 32, vat (core t).v i = 0) ∧ (∀ i < 3, vat (core t).lc i = 0 ∧ vat (core t).ls i = 0 ∧ vat (core t).le i = 0) ∧
      (∀ i < 8, (vat (core t).tiles i).live = false)) ∧
    (∀ w, coreFree K = true → nextWork s k.val = some w → ∃ t, exec (.workItemStart k) s = .next t ∧ others t ∧
      (core t).queue = K.queue.erase w ∧ w ∈ K.queue ∧
      (K.saved = none → ∀ w' ∈ K.queue, levelCode (workLevel s w) ≤ levelCode (workLevel s w')) ∧
      (∀ l, w = .launch l → (core t).launch = some l ∧ (core t).mode = .idle) ∧
      (∀ i c d, w = .item i → cmdOf s i.cmd = some c → kvFor s c = some d →
        (core t).mode = .attn ∧ (core t).item = some i ∧ (core t).prog = 0 ∧
        (core t).parts = List.replicate (attnQ c) (emptyPartial d))) ∧
    (∀ w, yieldTaken s k.val = true → K.abort = none → overBudget K = false → overYmask K = false →
      runningWork K = some w → K.drain ≠ .yield → trapDue s k.val = none → ∃ t, exec (.yield k) s = .next t ∧ others t ∧
      (K.xfers = [] → (core t).mode = .idle ∧ (core t).launch = none ∧ (core t).item = none ∧
        (core t).saved = some ⟨w, saveDa k.val K, (preempting s k.val).elim 0 (·.uid), (preempting s k.val).elim 31 (·.cls), K.parts⟩ ∧
        (core t).g = (vat (landAll k.val s).cores k.val).g) ∧
      (K.xfers ≠ [] → (core t).mode = .draining ∧ (core t).drain = .yield ∧ (core t).saved = none)) ∧
    (∀ x, K.saved = some x → coreFree K = true → nextWork s k.val = none → ∃ t, exec (.yieldResume k) s = .next t ∧ others t ∧
      (core t).saved = none ∧ t.mem = s.mem ∧
      (∀ l, x.work = .launch l →
        let img := daRead s x.at_ 20480
        (core t).mode = .kernel ∧ (core t).launch = some l ∧ (core t).pc = numAt img 0 8 ∧
        (core t).tsp = BitVec.ofNat 56 (numAt img 0x28 8) ∧ (core t).prog = BitVec.ofNat 32 (numAt img 0x10 8) ∧
        (∀ i, 0 < i → i < 64 → rdG (core t) i = BitVec.ofNat 64 (numAt img (0x100 + 8 * i) 8)) ∧
        (∀ i < 32, vat (core t).v i = BitVec.ofNat 512 (numAt img (0x300 + 64 * i) 64))) ∧
      (∀ i, x.work = .item i → (core t).mode = .attn ∧ (core t).item = some i ∧ (core t).parts = x.parts))

/-- R442, R448, R456: what a bundle of any row of chapter 12 leaves as it was, END and FAULT apart: every other core, everything
of the block but memory, counters, what is charged and what goes out; a register that the bundle's operations do not name and no
result awaits; and memory, when no store waits and no operation saves an accumulator. -/
def Obligations.BundlesTouchTheirCoreAlone : Prop :=
  ∀ (s : State) (i : Instr) (k : Nat) (cls : OpClass) (code slot : Nat) (c : Cmd) (ops : List Op) (o : Op),
    coreRow i = some (k, cls, code, slot) → Issuing s k c ops → goesOn ops = true → o ∈ ops →
    o.cls = cls → o.code = code → o.slot = slot →
    let K := vat s.cores k
    ∃ t, exec i s = .next t ∧
      t = { s with cores := t.cores, mem := t.mem, out := t.out, cnt := t.cnt, cmds := t.cmds,
                   qos := { s.qos with usage := t.qos.usage }, led := { s.led with house := t.led.house },
                   pmc := { s.pmc with domains := t.pmc.domains } } ∧
      cmdsBut t = cmdsBut s ∧
      (∀ j, j < 136 → j ≠ k → vat t.cores j = vat s.cores j) ∧
      (∀ d, dstOk d = true → (∀ l, d ≠ .lc l) → dstName d ∉ ops.flatMap (·.writes) →
        (∀ p ∈ K.pend, dstOk p.dst = true ∧ dstName p.dst ≠ dstName d) → regValue (vat t.cores k) d = regValue K d) ∧
      (K.stores = [] → (∀ o ∈ ops, o.cls = .mem → o.code ≤ 5 ∨ 0x0B ≤ o.code) → (∀ o ∈ ops, o.is .acc 0x84 = false) → t.mem = s.mem)

/-- R449, R471, R472, R473, R479: EXCEPTION_ENTRY with no transfer outstanding, for an exception of the bundle at PC or of a long
instruction's next step, and for one that already drains (TRAP). Everything issued lands; the handler runs at PC 0 with EPC,
CAUSE, BD, MS and LI set, NEST one higher and the trap frame pushed; when a check of R479 fails, the core locks. R449, R471: a
bundle that would take an exception does not issue: the row of any of its operations leaves the block as it is, and the
exception is EXCEPTION_ENTRY's. -/
def Obligations.ExceptionsAreEntered : Prop :=
   (∀ (s : State) (k : Fin 136) (l : Launch) (c : Cmd) (x : Kernel),
      kernelOf s k.val = some (l, c, x) → opcodeOf c.bytes = 0x60 → (vat s.cores k.val).xfers = [] →
      (vat s.cores k.val).abort = none → (∀ c ops, bundleNow s k.val = some (c, ops) → ops.all (·.cls == .nop) = false) →
      let K := vat s.cores k.val
      let L := vat (landAll k.val s).cores k.val
      let start := cribDa (coreSlice k.val) l.area
      let reason := lockReason L start (start + x.trapBytes)
      let enters (code kind slot imm addr epc : Nat) (bd ms li : Bool) : Prop := ∃ t, exec (.exceptionEntry k) s = .next t ∧
        let T := vat t.cores k.val
        (reason = 0 → T.mode = .kernel ∧ T.pc = 0 ∧ T.branch = none ∧ T.epc = BitVec.ofNat 32 epc ∧
          T.cause = BitVec.ofNat 64 (causeWord code kind slot imm) ∧ T.bd = bd ∧ T.ms = ms ∧ T.li = li ∧
          T.nest = K.nest + 1 ∧ T.tsp = L.tsp - 256 ∧ T.modeReg = (K.modePend.map (·.1)).getD K.modeReg ∧ T.modePend = none ∧
          (∀ i, rdG T i = rdG L i) ∧ T.v = L.v ∧ T.lc = L.lc ∧ T.tiles = K.tiles ∧
          t.mem = (daPoke (landAll k.val s) (L.tsp.toNat - 256) (trapFrame t k.val L.tsp.toNat addr)).mem ∧
          ∀ j, j ≠ k.val → j < 136 → vat t.cores j = vat s.cores j) ∧
        (reason ≠ 0 → T.mode = .locked ∧ T.launch = none ∧ T.lockedAt = some (posOf s))
      (∀ tr li, trapDue s k.val = some (tr, li) →
        enters tr.code tr.kind tr.slot 0 tr.addr ((K.branch.map (·.1)).getD K.pc) K.branch.isSome K.modePend.isSome li) ∧
      (∀ code kind slot imm addr epc at_ bd ms li, K.mode = .draining → K.drain = .exception code kind slot imm addr epc at_ bd ms li →
        enters code kind slot imm addr epc bd ms li)) ∧
   (∀ (s : State) (i : Instr) (k : Nat) (cls : OpClass) (code slot : Nat) (c : Cmd) (ops : List Op) (tr : Trap),
      coreRow i = some (k, cls, code, slot) → issues s k = true → bundleNow s k = some (c, ops) →
      bundleTrap s c.func k (vat s.cores k) ops = some tr → ops.all (·.cls == .nop) = false →
      exec i s = .next s ∧ trapDue s k = some (tr, false))

/-- R466, R428: SHEAF.POOL, FLAIL.APPLY, ATTN.BLOCK and ACC.DRAIN of an issuing bundle start: the core stays at the bundle with
the long instruction in progress, which keeps its sources, and PROG as it was. R466, R386: a step of a kernel's long instruction whose checks hold makes
its writes and raises PROG; after the last step, or with no step to make, PROG is 0 and the core goes on at the next bundle. -/
def Obligations.LongInstructionsRun : Prop :=
   (∀ (s : State) (k : Fin 136) (c : Cmd) (ops : List Op) (o : Op),
      Issuing s k.val c ops → o ∈ ops → o.isLong = true →
      let K := vat s.cores k.val
      let starts (i : Instr) : Prop := ∃ t, exec i s = .next t ∧
        let T := vat t.cores k.val
        T.long = true ∧ T.mode = .kernel ∧ T.pc = K.pc ∧ T.branch = K.branch ∧ T.launch = K.launch ∧
        T.cycles = K.cycles + bundleCycles K ops ∧ T.lsrc = #v[rdG K o.a, rdG K o.b, rdG K o.d] ∧ ∀ j, j ≠ k.val → j < 136 → vat t.cores j = vat s.cores j
      (o.cls = .ctl → o.code = 16 → starts (.opSheafPool k)) ∧
      (o.cls = .ctl → o.code = 17 → starts (.opFlailApply k)) ∧
      (o.cls = .ctl → o.code = 18 → starts (.opAttnBlock k)) ∧
      (o.cls = .acc → o.code = 0x86 → starts (.opAccDrain k))) ∧
   (∀ (s : State) (k : Fin 136) (c : Cmd) (ops : List Op) (o : Op),
      let K := vat s.cores k.val
      let n := K.prog.toNat
      let N := longTotal K o
      mayGo s k.val = true → K.mode = .kernel → K.long = true → longAt s k.val = some (c, ops, o) →
      K.stores = [] → K.pend = [] → K.branch = none → K.modePend = none → (∀ l < 3, vat K.lc l = 0) →
      (N ≤ n ∨ (stepFault s c.func k.val (longStep s c k.val K o n) = none ∧ poisonedRead s c K o n = none)) →
      (∀ o ∈ ops, o.cls = .ctl → 16 ≤ o.code) →
      ∃ t, exec (.longInstrStep k) s = .next t ∧
        let T := vat t.cores k.val
        T.mode = .kernel ∧ T.g = K.g ∧ T.v = K.v ∧ (∀ j, j ≠ k.val → j < 136 → vat t.cores j = vat s.cores j) ∧
        (n + 1 < N → T.prog = K.prog + 1 ∧ T.long = true ∧ T.pc = K.pc) ∧
        (N ≤ n + 1 → T.prog = 0 ∧ T.long = false ∧ T.pc = K.pc + 1) ∧
        t.mem = (if n < N then ((longStep s c k.val K o n).writes.foldl (fun s w => daPoke s w.1 w.2) s).mem else s.mem))

/-- R104, R311, R314, R319, R323: where each row of Stolon completes, and what it leaves of Stolon's state. EVICTION carries out the
oldest decided eviction. STOLON_DECISION, with AUTO_LIFT and AUTO_MOVE clear, decides the eviction of every entry in use with
fewer hits than EVICT_HITS; with AUTO_MOVE set, no change pending and one shard to move back, it accepts that move.
MOVE_BATCH_START puts the next batch in flight; MOVE_BATCH_ACK ends one that can end, and MOVE_BATCH_TIMEOUT one that cannot,
for its one retry. -/
def Obligations.StolonRowsComplete : Prop :=
  ∀ s : State, let S := s.stolon
    (∀ b w rest, S.evictions = (b, w) :: rest → ∃ t, exec .eviction s = .next t ∧
      t.stolon = { S with evictions := rest, lift := S.lift.filter fun e => !(e.bucket == b && e.way == w) } ∧
      t.mem = s.mem ∧ t.cfg = s.cfg ∧ t.cmds = s.cmds ∧ t.sys = s.sys) ∧
    (inService s = true →
      (s.tb.tick = 32768 → liveData s ≠ [] → S.decided ≠ some s.tb.beat.toNat →
        let after : Stolon := { S with candidates := [], newLeader := false, decided := some s.tb.beat.toNat }
        (s.cfg.cur.migration.autoMove = false → s.cfg.cur.migration.autoLift = false → ∃ t, exec .stolonDecision s = .next t ∧
          t = { s with stolon := { after with evictions := S.evictions ++
            (if s.image.carve.liftBytes = 0 then [] else
              ((S.lift.filter fun e => !e.frozen && decide (e.hits < s.cfg.cur.migration.evictHits)).map fun e =>
                (e.bucket, e.way)).filter (!S.evictions.contains ·)) } }) ∧
        (∀ x, s.cfg.cur.migration.autoMove = true → s.cfg.changes = [] → s.mg.changeQueue = [] → S.newLeader = false →
          s.image.carve.liftBytes = 0 → moveCandidates s true = [x] →
          checkChange s (projected s) none (.shardMove x.1 x.2.1 x.2.2.2) = 0 → ∃ t, exec .stolonDecision s = .next t ∧
            t.cfg.changes.map (·.kind) = [.shardMove x.1 x.2.1 x.2.2.2] ∧ t.stolon = after ∧ t.mem = s.mem ∧ t.cmds = s.cmds)) ∧
      (S.batch = none → liveData s ≠ [] → ∀ k, nextBatch s = some k → (∀ x ∈ batchRows s k, rowBusy s x.1 x.2 = false) →
        S.windowBytes + sourceBytes k s ≤ windowCap s → ∃ t, exec .moveBatchStart s = .next t ∧
          t.mem = s.mem ∧ t.cfg = s.cfg ∧ t.cmds = s.cmds ∧ t.sys = s.sys ∧
          (let flying : Stolon := { S with batch := some { what := k, retried := S.stalled.isSome, since := clkOf s },
                                           stalled := none, windowBytes := S.windowBytes + sourceBytes k s }
           (isShard k = true → t.stolon = flying) ∧
           (∀ keys, k = .lift keys →
             t.stolon = { flying with liftsDue := S.liftsDue.filter fun e => !keys.contains (e.table, e.row),
                                      lift := S.lift ++ S.liftsDue.filter fun e => keys.contains (e.table, e.row) }))) ∧
      (∀ b, S.batch = some b → batchPossible s b.what = true → clkOf s ≤ b.since + 2 * usec →
        (∀ keys, b.what = .lift keys → ∃ t, exec .moveBatchAck s = .next t ∧
          t.stolon = { S with batch := none, lift := S.lift.map fun e =>
            (if keys.contains (e.table, e.row) then { e with frozen := false } else e) }) ∧
        (∀ m table shard first n T, b.what = .shard table shard first n → S.move = some m → tableOf s.cfg.cur table = some T →
          first + n < shardRows T.rows shard → ∃ t, exec .moveBatchAck s = .next t ∧
            t.stolon = { S with batch := none, move := some { m with cursor := first + n, staged := false } })) ∧
      (∀ b, S.batch = some b → b.retried = false → ∃ t, exec .moveBatchTimeout s = .next t ∧
        t.mem = s.mem ∧ t.cmds = s.cmds ∧ t.sys = s.sys ∧
        (isShard b.what = true → t.stolon = { S with batch := none, stalled := some b.what }) ∧
        (∀ keys, b.what = .lift keys →
          let mine := S.lift.filter fun e => e.frozen && keys.contains (e.table, e.row)
          t.stolon = { S with batch := none, stalled := some b.what, lift := S.lift.filter fun e => !mine.contains e,
                              liftsDue := mine ++ S.liftsDue })))

/-- R159, R177, R342, R824, R828, R830, R833, R845, Table 22-5: where the mailbox rows that change the configuration complete: from
service, on a mailbox that takes the GO, with the right and the input that the table gives the row, nothing in front of it and
nothing to read, a valid change is accepted; TABLE_REGISTER and KERNEL_LOAD with input at MBX_XADDR ask the host for it. A
ring's descriptor that meets its rules is answered OK, and a code that the table does not list BAD_OP. -/
def Obligations.MailboxChangesAndRingsComplete : Prop :=
  ∀ (s : State) (f : Fin 64) (n : Fin 4096), goTaken s f.val → inService s = true →
    let s0 (op : Nat) : State := goStarted op n.val f.val s
    let may (op : Nat) : Prop := (stewardOnly op = true → f.val = 0) ∧ lenFits (mbxOf (s0 op) f.val) = true ∧
      ownsChange (s0 op) f.val (mbxOf (s0 op) f.val) = true ∧ s.mg.changeQueue = []
    let accepts (c : Instr) (op : Nat) : Prop := may op → inputLen (mbxOf (s0 op) f.val) = some 0 → journalBusy s = false →
      ∀ k, changeOf (s0 op) (mbxOf (s0 op) f.val) = .ok k →
        checkChange (s0 op) (projected (s0 op)) (tenantOf (some f.val)) k = 0 → exec c s = .next (acceptChange k (some f.val) (s0 op))
    let asksFor (c : Instr) (op : Nat) : Prop := may op → ∀ m, inputLen (mbxOf (s0 op) f.val) = some m → m ≠ 0 →
      (mbxOf s f.val).xaddr.toNat % 64 = 0 → ∃ t, exec c s = .next t ∧
        .hostRead ⟨f.val, (mbxOf s f.val).xaddr.toNat, m, false⟩ (attrOf s f.val false) ∈ t.out ∧ (mbxOf t f.val).st = .busy ∧
        (mbxOf t f.val).result = none ∧ t.mg.changeQueue = [.mailbox f.val] ∧ t.cfg = s.cfg
    let ring (c : Instr) (op : Nat) : Prop := n.val = 16 → (op ≠ 0x63 → f.val = 0) →
      ringOk s f.val op (ringDesc (fitTo (mbxOf s f.val).data 16)) = true → exec c s = .next (goAnswered op 16 f.val (bare 0x00) s)
    accepts (.tableRegister f n) 0x10 ∧ asksFor (.tableRegister f n) 0x10 ∧ accepts (.kvRegister f n) 0x11 ∧
    accepts (.tableRelease f n) 0x12 ∧ accepts (.shardMove f n) 0x14 ∧ accepts (.huskSet f n) 0x15 ∧
    accepts (.classSet f n) 0x16 ∧ accepts (.ledgerSet f n) 0x18 ∧
    asksFor (.kernelLoad f n) 0x20 ∧ accepts (.kernelLoad f n) 0x20 ∧ accepts (.kernelUnload f n) 0x21 ∧
    ring (.eventRing f n) 0x60 ∧ ring (.dumpRing f n) 0x61 ∧ ring (.pipRing f n) 0x62 ∧ ring (.noticeRing f n) 0x63 ∧
    (∀ op : BitVec 16, inlineLen op.toNat = none →
      exec (.badOp f op n) s = .next (goAnswered op.toNat n.val f.val (bare 0x04) s))
end

