-- ==== Sys2Proof/Laws/Charged.lean ====
section
/-!
SUPPORT. Sys2Proof/Laws/Charged.lean: what charging an access leaves alone: all but the energy of commands, the usage of
classes, the house account and the remainders of the power domains.
-/
namespace Sys2Proof.Machine

/-- Between `s` and `t` accesses were charged, and nothing else happened. -/
structure Charged (s t : State) : Prop where
  rest : t = { s with cmds := t.cmds, qos := { s.qos with usage := t.qos.usage }, led := { s.led with house := t.led.house },
                      pmc := { s.pmc with domains := t.pmc.domains } }
  cmds : t.cmds.map (fun c => { c with energy := 0 }) = s.cmds.map fun c => { c with energy := 0 }

theorem Charged.refl (s : State) : Charged s s := ⟨rfl, rfl⟩

theorem Charged.trans {a b c : State} (h1 : Charged a b) (h2 : Charged b c) : Charged a c :=
  ⟨by rw [h2.rest, h1.rest], h2.cmds.trans h1.cmds⟩

theorem Charged.foldl {α : Type} {g : State → α → State} (h : ∀ s x, Charged s (g s x)) : ∀ (l : List α) (s : State),
    Charged s (l.foldl g s)
  | [], s => .refl s
  | x :: l, s => (h s x).trans (foldl h l (g s x))

theorem payEnergy_charged {p : Payer} {e : Nat} {s : State} : Charged s (payEnergy p e s) := by
  unfold payEnergy
  split
  · split
    · refine ⟨rfl, ?_⟩
      unfold onCmd
      simp only [List.map_map]
      congr 1
      funext c
      simp only [Function.comp]
      split <;> rfl
    · exact ⟨rfl, rfl⟩
  · exact ⟨rfl, rfl⟩

theorem activity_charged {p : Payer} {d n : Nat} {s : State} : Charged s (activity p d n s) := by
  unfold activity
  extract_lets D a
  split
  · exact .refl s
  · refine Charged.trans ?_ payEnergy_charged
    exact ⟨rfl, rfl⟩

theorem busActivity_charged {p : Payer} {f n : Nat} {s : State} : Charged s (busActivity p f n s) := activity_charged

theorem houseBytes_charged {was s : State} {f n : Nat} : Charged s (houseBytes was f n s) := by
  unfold houseBytes
  split
  · exact .refl s
  · exact busActivity_charged

theorem memActivity_charged {p : Payer} {da n : Nat} {s : State} : Charged s (memActivity p da n s) := by
  unfold memActivity
  extract_lets o pieces
  split
  · exact .foldl (fun _ _ => activity_charged) _ _
  · refine .foldl (fun s a => ?_) _ _
    split
    · exact activity_charged
    · exact .refl s
  · split
    · exact .foldl (fun _ _ => activity_charged) _ _
    · exact .refl s

theorem charge_charged {i r n : Nat} {s : State} : Charged s (charge i r n s) := ⟨rfl, rfl⟩

theorem chargeRanges_charged {da n : Nat} {s : State} : Charged s (chargeRanges da n s) :=
  Charged.trans charge_charged (.foldl (fun _ _ => charge_charged) _ _)

theorem chargeClass_charged {i da n : Nat} {s : State} : Charged s (chargeClass i da n s) := by
  unfold chargeClass
  extract_lets s1
  have h : Charged s s1 := charge_charged
  split
  · exact h.trans chargeRanges_charged
  · exact h

theorem chargeCmd_charged {c : Cmd} {da n : Nat} {s : State} : Charged s (chargeCmd c da n s) := by
  unfold chargeCmd
  extract_lets r
  split
  · exact .refl s
  · exact memActivity_charged.trans chargeClass_charged

theorem Charged.cores {s t : State} (h : Charged s t) : t.cores = s.cores := by rw [h.rest]

theorem Charged.mem {s t : State} (h : Charged s t) : t.mem = s.mem := by rw [h.rest]

theorem Charged.out {s t : State} (h : Charged s t) : t.out = s.out := by rw [h.rest]

end Sys2Proof.Machine
end

