-- ==== Sys2Proof/Laws/Parts.lean ====
section
/-!
SUPPORT. Sys2Proof/Laws/Parts.lean: reading a numbered part after an update of one.
-/
namespace Sys2Proof

theorem vat_vupd {α : Type} {n : Nat} [NeZero n] (v : Vector α n) (i j : Nat) (f : α → α) :
    vat (vupd v i f) j = if i % n = j % n then f (vat v j) else vat v j := by
  have e : vat (vupd v i f) j = if i % n = j % n then f (vat v i) else vat v j :=
    Vector.getElem_set ..
  rw [e]
  by_cases h : i % n = j % n
  · have ij : Fin.ofNat n i = Fin.ofNat n j := Fin.ext h
    rw [if_pos h, if_pos h]
    exact congrArg f (congrArg (fun x : Fin n => v[x]) ij)
  · rw [if_neg h, if_neg h]

/-- The part that was updated. -/
theorem vat_vupd_self {α : Type} {n : Nat} [NeZero n] (v : Vector α n) (i : Nat) (f : α → α) :
    vat (vupd v i f) i = f (vat v i) := by rw [vat_vupd, if_pos rfl]

/-- Any other part. -/
theorem vat_vupd_ne {α : Type} {n : Nat} [NeZero n] (v : Vector α n) {i j : Nat} (f : α → α) (h : i % n ≠ j % n) :
    vat (vupd v i f) j = vat v j := by rw [vat_vupd, if_neg h]

theorem vat_map {α β : Type} {n : Nat} [NeZero n] (v : Vector α n) (f : α → β) (i : Nat) : vat (v.map f) i = f (vat v i) := by
  unfold vat; simp

theorem vat_replicate {α : Type} {n : Nat} [NeZero n] (a : α) (i : Nat) : vat (Vector.replicate n a) i = a := by
  unfold vat; simp

theorem vat_ofFn {α : Type} {n : Nat} [NeZero n] (f : Fin n → α) (i : Nat) : vat (Vector.ofFn f) i = f (Fin.ofNat n i) := by
  unfold vat; simp; rfl

end Sys2Proof
end

