-- ==== Sys2Proof/Laws/State.lean ====
section
/-!
SUPPORT. Sys2Proof/Laws/State.lean: what each shared update leaves alone, field by field, and the field that it changes.
-/
namespace Sys2Proof.Machine

/-! ### onFunc -/

@[simp] theorem onFunc_pending {f : Nat} {g : Func → Func} {s : State} : (onFunc f g s).pending = s.pending := rfl

@[simp] theorem onFunc_sys {f : Nat} {g : Func → Func} {s : State} : (onFunc f g s).sys = s.sys := rfl

@[simp] theorem onFunc_tb {f : Nat} {g : Func → Func} {s : State} : (onFunc f g s).tb = s.tb := rfl

@[simp] theorem onFunc_links {f : Nat} {g : Func → Func} {s : State} : (onFunc f g s).links = s.links := rfl

@[simp] theorem onFunc_ports {f : Nat} {g : Func → Func} {s : State} : (onFunc f g s).ports = s.ports := rfl

@[simp] theorem onFunc_orphanSince {f : Nat} {g : Func → Func} {s : State} : (onFunc f g s).orphanSince = s.orphanSince := rfl

@[simp] theorem onFunc_flash {f : Nat} {g : Func → Func} {s : State} : (onFunc f g s).flash = s.flash := rfl

@[simp] theorem onFunc_image {f : Nat} {g : Func → Func} {s : State} : (onFunc f g s).image = s.image := rfl

@[simp] theorem onFunc_imageOk {f : Nat} {g : Func → Func} {s : State} : (onFunc f g s).imageOk = s.imageOk := rfl

@[simp] theorem onFunc_cfg {f : Nat} {g : Func → Func} {s : State} : (onFunc f g s).cfg = s.cfg := rfl

@[simp] theorem onFunc_jr {f : Nat} {g : Func → Func} {s : State} : (onFunc f g s).jr = s.jr := rfl

@[simp] theorem onFunc_mg {f : Nat} {g : Func → Func} {s : State} : (onFunc f g s).mg = s.mg := rfl

@[simp] theorem onFunc_funcs {f : Nat} {g : Func → Func} {s : State} : (onFunc f g s).funcs = vupd s.funcs f g := rfl

@[simp] theorem onFunc_qs {f : Nat} {g : Func → Func} {s : State} : (onFunc f g s).qs = s.qs := rfl

@[simp] theorem onFunc_brg {f : Nat} {g : Func → Func} {s : State} : (onFunc f g s).brg = s.brg := rfl

@[simp] theorem onFunc_cmds {f : Nat} {g : Func → Func} {s : State} : (onFunc f g s).cmds = s.cmds := rfl

@[simp] theorem onFunc_nextUid {f : Nat} {g : Func → Func} {s : State} : (onFunc f g s).nextUid = s.nextUid := rfl

@[simp] theorem onFunc_slices {f : Nat} {g : Func → Func} {s : State} : (onFunc f g s).slices = s.slices := rfl

@[simp] theorem onFunc_flails {f : Nat} {g : Func → Func} {s : State} : (onFunc f g s).flails = s.flails := rfl

@[simp] theorem onFunc_ring {f : Nat} {g : Func → Func} {s : State} : (onFunc f g s).ring = s.ring := rfl

@[simp] theorem onFunc_dimms {f : Nat} {g : Func → Func} {s : State} : (onFunc f g s).dimms = s.dimms := rfl

@[simp] theorem onFunc_cxl {f : Nat} {g : Func → Func} {s : State} : (onFunc f g s).cxl = s.cxl := rfl

@[simp] theorem onFunc_stolon {f : Nat} {g : Func → Func} {s : State} : (onFunc f g s).stolon = s.stolon := rfl

@[simp] theorem onFunc_kv {f : Nat} {g : Func → Func} {s : State} : (onFunc f g s).kv = s.kv := rfl

@[simp] theorem onFunc_partials {f : Nat} {g : Func → Func} {s : State} : (onFunc f g s).partials = s.partials := rfl

@[simp] theorem onFunc_cores {f : Nat} {g : Func → Func} {s : State} : (onFunc f g s).cores = s.cores := rfl

@[simp] theorem onFunc_pool {f : Nat} {g : Func → Func} {s : State} : (onFunc f g s).pool = s.pool := rfl

@[simp] theorem onFunc_qos {f : Nat} {g : Func → Func} {s : State} : (onFunc f g s).qos = s.qos := rfl

@[simp] theorem onFunc_led {f : Nat} {g : Func → Func} {s : State} : (onFunc f g s).led = s.led := rfl

@[simp] theorem onFunc_pmc {f : Nat} {g : Func → Func} {s : State} : (onFunc f g s).pmc = s.pmc := rfl

@[simp] theorem onFunc_recov {f : Nat} {g : Func → Func} {s : State} : (onFunc f g s).recov = s.recov := rfl

@[simp] theorem onFunc_cnt {f : Nat} {g : Func → Func} {s : State} : (onFunc f g s).cnt = s.cnt := rfl

@[simp] theorem onFunc_mem {f : Nat} {g : Func → Func} {s : State} : (onFunc f g s).mem = s.mem := rfl

@[simp] theorem onFunc_poison {f : Nat} {g : Func → Func} {s : State} : (onFunc f g s).poison = s.poison := rfl

@[simp] theorem onFunc_out {f : Nat} {g : Func → Func} {s : State} : (onFunc f g s).out = s.out := rfl

@[simp] theorem onFunc_freeCtr {f : Nat} {g : Func → Func} {s : State} : (onFunc f g s).freeCtr = s.freeCtr := rfl

/-! ### onQ -/

@[simp] theorem onQ_pending {q : Nat} {g : Queue → Queue} {s : State} : (onQ q g s).pending = s.pending := rfl

@[simp] theorem onQ_sys {q : Nat} {g : Queue → Queue} {s : State} : (onQ q g s).sys = s.sys := rfl

@[simp] theorem onQ_tb {q : Nat} {g : Queue → Queue} {s : State} : (onQ q g s).tb = s.tb := rfl

@[simp] theorem onQ_links {q : Nat} {g : Queue → Queue} {s : State} : (onQ q g s).links = s.links := rfl

@[simp] theorem onQ_ports {q : Nat} {g : Queue → Queue} {s : State} : (onQ q g s).ports = s.ports := rfl

@[simp] theorem onQ_orphanSince {q : Nat} {g : Queue → Queue} {s : State} : (onQ q g s).orphanSince = s.orphanSince := rfl

@[simp] theorem onQ_flash {q : Nat} {g : Queue → Queue} {s : State} : (onQ q g s).flash = s.flash := rfl

@[simp] theorem onQ_image {q : Nat} {g : Queue → Queue} {s : State} : (onQ q g s).image = s.image := rfl

@[simp] theorem onQ_imageOk {q : Nat} {g : Queue → Queue} {s : State} : (onQ q g s).imageOk = s.imageOk := rfl

@[simp] theorem onQ_cfg {q : Nat} {g : Queue → Queue} {s : State} : (onQ q g s).cfg = s.cfg := rfl

@[simp] theorem onQ_jr {q : Nat} {g : Queue → Queue} {s : State} : (onQ q g s).jr = s.jr := rfl

@[simp] theorem onQ_mg {q : Nat} {g : Queue → Queue} {s : State} : (onQ q g s).mg = s.mg := rfl

@[simp] theorem onQ_funcs {q : Nat} {g : Queue → Queue} {s : State} : (onQ q g s).funcs = s.funcs := rfl

@[simp] theorem onQ_qs {q : Nat} {g : Queue → Queue} {s : State} : (onQ q g s).qs = vupd s.qs q g := rfl

@[simp] theorem onQ_brg {q : Nat} {g : Queue → Queue} {s : State} : (onQ q g s).brg = s.brg := rfl

@[simp] theorem onQ_cmds {q : Nat} {g : Queue → Queue} {s : State} : (onQ q g s).cmds = s.cmds := rfl

@[simp] theorem onQ_nextUid {q : Nat} {g : Queue → Queue} {s : State} : (onQ q g s).nextUid = s.nextUid := rfl

@[simp] theorem onQ_slices {q : Nat} {g : Queue → Queue} {s : State} : (onQ q g s).slices = s.slices := rfl

@[simp] theorem onQ_flails {q : Nat} {g : Queue → Queue} {s : State} : (onQ q g s).flails = s.flails := rfl

@[simp] theorem onQ_ring {q : Nat} {g : Queue → Queue} {s : State} : (onQ q g s).ring = s.ring := rfl

@[simp] theorem onQ_dimms {q : Nat} {g : Queue → Queue} {s : State} : (onQ q g s).dimms = s.dimms := rfl

@[simp] theorem onQ_cxl {q : Nat} {g : Queue → Queue} {s : State} : (onQ q g s).cxl = s.cxl := rfl

@[simp] theorem onQ_stolon {q : Nat} {g : Queue → Queue} {s : State} : (onQ q g s).stolon = s.stolon := rfl

@[simp] theorem onQ_kv {q : Nat} {g : Queue → Queue} {s : State} : (onQ q g s).kv = s.kv := rfl

@[simp] theorem onQ_partials {q : Nat} {g : Queue → Queue} {s : State} : (onQ q g s).partials = s.partials := rfl

@[simp] theorem onQ_cores {q : Nat} {g : Queue → Queue} {s : State} : (onQ q g s).cores = s.cores := rfl

@[simp] theorem onQ_pool {q : Nat} {g : Queue → Queue} {s : State} : (onQ q g s).pool = s.pool := rfl

@[simp] theorem onQ_qos {q : Nat} {g : Queue → Queue} {s : State} : (onQ q g s).qos = s.qos := rfl

@[simp] theorem onQ_led {q : Nat} {g : Queue → Queue} {s : State} : (onQ q g s).led = s.led := rfl

@[simp] theorem onQ_pmc {q : Nat} {g : Queue → Queue} {s : State} : (onQ q g s).pmc = s.pmc := rfl

@[simp] theorem onQ_recov {q : Nat} {g : Queue → Queue} {s : State} : (onQ q g s).recov = s.recov := rfl

@[simp] theorem onQ_cnt {q : Nat} {g : Queue → Queue} {s : State} : (onQ q g s).cnt = s.cnt := rfl

@[simp] theorem onQ_mem {q : Nat} {g : Queue → Queue} {s : State} : (onQ q g s).mem = s.mem := rfl

@[simp] theorem onQ_poison {q : Nat} {g : Queue → Queue} {s : State} : (onQ q g s).poison = s.poison := rfl

@[simp] theorem onQ_out {q : Nat} {g : Queue → Queue} {s : State} : (onQ q g s).out = s.out := rfl

@[simp] theorem onQ_freeCtr {q : Nat} {g : Queue → Queue} {s : State} : (onQ q g s).freeCtr = s.freeCtr := rfl

/-! ### onBrg -/

@[simp] theorem onBrg_pending {b : Nat} {g : Bridge → Bridge} {s : State} : (onBrg b g s).pending = s.pending := rfl

@[simp] theorem onBrg_sys {b : Nat} {g : Bridge → Bridge} {s : State} : (onBrg b g s).sys = s.sys := rfl

@[simp] theorem onBrg_tb {b : Nat} {g : Bridge → Bridge} {s : State} : (onBrg b g s).tb = s.tb := rfl

@[simp] theorem onBrg_links {b : Nat} {g : Bridge → Bridge} {s : State} : (onBrg b g s).links = s.links := rfl

@[simp] theorem onBrg_ports {b : Nat} {g : Bridge → Bridge} {s : State} : (onBrg b g s).ports = s.ports := rfl

@[simp] theorem onBrg_orphanSince {b : Nat} {g : Bridge → Bridge} {s : State} : (onBrg b g s).orphanSince = s.orphanSince := rfl

@[simp] theorem onBrg_flash {b : Nat} {g : Bridge → Bridge} {s : State} : (onBrg b g s).flash = s.flash := rfl

@[simp] theorem onBrg_image {b : Nat} {g : Bridge → Bridge} {s : State} : (onBrg b g s).image = s.image := rfl

@[simp] theorem onBrg_imageOk {b : Nat} {g : Bridge → Bridge} {s : State} : (onBrg b g s).imageOk = s.imageOk := rfl

@[simp] theorem onBrg_cfg {b : Nat} {g : Bridge → Bridge} {s : State} : (onBrg b g s).cfg = s.cfg := rfl

@[simp] theorem onBrg_jr {b : Nat} {g : Bridge → Bridge} {s : State} : (onBrg b g s).jr = s.jr := rfl

@[simp] theorem onBrg_mg {b : Nat} {g : Bridge → Bridge} {s : State} : (onBrg b g s).mg = s.mg := rfl

@[simp] theorem onBrg_funcs {b : Nat} {g : Bridge → Bridge} {s : State} : (onBrg b g s).funcs = s.funcs := rfl

@[simp] theorem onBrg_qs {b : Nat} {g : Bridge → Bridge} {s : State} : (onBrg b g s).qs = s.qs := rfl

@[simp] theorem onBrg_brg {b : Nat} {g : Bridge → Bridge} {s : State} : (onBrg b g s).brg = vupd s.brg b g := rfl

@[simp] theorem onBrg_cmds {b : Nat} {g : Bridge → Bridge} {s : State} : (onBrg b g s).cmds = s.cmds := rfl

@[simp] theorem onBrg_nextUid {b : Nat} {g : Bridge → Bridge} {s : State} : (onBrg b g s).nextUid = s.nextUid := rfl

@[simp] theorem onBrg_slices {b : Nat} {g : Bridge → Bridge} {s : State} : (onBrg b g s).slices = s.slices := rfl

@[simp] theorem onBrg_flails {b : Nat} {g : Bridge → Bridge} {s : State} : (onBrg b g s).flails = s.flails := rfl

@[simp] theorem onBrg_ring {b : Nat} {g : Bridge → Bridge} {s : State} : (onBrg b g s).ring = s.ring := rfl

@[simp] theorem onBrg_dimms {b : Nat} {g : Bridge → Bridge} {s : State} : (onBrg b g s).dimms = s.dimms := rfl

@[simp] theorem onBrg_cxl {b : Nat} {g : Bridge → Bridge} {s : State} : (onBrg b g s).cxl = s.cxl := rfl

@[simp] theorem onBrg_stolon {b : Nat} {g : Bridge → Bridge} {s : State} : (onBrg b g s).stolon = s.stolon := rfl

@[simp] theorem onBrg_kv {b : Nat} {g : Bridge → Bridge} {s : State} : (onBrg b g s).kv = s.kv := rfl

@[simp] theorem onBrg_partials {b : Nat} {g : Bridge → Bridge} {s : State} : (onBrg b g s).partials = s.partials := rfl

@[simp] theorem onBrg_cores {b : Nat} {g : Bridge → Bridge} {s : State} : (onBrg b g s).cores = s.cores := rfl

@[simp] theorem onBrg_pool {b : Nat} {g : Bridge → Bridge} {s : State} : (onBrg b g s).pool = s.pool := rfl

@[simp] theorem onBrg_qos {b : Nat} {g : Bridge → Bridge} {s : State} : (onBrg b g s).qos = s.qos := rfl

@[simp] theorem onBrg_led {b : Nat} {g : Bridge → Bridge} {s : State} : (onBrg b g s).led = s.led := rfl

@[simp] theorem onBrg_pmc {b : Nat} {g : Bridge → Bridge} {s : State} : (onBrg b g s).pmc = s.pmc := rfl

@[simp] theorem onBrg_recov {b : Nat} {g : Bridge → Bridge} {s : State} : (onBrg b g s).recov = s.recov := rfl

@[simp] theorem onBrg_cnt {b : Nat} {g : Bridge → Bridge} {s : State} : (onBrg b g s).cnt = s.cnt := rfl

@[simp] theorem onBrg_mem {b : Nat} {g : Bridge → Bridge} {s : State} : (onBrg b g s).mem = s.mem := rfl

@[simp] theorem onBrg_poison {b : Nat} {g : Bridge → Bridge} {s : State} : (onBrg b g s).poison = s.poison := rfl

@[simp] theorem onBrg_out {b : Nat} {g : Bridge → Bridge} {s : State} : (onBrg b g s).out = s.out := rfl

@[simp] theorem onBrg_freeCtr {b : Nat} {g : Bridge → Bridge} {s : State} : (onBrg b g s).freeCtr = s.freeCtr := rfl

/-! ### onSlice -/

@[simp] theorem onSlice_pending {k : Nat} {g : Slice → Slice} {s : State} : (onSlice k g s).pending = s.pending := rfl

@[simp] theorem onSlice_sys {k : Nat} {g : Slice → Slice} {s : State} : (onSlice k g s).sys = s.sys := rfl

@[simp] theorem onSlice_tb {k : Nat} {g : Slice → Slice} {s : State} : (onSlice k g s).tb = s.tb := rfl

@[simp] theorem onSlice_links {k : Nat} {g : Slice → Slice} {s : State} : (onSlice k g s).links = s.links := rfl

@[simp] theorem onSlice_ports {k : Nat} {g : Slice → Slice} {s : State} : (onSlice k g s).ports = s.ports := rfl

@[simp] theorem onSlice_orphanSince {k : Nat} {g : Slice → Slice} {s : State} : (onSlice k g s).orphanSince = s.orphanSince := rfl

@[simp] theorem onSlice_flash {k : Nat} {g : Slice → Slice} {s : State} : (onSlice k g s).flash = s.flash := rfl

@[simp] theorem onSlice_image {k : Nat} {g : Slice → Slice} {s : State} : (onSlice k g s).image = s.image := rfl

@[simp] theorem onSlice_imageOk {k : Nat} {g : Slice → Slice} {s : State} : (onSlice k g s).imageOk = s.imageOk := rfl

@[simp] theorem onSlice_cfg {k : Nat} {g : Slice → Slice} {s : State} : (onSlice k g s).cfg = s.cfg := rfl

@[simp] theorem onSlice_jr {k : Nat} {g : Slice → Slice} {s : State} : (onSlice k g s).jr = s.jr := rfl

@[simp] theorem onSlice_mg {k : Nat} {g : Slice → Slice} {s : State} : (onSlice k g s).mg = s.mg := rfl

@[simp] theorem onSlice_funcs {k : Nat} {g : Slice → Slice} {s : State} : (onSlice k g s).funcs = s.funcs := rfl

@[simp] theorem onSlice_qs {k : Nat} {g : Slice → Slice} {s : State} : (onSlice k g s).qs = s.qs := rfl

@[simp] theorem onSlice_brg {k : Nat} {g : Slice → Slice} {s : State} : (onSlice k g s).brg = s.brg := rfl

@[simp] theorem onSlice_cmds {k : Nat} {g : Slice → Slice} {s : State} : (onSlice k g s).cmds = s.cmds := rfl

@[simp] theorem onSlice_nextUid {k : Nat} {g : Slice → Slice} {s : State} : (onSlice k g s).nextUid = s.nextUid := rfl

@[simp] theorem onSlice_slices {k : Nat} {g : Slice → Slice} {s : State} : (onSlice k g s).slices = vupd s.slices k g := rfl

@[simp] theorem onSlice_flails {k : Nat} {g : Slice → Slice} {s : State} : (onSlice k g s).flails = s.flails := rfl

@[simp] theorem onSlice_ring {k : Nat} {g : Slice → Slice} {s : State} : (onSlice k g s).ring = s.ring := rfl

@[simp] theorem onSlice_dimms {k : Nat} {g : Slice → Slice} {s : State} : (onSlice k g s).dimms = s.dimms := rfl

@[simp] theorem onSlice_cxl {k : Nat} {g : Slice → Slice} {s : State} : (onSlice k g s).cxl = s.cxl := rfl

@[simp] theorem onSlice_stolon {k : Nat} {g : Slice → Slice} {s : State} : (onSlice k g s).stolon = s.stolon := rfl

@[simp] theorem onSlice_kv {k : Nat} {g : Slice → Slice} {s : State} : (onSlice k g s).kv = s.kv := rfl

@[simp] theorem onSlice_partials {k : Nat} {g : Slice → Slice} {s : State} : (onSlice k g s).partials = s.partials := rfl

@[simp] theorem onSlice_cores {k : Nat} {g : Slice → Slice} {s : State} : (onSlice k g s).cores = s.cores := rfl

@[simp] theorem onSlice_pool {k : Nat} {g : Slice → Slice} {s : State} : (onSlice k g s).pool = s.pool := rfl

@[simp] theorem onSlice_qos {k : Nat} {g : Slice → Slice} {s : State} : (onSlice k g s).qos = s.qos := rfl

@[simp] theorem onSlice_led {k : Nat} {g : Slice → Slice} {s : State} : (onSlice k g s).led = s.led := rfl

@[simp] theorem onSlice_pmc {k : Nat} {g : Slice → Slice} {s : State} : (onSlice k g s).pmc = s.pmc := rfl

@[simp] theorem onSlice_recov {k : Nat} {g : Slice → Slice} {s : State} : (onSlice k g s).recov = s.recov := rfl

@[simp] theorem onSlice_cnt {k : Nat} {g : Slice → Slice} {s : State} : (onSlice k g s).cnt = s.cnt := rfl

@[simp] theorem onSlice_mem {k : Nat} {g : Slice → Slice} {s : State} : (onSlice k g s).mem = s.mem := rfl

@[simp] theorem onSlice_poison {k : Nat} {g : Slice → Slice} {s : State} : (onSlice k g s).poison = s.poison := rfl

@[simp] theorem onSlice_out {k : Nat} {g : Slice → Slice} {s : State} : (onSlice k g s).out = s.out := rfl

@[simp] theorem onSlice_freeCtr {k : Nat} {g : Slice → Slice} {s : State} : (onSlice k g s).freeCtr = s.freeCtr := rfl

/-! ### onFlail -/

@[simp] theorem onFlail_pending {k : Nat} {g : Flail → Flail} {s : State} : (onFlail k g s).pending = s.pending := rfl

@[simp] theorem onFlail_sys {k : Nat} {g : Flail → Flail} {s : State} : (onFlail k g s).sys = s.sys := rfl

@[simp] theorem onFlail_tb {k : Nat} {g : Flail → Flail} {s : State} : (onFlail k g s).tb = s.tb := rfl

@[simp] theorem onFlail_links {k : Nat} {g : Flail → Flail} {s : State} : (onFlail k g s).links = s.links := rfl

@[simp] theorem onFlail_ports {k : Nat} {g : Flail → Flail} {s : State} : (onFlail k g s).ports = s.ports := rfl

@[simp] theorem onFlail_orphanSince {k : Nat} {g : Flail → Flail} {s : State} : (onFlail k g s).orphanSince = s.orphanSince := rfl

@[simp] theorem onFlail_flash {k : Nat} {g : Flail → Flail} {s : State} : (onFlail k g s).flash = s.flash := rfl

@[simp] theorem onFlail_image {k : Nat} {g : Flail → Flail} {s : State} : (onFlail k g s).image = s.image := rfl

@[simp] theorem onFlail_imageOk {k : Nat} {g : Flail → Flail} {s : State} : (onFlail k g s).imageOk = s.imageOk := rfl

@[simp] theorem onFlail_cfg {k : Nat} {g : Flail → Flail} {s : State} : (onFlail k g s).cfg = s.cfg := rfl

@[simp] theorem onFlail_jr {k : Nat} {g : Flail → Flail} {s : State} : (onFlail k g s).jr = s.jr := rfl

@[simp] theorem onFlail_mg {k : Nat} {g : Flail → Flail} {s : State} : (onFlail k g s).mg = s.mg := rfl

@[simp] theorem onFlail_funcs {k : Nat} {g : Flail → Flail} {s : State} : (onFlail k g s).funcs = s.funcs := rfl

@[simp] theorem onFlail_qs {k : Nat} {g : Flail → Flail} {s : State} : (onFlail k g s).qs = s.qs := rfl

@[simp] theorem onFlail_brg {k : Nat} {g : Flail → Flail} {s : State} : (onFlail k g s).brg = s.brg := rfl

@[simp] theorem onFlail_cmds {k : Nat} {g : Flail → Flail} {s : State} : (onFlail k g s).cmds = s.cmds := rfl

@[simp] theorem onFlail_nextUid {k : Nat} {g : Flail → Flail} {s : State} : (onFlail k g s).nextUid = s.nextUid := rfl

@[simp] theorem onFlail_slices {k : Nat} {g : Flail → Flail} {s : State} : (onFlail k g s).slices = s.slices := rfl

@[simp] theorem onFlail_flails {k : Nat} {g : Flail → Flail} {s : State} : (onFlail k g s).flails = vupd s.flails k g := rfl

@[simp] theorem onFlail_ring {k : Nat} {g : Flail → Flail} {s : State} : (onFlail k g s).ring = s.ring := rfl

@[simp] theorem onFlail_dimms {k : Nat} {g : Flail → Flail} {s : State} : (onFlail k g s).dimms = s.dimms := rfl

@[simp] theorem onFlail_cxl {k : Nat} {g : Flail → Flail} {s : State} : (onFlail k g s).cxl = s.cxl := rfl

@[simp] theorem onFlail_stolon {k : Nat} {g : Flail → Flail} {s : State} : (onFlail k g s).stolon = s.stolon := rfl

@[simp] theorem onFlail_kv {k : Nat} {g : Flail → Flail} {s : State} : (onFlail k g s).kv = s.kv := rfl

@[simp] theorem onFlail_partials {k : Nat} {g : Flail → Flail} {s : State} : (onFlail k g s).partials = s.partials := rfl

@[simp] theorem onFlail_cores {k : Nat} {g : Flail → Flail} {s : State} : (onFlail k g s).cores = s.cores := rfl

@[simp] theorem onFlail_pool {k : Nat} {g : Flail → Flail} {s : State} : (onFlail k g s).pool = s.pool := rfl

@[simp] theorem onFlail_qos {k : Nat} {g : Flail → Flail} {s : State} : (onFlail k g s).qos = s.qos := rfl

@[simp] theorem onFlail_led {k : Nat} {g : Flail → Flail} {s : State} : (onFlail k g s).led = s.led := rfl

@[simp] theorem onFlail_pmc {k : Nat} {g : Flail → Flail} {s : State} : (onFlail k g s).pmc = s.pmc := rfl

@[simp] theorem onFlail_recov {k : Nat} {g : Flail → Flail} {s : State} : (onFlail k g s).recov = s.recov := rfl

@[simp] theorem onFlail_cnt {k : Nat} {g : Flail → Flail} {s : State} : (onFlail k g s).cnt = s.cnt := rfl

@[simp] theorem onFlail_mem {k : Nat} {g : Flail → Flail} {s : State} : (onFlail k g s).mem = s.mem := rfl

@[simp] theorem onFlail_poison {k : Nat} {g : Flail → Flail} {s : State} : (onFlail k g s).poison = s.poison := rfl

@[simp] theorem onFlail_out {k : Nat} {g : Flail → Flail} {s : State} : (onFlail k g s).out = s.out := rfl

@[simp] theorem onFlail_freeCtr {k : Nat} {g : Flail → Flail} {s : State} : (onFlail k g s).freeCtr = s.freeCtr := rfl

/-! ### onCore -/

@[simp] theorem onCore_pending {k : Nat} {g : Core → Core} {s : State} : (onCore k g s).pending = s.pending := rfl

@[simp] theorem onCore_sys {k : Nat} {g : Core → Core} {s : State} : (onCore k g s).sys = s.sys := rfl

@[simp] theorem onCore_tb {k : Nat} {g : Core → Core} {s : State} : (onCore k g s).tb = s.tb := rfl

@[simp] theorem onCore_links {k : Nat} {g : Core → Core} {s : State} : (onCore k g s).links = s.links := rfl

@[simp] theorem onCore_ports {k : Nat} {g : Core → Core} {s : State} : (onCore k g s).ports = s.ports := rfl

@[simp] theorem onCore_orphanSince {k : Nat} {g : Core → Core} {s : State} : (onCore k g s).orphanSince = s.orphanSince := rfl

@[simp] theorem onCore_flash {k : Nat} {g : Core → Core} {s : State} : (onCore k g s).flash = s.flash := rfl

@[simp] theorem onCore_image {k : Nat} {g : Core → Core} {s : State} : (onCore k g s).image = s.image := rfl

@[simp] theorem onCore_imageOk {k : Nat} {g : Core → Core} {s : State} : (onCore k g s).imageOk = s.imageOk := rfl

@[simp] theorem onCore_cfg {k : Nat} {g : Core → Core} {s : State} : (onCore k g s).cfg = s.cfg := rfl

@[simp] theorem onCore_jr {k : Nat} {g : Core → Core} {s : State} : (onCore k g s).jr = s.jr := rfl

@[simp] theorem onCore_mg {k : Nat} {g : Core → Core} {s : State} : (onCore k g s).mg = s.mg := rfl

@[simp] theorem onCore_funcs {k : Nat} {g : Core → Core} {s : State} : (onCore k g s).funcs = s.funcs := rfl

@[simp] theorem onCore_qs {k : Nat} {g : Core → Core} {s : State} : (onCore k g s).qs = s.qs := rfl

@[simp] theorem onCore_brg {k : Nat} {g : Core → Core} {s : State} : (onCore k g s).brg = s.brg := rfl

@[simp] theorem onCore_cmds {k : Nat} {g : Core → Core} {s : State} : (onCore k g s).cmds = s.cmds := rfl

@[simp] theorem onCore_nextUid {k : Nat} {g : Core → Core} {s : State} : (onCore k g s).nextUid = s.nextUid := rfl

@[simp] theorem onCore_slices {k : Nat} {g : Core → Core} {s : State} : (onCore k g s).slices = s.slices := rfl

@[simp] theorem onCore_flails {k : Nat} {g : Core → Core} {s : State} : (onCore k g s).flails = s.flails := rfl

@[simp] theorem onCore_ring {k : Nat} {g : Core → Core} {s : State} : (onCore k g s).ring = s.ring := rfl

@[simp] theorem onCore_dimms {k : Nat} {g : Core → Core} {s : State} : (onCore k g s).dimms = s.dimms := rfl

@[simp] theorem onCore_cxl {k : Nat} {g : Core → Core} {s : State} : (onCore k g s).cxl = s.cxl := rfl

@[simp] theorem onCore_stolon {k : Nat} {g : Core → Core} {s : State} : (onCore k g s).stolon = s.stolon := rfl

@[simp] theorem onCore_kv {k : Nat} {g : Core → Core} {s : State} : (onCore k g s).kv = s.kv := rfl

@[simp] theorem onCore_partials {k : Nat} {g : Core → Core} {s : State} : (onCore k g s).partials = s.partials := rfl

@[simp] theorem onCore_cores {k : Nat} {g : Core → Core} {s : State} : (onCore k g s).cores = vupd s.cores k g := rfl

@[simp] theorem onCore_pool {k : Nat} {g : Core → Core} {s : State} : (onCore k g s).pool = s.pool := rfl

@[simp] theorem onCore_qos {k : Nat} {g : Core → Core} {s : State} : (onCore k g s).qos = s.qos := rfl

@[simp] theorem onCore_led {k : Nat} {g : Core → Core} {s : State} : (onCore k g s).led = s.led := rfl

@[simp] theorem onCore_pmc {k : Nat} {g : Core → Core} {s : State} : (onCore k g s).pmc = s.pmc := rfl

@[simp] theorem onCore_recov {k : Nat} {g : Core → Core} {s : State} : (onCore k g s).recov = s.recov := rfl

@[simp] theorem onCore_cnt {k : Nat} {g : Core → Core} {s : State} : (onCore k g s).cnt = s.cnt := rfl

@[simp] theorem onCore_mem {k : Nat} {g : Core → Core} {s : State} : (onCore k g s).mem = s.mem := rfl

@[simp] theorem onCore_poison {k : Nat} {g : Core → Core} {s : State} : (onCore k g s).poison = s.poison := rfl

@[simp] theorem onCore_out {k : Nat} {g : Core → Core} {s : State} : (onCore k g s).out = s.out := rfl

@[simp] theorem onCore_freeCtr {k : Nat} {g : Core → Core} {s : State} : (onCore k g s).freeCtr = s.freeCtr := rfl

/-! ### onCmd -/

@[simp] theorem onCmd_pending {u : Nat} {g : Cmd → Cmd} {s : State} : (onCmd u g s).pending = s.pending := rfl

@[simp] theorem onCmd_sys {u : Nat} {g : Cmd → Cmd} {s : State} : (onCmd u g s).sys = s.sys := rfl

@[simp] theorem onCmd_tb {u : Nat} {g : Cmd → Cmd} {s : State} : (onCmd u g s).tb = s.tb := rfl

@[simp] theorem onCmd_links {u : Nat} {g : Cmd → Cmd} {s : State} : (onCmd u g s).links = s.links := rfl

@[simp] theorem onCmd_ports {u : Nat} {g : Cmd → Cmd} {s : State} : (onCmd u g s).ports = s.ports := rfl

@[simp] theorem onCmd_orphanSince {u : Nat} {g : Cmd → Cmd} {s : State} : (onCmd u g s).orphanSince = s.orphanSince := rfl

@[simp] theorem onCmd_flash {u : Nat} {g : Cmd → Cmd} {s : State} : (onCmd u g s).flash = s.flash := rfl

@[simp] theorem onCmd_image {u : Nat} {g : Cmd → Cmd} {s : State} : (onCmd u g s).image = s.image := rfl

@[simp] theorem onCmd_imageOk {u : Nat} {g : Cmd → Cmd} {s : State} : (onCmd u g s).imageOk = s.imageOk := rfl

@[simp] theorem onCmd_cfg {u : Nat} {g : Cmd → Cmd} {s : State} : (onCmd u g s).cfg = s.cfg := rfl

@[simp] theorem onCmd_jr {u : Nat} {g : Cmd → Cmd} {s : State} : (onCmd u g s).jr = s.jr := rfl

@[simp] theorem onCmd_mg {u : Nat} {g : Cmd → Cmd} {s : State} : (onCmd u g s).mg = s.mg := rfl

@[simp] theorem onCmd_funcs {u : Nat} {g : Cmd → Cmd} {s : State} : (onCmd u g s).funcs = s.funcs := rfl

@[simp] theorem onCmd_qs {u : Nat} {g : Cmd → Cmd} {s : State} : (onCmd u g s).qs = s.qs := rfl

@[simp] theorem onCmd_brg {u : Nat} {g : Cmd → Cmd} {s : State} : (onCmd u g s).brg = s.brg := rfl

@[simp] theorem onCmd_cmds {u : Nat} {g : Cmd → Cmd} {s : State} : (onCmd u g s).cmds = s.cmds.map fun c => if c.uid == u then g c else c := rfl

@[simp] theorem onCmd_nextUid {u : Nat} {g : Cmd → Cmd} {s : State} : (onCmd u g s).nextUid = s.nextUid := rfl

@[simp] theorem onCmd_slices {u : Nat} {g : Cmd → Cmd} {s : State} : (onCmd u g s).slices = s.slices := rfl

@[simp] theorem onCmd_flails {u : Nat} {g : Cmd → Cmd} {s : State} : (onCmd u g s).flails = s.flails := rfl

@[simp] theorem onCmd_ring {u : Nat} {g : Cmd → Cmd} {s : State} : (onCmd u g s).ring = s.ring := rfl

@[simp] theorem onCmd_dimms {u : Nat} {g : Cmd → Cmd} {s : State} : (onCmd u g s).dimms = s.dimms := rfl

@[simp] theorem onCmd_cxl {u : Nat} {g : Cmd → Cmd} {s : State} : (onCmd u g s).cxl = s.cxl := rfl

@[simp] theorem onCmd_stolon {u : Nat} {g : Cmd → Cmd} {s : State} : (onCmd u g s).stolon = s.stolon := rfl

@[simp] theorem onCmd_kv {u : Nat} {g : Cmd → Cmd} {s : State} : (onCmd u g s).kv = s.kv := rfl

@[simp] theorem onCmd_partials {u : Nat} {g : Cmd → Cmd} {s : State} : (onCmd u g s).partials = s.partials := rfl

@[simp] theorem onCmd_cores {u : Nat} {g : Cmd → Cmd} {s : State} : (onCmd u g s).cores = s.cores := rfl

@[simp] theorem onCmd_pool {u : Nat} {g : Cmd → Cmd} {s : State} : (onCmd u g s).pool = s.pool := rfl

@[simp] theorem onCmd_qos {u : Nat} {g : Cmd → Cmd} {s : State} : (onCmd u g s).qos = s.qos := rfl

@[simp] theorem onCmd_led {u : Nat} {g : Cmd → Cmd} {s : State} : (onCmd u g s).led = s.led := rfl

@[simp] theorem onCmd_pmc {u : Nat} {g : Cmd → Cmd} {s : State} : (onCmd u g s).pmc = s.pmc := rfl

@[simp] theorem onCmd_recov {u : Nat} {g : Cmd → Cmd} {s : State} : (onCmd u g s).recov = s.recov := rfl

@[simp] theorem onCmd_cnt {u : Nat} {g : Cmd → Cmd} {s : State} : (onCmd u g s).cnt = s.cnt := rfl

@[simp] theorem onCmd_mem {u : Nat} {g : Cmd → Cmd} {s : State} : (onCmd u g s).mem = s.mem := rfl

@[simp] theorem onCmd_poison {u : Nat} {g : Cmd → Cmd} {s : State} : (onCmd u g s).poison = s.poison := rfl

@[simp] theorem onCmd_out {u : Nat} {g : Cmd → Cmd} {s : State} : (onCmd u g s).out = s.out := rfl

@[simp] theorem onCmd_freeCtr {u : Nat} {g : Cmd → Cmd} {s : State} : (onCmd u g s).freeCtr = s.freeCtr := rfl

/-! ### drew -/

@[simp] theorem drew_pending  {s : State} : (drew s).pending = s.pending := rfl

@[simp] theorem drew_sys  {s : State} : (drew s).sys = s.sys := rfl

@[simp] theorem drew_tb  {s : State} : (drew s).tb = s.tb := rfl

@[simp] theorem drew_links  {s : State} : (drew s).links = s.links := rfl

@[simp] theorem drew_ports  {s : State} : (drew s).ports = s.ports := rfl

@[simp] theorem drew_orphanSince  {s : State} : (drew s).orphanSince = s.orphanSince := rfl

@[simp] theorem drew_flash  {s : State} : (drew s).flash = s.flash := rfl

@[simp] theorem drew_image  {s : State} : (drew s).image = s.image := rfl

@[simp] theorem drew_imageOk  {s : State} : (drew s).imageOk = s.imageOk := rfl

@[simp] theorem drew_cfg  {s : State} : (drew s).cfg = s.cfg := rfl

@[simp] theorem drew_jr  {s : State} : (drew s).jr = s.jr := rfl

@[simp] theorem drew_mg  {s : State} : (drew s).mg = s.mg := rfl

@[simp] theorem drew_funcs  {s : State} : (drew s).funcs = s.funcs := rfl

@[simp] theorem drew_qs  {s : State} : (drew s).qs = s.qs := rfl

@[simp] theorem drew_brg  {s : State} : (drew s).brg = s.brg := rfl

@[simp] theorem drew_cmds  {s : State} : (drew s).cmds = s.cmds := rfl

@[simp] theorem drew_nextUid  {s : State} : (drew s).nextUid = s.nextUid := rfl

@[simp] theorem drew_slices  {s : State} : (drew s).slices = s.slices := rfl

@[simp] theorem drew_flails  {s : State} : (drew s).flails = s.flails := rfl

@[simp] theorem drew_ring  {s : State} : (drew s).ring = s.ring := rfl

@[simp] theorem drew_dimms  {s : State} : (drew s).dimms = s.dimms := rfl

@[simp] theorem drew_cxl  {s : State} : (drew s).cxl = s.cxl := rfl

@[simp] theorem drew_stolon  {s : State} : (drew s).stolon = s.stolon := rfl

@[simp] theorem drew_kv  {s : State} : (drew s).kv = s.kv := rfl

@[simp] theorem drew_partials  {s : State} : (drew s).partials = s.partials := rfl

@[simp] theorem drew_cores  {s : State} : (drew s).cores = s.cores := rfl

@[simp] theorem drew_pool  {s : State} : (drew s).pool = s.pool := rfl

@[simp] theorem drew_qos  {s : State} : (drew s).qos = s.qos := rfl

@[simp] theorem drew_led  {s : State} : (drew s).led = s.led := rfl

@[simp] theorem drew_pmc  {s : State} : (drew s).pmc = s.pmc := rfl

@[simp] theorem drew_recov  {s : State} : (drew s).recov = s.recov := rfl

@[simp] theorem drew_cnt  {s : State} : (drew s).cnt = s.cnt := rfl

@[simp] theorem drew_mem  {s : State} : (drew s).mem = s.mem := rfl

@[simp] theorem drew_poison  {s : State} : (drew s).poison = s.poison := rfl

@[simp] theorem drew_out  {s : State} : (drew s).out = s.out := rfl

@[simp] theorem drew_freeCtr  {s : State} : (drew s).freeCtr = s.freeCtr + 1 := rfl

/-! ### emit -/

@[simp] theorem emit_pending {o : Out} {s : State} : (emit o s).pending = s.pending := rfl

@[simp] theorem emit_sys {o : Out} {s : State} : (emit o s).sys = s.sys := rfl

@[simp] theorem emit_tb {o : Out} {s : State} : (emit o s).tb = s.tb := rfl

@[simp] theorem emit_links {o : Out} {s : State} : (emit o s).links = s.links := rfl

@[simp] theorem emit_ports {o : Out} {s : State} : (emit o s).ports = s.ports := rfl

@[simp] theorem emit_orphanSince {o : Out} {s : State} : (emit o s).orphanSince = s.orphanSince := rfl

@[simp] theorem emit_flash {o : Out} {s : State} : (emit o s).flash = s.flash := rfl

@[simp] theorem emit_image {o : Out} {s : State} : (emit o s).image = s.image := rfl

@[simp] theorem emit_imageOk {o : Out} {s : State} : (emit o s).imageOk = s.imageOk := rfl

@[simp] theorem emit_cfg {o : Out} {s : State} : (emit o s).cfg = s.cfg := rfl

@[simp] theorem emit_jr {o : Out} {s : State} : (emit o s).jr = s.jr := rfl

@[simp] theorem emit_mg {o : Out} {s : State} : (emit o s).mg = s.mg := rfl

@[simp] theorem emit_funcs {o : Out} {s : State} : (emit o s).funcs = s.funcs := rfl

@[simp] theorem emit_qs {o : Out} {s : State} : (emit o s).qs = s.qs := rfl

@[simp] theorem emit_brg {o : Out} {s : State} : (emit o s).brg = s.brg := rfl

@[simp] theorem emit_cmds {o : Out} {s : State} : (emit o s).cmds = s.cmds := rfl

@[simp] theorem emit_nextUid {o : Out} {s : State} : (emit o s).nextUid = s.nextUid := rfl

@[simp] theorem emit_slices {o : Out} {s : State} : (emit o s).slices = s.slices := rfl

@[simp] theorem emit_flails {o : Out} {s : State} : (emit o s).flails = s.flails := rfl

@[simp] theorem emit_ring {o : Out} {s : State} : (emit o s).ring = s.ring := rfl

@[simp] theorem emit_dimms {o : Out} {s : State} : (emit o s).dimms = s.dimms := rfl

@[simp] theorem emit_cxl {o : Out} {s : State} : (emit o s).cxl = s.cxl := rfl

@[simp] theorem emit_stolon {o : Out} {s : State} : (emit o s).stolon = s.stolon := rfl

@[simp] theorem emit_kv {o : Out} {s : State} : (emit o s).kv = s.kv := rfl

@[simp] theorem emit_partials {o : Out} {s : State} : (emit o s).partials = s.partials := rfl

@[simp] theorem emit_cores {o : Out} {s : State} : (emit o s).cores = s.cores := rfl

@[simp] theorem emit_pool {o : Out} {s : State} : (emit o s).pool = s.pool := rfl

@[simp] theorem emit_qos {o : Out} {s : State} : (emit o s).qos = s.qos := rfl

@[simp] theorem emit_led {o : Out} {s : State} : (emit o s).led = s.led := rfl

@[simp] theorem emit_pmc {o : Out} {s : State} : (emit o s).pmc = s.pmc := rfl

@[simp] theorem emit_recov {o : Out} {s : State} : (emit o s).recov = s.recov := rfl

@[simp] theorem emit_cnt {o : Out} {s : State} : (emit o s).cnt = s.cnt := rfl

@[simp] theorem emit_mem {o : Out} {s : State} : (emit o s).mem = s.mem := rfl

@[simp] theorem emit_poison {o : Out} {s : State} : (emit o s).poison = s.poison := rfl

@[simp] theorem emit_out {o : Out} {s : State} : (emit o s).out = o :: s.out := rfl

@[simp] theorem emit_freeCtr {o : Out} {s : State} : (emit o s).freeCtr = s.freeCtr := rfl

/-! ### countIgnored -/

@[simp] theorem countIgnored_pending {d b : Nat} {s : State} : (countIgnored d b s).pending = s.pending := rfl

@[simp] theorem countIgnored_sys {d b : Nat} {s : State} : (countIgnored d b s).sys = s.sys := rfl

@[simp] theorem countIgnored_tb {d b : Nat} {s : State} : (countIgnored d b s).tb = s.tb := rfl

@[simp] theorem countIgnored_links {d b : Nat} {s : State} : (countIgnored d b s).links = s.links := rfl

@[simp] theorem countIgnored_ports {d b : Nat} {s : State} : (countIgnored d b s).ports = s.ports := rfl

@[simp] theorem countIgnored_orphanSince {d b : Nat} {s : State} : (countIgnored d b s).orphanSince = s.orphanSince := rfl

@[simp] theorem countIgnored_flash {d b : Nat} {s : State} : (countIgnored d b s).flash = s.flash := rfl

@[simp] theorem countIgnored_image {d b : Nat} {s : State} : (countIgnored d b s).image = s.image := rfl

@[simp] theorem countIgnored_imageOk {d b : Nat} {s : State} : (countIgnored d b s).imageOk = s.imageOk := rfl

@[simp] theorem countIgnored_cfg {d b : Nat} {s : State} : (countIgnored d b s).cfg = s.cfg := rfl

@[simp] theorem countIgnored_jr {d b : Nat} {s : State} : (countIgnored d b s).jr = s.jr := rfl

@[simp] theorem countIgnored_mg {d b : Nat} {s : State} : (countIgnored d b s).mg = s.mg := rfl

@[simp] theorem countIgnored_funcs {d b : Nat} {s : State} : (countIgnored d b s).funcs = s.funcs := rfl

@[simp] theorem countIgnored_qs {d b : Nat} {s : State} : (countIgnored d b s).qs = s.qs := rfl

@[simp] theorem countIgnored_brg {d b : Nat} {s : State} : (countIgnored d b s).brg = s.brg := rfl

@[simp] theorem countIgnored_cmds {d b : Nat} {s : State} : (countIgnored d b s).cmds = s.cmds := rfl

@[simp] theorem countIgnored_nextUid {d b : Nat} {s : State} : (countIgnored d b s).nextUid = s.nextUid := rfl

@[simp] theorem countIgnored_slices {d b : Nat} {s : State} : (countIgnored d b s).slices = s.slices := rfl

@[simp] theorem countIgnored_flails {d b : Nat} {s : State} : (countIgnored d b s).flails = s.flails := rfl

@[simp] theorem countIgnored_ring {d b : Nat} {s : State} : (countIgnored d b s).ring = s.ring := rfl

@[simp] theorem countIgnored_dimms {d b : Nat} {s : State} : (countIgnored d b s).dimms = s.dimms := rfl

@[simp] theorem countIgnored_cxl {d b : Nat} {s : State} : (countIgnored d b s).cxl = s.cxl := rfl

@[simp] theorem countIgnored_stolon {d b : Nat} {s : State} : (countIgnored d b s).stolon = s.stolon := rfl

@[simp] theorem countIgnored_kv {d b : Nat} {s : State} : (countIgnored d b s).kv = s.kv := rfl

@[simp] theorem countIgnored_partials {d b : Nat} {s : State} : (countIgnored d b s).partials = s.partials := rfl

@[simp] theorem countIgnored_cores {d b : Nat} {s : State} : (countIgnored d b s).cores = s.cores := rfl

@[simp] theorem countIgnored_pool {d b : Nat} {s : State} : (countIgnored d b s).pool = s.pool := rfl

@[simp] theorem countIgnored_qos {d b : Nat} {s : State} : (countIgnored d b s).qos = s.qos := rfl

@[simp] theorem countIgnored_led {d b : Nat} {s : State} : (countIgnored d b s).led = s.led := rfl

@[simp] theorem countIgnored_pmc {d b : Nat} {s : State} : (countIgnored d b s).pmc = s.pmc := rfl

@[simp] theorem countIgnored_recov {d b : Nat} {s : State} : (countIgnored d b s).recov = s.recov := rfl

@[simp] theorem countIgnored_mem {d b : Nat} {s : State} : (countIgnored d b s).mem = s.mem := rfl

@[simp] theorem countIgnored_poison {d b : Nat} {s : State} : (countIgnored d b s).poison = s.poison := rfl

@[simp] theorem countIgnored_out {d b : Nat} {s : State} : (countIgnored d b s).out = s.out := rfl

@[simp] theorem countIgnored_freeCtr {d b : Nat} {s : State} : (countIgnored d b s).freeCtr = s.freeCtr := rfl

/-! ### Operations with cases: each is the state with only the named parts changed -/

theorem tally_frame {i : BankId} {e n : Nat} {t : Tag} {s : State} : tally i e n t s = { s with cnt := (tally i e n t s).cnt } := by
  cases i <;> rfl

theorem hostWrite_frame {f a : Nat} {bs : List Byte} {s : State} :
    hostWrite f a bs s = { s with out := (hostWrite f a bs s).out } := by
  unfold hostWrite hostWriteRo; split <;> rfl

theorem raiseMsix_frame {f v : Nat} {s : State} :
    raiseMsix f v s = { s with funcs := (raiseMsix f v s).funcs, out := (raiseMsix f v s).out } := by
  unfold raiseMsix; dsimp only; split <;> [rfl; split <;> [rfl; split <;> rfl]]

theorem kickSnap_frame {s : State} : kickSnap s = { s with jr := (kickSnap s).jr } := by
  unfold kickSnap; split <;> [split <;> rfl; rfl]

theorem kickFailed_frame {s : State} : kickFailed s = { s with jr := (kickFailed s).jr } := by
  unfold kickFailed
  split
  · rfl
  · split
    · rfl
    · split
      · rfl
      · split
        · rfl
        · exact kickSnap_frame

theorem jKick_frame {s : State} : jKick s = { s with jr := (jKick s).jr } := by
  unfold jKick
  split
  · rfl
  · split
    · exact kickFailed_frame
    · split
      · rfl
      · split
        · rfl
        · split
          · rfl
          · split
            · rfl
            · split
              · exact kickSnap_frame
              · split <;> rfl

theorem jAdd_frame {b : JBody} {s : State} : jAdd b s = { s with jr := (jAdd b s).jr } := by
  unfold jAdd
  split
  · rfl
  · exact jKick_frame

theorem deliverEvent_frame {n : Nat} {e : Event} {s : State} :
    deliverEvent n e s =
      { s with jr := (deliverEvent n e s).jr, funcs := (deliverEvent n e s).funcs, out := (deliverEvent n e s).out } := by
  unfold deliverEvent
  dsimp only
  split
  · split
    · rfl
    · rw [raiseMsix_frame, hostWrite_frame]
  · rfl

theorem raiseEvent_frame {t a b : Nat} {s : State} :
    raiseEvent t a b s = { s with jr := (raiseEvent t a b s).jr, funcs := (raiseEvent t a b s).funcs,
                                  out := (raiseEvent t a b s).out, cnt := (raiseEvent t a b s).cnt } := by
  unfold raiseEvent
  dsimp only
  split
  · rfl
  · split
    · rw [tally_frame, jKick_frame, deliverEvent_frame]
    · rw [tally_frame]

theorem enterState_frame {n : DevState} {c a : Nat} {s : State} :
    enterState n c a s = { s with sys := { s.sys with state := n, cause := BitVec.ofNat 8 c, entered := s.tb.beat },
                                  jr := (enterState n c a s).jr, funcs := (enterState n c a s).funcs,
                                  out := (enterState n c a s).out, cnt := (enterState n c a s).cnt } := by
  unfold enterState
  dsimp only
  rw [raiseEvent_frame, jAdd_frame]

theorem logError_frame {k c : Nat} {e : ErrInfo} {r : List Byte} {s : State} :
    logError k c e r s = { s with jr := (logError k c e r s).jr, funcs := (logError k c e r s).funcs,
                                  out := (logError k c e r s).out, cnt := (logError k c e r s).cnt } := by
  unfold logError
  rw [raiseEvent_frame, jAdd_frame]

@[simp] theorem tally_pending {i : BankId} {e n : Nat} {t : Tag} {s : State} : (tally i e n t s).pending = s.pending := by rw [tally_frame]

@[simp] theorem tally_sys {i : BankId} {e n : Nat} {t : Tag} {s : State} : (tally i e n t s).sys = s.sys := by rw [tally_frame]

@[simp] theorem tally_tb {i : BankId} {e n : Nat} {t : Tag} {s : State} : (tally i e n t s).tb = s.tb := by rw [tally_frame]

@[simp] theorem tally_links {i : BankId} {e n : Nat} {t : Tag} {s : State} : (tally i e n t s).links = s.links := by rw [tally_frame]

@[simp] theorem tally_ports {i : BankId} {e n : Nat} {t : Tag} {s : State} : (tally i e n t s).ports = s.ports := by rw [tally_frame]

@[simp] theorem tally_orphanSince {i : BankId} {e n : Nat} {t : Tag} {s : State} : (tally i e n t s).orphanSince = s.orphanSince := by rw [tally_frame]

@[simp] theorem tally_flash {i : BankId} {e n : Nat} {t : Tag} {s : State} : (tally i e n t s).flash = s.flash := by rw [tally_frame]

@[simp] theorem tally_image {i : BankId} {e n : Nat} {t : Tag} {s : State} : (tally i e n t s).image = s.image := by rw [tally_frame]

@[simp] theorem tally_imageOk {i : BankId} {e n : Nat} {t : Tag} {s : State} : (tally i e n t s).imageOk = s.imageOk := by rw [tally_frame]

@[simp] theorem tally_cfg {i : BankId} {e n : Nat} {t : Tag} {s : State} : (tally i e n t s).cfg = s.cfg := by rw [tally_frame]

@[simp] theorem tally_jr {i : BankId} {e n : Nat} {t : Tag} {s : State} : (tally i e n t s).jr = s.jr := by rw [tally_frame]

@[simp] theorem tally_mg {i : BankId} {e n : Nat} {t : Tag} {s : State} : (tally i e n t s).mg = s.mg := by rw [tally_frame]

@[simp] theorem tally_funcs {i : BankId} {e n : Nat} {t : Tag} {s : State} : (tally i e n t s).funcs = s.funcs := by rw [tally_frame]

@[simp] theorem tally_qs {i : BankId} {e n : Nat} {t : Tag} {s : State} : (tally i e n t s).qs = s.qs := by rw [tally_frame]

@[simp] theorem tally_brg {i : BankId} {e n : Nat} {t : Tag} {s : State} : (tally i e n t s).brg = s.brg := by rw [tally_frame]

@[simp] theorem tally_cmds {i : BankId} {e n : Nat} {t : Tag} {s : State} : (tally i e n t s).cmds = s.cmds := by rw [tally_frame]

@[simp] theorem tally_nextUid {i : BankId} {e n : Nat} {t : Tag} {s : State} : (tally i e n t s).nextUid = s.nextUid := by rw [tally_frame]

@[simp] theorem tally_slices {i : BankId} {e n : Nat} {t : Tag} {s : State} : (tally i e n t s).slices = s.slices := by rw [tally_frame]

@[simp] theorem tally_flails {i : BankId} {e n : Nat} {t : Tag} {s : State} : (tally i e n t s).flails = s.flails := by rw [tally_frame]

@[simp] theorem tally_ring {i : BankId} {e n : Nat} {t : Tag} {s : State} : (tally i e n t s).ring = s.ring := by rw [tally_frame]

@[simp] theorem tally_dimms {i : BankId} {e n : Nat} {t : Tag} {s : State} : (tally i e n t s).dimms = s.dimms := by rw [tally_frame]

@[simp] theorem tally_cxl {i : BankId} {e n : Nat} {t : Tag} {s : State} : (tally i e n t s).cxl = s.cxl := by rw [tally_frame]

@[simp] theorem tally_stolon {i : BankId} {e n : Nat} {t : Tag} {s : State} : (tally i e n t s).stolon = s.stolon := by rw [tally_frame]

@[simp] theorem tally_kv {i : BankId} {e n : Nat} {t : Tag} {s : State} : (tally i e n t s).kv = s.kv := by rw [tally_frame]

@[simp] theorem tally_partials {i : BankId} {e n : Nat} {t : Tag} {s : State} : (tally i e n t s).partials = s.partials := by rw [tally_frame]

@[simp] theorem tally_cores {i : BankId} {e n : Nat} {t : Tag} {s : State} : (tally i e n t s).cores = s.cores := by rw [tally_frame]

@[simp] theorem tally_pool {i : BankId} {e n : Nat} {t : Tag} {s : State} : (tally i e n t s).pool = s.pool := by rw [tally_frame]

@[simp] theorem tally_qos {i : BankId} {e n : Nat} {t : Tag} {s : State} : (tally i e n t s).qos = s.qos := by rw [tally_frame]

@[simp] theorem tally_led {i : BankId} {e n : Nat} {t : Tag} {s : State} : (tally i e n t s).led = s.led := by rw [tally_frame]

@[simp] theorem tally_pmc {i : BankId} {e n : Nat} {t : Tag} {s : State} : (tally i e n t s).pmc = s.pmc := by rw [tally_frame]

@[simp] theorem tally_recov {i : BankId} {e n : Nat} {t : Tag} {s : State} : (tally i e n t s).recov = s.recov := by rw [tally_frame]

@[simp] theorem tally_mem {i : BankId} {e n : Nat} {t : Tag} {s : State} : (tally i e n t s).mem = s.mem := by rw [tally_frame]

@[simp] theorem tally_poison {i : BankId} {e n : Nat} {t : Tag} {s : State} : (tally i e n t s).poison = s.poison := by rw [tally_frame]

@[simp] theorem tally_out {i : BankId} {e n : Nat} {t : Tag} {s : State} : (tally i e n t s).out = s.out := by rw [tally_frame]

@[simp] theorem tally_freeCtr {i : BankId} {e n : Nat} {t : Tag} {s : State} : (tally i e n t s).freeCtr = s.freeCtr := by rw [tally_frame]

@[simp] theorem hostWrite_pending {f a : Nat} {bs : List Byte} {s : State} : (hostWrite f a bs s).pending = s.pending := by rw [hostWrite_frame]

@[simp] theorem hostWrite_sys {f a : Nat} {bs : List Byte} {s : State} : (hostWrite f a bs s).sys = s.sys := by rw [hostWrite_frame]

@[simp] theorem hostWrite_tb {f a : Nat} {bs : List Byte} {s : State} : (hostWrite f a bs s).tb = s.tb := by rw [hostWrite_frame]

@[simp] theorem hostWrite_links {f a : Nat} {bs : List Byte} {s : State} : (hostWrite f a bs s).links = s.links := by rw [hostWrite_frame]

@[simp] theorem hostWrite_ports {f a : Nat} {bs : List Byte} {s : State} : (hostWrite f a bs s).ports = s.ports := by rw [hostWrite_frame]

@[simp] theorem hostWrite_orphanSince {f a : Nat} {bs : List Byte} {s : State} : (hostWrite f a bs s).orphanSince = s.orphanSince := by rw [hostWrite_frame]

@[simp] theorem hostWrite_flash {f a : Nat} {bs : List Byte} {s : State} : (hostWrite f a bs s).flash = s.flash := by rw [hostWrite_frame]

@[simp] theorem hostWrite_image {f a : Nat} {bs : List Byte} {s : State} : (hostWrite f a bs s).image = s.image := by rw [hostWrite_frame]

@[simp] theorem hostWrite_imageOk {f a : Nat} {bs : List Byte} {s : State} : (hostWrite f a bs s).imageOk = s.imageOk := by rw [hostWrite_frame]

@[simp] theorem hostWrite_cfg {f a : Nat} {bs : List Byte} {s : State} : (hostWrite f a bs s).cfg = s.cfg := by rw [hostWrite_frame]

@[simp] theorem hostWrite_jr {f a : Nat} {bs : List Byte} {s : State} : (hostWrite f a bs s).jr = s.jr := by rw [hostWrite_frame]

@[simp] theorem hostWrite_mg {f a : Nat} {bs : List Byte} {s : State} : (hostWrite f a bs s).mg = s.mg := by rw [hostWrite_frame]

@[simp] theorem hostWrite_funcs {f a : Nat} {bs : List Byte} {s : State} : (hostWrite f a bs s).funcs = s.funcs := by rw [hostWrite_frame]

@[simp] theorem hostWrite_qs {f a : Nat} {bs : List Byte} {s : State} : (hostWrite f a bs s).qs = s.qs := by rw [hostWrite_frame]

@[simp] theorem hostWrite_brg {f a : Nat} {bs : List Byte} {s : State} : (hostWrite f a bs s).brg = s.brg := by rw [hostWrite_frame]

@[simp] theorem hostWrite_cmds {f a : Nat} {bs : List Byte} {s : State} : (hostWrite f a bs s).cmds = s.cmds := by rw [hostWrite_frame]

@[simp] theorem hostWrite_nextUid {f a : Nat} {bs : List Byte} {s : State} : (hostWrite f a bs s).nextUid = s.nextUid := by rw [hostWrite_frame]

@[simp] theorem hostWrite_slices {f a : Nat} {bs : List Byte} {s : State} : (hostWrite f a bs s).slices = s.slices := by rw [hostWrite_frame]

@[simp] theorem hostWrite_flails {f a : Nat} {bs : List Byte} {s : State} : (hostWrite f a bs s).flails = s.flails := by rw [hostWrite_frame]

@[simp] theorem hostWrite_ring {f a : Nat} {bs : List Byte} {s : State} : (hostWrite f a bs s).ring = s.ring := by rw [hostWrite_frame]

@[simp] theorem hostWrite_dimms {f a : Nat} {bs : List Byte} {s : State} : (hostWrite f a bs s).dimms = s.dimms := by rw [hostWrite_frame]

@[simp] theorem hostWrite_cxl {f a : Nat} {bs : List Byte} {s : State} : (hostWrite f a bs s).cxl = s.cxl := by rw [hostWrite_frame]

@[simp] theorem hostWrite_stolon {f a : Nat} {bs : List Byte} {s : State} : (hostWrite f a bs s).stolon = s.stolon := by rw [hostWrite_frame]

@[simp] theorem hostWrite_kv {f a : Nat} {bs : List Byte} {s : State} : (hostWrite f a bs s).kv = s.kv := by rw [hostWrite_frame]

@[simp] theorem hostWrite_partials {f a : Nat} {bs : List Byte} {s : State} : (hostWrite f a bs s).partials = s.partials := by rw [hostWrite_frame]

@[simp] theorem hostWrite_cores {f a : Nat} {bs : List Byte} {s : State} : (hostWrite f a bs s).cores = s.cores := by rw [hostWrite_frame]

@[simp] theorem hostWrite_pool {f a : Nat} {bs : List Byte} {s : State} : (hostWrite f a bs s).pool = s.pool := by rw [hostWrite_frame]

@[simp] theorem hostWrite_qos {f a : Nat} {bs : List Byte} {s : State} : (hostWrite f a bs s).qos = s.qos := by rw [hostWrite_frame]

@[simp] theorem hostWrite_led {f a : Nat} {bs : List Byte} {s : State} : (hostWrite f a bs s).led = s.led := by rw [hostWrite_frame]

@[simp] theorem hostWrite_pmc {f a : Nat} {bs : List Byte} {s : State} : (hostWrite f a bs s).pmc = s.pmc := by rw [hostWrite_frame]

@[simp] theorem hostWrite_recov {f a : Nat} {bs : List Byte} {s : State} : (hostWrite f a bs s).recov = s.recov := by rw [hostWrite_frame]

@[simp] theorem hostWrite_cnt {f a : Nat} {bs : List Byte} {s : State} : (hostWrite f a bs s).cnt = s.cnt := by rw [hostWrite_frame]

@[simp] theorem hostWrite_mem {f a : Nat} {bs : List Byte} {s : State} : (hostWrite f a bs s).mem = s.mem := by rw [hostWrite_frame]

@[simp] theorem hostWrite_poison {f a : Nat} {bs : List Byte} {s : State} : (hostWrite f a bs s).poison = s.poison := by rw [hostWrite_frame]

@[simp] theorem hostWrite_freeCtr {f a : Nat} {bs : List Byte} {s : State} : (hostWrite f a bs s).freeCtr = s.freeCtr := by rw [hostWrite_frame]

@[simp] theorem raiseMsix_pending {f v : Nat} {s : State} : (raiseMsix f v s).pending = s.pending := by rw [raiseMsix_frame]

@[simp] theorem raiseMsix_sys {f v : Nat} {s : State} : (raiseMsix f v s).sys = s.sys := by rw [raiseMsix_frame]

@[simp] theorem raiseMsix_tb {f v : Nat} {s : State} : (raiseMsix f v s).tb = s.tb := by rw [raiseMsix_frame]

@[simp] theorem raiseMsix_links {f v : Nat} {s : State} : (raiseMsix f v s).links = s.links := by rw [raiseMsix_frame]

@[simp] theorem raiseMsix_ports {f v : Nat} {s : State} : (raiseMsix f v s).ports = s.ports := by rw [raiseMsix_frame]

@[simp] theorem raiseMsix_orphanSince {f v : Nat} {s : State} : (raiseMsix f v s).orphanSince = s.orphanSince := by rw [raiseMsix_frame]

@[simp] theorem raiseMsix_flash {f v : Nat} {s : State} : (raiseMsix f v s).flash = s.flash := by rw [raiseMsix_frame]

@[simp] theorem raiseMsix_image {f v : Nat} {s : State} : (raiseMsix f v s).image = s.image := by rw [raiseMsix_frame]

@[simp] theorem raiseMsix_imageOk {f v : Nat} {s : State} : (raiseMsix f v s).imageOk = s.imageOk := by rw [raiseMsix_frame]

@[simp] theorem raiseMsix_cfg {f v : Nat} {s : State} : (raiseMsix f v s).cfg = s.cfg := by rw [raiseMsix_frame]

@[simp] theorem raiseMsix_jr {f v : Nat} {s : State} : (raiseMsix f v s).jr = s.jr := by rw [raiseMsix_frame]

@[simp] theorem raiseMsix_mg {f v : Nat} {s : State} : (raiseMsix f v s).mg = s.mg := by rw [raiseMsix_frame]

@[simp] theorem raiseMsix_qs {f v : Nat} {s : State} : (raiseMsix f v s).qs = s.qs := by rw [raiseMsix_frame]

@[simp] theorem raiseMsix_brg {f v : Nat} {s : State} : (raiseMsix f v s).brg = s.brg := by rw [raiseMsix_frame]

@[simp] theorem raiseMsix_cmds {f v : Nat} {s : State} : (raiseMsix f v s).cmds = s.cmds := by rw [raiseMsix_frame]

@[simp] theorem raiseMsix_nextUid {f v : Nat} {s : State} : (raiseMsix f v s).nextUid = s.nextUid := by rw [raiseMsix_frame]

@[simp] theorem raiseMsix_slices {f v : Nat} {s : State} : (raiseMsix f v s).slices = s.slices := by rw [raiseMsix_frame]

@[simp] theorem raiseMsix_flails {f v : Nat} {s : State} : (raiseMsix f v s).flails = s.flails := by rw [raiseMsix_frame]

@[simp] theorem raiseMsix_ring {f v : Nat} {s : State} : (raiseMsix f v s).ring = s.ring := by rw [raiseMsix_frame]

@[simp] theorem raiseMsix_dimms {f v : Nat} {s : State} : (raiseMsix f v s).dimms = s.dimms := by rw [raiseMsix_frame]

@[simp] theorem raiseMsix_cxl {f v : Nat} {s : State} : (raiseMsix f v s).cxl = s.cxl := by rw [raiseMsix_frame]

@[simp] theorem raiseMsix_stolon {f v : Nat} {s : State} : (raiseMsix f v s).stolon = s.stolon := by rw [raiseMsix_frame]

@[simp] theorem raiseMsix_kv {f v : Nat} {s : State} : (raiseMsix f v s).kv = s.kv := by rw [raiseMsix_frame]

@[simp] theorem raiseMsix_partials {f v : Nat} {s : State} : (raiseMsix f v s).partials = s.partials := by rw [raiseMsix_frame]

@[simp] theorem raiseMsix_cores {f v : Nat} {s : State} : (raiseMsix f v s).cores = s.cores := by rw [raiseMsix_frame]

@[simp] theorem raiseMsix_pool {f v : Nat} {s : State} : (raiseMsix f v s).pool = s.pool := by rw [raiseMsix_frame]

@[simp] theorem raiseMsix_qos {f v : Nat} {s : State} : (raiseMsix f v s).qos = s.qos := by rw [raiseMsix_frame]

@[simp] theorem raiseMsix_led {f v : Nat} {s : State} : (raiseMsix f v s).led = s.led := by rw [raiseMsix_frame]

@[simp] theorem raiseMsix_pmc {f v : Nat} {s : State} : (raiseMsix f v s).pmc = s.pmc := by rw [raiseMsix_frame]

@[simp] theorem raiseMsix_recov {f v : Nat} {s : State} : (raiseMsix f v s).recov = s.recov := by rw [raiseMsix_frame]

@[simp] theorem raiseMsix_cnt {f v : Nat} {s : State} : (raiseMsix f v s).cnt = s.cnt := by rw [raiseMsix_frame]

@[simp] theorem raiseMsix_mem {f v : Nat} {s : State} : (raiseMsix f v s).mem = s.mem := by rw [raiseMsix_frame]

@[simp] theorem raiseMsix_poison {f v : Nat} {s : State} : (raiseMsix f v s).poison = s.poison := by rw [raiseMsix_frame]

@[simp] theorem raiseMsix_freeCtr {f v : Nat} {s : State} : (raiseMsix f v s).freeCtr = s.freeCtr := by rw [raiseMsix_frame]

@[simp] theorem jKick_pending  {s : State} : (jKick s).pending = s.pending := by rw [jKick_frame]

@[simp] theorem jKick_sys  {s : State} : (jKick s).sys = s.sys := by rw [jKick_frame]

@[simp] theorem jKick_tb  {s : State} : (jKick s).tb = s.tb := by rw [jKick_frame]

@[simp] theorem jKick_links  {s : State} : (jKick s).links = s.links := by rw [jKick_frame]

@[simp] theorem jKick_ports  {s : State} : (jKick s).ports = s.ports := by rw [jKick_frame]

@[simp] theorem jKick_orphanSince  {s : State} : (jKick s).orphanSince = s.orphanSince := by rw [jKick_frame]

@[simp] theorem jKick_flash  {s : State} : (jKick s).flash = s.flash := by rw [jKick_frame]

@[simp] theorem jKick_image  {s : State} : (jKick s).image = s.image := by rw [jKick_frame]

@[simp] theorem jKick_imageOk  {s : State} : (jKick s).imageOk = s.imageOk := by rw [jKick_frame]

@[simp] theorem jKick_cfg  {s : State} : (jKick s).cfg = s.cfg := by rw [jKick_frame]

@[simp] theorem jKick_mg  {s : State} : (jKick s).mg = s.mg := by rw [jKick_frame]

@[simp] theorem jKick_funcs  {s : State} : (jKick s).funcs = s.funcs := by rw [jKick_frame]

@[simp] theorem jKick_qs  {s : State} : (jKick s).qs = s.qs := by rw [jKick_frame]

@[simp] theorem jKick_brg  {s : State} : (jKick s).brg = s.brg := by rw [jKick_frame]

@[simp] theorem jKick_cmds  {s : State} : (jKick s).cmds = s.cmds := by rw [jKick_frame]

@[simp] theorem jKick_nextUid  {s : State} : (jKick s).nextUid = s.nextUid := by rw [jKick_frame]

@[simp] theorem jKick_slices  {s : State} : (jKick s).slices = s.slices := by rw [jKick_frame]

@[simp] theorem jKick_flails  {s : State} : (jKick s).flails = s.flails := by rw [jKick_frame]

@[simp] theorem jKick_ring  {s : State} : (jKick s).ring = s.ring := by rw [jKick_frame]

@[simp] theorem jKick_dimms  {s : State} : (jKick s).dimms = s.dimms := by rw [jKick_frame]

@[simp] theorem jKick_cxl  {s : State} : (jKick s).cxl = s.cxl := by rw [jKick_frame]

@[simp] theorem jKick_stolon  {s : State} : (jKick s).stolon = s.stolon := by rw [jKick_frame]

@[simp] theorem jKick_kv  {s : State} : (jKick s).kv = s.kv := by rw [jKick_frame]

@[simp] theorem jKick_partials  {s : State} : (jKick s).partials = s.partials := by rw [jKick_frame]

@[simp] theorem jKick_cores  {s : State} : (jKick s).cores = s.cores := by rw [jKick_frame]

@[simp] theorem jKick_pool  {s : State} : (jKick s).pool = s.pool := by rw [jKick_frame]

@[simp] theorem jKick_qos  {s : State} : (jKick s).qos = s.qos := by rw [jKick_frame]

@[simp] theorem jKick_led  {s : State} : (jKick s).led = s.led := by rw [jKick_frame]

@[simp] theorem jKick_pmc  {s : State} : (jKick s).pmc = s.pmc := by rw [jKick_frame]

@[simp] theorem jKick_recov  {s : State} : (jKick s).recov = s.recov := by rw [jKick_frame]

@[simp] theorem jKick_cnt  {s : State} : (jKick s).cnt = s.cnt := by rw [jKick_frame]

@[simp] theorem jKick_mem  {s : State} : (jKick s).mem = s.mem := by rw [jKick_frame]

@[simp] theorem jKick_poison  {s : State} : (jKick s).poison = s.poison := by rw [jKick_frame]

@[simp] theorem jKick_out  {s : State} : (jKick s).out = s.out := by rw [jKick_frame]

@[simp] theorem jKick_freeCtr  {s : State} : (jKick s).freeCtr = s.freeCtr := by rw [jKick_frame]

@[simp] theorem jAdd_pending {b : JBody} {s : State} : (jAdd b s).pending = s.pending := by rw [jAdd_frame]

@[simp] theorem jAdd_sys {b : JBody} {s : State} : (jAdd b s).sys = s.sys := by rw [jAdd_frame]

@[simp] theorem jAdd_tb {b : JBody} {s : State} : (jAdd b s).tb = s.tb := by rw [jAdd_frame]

@[simp] theorem jAdd_links {b : JBody} {s : State} : (jAdd b s).links = s.links := by rw [jAdd_frame]

@[simp] theorem jAdd_ports {b : JBody} {s : State} : (jAdd b s).ports = s.ports := by rw [jAdd_frame]

@[simp] theorem jAdd_orphanSince {b : JBody} {s : State} : (jAdd b s).orphanSince = s.orphanSince := by rw [jAdd_frame]

@[simp] theorem jAdd_flash {b : JBody} {s : State} : (jAdd b s).flash = s.flash := by rw [jAdd_frame]

@[simp] theorem jAdd_image {b : JBody} {s : State} : (jAdd b s).image = s.image := by rw [jAdd_frame]

@[simp] theorem jAdd_imageOk {b : JBody} {s : State} : (jAdd b s).imageOk = s.imageOk := by rw [jAdd_frame]

@[simp] theorem jAdd_cfg {b : JBody} {s : State} : (jAdd b s).cfg = s.cfg := by rw [jAdd_frame]

@[simp] theorem jAdd_mg {b : JBody} {s : State} : (jAdd b s).mg = s.mg := by rw [jAdd_frame]

@[simp] theorem jAdd_funcs {b : JBody} {s : State} : (jAdd b s).funcs = s.funcs := by rw [jAdd_frame]

@[simp] theorem jAdd_qs {b : JBody} {s : State} : (jAdd b s).qs = s.qs := by rw [jAdd_frame]

@[simp] theorem jAdd_brg {b : JBody} {s : State} : (jAdd b s).brg = s.brg := by rw [jAdd_frame]

@[simp] theorem jAdd_cmds {b : JBody} {s : State} : (jAdd b s).cmds = s.cmds := by rw [jAdd_frame]

@[simp] theorem jAdd_nextUid {b : JBody} {s : State} : (jAdd b s).nextUid = s.nextUid := by rw [jAdd_frame]

@[simp] theorem jAdd_slices {b : JBody} {s : State} : (jAdd b s).slices = s.slices := by rw [jAdd_frame]

@[simp] theorem jAdd_flails {b : JBody} {s : State} : (jAdd b s).flails = s.flails := by rw [jAdd_frame]

@[simp] theorem jAdd_ring {b : JBody} {s : State} : (jAdd b s).ring = s.ring := by rw [jAdd_frame]

@[simp] theorem jAdd_dimms {b : JBody} {s : State} : (jAdd b s).dimms = s.dimms := by rw [jAdd_frame]

@[simp] theorem jAdd_cxl {b : JBody} {s : State} : (jAdd b s).cxl = s.cxl := by rw [jAdd_frame]

@[simp] theorem jAdd_stolon {b : JBody} {s : State} : (jAdd b s).stolon = s.stolon := by rw [jAdd_frame]

@[simp] theorem jAdd_kv {b : JBody} {s : State} : (jAdd b s).kv = s.kv := by rw [jAdd_frame]

@[simp] theorem jAdd_partials {b : JBody} {s : State} : (jAdd b s).partials = s.partials := by rw [jAdd_frame]

@[simp] theorem jAdd_cores {b : JBody} {s : State} : (jAdd b s).cores = s.cores := by rw [jAdd_frame]

@[simp] theorem jAdd_pool {b : JBody} {s : State} : (jAdd b s).pool = s.pool := by rw [jAdd_frame]

@[simp] theorem jAdd_qos {b : JBody} {s : State} : (jAdd b s).qos = s.qos := by rw [jAdd_frame]

@[simp] theorem jAdd_led {b : JBody} {s : State} : (jAdd b s).led = s.led := by rw [jAdd_frame]

@[simp] theorem jAdd_pmc {b : JBody} {s : State} : (jAdd b s).pmc = s.pmc := by rw [jAdd_frame]

@[simp] theorem jAdd_recov {b : JBody} {s : State} : (jAdd b s).recov = s.recov := by rw [jAdd_frame]

@[simp] theorem jAdd_cnt {b : JBody} {s : State} : (jAdd b s).cnt = s.cnt := by rw [jAdd_frame]

@[simp] theorem jAdd_mem {b : JBody} {s : State} : (jAdd b s).mem = s.mem := by rw [jAdd_frame]

@[simp] theorem jAdd_poison {b : JBody} {s : State} : (jAdd b s).poison = s.poison := by rw [jAdd_frame]

@[simp] theorem jAdd_out {b : JBody} {s : State} : (jAdd b s).out = s.out := by rw [jAdd_frame]

@[simp] theorem jAdd_freeCtr {b : JBody} {s : State} : (jAdd b s).freeCtr = s.freeCtr := by rw [jAdd_frame]

@[simp] theorem raiseEvent_pending {t a b : Nat} {s : State} : (raiseEvent t a b s).pending = s.pending := by rw [raiseEvent_frame]

@[simp] theorem raiseEvent_sys {t a b : Nat} {s : State} : (raiseEvent t a b s).sys = s.sys := by rw [raiseEvent_frame]

@[simp] theorem raiseEvent_tb {t a b : Nat} {s : State} : (raiseEvent t a b s).tb = s.tb := by rw [raiseEvent_frame]

@[simp] theorem raiseEvent_links {t a b : Nat} {s : State} : (raiseEvent t a b s).links = s.links := by rw [raiseEvent_frame]

@[simp] theorem raiseEvent_ports {t a b : Nat} {s : State} : (raiseEvent t a b s).ports = s.ports := by rw [raiseEvent_frame]

@[simp] theorem raiseEvent_orphanSince {t a b : Nat} {s : State} : (raiseEvent t a b s).orphanSince = s.orphanSince := by rw [raiseEvent_frame]

@[simp] theorem raiseEvent_flash {t a b : Nat} {s : State} : (raiseEvent t a b s).flash = s.flash := by rw [raiseEvent_frame]

@[simp] theorem raiseEvent_image {t a b : Nat} {s : State} : (raiseEvent t a b s).image = s.image := by rw [raiseEvent_frame]

@[simp] theorem raiseEvent_imageOk {t a b : Nat} {s : State} : (raiseEvent t a b s).imageOk = s.imageOk := by rw [raiseEvent_frame]

@[simp] theorem raiseEvent_cfg {t a b : Nat} {s : State} : (raiseEvent t a b s).cfg = s.cfg := by rw [raiseEvent_frame]

@[simp] theorem raiseEvent_mg {t a b : Nat} {s : State} : (raiseEvent t a b s).mg = s.mg := by rw [raiseEvent_frame]

@[simp] theorem raiseEvent_qs {t a b : Nat} {s : State} : (raiseEvent t a b s).qs = s.qs := by rw [raiseEvent_frame]

@[simp] theorem raiseEvent_brg {t a b : Nat} {s : State} : (raiseEvent t a b s).brg = s.brg := by rw [raiseEvent_frame]

@[simp] theorem raiseEvent_cmds {t a b : Nat} {s : State} : (raiseEvent t a b s).cmds = s.cmds := by rw [raiseEvent_frame]

@[simp] theorem raiseEvent_nextUid {t a b : Nat} {s : State} : (raiseEvent t a b s).nextUid = s.nextUid := by rw [raiseEvent_frame]

@[simp] theorem raiseEvent_slices {t a b : Nat} {s : State} : (raiseEvent t a b s).slices = s.slices := by rw [raiseEvent_frame]

@[simp] theorem raiseEvent_flails {t a b : Nat} {s : State} : (raiseEvent t a b s).flails = s.flails := by rw [raiseEvent_frame]

@[simp] theorem raiseEvent_ring {t a b : Nat} {s : State} : (raiseEvent t a b s).ring = s.ring := by rw [raiseEvent_frame]

@[simp] theorem raiseEvent_dimms {t a b : Nat} {s : State} : (raiseEvent t a b s).dimms = s.dimms := by rw [raiseEvent_frame]

@[simp] theorem raiseEvent_cxl {t a b : Nat} {s : State} : (raiseEvent t a b s).cxl = s.cxl := by rw [raiseEvent_frame]

@[simp] theorem raiseEvent_stolon {t a b : Nat} {s : State} : (raiseEvent t a b s).stolon = s.stolon := by rw [raiseEvent_frame]

@[simp] theorem raiseEvent_kv {t a b : Nat} {s : State} : (raiseEvent t a b s).kv = s.kv := by rw [raiseEvent_frame]

@[simp] theorem raiseEvent_partials {t a b : Nat} {s : State} : (raiseEvent t a b s).partials = s.partials := by rw [raiseEvent_frame]

@[simp] theorem raiseEvent_cores {t a b : Nat} {s : State} : (raiseEvent t a b s).cores = s.cores := by rw [raiseEvent_frame]

@[simp] theorem raiseEvent_pool {t a b : Nat} {s : State} : (raiseEvent t a b s).pool = s.pool := by rw [raiseEvent_frame]

@[simp] theorem raiseEvent_qos {t a b : Nat} {s : State} : (raiseEvent t a b s).qos = s.qos := by rw [raiseEvent_frame]

@[simp] theorem raiseEvent_led {t a b : Nat} {s : State} : (raiseEvent t a b s).led = s.led := by rw [raiseEvent_frame]

@[simp] theorem raiseEvent_pmc {t a b : Nat} {s : State} : (raiseEvent t a b s).pmc = s.pmc := by rw [raiseEvent_frame]

@[simp] theorem raiseEvent_recov {t a b : Nat} {s : State} : (raiseEvent t a b s).recov = s.recov := by rw [raiseEvent_frame]

@[simp] theorem raiseEvent_mem {t a b : Nat} {s : State} : (raiseEvent t a b s).mem = s.mem := by rw [raiseEvent_frame]

@[simp] theorem raiseEvent_poison {t a b : Nat} {s : State} : (raiseEvent t a b s).poison = s.poison := by rw [raiseEvent_frame]

@[simp] theorem raiseEvent_freeCtr {t a b : Nat} {s : State} : (raiseEvent t a b s).freeCtr = s.freeCtr := by rw [raiseEvent_frame]

@[simp] theorem enterState_pending {n : DevState} {c a : Nat} {s : State} : (enterState n c a s).pending = s.pending := by rw [enterState_frame]

@[simp] theorem enterState_tb {n : DevState} {c a : Nat} {s : State} : (enterState n c a s).tb = s.tb := by rw [enterState_frame]

@[simp] theorem enterState_links {n : DevState} {c a : Nat} {s : State} : (enterState n c a s).links = s.links := by rw [enterState_frame]

@[simp] theorem enterState_ports {n : DevState} {c a : Nat} {s : State} : (enterState n c a s).ports = s.ports := by rw [enterState_frame]

@[simp] theorem enterState_orphanSince {n : DevState} {c a : Nat} {s : State} : (enterState n c a s).orphanSince = s.orphanSince := by rw [enterState_frame]

@[simp] theorem enterState_flash {n : DevState} {c a : Nat} {s : State} : (enterState n c a s).flash = s.flash := by rw [enterState_frame]

@[simp] theorem enterState_image {n : DevState} {c a : Nat} {s : State} : (enterState n c a s).image = s.image := by rw [enterState_frame]

@[simp] theorem enterState_imageOk {n : DevState} {c a : Nat} {s : State} : (enterState n c a s).imageOk = s.imageOk := by rw [enterState_frame]

@[simp] theorem enterState_cfg {n : DevState} {c a : Nat} {s : State} : (enterState n c a s).cfg = s.cfg := by rw [enterState_frame]

@[simp] theorem enterState_mg {n : DevState} {c a : Nat} {s : State} : (enterState n c a s).mg = s.mg := by rw [enterState_frame]

@[simp] theorem enterState_qs {n : DevState} {c a : Nat} {s : State} : (enterState n c a s).qs = s.qs := by rw [enterState_frame]

@[simp] theorem enterState_brg {n : DevState} {c a : Nat} {s : State} : (enterState n c a s).brg = s.brg := by rw [enterState_frame]

@[simp] theorem enterState_cmds {n : DevState} {c a : Nat} {s : State} : (enterState n c a s).cmds = s.cmds := by rw [enterState_frame]

@[simp] theorem enterState_nextUid {n : DevState} {c a : Nat} {s : State} : (enterState n c a s).nextUid = s.nextUid := by rw [enterState_frame]

@[simp] theorem enterState_slices {n : DevState} {c a : Nat} {s : State} : (enterState n c a s).slices = s.slices := by rw [enterState_frame]

@[simp] theorem enterState_flails {n : DevState} {c a : Nat} {s : State} : (enterState n c a s).flails = s.flails := by rw [enterState_frame]

@[simp] theorem enterState_ring {n : DevState} {c a : Nat} {s : State} : (enterState n c a s).ring = s.ring := by rw [enterState_frame]

@[simp] theorem enterState_dimms {n : DevState} {c a : Nat} {s : State} : (enterState n c a s).dimms = s.dimms := by rw [enterState_frame]

@[simp] theorem enterState_cxl {n : DevState} {c a : Nat} {s : State} : (enterState n c a s).cxl = s.cxl := by rw [enterState_frame]

@[simp] theorem enterState_stolon {n : DevState} {c a : Nat} {s : State} : (enterState n c a s).stolon = s.stolon := by rw [enterState_frame]

@[simp] theorem enterState_kv {n : DevState} {c a : Nat} {s : State} : (enterState n c a s).kv = s.kv := by rw [enterState_frame]

@[simp] theorem enterState_partials {n : DevState} {c a : Nat} {s : State} : (enterState n c a s).partials = s.partials := by rw [enterState_frame]

@[simp] theorem enterState_cores {n : DevState} {c a : Nat} {s : State} : (enterState n c a s).cores = s.cores := by rw [enterState_frame]

@[simp] theorem enterState_pool {n : DevState} {c a : Nat} {s : State} : (enterState n c a s).pool = s.pool := by rw [enterState_frame]

@[simp] theorem enterState_qos {n : DevState} {c a : Nat} {s : State} : (enterState n c a s).qos = s.qos := by rw [enterState_frame]

@[simp] theorem enterState_led {n : DevState} {c a : Nat} {s : State} : (enterState n c a s).led = s.led := by rw [enterState_frame]

@[simp] theorem enterState_pmc {n : DevState} {c a : Nat} {s : State} : (enterState n c a s).pmc = s.pmc := by rw [enterState_frame]

@[simp] theorem enterState_recov {n : DevState} {c a : Nat} {s : State} : (enterState n c a s).recov = s.recov := by rw [enterState_frame]

@[simp] theorem enterState_mem {n : DevState} {c a : Nat} {s : State} : (enterState n c a s).mem = s.mem := by rw [enterState_frame]

@[simp] theorem enterState_poison {n : DevState} {c a : Nat} {s : State} : (enterState n c a s).poison = s.poison := by rw [enterState_frame]

@[simp] theorem enterState_freeCtr {n : DevState} {c a : Nat} {s : State} : (enterState n c a s).freeCtr = s.freeCtr := by rw [enterState_frame]

@[simp] theorem logError_pending {k c : Nat} {e : ErrInfo} {r : List Byte} {s : State} : (logError k c e r s).pending = s.pending := by rw [logError_frame]

@[simp] theorem logError_sys {k c : Nat} {e : ErrInfo} {r : List Byte} {s : State} : (logError k c e r s).sys = s.sys := by rw [logError_frame]

@[simp] theorem logError_tb {k c : Nat} {e : ErrInfo} {r : List Byte} {s : State} : (logError k c e r s).tb = s.tb := by rw [logError_frame]

@[simp] theorem logError_links {k c : Nat} {e : ErrInfo} {r : List Byte} {s : State} : (logError k c e r s).links = s.links := by rw [logError_frame]

@[simp] theorem logError_ports {k c : Nat} {e : ErrInfo} {r : List Byte} {s : State} : (logError k c e r s).ports = s.ports := by rw [logError_frame]

@[simp] theorem logError_orphanSince {k c : Nat} {e : ErrInfo} {r : List Byte} {s : State} : (logError k c e r s).orphanSince = s.orphanSince := by rw [logError_frame]

@[simp] theorem logError_flash {k c : Nat} {e : ErrInfo} {r : List Byte} {s : State} : (logError k c e r s).flash = s.flash := by rw [logError_frame]

@[simp] theorem logError_image {k c : Nat} {e : ErrInfo} {r : List Byte} {s : State} : (logError k c e r s).image = s.image := by rw [logError_frame]

@[simp] theorem logError_imageOk {k c : Nat} {e : ErrInfo} {r : List Byte} {s : State} : (logError k c e r s).imageOk = s.imageOk := by rw [logError_frame]

@[simp] theorem logError_cfg {k c : Nat} {e : ErrInfo} {r : List Byte} {s : State} : (logError k c e r s).cfg = s.cfg := by rw [logError_frame]

@[simp] theorem logError_mg {k c : Nat} {e : ErrInfo} {r : List Byte} {s : State} : (logError k c e r s).mg = s.mg := by rw [logError_frame]

@[simp] theorem logError_qs {k c : Nat} {e : ErrInfo} {r : List Byte} {s : State} : (logError k c e r s).qs = s.qs := by rw [logError_frame]

@[simp] theorem logError_brg {k c : Nat} {e : ErrInfo} {r : List Byte} {s : State} : (logError k c e r s).brg = s.brg := by rw [logError_frame]

@[simp] theorem logError_cmds {k c : Nat} {e : ErrInfo} {r : List Byte} {s : State} : (logError k c e r s).cmds = s.cmds := by rw [logError_frame]

@[simp] theorem logError_nextUid {k c : Nat} {e : ErrInfo} {r : List Byte} {s : State} : (logError k c e r s).nextUid = s.nextUid := by rw [logError_frame]

@[simp] theorem logError_slices {k c : Nat} {e : ErrInfo} {r : List Byte} {s : State} : (logError k c e r s).slices = s.slices := by rw [logError_frame]

@[simp] theorem logError_flails {k c : Nat} {e : ErrInfo} {r : List Byte} {s : State} : (logError k c e r s).flails = s.flails := by rw [logError_frame]

@[simp] theorem logError_ring {k c : Nat} {e : ErrInfo} {r : List Byte} {s : State} : (logError k c e r s).ring = s.ring := by rw [logError_frame]

@[simp] theorem logError_dimms {k c : Nat} {e : ErrInfo} {r : List Byte} {s : State} : (logError k c e r s).dimms = s.dimms := by rw [logError_frame]

@[simp] theorem logError_cxl {k c : Nat} {e : ErrInfo} {r : List Byte} {s : State} : (logError k c e r s).cxl = s.cxl := by rw [logError_frame]

@[simp] theorem logError_stolon {k c : Nat} {e : ErrInfo} {r : List Byte} {s : State} : (logError k c e r s).stolon = s.stolon := by rw [logError_frame]

@[simp] theorem logError_kv {k c : Nat} {e : ErrInfo} {r : List Byte} {s : State} : (logError k c e r s).kv = s.kv := by rw [logError_frame]

@[simp] theorem logError_partials {k c : Nat} {e : ErrInfo} {r : List Byte} {s : State} : (logError k c e r s).partials = s.partials := by rw [logError_frame]

@[simp] theorem logError_cores {k c : Nat} {e : ErrInfo} {r : List Byte} {s : State} : (logError k c e r s).cores = s.cores := by rw [logError_frame]

@[simp] theorem logError_pool {k c : Nat} {e : ErrInfo} {r : List Byte} {s : State} : (logError k c e r s).pool = s.pool := by rw [logError_frame]

@[simp] theorem logError_qos {k c : Nat} {e : ErrInfo} {r : List Byte} {s : State} : (logError k c e r s).qos = s.qos := by rw [logError_frame]

@[simp] theorem logError_led {k c : Nat} {e : ErrInfo} {r : List Byte} {s : State} : (logError k c e r s).led = s.led := by rw [logError_frame]

@[simp] theorem logError_pmc {k c : Nat} {e : ErrInfo} {r : List Byte} {s : State} : (logError k c e r s).pmc = s.pmc := by rw [logError_frame]

@[simp] theorem logError_recov {k c : Nat} {e : ErrInfo} {r : List Byte} {s : State} : (logError k c e r s).recov = s.recov := by rw [logError_frame]

@[simp] theorem logError_mem {k c : Nat} {e : ErrInfo} {r : List Byte} {s : State} : (logError k c e r s).mem = s.mem := by rw [logError_frame]

@[simp] theorem logError_poison {k c : Nat} {e : ErrInfo} {r : List Byte} {s : State} : (logError k c e r s).poison = s.poison := by rw [logError_frame]

@[simp] theorem logError_freeCtr {k c : Nat} {e : ErrInfo} {r : List Byte} {s : State} : (logError k c e r s).freeCtr = s.freeCtr := by rw [logError_frame]

@[simp] theorem enterState_sys {n : DevState} {c a : Nat} {s : State} :
    (enterState n c a s).sys = { s.sys with state := n, cause := BitVec.ofNat 8 c, entered := s.tb.beat } := by
  rw [enterState_frame]

end Sys2Proof.Machine
end

