-- ==== Sys2Proof/Laws/Issue.lean ====
section
/-!
SUPPORT. Sys2Proof/Laws/Issue.lean: what the issue of a bundle does: where its results go, and what it leaves alone.
-/
namespace Sys2Proof.Machine

/-! ### The bundle that issues -/

theorem skipEmpty_of_op {s : State} {k : Nat} {c : Cmd} {ops : List Op} (n : Nat) (h : bundleNow s k = some (c, ops))
    (ho : ops.all (·.cls == .nop) = false) : skipEmpty n k s = s := by
  unfold bundleNow at h
  cases n with
  | zero => rfl
  | succ n =>
    unfold skipEmpty
    split
    · rfl
    · cases hk : kernelOf s k with
      | none => rfl
      | some p =>
        obtain ⟨l, c', x⟩ := p
        rw [hk] at h
        cases hb : bundleAt s k x with
        | none => simp [hb] at h
        | some ops' =>
          simp [hb] at h
          simp only [hb, h.2, ho]
          simp

/-- An issuing core issues the bundle for the row of an operation that it holds. -/
theorem issueOp_eq {s : State} {k : Nat} {c : Cmd} {ops : List Op} (h : Issuing s k c ops) {o : Op} (ho : o ∈ ops)
    (hn : o.cls ≠ .nop) : issueOp o.cls o.code o.slot k s = settleDrain k (issueBundle c ops k s) := by
  obtain ⟨hi, hb, ht, hs, hx⟩ := h
  have hall : ops.all (·.cls == .nop) = false := by
    rw [List.all_eq_false]; exact ⟨o, ho, by simp [hn]⟩
  have hany : ops.any (fun x => x.slot == o.slot && x.is o.cls o.code) = true := by
    rw [List.any_eq_true]; exact ⟨o, ho, by simp [Op.is]⟩
  unfold issueOp issueAt
  rw [skipEmpty_of_op emptyRun hb hall]
  unfold bundleNow at hb
  cases hk : kernelOf s k with
  | none => rw [hk] at hb; simp at hb
  | some p =>
    obtain ⟨l, c', x⟩ := p
    rw [hk] at hb
    cases hb' : bundleAt s k x with
    | none => simp [hb'] at hb
    | some ops' =>
      simp [hb'] at hb
      obtain ⟨rfl, rfl⟩ := hb
      simp only [hi, hk, hb', hany, ht, hs, hx]
      simp

/-! ### Landing (R456) -/

/-- A list in ascending order takes a new entry after those of its own cycle. -/
theorem insertBy_eq {α : Type} {key : α → Nat} {x : α} : ∀ {l : List α}, l.Pairwise (fun a b => key a ≤ key b) →
    insertBy (fun a b => decide (key a < key b)) x l =
      l.filter (fun y => decide (key y ≤ key x)) ++ x :: l.filter fun y => decide (key x < key y)
  | [], _ => rfl
  | y :: ys, h => by
    obtain ⟨h1, h2⟩ := List.pairwise_cons.1 h
    unfold insertBy
    by_cases hy : key x < key y
    · have ha : ∀ z ∈ ys, key x < key z := fun z hz => Nat.lt_of_lt_of_le hy (h1 z hz)
      rw [if_pos (by simpa using hy), List.filter_cons_of_neg (by simpa using hy), List.filter_cons_of_pos (by simpa using hy),
        List.filter_eq_nil_iff.2 (by simpa using ha), List.filter_eq_self.2 (by simpa using ha)]
      rfl
    · rw [if_neg (by simpa using hy), List.filter_cons_of_pos (by simp; omega), List.filter_cons_of_neg (by simpa using hy),
        insertBy_eq h2]
      rfl

theorem sortBy_snoc {α : Type} {lt : α → α → Bool} {l : List α} {x : α} :
    sortBy lt (l ++ [x]) = insertBy lt x (sortBy lt l) := by
  unfold sortBy; rw [List.foldl_append]; rfl

theorem sorted_insertBy {α : Type} {key : α → Nat} {x : α} {l : List α} (h : l.Pairwise fun a b => key a ≤ key b) :
    (insertBy (fun a b => decide (key a < key b)) x l).Pairwise fun a b => key a ≤ key b := by
  rw [insertBy_eq h, List.pairwise_append, List.pairwise_cons]
  refine ⟨h.filter _, ⟨fun y hy => ?_, h.filter _⟩, fun a ha b hb => ?_⟩
  · have := (List.mem_filter.1 hy).2; simp at this; omega
  · have h1 := (List.mem_filter.1 ha).2
    rcases List.mem_cons.1 hb with rfl | hb
    · simpa using h1
    · have h2 := (List.mem_filter.1 hb).2; simp at h1 h2; omega

/-- `sortBy` puts a list in ascending order. -/
theorem sorted_sortBy {α : Type} {key : α → Nat} (l : List α) :
    (sortBy (fun a b => decide (key a < key b)) l).Pairwise fun a b => key a ≤ key b := by
  induction l using List.reverseRecOn with
  | nil => exact List.Pairwise.nil
  | append_singleton l x ih => rw [sortBy_snoc]; exact sorted_insertBy ih

theorem mem_insertBy {α : Type} {lt : α → α → Bool} {x y : α} : ∀ {l : List α}, y ∈ insertBy lt x l ↔ y = x ∨ y ∈ l
  | [] => by simp [insertBy]
  | z :: l => by
    unfold insertBy
    split
    · simp
    · simp only [List.mem_cons, mem_insertBy]
      tauto

@[simp] theorem mem_sortBy {α : Type} {lt : α → α → Bool} {y : α} (l : List α) : y ∈ sortBy lt l ↔ y ∈ l := by
  induction l using List.reverseRecOn with
  | nil => exact Iff.rfl
  | append_singleton l x ih => rw [sortBy_snoc, mem_insertBy, ih]; simp; tauto

theorem insertBy_split {α : Type} {lt : α → α → Bool} {x : α} : ∀ (l : List α), ∃ a b, l = a ++ b ∧ insertBy lt x l = a ++ x :: b
  | [] => ⟨[], [], rfl, rfl⟩
  | z :: l => by
    unfold insertBy
    split
    · exact ⟨[], z :: l, rfl, rfl⟩
    · obtain ⟨a, b, e, e'⟩ := insertBy_split (lt := lt) (x := x) l
      exact ⟨z :: a, b, by rw [e]; rfl, by rw [e']; rfl⟩

/-- An entry that is the last to hit, and no earlier than the hits before it, is the last to hit in order of cycles too. -/
theorem sortBy_last {α : Type} {key : α → Nat} {hit : α → Prop} {e : α} {l1 : List α} (h1 : ∀ p ∈ l1, hit p → key p ≤ key e) :
    ∀ l2 : List α, (∀ p ∈ l2, ¬ hit p) → ∃ a b, sortBy (fun a b => decide (key a < key b)) (l1 ++ e :: l2) = a ++ e :: b ∧
      ∀ p ∈ b, ¬ hit p := by
  intro l2
  induction l2 using List.reverseRecOn with
  | nil =>
    intro _
    refine ⟨_, _, by rw [sortBy_snoc, insertBy_eq (sorted_sortBy l1)], fun p hp hh => ?_⟩
    obtain ⟨hm, hk⟩ := List.mem_filter.1 hp
    have := h1 p ((mem_sortBy l1).1 hm) hh
    simp at hk
    omega
  | append_singleton l x ih =>
    intro h2
    obtain ⟨a, b, e1, hb⟩ := ih fun p hp => h2 p (List.mem_append_left _ hp)
    have hx : ¬ hit x := h2 x (by simp)
    rw [← List.cons_append, ← List.append_assoc, sortBy_snoc, e1]
    obtain ⟨u, v, eu, ev⟩ := insertBy_split (lt := fun a b => decide (key a < key b)) (x := x) (a ++ e :: b)
    rw [ev]
    rcases List.append_eq_append_iff.1 eu with ⟨w, hw1, hw2⟩ | ⟨w, hw1, hw2⟩
    · cases w with
      | nil =>
        simp at hw1 hw2
        subst hw1 hw2
        exact ⟨u ++ [x], b, by simp, hb⟩
      | cons y w =>
        simp at hw2
        obtain ⟨rfl, rfl⟩ := hw2
        refine ⟨a, w ++ x :: v, by simp [hw1], fun p hp => ?_⟩
        rcases List.mem_append.1 hp with hp | hp
        · exact hb p (List.mem_append_left _ hp)
        · rcases List.mem_cons.1 hp with rfl | hp
          · exact hx
          · exact hb p (List.mem_append_right _ hp)
    · exact ⟨u ++ x :: w, b, by simp [hw2], hb⟩

theorem wrapDst_of_ok {d : RegDst} (h : dstOk d = true) : wrapDst d = d := by
  cases d <;> simp_all [wrapDst, dstOk, Nat.mod_eq_of_lt]

theorem wrapDst_ne {p d : RegDst} (h : dstOk p = true) (hn : dstName p ≠ dstName d) : wrapDst p ≠ d := by
  rw [wrapDst_of_ok h]
  rintro rfl
  exact hn rfl

theorem regValue_putReg {K : Core} {p : PendReg} (h : dstOk p.dst = true) :
    regValue (putReg K p) p.dst = cutTo p.dst p.val := by
  obtain ⟨d, v, n⟩ := p
  cases d <;> simp_all [putReg, regValue, cutTo, dstWidth, dstOk, rdG, vat_vupd_self, Nat.pos_iff_ne_zero]

theorem regValue_putReg_ne {K : Core} {p : PendReg} {d : RegDst} (hd : dstOk d = true)
    (hn : wrapDst p.dst ≠ d) : regValue (putReg K p) d = regValue K d := by
  obtain ⟨e, v, n⟩ := p
  cases e <;> simp only [putReg] <;> (try split) <;> cases d <;> simp only [regValue, rdG] <;>
    (try split) <;> (try rfl) <;> simp_all only [dstOk, wrapDst, decide_eq_true_eq, ne_eq, RegDst.g.injEq, RegDst.v.injEq,
      RegDst.lc.injEq, RegDst.ls.injEq, RegDst.le.injEq] <;>
    rw [vat_vupd_ne _ _ (by omega)]

theorem regValue_land {l : List PendReg} : ∀ {K : Core} {d : RegDst}, (∀ p ∈ l, wrapDst p.dst ≠ d) →
    dstOk d = true → regValue (l.foldl putReg K) d = regValue K d := by
  induction l with
  | nil => intros; rfl
  | cons p l ih =>
    intro K d h hd
    rw [List.foldl_cons, ih (fun q hq => h q (List.mem_cons_of_mem _ hq)) hd]
    exact regValue_putReg_ne hd (h p List.mem_cons_self)

/-- Landing changes registers alone. -/
theorem foldl_putReg_rest {l : List PendReg} : ∀ {K : Core}, ∃ g v lc ls le pr ts,
    l.foldl putReg K = { K with g := g, v := v, lc := lc, ls := ls, le := le, prog := pr, tsp := ts } := by
  induction l with
  | nil => intro K; exact ⟨_, _, _, _, _, _, _, rfl⟩
  | cons p l ih =>
    intro K
    obtain ⟨g, v, lc, ls, le, pr, ts, e⟩ := @ih (putReg K p)
    rw [List.foldl_cons, e]
    obtain ⟨d, x, n⟩ := p
    cases d <;> simp only [putReg] <;> (try split) <;> exact ⟨_, _, _, _, _, _, _, rfl⟩

/-! ### What an operation changes (R448) -/

/-- Between `s` and `t` core `k` worked: nothing changes but the cores, memory, what has been sent, counters and what is
charged, and no core but `k` changes. -/
structure CoreStep (k : Nat) (s t : State) : Prop where
  rest : t = { s with cores := t.cores, mem := t.mem, out := t.out, cnt := t.cnt, cmds := t.cmds,
                      qos := { s.qos with usage := t.qos.usage }, led := { s.led with house := t.led.house },
                      pmc := { s.pmc with domains := t.pmc.domains } }
  cmds : t.cmds.map (fun c => { c with energy := 0 }) = s.cmds.map fun c => { c with energy := 0 }
  others : ∀ j, j % 136 ≠ k % 136 → vat t.cores j = vat s.cores j

theorem CoreStep.same (k : Nat) (s : State) : CoreStep k s s := ⟨rfl, rfl, fun _ _ => rfl⟩

theorem CoreStep.trans {k : Nat} {a b c : State} (h1 : CoreStep k a b) (h2 : CoreStep k b c) : CoreStep k a c := by
  refine ⟨?_, h2.cmds.trans h1.cmds, fun j h => (h2.others j h).trans (h1.others j h)⟩
  rw [h2.rest, h1.rest]

/-- The registers, accumulator slots, results, stores and transfers that operations of a bundle write; the rest of core `k`
stays. -/
structure OpStep (k : Nat) (names : List RegName) (s t : State) : Prop extends CoreStep k s t where
  same : vat t.cores k = { vat s.cores k with
    g := (vat t.cores k).g, lc := (vat t.cores k).lc, ls := (vat t.cores k).ls, le := (vat t.cores k).le,
    modeReg := (vat t.cores k).modeReg, modePend := (vat t.cores k).modePend, prog := (vat t.cores k).prog,
    tsp := (vat t.cores k).tsp, nest := (vat t.cores k).nest, bd := (vat t.cores k).bd, ms := (vat t.cores k).ms,
    li := (vat t.cores k).li, cause := (vat t.cores k).cause, bank := (vat t.cores k).bank, tiles := (vat t.cores k).tiles,
    arrFree := (vat t.cores k).arrFree, slotFree := (vat t.cores k).slotFree, slotBusy := (vat t.cores k).slotBusy,
    pend := (vat t.cores k).pend, stores := (vat t.cores k).stores, xfers := (vat t.cores k).xfers }
  pend : ∃ l, (vat t.cores k).pend = (vat s.cores k).pend ++ l ∧ ∀ p ∈ l, dstOk p.dst = true ∧ dstName p.dst ∈ names
  stores : ∃ l, (vat t.cores k).stores = (vat s.cores k).stores ++ l
  xfers : ∃ l, (vat t.cores k).xfers = (vat s.cores k).xfers ++ l

theorem OpStep.refl {k : Nat} {ns : List RegName} {s : State} : OpStep k ns s s :=
  ⟨CoreStep.same k s, rfl, ⟨[], by simp⟩, ⟨[], by simp⟩, ⟨[], by simp⟩⟩

theorem OpStep.trans {k : Nat} {m n : List RegName} {a b c : State} (h1 : OpStep k m a b) (h2 : OpStep k n b c) :
    OpStep k (m ++ n) a c := by
  obtain ⟨l1, e1, p1⟩ := h1.pend
  obtain ⟨l2, e2, p2⟩ := h2.pend
  obtain ⟨m1, f1⟩ := h1.stores
  obtain ⟨m2, f2⟩ := h2.stores
  obtain ⟨n1, g1⟩ := h1.xfers
  obtain ⟨n2, g2⟩ := h2.xfers
  refine ⟨h1.toCoreStep.trans h2.toCoreStep, ?_, ⟨l1 ++ l2, by rw [e2, e1, List.append_assoc], ?_⟩,
    ⟨m1 ++ m2, by rw [f2, f1, List.append_assoc]⟩, ⟨n1 ++ n2, by rw [g2, g1, List.append_assoc]⟩⟩
  · rw [h2.same, h1.same]
  · intro p hp
    rcases List.mem_append.1 hp with hp | hp
    · exact ⟨(p1 p hp).1, List.mem_append_left _ (p1 p hp).2⟩
    · exact ⟨(p2 p hp).1, List.mem_append_right _ (p2 p hp).2⟩

theorem vat_onCore {k : Nat} {g : Core → Core} {s : State} : vat (onCore k g s).cores k = g (vat s.cores k) :=
  vat_vupd_self ..

theorem CoreStep.onCore {k : Nat} {g : Core → Core} {s : State} : CoreStep k s (onCore k g s) :=
  ⟨rfl, rfl, fun _ h => vat_vupd_ne _ _ (Ne.symm h)⟩

/-- A change of core `k` alone. -/
theorem OpStep.onCore {k : Nat} {ns : List RegName} {g : Core → Core} {s : State}
    (same : ∀ C, g C = { C with
      g := (g C).g, lc := (g C).lc, ls := (g C).ls, le := (g C).le, modeReg := (g C).modeReg, modePend := (g C).modePend,
      prog := (g C).prog, tsp := (g C).tsp, nest := (g C).nest, bd := (g C).bd, ms := (g C).ms, li := (g C).li, cause := (g C).cause,
      bank := (g C).bank, tiles := (g C).tiles, arrFree := (g C).arrFree,
      slotFree := (g C).slotFree, slotBusy := (g C).slotBusy, pend := (g C).pend, stores := (g C).stores, xfers := (g C).xfers })
    (pend : ∀ C, ∃ l, (g C).pend = C.pend ++ l ∧ ∀ p ∈ l, dstOk p.dst = true ∧ dstName p.dst ∈ ns)
    (stores : ∀ C, ∃ l, (g C).stores = C.stores ++ l) (xfers : ∀ C, ∃ l, (g C).xfers = C.xfers ++ l) :
    OpStep k ns s (onCore k g s) := by
  refine ⟨CoreStep.onCore, ?_, ?_, ?_, ?_⟩ <;> rw [vat_onCore]
  · exact same _
  · exact pend _
  · exact stores _
  · exact xfers _

/-- A change of core `k` that adds no result, store or transfer. -/
theorem OpStep.regs {k : Nat} {ns : List RegName} {g : Core → Core} {s : State}
    (same : ∀ C, g C = { C with
      g := (g C).g, lc := (g C).lc, ls := (g C).ls, le := (g C).le, modeReg := (g C).modeReg, modePend := (g C).modePend,
      prog := (g C).prog, tsp := (g C).tsp, nest := (g C).nest, bd := (g C).bd, ms := (g C).ms, li := (g C).li, cause := (g C).cause,
      bank := (g C).bank, tiles := (g C).tiles, arrFree := (g C).arrFree,
      slotFree := (g C).slotFree, slotBusy := (g C).slotBusy }) : OpStep k ns s (Machine.onCore k g s) := by
  refine .onCore (fun C => ?_) (fun C => ⟨[], ?_, by simp⟩) (fun C => ⟨[], ?_⟩) (fun C => ⟨[], ?_⟩) <;> rw [same C] <;> simp

/-- A result adds one pending write. -/
theorem OpStep.result {k : Nat} {K : Core} {d : RegDst} {v : V512} {lat : Nat} {s : State} {ns : List RegName}
    (h : dstOk d = true) (hn : dstName d ∈ ns) : OpStep k ns s (result k K d v lat s) :=
  .onCore (fun _ => rfl) (fun _ => ⟨_, rfl, fun p hp => by rw [List.mem_singleton.1 hp]; exact ⟨h, hn⟩⟩)
    (fun C => ⟨[], by simp⟩) fun C => ⟨[], by simp⟩

theorem OpStep.resultG {k : Nat} {K : Core} {d : Nat} {v : BitVec 64} {lat : Nat} {s : State} {ns : List RegName}
    (h : d < 64) (hn : d ≠ 0 → (0, d) ∈ ns) : OpStep k ns s (resultG k K d v lat s) := by
  unfold Machine.resultG
  split
  · exact .refl
  · exact .result (by simp [dstOk]; omega) (hn ‹_›)

theorem bits_lt (v lo w : Nat) : bits v lo w < 2 ^ w := Nat.mod_lt _ (Nat.two_pow_pos w)

theorem mem_gName {d : Nat} : d ≠ 0 → (0, d) ∈ gName d := by intro h; simp [gName, h]

theorem Op.d_lt (o : Op) : o.d < 64 := bits_lt ..

theorem intEffect_step {k : Nat} {K : Core} {o : Op} {s : State} : OpStep k (gName o.d) s (intEffect k K o s) := by
  unfold intEffect
  split <;> exact .resultG o.d_lt mem_gName

/-- A change of memory, of what has been sent, of counters or of what is charged. -/
theorem OpStep.ofCores {k : Nat} {ns : List RegName} {s t : State} (h : t.cores = s.cores)
    (rest : t = { s with cores := t.cores, mem := t.mem, out := t.out, cnt := t.cnt, cmds := t.cmds,
                         qos := { s.qos with usage := t.qos.usage }, led := { s.led with house := t.led.house },
                         pmc := { s.pmc with domains := t.pmc.domains } })
    (cmds : t.cmds.map (fun c => { c with energy := 0 }) = s.cmds.map fun c => { c with energy := 0 }) : OpStep k ns s t := by
  refine ⟨⟨rest, cmds, fun j _ => by rw [h]⟩, ?_, ⟨[], ?_, by simp⟩, ⟨[], ?_⟩, ⟨[], ?_⟩⟩ <;> rw [h] <;> simp

theorem Charged.step {k : Nat} {ns : List RegName} {s t : State} (h : Charged s t) : OpStep k ns s t :=
  .ofCores h.cores (by rw [h.rest]) h.cmds

theorem OpStep.with {k : Nat} {ns : List RegName} {s t u : State} (h : OpStep k ns s t) (hu : OpStep k ns t u) :
    OpStep k ns s u := by
  obtain ⟨l1, e1, p1⟩ := h.pend
  obtain ⟨l2, e2, p2⟩ := hu.pend
  obtain ⟨c, a, -, x, y⟩ := h.trans hu
  refine ⟨c, a, ⟨l1 ++ l2, by rw [e2, e1, List.append_assoc], fun p hp => ?_⟩, x, y⟩
  rcases List.mem_append.1 hp with hp | hp
  · exact p1 p hp
  · exact p2 p hp

theorem daPoke_rest {bs : List Byte} : ∀ {s : State} {a : Nat}, daPoke s a bs = { s with mem := (daPoke s a bs).mem } := by
  induction bs with
  | nil => intros; rfl
  | cons b bs ih => intro s a; rw [daPoke, ih]

theorem daPoke_step {k : Nat} {ns : List RegName} {s : State} {a : Nat} {bs : List Byte} : OpStep k ns s (daPoke s a bs) :=
  .ofCores (by rw [daPoke_rest]) (by rw [daPoke_rest]) (by rw [daPoke_rest])

theorem emit_step {k : Nat} {ns : List RegName} {s : State} {o : Out} : OpStep k ns s (emit o s) := .ofCores rfl rfl rfl

theorem tally_step {k : Nat} {ns : List RegName} {s : State} {i : BankId} {e n : Nat} {t : Tag} :
    OpStep k ns s (tally i e n t s) := .ofCores (by simp) (by rw [tally_frame]) (by rw [tally_frame])

theorem issueXfer_step {f k : Nat} {K : Core} {o : Op} {s : State} {ns : List RegName} :
    OpStep k ns s (issueXfer f k K o s) := by
  unfold issueXfer
  extract_lets n crib dev x s1
  have h : OpStep k ns s s1 := .onCore (fun _ => rfl) (fun C => ⟨[], by simp⟩) (fun C => ⟨[], by simp⟩) (fun C => ⟨_, rfl⟩)
  split
  · exact h.with emit_step
  · exact h

theorem mod32_lt (n : Nat) : n % 32 < 32 := Nat.mod_lt _ (by decide)

theorem writes_int {o : Op} (h : o.cls = .int) (hc : o.code ≤ 0x0D) : o.writes = gName o.d := by
  simp only [Op.writes, h, if_pos hc]

theorem writes_mem {o : Op} (h : o.cls = .mem) :
    o.writes = if o.code = 5 then vName o.d else if o.code ≤ 4 then gName o.d else [] := by simp only [Op.writes, h]

theorem writes_vec {o : Op} (h : o.cls = .vec) (hc : o.code ≤ 0x12) :
    o.writes = if o.code = 0x0F then gName o.d else vName o.d := by
  simp only [Op.writes, h, if_neg (Nat.not_lt.2 hc)]

theorem writes_acc {o : Op} (h : o.cls = .acc) :
    o.writes = if o.code = 0x82 then vName o.d else if o.code = 0x88 then gName o.d else [] := by simp only [Op.writes, h]

theorem memEffect_step {c : Cmd} {k : Nat} {K : Core} {o : Op} {s : State} (h : o.cls = .mem) :
    OpStep k o.writes s (memEffect c k K o s) := by
  unfold memEffect
  rw [writes_mem h]
  extract_lets a n s1 bs
  have h1 : ∀ ns, OpStep k ns s s1 := by
    intro ns
    unfold s1
    split
    · exact chargeCmd_charged.step
    · exact .refl
  by_cases h5 : o.code = 5
  · rw [if_pos h5, if_neg (by omega), if_pos h5]
    exact (h1 _).with (.result (by simp [dstOk]; omega) (by simp [dstName, vName]))
  · rw [if_neg h5, if_neg h5]
    split
    · exact (h1 _).with (.resultG o.d_lt mem_gName)
    · split
      · exact (h1 _).with issueXfer_step
      · refine (h1 _).with (.onCore (fun _ => rfl) (fun C => ⟨[], ?_, ?_⟩) (fun C => ⟨_, rfl⟩) (fun C => ⟨[], ?_⟩)) <;> simp

theorem vecEffect_step {k : Nat} {K : Core} {o : Op} {s : State} (h : o.cls = .vec) (hc : o.code ≤ 0x12) :
    OpStep k o.writes s (vecEffect k K o s) := by
  unfold vecEffect
  rw [writes_vec h hc]
  extract_lets t t2
  by_cases hf : o.code = 0x0F
  · rw [if_pos hf, if_pos hf]
    exact .resultG o.d_lt mem_gName
  · rw [if_neg hf, if_neg hf]
    exact .result (by simp [dstOk]; omega) (by simp [dstName, vName])

theorem onTile_step {k n : Nat} {g : Tile → Tile} {s : State} {ns : List RegName} : OpStep k ns s (onTile k n g s) :=
  .regs fun _ => rfl

theorem accEffect_step {M : List Host.Cell} {c : Cmd} {k : Nat} {K : Core} {o : Op} {s : State} (h : o.cls = .acc)
    (hc : o.code ≤ 0x88) : OpStep k o.writes s (accEffect M c k K o s) := by
  have hlo : 0x80 ≤ o.code := by
    unfold Op.cls at h
    grind
  unfold accEffect
  extract_lets n t kc strip addr
  rw [writes_acc h]
  generalize hw : (if o.code = 0x82 then vName o.d else if o.code = 0x88 then gName o.d else []) = ws
  split
  · split
    · exact .refl
    · exact onTile_step.with (activity_charged.step.with tally_step)
  · exact onTile_step
  · rename_i e
    rw [if_pos e] at hw
    exact .result (by simp [dstOk]; omega) (by simp [← hw, dstName, vName])
  · exact onTile_step
  · exact chargeCmd_charged.step.with daPoke_step
  · split
    · exact chargeCmd_charged.step.with onTile_step
    · exact .refl
  · exact .refl
  · exact .regs fun _ => rfl
  · have e : o.code = 0x88 := by grind
    rw [if_neg (by omega), if_pos e] at hw
    rw [← hw]
    exact .resultG o.d_lt mem_gName

theorem accBook_rest {a : Nat} {o : Op} {C : Core} :
    accBook a o C = { C with arrFree := (accBook a o C).arrFree, slotFree := (accBook a o C).slotFree,
                             slotBusy := (accBook a o C).slotBusy } := by
  unfold accBook
  split
  · rfl
  · split
    · rfl
    · split <;> rfl

theorem accBook_step {k a : Nat} {o : Op} {s : State} {ns : List RegName} : OpStep k ns s (onCore k (accBook a o) s) :=
  .regs fun C => by rw [accBook_rest]

theorem rteEffect_step {c : Cmd} {k : Nat} {K : Core} {s : State} {ns : List RegName} : OpStep k ns s (rteEffect c k K s) := by
  unfold rteEffect
  extract_lets fr w
  exact chargeCmd_charged.step.with (.regs fun _ => rfl)

theorem movtcEffect_step {k : Nat} {K : Core} {o : Op} {s : State} (h : ctlKnown o.ctlReg = true) :
    OpStep k [(2, o.ctlReg)] s (movtcEffect k K o s) := by
  have hk : o.ctlReg ≤ 5 ∨ (8 ≤ o.ctlReg ∧ o.ctlReg ≤ 0x10) := by simpa [ctlKnown] using h
  unfold movtcEffect
  extract_lets v c put
  split
  · exact .regs fun _ => rfl
  · split
    · exact .result rfl (by simp [dstName]; omega)
    · split
      · exact .result rfl (by simp [dstName]; omega)
      · split
        · exact .refl
        · split
          · exact .result (by simp [dstOk]; omega) (by simp [dstName]; omega)
          · split <;> exact .result (by simp [dstOk]; omega) (by simp [dstName]; omega)

theorem ctlEffect_step {c : Cmd} {k : Nat} {K : Core} {o : Op} {s : State} (h : o.cls = .ctl)
    (hm : o.code = 0x0B → ctlKnown o.ctlReg = true) : OpStep k o.writes s (ctlEffect c k K o s) := by
  generalize hw : o.writes = ws
  unfold Op.writes at hw
  simp only [h] at hw
  unfold ctlEffect
  split <;> rename_i e <;> (try simp only [e] at hw) <;> (try rw [← hw])
  · exact .resultG (by decide) (by simp)
  · exact .regs fun _ => rfl
  · exact rteEffect_step
  · exact movtcEffect_step (hm e)
  · exact .resultG o.d_lt mem_gName
  · exact .resultG o.d_lt mem_gName
  · exact .resultG o.d_lt mem_gName
  · exact .refl

/-- An operation that the checks of a bundle let pass changes its core as its class says. -/
theorem opEffect_step {M : List Host.Cell} {w : Nat} {c : Cmd} {f k : Nat} {K K' : Core} {s s' : State} {o : Op} (h : illegalOp s' f k K' o = false) :
    OpStep k o.writes s (opEffect M w c k K s o) := by
  unfold opEffect
  split <;> rename_i e
  · exact ctlEffect_step e fun e' => by
      unfold illegalOp at h
      simp only [e] at h
      rw [if_neg (by omega), e'] at h
      simp at h
      exact h.1
  · rw [writes_int e (by
      unfold illegalOp at h
      simp only [e] at h
      simpa using h)]
    exact intEffect_step
  · exact memEffect_step e
  · exact vecEffect_step e (by
      unfold illegalOp at h
      simp only [e] at h
      split at h
      · exact absurd h (by decide)
      · simp only [Bool.or_eq_false_iff] at h
        simpa using h.1.1)
  · extract_lets K1
    exact (accEffect_step (K := K1) e (by
      unfold illegalOp at h
      simp only [e, Bool.or_eq_false_iff] at h
      have h1 := h.1
      unfold accIllegal at h1
      extract_lets t at h1
      by_contra hc
      rw [if_neg (by omega), if_pos (by omega)] at h1
      exact absurd h1 (by decide))).with accBook_step
  · exact .refl

theorem opsEffect_step {M : List Host.Cell} {w : Nat} {c : Cmd} {f k : Nat} {K K' : Core} {s' : State} : ∀ {ops : List Op} {s : State},
    (∀ o ∈ ops, illegalOp s' f k K' o = false) → OpStep k (ops.flatMap (·.writes)) s (ops.foldl (opEffect M w c k K) s)
  | [], _, _ => .refl
  | o :: ops, s, h => by
    rw [List.foldl_cons, List.flatMap_cons]
    exact (opEffect_step (h o List.mem_cons_self)).trans
      (opsEffect_step fun x hx => h x (List.mem_cons_of_mem _ hx))

/-! ### The whole bundle -/

theorem hasRepeat_append {a b : List RegName} (h : hasRepeat (a ++ b) = false) :
    hasRepeat a = false ∧ hasRepeat b = false ∧ ∀ x ∈ a, x ∉ b := by
  induction a with
  | nil => exact ⟨rfl, h, fun x hx => absurd hx (by simp)⟩
  | cons y a ih =>
    rw [List.cons_append, hasRepeat, Bool.or_eq_false_iff] at h
    obtain ⟨h1, h2⟩ := h
    obtain ⟨i1, i2, i3⟩ := ih h2
    have hy : y ∉ a ++ b := by simpa using h1
    refine ⟨?_, i2, fun x hx => ?_⟩
    · rw [hasRepeat, i1, Bool.or_false]
      simpa using fun hm => hy (List.mem_append_left _ hm)
    · rcases List.mem_cons.1 hx with rfl | hx
      · exact fun hm => hy (List.mem_append_right _ hm)
      · exact i3 x hx

/-- The registers of a core that no loop, branch or mode change touches, and what waits on it. -/
structure SameRegs (C C' : Core) : Prop where
  regs : ∀ d, (∀ l, d ≠ .lc l) → regValue C' d = regValue C d
  pend : C'.pend = C.pend
  cycles : C'.cycles = C.cycles
  stores : C'.stores = C.stores
  xfers : C'.xfers = C.xfers
  tiles : C'.tiles = C.tiles
  bank : C'.bank = C.bank

theorem evalLoops_rest {b : Nat} : ∀ {ls : List Nat} {K : Core},
    (evalLoops b ls K).1 = { K with lc := (evalLoops b ls K).1.lc }
  | [], _ => rfl
  | l :: ls, K => by
    unfold evalLoops
    split
    · split
      · rfl
      · rw [evalLoops_rest]
    · exact evalLoops_rest

theorem nextPc_rest {K0 K : Core} {ops : List Op} :
    nextPc K0 ops K = { K with pc := (nextPc K0 ops K).pc, branch := (nextPc K0 ops K).branch, lc := (nextPc K0 ops K).lc } := by
  unfold nextPc
  split
  · rfl
  · split
    · rfl
    · split
      · rfl
      · split
        · rfl
        · simp only []
          rw [evalLoops_rest]

theorem stepMode_rest {K : Core} : stepMode K = { K with modeReg := (stepMode K).modeReg, modePend := (stepMode K).modePend } := by
  unfold stepMode
  split <;> rfl

theorem rteTarget_rest {s : State} {K0 K : Core} {ops : List Op} :
    rteTarget s K0 ops K = { K with pc := (rteTarget s K0 ops K).pc } := by
  unfold rteTarget
  split <;> rfl

/-- The core after its bundle: registers, what waits and the slots stay as they were when time had passed. -/
theorem sameRegs_next {s : State} {K0 K : Core} {ops : List Op} :
    SameRegs K (rteTarget s K0 ops (nextPc K0 ops (stepMode K))) := by
  rw [rteTarget_rest, nextPc_rest, stepMode_rest]
  refine ⟨fun d h => ?_, rfl, rfl, rfl, rfl, rfl, rfl⟩
  cases d <;> first | rfl | exact absurd rfl (h _)

theorem onCore_id {k : Nat} {g : Core → Core} {s : State} (h : g (vat s.cores k) = vat s.cores k) : onCore k g s = s := by
  have e : vupd s.cores k g = s.cores := by
    unfold vupd
    rw [h]
    exact Vector.set_getElem_self (Fin.isLt _)
  unfold onCore
  rw [e]

theorem onCore_congr {k : Nat} {g g' : Core → Core} {s : State} (h : g (vat s.cores k) = g' (vat s.cores k)) :
    onCore k g s = onCore k g' s := by
  unfold onCore vupd
  rw [h]

theorem endingOp_rest {K0 : Core} {ops : List Op} {k : Nat} {s : State} :
    ∃ m d, endingOp K0 ops k s = onCore k (fun K => { K with mode := m, drain := d }) s := by
  unfold endingOp
  split
  · exact ⟨_, _, rfl⟩
  · split
    · exact ⟨_, _, rfl⟩
    · split
      · exact ⟨_, _, onCore_congr rfl⟩
      · exact ⟨_, _, (onCore_id rfl).symm⟩

theorem daPoke_cores {s : State} {a : Nat} {bs : List Byte} : (daPoke s a bs).cores = s.cores := by rw [daPoke_rest]

theorem foldl_daPoke_rest {l : List PendStore} : ∀ {s : State},
    l.foldl (fun s x => daPoke s x.addr x.bytes) s = { s with mem := (l.foldl (fun s x => daPoke s x.addr x.bytes) s).mem } := by
  induction l with
  | nil => intros; rfl
  | cons x l ih => intro s; rw [List.foldl_cons, ih, daPoke_rest]

/-- The results of a core due by cycle `n`, in the order in which they land. -/
def landing (n : Nat) (K : Core) : List PendReg := sortBy (fun a b => decide (a.due < b.due)) (K.pend.filter (·.due ≤ n))

/-- What lands by a cycle: registers of core `k`, and memory. -/
theorem landBy_core {n k : Nat} {s : State} :
    vat (landBy n k s).cores k =
      { (landing n (vat s.cores k)).foldl putReg (vat s.cores k) with
        pend := (vat s.cores k).pend.filter fun p => !decide (p.due ≤ n),
        stores := (vat s.cores k).stores.filter fun p => !decide (p.due ≤ n) } := by
  unfold landBy landing
  extract_lets K s1
  have h : s1.cores = s.cores := by unfold s1; rw [foldl_daPoke_rest]
  rw [vat_onCore, h]

theorem landBy_step {n k : Nat} {s : State} : CoreStep k s (landBy n k s) := by
  unfold landBy
  extract_lets K s1
  refine CoreStep.trans (b := s1) ⟨?_, ?_, fun j _ => ?_⟩ .onCore <;> unfold s1 <;> rw [foldl_daPoke_rest]

theorem regValue_waits {K : Core} {p : List PendReg} {q : List PendStore} {d : RegDst} :
    regValue { K with pend := p, stores := q } d = regValue K d := by cases d <;> rfl

/-- The newest write of a register, which no older one outlasts, gives its value once it is due; until then it waits. -/
theorem landBy_lands {n k : Nat} {s : State} {l1 l2 : List PendReg} {e : PendReg}
    (h : (vat s.cores k).pend = l1 ++ e :: l2) (he : dstOk e.dst = true) (h1 : ∀ p ∈ l1, wrapDst p.dst = e.dst → p.due ≤ e.due)
    (h2 : ∀ p ∈ l2, wrapDst p.dst ≠ e.dst) :
    if e.due ≤ n then regValue (vat (landBy n k s).cores k) e.dst = cutTo e.dst e.val
    else e ∈ (vat (landBy n k s).cores k).pend := by
  rw [landBy_core]
  split
  · rename_i hd
    refine regValue_waits.trans ?_
    obtain ⟨a, b, ea, hb⟩ := sortBy_last (key := PendReg.due) (hit := fun p => wrapDst p.dst = e.dst) (e := e)
      (l1 := l1.filter (·.due ≤ n)) (fun p hp => h1 p (List.mem_of_mem_filter hp)) (l2.filter (·.due ≤ n))
      fun p hp => h2 p (List.mem_of_mem_filter hp)
    unfold landing
    rw [h, List.filter_append, List.filter_cons_of_pos (by simpa using hd), ea, List.foldl_append, List.foldl_cons,
      regValue_land hb he]
    exact regValue_putReg he
  · rename_i hd
    simp only []
    rw [h]
    simp [hd]

theorem passCycles_step {n k : Nat} {s : State} : CoreStep k s (passCycles n k s) := CoreStep.onCore.trans landBy_step

/-- A result that a bundle's operations left waiting, newest of its register, after time has passed. -/
theorem passCycles_lands {n k : Nat} {s : State} {l1 l2 : List PendReg} {e : PendReg}
    (h : (vat s.cores k).pend = l1 ++ e :: l2) (he : dstOk e.dst = true) (h1 : ∀ p ∈ l1, wrapDst p.dst = e.dst → p.due ≤ e.due)
    (h2 : ∀ p ∈ l2, wrapDst p.dst ≠ e.dst) : Lands (passCycles n k s) k e.dst e.val e.due := by
  unfold passCycles landNow Lands
  generalize hg : onCore k _ s = s1
  have hs : vat s1.cores k = { vat s.cores k with cycles := (vat s1.cores k).cycles, ymaskCycles := (vat s1.cores k).ymaskCycles } := by
    rw [← hg, vat_onCore]
  have hc : (vat (landBy (vat s1.cores k).cycles k s1).cores k).cycles = (vat s1.cores k).cycles := by
    rw [landBy_core]
    obtain ⟨_, _, _, _, _, _, _, e⟩ := foldl_putReg_rest (l := landing (vat s1.cores k).cycles (vat s1.cores k))
      (K := vat s1.cores k)
    rw [e]
  rw [hc]
  exact landBy_lands (by rw [hs]; exact h) he h1 h2

theorem Lands.of_same {t u : State} {k : Nat} {d : RegDst} {v : BitVec 512} {n : Nat} (h : Lands t k d v n)
    (hs : SameRegs (vat t.cores k) (vat u.cores k)) (hd : ∀ l, d ≠ .lc l) : Lands u k d v n := by
  unfold Lands at *
  rw [hs.cycles, hs.pend, hs.regs d hd]
  exact h

theorem SameRegs.trans {a b c : Core} (h1 : SameRegs a b) (h2 : SameRegs b c) : SameRegs a c :=
  ⟨fun d h => (h2.regs d h).trans (h1.regs d h), h2.pend.trans h1.pend, h2.cycles.trans h1.cycles,
   h2.stores.trans h1.stores, h2.xfers.trans h1.xfers, h2.tiles.trans h1.tiles, h2.bank.trans h1.bank⟩

/-- A long instruction that begins changes, beside what is charged, its core's `long`, `lsrc` and `ldesc`. -/
theorem beginLong_rest {c : Cmd} {k : Nat} {K0 : Core} {ops : List Op} {s : State} :
    ∃ s' l d, Charged s s' ∧ beginLong c k K0 ops s = onCore k (fun K => { K with long := true, lsrc := l, ldesc := d }) s' :=
  ⟨_, _, _, chargeCmd_charged, rfl⟩

theorem beginLong_core {c : Cmd} {k : Nat} {K0 : Core} {ops : List Op} {s : State} :
    ∃ l d, vat (beginLong c k K0 ops s).cores k = { vat s.cores k with long := true, lsrc := l, ldesc := d } := by
  obtain ⟨s', l, d, h, e⟩ := @beginLong_rest c k K0 ops s
  exact ⟨l, d, by rw [e, vat_onCore, h.cores]⟩

theorem beginLong_mem {c : Cmd} {k : Nat} {K0 : Core} {ops : List Op} {s : State} : (beginLong c k K0 ops s).mem = s.mem := by
  obtain ⟨s', l, d, h, e⟩ := @beginLong_rest c k K0 ops s
  rw [e, onCore_mem, h.mem]

theorem beginLong_out {c : Cmd} {k : Nat} {K0 : Core} {ops : List Op} {s : State} : (beginLong c k K0 ops s).out = s.out := by
  obtain ⟨s', l, d, h, e⟩ := @beginLong_rest c k K0 ops s
  rw [e, onCore_out, h.out]

/-- One operation's effect in the bundle `ops` that core `k` issues in state `s`. -/
abbrev opIn (c : Cmd) (ops : List Op) (k : Nat) (s : State) : State → Op → State :=
  opEffect (preMem (bundleWait (vat s.cores k) ops) k s) (bundleWait (vat s.cores k) ops) c k (vat s.cores k)

/-- After its operations, a bundle's time passes, and the core goes on. `s0` differs from the state before in counters and
what is charged alone. -/
theorem issueBundle_tail {c : Cmd} {ops : List Op} {k : Nat} {s : State} :
    ∃ s0, s0.cores = s.cores ∧ s0.mem = s.mem ∧ CoreStep k s s0 ∧
      issueBundle c ops k s =
        if ops.any (·.isLong) then
          passCycles (bundleCycles (vat s.cores k) ops) k
            (beginLong c k (vat s.cores k) ops (ops.foldl (opIn c ops k s) s0))
        else
          endingOp (vat s.cores k) ops k
            (onCore k (fun K => rteTarget s0 (vat s.cores k) ops (nextPc (vat s.cores k) ops (stepMode K)))
              (passCycles (bundleCycles (vat s.cores k) ops) k
                (ops.foldl (opIn c ops k s) s0))) := by
  unfold issueBundle
  extract_lets K0 live wait n M s1 s2
  have h1 : OpStep k [] s s1 := tally_step.with tally_step
  have h2 : OpStep k [] s1 s2 := tally_step.with activity_charged.step
  refine ⟨s2, ?_, ?_, (h1.with h2).toCoreStep, rfl⟩
  · exact activity_charged.cores.trans (by unfold s1; simp)
  · exact activity_charged.mem.trans (by unfold s1; simp)

theorem illegalBundle_of {s : State} {f k : Nat} {K : Core} {ops : List Op} (h : bundleTrap s f k K ops = none) :
    illegalBundle K ops = false ∧ ∀ o ∈ ops, illegalOp s f k K o = false := by
  unfold bundleTrap at h
  split at h
  · simp at h
  · rename_i hb
    split at h
    · simp at h
    · rename_i hf
      exact ⟨by simpa using hb, fun o ho => by simpa using (List.find?_eq_none.1 hf o ho)⟩

theorem noRepeat_of {K : Core} {ops : List Op} (h : illegalBundle K ops = false) :
    hasRepeat (ops.flatMap (·.writes)) = false := by
  unfold illegalBundle at h
  simp only [Bool.or_eq_false_iff] at h
  exact h.1.1.1.1.1.1.2

theorem result_mem {k : Nat} {K : Core} {d : RegDst} {v : V512} {lat : Nat} {s : State} : (result k K d v lat s).mem = s.mem :=
  rfl

theorem resultG_mem {k : Nat} {K : Core} {d : Nat} {v : BitVec 64} {lat : Nat} {s : State} :
    (resultG k K d v lat s).mem = s.mem := by
  unfold resultG
  split <;> rfl

/-- What a MEM operation is charged leaves cores and memory alone. -/
theorem memCharge {c : Cmd} {o : Op} {a n : Nat} {s : State} :
    Charged s (if o.code ≤ 0x0A then chargeCmd c a n s else s) := by
  split
  · exact chargeCmd_charged
  · exact .refl s

theorem issueXfer_mem {f k : Nat} {K : Core} {o : Op} {s : State} : (issueXfer f k K o s).mem = s.mem := by
  unfold issueXfer
  extract_lets
  split <;> rfl

/-- Only ACC.SAVE writes memory at once. -/
theorem accEffect_mem {M : List Host.Cell} {c : Cmd} {k : Nat} {K : Core} {s : State} {o : Op} (h : o.code ≠ 0x84) :
    (accEffect M c k K o s).mem = s.mem := by
  unfold accEffect
  extract_lets n t kc strip addr
  split <;> first | contradiction | exact resultG_mem | skip
  · split
    · rfl
    · simp [activity_charged.mem, onTile]
  · rfl
  · rfl
  · rfl
  · split
    · exact chargeCmd_charged.mem
    · rfl
  · rfl
  · rfl

theorem rteEffect_mem {c : Cmd} {k : Nat} {K : Core} {s : State} : (rteEffect c k K s).mem = s.mem :=
  (chargeCmd_charged (c := c) (da := K.tsp.toNat) (n := 256)).mem

/-- See `accEffect_mem`. -/
theorem opEffect_mem {M : List Host.Cell} {w : Nat} {c : Cmd} {k : Nat} {K : Core} {s : State} {o : Op} (h : o.is .acc 0x84 = false) :
    (opEffect M w c k K s o).mem = s.mem := by
  unfold opEffect
  split
  · unfold ctlEffect
    split <;> first | rfl | exact resultG_mem | exact rteEffect_mem | skip
    unfold movtcEffect
    extract_lets v c' put
    repeat' split
    all_goals rfl
  · unfold intEffect; split <;> exact resultG_mem
  · unfold memEffect
    extract_lets a n s1 bs
    have h1 : s1.mem = s.mem := memCharge.mem
    split
    · exact resultG_mem.trans h1
    · split
      · exact result_mem.trans h1
      · split
        · exact issueXfer_mem.trans h1
        · exact h1
  · unfold vecEffect
    extract_lets t t2
    split
    · exact resultG_mem
    · exact result_mem
  · rename_i e
    exact accEffect_mem fun hc => by simp [Op.is, e, hc] at h
  · rfl

theorem opsEffect_mem {M : List Host.Cell} {w : Nat} {c : Cmd} {k : Nat} {K : Core} : ∀ {ops : List Op} {s : State},
    (∀ o ∈ ops, o.is .acc 0x84 = false) → (ops.foldl (opEffect M w c k K) s).mem = s.mem
  | [], _, _ => rfl
  | o :: ops, s, h => by
    rw [List.foldl_cons, opsEffect_mem fun x hx => h x (List.mem_cons_of_mem _ hx)]
    exact opEffect_mem (h o List.mem_cons_self)

/-- A bundle's operation whose effect is one waiting result: the result, of which `P` holds, lands. -/
theorem issueBundle_lands {s : State} {k due : Nat} {c : Cmd} {ops pre post : List Op} {o : Op} {dst : RegDst}
    {P : V512 → Prop} (hi : Issuing s k c ops) (ho : ops = pre ++ o :: post) (hd : dstOk dst = true)
    (hn : dstName dst ∈ o.writes) (hl : ∀ l, dst ≠ .lc l) (hw : SettledBy (vat s.cores k) dst due)
    (h : ∀ s1, CoreStep k s s1 → (pre = [] → s1.cores = s.cores) → ((∀ x ∈ pre, x.is .acc 0x84 = false) → s1.mem = s.mem) →
      ∃ v, P v ∧ (vat (opIn c ops k s s1 o).cores k).pend = (vat s1.cores k).pend ++ [⟨dst, v, due⟩]) :
    ∃ v, P v ∧ Lands (issueBundle c ops k s) k dst v due := by
  obtain ⟨hb, hall⟩ := illegalBundle_of hi.2.2.1
  have hr := noRepeat_of hb
  obtain ⟨s0, h1, h2, h3, h4⟩ := @issueBundle_tail c ops k s
  have hpre := opsEffect_step (M := preMem (bundleWait (vat s.cores k) ops) k s) (w := bundleWait (vat s.cores k) ops) (c := c) (k := k) (K := vat s.cores k) (s := s0) fun x (hx : x ∈ pre) =>
    hall x (by rw [ho]; exact List.mem_append_left _ hx)
  obtain ⟨v, hv, hs1⟩ := h _ (h3.trans hpre.toCoreStep) (fun e => by rw [e]; exact h1) fun hm => (opsEffect_mem hm).trans h2
  obtain ⟨e, rfl, rfl, rfl⟩ : ∃ e : PendReg, e.dst = dst ∧ e.val = v ∧ e.due = due := ⟨⟨dst, v, due⟩, rfl, rfl, rfl⟩
  have he := hd
  refine ⟨e.val, hv, ?_⟩
  have hpost := opsEffect_step (M := preMem (bundleWait (vat s.cores k) ops) k s) (w := bundleWait (vat s.cores k) ops) (c := c) (k := k) (K := vat s.cores k)
    (s := opIn c ops k s (pre.foldl (opIn c ops k s) s0) o) fun x (hx : x ∈ post) =>
    hall x (by rw [ho]; exact List.mem_append_right _ (List.mem_cons_of_mem _ hx))
  obtain ⟨l2, e2, p2⟩ := hpost.pend
  obtain ⟨l0, e0, p0⟩ := hpre.pend
  rw [hs1, List.append_assoc] at e2
  rw [ho, List.flatMap_append, List.flatMap_cons] at hr
  have hd : ∀ p ∈ l2, wrapDst p.dst ≠ e.dst := fun p hp =>
    wrapDst_ne (p2 p hp).1 fun hq => (hasRepeat_append (hasRepeat_append hr).2.1).2.2 _ hn (hq ▸ (p2 p hp).2)
  have hb : ∀ p ∈ (vat (pre.foldl (opIn c ops k s) s0).cores k).pend,
      wrapDst p.dst = e.dst → p.due ≤ e.due := fun p hp hq => by
    rw [e0, h1] at hp
    rcases List.mem_append.1 hp with hp | hp
    · exact hw p hp hq
    · refine absurd hq (wrapDst_ne (p0 p hp).1 fun hx => ?_)
      exact (hasRepeat_append hr).2.2 _ (p0 p hp).2 (List.mem_append_left _ (hx ▸ hn))
  have hf : ops.foldl (opIn c ops k s) s0 =
      post.foldl (opIn c ops k s) (opIn c ops k s (pre.foldl (opIn c ops k s) s0) o) := by
    rw [ho, List.foldl_append, List.foldl_cons]
  rw [h4, hf]
  generalize hl1 : (vat (pre.foldl (opIn c ops k s) s0).cores k).pend = l1 at e2 hb
  split
  · refine passCycles_lands (l1 := l1) (l2 := l2) ?_ he hb hd
    obtain ⟨l, d, ec⟩ := @beginLong_core c k (vat s.cores k) ops (post.foldl (opIn c ops k s) (opIn c ops k s
        (pre.foldl (opIn c ops k s) s0) o))
    rw [ec]
    exact e2
  · obtain ⟨m, d, ee⟩ := @endingOp_rest (vat s.cores k) ops k
      (onCore k (fun K => rteTarget s0 (vat s.cores k) ops (nextPc (vat s.cores k) ops (stepMode K)))
        (passCycles (bundleCycles (vat s.cores k) ops) k (post.foldl (opIn c ops k s)
          (opIn c ops k s (pre.foldl (opIn c ops k s) s0) o))))
    rw [ee]
    refine Lands.of_same (passCycles_lands (n := bundleCycles (vat s.cores k) ops) e2 he hb hd) ?_ hl
    rw [vat_onCore, vat_onCore]
    exact sameRegs_next.trans ⟨fun x _ => by cases x <;> rfl, rfl, rfl, rfl, rfl, rfl, rfl⟩

/-- The core at the end of the cycles that pass, before results land. -/
def laterCore (n k : Nat) (s : State) : Core :=
  let K := vat s.cores k
  { K with cycles := K.cycles + n, ymaskCycles := if yieldPending s k && modeYmask K.modeReg then K.ymaskCycles + n else 0 }

theorem passCycles_eq {n k : Nat} {s : State} :
    vat (passCycles n k s).cores k =
      { (landing ((vat s.cores k).cycles + n) (laterCore n k s)).foldl putReg (laterCore n k s) with
        pend := (vat s.cores k).pend.filter fun p => !decide (p.due ≤ (vat s.cores k).cycles + n),
        stores := (vat s.cores k).stores.filter fun p => !decide (p.due ≤ (vat s.cores k).cycles + n) } := by
  unfold passCycles landNow
  rw [landBy_core, vat_onCore]
  rfl

theorem passCycles_core {n k : Nat} {s : State} : ∃ g v lc ls le pr ts pe st cy ym,
    vat (passCycles n k s).cores k = { vat s.cores k with
      g := g, v := v, lc := lc, ls := ls, le := le, prog := pr, tsp := ts, pend := pe, stores := st, cycles := cy,
      ymaskCycles := ym } := by
  rw [passCycles_eq]
  obtain ⟨g, v, lc, ls, le, pr, ts, e⟩ := foldl_putReg_rest
    (l := landing ((vat s.cores k).cycles + n) (laterCore n k s)) (K := laterCore n k s)
  rw [e]
  exact ⟨_, _, _, _, _, _, _, _, _, _, _, rfl⟩

/-- After its operations and its time the core is in the mode it was in, unless the bundle ends or traps. -/
theorem issueBundle_mode {c : Cmd} {ops : List Op} {k : Nat} {s : State} (hi : Issuing s k c ops) :
    (ops.any (·.isLong) = true → (vat (issueBundle c ops k s).cores k).mode = .kernel) ∧
    (ops.any (·.isLong) = false → ∃ u, (vat u.cores k).mode = .kernel ∧ issueBundle c ops k s = endingOp (vat s.cores k) ops k u) := by
  obtain ⟨hb, hall⟩ := illegalBundle_of hi.2.2.1
  obtain ⟨s0, h1, h2, h3, h4⟩ := @issueBundle_tail c ops k s
  have hm : (vat s.cores k).mode = .kernel := by
    have h := hi.1
    unfold issues at h
    simp only [Bool.and_eq_true, beq_iff_eq] at h
    exact h.1.1
  have hs := (opsEffect_step (M := preMem (bundleWait (vat s.cores k) ops) k s) (w := bundleWait (vat s.cores k) ops) (c := c) (k := k) (K := vat s.cores k) (s := s0) hall).same
  constructor <;> intro hl <;> rw [h4]
  · rw [if_pos hl]
    obtain ⟨_, _, _, _, _, _, _, _, _, _, _, e⟩ := passCycles_core (n := bundleCycles (vat s.cores k) ops) (k := k)
      (s := beginLong c k (vat s.cores k) ops (ops.foldl (opIn c ops k s) s0))
    obtain ⟨l, d, el⟩ := @beginLong_core c k (vat s.cores k) ops
      (ops.foldl (opIn c ops k s) s0)
    rw [e, el, hs]
    simp only []
    rw [h1]
    exact hm
  · rw [if_neg (by simp [hl])]
    refine ⟨_, ?_, rfl⟩
    obtain ⟨_, _, _, _, _, _, _, _, _, _, _, e⟩ := passCycles_core (n := bundleCycles (vat s.cores k) ops) (k := k)
      (s := ops.foldl (opIn c ops k s) s0)
    rw [vat_onCore, rteTarget_rest, nextPc_rest, stepMode_rest, e, hs]
    simp only []
    rw [h1]
    exact hm

/-- The end of a bundle without END and FAULT. -/
theorem endingOp_other {K0 : Core} {ops : List Op} {k : Nat} {s : State} (h7 : ops.any (fun o => o.is .ctl 0x07) = false)
    (h8 : ops.any (fun o => o.is .ctl 0x08) = false) :
    endingOp K0 ops k s = match ops.find? fun o => o.is .ctl 0x09 with
      | some o => onCore k (fun K => { K with
          mode := .draining, drain := .exception 6 0 0 (bits o.w 26 16) 0 K.pc K0.pc false K0.modePend.isSome false }) s
      | none => s := by
  unfold endingOp
  exact (if_neg (by rw [h7]; decide)).trans (if_neg (by rw [h8]; decide))

theorem settleDrain_goesOn {c : Cmd} {ops : List Op} {k : Nat} {s : State} (hi : Issuing s k c ops) (hg : goesOn ops = true) :
    settleDrain k (issueBundle c ops k s) = issueBundle c ops k s := by
  obtain ⟨h1, h2⟩ := issueBundle_mode hi
  unfold settleDrain
  simp only []
  cases hl : ops.any (·.isLong)
  · obtain ⟨u, hu, e⟩ := h2 hl
    rw [e]
    unfold goesOn at hg
    have e7 : ops.any (fun o => o.is .ctl 0x07) = false := by
      rw [List.any_eq_false]; intro o ho; have := List.all_eq_true.1 hg o ho; simp_all
    have e8 : ops.any (fun o => o.is .ctl 0x08) = false := by
      rw [List.any_eq_false]; intro o ho; have := List.all_eq_true.1 hg o ho; simp_all
    rw [endingOp_other e7 e8]
    split
    · simp only [vat_onCore]
      split <;> rfl
    · rw [hu]
      rfl
  · rw [h1 hl]
    rfl

/-- An operation whose effect is one waiting result, issued by its row: the result lands. -/
theorem issueOp_landsP {s : State} {k m n due : Nat} {c : Cmd} {cls : OpClass} {ops : List Op} {o : Op} {dst : RegDst}
    {P : V512 → Prop} (hi : Issuing s k c ops) (hg : goesOn ops = true) (ho : o ∈ ops) (hs : o.slot = n) (hc : o.cls = cls)
    (hm : o.code = m) (hn : cls ≠ .nop) (he : dstOk dst = true) (hw : dstName dst ∈ o.writes) (hl : ∀ l, dst ≠ .lc l)
    (hq : SettledBy (vat s.cores k) dst due)
    (h : ∀ pre post s1, ops = pre ++ o :: post → CoreStep k s s1 → (pre = [] → s1.cores = s.cores) →
      ((∀ x ∈ pre, x.is .acc 0x84 = false) → s1.mem = s.mem) →
      ∃ v, P v ∧ (vat (opIn c ops k s s1 o).cores k).pend = (vat s1.cores k).pend ++ [⟨dst, v, due⟩]) :
    ∃ v, P v ∧ Lands (issueOp cls m n k s) k dst v due := by
  subst hs hc hm
  rw [issueOp_eq hi ho hn, settleDrain_goesOn hi hg]
  obtain ⟨pre, post, eq⟩ := List.append_of_mem ho
  exact issueBundle_lands hi eq he hw hl hq fun s1 => h pre post s1 eq

/-- The same for a known value. -/
theorem issueOp_lands {s : State} {k m n : Nat} {c : Cmd} {cls : OpClass} {ops : List Op} {o : Op} {e : PendReg}
    (hi : Issuing s k c ops) (hg : goesOn ops = true) (ho : o ∈ ops) (hs : o.slot = n) (hc : o.cls = cls) (hm : o.code = m)
    (hn : cls ≠ .nop) (he : dstOk e.dst = true) (hw : dstName e.dst ∈ o.writes) (hl : ∀ l, e.dst ≠ .lc l)
    (hq : SettledBy (vat s.cores k) e.dst e.due)
    (h : ∀ pre post s1, ops = pre ++ o :: post → CoreStep k s s1 → (pre = [] → s1.cores = s.cores) →
      ((∀ x ∈ pre, x.is .acc 0x84 = false) → s1.mem = s.mem) →
      (vat (opIn c ops k s s1 o).cores k).pend = (vat s1.cores k).pend ++ [e]) :
    Lands (issueOp cls m n k s) k e.dst e.val e.due := by
  obtain ⟨v, hv, hx⟩ := issueOp_landsP (P := (· = e.val)) (due := e.due) hi hg ho hs hc hm hn he hw hl hq
    fun pre post s1 h1 h2 h3 h4 => ⟨_, rfl, h pre post s1 h1 h2 h3 h4⟩
  rw [← hv]
  exact hx

/-- The same for a result in a general register. -/
theorem issueOp_landsG {s : State} {k m n due : Nat} {c : Cmd} {cls : OpClass} {ops : List Op} {o : Op} {v : BitVec 64}
    (hi : Issuing s k c ops) (hg : goesOn ops = true) (ho : o ∈ ops) (hs : o.slot = n) (hc : o.cls = cls) (hm : o.code = m)
    (hn : cls ≠ .nop) (hw : o.d ≠ 0 → (0, o.d) ∈ o.writes) (hq : SettledBy (vat s.cores k) (.g o.d) due)
    (h : ∀ pre post s1, ops = pre ++ o :: post → CoreStep k s s1 → (pre = [] → s1.cores = s.cores) →
      ((∀ x ∈ pre, x.is .acc 0x84 = false) → s1.mem = s.mem) →
      o.d ≠ 0 → (vat (opIn c ops k s s1 o).cores k).pend =
        (vat s1.cores k).pend ++ [⟨.g o.d, v.setWidth 512, due⟩]) :
    LandsG (issueOp cls m n k s) k o.d v due := by
  unfold LandsG
  split
  · rfl
  · rename_i hd
    refine issueOp_lands (e := ⟨.g o.d, v.setWidth 512, due⟩) hi hg ho hs hc hm hn ?_ (hw hd) (fun l => by simp) hq ?_
    · simp [dstOk]; have := o.d_lt; omega
    · exact fun pre post s1 h1 h2 h3 h4 => h pre post s1 h1 h2 h3 h4 hd

/-- A general register's result waits. -/
theorem resultG_pend {k : Nat} {K : Core} {d : Nat} {v : BitVec 64} {lat : Nat} {s : State} (h : d ≠ 0) :
    (vat (resultG k K d v lat s).cores k).pend = (vat s.cores k).pend ++ [⟨.g d, v.setWidth 512, K.cycles + lat⟩] := by
  simp only [resultG, h, if_false, result, vat_onCore]

theorem result_pend {k : Nat} {K : Core} {d : RegDst} {v : V512} {lat : Nat} {s : State} :
    (vat (result k K d v lat s).cores k).pend = (vat s.cores k).pend ++ [⟨d, v, K.cycles + lat⟩] := by
  simp only [result, vat_onCore]

theorem slots_bundleOps {bs : List Byte} {pre post : List Op} {o : Op} (h : bundleOps bs = pre ++ o :: post) :
    o.slot = pre.length ∧ ∀ x ∈ pre, x.slot < o.slot := by
  have hg : ∀ i, i < 8 → ((bundleOps bs)[i]?.map Op.slot) = some i := by
    intro i hi
    unfold bundleOps
    rw [List.getElem?_map, List.getElem?_range hi]
    rfl
  have hlen : (bundleOps bs).length = 8 := by simp [bundleOps]
  have hl : pre.length < 8 := by rw [← hlen, h]; simp
  have e1 : o.slot = pre.length := by
    have := hg pre.length hl
    rw [h] at this
    simpa using this
  refine ⟨e1, fun x hx => ?_⟩
  obtain ⟨i, hi, rfl⟩ := List.mem_iff_getElem.1 hx
  have := hg i (by omega)
  rw [h, List.getElem?_append_left hi, List.getElem?_eq_getElem hi] at this
  simp at this
  omega

/-- The operations before one of an issuing bundle stand in lower slots. -/
theorem slots_lower {s : State} {k : Nat} {c : Cmd} {ops pre post : List Op} {o : Op} (hi : Issuing s k c ops)
    (h : ops = pre ++ o :: post) : o.slot = pre.length ∧ ∀ x ∈ pre, x.slot < o.slot := by
  have hb := hi.2.1
  unfold bundleNow at hb
  cases hk : kernelOf s k with
  | none => rw [hk] at hb; simp at hb
  | some p =>
    rw [hk] at hb
    unfold bundleAt at hb
    simp only [Option.bind_some] at hb
    split at hb
    · simp at hb
      obtain ⟨_, rfl⟩ := hb
      exact slots_bundleOps h
    · simp at hb

/-- An operation below slot 6 writes no memory at once. -/
theorem notSave_of_slot {o : Op} (h : o.slot < 6) : o.is .acc 0x84 = false := by
  unfold Op.is Op.cls
  grind

theorem landBy_mem {n k : Nat} {s : State} (h : (vat s.cores k).stores = []) : (landBy n k s).mem = s.mem := by
  unfold landBy
  extract_lets K s1
  show s1.mem = s.mem
  unfold s1 K
  rw [h]
  rfl

theorem passCycles_mem {n k : Nat} {s : State} (h : (vat s.cores k).stores = []) : (passCycles n k s).mem = s.mem := by
  unfold passCycles landNow
  rw [landBy_mem (by rw [vat_onCore]; exact h)]
  rfl

/-- Empty slots do nothing. -/
theorem opsEffect_live {M : List Host.Cell} {w : Nat} {c : Cmd} {k : Nat} {K : Core} {ops : List Op} {s : State} :
    ops.foldl (opEffect M w c k K) s = (ops.filter (·.cls != .nop)).foldl (opEffect M w c k K) s := by
  rw [List.foldl_filter]
  congr 1
  funext s o
  split
  · rfl
  · rename_i h
    have hc : o.cls = .nop := by simpa using h
    unfold opEffect
    rw [hc]

theorem landBy_out {n k : Nat} {s : State} : (landBy n k s).out = s.out := by
  unfold landBy
  extract_lets K s1
  show s1.out = s.out
  unfold s1
  rw [foldl_daPoke_rest]

theorem passCycles_out {n k : Nat} {s : State} : (passCycles n k s).out = s.out := landBy_out

theorem passCycles_waits {n k : Nat} {s : State} :
    (vat (passCycles n k s).cores k).cycles = (vat s.cores k).cycles + n ∧
    (vat (passCycles n k s).cores k).stores =
      (vat s.cores k).stores.filter (fun p => !decide (p.due ≤ (vat s.cores k).cycles + n)) ∧
    (vat (passCycles n k s).cores k).xfers = (vat s.cores k).xfers ∧
    (vat (passCycles n k s).cores k).tiles = (vat s.cores k).tiles ∧
    (vat (passCycles n k s).cores k).bank = (vat s.cores k).bank := by
  rw [passCycles_eq]
  obtain ⟨g, v, lc, ls, le, pr, ts, e⟩ := foldl_putReg_rest
    (l := landing ((vat s.cores k).cycles + n) (laterCore n k s)) (K := laterCore n k s)
  rw [e]
  exact ⟨rfl, rfl, rfl, rfl, rfl⟩

/-- What a bundle leaves on its core beside registers: its cycles, the stores and transfers that wait, its slots and its
bank. `s0` differs from the state before in counters and what is charged alone. -/
theorem issueBundle_waits {c : Cmd} {ops : List Op} {k : Nat} {s : State} (hi : Issuing s k c ops) :
    ∃ s0, s0.cores = s.cores ∧ s0.mem = s.mem ∧ CoreStep k s s0 ∧
      ∃ C, C = vat (ops.foldl (opIn c ops k s) s0).cores k ∧
        (vat (issueBundle c ops k s).cores k).cycles = (vat s.cores k).cycles + bundleCycles (vat s.cores k) ops ∧
        (vat (issueBundle c ops k s).cores k).stores =
          C.stores.filter (fun p => !decide (p.due ≤ (vat s.cores k).cycles + bundleCycles (vat s.cores k) ops)) ∧
        (vat (issueBundle c ops k s).cores k).xfers = C.xfers ∧ (vat (issueBundle c ops k s).cores k).tiles = C.tiles ∧
        (vat (issueBundle c ops k s).cores k).bank = C.bank ∧
        (issueBundle c ops k s).out = (ops.foldl (opIn c ops k s) s0).out ∧
        (C.stores = [] → (issueBundle c ops k s).mem = (ops.foldl (opIn c ops k s) s0).mem) := by
  obtain ⟨hb, hall⟩ := illegalBundle_of hi.2.2.1
  obtain ⟨s0, h1, h2, h3, h4⟩ := @issueBundle_tail c ops k s
  refine ⟨s0, h1, h2, h3, _, rfl, ?_⟩
  have hs := (opsEffect_step (M := preMem (bundleWait (vat s.cores k) ops) k s) (w := bundleWait (vat s.cores k) ops) (c := c) (k := k) (K := vat s.cores k) (s := s0) hall).same
  have hcy : (vat (ops.foldl (opIn c ops k s) s0).cores k).cycles = (vat s.cores k).cycles := by
    rw [hs, h1]
  rw [h4]
  split
  · obtain ⟨a, b, d, e, f⟩ := passCycles_waits (n := bundleCycles (vat s.cores k) ops) (k := k)
      (s := beginLong c k (vat s.cores k) ops (ops.foldl (opIn c ops k s) s0))
    obtain ⟨l, x, el⟩ := @beginLong_core c k (vat s.cores k) ops
      (ops.foldl (opIn c ops k s) s0)
    rw [el] at a b d e f
    simp only [hcy] at a b d e f
    exact ⟨a, b, d, e, f, by rw [passCycles_out, beginLong_out], fun hs => by
      rw [passCycles_mem (by rw [el]; exact hs), beginLong_mem]⟩
  · obtain ⟨a, b, d, e, f⟩ := passCycles_waits (n := bundleCycles (vat s.cores k) ops) (k := k)
      (s := ops.foldl (opIn c ops k s) s0)
    rw [hcy] at a b
    obtain ⟨m, x, ee⟩ := @endingOp_rest (vat s.cores k) ops k
      (onCore k (fun K => rteTarget s0 (vat s.cores k) ops (nextPc (vat s.cores k) ops (stepMode K)))
        (passCycles (bundleCycles (vat s.cores k) ops) k (ops.foldl (opIn c ops k s) s0)))
    rw [ee]
    simp only [vat_onCore]
    have hn := sameRegs_next (s := s0) (K0 := vat s.cores k) (ops := ops)
      (K := vat (passCycles (bundleCycles (vat s.cores k) ops) k (ops.foldl (opIn c ops k s) s0)).cores k)
    exact ⟨hn.cycles.trans a, hn.stores.trans b, hn.xfers.trans d, hn.tiles.trans e, hn.bank.trans f,
      by simp only [onCore_out, passCycles_out], fun hs => by simp only [onCore_mem]; exact passCycles_mem hs⟩

/-- The state around the operation at one place of a bundle: what stands before it and after it changes `k` alone. -/
theorem opsEffect_split {s s0 : State} {k : Nat} {c : Cmd} {ops pre post : List Op} {o : Op} (hi : Issuing s k c ops)
    (e : ops = pre ++ o :: post) :
    let s1 := pre.foldl (opIn c ops k s) s0
    let s2 := opIn c ops k s s1 o
    OpStep k (pre.flatMap (·.writes)) s0 s1 ∧ OpStep k o.writes s1 s2 ∧
      OpStep k (post.flatMap (·.writes)) s2 (ops.foldl (opIn c ops k s) s0) := by
  obtain ⟨hb, hall⟩ := illegalBundle_of hi.2.2.1
  intro s1 s2
  refine ⟨opsEffect_step fun x hx => hall x (by rw [e]; exact List.mem_append_left _ hx),
    opEffect_step (hall o (by rw [e]; simp)), ?_⟩
  have hf (g : State → Op → State) : ops.foldl g s0 = post.foldl g (g (pre.foldl g s0) o) := by
    rw [e, List.foldl_append, List.foldl_cons]
  rw [hf]
  exact opsEffect_step fun x hx => hall x (by rw [e]; exact List.mem_append_right _ (List.mem_cons_of_mem _ hx))

theorem bundleWait_plain {K : Core} {ops : List Op} (h : ∀ o ∈ ops, o.cls ≠ .acc) : bundleWait K ops = 0 := by
  unfold bundleWait
  rw [List.filter_eq_nil_iff.2 (by simpa using h)]
  rfl

theorem bundleCycles_plain {K : Core} {ops : List Op} (h : ∀ o ∈ ops, o.cls ≠ .acc) : bundleCycles K ops = 1 := by
  unfold bundleCycles
  rw [bundleWait_plain h]

/-! ### Accumulator slots -/

theorem physSlot_lt {K : Core} {b : Bool} {o : Op} : physSlot K b o.tile < 8 := by
  unfold physSlot
  split
  · have : b2n (K.bank != b) ≤ 1 := by unfold b2n; split <;> omega
    omega
  · exact bits_lt ..

theorem result_tiles {k : Nat} {K : Core} {d : RegDst} {v : V512} {lat : Nat} {s : State} :
    (vat (result k K d v lat s).cores k).tiles = (vat s.cores k).tiles ∧
    (vat (result k K d v lat s).cores k).bank = (vat s.cores k).bank := by
  unfold result; rw [vat_onCore]; exact ⟨rfl, rfl⟩

theorem resultG_tiles {k : Nat} {K : Core} {d : Nat} {v : BitVec 64} {lat : Nat} {s : State} :
    (vat (resultG k K d v lat s).cores k).tiles = (vat s.cores k).tiles ∧
    (vat (resultG k K d v lat s).cores k).bank = (vat s.cores k).bank := by
  unfold resultG
  split
  · exact ⟨rfl, rfl⟩
  · exact result_tiles

/-- An operation of another class leaves slots and bank alone. -/
theorem opEffect_tiles {M : List Host.Cell} {w : Nat} {c : Cmd} {k : Nat} {K : Core} {s : State} {o : Op} (h : o.cls ≠ .acc) :
    (vat (opEffect M w c k K s o).cores k).tiles = (vat s.cores k).tiles ∧
    (vat (opEffect M w c k K s o).cores k).bank = (vat s.cores k).bank := by
  unfold opEffect
  split
  · unfold ctlEffect
    split
    · exact resultG_tiles
    · rw [vat_onCore]; exact ⟨rfl, rfl⟩
    · unfold rteEffect; simp only []; rw [vat_onCore, chargeCmd_charged.cores]; exact ⟨rfl, rfl⟩
    · unfold movtcEffect
      extract_lets v c' put
      repeat' split
      all_goals first | exact result_tiles | exact ⟨rfl, rfl⟩ | (rw [vat_onCore]; exact ⟨rfl, rfl⟩)
    · exact resultG_tiles
    · exact resultG_tiles
    · exact resultG_tiles
    · exact ⟨rfl, rfl⟩
  · unfold intEffect; split <;> exact resultG_tiles
  · unfold memEffect
    extract_lets a n s1 bs
    have h1 : s1.cores = s.cores := memCharge.cores
    rw [← h1]
    split
    · exact resultG_tiles
    · split
      · exact result_tiles
      · split
        · unfold issueXfer
          extract_lets n crib dev x s2
          have h2 : (vat s2.cores k).tiles = (vat s1.cores k).tiles ∧ (vat s2.cores k).bank = (vat s1.cores k).bank := by
            unfold s2; rw [vat_onCore]; exact ⟨rfl, rfl⟩
          split
          · exact h2
          · exact h2
        · rw [vat_onCore]; exact ⟨rfl, rfl⟩
  · unfold vecEffect
    extract_lets t t2
    split
    · exact resultG_tiles
    · exact result_tiles
  · exact absurd ‹_› h
  · exact ⟨rfl, rfl⟩

theorem onTile_cores {k n : Nat} {g : Tile → Tile} {s u : State} (h : u.cores = s.cores) :
    (onTile k n g u).cores = (onTile k n g s).cores := by
  unfold onTile onCore; rw [h]

theorem onTile_tile {k n m : Nat} {g : Tile → Tile} {s : State} :
    vat (vat (onTile k n g s).cores k).tiles m =
      if n % 8 = m % 8 then g (vat (vat s.cores k).tiles m) else vat (vat s.cores k).tiles m := by
  unfold onTile; rw [vat_onCore]; exact vat_vupd ..

theorem onTile_bank {k n : Nat} {g : Tile → Tile} {s : State} : (vat (onTile k n g s).cores k).bank = (vat s.cores k).bank := by
  unfold onTile; rw [vat_onCore]

/-- An ACC operation on another physical slot leaves a slot alone. -/
theorem accEffect_tile {M : List Host.Cell} {c : Cmd} {k n : Nat} {K : Core} {s : State} {o : Op} (h : o.cls = .acc) (hn : n < 8)
    (hl : modeDbuf K.modeReg = true → o.tile < 4) (hs : accSlot K o ≠ some n) : vat (vat (accEffect M c k K o s).cores k).tiles n = vat (vat s.cores k).tiles n := by
  have hp : 0x80 ≤ o.code → o.code ≤ 0x86 → ∀ g, vat (vat (onTile k (physSlot K o.back o.tile) g s).cores k).tiles n =
      vat (vat s.cores k).tiles n := by
    intro h1 h2 g
    rw [onTile_tile, if_neg]
    intro he
    apply hs
    unfold accSlot
    rw [if_pos (by cases hd : modeDbuf K.modeReg <;> simp_all)]
    have := @physSlot_lt K o.back o
    congr 1
    omega
  unfold accEffect
  extract_lets n' t kc strip addr
  split <;> rename_i e <;> (try have hp := hp (by omega) (by omega))
  · split
    · rfl
    · simp only [tally_cores, activity_charged.cores]; exact hp _
  · exact hp _
  · rw [result_tiles.1]
  · exact hp _
  · rw [daPoke_cores, chargeCmd_charged.cores]
  · split
    · rw [onTile_cores chargeCmd_charged.cores]; exact hp _
    · rfl
  · rfl
  · rw [vat_onCore]
  · rw [resultG_tiles.1]

/-- ACC operations but ACC.SWAP leave the bank alone. -/
theorem accEffect_bank {M : List Host.Cell} {c : Cmd} {k : Nat} {K : Core} {s : State} {o : Op} (h : o.code ≠ 0x87) :
    (vat (accEffect M c k K o s).cores k).bank = (vat s.cores k).bank := by
  unfold accEffect
  extract_lets n' t kc strip addr
  split
  · split
    · rfl
    · simp only [tally_cores, activity_charged.cores]; exact onTile_bank
  · exact onTile_bank
  · exact result_tiles.2
  · exact onTile_bank
  · rw [daPoke_cores, chargeCmd_charged.cores]
  · split
    · rw [onTile_cores chargeCmd_charged.cores]; exact onTile_bank
    · rfl
  · rfl
  · contradiction
  · exact resultG_tiles.2

/-- An ACC operation in its bundle: its effect, at the cycle at which the bundle's wait is over, and its booking. -/
theorem opEffect_acc {M : List Host.Cell} {w : Nat} {c : Cmd} {k : Nat} {K : Core} {s : State} {o : Op} (h : o.cls = .acc) :
    opEffect M w c k K s o = onCore k (accBook (K.cycles + w) o) (accEffect M c k { K with cycles := K.cycles + w } o s) := by
  simp only [opEffect, h]

theorem accBook_tiles {a : Nat} {o : Op} {k : Nat} {s : State} :
    (vat (onCore k (accBook a o) s).cores k).tiles = (vat s.cores k).tiles ∧
    (vat (onCore k (accBook a o) s).cores k).bank = (vat s.cores k).bank := by
  rw [vat_onCore, accBook_rest]
  exact ⟨rfl, rfl⟩

theorem opsEffect_tile {M : List Host.Cell} {w : Nat} {c : Cmd} {k n : Nat} {K : Core} (hn : n < 8) : ∀ {ops : List Op} {s : State},
    (∀ o ∈ ops, o.cls = .acc → (modeDbuf K.modeReg = true → o.tile < 4) ∧ accSlot K o ≠ some n) →
    vat (vat (ops.foldl (opEffect M w c k K) s).cores k).tiles n = vat (vat s.cores k).tiles n
  | [], _, _ => rfl
  | o :: ops, s, h => by
    rw [List.foldl_cons, opsEffect_tile hn fun x hx => h x (List.mem_cons_of_mem _ hx)]
    by_cases hc : o.cls = .acc
    · rw [opEffect_acc hc, accBook_tiles.1]
      exact accEffect_tile hc hn (h o List.mem_cons_self hc).1 (h o List.mem_cons_self hc).2
    · rw [(opEffect_tiles hc).1]

theorem opsEffect_bank {M : List Host.Cell} {w : Nat} {c : Cmd} {k : Nat} {K : Core} : ∀ {ops : List Op} {s : State},
    (∀ o ∈ ops, o.cls = .acc → o.code ≠ 0x87) →
    (vat (ops.foldl (opEffect M w c k K) s).cores k).bank = (vat s.cores k).bank
  | [], _, _ => rfl
  | o :: ops, s, h => by
    rw [List.foldl_cons, opsEffect_bank fun x hx => h x (List.mem_cons_of_mem _ hx)]
    by_cases hc : o.cls = .acc
    · rw [opEffect_acc hc, accBook_tiles.2]
      exact accEffect_bank (h o List.mem_cons_self hc)
    · rw [(opEffect_tiles hc).2]

theorem accClash_of {K : Core} {ops : List Op} (h : illegalBundle K ops = false) : accClash K ops = false := by
  unfold illegalBundle at h
  simp only [Bool.or_eq_false_iff] at h
  exact h.1.1.1.1.2

/-- Two ACC operations of a legal bundle are on different physical slots. -/
theorem accSlot_ne {K : Core} {ops pre post : List Op} {o x : Op} (h : illegalBundle K ops = false) (e : ops = pre ++ o :: post)
    (ho : o.cls = .acc) {n : Nat} (hn : accSlot K o = some n) (hx : x ∈ pre ∨ x ∈ post) (hc : x.cls = .acc) :
    accSlot K x ≠ some n := by
  have h1 := accClash_of h
  unfold accClash at h1
  simp only [Bool.or_eq_false_iff] at h1
  have h2 := h1.1
  rw [e, List.filter_append, List.filter_cons_of_pos (by simpa using ho), List.filterMap_append, List.filterMap_cons, hn,
    List.map_append, List.map_cons] at h2
  obtain ⟨-, h4, h5⟩ := hasRepeat_append h2
  intro hxn
  rcases hx with hx | hx
  · refine h5 (3, n) (List.mem_map.2 ⟨n, List.mem_filterMap.2 ⟨x, List.mem_filter.2 ⟨hx, by simpa using hc⟩, hxn⟩, rfl⟩) ?_
    exact List.mem_cons_self
  · have h6 := (hasRepeat_append (a := [(3, n)]) (by exact h4)).2.2 (3, n) List.mem_cons_self
    exact h6 (List.mem_map.2 ⟨n, List.mem_filterMap.2 ⟨x, List.mem_filter.2 ⟨hx, by simpa using hc⟩, hxn⟩, rfl⟩)

/-- ACC.SWAP is its bundle's only ACC operation. -/
theorem accSwap_alone {K : Core} {ops pre post : List Op} {o x : Op} (h : illegalBundle K ops = false) (e : ops = pre ++ o :: post)
    (ho : o.cls = .acc) (hm : o.code = 0x87) (hx : x ∈ pre ∨ x ∈ post) : x.cls ≠ .acc := by
  intro hc
  have h1 := accClash_of h
  unfold accClash at h1
  simp only [Bool.or_eq_false_iff] at h1
  have h2 := h1.2
  rw [e, List.filter_append, List.filter_cons_of_pos (by simpa using ho)] at h2
  have h3 : 1 < (pre.filter (·.cls == .acc) ++ o :: post.filter (·.cls == .acc)).length := by
    rcases hx with hx | hx
    · have := List.length_pos_of_mem (List.mem_filter.2 ⟨hx, by simpa using hc⟩ : x ∈ pre.filter (·.cls == .acc))
      simp; omega
    · have := List.length_pos_of_mem (List.mem_filter.2 ⟨hx, by simpa using hc⟩ : x ∈ post.filter (·.cls == .acc))
      simp; omega
  simp [hm] at h2
  simp at h3
  omega

/-! ### Where the core goes next -/

/-- A bundle without a long instruction: the core after it, from the core `K'` after operations and time. -/
theorem issueBundle_next {c : Cmd} {ops : List Op} {k : Nat} {s : State} (hl : ops.any (·.isLong) = false) :
    ∃ s0, s0.cores = s.cores ∧ s0.mem = s.mem ∧ CoreStep k s s0 ∧ ∃ m d,
      vat (issueBundle c ops k s).cores k =
        { rteTarget s0 (vat s.cores k) ops (nextPc (vat s.cores k) ops (stepMode
            (vat (passCycles (bundleCycles (vat s.cores k) ops) k (ops.foldl (opIn c ops k s) s0)).cores k))) with
          mode := m, drain := d } := by
  obtain ⟨s0, h1, h2, h3, h4⟩ := @issueBundle_tail c ops k s
  refine ⟨s0, h1, h2, h3, ?_⟩
  rw [h4, if_neg (by simp [hl])]
  obtain ⟨m, d, e⟩ := @endingOp_rest (vat s.cores k) ops k
    (onCore k (fun K => rteTarget s0 (vat s.cores k) ops (nextPc (vat s.cores k) ops (stepMode K)))
      (passCycles (bundleCycles (vat s.cores k) ops) k (ops.foldl (opIn c ops k s) s0)))
  refine ⟨m, d, ?_⟩
  rw [e, vat_onCore, vat_onCore]

/-- An operation in slot 0 stands first. -/
theorem slot0_first {s : State} {k : Nat} {c : Cmd} {ops : List Op} {o : Op} (hi : Issuing s k c ops) (ho : o ∈ ops)
    (h : o.slot = 0) : ∃ post, ops = o :: post ∧ ∀ x ∈ post, 0 < x.slot := by
  obtain ⟨pre, post, e⟩ := List.append_of_mem ho
  have h1 := (slots_lower hi e).1
  have hp : pre = [] := List.length_eq_zero_iff.1 (by omega)
  rw [hp, List.nil_append] at e
  refine ⟨post, e, fun x hx => ?_⟩
  obtain ⟨p1, p2, e2⟩ := List.append_of_mem hx
  have h3 := (slots_lower hi (pre := o :: p1) (post := p2) (o := x) (by rw [e, e2]; rfl)).1
  simp at h3
  omega

theorem ctl_slot {o : Op} (h : o.cls = .ctl) : o.slot = 0 := by
  unfold Op.cls at h
  grind

/-- A long instruction is its bundle's only operation. -/
theorem long_alone {s : State} {f k : Nat} {K : Core} {ops : List Op} {o : Op} (h : bundleTrap s f k K ops = none) (ho : o ∈ ops)
    (hl : o.isLong = false) (hn : o.cls ≠ .nop) : ops.any (·.isLong) = false := by
  have hb := (illegalBundle_of h).1
  unfold illegalBundle at hb
  simp only [Bool.or_eq_false_iff] at hb
  have h3 := hb.1.1.1.1.1.2
  rw [Bool.and_eq_false_iff] at h3
  rcases h3 with h3 | h3
  · exact h3
  · rw [List.any_eq_false]
    intro x hx hxl
    have hxn : x.cls ≠ .nop := by
      intro hc
      unfold Op.isLong Op.is at hxl
      rw [hc] at hxl
      simp at hxl
    have hne : x ≠ o := fun e => by rw [e, hl] at hxl; exact absurd hxl (by simp)
    have hlen : 2 ≤ (ops.filter fun o => o.cls != .nop).length := by
      have hx' : x ∈ ops.filter fun o => o.cls != .nop := List.mem_filter.2 ⟨hx, by simpa using hxn⟩
      have ho' : o ∈ ops.filter fun o => o.cls != .nop := List.mem_filter.2 ⟨ho, by simpa using hn⟩
      obtain ⟨a, b, e⟩ := List.append_of_mem hx'
      rw [e] at ho'
      rw [e]
      rcases List.mem_append.1 ho' with h | h
      · have := List.length_pos_of_mem h; simp; omega
      · rcases List.mem_cons.1 h with h | h
        · exact absurd h.symm hne
        · have := List.length_pos_of_mem h; simp; omega
    simp at h3
    omega

theorem foldl_putReg_loops {l : List PendReg} : ∀ {K : Core}, (∀ p ∈ l, ∀ i, p.dst ≠ .lc i ∧ p.dst ≠ .ls i ∧ p.dst ≠ .le i) →
    (l.foldl putReg K).lc = K.lc ∧ (l.foldl putReg K).ls = K.ls ∧ (l.foldl putReg K).le = K.le := by
  induction l with
  | nil => intros; exact ⟨rfl, rfl, rfl⟩
  | cons p l ih =>
    intro K h
    have h1 := h p List.mem_cons_self
    have h2 := ih (K := putReg K p) fun q hq => h q (List.mem_cons_of_mem _ hq)
    rw [List.foldl_cons]
    have h3 : (putReg K p).lc = K.lc ∧ (putReg K p).ls = K.ls ∧ (putReg K p).le = K.le := by
      obtain ⟨d, v, n⟩ := p
      cases d with
      | lc l => exact absurd rfl (h1 l).1
      | ls l => exact absurd rfl (h1 l).2.1
      | le l => exact absurd rfl (h1 l).2.2
      | g r => unfold putReg; simp only []; split <;> exact ⟨rfl, rfl, rfl⟩
      | v r => exact ⟨rfl, rfl, rfl⟩
      | prog => exact ⟨rfl, rfl, rfl⟩
      | tsp => exact ⟨rfl, rfl, rfl⟩
    exact ⟨h2.1.trans h3.1, h2.2.1.trans h3.2.1, h2.2.2.trans h3.2.2⟩

theorem passCycles_loops {n k : Nat} {s : State}
    (h : ∀ p ∈ (vat s.cores k).pend, ∀ l, p.dst ≠ .lc l ∧ p.dst ≠ .ls l ∧ p.dst ≠ .le l) :
    (vat (passCycles n k s).cores k).lc = (vat s.cores k).lc ∧ (vat (passCycles n k s).cores k).ls = (vat s.cores k).ls ∧
    (vat (passCycles n k s).cores k).le = (vat s.cores k).le := by
  rw [passCycles_eq]
  refine foldl_putReg_loops (K := laterCore n k s) fun p hp => h p ?_
  exact List.mem_of_mem_filter ((mem_sortBy _).1 hp)

/-! ### Operations that change no control register -/

/-- The core with other results, stores and transfers waiting, other slots, and their array otherwise booked. -/
def Plain (C C' : Core) : Prop :=
  C' = { C with pend := C'.pend, stores := C'.stores, xfers := C'.xfers, bank := C'.bank, tiles := C'.tiles,
                arrFree := C'.arrFree, slotFree := C'.slotFree, slotBusy := C'.slotBusy }

theorem Plain.trans {a b c : Core} (h1 : Plain a b) (h2 : Plain b c) : Plain a c := by
  unfold Plain at *
  rw [h2, h1]

theorem result_plain {k : Nat} {K : Core} {d : RegDst} {v : V512} {lat : Nat} {s : State} :
    Plain (vat s.cores k) (vat (result k K d v lat s).cores k) := by
  unfold result; rw [vat_onCore]; rfl

theorem resultG_plain {k : Nat} {K : Core} {d : Nat} {v : BitVec 64} {lat : Nat} {s : State} :
    Plain (vat s.cores k) (vat (resultG k K d v lat s).cores k) := by
  unfold resultG
  split
  · rfl
  · exact result_plain

theorem onTile_plain {k n : Nat} {g : Tile → Tile} {s : State} : Plain (vat s.cores k) (vat (onTile k n g s).cores k) := by
  unfold onTile; rw [vat_onCore]; rfl

theorem accEffect_plain {M : List Host.Cell} {c : Cmd} {k : Nat} {K : Core} {s : State} {o : Op} :
    Plain (vat s.cores k) (vat (accEffect M c k K o s).cores k) := by
  unfold accEffect
  extract_lets n' t kc strip addr
  split
  · split
    · rfl
    · simp only [tally_cores, activity_charged.cores]; exact onTile_plain
  · exact onTile_plain
  · exact result_plain
  · exact onTile_plain
  · rw [daPoke_cores, chargeCmd_charged.cores]; rfl
  · split
    · rw [onTile_cores chargeCmd_charged.cores]; exact onTile_plain
    · rfl
  · rfl
  · rw [vat_onCore]; rfl
  · exact resultG_plain

/-- An operation other than a branch, LOOP, RTE and MOVTC. -/
theorem opEffect_plain {M : List Host.Cell} {w : Nat} {c : Cmd} {k : Nat} {K : Core} {s : State} {o : Op} (h : o.cls = .ctl → 12 ≤ o.code) :
    Plain (vat s.cores k) (vat (opEffect M w c k K s o).cores k) := by
  unfold opEffect
  split <;> rename_i e
  · have := h e
    unfold ctlEffect
    split <;> first | omega | exact resultG_plain | rfl
  · unfold intEffect; split <;> exact resultG_plain
  · unfold memEffect
    extract_lets a n s1 bs
    have h1 : s1.cores = s.cores := memCharge.cores
    rw [← h1]
    split
    · exact resultG_plain
    · split
      · exact result_plain
      · split
        · unfold issueXfer
          extract_lets n crib dev x s2
          have h2 : Plain (vat s1.cores k) (vat s2.cores k) := by unfold s2; rw [vat_onCore]; rfl
          split
          · exact h2
          · exact h2
        · rw [vat_onCore]; rfl
  · unfold vecEffect
    extract_lets t t2
    split
    · exact resultG_plain
    · exact result_plain
  · extract_lets K1
    refine Plain.trans (accEffect_plain (M := M) (c := c) (K := K1) (o := o)) ?_
    rw [vat_onCore, accBook_rest]
    rfl
  · rfl

theorem opsEffect_plain {M : List Host.Cell} {w : Nat} {c : Cmd} {k : Nat} {K : Core} : ∀ {ops : List Op} {s : State}, (∀ o ∈ ops, o.cls = .ctl → 12 ≤ o.code) →
    Plain (vat s.cores k) (vat (ops.foldl (opEffect M w c k K) s).cores k)
  | [], _, _ => rfl
  | o :: _, _, h =>
    (opEffect_plain (h o List.mem_cons_self)).trans (opsEffect_plain fun x hx => h x (List.mem_cons_of_mem _ hx))

/-- After an operation in slot 0 none of the bundle's touches a control register. -/
theorem slot0_rest {s s0 : State} {k : Nat} {c : Cmd} {ops : List Op} {o : Op} (hi : Issuing s k c ops) (ho : o ∈ ops)
    (hc : o.cls = .ctl) : Plain (vat (opIn c ops k s s0 o).cores k)
      (vat (ops.foldl (opIn c ops k s) s0).cores k) := by
  obtain ⟨post, eq, hp⟩ := slot0_first hi ho (ctl_slot hc)
  have hf : ops.foldl (opIn c ops k s) s0 =
      post.foldl (opIn c ops k s) (opIn c ops k s s0 o) := by rw [eq, List.foldl_cons]
  rw [hf]
  exact opsEffect_plain fun x hx hxc => by have := hp x hx; rw [ctl_slot hxc] at this; omega

/-- What a bundle never changes on its core. -/
structure Kept (C C' : Core) : Prop where
  epc : C'.epc = C.epc
  launch : C'.launch = C.launch
  item : C'.item = C.item
  parts : C'.parts = C.parts
  queue : C'.queue = C.queue
  saved : C'.saved = C.saved
  lockedAt : C'.lockedAt = C.lockedAt
  abort : C'.abort = C.abort

theorem Kept.trans {a b c : Core} (h1 : Kept a b) (h2 : Kept b c) : Kept a c :=
  ⟨h2.epc.trans h1.epc, h2.launch.trans h1.launch, h2.item.trans h1.item, h2.parts.trans h1.parts,
   h2.queue.trans h1.queue, h2.saved.trans h1.saved, h2.lockedAt.trans h1.lockedAt, h2.abort.trans h1.abort⟩

theorem OpStep.kept {k : Nat} {ns : List RegName} {s t : State} (h : OpStep k ns s t) : Kept (vat s.cores k) (vat t.cores k) := by
  rw [h.same]
  exact ⟨rfl, rfl, rfl, rfl, rfl, rfl, rfl, rfl⟩

theorem passCycles_kept {n k : Nat} {s : State} : Kept (vat s.cores k) (vat (passCycles n k s).cores k) := by
  obtain ⟨_, _, _, _, _, _, _, _, _, _, _, e⟩ := passCycles_core (n := n) (k := k) (s := s)
  rw [e]
  exact ⟨rfl, rfl, rfl, rfl, rfl, rfl, rfl, rfl⟩

theorem next_kept {s : State} {K0 K : Core} {ops : List Op} : Kept K (rteTarget s K0 ops (nextPc K0 ops (stepMode K))) := by
  have h1 : Kept K (stepMode K) := by rw [stepMode_rest]; exact ⟨rfl, rfl, rfl, rfl, rfl, rfl, rfl, rfl⟩
  have h2 : ∀ x, Kept x (nextPc K0 ops x) := by intro x; rw [nextPc_rest]; exact ⟨rfl, rfl, rfl, rfl, rfl, rfl, rfl, rfl⟩
  have h3 : ∀ x, Kept x (rteTarget s K0 ops x) := by intro x; rw [rteTarget_rest]; exact ⟨rfl, rfl, rfl, rfl, rfl, rfl, rfl, rfl⟩
  exact (h1.trans (h2 _)).trans (h3 _)

theorem issueBundle_kept {c : Cmd} {ops : List Op} {k : Nat} {s : State} (hi : Issuing s k c ops) :
    Kept (vat s.cores k) (vat (issueBundle c ops k s).cores k) := by
  have hs (s0 : State) := (opsEffect_step (M := preMem (bundleWait (vat s.cores k) ops) k s) (w := bundleWait (vat s.cores k) ops) (c := c) (k := k) (K := vat s.cores k) (s := s0) (illegalBundle_of hi.2.2.1).2).kept
  cases hl : ops.any (·.isLong)
  · obtain ⟨s0, h1, h2, h3, m, d, e⟩ := issueBundle_next (c := c) (s := s) (k := k) hl
    rw [e]
    have h := ((h1 ▸ hs s0).trans (passCycles_kept (n := bundleCycles (vat s.cores k) ops))).trans
      (next_kept (s := s0) (K0 := vat s.cores k) (ops := ops))
    exact h.trans ⟨rfl, rfl, rfl, rfl, rfl, rfl, rfl, rfl⟩
  · obtain ⟨s0, h1, h2, h3, e⟩ := @issueBundle_tail c ops k s
    rw [e, if_pos hl]
    have h : Kept (vat (ops.foldl (opIn c ops k s) s0).cores k)
        (vat (beginLong c k (vat s.cores k) ops
          (ops.foldl (opIn c ops k s) s0)).cores k) := by
      obtain ⟨l, d, e⟩ := @beginLong_core c k (vat s.cores k) ops
        (ops.foldl (opIn c ops k s) s0)
      rw [e]; exact ⟨rfl, rfl, rfl, rfl, rfl, rfl, rfl, rfl⟩
    exact ((h1 ▸ hs s0).trans h).trans passCycles_kept

end Sys2Proof.Machine
end

