-- ==== Sys2Proof/Laws/Ending.lean ====
section
/-!
SUPPORT. Sys2Proof/Laws/Ending.lean: the end of a core's part of a kernel: which cores it touches and what becomes of its
command.
-/
namespace Sys2Proof.Machine

theorem foldl_cores {α : Type} {g : State → α → State} (h : ∀ s a, (g s a).cores = s.cores) : ∀ {l : List α} {s : State},
    (l.foldl g s).cores = s.cores
  | [], _ => rfl
  | a :: l, s => by rw [List.foldl_cons, foldl_cores h, h]

theorem zeroGranules_cores {b n : Nat} {s : State} : (zeroGranules b n s).cores = s.cores := by
  unfold zeroGranules
  exact foldl_cores fun s k => by unfold zeroRange; rfl

theorem settleBuffers_cores {s : State} : (settleBuffers s).cores = s.cores := by
  unfold settleBuffers
  exact foldl_cores fun _ _ => zeroGranules_cores

theorem finishRecovery_cores {r : Recovery} {s : State} : (finishRecovery r s).cores = s.cores := by
  unfold finishRecovery
  simp

theorem leavePreLoss_cores {u : Nat} {e : Option (List Byte)} {s : State} : (leavePreLoss u e s).cores = s.cores := by
  have h (s : State) : (settleRecoveries s).cores = s.cores := by
    unfold settleRecoveries
    split
    · rfl
    · exact foldl_cores fun _ _ => finishRecovery_cores
  unfold leavePreLoss
  extract_lets f
  exact h _

theorem settleOld_cores {s : State} : (settleOld s).cores = s.cores := by
  unfold settleOld
  split
  · rfl
  · split <;> rfl

theorem writePip_cores {c : Cmd} {n : Nat} {a b : Bool} {s : State} : (writePip c n a b s).cores = s.cores := by
  unfold writePip
  split
  · rfl
  · dsimp only
    split
    · rw [houseBytes_charged.cores, raiseMsix_frame, hostWrite_frame]
    · rfl

theorem discardNow_cores {c : Cmd} {s : State} : (discardNow c s).cores = s.cores := by
  unfold discardNow
  rw [writePip_cores]
  unfold countFunc onFunc houseCmd drew toHouse
  rfl

theorem retire_cores {c : Cmd} {e : Option (List Byte)} {s : State} (h : isKv c = false) : (retire c e s).cores = s.cores := by
  unfold retire kvLeft
  rw [if_neg (by rw [h]; decide), leavePreLoss_cores]
  unfold releaseBuffers
  rw [settleBuffers_cores]
  exact settleOld_cores

theorem finishWork_cores {u st d : Nat} {s : State} (h : ∀ c, cmdOf s u = some c → isKv c = false) :
    (finishWork u st d s).cores = s.cores := by
  unfold finishWork
  split
  · rfl
  · rename_i c hc
    split
    · rw [retire_cores (h c hc), discardNow_cores]
    · unfold endCmd onCmd
      rfl

/-- Finding a command after one was changed, its identity kept. -/
theorem cmdOf_onCmd {s : State} {u : Nat} {g : Cmd → Cmd} (hg : ∀ c, (g c).uid = c.uid) :
    cmdOf (onCmd u g s) u = (cmdOf s u).map g := by
  unfold cmdOf onCmd
  dsimp only
  induction s.cmds with
  | nil => rfl
  | cons c l ih =>
    by_cases h : c.uid = u
    · simp [h, hg]
    · simp [h]
      simpa using ih

theorem stamp_cores {u n : Nat} {b : Bool} {s : State} : (stamp u n b s).cores = s.cores := by
  unfold stamp
  split
  · rfl
  · split <;> rfl

theorem stamp_cmdOf {u n : Nat} {b : Bool} {s : State} : ∃ l, cmdOf (stamp u n b s) u = (cmdOf s u).map fun c => { c with stamps := l } := by
  unfold stamp
  split
  · rename_i h; exact ⟨[], by simp [h]⟩
  · rename_i c h
    split
    · exact ⟨c.stamps, by simp [h]⟩
    · refine ⟨(n, stampAt s c) :: c.stamps.filter (·.1 != n), ?_⟩
      refine (cmdOf_onCmd (s := s) (u := u) (g := fun x => { x with stamps := (n, stampAt s c) :: x.stamps.filter (·.1 != n) })
        fun _ => rfl).trans ?_
      rw [h]
      rfl

theorem coreDone_cores {u : Nat} {s : State} (h : ∀ c, cmdOf s u = some c → isKv c = false) :
    (coreDone u s).cores = s.cores := by
  unfold coreDone
  extract_lets s1
  have e1 : cmdOf s1 u = (cmdOf s u).map fun c => { c with cores := c.cores - 1 } :=
    cmdOf_onCmd (s := s) (u := u) (g := fun c => { c with cores := c.cores - 1 }) fun _ => rfl
  have hk : ∀ n, ∀ c, cmdOf (stamp u n false s1) u = some c → isKv c = false := by
    intro n c hc
    obtain ⟨l, e⟩ := @stamp_cmdOf u n false s1
    rw [e, e1] at hc
    cases hs : cmdOf s u with
    | none => rw [hs] at hc; simp at hc
    | some x =>
      rw [hs] at hc
      simp at hc
      rw [← hc]
      exact h x hs
  split
  · rfl
  · split
    · rfl
    · have e2 : (stamp u 8 false s1).cores = s.cores := stamp_cores.trans rfl
      have hf : ∀ st d, (finishWork u st d (stamp u 8 false s1)).cores = s.cores := fun st d => by
        rw [finishWork_cores (hk 8), e2]
      split
      · exact hf _ _
      · split
        · exact hf _ _
        · exact hf _ _

/-! ### Transfers that a bundle issues -/

/-- The operation issues a transfer. -/
def moves (o : Op) : Bool := o.is .mem 0x0B || o.is .mem 0x0C

theorem result_xfers {k : Nat} {K : Core} {d : RegDst} {v : V512} {lat : Nat} {s : State} :
    (vat (result k K d v lat s).cores k).xfers = (vat s.cores k).xfers := by
  unfold result; rw [vat_onCore]

theorem resultG_xfers {k : Nat} {K : Core} {d : Nat} {v : BitVec 64} {lat : Nat} {s : State} :
    (vat (resultG k K d v lat s).cores k).xfers = (vat s.cores k).xfers := by
  unfold resultG
  split
  · rfl
  · exact result_xfers

theorem opEffect_xfers {M : List Host.Cell} {w : Nat} {c : Cmd} {k : Nat} {K : Core} {s : State} {o : Op} :
    (vat (opEffect M w c k K s o).cores k).xfers.isEmpty = ((vat s.cores k).xfers.isEmpty && !moves o) := by
  cases hm : moves o
  · suffices h : (vat (opEffect M w c k K s o).cores k).xfers = (vat s.cores k).xfers by rw [h]; simp
    unfold opEffect
    split
    · unfold ctlEffect
      split
      · exact resultG_xfers
      · rw [vat_onCore]
      · unfold rteEffect; simp only []; rw [vat_onCore, chargeCmd_charged.cores]
      · unfold movtcEffect
        extract_lets v c' put
        repeat' split
        all_goals first | exact result_xfers | rfl | (rw [vat_onCore])
      · exact resultG_xfers
      · exact resultG_xfers
      · exact resultG_xfers
      · rfl
    · unfold intEffect; split <;> exact resultG_xfers
    · rename_i hc
      unfold memEffect
      extract_lets a n s1 bs
      have h1 : s1.cores = s.cores := memCharge.cores
      rw [← h1]
      split
      · exact resultG_xfers
      · split
        · exact result_xfers
        · split
          · rename_i h
            unfold moves Op.is at hm
            rw [hc] at hm
            simp at hm
            omega
          · rw [vat_onCore]
    · unfold vecEffect
      extract_lets t t2
      split
      · exact resultG_xfers
      · exact result_xfers
    · have ht {n : Nat} {g : Tile → Tile} {s : State} : (vat (onTile k n g s).cores k).xfers = (vat s.cores k).xfers := by
        unfold onTile; rw [vat_onCore]
      extract_lets K1
      rw [vat_onCore, accBook_rest]
      show (vat (accEffect M c k K1 o s).cores k).xfers = _
      unfold accEffect
      extract_lets n' t kc strip addr
      split
      · split
        · rfl
        · simp only [tally_cores, activity_charged.cores]; exact ht
      · exact ht
      · exact result_xfers
      · exact ht
      · rw [daPoke_cores, chargeCmd_charged.cores]
      · split
        · rw [onTile_cores chargeCmd_charged.cores]; exact ht
        · rfl
      · rfl
      · rw [vat_onCore]
      · exact resultG_xfers
    · rfl
  · have hc : o.cls = .mem ∧ (o.code = 0x0B ∨ o.code = 0x0C) := by
      unfold moves Op.is at hm
      simp at hm
      rcases hm with h | h
      · exact ⟨h.1, .inl h.2⟩
      · exact ⟨h.1, .inr h.2⟩
    unfold opEffect
    rw [hc.1]
    simp only []
    unfold memEffect
    extract_lets a n s2 bs
    have h2 : s2.cores = s.cores := memCharge.cores
    rw [if_neg (by omega), if_neg (by omega), if_pos hc.2]
    unfold issueXfer
    extract_lets n crib dev x s1
    have h1 : (vat s1.cores k).xfers = (vat s.cores k).xfers ++ [x] := by unfold s1; rw [vat_onCore, h2]
    split
    · simp [hostAsk, emit, h1]
    · simp [h1]

theorem opsEffect_xfers {M : List Host.Cell} {w : Nat} {c : Cmd} {k : Nat} {K : Core} : ∀ {ops : List Op} {s : State},
    (vat (ops.foldl (opEffect M w c k K) s).cores k).xfers.isEmpty = ((vat s.cores k).xfers.isEmpty && ops.all fun o => !moves o)
  | [], _ => by simp
  | o :: ops, s => by rw [List.foldl_cons, opsEffect_xfers, opEffect_xfers, List.all_cons, Bool.and_assoc]

/-- A core that has issued a bundle has no transfer outstanding if it had none and the bundle issues none. -/
theorem issueBundle_xfers {s : State} {k : Nat} {c : Cmd} {ops : List Op} (hi : Issuing s k c ops) :
    (vat (issueBundle c ops k s).cores k).xfers.isEmpty = ((vat s.cores k).xfers.isEmpty && ops.all fun o => !moves o) := by
  obtain ⟨s0, h1, -, -, C, hC, -, -, h, -⟩ := issueBundle_waits hi
  rw [h, hC, opsEffect_xfers, h1]

/-- A bundle touches its own core, memory, counters, what it is charged, and what goes out. -/
theorem issueBundle_step {s : State} {k : Nat} {c : Cmd} {ops : List Op} (hi : Issuing s k c ops) :
    CoreStep k s (issueBundle c ops k s) := by
  obtain ⟨s0, -, -, h3, h4⟩ := @issueBundle_tail c ops k s
  have hs : CoreStep k s (ops.foldl (opIn c ops k s) s0) :=
    h3.trans (opsEffect_step (illegalBundle_of hi.2.2.1).2).toCoreStep
  rw [h4]
  split
  · obtain ⟨s', l, d, h, e⟩ := @beginLong_rest c k (vat s.cores k) ops
      (ops.foldl (opIn c ops k s) s0)
    rw [e]
    exact hs.trans ((h.step (ns := [])).toCoreStep.trans (CoreStep.onCore.trans passCycles_step))
  · obtain ⟨m, x, ee⟩ := @endingOp_rest (vat s.cores k) ops k
      (onCore k (fun K => rteTarget s0 (vat s.cores k) ops (nextPc (vat s.cores k) ops (stepMode K)))
        (passCycles (bundleCycles (vat s.cores k) ops) k (ops.foldl (opIn c ops k s) s0)))
    rw [ee]
    exact hs.trans (passCycles_step.trans (CoreStep.onCore.trans .onCore))

/-! ### Commands that leave -/

theorem foldl_cmds {α : Type} {g : State → α → State} (h : ∀ s a, (g s a).cmds = s.cmds) : ∀ {l : List α} {s : State},
    (l.foldl g s).cmds = s.cmds
  | [], _ => rfl
  | a :: l, s => by rw [List.foldl_cons, foldl_cmds h, h]

theorem settleBuffers_cmds {s : State} : (settleBuffers s).cmds = s.cmds := by
  have h {b n : Nat} {s : State} : (zeroGranules b n s).cmds = s.cmds := by
    unfold zeroGranules
    exact foldl_cmds fun s k => by unfold zeroRange; rfl
  unfold settleBuffers
  exact foldl_cmds fun _ _ => h

theorem leavePreLoss_cmds {u : Nat} {e : Option (List Byte)} {s : State} : (leavePreLoss u e s).cmds = s.cmds := by
  have h1 {r : Recovery} {s : State} : (finishRecovery r s).cmds = s.cmds := by unfold finishRecovery; simp
  have h (s : State) : (settleRecoveries s).cmds = s.cmds := by
    unfold settleRecoveries
    split
    · rfl
    · exact foldl_cmds fun _ _ => h1
  unfold leavePreLoss
  extract_lets f
  exact h _

theorem settleOld_cmds {s : State} : (settleOld s).cmds = s.cmds := by
  unfold settleOld
  split
  · rfl
  · split <;> rfl

theorem retire_cmdOf {c : Cmd} {e : Option (List Byte)} {s : State} (h : isKv c = false) : cmdOf (retire c e s) c.uid = none := by
  unfold retire kvLeft cmdOf
  rw [if_neg (by rw [h]; decide), leavePreLoss_cmds]
  unfold releaseBuffers
  rw [settleBuffers_cmds]
  simp only [settleOld_cmds]
  unfold setSlots onQ releaseFences
  rw [List.find?_eq_none]
  intro x hx
  obtain ⟨y, hy, rfl⟩ := List.mem_map.1 hx
  have := (List.mem_filter.1 hy).2
  split
  · dsimp only
    split <;> simpa using this
  · simpa using this

/-- The command with identity `u` is none that works on a KV table. -/
def NotKv (u : Nat) (s : State) : Prop := ∀ c, cmdOf s u = some c → isKv c = false

theorem NotKv.onCmd {u : Nat} {s : State} {g : Cmd → Cmd} (h : NotKv u s) (h1 : ∀ c, (g c).uid = c.uid)
    (h2 : ∀ c, (g c).bytes = c.bytes) : NotKv u (onCmd u g s) := by
  intro c hc
  rw [cmdOf_onCmd h1] at hc
  cases hs : cmdOf s u with
  | none => rw [hs] at hc; simp at hc
  | some x =>
    rw [hs] at hc
    simp at hc
    have := h x hs
    unfold isKv at this ⊢
    rw [← hc, h2]
    exact this

theorem NotKv.of_cmds {u : Nat} {s t : State} (h : NotKv u s) (e : t.cmds = s.cmds) : NotKv u t := by
  unfold NotKv cmdOf at *
  rw [e]; exact h

theorem NotKv.stamp {u n : Nat} {b : Bool} {s : State} (h : NotKv u s) : NotKv u (stamp u n b s) := by
  intro c hc
  obtain ⟨l, e⟩ := @stamp_cmdOf u n b s
  rw [e] at hc
  cases hs : cmdOf s u with
  | none => rw [hs] at hc; simp at hc
  | some x =>
    rw [hs] at hc
    simp at hc
    rw [← hc]
    exact h x hs

theorem cmdOf_uid {s : State} {u : Nat} {c : Cmd} (h : cmdOf s u = some c) : c.uid = u := by
  unfold cmdOf at h
  simpa using List.find?_some h

theorem NotKv.finishWork {u st d : Nat} {s : State} (h : NotKv u s) : NotKv u (finishWork u st d s) := by
  unfold Machine.finishWork
  split
  · exact h
  · rename_i c hc
    split
    · intro x hx
      have := retire_cmdOf (e := none) (s := discardNow c s) (h c hc)
      rw [cmdOf_uid hc] at this
      rw [this] at hx
      simp at hx
    · unfold endCmd
      refine h.onCmd (fun c => ?_) (fun c => ?_) <;> split <;> rfl

theorem NotKv.coreDone {u : Nat} {s : State} (h : NotKv u s) : NotKv u (coreDone u s) := by
  have h1 : NotKv u (Machine.onCmd u (fun c => { c with cores := c.cores - 1 }) s) := h.onCmd (fun _ => rfl) fun _ => rfl
  unfold Machine.coreDone
  extract_lets s1
  split
  · exact h1
  · split
    · exact h1
    · have h2 (st d : Nat) := (h1.stamp (n := 8) (b := false)).finishWork (st := st) (d := d)
      split
      · exact h2 _ _
      · split
        · exact h2 _ _
        · exact h2 _ _

theorem NotKv.noteFault {u r x : Nat} {s : State} (h : NotKv u s) : NotKv u (noteFault u r x s) := by
  unfold Machine.noteFault
  refine h.onCmd (fun c => ?_) fun c => ?_ <;> dsimp only <;> split <;> rfl

/-- The command of a core that has ended: one core fewer, or, after the last, ended. -/
theorem coreDone_cmdOf {u : Nat} {s : State} {c : Cmd} (h : cmdOf s u = some c) :
    (1 < c.cores → cmdOf (coreDone u s) u = some { c with cores := c.cores - 1 }) ∧
    (c.cores = 1 → c.phase ≠ .discarded → c.status = 0 → ∃ d, cmdOf (coreDone u s) u = some d ∧ d.phase = .ended ∧
      (c.fault = none → d.status = 0) ∧
      ∀ r x, c.fault = some (r, x) → d.status = 0x23 ∧ d.detail = BitVec.ofNat 32 (x + 256 * r)) := by
  have e1 : cmdOf (onCmd u (fun c => { c with cores := c.cores - 1 }) s) u = some { c with cores := c.cores - 1 } :=
    (cmdOf_onCmd (s := s) (u := u) (g := fun c => { c with cores := c.cores - 1 }) fun _ => rfl).trans (by rw [h]; rfl)
  unfold coreDone
  extract_lets s1
  change cmdOf s1 u = _ at e1
  rw [e1]
  simp only []
  refine ⟨fun h1 => ?_, fun h1 h2 h3 => ?_⟩
  · rw [if_pos (by omega)]
    exact e1
  · rw [if_neg (by omega), if_neg (by rw [h3]; decide)]
    obtain ⟨l, e2⟩ := @stamp_cmdOf u 8 false s1
    rw [e1] at e2
    have e3 (st d : Nat) : ∃ x, cmdOf (finishWork u st d (stamp u 8 false s1)) u = some x ∧ x.phase = .ended ∧
        x.status = BitVec.ofNat 8 st ∧ x.detail = BitVec.ofNat 32 d := by
      unfold finishWork
      rw [e2]
      simp only [Option.map_some]
      rw [if_neg (by simpa using h2)]
      unfold endCmd
      refine ⟨_, (cmdOf_onCmd fun c => by split <;> rfl).trans (by rw [e2]; rfl), ?_⟩
      dsimp only
      rw [if_neg (by simpa using h2)]
      exact ⟨rfl, rfl, rfl⟩
    split
    · rename_i hf
      obtain ⟨x, a, b, d, -⟩ := e3 0 0
      exact ⟨x, a, b, fun _ => d, fun r y hy => by rw [hf] at hy; simp at hy⟩
    · rename_i r y hf
      obtain ⟨x, a, b, d, e⟩ := e3 0x23 (y + 256 * r)
      refine ⟨x, a, b, fun hn => by rw [hf] at hn; simp at hn, fun r' y' hy => ?_⟩
      rw [hf] at hy
      simp at hy
      rw [← hy.1, ← hy.2]
      exact ⟨d, e⟩

/-! ### A core stops -/

theorem landAll_core {k : Nat} {s : State} : ∃ g v lc ls le pr ts pe st,
    vat (landAll k s).cores k = { vat s.cores k with
      g := g, v := v, lc := lc, ls := ls, le := le, prog := pr, tsp := ts, pend := pe, stores := st } := by
  unfold landAll
  extract_lets K
  rw [landBy_core]
  generalize (List.foldl max K.cycles _) = n
  obtain ⟨g, v, lc, ls, le, pr, ts, e⟩ := foldl_putReg_rest (l := landing n (vat s.cores k)) (K := vat s.cores k)
  rw [e]
  exact ⟨_, _, _, _, _, _, _, _, _, rfl⟩

theorem landAll_step {k : Nat} {s : State} : CoreStep k s (landAll k s) := by
  unfold landAll
  exact landBy_step

theorem landAll_cmds {k : Nat} {s : State} : (landAll k s).cmds = s.cmds := by
  unfold landAll landBy
  dsimp only [onCore]
  rw [foldl_daPoke_rest]

theorem vat_onCore_ne {j k : Nat} {g : Core → Core} {s : State} (h : j % 136 ≠ k % 136) :
    vat (onCore k g s).cores j = vat s.cores j := vat_vupd_ne _ _ h.symm

/-- A core whose launch ends with END: it is idle, the others stay, and the command has one core fewer. -/
theorem stopCore_end {k : Nat} {s : State} {l : Launch} (hl : (vat s.cores k).launch = some l) (hk : NotKv l.cmd s) :
    ∃ s1, s1.cmds = s.cmds ∧ stopCore k none s = coreDone l.cmd s1 ∧ NotKv l.cmd s1 ∧
      (vat (stopCore k none s).cores k).mode = .idle ∧ (vat (stopCore k none s).cores k).launch = none ∧
      ∀ j, j % 136 ≠ k % 136 → vat (stopCore k none s).cores j = vat s.cores j := by
  unfold stopCore
  rw [hl]
  simp only []
  have hc : (landAll k s).cmds = s.cmds := landAll_cmds
  have ho := (landAll_step (k := k) (s := s)).others
  generalize hg : onCore k _ (landAll k s) = s1
  have h1 : s1.cmds = s.cmds := by rw [← hg]; exact hc
  have h2 := hk.of_cmds h1
  refine ⟨s1, h1, rfl, h2, ?_, ?_, fun j hj => ?_⟩ <;> rw [coreDone_cores h2, ← hg]
  · rw [vat_onCore]
  · rw [vat_onCore]
  · rw [vat_onCore_ne hj, ho j hj]

/-- A core whose launch ends with a cause: it is idle and reset. -/
theorem stopCore_fault {k x : Nat} {s : State} {l : Launch} (hl : (vat s.cores k).launch = some l) (hk : NotKv l.cmd s) :
    NotKv l.cmd (stopCore k (some x) s) ∧
      (vat (stopCore k (some x) s).cores k).mode = .idle ∧ (vat (stopCore k (some x) s).cores k).launch = none ∧
      (vat (stopCore k (some x) s).cores k).abort = none ∧
      (vat (stopCore k (some x) s).cores k).g = Vector.replicate 64 0 ∧ (vat (stopCore k (some x) s).cores k).modeReg = 8 ∧
      ∀ j, j % 136 ≠ k % 136 → vat (stopCore k (some x) s).cores j = vat s.cores j := by
  unfold stopCore
  rw [hl]
  simp only []
  have hc : (landAll k s).cmds = s.cmds := landAll_cmds
  have ho := (landAll_step (k := k) (s := s)).others
  generalize hg : onCore k _ (landAll k s) = s1
  have h1 : s1.cmds = s.cmds := by rw [← hg]; exact hc
  have h2 : NotKv l.cmd (coreReset k s1) := (hk.of_cmds h1).of_cmds (by unfold coreReset onCore; rfl)
  have h3 := h2.noteFault (r := l.rank) (x := x)
  have hcr : (noteFault l.cmd l.rank x (coreReset k s1)).cores = (coreReset k s1).cores := by unfold noteFault onCmd; rfl
  refine ⟨h3.coreDone, ?_, ?_, ?_, ?_, ?_, fun j hj => ?_⟩ <;> rw [coreDone_cores h3, hcr] <;> unfold coreReset <;>
    (try simp only [vat_onCore]) <;> (try rw [← hg, vat_onCore])
  · simp only [vat_onCore_ne hj]
    rw [← hg, vat_onCore_ne hj, ho j hj]

theorem vat_mod {α : Type} {n : Nat} [NeZero n] {v : Vector α n} {i j : Nat} (h : i % n = j % n) : vat v i = vat v j := by
  unfold vat
  simp [h]

/-- ABORT for another command leaves a core as it is but for what waits there. -/
theorem abortOn_other {u x j k : Nat} {s : State} (hk : NotKv u s) (hl : (vat s.cores k).launch.map (·.cmd) ≠ some u) :
    NotKv u (abortOn u x s j) ∧ ∃ q v, vat (abortOn u x s j).cores k = { vat s.cores k with queue := q, saved := v } := by
  unfold abortOn
  extract_lets K gone s1 s2
  have h1 : NotKv u s1 := hk.of_cmds rfl
  have e1 : ∃ q v, vat s1.cores k = { vat s.cores k with queue := q, saved := v } := by
    by_cases h : k % 136 = j % 136
    · refine ⟨(vat s.cores k).queue.filter (fun w => !isLaunchOf u w), (vat s.cores k).saved.filter (fun x => !isLaunchOf u x.work), ?_⟩
      unfold s1 onCore
      rw [vat_vupd, if_pos h.symm]
    · exact ⟨_, _, vat_onCore_ne h⟩
  have hf : ∀ (g : List Launch) (s : State), NotKv u s → NotKv u (g.foldl (fun s l => coreDone u (noteFault u l.rank x s)) s) ∧
      (g.foldl (fun s l => coreDone u (noteFault u l.rank x s)) s).cores = s.cores := by
    intro g
    induction g with
    | nil => exact fun s h => ⟨h, rfl⟩
    | cons l g ih =>
      intro s h
      rw [List.foldl_cons]
      obtain ⟨a, b⟩ := ih _ (h.noteFault (r := l.rank) (x := x)).coreDone
      refine ⟨a, b.trans ?_⟩
      rw [coreDone_cores h.noteFault]
      rfl
  obtain ⟨h2, e2⟩ := hf gone s1 h1
  change NotKv u s2 at h2
  change s2.cores = s1.cores at e2
  have e3 : ∃ q v, vat s2.cores k = { vat s.cores k with queue := q, saved := v } := by rw [e2]; exact e1
  by_cases hu : K.launch.map (·.cmd) = some u
  · have hjk : k % 136 ≠ j % 136 := by
      intro h
      apply hl
      have : vat s.cores k = vat s.cores j := vat_mod h
      rw [this]
      exact hu
    rw [if_pos (by rw [hu]; simp)]
    split
    · have hlj : ∃ l, (vat s2.cores j).launch = some l ∧ l.cmd = u := by
        rw [e2]
        unfold s1
        rw [vat_onCore]
        cases hx : (vat s.cores j).launch with
        | none => exact absurd hu (by unfold K; rw [hx]; simp)
        | some l => exact ⟨l, rfl, by unfold K at hu; rw [hx] at hu; simpa using hu⟩
      obtain ⟨l, a, b⟩ := hlj
      subst b
      obtain ⟨n, _, _, _, _, _, o⟩ := stopCore_fault (x := x) a h2
      exact ⟨n, by rw [o k hjk]; exact e3⟩
    · split
      · exact ⟨h2, e3⟩
      · refine ⟨h2.of_cmds rfl, ?_⟩
        rw [vat_onCore_ne hjk]
        exact e3
  · rw [if_neg (by simpa using hu)]
    exact ⟨h2, e3⟩

theorem abortLaunch_other {u x k : Nat} {s : State} (hk : NotKv u s) (hl : (vat s.cores k).launch.map (·.cmd) ≠ some u) :
    ∃ q v, vat (abortLaunch u x s).cores k = { vat s.cores k with queue := q, saved := v } := by
  unfold abortLaunch
  suffices h : ∀ (js : List Nat) (s : State), NotKv u s → (vat s.cores k).launch.map (·.cmd) ≠ some u →
      ∃ q v, vat (js.foldl (abortOn u x) s).cores k = { vat s.cores k with queue := q, saved := v } from h _ s hk hl
  intro js
  induction js with
  | nil => exact fun s _ _ => ⟨_, _, rfl⟩
  | cons j js ih =>
    intro s h1 h2
    obtain ⟨a, q, v, e⟩ := abortOn_other (x := x) (j := j) h1 h2
    obtain ⟨q', v', e'⟩ := ih (abortOn u x s j) a (by rw [e]; exact h2)
    rw [List.foldl_cons, e', e]
    exact ⟨_, _, rfl⟩

end Sys2Proof.Machine
end

