-- ==== Sys2Proof/Laws/Memory.lean ====
section
/-!
SUPPORT. Sys2Proof/Laws/Memory.lean: the laws of memory: every operation keeps the canonical form, a read gives what was
written last, and a write leaves every other byte alone.
-/
namespace Sys2Proof.Machine

theorem memWfFrom_mono {lo lo' : Nat} {m : List Host.Cell} (h : lo' ≤ lo) (w : memWfFrom lo m = true) :
    memWfFrom lo' m = true := by
  cases m with
  | nil => rfl
  | cons c m => simp only [memWfFrom, Bool.and_eq_true, decide_eq_true_eq] at w ⊢; exact ⟨⟨by omega, w.1.2⟩, w.2⟩

theorem memWfFrom_consCell {lo a : Nat} {b : Byte} {m : List Host.Cell} (h : lo ≤ a) (w : memWfFrom (a + 1) m = true) :
    memWfFrom lo (consCell a b m) = true := by
  unfold consCell
  split
  · exact memWfFrom_mono (by omega) w
  · rename_i hb
    simp [memWfFrom, w, h, hb]

theorem memWfFrom_memWrite1 {m : List Host.Cell} {lo a : Nat} {b : Byte} (h : lo ≤ a) (w : memWfFrom lo m = true) :
    memWfFrom lo (memWrite1 m a b) = true := by
  induction m generalizing lo with
  | nil => exact memWfFrom_consCell h rfl
  | cons c m ih =>
    obtain ⟨k, d⟩ := c
    have w' := w
    simp only [memWfFrom, Bool.and_eq_true, decide_eq_true_eq] at w'
    simp only [memWrite1]
    split
    · subst a; exact memWfFrom_consCell h w'.2
    · split
      · exact memWfFrom_consCell h (by simp only [memWfFrom, Bool.and_eq_true, decide_eq_true_eq]; exact ⟨⟨by omega, w'.1.2⟩, w'.2⟩)
      · simp only [memWfFrom, Bool.and_eq_true, decide_eq_true_eq]
        exact ⟨w'.1, ih (by omega) w'.2⟩

/-- Writing one byte keeps the canonical form. -/
theorem memWf_memWrite1 {m : List Host.Cell} {a : Nat} {b : Byte} (w : memWf m = true) : memWf (memWrite1 m a b) = true :=
  memWfFrom_memWrite1 (Nat.zero_le _) w

/-- Writing bytes keeps the canonical form. -/
theorem memWf_memWrite {bs : List Byte} {m : List Host.Cell} {a : Nat} (w : memWf m = true) : memWf (memWrite m a bs) = true := by
  induction bs generalizing m a with
  | nil => exact w
  | cons b bs ih => exact ih (memWf_memWrite1 w)

theorem memWfFrom_filter {p : Host.Cell → Bool} {m : List Host.Cell} {lo : Nat} (w : memWfFrom lo m = true) :
    memWfFrom lo (m.filter p) = true := by
  induction m generalizing lo with
  | nil => rfl
  | cons c m ih =>
    obtain ⟨k, d⟩ := c
    simp only [memWfFrom, Bool.and_eq_true, decide_eq_true_eq] at w
    simp only [List.filter_cons]
    split
    · simp only [memWfFrom, Bool.and_eq_true, decide_eq_true_eq]; exact ⟨w.1, ih w.2⟩
    · exact memWfFrom_mono (by omega) (ih w.2)

/-- Clearing a range keeps the canonical form. -/
theorem memWf_memClear {m : List Host.Cell} {a n : Nat} (w : memWf m = true) : memWf (memClear m a n) = true :=
  memWfFrom_filter w

theorem memRead1_below {m : List Host.Cell} {lo a : Nat} (w : memWfFrom lo m = true) (h : a < lo) : memRead1 m a = emptyByte := by
  cases m with
  | nil => rfl
  | cons c m =>
    simp only [memWfFrom, Bool.and_eq_true, decide_eq_true_eq] at w
    simp only [memRead1]; rw [if_neg (by omega), if_pos (by omega)]

theorem memRead1_consCell {m : List Host.Cell} {a x : Nat} {b : Byte} (w : memWfFrom (a + 1) m = true) :
    memRead1 (consCell a b m) x = if x = a then b else if x < a then emptyByte else memRead1 m x := by
  unfold consCell
  split
  · rename_i hb
    by_cases hx : x = a
    · rw [if_pos hx, hb]; exact memRead1_below w (by omega)
    · by_cases hl : x < a
      · rw [if_neg hx, if_pos hl]; exact memRead1_below w (by omega)
      · rw [if_neg hx, if_neg hl]
  · rfl

theorem memRead1_memWrite1_from {m : List Host.Cell} {lo a x : Nat} {b : Byte} (w : memWfFrom lo m = true) :
    memRead1 (memWrite1 m a b) x = if x = a then b else memRead1 m x := by
  induction m generalizing lo with
  | nil =>
    simp only [memWrite1, memRead1_consCell (m := []) rfl, memRead1]
    split <;> [rfl; split <;> rfl]
  | cons c m ih =>
    obtain ⟨k, d⟩ := c
    have w' := w
    simp only [memWfFrom, Bool.and_eq_true, decide_eq_true_eq] at w'
    simp only [memWrite1]
    split
    · rename_i hak; subst hak
      rw [memRead1_consCell w'.2]
      simp only [memRead1]
      split <;> [rfl; split <;> rfl]
    · split
      · rename_i h1 h2
        rw [memRead1_consCell (by simp only [memWfFrom, Bool.and_eq_true, decide_eq_true_eq]; exact ⟨⟨by omega, w'.1.2⟩, w'.2⟩)]
        split
        · rfl
        · split
          · simp only [memRead1]; rw [if_neg (by omega), if_pos (by omega)]
          · rfl
      · rename_i h1 h2
        simp only [memRead1]
        by_cases hxk : x = k
        · subst hxk; rw [if_pos rfl, if_neg (by omega), if_pos rfl]
        · rw [if_neg hxk, if_neg hxk]
          by_cases hlt : x < k
          · rw [if_pos hlt, if_neg (by omega), if_pos hlt]
          · rw [if_neg hlt, if_neg hlt]; exact ih w'.2

/-- A byte written reads back, and every other byte reads as before. -/
theorem memRead1_memWrite1 {m : List Host.Cell} {a x : Nat} {b : Byte} (w : memWf m = true) :
    memRead1 (memWrite1 m a b) x = if x = a then b else memRead1 m x := memRead1_memWrite1_from w

/-- A byte outside the bytes written reads as before. -/
theorem memRead1_memWrite_ne {bs : List Byte} {m : List Host.Cell} {a x : Nat} (w : memWf m = true)
    (h : x < a ∨ a + bs.length ≤ x) : memRead1 (memWrite m a bs) x = memRead1 m x := by
  induction bs generalizing m a with
  | nil => rfl
  | cons b bs ih =>
    simp only [List.length_cons] at h
    simp only [memWrite]
    rw [ih (memWf_memWrite1 w) (by omega), memRead1_memWrite1 w, if_neg (by omega)]

/-- The byte at place `i` of the bytes written reads back. -/
theorem memRead1_memWrite_get {bs : List Byte} {m : List Host.Cell} {a i : Nat} (w : memWf m = true) (h : i < bs.length) :
    memRead1 (memWrite m a bs) (a + i) = bs[i] := by
  induction bs generalizing m a i with
  | nil => exact absurd h (by simp)
  | cons b bs ih =>
    simp only [memWrite]
    cases i with
    | zero =>
      rw [memRead1_memWrite_ne (memWf_memWrite1 w) (by omega), memRead1_memWrite1 w]; simp
    | succ i =>
      have h' : i < bs.length := by simpa using h
      have := ih (m := memWrite1 m a b) (a := a + 1) (memWf_memWrite1 w) h'
      rw [show a + (i + 1) = a + 1 + i by omega]; simpa using this

/-- Every byte of a cleared range reads as the empty byte, and every other byte as before. -/
theorem memRead1_memClear_from {m : List Host.Cell} {lo a n x : Nat} (w : memWfFrom lo m = true) :
    memRead1 (memClear m a n) x = if a ≤ x ∧ x < a + n then emptyByte else memRead1 m x := by
  induction m generalizing lo with
  | nil => simp only [memClear, List.filter_nil, memRead1]; split <;> rfl
  | cons c m ih =>
    obtain ⟨k, d⟩ := c
    simp only [memWfFrom, Bool.and_eq_true, decide_eq_true_eq] at w
    have hm := ih w.2
    unfold memClear at hm ⊢
    simp only [List.filter_cons]
    by_cases hk : a ≤ k ∧ k < a + n
    · rw [if_neg (by simpa using hk), hm]
      simp only [memRead1]
      by_cases hx : a ≤ x ∧ x < a + n
      · rw [if_pos hx, if_pos hx]
      · rw [if_neg hx, if_neg hx]
        have hne : x ≠ k := fun e => hx (e ▸ hk)
        rw [if_neg hne]
        split
        · rename_i hlt; exact memRead1_below w.2 (by omega)
        · rfl
    · rw [if_pos (by simp only [Bool.not_eq_true', decide_eq_false_iff_not]; exact hk)]
      simp only [memRead1]
      by_cases hx : x = k
      · subst hx; rw [if_pos rfl, if_neg hk, if_pos rfl]
      · rw [if_neg hx, if_neg hx]
        by_cases hlt : x < k
        · rw [if_pos hlt, if_pos hlt]; split <;> rfl
        · rw [if_neg hlt, if_neg hlt]; exact hm

/-- See `memRead1_memClear_from`. -/
theorem memRead1_memClear {m : List Host.Cell} {a n x : Nat} (w : memWf m = true) :
    memRead1 (memClear m a n) x = if a ≤ x ∧ x < a + n then emptyByte else memRead1 m x := memRead1_memClear_from w

end Sys2Proof.Machine
end

