-- ==== Sys2Proof/Laws/Keeps.lean ====
section
/-!
SUPPORT. Sys2Proof/Laws/Keeps.lean: what the effect of a command keeps whatever it does. The files KeepsXxx say it of each
shared operation, so that a proof about a command cites them instead of unfolding it.
-/
namespace Sys2Proof.Machine

/-- From `a` to `b` the queue of commands is the same, memory keeps its canonical form, what has been sent stays sent, the
device state moves forward (or stays), losses stay shown in it, and the fuses and the state before
ORPHAN_HOLD keep their values. -/
structure Keeps (a b : State) : Prop where
  pending : b.pending = a.pending
  mem : memWf a.mem = true → memWf b.mem = true
  out : ∃ l, b.out = l ++ a.out
  forward : forward a.sys.state b.sys.state = true
  lossShown : lossShown a.sys = true → lossShown b.sys = true
  ownerDigest : b.sys.ownerDigest = a.sys.ownerDigest
  stepping : b.sys.stepping = a.sys.stepping
  prior : b.sys.prior = a.sys.prior

theorem forward_self (a : DevState) : forward a a = true := by cases a <;> rfl

theorem forward_trans {a b c : DevState} (h1 : forward a b = true) (h2 : forward b c = true) : forward a c = true := by
  revert h1 h2; cases a <;> cases b <;> cases c <;> decide

theorem Keeps.same (s : State) : Keeps s s :=
  ⟨rfl, id, ⟨[], rfl⟩, forward_self _, id, rfl, rfl, rfl⟩

theorem Keeps.trans {a b c : State} (h1 : Keeps a b) (h2 : Keeps b c) : Keeps a c :=
  ⟨h2.pending.trans h1.pending, fun w => h2.mem (h1.mem w),
   by
    obtain ⟨l1, e1⟩ := h1.out
    obtain ⟨l2, e2⟩ := h2.out
    exact ⟨l2 ++ l1, by rw [e2, e1, List.append_assoc]⟩,
   forward_trans h1.forward h2.forward, fun w => h2.lossShown (h1.lossShown w), h2.ownerDigest.trans h1.ownerDigest,
   h2.stepping.trans h1.stepping, h2.prior.trans h1.prior⟩

/-- Every part of the state but the queue, the device state, memory and what has been sent may change freely. -/
theorem Keeps.upd {s0 s : State} (h : Keeps s0 s)
    {x0 : Tb} {x1 : Links} {x2 : Vector Port 8} {x3 : Option Nat} {x4 : Vector Flash 2} {x5 : ImageCfg} {x6 : Bool}
    {x7 : ConfigState} {x8 : Journal} {x9 : Mgmt} {x10 : Vector Func 64} {x11 : Vector Queue 256}
    {x12 : Vector Bridge 2} {x13 : List Cmd} {x14 : Nat} {x15 : Vector Slice 17} {x16 : Vector Flail 17}
    {x17 : Ring} {x18 : Vector FarPart 16} {x19 : Vector FarPart 4} {x20 : Stolon} {x21 : List KvTable}
    {x22 : List CorePartial} {x23 : Vector Core 136} {x24 : Pool} {x25 : Qos} {x26 : Ledger} {x27 : Pmc} {x28 : Rec}
    {x29 : Cnt} {x30 : List Nat} {x31 : Nat} :
    Keeps s0
      ⟨s.pending, s.sys, x0, x1, x2, x3, x4, x5, x6, x7, x8, x9, x10, x11, x12, x13, x14, x15, x16, x17, x18, x19,
       x20, x21, x22, x23, x24, x25, x26, x27, x28, x29, s.mem, x30, s.out, x31⟩ :=
  ⟨h.pending, h.mem, h.out, h.forward, h.lossShown, h.ownerDigest, h.stepping, h.prior⟩

/-- The same with a change of `sys` that leaves the device state, the losses, the return state and the fuses alone. -/
theorem Keeps.updSys {s0 s : State} {y : Sys} (h : Keeps s0 s) (h1 : y.state = s.sys.state) (h2 : y.lossSeen = s.sys.lossSeen)
    (h3 : y.prior = s.sys.prior) (h4 : y.ownerDigest = s.sys.ownerDigest) (h5 : y.stepping = s.sys.stepping)
    {x0 : Tb} {x1 : Links} {x2 : Vector Port 8} {x3 : Option Nat} {x4 : Vector Flash 2} {x5 : ImageCfg} {x6 : Bool}
    {x7 : ConfigState} {x8 : Journal} {x9 : Mgmt} {x10 : Vector Func 64} {x11 : Vector Queue 256}
    {x12 : Vector Bridge 2} {x13 : List Cmd} {x14 : Nat} {x15 : Vector Slice 17} {x16 : Vector Flail 17}
    {x17 : Ring} {x18 : Vector FarPart 16} {x19 : Vector FarPart 4} {x20 : Stolon} {x21 : List KvTable}
    {x22 : List CorePartial} {x23 : Vector Core 136} {x24 : Pool} {x25 : Qos} {x26 : Ledger} {x27 : Pmc} {x28 : Rec}
    {x29 : Cnt} {x30 : List Nat} {x31 : Nat} :
    Keeps s0
      ⟨s.pending, y, x0, x1, x2, x3, x4, x5, x6, x7, x8, x9, x10, x11, x12, x13, x14, x15, x16, x17, x18, x19, x20,
       x21, x22, x23, x24, x25, x26, x27, x28, x29, s.mem, x30, s.out, x31⟩ :=
  h.trans ⟨rfl, id, ⟨[], rfl⟩, by rw [h1]; exact forward_self _, by unfold Machine.lossShown; rw [h1, h2, h3]; exact id, h4, h5, h3⟩

theorem Keeps.cut {s0 t : State} (x : State) (hx : Keeps s0 x) (hb : Keeps s0 x → Keeps s0 t) : Keeps s0 t := hb hx

theorem Keeps.cut2 {α : Type} {s0 t : State} (x : α × State) (hx : Keeps s0 x.2) (hb : Keeps s0 x.2 → Keeps s0 t) :
    Keeps s0 t := hb hx

theorem Keeps.cutF {α : Type} {s0 t : State} (x : α → State → State) (hx : ∀ a s, Keeps s0 s → Keeps s0 (x a s))
    (hb : (∀ {a s}, Keeps s0 s → Keeps s0 (x a s)) → Keeps s0 t) : Keeps s0 t := hb fun {a s} h => hx a s h

theorem Keeps.cutF0 {α : Type} {s0 t : State} (x : α → State) (hx : ∀ a, Keeps s0 (x a))
    (hb : (∀ {a}, Keeps s0 (x a)) → Keeps s0 t) : Keeps s0 t := hb fun {a} => hx a

theorem Keeps.cutFF {α β : Type} {s0 t : State} (x : α → β → State → State)
    (hx : ∀ a b s, Keeps s0 s → Keeps s0 (x a b s))
    (hb : (∀ {a b s}, Keeps s0 s → Keeps s0 (x a b s)) → Keeps s0 t) : Keeps s0 t := hb fun {a b s} h => hx a b s h

theorem Keeps.cutF1 {s0 t : State} (x : State → State) (hx : ∀ s, Keeps s0 s → Keeps s0 (x s))
    (hb : (∀ {s}, Keeps s0 s → Keeps s0 (x s)) → Keeps s0 t) : Keeps s0 t := hb fun {s} h => hx s h

theorem Keeps.ofPair {α : Type} {s0 s : State} {p : α × State} {a : α} (e : p = (a, s)) (h : Keeps s0 p.2) : Keeps s0 s := by
  rw [e] at h; exact h

theorem Keeps.ite_ {s0 a b : State} {c : Prop} [Decidable c] (h1 : Keeps s0 a) (h2 : Keeps s0 b) :
    Keeps s0 (if c then a else b) := by
  split <;> assumption

theorem Keeps.foldl {α : Type} {s0 : State} {g : State → α → State} (hg : ∀ s x, Keeps s0 s → Keeps s0 (g s x)) :
    ∀ {l : List α} {s : State}, Keeps s0 s → Keeps s0 (l.foldl g s)
  | [], _, h => h
  | x :: l, s, h => show Keeps s0 (l.foldl g (g s x)) from Keeps.foldl hg (hg s x h)

theorem Keeps.foldl2 {α β : Type} {s0 : State} {g : β × State → α → β × State}
    (hg : ∀ x a, Keeps s0 x.2 → Keeps s0 (g x a).2) :
    ∀ {l : List α} {x : β × State}, Keeps s0 x.2 → Keeps s0 (l.foldl g x).2
  | [], _, h => h
  | a :: l, x, h => show Keeps s0 (l.foldl g (g x a)).2 from Keeps.foldl2 hg (hg x a h)

end Sys2Proof.Machine
end

