-- ==== Sys2Proof/Laws/KeepsOps.lean ====
section
/-!
SUPPORT. Sys2Proof/Laws/KeepsOps.lean: what the operations of Machine/Ops.lean keep (`Keeps`).
-/
set_option linter.all false
namespace Sys2Proof.Machine

theorem drew_keeps {s0 s} (h : Keeps s0 s) : Keeps s0 (drew s) := by
  unfold drew
  repeat' first
    | with_reducible assumption
    | (extract_lets +onlyGivenNames x
       first
         | (refine Keeps.cut x ?_ ?_
            on_goal 1 => unfold x; clear x
            on_goal 2 => intro _; clear_value x)
         | clear_value x)
    | (fail_if_no_progress with_reducible apply Keeps.upd)

theorem onFunc_keeps {s0 s} {a0 a1} (h : Keeps s0 s) : Keeps s0 (onFunc a0 a1 s) := by
  unfold onFunc
  repeat' first
    | with_reducible assumption
    | (extract_lets +onlyGivenNames x
       first
         | (refine Keeps.cut x ?_ ?_
            on_goal 1 => unfold x; clear x
            on_goal 2 => intro _; clear_value x)
         | clear_value x)
    | intro _
    | (fail_if_no_progress with_reducible apply Keeps.upd)

theorem onQ_keeps {s0 s} {a0 a1} (h : Keeps s0 s) : Keeps s0 (onQ a0 a1 s) := by
  unfold onQ
  repeat' first
    | with_reducible assumption
    | (extract_lets +onlyGivenNames x
       first
         | (refine Keeps.cut x ?_ ?_
            on_goal 1 => unfold x; clear x
            on_goal 2 => intro _; clear_value x)
         | clear_value x)
    | (fail_if_no_progress with_reducible apply Keeps.upd)

theorem onBrg_keeps {s0 s} {a0 a1} (h : Keeps s0 s) : Keeps s0 (onBrg a0 a1 s) := by
  unfold onBrg
  repeat' first
    | with_reducible assumption
    | (extract_lets +onlyGivenNames x
       first
         | (refine Keeps.cut x ?_ ?_
            on_goal 1 => unfold x; clear x
            on_goal 2 => intro _; clear_value x)
         | clear_value x)
    | (fail_if_no_progress with_reducible apply Keeps.upd)

theorem onSlice_keeps {s0 s} {a0 a1} (h : Keeps s0 s) : Keeps s0 (onSlice a0 a1 s) := by
  unfold onSlice
  repeat' first
    | with_reducible assumption
    | (extract_lets +onlyGivenNames x
       first
         | (refine Keeps.cut x ?_ ?_
            on_goal 1 => unfold x; clear x
            on_goal 2 => intro _; clear_value x)
         | clear_value x)
    | (fail_if_no_progress with_reducible apply Keeps.upd)

theorem onFlail_keeps {s0 s} {a0 a1} (h : Keeps s0 s) : Keeps s0 (onFlail a0 a1 s) := by
  unfold onFlail
  repeat' first
    | with_reducible assumption
    | (extract_lets +onlyGivenNames x
       first
         | (refine Keeps.cut x ?_ ?_
            on_goal 1 => unfold x; clear x
            on_goal 2 => intro _; clear_value x)
         | clear_value x)
    | (fail_if_no_progress with_reducible apply Keeps.upd)

theorem onCore_keeps {s0 s} {a0 a1} (h : Keeps s0 s) : Keeps s0 (onCore a0 a1 s) := by
  unfold onCore
  repeat' first
    | with_reducible assumption
    | (extract_lets +onlyGivenNames x
       first
         | (refine Keeps.cut x ?_ ?_
            on_goal 1 => unfold x; clear x
            on_goal 2 => intro _; clear_value x)
         | clear_value x)
    | (fail_if_no_progress with_reducible apply Keeps.upd)

theorem onCmd_keeps {s0 s} {a0 a1} (h : Keeps s0 s) : Keeps s0 (onCmd a0 a1 s) := by
  unfold onCmd
  repeat' first
    | with_reducible assumption
    | (extract_lets +onlyGivenNames x
       first
         | (refine Keeps.cut x ?_ ?_
            on_goal 1 => unfold x; clear x
            on_goal 2 => intro _; clear_value x)
         | clear_value x)
    | intro _
    | with_reducible apply Keeps.ite_
    | (fail_if_no_progress with_reducible apply Keeps.upd)
    | apply Keeps.ite_

theorem tally_keeps {s0 s} {a0 a1 a2 a3} (h : Keeps s0 s) : Keeps s0 (tally a0 a1 a2 a3 s) := by
  unfold tally
  repeat' first
    | with_reducible assumption
    | (extract_lets +onlyGivenNames x
       first
         | (refine Keeps.cut x ?_ ?_
            on_goal 1 => unfold x; clear x
            on_goal 2 => intro _; clear_value x)
         | clear_value x)
    | (fail_if_no_progress with_reducible apply Keeps.upd)
    | split

theorem emit_keeps {o : Out} {s0 s} (h : Keeps s0 s) : Keeps s0 (emit o s) :=
  h.trans ⟨rfl, id, ⟨[o], rfl⟩, forward_self _, id, rfl, rfl, rfl⟩

theorem hostWriteRo_keeps {s0 s} {a0 a1 a2 a3} (h : Keeps s0 s) : Keeps s0 (hostWriteRo a0 a1 a2 a3 s) := by
  unfold hostWriteRo
  repeat' first
    | with_reducible assumption
    | with_reducible apply emit_keeps
    | (extract_lets +onlyGivenNames x
       first
         | (refine Keeps.cut x ?_ ?_
            on_goal 1 => unfold x; clear x
            on_goal 2 => intro _; clear_value x)
         | (refine Keeps.cut2 x ?_ ?_
            on_goal 1 => unfold x; clear x
            on_goal 2 => intro _; clear_value x)
         | (refine Keeps.cutF x ?_ ?_
            on_goal 1 => unfold x; clear x
            on_goal 2 => intro hF; clear_value x)
         | (refine Keeps.cutF1 x ?_ ?_
            on_goal 1 => unfold x; clear x
            on_goal 2 => intro hF1; clear_value x)
         | (refine Keeps.cutF0 x ?_ ?_
            on_goal 1 => unfold x; clear x
            on_goal 2 => intro hF0; clear_value x)
         | (refine Keeps.cutFF x ?_ ?_
            on_goal 1 => unfold x; clear x
            on_goal 2 => intro hFF; clear_value x)
         | clear_value x)
    | with_reducible apply hF
    | with_reducible apply hF1
    | with_reducible apply hF0
    | with_reducible apply hFF
    | intro _
    | with_reducible apply Keeps.ite_
    | (with_reducible refine Keeps.foldl (fun _ _ _ => ?_) ?_)
    | (with_reducible refine Keeps.foldl2 (fun _ _ _ => ?_) ?_)
    | (fail_if_no_progress with_reducible apply Keeps.upd)
    | dsimp -zeta only []
    | with_reducible refine Keeps.ofPair (by with_reducible assumption) ?_
    | split
    | apply Keeps.ite_

theorem hostWrite_keeps {s0 s} {a0 a1 a2} (h : Keeps s0 s) : Keeps s0 (hostWrite a0 a1 a2 s) := by
  unfold hostWrite
  repeat' first
    | with_reducible assumption
    | with_reducible apply hostWriteRo_keeps
    | (extract_lets +onlyGivenNames x
       first
         | (refine Keeps.cut x ?_ ?_
            on_goal 1 => unfold x; clear x
            on_goal 2 => intro _; clear_value x)
         | (refine Keeps.cut2 x ?_ ?_
            on_goal 1 => unfold x; clear x
            on_goal 2 => intro _; clear_value x)
         | (refine Keeps.cutF x ?_ ?_
            on_goal 1 => unfold x; clear x
            on_goal 2 => intro hF; clear_value x)
         | (refine Keeps.cutF1 x ?_ ?_
            on_goal 1 => unfold x; clear x
            on_goal 2 => intro hF1; clear_value x)
         | (refine Keeps.cutF0 x ?_ ?_
            on_goal 1 => unfold x; clear x
            on_goal 2 => intro hF0; clear_value x)
         | (refine Keeps.cutFF x ?_ ?_
            on_goal 1 => unfold x; clear x
            on_goal 2 => intro hFF; clear_value x)
         | clear_value x)
    | with_reducible apply hF
    | with_reducible apply hF1
    | with_reducible apply hF0
    | with_reducible apply hFF
    | intro _
    | with_reducible apply Keeps.ite_
    | (with_reducible refine Keeps.foldl (fun _ _ _ => ?_) ?_)
    | (with_reducible refine Keeps.foldl2 (fun _ _ _ => ?_) ?_)
    | (fail_if_no_progress with_reducible apply Keeps.upd)
    | dsimp -zeta only []
    | with_reducible refine Keeps.ofPair (by with_reducible assumption) ?_
    | split
    | apply Keeps.ite_

theorem hostAsk_keeps {s0 s} {a0} (h : Keeps s0 s) : Keeps s0 (hostAsk a0 s) := by
  unfold hostAsk
  repeat' first
    | with_reducible assumption
    | with_reducible apply emit_keeps
    | (extract_lets +onlyGivenNames x
       first
         | (refine Keeps.cut x ?_ ?_
            on_goal 1 => unfold x; clear x
            on_goal 2 => intro _; clear_value x)
         | (refine Keeps.cut2 x ?_ ?_
            on_goal 1 => unfold x; clear x
            on_goal 2 => intro _; clear_value x)
         | (refine Keeps.cutF x ?_ ?_
            on_goal 1 => unfold x; clear x
            on_goal 2 => intro hF; clear_value x)
         | (refine Keeps.cutF1 x ?_ ?_
            on_goal 1 => unfold x; clear x
            on_goal 2 => intro hF1; clear_value x)
         | (refine Keeps.cutF0 x ?_ ?_
            on_goal 1 => unfold x; clear x
            on_goal 2 => intro hF0; clear_value x)
         | (refine Keeps.cutFF x ?_ ?_
            on_goal 1 => unfold x; clear x
            on_goal 2 => intro hFF; clear_value x)
         | clear_value x)
    | with_reducible apply hF
    | with_reducible apply hF1
    | with_reducible apply hF0
    | with_reducible apply hFF
    | intro _
    | with_reducible apply Keeps.ite_
    | (with_reducible refine Keeps.foldl (fun _ _ _ => ?_) ?_)
    | (with_reducible refine Keeps.foldl2 (fun _ _ _ => ?_) ?_)
    | (fail_if_no_progress with_reducible apply Keeps.upd)
    | dsimp -zeta only []
    | with_reducible refine Keeps.ofPair (by with_reducible assumption) ?_
    | split
    | apply Keeps.ite_

theorem aerError_keeps {s0 s} {a0 a1} (h : Keeps s0 s) : Keeps s0 (aerError a0 a1 s) := by
  unfold aerError
  repeat' first
    | with_reducible assumption
    | with_reducible apply onFunc_keeps
    | with_reducible apply emit_keeps
    | (extract_lets +onlyGivenNames x
       first
         | (refine Keeps.cut x ?_ ?_
            on_goal 1 => unfold x; clear x
            on_goal 2 => intro _; clear_value x)
         | (refine Keeps.cut2 x ?_ ?_
            on_goal 1 => unfold x; clear x
            on_goal 2 => intro _; clear_value x)
         | (refine Keeps.cutF x ?_ ?_
            on_goal 1 => unfold x; clear x
            on_goal 2 => intro hF; clear_value x)
         | (refine Keeps.cutF1 x ?_ ?_
            on_goal 1 => unfold x; clear x
            on_goal 2 => intro hF1; clear_value x)
         | (refine Keeps.cutF0 x ?_ ?_
            on_goal 1 => unfold x; clear x
            on_goal 2 => intro hF0; clear_value x)
         | (refine Keeps.cutFF x ?_ ?_
            on_goal 1 => unfold x; clear x
            on_goal 2 => intro hFF; clear_value x)
         | clear_value x)
    | with_reducible apply hF
    | with_reducible apply hF1
    | with_reducible apply hF0
    | with_reducible apply hFF
    | intro _
    | with_reducible apply Keeps.ite_
    | (with_reducible refine Keeps.foldl (fun _ _ _ => ?_) ?_)
    | (with_reducible refine Keeps.foldl2 (fun _ _ _ => ?_) ?_)
    | (fail_if_no_progress with_reducible apply Keeps.upd)
    | dsimp -zeta only []
    | with_reducible refine Keeps.ofPair (by with_reducible assumption) ?_
    | split
    | apply Keeps.ite_

theorem raiseMsix_keeps {s0 s} {a0 a1} (h : Keeps s0 s) : Keeps s0 (raiseMsix a0 a1 s) := by
  unfold raiseMsix
  repeat' first
    | with_reducible assumption
    | with_reducible apply onFunc_keeps
    | with_reducible apply emit_keeps
    | (extract_lets +onlyGivenNames x
       first
         | (refine Keeps.cut x ?_ ?_
            on_goal 1 => unfold x; clear x
            on_goal 2 => intro _; clear_value x)
         | (refine Keeps.cut2 x ?_ ?_
            on_goal 1 => unfold x; clear x
            on_goal 2 => intro _; clear_value x)
         | (refine Keeps.cutF x ?_ ?_
            on_goal 1 => unfold x; clear x
            on_goal 2 => intro hF; clear_value x)
         | (refine Keeps.cutF1 x ?_ ?_
            on_goal 1 => unfold x; clear x
            on_goal 2 => intro hF1; clear_value x)
         | (refine Keeps.cutF0 x ?_ ?_
            on_goal 1 => unfold x; clear x
            on_goal 2 => intro hF0; clear_value x)
         | (refine Keeps.cutFF x ?_ ?_
            on_goal 1 => unfold x; clear x
            on_goal 2 => intro hFF; clear_value x)
         | clear_value x)
    | with_reducible apply hF
    | with_reducible apply hF1
    | with_reducible apply hF0
    | with_reducible apply hFF
    | intro _
    | with_reducible apply Keeps.ite_
    | (with_reducible refine Keeps.foldl (fun _ _ _ => ?_) ?_)
    | (with_reducible refine Keeps.foldl2 (fun _ _ _ => ?_) ?_)
    | (fail_if_no_progress with_reducible apply Keeps.upd)
    | dsimp -zeta only []
    | with_reducible refine Keeps.ofPair (by with_reducible assumption) ?_
    | split
    | apply Keeps.ite_

theorem beginItem_keeps {s0 s} {a0 a1} (h : Keeps s0 s) : Keeps s0 (beginItem a0 a1 s) := by
  unfold beginItem
  repeat' first
    | with_reducible assumption
    | (extract_lets +onlyGivenNames x
       first
         | (refine Keeps.cut x ?_ ?_
            on_goal 1 => unfold x; clear x
            on_goal 2 => intro _; clear_value x)
         | (refine Keeps.cut2 x ?_ ?_
            on_goal 1 => unfold x; clear x
            on_goal 2 => intro _; clear_value x)
         | (refine Keeps.cutF x ?_ ?_
            on_goal 1 => unfold x; clear x
            on_goal 2 => intro hF; clear_value x)
         | (refine Keeps.cutF1 x ?_ ?_
            on_goal 1 => unfold x; clear x
            on_goal 2 => intro hF1; clear_value x)
         | (refine Keeps.cutF0 x ?_ ?_
            on_goal 1 => unfold x; clear x
            on_goal 2 => intro hF0; clear_value x)
         | (refine Keeps.cutFF x ?_ ?_
            on_goal 1 => unfold x; clear x
            on_goal 2 => intro hFF; clear_value x)
         | clear_value x)
    | with_reducible apply hF
    | with_reducible apply hF1
    | with_reducible apply hF0
    | with_reducible apply hFF
    | intro _
    | with_reducible apply Keeps.ite_
    | (with_reducible refine Keeps.foldl (fun _ _ _ => ?_) ?_)
    | (with_reducible refine Keeps.foldl2 (fun _ _ _ => ?_) ?_)
    | (fail_if_no_progress with_reducible apply Keeps.upd)
    | dsimp -zeta only []
    | with_reducible refine Keeps.ofPair (by with_reducible assumption) ?_
    | split
    | apply Keeps.ite_

theorem kickSnap_keeps {s0 s} (h : Keeps s0 s) : Keeps s0 (kickSnap s) := by
  unfold kickSnap
  repeat' first
    | with_reducible assumption
    | with_reducible apply beginItem_keeps
    | (extract_lets +onlyGivenNames x
       first
         | (refine Keeps.cut x ?_ ?_
            on_goal 1 => unfold x; clear x
            on_goal 2 => intro _; clear_value x)
         | (refine Keeps.cut2 x ?_ ?_
            on_goal 1 => unfold x; clear x
            on_goal 2 => intro _; clear_value x)
         | (refine Keeps.cutF x ?_ ?_
            on_goal 1 => unfold x; clear x
            on_goal 2 => intro hF; clear_value x)
         | (refine Keeps.cutF1 x ?_ ?_
            on_goal 1 => unfold x; clear x
            on_goal 2 => intro hF1; clear_value x)
         | (refine Keeps.cutF0 x ?_ ?_
            on_goal 1 => unfold x; clear x
            on_goal 2 => intro hF0; clear_value x)
         | (refine Keeps.cutFF x ?_ ?_
            on_goal 1 => unfold x; clear x
            on_goal 2 => intro hFF; clear_value x)
         | clear_value x)
    | with_reducible apply hF
    | with_reducible apply hF1
    | with_reducible apply hF0
    | with_reducible apply hFF
    | intro _
    | with_reducible apply Keeps.ite_
    | (with_reducible refine Keeps.foldl (fun _ _ _ => ?_) ?_)
    | (with_reducible refine Keeps.foldl2 (fun _ _ _ => ?_) ?_)
    | (fail_if_no_progress with_reducible apply Keeps.upd)
    | dsimp -zeta only []
    | with_reducible refine Keeps.ofPair (by with_reducible assumption) ?_
    | split
    | apply Keeps.ite_

theorem kickFailed_keeps {s0 s} (h : Keeps s0 s) : Keeps s0 (kickFailed s) := by
  unfold kickFailed
  repeat' first
    | with_reducible assumption
    | with_reducible apply beginItem_keeps
    | with_reducible apply kickSnap_keeps
    | (extract_lets +onlyGivenNames x
       first
         | (refine Keeps.cut x ?_ ?_
            on_goal 1 => unfold x; clear x
            on_goal 2 => intro _; clear_value x)
         | (refine Keeps.cut2 x ?_ ?_
            on_goal 1 => unfold x; clear x
            on_goal 2 => intro _; clear_value x)
         | (refine Keeps.cutF x ?_ ?_
            on_goal 1 => unfold x; clear x
            on_goal 2 => intro hF; clear_value x)
         | (refine Keeps.cutF1 x ?_ ?_
            on_goal 1 => unfold x; clear x
            on_goal 2 => intro hF1; clear_value x)
         | (refine Keeps.cutF0 x ?_ ?_
            on_goal 1 => unfold x; clear x
            on_goal 2 => intro hF0; clear_value x)
         | (refine Keeps.cutFF x ?_ ?_
            on_goal 1 => unfold x; clear x
            on_goal 2 => intro hFF; clear_value x)
         | clear_value x)
    | with_reducible apply hF
    | with_reducible apply hF1
    | with_reducible apply hF0
    | with_reducible apply hFF
    | intro _
    | with_reducible apply Keeps.ite_
    | (with_reducible refine Keeps.foldl (fun _ _ _ => ?_) ?_)
    | (with_reducible refine Keeps.foldl2 (fun _ _ _ => ?_) ?_)
    | (fail_if_no_progress with_reducible apply Keeps.upd)
    | dsimp -zeta only []
    | with_reducible refine Keeps.ofPair (by with_reducible assumption) ?_
    | split
    | apply Keeps.ite_

theorem jKick_keeps {s0 s} (h : Keeps s0 s) : Keeps s0 (jKick s) := by
  unfold jKick
  repeat' first
    | with_reducible assumption
    | with_reducible apply kickFailed_keeps
    | with_reducible apply beginItem_keeps
    | with_reducible apply kickSnap_keeps
    | (extract_lets +onlyGivenNames x
       first
         | (refine Keeps.cut x ?_ ?_
            on_goal 1 => unfold x; clear x
            on_goal 2 => intro _; clear_value x)
         | (refine Keeps.cut2 x ?_ ?_
            on_goal 1 => unfold x; clear x
            on_goal 2 => intro _; clear_value x)
         | (refine Keeps.cutF x ?_ ?_
            on_goal 1 => unfold x; clear x
            on_goal 2 => intro hF; clear_value x)
         | (refine Keeps.cutF1 x ?_ ?_
            on_goal 1 => unfold x; clear x
            on_goal 2 => intro hF1; clear_value x)
         | (refine Keeps.cutF0 x ?_ ?_
            on_goal 1 => unfold x; clear x
            on_goal 2 => intro hF0; clear_value x)
         | (refine Keeps.cutFF x ?_ ?_
            on_goal 1 => unfold x; clear x
            on_goal 2 => intro hFF; clear_value x)
         | clear_value x)
    | with_reducible apply hF
    | with_reducible apply hF1
    | with_reducible apply hF0
    | with_reducible apply hFF
    | intro _
    | with_reducible apply Keeps.ite_
    | (with_reducible refine Keeps.foldl (fun _ _ _ => ?_) ?_)
    | (with_reducible refine Keeps.foldl2 (fun _ _ _ => ?_) ?_)
    | (fail_if_no_progress with_reducible apply Keeps.upd)
    | dsimp -zeta only []
    | with_reducible refine Keeps.ofPair (by with_reducible assumption) ?_
    | split
    | apply Keeps.ite_

theorem jAdd_keeps {s0 s} {a0} (h : Keeps s0 s) : Keeps s0 (jAdd a0 s) := by
  unfold jAdd
  repeat' first
    | with_reducible assumption
    | with_reducible apply jKick_keeps
    | (extract_lets +onlyGivenNames x
       first
         | (refine Keeps.cut x ?_ ?_
            on_goal 1 => unfold x; clear x
            on_goal 2 => intro _; clear_value x)
         | (refine Keeps.cut2 x ?_ ?_
            on_goal 1 => unfold x; clear x
            on_goal 2 => intro _; clear_value x)
         | (refine Keeps.cutF x ?_ ?_
            on_goal 1 => unfold x; clear x
            on_goal 2 => intro hF; clear_value x)
         | (refine Keeps.cutF1 x ?_ ?_
            on_goal 1 => unfold x; clear x
            on_goal 2 => intro hF1; clear_value x)
         | (refine Keeps.cutF0 x ?_ ?_
            on_goal 1 => unfold x; clear x
            on_goal 2 => intro hF0; clear_value x)
         | (refine Keeps.cutFF x ?_ ?_
            on_goal 1 => unfold x; clear x
            on_goal 2 => intro hFF; clear_value x)
         | clear_value x)
    | with_reducible apply hF
    | with_reducible apply hF1
    | with_reducible apply hF0
    | with_reducible apply hFF
    | intro _
    | with_reducible apply Keeps.ite_
    | (with_reducible refine Keeps.foldl (fun _ _ _ => ?_) ?_)
    | (with_reducible refine Keeps.foldl2 (fun _ _ _ => ?_) ?_)
    | (fail_if_no_progress with_reducible apply Keeps.upd)
    | dsimp -zeta only []
    | with_reducible refine Keeps.ofPair (by with_reducible assumption) ?_
    | split
    | apply Keeps.ite_

theorem deliverEvent_keeps {s0 s} {a0 a1} (h : Keeps s0 s) : Keeps s0 (deliverEvent a0 a1 s) := by
  unfold deliverEvent
  repeat' first
    | with_reducible assumption
    | with_reducible apply raiseMsix_keeps
    | with_reducible apply hostWrite_keeps
    | (extract_lets +onlyGivenNames x
       first
         | (refine Keeps.cut x ?_ ?_
            on_goal 1 => unfold x; clear x
            on_goal 2 => intro _; clear_value x)
         | (refine Keeps.cut2 x ?_ ?_
            on_goal 1 => unfold x; clear x
            on_goal 2 => intro _; clear_value x)
         | (refine Keeps.cutF x ?_ ?_
            on_goal 1 => unfold x; clear x
            on_goal 2 => intro hF; clear_value x)
         | (refine Keeps.cutF1 x ?_ ?_
            on_goal 1 => unfold x; clear x
            on_goal 2 => intro hF1; clear_value x)
         | (refine Keeps.cutF0 x ?_ ?_
            on_goal 1 => unfold x; clear x
            on_goal 2 => intro hF0; clear_value x)
         | (refine Keeps.cutFF x ?_ ?_
            on_goal 1 => unfold x; clear x
            on_goal 2 => intro hFF; clear_value x)
         | clear_value x)
    | with_reducible apply hF
    | with_reducible apply hF1
    | with_reducible apply hF0
    | with_reducible apply hFF
    | intro _
    | with_reducible apply Keeps.ite_
    | (with_reducible refine Keeps.foldl (fun _ _ _ => ?_) ?_)
    | (with_reducible refine Keeps.foldl2 (fun _ _ _ => ?_) ?_)
    | (fail_if_no_progress with_reducible apply Keeps.upd)
    | dsimp -zeta only []
    | with_reducible refine Keeps.ofPair (by with_reducible assumption) ?_
    | split
    | apply Keeps.ite_

theorem releaseEvents_keeps {s0 s} (h : Keeps s0 s) : Keeps s0 (releaseEvents s) := by
  unfold releaseEvents
  repeat' first
    | with_reducible assumption
    | with_reducible apply deliverEvent_keeps
    | (extract_lets +onlyGivenNames x
       first
         | (refine Keeps.cut x ?_ ?_
            on_goal 1 => unfold x; clear x
            on_goal 2 => intro _; clear_value x)
         | (refine Keeps.cut2 x ?_ ?_
            on_goal 1 => unfold x; clear x
            on_goal 2 => intro _; clear_value x)
         | (refine Keeps.cutF x ?_ ?_
            on_goal 1 => unfold x; clear x
            on_goal 2 => intro hF; clear_value x)
         | (refine Keeps.cutF1 x ?_ ?_
            on_goal 1 => unfold x; clear x
            on_goal 2 => intro hF1; clear_value x)
         | (refine Keeps.cutF0 x ?_ ?_
            on_goal 1 => unfold x; clear x
            on_goal 2 => intro hF0; clear_value x)
         | (refine Keeps.cutFF x ?_ ?_
            on_goal 1 => unfold x; clear x
            on_goal 2 => intro hFF; clear_value x)
         | clear_value x)
    | with_reducible apply hF
    | with_reducible apply hF1
    | with_reducible apply hF0
    | with_reducible apply hFF
    | intro _
    | with_reducible apply Keeps.ite_
    | (with_reducible refine Keeps.foldl (fun _ _ _ => ?_) ?_)
    | (with_reducible refine Keeps.foldl2 (fun _ _ _ => ?_) ?_)
    | (fail_if_no_progress with_reducible apply Keeps.upd)
    | dsimp -zeta only []
    | with_reducible refine Keeps.ofPair (by with_reducible assumption) ?_
    | split
    | apply Keeps.ite_

theorem raiseEvent_keeps {s0 s} {a0 a1 a2} (h : Keeps s0 s) : Keeps s0 (raiseEvent a0 a1 a2 s) := by
  unfold raiseEvent
  repeat' first
    | with_reducible assumption
    | with_reducible apply tally_keeps
    | with_reducible apply jKick_keeps
    | with_reducible apply deliverEvent_keeps
    | (extract_lets +onlyGivenNames x
       first
         | (refine Keeps.cut x ?_ ?_
            on_goal 1 => unfold x; clear x
            on_goal 2 => intro _; clear_value x)
         | (refine Keeps.cut2 x ?_ ?_
            on_goal 1 => unfold x; clear x
            on_goal 2 => intro _; clear_value x)
         | (refine Keeps.cutF x ?_ ?_
            on_goal 1 => unfold x; clear x
            on_goal 2 => intro hF; clear_value x)
         | (refine Keeps.cutF1 x ?_ ?_
            on_goal 1 => unfold x; clear x
            on_goal 2 => intro hF1; clear_value x)
         | (refine Keeps.cutF0 x ?_ ?_
            on_goal 1 => unfold x; clear x
            on_goal 2 => intro hF0; clear_value x)
         | (refine Keeps.cutFF x ?_ ?_
            on_goal 1 => unfold x; clear x
            on_goal 2 => intro hFF; clear_value x)
         | clear_value x)
    | with_reducible apply hF
    | with_reducible apply hF1
    | with_reducible apply hF0
    | with_reducible apply hFF
    | intro _
    | with_reducible apply Keeps.ite_
    | (with_reducible refine Keeps.foldl (fun _ _ _ => ?_) ?_)
    | (with_reducible refine Keeps.foldl2 (fun _ _ _ => ?_) ?_)
    | (fail_if_no_progress with_reducible apply Keeps.upd)
    | dsimp -zeta only []
    | with_reducible refine Keeps.ofPair (by with_reducible assumption) ?_
    | split
    | apply Keeps.ite_

theorem logError_keeps {s0 s} {a0 a1 a2 a3} (h : Keeps s0 s) : Keeps s0 (logError a0 a1 a2 a3 s) := by
  unfold logError
  repeat' first
    | with_reducible assumption
    | with_reducible apply raiseEvent_keeps
    | with_reducible apply jAdd_keeps

/-- Entry into a state keeps what `Keeps` names where the move is forward and the losses stay shown. -/
theorem enterState_keeps {new : DevState} {c a : Nat} {s0 s} (h : Keeps s0 s) (hf : forward s.sys.state new = true)
    (hl : Machine.lossShown s.sys = true → Machine.lossShown { s.sys with state := new } = true) :
    Keeps s0 (enterState new c a s) := by
  exact raiseEvent_keeps (jAdd_keeps (h.trans ⟨rfl, id, ⟨[], rfl⟩, hf, hl, rfl, rfl, rfl⟩))

/-- Entry into a state of the start before RUN. -/
theorem enterState_start {new : DevState} {c a : Nat} {s0 s} (h : Keeps s0 s) (hf : forward s.sys.state new = true)
    (h1 : new ≠ .run) (h2 : new ≠ .degraded) (h3 : new ≠ .orphanHold) : Keeps s0 (enterState new c a s) := by
  refine enterState_keeps h hf fun _ => ?_
  revert h1 h2 h3
  simp only [Machine.lossShown]
  cases new <;> cases s.sys.lossSeen <;> cases s.sys.prior <;> decide

theorem countIgnored_keeps {s0 s} {a0 a1} (h : Keeps s0 s) : Keeps s0 (countIgnored a0 a1 s) := by
  unfold countIgnored
  repeat' first
    | with_reducible assumption
    | (extract_lets +onlyGivenNames x
       first
         | (refine Keeps.cut x ?_ ?_
            on_goal 1 => unfold x; clear x
            on_goal 2 => intro _; clear_value x)
         | (refine Keeps.cut2 x ?_ ?_
            on_goal 1 => unfold x; clear x
            on_goal 2 => intro _; clear_value x)
         | clear_value x)
    | (fail_if_no_progress with_reducible apply Keeps.upd)
    | dsimp -zeta only []
    | with_reducible refine Keeps.ofPair (by with_reducible assumption) ?_
    | split

end Sys2Proof.Machine
end

