-- ==== Sys2Proof/Laws/KeepsLayout.lean ====
section
/-!
SUPPORT. Sys2Proof/Laws/KeepsLayout.lean: what the operations of Machine/Layout.lean keep (`Keeps`).
-/
set_option linter.all false
namespace Sys2Proof.Machine

theorem daPoke_keeps {s0} {bs : List Byte} : ∀ {s : State} {da : Nat}, Keeps s0 s → Keeps s0 (daPoke s da bs) := by
  induction bs with
  | nil => intro s da h; exact h
  | cons b bs ih =>
    intro s da h
    exact ih (h.trans ⟨rfl, fun w => memWf_memWrite1 w, ⟨[], rfl⟩, forward_self _, id, rfl, rfl, rfl⟩)

theorem daWrite_keeps {s0 s} {a0 a1} (h : Keeps s0 s) : Keeps s0 (daWrite s a0 a1).2 := by
  unfold daWrite
  repeat' first
    | with_reducible assumption
    | with_reducible apply daPoke_keeps
    | (extract_lets +onlyGivenNames x
       first
         | (refine Keeps.cut x ?_ ?_
            on_goal 1 => unfold x; clear x
            on_goal 2 => intro _; clear_value x)
         | (refine Keeps.cut2 x ?_ ?_
            on_goal 1 => unfold x; clear x
            on_goal 2 => intro _; clear_value x)
         | clear_value x)
    | intro _
    | with_reducible apply Keeps.ite_
    | (fail_if_no_progress with_reducible apply Keeps.upd)
    | dsimp -zeta only []
    | with_reducible refine Keeps.ofPair (by with_reducible assumption) ?_
    | split
    | apply Keeps.ite_

theorem zeroRange_keeps {da n : Nat} {s0 s} (h : Keeps s0 s) : Keeps s0 (zeroRange da n s) :=
  h.trans ⟨rfl, fun w => memWf_memClear w, ⟨[], rfl⟩, forward_self _, id, rfl, rfl, rfl⟩

theorem rowWrite_keeps {s0 s} {a0 a1} (h : Keeps s0 s) : Keeps s0 (rowWrite s a0 a1) := by
  unfold rowWrite
  repeat' first
    | with_reducible assumption
    | with_reducible apply daPoke_keeps
    | (extract_lets +onlyGivenNames x
       first
         | (refine Keeps.cut x ?_ ?_
            on_goal 1 => unfold x; clear x
            on_goal 2 => intro _; clear_value x)
         | (refine Keeps.cut2 x ?_ ?_
            on_goal 1 => unfold x; clear x
            on_goal 2 => intro _; clear_value x)
         | (refine Keeps.cutF x ?_ ?_
            on_goal 1 => unfold x; clear x
            on_goal 2 => intro hF; clear_value x)
         | (refine Keeps.cutF1 x ?_ ?_
            on_goal 1 => unfold x; clear x
            on_goal 2 => intro hF1; clear_value x)
         | (refine Keeps.cutF0 x ?_ ?_
            on_goal 1 => unfold x; clear x
            on_goal 2 => intro hF0; clear_value x)
         | (refine Keeps.cutFF x ?_ ?_
            on_goal 1 => unfold x; clear x
            on_goal 2 => intro hFF; clear_value x)
         | clear_value x)
    | with_reducible apply hF
    | with_reducible apply hF1
    | with_reducible apply hF0
    | with_reducible apply hFF
    | intro _
    | with_reducible apply Keeps.ite_
    | (with_reducible refine Keeps.foldl (fun _ _ _ => ?_) ?_)
    | (with_reducible refine Keeps.foldl2 (fun _ _ _ => ?_) ?_)
    | (fail_if_no_progress with_reducible apply Keeps.upd)
    | dsimp -zeta only []
    | with_reducible refine Keeps.ofPair (by with_reducible assumption) ?_
    | split
    | apply Keeps.ite_

theorem storeDefault_keeps {s0 s} {a0 a1} (h : Keeps s0 s) : Keeps s0 (storeDefault a0 a1 s) := by
  unfold storeDefault
  repeat' first
    | with_reducible assumption
    | with_reducible apply daPoke_keeps
    | (extract_lets +onlyGivenNames x
       first
         | (refine Keeps.cut x ?_ ?_
            on_goal 1 => unfold x; clear x
            on_goal 2 => intro _; clear_value x)
         | (refine Keeps.cut2 x ?_ ?_
            on_goal 1 => unfold x; clear x
            on_goal 2 => intro _; clear_value x)
         | (refine Keeps.cutF x ?_ ?_
            on_goal 1 => unfold x; clear x
            on_goal 2 => intro hF; clear_value x)
         | (refine Keeps.cutF1 x ?_ ?_
            on_goal 1 => unfold x; clear x
            on_goal 2 => intro hF1; clear_value x)
         | (refine Keeps.cutF0 x ?_ ?_
            on_goal 1 => unfold x; clear x
            on_goal 2 => intro hF0; clear_value x)
         | (refine Keeps.cutFF x ?_ ?_
            on_goal 1 => unfold x; clear x
            on_goal 2 => intro hFF; clear_value x)
         | clear_value x)
    | with_reducible apply hF
    | with_reducible apply hF1
    | with_reducible apply hF0
    | with_reducible apply hFF
    | intro _
    | with_reducible apply Keeps.ite_
    | (with_reducible refine Keeps.foldl (fun _ _ _ => ?_) ?_)
    | (with_reducible refine Keeps.foldl2 (fun _ _ _ => ?_) ?_)
    | (fail_if_no_progress with_reducible apply Keeps.upd)
    | dsimp -zeta only []
    | with_reducible refine Keeps.ofPair (by with_reducible assumption) ?_
    | split
    | apply Keeps.ite_

theorem storeDefaults_keeps {s0 s} {a0 a1 a2} (h : Keeps s0 s) : Keeps s0 (storeDefaults a0 a1 a2 s) := by
  unfold storeDefaults
  repeat' first
    | with_reducible assumption
    | with_reducible apply storeDefault_keeps
    | (extract_lets +onlyGivenNames x
       first
         | (refine Keeps.cut x ?_ ?_
            on_goal 1 => unfold x; clear x
            on_goal 2 => intro _; clear_value x)
         | (refine Keeps.cut2 x ?_ ?_
            on_goal 1 => unfold x; clear x
            on_goal 2 => intro _; clear_value x)
         | (refine Keeps.cutF x ?_ ?_
            on_goal 1 => unfold x; clear x
            on_goal 2 => intro hF; clear_value x)
         | (refine Keeps.cutF1 x ?_ ?_
            on_goal 1 => unfold x; clear x
            on_goal 2 => intro hF1; clear_value x)
         | (refine Keeps.cutF0 x ?_ ?_
            on_goal 1 => unfold x; clear x
            on_goal 2 => intro hF0; clear_value x)
         | (refine Keeps.cutFF x ?_ ?_
            on_goal 1 => unfold x; clear x
            on_goal 2 => intro hFF; clear_value x)
         | clear_value x)
    | with_reducible apply hF
    | with_reducible apply hF1
    | with_reducible apply hF0
    | with_reducible apply hFF
    | intro _
    | with_reducible apply Keeps.ite_
    | (with_reducible refine Keeps.foldl (fun _ _ _ => ?_) ?_)
    | (with_reducible refine Keeps.foldl2 (fun _ _ _ => ?_) ?_)
    | (fail_if_no_progress with_reducible apply Keeps.upd)
    | dsimp -zeta only []
    | with_reducible refine Keeps.ofPair (by with_reducible assumption) ?_
    | split
    | apply Keeps.ite_

end Sys2Proof.Machine
end

