-- ==== Sys2Proof/Laws/KeepsKvTable.lean ====
section
/-!
SUPPORT. Sys2Proof/Laws/KeepsKvTable.lean: what the operations of Machine/KvTable.lean keep (`Keeps`).
-/
set_option linter.all false
namespace Sys2Proof.Machine

theorem clearPageTables_keeps {s0 s} {a0} (h : Keeps s0 s) : Keeps s0 (clearPageTables a0 s) := by
  unfold clearPageTables
  repeat' first
    | with_reducible assumption
    | with_reducible apply zeroRange_keeps
    | (extract_lets +onlyGivenNames x
       first
         | (refine Keeps.cut x ?_ ?_
            on_goal 1 => unfold x; clear x
            on_goal 2 => intro _; clear_value x)
         | (refine Keeps.cut2 x ?_ ?_
            on_goal 1 => unfold x; clear x
            on_goal 2 => intro _; clear_value x)
         | (refine Keeps.cutF x ?_ ?_
            on_goal 1 => unfold x; clear x
            on_goal 2 => intro hF; clear_value x)
         | (refine Keeps.cutF1 x ?_ ?_
            on_goal 1 => unfold x; clear x
            on_goal 2 => intro hF1; clear_value x)
         | (refine Keeps.cutF0 x ?_ ?_
            on_goal 1 => unfold x; clear x
            on_goal 2 => intro hF0; clear_value x)
         | (refine Keeps.cutFF x ?_ ?_
            on_goal 1 => unfold x; clear x
            on_goal 2 => intro hFF; clear_value x)
         | clear_value x)
    | with_reducible apply hF
    | with_reducible apply hF1
    | with_reducible apply hF0
    | with_reducible apply hFF
    | intro _
    | with_reducible apply Keeps.ite_
    | (with_reducible refine Keeps.foldl (fun _ _ _ => ?_) ?_)
    | (with_reducible refine Keeps.foldl2 (fun _ _ _ => ?_) ?_)
    | (fail_if_no_progress with_reducible apply Keeps.upd)
    | dsimp -zeta only []
    | with_reducible refine Keeps.ofPair (by with_reducible assumption) ?_
    | split
    | apply Keeps.ite_

end Sys2Proof.Machine
end

