-- ==== Sys2Proof/Laws/KeepsAddrMap.lean ====
section
/-!
SUPPORT. Sys2Proof/Laws/KeepsAddrMap.lean: what the operations of Machine/AddrMap.lean keep (`Keeps`).
-/
set_option linter.all false
namespace Sys2Proof.Machine

theorem decodeError_keeps {s0 s} {a0 a1 a2} (h : Keeps s0 s) : Keeps s0 (decodeError a0 a1 a2 s) := by
  unfold decodeError
  repeat' first
    | with_reducible assumption
    | with_reducible apply raiseEvent_keeps
    | with_reducible apply onFunc_keeps
    | (extract_lets +onlyGivenNames x
       first
         | (refine Keeps.cut x ?_ ?_
            on_goal 1 => unfold x; clear x
            on_goal 2 => intro _; clear_value x)
         | clear_value x)
    | intro _
    | (fail_if_no_progress with_reducible apply Keeps.upd)

end Sys2Proof.Machine
end

