-- ==== Sys2Proof/Laws/KeepsActivity.lean ====
section
/-!
SUPPORT. Sys2Proof/Laws/KeepsActivity.lean: what the operations of Machine/Activity.lean keep (`Keeps`).
-/
set_option linter.all false
namespace Sys2Proof.Machine

theorem toHouse_keeps {s0 s} {a0} (h : Keeps s0 s) : Keeps s0 (toHouse a0 s) := by
  unfold toHouse
  repeat' first
    | with_reducible assumption
    | (extract_lets +onlyGivenNames x
       first
         | (refine Keeps.cut x ?_ ?_
            on_goal 1 => unfold x; clear x
            on_goal 2 => intro _; clear_value x)
         | (refine Keeps.cut2 x ?_ ?_
            on_goal 1 => unfold x; clear x
            on_goal 2 => intro _; clear_value x)
         | (refine Keeps.cutF x ?_ ?_
            on_goal 1 => unfold x; clear x
            on_goal 2 => intro hF; clear_value x)
         | (refine Keeps.cutF1 x ?_ ?_
            on_goal 1 => unfold x; clear x
            on_goal 2 => intro hF1; clear_value x)
         | (refine Keeps.cutF0 x ?_ ?_
            on_goal 1 => unfold x; clear x
            on_goal 2 => intro hF0; clear_value x)
         | (refine Keeps.cutFF x ?_ ?_
            on_goal 1 => unfold x; clear x
            on_goal 2 => intro hFF; clear_value x)
         | clear_value x)
    | with_reducible apply hF
    | with_reducible apply hF1
    | with_reducible apply hF0
    | with_reducible apply hFF
    | intro _
    | with_reducible apply Keeps.ite_
    | (with_reducible refine Keeps.foldl (fun _ _ _ => ?_) ?_)
    | (with_reducible refine Keeps.foldl2 (fun _ _ _ => ?_) ?_)
    | (fail_if_no_progress with_reducible apply Keeps.upd)
    | dsimp -zeta only []
    | with_reducible refine Keeps.ofPair (by with_reducible assumption) ?_
    | split
    | apply Keeps.ite_

theorem payEnergy_keeps {s0 s} {a0 a1} (h : Keeps s0 s) : Keeps s0 (payEnergy a0 a1 s) := by
  unfold payEnergy
  repeat' first
    | with_reducible assumption
    | with_reducible apply onCmd_keeps
    | with_reducible apply toHouse_keeps
    | (extract_lets +onlyGivenNames x
       first
         | (refine Keeps.cut x ?_ ?_
            on_goal 1 => unfold x; clear x
            on_goal 2 => intro _; clear_value x)
         | (refine Keeps.cut2 x ?_ ?_
            on_goal 1 => unfold x; clear x
            on_goal 2 => intro _; clear_value x)
         | (refine Keeps.cutF x ?_ ?_
            on_goal 1 => unfold x; clear x
            on_goal 2 => intro hF; clear_value x)
         | (refine Keeps.cutF1 x ?_ ?_
            on_goal 1 => unfold x; clear x
            on_goal 2 => intro hF1; clear_value x)
         | (refine Keeps.cutF0 x ?_ ?_
            on_goal 1 => unfold x; clear x
            on_goal 2 => intro hF0; clear_value x)
         | (refine Keeps.cutFF x ?_ ?_
            on_goal 1 => unfold x; clear x
            on_goal 2 => intro hFF; clear_value x)
         | clear_value x)
    | with_reducible apply hF
    | with_reducible apply hF1
    | with_reducible apply hF0
    | with_reducible apply hFF
    | intro _
    | with_reducible apply Keeps.ite_
    | (with_reducible refine Keeps.foldl (fun _ _ _ => ?_) ?_)
    | (with_reducible refine Keeps.foldl2 (fun _ _ _ => ?_) ?_)
    | (fail_if_no_progress with_reducible apply Keeps.upd)
    | dsimp -zeta only []
    | with_reducible refine Keeps.ofPair (by with_reducible assumption) ?_
    | split
    | apply Keeps.ite_

theorem activity_keeps {s0 s} {a0 a1 a2} (h : Keeps s0 s) : Keeps s0 (activity a0 a1 a2 s) := by
  unfold activity
  repeat' first
    | with_reducible assumption
    | with_reducible apply payEnergy_keeps
    | (extract_lets +onlyGivenNames x
       first
         | (refine Keeps.cut x ?_ ?_
            on_goal 1 => unfold x; clear x
            on_goal 2 => intro _; clear_value x)
         | (refine Keeps.cut2 x ?_ ?_
            on_goal 1 => unfold x; clear x
            on_goal 2 => intro _; clear_value x)
         | (refine Keeps.cutF x ?_ ?_
            on_goal 1 => unfold x; clear x
            on_goal 2 => intro hF; clear_value x)
         | (refine Keeps.cutF1 x ?_ ?_
            on_goal 1 => unfold x; clear x
            on_goal 2 => intro hF1; clear_value x)
         | (refine Keeps.cutF0 x ?_ ?_
            on_goal 1 => unfold x; clear x
            on_goal 2 => intro hF0; clear_value x)
         | (refine Keeps.cutFF x ?_ ?_
            on_goal 1 => unfold x; clear x
            on_goal 2 => intro hFF; clear_value x)
         | clear_value x)
    | with_reducible apply hF
    | with_reducible apply hF1
    | with_reducible apply hF0
    | with_reducible apply hFF
    | intro _
    | with_reducible apply Keeps.ite_
    | (with_reducible refine Keeps.foldl (fun _ _ _ => ?_) ?_)
    | (with_reducible refine Keeps.foldl2 (fun _ _ _ => ?_) ?_)
    | (fail_if_no_progress with_reducible apply Keeps.upd)
    | dsimp -zeta only []
    | with_reducible refine Keeps.ofPair (by with_reducible assumption) ?_
    | split
    | apply Keeps.ite_

theorem memActivity_keeps {s0 s} {a0 a1 a2} (h : Keeps s0 s) : Keeps s0 (memActivity a0 a1 a2 s) := by
  unfold memActivity
  repeat' first
    | with_reducible assumption
    | with_reducible apply activity_keeps
    | (extract_lets +onlyGivenNames x
       first
         | (refine Keeps.cut x ?_ ?_
            on_goal 1 => unfold x; clear x
            on_goal 2 => intro _; clear_value x)
         | (refine Keeps.cut2 x ?_ ?_
            on_goal 1 => unfold x; clear x
            on_goal 2 => intro _; clear_value x)
         | (refine Keeps.cutF x ?_ ?_
            on_goal 1 => unfold x; clear x
            on_goal 2 => intro hF; clear_value x)
         | (refine Keeps.cutF1 x ?_ ?_
            on_goal 1 => unfold x; clear x
            on_goal 2 => intro hF1; clear_value x)
         | (refine Keeps.cutF0 x ?_ ?_
            on_goal 1 => unfold x; clear x
            on_goal 2 => intro hF0; clear_value x)
         | (refine Keeps.cutFF x ?_ ?_
            on_goal 1 => unfold x; clear x
            on_goal 2 => intro hFF; clear_value x)
         | clear_value x)
    | with_reducible apply hF
    | with_reducible apply hF1
    | with_reducible apply hF0
    | with_reducible apply hFF
    | intro _
    | with_reducible apply Keeps.ite_
    | (with_reducible refine Keeps.foldl (fun _ _ _ => ?_) ?_)
    | (with_reducible refine Keeps.foldl2 (fun _ _ _ => ?_) ?_)
    | (fail_if_no_progress with_reducible apply Keeps.upd)
    | dsimp -zeta only []
    | with_reducible refine Keeps.ofPair (by with_reducible assumption) ?_
    | split
    | apply Keeps.ite_

theorem ringActivity_keeps {s0 s} {a0 a1 a2} (h : Keeps s0 s) : Keeps s0 (ringActivity a0 a1 a2 s) := by
  unfold ringActivity
  repeat' first
    | with_reducible assumption
    | with_reducible apply activity_keeps
    | (extract_lets +onlyGivenNames x
       first
         | (refine Keeps.cut x ?_ ?_
            on_goal 1 => unfold x; clear x
            on_goal 2 => intro _; clear_value x)
         | (refine Keeps.cut2 x ?_ ?_
            on_goal 1 => unfold x; clear x
            on_goal 2 => intro _; clear_value x)
         | (refine Keeps.cutF x ?_ ?_
            on_goal 1 => unfold x; clear x
            on_goal 2 => intro hF; clear_value x)
         | (refine Keeps.cutF1 x ?_ ?_
            on_goal 1 => unfold x; clear x
            on_goal 2 => intro hF1; clear_value x)
         | (refine Keeps.cutF0 x ?_ ?_
            on_goal 1 => unfold x; clear x
            on_goal 2 => intro hF0; clear_value x)
         | (refine Keeps.cutFF x ?_ ?_
            on_goal 1 => unfold x; clear x
            on_goal 2 => intro hFF; clear_value x)
         | clear_value x)
    | with_reducible apply hF
    | with_reducible apply hF1
    | with_reducible apply hF0
    | with_reducible apply hFF
    | intro _
    | with_reducible apply Keeps.ite_
    | (with_reducible refine Keeps.foldl (fun _ _ _ => ?_) ?_)
    | (with_reducible refine Keeps.foldl2 (fun _ _ _ => ?_) ?_)
    | (fail_if_no_progress with_reducible apply Keeps.upd)
    | dsimp -zeta only []
    | with_reducible refine Keeps.ofPair (by with_reducible assumption) ?_
    | split
    | apply Keeps.ite_

theorem linkActivity_keeps {s0 s} {a0 a1 a2 a3} (h : Keeps s0 s) : Keeps s0 (linkActivity a0 a1 a2 a3 s) := by
  unfold linkActivity
  repeat' first
    | with_reducible assumption
    | with_reducible apply activity_keeps
    | (extract_lets +onlyGivenNames x
       first
         | (refine Keeps.cut x ?_ ?_
            on_goal 1 => unfold x; clear x
            on_goal 2 => intro _; clear_value x)
         | (refine Keeps.cut2 x ?_ ?_
            on_goal 1 => unfold x; clear x
            on_goal 2 => intro _; clear_value x)
         | (refine Keeps.cutF x ?_ ?_
            on_goal 1 => unfold x; clear x
            on_goal 2 => intro hF; clear_value x)
         | (refine Keeps.cutF1 x ?_ ?_
            on_goal 1 => unfold x; clear x
            on_goal 2 => intro hF1; clear_value x)
         | (refine Keeps.cutF0 x ?_ ?_
            on_goal 1 => unfold x; clear x
            on_goal 2 => intro hF0; clear_value x)
         | (refine Keeps.cutFF x ?_ ?_
            on_goal 1 => unfold x; clear x
            on_goal 2 => intro hFF; clear_value x)
         | clear_value x)
    | with_reducible apply hF
    | with_reducible apply hF1
    | with_reducible apply hF0
    | with_reducible apply hFF
    | intro _
    | with_reducible apply Keeps.ite_
    | (with_reducible refine Keeps.foldl (fun _ _ _ => ?_) ?_)
    | (with_reducible refine Keeps.foldl2 (fun _ _ _ => ?_) ?_)
    | (fail_if_no_progress with_reducible apply Keeps.upd)
    | dsimp -zeta only []
    | with_reducible refine Keeps.ofPair (by with_reducible assumption) ?_
    | split
    | apply Keeps.ite_

theorem busActivity_keeps {s0 s} {a0 a1 a2} (h : Keeps s0 s) : Keeps s0 (busActivity a0 a1 a2 s) := by
  unfold busActivity
  repeat' first
    | with_reducible assumption
    | with_reducible apply activity_keeps
    | (extract_lets +onlyGivenNames x
       first
         | (refine Keeps.cut x ?_ ?_
            on_goal 1 => unfold x; clear x
            on_goal 2 => intro _; clear_value x)
         | (refine Keeps.cut2 x ?_ ?_
            on_goal 1 => unfold x; clear x
            on_goal 2 => intro _; clear_value x)
         | (refine Keeps.cutF x ?_ ?_
            on_goal 1 => unfold x; clear x
            on_goal 2 => intro hF; clear_value x)
         | (refine Keeps.cutF1 x ?_ ?_
            on_goal 1 => unfold x; clear x
            on_goal 2 => intro hF1; clear_value x)
         | (refine Keeps.cutF0 x ?_ ?_
            on_goal 1 => unfold x; clear x
            on_goal 2 => intro hF0; clear_value x)
         | (refine Keeps.cutFF x ?_ ?_
            on_goal 1 => unfold x; clear x
            on_goal 2 => intro hFF; clear_value x)
         | clear_value x)
    | with_reducible apply hF
    | with_reducible apply hF1
    | with_reducible apply hF0
    | with_reducible apply hFF
    | intro _
    | with_reducible apply Keeps.ite_
    | (with_reducible refine Keeps.foldl (fun _ _ _ => ?_) ?_)
    | (with_reducible refine Keeps.foldl2 (fun _ _ _ => ?_) ?_)
    | (fail_if_no_progress with_reducible apply Keeps.upd)
    | dsimp -zeta only []
    | with_reducible refine Keeps.ofPair (by with_reducible assumption) ?_
    | split
    | apply Keeps.ite_

theorem houseBytes_keeps {s0 s} {a0 a1 a2} (h : Keeps s0 s) : Keeps s0 (houseBytes a0 a1 a2 s) := by
  unfold houseBytes
  repeat' first
    | with_reducible assumption
    | with_reducible apply busActivity_keeps
    | (extract_lets +onlyGivenNames x
       first
         | (refine Keeps.cut x ?_ ?_
            on_goal 1 => unfold x; clear x
            on_goal 2 => intro _; clear_value x)
         | (refine Keeps.cut2 x ?_ ?_
            on_goal 1 => unfold x; clear x
            on_goal 2 => intro _; clear_value x)
         | (refine Keeps.cutF x ?_ ?_
            on_goal 1 => unfold x; clear x
            on_goal 2 => intro hF; clear_value x)
         | (refine Keeps.cutF1 x ?_ ?_
            on_goal 1 => unfold x; clear x
            on_goal 2 => intro hF1; clear_value x)
         | (refine Keeps.cutF0 x ?_ ?_
            on_goal 1 => unfold x; clear x
            on_goal 2 => intro hF0; clear_value x)
         | (refine Keeps.cutFF x ?_ ?_
            on_goal 1 => unfold x; clear x
            on_goal 2 => intro hFF; clear_value x)
         | clear_value x)
    | with_reducible apply hF
    | with_reducible apply hF1
    | with_reducible apply hF0
    | with_reducible apply hFF
    | intro _
    | with_reducible apply Keeps.ite_
    | (with_reducible refine Keeps.foldl (fun _ _ _ => ?_) ?_)
    | (with_reducible refine Keeps.foldl2 (fun _ _ _ => ?_) ?_)
    | (fail_if_no_progress with_reducible apply Keeps.upd)
    | dsimp -zeta only []
    | with_reducible refine Keeps.ofPair (by with_reducible assumption) ?_
    | split
    | apply Keeps.ite_

theorem hashActivity_keeps {s0 s} {a0} (h : Keeps s0 s) : Keeps s0 (hashActivity a0 s) := by
  unfold hashActivity
  repeat' first
    | with_reducible assumption
    | with_reducible apply activity_keeps
    | (extract_lets +onlyGivenNames x
       first
         | (refine Keeps.cut x ?_ ?_
            on_goal 1 => unfold x; clear x
            on_goal 2 => intro _; clear_value x)
         | (refine Keeps.cut2 x ?_ ?_
            on_goal 1 => unfold x; clear x
            on_goal 2 => intro _; clear_value x)
         | (refine Keeps.cutF x ?_ ?_
            on_goal 1 => unfold x; clear x
            on_goal 2 => intro hF; clear_value x)
         | (refine Keeps.cutF1 x ?_ ?_
            on_goal 1 => unfold x; clear x
            on_goal 2 => intro hF1; clear_value x)
         | (refine Keeps.cutF0 x ?_ ?_
            on_goal 1 => unfold x; clear x
            on_goal 2 => intro hF0; clear_value x)
         | (refine Keeps.cutFF x ?_ ?_
            on_goal 1 => unfold x; clear x
            on_goal 2 => intro hFF; clear_value x)
         | clear_value x)
    | with_reducible apply hF
    | with_reducible apply hF1
    | with_reducible apply hF0
    | with_reducible apply hFF
    | intro _
    | with_reducible apply Keeps.ite_
    | (with_reducible refine Keeps.foldl (fun _ _ _ => ?_) ?_)
    | (with_reducible refine Keeps.foldl2 (fun _ _ _ => ?_) ?_)
    | (fail_if_no_progress with_reducible apply Keeps.upd)
    | dsimp -zeta only []
    | with_reducible refine Keeps.ofPair (by with_reducible assumption) ?_
    | split
    | apply Keeps.ite_

theorem rngWriteRo_keeps {s0 s} {a0 a1 a2 a3 a4} (h : Keeps s0 s) : Keeps s0 (rngWriteRo a0 a1 a2 a3 a4 s).2 := by
  have host : ∀ a, Keeps s0 (busActivity (.cmd a1.uid) a1.func a4.length (hostWriteRo a0 a1.func a a4 s)) := fun _ =>
    busActivity_keeps (hostWriteRo_keeps h)
  unfold rngWriteRo
  split
  · exact host _
  · split
    · exact host _
    · exact daWrite_keeps h

theorem rngWrite_keeps {s0 s} {a0 a1 a2 a3} (h : Keeps s0 s) : Keeps s0 (rngWrite a0 a1 a2 a3 s).2 := by
  unfold rngWrite
  repeat' first
    | with_reducible assumption
    | with_reducible apply rngWriteRo_keeps
    | (extract_lets +onlyGivenNames x
       first
         | (refine Keeps.cut x ?_ ?_
            on_goal 1 => unfold x; clear x
            on_goal 2 => intro _; clear_value x)
         | (refine Keeps.cut2 x ?_ ?_
            on_goal 1 => unfold x; clear x
            on_goal 2 => intro _; clear_value x)
         | (refine Keeps.cutF x ?_ ?_
            on_goal 1 => unfold x; clear x
            on_goal 2 => intro hF; clear_value x)
         | (refine Keeps.cutF1 x ?_ ?_
            on_goal 1 => unfold x; clear x
            on_goal 2 => intro hF1; clear_value x)
         | (refine Keeps.cutF0 x ?_ ?_
            on_goal 1 => unfold x; clear x
            on_goal 2 => intro hF0; clear_value x)
         | (refine Keeps.cutFF x ?_ ?_
            on_goal 1 => unfold x; clear x
            on_goal 2 => intro hFF; clear_value x)
         | clear_value x)
    | with_reducible apply hF
    | with_reducible apply hF1
    | with_reducible apply hF0
    | with_reducible apply hFF
    | intro _
    | with_reducible apply Keeps.ite_
    | (with_reducible refine Keeps.foldl (fun _ _ _ => ?_) ?_)
    | (with_reducible refine Keeps.foldl2 (fun _ _ _ => ?_) ?_)
    | (fail_if_no_progress with_reducible apply Keeps.upd)
    | dsimp -zeta only []
    | with_reducible refine Keeps.ofPair (by with_reducible assumption) ?_
    | split
    | apply Keeps.ite_

theorem ringSend_keeps {s0 s} {a0 a1 a2 a3} (h : Keeps s0 s) : Keeps s0 (ringSend a0 a1 a2 a3 s) := by
  unfold ringSend
  repeat' first
    | with_reducible assumption
    | with_reducible apply ringActivity_keeps
    | with_reducible apply activity_keeps
    | (extract_lets +onlyGivenNames x
       first
         | (refine Keeps.cut x ?_ ?_
            on_goal 1 => unfold x; clear x
            on_goal 2 => intro _; clear_value x)
         | (refine Keeps.cut2 x ?_ ?_
            on_goal 1 => unfold x; clear x
            on_goal 2 => intro _; clear_value x)
         | (refine Keeps.cutF x ?_ ?_
            on_goal 1 => unfold x; clear x
            on_goal 2 => intro hF; clear_value x)
         | (refine Keeps.cutF1 x ?_ ?_
            on_goal 1 => unfold x; clear x
            on_goal 2 => intro hF1; clear_value x)
         | (refine Keeps.cutF0 x ?_ ?_
            on_goal 1 => unfold x; clear x
            on_goal 2 => intro hF0; clear_value x)
         | (refine Keeps.cutFF x ?_ ?_
            on_goal 1 => unfold x; clear x
            on_goal 2 => intro hFF; clear_value x)
         | clear_value x)
    | with_reducible apply hF
    | with_reducible apply hF1
    | with_reducible apply hF0
    | with_reducible apply hFF
    | intro _
    | with_reducible apply Keeps.ite_
    | (with_reducible refine Keeps.foldl (fun _ _ _ => ?_) ?_)
    | (with_reducible refine Keeps.foldl2 (fun _ _ _ => ?_) ?_)
    | (fail_if_no_progress with_reducible apply Keeps.upd)
    | dsimp -zeta only []
    | with_reducible refine Keeps.ofPair (by with_reducible assumption) ?_
    | split
    | apply Keeps.ite_

theorem cutCmd_keeps {s0 s} {a0} (h : Keeps s0 s) : Keeps s0 (cutCmd a0 s) := by
  unfold cutCmd
  repeat' first
    | with_reducible assumption
    | with_reducible apply drew_keeps
    | with_reducible apply onCmd_keeps
    | (extract_lets +onlyGivenNames x
       first
         | (refine Keeps.cut x ?_ ?_
            on_goal 1 => unfold x; clear x
            on_goal 2 => intro _; clear_value x)
         | (refine Keeps.cut2 x ?_ ?_
            on_goal 1 => unfold x; clear x
            on_goal 2 => intro _; clear_value x)
         | (refine Keeps.cutF x ?_ ?_
            on_goal 1 => unfold x; clear x
            on_goal 2 => intro hF; clear_value x)
         | (refine Keeps.cutF1 x ?_ ?_
            on_goal 1 => unfold x; clear x
            on_goal 2 => intro hF1; clear_value x)
         | (refine Keeps.cutF0 x ?_ ?_
            on_goal 1 => unfold x; clear x
            on_goal 2 => intro hF0; clear_value x)
         | (refine Keeps.cutFF x ?_ ?_
            on_goal 1 => unfold x; clear x
            on_goal 2 => intro hFF; clear_value x)
         | clear_value x)
    | with_reducible apply hF
    | with_reducible apply hF1
    | with_reducible apply hF0
    | with_reducible apply hFF
    | intro _
    | with_reducible apply Keeps.ite_
    | (with_reducible refine Keeps.foldl (fun _ _ _ => ?_) ?_)
    | (with_reducible refine Keeps.foldl2 (fun _ _ _ => ?_) ?_)
    | (fail_if_no_progress with_reducible apply Keeps.upd)
    | dsimp -zeta only []
    | with_reducible refine Keeps.ofPair (by with_reducible assumption) ?_
    | split
    | apply Keeps.ite_

theorem houseCmd_keeps {s0 s} {a0} (h : Keeps s0 s) : Keeps s0 (houseCmd a0 s) := by
  unfold houseCmd
  repeat' first
    | with_reducible assumption
    | with_reducible apply drew_keeps
    | with_reducible apply toHouse_keeps
    | (extract_lets +onlyGivenNames x
       first
         | (refine Keeps.cut x ?_ ?_
            on_goal 1 => unfold x; clear x
            on_goal 2 => intro _; clear_value x)
         | (refine Keeps.cut2 x ?_ ?_
            on_goal 1 => unfold x; clear x
            on_goal 2 => intro _; clear_value x)
         | (refine Keeps.cutF x ?_ ?_
            on_goal 1 => unfold x; clear x
            on_goal 2 => intro hF; clear_value x)
         | (refine Keeps.cutF1 x ?_ ?_
            on_goal 1 => unfold x; clear x
            on_goal 2 => intro hF1; clear_value x)
         | (refine Keeps.cutF0 x ?_ ?_
            on_goal 1 => unfold x; clear x
            on_goal 2 => intro hF0; clear_value x)
         | (refine Keeps.cutFF x ?_ ?_
            on_goal 1 => unfold x; clear x
            on_goal 2 => intro hFF; clear_value x)
         | clear_value x)
    | with_reducible apply hF
    | with_reducible apply hF1
    | with_reducible apply hF0
    | with_reducible apply hFF
    | intro _
    | with_reducible apply Keeps.ite_
    | (with_reducible refine Keeps.foldl (fun _ _ _ => ?_) ?_)
    | (with_reducible refine Keeps.foldl2 (fun _ _ _ => ?_) ?_)
    | (fail_if_no_progress with_reducible apply Keeps.upd)
    | dsimp -zeta only []
    | with_reducible refine Keeps.ofPair (by with_reducible assumption) ?_
    | split
    | apply Keeps.ite_

theorem houseNow_keeps {s0 s} {a0} (h : Keeps s0 s) : Keeps s0 (houseNow a0 s) := by
  unfold houseNow
  repeat' first
    | with_reducible assumption
    | with_reducible apply onCmd_keeps
    | with_reducible apply houseCmd_keeps
    | (extract_lets +onlyGivenNames x
       first
         | (refine Keeps.cut x ?_ ?_
            on_goal 1 => unfold x; clear x
            on_goal 2 => intro _; clear_value x)
         | (refine Keeps.cut2 x ?_ ?_
            on_goal 1 => unfold x; clear x
            on_goal 2 => intro _; clear_value x)
         | (refine Keeps.cutF x ?_ ?_
            on_goal 1 => unfold x; clear x
            on_goal 2 => intro hF; clear_value x)
         | (refine Keeps.cutF1 x ?_ ?_
            on_goal 1 => unfold x; clear x
            on_goal 2 => intro hF1; clear_value x)
         | (refine Keeps.cutF0 x ?_ ?_
            on_goal 1 => unfold x; clear x
            on_goal 2 => intro hF0; clear_value x)
         | (refine Keeps.cutFF x ?_ ?_
            on_goal 1 => unfold x; clear x
            on_goal 2 => intro hFF; clear_value x)
         | clear_value x)
    | with_reducible apply hF
    | with_reducible apply hF1
    | with_reducible apply hF0
    | with_reducible apply hFF
    | intro _
    | with_reducible apply Keeps.ite_
    | (with_reducible refine Keeps.foldl (fun _ _ _ => ?_) ?_)
    | (with_reducible refine Keeps.foldl2 (fun _ _ _ => ?_) ?_)
    | (fail_if_no_progress with_reducible apply Keeps.upd)
    | dsimp -zeta only []
    | with_reducible refine Keeps.ofPair (by with_reducible assumption) ?_
    | split
    | apply Keeps.ite_

theorem cutAll_keeps {s0 s} (h : Keeps s0 s) : Keeps s0 (cutAll s) := by
  unfold cutAll
  repeat' first
    | with_reducible assumption
    | with_reducible apply cutCmd_keeps
    | with_reducible apply drew_keeps
    | with_reducible apply toHouse_keeps
    | (extract_lets +onlyGivenNames x
       first
         | (refine Keeps.cut x ?_ ?_
            on_goal 1 => unfold x; clear x
            on_goal 2 => intro _; clear_value x)
         | (refine Keeps.cut2 x ?_ ?_
            on_goal 1 => unfold x; clear x
            on_goal 2 => intro _; clear_value x)
         | (refine Keeps.cutF x ?_ ?_
            on_goal 1 => unfold x; clear x
            on_goal 2 => intro hF; clear_value x)
         | (refine Keeps.cutF1 x ?_ ?_
            on_goal 1 => unfold x; clear x
            on_goal 2 => intro hF1; clear_value x)
         | (refine Keeps.cutF0 x ?_ ?_
            on_goal 1 => unfold x; clear x
            on_goal 2 => intro hF0; clear_value x)
         | (refine Keeps.cutFF x ?_ ?_
            on_goal 1 => unfold x; clear x
            on_goal 2 => intro hFF; clear_value x)
         | clear_value x)
    | with_reducible apply hF
    | with_reducible apply hF1
    | with_reducible apply hF0
    | with_reducible apply hFF
    | intro _
    | with_reducible apply Keeps.ite_
    | (with_reducible refine Keeps.foldl (fun _ _ _ => ?_) ?_)
    | (with_reducible refine Keeps.foldl2 (fun _ _ _ => ?_) ?_)
    | (fail_if_no_progress with_reducible apply Keeps.upd)
    | dsimp -zeta only []
    | with_reducible refine Keeps.ofPair (by with_reducible assumption) ?_
    | split
    | apply Keeps.ite_

theorem takeCut_keeps {s0 s} (h : Keeps s0 s) : Keeps s0 (takeCut s) := by
  unfold takeCut
  repeat' first
    | with_reducible assumption
    | with_reducible apply cutAll_keeps
    | (extract_lets +onlyGivenNames x
       first
         | (refine Keeps.cut x ?_ ?_
            on_goal 1 => unfold x; clear x
            on_goal 2 => intro _; clear_value x)
         | (refine Keeps.cut2 x ?_ ?_
            on_goal 1 => unfold x; clear x
            on_goal 2 => intro _; clear_value x)
         | (refine Keeps.cutF x ?_ ?_
            on_goal 1 => unfold x; clear x
            on_goal 2 => intro hF; clear_value x)
         | (refine Keeps.cutF1 x ?_ ?_
            on_goal 1 => unfold x; clear x
            on_goal 2 => intro hF1; clear_value x)
         | (refine Keeps.cutF0 x ?_ ?_
            on_goal 1 => unfold x; clear x
            on_goal 2 => intro hF0; clear_value x)
         | (refine Keeps.cutFF x ?_ ?_
            on_goal 1 => unfold x; clear x
            on_goal 2 => intro hFF; clear_value x)
         | clear_value x)
    | with_reducible apply hF
    | with_reducible apply hF1
    | with_reducible apply hF0
    | with_reducible apply hFF
    | intro _
    | with_reducible apply Keeps.ite_
    | (with_reducible refine Keeps.foldl (fun _ _ _ => ?_) ?_)
    | (with_reducible refine Keeps.foldl2 (fun _ _ _ => ?_) ?_)
    | (fail_if_no_progress with_reducible apply Keeps.upd)
    | dsimp -zeta only []
    | with_reducible refine Keeps.ofPair (by with_reducible assumption) ?_
    | split
    | apply Keeps.ite_

theorem undoCut_keeps {s0 s} (h : Keeps s0 s) : Keeps s0 (undoCut s) := by
  unfold undoCut
  repeat' first
    | with_reducible assumption
    | (extract_lets +onlyGivenNames x
       first
         | (refine Keeps.cut x ?_ ?_
            on_goal 1 => unfold x; clear x
            on_goal 2 => intro _; clear_value x)
         | (refine Keeps.cut2 x ?_ ?_
            on_goal 1 => unfold x; clear x
            on_goal 2 => intro _; clear_value x)
         | (refine Keeps.cutF x ?_ ?_
            on_goal 1 => unfold x; clear x
            on_goal 2 => intro hF; clear_value x)
         | (refine Keeps.cutF1 x ?_ ?_
            on_goal 1 => unfold x; clear x
            on_goal 2 => intro hF1; clear_value x)
         | (refine Keeps.cutF0 x ?_ ?_
            on_goal 1 => unfold x; clear x
            on_goal 2 => intro hF0; clear_value x)
         | (refine Keeps.cutFF x ?_ ?_
            on_goal 1 => unfold x; clear x
            on_goal 2 => intro hFF; clear_value x)
         | clear_value x)
    | with_reducible apply hF
    | with_reducible apply hF1
    | with_reducible apply hF0
    | with_reducible apply hFF
    | intro _
    | with_reducible apply Keeps.ite_
    | (with_reducible refine Keeps.foldl (fun _ _ _ => ?_) ?_)
    | (with_reducible refine Keeps.foldl2 (fun _ _ _ => ?_) ?_)
    | (fail_if_no_progress with_reducible apply Keeps.upd)
    | dsimp -zeta only []
    | with_reducible refine Keeps.ofPair (by with_reducible assumption) ?_
    | split
    | apply Keeps.ite_

theorem leaveCut_keeps {s0 s} {a0} (h : Keeps s0 s) : Keeps s0 (leaveCut a0 s) := by
  unfold leaveCut
  repeat' first
    | with_reducible assumption
    | (extract_lets +onlyGivenNames x
       first
         | (refine Keeps.cut x ?_ ?_
            on_goal 1 => unfold x; clear x
            on_goal 2 => intro _; clear_value x)
         | (refine Keeps.cut2 x ?_ ?_
            on_goal 1 => unfold x; clear x
            on_goal 2 => intro _; clear_value x)
         | (refine Keeps.cutF x ?_ ?_
            on_goal 1 => unfold x; clear x
            on_goal 2 => intro hF; clear_value x)
         | (refine Keeps.cutF1 x ?_ ?_
            on_goal 1 => unfold x; clear x
            on_goal 2 => intro hF1; clear_value x)
         | (refine Keeps.cutF0 x ?_ ?_
            on_goal 1 => unfold x; clear x
            on_goal 2 => intro hF0; clear_value x)
         | (refine Keeps.cutFF x ?_ ?_
            on_goal 1 => unfold x; clear x
            on_goal 2 => intro hFF; clear_value x)
         | clear_value x)
    | with_reducible apply hF
    | with_reducible apply hF1
    | with_reducible apply hF0
    | with_reducible apply hFF
    | intro _
    | with_reducible apply Keeps.ite_
    | (with_reducible refine Keeps.foldl (fun _ _ _ => ?_) ?_)
    | (with_reducible refine Keeps.foldl2 (fun _ _ _ => ?_) ?_)
    | (fail_if_no_progress with_reducible apply Keeps.upd)
    | dsimp -zeta only []
    | with_reducible refine Keeps.ofPair (by with_reducible assumption) ?_
    | split
    | apply Keeps.ite_

end Sys2Proof.Machine
end

