-- ==== Sys2Proof/Laws/KeepsQos.lean ====
section
/-!
SUPPORT. Sys2Proof/Laws/KeepsQos.lean: what the operations of Machine/Qos.lean keep (`Keeps`).
-/
set_option linter.all false
namespace Sys2Proof.Machine

theorem charge_keeps {s0 s} {a0 a1 a2} (h : Keeps s0 s) : Keeps s0 (charge a0 a1 a2 s) := by
  unfold charge
  repeat' first
    | with_reducible assumption
    | (extract_lets +onlyGivenNames x
       first
         | (refine Keeps.cut x ?_ ?_
            on_goal 1 => unfold x; clear x
            on_goal 2 => intro _; clear_value x)
         | (refine Keeps.cutF x ?_ ?_
            on_goal 1 => unfold x; clear x
            on_goal 2 => intro hF; clear_value x)
         | (refine Keeps.cutF1 x ?_ ?_
            on_goal 1 => unfold x; clear x
            on_goal 2 => intro hF1; clear_value x)
         | (refine Keeps.cutF0 x ?_ ?_
            on_goal 1 => unfold x; clear x
            on_goal 2 => intro hF0; clear_value x)
         | (refine Keeps.cutFF x ?_ ?_
            on_goal 1 => unfold x; clear x
            on_goal 2 => intro hFF; clear_value x)
         | clear_value x)
    | with_reducible apply hF
    | with_reducible apply hF1
    | with_reducible apply hF0
    | with_reducible apply hFF
    | intro _
    | (fail_if_no_progress with_reducible apply Keeps.upd)
    | dsimp -zeta only []

theorem setSlots_keeps {s0 s} {a0 a1} (h : Keeps s0 s) : Keeps s0 (setSlots a0 a1 s) := by
  unfold setSlots
  repeat' first
    | with_reducible assumption
    | (extract_lets +onlyGivenNames x
       first
         | (refine Keeps.cut x ?_ ?_
            on_goal 1 => unfold x; clear x
            on_goal 2 => intro _; clear_value x)
         | (refine Keeps.cutF x ?_ ?_
            on_goal 1 => unfold x; clear x
            on_goal 2 => intro hF; clear_value x)
         | (refine Keeps.cutF1 x ?_ ?_
            on_goal 1 => unfold x; clear x
            on_goal 2 => intro hF1; clear_value x)
         | (refine Keeps.cutF0 x ?_ ?_
            on_goal 1 => unfold x; clear x
            on_goal 2 => intro hF0; clear_value x)
         | (refine Keeps.cutFF x ?_ ?_
            on_goal 1 => unfold x; clear x
            on_goal 2 => intro hFF; clear_value x)
         | clear_value x)
    | with_reducible apply hF
    | with_reducible apply hF1
    | with_reducible apply hF0
    | with_reducible apply hFF
    | intro _
    | (fail_if_no_progress with_reducible apply Keeps.upd)
    | dsimp -zeta only []

theorem relabel_keeps {s0 s} {a0 a1 a2 a3} (h : Keeps s0 s) : Keeps s0 (relabel a0 a1 a2 a3 s).2 := by
  unfold relabel
  repeat' first
    | with_reducible assumption
    | with_reducible apply raiseEvent_keeps
    | (extract_lets +onlyGivenNames x
       first
         | (refine Keeps.cut x ?_ ?_
            on_goal 1 => unfold x; clear x
            on_goal 2 => intro _; clear_value x)
         | (refine Keeps.cut2 x ?_ ?_
            on_goal 1 => unfold x; clear x
            on_goal 2 => intro _; clear_value x)
         | clear_value x)
    | intro _
    | with_reducible apply Keeps.ite_
    | (fail_if_no_progress with_reducible apply Keeps.upd)
    | dsimp -zeta only []
    | with_reducible refine Keeps.ofPair (by with_reducible assumption) ?_
    | split
    | apply Keeps.ite_

theorem relevel_keeps {s0 s} (h : Keeps s0 s) : Keeps s0 (relevel s) := by
  unfold relevel
  repeat' first
    | with_reducible assumption
    | (extract_lets +onlyGivenNames x
       first
         | (refine Keeps.cut x ?_ ?_
            on_goal 1 => unfold x; clear x
            on_goal 2 => intro _; clear_value x)
         | (refine Keeps.cut2 x ?_ ?_
            on_goal 1 => unfold x; clear x
            on_goal 2 => intro _; clear_value x)
         | (refine Keeps.cutF x ?_ ?_
            on_goal 1 => unfold x; clear x
            on_goal 2 => intro hF; clear_value x)
         | (refine Keeps.cutF1 x ?_ ?_
            on_goal 1 => unfold x; clear x
            on_goal 2 => intro hF1; clear_value x)
         | (refine Keeps.cutF0 x ?_ ?_
            on_goal 1 => unfold x; clear x
            on_goal 2 => intro hF0; clear_value x)
         | (refine Keeps.cutFF x ?_ ?_
            on_goal 1 => unfold x; clear x
            on_goal 2 => intro hFF; clear_value x)
         | clear_value x)
    | with_reducible apply hF
    | with_reducible apply hF1
    | with_reducible apply hF0
    | with_reducible apply hFF
    | intro _
    | with_reducible apply Keeps.ite_
    | (with_reducible refine Keeps.foldl (fun _ _ _ => ?_) ?_)
    | (with_reducible refine Keeps.foldl2 (fun _ _ _ => ?_) ?_)
    | (fail_if_no_progress with_reducible apply Keeps.upd)
    | dsimp -zeta only []
    | with_reducible refine Keeps.ofPair (by with_reducible assumption) ?_
    | split
    | apply Keeps.ite_

theorem shortfallEvents_keeps {s0 s} {a0 a1} (h : Keeps s0 s) : Keeps s0 (shortfallEvents a0 a1 s) := by
  unfold shortfallEvents
  repeat' first
    | with_reducible assumption
    | with_reducible apply raiseEvent_keeps
    | (extract_lets +onlyGivenNames x
       first
         | (refine Keeps.cut x ?_ ?_
            on_goal 1 => unfold x; clear x
            on_goal 2 => intro _; clear_value x)
         | (refine Keeps.cut2 x ?_ ?_
            on_goal 1 => unfold x; clear x
            on_goal 2 => intro _; clear_value x)
         | (refine Keeps.cutF x ?_ ?_
            on_goal 1 => unfold x; clear x
            on_goal 2 => intro hF; clear_value x)
         | (refine Keeps.cutF1 x ?_ ?_
            on_goal 1 => unfold x; clear x
            on_goal 2 => intro hF1; clear_value x)
         | (refine Keeps.cutF0 x ?_ ?_
            on_goal 1 => unfold x; clear x
            on_goal 2 => intro hF0; clear_value x)
         | (refine Keeps.cutFF x ?_ ?_
            on_goal 1 => unfold x; clear x
            on_goal 2 => intro hFF; clear_value x)
         | clear_value x)
    | with_reducible apply hF
    | with_reducible apply hF1
    | with_reducible apply hF0
    | with_reducible apply hFF
    | intro _
    | with_reducible apply Keeps.ite_
    | (with_reducible refine Keeps.foldl (fun _ _ _ => ?_) ?_)
    | (with_reducible refine Keeps.foldl2 (fun _ _ _ => ?_) ?_)
    | (fail_if_no_progress with_reducible apply Keeps.upd)
    | dsimp -zeta only []
    | with_reducible refine Keeps.ofPair (by with_reducible assumption) ?_
    | split
    | apply Keeps.ite_

theorem qosClose_keeps {s0 s} (h : Keeps s0 s) : Keeps s0 (qosClose s) := by
  unfold qosClose
  repeat' first
    | with_reducible assumption
    | with_reducible apply shortfallEvents_keeps
    | with_reducible apply relevel_keeps
    | (extract_lets +onlyGivenNames x
       first
         | (refine Keeps.cut x ?_ ?_
            on_goal 1 => unfold x; clear x
            on_goal 2 => intro _; clear_value x)
         | (refine Keeps.cut2 x ?_ ?_
            on_goal 1 => unfold x; clear x
            on_goal 2 => intro _; clear_value x)
         | (refine Keeps.cutF x ?_ ?_
            on_goal 1 => unfold x; clear x
            on_goal 2 => intro hF; clear_value x)
         | (refine Keeps.cutF1 x ?_ ?_
            on_goal 1 => unfold x; clear x
            on_goal 2 => intro hF1; clear_value x)
         | (refine Keeps.cutF0 x ?_ ?_
            on_goal 1 => unfold x; clear x
            on_goal 2 => intro hF0; clear_value x)
         | (refine Keeps.cutFF x ?_ ?_
            on_goal 1 => unfold x; clear x
            on_goal 2 => intro hFF; clear_value x)
         | clear_value x)
    | with_reducible apply hF
    | with_reducible apply hF1
    | with_reducible apply hF0
    | with_reducible apply hFF
    | intro _
    | with_reducible apply Keeps.ite_
    | (with_reducible refine Keeps.foldl (fun _ _ _ => ?_) ?_)
    | (with_reducible refine Keeps.foldl2 (fun _ _ _ => ?_) ?_)
    | (fail_if_no_progress with_reducible apply Keeps.upd)
    | dsimp -zeta only []
    | with_reducible refine Keeps.ofPair (by with_reducible assumption) ?_
    | split
    | apply Keeps.ite_

theorem execQosWindowClose_keeps {s} : ∃ t, execQosWindowClose s = .next t ∧ Keeps s t := by
  refine ⟨_, rfl, ?_⟩
  have h := Keeps.same s
  repeat' first
    | with_reducible assumption
    | with_reducible apply qosClose_keeps
    | with_reducible apply Keeps.ite_
    | apply Keeps.ite_

theorem chargeRanges_keeps {s0 s} {a0 a1} (h : Keeps s0 s) : Keeps s0 (chargeRanges a0 a1 s) := by
  unfold chargeRanges
  repeat' first
    | with_reducible assumption
    | with_reducible apply charge_keeps
    | (extract_lets +onlyGivenNames x
       first
         | (refine Keeps.cut x ?_ ?_
            on_goal 1 => unfold x; clear x
            on_goal 2 => intro _; clear_value x)
         | (refine Keeps.cut2 x ?_ ?_
            on_goal 1 => unfold x; clear x
            on_goal 2 => intro _; clear_value x)
         | (refine Keeps.cutF x ?_ ?_
            on_goal 1 => unfold x; clear x
            on_goal 2 => intro hF; clear_value x)
         | (refine Keeps.cutF1 x ?_ ?_
            on_goal 1 => unfold x; clear x
            on_goal 2 => intro hF1; clear_value x)
         | (refine Keeps.cutF0 x ?_ ?_
            on_goal 1 => unfold x; clear x
            on_goal 2 => intro hF0; clear_value x)
         | (refine Keeps.cutFF x ?_ ?_
            on_goal 1 => unfold x; clear x
            on_goal 2 => intro hFF; clear_value x)
         | clear_value x)
    | with_reducible apply hF
    | with_reducible apply hF1
    | with_reducible apply hF0
    | with_reducible apply hFF
    | intro _
    | with_reducible apply Keeps.ite_
    | (with_reducible refine Keeps.foldl (fun _ _ _ => ?_) ?_)
    | (with_reducible refine Keeps.foldl2 (fun _ _ _ => ?_) ?_)
    | (fail_if_no_progress with_reducible apply Keeps.upd)
    | dsimp -zeta only []
    | with_reducible refine Keeps.ofPair (by with_reducible assumption) ?_
    | split
    | apply Keeps.ite_

theorem chargeClass_keeps {s0 s} {a0 a1 a2} (h : Keeps s0 s) : Keeps s0 (chargeClass a0 a1 a2 s) := by
  unfold chargeClass
  repeat' first
    | with_reducible assumption
    | with_reducible apply charge_keeps
    | with_reducible apply chargeRanges_keeps
    | (extract_lets +onlyGivenNames x
       first
         | (refine Keeps.cut x ?_ ?_
            on_goal 1 => unfold x; clear x
            on_goal 2 => intro _; clear_value x)
         | (refine Keeps.cut2 x ?_ ?_
            on_goal 1 => unfold x; clear x
            on_goal 2 => intro _; clear_value x)
         | (refine Keeps.cutF x ?_ ?_
            on_goal 1 => unfold x; clear x
            on_goal 2 => intro hF; clear_value x)
         | (refine Keeps.cutF1 x ?_ ?_
            on_goal 1 => unfold x; clear x
            on_goal 2 => intro hF1; clear_value x)
         | (refine Keeps.cutF0 x ?_ ?_
            on_goal 1 => unfold x; clear x
            on_goal 2 => intro hF0; clear_value x)
         | (refine Keeps.cutFF x ?_ ?_
            on_goal 1 => unfold x; clear x
            on_goal 2 => intro hFF; clear_value x)
         | clear_value x)
    | with_reducible apply hF
    | with_reducible apply hF1
    | with_reducible apply hF0
    | with_reducible apply hFF
    | intro _
    | with_reducible apply Keeps.ite_
    | (with_reducible refine Keeps.foldl (fun _ _ _ => ?_) ?_)
    | (with_reducible refine Keeps.foldl2 (fun _ _ _ => ?_) ?_)
    | (fail_if_no_progress with_reducible apply Keeps.upd)
    | dsimp -zeta only []
    | with_reducible refine Keeps.ofPair (by with_reducible assumption) ?_
    | split
    | apply Keeps.ite_

theorem chargeCmd_keeps {s0 s} {a0 a1 a2} (h : Keeps s0 s) : Keeps s0 (chargeCmd a0 a1 a2 s) := by
  unfold chargeCmd
  repeat' first
    | with_reducible assumption
    | with_reducible apply chargeClass_keeps
    | with_reducible apply memActivity_keeps
    | (extract_lets +onlyGivenNames x
       first
         | (refine Keeps.cut x ?_ ?_
            on_goal 1 => unfold x; clear x
            on_goal 2 => intro _; clear_value x)
         | (refine Keeps.cut2 x ?_ ?_
            on_goal 1 => unfold x; clear x
            on_goal 2 => intro _; clear_value x)
         | (refine Keeps.cutF x ?_ ?_
            on_goal 1 => unfold x; clear x
            on_goal 2 => intro hF; clear_value x)
         | (refine Keeps.cutF1 x ?_ ?_
            on_goal 1 => unfold x; clear x
            on_goal 2 => intro hF1; clear_value x)
         | (refine Keeps.cutF0 x ?_ ?_
            on_goal 1 => unfold x; clear x
            on_goal 2 => intro hF0; clear_value x)
         | (refine Keeps.cutFF x ?_ ?_
            on_goal 1 => unfold x; clear x
            on_goal 2 => intro hFF; clear_value x)
         | clear_value x)
    | with_reducible apply hF
    | with_reducible apply hF1
    | with_reducible apply hF0
    | with_reducible apply hFF
    | intro _
    | with_reducible apply Keeps.ite_
    | (with_reducible refine Keeps.foldl (fun _ _ _ => ?_) ?_)
    | (with_reducible refine Keeps.foldl2 (fun _ _ _ => ?_) ?_)
    | (fail_if_no_progress with_reducible apply Keeps.upd)
    | dsimp -zeta only []
    | with_reducible refine Keeps.ofPair (by with_reducible assumption) ?_
    | split
    | apply Keeps.ite_

end Sys2Proof.Machine
end

