-- ==== Sys2Proof/Laws/KeepsGens.lean ====
section
/-!
SUPPORT. Sys2Proof/Laws/KeepsGens.lean: what the operations of Machine/Gens.lean keep (`Keeps`).
-/
set_option linter.all false
namespace Sys2Proof.Machine

theorem acceptChange_keeps {s0 s} {a0 a1} (h : Keeps s0 s) : Keeps s0 (acceptChange a0 a1 s) := by
  unfold acceptChange
  repeat' first
    | with_reducible assumption
    | with_reducible apply jAdd_keeps
    | (extract_lets +onlyGivenNames x
       first
         | (refine Keeps.cut x ?_ ?_
            on_goal 1 => unfold x; clear x
            on_goal 2 => intro _; clear_value x)
         | clear_value x)
    | (fail_if_no_progress with_reducible apply Keeps.upd)

theorem onHead_keeps {s0 s} {a0} (h : Keeps s0 s) : Keeps s0 (onHead a0 s) := by
  unfold onHead
  repeat' first
    | with_reducible assumption
    | (extract_lets +onlyGivenNames x
       first
         | (refine Keeps.cut x ?_ ?_
            on_goal 1 => unfold x; clear x
            on_goal 2 => intro _; clear_value x)
         | clear_value x)
    | (fail_if_no_progress with_reducible apply Keeps.upd)

theorem stageHead_keeps {s0 s} (h : Keeps s0 s) : Keeps s0 (stageHead s) := by
  unfold stageHead
  repeat' first
    | with_reducible assumption
    | with_reducible apply jAdd_keeps
    | with_reducible apply onHead_keeps
    | (extract_lets +onlyGivenNames x
       first
         | (refine Keeps.cut x ?_ ?_
            on_goal 1 => unfold x; clear x
            on_goal 2 => intro _; clear_value x)
         | clear_value x)
    | intro _
    | with_reducible apply Keeps.ite_
    | (fail_if_no_progress with_reducible apply Keeps.upd)
    | split
    | apply Keeps.ite_

theorem headStepDone_keeps {s0 s} (h : Keeps s0 s) : Keeps s0 (headStepDone s) := by
  unfold headStepDone
  repeat' first
    | with_reducible assumption
    | with_reducible apply stageHead_keeps
    | with_reducible apply onHead_keeps
    | (extract_lets +onlyGivenNames x
       first
         | (refine Keeps.cut x ?_ ?_
            on_goal 1 => unfold x; clear x
            on_goal 2 => intro _; clear_value x)
         | clear_value x)
    | intro _
    | (fail_if_no_progress with_reducible apply Keeps.upd)

theorem decideRollback_keeps {s0 s} {a0} (h : Keeps s0 s) : Keeps s0 (decideRollback a0 s) := by
  unfold decideRollback
  repeat' first
    | with_reducible assumption
    | with_reducible apply jAdd_keeps
    | (extract_lets +onlyGivenNames x
       first
         | (refine Keeps.cut x ?_ ?_
            on_goal 1 => unfold x; clear x
            on_goal 2 => intro _; clear_value x)
         | (refine Keeps.cut2 x ?_ ?_
            on_goal 1 => unfold x; clear x
            on_goal 2 => intro _; clear_value x)
         | (refine Keeps.cutF x ?_ ?_
            on_goal 1 => unfold x; clear x
            on_goal 2 => intro hF; clear_value x)
         | (refine Keeps.cutF1 x ?_ ?_
            on_goal 1 => unfold x; clear x
            on_goal 2 => intro hF1; clear_value x)
         | (refine Keeps.cutF0 x ?_ ?_
            on_goal 1 => unfold x; clear x
            on_goal 2 => intro hF0; clear_value x)
         | (refine Keeps.cutFF x ?_ ?_
            on_goal 1 => unfold x; clear x
            on_goal 2 => intro hFF; clear_value x)
         | clear_value x)
    | with_reducible apply hF
    | with_reducible apply hF1
    | with_reducible apply hF0
    | with_reducible apply hFF
    | intro _
    | with_reducible apply Keeps.ite_
    | (with_reducible refine Keeps.foldl (fun _ _ _ => ?_) ?_)
    | (with_reducible refine Keeps.foldl2 (fun _ _ _ => ?_) ?_)
    | (fail_if_no_progress with_reducible apply Keeps.upd)
    | dsimp -zeta only []
    | with_reducible refine Keeps.ofPair (by with_reducible assumption) ?_
    | split
    | apply Keeps.ite_

theorem freeOld_keeps {s0 s} (h : Keeps s0 s) : Keeps s0 (freeOld s) := by
  unfold freeOld
  repeat' first
    | with_reducible assumption
    | (extract_lets +onlyGivenNames x
       first
         | (refine Keeps.cut x ?_ ?_
            on_goal 1 => unfold x; clear x
            on_goal 2 => intro _; clear_value x)
         | (refine Keeps.cutF x ?_ ?_
            on_goal 1 => unfold x; clear x
            on_goal 2 => intro hF; clear_value x)
         | (refine Keeps.cutF1 x ?_ ?_
            on_goal 1 => unfold x; clear x
            on_goal 2 => intro hF1; clear_value x)
         | (refine Keeps.cutF0 x ?_ ?_
            on_goal 1 => unfold x; clear x
            on_goal 2 => intro hF0; clear_value x)
         | (refine Keeps.cutFF x ?_ ?_
            on_goal 1 => unfold x; clear x
            on_goal 2 => intro hFF; clear_value x)
         | clear_value x)
    | with_reducible apply hF
    | with_reducible apply hF1
    | with_reducible apply hF0
    | with_reducible apply hFF
    | intro _
    | (fail_if_no_progress with_reducible apply Keeps.upd)
    | dsimp -zeta only []

theorem settleOld_keeps {s0 s} (h : Keeps s0 s) : Keeps s0 (settleOld s) := by
  unfold settleOld
  repeat' first
    | with_reducible assumption
    | with_reducible apply freeOld_keeps
    | (extract_lets +onlyGivenNames x
       first
         | (refine Keeps.cut x ?_ ?_
            on_goal 1 => unfold x; clear x
            on_goal 2 => intro _; clear_value x)
         | clear_value x)
    | with_reducible apply Keeps.ite_
    | (fail_if_no_progress with_reducible apply Keeps.upd)
    | split
    | apply Keeps.ite_

theorem retimeHead_keeps {s0 s} (h : Keeps s0 s) : Keeps s0 (retimeHead s) := by
  unfold retimeHead
  repeat' first
    | with_reducible assumption
    | with_reducible apply stageHead_keeps
    | with_reducible apply onHead_keeps
    | (extract_lets +onlyGivenNames x
       first
         | (refine Keeps.cut x ?_ ?_
            on_goal 1 => unfold x; clear x
            on_goal 2 => intro _; clear_value x)
         | (refine Keeps.cut2 x ?_ ?_
            on_goal 1 => unfold x; clear x
            on_goal 2 => intro _; clear_value x)
         | (refine Keeps.cutF x ?_ ?_
            on_goal 1 => unfold x; clear x
            on_goal 2 => intro hF; clear_value x)
         | (refine Keeps.cutF1 x ?_ ?_
            on_goal 1 => unfold x; clear x
            on_goal 2 => intro hF1; clear_value x)
         | (refine Keeps.cutF0 x ?_ ?_
            on_goal 1 => unfold x; clear x
            on_goal 2 => intro hF0; clear_value x)
         | (refine Keeps.cutFF x ?_ ?_
            on_goal 1 => unfold x; clear x
            on_goal 2 => intro hFF; clear_value x)
         | clear_value x)
    | with_reducible apply hF
    | with_reducible apply hF1
    | with_reducible apply hF0
    | with_reducible apply hFF
    | intro _
    | with_reducible apply Keeps.ite_
    | (with_reducible refine Keeps.foldl (fun _ _ _ => ?_) ?_)
    | (with_reducible refine Keeps.foldl2 (fun _ _ _ => ?_) ?_)
    | (fail_if_no_progress with_reducible apply Keeps.upd)
    | dsimp -zeta only []
    | with_reducible refine Keeps.ofPair (by with_reducible assumption) ?_
    | split
    | apply Keeps.ite_

end Sys2Proof.Machine
end

