-- ==== Sys2Proof/Laws/KeepsQueues.lean ====
section
/-!
SUPPORT. Sys2Proof/Laws/KeepsQueues.lean: what the operations of Machine/Queues.lean keep (`Keeps`).
-/
set_option linter.all false
namespace Sys2Proof.Machine

theorem countFunc_keeps {s0 s} {a0 a1 a2} (h : Keeps s0 s) : Keeps s0 (countFunc a0 a1 a2 s) := by
  unfold countFunc
  repeat' first
    | with_reducible assumption
    | with_reducible apply onFunc_keeps
    | (extract_lets +onlyGivenNames x
       first
         | (refine Keeps.cut x ?_ ?_
            on_goal 1 => unfold x; clear x
            on_goal 2 => intro _; clear_value x)
         | clear_value x)
    | intro _
    | (fail_if_no_progress with_reducible apply Keeps.upd)

theorem countPage_keeps {s0 s} {a0} (h : Keeps s0 s) : Keeps s0 (countPage a0 s) := by
  unfold countPage
  repeat' first
    | with_reducible assumption
    | with_reducible apply countIgnored_keeps

theorem dropFetched_keeps {s0 s} {a0} (h : Keeps s0 s) : Keeps s0 (dropFetched a0 s) := by
  unfold dropFetched
  repeat' first
    | with_reducible assumption
    | with_reducible apply onQ_keeps
    | with_reducible apply drew_keeps
    | with_reducible apply toHouse_keeps
    | with_reducible apply countFunc_keeps
    | (extract_lets +onlyGivenNames x
       first
         | (refine Keeps.cut x ?_ ?_
            on_goal 1 => unfold x; clear x
            on_goal 2 => intro _; clear_value x)
         | clear_value x)
    | intro _
    | with_reducible apply Keeps.ite_
    | (fail_if_no_progress with_reducible apply Keeps.upd)
    | apply Keeps.ite_

theorem noteQueueError_keeps {s0 s} {a0 a1} (h : Keeps s0 s) : Keeps s0 (noteQueueError a0 a1 s) := by
  unfold noteQueueError
  repeat' first
    | with_reducible assumption
    | with_reducible apply onQ_keeps
    | (extract_lets +onlyGivenNames x
       first
         | (refine Keeps.cut x ?_ ?_
            on_goal 1 => unfold x; clear x
            on_goal 2 => intro _; clear_value x)
         | clear_value x)
    | intro _
    | with_reducible apply Keeps.ite_
    | (fail_if_no_progress with_reducible apply Keeps.upd)
    | apply Keeps.ite_

theorem queueErrorEvent_keeps {s0 s} {a0 a1} (h : Keeps s0 s) : Keeps s0 (queueErrorEvent a0 a1 s) := by
  unfold queueErrorEvent
  repeat' first
    | with_reducible assumption
    | with_reducible apply raiseEvent_keeps
    | intro _

theorem configError_keeps {s0 s} {a0} (h : Keeps s0 s) : Keeps s0 (configError a0 s) := by
  unfold configError
  repeat' first
    | with_reducible assumption
    | with_reducible apply queueErrorEvent_keeps
    | with_reducible apply noteQueueError_keeps

theorem queueError_keeps {s0 s} {a0 a1} (h : Keeps s0 s) : Keeps s0 (queueError a0 a1 s) := by
  unfold queueError
  repeat' first
    | with_reducible assumption
    | with_reducible apply dropFetched_keeps
    | with_reducible apply noteQueueError_keeps
    | with_reducible apply onQ_keeps
    | with_reducible apply raiseMsix_keeps
    | with_reducible apply queueErrorEvent_keeps
    | (extract_lets +onlyGivenNames x
       first
         | (refine Keeps.cut x ?_ ?_
            on_goal 1 => unfold x; clear x
            on_goal 2 => intro _; clear_value x)
         | clear_value x)
    | intro _
    | with_reducible apply Keeps.ite_
    | (fail_if_no_progress with_reducible apply Keeps.upd)
    | apply Keeps.ite_

theorem queueEnable_keeps {s0 s} {a0 a1} (h : Keeps s0 s) : Keeps s0 (queueEnable a0 a1 s) := by
  unfold queueEnable
  repeat' first
    | with_reducible assumption
    | with_reducible apply onQ_keeps
    | with_reducible apply configError_keeps
    | (extract_lets +onlyGivenNames x
       first
         | (refine Keeps.cut x ?_ ?_
            on_goal 1 => unfold x; clear x
            on_goal 2 => intro _; clear_value x)
         | clear_value x)
    | intro _
    | with_reducible apply Keeps.ite_
    | apply Keeps.ite_

theorem execQueueEnable_keeps {s} {a0 a1} : ∃ t, execQueueEnable a0 a1 s = .next t ∧ Keeps s t := by
  refine ⟨_, rfl, ?_⟩
  have h := Keeps.same s
  repeat' first
    | with_reducible assumption
    | with_reducible apply countPage_keeps
    | with_reducible apply queueEnable_keeps
    | (extract_lets +onlyGivenNames x
       first
         | (refine Keeps.cut x ?_ ?_
            on_goal 1 => unfold x; clear x
            on_goal 2 => intro _; clear_value x)
         | clear_value x)
    | intro _
    | with_reducible apply Keeps.ite_
    | apply Keeps.ite_

theorem queueDisable_keeps {s0 s} {a0 a1} (h : Keeps s0 s) : Keeps s0 (queueDisable a0 a1 s) := by
  unfold queueDisable
  repeat' first
    | with_reducible assumption
    | with_reducible apply countPage_keeps
    | with_reducible apply dropFetched_keeps
    | with_reducible apply onQ_keeps
    | (extract_lets +onlyGivenNames x
       first
         | (refine Keeps.cut x ?_ ?_
            on_goal 1 => unfold x; clear x
            on_goal 2 => intro _; clear_value x)
         | clear_value x)
    | intro _
    | (fail_if_no_progress with_reducible apply Keeps.upd)

theorem execQueueDisable_keeps {s} {a0 a1} : ∃ t, execQueueDisable a0 a1 s = .next t ∧ Keeps s t := by
  refine ⟨_, rfl, ?_⟩
  have h := Keeps.same s
  repeat' first
    | with_reducible assumption
    | with_reducible apply queueDisable_keeps
    | (extract_lets +onlyGivenNames x
       first
         | (refine Keeps.cut x ?_ ?_
            on_goal 1 => unfold x; clear x
            on_goal 2 => intro _; clear_value x)
         | clear_value x)
    | intro _
    | with_reducible apply Keeps.ite_
    | apply Keeps.ite_

theorem tailDoorbell_keeps {s0 s} {a0 a1} (h : Keeps s0 s) : Keeps s0 (tailDoorbell a0 a1 s) := by
  unfold tailDoorbell
  repeat' first
    | with_reducible assumption
    | with_reducible apply countPage_keeps
    | with_reducible apply queueError_keeps
    | with_reducible apply onQ_keeps
    | (extract_lets +onlyGivenNames x
       first
         | (refine Keeps.cut x ?_ ?_
            on_goal 1 => unfold x; clear x
            on_goal 2 => intro _; clear_value x)
         | clear_value x)
    | intro _
    | with_reducible apply Keeps.ite_
    | (fail_if_no_progress with_reducible apply Keeps.upd)
    | apply Keeps.ite_

theorem execSqTailDoorbell_keeps {s} {a0 a1} : ∃ t, execSqTailDoorbell a0 a1 s = .next t ∧ Keeps s t := by
  refine ⟨_, rfl, ?_⟩
  have h := Keeps.same s
  repeat' first
    | with_reducible assumption
    | with_reducible apply tailDoorbell_keeps
    | intro _
    | with_reducible apply Keeps.ite_
    | apply Keeps.ite_

theorem headDoorbell_keeps {s0 s} {a0 a1} (h : Keeps s0 s) : Keeps s0 (headDoorbell a0 a1 s) := by
  unfold headDoorbell
  repeat' first
    | with_reducible assumption
    | with_reducible apply countPage_keeps
    | with_reducible apply queueError_keeps
    | with_reducible apply onQ_keeps
    | (extract_lets +onlyGivenNames x
       first
         | (refine Keeps.cut x ?_ ?_
            on_goal 1 => unfold x; clear x
            on_goal 2 => intro _; clear_value x)
         | clear_value x)
    | intro _
    | with_reducible apply Keeps.ite_
    | (fail_if_no_progress with_reducible apply Keeps.upd)
    | apply Keeps.ite_

theorem execCqHeadDoorbell_keeps {s} {a0 a1} : ∃ t, execCqHeadDoorbell a0 a1 s = .next t ∧ Keeps s t := by
  refine ⟨_, rfl, ?_⟩
  have h := Keeps.same s
  repeat' first
    | with_reducible assumption
    | with_reducible apply headDoorbell_keeps
    | intro _
    | with_reducible apply Keeps.ite_
    | apply Keeps.ite_

theorem endCmd_keeps {s0 s} {a0 a1 a2} (h : Keeps s0 s) : Keeps s0 (endCmd a0 a1 a2 s) := by
  unfold endCmd
  repeat' first
    | with_reducible assumption
    | with_reducible apply onCmd_keeps
    | (extract_lets +onlyGivenNames x
       first
         | (refine Keeps.cut x ?_ ?_
            on_goal 1 => unfold x; clear x
            on_goal 2 => intro _; clear_value x)
         | clear_value x)
    | intro _
    | with_reducible apply Keeps.ite_
    | (fail_if_no_progress with_reducible apply Keeps.upd)
    | apply Keeps.ite_

theorem noteLoss_keeps {s0 s} {a0} (h : Keeps s0 s) : Keeps s0 (noteLoss a0 s) := by
  unfold noteLoss
  repeat' first
    | with_reducible assumption
    | (extract_lets +onlyGivenNames x
       first
         | (refine Keeps.cut x ?_ ?_
            on_goal 1 => unfold x; clear x
            on_goal 2 => intro _; clear_value x)
         | (refine Keeps.cutF x ?_ ?_
            on_goal 1 => unfold x; clear x
            on_goal 2 => intro hF; clear_value x)
         | (refine Keeps.cutF1 x ?_ ?_
            on_goal 1 => unfold x; clear x
            on_goal 2 => intro hF1; clear_value x)
         | (refine Keeps.cutF0 x ?_ ?_
            on_goal 1 => unfold x; clear x
            on_goal 2 => intro hF0; clear_value x)
         | (refine Keeps.cutFF x ?_ ?_
            on_goal 1 => unfold x; clear x
            on_goal 2 => intro hFF; clear_value x)
         | clear_value x)
    | with_reducible apply hF
    | with_reducible apply hF1
    | with_reducible apply hF0
    | with_reducible apply hFF
    | intro _
    | with_reducible apply Keeps.ite_
    | (fail_if_no_progress with_reducible apply Keeps.upd)
    | dsimp -zeta only []
    | apply Keeps.ite_

theorem endLoss_keeps {s0 s} {a0 a1 a2} (h : Keeps s0 s) : Keeps s0 (endLoss a0 a1 a2 s) := by
  unfold endLoss
  repeat' first
    | with_reducible assumption
    | with_reducible apply endCmd_keeps
    | with_reducible apply noteLoss_keeps

theorem commandGone_keeps {s0 s} {a0} (h : Keeps s0 s) : Keeps s0 (commandGone a0 s) := by
  unfold commandGone
  repeat' first
    | with_reducible assumption
    | (extract_lets +onlyGivenNames x
       first
         | (refine Keeps.cut x ?_ ?_
            on_goal 1 => unfold x; clear x
            on_goal 2 => intro _; clear_value x)
         | clear_value x)
    | (fail_if_no_progress with_reducible apply Keeps.upd)

theorem badOpcode_keeps {s0 s} {a0 a1} (h : Keeps s0 s) : Keeps s0 (badOpcode a0 a1 s) := by
  unfold badOpcode
  repeat' first
    | with_reducible assumption
    | with_reducible apply endCmd_keeps

theorem stamp_keeps {s0 s} {a0 a1 a2} (h : Keeps s0 s) : Keeps s0 (stamp a0 a1 a2 s) := by
  unfold stamp
  repeat' first
    | with_reducible assumption
    | with_reducible apply drew_keeps
    | with_reducible apply onCmd_keeps
    | (extract_lets +onlyGivenNames x
       first
         | (refine Keeps.cut x ?_ ?_
            on_goal 1 => unfold x; clear x
            on_goal 2 => intro _; clear_value x)
         | clear_value x)
    | intro _
    | with_reducible apply Keeps.ite_
    | (fail_if_no_progress with_reducible apply Keeps.upd)
    | split
    | apply Keeps.ite_

theorem holdFetched_keeps {s0 s} {a0 a1} (h : Keeps s0 s) : Keeps s0 (holdFetched a0 a1 s) := by
  unfold holdFetched
  repeat' first
    | with_reducible assumption
    | (extract_lets +onlyGivenNames x
       first
         | (refine Keeps.cut x ?_ ?_
            on_goal 1 => unfold x; clear x
            on_goal 2 => intro _; clear_value x)
         | clear_value x)
    | (fail_if_no_progress with_reducible apply Keeps.upd)

theorem fetchCommand_keeps {s0 s} {a0 a1} (h : Keeps s0 s) : Keeps s0 (fetchCommand a0 a1 s) := by
  unfold fetchCommand
  repeat' first
    | with_reducible assumption
    | with_reducible apply onQ_keeps
    | with_reducible apply onBrg_keeps
    | with_reducible apply tally_keeps
    | with_reducible apply hostAsk_keeps
    | with_reducible apply holdFetched_keeps
    | (extract_lets +onlyGivenNames x
       first
         | (refine Keeps.cut x ?_ ?_
            on_goal 1 => unfold x; clear x
            on_goal 2 => intro _; clear_value x)
         | (refine Keeps.cut2 x ?_ ?_
            on_goal 1 => unfold x; clear x
            on_goal 2 => intro _; clear_value x)
         | (refine Keeps.cutF x ?_ ?_
            on_goal 1 => unfold x; clear x
            on_goal 2 => intro hF; clear_value x)
         | (refine Keeps.cutF1 x ?_ ?_
            on_goal 1 => unfold x; clear x
            on_goal 2 => intro hF1; clear_value x)
         | (refine Keeps.cutF0 x ?_ ?_
            on_goal 1 => unfold x; clear x
            on_goal 2 => intro hF0; clear_value x)
         | (refine Keeps.cutFF x ?_ ?_
            on_goal 1 => unfold x; clear x
            on_goal 2 => intro hFF; clear_value x)
         | clear_value x)
    | with_reducible apply hF
    | with_reducible apply hF1
    | with_reducible apply hF0
    | with_reducible apply hFF
    | intro _
    | with_reducible apply Keeps.ite_
    | (with_reducible refine Keeps.foldl (fun _ _ _ => ?_) ?_)
    | (with_reducible refine Keeps.foldl2 (fun _ _ _ => ?_) ?_)
    | (fail_if_no_progress with_reducible apply Keeps.upd)
    | dsimp -zeta only []
    | with_reducible refine Keeps.ofPair (by with_reducible assumption) ?_
    | split
    | apply Keeps.ite_

theorem noteReply_keeps {s0 s} {a0 a1} (h : Keeps s0 s) : Keeps s0 (noteReply a0 a1 s) := by
  unfold noteReply
  repeat' first
    | with_reducible assumption
    | with_reducible apply aerError_keeps
    | (extract_lets +onlyGivenNames x
       first
         | (refine Keeps.cut x ?_ ?_
            on_goal 1 => unfold x; clear x
            on_goal 2 => intro _; clear_value x)
         | (refine Keeps.cut2 x ?_ ?_
            on_goal 1 => unfold x; clear x
            on_goal 2 => intro _; clear_value x)
         | (refine Keeps.cutF x ?_ ?_
            on_goal 1 => unfold x; clear x
            on_goal 2 => intro hF; clear_value x)
         | (refine Keeps.cutF1 x ?_ ?_
            on_goal 1 => unfold x; clear x
            on_goal 2 => intro hF1; clear_value x)
         | (refine Keeps.cutF0 x ?_ ?_
            on_goal 1 => unfold x; clear x
            on_goal 2 => intro hF0; clear_value x)
         | (refine Keeps.cutFF x ?_ ?_
            on_goal 1 => unfold x; clear x
            on_goal 2 => intro hFF; clear_value x)
         | clear_value x)
    | with_reducible apply hF
    | with_reducible apply hF1
    | with_reducible apply hF0
    | with_reducible apply hFF
    | intro _
    | with_reducible apply Keeps.ite_
    | (with_reducible refine Keeps.foldl (fun _ _ _ => ?_) ?_)
    | (with_reducible refine Keeps.foldl2 (fun _ _ _ => ?_) ?_)
    | (fail_if_no_progress with_reducible apply Keeps.upd)
    | dsimp -zeta only []
    | with_reducible refine Keeps.ofPair (by with_reducible assumption) ?_
    | split
    | apply Keeps.ite_

theorem slotFetch_keeps {s0 s} {a0 a1} (h : Keeps s0 s) : Keeps s0 (slotFetch a0 a1 s) := by
  unfold slotFetch
  repeat' first
    | with_reducible assumption
    | with_reducible apply queueError_keeps
    | with_reducible apply fetchCommand_keeps
    | (extract_lets +onlyGivenNames x
       first
         | (refine Keeps.cut x ?_ ?_
            on_goal 1 => unfold x; clear x
            on_goal 2 => intro _; clear_value x)
         | clear_value x)
    | with_reducible apply Keeps.ite_
    | (fail_if_no_progress with_reducible apply Keeps.upd)
    | split
    | apply Keeps.ite_

theorem execSlotFetch_keeps {s} {a0 a1} : ∃ t, execSlotFetch a0 a1 s = .next t ∧ Keeps s t := by
  refine ⟨_, rfl, ?_⟩
  have h := Keeps.same s
  repeat' first
    | with_reducible assumption
    | with_reducible apply slotFetch_keeps
    | with_reducible apply noteReply_keeps
    | (extract_lets +onlyGivenNames x
       first
         | (refine Keeps.cut x ?_ ?_
            on_goal 1 => unfold x; clear x
            on_goal 2 => intro _; clear_value x)
         | (refine Keeps.cut2 x ?_ ?_
            on_goal 1 => unfold x; clear x
            on_goal 2 => intro _; clear_value x)
         | (refine Keeps.cutF x ?_ ?_
            on_goal 1 => unfold x; clear x
            on_goal 2 => intro hF; clear_value x)
         | (refine Keeps.cutF1 x ?_ ?_
            on_goal 1 => unfold x; clear x
            on_goal 2 => intro hF1; clear_value x)
         | (refine Keeps.cutF0 x ?_ ?_
            on_goal 1 => unfold x; clear x
            on_goal 2 => intro hF0; clear_value x)
         | (refine Keeps.cutFF x ?_ ?_
            on_goal 1 => unfold x; clear x
            on_goal 2 => intro hFF; clear_value x)
         | clear_value x)
    | with_reducible apply hF
    | with_reducible apply hF1
    | with_reducible apply hF0
    | with_reducible apply hFF
    | intro _
    | with_reducible apply Keeps.ite_
    | (with_reducible refine Keeps.foldl (fun _ _ _ => ?_) ?_)
    | (with_reducible refine Keeps.foldl2 (fun _ _ _ => ?_) ?_)
    | (fail_if_no_progress with_reducible apply Keeps.upd)
    | dsimp -zeta only []
    | with_reducible refine Keeps.ofPair (by with_reducible assumption) ?_
    | split
    | apply Keeps.ite_

theorem pipDraw_keeps {s0 s} {a0} (h : Keeps s0 s) : Keeps s0 (pipDraw s a0).2 := by
  unfold pipDraw
  repeat' first
    | with_reducible assumption
    | with_reducible apply drew_keeps
    | (extract_lets +onlyGivenNames x
       first
         | (refine Keeps.cut x ?_ ?_
            on_goal 1 => unfold x; clear x
            on_goal 2 => intro _; clear_value x)
         | (refine Keeps.cut2 x ?_ ?_
            on_goal 1 => unfold x; clear x
            on_goal 2 => intro _; clear_value x)
         | clear_value x)
    | intro _
    | with_reducible apply Keeps.ite_
    | (fail_if_no_progress with_reducible apply Keeps.upd)
    | dsimp -zeta only []
    | with_reducible refine Keeps.ofPair (by with_reducible assumption) ?_
    | split
    | apply Keeps.ite_

theorem admitHead_keeps {s0 s} {a0} (h : Keeps s0 s) : Keeps s0 (admitHead a0 s) := by
  unfold admitHead
  repeat' first
    | with_reducible assumption
    | with_reducible apply relabel_keeps
    | with_reducible apply pipDraw_keeps
    | with_reducible apply onQ_keeps
    | with_reducible apply onBrg_keeps
    | with_reducible apply tally_keeps
    | with_reducible apply busActivity_keeps
    | with_reducible apply activity_keeps
    | with_reducible apply stamp_keeps
    | with_reducible apply countFunc_keeps
    | with_reducible apply setSlots_keeps
    | (extract_lets +onlyGivenNames x
       first
         | (refine Keeps.cut x ?_ ?_
            on_goal 1 => unfold x; clear x
            on_goal 2 => intro _; clear_value x)
         | (refine Keeps.cut2 x ?_ ?_
            on_goal 1 => unfold x; clear x
            on_goal 2 => intro _; clear_value x)
         | (refine Keeps.cutF x ?_ ?_
            on_goal 1 => unfold x; clear x
            on_goal 2 => intro hF; clear_value x)
         | (refine Keeps.cutF1 x ?_ ?_
            on_goal 1 => unfold x; clear x
            on_goal 2 => intro hF1; clear_value x)
         | (refine Keeps.cutF0 x ?_ ?_
            on_goal 1 => unfold x; clear x
            on_goal 2 => intro hF0; clear_value x)
         | (refine Keeps.cutFF x ?_ ?_
            on_goal 1 => unfold x; clear x
            on_goal 2 => intro hFF; clear_value x)
         | clear_value x)
    | with_reducible apply hF
    | with_reducible apply hF1
    | with_reducible apply hF0
    | with_reducible apply hFF
    | intro _
    | with_reducible apply Keeps.ite_
    | (with_reducible refine Keeps.foldl (fun _ _ _ => ?_) ?_)
    | (with_reducible refine Keeps.foldl2 (fun _ _ _ => ?_) ?_)
    | (fail_if_no_progress with_reducible apply Keeps.upd)
    | dsimp -zeta only []
    | with_reducible refine Keeps.ofPair (by with_reducible assumption) ?_
    | split
    | apply Keeps.ite_

theorem admitCommand_keeps {p : Nat → Bool} {q : Nat} {g : Nat → State → State} {s0 s}
    (hg : ∀ u s, Keeps s0 s → Keeps s0 (g u s)) (h : Keeps s0 s) : Keeps s0 (admitCommand p q g s) := by
  have h1 : Keeps s0 (admitHead q s) := admitHead_keeps h
  unfold admitCommand
  refine Keeps.ite_ ?_ h
  dsimp only
  split
  · exact h1
  · refine Keeps.ite_ (stamp_keeps (endCmd_keeps h1)) (Keeps.ite_ (stamp_keeps (endCmd_keeps h1)) (hg _ _ h1))

theorem execNop_keeps {s} {a0} : ∃ t, execNop a0 s = .next t ∧ Keeps s t := by
  refine ⟨_, rfl, ?_⟩
  have h := Keeps.same s
  repeat' first
    | with_reducible assumption
    | with_reducible apply admitCommand_keeps
    | with_reducible apply stamp_keeps
    | with_reducible apply endCmd_keeps
    | intro _

theorem execUnknownOpcode_keeps {s} {a0} : ∃ t, execUnknownOpcode a0 s = .next t ∧ Keeps s t := by
  refine ⟨_, rfl, ?_⟩
  have h := Keeps.same s
  repeat' first
    | with_reducible assumption
    | with_reducible apply admitCommand_keeps
    | intro _

theorem startFence_keeps {s0 s} {a0} (h : Keeps s0 s) : Keeps s0 (startFence a0 s) := by
  unfold startFence
  repeat' first
    | with_reducible assumption
    | with_reducible apply stamp_keeps
    | with_reducible apply badOpcode_keeps
    | with_reducible apply endCmd_keeps
    | with_reducible apply onCmd_keeps
    | (extract_lets +onlyGivenNames x
       first
         | (refine Keeps.cut x ?_ ?_
            on_goal 1 => unfold x; clear x
            on_goal 2 => intro _; clear_value x)
         | clear_value x)
    | intro _
    | with_reducible apply Keeps.ite_
    | (fail_if_no_progress with_reducible apply Keeps.upd)
    | split
    | apply Keeps.ite_

theorem execFence_keeps {s} {a0} : ∃ t, execFence a0 s = .next t ∧ Keeps s t := by
  refine ⟨_, rfl, ?_⟩
  have h := Keeps.same s
  repeat' first
    | with_reducible assumption
    | with_reducible apply admitCommand_keeps
    | with_reducible apply startFence_keeps
    | intro _

theorem releaseFences_keeps {s0 s} {a0} (h : Keeps s0 s) : Keeps s0 (releaseFences a0 s) := by
  unfold releaseFences
  repeat' first
    | with_reducible assumption
    | (extract_lets +onlyGivenNames x
       first
         | (refine Keeps.cut x ?_ ?_
            on_goal 1 => unfold x; clear x
            on_goal 2 => intro _; clear_value x)
         | clear_value x)
    | intro _
    | with_reducible apply Keeps.ite_
    | (fail_if_no_progress with_reducible apply Keeps.upd)
    | apply Keeps.ite_

theorem askHost_keeps {s0 s} {a0 a1} (h : Keeps s0 s) : Keeps s0 (askHost a0 a1 s) := by
  unfold askHost
  repeat' first
    | with_reducible assumption
    | with_reducible apply tally_keeps
    | with_reducible apply hostAsk_keeps
    | with_reducible apply onCmd_keeps
    | (extract_lets +onlyGivenNames x
       first
         | (refine Keeps.cut x ?_ ?_
            on_goal 1 => unfold x; clear x
            on_goal 2 => intro _; clear_value x)
         | (refine Keeps.cut2 x ?_ ?_
            on_goal 1 => unfold x; clear x
            on_goal 2 => intro _; clear_value x)
         | (refine Keeps.cutF x ?_ ?_
            on_goal 1 => unfold x; clear x
            on_goal 2 => intro hF; clear_value x)
         | (refine Keeps.cutF1 x ?_ ?_
            on_goal 1 => unfold x; clear x
            on_goal 2 => intro hF1; clear_value x)
         | (refine Keeps.cutF0 x ?_ ?_
            on_goal 1 => unfold x; clear x
            on_goal 2 => intro hF0; clear_value x)
         | (refine Keeps.cutFF x ?_ ?_
            on_goal 1 => unfold x; clear x
            on_goal 2 => intro hFF; clear_value x)
         | clear_value x)
    | with_reducible apply hF
    | with_reducible apply hF1
    | with_reducible apply hF0
    | with_reducible apply hFF
    | intro _
    | with_reducible apply Keeps.ite_
    | (with_reducible refine Keeps.foldl (fun _ _ _ => ?_) ?_)
    | (with_reducible refine Keeps.foldl2 (fun _ _ _ => ?_) ?_)
    | (fail_if_no_progress with_reducible apply Keeps.upd)
    | dsimp -zeta only []
    | with_reducible refine Keeps.ofPair (by with_reducible assumption) ?_
    | split
    | apply Keeps.ite_

end Sys2Proof.Machine
end

