-- ==== Sys2Proof/Laws/KeepsBuffers.lean ====
section
/-!
SUPPORT. Sys2Proof/Laws/KeepsBuffers.lean: what the operations of Machine/Buffers.lean keep (`Keeps`).
-/
set_option linter.all false
namespace Sys2Proof.Machine

theorem discardLines_keeps {s0 s} {a0 a1 a2} (h : Keeps s0 s) : Keeps s0 (discardLines a0 a1 a2 s) := by
  unfold discardLines
  repeat' first
    | with_reducible assumption
    | with_reducible apply onBrg_keeps
    | with_reducible apply onFunc_keeps
    | (extract_lets +onlyGivenNames x
       first
         | (refine Keeps.cut x ?_ ?_
            on_goal 1 => unfold x; clear x
            on_goal 2 => intro _; clear_value x)
         | (refine Keeps.cutF x ?_ ?_
            on_goal 1 => unfold x; clear x
            on_goal 2 => intro hF; clear_value x)
         | (refine Keeps.cutF1 x ?_ ?_
            on_goal 1 => unfold x; clear x
            on_goal 2 => intro hF1; clear_value x)
         | (refine Keeps.cutF0 x ?_ ?_
            on_goal 1 => unfold x; clear x
            on_goal 2 => intro hF0; clear_value x)
         | (refine Keeps.cutFF x ?_ ?_
            on_goal 1 => unfold x; clear x
            on_goal 2 => intro hFF; clear_value x)
         | clear_value x)
    | with_reducible apply hF
    | with_reducible apply hF1
    | with_reducible apply hF0
    | with_reducible apply hFF
    | intro _
    | (fail_if_no_progress with_reducible apply Keeps.upd)
    | dsimp -zeta only []

theorem zeroGranules_keeps {s0 s} {a0 a1} (h : Keeps s0 s) : Keeps s0 (zeroGranules a0 a1 s) := by
  unfold zeroGranules
  repeat' first
    | with_reducible assumption
    | with_reducible apply zeroRange_keeps
    | intro _
    | (with_reducible refine Keeps.foldl (fun _ _ _ => ?_) ?_)

theorem settleBuffers_keeps {s0 s} (h : Keeps s0 s) : Keeps s0 (settleBuffers s) := by
  unfold settleBuffers
  repeat' first
    | with_reducible assumption
    | with_reducible apply zeroGranules_keeps
    | (extract_lets +onlyGivenNames x
       first
         | (refine Keeps.cut x ?_ ?_
            on_goal 1 => unfold x; clear x
            on_goal 2 => intro _; clear_value x)
         | clear_value x)
    | intro _
    | (with_reducible refine Keeps.foldl (fun _ _ _ => ?_) ?_)
    | (fail_if_no_progress with_reducible apply Keeps.upd)

theorem releaseBuffers_keeps {s0 s} {a0} (h : Keeps s0 s) : Keeps s0 (releaseBuffers a0 s) := by
  unfold releaseBuffers
  repeat' first
    | with_reducible assumption
    | with_reducible apply settleBuffers_keeps
    | (extract_lets +onlyGivenNames x
       first
         | (refine Keeps.cut x ?_ ?_
            on_goal 1 => unfold x; clear x
            on_goal 2 => intro _; clear_value x)
         | clear_value x)
    | intro _
    | (fail_if_no_progress with_reducible apply Keeps.upd)

theorem freeBuffer_keeps {s0 s} {a0 a1} (h : Keeps s0 s) : Keeps s0 (freeBuffer a0 a1 s) := by
  unfold freeBuffer
  repeat' first
    | with_reducible assumption
    | with_reducible apply settleBuffers_keeps
    | with_reducible apply discardLines_keeps
    | (extract_lets +onlyGivenNames x
       first
         | (refine Keeps.cut x ?_ ?_
            on_goal 1 => unfold x; clear x
            on_goal 2 => intro _; clear_value x)
         | clear_value x)
    | intro _
    | with_reducible apply Keeps.ite_
    | (fail_if_no_progress with_reducible apply Keeps.upd)
    | apply Keeps.ite_

theorem startAlloc_keeps {s0 s} {a0} (h : Keeps s0 s) : Keeps s0 (startAlloc a0 s) := by
  unfold startAlloc
  repeat' first
    | with_reducible assumption
    | with_reducible apply stamp_keeps
    | with_reducible apply badOpcode_keeps
    | with_reducible apply endCmd_keeps
    | with_reducible apply zeroGranules_keeps
    | with_reducible apply hostWrite_keeps
    | (extract_lets +onlyGivenNames x
       first
         | (refine Keeps.cut x ?_ ?_
            on_goal 1 => unfold x; clear x
            on_goal 2 => intro _; clear_value x)
         | (refine Keeps.cut2 x ?_ ?_
            on_goal 1 => unfold x; clear x
            on_goal 2 => intro _; clear_value x)
         | (refine Keeps.cutF x ?_ ?_
            on_goal 1 => unfold x; clear x
            on_goal 2 => intro hF; clear_value x)
         | (refine Keeps.cutF1 x ?_ ?_
            on_goal 1 => unfold x; clear x
            on_goal 2 => intro hF1; clear_value x)
         | (refine Keeps.cutF0 x ?_ ?_
            on_goal 1 => unfold x; clear x
            on_goal 2 => intro hF0; clear_value x)
         | (refine Keeps.cutFF x ?_ ?_
            on_goal 1 => unfold x; clear x
            on_goal 2 => intro hFF; clear_value x)
         | clear_value x)
    | with_reducible apply hF
    | with_reducible apply hF1
    | with_reducible apply hF0
    | with_reducible apply hFF
    | intro _
    | with_reducible apply Keeps.ite_
    | (with_reducible refine Keeps.foldl (fun _ _ _ => ?_) ?_)
    | (with_reducible refine Keeps.foldl2 (fun _ _ _ => ?_) ?_)
    | (fail_if_no_progress with_reducible apply Keeps.upd)
    | dsimp -zeta only []
    | with_reducible refine Keeps.ofPair (by with_reducible assumption) ?_
    | split
    | apply Keeps.ite_

theorem bufMisuse_keeps {s0 s} {a0 a1} (h : Keeps s0 s) : Keeps s0 (bufMisuse a0 a1 s) := by
  unfold bufMisuse
  repeat' first
    | with_reducible assumption
    | with_reducible apply raiseEvent_keeps
    | intro _

theorem startFree_keeps {s0 s} {a0} (h : Keeps s0 s) : Keeps s0 (startFree a0 s) := by
  unfold startFree
  repeat' first
    | with_reducible assumption
    | with_reducible apply stamp_keeps
    | with_reducible apply badOpcode_keeps
    | with_reducible apply endCmd_keeps
    | with_reducible apply bufMisuse_keeps
    | with_reducible apply freeBuffer_keeps
    | (extract_lets +onlyGivenNames x
       first
         | (refine Keeps.cut x ?_ ?_
            on_goal 1 => unfold x; clear x
            on_goal 2 => intro _; clear_value x)
         | clear_value x)
    | intro _
    | with_reducible apply Keeps.ite_
    | (fail_if_no_progress with_reducible apply Keeps.upd)
    | split
    | apply Keeps.ite_

theorem pumpBufs_keeps {s0 s} (h : Keeps s0 s) : Keeps s0 (pumpBufs s) := by
  unfold pumpBufs
  repeat' first
    | with_reducible assumption
    | with_reducible apply startAlloc_keeps
    | with_reducible apply startFree_keeps
    | intro _
    | with_reducible apply Keeps.ite_
    | (with_reducible refine Keeps.foldl (fun _ _ _ => ?_) ?_)
    | (with_reducible refine Keeps.foldl2 (fun _ _ _ => ?_) ?_)
    | dsimp -zeta only []
    | with_reducible refine Keeps.ofPair (by with_reducible assumption) ?_
    | split
    | apply Keeps.ite_

theorem beginAlloc_keeps {s0 s} {a0} (h : Keeps s0 s) : Keeps s0 (beginAlloc a0 s) := by
  unfold beginAlloc
  repeat' first
    | with_reducible assumption
    | with_reducible apply pumpBufs_keeps
    | with_reducible apply askHost_keeps
    | (extract_lets +onlyGivenNames x
       first
         | (refine Keeps.cut x ?_ ?_
            on_goal 1 => unfold x; clear x
            on_goal 2 => intro _; clear_value x)
         | clear_value x)
    | intro _
    | with_reducible apply Keeps.ite_
    | (fail_if_no_progress with_reducible apply Keeps.upd)
    | split
    | apply Keeps.ite_

theorem execBufAlloc_keeps {s} {a0} : ∃ t, execBufAlloc a0 s = .next t ∧ Keeps s t := by
  refine ⟨_, rfl, ?_⟩
  have h := Keeps.same s
  repeat' first
    | with_reducible assumption
    | with_reducible apply admitCommand_keeps
    | with_reducible apply beginAlloc_keeps
    | intro _

theorem execBufFree_keeps {s} {a0} : ∃ t, execBufFree a0 s = .next t ∧ Keeps s t := by
  refine ⟨_, rfl, ?_⟩
  have h := Keeps.same s
  repeat' first
    | with_reducible assumption
    | with_reducible apply admitCommand_keeps
    | with_reducible apply pumpBufs_keeps
    | intro _

theorem reclaimBuffers_keeps {s0 s} {a0} (h : Keeps s0 s) : Keeps s0 (reclaimBuffers a0 s) := by
  unfold reclaimBuffers
  repeat' first
    | with_reducible assumption
    | with_reducible apply freeBuffer_keeps
    | intro _
    | (with_reducible refine Keeps.foldl (fun _ _ _ => ?_) ?_)

end Sys2Proof.Machine
end

