-- ==== Sys2Proof/Laws/KeepsCopy.lean ====
section
/-!
SUPPORT. Sys2Proof/Laws/KeepsCopy.lean: what the operations of Machine/Copy.lean keep (`Keeps`).
-/
set_option linter.all false
namespace Sys2Proof.Machine

theorem failRange_keeps {s0 s} {a0 a1 a2} (h : Keeps s0 s) : Keeps s0 (failRange a0 a1 a2 s) := by
  unfold failRange
  repeat' first
    | with_reducible assumption
    | with_reducible apply endLoss_keeps
    | with_reducible apply endCmd_keeps
    | with_reducible apply decodeError_keeps
    | (extract_lets +onlyGivenNames x
       first
         | (refine Keeps.cut x ?_ ?_
            on_goal 1 => unfold x; clear x
            on_goal 2 => intro _; clear_value x)
         | clear_value x)
    | intro _
    | with_reducible apply Keeps.ite_
    | (fail_if_no_progress with_reducible apply Keeps.upd)
    | split
    | apply Keeps.ite_

theorem putPiece_keeps {s0 s} {a0 a1 a2} (h : Keeps s0 s) : Keeps s0 (putPiece a0 a1 a2 s).2 := by
  unfold putPiece
  repeat' first
    | with_reducible assumption
    | with_reducible apply tally_keeps
    | with_reducible apply activity_keeps
    | with_reducible apply chargeCmd_keeps
    | with_reducible apply rngWriteRo_keeps
    | (extract_lets +onlyGivenNames x
       first
         | (refine Keeps.cut x ?_ ?_
            on_goal 1 => unfold x; clear x
            on_goal 2 => intro _; clear_value x)
         | (refine Keeps.cut2 x ?_ ?_
            on_goal 1 => unfold x; clear x
            on_goal 2 => intro _; clear_value x)
         | (refine Keeps.cutF x ?_ ?_
            on_goal 1 => unfold x; clear x
            on_goal 2 => intro hF; clear_value x)
         | (refine Keeps.cutF1 x ?_ ?_
            on_goal 1 => unfold x; clear x
            on_goal 2 => intro hF1; clear_value x)
         | (refine Keeps.cutF0 x ?_ ?_
            on_goal 1 => unfold x; clear x
            on_goal 2 => intro hF0; clear_value x)
         | (refine Keeps.cutFF x ?_ ?_
            on_goal 1 => unfold x; clear x
            on_goal 2 => intro hFF; clear_value x)
         | clear_value x)
    | with_reducible apply hF
    | with_reducible apply hF1
    | with_reducible apply hF0
    | with_reducible apply hFF
    | intro _
    | with_reducible apply Keeps.ite_
    | (with_reducible refine Keeps.foldl (fun _ _ _ => ?_) ?_)
    | (with_reducible refine Keeps.foldl2 (fun _ _ _ => ?_) ?_)
    | (fail_if_no_progress with_reducible apply Keeps.upd)
    | dsimp -zeta only []
    | with_reducible refine Keeps.ofPair (by with_reducible assumption) ?_
    | split
    | apply Keeps.ite_

theorem donePiece_keeps {s0 s} {a0 a1} (h : Keeps s0 s) : Keeps s0 (donePiece a0 a1 s) := by
  unfold donePiece
  repeat' first
    | with_reducible assumption
    | with_reducible apply onCmd_keeps
    | with_reducible apply endCmd_keeps
    | (extract_lets +onlyGivenNames x
       first
         | (refine Keeps.cut x ?_ ?_
            on_goal 1 => unfold x; clear x
            on_goal 2 => intro _; clear_value x)
         | clear_value x)
    | intro _
    | with_reducible apply Keeps.ite_
    | (fail_if_no_progress with_reducible apply Keeps.upd)
    | apply Keeps.ite_

theorem movePieces_keeps {s0 s} {a0 a1} : Keeps s0 s → Keeps s0 (movePieces a0 a1 s) := by
  induction a1 generalizing s with
  | zero => intro h; exact h
  | succ n ih =>
    intro h
    rw [movePieces]
    repeat' first
      | with_reducible assumption
      | with_reducible apply ih
      | with_reducible apply putPiece_keeps
      | with_reducible apply donePiece_keeps
      | with_reducible apply chargeCmd_keeps
      | with_reducible apply endCmd_keeps
      | with_reducible apply stamp_keeps
      | with_reducible apply askHost_keeps
      | (extract_lets +onlyGivenNames x
         first
           | (refine Keeps.cut x ?_ ?_
              on_goal 1 => unfold x; clear x
              on_goal 2 => intro _; clear_value x)
           | clear_value x)
      | intro _
      | with_reducible apply Keeps.ite_
      | (fail_if_no_progress with_reducible apply Keeps.upd)
      | split
      | apply Keeps.ite_

theorem moveCopy_keeps {s0 s} {a0} (h : Keeps s0 s) : Keeps s0 (moveCopy a0 s) := by
  unfold moveCopy
  repeat' first
    | with_reducible assumption
    | with_reducible apply movePieces_keeps
    | with_reducible apply onCmd_keeps
    | (extract_lets +onlyGivenNames x
       first
         | (refine Keeps.cut x ?_ ?_
            on_goal 1 => unfold x; clear x
            on_goal 2 => intro _; clear_value x)
         | clear_value x)
    | intro _
    | (fail_if_no_progress with_reducible apply Keeps.upd)
    | split

theorem checkSegs_keeps {s0 s} {a0} (h : Keeps s0 s) : Keeps s0 (checkSegs a0 s) := by
  unfold checkSegs
  repeat' first
    | with_reducible assumption
    | with_reducible apply badOpcode_keeps
    | with_reducible apply failRange_keeps
    | with_reducible apply stamp_keeps
    | with_reducible apply onCmd_keeps
    | with_reducible apply moveCopy_keeps
    | with_reducible apply askHost_keeps
    | (extract_lets +onlyGivenNames x
       first
         | (refine Keeps.cut x ?_ ?_
            on_goal 1 => unfold x; clear x
            on_goal 2 => intro _; clear_value x)
         | (refine Keeps.cut2 x ?_ ?_
            on_goal 1 => unfold x; clear x
            on_goal 2 => intro _; clear_value x)
         | (refine Keeps.cutF x ?_ ?_
            on_goal 1 => unfold x; clear x
            on_goal 2 => intro hF; clear_value x)
         | (refine Keeps.cutF1 x ?_ ?_
            on_goal 1 => unfold x; clear x
            on_goal 2 => intro hF1; clear_value x)
         | (refine Keeps.cutF0 x ?_ ?_
            on_goal 1 => unfold x; clear x
            on_goal 2 => intro hF0; clear_value x)
         | (refine Keeps.cutFF x ?_ ?_
            on_goal 1 => unfold x; clear x
            on_goal 2 => intro hFF; clear_value x)
         | clear_value x)
    | with_reducible apply hF
    | with_reducible apply hF1
    | with_reducible apply hF0
    | with_reducible apply hFF
    | intro _
    | with_reducible apply Keeps.ite_
    | (with_reducible refine Keeps.foldl (fun _ _ _ => ?_) ?_)
    | (with_reducible refine Keeps.foldl2 (fun _ _ _ => ?_) ?_)
    | (fail_if_no_progress with_reducible apply Keeps.upd)
    | dsimp -zeta only []
    | with_reducible refine Keeps.ofPair (by with_reducible assumption) ?_
    | split
    | apply Keeps.ite_

theorem fetchList_keeps {u : Nat} {r : Rng} {g : State → State} {s0 s} (hg : ∀ s, Keeps s0 s → Keeps s0 (g s)) (h : Keeps s0 s) :
    Keeps s0 (fetchList u r g s) := by
  unfold fetchList
  repeat' first
    | with_reducible assumption
    | with_reducible apply hg
    | with_reducible apply askHost_keeps
    | with_reducible apply endCmd_keeps
    | with_reducible apply onCmd_keeps
    | with_reducible apply chargeCmd_keeps
    | with_reducible apply Keeps.ite_
    | split

theorem startCopy_keeps {s0 s} {a0} (h : Keeps s0 s) : Keeps s0 (startCopy a0 s) := by
  unfold startCopy
  repeat' first
    | with_reducible assumption
    | with_reducible apply stamp_keeps
    | with_reducible apply badOpcode_keeps
    | with_reducible apply fetchList_keeps
    | with_reducible apply checkSegs_keeps
    | with_reducible apply failRange_keeps
    | (extract_lets +onlyGivenNames x
       first
         | (refine Keeps.cut x ?_ ?_
            on_goal 1 => unfold x; clear x
            on_goal 2 => intro _; clear_value x)
         | (refine Keeps.cut2 x ?_ ?_
            on_goal 1 => unfold x; clear x
            on_goal 2 => intro _; clear_value x)
         | (refine Keeps.cutF x ?_ ?_
            on_goal 1 => unfold x; clear x
            on_goal 2 => intro hF; clear_value x)
         | (refine Keeps.cutF1 x ?_ ?_
            on_goal 1 => unfold x; clear x
            on_goal 2 => intro hF1; clear_value x)
         | (refine Keeps.cutF0 x ?_ ?_
            on_goal 1 => unfold x; clear x
            on_goal 2 => intro hF0; clear_value x)
         | (refine Keeps.cutFF x ?_ ?_
            on_goal 1 => unfold x; clear x
            on_goal 2 => intro hFF; clear_value x)
         | clear_value x)
    | with_reducible apply hF
    | with_reducible apply hF1
    | with_reducible apply hF0
    | with_reducible apply hFF
    | intro _
    | with_reducible apply Keeps.ite_
    | (with_reducible refine Keeps.foldl (fun _ _ _ => ?_) ?_)
    | (with_reducible refine Keeps.foldl2 (fun _ _ _ => ?_) ?_)
    | (fail_if_no_progress with_reducible apply Keeps.upd)
    | dsimp -zeta only []
    | with_reducible refine Keeps.ofPair (by with_reducible assumption) ?_
    | split
    | apply Keeps.ite_

theorem copyHost_keeps {s0 s} {a0 a1} (h : Keeps s0 s) : Keeps s0 (copyHost a0 a1 s) := by
  unfold copyHost
  repeat' first
    | with_reducible assumption
    | with_reducible apply moveCopy_keeps
    | with_reducible apply checkSegs_keeps
    | with_reducible apply onCmd_keeps
    | with_reducible apply putPiece_keeps
    | with_reducible apply donePiece_keeps
    | (extract_lets +onlyGivenNames x
       first
         | (refine Keeps.cut x ?_ ?_
            on_goal 1 => unfold x; clear x
            on_goal 2 => intro _; clear_value x)
         | (refine Keeps.cut2 x ?_ ?_
            on_goal 1 => unfold x; clear x
            on_goal 2 => intro _; clear_value x)
         | clear_value x)
    | intro _
    | with_reducible apply Keeps.ite_
    | (fail_if_no_progress with_reducible apply Keeps.upd)
    | dsimp -zeta only []
    | with_reducible refine Keeps.ofPair (by with_reducible assumption) ?_
    | split
    | apply Keeps.ite_

theorem execCopyH2d_keeps {s} {a0} : ∃ t, execCopyH2d a0 s = .next t ∧ Keeps s t := by
  refine ⟨_, rfl, ?_⟩
  have h := Keeps.same s
  repeat' first
    | with_reducible assumption
    | with_reducible apply admitCommand_keeps
    | with_reducible apply startCopy_keeps
    | intro _
    | with_reducible apply Keeps.ite_
    | apply Keeps.ite_

theorem execCopyD2h_keeps {s} {a0} : ∃ t, execCopyD2h a0 s = .next t ∧ Keeps s t := by
  refine ⟨_, rfl, ?_⟩
  have h := Keeps.same s
  repeat' first
    | with_reducible assumption
    | with_reducible apply admitCommand_keeps
    | with_reducible apply startCopy_keeps
    | intro _

end Sys2Proof.Machine
end

