-- ==== Sys2Proof/Laws/KeepsAttn.lean ====
section
/-!
SUPPORT. Sys2Proof/Laws/KeepsAttn.lean: what the operations of Machine/Attn.lean keep (`Keeps`).
-/
set_option linter.all false
namespace Sys2Proof.Machine

theorem dropAttn_keeps {s0 s} {a0} (h : Keeps s0 s) : Keeps s0 (dropAttn a0 s) := by
  unfold dropAttn
  repeat' first
    | with_reducible assumption
    | (extract_lets +onlyGivenNames x
       first
         | (refine Keeps.cut x ?_ ?_
            on_goal 1 => unfold x; clear x
            on_goal 2 => intro _; clear_value x)
         | (refine Keeps.cutF x ?_ ?_
            on_goal 1 => unfold x; clear x
            on_goal 2 => intro hF; clear_value x)
         | (refine Keeps.cutF1 x ?_ ?_
            on_goal 1 => unfold x; clear x
            on_goal 2 => intro hF1; clear_value x)
         | (refine Keeps.cutF0 x ?_ ?_
            on_goal 1 => unfold x; clear x
            on_goal 2 => intro hF0; clear_value x)
         | (refine Keeps.cutFF x ?_ ?_
            on_goal 1 => unfold x; clear x
            on_goal 2 => intro hFF; clear_value x)
         | clear_value x)
    | with_reducible apply hF
    | with_reducible apply hF1
    | with_reducible apply hF0
    | with_reducible apply hFF
    | intro _
    | with_reducible apply Keeps.ite_
    | (fail_if_no_progress with_reducible apply Keeps.upd)
    | dsimp -zeta only []
    | split
    | apply Keeps.ite_

theorem writeEntries_keeps {s0 s} {a0 a1 a2} : Keeps s0 s → Keeps s0 (writeEntries a0 a1 a2 s) := by
  induction a2 generalizing s with
  | zero => intro h; exact h
  | succ n ih =>
    intro h
    rw [writeEntries]
    repeat' first
      | with_reducible assumption
      | with_reducible apply ih
      | with_reducible apply rngWrite_keeps
      | with_reducible apply dropAttn_keeps
      | with_reducible apply onCmd_keeps
      | with_reducible apply chargeCmd_keeps
      | with_reducible apply endCmd_keeps
      | with_reducible apply stamp_keeps
      | (extract_lets +onlyGivenNames x
         first
           | (refine Keeps.cut x ?_ ?_
              on_goal 1 => unfold x; clear x
              on_goal 2 => intro _; clear_value x)
           | (refine Keeps.cut2 x ?_ ?_
              on_goal 1 => unfold x; clear x
              on_goal 2 => intro _; clear_value x)
           | clear_value x)
      | intro _
      | with_reducible apply Keeps.ite_
      | (fail_if_no_progress with_reducible apply Keeps.upd)
      | dsimp -zeta only []
      | with_reducible refine Keeps.ofPair (by with_reducible assumption) ?_
      | split
      | apply Keeps.ite_

theorem pairArrives_keeps {s0 s} {a0 a1 a2 a3 a4} (h : Keeps s0 s) : Keeps s0 (pairArrives a0 a1 a2 a3 a4 s) := by
  unfold pairArrives
  repeat' first
    | with_reducible assumption
    | with_reducible apply onCmd_keeps
    | with_reducible apply writeEntries_keeps
    | (extract_lets +onlyGivenNames x
       first
         | (refine Keeps.cut x ?_ ?_
            on_goal 1 => unfold x; clear x
            on_goal 2 => intro _; clear_value x)
         | clear_value x)
    | intro _
    | (fail_if_no_progress with_reducible apply Keeps.upd)
    | split

theorem normalizePair_keeps {s0 s} {a0 a1 a2 a3 a4 a5} (h : Keeps s0 s) : Keeps s0 (normalizePair a0 a1 a2 a3 a4 a5 s) := by
  unfold normalizePair
  repeat' first
    | with_reducible assumption
    | with_reducible apply pairArrives_keeps
    | with_reducible apply linkActivity_keeps
    | (extract_lets +onlyGivenNames x
       first
         | (refine Keeps.cut x ?_ ?_
            on_goal 1 => unfold x; clear x
            on_goal 2 => intro _; clear_value x)
         | (refine Keeps.cut2 x ?_ ?_
            on_goal 1 => unfold x; clear x
            on_goal 2 => intro _; clear_value x)
         | (refine Keeps.cutF x ?_ ?_
            on_goal 1 => unfold x; clear x
            on_goal 2 => intro hF; clear_value x)
         | (refine Keeps.cutF1 x ?_ ?_
            on_goal 1 => unfold x; clear x
            on_goal 2 => intro hF1; clear_value x)
         | (refine Keeps.cutF0 x ?_ ?_
            on_goal 1 => unfold x; clear x
            on_goal 2 => intro hF0; clear_value x)
         | (refine Keeps.cutFF x ?_ ?_
            on_goal 1 => unfold x; clear x
            on_goal 2 => intro hFF; clear_value x)
         | clear_value x)
    | with_reducible apply hF
    | with_reducible apply hF1
    | with_reducible apply hF0
    | with_reducible apply hFF
    | intro _
    | with_reducible apply Keeps.ite_
    | (with_reducible refine Keeps.foldl (fun _ _ _ => ?_) ?_)
    | (with_reducible refine Keeps.foldl2 (fun _ _ _ => ?_) ?_)
    | (fail_if_no_progress with_reducible apply Keeps.upd)
    | dsimp -zeta only []
    | with_reducible refine Keeps.ofPair (by with_reducible assumption) ?_
    | split
    | apply Keeps.ite_

theorem dealItem_keeps {s0 s} {a0 a1 a2 a3 a4 a5 a6} (h : Keeps s0 s) : Keeps s0 (dealItem a0 a1 a2 a3 a4 a5 a6 s) := by
  unfold dealItem
  repeat' first
    | with_reducible assumption
    | with_reducible apply onCore_keeps
    | (extract_lets +onlyGivenNames x
       first
         | (refine Keeps.cut x ?_ ?_
            on_goal 1 => unfold x; clear x
            on_goal 2 => intro _; clear_value x)
         | clear_value x)
    | intro _
    | with_reducible apply Keeps.ite_
    | (fail_if_no_progress with_reducible apply Keeps.upd)
    | apply Keeps.ite_

theorem dealPair_keeps {s0 s} {a0 a1 a2 a3 a4 a5 a6} (h : Keeps s0 s) : Keeps s0 (dealPair a0 a1 a2 a3 a4 a5 a6 s) := by
  unfold dealPair
  repeat' first
    | with_reducible assumption
    | with_reducible apply dealItem_keeps
    | (extract_lets +onlyGivenNames x
       first
         | (refine Keeps.cut x ?_ ?_
            on_goal 1 => unfold x; clear x
            on_goal 2 => intro _; clear_value x)
         | clear_value x)
    | intro _
    | (with_reducible refine Keeps.foldl (fun _ _ _ => ?_) ?_)

theorem dealSlice_keeps {s0 s} {a0 a1 a2 a3} (h : Keeps s0 s) : Keeps s0 (dealSlice a0 a1 a2 s a3) := by
  unfold dealSlice
  repeat' first
    | with_reducible assumption
    | with_reducible apply dealPair_keeps
    | (extract_lets +onlyGivenNames x
       first
         | (refine Keeps.cut x ?_ ?_
            on_goal 1 => unfold x; clear x
            on_goal 2 => intro _; clear_value x)
         | (refine Keeps.cut2 x ?_ ?_
            on_goal 1 => unfold x; clear x
            on_goal 2 => intro _; clear_value x)
         | clear_value x)
    | intro _
    | with_reducible apply Keeps.ite_
    | (with_reducible refine Keeps.foldl (fun _ _ _ => ?_) ?_)
    | (with_reducible refine Keeps.foldl2 (fun _ _ _ => ?_) ?_)
    | dsimp -zeta only []
    | with_reducible refine Keeps.ofPair (by with_reducible assumption) ?_
    | split
    | apply Keeps.ite_

theorem openPair_keeps {s0 s} {a0 a1 a2} (h : Keeps s0 s) : Keeps s0 (openPair a0 a1 s a2) := by
  unfold openPair
  repeat' first
    | with_reducible assumption
    | with_reducible apply onCmd_keeps
    | (extract_lets +onlyGivenNames x
       first
         | (refine Keeps.cut x ?_ ?_
            on_goal 1 => unfold x; clear x
            on_goal 2 => intro _; clear_value x)
         | (refine Keeps.cut2 x ?_ ?_
            on_goal 1 => unfold x; clear x
            on_goal 2 => intro _; clear_value x)
         | clear_value x)
    | intro _
    | (fail_if_no_progress with_reducible apply Keeps.upd)
    | dsimp -zeta only []
    | with_reducible refine Keeps.ofPair (by with_reducible assumption) ?_
    | split

theorem attnTurn_keeps {s0 s} {a0 a1 a2 a3} (h : Keeps s0 s) : Keeps s0 (attnTurn a0 a1 a2 a3 s) := by
  unfold attnTurn
  repeat' first
    | with_reducible assumption
    | with_reducible apply endLoss_keeps
    | with_reducible apply badOpcode_keeps
    | with_reducible apply endCmd_keeps
    | with_reducible apply loseSlots_keeps
    | with_reducible apply onCmd_keeps
    | with_reducible apply dealSlice_keeps
    | with_reducible apply openPair_keeps
    | with_reducible apply writeEntries_keeps
    | with_reducible apply stamp_keeps
    | (extract_lets +onlyGivenNames x
       first
         | (refine Keeps.cut x ?_ ?_
            on_goal 1 => unfold x; clear x
            on_goal 2 => intro _; clear_value x)
         | (refine Keeps.cut2 x ?_ ?_
            on_goal 1 => unfold x; clear x
            on_goal 2 => intro _; clear_value x)
         | (refine Keeps.cutF x ?_ ?_
            on_goal 1 => unfold x; clear x
            on_goal 2 => intro hF; clear_value x)
         | (refine Keeps.cutF1 x ?_ ?_
            on_goal 1 => unfold x; clear x
            on_goal 2 => intro hF1; clear_value x)
         | (refine Keeps.cutF0 x ?_ ?_
            on_goal 1 => unfold x; clear x
            on_goal 2 => intro hF0; clear_value x)
         | (refine Keeps.cutFF x ?_ ?_
            on_goal 1 => unfold x; clear x
            on_goal 2 => intro hFF; clear_value x)
         | clear_value x)
    | with_reducible apply hF
    | with_reducible apply hF1
    | with_reducible apply hF0
    | with_reducible apply hFF
    | intro _
    | with_reducible apply Keeps.ite_
    | (with_reducible refine Keeps.foldl (fun _ _ _ => ?_) ?_)
    | (with_reducible refine Keeps.foldl2 (fun _ _ _ => ?_) ?_)
    | (fail_if_no_progress with_reducible apply Keeps.upd)
    | dsimp -zeta only []
    | with_reducible refine Keeps.ofPair (by with_reducible assumption) ?_
    | split
    | apply Keeps.ite_

theorem kvTurn_keeps {s0 s} {a0} (h : Keeps s0 s) : Keeps s0 (kvTurn a0 s).2 := by
  unfold kvTurn
  repeat' first
    | with_reducible assumption
    | with_reducible apply appendTurn_keeps
    | with_reducible apply releaseTurn_keeps
    | with_reducible apply matchTurn_keeps
    | with_reducible apply attnTurn_keeps
    | with_reducible apply endCmd_keeps
    | (extract_lets +onlyGivenNames x
       first
         | (refine Keeps.cut x ?_ ?_
            on_goal 1 => unfold x; clear x
            on_goal 2 => intro _; clear_value x)
         | (refine Keeps.cut2 x ?_ ?_
            on_goal 1 => unfold x; clear x
            on_goal 2 => intro _; clear_value x)
         | clear_value x)
    | (fail_if_no_progress with_reducible apply Keeps.upd)
    | dsimp -zeta only []
    | with_reducible refine Keeps.ofPair (by with_reducible assumption) ?_
    | split

theorem pumpKv_keeps {s0 s} {a0 a1} : Keeps s0 s → Keeps s0 (pumpKv a0 a1 s) := by
  induction a1 generalizing s with
  | zero => intro h; exact h
  | succ n ih =>
    intro h
    rw [pumpKv]
    repeat' first
      | with_reducible assumption
      | with_reducible apply ih
      | with_reducible apply kvTurn_keeps
      | with_reducible apply stamp_keeps
      | (extract_lets +onlyGivenNames x
         first
           | (refine Keeps.cut x ?_ ?_
              on_goal 1 => unfold x; clear x
              on_goal 2 => intro _; clear_value x)
           | (refine Keeps.cut2 x ?_ ?_
              on_goal 1 => unfold x; clear x
              on_goal 2 => intro _; clear_value x)
           | clear_value x)
      | with_reducible apply Keeps.ite_
      | (fail_if_no_progress with_reducible apply Keeps.upd)
      | dsimp -zeta only []
      | with_reducible refine Keeps.ofPair (by with_reducible assumption) ?_
      | split
      | apply Keeps.ite_

theorem pumpTable_keeps {s0 s} {a0} (h : Keeps s0 s) : Keeps s0 (pumpTable a0 s) := by
  unfold pumpTable
  repeat' first
    | with_reducible assumption
    | with_reducible apply pumpKv_keeps
    | (extract_lets +onlyGivenNames x
       first
         | (refine Keeps.cut x ?_ ?_
            on_goal 1 => unfold x; clear x
            on_goal 2 => intro _; clear_value x)
         | (refine Keeps.cut2 x ?_ ?_
            on_goal 1 => unfold x; clear x
            on_goal 2 => intro _; clear_value x)
         | (refine Keeps.cutF x ?_ ?_
            on_goal 1 => unfold x; clear x
            on_goal 2 => intro hF; clear_value x)
         | (refine Keeps.cutF1 x ?_ ?_
            on_goal 1 => unfold x; clear x
            on_goal 2 => intro hF1; clear_value x)
         | (refine Keeps.cutF0 x ?_ ?_
            on_goal 1 => unfold x; clear x
            on_goal 2 => intro hF0; clear_value x)
         | (refine Keeps.cutFF x ?_ ?_
            on_goal 1 => unfold x; clear x
            on_goal 2 => intro hFF; clear_value x)
         | clear_value x)
    | with_reducible apply hF
    | with_reducible apply hF1
    | with_reducible apply hF0
    | with_reducible apply hFF
    | intro _
    | with_reducible apply Keeps.ite_
    | (with_reducible refine Keeps.foldl (fun _ _ _ => ?_) ?_)
    | (with_reducible refine Keeps.foldl2 (fun _ _ _ => ?_) ?_)
    | (fail_if_no_progress with_reducible apply Keeps.upd)
    | dsimp -zeta only []
    | with_reducible refine Keeps.ofPair (by with_reducible assumption) ?_
    | split
    | apply Keeps.ite_

theorem pumpAllKv_keeps {s0 s} (h : Keeps s0 s) : Keeps s0 (pumpAllKv s) := by
  unfold pumpAllKv
  repeat' first
    | with_reducible assumption
    | with_reducible apply pumpTable_keeps
    | (extract_lets +onlyGivenNames x
       first
         | (refine Keeps.cut x ?_ ?_
            on_goal 1 => unfold x; clear x
            on_goal 2 => intro _; clear_value x)
         | (refine Keeps.cut2 x ?_ ?_
            on_goal 1 => unfold x; clear x
            on_goal 2 => intro _; clear_value x)
         | (refine Keeps.cutF x ?_ ?_
            on_goal 1 => unfold x; clear x
            on_goal 2 => intro hF; clear_value x)
         | (refine Keeps.cutF1 x ?_ ?_
            on_goal 1 => unfold x; clear x
            on_goal 2 => intro hF1; clear_value x)
         | (refine Keeps.cutF0 x ?_ ?_
            on_goal 1 => unfold x; clear x
            on_goal 2 => intro hF0; clear_value x)
         | (refine Keeps.cutFF x ?_ ?_
            on_goal 1 => unfold x; clear x
            on_goal 2 => intro hFF; clear_value x)
         | clear_value x)
    | with_reducible apply hF
    | with_reducible apply hF1
    | with_reducible apply hF0
    | with_reducible apply hFF
    | intro _
    | with_reducible apply Keeps.ite_
    | (with_reducible refine Keeps.foldl (fun _ _ _ => ?_) ?_)
    | (with_reducible refine Keeps.foldl2 (fun _ _ _ => ?_) ?_)
    | (fail_if_no_progress with_reducible apply Keeps.upd)
    | dsimp -zeta only []
    | with_reducible refine Keeps.ofPair (by with_reducible assumption) ?_
    | split
    | apply Keeps.ite_

theorem kvLeft_keeps {s0 s} {a0} (h : Keeps s0 s) : Keeps s0 (kvLeft a0 s) := by
  unfold kvLeft
  repeat' first
    | with_reducible assumption
    | with_reducible apply pumpAllKv_keeps
    | with_reducible apply dropAttn_keeps
    | (extract_lets +onlyGivenNames x
       first
         | (refine Keeps.cut x ?_ ?_
            on_goal 1 => unfold x; clear x
            on_goal 2 => intro _; clear_value x)
         | clear_value x)
    | with_reducible apply Keeps.ite_
    | (fail_if_no_progress with_reducible apply Keeps.upd)
    | apply Keeps.ite_

theorem kvReady_keeps {s0 s} {a0} (h : Keeps s0 s) : Keeps s0 (kvReady a0 s) := by
  unfold kvReady
  repeat' first
    | with_reducible assumption
    | with_reducible apply pumpTable_keeps
    | with_reducible apply stamp_keeps
    | with_reducible apply onCmd_keeps
    | (extract_lets +onlyGivenNames x
       first
         | (refine Keeps.cut x ?_ ?_
            on_goal 1 => unfold x; clear x
            on_goal 2 => intro _; clear_value x)
         | (refine Keeps.cut2 x ?_ ?_
            on_goal 1 => unfold x; clear x
            on_goal 2 => intro _; clear_value x)
         | (refine Keeps.cutF x ?_ ?_
            on_goal 1 => unfold x; clear x
            on_goal 2 => intro hF; clear_value x)
         | (refine Keeps.cutF1 x ?_ ?_
            on_goal 1 => unfold x; clear x
            on_goal 2 => intro hF1; clear_value x)
         | (refine Keeps.cutF0 x ?_ ?_
            on_goal 1 => unfold x; clear x
            on_goal 2 => intro hF0; clear_value x)
         | (refine Keeps.cutFF x ?_ ?_
            on_goal 1 => unfold x; clear x
            on_goal 2 => intro hFF; clear_value x)
         | clear_value x)
    | with_reducible apply hF
    | with_reducible apply hF1
    | with_reducible apply hF0
    | with_reducible apply hFF
    | intro _
    | with_reducible apply Keeps.ite_
    | (with_reducible refine Keeps.foldl (fun _ _ _ => ?_) ?_)
    | (with_reducible refine Keeps.foldl2 (fun _ _ _ => ?_) ?_)
    | (fail_if_no_progress with_reducible apply Keeps.upd)
    | dsimp -zeta only []
    | with_reducible refine Keeps.ofPair (by with_reducible assumption) ?_
    | split
    | apply Keeps.ite_

theorem appendRest_keeps {s0 s} {a0} (h : Keeps s0 s) : Keeps s0 (appendRest a0 s) := by
  unfold appendRest
  repeat' first
    | with_reducible assumption
    | with_reducible apply endCmd_keeps
    | with_reducible apply badOpcode_keeps
    | with_reducible apply failRange_keeps
    | with_reducible apply onCmd_keeps
    | with_reducible apply askHost_keeps
    | with_reducible apply kvReady_keeps
    | with_reducible apply chargeCmd_keeps
    | (extract_lets +onlyGivenNames x
       first
         | (refine Keeps.cut x ?_ ?_
            on_goal 1 => unfold x; clear x
            on_goal 2 => intro _; clear_value x)
         | (refine Keeps.cut2 x ?_ ?_
            on_goal 1 => unfold x; clear x
            on_goal 2 => intro _; clear_value x)
         | (refine Keeps.cutF x ?_ ?_
            on_goal 1 => unfold x; clear x
            on_goal 2 => intro hF; clear_value x)
         | (refine Keeps.cutF1 x ?_ ?_
            on_goal 1 => unfold x; clear x
            on_goal 2 => intro hF1; clear_value x)
         | (refine Keeps.cutF0 x ?_ ?_
            on_goal 1 => unfold x; clear x
            on_goal 2 => intro hF0; clear_value x)
         | (refine Keeps.cutFF x ?_ ?_
            on_goal 1 => unfold x; clear x
            on_goal 2 => intro hFF; clear_value x)
         | clear_value x)
    | with_reducible apply hF
    | with_reducible apply hF1
    | with_reducible apply hF0
    | with_reducible apply hFF
    | intro _
    | with_reducible apply Keeps.ite_
    | (with_reducible refine Keeps.foldl (fun _ _ _ => ?_) ?_)
    | (with_reducible refine Keeps.foldl2 (fun _ _ _ => ?_) ?_)
    | (fail_if_no_progress with_reducible apply Keeps.upd)
    | dsimp -zeta only []
    | with_reducible refine Keeps.ofPair (by with_reducible assumption) ?_
    | split
    | apply Keeps.ite_

theorem appendInline_keeps {s0 s} {a0 a1 a2} (h : Keeps s0 s) : Keeps s0 (appendInline a0 a1 a2 s) := by
  unfold appendInline
  repeat' first
    | with_reducible assumption
    | with_reducible apply badOpcode_keeps
    | with_reducible apply kvReady_keeps
    | (extract_lets +onlyGivenNames x
       first
         | (refine Keeps.cut x ?_ ?_
            on_goal 1 => unfold x; clear x
            on_goal 2 => intro _; clear_value x)
         | clear_value x)
    | with_reducible apply Keeps.ite_
    | apply Keeps.ite_

theorem startKv_keeps {s0 s} {a0} (h : Keeps s0 s) : Keeps s0 (startKv a0 s) := by
  unfold startKv
  repeat' first
    | with_reducible assumption
    | with_reducible apply endCmd_keeps
    | with_reducible apply badOpcode_keeps
    | with_reducible apply appendInline_keeps
    | with_reducible apply kvReady_keeps
    | with_reducible apply failRange_keeps
    | with_reducible apply fetchList_keeps
    | with_reducible apply appendRest_keeps
    | (extract_lets +onlyGivenNames x
       first
         | (refine Keeps.cut x ?_ ?_
            on_goal 1 => unfold x; clear x
            on_goal 2 => intro _; clear_value x)
         | (refine Keeps.cut2 x ?_ ?_
            on_goal 1 => unfold x; clear x
            on_goal 2 => intro _; clear_value x)
         | (refine Keeps.cutF x ?_ ?_
            on_goal 1 => unfold x; clear x
            on_goal 2 => intro hF; clear_value x)
         | (refine Keeps.cutF1 x ?_ ?_
            on_goal 1 => unfold x; clear x
            on_goal 2 => intro hF1; clear_value x)
         | (refine Keeps.cutF0 x ?_ ?_
            on_goal 1 => unfold x; clear x
            on_goal 2 => intro hF0; clear_value x)
         | (refine Keeps.cutFF x ?_ ?_
            on_goal 1 => unfold x; clear x
            on_goal 2 => intro hFF; clear_value x)
         | clear_value x)
    | with_reducible apply hF
    | with_reducible apply hF1
    | with_reducible apply hF0
    | with_reducible apply hFF
    | intro _
    | with_reducible apply Keeps.ite_
    | (with_reducible refine Keeps.foldl (fun _ _ _ => ?_) ?_)
    | (with_reducible refine Keeps.foldl2 (fun _ _ _ => ?_) ?_)
    | (fail_if_no_progress with_reducible apply Keeps.upd)
    | dsimp -zeta only []
    | with_reducible refine Keeps.ofPair (by with_reducible assumption) ?_
    | split
    | apply Keeps.ite_

theorem startAttn_keeps {s0 s} {a0} (h : Keeps s0 s) : Keeps s0 (startAttn a0 s) := by
  unfold startAttn
  repeat' first
    | with_reducible assumption
    | with_reducible apply endCmd_keeps
    | with_reducible apply badOpcode_keeps
    | with_reducible apply failRange_keeps
    | with_reducible apply kvReady_keeps
    | with_reducible apply askHost_keeps
    | with_reducible apply onCmd_keeps
    | with_reducible apply chargeCmd_keeps
    | (extract_lets +onlyGivenNames x
       first
         | (refine Keeps.cut x ?_ ?_
            on_goal 1 => unfold x; clear x
            on_goal 2 => intro _; clear_value x)
         | clear_value x)
    | intro _
    | with_reducible apply Keeps.ite_
    | (fail_if_no_progress with_reducible apply Keeps.upd)
    | split
    | apply Keeps.ite_

theorem kvHost_keeps {s0 s} {a0 a1} (h : Keeps s0 s) : Keeps s0 (kvHost a0 a1 s) := by
  unfold kvHost
  repeat' first
    | with_reducible assumption
    | with_reducible apply onCmd_keeps
    | with_reducible apply appendRest_keeps
    | with_reducible apply kvReady_keeps
    | (extract_lets +onlyGivenNames x
       first
         | (refine Keeps.cut x ?_ ?_
            on_goal 1 => unfold x; clear x
            on_goal 2 => intro _; clear_value x)
         | clear_value x)
    | intro _
    | with_reducible apply Keeps.ite_
    | (fail_if_no_progress with_reducible apply Keeps.upd)
    | split
    | apply Keeps.ite_

theorem andPump_keeps {g : Nat → State → State} {u : Nat} {s0 s} (hg : ∀ u s, Keeps s0 s → Keeps s0 (g u s)) (h : Keeps s0 s) :
    Keeps s0 (andPump g u s) := pumpAllKv_keeps (hg u s h)

theorem execKvAppend_keeps {s} {a0} : ∃ t, execKvAppend a0 s = .next t ∧ Keeps s t := by
  refine ⟨_, rfl, ?_⟩
  have h := Keeps.same s
  repeat' first
    | with_reducible assumption
    | with_reducible apply admitCommand_keeps
    | with_reducible apply andPump_keeps
    | with_reducible apply startKv_keeps
    | intro _

theorem execKvRelease_keeps {s} {a0} : ∃ t, execKvRelease a0 s = .next t ∧ Keeps s t := by
  refine ⟨_, rfl, ?_⟩
  have h := Keeps.same s
  repeat' first
    | with_reducible assumption
    | with_reducible apply admitCommand_keeps
    | with_reducible apply andPump_keeps
    | with_reducible apply startKv_keeps
    | intro _

theorem execPrefixMatch_keeps {s} {a0} : ∃ t, execPrefixMatch a0 s = .next t ∧ Keeps s t := by
  refine ⟨_, rfl, ?_⟩
  have h := Keeps.same s
  repeat' first
    | with_reducible assumption
    | with_reducible apply admitCommand_keeps
    | with_reducible apply andPump_keeps
    | with_reducible apply startKv_keeps
    | intro _

theorem execAttnDecode_keeps {s} {a0} : ∃ t, execAttnDecode a0 s = .next t ∧ Keeps s t := by
  refine ⟨_, rfl, ?_⟩
  have h := Keeps.same s
  repeat' first
    | with_reducible assumption
    | with_reducible apply admitCommand_keeps
    | with_reducible apply andPump_keeps
    | with_reducible apply startAttn_keeps
    | intro _

theorem abortAttn_keeps {s0 s} {a0} (h : Keeps s0 s) : Keeps s0 (abortAttn a0 s) := by
  unfold abortAttn
  repeat' first
    | with_reducible assumption
    | with_reducible apply dropAttn_keeps
    | with_reducible apply endCmd_keeps
    | (extract_lets +onlyGivenNames x
       first
         | (refine Keeps.cut x ?_ ?_
            on_goal 1 => unfold x; clear x
            on_goal 2 => intro _; clear_value x)
         | clear_value x)
    | (fail_if_no_progress with_reducible apply Keeps.upd)
    | split

theorem attnStep_keeps {s0 s} {a0} (h : Keeps s0 s) : Keeps s0 (attnStep a0 s) := by
  unfold attnStep
  repeat' first
    | with_reducible assumption
    | with_reducible apply abortAttn_keeps
    | with_reducible apply loseSlots_keeps
    | with_reducible apply stamp_keeps
    | with_reducible apply rowTraffic_keeps
    | with_reducible apply activity_keeps
    | with_reducible apply pumpTable_keeps
    | with_reducible apply onCore_keeps
    | (extract_lets +onlyGivenNames x
       first
         | (refine Keeps.cut x ?_ ?_
            on_goal 1 => unfold x; clear x
            on_goal 2 => intro _; clear_value x)
         | (refine Keeps.cut2 x ?_ ?_
            on_goal 1 => unfold x; clear x
            on_goal 2 => intro _; clear_value x)
         | (refine Keeps.cutF x ?_ ?_
            on_goal 1 => unfold x; clear x
            on_goal 2 => intro hF; clear_value x)
         | (refine Keeps.cutF1 x ?_ ?_
            on_goal 1 => unfold x; clear x
            on_goal 2 => intro hF1; clear_value x)
         | (refine Keeps.cutF0 x ?_ ?_
            on_goal 1 => unfold x; clear x
            on_goal 2 => intro hF0; clear_value x)
         | (refine Keeps.cutFF x ?_ ?_
            on_goal 1 => unfold x; clear x
            on_goal 2 => intro hFF; clear_value x)
         | clear_value x)
    | with_reducible apply hF
    | with_reducible apply hF1
    | with_reducible apply hF0
    | with_reducible apply hFF
    | intro _
    | with_reducible apply Keeps.ite_
    | (with_reducible refine Keeps.foldl (fun _ _ _ => ?_) ?_)
    | (with_reducible refine Keeps.foldl2 (fun _ _ _ => ?_) ?_)
    | (fail_if_no_progress with_reducible apply Keeps.upd)
    | dsimp -zeta only []
    | with_reducible refine Keeps.ofPair (by with_reducible assumption) ?_
    | split
    | apply Keeps.ite_

theorem foldSlice_keeps {s0 s} {a0 a1 a2 a3} (h : Keeps s0 s) : Keeps s0 (foldSlice a0 a1 a2 a3 s) := by
  unfold foldSlice
  repeat' first
    | with_reducible assumption
    | with_reducible apply normalizePair_keeps
    | (extract_lets +onlyGivenNames x
       first
         | (refine Keeps.cut x ?_ ?_
            on_goal 1 => unfold x; clear x
            on_goal 2 => intro _; clear_value x)
         | (refine Keeps.cut2 x ?_ ?_
            on_goal 1 => unfold x; clear x
            on_goal 2 => intro _; clear_value x)
         | (refine Keeps.cutF x ?_ ?_
            on_goal 1 => unfold x; clear x
            on_goal 2 => intro hF; clear_value x)
         | (refine Keeps.cutF1 x ?_ ?_
            on_goal 1 => unfold x; clear x
            on_goal 2 => intro hF1; clear_value x)
         | (refine Keeps.cutF0 x ?_ ?_
            on_goal 1 => unfold x; clear x
            on_goal 2 => intro hF0; clear_value x)
         | (refine Keeps.cutFF x ?_ ?_
            on_goal 1 => unfold x; clear x
            on_goal 2 => intro hFF; clear_value x)
         | clear_value x)
    | with_reducible apply hF
    | with_reducible apply hF1
    | with_reducible apply hF0
    | with_reducible apply hFF
    | intro _
    | with_reducible apply Keeps.ite_
    | (with_reducible refine Keeps.foldl (fun _ _ _ => ?_) ?_)
    | (with_reducible refine Keeps.foldl2 (fun _ _ _ => ?_) ?_)
    | (fail_if_no_progress with_reducible apply Keeps.upd)
    | dsimp -zeta only []
    | with_reducible refine Keeps.ofPair (by with_reducible assumption) ?_
    | split
    | apply Keeps.ite_

theorem execSlicePartialFold_keeps {s} {a0 a1 a2 a3} : ∃ t, execSlicePartialFold a0 a1 a2 a3 s = .next t ∧ Keeps s t := by
  refine ⟨_, rfl, ?_⟩
  have h := Keeps.same s
  repeat' first
    | with_reducible assumption
    | with_reducible apply foldSlice_keeps
    | (with_reducible refine Keeps.foldl (fun _ _ _ => ?_) ?_)

theorem mergeHop_keeps {s0 s} {a0} (h : Keeps s0 s) : Keeps s0 (mergeHop a0 s) := by
  unfold mergeHop
  repeat' first
    | with_reducible assumption
    | with_reducible apply ringSend_keeps
    | with_reducible apply normalizePair_keeps
    | (extract_lets +onlyGivenNames x
       first
         | (refine Keeps.cut x ?_ ?_
            on_goal 1 => unfold x; clear x
            on_goal 2 => intro _; clear_value x)
         | (refine Keeps.cut2 x ?_ ?_
            on_goal 1 => unfold x; clear x
            on_goal 2 => intro _; clear_value x)
         | (refine Keeps.cutF x ?_ ?_
            on_goal 1 => unfold x; clear x
            on_goal 2 => intro hF; clear_value x)
         | (refine Keeps.cutF1 x ?_ ?_
            on_goal 1 => unfold x; clear x
            on_goal 2 => intro hF1; clear_value x)
         | (refine Keeps.cutF0 x ?_ ?_
            on_goal 1 => unfold x; clear x
            on_goal 2 => intro hF0; clear_value x)
         | (refine Keeps.cutFF x ?_ ?_
            on_goal 1 => unfold x; clear x
            on_goal 2 => intro hFF; clear_value x)
         | clear_value x)
    | with_reducible apply hF
    | with_reducible apply hF1
    | with_reducible apply hF0
    | with_reducible apply hFF
    | intro _
    | with_reducible apply Keeps.ite_
    | (with_reducible refine Keeps.foldl (fun _ _ _ => ?_) ?_)
    | (with_reducible refine Keeps.foldl2 (fun _ _ _ => ?_) ?_)
    | (fail_if_no_progress with_reducible apply Keeps.upd)
    | dsimp -zeta only []
    | with_reducible refine Keeps.ofPair (by with_reducible assumption) ?_
    | split
    | apply Keeps.ite_

theorem execAttnMergePacket_keeps {s} {a0} : ∃ t, execAttnMergePacket a0 s = .next t ∧ Keeps s t := by
  refine ⟨_, rfl, ?_⟩
  have h := Keeps.same s
  repeat' first
    | with_reducible assumption
    | with_reducible apply mergeHop_keeps

end Sys2Proof.Machine
end

