-- ==== Sys2Proof/Laws/KeepsReports.lean ====
section
/-!
SUPPORT. Sys2Proof/Laws/KeepsReports.lean: what the operations of Machine/Reports.lean keep (`Keeps`).
-/
set_option linter.all false
namespace Sys2Proof.Machine

theorem finishRecovery_keeps {s0 s} {a0} (h : Keeps s0 s) : Keeps s0 (finishRecovery a0 s) := by
  unfold finishRecovery
  repeat' first
    | with_reducible assumption
    | with_reducible apply logError_keeps
    | with_reducible apply raiseEvent_keeps
    | (extract_lets +onlyGivenNames x
       first
         | (refine Keeps.cut x ?_ ?_
            on_goal 1 => unfold x; clear x
            on_goal 2 => intro _; clear_value x)
         | clear_value x)
    | (fail_if_no_progress with_reducible apply Keeps.upd)
    | split

theorem settleRecoveries_keeps {s0 s} (h : Keeps s0 s) : Keeps s0 (settleRecoveries s) := by
  unfold settleRecoveries
  repeat' first
    | with_reducible assumption
    | with_reducible apply finishRecovery_keeps
    | intro _
    | with_reducible apply Keeps.ite_
    | (with_reducible refine Keeps.foldl (fun _ _ _ => ?_) ?_)
    | apply Keeps.ite_

theorem leavePreLoss_keeps {s0 s} {a0 a1} (h : Keeps s0 s) : Keeps s0 (leavePreLoss a0 a1 s) := by
  unfold leavePreLoss
  repeat' first
    | with_reducible assumption
    | with_reducible apply settleRecoveries_keeps
    | (extract_lets +onlyGivenNames x
       first
         | (refine Keeps.cut x ?_ ?_
            on_goal 1 => unfold x; clear x
            on_goal 2 => intro _; clear_value x)
         | (refine Keeps.cutF x ?_ ?_
            on_goal 1 => unfold x; clear x
            on_goal 2 => intro hF; clear_value x)
         | (refine Keeps.cutF1 x ?_ ?_
            on_goal 1 => unfold x; clear x
            on_goal 2 => intro hF1; clear_value x)
         | (refine Keeps.cutF0 x ?_ ?_
            on_goal 1 => unfold x; clear x
            on_goal 2 => intro hF0; clear_value x)
         | (refine Keeps.cutFF x ?_ ?_
            on_goal 1 => unfold x; clear x
            on_goal 2 => intro hFF; clear_value x)
         | clear_value x)
    | with_reducible apply hF
    | with_reducible apply hF1
    | with_reducible apply hF0
    | with_reducible apply hFF
    | intro _
    | with_reducible apply Keeps.ite_
    | (fail_if_no_progress with_reducible apply Keeps.upd)
    | dsimp -zeta only []
    | split
    | apply Keeps.ite_

theorem retire_keeps {s0 s} {a0 a1} (h : Keeps s0 s) : Keeps s0 (retire a0 a1 s) := by
  unfold retire
  repeat' first
    | with_reducible assumption
    | with_reducible apply releaseFences_keeps
    | with_reducible apply onQ_keeps
    | with_reducible apply settleOld_keeps
    | with_reducible apply setSlots_keeps
    | with_reducible apply kvLeft_keeps
    | with_reducible apply leavePreLoss_keeps
    | with_reducible apply releaseBuffers_keeps
    | (extract_lets +onlyGivenNames x
       first
         | (refine Keeps.cut x ?_ ?_
            on_goal 1 => unfold x; clear x
            on_goal 2 => intro _; clear_value x)
         | clear_value x)
    | intro _
    | (fail_if_no_progress with_reducible apply Keeps.upd)

end Sys2Proof.Machine
end

