-- ==== Sys2Proof/Laws/KeepsHalt.lean ====
section
/-!
SUPPORT. Sys2Proof/Laws/KeepsHalt.lean: what the operations of Machine/Halt.lean keep (`Keeps`).
-/
set_option linter.all false
namespace Sys2Proof.Machine

theorem haltEpoch_keeps {s0 s} {a0} (h : Keeps s0 s) : Keeps s0 (haltEpoch a0 s) := by
  unfold haltEpoch
  repeat' first
    | with_reducible assumption
    | with_reducible apply closeEpoch_keeps
    | with_reducible apply signEpoch_keeps
    | with_reducible apply keepSummaries_keeps
    | (extract_lets +onlyGivenNames x
       first
         | (refine Keeps.cut x ?_ ?_
            on_goal 1 => unfold x; clear x
            on_goal 2 => intro _; clear_value x)
         | (refine Keeps.cut2 x ?_ ?_
            on_goal 1 => unfold x; clear x
            on_goal 2 => intro _; clear_value x)
         | (refine Keeps.cutF x ?_ ?_
            on_goal 1 => unfold x; clear x
            on_goal 2 => intro hF; clear_value x)
         | (refine Keeps.cutF1 x ?_ ?_
            on_goal 1 => unfold x; clear x
            on_goal 2 => intro hF1; clear_value x)
         | (refine Keeps.cutF0 x ?_ ?_
            on_goal 1 => unfold x; clear x
            on_goal 2 => intro hF0; clear_value x)
         | (refine Keeps.cutFF x ?_ ?_
            on_goal 1 => unfold x; clear x
            on_goal 2 => intro hFF; clear_value x)
         | clear_value x)
    | with_reducible apply hF
    | with_reducible apply hF1
    | with_reducible apply hF0
    | with_reducible apply hFF
    | intro _
    | with_reducible apply Keeps.ite_
    | (with_reducible refine Keeps.foldl (fun _ _ _ => ?_) ?_)
    | (with_reducible refine Keeps.foldl2 (fun _ _ _ => ?_) ?_)
    | (fail_if_no_progress with_reducible apply Keeps.upd)
    | dsimp -zeta only []
    | with_reducible refine Keeps.ofPair (by with_reducible assumption) ?_
    | split
    | apply Keeps.ite_

theorem holdAll_keeps {s0 s} (h : Keeps s0 s) : Keeps s0 (holdAll s) := by
  unfold holdAll
  repeat' first
    | with_reducible assumption
    | with_reducible apply retire_keeps
    | with_reducible apply discardNow_keeps
    | with_reducible apply forgetUpdate_keeps
    | with_reducible apply onQ_keeps
    | with_reducible apply holdFetched_keeps
    | (extract_lets +onlyGivenNames x
       first
         | (refine Keeps.cut x ?_ ?_
            on_goal 1 => unfold x; clear x
            on_goal 2 => intro _; clear_value x)
         | clear_value x)
    | intro _
    | (with_reducible refine Keeps.foldl (fun _ _ _ => ?_) ?_)
    | (fail_if_no_progress with_reducible apply Keeps.upd)

theorem enterHalt_keeps {c : Nat} {s0 s} (h : Keeps s0 s) : Keeps s0 (enterHalt c s) := by
  unfold enterHalt
  split
  · exact h
  rename_i hc
  refine Keeps.ite_ (Keeps.updSys h (by rfl) (by rfl) (by rfl) (by rfl) (by rfl)) ?_
  have h1 : Keeps s (haltEpoch c s) := haltEpoch_keeps (Keeps.same s)
  generalize hS : haltEpoch c s = S at h1
  have hne : S.sys.state ≠ .cold := by
    intro e
    have hf := h1.forward
    rw [e] at hf
    revert hc hf
    cases s.sys.state <;> decide
  have h2 : Keeps s0 { S with sys := { S.sys with state := .halt, cause := BitVec.ofNat 8 c, entered := S.tb.beat,
                                                  haltCause := BitVec.ofNat 8 c } } :=
    (h.trans h1).trans ⟨rfl, id, ⟨[], rfl⟩, by
      show forward S.sys.state .halt = true
      revert hne; cases S.sys.state <;> decide, fun _ => by simp [Machine.lossShown], rfl, rfl, rfl⟩
  have key : ∀ {T : State}, Keeps s0 T → Keeps s0 (let t := holdAll T; { t with funcs := t.funcs.map holdMbx }) :=
    fun hT => Keeps.upd (holdAll_keeps hT)
  exact key (Keeps.ite_ (jAdd_keeps (jAdd_keeps h2)) h2)

theorem execHalt_keeps {s} {a0} : ∃ t, execHalt a0 s = .next t ∧ Keeps s t := by
  refine ⟨_, rfl, ?_⟩
  have h := Keeps.same s
  repeat' first
    | with_reducible assumption
    | with_reducible apply enterHalt_keeps
    | (extract_lets +onlyGivenNames x
       first
         | (refine Keeps.cut x ?_ ?_
            on_goal 1 => unfold x; clear x
            on_goal 2 => intro _; clear_value x)
         | clear_value x)
    | with_reducible apply Keeps.ite_
    | apply Keeps.ite_

end Sys2Proof.Machine
end

