-- ==== Sys2Proof/Laws/KeepsRecovery.lean ====
section
/-!
SUPPORT. Sys2Proof/Laws/KeepsRecovery.lean: what the operations of Machine/Recovery.lean keep (`Keeps`).
-/
set_option linter.all false
namespace Sys2Proof.Machine

theorem offlinePart_keeps {s0 s} {a0 a1} (h : Keeps s0 s) : Keeps s0 (offlinePart a0 a1 s) := by
  unfold offlinePart
  repeat' first
    | with_reducible assumption
    | with_reducible apply onSlice_keeps
    | with_reducible apply onBrg_keeps
    | (extract_lets +onlyGivenNames x
       first
         | (refine Keeps.cut x ?_ ?_
            on_goal 1 => unfold x; clear x
            on_goal 2 => intro _; clear_value x)
         | clear_value x)
    | intro _
    | (fail_if_no_progress with_reducible apply Keeps.upd)
    | split

theorem cutOff_keeps {s0 s} {a0} (h : Keeps s0 s) : Keeps s0 (cutOff a0 s) := by
  unfold cutOff
  repeat' first
    | with_reducible assumption
    | with_reducible apply failUpdate_keeps
    | (extract_lets +onlyGivenNames x
       first
         | (refine Keeps.cut x ?_ ?_
            on_goal 1 => unfold x; clear x
            on_goal 2 => intro _; clear_value x)
         | (refine Keeps.cut2 x ?_ ?_
            on_goal 1 => unfold x; clear x
            on_goal 2 => intro _; clear_value x)
         | (refine Keeps.cutF x ?_ ?_
            on_goal 1 => unfold x; clear x
            on_goal 2 => intro hF; clear_value x)
         | (refine Keeps.cutF1 x ?_ ?_
            on_goal 1 => unfold x; clear x
            on_goal 2 => intro hF1; clear_value x)
         | (refine Keeps.cutF0 x ?_ ?_
            on_goal 1 => unfold x; clear x
            on_goal 2 => intro hF0; clear_value x)
         | (refine Keeps.cutFF x ?_ ?_
            on_goal 1 => unfold x; clear x
            on_goal 2 => intro hFF; clear_value x)
         | clear_value x)
    | with_reducible apply hF
    | with_reducible apply hF1
    | with_reducible apply hF0
    | with_reducible apply hFF
    | intro _
    | with_reducible apply Keeps.ite_
    | (with_reducible refine Keeps.foldl (fun _ _ _ => ?_) ?_)
    | (with_reducible refine Keeps.foldl2 (fun _ _ _ => ?_) ?_)
    | (fail_if_no_progress with_reducible apply Keeps.upd)
    | dsimp -zeta only []
    | with_reducible refine Keeps.ofPair (by with_reducible assumption) ?_
    | split
    | apply Keeps.ite_

theorem reportLoss_keeps {s0 s} {a0 a1 a2 a3} (h : Keeps s0 s) : Keeps s0 (reportLoss a0 a1 a2 a3 s) := by
  unfold reportLoss
  repeat' first
    | with_reducible assumption
    | with_reducible apply logError_keeps
    | with_reducible apply raiseEvent_keeps
    | (extract_lets +onlyGivenNames x
       first
         | (refine Keeps.cut x ?_ ?_
            on_goal 1 => unfold x; clear x
            on_goal 2 => intro _; clear_value x)
         | clear_value x)
    | (fail_if_no_progress with_reducible apply Keeps.upd)
    | split

theorem farOfBridge_keeps {s0 s} {a0 a1 a2} (h : Keeps s0 s) : Keeps s0 (farOfBridge a0 a1 a2 s) := by
  unfold farOfBridge
  repeat' first
    | with_reducible assumption
    | with_reducible apply offlinePart_keeps
    | with_reducible apply farLoss_keeps
    | with_reducible apply reportLoss_keeps
    | (extract_lets +onlyGivenNames x
       first
         | (refine Keeps.cut x ?_ ?_
            on_goal 1 => unfold x; clear x
            on_goal 2 => intro _; clear_value x)
         | clear_value x)
    | with_reducible apply Keeps.ite_
    | apply Keeps.ite_

theorem offlinePart_sys {k : PartKind} {n : Nat} {s : State} : (offlinePart k n s).sys = s.sys := by cases k <;> rfl

theorem offlinePart_pending {k : PartKind} {n : Nat} {s : State} : (offlinePart k n s).pending = s.pending := by cases k <;> rfl

theorem bridgeLoss_keeps {s0 s} {a0 a1} (h : Keeps s0 s) : Keeps s0 (bridgeLoss a0 a1 s) := by
  unfold bridgeLoss
  repeat' first
    | with_reducible assumption
    | with_reducible apply resetFuncs_keeps
    | with_reducible apply watchOrphan_keeps
    | with_reducible apply peerDown_keeps
    | with_reducible apply cutOff_keeps
    | with_reducible apply onBrg_keeps
    | with_reducible apply farOfBridge_keeps
    | with_reducible apply enterHalt_keeps
    | with_reducible apply settleUpdates_keeps
    | (extract_lets +onlyGivenNames x
       first
         | (refine Keeps.cut x ?_ ?_
            on_goal 1 => unfold x; clear x
            on_goal 2 => intro _; clear_value x)
         | (refine Keeps.cut2 x ?_ ?_
            on_goal 1 => unfold x; clear x
            on_goal 2 => intro _; clear_value x)
         | (refine Keeps.cutF x ?_ ?_
            on_goal 1 => unfold x; clear x
            on_goal 2 => intro hF; clear_value x)
         | (refine Keeps.cutF1 x ?_ ?_
            on_goal 1 => unfold x; clear x
            on_goal 2 => intro hF1; clear_value x)
         | (refine Keeps.cutF0 x ?_ ?_
            on_goal 1 => unfold x; clear x
            on_goal 2 => intro hF0; clear_value x)
         | (refine Keeps.cutFF x ?_ ?_
            on_goal 1 => unfold x; clear x
            on_goal 2 => intro hFF; clear_value x)
         | clear_value x)
    | with_reducible apply hF
    | with_reducible apply hF1
    | with_reducible apply hF0
    | with_reducible apply hFF
    | intro _
    | with_reducible apply Keeps.ite_
    | (with_reducible refine Keeps.foldl (fun _ _ _ => ?_) ?_)
    | (with_reducible refine Keeps.foldl2 (fun _ _ _ => ?_) ?_)
    | (fail_if_no_progress with_reducible apply Keeps.upd)
    | dsimp -zeta only []
    | with_reducible refine Keeps.ofPair (by with_reducible assumption) ?_
    | split
    | apply Keeps.ite_

theorem offlinePart_mem {k : PartKind} {n : Nat} {s : State} : (offlinePart k n s).mem = s.mem := by cases k <;> rfl

theorem offlinePart_out {k : PartKind} {n : Nat} {s : State} : (offlinePart k n s).out = s.out := by cases k <;> rfl

theorem declareLoss_keeps {k : PartKind} {n c : Nat} {s0 s} (h : Keeps s0 s) : Keeps s0 (declareLoss k n c s) := by
  unfold declareLoss
  extract_lets c1 s1 r c2 c3 s2 arg s3
  have e1 : s2.sys = { s.sys with lossSeen := true } := by unfold s2; rw [offlinePart_sys]
  have e2 : s2.pending = s.pending := by unfold s2; rw [offlinePart_pending]
  have e3 : s2.mem = s.mem := by unfold s2; rw [offlinePart_mem]
  have e4 : s2.out = s.out := by unfold s2; rw [offlinePart_out]
  have h3 : Keeps s s3 := by
    unfold s3
    clear_value s2
    split
    · rename_i hr
      have hr' : s.sys.state = .run := by rw [e1] at hr; exact eq_of_beq hr
      refine raiseEvent_keeps (jAdd_keeps ⟨e2, fun w => by rw [← e3] at w; exact w, ⟨[], e4⟩, ?_, ?_, ?_, ?_, ?_⟩)
      · rw [hr']; rfl
      · intro _; simp [Machine.lossShown, e1]
      · simp [e1]
      · simp [e1]
      · simp [e1]
    · rename_i hr
      refine ⟨e2, fun w => by rw [← e3] at w; exact w, ⟨[], e4⟩, ?_, ?_, ?_, ?_, ?_⟩
      · rw [e1]; exact forward_self _
      · rw [e1] at hr ⊢
        revert hr
        simp only [Machine.lossShown]
        cases s.sys.state <;> cases s.sys.lossSeen <;> cases s.sys.prior <;> decide
      · simp [e1]
      · simp [e1]
      · simp [e1]
  exact reportLoss_keeps (h.trans h3)

theorem lossActions_keeps {s0 s} {a0 a1 a2} (h : Keeps s0 s) : Keeps s0 (lossActions a0 a1 a2 s) := by
  unfold lossActions
  repeat' first
    | with_reducible assumption
    | with_reducible apply sliceLoss_keeps
    | with_reducible apply bridgeLoss_keeps
    | with_reducible apply farLoss_keeps
    | (extract_lets +onlyGivenNames x
       first
         | (refine Keeps.cut x ?_ ?_
            on_goal 1 => unfold x; clear x
            on_goal 2 => intro _; clear_value x)
         | clear_value x)
    | (fail_if_no_progress with_reducible apply Keeps.upd)
    | split

theorem partLoss_keeps {s0 s} {a0 a1 a2} (h : Keeps s0 s) : Keeps s0 (partLoss a0 a1 a2 s) := by
  unfold partLoss
  repeat' first
    | with_reducible assumption
    | with_reducible apply settleRecoveries_keeps
    | with_reducible apply pumpAllKv_keeps
    | with_reducible apply lossActions_keeps
    | with_reducible apply declareLoss_keeps
    | with_reducible apply Keeps.ite_
    | apply Keeps.ite_

theorem execPartLoss_keeps {s} {a0 a1} : ∃ t, execPartLoss a0 a1 s = .next t ∧ Keeps s t := by
  refine ⟨_, rfl, ?_⟩
  have h := Keeps.same s
  repeat' first
    | with_reducible assumption
    | with_reducible apply partLoss_keeps
    | (extract_lets +onlyGivenNames x
       first
         | (refine Keeps.cut x ?_ ?_
            on_goal 1 => unfold x; clear x
            on_goal 2 => intro _; clear_value x)
         | clear_value x)
    | with_reducible apply Keeps.ite_
    | apply Keeps.ite_

theorem rebuildDefaults_keeps {s0 s} (h : Keeps s0 s) : Keeps s0 (rebuildDefaults s) := by
  unfold rebuildDefaults
  repeat' first
    | with_reducible assumption
    | with_reducible apply storeDefaults_keeps
    | (extract_lets +onlyGivenNames x
       first
         | (refine Keeps.cut x ?_ ?_
            on_goal 1 => unfold x; clear x
            on_goal 2 => intro _; clear_value x)
         | (refine Keeps.cut2 x ?_ ?_
            on_goal 1 => unfold x; clear x
            on_goal 2 => intro _; clear_value x)
         | (refine Keeps.cutF x ?_ ?_
            on_goal 1 => unfold x; clear x
            on_goal 2 => intro hF; clear_value x)
         | (refine Keeps.cutF1 x ?_ ?_
            on_goal 1 => unfold x; clear x
            on_goal 2 => intro hF1; clear_value x)
         | (refine Keeps.cutF0 x ?_ ?_
            on_goal 1 => unfold x; clear x
            on_goal 2 => intro hF0; clear_value x)
         | (refine Keeps.cutFF x ?_ ?_
            on_goal 1 => unfold x; clear x
            on_goal 2 => intro hFF; clear_value x)
         | clear_value x)
    | with_reducible apply hF
    | with_reducible apply hF1
    | with_reducible apply hF0
    | with_reducible apply hFF
    | intro _
    | with_reducible apply Keeps.ite_
    | (with_reducible refine Keeps.foldl (fun _ _ _ => ?_) ?_)
    | (with_reducible refine Keeps.foldl2 (fun _ _ _ => ?_) ?_)
    | (fail_if_no_progress with_reducible apply Keeps.upd)
    | dsimp -zeta only []
    | with_reducible refine Keeps.ofPair (by with_reducible assumption) ?_
    | split
    | apply Keeps.ite_

theorem recoveryCut_keeps {s0 s} (h : Keeps s0 s) : Keeps s0 (recoveryCut s) := by
  unfold recoveryCut
  repeat' first
    | with_reducible assumption
    | with_reducible apply rebuildDefaults_keeps
    | with_reducible apply postNotice_keeps
    | with_reducible apply settleRecoveries_keeps
    | with_reducible apply kickFlail_keeps
    | with_reducible apply pumpAllKv_keeps
    | (extract_lets +onlyGivenNames x
       first
         | (refine Keeps.cut x ?_ ?_
            on_goal 1 => unfold x; clear x
            on_goal 2 => intro _; clear_value x)
         | (refine Keeps.cut2 x ?_ ?_
            on_goal 1 => unfold x; clear x
            on_goal 2 => intro _; clear_value x)
         | (refine Keeps.cutF x ?_ ?_
            on_goal 1 => unfold x; clear x
            on_goal 2 => intro hF; clear_value x)
         | (refine Keeps.cutF1 x ?_ ?_
            on_goal 1 => unfold x; clear x
            on_goal 2 => intro hF1; clear_value x)
         | (refine Keeps.cutF0 x ?_ ?_
            on_goal 1 => unfold x; clear x
            on_goal 2 => intro hF0; clear_value x)
         | (refine Keeps.cutFF x ?_ ?_
            on_goal 1 => unfold x; clear x
            on_goal 2 => intro hFF; clear_value x)
         | clear_value x)
    | with_reducible apply hF
    | with_reducible apply hF1
    | with_reducible apply hF0
    | with_reducible apply hFF
    | intro _
    | with_reducible apply Keeps.ite_
    | (with_reducible refine Keeps.foldl (fun _ _ _ => ?_) ?_)
    | (with_reducible refine Keeps.foldl2 (fun _ _ _ => ?_) ?_)
    | (fail_if_no_progress with_reducible apply Keeps.upd)
    | dsimp -zeta only []
    | with_reducible refine Keeps.ofPair (by with_reducible assumption) ?_
    | split
    | apply Keeps.ite_

theorem execRecoveryCut_keeps {s} : ∃ t, execRecoveryCut s = .next t ∧ Keeps s t := by
  refine ⟨_, rfl, ?_⟩
  have h := Keeps.same s
  repeat' first
    | with_reducible assumption
    | with_reducible apply recoveryCut_keeps
    | with_reducible apply Keeps.ite_
    | apply Keeps.ite_

theorem onModule_keeps {s0 s} {a0 a1} (h : Keeps s0 s) : Keeps s0 (onModule a0 a1 s) := by
  unfold onModule
  repeat' first
    | with_reducible assumption
    | (extract_lets +onlyGivenNames x
       first
         | (refine Keeps.cut x ?_ ?_
            on_goal 1 => unfold x; clear x
            on_goal 2 => intro _; clear_value x)
         | clear_value x)
    | intro _
    | (fail_if_no_progress with_reducible apply Keeps.upd)
    | split

theorem execLinkRepair_keeps {s} {a0} : ∃ t, execLinkRepair a0 s = .next t ∧ Keeps s t := by
  refine ⟨_, rfl, ?_⟩
  have h := Keeps.same s
  repeat' first
    | with_reducible assumption
    | with_reducible apply raiseEvent_keeps
    | with_reducible apply onModule_keeps
    | (extract_lets +onlyGivenNames x
       first
         | (refine Keeps.cut x ?_ ?_
            on_goal 1 => unfold x; clear x
            on_goal 2 => intro _; clear_value x)
         | clear_value x)
    | intro _
    | with_reducible apply Keeps.ite_
    | (fail_if_no_progress with_reducible apply Keeps.upd)
    | apply Keeps.ite_

theorem checkDetours_keeps {s0 s} (h : Keeps s0 s) : Keeps s0 (checkDetours s) := by
  unfold checkDetours
  repeat' first
    | with_reducible assumption
    | (extract_lets +onlyGivenNames x
       first
         | (refine Keeps.cut x ?_ ?_
            on_goal 1 => unfold x; clear x
            on_goal 2 => intro _; clear_value x)
         | (refine Keeps.cut2 x ?_ ?_
            on_goal 1 => unfold x; clear x
            on_goal 2 => intro _; clear_value x)
         | (refine Keeps.cutF x ?_ ?_
            on_goal 1 => unfold x; clear x
            on_goal 2 => intro hF; clear_value x)
         | (refine Keeps.cutF1 x ?_ ?_
            on_goal 1 => unfold x; clear x
            on_goal 2 => intro hF1; clear_value x)
         | (refine Keeps.cutF0 x ?_ ?_
            on_goal 1 => unfold x; clear x
            on_goal 2 => intro hF0; clear_value x)
         | (refine Keeps.cutFF x ?_ ?_
            on_goal 1 => unfold x; clear x
            on_goal 2 => intro hFF; clear_value x)
         | clear_value x)
    | with_reducible apply hF
    | with_reducible apply hF1
    | with_reducible apply hF0
    | with_reducible apply hFF
    | intro _
    | with_reducible apply Keeps.ite_
    | (with_reducible refine Keeps.foldl (fun _ _ _ => ?_) ?_)
    | (with_reducible refine Keeps.foldl2 (fun _ _ _ => ?_) ?_)
    | (fail_if_no_progress with_reducible apply Keeps.upd)
    | dsimp -zeta only []
    | with_reducible refine Keeps.ofPair (by with_reducible assumption) ?_
    | split
    | apply Keeps.ite_

theorem loseHop_keeps {s0 s} {a0} (h : Keeps s0 s) : Keeps s0 (loseHop a0 s) := by
  unfold loseHop
  repeat' first
    | with_reducible assumption
    | with_reducible apply raiseEvent_keeps
    | (extract_lets +onlyGivenNames x
       first
         | (refine Keeps.cut x ?_ ?_
            on_goal 1 => unfold x; clear x
            on_goal 2 => intro _; clear_value x)
         | clear_value x)
    | intro _
    | with_reducible apply Keeps.ite_
    | (fail_if_no_progress with_reducible apply Keeps.upd)
    | apply Keeps.ite_

theorem loseModule_keeps {s0 s} {a0} (h : Keeps s0 s) : Keeps s0 (loseModule a0 s) := by
  unfold loseModule
  repeat' first
    | with_reducible assumption
    | with_reducible apply checkDetours_keeps
    | with_reducible apply onModule_keeps
    | with_reducible apply loseHop_keeps
    | with_reducible apply raiseEvent_keeps
    | with_reducible apply partLoss_keeps
    | (extract_lets +onlyGivenNames x
       first
         | (refine Keeps.cut x ?_ ?_
            on_goal 1 => unfold x; clear x
            on_goal 2 => intro _; clear_value x)
         | (refine Keeps.cut2 x ?_ ?_
            on_goal 1 => unfold x; clear x
            on_goal 2 => intro _; clear_value x)
         | (refine Keeps.cutF x ?_ ?_
            on_goal 1 => unfold x; clear x
            on_goal 2 => intro hF; clear_value x)
         | (refine Keeps.cutF1 x ?_ ?_
            on_goal 1 => unfold x; clear x
            on_goal 2 => intro hF1; clear_value x)
         | (refine Keeps.cutF0 x ?_ ?_
            on_goal 1 => unfold x; clear x
            on_goal 2 => intro hF0; clear_value x)
         | (refine Keeps.cutFF x ?_ ?_
            on_goal 1 => unfold x; clear x
            on_goal 2 => intro hFF; clear_value x)
         | clear_value x)
    | with_reducible apply hF
    | with_reducible apply hF1
    | with_reducible apply hF0
    | with_reducible apply hFF
    | intro _
    | with_reducible apply Keeps.ite_
    | (with_reducible refine Keeps.foldl (fun _ _ _ => ?_) ?_)
    | (with_reducible refine Keeps.foldl2 (fun _ _ _ => ?_) ?_)
    | (fail_if_no_progress with_reducible apply Keeps.upd)
    | dsimp -zeta only []
    | with_reducible refine Keeps.ofPair (by with_reducible assumption) ?_
    | split
    | apply Keeps.ite_

theorem execLinkDegraded_keeps {s} {a0} : ∃ t, execLinkDegraded a0 s = .next t ∧ Keeps s t := by
  refine ⟨_, rfl, ?_⟩
  have h := Keeps.same s
  repeat' first
    | with_reducible assumption
    | with_reducible apply loseModule_keeps
    | with_reducible apply Keeps.ite_
    | apply Keeps.ite_

theorem loseSegment_keeps {s0 s} {a0} (h : Keeps s0 s) : Keeps s0 (loseSegment a0 s) := by
  unfold loseSegment
  repeat' first
    | with_reducible assumption
    | with_reducible apply raiseEvent_keeps
    | with_reducible apply partLoss_keeps
    | (extract_lets +onlyGivenNames x
       first
         | (refine Keeps.cut x ?_ ?_
            on_goal 1 => unfold x; clear x
            on_goal 2 => intro _; clear_value x)
         | clear_value x)
    | intro _
    | with_reducible apply Keeps.ite_
    | (with_reducible refine Keeps.foldl (fun _ _ _ => ?_) ?_)
    | (fail_if_no_progress with_reducible apply Keeps.upd)
    | apply Keeps.ite_

theorem execMgmtRingSegmentFail_keeps {s} {a0} : ∃ t, execMgmtRingSegmentFail a0 s = .next t ∧ Keeps s t := by
  refine ⟨_, rfl, ?_⟩
  have h := Keeps.same s
  repeat' first
    | with_reducible assumption
    | with_reducible apply loseSegment_keeps
    | with_reducible apply Keeps.ite_
    | apply Keeps.ite_

theorem laneFail_keeps {s0 s} {a0 a1 a2} (h : Keeps s0 s) : Keeps s0 (laneFail a0 a1 a2 s) := by
  unfold laneFail
  repeat' first
    | with_reducible assumption
    | with_reducible apply partLoss_keeps
    | with_reducible apply onSlice_keeps
    | with_reducible apply raiseEvent_keeps
    | (extract_lets +onlyGivenNames x
       first
         | (refine Keeps.cut x ?_ ?_
            on_goal 1 => unfold x; clear x
            on_goal 2 => intro _; clear_value x)
         | clear_value x)
    | intro _
    | with_reducible apply Keeps.ite_
    | (fail_if_no_progress with_reducible apply Keeps.upd)
    | apply Keeps.ite_

theorem execLaneRepair_keeps {s} {a0 a1 a2} : ∃ t, execLaneRepair a0 a1 a2 s = .next t ∧ Keeps s t := by
  refine ⟨_, rfl, ?_⟩
  have h := Keeps.same s
  repeat' first
    | with_reducible assumption
    | with_reducible apply laneFail_keeps
    | with_reducible apply Keeps.ite_
    | apply Keeps.ite_

theorem memUe_keeps {s0 s} {a0 a1 a2 a3 a4} (h : Keeps s0 s) : Keeps s0 (memUe a0 a1 a2 a3 a4 s) := by
  unfold memUe
  repeat' first
    | with_reducible assumption
    | with_reducible apply logError_keeps
    | with_reducible apply Keeps.ite_
    | apply Keeps.ite_

theorem addPoison_keeps {s0 s} {a0} (h : Keeps s0 s) : Keeps s0 (addPoison a0 s) := by
  unfold addPoison
  repeat' first
    | with_reducible assumption
    | (extract_lets +onlyGivenNames x
       first
         | (refine Keeps.cut x ?_ ?_
            on_goal 1 => unfold x; clear x
            on_goal 2 => intro _; clear_value x)
         | clear_value x)
    | intro _
    | with_reducible apply Keeps.ite_
    | (fail_if_no_progress with_reducible apply Keeps.upd)
    | apply Keeps.ite_

theorem stackUe_keeps {s0 s} {a0 a1} (h : Keeps s0 s) : Keeps s0 (stackUe a0 a1 s) := by
  unfold stackUe
  repeat' first
    | with_reducible assumption
    | with_reducible apply addPoison_keeps
    | with_reducible apply onSlice_keeps
    | with_reducible apply memUe_keeps
    | with_reducible apply partLoss_keeps
    | (extract_lets +onlyGivenNames x
       first
         | (refine Keeps.cut x ?_ ?_
            on_goal 1 => unfold x; clear x
            on_goal 2 => intro _; clear_value x)
         | clear_value x)
    | intro _
    | with_reducible apply Keeps.ite_
    | (fail_if_no_progress with_reducible apply Keeps.upd)
    | apply Keeps.ite_

theorem farUe_keeps {s0 s} {a0 a1 a2} (h : Keeps s0 s) : Keeps s0 (farUe a0 a1 a2 s) := by
  unfold farUe
  repeat' first
    | with_reducible assumption
    | with_reducible apply addPoison_keeps
    | with_reducible apply memUe_keeps
    | with_reducible apply partLoss_keeps
    | (extract_lets +onlyGivenNames x
       first
         | (refine Keeps.cut x ?_ ?_
            on_goal 1 => unfold x; clear x
            on_goal 2 => intro _; clear_value x)
         | (refine Keeps.cutF x ?_ ?_
            on_goal 1 => unfold x; clear x
            on_goal 2 => intro hF; clear_value x)
         | (refine Keeps.cutF1 x ?_ ?_
            on_goal 1 => unfold x; clear x
            on_goal 2 => intro hF1; clear_value x)
         | (refine Keeps.cutF0 x ?_ ?_
            on_goal 1 => unfold x; clear x
            on_goal 2 => intro hF0; clear_value x)
         | (refine Keeps.cutFF x ?_ ?_
            on_goal 1 => unfold x; clear x
            on_goal 2 => intro hFF; clear_value x)
         | clear_value x)
    | with_reducible apply hF
    | with_reducible apply hF1
    | with_reducible apply hF0
    | with_reducible apply hFF
    | intro _
    | with_reducible apply Keeps.ite_
    | (fail_if_no_progress with_reducible apply Keeps.upd)
    | dsimp -zeta only []
    | split
    | apply Keeps.ite_

theorem scrub_keeps {s0 s} {a0 a1} (h : Keeps s0 s) : Keeps s0 (scrub a0 a1 s) := by
  unfold scrub
  repeat' first
    | with_reducible assumption
    | with_reducible apply onSlice_keeps
    | with_reducible apply stackUe_keeps
    | with_reducible apply farUe_keeps
    | (extract_lets +onlyGivenNames x
       first
         | (refine Keeps.cut x ?_ ?_
            on_goal 1 => unfold x; clear x
            on_goal 2 => intro _; clear_value x)
         | clear_value x)
    | intro _
    | with_reducible apply Keeps.ite_
    | (fail_if_no_progress with_reducible apply Keeps.upd)
    | split
    | apply Keeps.ite_

theorem execPatrolScrub_keeps {s} {a0 a1} : ∃ t, execPatrolScrub a0 a1 s = .next t ∧ Keeps s t := by
  refine ⟨_, rfl, ?_⟩
  have h := Keeps.same s
  repeat' first
    | with_reducible assumption
    | with_reducible apply scrub_keeps
    | with_reducible apply Keeps.ite_
    | apply Keeps.ite_

theorem cxlRecord_keeps {s0 s} {a0 a1} (h : Keeps s0 s) : Keeps s0 (cxlRecord a0 s a1) := by
  unfold cxlRecord
  repeat' first
    | with_reducible assumption
    | with_reducible apply farUe_keeps
    | with_reducible apply partLoss_keeps
    | (extract_lets +onlyGivenNames x
       first
         | (refine Keeps.cut x ?_ ?_
            on_goal 1 => unfold x; clear x
            on_goal 2 => intro _; clear_value x)
         | clear_value x)
    | intro _
    | with_reducible apply Keeps.ite_
    | (fail_if_no_progress with_reducible apply Keeps.upd)
    | split
    | apply Keeps.ite_

theorem execCxlEventInterrupt_keeps {s} {a0 a1} : ∃ t, execCxlEventInterrupt a0 a1 s = .next t ∧ Keeps s t := by
  refine ⟨_, rfl, ?_⟩
  have h := Keeps.same s
  repeat' first
    | with_reducible assumption
    | with_reducible apply cxlRecord_keeps
    | with_reducible apply Keeps.ite_
    | (with_reducible refine Keeps.foldl (fun _ _ _ => ?_) ?_)
    | apply Keeps.ite_

end Sys2Proof.Machine
end

