-- ==== Sys2Proof/Laws/KeepsPower.lean ====
section
/-!
SUPPORT. Sys2Proof/Laws/KeepsPower.lean: what the operations of Machine/Power.lean keep (`Keeps`).
-/
set_option linter.all false
namespace Sys2Proof.Machine

theorem stepDie_keeps {s0 s} {a0} (h : Keeps s0 s) : Keeps s0 (stepDie s a0) := by
  unfold stepDie
  repeat' first
    | with_reducible assumption
    | (extract_lets +onlyGivenNames x
       first
         | (refine Keeps.cut x ?_ ?_
            on_goal 1 => unfold x; clear x
            on_goal 2 => intro _; clear_value x)
         | clear_value x)
    | intro _
    | with_reducible apply Keeps.ite_
    | (fail_if_no_progress with_reducible apply Keeps.upd)
    | apply Keeps.ite_

theorem hotDie_keeps {s0 s} {a0} (h : Keeps s0 s) : Keeps s0 (hotDie s a0) := by
  unfold hotDie
  repeat' first
    | with_reducible assumption
    | with_reducible apply partLoss_keeps
    | with_reducible apply enterHalt_keeps
    | with_reducible apply Keeps.ite_
    | apply Keeps.ite_

theorem applyStep_keeps {s0 s} (h : Keeps s0 s) : Keeps s0 (applyStep s) := by
  unfold applyStep
  repeat' first
    | with_reducible assumption
    | with_reducible apply hotDie_keeps
    | with_reducible apply stepDie_keeps
    | (with_reducible refine Keeps.foldl (fun _ _ _ => ?_) ?_)

theorem readStep_keeps {s0 s} {a0} (h : Keeps s0 s) : Keeps s0 (readStep a0 s) := by
  unfold readStep
  repeat' first
    | with_reducible assumption
    | (extract_lets +onlyGivenNames x
       first
         | (refine Keeps.cut x ?_ ?_
            on_goal 1 => unfold x; clear x
            on_goal 2 => intro _; clear_value x)
         | (refine Keeps.cutF x ?_ ?_
            on_goal 1 => unfold x; clear x
            on_goal 2 => intro hF; clear_value x)
         | (refine Keeps.cutF1 x ?_ ?_
            on_goal 1 => unfold x; clear x
            on_goal 2 => intro hF1; clear_value x)
         | (refine Keeps.cutF0 x ?_ ?_
            on_goal 1 => unfold x; clear x
            on_goal 2 => intro hF0; clear_value x)
         | (refine Keeps.cutFF x ?_ ?_
            on_goal 1 => unfold x; clear x
            on_goal 2 => intro hFF; clear_value x)
         | clear_value x)
    | with_reducible apply hF
    | with_reducible apply hF1
    | with_reducible apply hF0
    | with_reducible apply hFF
    | intro _
    | with_reducible apply Keeps.ite_
    | (fail_if_no_progress with_reducible apply Keeps.upd)
    | dsimp -zeta only []
    | apply Keeps.ite_

theorem dvfsStep_keeps {s0 s} {a0} (h : Keeps s0 s) : Keeps s0 (dvfsStep a0 s) := by
  unfold dvfsStep
  repeat' first
    | with_reducible assumption
    | with_reducible apply readStep_keeps
    | with_reducible apply applyStep_keeps
    | (extract_lets +onlyGivenNames x
       first
         | (refine Keeps.cut x ?_ ?_
            on_goal 1 => unfold x; clear x
            on_goal 2 => intro _; clear_value x)
         | clear_value x)
    | with_reducible apply Keeps.ite_
    | (fail_if_no_progress with_reducible apply Keeps.upd)
    | apply Keeps.ite_

theorem execDvfsStep_keeps {s} {a0} : ∃ t, execDvfsStep a0 s = .next t ∧ Keeps s t := by
  refine ⟨_, rfl, ?_⟩
  have h := Keeps.same s
  repeat' first
    | with_reducible assumption
    | with_reducible apply dvfsStep_keeps
    | with_reducible apply Keeps.ite_
    | apply Keeps.ite_

theorem governDie_keeps {s0 s} {a0} (h : Keeps s0 s) : Keeps s0 (governDie s a0) := by
  unfold governDie
  repeat' first
    | with_reducible assumption
    | (extract_lets +onlyGivenNames x
       first
         | (refine Keeps.cut x ?_ ?_
            on_goal 1 => unfold x; clear x
            on_goal 2 => intro _; clear_value x)
         | clear_value x)
    | with_reducible apply Keeps.ite_
    | (fail_if_no_progress with_reducible apply Keeps.upd)
    | apply Keeps.ite_

theorem execPowerGovernor_keeps {s} : ∃ t, execPowerGovernor s = .next t ∧ Keeps s t := by
  refine ⟨_, rfl, ?_⟩
  have h := Keeps.same s
  repeat' first
    | with_reducible assumption
    | with_reducible apply governDie_keeps
    | (extract_lets +onlyGivenNames x
       first
         | (refine Keeps.cut x ?_ ?_
            on_goal 1 => unfold x; clear x
            on_goal 2 => intro _; clear_value x)
         | clear_value x)
    | with_reducible apply Keeps.ite_
    | (with_reducible refine Keeps.foldl (fun _ _ _ => ?_) ?_)
    | (fail_if_no_progress with_reducible apply Keeps.upd)
    | apply Keeps.ite_

theorem execPowerLimit_keeps {s} : ∃ t, execPowerLimit s = .next t ∧ Keeps s t := by
  refine ⟨_, rfl, ?_⟩
  have h := Keeps.same s
  repeat' first
    | with_reducible assumption
    | with_reducible apply raiseEvent_keeps
    | (extract_lets +onlyGivenNames x
       first
         | (refine Keeps.cut x ?_ ?_
            on_goal 1 => unfold x; clear x
            on_goal 2 => intro _; clear_value x)
         | clear_value x)
    | with_reducible apply Keeps.ite_
    | (fail_if_no_progress with_reducible apply Keeps.upd)
    | apply Keeps.ite_

theorem dueSeq_keeps {s0 s} {a0 a1} (h : Keeps s0 s) : Keeps s0 (dueSeq a0 a1 s) := by
  unfold dueSeq
  repeat' first
    | with_reducible assumption
    | (extract_lets +onlyGivenNames x
       first
         | (refine Keeps.cut x ?_ ?_
            on_goal 1 => unfold x; clear x
            on_goal 2 => intro _; clear_value x)
         | clear_value x)
    | with_reducible apply Keeps.ite_
    | (fail_if_no_progress with_reducible apply Keeps.upd)
    | apply Keeps.ite_

theorem onDomain_keeps {s0 s} {a0 a1} (h : Keeps s0 s) : Keeps s0 (onDomain a0 a1 s) := by
  unfold onDomain
  repeat' first
    | with_reducible assumption
    | (extract_lets +onlyGivenNames x
       first
         | (refine Keeps.cut x ?_ ?_
            on_goal 1 => unfold x; clear x
            on_goal 2 => intro _; clear_value x)
         | clear_value x)
    | (fail_if_no_progress with_reducible apply Keeps.upd)

theorem switchOn_keeps {s0 s} {a0} (h : Keeps s0 s) : Keeps s0 (switchOn a0 s) := by
  unfold switchOn
  repeat' first
    | with_reducible assumption
    | with_reducible apply onDomain_keeps
    | (extract_lets +onlyGivenNames x
       first
         | (refine Keeps.cut x ?_ ?_
            on_goal 1 => unfold x; clear x
            on_goal 2 => intro _; clear_value x)
         | clear_value x)
    | intro _
    | with_reducible apply Keeps.ite_
    | (fail_if_no_progress with_reducible apply Keeps.upd)
    | apply Keeps.ite_

theorem loseContents_keeps {s0 s} {a0} (h : Keeps s0 s) : Keeps s0 (loseContents a0 s) := by
  unfold loseContents
  repeat' first
    | with_reducible assumption
    | with_reducible apply zeroRange_keeps
    | (extract_lets +onlyGivenNames x
       first
         | (refine Keeps.cut x ?_ ?_
            on_goal 1 => unfold x; clear x
            on_goal 2 => intro _; clear_value x)
         | clear_value x)
    | with_reducible apply Keeps.ite_
    | apply Keeps.ite_

theorem switchOff_keeps {s0 s} {a0} (h : Keeps s0 s) : Keeps s0 (switchOff a0 s) := by
  unfold switchOff
  repeat' first
    | with_reducible assumption
    | with_reducible apply loseContents_keeps
    | with_reducible apply onDomain_keeps
    | (extract_lets +onlyGivenNames x
       first
         | (refine Keeps.cut x ?_ ?_
            on_goal 1 => unfold x; clear x
            on_goal 2 => intro _; clear_value x)
         | clear_value x)
    | intro _
    | with_reducible apply Keeps.ite_
    | (fail_if_no_progress with_reducible apply Keeps.upd)
    | apply Keeps.ite_

theorem clockEntry_keeps {s0 s} {a0 a1 a2} (h : Keeps s0 s) : Keeps s0 (clockEntry a0 a1 a2 s) := by
  unfold clockEntry
  repeat' first
    | with_reducible assumption
    | (extract_lets +onlyGivenNames x
       first
         | (refine Keeps.cut x ?_ ?_
            on_goal 1 => unfold x; clear x
            on_goal 2 => intro _; clear_value x)
         | clear_value x)
    | intro _
    | with_reducible apply Keeps.ite_
    | (fail_if_no_progress with_reducible apply Keeps.upd)
    | apply Keeps.ite_

theorem endSeq_keeps {d : SeqDue} {s0 s} (h : Keeps s0 s) : Keeps s0 (endSeq d s) := by
  unfold endSeq
  extract_lets held c1 s1 s2
  have h1 : Keeps s0 s1 := Keeps.upd h
  have h2 : Keeps s0 s2 := by
    unfold s2
    refine Keeps.ite_ h1 (Keeps.ite_ (enterHalt_keeps h1) ?_)
    clear_value s1
    split
    · rename_i he
      exact enterState_start h1 (by rw [eq_of_beq he]; rfl) (by decide) (by decide) (by decide)
    · exact h1
  exact Keeps.ite_ (applyStep_keeps h2) h2

theorem runEntry_keeps {s0 s} {a0 a1} (h : Keeps s0 s) : Keeps s0 (runEntry a0 a1 s) := by
  unfold runEntry
  repeat' first
    | with_reducible assumption
    | with_reducible apply endSeq_keeps
    | with_reducible apply switchOn_keeps
    | with_reducible apply switchOff_keeps
    | with_reducible apply clockEntry_keeps
    | with_reducible apply onDomain_keeps
    | (extract_lets +onlyGivenNames x
       first
         | (refine Keeps.cut x ?_ ?_
            on_goal 1 => unfold x; clear x
            on_goal 2 => intro _; clear_value x)
         | clear_value x)
    | intro _
    | with_reducible apply Keeps.ite_
    | (fail_if_no_progress with_reducible apply Keeps.upd)
    | split
    | apply Keeps.ite_

theorem execPowerSeqStart_keeps {s} : ∃ t, execPowerSeqStart s = .next t ∧ Keeps s t := by
  refine ⟨_, rfl, ?_⟩
  have h := Keeps.same s
  repeat' first
    | with_reducible assumption
    | (extract_lets +onlyGivenNames x
       first
         | (refine Keeps.cut x ?_ ?_
            on_goal 1 => unfold x; clear x
            on_goal 2 => intro _; clear_value x)
         | clear_value x)
    | with_reducible apply Keeps.ite_
    | (fail_if_no_progress with_reducible apply Keeps.upd)
    | split
    | apply Keeps.ite_

theorem execPowerSeqEntry_keeps {s} {a0} : ∃ t, execPowerSeqEntry a0 s = .next t ∧ Keeps s t := by
  refine ⟨_, rfl, ?_⟩
  have h := Keeps.same s
  repeat' first
    | with_reducible assumption
    | with_reducible apply runEntry_keeps
    | (extract_lets +onlyGivenNames x
       first
         | (refine Keeps.cut x ?_ ?_
            on_goal 1 => unfold x; clear x
            on_goal 2 => intro _; clear_value x)
         | (refine Keeps.cut2 x ?_ ?_
            on_goal 1 => unfold x; clear x
            on_goal 2 => intro _; clear_value x)
         | (refine Keeps.cutF x ?_ ?_
            on_goal 1 => unfold x; clear x
            on_goal 2 => intro hF; clear_value x)
         | (refine Keeps.cutF1 x ?_ ?_
            on_goal 1 => unfold x; clear x
            on_goal 2 => intro hF1; clear_value x)
         | (refine Keeps.cutF0 x ?_ ?_
            on_goal 1 => unfold x; clear x
            on_goal 2 => intro hF0; clear_value x)
         | (refine Keeps.cutFF x ?_ ?_
            on_goal 1 => unfold x; clear x
            on_goal 2 => intro hFF; clear_value x)
         | clear_value x)
    | with_reducible apply hF
    | with_reducible apply hF1
    | with_reducible apply hF0
    | with_reducible apply hFF
    | intro _
    | with_reducible apply Keeps.ite_
    | (with_reducible refine Keeps.foldl (fun _ _ _ => ?_) ?_)
    | (with_reducible refine Keeps.foldl2 (fun _ _ _ => ?_) ?_)
    | (fail_if_no_progress with_reducible apply Keeps.upd)
    | dsimp -zeta only []
    | with_reducible refine Keeps.ofPair (by with_reducible assumption) ?_
    | split
    | apply Keeps.ite_

theorem bringupFail_keeps {s0 s} {a0} (h : Keeps s0 s) : Keeps s0 (bringupFail a0 s) := by
  unfold bringupFail
  repeat' first
    | with_reducible assumption
    | with_reducible apply onDomain_keeps
    | with_reducible apply partLoss_keeps
    | (extract_lets +onlyGivenNames x
       first
         | (refine Keeps.cut x ?_ ?_
            on_goal 1 => unfold x; clear x
            on_goal 2 => intro _; clear_value x)
         | clear_value x)
    | intro _
    | with_reducible apply Keeps.ite_
    | (with_reducible refine Keeps.foldl (fun _ _ _ => ?_) ?_)
    | (fail_if_no_progress with_reducible apply Keeps.upd)
    | apply Keeps.ite_

theorem seqFail_keeps {s0 s} {a0 a1} (h : Keeps s0 s) : Keeps s0 (seqFail a0 a1 s) := by
  unfold seqFail
  repeat' first
    | with_reducible assumption
    | with_reducible apply logError_keeps
    | (extract_lets +onlyGivenNames x
       first
         | (refine Keeps.cut x ?_ ?_
            on_goal 1 => unfold x; clear x
            on_goal 2 => intro _; clear_value x)
         | clear_value x)
    | (fail_if_no_progress with_reducible apply Keeps.upd)

theorem execWaitGoodTimeout_keeps {s} : ∃ t, execWaitGoodTimeout s = .next t ∧ Keeps s t := by
  refine ⟨_, rfl, ?_⟩
  have h := Keeps.same s
  repeat' first
    | with_reducible assumption
    | with_reducible apply bringupFail_keeps
    | with_reducible apply seqFail_keeps
    | (extract_lets +onlyGivenNames x
       first
         | (refine Keeps.cut x ?_ ?_
            on_goal 1 => unfold x; clear x
            on_goal 2 => intro _; clear_value x)
         | clear_value x)
    | with_reducible apply Keeps.ite_
    | (fail_if_no_progress with_reducible apply Keeps.upd)
    | split
    | apply Keeps.ite_

theorem execInputSag_keeps {s} : ∃ t, execInputSag s = .next t ∧ Keeps s t := by
  refine ⟨_, rfl, ?_⟩
  have h := Keeps.same s
  repeat' first
    | with_reducible assumption
    | with_reducible apply dueSeq_keeps
    | with_reducible apply raiseEvent_keeps
    | (extract_lets +onlyGivenNames x
       first
         | (refine Keeps.cut x ?_ ?_
            on_goal 1 => unfold x; clear x
            on_goal 2 => intro _; clear_value x)
         | clear_value x)
    | with_reducible apply Keeps.ite_
    | (fail_if_no_progress with_reducible apply Keeps.upd)
    | apply Keeps.ite_

theorem execSagEnd_keeps {s} : ∃ t, execSagEnd s = .next t ∧ Keeps s t := by
  refine ⟨_, rfl, ?_⟩
  have h := Keeps.same s
  repeat' first
    | with_reducible assumption
    | (extract_lets +onlyGivenNames x
       first
         | (refine Keeps.cut x ?_ ?_
            on_goal 1 => unfold x; clear x
            on_goal 2 => intro _; clear_value x)
         | clear_value x)
    | with_reducible apply Keeps.ite_
    | (fail_if_no_progress with_reducible apply Keeps.upd)
    | apply Keeps.ite_

theorem failState_keeps {s0 s} (h : Keeps s0 s) : Keeps s0 (failState s) := by
  unfold failState
  repeat' first
    | with_reducible assumption
    | with_reducible apply jAdd_keeps

theorem failTick_keeps {s0 s} (h : Keeps s0 s) : Keeps s0 (failTick s) := by
  unfold failTick
  repeat' first
    | with_reducible assumption
    | with_reducible apply closeEpoch_keeps
    | with_reducible apply dueSeq_keeps
    | with_reducible apply failState_keeps
    | (fail_if_no_progress with_reducible refine Keeps.updSys ?_ (by rfl) (by rfl) (by rfl) (by rfl) (by rfl))
    | (extract_lets +onlyGivenNames x
       first
         | (refine Keeps.cut x ?_ ?_
            on_goal 1 => unfold x; clear x
            on_goal 2 => intro _; clear_value x)
         | (have : Sys := x; clear this; unfold x; clear x)
         | clear_value x)
    | with_reducible apply Keeps.ite_
    | (fail_if_no_progress with_reducible apply Keeps.upd)
    | apply Keeps.ite_











theorem signFail_keeps {s0 s} {a0} (h : Keeps s0 s) : Keeps s0 (signFail a0 s) := by
  unfold signFail
  repeat' first
    | with_reducible assumption
    | with_reducible apply keepSummaries_keeps
    | with_reducible apply logError_keeps
    | with_reducible apply enterHalt_keeps
    | with_reducible apply failState_keeps
    | (extract_lets +onlyGivenNames x
       first
         | (refine Keeps.cut x ?_ ?_
            on_goal 1 => unfold x; clear x
            on_goal 2 => intro _; clear_value x)
         | (refine Keeps.cut2 x ?_ ?_
            on_goal 1 => unfold x; clear x
            on_goal 2 => intro _; clear_value x)
         | (refine Keeps.cutF x ?_ ?_
            on_goal 1 => unfold x; clear x
            on_goal 2 => intro hF; clear_value x)
         | (refine Keeps.cutF1 x ?_ ?_
            on_goal 1 => unfold x; clear x
            on_goal 2 => intro hF1; clear_value x)
         | (refine Keeps.cutF0 x ?_ ?_
            on_goal 1 => unfold x; clear x
            on_goal 2 => intro hF0; clear_value x)
         | (refine Keeps.cutFF x ?_ ?_
            on_goal 1 => unfold x; clear x
            on_goal 2 => intro hFF; clear_value x)
         | clear_value x)
    | with_reducible apply hF
    | with_reducible apply hF1
    | with_reducible apply hF0
    | with_reducible apply hFF
    | intro _
    | with_reducible apply Keeps.ite_
    | (with_reducible refine Keeps.foldl (fun _ _ _ => ?_) ?_)
    | (with_reducible refine Keeps.foldl2 (fun _ _ _ => ?_) ?_)
    | (fail_if_no_progress with_reducible apply Keeps.upd)
    | dsimp -zeta only []
    | with_reducible refine Keeps.ofPair (by with_reducible assumption) ?_
    | split
    | apply Keeps.ite_

theorem execEpochSigned_keeps {s} {a0} : ∃ t, execEpochSigned a0 s = .next t ∧ Keeps s t := by
  refine ⟨_, rfl, ?_⟩
  have h := Keeps.same s
  repeat' first
    | with_reducible assumption
    | with_reducible apply signEpoch_keeps
    | with_reducible apply failState_keeps
    | with_reducible apply signFail_keeps
    | (extract_lets +onlyGivenNames x
       first
         | (refine Keeps.cut x ?_ ?_
            on_goal 1 => unfold x; clear x
            on_goal 2 => intro _; clear_value x)
         | clear_value x)
    | with_reducible apply Keeps.ite_
    | (fail_if_no_progress with_reducible apply Keeps.upd)
    | split
    | apply Keeps.ite_

end Sys2Proof.Machine
end

