-- ==== Sys2Proof/Laws/KeepsStartup.lean ====
section
/-!
SUPPORT. Sys2Proof/Laws/KeepsStartup.lean: what the operations of Machine/Startup.lean keep (`Keeps`).
-/
set_option linter.all false
namespace Sys2Proof.Machine

theorem execRomDone_keeps {s} : ∃ t, execRomDone s = .next t ∧ Keeps s t := by
  refine ⟨_, rfl, ?_⟩
  split
  · rename_i he
    exact enterState_start (raiseEvent_keeps (jAdd_keeps (Keeps.same s))) (by simp [eq_of_beq he]; rfl) (by decide) (by decide)
      (by decide)
  · exact Keeps.same s

theorem acceptImage_keeps {s0 s} {a0 a1 a2} (h : Keeps s0 s) : Keeps s0 (acceptImage a0 a1 a2 s) := by
  unfold acceptImage
  repeat' first
    | with_reducible assumption
    | with_reducible apply jAdd_keeps
    | with_reducible apply dueSeq_keeps
    | (fail_if_no_progress with_reducible refine Keeps.updSys ?_ (by rfl) (by rfl) (by rfl) (by rfl) (by rfl))
    | (extract_lets +onlyGivenNames x
       first
         | (refine Keeps.cut x ?_ ?_
            on_goal 1 => unfold x; clear x
            on_goal 2 => intro _; clear_value x)
         | (have : Sys := x; clear this; unfold x; clear x)
         | clear_value x)
    | intro _
    | (fail_if_no_progress with_reducible apply Keeps.upd)

theorem execImageCheck_keeps {k : Fin 2} {s} : ∃ t, execImageCheck k s = .next t ∧ Keeps s t := by
  refine ⟨_, rfl, ?_⟩
  split
  · exact Keeps.same s
  · have key : ∀ {c : BitVec 8}, Keeps s { s with sys := if k = 0 then { s.sys with aChecked := true, aCode := c }
                                                         else { s.sys with bChecked := true, bCode := c } } := fun {c} =>
      Keeps.updSys (Keeps.same s) (by split <;> rfl) (by split <;> rfl) (by split <;> rfl) (by split <;> rfl)
        (by split <;> rfl)
    dsimp only
    split
    · exact key
    · exact acceptImage_keeps (Keeps.ite_ key (raiseEvent_keeps key))

theorem replayLedger_keeps {s0 s} {a0} (h : Keeps s0 s) : Keeps s0 (replayLedger a0 s) := by
  unfold replayLedger
  repeat' first
    | with_reducible assumption
    | (extract_lets +onlyGivenNames x
       first
         | (refine Keeps.cut x ?_ ?_
            on_goal 1 => unfold x; clear x
            on_goal 2 => intro _; clear_value x)
         | clear_value x)
    | intro _
    | with_reducible apply Keeps.ite_
    | (with_reducible refine Keeps.foldl (fun _ _ _ => ?_) ?_)
    | (fail_if_no_progress with_reducible apply Keeps.upd)
    | split
    | apply Keeps.ite_

theorem crcError_keeps {s0 s} {a0} (h : Keeps s0 s) : Keeps s0 (crcError a0 s) := by
  unfold crcError
  repeat' first
    | with_reducible assumption
    | with_reducible apply logError_keeps
    | (extract_lets +onlyGivenNames x
       first
         | (refine Keeps.cut x ?_ ?_
            on_goal 1 => unfold x; clear x
            on_goal 2 => intro _; clear_value x)
         | clear_value x)
    | intro _

theorem newJournal_keeps {s0 s} {a0} (h : Keeps s0 s) : Keeps s0 (newJournal a0 s) := by
  unfold newJournal
  repeat' first
    | with_reducible assumption
    | with_reducible apply onRegion_keeps
    | (extract_lets +onlyGivenNames x
       first
         | (refine Keeps.cut x ?_ ?_
            on_goal 1 => unfold x; clear x
            on_goal 2 => intro _; clear_value x)
         | (refine Keeps.cut2 x ?_ ?_
            on_goal 1 => unfold x; clear x
            on_goal 2 => intro _; clear_value x)
         | (refine Keeps.cutF x ?_ ?_
            on_goal 1 => unfold x; clear x
            on_goal 2 => intro hF; clear_value x)
         | (refine Keeps.cutF1 x ?_ ?_
            on_goal 1 => unfold x; clear x
            on_goal 2 => intro hF1; clear_value x)
         | (refine Keeps.cutF0 x ?_ ?_
            on_goal 1 => unfold x; clear x
            on_goal 2 => intro hF0; clear_value x)
         | (refine Keeps.cutFF x ?_ ?_
            on_goal 1 => unfold x; clear x
            on_goal 2 => intro hFF; clear_value x)
         | clear_value x)
    | with_reducible apply hF
    | with_reducible apply hF1
    | with_reducible apply hF0
    | with_reducible apply hFF
    | intro _
    | with_reducible apply Keeps.ite_
    | (with_reducible refine Keeps.foldl (fun _ _ _ => ?_) ?_)
    | (with_reducible refine Keeps.foldl2 (fun _ _ _ => ?_) ?_)
    | (fail_if_no_progress with_reducible apply Keeps.upd)
    | dsimp -zeta only []
    | with_reducible refine Keeps.ofPair (by with_reducible assumption) ?_
    | split
    | apply Keeps.ite_

theorem eraseOther_keeps {s0 s} (h : Keeps s0 s) : Keeps s0 (eraseOther s) := by
  unfold eraseOther
  repeat' first
    | with_reducible assumption
    | with_reducible apply onRegion_keeps
    | (extract_lets +onlyGivenNames x
       first
         | (refine Keeps.cut x ?_ ?_
            on_goal 1 => unfold x; clear x
            on_goal 2 => intro _; clear_value x)
         | clear_value x)
    | intro _
    | (fail_if_no_progress with_reducible apply Keeps.upd)

theorem setReplayed_keeps {s0 s} {a0} (h : Keeps s0 s) : Keeps s0 (setReplayed a0 s) := by
  unfold setReplayed
  repeat' first
    | with_reducible assumption
    | (extract_lets +onlyGivenNames x
       first
         | (refine Keeps.cut x ?_ ?_
            on_goal 1 => unfold x; clear x
            on_goal 2 => intro _; clear_value x)
         | (refine Keeps.cut2 x ?_ ?_
            on_goal 1 => unfold x; clear x
            on_goal 2 => intro _; clear_value x)
         | (refine Keeps.cutF x ?_ ?_
            on_goal 1 => unfold x; clear x
            on_goal 2 => intro hF; clear_value x)
         | (refine Keeps.cutF1 x ?_ ?_
            on_goal 1 => unfold x; clear x
            on_goal 2 => intro hF1; clear_value x)
         | (refine Keeps.cutF0 x ?_ ?_
            on_goal 1 => unfold x; clear x
            on_goal 2 => intro hF0; clear_value x)
         | (refine Keeps.cutFF x ?_ ?_
            on_goal 1 => unfold x; clear x
            on_goal 2 => intro hFF; clear_value x)
         | clear_value x)
    | with_reducible apply hF
    | with_reducible apply hF1
    | with_reducible apply hF0
    | with_reducible apply hFF
    | intro _
    | with_reducible apply Keeps.ite_
    | (with_reducible refine Keeps.foldl (fun _ _ _ => ?_) ?_)
    | (with_reducible refine Keeps.foldl2 (fun _ _ _ => ?_) ?_)
    | (fail_if_no_progress with_reducible apply Keeps.upd)
    | dsimp -zeta only []
    | with_reducible refine Keeps.ofPair (by with_reducible assumption) ?_
    | split
    | apply Keeps.ite_

theorem freshJournal_keeps {s0 s} (h : Keeps s0 s) : Keeps s0 (freshJournal s) :=
  eraseOther_keeps (newJournal_keeps
    (Keeps.updSys (replayLedger_keeps (setReplayed_keeps h)) (by rfl) (by rfl) (by rfl) (by rfl) (by rfl)))

theorem replayJournal_keeps {s0 s} (h : Keeps s0 s) : Keeps s0 (replayJournal s) := by
  unfold replayJournal
  repeat' first
    | with_reducible assumption
    | with_reducible apply freshJournal_keeps
    | with_reducible apply eraseOther_keeps
    | with_reducible apply replayLedger_keeps
    | with_reducible apply setReplayed_keeps
    | with_reducible apply crcError_keeps
    | (fail_if_no_progress with_reducible refine Keeps.updSys ?_ (by rfl) (by rfl) (by rfl) (by rfl) (by rfl))
    | (extract_lets +onlyGivenNames x
       first
         | (refine Keeps.cut x ?_ ?_
            on_goal 1 => unfold x; clear x
            on_goal 2 => intro _; clear_value x)
         | (have : Sys := x; clear this; unfold x; clear x)
         | clear_value x)
    | with_reducible apply Keeps.ite_
    | (fail_if_no_progress with_reducible apply Keeps.upd)
    | split
    | apply Keeps.ite_

theorem openKvs_keeps {s0 s} (h : Keeps s0 s) : Keeps s0 (openKvs s) := by
  unfold openKvs
  repeat' first
    | with_reducible assumption
    | with_reducible apply openKv_keeps
    | (extract_lets +onlyGivenNames x
       first
         | (refine Keeps.cut x ?_ ?_
            on_goal 1 => unfold x; clear x
            on_goal 2 => intro _; clear_value x)
         | (refine Keeps.cut2 x ?_ ?_
            on_goal 1 => unfold x; clear x
            on_goal 2 => intro _; clear_value x)
         | (refine Keeps.cutF x ?_ ?_
            on_goal 1 => unfold x; clear x
            on_goal 2 => intro hF; clear_value x)
         | (refine Keeps.cutF1 x ?_ ?_
            on_goal 1 => unfold x; clear x
            on_goal 2 => intro hF1; clear_value x)
         | (refine Keeps.cutF0 x ?_ ?_
            on_goal 1 => unfold x; clear x
            on_goal 2 => intro hF0; clear_value x)
         | (refine Keeps.cutFF x ?_ ?_
            on_goal 1 => unfold x; clear x
            on_goal 2 => intro hFF; clear_value x)
         | clear_value x)
    | with_reducible apply hF
    | with_reducible apply hF1
    | with_reducible apply hF0
    | with_reducible apply hFF
    | intro _
    | with_reducible apply Keeps.ite_
    | (with_reducible refine Keeps.foldl (fun _ _ _ => ?_) ?_)
    | (with_reducible refine Keeps.foldl2 (fun _ _ _ => ?_) ?_)
    | (fail_if_no_progress with_reducible apply Keeps.upd)
    | dsimp -zeta only []
    | with_reducible refine Keeps.ofPair (by with_reducible assumption) ?_
    | split
    | apply Keeps.ite_

theorem replayLosses_keeps {s0 s} (h : Keeps s0 s) : Keeps s0 (replayLosses s) := by
  unfold replayLosses
  repeat' first
    | with_reducible assumption
    | with_reducible apply loseTables_keeps
    | with_reducible apply loseKvs_keeps
    | (extract_lets +onlyGivenNames x
       first
         | (refine Keeps.cut x ?_ ?_
            on_goal 1 => unfold x; clear x
            on_goal 2 => intro _; clear_value x)
         | (refine Keeps.cut2 x ?_ ?_
            on_goal 1 => unfold x; clear x
            on_goal 2 => intro _; clear_value x)
         | (refine Keeps.cutF x ?_ ?_
            on_goal 1 => unfold x; clear x
            on_goal 2 => intro hF; clear_value x)
         | (refine Keeps.cutF1 x ?_ ?_
            on_goal 1 => unfold x; clear x
            on_goal 2 => intro hF1; clear_value x)
         | (refine Keeps.cutF0 x ?_ ?_
            on_goal 1 => unfold x; clear x
            on_goal 2 => intro hF0; clear_value x)
         | (refine Keeps.cutFF x ?_ ?_
            on_goal 1 => unfold x; clear x
            on_goal 2 => intro hFF; clear_value x)
         | clear_value x)
    | with_reducible apply hF
    | with_reducible apply hF1
    | with_reducible apply hF0
    | with_reducible apply hFF
    | intro _
    | with_reducible apply Keeps.ite_
    | (fail_if_no_progress with_reducible apply Keeps.upd)
    | dsimp -zeta only []
    | with_reducible refine Keeps.ofPair (by with_reducible assumption) ?_
    | split
    | apply Keeps.ite_

theorem markTrained_keeps {s0 s} {a0} (h : Keeps s0 s) : Keeps s0 (markTrained a0 s) := by
  unfold markTrained
  repeat' first
    | with_reducible assumption
    | (extract_lets +onlyGivenNames x
       first
         | (refine Keeps.cut x ?_ ?_
            on_goal 1 => unfold x; clear x
            on_goal 2 => intro _; clear_value x)
         | (refine Keeps.cut2 x ?_ ?_
            on_goal 1 => unfold x; clear x
            on_goal 2 => intro _; clear_value x)
         | (refine Keeps.cutF x ?_ ?_
            on_goal 1 => unfold x; clear x
            on_goal 2 => intro hF; clear_value x)
         | (refine Keeps.cutF1 x ?_ ?_
            on_goal 1 => unfold x; clear x
            on_goal 2 => intro hF1; clear_value x)
         | (refine Keeps.cutF0 x ?_ ?_
            on_goal 1 => unfold x; clear x
            on_goal 2 => intro hF0; clear_value x)
         | (refine Keeps.cutFF x ?_ ?_
            on_goal 1 => unfold x; clear x
            on_goal 2 => intro hFF; clear_value x)
         | clear_value x)
    | with_reducible apply hF
    | with_reducible apply hF1
    | with_reducible apply hF0
    | with_reducible apply hFF
    | intro _
    | with_reducible apply Keeps.ite_
    | (with_reducible refine Keeps.foldl (fun _ _ _ => ?_) ?_)
    | (with_reducible refine Keeps.foldl2 (fun _ _ _ => ?_) ?_)
    | (fail_if_no_progress with_reducible apply Keeps.upd)
    | dsimp -zeta only []
    | with_reducible refine Keeps.ofPair (by with_reducible assumption) ?_
    | split
    | apply Keeps.ite_

theorem missingPart_keeps {s0 s} {a0} (h : Keeps s0 s) : Keeps s0 (missingPart s a0) := by
  unfold missingPart
  repeat' first
    | with_reducible assumption
    | with_reducible apply partLoss_keeps
    | (extract_lets +onlyGivenNames x
       first
         | (refine Keeps.cut x ?_ ?_
            on_goal 1 => unfold x; clear x
            on_goal 2 => intro _; clear_value x)
         | (refine Keeps.cut2 x ?_ ?_
            on_goal 1 => unfold x; clear x
            on_goal 2 => intro _; clear_value x)
         | (refine Keeps.cutF x ?_ ?_
            on_goal 1 => unfold x; clear x
            on_goal 2 => intro hF; clear_value x)
         | (refine Keeps.cutF1 x ?_ ?_
            on_goal 1 => unfold x; clear x
            on_goal 2 => intro hF1; clear_value x)
         | (refine Keeps.cutF0 x ?_ ?_
            on_goal 1 => unfold x; clear x
            on_goal 2 => intro hF0; clear_value x)
         | (refine Keeps.cutFF x ?_ ?_
            on_goal 1 => unfold x; clear x
            on_goal 2 => intro hFF; clear_value x)
         | clear_value x)
    | with_reducible apply hF
    | with_reducible apply hF1
    | with_reducible apply hF0
    | with_reducible apply hFF
    | intro _
    | with_reducible apply Keeps.ite_
    | (with_reducible refine Keeps.foldl (fun _ _ _ => ?_) ?_)
    | (with_reducible refine Keeps.foldl2 (fun _ _ _ => ?_) ?_)
    | (fail_if_no_progress with_reducible apply Keeps.upd)
    | dsimp -zeta only []
    | with_reducible refine Keeps.ofPair (by with_reducible assumption) ?_
    | split
    | apply Keeps.ite_

theorem repairExpanders_keeps {s0 s} (h : Keeps s0 s) : Keeps s0 (repairExpanders s) := by
  unfold repairExpanders
  repeat' first
    | with_reducible assumption
    | (extract_lets +onlyGivenNames x
       first
         | (refine Keeps.cut x ?_ ?_
            on_goal 1 => unfold x; clear x
            on_goal 2 => intro _; clear_value x)
         | (refine Keeps.cut2 x ?_ ?_
            on_goal 1 => unfold x; clear x
            on_goal 2 => intro _; clear_value x)
         | (refine Keeps.cutF x ?_ ?_
            on_goal 1 => unfold x; clear x
            on_goal 2 => intro hF; clear_value x)
         | (refine Keeps.cutF1 x ?_ ?_
            on_goal 1 => unfold x; clear x
            on_goal 2 => intro hF1; clear_value x)
         | (refine Keeps.cutF0 x ?_ ?_
            on_goal 1 => unfold x; clear x
            on_goal 2 => intro hF0; clear_value x)
         | (refine Keeps.cutFF x ?_ ?_
            on_goal 1 => unfold x; clear x
            on_goal 2 => intro hFF; clear_value x)
         | clear_value x)
    | with_reducible apply hF
    | with_reducible apply hF1
    | with_reducible apply hF0
    | with_reducible apply hFF
    | intro _
    | with_reducible apply Keeps.ite_
    | (with_reducible refine Keeps.foldl (fun _ _ _ => ?_) ?_)
    | (with_reducible refine Keeps.foldl2 (fun _ _ _ => ?_) ?_)
    | (fail_if_no_progress with_reducible apply Keeps.upd)
    | dsimp -zeta only []
    | with_reducible refine Keeps.ofPair (by with_reducible assumption) ?_
    | split
    | apply Keeps.ite_

theorem trained_keeps {l : List PartId} {s0 s} (h : Keeps s0 s) : Keeps s0 (trained l s) := by
  unfold trained
  extract_lets s1 s2 s3 s4 c1
  have h2 : Keeps s0 s2 :=
    Keeps.foldl (fun _ _ => missingPart_keeps) (repairExpanders_keeps (markTrained_keeps (replayLosses_keeps (replayJournal_keeps h))))
  clear_value s2
  split
  · exact h2
  · rename_i he
    have he' : s2.sys.state = .train := by simpa using he
    have h3 : Keeps s0 s3 := enterState_start h2 (by rw [he']; rfl) (by decide) (by decide) (by decide)
    have h4 : Keeps s0 s4 := storeDefaults_keeps (placeKernels_keeps (openKvs_keeps h3))
    have key : ∀ {T : State}, Keeps s0 T → Keeps s0 { T with sys := { T.sys with replayDone := true } } :=
      fun hT => Keeps.updSys hT (by rfl) (by rfl) (by rfl) (by rfl) (by rfl)
    exact jKick_keeps (key h4)

theorem execTrained_keeps {s} {a0} : ∃ t, execTrained a0 s = .next t ∧ Keeps s t := by
  refine ⟨_, rfl, ?_⟩
  have h := Keeps.same s
  repeat' first
    | with_reducible assumption
    | with_reducible apply trained_keeps
    | with_reducible apply Keeps.ite_
    | apply Keeps.ite_

theorem enterRun_keeps {s0 s} (h : Keeps s0 s) (hs : s.sys.state = .replay) : Keeps s0 (enterRun s) := by
  unfold enterRun
  have h1 : Keeps s0 (enterState (if s.sys.lossSeen then .degraded else .run) 0x05 0 s) := by
    refine enterState_keeps h (by rw [hs]; cases s.sys.lossSeen <;> rfl) fun _ => ?_
    simp only [Machine.lossShown]
    cases s.sys.lossSeen <;> cases s.sys.prior <;> decide
  exact watchOrphan_keeps (relevel_keeps (Keeps.upd (openDump_keeps (openEpoch_keeps h1))))

theorem execEnterRun_keeps {s} : ∃ t, execEnterRun s = .next t ∧ Keeps s t := by
  refine ⟨_, rfl, ?_⟩
  split
  · rename_i he
    simp only [Bool.and_eq_true] at he
    exact enterRun_keeps (Keeps.same s) (eq_of_beq he.1.1)
  · exact Keeps.same s

end Sys2Proof.Machine
end

