-- ==== Sys2Proof/Laws/KeepsBmc.lean ====
section
/-!
SUPPORT. Sys2Proof/Laws/KeepsBmc.lean: what the operations of Machine/Bmc.lean keep (`Keeps`).
-/
set_option linter.all false
namespace Sys2Proof.Machine

theorem onEndpoint_keeps {e : Fin 2} {g : State → State} {s0 s} (hg : ∀ s, Keeps s0 s → Keeps s0 (g s)) (h : Keeps s0 s) :
    Keeps s0 (onEndpoint e g s) := Keeps.ite_ (hg s h) h

theorem answerBmc_keeps {s0 s} {a0 a1 a2} (h : Keeps s0 s) : Keeps s0 (answerBmc a0 a1 a2 s) := by
  unfold answerBmc
  repeat' first
    | with_reducible assumption
    | with_reducible apply emit_keeps

theorem execSetEndpointId_keeps {s} {a0 a1} : ∃ t, execSetEndpointId a0 a1 s = .next t ∧ Keeps s t := by
  refine ⟨_, rfl, ?_⟩
  have h := Keeps.same s
  repeat' first
    | with_reducible assumption
    | with_reducible apply onEndpoint_keeps
    | with_reducible apply answerBmc_keeps
    | (extract_lets +onlyGivenNames x
       first
         | (refine Keeps.cut x ?_ ?_
            on_goal 1 => unfold x; clear x
            on_goal 2 => intro _; clear_value x)
         | clear_value x)
    | intro _
    | (fail_if_no_progress with_reducible apply Keeps.upd)

theorem execGetSensorReading_keeps {s} {a0 a1} : ∃ t, execGetSensorReading a0 a1 s = .next t ∧ Keeps s t := by
  refine ⟨_, rfl, ?_⟩
  have h := Keeps.same s
  repeat' first
    | with_reducible assumption
    | with_reducible apply onEndpoint_keeps
    | with_reducible apply answerBmc_keeps
    | (extract_lets +onlyGivenNames x
       first
         | (refine Keeps.cut x ?_ ?_
            on_goal 1 => unfold x; clear x
            on_goal 2 => intro _; clear_value x)
         | clear_value x)
    | intro _
    | (fail_if_no_progress with_reducible apply Keeps.upd)
    | split

theorem execGetStateSensorReadings_keeps {s} {a0 a1} : ∃ t, execGetStateSensorReadings a0 a1 s = .next t ∧ Keeps s t := by
  refine ⟨_, rfl, ?_⟩
  have h := Keeps.same s
  repeat' first
    | with_reducible assumption
    | with_reducible apply onEndpoint_keeps
    | with_reducible apply answerBmc_keeps
    | (extract_lets +onlyGivenNames x
       first
         | (refine Keeps.cut x ?_ ?_
            on_goal 1 => unfold x; clear x
            on_goal 2 => intro _; clear_value x)
         | clear_value x)
    | intro _
    | (fail_if_no_progress with_reducible apply Keeps.upd)
    | split

theorem execGetPdr_keeps {s} {a0 a1} : ∃ t, execGetPdr a0 a1 s = .next t ∧ Keeps s t := by
  refine ⟨_, rfl, ?_⟩
  have h := Keeps.same s
  repeat' first
    | with_reducible assumption
    | with_reducible apply onEndpoint_keeps
    | with_reducible apply answerBmc_keeps
    | intro _

theorem execRequestUpdate_keeps {s} {a0} : ∃ t, execRequestUpdate a0 s = .next t ∧ Keeps s t := by
  refine ⟨_, rfl, ?_⟩
  have h := Keeps.same s
  repeat' first
    | with_reducible assumption
    | with_reducible apply onEndpoint_keeps
    | with_reducible apply answerBmc_keeps
    | with_reducible apply takeStaging_keeps
    | intro _
    | with_reducible apply Keeps.ite_
    | apply Keeps.ite_

theorem execRequestFirmwareData_keeps {s} {a0 a1 a2} : ∃ t, execRequestFirmwareData a0 a1 a2 s = .next t ∧ Keeps s t := by
  refine ⟨_, rfl, ?_⟩
  have h := Keeps.same s
  repeat' first
    | with_reducible assumption
    | with_reducible apply onEndpoint_keeps
    | with_reducible apply answerBmc_keeps
    | with_reducible apply stageBytes_keeps
    | intro _
    | with_reducible apply Keeps.ite_
    | apply Keeps.ite_

theorem execVerifyComplete_keeps {s} {a0} : ∃ t, execVerifyComplete a0 s = .next t ∧ Keeps s t := by
  refine ⟨_, rfl, ?_⟩
  have h := Keeps.same s
  repeat' first
    | with_reducible assumption
    | with_reducible apply onEndpoint_keeps
    | with_reducible apply answerBmc_keeps
    | (extract_lets +onlyGivenNames x
       first
         | (refine Keeps.cut x ?_ ?_
            on_goal 1 => unfold x; clear x
            on_goal 2 => intro _; clear_value x)
         | clear_value x)
    | intro _
    | with_reducible apply Keeps.ite_
    | (fail_if_no_progress with_reducible apply Keeps.upd)
    | apply Keeps.ite_

theorem execActivateFirmware_keeps {e : Fin 2} {s} : ∃ t, execActivateFirmware e s = .next t ∧ Keeps s t := by
  refine ⟨_, rfl, onEndpoint_keeps (fun s1 h => ?_) (Keeps.same s)⟩
  split
  · exact answerBmc_keeps h
  · have key := activate_keeps (b := .bmc) h
    split <;> · rename_i e; rw [e] at key; exact answerBmc_keeps key

theorem execStagingTimeout_keeps {s} : ∃ t, execStagingTimeout s = .next t ∧ Keeps s t := by
  refine ⟨_, rfl, ?_⟩
  have h := Keeps.same s
  repeat' first
    | with_reducible assumption
    | (extract_lets +onlyGivenNames x
       first
         | (refine Keeps.cut x ?_ ?_
            on_goal 1 => unfold x; clear x
            on_goal 2 => intro _; clear_value x)
         | clear_value x)
    | with_reducible apply Keeps.ite_
    | (fail_if_no_progress with_reducible apply Keeps.upd)
    | apply Keeps.ite_

theorem oemOp_keeps {s0 s} {a0 a1} (h : Keeps s0 s) : Keeps s0 (oemOp a0 a1 s).2 := by
  unfold oemOp
  repeat' first
    | with_reducible assumption
    | with_reducible apply opAnchorSet_keeps
    | with_reducible apply opCollectAck_keeps
    | (extract_lets +onlyGivenNames x
       first
         | (refine Keeps.cut x ?_ ?_
            on_goal 1 => unfold x; clear x
            on_goal 2 => intro _; clear_value x)
         | (refine Keeps.cut2 x ?_ ?_
            on_goal 1 => unfold x; clear x
            on_goal 2 => intro _; clear_value x)
         | (refine Keeps.cutF x ?_ ?_
            on_goal 1 => unfold x; clear x
            on_goal 2 => intro hF; clear_value x)
         | (refine Keeps.cutF1 x ?_ ?_
            on_goal 1 => unfold x; clear x
            on_goal 2 => intro hF1; clear_value x)
         | (refine Keeps.cutF0 x ?_ ?_
            on_goal 1 => unfold x; clear x
            on_goal 2 => intro hF0; clear_value x)
         | (refine Keeps.cutFF x ?_ ?_
            on_goal 1 => unfold x; clear x
            on_goal 2 => intro hFF; clear_value x)
         | clear_value x)
    | with_reducible apply hF
    | with_reducible apply hF1
    | with_reducible apply hF0
    | with_reducible apply hFF
    | intro _
    | with_reducible apply Keeps.ite_
    | (with_reducible refine Keeps.foldl (fun _ _ _ => ?_) ?_)
    | (with_reducible refine Keeps.foldl2 (fun _ _ _ => ?_) ?_)
    | (fail_if_no_progress with_reducible apply Keeps.upd)
    | dsimp -zeta only []
    | with_reducible refine Keeps.ofPair (by with_reducible assumption) ?_
    | split
    | apply Keeps.ite_

theorem keepOutput_keeps {s0 s} {a0 a1} (h : Keeps s0 s) : Keeps s0 (keepOutput a0 a1 s) := by
  unfold keepOutput
  repeat' first
    | with_reducible assumption
    | (extract_lets +onlyGivenNames x
       first
         | (refine Keeps.cut x ?_ ?_
            on_goal 1 => unfold x; clear x
            on_goal 2 => intro _; clear_value x)
         | clear_value x)
    | intro _
    | (fail_if_no_progress with_reducible apply Keeps.upd)

theorem execPldmOemRequest_keeps {e : Fin 2} {v o : BitVec 16} {n : BitVec 32} {i : List Byte} {s} :
    ∃ t, execPldmOemRequest e v o n i s = .next t ∧ Keeps s t := by
  refine ⟨_, rfl, onEndpoint_keeps (fun s1 h => ?_) (Keeps.same s)⟩
  dsimp only
  refine Keeps.ite_ (answerBmc_keeps h) (Keeps.ite_ (answerBmc_keeps h) (Keeps.ite_ ?_ (keepOutput_keeps (oemOp_keeps h))))
  split <;> exact answerBmc_keeps h

theorem execRegRead_keeps {s} {a0 a1 a2 a3} : ∃ t, execRegRead a0 a1 a2 a3 s = .next t ∧ Keeps s t := by
  refine ⟨_, rfl, ?_⟩
  have h := Keeps.same s
  repeat' first
    | with_reducible assumption
    | with_reducible apply onEndpoint_keeps
    | with_reducible apply answerBmc_keeps
    | with_reducible apply keepOutput_keeps
    | intro _
    | with_reducible apply Keeps.ite_
    | apply Keeps.ite_

theorem completeOem_keeps {s0 s} {a0} (h : Keeps s0 s) : Keeps s0 (completeOem a0 s) := by
  unfold completeOem
  repeat' first
    | with_reducible assumption
    | with_reducible apply emit_keeps
    | with_reducible apply tally_keeps
    | (extract_lets +onlyGivenNames x
       first
         | (refine Keeps.cut x ?_ ?_
            on_goal 1 => unfold x; clear x
            on_goal 2 => intro _; clear_value x)
         | clear_value x)
    | intro _
    | (fail_if_no_progress with_reducible apply Keeps.upd)
    | split

theorem execMailboxComplete_keeps {s} {a0} : ∃ t, execMailboxComplete a0 s = .next t ∧ Keeps s t := by
  refine ⟨_, rfl, ?_⟩
  have h := Keeps.same s
  repeat' first
    | with_reducible assumption
    | with_reducible apply completeOp_keeps
    | with_reducible apply completeOem_keeps
    | (extract_lets +onlyGivenNames x
       first
         | (refine Keeps.cut x ?_ ?_
            on_goal 1 => unfold x; clear x
            on_goal 2 => intro _; clear_value x)
         | clear_value x)
    | intro _
    | (fail_if_no_progress with_reducible apply Keeps.upd)
    | split

end Sys2Proof.Machine
end

