-- ==== Sys2Proof/Laws/KeepsRegWrite.lean ====
section
/-!
SUPPORT. Sys2Proof/Laws/KeepsRegWrite.lean: what the operations of Machine/RegWrite.lean keep (`Keeps`).
-/
set_option linter.all false
namespace Sys2Proof.Machine

theorem storeControl_keeps {s0 s} {a0 a1 a2} (h : Keeps s0 s) : Keeps s0 (storeControl a0 a1 a2 s) := by
  unfold storeControl
  repeat' first
    | with_reducible assumption
    | with_reducible apply onFunc_keeps
    | (extract_lets +onlyGivenNames x
       first
         | (refine Keeps.cut x ?_ ?_
            on_goal 1 => unfold x; clear x
            on_goal 2 => intro _; clear_value x)
         | clear_value x)
    | intro _
    | with_reducible apply Keeps.ite_
    | (fail_if_no_progress with_reducible apply Keeps.upd)
    | apply Keeps.ite_

theorem storeSlice_keeps {s0 s} {a0 a1 a2 a3} (h : Keeps s0 s) : Keeps s0 (storeSlice a0 a1 a2 a3 s) := by
  unfold storeSlice
  repeat' first
    | with_reducible assumption
    | with_reducible apply onSlice_keeps
    | (extract_lets +onlyGivenNames x
       first
         | (refine Keeps.cut x ?_ ?_
            on_goal 1 => unfold x; clear x
            on_goal 2 => intro _; clear_value x)
         | clear_value x)
    | intro _
    | with_reducible apply Keeps.ite_
    | (fail_if_no_progress with_reducible apply Keeps.upd)
    | apply Keeps.ite_

theorem storeBridge_keeps {s0 s} {a0 a1 a2 a3} (h : Keeps s0 s) : Keeps s0 (storeBridge a0 a1 a2 a3 s) := by
  unfold storeBridge
  repeat' first
    | with_reducible assumption
    | with_reducible apply onFunc_keeps
    | (extract_lets +onlyGivenNames x
       first
         | (refine Keeps.cut x ?_ ?_
            on_goal 1 => unfold x; clear x
            on_goal 2 => intro _; clear_value x)
         | clear_value x)
    | intro _
    | with_reducible apply Keeps.ite_
    | (fail_if_no_progress with_reducible apply Keeps.upd)
    | apply Keeps.ite_

theorem storeIgnored_keeps {s0 s} {a0 a1 a2} (h : Keeps s0 s) : Keeps s0 (storeIgnored a0 a1 a2 s) := by
  unfold storeIgnored
  repeat' first
    | with_reducible assumption
    | (extract_lets +onlyGivenNames x
       first
         | (refine Keeps.cut x ?_ ?_
            on_goal 1 => unfold x; clear x
            on_goal 2 => intro _; clear_value x)
         | clear_value x)
    | (fail_if_no_progress with_reducible apply Keeps.upd)

theorem storeReg_keeps {s0 s} {a0 a1 a2 a3} (h : Keeps s0 s) : Keeps s0 (storeReg a0 a1 a2 a3 s) := by
  unfold storeReg
  repeat' first
    | with_reducible assumption
    | with_reducible apply onFunc_keeps
    | with_reducible apply storeIgnored_keeps
    | with_reducible apply storeSlice_keeps
    | with_reducible apply storeBridge_keeps
    | with_reducible apply storeControl_keeps
    | (extract_lets +onlyGivenNames x
       first
         | (refine Keeps.cut x ?_ ?_
            on_goal 1 => unfold x; clear x
            on_goal 2 => intro _; clear_value x)
         | clear_value x)
    | with_reducible apply Keeps.ite_
    | (fail_if_no_progress with_reducible apply Keeps.upd)
    | split
    | apply Keeps.ite_

theorem plainWrite_keeps {s0 s} {a0 a1 a2 a3 a4 a5 a6} (h : Keeps s0 s) : Keeps s0 (plainWrite a0 a1 a2 a3 a4 a5 a6 s) := by
  unfold plainWrite
  repeat' first
    | with_reducible assumption
    | with_reducible apply storeReg_keeps
    | with_reducible apply countIgnored_keeps
    | (extract_lets +onlyGivenNames x
       first
         | (refine Keeps.cut x ?_ ?_
            on_goal 1 => unfold x; clear x
            on_goal 2 => intro _; clear_value x)
         | clear_value x)
    | with_reducible apply Keeps.ite_
    | apply Keeps.ite_

theorem countOnce_keeps {d b : Nat} {old : State} {s0 s} (h : Keeps s0 s) : Keeps s0 (countOnce d b old s) :=
  Keeps.ite_ h (countIgnored_keeps (Keeps.upd h))

theorem queueWrite_keeps {s0 s} {a0 a1 a2 a3 a4 a5 a6} (h : Keeps s0 s) : Keeps s0 (queueWrite a0 a1 a2 a3 a4 a5 a6 s) := by
  unfold queueWrite
  repeat' first
    | with_reducible assumption
    | with_reducible apply tailDoorbell_keeps
    | with_reducible apply headDoorbell_keeps
    | with_reducible apply countOnce_keeps
    | with_reducible apply countPage_keeps
    | with_reducible apply onQ_keeps
    | with_reducible apply queueDisable_keeps
    | with_reducible apply queueEnable_keeps
    | (extract_lets +onlyGivenNames x
       first
         | (refine Keeps.cut x ?_ ?_
            on_goal 1 => unfold x; clear x
            on_goal 2 => intro _; clear_value x)
         | clear_value x)
    | intro _
    | with_reducible apply Keeps.ite_
    | (fail_if_no_progress with_reducible apply Keeps.upd)
    | apply Keeps.ite_

theorem mbxWrite_keeps {s0 s} {a0 a1 a2 a3 a4 a5} (h : Keeps s0 s) : Keeps s0 (mbxWrite a0 a1 a2 a3 a4 a5 s) := by
  unfold mbxWrite
  repeat' first
    | with_reducible assumption
    | with_reducible apply countPage_keeps
    | with_reducible apply mbxGo_keeps
    | with_reducible apply plainWrite_keeps
    | (extract_lets +onlyGivenNames x
       first
         | (refine Keeps.cut x ?_ ?_
            on_goal 1 => unfold x; clear x
            on_goal 2 => intro _; clear_value x)
         | clear_value x)
    | with_reducible apply Keeps.ite_
    | apply Keeps.ite_

theorem winWrite_keeps {s0 s} {a0 a1 a2 a3 a4 a5} (h : Keeps s0 s) : Keeps s0 (winWrite a0 a1 a2 a3 a4 a5 s) := by
  unfold winWrite
  repeat' first
    | with_reducible assumption
    | with_reducible apply carveWrite_keeps
    | with_reducible apply onFunc_keeps
    | with_reducible apply setCen_keeps
    | with_reducible apply winMop_keeps
    | with_reducible apply rangeGo_keeps
    | with_reducible apply storeRctl_keeps
    | with_reducible apply plainWrite_keeps
    | (extract_lets +onlyGivenNames x
       first
         | (refine Keeps.cut x ?_ ?_
            on_goal 1 => unfold x; clear x
            on_goal 2 => intro _; clear_value x)
         | (refine Keeps.cut2 x ?_ ?_
            on_goal 1 => unfold x; clear x
            on_goal 2 => intro _; clear_value x)
         | (refine Keeps.cutF x ?_ ?_
            on_goal 1 => unfold x; clear x
            on_goal 2 => intro _; clear_value x)
         | (refine Keeps.cutF1 x ?_ ?_
            on_goal 1 => unfold x; clear x
            on_goal 2 => intro _; clear_value x)
         | clear_value x)
    | intro _
    | with_reducible apply Keeps.ite_
    | (with_reducible refine Keeps.foldl (fun _ _ _ => ?_) ?_)
    | (with_reducible refine Keeps.foldl2 (fun _ _ _ => ?_) ?_)
    | (fail_if_no_progress with_reducible apply Keeps.upd)
    | dsimp -zeta only []
    | with_reducible refine Keeps.ofPair (by with_reducible assumption) ?_
    | split
    | apply Keeps.ite_

theorem pageWrite_keeps {s0 s} {a0 a1 a2 a3 a4 a5} (h : Keeps s0 s) : Keeps s0 (pageWrite a0 a1 a2 a3 a4 a5 s) := by
  unfold pageWrite
  repeat' first
    | with_reducible assumption
    | with_reducible apply queueWrite_keeps
    | with_reducible apply mbxWrite_keeps
    | with_reducible apply winWrite_keeps
    | with_reducible apply plainWrite_keeps
    | with_reducible apply kvnHead_keeps
    | with_reducible apply sendPending_keeps
    | (extract_lets +onlyGivenNames x
       first
         | (refine Keeps.cut x ?_ ?_
            on_goal 1 => unfold x; clear x
            on_goal 2 => intro _; clear_value x)
         | clear_value x)
    | intro _
    | with_reducible apply Keeps.ite_
    | (fail_if_no_progress with_reducible apply Keeps.upd)
    | split
    | apply Keeps.ite_

theorem regWriteAt_keeps {s0 s} {a0 a1 a2 a3 a4 a5} (h : Keeps s0 s) : Keeps s0 (regWriteAt a0 a1 a2 a3 a4 a5 s) := by
  unfold regWriteAt
  repeat' first
    | with_reducible assumption
    | with_reducible apply countPage_keeps
    | with_reducible apply pageWrite_keeps
    | with_reducible apply plainWrite_keeps
    | (extract_lets +onlyGivenNames x
       first
         | (refine Keeps.cut x ?_ ?_
            on_goal 1 => unfold x; clear x
            on_goal 2 => intro _; clear_value x)
         | clear_value x)
    | intro _
    | with_reducible apply Keeps.ite_
    | (fail_if_no_progress with_reducible apply Keeps.upd)
    | split
    | apply Keeps.ite_

theorem regWrite_keeps {s0 s} {a0 a1 a2} (h : Keeps s0 s) : Keeps s0 (regWrite a0 a1 a2 s) := by
  unfold regWrite
  repeat' first
    | with_reducible assumption
    | with_reducible apply regWriteAt_keeps

end Sys2Proof.Machine
end

