-- ==== Sys2Proof/Laws/KeepsBundle.lean ====
section
/-!
SUPPORT. Sys2Proof/Laws/KeepsBundle.lean: what the operations of Machine/Bundle.lean keep (`Keeps`).
-/
set_option linter.all false
namespace Sys2Proof.Machine

theorem issueOp_keeps {s0 s} {a0 a1 a2 a3} (h : Keeps s0 s) : Keeps s0 (issueOp a0 a1 a2 a3 s) := by
  unfold issueOp
  repeat' first
    | with_reducible assumption
    | with_reducible apply settleDrain_keeps
    | with_reducible apply issueAt_keeps
    | intro _

theorem execBr_keeps {s} {a0} : ∃ t, execBr a0 s = .next t ∧ Keeps s t := by
  refine ⟨_, rfl, ?_⟩
  have h := Keeps.same s
  repeat' first
    | with_reducible assumption
    | with_reducible apply issueOp_keeps

theorem execBrz_keeps {s} {a0} : ∃ t, execBrz a0 s = .next t ∧ Keeps s t := by
  refine ⟨_, rfl, ?_⟩
  have h := Keeps.same s
  repeat' first
    | with_reducible assumption
    | with_reducible apply issueOp_keeps

theorem execBrnz_keeps {s} {a0} : ∃ t, execBrnz a0 s = .next t ∧ Keeps s t := by
  refine ⟨_, rfl, ?_⟩
  have h := Keeps.same s
  repeat' first
    | with_reducible assumption
    | with_reducible apply issueOp_keeps

theorem execCall_keeps {s} {a0} : ∃ t, execCall a0 s = .next t ∧ Keeps s t := by
  refine ⟨_, rfl, ?_⟩
  have h := Keeps.same s
  repeat' first
    | with_reducible assumption
    | with_reducible apply issueOp_keeps

theorem execRet_keeps {s} {a0} : ∃ t, execRet a0 s = .next t ∧ Keeps s t := by
  refine ⟨_, rfl, ?_⟩
  have h := Keeps.same s
  repeat' first
    | with_reducible assumption
    | with_reducible apply issueOp_keeps

theorem execLoop_keeps {s} {a0} : ∃ t, execLoop a0 s = .next t ∧ Keeps s t := by
  refine ⟨_, rfl, ?_⟩
  have h := Keeps.same s
  repeat' first
    | with_reducible assumption
    | with_reducible apply issueOp_keeps

theorem execEnd_keeps {s} {a0} : ∃ t, execEnd a0 s = .next t ∧ Keeps s t := by
  refine ⟨_, rfl, ?_⟩
  have h := Keeps.same s
  repeat' first
    | with_reducible assumption
    | with_reducible apply issueOp_keeps

theorem execFault_keeps {s} {a0} : ∃ t, execFault a0 s = .next t ∧ Keeps s t := by
  refine ⟨_, rfl, ?_⟩
  have h := Keeps.same s
  repeat' first
    | with_reducible assumption
    | with_reducible apply issueOp_keeps

theorem execTrap_keeps {s} {a0} : ∃ t, execTrap a0 s = .next t ∧ Keeps s t := by
  refine ⟨_, rfl, ?_⟩
  have h := Keeps.same s
  repeat' first
    | with_reducible assumption
    | with_reducible apply issueOp_keeps

theorem execRte_keeps {s} {a0} : ∃ t, execRte a0 s = .next t ∧ Keeps s t := by
  refine ⟨_, rfl, ?_⟩
  have h := Keeps.same s
  repeat' first
    | with_reducible assumption
    | with_reducible apply issueOp_keeps

theorem execMovtc_keeps {s} {a0} : ∃ t, execMovtc a0 s = .next t ∧ Keeps s t := by
  refine ⟨_, rfl, ?_⟩
  have h := Keeps.same s
  repeat' first
    | with_reducible assumption
    | with_reducible apply issueOp_keeps

theorem execMovfc_keeps {s} {a0} : ∃ t, execMovfc a0 s = .next t ∧ Keeps s t := by
  refine ⟨_, rfl, ?_⟩
  have h := Keeps.same s
  repeat' first
    | with_reducible assumption
    | with_reducible apply issueOp_keeps

theorem execRdpos_keeps {s} {a0} : ∃ t, execRdpos a0 s = .next t ∧ Keeps s t := by
  refine ⟨_, rfl, ?_⟩
  have h := Keeps.same s
  repeat' first
    | with_reducible assumption
    | with_reducible apply issueOp_keeps

theorem execRdcyc_keeps {s} {a0} : ∃ t, execRdcyc a0 s = .next t ∧ Keeps s t := by
  refine ⟨_, rfl, ?_⟩
  have h := Keeps.same s
  repeat' first
    | with_reducible assumption
    | with_reducible apply issueOp_keeps

theorem execWait_keeps {s} {a0} : ∃ t, execWait a0 s = .next t ∧ Keeps s t := by
  refine ⟨_, rfl, ?_⟩
  have h := Keeps.same s
  repeat' first
    | with_reducible assumption
    | with_reducible apply issueOp_keeps

theorem execSheafPool_keeps {s} {a0} : ∃ t, execSheafPool a0 s = .next t ∧ Keeps s t := by
  refine ⟨_, rfl, ?_⟩
  have h := Keeps.same s
  repeat' first
    | with_reducible assumption
    | with_reducible apply issueOp_keeps

theorem execFlailApply_keeps {s} {a0} : ∃ t, execFlailApply a0 s = .next t ∧ Keeps s t := by
  refine ⟨_, rfl, ?_⟩
  have h := Keeps.same s
  repeat' first
    | with_reducible assumption
    | with_reducible apply issueOp_keeps

theorem execAttnBlock_keeps {s} {a0} : ∃ t, execAttnBlock a0 s = .next t ∧ Keeps s t := by
  refine ⟨_, rfl, ?_⟩
  have h := Keeps.same s
  repeat' first
    | with_reducible assumption
    | with_reducible apply issueOp_keeps

theorem execAdd_keeps {s} {a0 a1} : ∃ t, execAdd a0 a1 s = .next t ∧ Keeps s t := by
  refine ⟨_, rfl, ?_⟩
  have h := Keeps.same s
  repeat' first
    | with_reducible assumption
    | with_reducible apply issueOp_keeps

theorem execSub_keeps {s} {a0 a1} : ∃ t, execSub a0 a1 s = .next t ∧ Keeps s t := by
  refine ⟨_, rfl, ?_⟩
  have h := Keeps.same s
  repeat' first
    | with_reducible assumption
    | with_reducible apply issueOp_keeps

theorem execAnd_keeps {s} {a0 a1} : ∃ t, execAnd a0 a1 s = .next t ∧ Keeps s t := by
  refine ⟨_, rfl, ?_⟩
  have h := Keeps.same s
  repeat' first
    | with_reducible assumption
    | with_reducible apply issueOp_keeps

theorem execOr_keeps {s} {a0 a1} : ∃ t, execOr a0 a1 s = .next t ∧ Keeps s t := by
  refine ⟨_, rfl, ?_⟩
  have h := Keeps.same s
  repeat' first
    | with_reducible assumption
    | with_reducible apply issueOp_keeps

theorem execXor_keeps {s} {a0 a1} : ∃ t, execXor a0 a1 s = .next t ∧ Keeps s t := by
  refine ⟨_, rfl, ?_⟩
  have h := Keeps.same s
  repeat' first
    | with_reducible assumption
    | with_reducible apply issueOp_keeps

theorem execShl_keeps {s} {a0 a1} : ∃ t, execShl a0 a1 s = .next t ∧ Keeps s t := by
  refine ⟨_, rfl, ?_⟩
  have h := Keeps.same s
  repeat' first
    | with_reducible assumption
    | with_reducible apply issueOp_keeps

theorem execShr_keeps {s} {a0 a1} : ∃ t, execShr a0 a1 s = .next t ∧ Keeps s t := by
  refine ⟨_, rfl, ?_⟩
  have h := Keeps.same s
  repeat' first
    | with_reducible assumption
    | with_reducible apply issueOp_keeps

theorem execSar_keeps {s} {a0 a1} : ∃ t, execSar a0 a1 s = .next t ∧ Keeps s t := by
  refine ⟨_, rfl, ?_⟩
  have h := Keeps.same s
  repeat' first
    | with_reducible assumption
    | with_reducible apply issueOp_keeps

theorem execMul_keeps {s} {a0 a1} : ∃ t, execMul a0 a1 s = .next t ∧ Keeps s t := by
  refine ⟨_, rfl, ?_⟩
  have h := Keeps.same s
  repeat' first
    | with_reducible assumption
    | with_reducible apply issueOp_keeps

theorem execCmpeq_keeps {s} {a0 a1} : ∃ t, execCmpeq a0 a1 s = .next t ∧ Keeps s t := by
  refine ⟨_, rfl, ?_⟩
  have h := Keeps.same s
  repeat' first
    | with_reducible assumption
    | with_reducible apply issueOp_keeps

theorem execCmplt_keeps {s} {a0 a1} : ∃ t, execCmplt a0 a1 s = .next t ∧ Keeps s t := by
  refine ⟨_, rfl, ?_⟩
  have h := Keeps.same s
  repeat' first
    | with_reducible assumption
    | with_reducible apply issueOp_keeps

theorem execCmpltu_keeps {s} {a0 a1} : ∃ t, execCmpltu a0 a1 s = .next t ∧ Keeps s t := by
  refine ⟨_, rfl, ?_⟩
  have h := Keeps.same s
  repeat' first
    | with_reducible assumption
    | with_reducible apply issueOp_keeps

theorem execMovi_keeps {s} {a0 a1} : ∃ t, execMovi a0 a1 s = .next t ∧ Keeps s t := by
  refine ⟨_, rfl, ?_⟩
  have h := Keeps.same s
  repeat' first
    | with_reducible assumption
    | with_reducible apply issueOp_keeps

theorem execLd1_keeps {s} {a0 a1} : ∃ t, execLd1 a0 a1 s = .next t ∧ Keeps s t := by
  refine ⟨_, rfl, ?_⟩
  have h := Keeps.same s
  repeat' first
    | with_reducible assumption
    | with_reducible apply issueOp_keeps

theorem execLd2_keeps {s} {a0 a1} : ∃ t, execLd2 a0 a1 s = .next t ∧ Keeps s t := by
  refine ⟨_, rfl, ?_⟩
  have h := Keeps.same s
  repeat' first
    | with_reducible assumption
    | with_reducible apply issueOp_keeps

theorem execLd4_keeps {s} {a0 a1} : ∃ t, execLd4 a0 a1 s = .next t ∧ Keeps s t := by
  refine ⟨_, rfl, ?_⟩
  have h := Keeps.same s
  repeat' first
    | with_reducible assumption
    | with_reducible apply issueOp_keeps

theorem execLd8_keeps {s} {a0 a1} : ∃ t, execLd8 a0 a1 s = .next t ∧ Keeps s t := by
  refine ⟨_, rfl, ?_⟩
  have h := Keeps.same s
  repeat' first
    | with_reducible assumption
    | with_reducible apply issueOp_keeps

theorem execLdv_keeps {s} {a0 a1} : ∃ t, execLdv a0 a1 s = .next t ∧ Keeps s t := by
  refine ⟨_, rfl, ?_⟩
  have h := Keeps.same s
  repeat' first
    | with_reducible assumption
    | with_reducible apply issueOp_keeps

theorem execSt1_keeps {s} {a0 a1} : ∃ t, execSt1 a0 a1 s = .next t ∧ Keeps s t := by
  refine ⟨_, rfl, ?_⟩
  have h := Keeps.same s
  repeat' first
    | with_reducible assumption
    | with_reducible apply issueOp_keeps

theorem execSt2_keeps {s} {a0 a1} : ∃ t, execSt2 a0 a1 s = .next t ∧ Keeps s t := by
  refine ⟨_, rfl, ?_⟩
  have h := Keeps.same s
  repeat' first
    | with_reducible assumption
    | with_reducible apply issueOp_keeps

theorem execSt4_keeps {s} {a0 a1} : ∃ t, execSt4 a0 a1 s = .next t ∧ Keeps s t := by
  refine ⟨_, rfl, ?_⟩
  have h := Keeps.same s
  repeat' first
    | with_reducible assumption
    | with_reducible apply issueOp_keeps

theorem execSt8_keeps {s} {a0 a1} : ∃ t, execSt8 a0 a1 s = .next t ∧ Keeps s t := by
  refine ⟨_, rfl, ?_⟩
  have h := Keeps.same s
  repeat' first
    | with_reducible assumption
    | with_reducible apply issueOp_keeps

theorem execStv_keeps {s} {a0 a1} : ∃ t, execStv a0 a1 s = .next t ∧ Keeps s t := by
  refine ⟨_, rfl, ?_⟩
  have h := Keeps.same s
  repeat' first
    | with_reducible assumption
    | with_reducible apply issueOp_keeps

theorem execXferIn_keeps {s} {a0 a1} : ∃ t, execXferIn a0 a1 s = .next t ∧ Keeps s t := by
  refine ⟨_, rfl, ?_⟩
  have h := Keeps.same s
  repeat' first
    | with_reducible assumption
    | with_reducible apply issueOp_keeps

theorem execXferOut_keeps {s} {a0 a1} : ∃ t, execXferOut a0 a1 s = .next t ∧ Keeps s t := by
  refine ⟨_, rfl, ?_⟩
  have h := Keeps.same s
  repeat' first
    | with_reducible assumption
    | with_reducible apply issueOp_keeps

theorem execVadd_keeps {s} {a0 a1} : ∃ t, execVadd a0 a1 s = .next t ∧ Keeps s t := by
  refine ⟨_, rfl, ?_⟩
  have h := Keeps.same s
  repeat' first
    | with_reducible assumption
    | with_reducible apply issueOp_keeps

theorem execVsub_keeps {s} {a0 a1} : ∃ t, execVsub a0 a1 s = .next t ∧ Keeps s t := by
  refine ⟨_, rfl, ?_⟩
  have h := Keeps.same s
  repeat' first
    | with_reducible assumption
    | with_reducible apply issueOp_keeps

theorem execVmul_keeps {s} {a0 a1} : ∃ t, execVmul a0 a1 s = .next t ∧ Keeps s t := by
  refine ⟨_, rfl, ?_⟩
  have h := Keeps.same s
  repeat' first
    | with_reducible assumption
    | with_reducible apply issueOp_keeps

theorem execVfma_keeps {s} {a0 a1} : ∃ t, execVfma a0 a1 s = .next t ∧ Keeps s t := by
  refine ⟨_, rfl, ?_⟩
  have h := Keeps.same s
  repeat' first
    | with_reducible assumption
    | with_reducible apply issueOp_keeps

theorem execVmax_keeps {s} {a0 a1} : ∃ t, execVmax a0 a1 s = .next t ∧ Keeps s t := by
  refine ⟨_, rfl, ?_⟩
  have h := Keeps.same s
  repeat' first
    | with_reducible assumption
    | with_reducible apply issueOp_keeps

theorem execVmin_keeps {s} {a0 a1} : ∃ t, execVmin a0 a1 s = .next t ∧ Keeps s t := by
  refine ⟨_, rfl, ?_⟩
  have h := Keeps.same s
  repeat' first
    | with_reducible assumption
    | with_reducible apply issueOp_keeps

theorem execVdiv_keeps {s} {a0 a1} : ∃ t, execVdiv a0 a1 s = .next t ∧ Keeps s t := by
  refine ⟨_, rfl, ?_⟩
  have h := Keeps.same s
  repeat' first
    | with_reducible assumption
    | with_reducible apply issueOp_keeps

theorem execVsqrt_keeps {s} {a0 a1} : ∃ t, execVsqrt a0 a1 s = .next t ∧ Keeps s t := by
  refine ⟨_, rfl, ?_⟩
  have h := Keeps.same s
  repeat' first
    | with_reducible assumption
    | with_reducible apply issueOp_keeps

theorem execVexp2_keeps {s} {a0 a1} : ∃ t, execVexp2 a0 a1 s = .next t ∧ Keeps s t := by
  refine ⟨_, rfl, ?_⟩
  have h := Keeps.same s
  repeat' first
    | with_reducible assumption
    | with_reducible apply issueOp_keeps

theorem execVcvt_keeps {s} {a0 a1} : ∃ t, execVcvt a0 a1 s = .next t ∧ Keeps s t := by
  refine ⟨_, rfl, ?_⟩
  have h := Keeps.same s
  repeat' first
    | with_reducible assumption
    | with_reducible apply issueOp_keeps

theorem execVand_keeps {s} {a0 a1} : ∃ t, execVand a0 a1 s = .next t ∧ Keeps s t := by
  refine ⟨_, rfl, ?_⟩
  have h := Keeps.same s
  repeat' first
    | with_reducible assumption
    | with_reducible apply issueOp_keeps

theorem execVor_keeps {s} {a0 a1} : ∃ t, execVor a0 a1 s = .next t ∧ Keeps s t := by
  refine ⟨_, rfl, ?_⟩
  have h := Keeps.same s
  repeat' first
    | with_reducible assumption
    | with_reducible apply issueOp_keeps

theorem execVxor_keeps {s} {a0 a1} : ∃ t, execVxor a0 a1 s = .next t ∧ Keeps s t := by
  refine ⟨_, rfl, ?_⟩
  have h := Keeps.same s
  repeat' first
    | with_reducible assumption
    | with_reducible apply issueOp_keeps

theorem execVbcast_keeps {s} {a0 a1} : ∃ t, execVbcast a0 a1 s = .next t ∧ Keeps s t := by
  refine ⟨_, rfl, ?_⟩
  have h := Keeps.same s
  repeat' first
    | with_reducible assumption
    | with_reducible apply issueOp_keeps

theorem execVext_keeps {s} {a0 a1} : ∃ t, execVext a0 a1 s = .next t ∧ Keeps s t := by
  refine ⟨_, rfl, ?_⟩
  have h := Keeps.same s
  repeat' first
    | with_reducible assumption
    | with_reducible apply issueOp_keeps

theorem execVperm_keeps {s} {a0 a1} : ∃ t, execVperm a0 a1 s = .next t ∧ Keeps s t := by
  refine ⟨_, rfl, ?_⟩
  have h := Keeps.same s
  repeat' first
    | with_reducible assumption
    | with_reducible apply issueOp_keeps

theorem execVredadd_keeps {s} {a0 a1} : ∃ t, execVredadd a0 a1 s = .next t ∧ Keeps s t := by
  refine ⟨_, rfl, ?_⟩
  have h := Keeps.same s
  repeat' first
    | with_reducible assumption
    | with_reducible apply issueOp_keeps

theorem execVredmax_keeps {s} {a0 a1} : ∃ t, execVredmax a0 a1 s = .next t ∧ Keeps s t := by
  refine ⟨_, rfl, ?_⟩
  have h := Keeps.same s
  repeat' first
    | with_reducible assumption
    | with_reducible apply issueOp_keeps

theorem execAccMac_keeps {s} {a0 a1} : ∃ t, execAccMac a0 a1 s = .next t ∧ Keeps s t := by
  refine ⟨_, rfl, ?_⟩
  have h := Keeps.same s
  repeat' first
    | with_reducible assumption
    | with_reducible apply issueOp_keeps

theorem execAccZero_keeps {s} {a0 a1} : ∃ t, execAccZero a0 a1 s = .next t ∧ Keeps s t := by
  refine ⟨_, rfl, ?_⟩
  have h := Keeps.same s
  repeat' first
    | with_reducible assumption
    | with_reducible apply issueOp_keeps

theorem execAccRds_keeps {s} {a0 a1} : ∃ t, execAccRds a0 a1 s = .next t ∧ Keeps s t := by
  refine ⟨_, rfl, ?_⟩
  have h := Keeps.same s
  repeat' first
    | with_reducible assumption
    | with_reducible apply issueOp_keeps

theorem execAccWrs_keeps {s} {a0 a1} : ∃ t, execAccWrs a0 a1 s = .next t ∧ Keeps s t := by
  refine ⟨_, rfl, ?_⟩
  have h := Keeps.same s
  repeat' first
    | with_reducible assumption
    | with_reducible apply issueOp_keeps

theorem execAccSave_keeps {s} {a0 a1} : ∃ t, execAccSave a0 a1 s = .next t ∧ Keeps s t := by
  refine ⟨_, rfl, ?_⟩
  have h := Keeps.same s
  repeat' first
    | with_reducible assumption
    | with_reducible apply issueOp_keeps

theorem execAccRestore_keeps {s} {a0 a1} : ∃ t, execAccRestore a0 a1 s = .next t ∧ Keeps s t := by
  refine ⟨_, rfl, ?_⟩
  have h := Keeps.same s
  repeat' first
    | with_reducible assumption
    | with_reducible apply issueOp_keeps

theorem execAccSwap_keeps {s} {a0 a1} : ∃ t, execAccSwap a0 a1 s = .next t ∧ Keeps s t := by
  refine ⟨_, rfl, ?_⟩
  have h := Keeps.same s
  repeat' first
    | with_reducible assumption
    | with_reducible apply issueOp_keeps

theorem execAccFlags_keeps {s} {a0 a1} : ∃ t, execAccFlags a0 a1 s = .next t ∧ Keeps s t := by
  refine ⟨_, rfl, ?_⟩
  have h := Keeps.same s
  repeat' first
    | with_reducible assumption
    | with_reducible apply issueOp_keeps

theorem execAccDrain_keeps {s} {a0} : ∃ t, execAccDrain a0 s = .next t ∧ Keeps s t := by
  refine ⟨_, rfl, ?_⟩
  have h := Keeps.same s
  repeat' first
    | with_reducible assumption
    | with_reducible apply issueOp_keeps

end Sys2Proof.Machine
end

