-- ==== Sys2Proof/Laws/KeepsHostReads.lean ====
section
/-!
SUPPORT. Sys2Proof/Laws/KeepsHostReads.lean: what the operations of Machine/HostReads.lean keep (`Keeps`).
-/
set_option linter.all false
namespace Sys2Proof.Machine

theorem popWant_keeps {s0 s} {a0} (h : Keeps s0 s) : Keeps s0 (popWant a0 s) := by
  unfold popWant
  repeat' first
    | with_reducible assumption
    | with_reducible apply onCmd_keeps
    | (extract_lets +onlyGivenNames x
       first
         | (refine Keeps.cut x ?_ ?_
            on_goal 1 => unfold x; clear x
            on_goal 2 => intro _; clear_value x)
         | clear_value x)
    | intro _
    | (fail_if_no_progress with_reducible apply Keeps.upd)

theorem backToWork_keeps {s0 s} {a0} (h : Keeps s0 s) : Keeps s0 (backToWork a0 s) := by
  unfold backToWork
  repeat' first
    | with_reducible assumption
    | with_reducible apply onCmd_keeps
    | (extract_lets +onlyGivenNames x
       first
         | (refine Keeps.cut x ?_ ?_
            on_goal 1 => unfold x; clear x
            on_goal 2 => intro _; clear_value x)
         | clear_value x)
    | intro _
    | with_reducible apply Keeps.ite_
    | (fail_if_no_progress with_reducible apply Keeps.upd)
    | apply Keeps.ite_

theorem resumeCmd_keeps {s0 s} {a0 a1 a2 a3} (h : Keeps s0 s) : Keeps s0 (resumeCmd a0 a1 a2 a3 s) := by
  unfold resumeCmd
  repeat' first
    | with_reducible assumption
    | with_reducible apply lookupHost_keeps
    | with_reducible apply updateHost_keeps
    | with_reducible apply copyHost_keeps
    | with_reducible apply kvHost_keeps
    | with_reducible apply pumpBufs_keeps
    | (extract_lets +onlyGivenNames x
       first
         | (refine Keeps.cut x ?_ ?_
            on_goal 1 => unfold x; clear x
            on_goal 2 => intro _; clear_value x)
         | clear_value x)
    | with_reducible apply Keeps.ite_
    | apply Keeps.ite_

theorem letOthers_keeps {s0 s} (h : Keeps s0 s) : Keeps s0 (letOthers s) := by
  unfold letOthers
  repeat' first
    | with_reducible assumption
    | with_reducible apply pumpAllKv_keeps
    | with_reducible apply pumpBufs_keeps

theorem readFailed_keeps {s0 s} {a0 a1} (h : Keeps s0 s) : Keeps s0 (readFailed a0 a1 s) := by
  unfold readFailed
  repeat' first
    | with_reducible assumption
    | with_reducible apply settleUpdates_keeps
    | with_reducible apply failUpdate_keeps
    | with_reducible apply letOthers_keeps
    | with_reducible apply endCmd_keeps
    | (extract_lets +onlyGivenNames x
       first
         | (refine Keeps.cut x ?_ ?_
            on_goal 1 => unfold x; clear x
            on_goal 2 => intro _; clear_value x)
         | (refine Keeps.cut2 x ?_ ?_
            on_goal 1 => unfold x; clear x
            on_goal 2 => intro _; clear_value x)
         | (refine Keeps.cutF x ?_ ?_
            on_goal 1 => unfold x; clear x
            on_goal 2 => intro hF; clear_value x)
         | (refine Keeps.cutF1 x ?_ ?_
            on_goal 1 => unfold x; clear x
            on_goal 2 => intro hF1; clear_value x)
         | (refine Keeps.cutF0 x ?_ ?_
            on_goal 1 => unfold x; clear x
            on_goal 2 => intro hF0; clear_value x)
         | (refine Keeps.cutFF x ?_ ?_
            on_goal 1 => unfold x; clear x
            on_goal 2 => intro hFF; clear_value x)
         | clear_value x)
    | with_reducible apply hF
    | with_reducible apply hF1
    | with_reducible apply hF0
    | with_reducible apply hFF
    | intro _
    | with_reducible apply Keeps.ite_
    | (with_reducible refine Keeps.foldl (fun _ _ _ => ?_) ?_)
    | (with_reducible refine Keeps.foldl2 (fun _ _ _ => ?_) ?_)
    | (fail_if_no_progress with_reducible apply Keeps.upd)
    | dsimp -zeta only []
    | with_reducible refine Keeps.ofPair (by with_reducible assumption) ?_
    | split
    | apply Keeps.ite_

theorem useEarly_keeps {u n : Nat} {s0 : State} : ∀ {s : State}, Keeps s0 s → Keeps s0 (useEarly u n s) := by
  induction n with
  | zero => intro s h; exact h
  | succ n ih =>
    intro s h
    rw [useEarly]
    split
    · exact h
    · split
      · exact Keeps.ite_ h (ih (letOthers_keeps (settleUpdates_keeps (resumeCmd_keeps (backToWork_keeps
          (popWant_keeps (onCmd_keeps h)))))))
      · exact h

theorem keepEarly_keeps {s0 s} {a0 a1 a2} (h : Keeps s0 s) : Keeps s0 (keepEarly a0 a1 a2 s) := by
  unfold keepEarly
  repeat' first
    | with_reducible assumption
    | with_reducible apply readDone_keeps
    | with_reducible apply onCmd_keeps
    | (extract_lets +onlyGivenNames x
       first
         | (refine Keeps.cut x ?_ ?_
            on_goal 1 => unfold x; clear x
            on_goal 2 => intro _; clear_value x)
         | (refine Keeps.cut2 x ?_ ?_
            on_goal 1 => unfold x; clear x
            on_goal 2 => intro _; clear_value x)
         | (refine Keeps.cutF x ?_ ?_
            on_goal 1 => unfold x; clear x
            on_goal 2 => intro hF; clear_value x)
         | (refine Keeps.cutF1 x ?_ ?_
            on_goal 1 => unfold x; clear x
            on_goal 2 => intro hF1; clear_value x)
         | (refine Keeps.cutF0 x ?_ ?_
            on_goal 1 => unfold x; clear x
            on_goal 2 => intro hF0; clear_value x)
         | (refine Keeps.cutFF x ?_ ?_
            on_goal 1 => unfold x; clear x
            on_goal 2 => intro hFF; clear_value x)
         | clear_value x)
    | with_reducible apply hF
    | with_reducible apply hF1
    | with_reducible apply hF0
    | with_reducible apply hFF
    | intro _
    | with_reducible apply Keeps.ite_
    | (with_reducible refine Keeps.foldl (fun _ _ _ => ?_) ?_)
    | (with_reducible refine Keeps.foldl2 (fun _ _ _ => ?_) ?_)
    | (fail_if_no_progress with_reducible apply Keeps.upd)
    | dsimp -zeta only []
    | with_reducible refine Keeps.ofPair (by with_reducible assumption) ?_
    | split
    | apply Keeps.ite_

theorem commandReply_keeps {s0 s} {a0 a1 a2 a3} (h : Keeps s0 s) : Keeps s0 (commandReply a0 a1 a2 a3 s) := by
  unfold commandReply
  repeat' first
    | with_reducible assumption
    | with_reducible apply onCmd_keeps
    | with_reducible apply popWant_keeps
    | with_reducible apply useEarly_keeps
    | with_reducible apply letOthers_keeps
    | with_reducible apply settleUpdates_keeps
    | with_reducible apply resumeCmd_keeps
    | with_reducible apply backToWork_keeps
    | with_reducible apply busActivity_keeps
    | with_reducible apply keepEarly_keeps
    | with_reducible apply readDone_keeps
    | with_reducible apply readFailed_keeps
    | (extract_lets +onlyGivenNames x
       first
         | (refine Keeps.cut x ?_ ?_
            on_goal 1 => unfold x; clear x
            on_goal 2 => intro _; clear_value x)
         | (refine Keeps.cut2 x ?_ ?_
            on_goal 1 => unfold x; clear x
            on_goal 2 => intro _; clear_value x)
         | (refine Keeps.cutF x ?_ ?_
            on_goal 1 => unfold x; clear x
            on_goal 2 => intro hF; clear_value x)
         | (refine Keeps.cutF1 x ?_ ?_
            on_goal 1 => unfold x; clear x
            on_goal 2 => intro hF1; clear_value x)
         | (refine Keeps.cutF0 x ?_ ?_
            on_goal 1 => unfold x; clear x
            on_goal 2 => intro hF0; clear_value x)
         | (refine Keeps.cutFF x ?_ ?_
            on_goal 1 => unfold x; clear x
            on_goal 2 => intro hFF; clear_value x)
         | clear_value x)
    | with_reducible apply hF
    | with_reducible apply hF1
    | with_reducible apply hF0
    | with_reducible apply hFF
    | intro _
    | with_reducible apply Keeps.ite_
    | (with_reducible refine Keeps.foldl (fun _ _ _ => ?_) ?_)
    | (with_reducible refine Keeps.foldl2 (fun _ _ _ => ?_) ?_)
    | (fail_if_no_progress with_reducible apply Keeps.upd)
    | dsimp -zeta only []
    | with_reducible refine Keeps.ofPair (by with_reducible assumption) ?_
    | split
    | apply Keeps.ite_

theorem lateReply_keeps {s0 s} {a0} (h : Keeps s0 s) : Keeps s0 (lateReply a0 s) := by
  unfold lateReply
  repeat' first
    | with_reducible assumption
    | with_reducible apply readDone_keeps
    | (extract_lets +onlyGivenNames x
       first
         | (refine Keeps.cut x ?_ ?_
            on_goal 1 => unfold x; clear x
            on_goal 2 => intro _; clear_value x)
         | clear_value x)
    | intro _
    | (fail_if_no_progress with_reducible apply Keeps.upd)
    | split

theorem answerCommand_keeps {s0 s} {a0 a1} (h : Keeps s0 s) : Keeps s0 (answerCommand a0 a1 s) := by
  unfold answerCommand
  repeat' first
    | with_reducible assumption
    | with_reducible apply lateReply_keeps
    | with_reducible apply commandReply_keeps
    | (extract_lets +onlyGivenNames x
       first
         | (refine Keeps.cut x ?_ ?_
            on_goal 1 => unfold x; clear x
            on_goal 2 => intro _; clear_value x)
         | clear_value x)
    | (fail_if_no_progress with_reducible apply Keeps.upd)
    | split

theorem mailboxData_keeps {s0 s} {a0 a1} (h : Keeps s0 s) : Keeps s0 (mailboxData a0 a1 s) := by
  unfold mailboxData
  repeat' first
    | with_reducible assumption
    | with_reducible apply onMbx_keeps
    | with_reducible apply reply_keeps
    | with_reducible apply stageBytes_keeps
    | with_reducible apply pump_keeps
    | (extract_lets +onlyGivenNames x
       first
         | (refine Keeps.cut x ?_ ?_
            on_goal 1 => unfold x; clear x
            on_goal 2 => intro _; clear_value x)
         | clear_value x)
    | intro _
    | with_reducible apply Keeps.ite_
    | (fail_if_no_progress with_reducible apply Keeps.upd)
    | apply Keeps.ite_

theorem mailboxFails_keeps {s0 s} {a0} (h : Keeps s0 s) : Keeps s0 (mailboxFails a0 s) := by
  unfold mailboxFails
  repeat' first
    | with_reducible assumption
    | with_reducible apply onMbx_keeps
    | with_reducible apply pump_keeps
    | with_reducible apply reply_keeps
    | (extract_lets +onlyGivenNames x
       first
         | (refine Keeps.cut x ?_ ?_
            on_goal 1 => unfold x; clear x
            on_goal 2 => intro _; clear_value x)
         | (refine Keeps.cut2 x ?_ ?_
            on_goal 1 => unfold x; clear x
            on_goal 2 => intro _; clear_value x)
         | (refine Keeps.cutF x ?_ ?_
            on_goal 1 => unfold x; clear x
            on_goal 2 => intro hF; clear_value x)
         | (refine Keeps.cutF1 x ?_ ?_
            on_goal 1 => unfold x; clear x
            on_goal 2 => intro hF1; clear_value x)
         | (refine Keeps.cutF0 x ?_ ?_
            on_goal 1 => unfold x; clear x
            on_goal 2 => intro hF0; clear_value x)
         | (refine Keeps.cutFF x ?_ ?_
            on_goal 1 => unfold x; clear x
            on_goal 2 => intro hFF; clear_value x)
         | clear_value x)
    | with_reducible apply hF
    | with_reducible apply hF1
    | with_reducible apply hF0
    | with_reducible apply hFF
    | intro _
    | with_reducible apply Keeps.ite_
    | (with_reducible refine Keeps.foldl (fun _ _ _ => ?_) ?_)
    | (with_reducible refine Keeps.foldl2 (fun _ _ _ => ?_) ?_)
    | (fail_if_no_progress with_reducible apply Keeps.upd)
    | dsimp -zeta only []
    | with_reducible refine Keeps.ofPair (by with_reducible assumption) ?_
    | split
    | apply Keeps.ite_

theorem answerMailbox_keeps {s0 s} {a0 a1} (h : Keeps s0 s) : Keeps s0 (answerMailbox a0 a1 s) := by
  unfold answerMailbox
  repeat' first
    | with_reducible assumption
    | with_reducible apply mailboxData_keeps
    | with_reducible apply mailboxFails_keeps
    | (extract_lets +onlyGivenNames x
       first
         | (refine Keeps.cut x ?_ ?_
            on_goal 1 => unfold x; clear x
            on_goal 2 => intro _; clear_value x)
         | clear_value x)
    | with_reducible apply Keeps.ite_
    | (fail_if_no_progress with_reducible apply Keeps.upd)
    | split
    | apply Keeps.ite_

theorem setLeft_keeps {s0 s} {a0 a1 a2} (h : Keeps s0 s) : Keeps s0 (setLeft a0 a1 a2 s) := by
  unfold setLeft
  repeat' first
    | with_reducible assumption
    | (extract_lets +onlyGivenNames x
       first
         | (refine Keeps.cut x ?_ ?_
            on_goal 1 => unfold x; clear x
            on_goal 2 => intro _; clear_value x)
         | (refine Keeps.cut2 x ?_ ?_
            on_goal 1 => unfold x; clear x
            on_goal 2 => intro _; clear_value x)
         | (refine Keeps.cutF x ?_ ?_
            on_goal 1 => unfold x; clear x
            on_goal 2 => intro hF; clear_value x)
         | (refine Keeps.cutF1 x ?_ ?_
            on_goal 1 => unfold x; clear x
            on_goal 2 => intro hF1; clear_value x)
         | (refine Keeps.cutF0 x ?_ ?_
            on_goal 1 => unfold x; clear x
            on_goal 2 => intro hF0; clear_value x)
         | (refine Keeps.cutFF x ?_ ?_
            on_goal 1 => unfold x; clear x
            on_goal 2 => intro hFF; clear_value x)
         | clear_value x)
    | with_reducible apply hF
    | with_reducible apply hF1
    | with_reducible apply hF0
    | with_reducible apply hFF
    | intro _
    | with_reducible apply Keeps.ite_
    | (with_reducible refine Keeps.foldl (fun _ _ _ => ?_) ?_)
    | (with_reducible refine Keeps.foldl2 (fun _ _ _ => ?_) ?_)
    | (fail_if_no_progress with_reducible apply Keeps.upd)
    | dsimp -zeta only []
    | with_reducible refine Keeps.ofPair (by with_reducible assumption) ?_
    | split
    | apply Keeps.ite_

theorem answerLeft_keeps {s0 s s' : State} {f : Nat} {r : HostReply} (e : answerLeft f r s = some s') (h : Keeps s0 s) :
    Keeps s0 s' := by
  unfold answerLeft at e
  split at e
  · split at e <;> obtain rfl := Option.some.inj e
    · exact Keeps.ite_ (pump_keeps (setLeft_keeps h)) h
    · exact h
    · exact h
    · exact pump_keeps (setLeft_keeps h)
  · dsimp only at e
    split at e <;> obtain rfl := Option.some.inj e
    · exact Keeps.ite_ (stageBytes_keeps (Keeps.upd h)) h
    · exact h
    · exact h
    · exact Keeps.upd h
  · cases e

theorem answerRead_keeps {s0 s} {a0 a1} (h : Keeps s0 s) : Keeps s0 (answerRead a0 a1 s) := by
  unfold answerRead
  split
  · rename_i f
    cases e : answerLeft f.val a1 s with
    | none => exact answerMailbox_keeps h
    | some s' => exact answerLeft_keeps e h
  · exact answerCommand_keeps h

theorem noteReader_keeps {s0 s} {t : ReadOf} {r : HostReply} (h : Keeps s0 s) :
    Keeps s0 ((readFunc s t).elim s fun f => noteReply f r s) := by
  cases readFunc s t with
  | none => exact h
  | some f => exact noteReply_keeps h

theorem execHostReadCompletion_keeps {s} {a0 a1} : ∃ t, execHostReadCompletion a0 a1 s = .next t ∧ Keeps s t :=
  ⟨_, rfl, Keeps.ite_ (Keeps.same s) (answerRead_keeps (noteReader_keeps (Keeps.same s)))⟩

theorem execCompletionTimeout_keeps {s} {a0} : ∃ t, execCompletionTimeout a0 s = .next t ∧ Keeps s t :=
  ⟨_, rfl, Keeps.ite_ (Keeps.same s) (answerRead_keeps (noteReader_keeps (Keeps.same s)))⟩

end Sys2Proof.Machine
end

