-- ==== Sys2Proof/Laws/KeepsExec.lean ====
section
/-!
SUPPORT. Sys2Proof/Laws/KeepsExec.lean: what every command and an idle step keep, gathered from the files KeepsXxx.
-/
namespace Sys2Proof.Machine

/-- The commands that bring the device up from COLD, send it there, or take it into ORPHAN_HOLD and back. -/
def movesState : Instr → Bool
  | .powerOn => true
  | .powerFail _ => true
  | .thermalTrip => true
  | .tripRecovery => true
  | .hostLinkUp _ => true
  | .orphanTimeout => true
  | .holdUpEnd => true
  | _ => false

/-- Every other command keeps what `Keeps` says. -/
theorem exec_keeps {i : Instr} {s : State} (h : movesState i = false) : ∃ t, exec i s = .next t ∧ Keeps s t := by
  cases i with
  | powerOn => simp [movesState] at h
  | romDone => exact execRomDone_keeps
  | imageCheck _ => exact execImageCheck_keeps
  | trained _ => exact execTrained_keeps
  | enterRun => exact execEnterRun_keeps
  | beatEdge _ => exact execBeatEdge_keeps
  | holdoverEntry => exact execHoldoverEntry_keeps
  | beatBoundary => exact execBeatBoundary_keeps
  | qosWindowClose => exact execQosWindowClose_keeps
  | dvfsStep _ => exact execDvfsStep_keeps
  | loadCountClose => exact execLoadCountClose_keeps
  | stolonDecision => exact execStolonDecision_keeps
  | eviction => exact execEviction_keeps
  | moveBatchStart => exact execMoveBatchStart_keeps
  | moveBatchAck => exact execMoveBatchAck_keeps
  | moveBatchTimeout => exact execMoveBatchTimeout_keeps
  | epochClose => exact execEpochClose_keeps
  | epochSigned _ => exact execEpochSigned_keeps
  | counterDump => exact execCounterDump_keeps
  | genFlip => exact execGenFlip_keeps
  | changeRollback => exact execChangeRollback_keeps
  | rollbackForceEnd => exact execRollbackForceEnd_keeps
  | compactionStart => exact execCompactionStart_keeps
  | journalRegionSwitch => exact execJournalRegionSwitch_keeps
  | journalEraseDone => exact execJournalEraseDone_keeps
  | journalRecordCommit => exact execJournalRecordCommit_keeps
  | journalProgramFail => exact execJournalProgramFail_keeps
  | meterSample _ _ _ => exact execMeterSample_keeps
  | meterFault => exact execMeterFault_keeps
  | powerGovernor => exact execPowerGovernor_keeps
  | powerLimit => exact execPowerLimit_keeps
  | inputSag => exact execInputSag_keeps
  | sagEnd => exact execSagEnd_keeps
  | powerFail _ => simp [movesState] at h
  | thermalTrip => simp [movesState] at h
  | tripRecovery => simp [movesState] at h
  | powerSeqStart => exact execPowerSeqStart_keeps
  | powerSeqEntry _ => exact execPowerSeqEntry_keeps
  | waitGoodTimeout => exact execWaitGoodTimeout_keeps
  | hostLinkUp _ => simp [movesState] at h
  | hostLinkDown _ => exact execHostLinkDown_keeps
  | linkTrainFail _ => exact execLinkTrainFail_keeps
  | orphanTimeout => simp [movesState] at h
  | peerLinkDown _ => exact execPeerLinkDown_keeps
  | fundamentalReset _ => exact execFundamentalReset_keeps
  | flr _ => exact execFlr_keeps
  | vfEnableClear _ => exact execVfEnableClear_keeps
  | numvfsLowered _ _ => exact execNumvfsLowered_keeps
  | d3hotToD0 _ => exact execD3hotToD0_keeps
  | funcResetComplete _ => exact execFuncResetComplete_keeps
  | resizableBarWrite _ => exact execResizableBarWrite_keeps
  | atsInvalidate _ _ _ => exact execAtsInvalidate_keeps
  | hostBarAccess _ _ _ _ _ => exact execHostBarAccess_keeps
  | registerWrite _ _ _ _ => exact execRegisterWrite_keeps
  | windowAccess _ _ _ _ => exact execWindowAccess_keeps
  | windowFillDone _ => exact execWindowFillDone_keeps
  | winSync _ => exact execWinSync_keeps
  | winClean _ _ => exact execWinClean_keeps
  | winInval _ _ => exact execWinInval_keeps
  | winCleanInval _ _ => exact execWinCleanInval_keeps
  | winLock _ _ => exact execWinLock_keeps
  | winUnlock _ _ => exact execWinUnlock_keeps
  | rangeClean _ _ => exact execRangeClean_keeps
  | rangeInval _ _ => exact execRangeInval_keeps
  | rangeCleanInval _ _ => exact execRangeCleanInval_keeps
  | rangeOpDone _ => exact execRangeOpDone_keeps
  | winCarveWrite _ _ => exact execWinCarveWrite_keeps
  | winCacheDisable _ => exact execWinCacheDisable_keeps
  | peerZoneWrite _ _ _ _ => exact execPeerZoneWrite_keeps
  | flushRead _ _ _ _ => exact execFlushRead_keeps
  | queueEnable _ _ => exact execQueueEnable_keeps
  | queueDisable _ _ => exact execQueueDisable_keeps
  | sqTailDoorbell _ _ => exact execSqTailDoorbell_keeps
  | cqHeadDoorbell _ _ => exact execCqHeadDoorbell_keeps
  | slotFetch _ _ => exact execSlotFetch_keeps
  | nop _ => exact execNop_keeps
  | lookupPool _ => exact execLookupPool_keeps
  | lookupRaw _ => exact execLookupRaw_keeps
  | scatterAdd _ => exact execScatterAdd_keeps
  | scatterOpt _ => exact execScatterOpt_keeps
  | kvAppend _ => exact execKvAppend_keeps
  | kvRelease _ => exact execKvRelease_keeps
  | prefixMatch _ => exact execPrefixMatch_keeps
  | attnDecode _ => exact execAttnDecode_keeps
  | copyH2d _ => exact execCopyH2d_keeps
  | copyD2h _ => exact execCopyD2h_keeps
  | tableLoad _ => exact execTableLoad_keeps
  | bufAlloc _ => exact execBufAlloc_keeps
  | bufFree _ => exact execBufFree_keeps
  | fence _ => exact execFence_keeps
  | runKernel _ => exact execRunKernel_keeps
  | counterSnap _ => exact execCounterSnap_keeps
  | counterSnapCapture _ => exact execCounterSnapCapture_keeps
  | shardZeroDone => exact execShardZeroDone_keeps
  | farRowArrival _ _ => exact execFarRowArrival_keeps
  | sliceResultArrival _ _ => exact execSliceResultArrival_keeps
  | chunkSort _ => exact execChunkSort_keeps
  | chunkApply _ => exact execChunkApply_keeps
  | rowReductionPacket _ => exact execRowReductionPacket_keeps
  | huskChainPacket _ => exact execHuskChainPacket_keeps
  | huskAck _ => exact execHuskAck_keeps
  | reconstructionPacket _ => exact execReconstructionPacket_keeps
  | workItemStart _ => exact execWorkItemStart_keeps
  | slicePartialFold _ _ _ _ => exact execSlicePartialFold_keeps
  | attnMergePacket _ => exact execAttnMergePacket_keeps
  | completionPost _ _ => exact execCompletionPost_keeps
  | partLoss _ _ => exact execPartLoss_keeps
  | recoveryCut => exact execRecoveryCut_keeps
  | linkRepair _ => exact execLinkRepair_keeps
  | linkDegraded _ => exact execLinkDegraded_keeps
  | mgmtRingSegmentFail _ => exact execMgmtRingSegmentFail_keeps
  | laneRepair _ _ _ => exact execLaneRepair_keeps
  | patrolScrub _ _ => exact execPatrolScrub_keeps
  | halt _ => exact execHalt_keeps
  | exceptionEntry _ => exact execExceptionEntry_keeps
  | coreLockExpiry _ => exact execCoreLockExpiry_keeps
  | yield _ => exact execYield_keeps
  | yieldResume _ => exact execYieldResume_keeps
  | abort _ => exact execAbort_keeps
  | budget _ => exact execBudget_keeps
  | ymaskLimit _ => exact execYmaskLimit_keeps
  | coreLaunch _ => exact execCoreLaunch_keeps
  | xferComplete _ _ => exact execXferComplete_keeps
  | longInstrStep _ => exact execLongInstrStep_keeps
  | opBr _ => exact execBr_keeps
  | opBrz _ => exact execBrz_keeps
  | opBrnz _ => exact execBrnz_keeps
  | opCall _ => exact execCall_keeps
  | opRet _ => exact execRet_keeps
  | opLoop _ => exact execLoop_keeps
  | opEnd _ => exact execEnd_keeps
  | opFault _ => exact execFault_keeps
  | opTrap _ => exact execTrap_keeps
  | opRte _ => exact execRte_keeps
  | opMovtc _ => exact execMovtc_keeps
  | opMovfc _ => exact execMovfc_keeps
  | opRdpos _ => exact execRdpos_keeps
  | opRdcyc _ => exact execRdcyc_keeps
  | opWait _ => exact execWait_keeps
  | opSheafPool _ => exact execSheafPool_keeps
  | opFlailApply _ => exact execFlailApply_keeps
  | opAttnBlock _ => exact execAttnBlock_keeps
  | opAdd _ _ => exact execAdd_keeps
  | opSub _ _ => exact execSub_keeps
  | opAnd _ _ => exact execAnd_keeps
  | opOr _ _ => exact execOr_keeps
  | opXor _ _ => exact execXor_keeps
  | opShl _ _ => exact execShl_keeps
  | opShr _ _ => exact execShr_keeps
  | opSar _ _ => exact execSar_keeps
  | opMul _ _ => exact execMul_keeps
  | opCmpeq _ _ => exact execCmpeq_keeps
  | opCmplt _ _ => exact execCmplt_keeps
  | opCmpltu _ _ => exact execCmpltu_keeps
  | opMovi _ _ => exact execMovi_keeps
  | opLd1 _ _ => exact execLd1_keeps
  | opLd2 _ _ => exact execLd2_keeps
  | opLd4 _ _ => exact execLd4_keeps
  | opLd8 _ _ => exact execLd8_keeps
  | opLdv _ _ => exact execLdv_keeps
  | opSt1 _ _ => exact execSt1_keeps
  | opSt2 _ _ => exact execSt2_keeps
  | opSt4 _ _ => exact execSt4_keeps
  | opSt8 _ _ => exact execSt8_keeps
  | opStv _ _ => exact execStv_keeps
  | opXferIn _ _ => exact execXferIn_keeps
  | opXferOut _ _ => exact execXferOut_keeps
  | opVadd _ _ => exact execVadd_keeps
  | opVsub _ _ => exact execVsub_keeps
  | opVmul _ _ => exact execVmul_keeps
  | opVfma _ _ => exact execVfma_keeps
  | opVmax _ _ => exact execVmax_keeps
  | opVmin _ _ => exact execVmin_keeps
  | opVdiv _ _ => exact execVdiv_keeps
  | opVsqrt _ _ => exact execVsqrt_keeps
  | opVexp2 _ _ => exact execVexp2_keeps
  | opVcvt _ _ => exact execVcvt_keeps
  | opVand _ _ => exact execVand_keeps
  | opVor _ _ => exact execVor_keeps
  | opVxor _ _ => exact execVxor_keeps
  | opVbcast _ _ => exact execVbcast_keeps
  | opVext _ _ => exact execVext_keeps
  | opVperm _ _ => exact execVperm_keeps
  | opVredadd _ _ => exact execVredadd_keeps
  | opVredmax _ _ => exact execVredmax_keeps
  | opAccMac _ _ => exact execAccMac_keeps
  | opAccZero _ _ => exact execAccZero_keeps
  | opAccRds _ _ => exact execAccRds_keeps
  | opAccWrs _ _ => exact execAccWrs_keeps
  | opAccSave _ _ => exact execAccSave_keeps
  | opAccRestore _ _ => exact execAccRestore_keeps
  | opAccDrain _ => exact execAccDrain_keeps
  | opAccSwap _ _ => exact execAccSwap_keeps
  | opAccFlags _ _ => exact execAccFlags_keeps
  | qdbKvnHead _ _ => exact execQdbKvnHead_keeps
  | identify _ _ => exact execIdentify_keeps
  | genQuery _ _ => exact execGenQuery_keeps
  | tableRegister _ _ => exact execTableRegister_keeps
  | kvRegister _ _ => exact execKvRegister_keeps
  | tableRelease _ _ => exact execTableRelease_keeps
  | tableQuery _ _ => exact execTableQuery_keeps
  | shardMove _ _ => exact execShardMove_keeps
  | huskSet _ _ => exact execHuskSet_keeps
  | classSet _ _ => exact execClassSet_keeps
  | ledgerSet _ _ => exact execLedgerSet_keeps
  | kernelLoad _ _ => exact execKernelLoad_keeps
  | kernelUnload _ _ => exact execKernelUnload_keeps
  | coreReset _ _ => exact execCoreReset_keeps
  | funcCtl _ _ => exact execFuncCtl_keeps
  | imageStage _ _ => exact execImageStage_keeps
  | imageActivate _ _ => exact execImageActivate_keeps
  | keyRead _ _ => exact execKeyRead_keeps
  | certRead _ _ => exact execCertRead_keeps
  | anchorSet _ _ => exact execAnchorSet_keeps
  | eventRing _ _ => exact execEventRing_keeps
  | dumpRing _ _ => exact execDumpRing_keeps
  | pipRing _ _ => exact execPipRing_keeps
  | noticeRing _ _ => exact execNoticeRing_keeps
  | eventFetch _ _ => exact execEventFetch_keeps
  | dumpRead _ _ => exact execDumpRead_keeps
  | proofRead _ _ => exact execProofRead_keeps
  | epochRead _ _ => exact execEpochRead_keeps
  | summaryRead _ _ => exact execSummaryRead_keeps
  | collectAck _ _ => exact execCollectAck_keeps
  | reportRead _ _ => exact execReportRead_keeps
  | crashRead _ _ => exact execCrashRead_keeps
  | mailboxComplete _ => exact execMailboxComplete_keeps
  | setEndpointId _ _ => exact execSetEndpointId_keeps
  | getSensorReading _ _ => exact execGetSensorReading_keeps
  | getStateSensorReadings _ _ => exact execGetStateSensorReadings_keeps
  | getPdr _ _ => exact execGetPdr_keeps
  | requestUpdate _ => exact execRequestUpdate_keeps
  | requestFirmwareData _ _ _ => exact execRequestFirmwareData_keeps
  | verifyComplete _ => exact execVerifyComplete_keeps
  | activateFirmware _ => exact execActivateFirmware_keeps
  | stagingTimeout => exact execStagingTimeout_keeps
  | pldmOemRequest _ _ _ _ _ => exact execPldmOemRequest_keeps
  | regRead _ _ _ _ => exact execRegRead_keeps
  | unknownOpcode _ => exact execUnknownOpcode_keeps
  | badOp _ _ _ => exact execBadOp_keeps
  | hostReadCompletion _ _ => exact execHostReadCompletion_keeps
  | completionTimeout _ => exact execCompletionTimeout_keeps
  | configurationRequest _ _ => exact execConfigurationRequest_keeps
  | peerLinkUp _ => exact execPeerLinkUp_keeps
  | cxlEventInterrupt _ _ => exact execCxlEventInterrupt_keeps
  | winCacheEnable _ => exact execWinCacheEnable_keeps
  | shardParityDone => exact execShardParityDone_keeps
  | journalEraseFail => exact execJournalEraseFail_keeps
  | holdUpEnd => simp [movesState] at h

end Sys2Proof.Machine
end

