-- ==== Sys2Proof/WellFormed.lean ====
section
/-!
DEFINITION. Sys2Proof/WellFormed.lean: which commands have operands that the spec gives a sense to. The types of Syntax.lean
already bound part numbers, function numbers and register widths; what is left are lengths and ranges.
-/
namespace Sys2Proof

/-- Largest memory request, in bytes (Table 13-2). -/
def maxRequestBytes : Nat := 4096

/-- A read of `len` bytes, or a write that carries its bytes, is one memory request. -/
def requestWf (len : Nat) (data : Option (List Byte)) : Bool :=
  match data with
  | none => decide (1 ≤ len ∧ len ≤ maxRequestBytes)
  | some bs => decide (1 ≤ bs.length ∧ bs.length ≤ maxRequestBytes)

/-- A temperature in 1/16 °C, as TEMP of Table 17-4 holds it. -/
def tempWf (t : Nat) : Bool := decide (t < 4096)

/-- A bus host address is 64 bits wide. -/
def addrWf (a : Nat) : Bool := decide (a < 2 ^ 64)

/-- Operands in range. -/
def Instr.wf : Instr → Bool
  | .trained missing => decide missing.Nodup
  | .dvfsStep temps => temps.length == 20 && temps.all tempWf
  | .meterSample mv ma _ => decide (mv < 2 ^ 32) && decide (ma < 2 ^ 32)
  | .partLoss _ cause => decide (1 ≤ cause ∧ cause ≤ 0x1A)
  | .atsInvalidate _ a n => addrWf a && decide (a % 4096 = 0) && decide (0 < n) && decide (n % 4096 = 0)
  | .hostBarAccess _ _ off len data => addrWf off && requestWf len data
  | .windowAccess _ off len data => requestWf len data && decide (off.toNat + (data.map (·.length)).getD len ≤ 2 ^ 28)
  | .peerZoneWrite _ _ off data => addrWf off && decide (1 ≤ data.length ∧ data.length ≤ 512)
  | .flushRead _ _ off len => addrWf off && decide (len ≤ maxRequestBytes)
  | .requestFirmwareData _ off bytes => bytes.length == 1024 && decide (off.toNat % 1024 = 0)
  | .registerWrite _ off wide _ => decide (off.toNat % (if wide then 8 else 4) = 0)
  | .hostReadCompletion _ r => r != .timeout
  | .pldmOemRequest _ _ _ _ inp => decide (inp.length ≤ 4096 - 12)
  | _ => true

end Sys2Proof
end

