-- ==== Sys2Proof/Tests/Slice0.lean ====
section
/-!
SUPPORT. Sys2Proof/Tests/Slice0.lean: the checks of WellFormed, small tests of one command each, and for each statement
states that meet its hypotheses.
-/
open Sys2Proof Sys2Proof.Machine

set_option maxRecDepth 16000
set_option Elab.async false

namespace Sys2Proof.Tests

/-! ### Small states -/

/-- The state that a command leaves. -/
def after (i : Instr) (s : State) : State := match exec i s with | .next t => t | _ => s
/-- The state that a step leaves. -/
def stepped (s : State) : State := match step s with | .next t => t | _ => s
/-- The state at reset, in another device state. -/
def inState (d : DevState) : State := { State.reset with sys := { resetSys with state := d } }
/-- Function `f` as an image enables it; function 0 with 15 VFs. -/
def liveFunc (f : Nat) : Func :=
  { resetFunc with pci := { resetPci with en := true, vectors := 8, vfEnable := decide (f = 0), numVfs := if f = 0 then 15 else 0 } }
/-- A device in service: ports up, functions 0 and 1, queue pair 0 of function 1 enabled with four entries. -/
def serving : State :=
  { inState .run with
    ports := Vector.replicate 8 { resetPort with up := true }, imageOk := true,
    funcs := vupd (vupd State.reset.funcs 0 fun _ => liveFunc 0) 1 fun _ => liveFunc 1,
    qs := vupd State.reset.qs 0 fun Q => { Q with func := some 1, sqs := 3, cqs := 3, en := true } }

/-! ### Statements about steps and device states -/

theorem witness_StepRunsTheFrontCommand :
    ({ serving with pending := [.slotFetch 0 .refused] } : State).pending = [.slotFetch 0 .refused] ∧
    State.reset.pending = [] ∧ State.reset.sys.state ≠ .cold ∧ State.reset.tb.tick ≠ 0xFFFF ∧ (inState .cold).sys.state = .cold ∧
    ({ serving with tb := { serving.tb with tick := 0xFFFF } } : State).tb.tick = 0xFFFF := by decide +kernel

theorem witness_NothingIsUnsent : ∃ t, exec (.genQuery 0 0) serving = .next t := ⟨_, rfl⟩

theorem witness_EveryStepKeepsSound : ∃ s t, Sound s ∧ step s = .next t ∧ allowed s.sys.state t.sys.state = true :=
  ⟨State.reset, stepped State.reset, ⟨rfl, rfl⟩, rfl, by decide +kernel⟩

/-- A device that has lost a part, with `c` in front. -/
def hurt (d p : DevState) (c : Instr) : State :=
  { serving with sys := { resetSys with state := d, prior := p, lossSeen := true }, pending := [c],
                 orphanSince := some 0, tb := { resetTb with start := 10 * second } }

theorem witness_DegradedNeverReturnsToRun :
    (∃ s t, Sound s ∧ step s = .next t ∧ s.sys.state = .degraded ∧ t.sys.state = .orphanHold) ∧
    (∃ s t, Sound s ∧ step s = .next t ∧ s.sys.state = .orphanHold ∧ s.sys.prior = .degraded ∧ t.sys.state = .degraded) ∧
    (∃ s t, Sound s ∧ step s = .next t ∧ s.sys.state = .degraded ∧ t.sys.state = .cold) :=
  ⟨⟨hurt .degraded .run .orphanTimeout, _, ⟨rfl, rfl⟩, rfl, by decide +kernel, by decide +kernel⟩,
   ⟨{ hurt .orphanHold .degraded (.hostLinkUp ⟨0, 32, 16, false⟩) with ports := Vector.replicate 8 resetPort }, _, ⟨rfl, rfl⟩, rfl,
    by decide +kernel, by decide +kernel, by decide +kernel⟩,
   ⟨hurt .degraded .run .thermalTrip, _, ⟨rfl, rfl⟩, rfl, by decide +kernel, by decide +kernel⟩⟩

theorem witness_HaltIsLeftThroughCold :
    (∃ s t, step s = .next t ∧ s.sys.state = .halt ∧ t.sys.state = .cold) ∧
    (∃ s t, step s = .next t ∧ s.sys.state = .cold ∧ t.sys.state = .boot) :=
  ⟨⟨{ inState .halt with pending := [.thermalTrip] }, _, rfl, by decide +kernel, by decide +kernel⟩,
   ⟨{ inState .cold with pending := [.powerOn] }, _, rfl, by decide +kernel, by decide +kernel⟩⟩

theorem witness_PowerBringsTheDeviceToBoot :
    ((inState .cold).sys.state = .cold ∧ (inState .cold).sys.tripped = false) ∧
    ((after .thermalTrip serving).sys.state = .cold ∧ (after .thermalTrip serving).sys.tripped = true) ∧
    serving.sys.state ≠ .cold := by decide +kernel

/-- A device in REPLAY whose journal has been replayed, at a boundary. -/
def replayed : State := { inState .replay with sys := { resetSys with state := .replay, replayDone := true } }

theorem witness_StartupGoesStateByState :
    State.reset.sys.state = .boot ∧
    ((inState .image).sys.state = .image ∧ (inState .image).imageOk = false ∧ slotNext (inState .image) = some 0) ∧
    (let s : State := { inState .image with sys := { resetSys with state := .image, aChecked := true, aCode := 1 } }
     s.imageOk = false ∧ slotNext s = some 1) ∧
    ((inState .train).sys.state = .train ∧ (replayLosses (replayJournal (inState .train))).sys.state = .train) ∧
    (replayed.sys.state = .replay ∧ replayed.sys.replayDone = true ∧ replayed.tb.tick = 0) := by decide +kernel

/-- A device in service whose power fails, past its path and its hold-up time. -/
def failing : State :=
  { serving with sys := { resetSys with state := .run, powerFailing := true }, tb := { resetTb with start := 20 * msec } }

theorem witness_DeviceStopsAsTheCauseSays :
    (serving.sys.state ≠ .cold ∧ serving.sys.state ≠ .halt ∧ serving.sys.powerFailing = false) ∧
    (State.reset.imageOk = false ∧ failCause State.reset 0 = true ∧ State.reset.sys.state ≠ .cold ∧
      State.reset.sys.powerFailing = false) ∧
    (serving.imageOk = true ∧ failCause serving 0 = true) ∧
    (failing.sys.powerFailing = true ∧ pathDone failing = true ∧ failing.pmc.failClk + 20 * msec ≤ clkOf failing) ∧
    (let s := hurt .degraded .run .orphanTimeout
     s.orphanSince = some 0 ∧ running s = true ∧ 0 + 10 * second ≤ clkOf s ∧ epochDue s = false) := by decide +kernel

/-! ### Timebase, power and ports -/

/-- The beat after 10 beats of 20 ms, `trk` tracking, with `run` acquired so far. -/
def beatAt (trk : TrkState) (prev : Option Nat) (run : List Nat) : State :=
  { serving with tb := { resetTb with trk := trk, start := 10 * beat50Hz, prevEdge := prev, run := run, tick := 0x8000,
                                      neverLocked := trk != .locked } }

/-- Edge times in ns: `n` beats of 20 ms, and `d` ns. -/
def nsOf (n d : Nat) : Nat := n * 20000000 + d

theorem witness_BeatsAreTracked :
    (edgeDue (nsOf 10 0) (beatAt .locked (some (16 * nsOf 10 0 - edgeMin + 1)) []) = true) ∧
    (edgeDue (nsOf 10 0) (beatAt .locked (some (9 * beat50Hz)) []) = true ∧
      inWindow (beatAt .locked (some (9 * beat50Hz)) []).tb (16 * nsOf 10 0) = true ∧
      ¬ 16 * nsOf 10 0 - 9 * beat50Hz < edgeMin) ∧
    (inWindow (beatAt .locked (some (9 * beat50Hz)) []).tb (16 * nsOf 10 200001) = false ∧
      edgeDue (nsOf 10 200001) (beatAt .locked (some (9 * beat50Hz)) []) = true) ∧
    (edgeDue (nsOf 10 0) (beatAt .holdover none []) = true ∧ (beatAt .holdover none []).tb.neverLocked = true) ∧
    (edgeDue (nsOf 10 0) (beatAt .acquire (some (9 * beat50Hz)) []) = true ∧
      (beatAt .acquire (some (9 * beat50Hz)) []).tb.run = []) ∧
    (let run := (List.range 6).map fun i => (9 - i) * beat50Hz
     edgeDue (nsOf 10 0) (beatAt .acquire (some (9 * beat50Hz)) run) = true ∧
       runPasses (16 * nsOf 10 0 :: run) = true ∧ run.length = 6 ∧ 16 * nsOf 10 0 - 9 * beat50Hz ≤ edgeMax) ∧
    (let run := (List.range 7).map fun i => (9 - i) * beat50Hz
     edgeDue (nsOf 10 0) (beatAt .acquire (some (9 * beat50Hz)) run) = true ∧
       runPasses (16 * nsOf 10 0 :: run) = true ∧ run.length = 7) ∧
    (let s := beatAt .locked none []
     s.tb.trk = .locked ∧ s.tb.edgeSeen = false ∧
       (expected s.tb).1 + ((trackedPeriod s.tb / 100 + edgeHold : Nat) : Int) < (clkOf s : Int)) ∧
    (let s : State := { serving with tb := { resetTb with tick := 0xFFFF, trk := .locked, neverLocked := false } }
     s.sys.state ≠ .cold ∧ s.tb.tick = 0xFFFF ∧ s.tb.trk = .locked ∧ s.tb.neverLocked = false ∧ s.tb.slip = none ∧
       s.tb.stretch.2 = 0 ∧ s.tb.nextEpochE = none) ∧
    (let s : State := { serving with tb := { resetTb with tick := 0xFFFF, neverLocked := false } }
     s.sys.state ≠ .cold ∧ s.tb.trk ≠ .locked ∧ s.tb.slip = none ∧ s.tb.stretch.2 = 0 ∧ s.tb.nextEpochE = none) ∧
    (let s : State := { serving with tb := { resetTb with tick := 0xFFFF, neverLocked := false, slip := some (-5) } }
     s.tb.slip = some (-5) ∧ s.tb.neverLocked = false ∧ s.tb.trk ≠ .locked) := by decide +kernel

/-- At tick 1,024 of a beat, with the window of tick 1,023 closed. -/
def stepTick : State := { serving with tb := { resetTb with tick := 1024 }, qos := { resetQos with winTick := 1024 } }

theorem witness_PowerIsGoverned :
    (dvfsDue stepTick = true ∧ windowsClosed stepTick = true ∧ flipDue stepTick = false ∧ switchDue stepTick = false ∧
      stepTick.pmc.run = none ∧ ∀ d < 20, nth (List.replicate 20 1680) d 0 ≤ offlineAbove d) ∧
    (let s : State := { stepTick with pmc := { resetPmc with run := some ⟨1, 0⟩ } }
     s.pmc.run = some ⟨1, 0⟩ ∧ dvfsDue s = true ∧ windowsClosed s = true) ∧
    (let s : State := { serving with pmc := { resetPmc with meanDue := true },
                                     led := { resetLedger with powerMw := BitVec.ofNat 32 (powerLimit + 1) } }
     s.pmc.meanDue = true ∧ powerLimit < s.led.powerMw.toNat) ∧
    (let s : State := { serving with pmc := { resetPmc with limitMs := 100 } }
     s.pmc.limitMs = 100) ∧
    serving.pmc.sag = false ∧
    (let s : State := { serving with pmc := { resetPmc with sag := true } }
     s.pmc.sag = true) := by decide +kernel

/-- A sequence of `id` with one entry of operation `op` runs and stands at it. -/
def seqRuns (id op : Nat) : State :=
  { serving with image := { resetImage with seqs := [(id, [⟨op, 20, 100⟩])] }, pmc := { resetPmc with run := some ⟨id, 0⟩ } }

theorem witness_PowerSequencesRun :
    (let s : State := { seqRuns 4 1 with pmc := { resetPmc with due := [⟨4, 0⟩] } }
     s.pmc.run = none ∧ s.pmc.due = ⟨4, 0⟩ :: [] ∧ s.sys.state ≠ .cold) ∧
    (∀ op ∈ [1, 2, 3, 4, 5, 6, 7], (seqRuns 4 op).pmc.run = some ⟨4, 0⟩ ∧ entryOver (seqRuns 4 op) false = true ∧
      (seqEntries (seqRuns 4 op) 4)[(seqRuns 4 op).pmc.step]? = some ⟨op, 20, 100⟩ ∧
      skipped (seqRuns 4 op) ⟨4, 0⟩ ⟨op, 20, 100⟩ = false ∧ seqDomain ⟨4, 0⟩ ⟨op, 20, 100⟩ < 332 ∧
      dieOfDomain (seqDomain ⟨4, 0⟩ ⟨op, 20, 100⟩) < 20 ∧ (seqRuns 4 op).pmc.held = none) ∧
    ((seqEntries (seqRuns 4 0) 4)[(seqRuns 4 0).pmc.step]? = some ⟨0, 20, 100⟩ ∧ entryOver (seqRuns 4 0) false = true ∧
      skipped (seqRuns 4 0) ⟨4, 0⟩ ⟨0, 20, 100⟩ = false ∧ (seqRuns 4 0).pmc.held = none) ∧
    (let s : State := { seqRuns 4 3 with pmc := { resetPmc with run := some ⟨4, 0⟩, waitGood := some 20 } }
     s.pmc.run = some ⟨4, 0⟩ ∧ s.pmc.waitGood = some 20 ∧ s.pmc.entryEnd ≤ clkOf s) := by decide +kernel

/-- The device in service with a peer on port 6 that may write a zone of 4 KiB of function 1. -/
def peered : State :=
  { serving with image := { resetImage with
      reqs := [(6, 9)], zones := [{ id := 1, port := 6, owner := 1, reqMask := 1, da := regionBase 3, size := 4096, apOff := 0 }],
      carve := { resetCarve with stripeSize := 65536, poolBytes := 0 } } }

/-- No port is up. -/
def downed (s : State) : State := { s with ports := Vector.replicate 8 resetPort }

theorem witness_LinksComeAndGo :
    (portMode serving 0 = .host ∧ mayTrain (downed serving) 0 = true ∧ portUp (downed serving) 0 = false ∧
      linkAllowed .host (⟨0, 16, 8, false⟩ : LinkTrained 4) = true ∧ linkAllowed .host (⟨0, 64, 16, true⟩ : LinkTrained 4) = true ∧
      linkAllowed .host (⟨0, 64, 16, false⟩ : LinkTrained 4) = false ∧ linkAllowed .host (⟨0, 32, 4, false⟩ : LinkTrained 4) = false ∧
      linkAllowed .peer (⟨6, 32, 4, false⟩ : LinkTrained 8) = true) ∧
    (let s := downed (hurt .orphanHold .degraded (.hostLinkUp ⟨0, 32, 16, false⟩))
     portMode s 0 = .host ∧ mayTrain s 0 = true ∧ portUp s 0 = false ∧ s.sys.state = .orphanHold ∧ epochDue s = false) ∧
    (portUp serving 0 = true ∧ portMode serving 0 = .host) ∧
    (portMode serving 1 = .off ∧ portMode peered 6 = .peer ∧ mayTrain peered 6 = true ∧ portUp peered 6 = true ∧
      linksTraining peered = true) ∧
    (let s : State := { serving with funcs := State.reset.funcs.map fun F => { F with pci := { F.pci with en := true } } }
     portMode s 3 = .host ∧ portUp (downed s) 3 = false ∧ linksTraining s = true) ∧
    (let s : State := { serving with funcs := vupd State.reset.funcs 16 fun F => { F with pci := { F.pci with en := true } } }
     portMode s 1 = .host ∧ portUp s 1 = true ∧ (portFuncs s 1) = [16]) := by decide +kernel

theorem witness_FunctionsAreReset :
    (portMode serving 0 = .host ∧ linksTraining serving = true) ∧
    (funcAbsent serving 0 = false ∧ (vat serving.funcs 0).pci.en = true ∧ funcAbsent serving 1 = false ∧
      (vat serving.funcs 1).pci.en = true) ∧
    ((vat serving.funcs (16 * 0)).pci.vfEnable = true ∧ 14 < (vat serving.funcs (16 * 0)).pci.numVfs) ∧
    (let s := onFunc 1 (fun F => { F with pci := { F.pci with d3hot := true } }) serving
     (vat s.funcs 1).pci.d3hot = true) ∧
    (let s := onFunc 0 (fun F => { F with pci := { F.pci with d3hot := true } }) serving
     (vat s.funcs 0).pci.d3hot = true ∧ (portFuncs s 0).filter (· != 0) = [1] ∧ portFuncs { s with funcs := vupd s.funcs 1 fun _ => resetFunc } 0 = [0]) ∧
    (portMode peered (66 - 60) = .peer ∧ linksTraining peered = true ∧
      (let s : State := { peered with ports := vupd peered.ports 6 fun P => { P with peer := { P.peer with d3hot := true } } }
       portMode s 6 = .peer ∧ (vat s.ports 6).peer.d3hot = true)) ∧
    ((∀ c ∈ serving.cmds, c.func ≠ 1) ∧ (vat serving.brg (1 / 32)).waiting = [] ∧ (vat serving.qs 0).func = some 1 ∧
      (vat serving.qs 1).func ≠ some 1) ∧
    (let s := funcStops 4 serving 1
     (vat s.funcs 1).resetting = true ∧ (∀ c ∈ s.cmds, c.func ≠ 1) ∧ (vat s.qs 0).func = some 1) := by decide +kernel

/-- A command in flight of function 1 with opcode `op`, admitted from queue pair 0. -/
def flying (op : Nat) : Cmd :=
  { uid := 5, q := 0, func := 1, bytes := BitVec.ofNat 8 op :: zeros 63, gen := 0, pos := 0, order := 0, cls := 15, shared := false,
    phase := .working, data := [], wants := [], held := [], fresh := 0, early := [], sent := List.replicate 16 0, arrived := [], far := [], done := 0,
    total := 0, subst := 0, degraded := false, status := 0, detail := 0, checked := false, cutAt := none, waits := [], cores := 0,
    fault := none, edges := 0, attLens := [], kvReads := [], energy := 0, carry := 0, pip := false, pipNo := 0, fetchPos := 0,
    fetchClk := 0, stamps := [], lastDies := (0, 0) }

theorem witness_ConfigurationIsTaken :
    (linksTraining serving = true ∧ portUp serving 0 = true ∧ (vat serving.funcs 0).pci.mse = false) ∧
    (vat (onFunc 0 (fun F => { F with pci := { F.pci with mse := true } }) serving).funcs 0).pci.mse = true ∧
    (portUp serving (1 / 16) = true ∧ (vat serving.funcs 1).pci.en = true ∧ funcAbsent serving 1 = false) ∧
    (let s := onFunc 1 (fun F => { F with pci := { F.pci with atsEn := true } })
       { serving with cmds := [{ flying 0x40 with held := [(0x1000, 64)] }] }
     (vat s.funcs 1).pci.atsEn = true ∧ ¬ ∀ c ∈ s.cmds, c.func = 1 → c.held = []) ∧
    (let s := onFunc 1 (fun F => { F with pci := { F.pci with atsEn := true } }) serving
     (vat s.funcs 1).pci.atsEn = true ∧ ∀ c ∈ s.cmds, c.func = 1 → c.held = []) := by decide +kernel

/-! ### Accesses, windows and queue pairs -/

theorem witness_HostsAndPeersAccessTheDevice :
    (hostReaches serving 0 = true ∧ earlyState serving = false ∧ 0 + 4096 ≤ 2 ^ serving.sys.bar2 ∧ bar2Da 0 / 2 ^ 52 ≠ 0 ∧
      decodeKind serving .steward false (bar2Da 0) 4096 = 0 ∧ decodeKind serving .steward true (bar2Da 0) 4096 = 0) ∧
    (2 ^ 30 - 1 + 1 ≤ 2 ^ serving.sys.bar2 ∧ decodeKind serving .steward false (bar2Da (2 ^ 30 - 1)) 1 ≠ 0) ∧
    (hostReaches serving 1 = true ∧ funcInReset serving 1 = false ∧ (mbxOf serving 1).st ≠ .busy ∧
      decodeKind serving (.tenant 1) true (pageDie 1 * 2 ^ 24 + pageBlock 1 * 2 ^ 16 + 0x4008) 8 = 0) ∧
    (apertureUp peered 6 0 512 = true ∧ apertureUp peered 6 3585 512 = true ∧ apertureUp peered 6 0 1 = true ∧ apertureUp peered 6 0 0 = true ∧
      apertureUp peered 6 4096 4096 = true ∧ zoneAt peered 6 4096 = none ∧ (zoneAt peered 6 4095).isSome = true ∧
      earlyState peered = false ∧ zoneKind peered 6 9 0 512 = 0 ∧ zoneKind peered 6 9 3584 512 = 0 ∧
      zoneKind peered 6 9 3585 512 ≠ 0 ∧ zoneKind peered 6 8 0 1 ≠ 0) ∧
    (listedPeer peered 6 9 = true ∧ listedPeer peered 6 8 = false) := by decide +kernel

/-- Function 1 owns the 4 KiB at the bottom of the DDR tier and its window begins there; the cache is on if `cen`. -/
def windowed (cen : Bool) : State :=
  onFunc 1 (fun F => { F with win := { resetWin with base := BitVec.ofNat 64 (regionBase 3), cen := cen, maddr := BitVec.ofNat 64 (regionBase 3) } })
    peered

/-- The line at the window's base is held, in the main array. -/
def lined (dirty : Bool) : State :=
  { windowed true with brg := vupd State.reset.brg 0 fun B => { B with
      lines := [{ idx := 3, func := 1, da := regionBase 3, bytes := List.replicate 512 7, dirty := dirty, locked := false, carved := none }] } }

theorem witness_WindowAccessesAreServed :
    (∀ cen ∈ [false, true], hostReaches (windowed cen) 1 = true ∧ funcInReset (windowed cen) 1 = false ∧
      earlyState (windowed cen) = false ∧ 0 % 512 + 512 ≤ 512 ∧ (vat (windowed cen).funcs 1).win.base.toNat % 512 = 0 ∧
      decodeKind (windowed cen) (.tenant 1) false (regionBase 3) 512 = 0 ∧
      decodeKind (windowed cen) (.tenant 1) true (regionBase 3) 512 = 0 ∧ (vat (windowed cen).brg 0).filling = none ∧
      (vat (windowed cen).funcs 1).win.cen = cen) ∧
    ((lineAt (lined true) 1 (regionBase 3)).any inMain = true ∧ hostReaches (lined true) 1 = true ∧
      decodeKind (lined true) (.tenant 1) true (regionBase 3) 8 = 0) ∧
    lineAt (windowed true) 1 (regionBase 3) = none := by decide +kernel

theorem witness_WindowsAreMaintained :
    (windowFree (lined true) 1 = true ∧ maintAddrOk (lined true) 1 (regionBase 3) = true ∧
      (lineAt (lined true) 1 (regionBase 3 / 512 * 512)).isSome = true ∧ lockable (lined true) 1 (regionBase 3) = true) ∧
    (windowFree (windowed true) 1 = true ∧ lineAt (windowed true) 1 (regionBase 3 / 512 * 512) = none) ∧
    (let s := onFunc 1 (fun F => { F with win := { F.win with maddr := 0 } }) (windowed true)
     windowFree s 1 = true ∧ lockable s 1 0 = false ∧ maintAddrOk s 1 0 = false) ∧
    (∀ op : Fin 3, bit (0x8001 + op.val) 15 = true ∧ bits (0x8001 + op.val) 0 3 = op.val + 1) ∧
    (vat (windowed true).funcs 1).win.rbusy = false ∧
    (let s := after (.rangeClean 1 0x8001) (windowed true)
     (vat s.funcs 1).win.rbusy = true ∧ windowFree s 1 = true ∧ (vat s.brg 0).ranges.length = 1 ∧
       (vat s.brg 0).ranges.all (fun r => r.func / 32 == 0) = true) ∧
    (let s := after (.windowAccess 1 0 8 none) (windowed true)
     (vat s.brg 0).filling.isSome = true ∧ (vat s.brg 0).filling.all (fun a => a.write.isNone && a.carved.isNone) = true ∧
       (vat s.brg 0).waiting = [] ∧ (vat s.funcs 1).pfen = false ∧ targetOffline s (.tenant 1) (regionBase 3) 512 = false ∧
       poisoned s (regionBase 3) 512 = false ∧ (vat s.brg 0).filling.all (fun a => ownerAllows s (.tenant a.func) a.da a.len) = true ∧
       (let t : State := { s with pool := resetPool, image := { s.image with zones := [] } }
        (vat t.brg 0).filling.all (fun a => !ownerAllows t (.tenant a.func) a.da a.len) = true)) ∧
    (let s : State := { after (.windowAccess 1 0 8 none) (windowed true) with poison := [canonDa (windowed true).image.carve (regionBase 3)] }
     (vat s.brg 0).filling.isSome = true ∧ poisoned s (regionBase 3) 512 = true) := by decide +kernel

/-- Queue pair 0 of function 1 with `tail` slots to fetch, in device state `d`. -/
def queued (d : DevState) (en : Bool) (tail : Nat) : State :=
  { serving with sys := { resetSys with state := d },
                 qs := vupd serving.qs 0 fun Q => { Q with en := en, tail := tail, sqb := 0x1000, cqb := 0x2000 } }

theorem witness_QueuesTakeDoorbellsAndFetch :
    (linksTraining serving = true ∧ (vat serving.qs 0).func = some 1 ∧ funcInReset serving 1 = false) ∧
    (let v := 2 ^ 48 + 3 * 65536 + 3
     bit v 48 = true ∧ (vat (queued .run false 0).qs 0).en = false ∧
       configOk (queued .run false 0) 0 (qcfgFields v (vat (queued .run false 0).qs 0)) = true ∧
       configOk (queued .run false 0) 0 (qcfgFields (2 ^ 48) (vat (queued .run false 0).qs 0)) = false) ∧
    ((vat serving.qs 0).en = true ∧ (vat serving.qs 0).stopped = false ∧ 3 % 4096 ≤ (vat serving.qs 0).sqs ∧
      (vat serving.qs 0).sqs < 4 % 4096) ∧
    (queueActive (vat serving.qs 0) = true ∧ headOk (vat serving.qs 0) 0 = true ∧ headOk (vat serving.qs 0) 1 = false) ∧
    (∀ d ∈ [DevState.run, .halt], mayFetch (queued d true 2) 0 = true ∧ 0 < slotsReady (vat (queued d true 2).qs 0)) ∧
    (let Q := vat (queued .run true 2).qs 0
     chainOf (zeros 64) < Q.sqs ∧ 1 + chainOf (zeros 64) ≤ slotsReady Q ∧ slotsAhead Q + 1 + chainOf (zeros 64) ≤ 64 ∧
       64 * (1 + chainOf (zeros 64)) ≤ (zeros 64).length ∧ chainOf (0x10 :: 2 :: zeros 62) < Q.sqs ∧
       slotsReady Q < 1 + chainOf (0x10 :: 2 :: zeros 62) ∧ Q.sqs ≤ chainOf (0x10 :: 3 :: zeros 62)) ∧
    (let s := onFunc 1 (fun F => { F with pci := { F.pci with ctoOff := true } }) (queued .run true 2)
     funcOfQ s 0 = 1 ∧ timeoutOff 1 .timeout s = true ∧ timeoutOff 1 .timeout (queued .run true 2) = false ∧ timeoutOff 1 .failed s = false) ∧
    ((∀ bs, HostReply.failed ≠ .data bs) ∧ HostReply.failed ≠ .granted) := by
  refine ⟨?_, ?_, ?_, ?_, ?_, ?_, ?_, fun _ => nofun, nofun⟩ <;> decide +kernel

/-! ### Commands -/

/-- A command slot of an opcode with parameter fields (offset in the parameter area, bytes, value). -/
def slot (op : Nat) (fields : List (Nat × Nat × Nat)) : List Byte :=
  fields.foldl (fun bs x => patch bs (0x10 + x.1) (leBytes x.2.1 x.2.2)) (BitVec.ofNat 8 op :: zeros 63)

/-- A shard on the stack. -/
def stackShard : Shard := { tier := .stack, moving := false, fresh := false, base := 0, parity := false, streak := (0, 0), load := [], closing := [], closed := [] }
/-- A table of 100 FP32 rows of 16 elements, owned by function 1. -/
def aTable : TableDecl :=
  { id := 7, fmt := .fp32, opt := .none, dim := 16, husk := false, migrate := false, invalid := .zero, releaseOnLoss := false, owner := 1,
    homeTier := .stack, rows := 100, homeBase := 0, readMask := 0, writeMask := 0, segStride := 32, logicalStride := 64, userTag := [],
    defaultRow := [], defaultOff := 0, lost := false, shards := [stackShard] }
/-- A KV table of function 1 with a trie. -/
def aKv : KvDecl :=
  { id := 9, int8 := false, mode := .tok16, pageLog2 := 0, byPosition := false, placeLog2 := 0, evict := .preserve, headDim := 64,
    nheads := 1, layers := 1, owner := 1, releaseOnLoss := false, maxSeqs := 4, maxTokens := 64, inStack := true, storeBase := 0,
    storeSize := 65536, readMask := 0, writeMask := 0, maxNodes := 4, headroom := 0, userTag := [], lost := false }
/-- A kernel of one bundle. -/
def aKernel : Kernel := { id := 3, off := 0, len := 64, entry := 0, trapBytes := 20480, scratch := 4096, code := zeros 64 }

/-- Block 0 of the pool is function 1's. -/
def aBuffer : Buffer := { base := 0, k := 0, gen := 1, func := 1, q := 0, fq := false, freed := none }

/-- The configuration in force declares the table, the KV table and the kernel; function 1 has buffers and core scratch. -/
def declared : State :=
  { serving with
    pool := { resetPool with bufs := [aBuffer] },
    cfg := { resetConfig with cur := { resetCfg with tables := [aTable], kvs := [aKv], kernels := [aKernel] } },
    image := { resetImage with carve := { resetCarve with
      quotas := List.replicate 64 (2 ^ 30), poolBytes := 2 ^ 24, stripeSize := 2 ^ 24,
      cribParts := [{ func := 1, scratch := true, slices := 3, off := 65536, size := 65536 }] } } }

/-- A fetched command. -/
def fetchedOf (bs : List Byte) : Fetched := { bytes := bs, slot := 0, no := 0, pos := 0, clk := 0 }
/-- A fetched command waits to be admitted. -/
def ready (bs : List Byte) : State :=
  { declared with qs := vupd serving.qs 0 fun Q => { Q with fetched := [fetchedOf bs] }, nextUid := 5 }
/-- It has just been admitted. -/
def admitted (bs : List Byte) : State := admitHead 0 (ready bs)
/-- It is the next that its bridge admits. -/
def comesNext (bs : List Byte) : Bool :=
  (vat (ready bs).qs 0).fetched == [fetchedOf bs] && (vat (ready bs).qs 0).func == some 1 && mayAdmit (ready bs) (1 / 32)
    && nextQueue (ready bs) (1 / 32) == some 0
/-- The command in flight that it has become satisfies `p`. -/
def onceIn (bs : List Byte) (p : State → Cmd → Bool) : Bool :=
  comesNext bs && (cmdOf (admitted bs) 5).any fun c => opcodeOf c.bytes == opcodeOf bs && p (admitted bs) c

theorem witness_TheNextCommandIsAdmitted :
    comesNext (slot 0 []) = true ∧
    onceIn (0x00 :: 1 :: zeros 62) (fun _ c => knownOpcode (opcodeOf c.bytes) && badChain c.bytes) = true ∧
    admitRow (.nop 0) = some (0, opcodeOf (0x00 :: 1 :: zeros 62)) := by decide +kernel

/-- Inline passes of `tableChecks`: the table, if the checks pass. -/
def tableOk (s : State) (c : Cmd) (write : Bool) : Option TableDecl := match tableChecks s c write with | .inr t => some t | .inl _ => none
/-- The KV table, if the checks pass. -/
def kvOk (s : State) (c : Cmd) : Option KvDecl := match kvChecks s c with | .inr d => some d | .inl _ => none

/-- A load of two rows from host address 0x4000. -/
def loadSlot : List Byte := slot 0x40 [(0, 1, 1), (2, 2, 7), (8, 8, 0x4000), (0x18, 8, 98), (0x20, 4, 2)]
/-- A BUF_ALLOC of 64 KiB. -/
def allocSlot : List Byte := slot 0x48 [(0, 1, 16), (8, 8, 0x4000)]
/-- A launch on core 0 of slices 0 and 1. -/
def launchSlot : List Byte := slot 0x60 [(0, 2, 3), (2, 1, 1), (4, 2, 3), (8, 4, 65536), (0x10, 4, 1000)]
/-- A snapshot of the function's own counters. -/
def snapSlot : List Byte := slot 0x70 [(0, 4, 2 ^ 21), (8, 8, 0x4000)]
/-- A BUF_FREE of it. -/
def freeSlot : List Byte := slot 0x49 [(0, 8, regionBase 3), (8, 4, 1)]

theorem witness_CommandsStart :
    onceIn (slot 0xFF []) (fun _ c => !knownOpcode (opcodeOf c.bytes)) = true ∧
    onceIn (slot 0x00 []) (fun _ c => !badChain c.bytes) = true ∧
    onceIn (slot 0x50 [(0, 1, 1)]) (fun a c => !badChain c.bytes && decide (param c.bytes 0 1 ≤ 1) && (earlierSet a c).isEmpty) = true ∧
    onceIn loadSlot (fun a c => !badChain c.bytes && copyForm loadSlot == 1 && (tableOk a c true).any fun T =>
      decide (1 ≤ entryCount c ∧ entryCount c ≤ 1048576) && !copyInline c.bytes && rngKind a c.func false (loadRange T c) == 0 &&
        badLoadRow T c == none && onHost (loadRange T c) && !usesAts a c.func && entryBytes T c 0 == none) = true ∧
    onceIn allocSlot (fun a c => !badChain c.bytes && !usesAts a c.func && decide (16 ≤ param c.bytes 0 1 ∧ param c.bytes 0 1 ≤ 36) &&
      param c.bytes 8 8 % 16 == 0 && (pickBlock a (param c.bytes 0 1 - 16)).isSome &&
      decide ((heldGranules a c.func + 2 ^ (param c.bytes 0 1 - 16)) * granule ≤ nth a.image.carve.quotas c.func 0)) = true ∧
    onceIn freeSlot (fun a c => !badChain c.bytes && poolHandle a (param c.bytes 0 8) &&
      a.pool.bufs.find? (fun b => b.base == param c.bytes 0 8 % 2 ^ 52 / granule) == some aBuffer &&
      param c.bytes 8 4 == aBuffer.gen && c.func == aBuffer.func && c.q == aBuffer.q) = true ∧
    (ready allocSlot).cmds = [] := by
  refine ⟨?_, ?_, ?_, ?_, ?_, ?_, rfl⟩ <;> decide +kernel

theorem witness_CommandsStart_kernels :
    onceIn launchSlot (fun a c => !badChain c.bytes && (cfgOf a c.gen).kernels.find? (·.id == param c.bytes 0 2) == some aKernel &&
      launchPlaces c aKernel != [] && param c.bytes 8 4 % 4096 == 0 && (launchPlaces c aKernel).all fun p =>
        sliceLive a p.1 && areaKind a c.func p.1 (cribDa p.1 p.2.2) (launchArea aKernel) == 0) = true ∧
    onceIn snapSlot (fun a c => !badChain c.bytes && snapSections c.bytes != 0 &&
      (snapDst c.bytes (snapLen (snapSections c.bytes))).addr % 64 == 0 && snapPermitted a c.func (snapSections c.bytes) &&
      rngKind a c.func true (snapDst c.bytes (snapLen (snapSections c.bytes))) == 0) = true := by
  refine ⟨?_, ?_⟩ <;> decide +kernel

/-- A lookup of one index, its list at 0x4000 and its output at 0x8000 of the host. -/
def lookupSlot (op : Nat) : List Byte :=
  slot op [(0, 2, 7), (2, 1, 0), (8, 4, if op = 0x10 then 1 else 0), (0xC, 4, 1), (0x10, 8, 0x4000), (0x18, 8, 0x8000), (0x20, 4, 64)]
/-- An update of one entry with FP32 gradients. -/
def updateSlot (op : Nat) : List Byte := slot op [(0, 2, 7), (2, 1, if op = 0x20 then 0 else 1), (8, 4, 1), (0x10, 8, 0x4000)]
/-- A KV command of one entry. -/
def kvSlot (op : Nat) : List Byte :=
  if op = 0x31 then slot op [(0, 2, 9), (4, 4, 1), (8, 8, 0x4000)]
  else if op = 0x38 then slot op [(0, 2, 9), (8, 4, 1), (0x10, 8, 0x4000), (0x18, 8, 0x8000), (0x20, 4, 4096)]
  else slot op [(0, 2, 9), (8, 4, 1), (0x10, 8, 0x4000)]
/-- A copy by a list of one segment at 0x4000 of the host. -/
def listSlot (op : Nat) : List Byte := slot op [(0, 1, 2), (4, 4, 1), (8, 8, 0x4000)]

theorem witness_ListsAreAskedFor :
    (∀ op ∈ [0x11], onceIn (lookupSlot op) (fun a c => !badChain c.bytes && (tableOk a c false).any fun T =>
      lookupCode T c == none && !lkInline c && !(lkListRange c).dev && rngKind a c.func true (lkOutRange T c) == 0) = true) ∧
    (∀ op ∈ [0x21], onceIn (updateSlot op) (fun a c => !badChain c.bytes && (tableOk a c true).any fun T =>
      updateCode T c == none && !bit (param c.bytes 4 1) 1 && !(updListRange T ((gradFmt c.bytes).getD .fp32) c).dev) = true) ∧
    (∀ op ∈ [0x32], onceIn (kvSlot op) (fun a c => !badChain c.bytes && (kvOk a c).any fun d => !kvInline c &&
      !kvListDa c && kvHeadCode c d == none && kvListAddr c % 8 == 0 && d.maxNodes != 0) = true) ∧
    onceIn (kvSlot 0x38) (fun a c => !badChain c.bytes && (kvOk a c).any fun d => !kvInline c && !kvListDa c &&
      attnCode d c == none && rngKind a c.func true (attnOutRange d c) == 0) = true ∧
    (∀ op ∈ [0x40], onceIn (listSlot op) (fun _ c => !badChain c.bytes && copyHeadCode c.bytes == none &&
      copyForm c.bytes == 2 && !copyInline c.bytes && (segListRange c.bytes).addr % 8 == 0 && !(segListRange c.bytes).dev) = true) ∧
    (∀ x ∈ (ready (kvSlot 0x30)).cmds, isKv x = false) := by decide +kernel

/-- A command that waits for the reads `ws`. -/
def waiter (op : Nat) (ws : List HostRead) : Cmd := { flying op with phase := .waitHost, wants := ws }
/-- It is alone in the device. -/
def waiting (c : Cmd) : State := { declared with cmds := [c] }
/-- A read of `n` bytes, and a translation. -/
def aRead (n : Nat) : HostRead := { func := 1, addr := 0x4000, len := n, ats := false }
/-- See `aRead`. -/
def aTrans (n : Nat) : HostRead := { func := 1, addr := 0x4000, len := n, ats := true }
/-- An H2D copy of 64 bytes to the stack of slice 0 at its last piece. -/
def lastPiece : Cmd :=
  { waiter 0x40 [aRead 64] with bytes := slot 0x40 [(8, 8, 0x4000), (0x10, 8, regionBase 3), (0x18, 8, 64)], checked := true, total := 1 }

/-- The bytes of an IMAGE_STAGE at offset 64 that function 0's mailbox waits for, or a change's. -/
def staging (op : Nat) : State :=
  onMbx 0 (fun M => { M with op := BitVec.ofNat 16 op, len := 8, st := .busy, data := patch M.data 0 (leBytes 4 64),
                             want := some { func := 0, addr := 0x4000, len := 4, ats := false } })
    { serving with mg := { resetMgmt with changeQueue := if op = 0x30 then [] else [.mailbox 0] } }

theorem witness_HostsAnswer :
    (cmdOf (waiting (waiter 0x10 [aTrans 8, aRead 8])) 5 = some (waiter 0x10 [aTrans 8, aRead 8]) ∧
      portUp (waiting (waiter 0x10 [])) (portOf 1) = true ∧ (aTrans 8).ats = true) ∧
    (cmdOf (waiting (waiter 0x10 [aRead 8])) 5 = some (waiter 0x10 [aRead 8]) ∧ (aRead 8).ats = false ∧
      (∀ x ∈ (waiting (waiter 0x10 [aRead 8])).cmds, x.uid = 5 → x = waiter 0x10 [aRead 8]) ∧
      isLookup (waiter 0x10 [aRead 8]) = true ∧ (waiter 0x10 [aRead 8]).checked = false) ∧
    (let c := { waiter 0x20 [aRead 64] with bytes := updateSlot 0x20, checked := true }
     writesRows c = true ∧ c.checked = true ∧ tableFor (waiting c) c (cmdTable c) = some aTable) ∧
    (isLoad lastPiece = false ∧ pieceAt lastPiece.bytes (copySegs lastPiece) 0 = some (⟨false, 0x4000, 64⟩, ⟨true, regionBase 3, 64⟩) ∧
      pieceAt lastPiece.bytes (copySegs lastPiece) 1 = none ∧ regionBase 3 / 2 ^ 52 ≠ 6 ∧
      poisonedUnits (waiting lastPiece) (regionBase 3) 64 = []) ∧
    ((mbxOf (staging 0x30) 0).want.isSome = true ∧ (staging 0x30).mg.changeQueue = [] ∧ (mbxOf (staging 0x30) 0).op = 0x30) ∧
    ((mbxOf (staging 0x20) 0).want.isSome = true ∧ (staging 0x20).mg.changeQueue = [.mailbox 0] ∧
      (mbxOf (staging 0x20) 0).result = none ∧ portUp (staging 0x20) (portOf 0) = true) ∧
    ((mbxOf serving 0).want = none ∧ leftChange serving 0 = none ∧ serving.mg.left = [] ∧ timeoutOff 0 .timeout serving = false ∧
      (let s := onFunc 0 (fun F => { F with pci := { F.pci with ctoOff := true } }) serving
       (mbxOf s 0).want = none ∧ timeoutOff 0 .timeout s = true)) ∧
    (let c := { waiter 0x10 [aTrans 8, aRead 8] with fresh := 1 }
     cmdOf (waiting c) 5 = some c ∧ (c.wants.filter fun w => !w.ats)[c.early.length]? = some (aRead 8)) ∧
    (let M := mbxOf (staging 0x20) 0
     let s : State := { serving with mg := { resetMgmt with changeQueue := [.left 0 M] } }
     s.mg.changeQueue = [.left 0 M] ∧ M.want.isSome = true ∧ portUp s (portOf 0) = true) ∧
    (linksTraining serving = true ∧ earlyState serving = false ∧ pageTakes serving 1 = true ∧ (vat serving.funcs 1).held = []) ∧
    (let s := onFunc 1 (fun F => { F with held := [zeros 32], kvn := { resetRing with en := true, entries := 64 } }) serving
     pageTakes s 1 = true ∧ (vat s.funcs 1).held = [zeros 32] ∧ ringRoom { (vat s.funcs 1).kvn with head := 0 } = true) := by
  decide +kernel

/-- A command whose work has ended, in a queue pair that counts it. -/
def ended (s : State) : State :=
  { s with cmds := [{ flying 0x00 with phase := .ended }], qs := vupd s.qs 0 fun Q => { Q with inflight := 1 } }

theorem witness_CompletionsAndSnapshotsAreWritten :
    (mayPost (ended serving) 5 = true ∧ mayIssue (ended serving) 1 = true ∧ usesAts (ended serving) 1 = false ∧ (vat (ended serving).qs 0).cqDead = false) ∧
    (let s := onFunc 1 (fun F => { F with pci := { F.pci with atsEn := true } }) (ended serving)
     mayPost s 5 = true ∧ mayIssue s 1 = true ∧ usesAts s 1 = true) ∧
    (let c := { flying 0x70 with bytes := snapSlot, checked := true }
     let s : State := { stepTick with cmds := [c] }
     cmdOf s 5 = some c ∧ opcodeOf c.bytes = 0x70 ∧ c.edges = 0 ∧ c.wants = [] ∧ qosDue s = false ∧
       bit (param c.bytes 4 1) 0 = false ∧ mayIssue s 1 = true) := by decide +kernel

/-- A mailbox that holds an answer. -/
def answered (op : Nat) : State :=
  onMbx 0 (fun M => { M with op := BitVec.ofNat 16 op, len := 16, st := .busy, result := some (0, [1]), bulk := [2] }) serving

theorem witness_MailboxesTakeOperations :
    (goRow (.genQuery 1 0) = some (0x02, 1, 0) ∧ linksTraining serving = true ∧ (vat serving.funcs 1).pci.en = true ∧
      funcInReset serving 1 = false ∧ (mbxOf serving 1).st ≠ .busy) ∧
    (let s : State := { serving with sys := { resetSys with state := .halt } }
     s.sys.state = .halt ∧ linksTraining s = true ∧ funcInReset s 1 = false) ∧
    (let s : State := { serving with sys := { resetSys with state := .replay } }
     s.sys.state ≠ .halt ∧ inService s = false ∧ linksTraining s = true ∧ 0x02 ∉ [0x01, 0x40, 0x41]) ∧
    (inService serving = true ∧ inlineLen 0x03 = none ∧ goRow (.badOp 1 3 0) = some (3, 1, 0)) ∧
    (stewardOnly 0x31 = true ∧ inlineLen 0x02 ≠ none ∧ lenFits (mbxOf (goStarted 0x02 1 1 serving) 1) = false) ∧
    ((answered 0x60).mg.changeQueue = [] ∧ (mbxOf (answered 0x60) 0).st = .busy ∧ (mbxOf (answered 0x60) 0).op ≠ 0x70 ∧
      (mbxOf (answered 0x60) 0).result = some (0, [1]) ∧ stillRuns (answered 0x60) (mbxOf (answered 0x60) 0) = false ∧
      (mbxOf (answered 0x60) 0).bulk ≠ [] ∧ mayIssue (answered 0x60) 0 = true) ∧
    (let s := onMbx 0 (fun M => { M with st := .busy, op := 0x30 }) serving
     (mbxOf s 0).st = .busy ∧ (mbxOf s 0).result = none ∧ s.mg.changeQueue = []) ∧
    (let s : State := { serving with mg := { resetMgmt with oem := Vector.replicate 2 (some (0, [1])), oemBusy := Vector.replicate 2 true } }
     vat s.mg.oemBusy 1 = true ∧ vat s.mg.oem 1 = some (0, [1])) ∧
    vat serving.mg.oemBusy 1 = false := by decide +kernel

/-! ### Mailbox operations and the BMC's endpoints -/

/-- The device in service, with the mailbox of function `f` holding input bytes and 4 KiB at host address 0x8000 for output. -/
def asked (f : Nat) (bs : List Byte) (s : State) : State :=
  onMbx f (fun M => { M with data := patch M.data 0 bs, xaddr := 0x8000, xlen := 4096 }) s
/-- GO may be written to the mailbox of function `f`. -/
def mayGo (s : State) (f : Nat) : Bool :=
  linksTraining s && (vat s.funcs f).pci.en && !funcInReset s f && (mbxOf s f).st != .busy && inService s
/-- A journal record. -/
def aRecord (b : JBody) : JRec :=
  sealRec 1 { body := b, snap := false, left := 0, seq := 3, pos := 0, gen := 0, region := 0, crc := 0, commit := 0 }
/-- The active region holds one record. -/
def journaled (b : JBody) : State :=
  { declared with jr := { resetJournal with evseq := 1, regions := vupd resetJournal.regions 0 fun R => { R with recs := [aRecord b] } } }
/-- An event. -/
def anEvent : Event := { type := 1, source := 0x1302, arg := 0, pos := 0 }

theorem witness_MailboxReadsAnswer :
    (∀ f ∈ [0, 1], mayGo serving f = true) ∧
    (let s := asked 1 [7, 0] declared
     mayGo s 1 = true ∧ tableOf s.cfg.cur 7 = some aTable ∧ mayRead aTable 1 = true ∧ mayRead aTable 2 = false ∧
       4 * aTable.shards.length ≤ 4096 ∧ ¬ 4 * aTable.shards.length ≤ 0 ∧ numAt (fitTo (mbxOf s 1).data 8) 0 2 = 7) ∧
    (tableOf declared.cfg.cur 9 = none ∧ declared.cfg.cur.kvs.find? (·.id == 9) = some aKv ∧ tableOf declared.cfg.cur 8 = none ∧
      (∀ k ∈ declared.cfg.cur.kvs, k.id ≠ 8)) ∧
    (let s := asked 0 [0] { serving with cnt := { serving.cnt with dumps := [zeros 64] } }
     mayGo s 0 = true ∧ s.cnt.dumps[numAt (fitTo (mbxOf s 0).data 8) 0 1]? = some (zeros 64) ∧ s.cnt.dumps[1]? = none ∧
       (zeros 64).length ≤ (mbxOf s 0).xlen.toNat ∧ (mbxOf s 0).xaddr.toNat % 64 = 0) ∧
    (let s := asked 0 [2] { serving with led := { serving.led with retained := [(2, [zeros 112], zeros 512)] } }
     mayGo s 0 = true ∧ summariesOf s (numAt (fitTo (mbxOf s 0).data 8) 0 8) = some [zeros 112] ∧ summariesOf s 3 = none) ∧
    (let b := zeros 512
     let s := asked 0 (leBytes 8 0 ++ [1]) (journaled (.epoch b))
     journaledRecords s = [(0, b)] ∧ numAt (fitTo (mbxOf s 0).data 16) 8 4 = 1 ∧ epochOf b = 0 ∧ mayGo s 0 = true) ∧
    journaledRecords serving = [] ∧ numberedEvents serving = [] ∧
    (let s := asked 0 (leBytes 8 1 ++ [1]) (journaled (.event [anEvent]))
     numberedEvents s = [(1, anEvent)] ∧ mayGo s 0 = true) ∧
    serving.recov.reports = [] ∧
    (let s := asked 1 [4] { serving with recov := { serving.recov with reports := [(4, zeros 128)] } }
     s.recov.reports.find? (·.1 == numAt (fitTo (mbxOf s 1).data 8) 0 4) = some (4, zeros 128) ∧
       (reportFor 1 (zeros 128)).length ≤ (mbxOf s 1).xlen.toNat ∧ mayGo s 1 = true) ∧
    (coreNamed (fitTo [0x10, 7] 8) = some 135 ∧ coreNamed (fitTo [0x11, 7] 8) = none ∧ coreNamed (fitTo [0x10, 8] 8) = none) ∧
    (let s : State := { serving with led := { serving.led with closed := [{ num := 2, body := [], summaries := [], fails := 0 }] } }
     epochPending s 2 = true ∧ epochPending serving 2 = false ∧ (∀ r ∈ serving.led.retained, r.1 ≠ 2)) ∧
    (let s : State := { serving with led := { serving.led with retained := [(2, [zeros 112], zeros 512)] } }
     epochPending s 2 = false ∧ s.led.retained.find? (·.1 == 2) = some (2, [zeros 112], zeros 512)) := by decide +kernel

/-- An epoch that was closed and never signed is retained with no record. -/
theorem witness_MailboxReadsAnswer_unsigned :
    let s : State := { serving with led := { serving.led with retained := [(2, [zeros 112], [])] } }
    epochPending s 2 = false ∧ s.led.retained.find? (·.1 == 2) = some (2, [zeros 112], []) := by decide +kernel

/-- GO of an operation with LEN as its input needs, on function 0. -/
def goes (op n : Nat) (bs : List Byte) (s : State) : State := goStarted op n 0 (asked 0 bs s)

theorem witness_MailboxOperationsAct :
    (goRow (.huskSet 0 8) = some (0x15, 0, 8) ∧ isChangeOp 0x15 = true ∧ (inlineLen 0x15).isSome = true ∧
      lenFits (mbxOf (goes 0x15 8 [7, 0, 1] declared) 0) = true ∧ declared.mg.changeQueue = [] ∧
      inputLen (mbxOf (goes 0x15 8 [7, 0, 1] declared) 0) = some 0 ∧ journalBusy declared = false) ∧
    (let s := goes 0x15 8 [7, 0, 1] declared
     ((changeOf s (mbxOf s 0)).toOption.any fun k => k == .huskSet 7 true && checkChange s (projected s) (tenantOf (some 0)) k == 0)
       = true) ∧
    (let s := goes 0x15 8 [8, 0, 1] declared
     ((changeOf s (mbxOf s 0)).toOption.any fun k => checkChange s (projected s) (tenantOf (some 0)) k != 0) = true) ∧
    (let s := goes 0x14 8 [7, 0, 9] declared
     (changeOf s (mbxOf s 0)).toOption = none) ∧
    (let s := goes 0x10 128 [] declared
     ∃ m, inputLen (mbxOf s 0) = some m ∧ m ≠ 0 ∧ (mbxOf s 0).xaddr.toNat % 64 = 0) ∧
    (let s : State := { serving with cores := vupd serving.cores 135 fun C => { C with mode := .locked } }
     (vat s.cores 135).mode = .locked ∧ (vat s.cores 134).mode ≠ .locked ∧ mayGo s 0 = true) ∧
    ((vat serving.funcs (numAt (fitTo [1, 1] 8) 0 1)).pci.en = true ∧ bit (numAt (fitTo [1, 1] 8) 1 1) 0 = true ∧
      bit (numAt (fitTo [1, 0] 8) 1 1) 0 = false ∧ (vat serving.funcs 1).pci.disabled = false ∧
      (vat serving.funcs 2).pci.en = false) ∧
    (stagingHeld { serving with mg := { serving.mg with staging := some .bmc } } .bmc = true ∧ stagingHeld serving .bmc = false ∧
      100663296 - 4096 + (mbxOf (asked 0 [] serving) 0).xlen.toNat ≤ 100663296) ∧
    (activate .steward serving).1.isNone = true ∧
    (serving.tb.history.find? (fun h => h.beat.toNat == 0) = some { beat := 0, start := 0 } ∧
      (∀ h ∈ serving.tb.history, h.beat.toNat ≠ 1)) ∧
    (highestCommitted serving < 1 ∧ 0 ≤ highestCommitted serving ∧ 0 ≤ serving.led.collected) ∧
    (let b := leBytes 8 0 ++ zeros 504
     let s := journaled (.epoch (patch b 0 (zeros 512)))
     highestCommitted s = highestEpoch s) ∧
    (ringOk serving 0 0x60 (ringDesc (leBytes 8 4096 ++ leBytes 4 64 ++ [0, 0])) = true ∧
      ringOk serving 1 0x63 (ringDesc (leBytes 8 4097 ++ leBytes 4 64)) = false) := by
  refine ⟨?_, ?_, ?_, ?_, ⟨_, rfl, ?_, ?_⟩, ?_, ?_, ?_, ?_, ?_, ?_, ?_, ?_⟩ <;> decide +kernel

/-- A change operation on function 0 of the device with the table and kernel declared: it may go and asks for a valid change. -/
def changeGoes (op : Nat) (bs : List Byte) : Bool :=
  let s := onMbx 0 (fun M => { M with xlen := 0 }) (asked 0 bs declared)
  let s0 := goStarted op bs.length 0 s
  mayGo s 0 && lenFits (mbxOf s0 0) && ownsChange s0 0 (mbxOf s0 0) && s.mg.changeQueue.isEmpty
    && inputLen (mbxOf s0 0) == some 0 && !journalBusy s
    && (changeOf s0 (mbxOf s0 0)).toOption.any fun k => checkChange s0 (projected s0) (tenantOf (some 0)) k == 0

theorem witness_MailboxChangesAndRingsComplete :
    (∀ f ∈ [0, 1], mayGo serving f = true) ∧
    (∀ x ∈ [(0x12, leBytes 8 7), (0x15, [7, 0, 1, 0, 0, 0, 0, 0]), (0x21, leBytes 8 3)], changeGoes x.1 x.2 = true) ∧
    (∀ x ∈ [(0x10, 128), (0x20, 32)], let s := goes x.1 x.2 (patch (zeros 7 ++ [1] ++ leBytes 4 4096 ++ zeros 52) 0x34 (leBytes 4 4080)) declared
     mayGo (asked 0 [] declared) 0 = true ∧ lenFits (mbxOf s 0) = true ∧ ownsChange s 0 (mbxOf s 0) = true ∧
       declared.mg.changeQueue = [] ∧ inputLen (mbxOf s 0) = some 4096 ∧ (mbxOf s 0).xaddr.toNat % 64 = 0) ∧
    (∀ op ∈ [0x60, 0x61, 0x62, 0x63], ringOk serving 0 op (ringDesc (leBytes 8 4096 ++ leBytes 4 64 ++ [0, 0])) = true) ∧
    inlineLen 3 = none ∧ inlineLen 0xFFFF = none := by decide +kernel

/-- The active region holds `n` records of 64 bytes while compaction is due. -/
def filled (n : Nat) : State :=
  { declared with jr := { declared.jr with compaction := .due 0, regions := Vector.replicate 2 { resetRegion with recs := List.replicate n (aRecord (.collected 0)) } } }

/-- A region that is 95 % full while compaction is due refuses changes. -/
theorem witness_MailboxOperationsAct_busy : ∃ n, journalBusy (filled n) = true := by
  have h : recBytes (aRecord (.collected 0)) = 64 := by decide
  have hu (n : Nat) : regionUsed (activeRegion (filled n)) = n * 64 := by
    have ha : activeRegion (filled n) = { resetRegion with recs := List.replicate n (aRecord (.collected 0)) } := rfl
    simp [regionUsed, ha, h]
  exact ⟨2097152, by simp only [journalBusy, hu]; decide⟩

theorem witness_EndpointsServeTheBmc :
    bmcOn State.reset 0 = false ∧ bmcOn serving 0 = true ∧ bmcOn serving 1 = true ∧
    (stagingHeld serving .steward = false ∧ stagingHeld serving .bmc = false) ∧
    (let s : State := { serving with mg := { serving.mg with staging := some .bmc } }
     stagingHeld s .bmc = true ∧ (1024 * 98303 + 1024 ≤ 100663296) ∧ (activate .bmc s).1.isNone = true) ∧
    (let s : State := { serving with mg := { resetMgmt with oem := Vector.replicate 2 (some (0, [1])), oemBusy := vupd resetMgmt.oemBusy 1 fun _ => true } }
     vat s.mg.oemBusy 1 = true ∧ vat s.mg.oemBusy 0 = false ∧ vat s.mg.oem 0 = some (0, [1])) ∧
    (oemAllowed 0x10 = false ∧ bmcBlock 0x3F = true ∧ bmcBlock 0x04 = false) ∧
    (let s : State := { serving with mg := { serving.mg with staging := some .bmc, lastPart := 0 }, tb := { serving.tb with start := 60 * second } }
     s.mg.staging.isSome = true ∧ s.mg.lastPart + 60 * second ≤ clkOf s) ∧
    serving.mg.staging = none := by decide +kernel

/-! ### Windows, epochs, migration, generations, the journal -/

/-- The device in service at tick `t` of beat `b`, with every boundary's work still to do. -/
def atTick (b t : Nat) (s : State) : State := { s with tb := { s.tb with beat := BitVec.ofNat 48 b, tick := BitVec.ofNat 16 t } }
/-- The load counts and the QoS window of this boundary are closed. -/
def closedOut (s : State) : State :=
  { s with qos := { s.qos with openPos := posOf s }, slices := s.slices.map fun S => { S with closedBeat := BitVec.ofNat 32 (s.tb.beat.toNat - 1) } }
/-- A boundary with an epoch that has `n` beats left and a dump with `d`. -/
def boundary (n d : Nat) : State :=
  closedOut { atTick 100 0 declared with led := { declared.led with isOpen := true, beatsLeft := n }, cnt := { declared.cnt with dumpLeft := d } }
/-- A closed epoch. -/
def anEpoch (fails : Nat) : ClosedEpoch := { num := 2, body := zeros 448, summaries := [], fails := fails }

theorem witness_RegulationAndEnergyAccount :
    qosDue (atTick 100 4096 serving) = true ∧
    (let s := atTick 100 4095 serving
     s.pending = [] ∧ inService s = true ∧ s.tb.tick ≠ 0xFFFF ∧ (s.tb.tick.toNat + 1) % 4096 = 0) ∧
    (inService (atTick 100 65535 serving) = true ∧ (atTick 100 65535 serving).tb.tick = 0xFFFF) ∧
    (loadDue (atTick 100 0 { serving with qos := { serving.qos with openPos := 100 * 65536 } }) = true ∧
      qosDue (atTick 100 0 { serving with qos := { serving.qos with openPos := 100 * 65536 } }) = false) ∧
    (beforeEpoch (boundary 1 0) = true ∧ epochDue (boundary 1 0) = false ∧ dumpDue (boundary 1 0) = true ∧
      portUp (boundary 1 0) 0 = true ∧ ringRoom (boundary 1 0).cnt.dump = false ∧
      ringRoom { resetRing with en := true, entries := 4 } = true) ∧
    (beforeEpoch (boundary 0 1) = true ∧ epochDue (boundary 0 1) = true ∧ (boundary 0 1).led.cut = none ∧
      (let s := takeCut (boundary 0 1)
       beforeEpoch s = true ∧ epochDue s = true ∧ s.led.cut.isSome = true)) ∧
    serving.sys.state ≠ .cold ∧ serving.sys.state ≠ .halt ∧ serving.sys.powerFailing = false ∧
    ({ serving.led with sinceGood := 10000 } : Ledger).sinceGood = 10000 ∧
    (anEpoch 0).fails = 0 ∧ (anEpoch 1).fails ≠ 0 := by decide +kernel

/-- A lift decided. -/
def aLift : LiftEntry := { bucket := 0, way := 1, frozen := true, table := 7, row := 5, dataOff := 0, hits := 0 }
/-- A move of shard 0 of the table to DDR that has copied 64 rows. -/
def aMove : ShardMove := { table := 7, shard := 0, dstTier := .ddr, dstBase := 0, cursor := 36, staged := false, gen := 0 }

/-- The configuration in force with another table. -/
def withTable (T : TableDecl) : State := { declared with cfg := { declared.cfg with cur := { declared.cfg.cur with tables := [T] } } }
/-- The device in service with these lifts due and AUTO_LIFT set. -/
def mayLift (l : List LiftEntry) : State :=
  { declared with stolon := { declared.stolon with liftsDue := l },
                  cfg := { declared.cfg with cur := { declared.cfg.cur with migration := { declared.cfg.cur.migration with autoLift := true } } } }
/-- A batch that has just started. -/
def aBatch (k : BatchKind) : MoveBatch := { what := k, retried := false, since := 0 }
/-- It is in flight. -/
def flyingBatch (k : BatchKind) : State :=
  { declared with stolon := { declared.stolon with batch := some (aBatch k), move := some aMove } }
/-- The mid-beat decision, with AUTO_MOVE set and a shard of a DDR table that lives on the stack and is idle. -/
def returning : State :=
  let T := { aTable with migrate := true, homeTier := .ddr, shards := [{ stackShard with streak := (0, 40) }] }
  let s := withTable T
  atTick 1 32768 { s with
    tb := { s.tb with length := beat50Hz, target := beat50Hz },
    cfg := { s.cfg with cur := { s.cfg.cur with migration := { s.cfg.cur.migration with autoMove := true, demoteBeats := 8, moveRate := 1 } } } }

theorem witness_LiftsAndMovesGoOn :
    (let s := atTick 1 32768 serving
     inService s = true ∧ s.tb.tick = 32768 ∧ liveData s ≠ [] ∧ s.image.carve.liftBytes = 0 ∧
       s.stolon.decided ≠ some s.tb.beat.toNat) ∧
    (let s := atTick 1 32768 { serving with stolon := { serving.stolon with decided := some 1 } }
     inService s = true ∧ s.stolon.decided = some s.tb.beat.toNat) ∧
    (nextBatch (mayLift [aLift]) = some (.lift [(7, 5)]) ∧ (mayLift [aLift]).stolon.batch = none ∧
      (∀ x ∈ batchRows (mayLift [aLift]) (.lift [(7, 5)]), rowBusy (mayLift [aLift]) x.1 x.2 = false) ∧
      (mayLift [aLift]).stolon.windowBytes + sourceBytes (.lift [(7, 5)]) (mayLift [aLift]) ≤ windowCap (mayLift [aLift])) ∧
    (let s : State := { declared with stolon := { declared.stolon with move := some aMove } }
     nextBatch s = some (.shard 7 0 36 64) ∧ (∀ x ∈ batchRows s (.shard 7 0 36 64), rowBusy s x.1 x.2 = false) ∧
       s.stolon.windowBytes + sourceBytes (.shard 7 0 36 64) s ≤ windowCap s) ∧
    (∀ k ∈ [BatchKind.lift [(7, 5)], .shard 7 0 0 36], inService (flyingBatch k) = true ∧ batchPossible (flyingBatch k) k = true ∧
      (flyingBatch k).stolon.batch = some (aBatch k) ∧ (aBatch k).what = k ∧ (aBatch k).retried = false ∧
      clkOf (flyingBatch k) ≤ (aBatch k).since + 2 * usec ∧ (flyingBatch k).stolon.move = some aMove ∧
      tableOf (flyingBatch k).cfg.cur 7 = some aTable ∧ 0 + 36 < shardRows aTable.rows 0) ∧
    (let s := atTick 1 0 (flyingBatch (.lift [(7, 5)]))
     (aBatch (.lift [(7, 5)])).since + 2 * usec < clkOf { s with tb := { s.tb with start := second } }) := by decide +kernel

theorem witness_StolonRowsComplete :
    (let s : State := { declared with stolon := { declared.stolon with evictions := [(0, 1)] } }
     s.stolon.evictions = (0, 1) :: []) ∧
    (let m := { serving.cfg.cur.migration with autoLift := false }
     let s := atTick 1 32768 { serving with cfg := { serving.cfg with cur := { serving.cfg.cur with migration := m } } }
     inService s = true ∧ s.tb.tick = 32768 ∧ liveData s ≠ [] ∧ s.stolon.decided ≠ some s.tb.beat.toNat ∧
       s.cfg.cur.migration.autoMove = false ∧ s.cfg.cur.migration.autoLift = false) ∧
    (inService returning = true ∧ returning.tb.tick = 32768 ∧ liveData returning ≠ [] ∧
      returning.stolon.decided ≠ some returning.tb.beat.toNat ∧ returning.cfg.cur.migration.autoMove = true ∧
      returning.cfg.changes = [] ∧ returning.mg.changeQueue = [] ∧ returning.stolon.newLeader = false ∧
      returning.image.carve.liftBytes = 0 ∧ moveCandidates returning true = [(7, 0, 0, .ddr)] ∧
      checkChange returning (projected returning) none (.shardMove 7 0 .ddr) = 0) ∧
    (isShard (.shard 7 0 36 64) = true ∧ isShard (.lift [(7, 5)]) = false) := by decide +kernel

/-- A change that is committed and whose next flip is due at beat `b`. -/
def aChange (k : ChangeKind) (b : Nat) : Change :=
  { kind := k, origin := none, seq := 4, flipAt := some (b, true), firstFlip := some 1, steps := 0, stepDone := false }
/-- A boundary with that change in progress, every window closed. -/
def changing (k : ChangeKind) (b : Nat) : State :=
  let s := boundary 1 1
  { s with cfg := { s.cfg with changes := [aChange k b], flipNow := true } }

theorem witness_ShardsAreMadeReady :
    (let T := { aTable with shards := [{ stackShard with fresh := true }] }
     inService (withTable T) = true ∧ nextFresh (withTable T) = some (7, 0) ∧ (liveTables (withTable T)).find? (·.id == 7) = some T) ∧
    (let s : State := { declared with cfg := { declared.cfg with changes := [{ aChange (.huskSet 7 true) 0 with flipAt := none }] } }
     inService s = true ∧ parityShard s = some (aTable, 0) ∧ halfApplied s aTable 0 = false ∧ (liveData s).length = 16 ∧
       sliceLive s 16 = true) := by decide +kernel

/-- A rollback decided in beat `b`. -/
def rolling (b : Nat) (done : Bool) : State :=
  let s := boundary 1 1
  { s with cfg := { s.cfg with rollback := some (.timeout, b, done), flipNow := true } }

theorem witness_GenerationsFlip :
    (flipDue (rolling 99 true) = true ∧ windowsClosed (rolling 99 true) = true) ∧
    (flipDue (changing (.kernelUnload 3) 100) = true ∧ windowsClosed (changing (.kernelUnload 3) 100) = true ∧
      (flipDst (changing (.kernelUnload 3) 100) (aChange (.kernelUnload 3) 100)).isSome = true ∧
      changeSteps (boundary 1 1).cfg.base (.kernelUnload 3) ≤ 0 + 1) ∧
    (flipDue (changing (.kernelUnload 3) 101) = false ∧ changeLate (changing (.kernelUnload 3) 101) = true) ∧
    (let s : State := { rolling 36 false with cmds := [{ flying 0x60 with gen := 0 }] }
     let s : State := { s with cfg := { s.cfg with old := some resetCfg } }
     inService s = true ∧ forcedKernels s = [5]) ∧
    (let ch := { aChange (.shardMove 7 0 .ddr) 100 with steps := 1 }
     let s : State := { changing (.kernelUnload 3) 100 with cfg := { (changing (.kernelUnload 3) 100).cfg with changes := [ch] } }
     let s : State := { s with slices := vupd s.slices 16 fun S => { S with offline := true }, stolon := { s.stolon with move := some aMove } }
     flipDue s = true ∧ windowsClosed s = true ∧ (flipDst s ch).isSome = true ∧ sliceLive s 16 = false) := by decide +kernel

/-- The writer works, and compaction stands as given. -/
def writerAt (c : Compaction) (other : Region) : State :=
  let s := boundary 1 1
  { s with sys := { s.sys with replayDone := true },
           jr := { s.jr with compaction := c, writing := some (tornRec 1 (aRecord (.collected 1))), regions := vupd s.jr.regions 1 fun _ => other } }

theorem witness_TheJournalIsWritten :
    (let s := writerAt .none resetRegion
     writerOn s = true ∧ s.jr.writing.isSome = true ∧ s.jr.active = 0 ∧ otherRegion s = 1 ∧
       (recordTargets s (aRecord (.collected 1))).contains s.jr.active.val = true ∧ (vat s.jr.regions 1).failed = false) ∧
    (let s := writerAt (.due 0) { resetRegion with erasing := true }
     (vat s.jr.regions (otherRegion s)).erasing = true ∧ (activeRegion s).failed = false) ∧
    (compactionDue (writerAt (.due 0) resetRegion) = true ∧ windowsClosed (writerAt (.due 0) resetRegion) = true ∧
      flipDue (writerAt (.due 0) resetRegion) = false) ∧
    (let s : State := { writerAt (.running [] 0) resetRegion with jr := { (writerAt (.running [] 0) resetRegion).jr with writing := none } }
     switchDue s = true ∧ windowsClosed s = true ∧ flipDue s = false ∧ s.sys.powerFailing = false) := by decide +kernel

/-! ### Rows, Flails, the ring -/

/-- The command `c` at work on the device in service with the table `T` declared. -/
def onTable (T : TableDecl) (c : Cmd) : State := { withTable T with cmds := [c] }
/-- A raw lookup of row 5 whose list is read. -/
def aLookup : Cmd :=
  { flying 0x11 with bytes := lookupSlot 0x11, checked := true, total := 1, data := leBytes 4 5 ++ zeros 4 }
/-- The table with its rows on DDR. -/
def farTable : TableDecl := { aTable with shards := [{ stackShard with tier := .ddr }] }
/-- A reconstruction of row 5 for it that has come to `next`. -/
def aRecon (next : Nat) : ReconPkt := { uid := 5, chunk := 0, table := 7, row := 5, payload := zeros 32, next := next, arr := 0 }

theorem witness_RowsArrive :
    (let s := onTable farTable aLookup
     cmdOf s 5 = some aLookup ∧ tableFor s aLookup 7 = some farTable ∧ cmdTable aLookup = 7 ∧ 5 < farTable.rows ∧
       isFar (shardOf farTable 5) = true ∧ (shardOf farTable 5).fresh = false ∧ isLookup aLookup = true ∧
       farReady s aLookup farTable 5 = true ∧ poisoned s (segDa farTable (shardOf farTable 5) 5 0) 512 = false ∧
       (let t : State := { s with poison := [canonDa s.image.carve (segDa farTable (shardOf farTable 5) 5 0)] }
        poisoned t (segDa farTable (shardOf farTable 5) 5 0) (16 * farTable.segStride) = true ∧ farReady t aLookup farTable 5 = true)) ∧
    (let s := onTable aTable aLookup
     cmdOf s 5 = some aLookup ∧ activeAt s aLookup 15 = true ∧ aLookup.wants = [] ∧
       (rowRecords s aLookup aTable (nth aLookup.sent 15 0) 15).isSome = true ∧ tableFor s aLookup 7 = some aTable ∧
       (rowEntries aLookup 0).any (fun x => sourcePoisoned s aTable x.1 15 (server s 15)) = false ∧
       (let t : State := { s with poison := [canonDa s.image.carve (segDa aTable stackShard 5 15)] }
        activeAt t aLookup 15 = true ∧ (rowRecords t aLookup aTable 0 15).isSome = true ∧
          (rowEntries aLookup 0).any (fun x => sourcePoisoned t aTable x.1 15 (server t 15)) = true)) ∧
    (∀ n ∈ [0, 15, 16], let s : State := { onTable aTable aLookup with ring := { State.reset.ring with recons := [aRecon n] } }
     s.ring.recons[0]? = some (aRecon n) ∧ cmdOf s 5 = some aLookup ∧ tableFor s aLookup 7 = some aTable ∧
       reconReady s (aRecon n) = true ∧ ringTurn s n (aRecon n).arr = true ∧
       poisoned s (segDa aTable (shardOf aTable 5) 5 n) aTable.segStride = false) := by decide +kernel

/-- A load of rows 98 and 99 of which the first row's bytes are read. -/
def aLoad : Cmd := { flying 0x40 with bytes := loadSlot, checked := true, total := 1, data := zeros 64 }
/-- An update of row 5 that has its list and no gradients. -/
def anUpdate : Cmd := { flying 0x20 with bytes := updateSlot 0x20, checked := true, total := 1, data := leBytes 4 5 ++ zeros 4 }
/-- The same update with its list in device memory. -/
def daUpdate : Cmd := { anUpdate with bytes := slot 0x20 [(0, 2, 7), (4, 1, 4), (8, 4, 1), (0x10, 8, regionBase 3)] }
/-- Its chunk, sorted. -/
def itsChunk : SortedChunk := { uid := 5, chunk := 0, keys := [(98, 0), (99, 1)] }
/-- Slice 3's Flail is at it. -/
def loading : State :=
  { onTable aTable aLoad with flails := vupd State.reset.flails 3 fun F => { F with cur := some itsChunk } }
/-- A total on its way to place `next`, or values still being combined. -/
def aRed (next : Nat) (total : Bool) : RedPkt :=
  { uid := 5, chunk := 0, range := false, vals := [], next := next, total := total, got := [0] }

theorem witness_FlailsWork :
    (let s := onTable aTable aLoad
     placeOf s 16 = none ∧ placeOf s 3 = some 3 ∧ nextChunk s 3 = some (aLoad, 0) ∧ (vat s.flails 3).sorted = none ∧
       tableFor s aLoad (cmdTable aLoad) = some aTable ∧ cmdOf s aLoad.uid = some aLoad ∧ aLoad.phase ≠ .discarded) ∧
    (let s := onTable aTable anUpdate
     placeOf s 0 = some 0 ∧ nextChunk s 0 = some (anUpdate, 0) ∧ (vat s.flails 0).sorted = none ∧ cmdOf s anUpdate.uid = some anUpdate ∧
       (liveData s).head? = some 0 ∧ isLoad anUpdate = false ∧ anUpdate.cutAt = none ∧
       entryBytes aTable anUpdate (0 * chunkSize) = none ∧ chunkRanges aTable anUpdate 0 ≠ [] ∧
       (∀ y ∈ chunkRanges aTable anUpdate 0, onHost y.2 = true)) ∧
    (let s := onTable aTable daUpdate
     nextChunk s 0 = some (daUpdate, 0) ∧ (liveData s).head? = some 0 ∧ entryBytes aTable daUpdate (0 * chunkSize) = none ∧
       chunkRanges aTable daUpdate 0 ≠ [] ∧ (∀ y ∈ chunkRanges aTable daUpdate 0, onHost y.2 = false ∧
         poisoned s y.2.addr y.2.len = false ∧ targetOffline s (.copy daUpdate.func) y.2.addr y.2.len = false)) ∧
    (let s := loading
     (vat s.flails 3).cur = some itsChunk ∧ cmdOf s 5 = some aLoad ∧ actor s 3 = 3 ∧
       (rowsOf itsChunk.keys).drop (vat s.flails 3).applied = [98, 99] ∧
       rowReady s aLoad aTable itsChunk (vat s.flails 3) 3 98 = true ∧ rowFails s aLoad aTable itsChunk 98 = false ∧
       (let s1 := applyRow aLoad aTable itsChunk 3 98 s
        ((cmdOf s1 5).all fun c => !rowReady s1 c aTable itsChunk (vat s1.flails (actor s1 3)) 3 99) = true)) ∧
    (15 ∈ positions loading ∧ (aRed 15 true).next ∉ (aRed 15 true).got) ∧
    (let x : Option SortedChunk := (vat loading.flails (actor loading 3)).cur
     x = some itsChunk ∧ nextPlace loading 3 = some 4 ∧ nextPlace loading 15 = none ∧ (aRed 3 false).vals = []) := by
  decide +kernel

/-- A chain packet of sequence 1 that has come to `next`. -/
def aLink (next : Nat) : ChainPkt := { uid := 5, chunk := 0, seq := 1, table := 7, row := 98, payload := some (zeros 32), next := next, parity := none, arr := 0 }

theorem witness_TheHuskChainMoves :
    (let s : State := { loading with ring := { loading.ring with chain := [aLink 3], deltas := [(3, 1, zeros 32)] } }
     s.ring.chain[0]? = some (aLink 3) ∧ deltaFor s (aLink 3) 3 = some (zeros 32) ∧ ringTurn s 3 (aLink 3).arr = true) ∧
    (let s : State := { loading with ring := { loading.ring with chain := [aLink 16] } }
     (aLink 16).seq = s.ring.folded + 1 ∧ foldHeld s (aLink 16) = false ∧ s.recov.standin = none ∧
       ringTurn s 16 (aLink 16).arr = true) ∧
    ((liveData loading).find? (0 < ·) = some 1 ∧ (liveData loading).find? (15 < ·) = none ∧ (15 : Nat) < 16 ∧
      updQueue serving = []) := by decide +kernel

/-- An attention command on the KV table whose entry 0, head 0 is read by slices 2 and 9, with one core a slice. -/
def anAttn : Cmd :=
  { flying 0x38 with bytes := slot 0x38 [(0, 2, 9), (6, 1, 24)], kvReads := [⟨0, 0, 0, 2, 0⟩, ⟨0, 0, 1, 9, 0⟩] }
/-- A partial of a core, or of a whole slice (8). -/
def aPartial (core : Nat) : CorePartial := { cmd := 5, entry := 0, head := 0, slice := 2, core := core, parts := [] }
/-- The merge of its pair that has come to `next`. -/
def aMerge (next : Nat) : MergePkt := { cmd := 5, entry := 0, head := 0, next := next, parts := [] }

theorem witness_PartialsAreMerged :
    (let s : State := { declared with cmds := [anAttn], partials := [aPartial 0] }
     cmdOf s 5 = some anAttn ∧ kvFor s anAttn = some aKv ∧ corePartials s 5 0 0 2 = [aPartial 0] ∧ attnW anAttn = 1 ∧
       (pairSlices anAttn 0 0).length = 2) ∧
    (3 ∉ pairSlices anAttn 0 0 ∧ 2 ∈ pairSlices anAttn 0 0 ∧ (pairSlices anAttn 0 0).getLast? ≠ some 2 ∧ anAttn.wants = []) ∧
    (let s : State := { declared with cmds := [anAttn], partials := [aPartial 8], ring := { declared.ring with merges := [aMerge 2] } }
     s.ring.merges[0]? = some (aMerge 2) ∧
       (s.partials.find? fun p => p.cmd == 5 && p.entry == 0 && p.head == 0 && p.slice == 2 && p.core == 8) = some (aPartial 8)) := by
  decide +kernel

/-- The device in service between ticks, with far-tier parts declared. -/
def standing : State :=
  let s := closedOut (atTick 100 1 declared)
  { s with image := { s.image with carve := { s.image.carve with cxlGb := [1, 1, 1, 1] } , dimms := 0xFFFF, cxl := 0xF } }

/-! ### Losses -/

/-- Slice 4 is lost; the recovery's cut is still to come if `hold`. -/
def lacking (hold : Bool) : State :=
  { standing with recov := { standing.recov with hold := hold, epoch := 7 }, slices := vupd standing.slices 4 fun S => { S with offline := true } }

theorem witness_PartsAreLostAndRecovered :
    (mayLose standing = true ∧ causeFits (partOf (.slice 16)).1 1 = true ∧ partLive standing .slice 16 = true ∧
      causeFits .bridge 0x14 = true ∧ partLive standing .bridge 0x12 = true ∧ causeFits .dimm 0x15 = true ∧
      partLive standing .dimm 15 = true ∧ causeFits .expander 0x1A = true ∧ partLive standing .expander 7 = true ∧
      standing.recov.active = []) ∧
    (causeFits .slice 7 = false ∧ partLive (lacking true) .slice 4 = false) ∧
    ((lacking true).recov.hold = true ∧ (lacking true).sys.state ≠ .halt ∧ (lacking true).sys.state ≠ .cold ∧
      tickSettled (lacking true) = true ∧ (vat (lacking true).qs 0).en = true ∧ (vat (lacking true).qs 1).en = false ∧
      lostData (lacking true) = [4] ∧ sliceLive (lacking true) 16 = true ∧ (lacking true).recov.huskLost = false ∧
      lostData standing = []) ∧
    (lacking false).recov.hold = false := by decide +kernel

theorem witness_LinksAreRepairedOrLost :
    (linksTraining standing = true ∧ moduleUp standing (.sliceLink 16 1 1) = true ∧ moduleUp standing (.ringHop 0) = true) ∧
    mayLose standing = true ∧ (sliceLinkUp standing 16 0 = true ∧ sliceLinkUp standing ((16 + 1) % 17) 0 = true) ∧
    (let s := stepped { standing with pending := [.linkDegraded (.sliceLink 3 0 1)] }
     mayLose s = true ∧ moduleUp s (.sliceLink 3 0 1) = false ∧ moduleUp s (.sliceLink 3 0 0) = true ∧ sliceLive s 3 = true ∧
       sliceLinkUp s 3 0 = true) ∧
    (vat standing.links.mgmt 0 = true ∧ ∀ j < 20, vat standing.links.mgmt j = true) ∧
    (let s := stepped { standing with pending := [.mgmtRingSegmentFail 0] }
     mayLose s = true ∧ vat s.links.mgmt 0 = false ∧ vat s.links.mgmt 19 = true ∧ s.sys.state ≠ .halt) ∧
    (sliceLive standing 16 = true ∧ vat (vat standing.slices 16).spareData 15 ≠ 0 ∧ vat (vat standing.slices 16).spareCa 15 ≠ 0) ∧
    (let s : State := { standing with slices := vupd standing.slices 16 fun S => { S with spareCa := Vector.replicate 16 0 } }
     mayLose s = true ∧ sliceLive s 16 = true ∧ vat (vat s.slices 16).spareCa 15 = 0) := by decide +kernel

theorem witness_ErrorsAreCountedAndContained :
    (mayLose standing = true ∧ sliceLive standing 0 = true ∧ (vat standing.slices 0).scrub + 32 < 36000000000 ∧
      repairable standing 0 (vat standing.slices 0).scrub = false ∧ reservedTop (vat standing.slices 0).scrub = false ∧
      vat (vat standing.slices 0).ueBeat (channelOf (vat standing.slices 0).scrub) < 64) ∧
    reservedTop (36000000000 - 32) = true ∧
    (let s : State := { standing with cfg := { standing.cfg with cur := { standing.cfg.cur with
        tables := [{ aTable with husk := true, shards := [{ stackShard with parity := true }] }] } } }
     repairable s 0 0 = true ∧ reservedTop 0 = false ∧ mayLose s = true) ∧
    (scrubLive standing (.dimm 15) = true ∧ (vat standing.dimms 15).ueBeat < 64) ∧
    ((vat standing.brg (3 / 2)).offline = false ∧ partLive standing .expander (4 + 3) = true ∧ 0 < cxlSpan standing 3 ∧
      (vat standing.cxl 3).ueBeat < 64) := by decide +kernel

/-! ### Culm cores -/

/-- The word of an operation (R447). -/
def opWord (code d a b x : Nat) : Nat := code + d * 2 ^ 8 + a * 2 ^ 14 + b * 2 ^ 20 + x * 2 ^ 26
/-- A bundle of 64 bytes that holds these words in these slots. -/
def bundle (ops : List (Nat × Nat)) : List Byte := ops.foldl (fun bs x => patch bs (8 * x.1) (leBytes 8 x.2)) (zeros 64)
/-- Its launch: trap area and scratch at 65,536. -/
def aLaunch : Launch := { cmd := 5, kernel := 3, rank := 0, total := 1, area := 65536, budget := 100000, args := [] }
/-- Core 0 runs the kernel of one bundle; g1 holds an address in its scratch, g2 holds 64, g3 the address of the buffer pool. -/
def onCulm (f : Core → Core) (ops : List (Nat × Nat)) : State :=
  { declared with
    cfg := { declared.cfg with cur := { declared.cfg.cur with kernels := [{ aKernel with code := bundle ops }] } },
    cmds := [{ flying 0x60 with bytes := launchSlot, checked := true, cores := 1 }],
    cores := vupd State.reset.cores 0 fun K => f { K with
      mode := .kernel, launch := some aLaunch, tsp := BitVec.ofNat 56 (cribDa 0 (65536 + 20480)), modeReg := 8,
      g := vupd (vupd (vupd K.g 1 fun _ => BitVec.ofNat 64 (cribDa 0 (65536 + 20480))) 2 fun _ => 64) 3 fun _ => BitVec.ofNat 64 (regionBase 3) } }
/-- The core issues the bundle at its PC with no result waiting, and an operation of it satisfies `p`. -/
def issuing (s : State) (p : List Op → Op → Bool) : Bool :=
  issues s 0 && (vat s.cores 0).pend.isEmpty && (bundleNow s 0).any fun x => (bundleTrap s x.1.func 0 (vat s.cores 0) x.2).isNone &&
    stallEvent (vat s.cores 0) x.2 == none && xferRoom (vat s.cores 0) x.2 && x.2.any (p x.2)
/-- It goes on, and has this operation in this slot. -/
def holds (slot code : Nat) (ops : List Op) (o : Op) : Bool := goesOn ops && o.slot == slot && o.code == code

theorem witness_IntOperationsWriteTheirResult :
    (∀ code ∈ (List.range 13).map (· + 1), issuing (onCulm id [(1, opWord code 5 1 2 0)]) (holds 1 code) = true) ∧
    issuing (onCulm id [(2, opWord 1 63 1 2 0)]) (holds 2 1) = true := by decide +kernel

theorem witness_LoadsReadTheCrib :
    (∀ code ∈ [1, 2, 3, 4, 5], issuing (onCulm id [(3, opWord code 5 1 2 64)]) (holds 3 code) = true) ∧
    issuing (onCulm id [(4, opWord 1 5 1 2 4095)]) (holds 4 1) = true := by decide +kernel

theorem witness_StoresAndTransfersAreIssued :
    (∀ code ∈ [6, 7, 8, 9, 10], issuing (onCulm id [(3, opWord code 5 1 2 64)]) (fun ops o => holds 3 code ops o && ops.all (·.cls != .acc)) = true) ∧
    (∀ code ∈ [11, 12], issuing (onCulm id [(4, opWord code 2 1 3 0)]) (holds 4 code) = true) ∧
    (let x : Xfer := { src := cribDa 0 (65536 + 20480), dst := 6 * 2 ^ 52 + 0x4000, len := 64 }
     let s := onCulm (fun K => { K with xfers := [x], mode := .draining, drain := .endKernel }) []
     (vat s.cores 0).xfers = [x] ∧ (xferBytes x .granted s).isSome = true ∧ x.src / 2 ^ 52 ≠ 6 ∧ x.dst / 2 ^ 52 = 6 ∧
       (coreCmd s 0).any (fun c => opcodeOf c.bytes == 0x60) = true) ∧
    (let x : Xfer := { src := 6 * 2 ^ 52 + 0x4000, dst := cribDa 0 (65536 + 20480), len := 2 }
     let s := onCulm (fun K => { K with xfers := [x] }) []
     xferBytes x (.data [1, 2]) s = some [1, 2] ∧ (daWrite s x.dst [1, 2]).1 = true ∧ (vat s.cores 0).mode ≠ .draining) := by
  decide +kernel

theorem witness_VectorOperationsWriteTheirResult :
    (∀ code ∈ (List.range 18).map (· + 1), issuing (onCulm id [(5, opWord code 5 1 2 0)]) (fun ops o => holds 5 code ops o &&
      vtypeOf (bits o.w 26 3) == some (.fp .fp32) && vtypeOf (bits o.w 29 3) == some (.fp .fp32)) = true) ∧
    issuing (onCulm id [(6, opWord 1 31 1 2 5)]) (fun ops o => holds 6 1 ops o && vtypeOf (bits o.w 26 3) == some .i8) = true := by
  decide +kernel

/-- A live floating-point slot of one row and 256 columns with K_chunk 8. -/
def aTile : Tile := { int := false, kc := 8, n := 0, shape := 0, sat := false, nan := false, live := true, cells := List.replicate 256 ⟨0, 0⟩ }
/-- Every slot of the core is such. -/
def tiled (K : Core) : Core := { K with tiles := Vector.replicate 8 aTile }
/-- The state with an image of such a slot in the core's scratch. -/
def imaged (s : State) : State := daPoke s (cribDa 0 (65536 + 20480)) ((slotImage aTile).take 8)

/-- An ACC operation that is alone in its bundle. -/
def accAlone (code : Nat) (ops : List Op) (o : Op) : Bool :=
  holds 7 code ops o && o.cls == .acc && (ops.filter (·.cls != .nop)).length == 1

theorem witness_AccumulatorOperations_alone :
    ∀ x ∈ [(0x80, 2 ^ 15), (0x81, 0), (0x82, 0), (0x83, 0), (0x84, 0), (0x87, 0), (0x88, 0)],
      issuing (onCulm tiled [(7, opWord x.1 5 1 2 x.2)]) (accAlone x.1) = true := by decide +kernel

theorem witness_AccumulatorOperations :
    (macFmts { slot := 7, w := opWord 0x80 5 1 2 (2 ^ 15) }).isSome = true ∧
    issuing (onCulm tiled [(6, opWord 0x81 0 0 0 7)]) (fun ops o => holds 6 0x81 ops o && o.cls == .acc) = true ∧
    (let s := imaged (onCulm tiled [(7, opWord 0x85 0 1 0 0)])
     issuing s (accAlone 0x85) = true ∧ (vat s.cores 0).stores = []) := by
  decide +kernel

theorem witness_BranchesOpenTheirDelayBundle :
    ∀ code ∈ [1, 2, 3, 4, 5], issuing (onCulm id [(0, opWord code 0 1 0 3)]) (fun ops o => holds 0 code ops o && o.cls == .ctl) = true := by
  decide +kernel

theorem witness_NextBundleAndLoops :
    (let s := onCulm id [(1, opWord 1 5 1 2 0)]
     issuing s (fun ops o => holds 1 1 ops o && o.cls != .nop && ops.all fun x => !x.isLong && (x.cls != .ctl || decide (12 ≤ x.code))) = true ∧
       coreRow (.opAdd 0 0) = some (0, .int, 1, 1) ∧ (vat s.cores 0).pend = [] ∧ (vat s.cores 0).branch = none ∧
       ∀ l < 3, vat (vat s.cores 0).lc l = 0) ∧
    (issuing (onCulm (fun K => { K with branch := some (0, 9) }) [(1, opWord 1 5 1 2 0)]) (holds 1 1) = true) ∧
    (∀ l ∈ [0, 1, 2], let s := onCulm (fun K => { K with lc := vupd K.lc l fun _ => 2 }) [(1, opWord 1 5 1 2 0)]
     issuing s (holds 1 1) = true ∧ vat (vat s.cores 0).lc l ≠ 0 ∧ (vat (vat s.cores 0).le l).toNat = (vat s.cores 0).pc ∧
       1 < (vat (vat s.cores 0).lc l).toNat ∧ ∀ j < l, vat (vat s.cores 0).lc j = 0) ∧
    (let s := onCulm id [(0, opWord 6 0 1 0 (4 * 3))]
     issuing s (fun ops o => holds 0 6 ops o && o.is .ctl 6) = true) := by decide +kernel

theorem witness_ControlRegisterOperations :
    (∀ x ∈ [0, 2, 3, 11, 13, 14, 16], issuing (onCulm (fun K => { K with g := vupd K.g 1 fun _ => 8 }) [(0, opWord 11 0 1 0 x)])
      (fun ops o => holds 0 11 ops o && o.cls == .ctl && o.ctlReg == x) = true) ∧
    (∀ code ∈ [12, 13, 14, 15], issuing (onCulm id [(0, opWord code 5 0 0 0)]) (fun ops o => holds 0 code ops o && o.cls == .ctl) = true) ∧
    (let s := onCulm (fun K => { K with nest := 1 }) [(0, opWord 10 0 0 0 0)]
     issuing s (fun ops o => holds 0 10 ops o && (ops.filter (·.cls != .nop)).length == 1) = true ∧ (vat s.cores 0).pend = [] ∧
       (vat s.cores 0).stores = []) := by decide +kernel

/-- The command's state on `n` cores with the fault `x`. -/
def onCores (n : Nat) (x : Option (Nat × Nat)) (s : State) : State := { s with cmds := s.cmds.map fun c => { c with cores := n, fault := x } }

theorem witness_KernelsEnd :
    (∀ code ∈ [7, 8, 9], let s := onCulm id [(0, opWord code 0 0 0 0)]
     issuing s (fun ops o => o.code == code && o.cls == .ctl && (vat s.cores 0).xfers.isEmpty && ops.all fun o => !o.is .mem 0x0B && !o.is .mem 0x0C) = true ∧
       (vat s.cores 0).launch = some aLaunch ∧ (vat s.cores 0).nest = 0) ∧
    (∀ code ∈ [7, 8], issuing (onCulm id [(0, opWord code 0 0 0 0), (3, opWord 11 2 1 3 0)]) (fun _ o => o.code == code && o.cls == .ctl) = true) ∧
    (∀ x ∈ [(1, none), (1, some (0, 0x22)), (2, none)], (cmdOf (onCores x.1 x.2 (onCulm id [(0, opWord 7 0 0 0 0)])) 5).any (fun c =>
      c.cores == x.1 && c.fault == x.2 && c.phase == .working && c.status == 0 && opcodeOf c.bytes == 0x60) = true) := by decide +kernel

theorem witness_CoresAreStopped :
    (let s := onCulm (fun K => { K with abort := some 0x24 }) []
     (vat s.cores 0).abort = some 0x24 ∧ (vat s.cores 0).launch = some aLaunch ∧ (vat s.cores 0).mode = .kernel ∧
       (cmdOf s 5).any (fun c => opcodeOf c.bytes == 0x60) = true) ∧
    (let s := onCulm (fun K => { K with cycles := 100000, mode := .draining }) []
     aLaunch.budget ≤ (vat s.cores 0).cycles) ∧
    (65536 ≤ (vat (onCulm (fun K => { K with ymaskCycles := 65536 }) []).cores 0).ymaskCycles) ∧
    (let s := atTick 1 0 (onCulm (fun K => { K with mode := .locked, launch := none, lockedAt := some 0 }) [])
     (vat s.cores 0).mode = .locked ∧ (vat s.cores 0).launch = none ∧ 0 + 65536 ≤ posOf s) := by decide +kernel

/-- A guaranteed class 14; the command's class is class 15, a scavenger. -/
def ranked (s : State) : State :=
  { s with cfg := { s.cfg with cur := { s.cfg.cur with classes := (s.cfg.cur.classes.set 14 { (vat s.cfg.cur.classes 14) with
             base := .guaranteed, budget := Vector.replicate 5 { g := 100, c := none } }).set 15 { (vat s.cfg.cur.classes 15) with base := .scavenger } } },
           cmds := s.cmds ++ [{ flying 0x60 with uid := 6, cls := 14 }] }
/-- A launch of that class. -/
def urgent : CoreWork := .launch { aLaunch with cmd := 6 }
/-- An attention item. -/
def anItem : WorkItem := { cmd := 5, entry := 0, head := 0, blocks := [0] }

theorem witness_CoresStartWork :
    (let s := onCulm (fun K => { K with mode := .idle }) []
     (vat s.cores 0).mode = .idle ∧ (kernelOf s 0).isSome = true) ∧
    (let s := ranked (onCulm (fun K => { K with mode := .idle, launch := none, queue := [.launch aLaunch, urgent] }) [])
     coreFree (vat s.cores 0) = true ∧ nextWork s 0 = some urgent ∧ (vat s.cores 0).saved = none) ∧
    (let s : State := { declared with cmds := [anAttn], cores := vupd declared.cores 0 fun K => { K with queue := [.item anItem] } }
     coreFree (vat s.cores 0) = true ∧ nextWork s 0 = some (.item anItem) ∧ cmdOf s 5 = some anAttn ∧ kvFor s anAttn = some aKv) ∧
    (∀ x ∈ [[], [({ src := 0, dst := 0, len := 8 } : Xfer)]], let s := ranked (onCulm (fun K => { K with queue := [urgent], xfers := x }) [])
     yieldTaken s 0 = true ∧ (vat s.cores 0).abort = none ∧ overBudget (vat s.cores 0) = false ∧ overYmask (vat s.cores 0) = false ∧
       runningWork (vat s.cores 0) = some (.launch aLaunch) ∧ (vat s.cores 0).drain ≠ .yield ∧ trapDue s 0 = none) ∧
    (∀ w ∈ [CoreWork.launch aLaunch, .item anItem], let s := onCulm (fun K => { K with mode := .idle, launch := none, saved := some { work := w, at_ := cribDa 0 65536, by_ := 6, cls := 14, parts := [] } }) []
     (vat s.cores 0).saved.isSome = true ∧ coreFree (vat s.cores 0) = true ∧ nextWork s 0 = none) := by decide +kernel

theorem witness_BundlesTouchTheirCoreAlone :
    (let s := onCulm id [(1, opWord 1 5 1 2 0)]
     coreRow (.opAdd 0 0) = some (0, .int, 1, 1) ∧
     issuing s (fun ops o => goesOn ops && o.cls == .int && o.code == 1 && o.slot == 1) = true ∧
       (vat s.cores 0).stores = [] ∧ (vat s.cores 0).pend = [] ∧ dstOk (.g 6) = true) := by decide +kernel

theorem witness_ExceptionsAreEntered :
    (∀ t ∈ [65536 + 20480, 65536], let s := onCulm (fun K => { K with tsp := BitVec.ofNat 56 (cribDa 0 t) }) [(0, opWord 0x13 0 0 0 0)]
     (kernelOf s 0).any (fun x => opcodeOf x.2.1.bytes == 0x60 && x.2.2.trapBytes == 20480) = true ∧ (vat s.cores 0).xfers = [] ∧
       (vat s.cores 0).abort = none ∧ (trapDue s 0).isSome = true ∧ (bundleNow s 0).any (fun x => !x.2.all (·.cls == .nop)) = true ∧
       issues s 0 = true) ∧
    (let s := onCulm (fun K => { K with mode := .draining, drain := .exception 6 0 0 7 0 1 0 false false false }) [(0, opWord 9 0 0 0 7)]
     (vat s.cores 0).drain = .exception 6 0 0 7 0 1 0 false false false ∧ (bundleNow s 0).all (fun x => !x.2.all (·.cls == .nop)) = true) ∧
    (let s := onCulm id [(0, opWord 1 0 0 0 0), (1, opWord 0x0E 0 0 0 0)]
     coreRow (.opBr 0) = some (0, .ctl, 1, 0) ∧ issues s 0 = true ∧ (bundleNow s 0).any (fun x =>
       (bundleTrap s x.1.func 0 (vat s.cores 0) x.2).isSome && !x.2.all (·.cls == .nop)) = true) := by decide +kernel

/-- The core at a long instruction with this descriptor. -/
def atLong (f : Core → Core) (slot code : Nat) (desc : List Byte) : State :=
  daPoke (onCulm f [(slot, opWord code 0 1 0 0)]) (cribDa 0 (65536 + 20480)) desc
/-- A descriptor of one row of one element. -/
def sheafDesc : List Byte := patch (patch (zeros 64) 0x30 [1]) 0x34 [1]
/-- See `sheafDesc`. -/
def flailDesc : List Byte := patch (patch (patch (zeros 128) 0x28 [1]) 0x2C [1]) 0x48 [16]

theorem witness_LongInstructionsRun :
    (∀ x ∈ [(0, 16, sheafDesc), (0, 17, flailDesc), (0, 18, zeros 64), (7, 0x86, zeros 64)],
      issuing (atLong tiled x.1 x.2.1 x.2.2) (fun _ o => o.slot == x.1 && o.code == x.2.1 && o.isLong) = true) ∧
    (∀ x ∈ [(0, 18, 0, zeros 64), (7, 0x86, 1, zeros 64)], let s := atLong (fun K => { tiled K with long := true, lsrc := Vector.replicate 3 (rdG K 1), ldesc := x.2.2.2 }) x.1 x.2.1 x.2.2.2
     let K := vat s.cores 0
     mayGo s 0 = true ∧ K.mode = .kernel ∧ K.long = true ∧ K.stores = [] ∧ K.pend = [] ∧ K.branch = none ∧ K.modePend = none ∧
       (∀ l < 3, vat K.lc l = 0) ∧ (longAt s 0).any (fun y => longTotal K y.2.2 == x.2.2.1 && (longTotal K y.2.2 == 0 ||
         (stepFault s y.1.func 0 (longStep s y.1 0 K y.2.2 0)).isNone && (poisonedRead s y.1 K y.2.2 0).isNone)) = true) := by decide +kernel

/-! ### Commands that are not well-formed -/

theorem test_wf_rejects :
    (Instr.trained [.dimm 0, .dimm 0]).wf = false ∧
    (Instr.dvfsStep (List.replicate 19 0)).wf = false ∧ (Instr.dvfsStep (List.replicate 20 4096)).wf = false ∧
    (Instr.meterSample (2 ^ 32) 0 true).wf = false ∧ (Instr.meterSample 0 (2 ^ 32) true).wf = false ∧
    (Instr.partLoss (.slice 0) 0).wf = false ∧ (Instr.partLoss (.slice 0) 0x1B).wf = false ∧
    (Instr.atsInvalidate 0 (2 ^ 64) 4096).wf = false ∧ (Instr.atsInvalidate 0 1 4096).wf = false ∧
    (Instr.atsInvalidate 0 0 0).wf = false ∧ (Instr.atsInvalidate 0 0 1).wf = false ∧
    (Instr.hostBarAccess 0 true (2 ^ 64) 8 none).wf = false ∧ (Instr.hostBarAccess 0 true 0 0 none).wf = false ∧
    (Instr.hostBarAccess 0 true 0 4097 none).wf = false ∧ (Instr.hostBarAccess 0 true 0 0 (some [])).wf = false ∧
    (Instr.windowAccess 0 0 0 none).wf = false ∧ (Instr.windowAccess 0 (2 ^ 28 - 1) 2 none).wf = false ∧
    (Instr.peerZoneWrite 2 0 (2 ^ 64) [1]).wf = false ∧ (Instr.peerZoneWrite 2 0 0 []).wf = false ∧
    (Instr.peerZoneWrite 2 0 0 (List.replicate 513 0)).wf = false ∧
    (Instr.flushRead 2 0 (2 ^ 64) 0).wf = false ∧ (Instr.flushRead 2 0 0 4097).wf = false ∧
    (Instr.requestFirmwareData 0 0 []).wf = false ∧ (Instr.requestFirmwareData 0 1 (List.replicate 1024 0)).wf = false ∧
    (Instr.registerWrite 0 4 true 0).wf = false ∧ (Instr.registerWrite 0 2 false 0).wf = false ∧
    (Instr.hostReadCompletion (.command 0) .timeout).wf = false ∧
    (Instr.pldmOemRequest 0 0 0 0 (List.replicate 4085 0)).wf = false := by decide +kernel

theorem test_wf_accepts :
    (Instr.trained [.dimm 0]).wf = true ∧ (Instr.dvfsStep (List.replicate 20 4095)).wf = true ∧
    (Instr.partLoss (.slice 0) 1).wf = true ∧ (Instr.hostBarAccess 0 true 0 4096 none).wf = true ∧
    (Instr.registerWrite 0 4 false 0).wf = true ∧ (Instr.romDone).wf = true := by decide +kernel

/-! ### Values that the spec works out -/

/-- The example of section 2.8: stripe carve at 28 GiB; DA 0x30_0000_0012_3ABC lies on S3 at carve offset 0x1_2ABC. -/
theorem test_striped_address :
    canonDa { resetCarve with stripeBase := 0x700000000, stripeSize := 0x100000000 } 0x30000000123ABC = stackDa 3 (0x700000000 + 0x12ABC) := by
  decide

/-- The examples of section 5.3: DIM 300 in INT8 and in BF16, with and without ADAM. -/
theorem test_segment_layout :
    padDim 300 = 304 ∧ segLen 300 = 19 ∧ segStrideOf .int8 .none 300 = 32 ∧ logicalStrideOf .int8 .none 300 = 304 ∧
    segStrideOf .bf16 .none 300 = 64 ∧ logicalStrideOf .bf16 .none 300 = 600 ∧ segStrideOf .bf16 .adam 300 = 192 ∧
    logicalStrideOf .bf16 .adam 300 = 3000 := by decide

/-- The example of section 6.2: 40 indices of 4 and of 8 bytes; 54 weighted ones. -/
theorem test_list_length : listLen 1 40 4 false = 168 ∧ listLen 1 40 8 false = 328 ∧ listLen 1 54 4 true = 440 := by decide

/-- The example of section 6.5: a SUM and a MEAN in the order of the bag. -/
theorem test_pooling_order :
    let r (x : F32) : List F32 × F32 := ([x], 0)
    poolSegment .sum 1 [r 0x4B800000, r 0x3F800000, r 0x3F800000] = [0x4B800000] ∧
    poolSegment .sum 1 [r 0x3F800000, r 0x3F800000, r 0x4B800000] = [0x4B800001] ∧
    poolSegment .mean 1 [r 0x4B800000, r 0x3F800000, r 0x3F800000] = [0x4AAAAAAB] ∧
    poolSegment .mean 1 [r 0x3F800000, r 0x3F800000, r 0x4B800000] = [0x4AAAAAAC] := by decide +kernel

/-- The example of section 10.6: the merge of two partials and its normalization. -/
theorem test_merge :
    let p : Partial := mergePartial { empty := false, m := 0x40400000, l := 0x3FC00000, o := [0x40000000] }
      { empty := false, m := 0x40A00000, l := 0x3FA00000, o := [0xBF800000] }
    p.l = 0x3FD00000 ∧ p.o = [0xBF000000] ∧ f32Div (nth p.o 0 0) p.l = 0xBE9D89D9 := by decide +kernel

/-- The example of section 11.3: 32 integer steps of (−128) × (−128) clamp and set SAT. -/
theorem test_integer_clamp :
    let c := (List.range 31).foldl (fun c _ => (stepInt c (-128) (-128)).cell) ⟨0, 0⟩
    c.a = 507904 ∧ (stepInt c (-128) (-128)).cell.a = 524287 ∧ (stepInt c (-128) (-128)).sat = true := by decide +kernel

/-- The example of section 11.3: 1 + 2^-12 is a tie in A20F and rounds to 1. -/
theorem test_float_tie :
    let c := (stepFloat ⟨0, 0⟩ (ofF32 0x3F800000) (ofF32 0x3F800000)).cell
    (stepFloat c (ofF32 0x39800000) (ofF32 0x3F800000)).cell = c := by decide +kernel

/-! ### One step -/

/-- R115: ROM_DONE takes BOOT to IMAGE. -/
theorem test_rom_done : (after .romDone State.reset).sys.state = .image := by decide +kernel
/-- R831: GEN_QUERY answers the generation and the changes that wait. -/
theorem test_gen_query : (mbxOf (after (.genQuery 1 0) serving) 1).result = some (0, leBytes 8 0) := by decide +kernel
/-- An operation that no table row names is BAD_OP (Table 22-4: 0x04). -/
theorem test_bad_op : (mbxOf (after (.badOp 1 3 0) serving) 1).result = some (0x04, []) := by decide +kernel
/-- R451: an ADD wraps: (2^64 − 1) + 2 = 1, readable one cycle later. -/
theorem test_add_wraps :
    let s := onCulm (fun K => { K with g := vupd (vupd K.g 1 fun _ => 0xFFFFFFFFFFFFFFFF) 2 fun _ => 2 }) [(1, opWord 1 5 1 2 0)]
    let K := vat (after (.opAdd 0 0) s).cores 0
    rdG K 5 = 1 ∧ K.cycles = 1 ∧ K.pc = 1 := by decide +kernel
/-- R458: BRNZ with a register that is not zero: the delay bundle is next, then PC + 3. -/
theorem test_brnz :
    (let K := vat (after (.opBrnz 0) (onCulm id [(0, opWord 3 0 2 0 3)])).cores 0
     (K.pc, K.branch)) = (1, some (0, 3)) := by decide +kernel
/-- A command at the front runs before the one behind it; an idle block only lets its tick pass. -/
theorem test_queue_order :
    (stepped { State.reset with pending := [.romDone, .enterRun] }).pending = [.enterRun] ∧ (stepped State.reset).pending = [] ∧
    (stepped State.reset).tb.tick = 1 := by decide +kernel

end Sys2Proof.Tests
end

section
/-!
PROOFS. How one command can move the device state (Table 1-4, R29, R30, R115, R517, R733, R739), said once, and what follows
for DEGRADED; and what CTL_STATE reads.
-/
namespace Sys2Proof.Machine

/-! ### The moves of one command -/

/-- The commands that can take the supplies away (R733, R737 to R740). -/
def LosesSupplies (c : Instr) : Prop := c = .holdUpEnd ∨ c = .thermalTrip ∨ ∃ x, c = .powerFail x

/-- The moves from `y` to `z` that the command `i` can make, or an idle tick where there is none. -/
inductive DeviceMove (i : Option Instr) (y z : Sys) : Prop where
  /-- A move forward along the start path, a move into HALT, or none. -/
  | inside (hf : forward y.state z.state = true) (hp : z.prior = y.prior)
  /-- The supplies fall (R733, R739). -/
  | suppliesFall (hi : ∃ c, i = some c ∧ LosesSupplies c) (hz : z.state = .cold)
  /-- The device starts from COLD (R115). -/
  | poweredOn (hy : y.state = .cold) (hz : z.state = .boot)
  /-- No host has been there for long enough: the device remembers the state it leaves (R517). -/
  | orphaned (hy : y.state = .run ∨ y.state = .degraded) (hz : z.state = .orphanHold) (hp : z.prior = y.state)
  /-- A host is back: the device returns to the state that the losses ask for (R30). -/
  | hostsBack (hy : y.state = .orphanHold) (hz : z.state = if y.lossSeen then .degraded else y.prior)

theorem Keeps.deviceMove {i : Option Instr} {s t : State} (h : Keeps s t) : DeviceMove i s.sys t.sys :=
  .inside h.forward h.prior

theorem DeviceMove.same {i : Option Instr} (y : Sys) : DeviceMove i y y := .inside (forward_self _) rfl

/-- The start from COLD, under whatever else it waits for. -/
theorem bootEntry_move {i : Option Instr} {b : Bool} {s : State} :
    DeviceMove i s.sys (if s.sys.state == .cold && b then bootEntry s else s).sys := by
  split
  · rename_i hc
    obtain ⟨hcold, -⟩ := (Bool.and_eq_true _ _).mp hc
    exact .poweredOn (eq_of_beq hcold) rfl
  · exact .same _

theorem execPowerOn_move {s : State} : ∃ t, execPowerOn s = .next t ∧ DeviceMove (some .powerOn) s.sys t.sys :=
  ⟨_, rfl, bootEntry_move⟩

theorem execTripRecovery_move {s : State} :
    ∃ t, execTripRecovery s = .next t ∧ DeviceMove (some .tripRecovery) s.sys t.sys :=
  ⟨_, rfl, bootEntry_move⟩

/-- With an image in force the fail path begins and the state stays; before that the supplies fall at once (R739). -/
theorem execPowerFail_move {x : Fin 4} {s : State} :
    ∃ t, execPowerFail x s = .next t ∧ DeviceMove (some (.powerFail x)) s.sys t.sys := by
  refine ⟨_, rfl, ?_⟩
  split
  · exact .same _
  · split
    · exact (failTick_keeps (Keeps.same s)).deviceMove
    · exact .suppliesFall ⟨_, rfl, .inr (.inr ⟨x, rfl⟩)⟩ rfl

theorem execHoldUpEnd_move {s : State} : ∃ t, execHoldUpEnd s = .next t ∧ DeviceMove (some .holdUpEnd) s.sys t.sys := by
  refine ⟨_, rfl, ?_⟩
  split
  · exact .suppliesFall ⟨_, rfl, .inl rfl⟩ rfl
  · exact .same _

theorem execThermalTrip_move {s : State} : ∃ t, execThermalTrip s = .next t ∧ DeviceMove (some .thermalTrip) s.sys t.sys := by
  refine ⟨_, rfl, ?_⟩
  split
  · exact .same _
  · exact .suppliesFall ⟨_, rfl, .inr (.inl rfl)⟩ rfl

theorem execOrphanTimeout_move {s : State} :
    ∃ t, execOrphanTimeout s = .next t ∧ DeviceMove (some .orphanTimeout) s.sys t.sys := by
  refine ⟨_, rfl, ?_⟩
  split
  · split
    · rename_i hc
      obtain ⟨hr, -⟩ := (Bool.and_eq_true _ _).mp ((Bool.and_eq_true _ _).mp hc).1
      exact .orphaned (by simpa [running] using hr) (by rw [enterState_sys]) (by rw [enterState_sys])
    · exact .same _
  · exact .same _

/-- A link that comes up moves the device only out of ORPHAN_HOLD; one below what Table 13-2 allows fails (R30, R498). -/
theorem execHostLinkUp_move {l : LinkTrained 4} {s : State} :
    ∃ t, execHostLinkUp l s = .next t ∧ DeviceMove (some (.hostLinkUp l)) s.sys t.sys := by
  refine ⟨_, rfl, ?_⟩
  split
  · exact .same _
  split
  · exact (trainFail_keeps (Keeps.same s)).deviceMove
  split
  · extract_lets up
    have hup : Keeps s up := watchOrphan_keeps (Keeps.upd (Keeps.same s))
    have hsys : up.sys = s.sys := rfl
    split
    · rename_i ho
      rw [hsys] at ho
      exact .hostsBack (eq_of_beq ho) (by rw [enterState_sys, hsys])
    · exact hup.deviceMove
  · exact .same _

/-- Every command answers a next state, and moves the device state in one of the ways of `DeviceMove`. -/
theorem exec_deviceMove (i : Instr) (s : State) : ∃ t, exec i s = .next t ∧ DeviceMove (some i) s.sys t.sys := by
  cases hm : movesState i with
  | false =>
    obtain ⟨t, ht, hk⟩ := exec_keeps hm
    exact ⟨t, ht, hk.deviceMove⟩
  | true =>
    unfold movesState at hm
    split at hm
    · exact execPowerOn_move
    · exact execPowerFail_move
    · exact execThermalTrip_move
    · exact execTripRecovery_move
    · exact execHostLinkUp_move
    · exact execOrphanTimeout_move
    · exact execHoldUpEnd_move
    · exact absurd hm Bool.false_ne_true

/-- So does every step: by the command in front of the queue, or by an idle tick. -/
theorem step_deviceMove {s t : State} (h : step s = .next t) : DeviceMove s.pending.head? s.sys t.sys := by
  unfold step at h
  split at h
  · cases h
    exact (idleTick_keeps (Keeps.same s)).deviceMove
  · rename_i c rest hq
    obtain ⟨t', ht', hmove⟩ := exec_deviceMove c { s with pending := rest }
    rw [ht'] at h
    cases h
    rw [hq, List.head?_cons]
    exact hmove

/-! ### Moves from DEGRADED and from ORPHAN_HOLD -/

/-- From DEGRADED the only move forward is into HALT. -/
theorem forward_degraded {b : DevState} (h : forward .degraded b = true) : b = .degraded ∨ b = .halt := by
  revert h; cases b <;> decide

/-- From ORPHAN_HOLD the only move forward is into HALT. -/
theorem forward_orphanHold {b : DevState} (h : forward .orphanHold b = true) : b = .orphanHold ∨ b = .halt := by
  revert h; cases b <;> decide

/-- An ORPHAN_HOLD that goes back to DEGRADED is one after a loss (R26, R30). -/
theorem lossSeen_of_prior_degraded {y : Sys} (h : lossShown y = true) (hs : y.state = .orphanHold) (hp : y.prior = .degraded) :
    y.lossSeen = true := by
  revert h
  simp only [lossShown, hs, hp]
  cases y.lossSeen <;> decide

/-- Out of DEGRADED: into an ORPHAN_HOLD that remembers it, into HALT, or into COLD with the supplies (R29). -/
theorem DeviceMove.of_degraded {i : Option Instr} {y z : Sys} (h : DeviceMove i y z) (hy : y.state = .degraded) :
    z.state = .degraded ∨ (z.state = .orphanHold ∧ z.prior = .degraded) ∨ z.state = .halt ∨
      (z.state = .cold ∧ ∃ c, i = some c ∧ LosesSupplies c) := by
  cases h with
  | inside hf _ =>
    obtain hstay | hhalt := forward_degraded (hy ▸ hf)
    · exact .inl hstay
    · exact .inr (.inr (.inl hhalt))
  | suppliesFall hi hz => exact .inr (.inr (.inr ⟨hz, hi⟩))
  | poweredOn hc _ => simp [hy] at hc
  | orphaned _ hz hp => exact .inr (.inl ⟨hz, hp.trans hy⟩)
  | hostsBack ho _ => simp [hy] at ho

/-- Out of an ORPHAN_HOLD entered from DEGRADED: back to DEGRADED, into HALT or into COLD (R29, R30). -/
theorem DeviceMove.of_orphanHold_degraded {i : Option Instr} {y z : Sys} (h : DeviceMove i y z) (hl : lossShown y = true)
    (hy : y.state = .orphanHold) (hp : y.prior = .degraded) :
    (z.state = .orphanHold ∧ z.prior = .degraded) ∨ z.state = .degraded ∨ z.state = .halt ∨ z.state = .cold := by
  cases h with
  | inside hf hpz =>
    obtain hstay | hhalt := forward_orphanHold (hy ▸ hf)
    · exact .inl ⟨hstay, hpz.trans hp⟩
    · exact .inr (.inr (.inl hhalt))
  | suppliesFall _ hz => exact .inr (.inr (.inr hz))
  | poweredOn hc _ => simp [hy] at hc
  | orphaned hr _ _ => simp [hy] at hr
  | hostsBack _ hz =>
    rw [lossSeen_of_prior_degraded hl hy hp, if_pos rfl] at hz
    exact .inr (.inl hz)

/-- Settles O8: by the moves that one step can make out of DEGRADED, and out of an ORPHAN_HOLD that remembers it, where a
sound state shows the loss that brings the device back to DEGRADED. -/
theorem degradedNeverReturnsToRun : Obligations.DegradedNeverReturnsToRun := by
  unfold Obligations.DegradedNeverReturnsToRun
  rintro s t ⟨-, hl⟩ hstep
  have hmove := step_deviceMove hstep
  refine ⟨fun hs => ?_, fun hs ht => ?_, hmove.of_orphanHold_degraded hl, fun hs ht => ?_⟩
  · exact (hmove.of_degraded hs).imp_right (Or.imp And.left (.imp_right And.left))
  · simpa [ht] using hmove.of_degraded hs
  · simpa [ht, LosesSupplies] using hmove.of_degraded hs

/-! ### CTL_STATE -/

/-- A field that begins at bit `n` or above adds nothing to the bits below `n`. -/
theorem put_mod_of_le {v lo w n : Nat} (h : n ≤ lo) : put v lo w % 2 ^ n = 0 :=
  Nat.mod_eq_zero_of_dvd (Dvd.dvd.mul_left (Nat.pow_dvd_pow 2 h) _)

theorem regVal_cons (f : Field) (fs : List Field) : regVal (f :: fs) = put f.val f.lo f.width + regVal fs := by
  simp [regVal]

theorem regVal_mod_of_le {n : Nat} {fs : List Field} (h : ∀ f ∈ fs, n ≤ f.lo) : regVal fs % 2 ^ n = 0 := by
  induction fs with
  | nil => exact Nat.zero_mod _
  | cons f fs ih =>
    rw [List.forall_mem_cons] at h
    rw [regVal_cons, Nat.add_mod, put_mod_of_le h.1, ih h.2, Nat.zero_mod]

/-- The lowest bits of a register read the field that lies there. -/
theorem regVal_mod_lowest {f : Field} {fs : List Field} (h0 : f.lo = 0) (h : ∀ g ∈ fs, f.width ≤ g.lo) :
    regVal (f :: fs) % 2 ^ f.width = f.val % 2 ^ f.width := by
  rw [regVal_cons, Nat.add_mod, regVal_mod_of_le h, h0, put, pow_zero, mul_one, Nat.add_zero, Nat.mod_mod, Nat.mod_mod]

/-- STATE[3:0] is wide enough for every code of Table 1-4. -/
theorem stateCode_lt (a : DevState) : stateCode a < 16 := by cases a <;> decide

/-- Settles O10: STATE is the lowest field of CTL_STATE, and every code fits it. -/
theorem ctlStateShowsTheState : Obligations.CtlStateShowsTheState := by
  unfold Obligations.CtlStateShowsTheState
  intro s
  refine ⟨_, rfl, ?_⟩
  calc regVal _ % 2 ^ 4 = stateCode s.sys.state % 2 ^ 4 := regVal_mod_lowest rfl (by simp [roF])
    _ = stateCode s.sys.state := Nat.mod_eq_of_lt (stateCode_lt _)
    _ = _ := by cases s.sys.state <;> rfl

end Sys2Proof.Machine
end

section
/-!
PROOFS. What every command leaves of the block, also those that move the device between COLD, BOOT and ORPHAN_HOLD; that the
state at reset is sound and every step keeps it so; and how COLD and HALT are left.
-/
namespace Sys2Proof.Machine

/-! ### What every command leaves -/

/-- The queue of commands and the fuses are the same, what has been sent stays sent, memory stays in its canonical form and
losses stay shown. -/
structure Sustains (s t : State) : Prop where
  pending : t.pending = s.pending
  mem : memWf s.mem = true → memWf t.mem = true
  out : ∃ l, t.out = l ++ s.out
  lossShown : lossShown s.sys = true → lossShown t.sys = true
  ownerDigest : t.sys.ownerDigest = s.sys.ownerDigest
  stepping : t.sys.stepping = s.sys.stepping

theorem Keeps.sustains {s t : State} (h : Keeps s t) : Sustains s t :=
  ⟨h.pending, h.mem, h.out, h.lossShown, h.ownerDigest, h.stepping⟩

theorem Sustains.refl (s : State) : Sustains s s := (Keeps.same s).sustains

/-- A fall of the supplies empties memory, and COLD hides no loss. -/
theorem coldState_sustains {s : State} : Sustains s (coldState s) :=
  ⟨rfl, fun _ => rfl, ⟨[], rfl⟩, fun _ => rfl, rfl, rfl⟩

theorem lossShown_of_other {y : Sys} (h1 : y.state ≠ .run) (h2 : y.state ≠ .degraded) (h3 : y.state ≠ .orphanHold) :
    lossShown y = true := by
  simp [lossShown, h1, h2, h3]

theorem bootEntry_sustains {s : State} : Sustains s (bootEntry s) :=
  ⟨rfl, id, ⟨[], rfl⟩, fun _ => lossShown_of_other (by simp [bootEntry]) (by simp [bootEntry]) (by simp [bootEntry]), rfl, rfl⟩

/-- Entering a state keeps what `Keeps` says from the moment at which the state has been set. -/
theorem enterState_keeps_set {n : DevState} {c a : Nat} {s : State} :
    Keeps { s with sys := { s.sys with state := n, cause := BitVec.ofNat 8 c, entered := s.tb.beat } } (enterState n c a s) := by
  unfold enterState
  exact raiseEvent_keeps (jAdd_keeps (Keeps.same _))

/-- R517: ORPHAN_HOLD remembers a state that shows the losses. -/
theorem lossShown_orphaned {y : Sys} (hr : y.state = .run ∨ y.state = .degraded) (h : lossShown y = true) :
    lossShown { y with state := .orphanHold, prior := y.state } = true := by
  revert h
  rcases hr with hr | hr <;> simp [lossShown, hr]

/-- R30: the state after ORPHAN_HOLD shows the losses. -/
theorem lossShown_hostsBack {y : Sys} (ho : y.state = .orphanHold) (h : lossShown y = true) :
    lossShown { y with state := if y.lossSeen then .degraded else y.prior } = true := by
  revert h
  simp only [lossShown, ho]
  cases y.lossSeen <;> cases y.prior <;> decide

theorem execOrphanTimeout_sustains {s : State} : ∃ t, execOrphanTimeout s = .next t ∧ Sustains s t := by
  refine ⟨_, rfl, ?_⟩
  split
  · split
    · rename_i hc
      have hr : s.sys.state = .run ∨ s.sys.state = .degraded := by
        simpa [running] using ((Bool.and_eq_true _ _).mp ((Bool.and_eq_true _ _).mp hc).1).1
      have hk := enterState_keeps_set (n := .orphanHold) (c := 0x11) (a := 0)
        (s := { s with sys := { s.sys with prior := s.sys.state } })
      exact ⟨hk.pending, hk.mem, hk.out, fun h => hk.lossShown (lossShown_orphaned (y := s.sys) hr h), hk.ownerDigest, hk.stepping⟩
    · exact .refl s
  · exact .refl s

theorem execHostLinkUp_sustains {l : LinkTrained 4} {s : State} : ∃ t, execHostLinkUp l s = .next t ∧ Sustains s t := by
  refine ⟨_, rfl, ?_⟩
  split
  · exact .refl s
  split
  · exact (trainFail_keeps (Keeps.same s)).sustains
  split
  · extract_lets up
    have hup : Keeps s up := watchOrphan_keeps (Keeps.upd (Keeps.same s))
    split
    · rename_i ho
      have hk := enterState_keeps_set (n := if up.sys.lossSeen then .degraded else up.sys.prior) (c := 0x12) (a := 0) (s := up)
      obtain ⟨l1, e1⟩ := hup.out
      obtain ⟨l2, e2⟩ := hk.out
      exact ⟨hk.pending.trans hup.pending, fun h => hk.mem (hup.mem h), ⟨l2 ++ l1, by rw [e2, List.append_assoc, ← e1]⟩,
        fun h => hk.lossShown (lossShown_hostsBack (eq_of_beq ho) (hup.lossShown h)), hk.ownerDigest.trans hup.ownerDigest,
        hk.stepping.trans hup.stepping⟩
    · exact hup.sustains
  · exact .refl s

theorem execPowerFail_sustains {x : Fin 4} {s : State} : ∃ t, execPowerFail x s = .next t ∧ Sustains s t := by
  refine ⟨_, rfl, ?_⟩
  split
  · exact .refl s
  · split
    · exact (failTick_keeps (Keeps.same s)).sustains
    · exact coldState_sustains

theorem execThermalTrip_sustains {s : State} : ∃ t, execThermalTrip s = .next t ∧ Sustains s t := by
  refine ⟨_, rfl, ?_⟩
  split
  · exact .refl s
  · obtain ⟨hp, hm, hx, -, hd, hs⟩ := coldState_sustains (s := s)
    exact ⟨hp, hm, hx, fun _ => rfl, hd, hs⟩

theorem execHoldUpEnd_sustains {s : State} : ∃ t, execHoldUpEnd s = .next t ∧ Sustains s t := by
  refine ⟨_, rfl, ?_⟩
  split
  · exact coldState_sustains
  · exact .refl s

/-- A start from COLD, under whatever else it waits for. -/
theorem bootEntry_sustains_if {b : Bool} {s : State} : Sustains s (if b then bootEntry s else s) := by
  split
  · exact bootEntry_sustains
  · exact .refl s

/-- Every command answers a next state that `Sustains` the state before. -/
theorem exec_sustains (i : Instr) (s : State) : ∃ t, exec i s = .next t ∧ Sustains s t := by
  cases hm : movesState i with
  | false =>
    obtain ⟨t, ht, hk⟩ := exec_keeps hm
    exact ⟨t, ht, hk.sustains⟩
  | true =>
    unfold movesState at hm
    split at hm
    · exact ⟨_, rfl, bootEntry_sustains_if⟩
    · exact execPowerFail_sustains
    · exact execThermalTrip_sustains
    · exact ⟨_, rfl, bootEntry_sustains_if⟩
    · exact execHostLinkUp_sustains
    · exact execOrphanTimeout_sustains
    · exact execHoldUpEnd_sustains
    · exact absurd hm Bool.false_ne_true

/-- Settles O6: an idle tick and every command sustain what makes a state sound. -/
theorem everyStepKeepsSound : Obligations.EveryStepKeepsSound := by
  unfold Obligations.EveryStepKeepsSound
  rintro s t ⟨hmem, hloss⟩ hstep
  unfold step at hstep
  split at hstep
  · cases hstep
    have hk := idleTick_keeps (Keeps.same s)
    exact ⟨hk.mem hmem, hk.lossShown hloss⟩
  · rename_i c rest _
    obtain ⟨t', ht, hs⟩ := exec_sustains c { s with pending := rest }
    rw [ht] at hstep
    cases hstep
    exact ⟨hs.mem hmem, hs.lossShown hloss⟩

/-- Settles O3: no command refuses a state, and the queue and the fuses are among what it leaves. -/
theorem everyCommandCompletes : Obligations.EveryCommandCompletes := by
  unfold Obligations.EveryCommandCompletes
  intro i s
  obtain ⟨t, ht, hs⟩ := exec_sustains i s
  exact ⟨t, ht, hs.pending, hs.stepping, hs.ownerDigest⟩

/-- Settles O4: a command only adds in front of what has been sent. -/
theorem nothingIsUnsent : Obligations.NothingIsUnsent := by
  unfold Obligations.NothingIsUnsent
  intro i s t h
  obtain ⟨t', ht, hs⟩ := exec_sustains i s
  rw [ht] at h
  cases h
  exact hs.out

/-- Settles O5: memory is empty and the device is in BOOT. -/
theorem resetIsSound : Obligations.ResetIsSound :=
  ⟨rfl, rfl⟩

/-! ### COLD and HALT -/

theorem forward_cold {b : DevState} (h : forward .cold b = true) : b = .cold := by
  revert h; cases b <;> decide

theorem forward_halt {b : DevState} (h : forward .halt b = true) : b = .halt := by
  revert h; cases b <;> decide

/-- From HALT every move stays or goes to COLD. -/
theorem DeviceMove.of_halt {i : Option Instr} {y z : Sys} (h : DeviceMove i y z) (hy : y.state = .halt) :
    z.state = .halt ∨ z.state = .cold := by
  cases h with
  | inside hf _ => exact .inl (forward_halt (hy ▸ hf))
  | suppliesFall _ hz => exact .inr hz
  | poweredOn hc _ => simp [hy] at hc
  | orphaned hr _ _ => simp [hy] at hr
  | hostsBack ho _ => simp [hy] at ho

/-- From COLD every move stays or goes to BOOT. -/
theorem DeviceMove.of_cold {i : Option Instr} {y z : Sys} (h : DeviceMove i y z) (hy : y.state = .cold) :
    z.state = .cold ∨ z.state = .boot := by
  cases h with
  | inside hf _ => exact .inl (forward_cold (hy ▸ hf))
  | suppliesFall _ hz => exact .inl hz
  | poweredOn _ hz => exact .inr hz
  | orphaned hr _ _ => simp [hy] at hr
  | hostsBack ho _ => simp [hy] at ho

theorem execHostLinkUp_cold {l : LinkTrained 4} {s : State} (h : s.sys.state = .cold) :
    ∃ t, execHostLinkUp l s = .next t ∧ t.sys.state = .cold := by
  refine ⟨_, rfl, ?_⟩
  split
  · exact h
  split
  · exact forward_cold (h ▸ (trainFail_keeps (Keeps.same s)).forward)
  split
  · extract_lets up
    have hup : up.sys.state = .cold := h
    rw [if_neg (by rw [hup]; decide)]
    exact hup
  · exact h

/-- R115, R733: no other command brings the device out of COLD. -/
theorem exec_cold {i : Instr} {s : State} (h : s.sys.state = .cold) (h1 : i ≠ .powerOn) (h2 : i ≠ .tripRecovery) :
    ∃ t, exec i s = .next t ∧ t.sys.state = .cold := by
  cases hm : movesState i with
  | false =>
    obtain ⟨t, ht, hk⟩ := exec_keeps hm
    exact ⟨t, ht, forward_cold (h ▸ hk.forward)⟩
  | true =>
    unfold movesState at hm
    split at hm
    · exact absurd rfl h1
    · exact ⟨_, rfl, by simp [h]⟩
    · exact ⟨_, rfl, by simp [h]⟩
    · exact absurd rfl h2
    · exact execHostLinkUp_cold h
    · refine ⟨_, rfl, ?_⟩
      split
      · rw [if_neg (by simp [running, h])]
        exact h
      · exact h
    · refine ⟨_, rfl, ?_⟩
      split
      · rfl
      · exact h
    · exact absurd hm Bool.false_ne_true

/-- Settles O9: by the moves that one step can make out of HALT and COLD; out of COLD they are those of two commands. -/
theorem haltIsLeftThroughCold : Obligations.HaltIsLeftThroughCold := by
  unfold Obligations.HaltIsLeftThroughCold
  intro s t hstep
  have hmove := step_deviceMove hstep
  refine ⟨hmove.of_halt, fun hs hne => ⟨(hmove.of_cold hs).resolve_left hne, ?_⟩⟩
  unfold step at hstep
  split at hstep
  · cases hstep
    exact absurd (forward_cold (hs ▸ (idleTick_keeps (Keeps.same s)).forward)) hne
  · rename_i c rest hq
    by_contra hc
    rw [hq, List.head?_cons, Option.some.injEq, Option.some.injEq, not_or] at hc
    obtain ⟨t', ht, hcold⟩ := exec_cold (s := { s with pending := rest }) hs hc.1 hc.2
    rw [ht] at hstep
    cases hstep
    exact hne hcold

end Sys2Proof.Machine
end

section
/-!
PROOFS. The state at reset, one step of the queue, and how power brings the device from COLD to BOOT.
-/
namespace Sys2Proof.Machine

/-- Settles O1: every numbered part of `State.reset` is the reset part, and the rest stands there as written. -/
theorem resetState : Obligations.ResetState := by
  unfold Obligations.ResetState
  extract_lets s
  have hport (p : Nat) : vat s.ports p = resetPort := vat_replicate ..
  have hqueue (q : Nat) : vat s.qs q = resetQueue := vat_replicate ..
  have hfunc (f : Nat) : vat s.funcs f = resetFunc := vat_replicate ..
  have hcore (k : Nat) : vat s.cores k = resetCore := vat_replicate ..
  refine ⟨rfl, rfl, rfl, rfl, rfl, rfl, rfl, rfl, rfl, rfl, rfl, rfl, fun p _ => ?_, fun q _ => ?_, fun f _ => ?_, fun k _ => ?_,
    rfl, rfl, rfl⟩
  · rw [portUp, hport]; rfl
  · rw [hqueue]; exact ⟨rfl, rfl⟩
  · rw [hfunc]; rfl
  · rw [hcore]; exact ⟨rfl, rfl, rfl⟩

/-- A tick edge changes what counts by ticks, and nothing else. -/
theorem tickEdge_frame (s : State) : ∃ brg qos cnt cmds stolon draws,
    tickEdge s = { s with brg := brg, qos := qos, cnt := cnt, cmds := cmds, stolon := stolon, freeCtr := draws } := by
  have hlatch : ∃ c d, (if latchDue s then takeLatch s else s) = { s with cnt := c, freeCtr := d } := by
    split
    · exact ⟨_, _, rfl⟩
    · exact ⟨_, _, rfl⟩
  have hcut (t : State) : ∃ q l, (if windowEnds t then cutWindow t else t) = { t with qos := q, stolon := l } := by
    split
    · exact ⟨_, _, rfl⟩
    · exact ⟨_, _, rfl⟩
  obtain ⟨c, d, h1⟩ := hlatch
  obtain ⟨q, l, h2⟩ := hcut { s with cnt := c, freeCtr := d }
  unfold tickEdge
  dsimp only
  rw [h1, h2]
  exact ⟨_, _, _, _, _, _, rfl⟩

/-- Settles O2: by the two branches of `step`, and of the idle tick for the empty queue. -/
theorem stepRunsTheFrontCommand : Obligations.StepRunsTheFrontCommand := by
  unfold Obligations.StepRunsTheFrontCommand
  refine ⟨fun c rest s h => by simp only [step, h], fun s h => ⟨fun hc ht => ⟨idleTick s, by simp only [step, h], ?_⟩, fun hn => ?_⟩⟩
  · obtain ⟨_, _, _, _, _, _, e⟩ := tickEdge_frame { s with tb := { s.tb with tick := s.tb.tick + 1 } }
    rw [idleTick, if_neg (by simpa [hc] using ht), e]
    exact ⟨rfl, rfl, h, rfl, rfl, rfl, rfl, rfl⟩
  · simp only [step, h]
    rw [idleTick, if_pos (by simpa using hn)]

/-- Settles O11: by the conditions of the two commands. -/
theorem powerBringsTheDeviceToBoot : Obligations.PowerBringsTheDeviceToBoot := by
  unfold Obligations.PowerBringsTheDeviceToBoot
  intro s up
  have hon (h : (s.sys.state == .cold && !s.sys.tripped) = false) : exec .powerOn s = .next s := by
    change execPowerOn s = _
    rw [execPowerOn, if_neg (by simp [h])]
  refine ⟨fun hc ht => ?_, fun hc ht => ⟨?_, hon (by simp [ht])⟩, fun hc => ⟨hon (by simp [hc]), ?_⟩⟩
  · change execPowerOn s = _
    rw [execPowerOn, if_pos (by simp [hc, ht])]
    rfl
  · change execTripRecovery s = _
    rw [execTripRecovery, if_pos (by simp [hc, ht])]
    rfl
  · change execTripRecovery s = _
    rw [execTripRecovery, if_neg (by simp [hc])]

end Sys2Proof.Machine
end

section
/-!
PROOFS. Power sequences (R722 to R725).
-/
namespace Sys2Proof.Machine

theorem execPowerSeqEntry_eq {s : State} {d : SeqDue} {e : SeqEntry} {good : Bool} (hs : s.sys.state ≠ .cold)
    (hr : s.pmc.run = some d) (ho : entryOver s good = true) (hh : s.pmc.held = none ∨ tickSettled s = true)
    (he : (seqEntries s d.id)[s.pmc.step]? = some e) :
    exec (.powerSeqEntry good) s = .next (runEntry d e { s with pmc := { s.pmc with
      entry := BitVec.ofNat 12 s.pmc.step, step := s.pmc.step + 1, waitGood := none } }) := by
  have hheld : (s.pmc.held.isSome && !tickSettled s) = false := by
    obtain h | h := hh <;> simp [h]
  change execPowerSeqEntry good s = _
  rw [execPowerSeqEntry, hr]
  simp [hs, ho, hheld, he]

/-- Contents lost with a domain are memory and its marks. -/
theorem loseContents_frame {dom : Nat} {s : State} : ∃ mem po, loseContents dom s = { s with mem := mem, poison := po } := by
  unfold loseContents zeroRange
  dsimp only
  split
  · exact ⟨_, _, rfl⟩
  split
  · exact ⟨_, _, rfl⟩
  split
  · split <;> exact ⟨_, _, rfl⟩
  · exact ⟨_, _, rfl⟩

/-- What an entry other than END changes: the power controller, and the contents that a domain switched off held. -/
theorem runEntry_frame {d : SeqDue} {e : SeqEntry} {s : State} (h0 : e.op ≠ 0) :
    ∃ ds cl cp w n mem po, runEntry d e s = { s with mem := mem, poison := po, pmc := { s.pmc with
      domains := ds, clock := cl, cap := cp, waitGood := w, entryEnd := n } } := by
  unfold runEntry
  dsimp only
  split
  · exact ⟨_, _, _, _, _, _, _, rfl⟩
  split
  · exact absurd ‹_› h0
  · exact ⟨_, _, _, _, _, _, _, rfl⟩
  · obtain ⟨m, p, h⟩ := loseContents_frame (dom := seqDomain d e) (s := onDomain (seqDomain d e) (fun D =>
      if D.on then { D with on := false, onTime := D.onTime + (clkOf s - D.since), since := clkOf s } else D) s)
    unfold switchOff
    rw [h]
    exact ⟨_, _, _, _, _, _, _, rfl⟩
  all_goals exact ⟨_, _, _, _, _, _, _, rfl⟩

/-- The effect of an entry that is not skipped, by its OP (Table 4-5). -/
theorem runEntry_of_op {d : SeqDue} {e : SeqEntry} {s : State} (hk : skipped s d e = false) :
    (e.op = 1 → runEntry d e s = switchOn (seqDomain d e) s) ∧ (e.op = 2 → runEntry d e s = switchOff (seqDomain d e) s) ∧
    (e.op = 3 → runEntry d e s = { s with pmc := { s.pmc with
      waitGood := some (seqDomain d e), entryEnd := clkOf s + e.arg * usec } }) ∧
    (e.op = 4 → runEntry d e s = { s with pmc := { s.pmc with entryEnd := clkOf s + e.arg * usec } }) ∧
    (e.op = 5 → runEntry d e s = clockEntry d (seqDomain d e) e.arg s) ∧
    (e.op = 6 → runEntry d e s = onDomain (seqDomain d e) (fun x => { x with clamped := true }) s) ∧
    (e.op = 7 → runEntry d e s = onDomain (seqDomain d e) (fun x => { x with clamped := false }) s) := by
  unfold runEntry
  dsimp only
  rw [if_neg (by simp [hk])]
  refine ⟨?_, ?_, ?_, ?_, ?_, ?_, ?_⟩ <;> intro h <;> simp only [h]

theorem switchOn_on {dom : Nat} {s : State} : (vat (switchOn dom s).pmc.domains dom).on = true := by
  simp only [switchOn, onDomain, vat_vupd_self]
  split <;> trivial

theorem switchOff_on {dom : Nat} {s : State} : (vat (switchOff dom s).pmc.domains dom).on = false := by
  have hpmc (s : State) : (loseContents dom s).pmc = s.pmc := by
    obtain ⟨m, p, h⟩ := loseContents_frame (dom := dom) (s := s)
    rw [h]
  simp only [switchOff, hpmc, onDomain, vat_vupd_self]
  by_cases hon : (vat s.pmc.domains dom).on = true
  · rw [if_pos hon]
  · rw [if_neg hon]
    simpa using hon

/-- Settles O16: by what one entry does, and the frames of the other two rows. -/
theorem powerSequencesRun : Obligations.PowerSequencesRun := by
  unfold Obligations.PowerSequencesRun
  intro s hs
  refine ⟨fun d rest hr hd => ?_, fun d e good hr ho hh he hk h0 => ?_, fun d e good hr ho he hk h0 hid hh => ?_,
    fun d dom hr hw hn hid => ?_⟩
  · refine ⟨_, rfl, ?_⟩
    rw [hr, hd]
    dsimp only
    rw [if_neg (by simpa using hs)]
    exact ⟨rfl, rfl, rfl, rfl, rfl, rfl, rfl, rfl, rfl⟩
  · refine ⟨_, execPowerSeqEntry_eq hs hr ho hh he, ?_⟩
    generalize hs1 : ({ s with pmc := { s.pmc with entry := BitVec.ofNat 12 s.pmc.step, step := s.pmc.step + 1, waitGood := none } } : State) = s1
    have hk1 : skipped s1 d e = false := by subst hs1; exact hk
    have hclk : clkOf s1 = clkOf s := by subst hs1; rfl
    have hmem : s1.mem = s.mem := by subst hs1; rfl
    have hwait : s1.pmc.waitGood = none := by subst hs1; rfl
    obtain ⟨e1, e2, e3, e4, e5, e6, e7⟩ := runEntry_of_op hk1
    obtain ⟨ds, cl, cp, w, n, mem, po, ef⟩ := runEntry_frame (d := d) (s := s1) h0
    refine ⟨?_, ?_, ?_, ?_, ?_, fun h _ => ?_, fun h _ => ?_, fun h => ?_, fun h => ?_, fun h _ => ?_, fun h _ => ?_, fun h _ => ?_⟩
    · rw [ef, ← hs1]; exact hr
    · rw [ef, ← hs1]
    · rw [ef, ← hs1]
    · rw [ef, ← hs1]
    · rw [ef, ← hs1]
    · rw [e1 h]; exact ⟨switchOn_on, hmem⟩
    · rw [e2 h]; exact switchOff_on
    · rw [e3 h, hclk]; exact ⟨rfl, rfl, hmem⟩
    · rw [e4 h, hclk]; exact ⟨hwait, rfl, hmem⟩
    · rw [e5 h]; exact ⟨vat_vupd_self .., hmem⟩
    · rw [e6 h]; exact ⟨congrArg _ (vat_vupd_self ..), hmem⟩
    · rw [e7 h]; exact ⟨congrArg _ (vat_vupd_self ..), hmem⟩
  · refine ⟨_, execPowerSeqEntry_eq hs hr ho (.inl hh) he, ?_⟩
    generalize hs1 : ({ s with pmc := { s.pmc with entry := BitVec.ofNat 12 s.pmc.step, step := s.pmc.step + 1, waitGood := none } } : State) = s1
    have hk1 : skipped s1 d e = false := by subst hs1; exact hk
    have hh1 : s1.pmc.held = none := by subst hs1; exact hh
    have hend : runEntry d e s1 = { s1 with pmc := { s1.pmc with run := none, held := none } } := by
      unfold runEntry
      dsimp only
      rw [if_neg (by simp [hk1]), h0]
      simp [endSeq, hid, hh1]
    rw [hend, ← hs1]
    exact ⟨rfl, rfl, rfl, rfl, rfl⟩
  · refine ⟨_, rfl, ?_⟩
    rw [hr, hw]
    dsimp only
    rw [if_neg (by simp [hs, hn]), if_neg hid]
    unfold seqFail
    simp [hr]

end Sys2Proof.Machine
end

section
/-!
PROOFS. Operating points, the governor, the power limit and sags (R645, R727 to R736, R742).
-/
namespace Sys2Proof.Machine

/-! ### Operating points -/

/-- The operating point of one die, where `h` says how a value moves toward its target. -/
def pointDie (h : Nat → Nat → Nat) (s : State) (die : Nat) : State :=
  if !dieRuns s die then s
  else
    let (c, i) := targets s die
    { s with pmc := { s.pmc with clock := vupd s.pmc.clock die fun x => h x c,
                                 issue := vupd s.pmc.issue die fun x => h x i } }

theorem stepDie_eq : stepDie = pointDie toward := rfl

theorem governDie_eq : governDie = pointDie fun x c => min c x := rfl

theorem toward_le (x c : Nat) : toward x c ≤ x + 64 := by
  unfold toward
  split <;> omega

theorem dieRuns_points {u : State} {C I : Vector Nat 20} {die : Nat} :
    dieRuns { u with pmc := { u.pmc with clock := C, issue := I } } die = dieRuns u die := rfl

theorem targets_points {u : State} {C I : Vector Nat 20} {die : Nat} :
    (targets { u with pmc := { u.pmc with clock := C, issue := I } } die).1 = (targets u die).1 := by
  unfold targets
  dsimp only
  split <;> rfl

/-- Dies are brought to their points one by one: each that runs moves once, and nothing but the points changes. -/
theorem foldl_pointDie {h : Nat → Nat → Nat} {u : State} : ∀ n ≤ 20, ∃ C I,
    (List.range n).foldl (pointDie h) u = { u with pmc := { u.pmc with clock := C, issue := I } } ∧ ∀ d < 20,
      vat C d = (if d < n ∧ dieRuns u d = true then h (vat u.pmc.clock d) (targets u d).1 else vat u.pmc.clock d) ∧
      (vat I d = vat u.pmc.issue d ∨ d < n ∧ ∃ c, vat I d = h (vat u.pmc.issue d) c) := by
  intro n
  induction n with
  | zero => exact fun _ => ⟨_, _, rfl, fun d _ => ⟨by simp, .inl rfl⟩⟩
  | succ n ih =>
    intro hn
    obtain ⟨C, I, e, hp⟩ := ih (by omega)
    rw [List.range_succ, List.foldl_append, e, List.foldl_cons, List.foldl_nil]
    unfold pointDie
    rw [dieRuns_points]
    split
    · rename_i hr
      refine ⟨C, I, rfl, fun d hd => ⟨?_, (hp d hd).2.imp_right fun hi => ⟨by omega, hi.2⟩⟩⟩
      rw [(hp d hd).1]
      by_cases hdn : d = n
      · subst hdn
        simp only [Bool.not_eq_true'] at hr
        simp [hr]
      · have : d < n + 1 ↔ d < n := by omega
        simp only [this]
    · rename_i hr
      have hr : dieRuns u n = true := by simpa using hr
      refine ⟨_, _, rfl, fun d hd => ?_⟩
      rw [targets_points]
      obtain ⟨hc, hi⟩ := hp d hd
      by_cases hdn : d = n
      · subst hdn
        simp only [vat_vupd_self]
        rw [hc, if_neg (by omega), if_pos ⟨by omega, hr⟩, hi.resolve_right (by omega)]
        exact ⟨rfl, .inr ⟨by omega, _, rfl⟩⟩
      · have hlt : d < n + 1 ↔ d < n := by omega
        simp only [vat_vupd_ne _ _ (show n % 20 ≠ d % 20 by omega), hlt]
        exact ⟨hc, hi⟩

/-! ### A step -/

theorem publishTemp_offline {t : Nat} {S : Slice} : (publishTemp t S).offline = S.offline := by
  unfold publishTemp
  split <;> rfl

theorem publishTemp_temp {t : Nat} {S : Slice} (h : S.offline = false) :
    (publishTemp t S).temp = BitVec.ofNat 12 (min 4095 t) := by
  rw [publishTemp, if_neg (by simp [h])]

theorem vat_readStep_slices {temps : List Nat} {s : State} {k : Nat} (hk : k < 17) :
    vat (readStep temps s).slices k = publishTemp (nth temps k 0) (vat s.slices k) := by
  unfold readStep
  dsimp only
  rw [vat_ofFn, Fin.val_ofNat, Nat.mod_eq_of_lt hk]

/-- What a step reads: temperatures and F_PWR of the power controller, and what the slices publish. -/
theorem readStep_frame (temps : List Nat) (s : State) : ∃ sl p, readStep temps s = { s with slices := sl, pmc := p } ∧
    p.run = s.pmc.run ∧ p.clock = s.pmc.clock ∧ p.issue = s.pmc.issue ∧ p.lastStep = posOf s ∧
    p.fPwr = (if s.pmc.lowPower then min 1024 (s.pmc.fPwr + 32) else s.pmc.fPwr) ∧
    ∀ d < 20, vat p.temps d = nth temps d 0 := by
  refine ⟨_, _, rfl, rfl, rfl, rfl, rfl, rfl, fun d hd => ?_⟩
  rw [vat_ofFn, Fin.val_ofNat, Nat.mod_eq_of_lt hd]

/-- Reading the temperatures takes no die out of use. -/
theorem dieRuns_readStep {temps : List Nat} {s : State} {d : Nat} : dieRuns (readStep temps s) d = dieRuns s d := by
  have hoff : dieOffline (readStep temps s) d = dieOffline s d := by
    unfold dieOffline
    split
    · rw [vat_readStep_slices (by omega), publishTemp_offline]
    · rfl
  unfold dieRuns
  rw [hoff]
  rfl

/-- Without a die above its threshold a step has no offline action. -/
theorem hotDie_cool {s : State} {d : Nat} (h : vat s.pmc.hotSteps d = 0) : hotDie s d = s := by
  rw [hotDie, if_pos (by omega)]

theorem foldl_hotDie_cool {s : State} : ∀ {l : List Nat}, (∀ d ∈ l, vat s.pmc.hotSteps d = 0) → l.foldl hotDie s = s
  | [], _ => rfl
  | d :: l, h => by
    rw [List.foldl_cons, hotDie_cool (h d List.mem_cons_self)]
    exact foldl_hotDie_cool fun x hx => h x (List.mem_cons_of_mem _ hx)

theorem readStep_cool {temps : List Nat} {s : State} {d : Nat} (hd : d < 20) (h : nth temps d 0 ≤ offlineAbove d) :
    vat (readStep temps s).pmc.hotSteps d = 0 := by
  unfold readStep
  dsimp only
  rw [vat_ofFn, Fin.val_ofNat, Nat.mod_eq_of_lt hd, if_neg (by omega)]

theorem execDvfsStep_eq {temps : List Nat} {s : State} (h1 : dvfsDue s = true) (h2 : windowsClosed s = true)
    (h3 : flipDue s = false) (h4 : switchDue s = false) : exec (.dvfsStep temps) s = .next (dvfsStep temps s) := by
  change execDvfsStep temps s = _
  rw [execDvfsStep, if_pos (by simp [h1, h2, h3, h4])]

/-- A step that no sequence holds back, with no die above its threshold: the operating points alone move. -/
theorem dvfsStep_cool {temps : List Nat} {s : State} (hr : s.pmc.run = none) (hcool : ∀ d < 20, nth temps d 0 ≤ offlineAbove d) :
    dvfsStep temps s = (List.range 20).foldl (pointDie toward) (readStep temps s) := by
  have hrun : (readStep temps s).pmc.run = none := hr
  have hsteps : ∀ d ∈ List.range 20, vat (readStep temps s).pmc.hotSteps d = 0 := fun d hd =>
    readStep_cool (List.mem_range.1 hd) (hcool d (List.mem_range.1 hd))
  unfold dvfsStep
  generalize readStep temps s = u at hrun hsteps
  dsimp only
  rw [hrun, applyStep, stepDie_eq]
  obtain ⟨C, I, e, -⟩ := foldl_pointDie (h := toward) (u := u) 20 (Nat.le_refl _)
  rw [e]
  exact foldl_hotDie_cool hsteps

/-- R734: with a mean above the limit the governor lowers F_PWR, and each slice and bridge to its new target at once. -/
theorem execPowerGovernor_eq {s : State} (h : governorDue s = true) :
    exec .powerGovernor s = .next ((List.range 19).foldl (pointDie fun x c => min c x)
      { s with pmc := { s.pmc with meanDue := false, fPwr := max 512 (s.pmc.fPwr - 64) } }) := by
  change execPowerGovernor s = _
  rw [execPowerGovernor, if_pos h, governDie_eq]

/-- R727 to R730: what a step that is applied leaves. -/
theorem execDvfsStep_applied {temps : List Nat} {s : State} (h1 : dvfsDue s = true) (h2 : windowsClosed s = true)
    (h3 : flipDue s = false) (h4 : switchDue s = false) (hr : s.pmc.run = none)
    (hcool : ∀ d < 20, nth temps d 0 ≤ offlineAbove d) :
    ∃ t, exec (.dvfsStep temps) s = .next t ∧ t.pmc.lastStep = posOf s ∧
      t.pmc.fPwr = (if s.pmc.lowPower then min 1024 (s.pmc.fPwr + 32) else s.pmc.fPwr) ∧
      (∀ d < 20, vat t.pmc.temps d = nth temps d 0 ∧
        vat t.pmc.clock d = (if dieRuns s d then toward (vat s.pmc.clock d) (targets t d).1 else vat s.pmc.clock d) ∧
        vat t.pmc.clock d ≤ vat s.pmc.clock d + 64 ∧ vat t.pmc.issue d ≤ vat s.pmc.issue d + 64) ∧
      (∀ k < 17, (vat s.slices k).offline = false → (vat t.slices k).temp = BitVec.ofNat 12 (min 4095 (nth temps k 0))) ∧
      t.sys = s.sys ∧ t.mem = s.mem ∧ t.cmds = s.cmds ∧ t.cores = s.cores := by
  obtain ⟨C, I, e, hp⟩ := foldl_pointDie (h := toward) (u := readStep temps s) 20 (Nat.le_refl _)
  obtain ⟨sl, p, er, -, hclock, hissue, hlast, hf, htemps⟩ := readStep_frame temps s
  have hruns (d : Nat) : dieRuns (readStep temps s) d = dieRuns s d := dieRuns_readStep
  have hslices (k : Nat) (hk : k < 17) : vat (readStep temps s).slices k = publishTemp (nth temps k 0) (vat s.slices k) :=
    vat_readStep_slices hk
  refine ⟨_, execDvfsStep_eq h1 h2 h3 h4, ?_⟩
  rw [dvfsStep_cool hr hcool, e]
  rw [er] at hp hslices hruns ⊢
  dsimp only at hp hslices hruns ⊢
  refine ⟨hlast, hf, fun d hd => ?_, fun k hk ho => ?_, rfl, rfl, rfl, rfl⟩
  · obtain ⟨hC, hI⟩ := hp d hd
    rw [hruns, hclock] at hC
    rw [hissue] at hI
    refine ⟨htemps d hd, ?_, ?_, ?_⟩
    · have htar := targets_points (u := { s with slices := sl, pmc := p }) (C := C) (I := I) (die := d)
      dsimp only at htar
      rw [htar]
      simpa only [hd, true_and] using hC
    · rw [hC]
      split
      · exact toward_le _ _
      · exact Nat.le_add_right _ _
    · obtain hI | ⟨-, c, hI⟩ := hI
      · exact Nat.le_trans (Nat.le_of_eq hI) (Nat.le_add_right _ _)
      · exact Nat.le_trans (Nat.le_of_eq hI) (toward_le _ _)
  · rw [hslices k hk, publishTemp_temp ho]

/-- Settles O15: by the points of each die, which move once in a step, and the frames of the other rows. -/
theorem powerIsGoverned : Obligations.PowerIsGoverned := by
  unfold Obligations.PowerIsGoverned
  refine ⟨fun s temps h1 h2 h3 h4 => ⟨execDvfsStep_applied h1 h2 h3 h4, fun d hr => ⟨_, execDvfsStep_eq h1 h2 h3 h4, ?_⟩⟩,
    fun s => ⟨fun hc hm hp => ?_, fun hc hl => ?_, fun hc hs => ?_, fun hs => ?_⟩⟩
  · obtain ⟨sl, p, er, hrun, hclock, hissue, -⟩ := readStep_frame temps s
    unfold dvfsStep
    rw [er]
    dsimp only
    rw [if_pos (by simp [hrun, hr])]
    exact ⟨rfl, hclock, hissue, rfl, rfl, rfl⟩
  · obtain ⟨C, I, e, hd⟩ := foldl_pointDie (h := fun x c => min c x)
      (u := { s with pmc := { s.pmc with meanDue := false, fPwr := max 512 (s.pmc.fPwr - 64) } }) 19 (by omega)
    have hdue : governorDue s = true := by simp [governorDue, hc, hm, hp]
    refine ⟨_, execPowerGovernor_eq hdue, ?_⟩
    rw [e]
    refine ⟨rfl, rfl, fun d h20 => ?_, rfl, rfl, rfl, rfl, rfl⟩
    obtain ⟨hC, hI⟩ := hd d h20
    refine ⟨Nat.le_trans (Nat.le_of_eq hC) ?_, ?_⟩
    · split
      · exact Nat.min_le_right _ _
      · exact Nat.le_refl _
    · obtain hI | ⟨-, c, hI⟩ := hI
      · exact Nat.le_of_eq hI
      · exact Nat.le_trans (Nat.le_of_eq hI) (Nat.min_le_right _ _)
  · change execPowerLimit s = _
    rw [execPowerLimit, if_pos (by simp [hc, hl])]
  · refine ⟨_, rfl, ?_⟩
    rw [if_neg (by simp [hc, hs])]
    unfold dueSeq
    dsimp only
    rw [raiseEvent_image, raiseEvent_pmc]
    split <;> simp [clkOf]
  · change execSagEnd s = _
    rw [execSagEnd, if_pos hs]

end Sys2Proof.Machine
end

section
/-!
PROOFS. The beat tracker: edges, the end of a boundary's window, and the boundary (R82 to R98, R114, R872).
-/
namespace Sys2Proof.Machine

/-! ### Edges -/

/-- What a lock leaves of the tracker: the correction alone is chosen, and the interval flagged. -/
theorem reacquire_frame (e : Int) (s : State) : ∃ sl st ee ne sd se ss led cnt, reacquire e s = { s with
    tb := { s.tb with slip := sl, stretch := st, epochE := ee, nextEpochE := ne, splitDue := sd, stretchEv := se, splitEv := ss },
    led := led, cnt := cnt } := by
  unfold reacquire stretchEpoch splitEpoch markInterval
  dsimp only
  split
  · exact ⟨_, _, _, _, _, _, _, _, _, rfl⟩
  split
  · split <;> exact ⟨_, _, _, _, _, _, _, _, _, rfl⟩
  split <;> exact ⟨_, _, _, _, _, _, _, _, _, rfl⟩

/-- The tracker after an edge, and nothing else but flags of the open interval. -/
structure EdgeStep (s t : State) : Prop where
  rest : t = { s with tb := t.tb, led := t.led, cnt := t.cnt }
  prevEdge : t.tb.prevEdge = s.tb.prevEdge
  beat : t.tb.beat = s.tb.beat
  tick : t.tb.tick = s.tb.tick

theorem EdgeStep.cmds {s t : State} (h : EdgeStep s t) : t.cmds = s.cmds := by rw [h.rest]

theorem EdgeStep.mem {s t : State} (h : EdgeStep s t) : t.mem = s.mem := by rw [h.rest]

theorem noteEdge_eq (t : Tb) (at_ : Nat) : ∃ l i a b, noteEdge t at_ =
    { t with lockEdges := l, inEdges := i, edgeEarly := a, edgeSeen := b } ∧ (a = true ∨ b = true) := by
  unfold noteEdge
  dsimp only
  split
  · exact ⟨_, _, _, _, rfl, .inl rfl⟩
  · exact ⟨_, _, _, _, rfl, .inr rfl⟩

theorem lockAt_step (at_ : Nat) (s : State) : EdgeStep s (lockAt at_ s) ∧ (lockAt at_ s).tb.trk = .locked ∧
    (lockAt at_ s).tb.neverLocked = false ∧ (lockAt at_ s).tb.run = [] ∧ (lockAt at_ s).tb.edgeSeen = true := by
  unfold lockAt
  dsimp only
  obtain ⟨_, _, _, _, _, _, _, _, _, e⟩ := reacquire_frame (phaseOf s.tb at_) { s with tb := { s.tb with
    trk := .locked, neverLocked := false, target := trackedPeriod s.tb, run := [],
    phase := BitVec.ofInt 32 (phaseOf s.tb at_ / 16), edgeSeen := true,
    edgeEarly := (nearestBoundary s.tb at_).2, holdBeats := 0, lockEdges := 0, inEdges := (at_ :: s.tb.run).take 3 } }
  rw [e]
  exact ⟨⟨rfl, rfl, rfl, rfl⟩, rfl, rfl, rfl, rfl⟩

/-- R87, R114: an edge in ACQUIRE begins a new run, extends the run, or completes it. -/
theorem acquireEdge_cases (at_ : Nat) (period : Bool) (s : State) :
    ((s.tb.run = [] ∨ period = false ∨ runPasses (at_ :: s.tb.run) = false) →
      acquireEdge at_ period s = { s with tb := { s.tb with run := [at_] } }) ∧
    (s.tb.run ≠ [] → period = true → runPasses (at_ :: s.tb.run) = true →
      (s.tb.run.length < 7 → acquireEdge at_ period s = { s with tb := { s.tb with run := at_ :: s.tb.run } }) ∧
      (7 ≤ s.tb.run.length → acquireEdge at_ period s = lockAt at_ s)) := by
  unfold acquireEdge
  dsimp only
  refine ⟨fun h => if_pos ?_, fun h1 h2 h3 => ?_⟩
  · obtain h | h | h := h <;> simp [h]
  · rw [if_neg (by simp [h1, h2, h3])]
    exact ⟨fun h => if_pos (by simpa using by omega), fun h => if_neg (by simpa using by omega)⟩

theorem acquireEdge_step (at_ : Nat) (period : Bool) (s : State) : EdgeStep s (acquireEdge at_ period s) := by
  unfold acquireEdge
  dsimp only
  split
  · exact ⟨rfl, rfl, rfl, rfl⟩
  split
  · exact ⟨rfl, rfl, rfl, rfl⟩
  · exact (lockAt_step at_ s).1

theorem holdoverEdge_step (at_ : Nat) (s : State) : EdgeStep s (holdoverEdge at_ s) := by
  unfold holdoverEdge
  extract_lets t n
  split
  · obtain ⟨_, _, _, _, e, -⟩ := noteEdge_eq { s.tb with trk := .locked, firstEdgeDue := false, holdBeats := 0, edgeSeen := true, lockEdges := 0, inEdges := [] } at_
    rw [e]
    exact ⟨rfl, rfl, rfl, rfl⟩
  · exact ⟨rfl, rfl, rfl, rfl⟩

theorem useEdge_step (at_ : Nat) (period : Bool) (s : State) : EdgeStep s (useEdge at_ period s) := by
  unfold useEdge
  split
  · split
    · obtain ⟨_, _, _, _, e, -⟩ := noteEdge_eq s.tb at_
      rw [e]
      exact ⟨rfl, rfl, rfl, rfl⟩
    · exact ⟨rfl, rfl, rfl, rfl⟩
  · exact holdoverEdge_step at_ s
  · exact acquireEdge_step at_ period s

theorem useEdge_locked {at_ : Nat} {period : Bool} {s : State} (h : s.tb.trk = .locked) : useEdge at_ period s =
    if inWindow s.tb at_ then { s with tb := noteEdge s.tb at_ } else { s with tb := strayEdge s.tb } := by
  simp only [useEdge, h]

theorem useEdge_holdover {at_ : Nat} {period : Bool} {s : State} (h : s.tb.trk = .holdover) :
    useEdge at_ period s = holdoverEdge at_ s := by
  simp only [useEdge, h]

theorem useEdge_acquire {at_ : Nat} {period : Bool} {s : State} (h : s.tb.trk = .acquire) :
    useEdge at_ period s = acquireEdge at_ period s := by
  simp only [useEdge, h]

/-- R83: an edge is used unless it comes too close to the one before it; it ends a period if it comes soon enough. -/
theorem beatEdge_eq (ns : Nat) (s : State) :
    ((∃ p, s.tb.prevEdge = some p ∧ 16 * ns - p < edgeMin) → beatEdge ns s =
      { s with tb := strayEdge { s.tb with prevEdge := some (16 * ns), run := [] } }) ∧
    (¬ (∃ p, s.tb.prevEdge = some p ∧ 16 * ns - p < edgeMin) → ∃ period : Bool,
      beatEdge ns s = useEdge (16 * ns) period { s with tb := { s.tb with prevEdge := some (16 * ns) } } ∧
      (period = true ↔ ∃ p, s.tb.prevEdge = some p ∧ 16 * ns - p ≤ edgeMax)) := by
  unfold beatEdge
  dsimp only
  split
  · rename_i h
    rw [h]
    refine ⟨fun ⟨p, hp, _⟩ => by simp at hp, fun _ => ⟨false, rfl, by simp⟩⟩
  · rename_i p h
    rw [h]
    refine ⟨fun ⟨q, hq, hc⟩ => ?_, fun hn => ⟨decide (16 * ns - p ≤ edgeMax), ?_, by simp⟩⟩
    · cases hq
      rw [if_pos hc]
    · rw [if_neg fun hc => hn ⟨p, rfl, hc⟩]

/-! ### The end of a beat -/

/-- Nothing but the tracker's own numbers, draws and flags changes with the next length. -/
theorem nextStretch_frame (s : State) : ∃ ne st ee se cnt, nextStretch s = { s with cnt := cnt, tb := { s.tb with
    nextEpochE := ne, stretch := st, epochE := ee, stretchEv := se } } := by
  unfold nextStretch
  split
  · split
    · exact ⟨_, _, _, _, _, rfl⟩
    · exact ⟨_, _, _, _, _, rfl⟩
  · exact ⟨_, _, _, _, _, rfl⟩

theorem nextLength_frame (start : Nat) (s : State) : ∃ no ta sl le pa sp st d, nextLength start s = { s with freeCtr := d, tb := { s.tb with
    nominal := no, target := ta, slip := sl, length := le, part := pa, slipped := sp, stretch := st } } := by
  unfold nextLength
  extract_lets t nominal t1
  obtain ⟨no, ta, e⟩ : ∃ no ta, t1 = { s.tb with nominal := no, target := ta } := by
    unfold t1
    split <;> exact ⟨_, _, rfl⟩
  clear_value t1
  subst e
  split
  · exact ⟨_, _, _, _, _, _, _, _, rfl⟩
  · split <;> exact ⟨_, _, _, _, _, _, _, _, rfl⟩

theorem le_boundLength (p l : Nat) : p - p / 100 ≤ boundLength p l := Nat.le_max_left _ _

theorem boundLength_le (p l : Nat) : boundLength p l ≤ p + p / 100 :=
  Nat.max_le.2 ⟨by omega, Nat.min_le_left _ _⟩

/-- The length of a beat that begins once a locked period is known (R84, R95, R96, R872). -/
theorem nextLength_length (start : Nat) {s : State} (hn : s.tb.neverLocked = false) :
    (∀ e, s.tb.slip = some e → (nextLength start s).tb.length = (s.tb.target + e).toNat ∧ (nextLength start s).tb.slip = none) ∧
    (s.tb.slip = none → s.tb.trk = .locked → (∃ l, (nextLength start s).tb.length = boundLength (lengthBefore s.tb) l) ∧
      (s.tb.stretch.2 = 0 → (nextLength start s).tb.target = (nextLength start s).tb.length)) ∧
    (s.tb.slip = none → s.tb.trk ≠ .locked → (nextLength start s).tb.length = s.tb.target) := by
  unfold nextLength trackedPeriod
  simp only [hn, Bool.false_eq_true, if_false]
  refine ⟨fun e he => ?_, fun he ht => ?_, fun he ht => ?_⟩
  · simp [he]
  · simp only [he, ht]
    refine ⟨⟨_, rfl⟩, fun hs => ?_⟩
    simp [drew, hs]
  · simp only [he]
    rw [if_neg (by simpa using ht)]

/-- Cutting the accounts of an epoch changes commands, the ledger and draws. -/
theorem takeCut_frame (s : State) : ∃ cmds led d, takeCut s = { s with cmds := cmds, led := led, freeCtr := d } := by
  have hcut (u : Nat) (s : State) : ∃ cmds d, cutCmd u s = { s with cmds := cmds, freeCtr := d } := by
    unfold cutCmd
    split <;> exact ⟨_, _, rfl⟩
  have hfold (l : List Cmd) : ∀ s : State, ∃ cmds d, l.foldl (fun s c => cutCmd c.uid s) s = { s with cmds := cmds, freeCtr := d } := by
    induction l with
    | nil => exact fun s => ⟨_, _, rfl⟩
    | cons c l ih =>
      intro s
      obtain ⟨_, _, e⟩ := hcut c.uid s
      obtain ⟨_, _, e'⟩ := ih (cutCmd c.uid s)
      rw [List.foldl_cons, e', e]
      exact ⟨_, _, rfl⟩
  obtain ⟨_, _, e⟩ := hfold (openCmds s) s
  unfold takeCut cutAll
  rw [e]
  exact ⟨_, _, _, rfl⟩

theorem stageHead_frame (s : State) : ∃ cfg jr, stageHead s = { s with cfg := cfg, jr := jr } := by
  unfold stageHead
  split
  · exact ⟨_, _, rfl⟩
  split
  · exact ⟨_, _, rfl⟩
  · rw [jAdd_frame]
    exact ⟨_, _, rfl⟩

theorem retimeHead_frame (s : State) : ∃ cfg jr, retimeHead s = { s with cfg := cfg, jr := jr } := by
  unfold retimeHead
  split
  · obtain ⟨_, _, e⟩ := stageHead_frame (onHead (fun ch => { ch with flipAt := none, stepDone := true }) s)
    rw [e]
    exact ⟨_, _, rfl⟩
  · exact ⟨_, _, rfl⟩

theorem cutLoads_frame (s : State) : ∃ cfg sl st, cutLoads s = { s with cfg := cfg, slices := sl, stolon := st } := by
  unfold cutLoads
  dsimp only
  split <;> exact ⟨_, _, _, rfl⟩

/-- Tracker, memory, device state and cores are the same. -/
structure SameBeat (s t : State) : Prop where
  tb : t.tb = s.tb
  mem : t.mem = s.mem
  sys : t.sys = s.sys
  cores : t.cores = s.cores

theorem SameBeat.trans {a b c : State} (h1 : SameBeat a b) (h2 : SameBeat b c) : SameBeat a c :=
  ⟨h2.tb.trans h1.tb, h2.mem.trans h1.mem, h2.sys.trans h1.sys, h2.cores.trans h1.cores⟩

/-- What follows the new beat's length at a boundary cuts what counts by beats, and leaves the tracker. -/
theorem cuts_sameBeat (b : Bool) (s : State) : SameBeat s (newBeatCounts (tickEdge (cutLoads (if b then takeCut s else s)))) := by
  have h1 : SameBeat s (if b then takeCut s else s) := by
    split
    · obtain ⟨_, _, _, e⟩ := takeCut_frame s
      rw [e]
      exact ⟨rfl, rfl, rfl, rfl⟩
    · exact ⟨rfl, rfl, rfl, rfl⟩
  generalize (if b then takeCut s else s) = s1 at h1
  obtain ⟨_, _, _, e2⟩ := cutLoads_frame s1
  obtain ⟨_, _, _, _, _, _, e3⟩ := tickEdge_frame (cutLoads s1)
  refine h1.trans ?_
  rw [e3, e2]
  exact ⟨rfl, rfl, rfl, rfl⟩

/-- The tracker after a boundary (R85): what the next length leaves, with the new beat begun. -/
theorem beatBoundary_tb (s : State) :
    (∃ u, u = (nextLength (s.tb.start + s.tb.length) (nextStretch s)).tb ∧ (beatBoundary s).tb = { u with
      start := s.tb.start + s.tb.length, beat := s.tb.beat + 1, tick := 0, held := s.tb.trk != .locked,
      edgeSeen := s.tb.edgeEarly, edgeEarly := false,
      holdBeats := if s.tb.trk == .holdover then s.tb.holdBeats + 1 else s.tb.holdBeats,
      history := ({ beat := s.tb.beat + 1, start := s.tb.start + s.tb.length } :: s.tb.history).take 64,
      period := BitVec.ofNat 32 u.length }) ∧
    (beatBoundary s).mem = s.mem ∧ (beatBoundary s).sys = s.sys ∧ (beatBoundary s).cores = s.cores := by
  obtain ⟨_, _, _, _, _, e1⟩ := nextStretch_frame s
  obtain ⟨_, _, _, _, _, _, _, _, e2⟩ := nextLength_frame (s.tb.start + s.tb.length) (nextStretch s)
  have hmark (c : Prop) [Decidable c] (s : State) : SameBeat s (if c then s else markOpen s) := by
    split <;> exact ⟨rfl, rfl, rfl, rfl⟩
  have hretime (b : Bool) (s : State) : SameBeat s (if b then retimeHead s else s) := by
    split
    · obtain ⟨_, _, e⟩ := retimeHead_frame s
      rw [e]
      exact ⟨rfl, rfl, rfl, rfl⟩
    · exact ⟨rfl, rfl, rfl, rfl⟩
  unfold beatBoundary
  extract_lets t start s1 tb2 led2 cnt2 s2 s3 cfg4 s4 s5
  have h23 : SameBeat s2 s3 := hmark ..
  have h34 : SameBeat s3 s4 := ⟨rfl, rfl, rfl, rfl⟩
  have h45 : SameBeat s4 s5 := hretime ..
  have h := ((h23.trans h34).trans h45).trans (cuts_sameBeat (epochDue s5 && s5.led.cut.isNone) s5)
  have hs1 : s1.mem = s.mem ∧ s1.sys = s.sys ∧ s1.cores = s.cores := by
    unfold s1 start t
    rw [e2, e1]
    exact ⟨rfl, rfl, rfl⟩
  exact ⟨⟨_, rfl, h.tb⟩, h.mem.trans hs1.1, h.sys.trans hs1.2.1, h.cores.trans hs1.2.2⟩

/-- R85, R872: the boundary begins the next beat, of the length that `nextLength` fixes. -/
theorem execBeatBoundary_spec {s : State} (hc : s.sys.state ≠ .cold) (ht : s.tb.tick = 0xFFFF) :
    ∃ t, exec .beatBoundary s = .next t ∧ t.tb.beat = s.tb.beat + 1 ∧ t.tb.tick = 0 ∧
      t.tb.start = s.tb.start + s.tb.length ∧ t.tb.trk = s.tb.trk ∧ t.tb.period = BitVec.ofNat 32 t.tb.length ∧
      t.mem = s.mem ∧ t.sys = s.sys ∧ t.cores = s.cores ∧
      (let p := lengthBefore s.tb
       s.tb.trk = .locked → s.tb.neverLocked = false → s.tb.slip = none →
        p - p / 100 ≤ t.tb.length ∧ t.tb.length ≤ p + p / 100 ∧
        (s.tb.stretch.2 = 0 → s.tb.nextEpochE = none → t.tb.target = t.tb.length)) ∧
      (s.tb.trk ≠ .locked → s.tb.neverLocked = false → s.tb.slip = none → s.tb.stretch.2 = 0 → s.tb.nextEpochE = none →
        t.tb.length = s.tb.target) ∧
      (∀ e, s.tb.neverLocked = false → s.tb.slip = some e → t.tb.length = (s.tb.target + e).toNat ∧ t.tb.slip = none) := by
  obtain ⟨⟨u, hu, htb⟩, hmem, hsys, hcores⟩ := beatBoundary_tb s
  obtain ⟨ne, st, ee, se, cnt, e1⟩ := nextStretch_frame s
  have hlen := nextLength_length (s.tb.start + s.tb.length) (s := nextStretch s)
  obtain ⟨_, _, _, _, _, _, _, _, e2⟩ := nextLength_frame (s.tb.start + s.tb.length) (nextStretch s)
  have hstill : s.tb.nextEpochE = none → nextStretch s = s := fun h => by simp only [nextStretch, h]
  rw [← hu] at hlen
  have hutrk : u.trk = s.tb.trk := by rw [hu, e2, e1]
  refine ⟨_, by
    change execBeatBoundary s = _
    rw [execBeatBoundary, if_pos (by simp [hc, ht])], ?_⟩
  rw [htb]
  refine ⟨rfl, rfl, rfl, hutrk, rfl, hmem, hsys, hcores, fun hl hn hs => ?_, fun hl hn hs _ _ => ?_, fun e hn hs => ?_⟩
  · obtain ⟨-, hlocked, -⟩ := hlen (by rw [e1]; exact hn)
    obtain ⟨⟨l, hl'⟩, htarget⟩ := hlocked (by rw [e1]; exact hs) (by rw [e1]; exact hl)
    have hbefore : lengthBefore (nextStretch s).tb = lengthBefore s.tb := by rw [e1]; rfl
    rw [hbefore] at hl'
    dsimp only
    refine ⟨hl' ▸ le_boundLength _ _, hl' ▸ boundLength_le _ _, fun h0 hx => htarget ?_⟩
    rw [hstill hx]
    exact h0
  · exact ((hlen (by rw [e1]; exact hn)).2.2 (by rw [e1]; exact hs) (by rw [e1]; exact hl)).trans (by rw [e1])
  · obtain ⟨h1, h2⟩ := (hlen (by rw [e1]; exact hn)).1 e (by rw [e1]; exact hs)
    exact ⟨h1.trans (by rw [e1]), h2⟩

/-- R92: the end of a boundary's window without an edge. -/
theorem execHoldoverEntry_spec {s : State} (h : beatLost s = true) :
    ∃ t, exec .holdoverEntry s = .next t ∧ t.tb.trk = .holdover ∧ t.tb.holdEv = true ∧ t.tb.holdBeats = 1 ∧ t.tb.run = [] ∧
      t.tb.beat = s.tb.beat ∧ t.tb.tick = s.tb.tick ∧ t.tb.target = s.tb.target ∧ t.cmds = s.cmds ∧ t.mem = s.mem ∧
      t.sys = s.sys := by
  refine ⟨_, rfl, ?_⟩
  rw [if_pos h]
  simp [markWindow, markInterval]

/-- R83, R87, R88, R93, R114: what an edge that is due does, by its distance from the one before it and the tracker's state. -/
theorem beatEdge_spec {ns : Nat} {s t : State} (hedge : beatEdge ns s = t) :
    let a := 16 * ns
    let close : Prop := ∃ p, s.tb.prevEdge = some p ∧ a - p < edgeMin
    let period : Prop := ∃ p, s.tb.prevEdge = some p ∧ a - p ≤ edgeMax
    t.tb.prevEdge = some a ∧ t.tb.beat = s.tb.beat ∧ t.tb.tick = s.tb.tick ∧ t.cmds = s.cmds ∧ t.mem = s.mem ∧
    (close → t.tb.stray = sat16 s.tb.stray ∧ t.tb.run = [] ∧ t.tb.trk = s.tb.trk) ∧
    (¬ close → s.tb.trk = .locked → inWindow s.tb a = true → t.tb.trk = .locked ∧ t.tb.stray = s.tb.stray ∧
      (t.tb.edgeSeen = true ∨ t.tb.edgeEarly = true)) ∧
    (¬ close → s.tb.trk = .locked → inWindow s.tb a = false → t.tb.trk = .locked ∧ t.tb.stray = sat16 s.tb.stray ∧
      t.tb.edgeSeen = s.tb.edgeSeen ∧ t.tb.edgeEarly = s.tb.edgeEarly) ∧
    (¬ close → s.tb.trk = .holdover → s.tb.neverLocked = true → t.tb.trk = .acquire ∧ t.tb.run = [a]) ∧
    (¬ close → s.tb.trk = .acquire → (s.tb.run = [] ∨ ¬ period ∨ runPasses (a :: s.tb.run) = false) →
      t.tb.trk = .acquire ∧ t.tb.run = [a]) ∧
    (¬ close → s.tb.trk = .acquire → s.tb.run ≠ [] → period → runPasses (a :: s.tb.run) = true → s.tb.run.length < 7 →
      t.tb.trk = .acquire ∧ t.tb.run = a :: s.tb.run) ∧
    (¬ close → s.tb.trk = .acquire → period → runPasses (a :: s.tb.run) = true → 7 ≤ s.tb.run.length →
      t.tb.trk = .locked ∧ t.tb.neverLocked = false ∧ t.tb.run = [] ∧ t.tb.edgeSeen = true) := by
  intro a close period
  obtain ⟨hclose, huse⟩ := beatEdge_eq ns s
  rw [hedge] at hclose huse
  by_cases hc : close
  · have ht : t = { s with tb := strayEdge { s.tb with prevEdge := some (16 * ns), run := [] } } := hclose hc
    rw [ht]
    exact ⟨rfl, rfl, rfl, rfl, rfl, fun _ => ⟨rfl, rfl, rfl⟩, fun h => absurd hc h, fun h => absurd hc h, fun h => absurd hc h,
      fun h => absurd hc h, fun h => absurd hc h, fun h => absurd hc h⟩
  obtain ⟨b, ht, hb⟩ := huse hc
  have hstep := useEdge_step a b { s with tb := { s.tb with prevEdge := some a } }
  rw [← ht] at hstep
  obtain ⟨hnew, hlong⟩ := acquireEdge_cases a b { s with tb := { s.tb with prevEdge := some a } }
  refine ⟨hstep.prevEdge, hstep.beat, hstep.tick, hstep.cmds, hstep.mem, fun h => absurd h hc,
    fun _ hl hw => ?_, fun _ hl hw => ?_, fun _ hl hn => ?_, fun _ hl hr => ?_, fun _ hl hr hp hq hlen => ?_,
    fun _ hl hp hq hlen => ?_⟩
  · obtain ⟨_, _, _, _, e, hor⟩ := noteEdge_eq { s.tb with prevEdge := some a } a
    rw [ht.trans ((useEdge_locked (s := { s with tb := { s.tb with prevEdge := some a } }) hl).trans (if_pos hw)), e]
    exact ⟨hl, rfl, hor.symm⟩
  · rw [ht.trans ((useEdge_locked (s := { s with tb := { s.tb with prevEdge := some a } }) hl).trans
      (if_neg (ne_true_of_eq_false hw)))]
    exact ⟨hl, rfl, rfl, rfl⟩
  · rw [ht.trans (useEdge_holdover (s := { s with tb := { s.tb with prevEdge := some a } }) hl), holdoverEdge]
    simp [hn, a]
  all_goals have hacq := ht.trans (useEdge_acquire (s := { s with tb := { s.tb with prevEdge := some a } }) hl)
  · rw [hacq, hnew (hr.imp_right (Or.imp_left fun h => by simpa using fun hb' => h (hb.1 hb')))]
    exact ⟨hl, rfl⟩
  · rw [hacq, (hlong hr (hb.2 hp) hq).1 hlen]
    exact ⟨hl, rfl⟩
  · have hne : s.tb.run ≠ [] := by
      intro h
      simp [h] at hlen
    rw [hacq, (hlong hne (hb.2 hp) hq).2 hlen]
    exact (lockAt_step a _).2

/-- Settles O14: by what an edge does, the end of a window, and the boundary. -/
theorem beatsAreTracked : Obligations.BeatsAreTracked := by
  unfold Obligations.BeatsAreTracked
  refine ⟨fun s ns h => ⟨beatEdge ns s, ?_, beatEdge_spec rfl⟩, fun s => ⟨fun hl he hw => ?_, execBeatBoundary_spec⟩⟩
  · change execBeatEdge ns s = _
    rw [execBeatEdge, if_pos h]
  · exact execHoldoverEntry_spec (by simpa [beatLost, hl, he] using hw)

end Sys2Proof.Machine
end

section
/-!
PROOFS. Operations of a bundle that leave one result, and the next bundle (sections 12.3 to 12.5): an operation is found in its
bundle by its slot, its result joins those that wait, and lands once its cycle comes.
-/
namespace Sys2Proof.Machine

/-! ### The class of an operation by its slot (Table 12-2) -/

theorem cls_of_int {o : Op} {slot : Fin 2} (hs : o.slot = slot.val + 1) (hc : o.code ≠ 0) : o.cls = .int := by
  have hn := slot.isLt
  obtain h | h : o.slot = 1 ∨ o.slot = 2 := by omega
  all_goals simp [Op.cls, h, hc]

theorem cls_of_mem {o : Op} {slot : Fin 2} (hs : o.slot = slot.val + 3) (hc : o.code ≠ 0) : o.cls = .mem := by
  have hn := slot.isLt
  obtain h | h : o.slot = 3 ∨ o.slot = 4 := by omega
  all_goals simp [Op.cls, h, hc]

theorem cls_of_vec {o : Op} {slot : Fin 2} (hs : o.slot = slot.val + 5) (hc : o.code ≠ 0) (hv : o.code < 0x80) : o.cls = .vec := by
  have hn := slot.isLt
  obtain h | h : o.slot = 5 ∨ o.slot = 6 := by omega
  · simp [Op.cls, h, hc]
  · have h86 : o.code ≠ 0x86 := by omega
    simp [Op.cls, h, hc, h86, hv]

/-! ### Results of INT, VEC and MEM operations -/

/-- The value that an INT operation leaves (Table 12-5). -/
def intGives (K : Core) (o : Op) : BitVec 64 :=
  if o.code = 0x0D then BitVec.ofInt 64 (o.signed 27) else intValue o.code (rdG K o.a) (intB K o)

theorem intEffect_eq (k : Nat) (K : Core) (o : Op) (s : State) :
    intEffect k K o s = resultG k K o.d (intGives K o) (if o.code = 9 then 3 else 1) s := by
  unfold intEffect intGives
  by_cases h : o.code = 0x0D
  · simp [h]
  · simp only [h, if_false]

theorem intGives_of {K : Core} {o : Op} {m : Nat} (h : o.code = m) (hm : m ≠ 0x0D) :
    intGives K o = intValue m (rdG K o.a) (intB K o) := by
  rw [intGives, h, if_neg hm]

/-- An INT operation of an issuing bundle: its result lands. -/
theorem int_lands {s : State} {k : Nat} {slot : Fin 2} {c : Cmd} {ops : List Op} {o : Op} {m : Nat}
    (hi : Issuing s k c ops) (hg : goesOn ops = true) (ho : o ∈ ops) (hs : o.slot = slot.val + 1) (hm : o.code = m)
    (hr : 1 ≤ m ∧ m ≤ 0x0D)
    (hq : SettledBy (vat s.cores k) (.g o.d) ((vat s.cores k).cycles + if m = 9 then 3 else 1)) :
    LandsG (issueOp .int m (slot.val + 1) k s) k o.d (intGives (vat s.cores k) o)
      ((vat s.cores k).cycles + if m = 9 then 3 else 1) := by
  have hc : o.cls = .int := cls_of_int hs (by omega)
  refine issueOp_landsG hi hg ho hs hc hm (by decide) (fun hd => ?_) hq fun pre post s1 _ _ _ _ hd => ?_
  · rw [writes_int hc (hm ▸ hr.2)]
    exact mem_gName hd
  · have he : opIn c ops k s s1 o = intEffect k (vat s.cores k) o s1 := by simp only [opIn, opEffect, hc]
    rw [he, intEffect_eq, resultG_pend hd, hm]

/-- Settles O45: one operation for every code, its value read off Table 12-5. -/
theorem intOperationsWriteTheirResult : Obligations.IntOperationsWriteTheirResult := by
  unfold Obligations.IntOperationsWriteTheirResult
  intro s k slot c ops o hi hg ho hs K a b n gives
  have lands {m : Nat} {i : Instr} {v : BitVec 64} (hm : o.code = m) (hr : 1 ≤ m ∧ m ≤ 0x0D)
      (he : exec i s = .next (issueOp .int m (slot.val + 1) k.val s)) (hv : intGives K o = v) :
      gives i v (if m = 9 then 3 else 1) :=
    ⟨_, he, fun hq => hv ▸ int_lands hi hg ho hs hm hr hq⟩
  have value {m : Nat} (hm : o.code = m) (h : m ≠ 0x0D) : intGives K o = intValue m a b := intGives_of hm h
  refine ⟨fun h => lands h (by decide) rfl (value h (by decide)), fun h => lands h (by decide) rfl (value h (by decide)),
    fun h => lands h (by decide) rfl (value h (by decide)), fun h => lands h (by decide) rfl (value h (by decide)),
    fun h => lands h (by decide) rfl (value h (by decide)), fun h => lands h (by decide) rfl (value h (by decide)),
    fun h => lands h (by decide) rfl (value h (by decide)), fun h => lands h (by decide) rfl (value h (by decide)),
    fun h => lands h (by decide) rfl (value h (by decide)), fun h => lands h (by decide) rfl (value h (by decide)),
    fun h => lands h (by decide) rfl ((value h (by decide)).trans ?_),
    fun h => lands h (by decide) rfl ((value h (by decide)).trans ?_),
    fun h => lands h (by decide) rfl (if_pos h)⟩
  · simp only [intValue, BitVec.slt_iff_toInt_lt]
  · simp only [intValue, BitVec.ult_iff_toNat_lt]

/-! ### What a device address reads -/

/-- Device addresses read the same while memory does, and the core's work changes nothing else that they show. -/
theorem CoreStep.daRead {k : Nat} {s t : State} (h : CoreStep k s t) (hm : t.mem = s.mem) :
    ∀ (n a : Nat), daRead t a n = daRead s a n
  | 0, _ => rfl
  | n + 1, a => by
    have hb : daByte t a = daByte s a := by
      rw [h.rest, hm]
      rfl
    exact congrArg₂ List.cons hb (CoreStep.daRead h hm n (a + 1))

/-- The state in which a MEM operation of a bundle acts: what stands before it writes no memory at once. -/
theorem before_mem {s s1 : State} {k : Nat} {c : Cmd} {ops pre post : List Op} {o : Op} (hi : Issuing s k c ops)
    (e : ops = pre ++ o :: post) (hs : o.slot < 6) (hm : (∀ x ∈ pre, x.is .acc 0x84 = false) → s1.mem = s.mem) : s1.mem = s.mem :=
  hm fun x hx => notSave_of_slot ((slots_lower hi e).2 x hx |>.trans hs)

/-- A load of an issuing bundle into a general register. -/
theorem load_lands {s : State} {k : Nat} {slot : Fin 2} {c : Cmd} {ops : List Op} {o : Op} {m n : Nat}
    (hi : Issuing s k c ops) (hg : goesOn ops = true) (ho : o ∈ ops) (hs : o.slot = slot.val + 3) (hm : o.code = m)
    (hr : 1 ≤ m ∧ m ≤ 4) (hn : memSize m = n)
    (hq : SettledBy (vat s.cores k) (.g o.d) ((vat s.cores k).cycles + 6)) :
    LandsG (issueOp .mem m (slot.val + 3) k s) k o.d
      (BitVec.ofNat 64 (leNat (daRead s (memAddr (vat s.cores k) o) n))) ((vat s.cores k).cycles + 6) := by
  have hc : o.cls = .mem := cls_of_mem hs (by omega)
  have h4 : o.code ≤ 4 := hm ▸ hr.2
  refine issueOp_landsG hi hg ho hs hc hm (by decide) (fun hd => ?_) hq fun pre post s1 e h1 _ h2 hd => ?_
  · rw [writes_mem hc, if_neg (by omega), if_pos h4]
    exact mem_gName hd
  · have hmem := before_mem hi e (by omega) h2
    have hch := memCharge (c := c) (o := o) (a := memAddr (vat s.cores k) o) (n := memSize o.code) (s := s1)
    have hrd := (h1.trans (hch.step (ns := [])).toCoreStep).daRead (hch.mem.trans hmem)
    have he : opIn c ops k s s1 o = memEffect c k (vat s.cores k) o s1 := by simp only [opIn, opEffect, hc]
    rw [he]
    simp only [memEffect, if_pos h4]
    rw [resultG_pend hd, hch.cores, hrd, hm, hn]

/-- LDV of an issuing bundle. -/
theorem loadVector_lands {s : State} {k : Nat} {slot : Fin 2} {c : Cmd} {ops : List Op} {o : Op}
    (hi : Issuing s k c ops) (hg : goesOn ops = true) (ho : o ∈ ops) (hs : o.slot = slot.val + 3) (hm : o.code = 5)
    (hq : SettledBy (vat s.cores k) (.v (o.d % 32)) ((vat s.cores k).cycles + 8)) :
    Lands (issueOp .mem 5 (slot.val + 3) k s) k (.v (o.d % 32))
      (BitVec.ofNat 512 (leNat (daRead s (memAddr (vat s.cores k) o) 64))) ((vat s.cores k).cycles + 8) := by
  have hc : o.cls = .mem := cls_of_mem hs (by omega)
  refine issueOp_lands (e := ⟨.v (o.d % 32), BitVec.ofNat 512 (leNat (daRead s (memAddr (vat s.cores k) o) 64)), _⟩)
    hi hg ho hs hc hm (by decide) (decide_eq_true (mod32_lt _)) ?_
    (by simp) hq fun pre post s1 e h1 _ h2 => ?_
  · rw [writes_mem hc, if_pos hm]
    exact List.mem_singleton.2 rfl
  · have hmem := before_mem hi e (by omega) h2
    have hch := memCharge (c := c) (o := o) (a := memAddr (vat s.cores k) o) (n := memSize o.code) (s := s1)
    have hrd := (h1.trans (hch.step (ns := [])).toCoreStep).daRead (hch.mem.trans hmem)
    have he : opIn c ops k s s1 o = memEffect c k (vat s.cores k) o s1 := by simp only [opIn, opEffect, hc]
    have h4 : ¬ o.code ≤ 4 := by omega
    rw [he]
    simp only [memEffect, if_neg h4, if_pos hm]
    rw [result_pend, hch.cores, hrd]

/-- Settles O46: a load into a general register for each length, and LDV. -/
theorem loadsReadTheCrib : Obligations.LoadsReadTheCrib := by
  unfold Obligations.LoadsReadTheCrib
  intro s k slot c ops o hi hg ho hs K a reads
  have lands {m n : Nat} {i : Instr} (hm : o.code = m) (hr : 1 ≤ m ∧ m ≤ 4) (hn : memSize m = n)
      (he : exec i s = .next (issueOp .mem m (slot.val + 3) k.val s)) : reads i n :=
    ⟨_, he, fun hq => load_lands hi hg ho hs hm hr hn hq⟩
  exact ⟨fun h => lands h (by decide) rfl rfl, fun h => lands h (by decide) rfl rfl, fun h => lands h (by decide) rfl rfl,
    fun h => lands h (by decide) rfl rfl, fun h => ⟨_, rfl, fun hq => loadVector_lands hi hg ho hs h hq⟩⟩

/-! ### VEC operations -/

/-- The value that a VEC operation on lanes of type `ty` leaves, VEXT apart (Table 12-7). -/
def vecGives (s : State) (K : Core) (o : Op) (ty : VType) (m : Nat) : V512 :=
  vecValue (special s) m ty ((vtypeOf (bits o.w 29 3)).getD .i8) (rdV K o.a) (rdV K o.b) (rdV K o.d) (rdG K o.a)

/-- A VEC operation of an issuing bundle, VEXT apart: its result lands in its vector register. -/
theorem vec_lands {s : State} {k : Nat} {slot : Fin 2} {c : Cmd} {ops : List Op} {o : Op} {ty : VType} {m : Nat}
    (hi : Issuing s k c ops) (hg : goesOn ops = true) (ho : o ∈ ops) (hs : o.slot = slot.val + 5)
    (hty : vtypeOf (bits o.w 26 3) = some ty) (hm : o.code = m) (hr : 1 ≤ m ∧ m ≤ 0x12) (hx : m ≠ 0x0F)
    (hq : SettledBy (vat s.cores k) (.v (o.d % 32)) ((vat s.cores k).cycles + vecLatency m ty)) :
    Lands (issueOp .vec m (slot.val + 5) k s) k (.v (o.d % 32)) (vecGives s (vat s.cores k) o ty m)
      ((vat s.cores k).cycles + vecLatency m ty) := by
  have hc : o.cls = .vec := cls_of_vec hs (by omega) (by omega)
  have hx' : o.code ≠ 0x0F := hm ▸ hx
  refine issueOp_lands (e := ⟨.v (o.d % 32), vecGives s (vat s.cores k) o ty m, _⟩) hi hg ho hs hc hm (by decide)
    (decide_eq_true (mod32_lt _)) ?_ (by simp) hq fun pre post s1 _ h1 _ _ => ?_
  · rw [writes_vec hc (by omega), if_neg hx']
    exact List.mem_singleton.2 rfl
  · have he : opIn c ops k s s1 o = vecEffect k (vat s.cores k) o s1 := by simp only [opIn, opEffect, hc]
    have hsp : special s1 = special s := by
      rw [h1.rest]
      rfl
    rw [he]
    simp only [vecEffect, if_neg hx', hty, Option.getD_some]
    rw [result_pend, hsp, hm]
    rfl

/-- VEXT of an issuing bundle. -/
theorem vext_lands {s : State} {k : Nat} {slot : Fin 2} {c : Cmd} {ops : List Op} {o : Op} {ty : VType}
    (hi : Issuing s k c ops) (hg : goesOn ops = true) (ho : o ∈ ops) (hs : o.slot = slot.val + 5)
    (hty : vtypeOf (bits o.w 26 3) = some ty) (hm : o.code = 0x0F)
    (hq : SettledBy (vat s.cores k) (.g o.d) ((vat s.cores k).cycles + 2)) :
    LandsG (issueOp .vec 0x0F (slot.val + 5) k s) k o.d (vExt ty (rdV (vat s.cores k) o.a) (bits o.w 32 6))
      ((vat s.cores k).cycles + 2) := by
  have hc : o.cls = .vec := cls_of_vec hs (by omega) (by omega)
  refine issueOp_landsG hi hg ho hs hc hm (by decide) (fun hd => ?_) hq fun pre post s1 _ _ _ _ hd => ?_
  · rw [writes_vec hc (by omega), if_pos hm]
    exact mem_gName hd
  · have he : opIn c ops k s s1 o = vecEffect k (vat s.cores k) o s1 := by simp only [opIn, opEffect, hc]
    rw [he]
    simp only [vecEffect, if_pos hm, hty, Option.getD_some]
    exact resultG_pend hd

/-- Settles O48: one operation for every code, its value and its latency read off Table 12-7. -/
theorem vectorOperationsWriteTheirResult : Obligations.VectorOperationsWriteTheirResult := by
  unfold Obligations.VectorOperationsWriteTheirResult
  intro s k slot c ops o ty hi hg ho hs hty K sp a b d fl gives
  have lands {m : Nat} {i : Instr} {v : V512} (hm : o.code = m) (hr : (1 ≤ m ∧ m ≤ 0x12) ∧ m ≠ 0x0F)
      (he : exec i s = .next (issueOp .vec m (slot.val + 5) k.val s))
      (hv : vecGives s K o ty m = v) : gives i v (vecLatency m ty) :=
    ⟨_, he, fun hq => hv ▸ vec_lands hi hg ho hs hty hm hr.1 hr.2 hq⟩
  refine ⟨fun h => lands h (by decide) rfl rfl, fun h => lands h (by decide) rfl rfl, fun h => lands h (by decide) rfl rfl,
    fun h => lands h (by decide) rfl rfl, fun h => lands h (by decide) rfl rfl, fun h => lands h (by decide) rfl rfl,
    fun h => lands h (by decide) rfl rfl, fun h => lands h (by decide) rfl rfl, fun h => lands h (by decide) rfl rfl,
    fun h to_ hto => lands h (by decide) rfl ?_, fun h => lands h (by decide) rfl rfl, fun h => lands h (by decide) rfl rfl,
    fun h => lands h (by decide) rfl rfl, fun h => lands h (by decide) rfl rfl,
    fun h => ⟨_, rfl, fun hq => vext_lands hi hg ho hs hty h hq⟩, fun h => lands h (by decide) rfl rfl,
    fun h => lands h (by decide) rfl rfl, fun h => lands h (by decide) rfl rfl⟩
  rw [vecGives, hto]
  rfl

end Sys2Proof.Machine
end

section
/-!
PROOFS. The next bundle of a core (section 12.5): branches, loops, LOOP and the frame of a bundle, from the core that a bundle
leaves behind.
-/
namespace Sys2Proof.Machine

/-! ### Rows and their operations -/

/-- A row of chapter 12 issues the bundle that holds its operation. -/
theorem exec_of_coreRow {i : Instr} {k : Nat} {cls : OpClass} {code slot : Nat} (h : coreRow i = some (k, cls, code, slot))
    (s : State) : exec i s = .next (issueOp cls code slot k s) := by
  unfold coreRow at h
  split at h
  all_goals cases h <;> rfl

/-- What a row does where its core issues a bundle that holds its operation and goes on. -/
theorem exec_issues {s : State} {i : Instr} {k : Nat} {c : Cmd} {ops : List Op} {o : Op} (hi : Issuing s k c ops)
    (hg : goesOn ops = true) (ho : o ∈ ops) (hn : o.cls ≠ .nop) (hr : coreRow i = some (k, o.cls, o.code, o.slot)) :
    exec i s = .next (issueBundle c ops k s) := by
  rw [exec_of_coreRow hr, issueOp_eq hi ho hn, settleDrain_goesOn hi hg]

/-! ### Control operations in their bundle -/

/-- A CTL operation is the only one of its bundle. -/
theorem ctl_unique {s : State} {k : Nat} {c : Cmd} {ops : List Op} {o x : Op} (hi : Issuing s k c ops) (ho : o ∈ ops)
    (hc : o.cls = .ctl) (hx : x ∈ ops) (hxc : x.cls = .ctl) : x = o := by
  obtain ⟨post, e, hp⟩ := slot0_first hi ho (ctl_slot hc)
  rw [e] at hx
  obtain rfl | hx := List.mem_cons.1 hx
  · rfl
  · exact absurd (ctl_slot hxc) (Nat.pos_iff_ne_zero.1 (hp x hx))

/-- A bundle with a control transfer: no branch waits for its delay bundle, and no loop ends here or behind it (R449). -/
theorem transfer_alone {s : State} {k : Nat} {c : Cmd} {ops : List Op} {o : Op} (hi : Issuing s k c ops) (ho : o ∈ ops)
    (ht : o.transfers = true) : (vat s.cores k).branch = none ∧ endsLoop (vat s.cores k) (vat s.cores k).pc = false := by
  have hb := (illegalBundle_of hi.2.2.1).1
  have hx : ops.any (·.transfers) = true := List.any_eq_true.2 ⟨o, ho, ht⟩
  simp only [illegalBundle, hx, Bool.true_and, Bool.or_eq_false_iff] at hb
  obtain ⟨⟨⟨_, hbr⟩, hloop, _⟩, _⟩ := hb
  exact ⟨by simpa using hbr, hloop⟩

theorem short_of_code {o : Op} (hc : o.cls = .ctl) (h : o.code < 0x10) : o.isLong = false := by
  have h10 : ¬ 0x10 ≤ o.code := by omega
  simp [Op.isLong, Op.is, hc, h10]

/-- Without RTE the target of RTE plays no part. -/
theorem rteTarget_of {s : State} {K0 K : Core} {ops : List Op} (h : ops.any (fun o => o.is .ctl 0x0A) = false) :
    rteTarget s K0 ops K = K := by
  simp only [rteTarget, h, Bool.false_eq_true, if_false]

/-! ### Branches (R458) -/

/-- A branch opens its delay bundle. -/
theorem nextPc_branch {K0 K : Core} {ops post : List Op} {o : Op} {t : Nat} (hb : K0.branch = none) (e : ops = o :: post)
    (ht : branchTarget K0 o = some t) : nextPc K0 ops K = { K with pc := K0.pc + 1, branch := some (K0.pc, t) } := by
  have hh : (ops.filterMap (branchTarget K0)).head? = some t := by
    rw [e, List.filterMap_cons_some ht]
    rfl
  simp only [nextPc, hb, hh]

theorem branchTarget_code {K : Core} {o : Op} {t : Nat} (h : branchTarget K o = some t) :
    o.cls = .ctl ∧ 1 ≤ o.code ∧ o.code ≤ 5 := by
  unfold branchTarget at h
  by_cases hc : o.cls = .ctl
  · simp only [hc, bne_self_eq_false, Bool.false_eq_true, if_false] at h
    split at h
    case h_6 => cases h
    all_goals exact ⟨hc, by omega, by omega⟩
  · simp [hc] at h

/-- The core after a bundle with a branch. -/
theorem issueBundle_branch {s : State} {k : Nat} {c : Cmd} {ops : List Op} {o : Op} {t : Nat} (hi : Issuing s k c ops)
    (ho : o ∈ ops) (ht : branchTarget (vat s.cores k) o = some t) :
    (vat (issueBundle c ops k s).cores k).pc = (vat s.cores k).pc + 1 ∧
    (vat (issueBundle c ops k s).cores k).branch = some ((vat s.cores k).pc, t) := by
  obtain ⟨hc, h1, h5⟩ := branchTarget_code ht
  obtain ⟨post, e, hp⟩ := slot0_first hi ho (ctl_slot hc)
  have htr : o.transfers = true := by simp [Op.transfers, hc, h1]; omega
  have hl := long_alone hi.2.2.1 ho (short_of_code hc (by omega)) (by simp [hc])
  have hrte : ops.any (fun o => o.is .ctl 0x0A) = false := by
    rw [List.any_eq_false]
    intro x hx hxr
    simp only [Op.is, Bool.and_eq_true, beq_iff_eq] at hxr
    rw [ctl_unique hi ho hc hx hxr.1] at hxr
    omega
  obtain ⟨s0, _, _, _, m, d, hcore⟩ := issueBundle_next (c := c) (s := s) (k := k) hl
  rw [hcore, rteTarget_of hrte, nextPc_branch (transfer_alone hi ho htr).1 e ht]
  exact ⟨rfl, rfl⟩

theorem LandsG.of_lands {t : State} {k d due : Nat} {v : BitVec 64} (hd : d ≠ 0) (h : Lands t k (.g d) (v.setWidth 512) due) :
    LandsG t k d v due := by
  unfold LandsG
  rwa [if_neg hd]

/-- CALL writes the index behind its delay bundle to g63. -/
theorem call_lands {s : State} {k : Nat} {c : Cmd} {ops : List Op} {o : Op} (hi : Issuing s k c ops) (hg : goesOn ops = true)
    (ho : o ∈ ops) (hc : o.cls = .ctl) (hm : o.code = 4) (hq : SettledBy (vat s.cores k) (.g 63) ((vat s.cores k).cycles + 1)) :
    LandsG (issueOp .ctl 4 0 k s) k 63 (BitVec.ofNat 64 ((vat s.cores k).pc + 2)) ((vat s.cores k).cycles + 1) := by
  refine .of_lands (by decide) (issueOp_lands (e := ⟨.g 63, (BitVec.ofNat 64 ((vat s.cores k).pc + 2)).setWidth 512, _⟩)
    hi hg ho (ctl_slot hc) hc hm (by decide) rfl ?_ (by simp) hq fun pre post s1 _ _ _ _ => ?_)
  · simp [Op.writes, hc, hm, dstName]
  · have he : opIn c ops k s s1 o = resultG k (vat s.cores k) 63 (BitVec.ofNat 64 ((vat s.cores k).pc + 2)) 1 s1 := by
      simp only [opIn, opEffect, hc, ctlEffect, hm]
    rw [he]
    exact resultG_pend (by decide)

/-- Settles O50: a branch of every kind by its target. -/
theorem branchesOpenTheirDelayBundle : Obligations.BranchesOpenTheirDelayBundle := by
  unfold Obligations.BranchesOpenTheirDelayBundle
  intro s k c ops o hi hg ho hc K dst goes
  have opens {m t : Nat} {i : Instr} (hm : o.code = m) (hr : coreRow i = some (k.val, .ctl, m, 0))
      (ht : branchTarget K o = some t) : goes i t :=
    ⟨_, exec_issues hi hg ho (by simp [hc]) (by rw [hr, hc, hm, ctl_slot hc]), issueBundle_branch hi ho ht⟩
  refine ⟨fun h => opens h rfl ?_, fun h => opens h rfl ?_, fun h => opens h rfl ?_,
    fun h => ⟨opens h rfl ?_, _, rfl, fun hq => call_lands hi hg ho hc h hq⟩, fun h => opens h rfl ?_⟩
  all_goals simp only [branchTarget, hc, h, bne_self_eq_false, Bool.false_eq_true, if_false]
  all_goals rfl

/-! ### Loops (R459, R460) -/

/-- Level `l` is active and ends at the bundle of index `b`. -/
def EndsAt (K : Core) (b l : Nat) : Prop := vat K.lc l ≠ 0 ∧ (vat K.le l).toNat = b

theorem endsAt_iff {K : Core} {b l : Nat} : (loopActive K l && (vat K.le l).toNat == b) = true ↔ EndsAt K b l := by
  simp [loopActive, EndsAt]

/-- No level among `ls` ends here: nothing changes. -/
theorem evalLoops_none {b : Nat} {K : Core} : ∀ {ls : List Nat}, (∀ l ∈ ls, ¬ EndsAt K b l) → evalLoops b ls K = (K, none)
  | [], _ => rfl
  | l :: ls, h => by
    rw [evalLoops, if_neg (endsAt_iff.not.2 (h l List.mem_cons_self))]
    exact evalLoops_none fun x hx => h x (List.mem_cons_of_mem _ hx)

/-- The first level that ends here has turns left: one turn less, and back to its start. -/
theorem evalLoops_turn {b l : Nat} {K : Core} (he : EndsAt K b l) (ht : 1 < (vat K.lc l).toNat) :
    ∀ {ls post : List Nat}, (∀ j ∈ ls, ¬ EndsAt K b j) →
      evalLoops b (ls ++ l :: post) K = ({ K with lc := vupd K.lc l (· - 1) }, some (vat K.ls l).toNat)
  | [], _, _ => by rw [List.nil_append, evalLoops, if_pos (endsAt_iff.2 he), if_pos ht]
  | j :: ls, _, h => by
    rw [List.cons_append, evalLoops, if_neg (endsAt_iff.not.2 (h j List.mem_cons_self))]
    exact evalLoops_turn he ht fun x hx => h x (List.mem_cons_of_mem _ hx)

/-- The levels, split at one of them. -/
theorem levels_split {l : Nat} (h : l < 3) : ∃ post, [0, 1, 2] = List.range l ++ l :: post := by
  obtain rfl | rfl | rfl : l = 0 ∨ l = 1 ∨ l = 2 := by omega
  exacts [⟨[1, 2], rfl⟩, ⟨[2], rfl⟩, ⟨[], rfl⟩]

/-- Two cores with the same loop levels and the same branch before its delay bundle. -/
structure SameLoops (C C' : Core) : Prop where
  branch : C'.branch = C.branch
  lc : C'.lc = C.lc
  ls : C'.ls = C.ls
  le : C'.le = C.le

theorem SameLoops.endsAt {C C' : Core} (h : SameLoops C C') (b l : Nat) : EndsAt C' b l ↔ EndsAt C b l := by
  rw [EndsAt, h.lc, h.le]
  rfl

theorem SameLoops.trans {a b c : Core} (h1 : SameLoops a b) (h2 : SameLoops b c) : SameLoops a c :=
  ⟨h2.branch.trans h1.branch, h2.lc.trans h1.lc, h2.ls.trans h1.ls, h2.le.trans h1.le⟩

theorem Plain.loops {C C' : Core} (h : Plain C C') : SameLoops C C' := by
  rw [h]
  exact ⟨rfl, rfl, rfl, rfl⟩

theorem stepMode_loops {K : Core} : SameLoops K (stepMode K) := by
  rw [stepMode_rest]
  exact ⟨rfl, rfl, rfl, rfl⟩

/-- A result that waits for no register of a loop. -/
def OffLoops (p : PendReg) : Prop := ∀ l, p.dst ≠ .lc l ∧ p.dst ≠ .ls l ∧ p.dst ≠ .le l

theorem passCycles_sameLoops {n k : Nat} {s : State} (h : ∀ p ∈ (vat s.cores k).pend, OffLoops p) :
    SameLoops (vat s.cores k) (vat (passCycles n k s).cores k) := by
  obtain ⟨e1, e2, e3⟩ := passCycles_loops (n := n) h
  refine ⟨?_, e1, e2, e3⟩
  obtain ⟨_, _, _, _, _, _, _, _, _, _, _, e⟩ := @passCycles_core n k s
  rw [e]

/-- A bundle whose operations are no control transfers, MOVTC or RTE. -/
def Straight (ops : List Op) : Prop := ∀ x ∈ ops, x.cls = .ctl → 12 ≤ x.code

theorem Straight.noBranch {ops : List Op} (h : Straight ops) (K : Core) : ops.filterMap (branchTarget K) = [] := by
  rw [List.filterMap_eq_nil_iff]
  intro o ho
  by_contra hne
  obtain ⟨t, ht⟩ := Option.ne_none_iff_exists'.1 hne
  obtain ⟨hc, _, h5⟩ := branchTarget_code ht
  have := h o ho hc
  omega

theorem Straight.noCtl {ops : List Op} (h : Straight ops) {n : Nat} (hn : n < 12) : ops.any (fun o => o.is .ctl n) = false := by
  rw [List.any_eq_false]
  intro o ho hx
  simp only [Op.is, Bool.and_eq_true, beq_iff_eq] at hx
  have := h o ho hx.1
  omega

theorem gName_fst {n : RegName} {d : Nat} (h : n ∈ gName d) : n.1 = 0 := by
  unfold gName at h
  split at h
  · cases h
  · rw [List.mem_singleton.1 h]

theorem vName_fst {n : RegName} {d : Nat} (h : n ∈ vName d) : n.1 = 1 := by
  rw [List.mem_singleton.1 h]

/-- A CTL operation from MOVFC on writes a general register or nothing. -/
theorem ctl_writes {o : Op} (hc : o.cls = .ctl) (h : 12 ≤ o.code) : o.writes = gName o.d ∨ o.writes = [] := by
  unfold Op.writes
  simp only [hc]
  split
  case h_5 | h_6 | h_7 => exact .inl rfl
  case h_8 => exact .inr rfl
  all_goals omega

/-- An operation of a straight bundle names no loop register. -/
theorem Straight.writes {ops : List Op} (h : Straight ops) {n : RegName} (hn : n ∈ ops.flatMap (·.writes)) : n.1 ≠ 2 := by
  obtain ⟨o, ho, hn⟩ := List.mem_flatMap.1 hn
  have hgv {l : List RegName} {d : Nat} (hl : l = gName d ∨ l = vName d ∨ l = []) (hm : n ∈ l) : n.1 ≠ 2 := by
    obtain rfl | rfl | rfl := hl
    · simp [gName_fst hm]
    · simp [vName_fst hm]
    · cases hm
  cases hc : o.cls
  case ctl => exact hgv (d := o.d) ((ctl_writes hc (h o ho hc)).imp_right .inr) hn
  all_goals
    refine hgv (d := o.d) ?_ hn
    simp only [Op.writes, hc]
    grind

theorem offLoops_of_name {p : PendReg} (h : (dstName p.dst).1 ≠ 2) : OffLoops p := by
  refine fun l => ⟨fun e => ?_, fun e => ?_, fun e => ?_⟩
  all_goals
    rw [e] at h
    exact h rfl

/-- After the operations of a straight bundle no result waits for a loop register that waited for none before. -/
theorem Straight.offLoops {s s0 : State} {f k w : Nat} {c : Cmd} {ops : List Op} {K K' : Core} {M : List Host.Cell}
    (h : Straight ops) (hok : ∀ o ∈ ops, illegalOp s f k K' o = false) (h0 : ∀ p ∈ (vat s0.cores k).pend, OffLoops p) :
    ∀ p ∈ (vat (ops.foldl (opEffect M w c k K) s0).cores k).pend, OffLoops p := by
  obtain ⟨l, e, hl⟩ := (opsEffect_step (M := M) (w := w) (c := c) (k := k) (K := K) (s := s0)
    hok).pend
  intro p hp
  rw [e] at hp
  exact (List.mem_append.1 hp).elim (h0 p) fun hp => offLoops_of_name (h.writes (hl p hp).2)

/-- The core of a straight bundle when its next bundle is chosen: its loops are those before. -/
theorem straight_core {s : State} {k : Nat} {c : Cmd} {ops : List Op} (hi : Issuing s k c ops) (hl : ops.any (·.isLong) = false)
    (hs : Straight ops) (hp : ∀ p ∈ (vat s.cores k).pend, OffLoops p) :
    ∃ C m d, SameLoops (vat s.cores k) C ∧
      vat (issueBundle c ops k s).cores k = { nextPc (vat s.cores k) ops C with mode := m, drain := d } := by
  obtain ⟨s0, h1, _, _, m, d, hcore⟩ := issueBundle_next (c := c) (s := s) (k := k) hl
  rw [rteTarget_of (hs.noCtl (by decide))] at hcore
  refine ⟨_, m, d, ?_, hcore⟩
  have hplain : Plain (vat s0.cores k) (vat (ops.foldl (opIn c ops k s) s0).cores k) := opsEffect_plain hs
  have hpass := passCycles_sameLoops (n := bundleCycles (vat s.cores k) ops) (k := k)
    (s := ops.foldl (opIn c ops k s) s0) (hs.offLoops (illegalBundle_of hi.2.2.1).2 (by rwa [h1]))
  have h := hplain.loops
  rw [h1] at h
  exact (h.trans hpass).trans stepMode_loops

/-- What follows a straight bundle outside a delay bundle: its loops decide. -/
theorem nextPc_straight {K C : Core} {ops : List Op} (hs : Straight ops) (hb : K.branch = none) :
    nextPc K ops C = { (evalLoops K.pc [0, 1, 2] C).1 with pc := (evalLoops K.pc [0, 1, 2] C).2.getD (K.pc + 1) } := by
  have hno : (ops.find? fun o => o.is .ctl 0x06 && rdG K o.a == 0) = none := by
    have h6 := List.any_eq_false.1 (hs.noCtl (n := 6) (by decide))
    exact List.find?_eq_none.2 fun o ho => by simp [h6 o ho]
  simp only [nextPc, hb, hs.noBranch, List.head?_nil, hs.noCtl (n := 0x0A) (by decide), hno, Bool.false_eq_true, if_false]

/-- R458 to R460: the bundle after a straight one. -/
theorem straight_next {s : State} {k : Nat} {c : Cmd} {ops : List Op} (hi : Issuing s k c ops) (hl : ops.any (·.isLong) = false)
    (hs : Straight ops) (hp : ∀ p ∈ (vat s.cores k).pend, OffLoops p) :
    let K := vat s.cores k
    let T := vat (issueBundle c ops k s).cores k
    (∀ b to_, K.branch = some (b, to_) → T.pc = to_ ∧ T.branch = none) ∧
    (K.branch = none → (∀ l < 3, ¬ EndsAt K K.pc l) → T.pc = K.pc + 1) ∧
    (∀ l < 3, K.branch = none → (∀ j < l, ¬ EndsAt K K.pc j) → EndsAt K K.pc l → 1 < (vat K.lc l).toNat →
      T.pc = (vat K.ls l).toNat ∧ vat T.lc l = vat K.lc l - 1) := by
  intro K T
  obtain ⟨C, m, d, hloops, e⟩ := straight_core hi hl hs hp
  have hT : T = { nextPc K ops C with mode := m, drain := d } := e
  refine ⟨fun b to_ hb => ?_, fun hb hno => ?_, fun l hl hb hno he ht => ?_⟩
  · have hn : nextPc K ops C = { C with pc := to_, branch := none } := by simp only [nextPc, hb]
    rw [hT, hn]
    exact ⟨rfl, rfl⟩
  · rw [hT, nextPc_straight hs hb, evalLoops_none fun l hl => (hloops.endsAt _ _).not.2 (hno l (by simp at hl; omega))]
    rfl
  · obtain ⟨post, hpost⟩ := levels_split hl
    rw [hT, nextPc_straight hs hb, hpost, evalLoops_turn ((hloops.endsAt _ _).2 he) (by rwa [hloops.lc])
      fun j hj => (hloops.endsAt _ _).not.2 (hno j (List.mem_range.1 hj))]
    refine ⟨by rw [← hloops.ls]; rfl, ?_⟩
    exact (vat_vupd_self ..).trans (by rw [hloops.lc])

/-! ### LOOP (R459, R460) -/

/-- The core whose level `l` LOOP has set. -/
def looped (K : Core) (o : Op) (C : Core) : Core :=
  let l := bits o.w 26 2
  { C with lc := vupd C.lc l fun _ => rdG K o.a, ls := vupd C.ls l fun _ => BitVec.ofNat 32 (K.pc + 1),
           le := vupd C.le l fun _ => BitVec.ofNat 32 (K.pc + o.w / 2 ^ 28) }

/-- The core of a bundle with LOOP when its next bundle is chosen: its loops are those before, but for the level that is set. -/
theorem loop_core {s : State} {k : Nat} {c : Cmd} {ops : List Op} {o : Op} (hi : Issuing s k c ops) (ho : o ∈ ops)
    (hc : o.cls = .ctl) (hm : o.code = 6) (hp : ∀ p ∈ (vat s.cores k).pend, OffLoops p) :
    ∃ C m d, SameLoops (looped (vat s.cores k) o (vat s.cores k)) C ∧
      vat (issueBundle c ops k s).cores k = { nextPc (vat s.cores k) ops C with mode := m, drain := d } := by
  obtain ⟨post, e, hpost⟩ := slot0_first hi ho (ctl_slot hc)
  have hl := long_alone hi.2.2.1 ho (short_of_code hc (by omega)) (by simp [hc])
  obtain ⟨s0, h1, _, _, m, d, hcore⟩ := issueBundle_next (c := c) (s := s) (k := k) hl
  have hrte : ops.any (fun o => o.is .ctl 0x0A) = false := by
    rw [List.any_eq_false]
    intro x hx hxr
    simp only [Op.is, Bool.and_eq_true, beq_iff_eq] at hxr
    rw [ctl_unique hi ho hc hx hxr.1] at hxr
    omega
  rw [rteTarget_of hrte] at hcore
  refine ⟨_, m, d, ?_, hcore⟩
  have hset : opIn c ops k s s0 o = onCore k (looped (vat s.cores k) o) s0 := by
    simp only [opIn, opEffect, hc, ctlEffect, hm]
    rfl
  have hone : vat (opIn c ops k s s0 o).cores k = looped (vat s.cores k) o (vat s.cores k) := by
    rw [hset, vat_onCore, h1]
  have hstraight : Straight post := fun x hx hxc => absurd (ctl_slot hxc) (Nat.pos_iff_ne_zero.1 (hpost x hx))
  have hplain := slot0_rest (s0 := s0) hi ho hc
  rw [hone] at hplain
  have hfold : ops.foldl (opIn c ops k s) s0 = post.foldl (opIn c ops k s) (opIn c ops k s s0 o) :=
    (congrArg (List.foldl (opIn c ops k s) s0) e).trans (List.foldl_cons ..)
  have hoff : ∀ p ∈ (vat (ops.foldl (opIn c ops k s) s0).cores k).pend, OffLoops p := by
    rw [hfold]
    refine hstraight.offLoops (fun x hx => (illegalBundle_of hi.2.2.1).2 x (e ▸ List.mem_cons_of_mem _ hx)) ?_
    rw [hone]
    exact hp
  exact (hplain.loops.trans (passCycles_sameLoops (n := bundleCycles (vat s.cores k) ops) hoff)).trans stepMode_loops

/-- What follows LOOP: with a count of zero the bundle behind the loop, else the loop's first. -/
theorem nextPc_loop {K C : Core} {ops post : List Op} {o : Op} (hb : K.branch = none) (e : ops = o :: post)
    (hpost : ∀ x ∈ post, x.cls ≠ .ctl) (hc : o.cls = .ctl) (hm : o.code = 6) (hend : ∀ l < 3, ¬ EndsAt C K.pc l) :
    nextPc K ops C = { C with pc := if rdG K o.a = 0 then K.pc + o.w / 2 ^ 28 + 1 else K.pc + 1 } := by
  have hnb : ops.filterMap (branchTarget K) = [] := by
    rw [List.filterMap_eq_nil_iff, e]
    intro x hx
    by_contra hne
    obtain ⟨t, ht⟩ := Option.ne_none_iff_exists'.1 hne
    obtain ⟨hxc, _, h5⟩ := branchTarget_code ht
    obtain rfl | hx := List.mem_cons.1 hx
    · omega
    · exact hpost x hx hxc
  have hrte : ops.any (fun o => o.is .ctl 0x0A) = false := by
    rw [e, List.any_cons, List.any_eq_false.2 fun x hx => by simp [Op.is, hpost x hx]]
    simp [Op.is, hm]
  have hloop : (ops.find? fun o => o.is .ctl 0x06 && rdG K o.a == 0) = if rdG K o.a = 0 then some o else none := by
    have hrest : (post.find? fun o => o.is .ctl 0x06 && rdG K o.a == 0) = none :=
      List.find?_eq_none.2 fun x hx => by simp [Op.is, hpost x hx]
    rw [e, List.find?_cons, hrest]
    by_cases h0 : rdG K o.a = 0
    · simp [Op.is, hc, hm, h0]
    · simp only [Op.is, hc, hm, beq_self_eq_true, Bool.true_and, beq_eq_false_iff_ne.2 h0, if_neg h0]
  have hturn : evalLoops K.pc [0, 1, 2] C = (C, none) := evalLoops_none fun l hl => hend l (by simp at hl; omega)
  simp only [nextPc, hb, hnb, List.head?_nil, hrte, hloop, Bool.false_eq_true, if_false]
  by_cases h0 : rdG K o.a = 0
  · simp only [if_pos h0]
  · simp only [if_neg h0, hturn, Option.getD_none]

theorem endsLoop_iff {K : Core} {b : Nat} : endsLoop K b = true ↔ ∃ l < 3, EndsAt K b l := by
  simp [endsLoop, loopActive, EndsAt]

/-- The loop of a LOOP that issues holds a bundle (R471). -/
theorem loop_length {s : State} {k : Nat} {c : Cmd} {ops : List Op} {o : Op} (hi : Issuing s k c ops) (ho : o ∈ ops)
    (hc : o.cls = .ctl) (hm : o.code = 6) : o.w / 2 ^ 28 ≠ 0 := by
  intro h0
  have ht := hi.2.2.1
  have hany : ops.any (fun o => o.is .ctl 6 && o.w / 2 ^ 28 == 0) = true :=
    List.any_eq_true.2 ⟨o, ho, by simp only [Op.is, hc, hm, h0]; decide⟩
  unfold bundleTrap at ht
  rw [if_pos hany] at ht
  grind

/-- R459: LOOP sets its level and goes on; with a count of zero it passes the loop. -/
theorem loop_next {s : State} {k : Nat} {c : Cmd} {ops : List Op} {o : Op} (hi : Issuing s k c ops) (ho : o ∈ ops)
    (hc : o.cls = .ctl) (hm : o.code = 6) (hp : ∀ p ∈ (vat s.cores k).pend, OffLoops p)
    (hlim : (vat s.cores k).pc + o.w / 2 ^ 28 < 2 ^ 32) :
    let K := vat s.cores k
    let T := vat (issueBundle c ops k s).cores k
    let l := bits o.w 26 2
    T.branch = none ∧ vat T.lc l = rdG K o.a ∧ vat T.ls l = BitVec.ofNat 32 (K.pc + 1) ∧
      vat T.le l = BitVec.ofNat 32 (K.pc + o.w / 2 ^ 28) ∧
      T.pc = if rdG K o.a = 0 then K.pc + o.w / 2 ^ 28 + 1 else K.pc + 1 := by
  intro K T l
  obtain ⟨post, e, hpost⟩ := slot0_first hi ho (ctl_slot hc)
  obtain ⟨hb, hends⟩ := transfer_alone hi ho (by simp [Op.transfers, hc, hm])
  obtain ⟨C, m, d, hloops, hcore⟩ := loop_core hi ho hc hm hp
  have hlt : l < 3 := by
    have h3 := (illegalBundle_of hi.2.2.1).2 o ho
    simp only [illegalOp, hc, hm] at h3
    have h4 : l < 4 := bits_lt ..
    have hne : l ≠ 3 := by simpa using h3
    omega
  have hoff : o.w / 2 ^ 28 ≠ 0 := loop_length hi ho hc hm
  have hend : ∀ j < 3, ¬ EndsAt C K.pc j := by
    intro j hj hE
    obtain ⟨hact, hle⟩ := (hloops.endsAt _ _).1 hE
    by_cases hjl : j = l
    · have hval : vat (looped K o K).le j = BitVec.ofNat 32 (K.pc + o.w / 2 ^ 28) := hjl ▸ vat_vupd_self ..
      rw [hval, BitVec.toNat_ofNat, Nat.mod_eq_of_lt hlim] at hle
      exact hoff (Nat.add_left_cancel (hle.trans (Nat.add_zero _).symm))
    · have hne : l % 3 ≠ j % 3 := by omega
      refine (Bool.eq_false_iff.1 hends) (endsLoop_iff.2 ⟨j, hj, ?_, ?_⟩)
      · rwa [← vat_vupd_ne K.lc (fun _ => rdG K o.a) hne]
      · rwa [← vat_vupd_ne K.le (fun _ => BitVec.ofNat 32 (K.pc + o.w / 2 ^ 28)) hne]
  have hT : T = { nextPc K ops C with mode := m, drain := d } := hcore
  rw [hT, nextPc_loop hb e (fun x hx hxc => absurd (ctl_slot hxc) (Nat.pos_iff_ne_zero.1 (hpost x hx))) hc hm hend]
  refine ⟨hloops.branch.trans hb, ?_, ?_, ?_, rfl⟩
  · exact (congrArg (vat · l) hloops.lc).trans (vat_vupd_self ..)
  · exact (congrArg (vat · l) hloops.ls).trans (vat_vupd_self ..)
  · exact (congrArg (vat · l) hloops.le).trans (vat_vupd_self ..)

/-- Settles O51: a straight bundle, and LOOP. -/
theorem nextBundleAndLoops : Obligations.NextBundleAndLoops := by
  unfold Obligations.NextBundleAndLoops
  intro s k c ops i o hi hg ho hn hr K hp ends
  refine ⟨fun h => ?_, fun h6 hlim => ?_⟩
  · have hl := long_alone hi.2.2.1 ho (h o ho).1 hn
    exact ⟨_, exec_issues hi hg ho hn hr, straight_next hi hl (fun x hx => (h x hx).2) hp⟩
  · obtain ⟨hc, hm⟩ : o.cls = .ctl ∧ o.code = 6 := by simpa [Op.is] using h6
    exact ⟨_, exec_issues hi hg ho hn (by rw [hc, hm, ctl_slot hc]; rfl), loop_next hi ho hc hm hp hlim⟩

end Sys2Proof.Machine
end

section
/-!
PROOFS. The frame of a bundle (sections 12.2 and 12.4): an operation changes the registers that it names, and stores are the
operations that wait to write memory.
-/
namespace Sys2Proof.Machine

/-! ### Registers that an operation does not name -/

theorem Plain.regValue {C C' : Core} (h : Plain C C') (d : RegDst) : regValue C' d = regValue C d := by
  rw [h]
  cases d <;> rfl

/-- LOOP changes the registers of its level. -/
theorem looped_reg {K : Core} {o : Op} {C : Core} {d : RegDst} (hd : dstOk d = true) (hlc : ∀ l, d ≠ .lc l)
    (hl : bits o.w 26 2 < 3) (hn : dstName d ∉ [(2, 8 + bits o.w 26 2), (2, 0x0B + bits o.w 26 2), (2, 0x0E + bits o.w 26 2)]) :
    regValue (looped K o C) d = regValue C d := by
  cases d with
  | lc l => exact absurd rfl (hlc l)
  | ls l =>
    have h3 : l < 3 := by simpa [dstOk] using hd
    have hne : bits o.w 26 2 % 3 ≠ l % 3 := by
      simp [dstName] at hn
      omega
    exact congrArg (BitVec.setWidth 512) (vat_vupd_ne _ _ hne)
  | le l =>
    have h3 : l < 3 := by simpa [dstOk] using hd
    have hne : bits o.w 26 2 % 3 ≠ l % 3 := by
      simp [dstName] at hn
      omega
    exact congrArg (BitVec.setWidth 512) (vat_vupd_ne _ _ hne)
  | _ => rfl

/-- Writing other places leaves a place of a vector. -/
theorem vat_foldl_vupd {α : Type} {n : Nat} [NeZero n] {f : Nat → α} {r : Nat} : ∀ {l : List Nat} {v : Vector α n},
    (∀ i ∈ l, (i + 1) % n ≠ r % n) → vat (l.foldl (fun v i => vupd v (i + 1) fun _ => f i) v) r = vat v r
  | [], _, _ => rfl
  | i :: l, v, h => by
    rw [List.foldl_cons, vat_foldl_vupd fun j hj => h j (List.mem_cons_of_mem _ hj)]
    exact vat_vupd_ne _ _ (h i List.mem_cons_self)

/-- RTE changes the registers that its frame holds. -/
theorem rteEffect_reg {c : Cmd} {k : Nat} {K : Core} {o : Op} {s : State} {d : RegDst} (hc : o.cls = .ctl) (hm : o.code = 0x0A)
    (hd : dstOk d = true) (hlc : ∀ l, d ≠ .lc l) (hn : dstName d ∉ o.writes) :
    regValue (vat (rteEffect c k K s).cores k) d = regValue (vat s.cores k) d := by
  have hw : o.writes = (List.range 15).map (fun i => (0, i + 1)) ++ [(2, 0), (2, 2), (2, 3)] ++
      (List.range 9).map fun i => (2, 8 + i) := by simp only [Op.writes, hc, hm]
  rw [hw] at hn
  have hcores := (chargeCmd_charged (c := c) (da := K.tsp.toNat) (n := 256) (s := s)).cores
  unfold rteEffect
  extract_lets fr w
  rw [vat_onCore, hcores]
  cases d with
  | lc l => exact absurd rfl (hlc l)
  | g r =>
    have hr : 0 < r ∧ r < 64 := by simpa [dstOk] using hd
    have h15 : ∀ i ∈ List.range 15, (i + 1) % 64 ≠ r % 64 := by
      intro i hi he
      refine hn (List.mem_append_left _ (List.mem_append_left _ (List.mem_map.2 ⟨i, hi, ?_⟩)))
      have := List.mem_range.1 hi
      rw [dstName]
      congr
      omega
    have hv := vat_foldl_vupd (f := fun i => BitVec.ofNat 64 (w (0x88 + 8 * i))) (v := (vat s.cores k).g) h15
    simp only [regValue, rdG, hv]
  | v r => simp only [regValue]
  | ls l =>
    have h3 : l < 3 := by simpa [dstOk] using hd
    exact absurd (List.mem_append_right _ (List.mem_map.2 ⟨3 + l, List.mem_range.2 (by omega), by rw [dstName, ← Nat.add_assoc]⟩)) hn
  | le l =>
    have h3 : l < 3 := by simpa [dstOk] using hd
    exact absurd (List.mem_append_right _ (List.mem_map.2 ⟨6 + l, List.mem_range.2 (by omega), by rw [dstName, ← Nat.add_assoc]⟩)) hn
  | prog | tsp => exact absurd (List.mem_append_left _ (List.mem_append_right _ (by simp [dstName]))) hn

theorem result_reg {k : Nat} {K : Core} {p : RegDst} {v : V512} {lat : Nat} {s : State} (d : RegDst) :
    regValue (vat (result k K p v lat s).cores k) d = regValue (vat s.cores k) d := result_plain.regValue d

/-- What MOVTC does: a MODE write waits in its shadow, a register takes a result, and a read-only one nothing (R461, R463). -/
theorem movtcEffect_cases (k : Nat) (K : Core) (o : Op) (s : State) :
    (∃ m, movtcEffect k K o s = onCore k (fun C => { C with modePend := some m }) s) ∨ movtcEffect k K o s = s ∨
    ∃ p v, movtcEffect k K o s = result k K p v 1 s := by
  unfold movtcEffect
  extract_lets v c put
  split
  · exact .inl ⟨_, rfl⟩
  · refine .inr ?_
    repeat' split
    case isFalse.isFalse.isFalse.isTrue => exact .inl rfl
    all_goals exact .inr ⟨_, _, rfl⟩

theorem movtcEffect_reg {k : Nat} {K : Core} {o : Op} {s : State} (d : RegDst) :
    regValue (vat (movtcEffect k K o s).cores k) d = regValue (vat s.cores k) d := by
  obtain ⟨m, e⟩ | e | ⟨p, v, e⟩ := movtcEffect_cases k K o s
  · rw [e, vat_onCore]
    cases d <;> rfl
  · rw [e]
  · rw [e, result_reg]

/-- An operation leaves a register that it does not name. -/
theorem opEffect_reg {M : List Host.Cell} {w f k : Nat} {c : Cmd} {K K' : Core} {s s' : State} {o : Op} {d : RegDst}
    (hok : illegalOp s' f k K' o = false) (hd : dstOk d = true) (hlc : ∀ l, d ≠ .lc l) (hn : dstName d ∉ o.writes) :
    regValue (vat (opEffect M w c k K s o).cores k) d = regValue (vat s.cores k) d := by
  by_cases h : o.cls = .ctl → 12 ≤ o.code
  · exact (opEffect_plain h).regValue d
  · obtain ⟨hc, h12⟩ := Classical.not_imp.1 h
    have he : opEffect M w c k K s o = ctlEffect c k K o s := by simp only [opEffect, hc]
    rw [he]
    unfold ctlEffect
    split
    case h_1 => exact resultG_plain.regValue d
    case h_2 hm =>
      have hl4 : bits o.w 26 2 < 4 := bits_lt ..
      have hl3 : bits o.w 26 2 ≠ 3 := by simpa [illegalOp, hc, hm] using hok
      exact (congrArg (regValue · d) vat_onCore).trans
        (looped_reg hd hlc (by omega) (by simpa only [Op.writes, hc, hm] using hn))
    case h_3 hm => exact rteEffect_reg hc hm hd hlc hn
    case h_4 => exact movtcEffect_reg d
    case h_8 => rfl
    all_goals exact resultG_plain.regValue d

theorem opsEffect_reg {M : List Host.Cell} {w f k : Nat} {c : Cmd} {K K' : Core} {s' : State} {d : RegDst}
    (hd : dstOk d = true) (hlc : ∀ l, d ≠ .lc l) : ∀ {ops : List Op} {s : State}, (∀ o ∈ ops, illegalOp s' f k K' o = false) →
    dstName d ∉ ops.flatMap (·.writes) →
    regValue (vat (ops.foldl (opEffect M w c k K) s).cores k) d = regValue (vat s.cores k) d
  | [], _, _, _ => rfl
  | o :: ops, s, hok, hn => by
    rw [List.flatMap_cons, List.mem_append, not_or] at hn
    rw [List.foldl_cons, opsEffect_reg hd hlc (fun x hx => hok x (List.mem_cons_of_mem _ hx)) hn.2]
    exact opEffect_reg (hok o List.mem_cons_self) hd hlc hn.1

/-- A register that nothing of the bundle names and no waiting result lands in is what it was after time has passed. -/
theorem passCycles_reg {n k : Nat} {s : State} {d : RegDst} (hd : dstOk d = true)
    (h : ∀ p ∈ (vat s.cores k).pend, dstOk p.dst = true ∧ dstName p.dst ≠ dstName d) :
    regValue (vat (passCycles n k s).cores k) d = regValue (vat s.cores k) d := by
  rw [passCycles_eq]
  refine regValue_waits.trans ((regValue_land (fun p hp => ?_) hd).trans ?_)
  · have hp' : p ∈ (vat s.cores k).pend := (List.mem_filter.1 ((mem_sortBy _).1 hp)).1
    exact wrapDst_ne (h p hp').1 (h p hp').2
  · unfold laterCore
    cases d <;> rfl

theorem regValue_mode {K : Core} {m : CoreMode} {r : DrainFor} {d : RegDst} :
    regValue { K with mode := m, drain := r } d = regValue K d := by cases d <;> rfl

theorem issueBundle_reg {s : State} {k : Nat} {c : Cmd} {ops : List Op} {d : RegDst} (hi : Issuing s k c ops)
    (hd : dstOk d = true) (hlc : ∀ l, d ≠ .lc l) (hn : dstName d ∉ ops.flatMap (·.writes))
    (hp : ∀ p ∈ (vat s.cores k).pend, dstOk p.dst = true ∧ dstName p.dst ≠ dstName d) :
    regValue (vat (issueBundle c ops k s).cores k) d = regValue (vat s.cores k) d := by
  have hok := (illegalBundle_of hi.2.2.1).2
  obtain ⟨s0, h1, _, _, e⟩ := @issueBundle_tail c ops k s
  generalize ht : ops.foldl (opIn c ops k s) s0 = t at e
  have hreg : regValue (vat t.cores k) d = regValue (vat s.cores k) d := by
    rw [← ht, opsEffect_reg hd hlc hok hn, h1]
  have hpend : ∀ p ∈ (vat t.cores k).pend, dstOk p.dst = true ∧ dstName p.dst ≠ dstName d := by
    obtain ⟨l, el, hl⟩ := (opsEffect_step (M := preMem (bundleWait (vat s.cores k) ops) k s)
      (w := bundleWait (vat s.cores k) ops) (c := c) (k := k) (K := vat s.cores k) (s := s0) hok).pend
    intro p hpt
    rw [← ht, el, h1] at hpt
    exact (List.mem_append.1 hpt).elim (hp p) fun h => ⟨(hl p h).1, fun he => hn (he ▸ (hl p h).2)⟩
  rw [e]
  split
  · obtain ⟨l, dd, el⟩ := @beginLong_core c k (vat s.cores k) ops t
    rw [passCycles_reg hd (by rw [el]; exact hpend), el, ← hreg]
    cases d <;> rfl
  · obtain ⟨m, dr, ee⟩ := @endingOp_rest (vat s.cores k) ops k
      (onCore k (fun K => rteTarget s0 (vat s.cores k) ops (nextPc (vat s.cores k) ops (stepMode K)))
        (passCycles (bundleCycles (vat s.cores k) ops) k t))
    rw [ee, vat_onCore, vat_onCore]
    exact regValue_mode.trans ((sameRegs_next.regs d hlc).trans ((passCycles_reg hd hpend).trans hreg))

/-! ### Stores -/

theorem result_stores {k : Nat} {K : Core} {d : RegDst} {v : V512} {lat : Nat} {s : State} :
    (vat (result k K d v lat s).cores k).stores = (vat s.cores k).stores := by
  unfold result
  rw [vat_onCore]

theorem resultG_stores {k : Nat} {K : Core} {d : Nat} {v : BitVec 64} {lat : Nat} {s : State} :
    (vat (resultG k K d v lat s).cores k).stores = (vat s.cores k).stores := by
  unfold resultG
  split
  · rfl
  · exact result_stores

theorem onTile_stores {k n : Nat} {g : Tile → Tile} {s : State} :
    (vat (onTile k n g s).cores k).stores = (vat s.cores k).stores := by
  unfold onTile
  rw [vat_onCore]

theorem issueXfer_stores {f k : Nat} {K : Core} {o : Op} {s : State} :
    (vat (issueXfer f k K o s).cores k).stores = (vat s.cores k).stores := by
  unfold issueXfer
  extract_lets n crib dev x s1
  have h : (vat s1.cores k).stores = (vat s.cores k).stores := by
    unfold s1
    rw [vat_onCore]
  split
  · exact h
  · exact h

theorem ctlEffect_stores {c : Cmd} {k : Nat} {K : Core} {o : Op} {s : State} :
    (vat (ctlEffect c k K o s).cores k).stores = (vat s.cores k).stores := by
  unfold ctlEffect
  split
  case h_2 => rw [vat_onCore]
  case h_3 =>
    unfold rteEffect
    extract_lets fr w
    rw [vat_onCore, chargeCmd_charged.cores]
  case h_4 =>
    obtain ⟨m, e⟩ | e | ⟨p, v, e⟩ := movtcEffect_cases k K o s
    · rw [e, vat_onCore]
    · rw [e]
    · rw [e, result_stores]
  case h_8 => rfl
  all_goals exact resultG_stores

theorem accEffect_stores {M : List Host.Cell} {c : Cmd} {k : Nat} {K : Core} {o : Op} {s : State} :
    (vat (accEffect M c k K o s).cores k).stores = (vat s.cores k).stores := by
  unfold accEffect
  extract_lets n t kc strip addr
  split
  case h_1 =>
    split
    · rfl
    · simp only [tally_cores, activity_charged.cores, onTile_stores]
  case h_3 => exact result_stores
  case h_5 => rw [daPoke_cores, chargeCmd_charged.cores]
  case h_6 =>
    split
    · rw [onTile_cores chargeCmd_charged.cores, onTile_stores]
    · rfl
  case h_7 => rfl
  case h_8 => rw [vat_onCore]
  case h_9 => exact resultG_stores
  all_goals exact onTile_stores

/-- An operation that is no store adds none. -/
theorem opEffect_stores {M : List Host.Cell} {w f k : Nat} {c : Cmd} {K K' : Core} {s s' : State} {o : Op}
    (hok : illegalOp s' f k K' o = false) (h : o.cls = .mem → o.code ≤ 5 ∨ 0x0B ≤ o.code) :
    (vat (opEffect M w c k K s o).cores k).stores = (vat s.cores k).stores := by
  unfold opEffect
  split
  case h_1 => exact ctlEffect_stores
  case h_2 =>
    rw [intEffect_eq]
    exact resultG_stores
  case h_3 hc =>
    have hle : ¬ 0x0C < o.code := by simpa [illegalOp, hc] using hok
    have hs := h hc
    unfold memEffect
    extract_lets a n s1 bs
    have h1 : s1.cores = s.cores := memCharge.cores
    rw [← h1]
    split
    · exact resultG_stores
    · split
      · exact result_stores
      · rw [if_pos (by omega)]
        exact issueXfer_stores
  case h_4 =>
    unfold vecEffect
    extract_lets t t2
    split
    · exact resultG_stores
    · exact result_stores
  case h_5 =>
    rw [vat_onCore, accBook_rest]
    exact accEffect_stores
  case h_6 => rfl

theorem opsEffect_stores {M : List Host.Cell} {w f k : Nat} {c : Cmd} {K K' : Core} {s' : State} : ∀ {ops : List Op} {s : State},
    (∀ o ∈ ops, illegalOp s' f k K' o = false) → (∀ o ∈ ops, o.cls = .mem → o.code ≤ 5 ∨ 0x0B ≤ o.code) →
    (vat (ops.foldl (opEffect M w c k K) s).cores k).stores = (vat s.cores k).stores
  | [], _, _, _ => rfl
  | o :: ops, s, hok, h => by
    rw [List.foldl_cons, opsEffect_stores (fun x hx => hok x (List.mem_cons_of_mem _ hx)) fun x hx => h x (List.mem_cons_of_mem _ hx)]
    exact opEffect_stores (hok o List.mem_cons_self) (h o List.mem_cons_self)

/-- A bundle that neither stores nor saves leaves memory, when no store waits. -/
theorem issueBundle_mem {s : State} {k : Nat} {c : Cmd} {ops : List Op} (hi : Issuing s k c ops)
    (hs : (vat s.cores k).stores = []) (hst : ∀ o ∈ ops, o.cls = .mem → o.code ≤ 5 ∨ 0x0B ≤ o.code)
    (hsave : ∀ o ∈ ops, o.is .acc 0x84 = false) : (issueBundle c ops k s).mem = s.mem := by
  obtain ⟨s0, h1, h2, _, C, hC, _, _, _, _, _, _, hmem⟩ := issueBundle_waits hi
  have hstores : C.stores = [] := by
    rw [hC, opsEffect_stores (illegalBundle_of hi.2.2.1).2 hst, h1, hs]
  rw [hmem hstores, opsEffect_mem hsave, h2]

/-! ### The frame -/

theorem coreRow_bounds {i : Instr} {k : Nat} {cls : OpClass} {code slot : Nat} (h : coreRow i = some (k, cls, code, slot)) :
    k < 136 ∧ cls ≠ .nop := by
  unfold coreRow at h
  split at h
  all_goals cases h <;> exact ⟨Fin.isLt _, by decide⟩

/-- Settles O56: the work of a core (`CoreStep`), the registers and the memory of a bundle. -/
theorem bundlesTouchTheirCoreAlone : Obligations.BundlesTouchTheirCoreAlone := by
  unfold Obligations.BundlesTouchTheirCoreAlone
  intro s i k cls code slot c ops o hr hi hg ho hc hm hs K
  obtain ⟨hk, hn⟩ := coreRow_bounds hr
  have hstep := issueBundle_step hi
  refine ⟨_, exec_issues hi hg ho (hc ▸ hn) (by rw [hr, hc, hm, hs]), hstep.rest, hstep.cmds, fun j hj hne => hstep.others j ?_,
    fun d hd hlc hnn hp => issueBundle_reg hi hd hlc hnn hp, fun hst hmem hsave => issueBundle_mem hi hst hmem hsave⟩
  rwa [Nat.mod_eq_of_lt hj, Nat.mod_eq_of_lt hk]

end Sys2Proof.Machine
end

section
/-!
PROOFS. Stores and transfers of a core (sections 12.3 and 12.7): a store waits in its core, a transfer joins the outstanding
ones, and the end of a transfer takes the oldest away, whatever it stops.
-/
namespace Sys2Proof.Machine

/-! ### What stopping a core leaves of the outstanding transfers (R465) -/

/-- A core with the same transfers outstanding, and with the launch it had, if it still has one. -/
structure XferKept (C C' : Core) : Prop where
  xfers : C'.xfers = C.xfers
  launch : C'.launch = C.launch ∨ C'.launch = none

theorem XferKept.refl (C : Core) : XferKept C C := ⟨rfl, .inl rfl⟩

theorem XferKept.trans {a b c : Core} (h1 : XferKept a b) (h2 : XferKept b c) : XferKept a c := by
  refine ⟨h2.xfers.trans h1.xfers, ?_⟩
  obtain h | h := h2.launch
  · rw [h]
    exact h1.launch
  · exact .inr h

/-- Every core keeps what it has outstanding. -/
def SameXfers (s t : State) : Prop := ∀ j, XferKept (vat s.cores j) (vat t.cores j)

theorem SameXfers.refl (s : State) : SameXfers s s := fun _ => .refl _

theorem SameXfers.trans {a b c : State} (h1 : SameXfers a b) (h2 : SameXfers b c) : SameXfers a c :=
  fun j => (h1 j).trans (h2 j)

theorem SameXfers.of_cores {s t : State} (h : t.cores = s.cores) : SameXfers s t := fun _ => by rw [h]; exact .refl _

theorem sameXfers_onCore {k : Nat} {g : Core → Core} {s : State} (h : ∀ C, XferKept C (g C)) : SameXfers s (onCore k g s) := by
  intro j
  by_cases hj : k % 136 = j % 136
  · rw [vat_mod (v := s.cores) hj.symm, vat_mod (v := (onCore k g s).cores) hj.symm, vat_onCore]
    exact h _
  · rw [vat_onCore_ne (Ne.symm hj)]
    exact .refl _

theorem sameXfers_landAll {k : Nat} {s : State} : SameXfers s (landAll k s) := by
  intro j
  by_cases hj : j % 136 = k % 136
  · obtain ⟨_, _, _, _, _, _, _, _, _, e⟩ := @landAll_core k s
    rw [vat_mod (v := (landAll k s).cores) hj, e, vat_mod (v := s.cores) hj]
    exact ⟨rfl, .inl rfl⟩
  · rw [landAll_step.others j hj]
    exact .refl _

theorem sameXfers_coreReset {k : Nat} {s : State} : SameXfers s (coreReset k s) := sameXfers_onCore fun _ => ⟨rfl, .inl rfl⟩

/-- A core that stops keeps what is outstanding (R465). -/
theorem sameXfers_stopCore {k : Nat} {cause : Option Nat} {s : State} {l : Launch} (hl : (vat s.cores k).launch = some l)
    (hk : NotKv l.cmd s) : SameXfers s (stopCore k cause s) := by
  unfold stopCore
  rw [hl]
  dsimp only
  generalize hg : onCore k _ (landAll k s) = s1
  have hcmds : s1.cmds = s.cmds := by
    rw [← hg]
    exact landAll_cmds
  have hx : SameXfers s s1 := by
    rw [← hg]
    exact sameXfers_landAll.trans (sameXfers_onCore fun _ => ⟨rfl, .inr rfl⟩)
  have h1 : NotKv l.cmd s1 := hk.of_cmds hcmds
  cases cause with
  | none => exact hx.trans (.of_cores (coreDone_cores h1))
  | some x =>
    have h2 : NotKv l.cmd (coreReset k s1) := h1.of_cmds rfl
    exact (hx.trans sameXfers_coreReset).trans (.of_cores (coreDone_cores h2.noteFault))

/-- Launches that have not started end at once: cores stay. -/
theorem foldl_coreDone {u x : Nat} : ∀ {g : List Launch} {s : State}, NotKv u s →
    NotKv u (g.foldl (fun s l => coreDone u (noteFault u l.rank x s)) s) ∧
      (g.foldl (fun s l => coreDone u (noteFault u l.rank x s)) s).cores = s.cores
  | [], _, h => ⟨h, rfl⟩
  | l :: g, s, h => by
    obtain ⟨h1, h2⟩ := foldl_coreDone (g := g) (h.noteFault (r := l.rank) (x := x)).coreDone
    exact ⟨h1, h2.trans (coreDone_cores h.noteFault)⟩

theorem abortOn_xfers {u x j : Nat} {s : State} (hk : NotKv u s) :
    NotKv u (abortOn u x s j) ∧ SameXfers s (abortOn u x s j) := by
  unfold abortOn
  extract_lets K gone s1 s2
  have h1 : NotKv u s1 := hk.of_cmds rfl
  have hx1 : SameXfers s s1 := sameXfers_onCore fun _ => ⟨rfl, .inl rfl⟩
  have hl1 : (vat s1.cores j).launch = K.launch := by
    unfold s1
    rw [vat_onCore]
  obtain ⟨h2, hc2⟩ : NotKv u s2 ∧ s2.cores = s1.cores := foldl_coreDone h1
  have hx2 : SameXfers s s2 := hx1.trans (.of_cores hc2)
  split
  case isFalse => exact ⟨h2, hx2⟩
  case isTrue hu =>
    split
    · obtain ⟨l, hl, rfl⟩ := Option.map_eq_some_iff.1 (beq_iff_eq.1 hu)
      have hl2 : (vat s2.cores j).launch = some l := by rw [hc2, hl1, hl]
      exact ⟨(stopCore_fault hl2 h2).1, hx2.trans (sameXfers_stopCore hl2 h2)⟩
    · split
      · exact ⟨h2, hx2⟩
      · exact ⟨h2.of_cmds rfl, hx2.trans (sameXfers_onCore fun _ => ⟨rfl, .inl rfl⟩)⟩

theorem foldl_abortOn_xfers {u x : Nat} : ∀ {ks : List Nat} {s : State}, NotKv u s → SameXfers s (ks.foldl (abortOn u x) s)
  | [], s, _ => .refl s
  | k :: ks, s, h => by
    obtain ⟨h1, h2⟩ := abortOn_xfers (x := x) (j := k) h
    exact h2.trans (foldl_abortOn_xfers h1)

theorem sameXfers_abortLaunch {u x : Nat} {s : State} (h : NotKv u s) : SameXfers s (abortLaunch u x s) :=
  foldl_abortOn_xfers h

theorem foldl_abortOn_notKv {u x : Nat} : ∀ {ks : List Nat} {s : State}, NotKv u s → NotKv u (ks.foldl (abortOn u x) s)
  | [], _, h => h
  | _ :: ks, _, h => foldl_abortOn_notKv (ks := ks) (abortOn_xfers h).1

theorem NotKv.killLaunch {u st d : Nat} {s : State} (h : NotKv u s) : NotKv u (killLaunch u st d s) := by
  refine foldl_abortOn_notKv (h.onCmd (fun c => ?_) fun c => ?_)
  all_goals split <;> rfl

theorem sameXfers_killLaunch {u st d : Nat} {s : State} (h : NotKv u s) : SameXfers s (killLaunch u st d s) := by
  have hcores (g : Cmd → Cmd) : (onCmd u g s).cores = s.cores := rfl
  refine (SameXfers.of_cores (hcores _)).trans (sameXfers_abortLaunch (h.onCmd (fun c => ?_) fun c => ?_))
  all_goals split <;> rfl

/-- The command that a core works for is none that works on a KV table, and the core's launch is its. -/
def CoreNotKv (k : Nat) (s : State) : Prop := ∀ l, (vat s.cores k).launch = some l → NotKv l.cmd s

theorem sameXfers_settleDrain {k : Nat} {s : State} (h : CoreNotKv k s) : SameXfers s (settleDrain k s) := by
  unfold settleDrain
  extract_lets K
  split
  · exact .refl s
  · split
    case h_1 =>
      cases hl : (vat s.cores k).launch with
      | none =>
        unfold stopCore
        rw [hl]
        exact .refl s
      | some l => exact sameXfers_stopCore hl (h l hl)
    case h_2 l _ hl =>
      exact (sameXfers_stopCore hl (h l hl)).trans (sameXfers_abortLaunch (stopCore_fault hl (h l hl)).1)
    case h_3 => exact .refl s

/-! ### XFER_COMPLETE (R464, R465) -/

/-- A core that does not drain stays. -/
theorem settleDrain_of_mode {k : Nat} {s : State} (h : (vat s.cores k).mode ≠ .draining) : settleDrain k s = s := by
  unfold settleDrain
  extract_lets K
  rw [if_pos (by simp [K, h])]

/-- What a command is charged leaves its block. -/
theorem cmdOf_stripped {s t : State} {u : Nat}
    (h : t.cmds.map (fun c => { c with energy := 0 }) = s.cmds.map fun c => { c with energy := 0 }) :
    (cmdOf t u).map (fun c => { c with energy := 0 }) = (cmdOf s u).map fun c => { c with energy := 0 } := by
  have hfind : ∀ l : List Cmd, (l.find? (·.uid == u)).map (fun c => { c with energy := 0 }) =
      (l.map fun c => { c with energy := 0 }).find? (·.uid == u) := fun l => by
    rw [List.find?_map]
    rfl
  exact (hfind _).trans ((congrArg (List.find? (·.uid == u)) h).trans (hfind _).symm)

theorem notKv_of_stripped {s t : State}
    (h : t.cmds.map (fun c => { c with energy := 0 }) = s.cmds.map fun c => { c with energy := 0 }) {u : Nat} (hk : NotKv u s) :
    NotKv u t := by
  intro c hc
  have hs := cmdOf_stripped (u := u) h
  rw [hc] at hs
  obtain ⟨c', hc', he⟩ := Option.map_eq_some_iff.1 hs.symm
  have hb : c'.bytes = c.bytes := by
    have h := congrArg Cmd.bytes he
    exact h
  have := hk c' hc'
  unfold isKv at *
  rwa [← hb]

theorem Charged.notKv {s t : State} (h : Charged s t) {u : Nat} (hk : NotKv u s) : NotKv u t := notKv_of_stripped h.cmds hk

/-- The bytes of a transfer do not depend on what the cores hold, where its source is the device. -/
theorem xferBytes_cores {x : Xfer} {r : HostReply} {s : State} {v : Vector Core 136} :
    xferBytes x r { s with cores := v } = xferBytes x r s := by
  have h1 : regBytes { s with cores := v } x.src x.len = regBytes s x.src x.len := rfl
  have h2 : poisoned { s with cores := v } x.src x.len = poisoned s x.src x.len := rfl
  have h3 : ∀ n a, daRead { s with cores := v } a n = daRead s a n := by
    intro n
    induction n with
    | zero => exact fun _ => rfl
    | succ n ih => exact fun a => congrArg₂ List.cons rfl (ih (a + 1))
  simp only [xferBytes, h1, h2, h3]

/-- The core without its oldest transfer. -/
def xferTaken (k : Nat) (xs : List Xfer) (s : State) : State := onCore k (fun K => { K with xfers := xs }) s

/-- The end of the oldest transfer of a core, whose bytes are there: what is charged, its write, and the end of a core that
drained for it. -/
theorem xferComplete_eq {k : Nat} {r : HostReply} {s : State} {x : Xfer} {xs : List Xfer} {bs : List Byte}
    (hx : (vat s.cores k).xfers = x :: xs) (hb : xferBytes x r s = some bs) (hr : ¬ (x.src / 2 ^ 52 = 6 ∧ r = .granted)) :
    (x.dst / 2 ^ 52 = 6 → ∃ u, Charged (xferTaken k xs s) u ∧
      xferComplete k r s = settleDrain k (hostWrite (hostOf x.dst).1 (hostOf x.dst).2 bs u)) ∧
    (x.dst / 2 ^ 52 ≠ 6 → ∃ u, Charged (xferTaken k xs s) u ∧
      xferComplete k r s = settleDrain k (if (daWrite u x.dst bs).1 then (daWrite u x.dst bs).2
        else match coreCmd (daWrite u x.dst bs).2 k with
          | some c => killLaunch c.uid 0x22 0 (daWrite u x.dst bs).2
          | none => (daWrite u x.dst bs).2)) := by
  unfold xferComplete
  rw [hx]
  dsimp only
  rw [if_neg hr]
  generalize hp : onCore k (fun K => { K with xfers := xs }) s = s1
  have hs1 : xferTaken k xs s = s1 := hp
  rw [hs1]
  generalize hq : (if (x.src / 2 ^ 52 = 6 && r != .refused) = true then hostActivity k x.src x.len s1 else s1) = s2
  have hb1 : xferBytes x r s1 = some bs := by
    rw [← hb, ← hp]
    exact xferBytes_cores
  have h12 : Charged s1 s2 := by
    rw [← hq]
    split
    · exact busActivity_charged
    · exact .refl _
  have hb2 : xferBytes x r s2 = some bs := by
    by_cases h6 : x.src / 2 ^ 52 = 6
    · rw [← hb1]
      simp only [xferBytes, if_pos h6]
    · have he : s2 = s1 := hq.symm.trans (if_neg fun h => h6 (of_decide_eq_true (Bool.and_eq_true_iff.1 h).1))
      rw [he, hb1]
  simp only [hb2]
  have hcharge : ∀ c, Charged s2 (chargeCmd c x.src x.len (chargeCmd c x.dst x.len s2)) :=
    fun _ => chargeCmd_charged.trans chargeCmd_charged
  obtain ⟨o, hcc⟩ : ∃ o, coreCmd s2 k = o := ⟨_, rfl⟩
  cases o with
  | none =>
    simp only [hcc]
    refine ⟨fun h6 => ?_, fun h6 => ?_⟩
    · rw [if_pos h6]
      exact ⟨hostActivity k x.dst x.len s2, h12.trans busActivity_charged, rfl⟩
    · rw [if_neg h6]
      exact ⟨s2, h12, rfl⟩
  | some c =>
    simp only [hcc]
    refine ⟨fun h6 => ?_, fun h6 => ?_⟩
    · rw [if_pos h6]
      exact ⟨hostActivity k x.dst x.len _, (h12.trans (hcharge c)).trans busActivity_charged, rfl⟩
    · rw [if_neg h6]
      exact ⟨_, h12.trans (hcharge c), rfl⟩

/-! What the write of a transfer leaves -/

theorem hostWrite_out_of {s u : State} {f a : Nat} {bs : List Byte} (hm : mayIssue u f = mayIssue s f)
    (ha : attrOf u f false = attrOf s f false) (ho : u.out = s.out) : (hostWrite f a bs u).out = (hostWrite f a bs s).out := by
  unfold hostWrite hostWriteRo
  rw [hm, ha]
  split
  · exact congrArg (_ :: ·) ho
  · exact ho

theorem daPoke_mem_of {bs : List Byte} : ∀ {s u : State} {a : Nat}, u.mem = s.mem → u.image = s.image →
    (daPoke u a bs).mem = (daPoke s a bs).mem := by
  induction bs with
  | nil => exact fun h _ => h
  | cons b bs ih =>
    intro s u a hm hi
    refine ih ?_ hi
    dsimp only
    rw [hm, hi]

theorem poisonedUnits_of {s u : State} {a n : Nat} (hp : u.poison = s.poison) (hi : u.image = s.image) :
    poisonedUnits u a n = poisonedUnits s a n := by
  simp only [poisonedUnits, poisonAt, hp, hi]

theorem daWrite_of {s u : State} {a : Nat} {bs : List Byte} (hm : u.mem = s.mem) (hp : u.poison = s.poison)
    (hi : u.image = s.image) : (daWrite u a bs).1 = (daWrite s a bs).1 ∧ (daWrite u a bs).2.mem = (daWrite s a bs).2.mem := by
  have hcov : ((poisonedUnits u a bs.length).all fun w => coversUnit u a bs.length w) =
      (poisonedUnits s a bs.length).all fun w => coversUnit s a bs.length w := by
    simp only [poisonedUnits_of hp hi, coversUnit, hi]
  simp only [daWrite, hcov]
  split
  · exact ⟨rfl, daPoke_mem_of hm hi⟩
  · exact ⟨rfl, hm⟩

theorem daWrite_rest (s : State) (a : Nat) (bs : List Byte) :
    (daWrite s a bs).2 = { s with mem := (daWrite s a bs).2.mem, poison := (daWrite s a bs).2.poison } := by
  simp only [daWrite]
  split
  · rw [daPoke_rest]
  · rfl

/-- A row that ends a transfer whose bytes are there ends it in the state as it is. -/
theorem exec_xferComplete {s : State} {k : Fin 136} {x : Xfer} {xs : List Xfer} {r : HostReply} {bs : List Byte}
    (hx : (vat s.cores k.val).xfers = x :: xs) (hb : xferBytes x r s = some bs) :
    exec (.xferComplete k r) s = .next (xferComplete k.val r s) := by
  change execXferComplete k r s = _
  unfold execXferComplete xferReader
  rw [hx, List.head?_cons, Option.bind_some]
  by_cases h6 : x.src / 2 ^ 52 = 6
  · rw [if_pos h6]
    cases r
    case data d => rfl
    all_goals exact absurd hb (by simp only [xferBytes, if_pos h6, reduceCtorEq, not_false_eq_true])
  · rw [if_neg h6]

/-- R464, R465: the oldest transfer of a core ends. -/
theorem xferComplete_spec {s : State} {k : Nat} {x : Xfer} {xs : List Xfer} {r : HostReply} {bs : List Byte}
    (hx : (vat s.cores k).xfers = x :: xs) (hb : xferBytes x r s = some bs) (hr : ¬ (x.src / 2 ^ 52 = 6 ∧ r = .granted))
    (hkv : ∀ c, coreCmd s k = some c → opcodeOf c.bytes = 0x60) :
    let K := vat s.cores k
    let t := xferComplete k r s
    (vat t.cores k).xfers = xs ∧
    (x.dst / 2 ^ 52 = 6 → K.mode ≠ .draining → t.out = (hostWrite (hostOf x.dst).1 (hostOf x.dst).2 bs s).out ∧ t.mem = s.mem) ∧
    (x.dst / 2 ^ 52 ≠ 6 → K.mode ≠ .draining → (daWrite s x.dst bs).1 = true → t.mem = (daWrite s x.dst bs).2.mem ∧ t.out = s.out) ∧
    (K.mode = .draining → K.drain = .endKernel → K.launch.isSome = true → xs = [] → x.dst / 2 ^ 52 = 6 →
      (vat t.cores k).mode = .idle) ∧
    (K.mode ≠ .draining → x.dst / 2 ^ 52 = 6 → (vat t.cores k).mode = K.mode) := by
  intro K t
  have hnot : ∀ l, K.launch = some l → NotKv l.cmd s := by
    intro l hl c hc
    have h60 := hkv c (by rw [coreCmd, hl]; exact hc)
    rw [isKv, h60]
    decide
  obtain ⟨hhost, hdev⟩ := xferComplete_eq hx hb hr
  have hcore (u : State) (hu : Charged (xferTaken k xs s) u) : vat u.cores k = { K with xfers := xs } := by
    rw [hu.cores]
    exact vat_onCore
  have hnotu (u : State) (hu : Charged (xferTaken k xs s) u) (l : Launch) (hl : K.launch = some l) : NotKv l.cmd u :=
    hu.notKv (u := l.cmd) ((hnot l hl).of_cmds rfl)
  have hrest (u : State) (hu : Charged (xferTaken k xs s) u) : ∀ f a, (hostWrite f a bs u).out = (hostWrite f a bs s).out := by
    intro f a
    apply hostWrite_out_of
    all_goals
      rw [hu.rest]
      rfl
  have hkept (u w : State) (hu : Charged (xferTaken k xs s) u) (hw : SameXfers u w) (hnw : ∀ l, K.launch = some l → NotKv l.cmd w) :
      (vat (settleDrain k w).cores k).xfers = xs := by
    have hcn : CoreNotKv k w := by
      intro l hl
      obtain h | h := (hw k).launch
      · exact hnw l (by rw [← hl, h, hcore u hu])
      · rw [h] at hl
        cases hl
    rw [((hw.trans (sameXfers_settleDrain hcn)) k).xfers, hcore u hu]
  by_cases h6 : x.dst / 2 ^ 52 = 6
  · obtain ⟨u, hu, ht⟩ := hhost h6
    have hc : vat (hostWrite (hostOf x.dst).1 (hostOf x.dst).2 bs u).cores k = { K with xfers := xs } := by
      rw [hostWrite_cores, hcore u hu]
    have hstay (hm : K.mode ≠ .draining) : t = hostWrite (hostOf x.dst).1 (hostOf x.dst).2 bs u :=
      ht.trans (settleDrain_of_mode (by rw [hc]; exact hm))
    refine ⟨?_, fun _ hm => ?_, fun h => absurd h6 h, fun hm hd hl hxs _ => ?_, fun hm _ => ?_⟩
    · rw [show t = _ from ht]
      exact hkept u _ hu (.of_cores hostWrite_cores) fun l hl => (hnotu u hu l hl).of_cmds hostWrite_cmds
    · rw [hstay hm, hostWrite_mem, hrest u hu, hu.mem]
      exact ⟨rfl, rfl⟩
    · obtain ⟨l, hl⟩ := Option.isSome_iff_exists.1 hl
      have hstop : t = stopCore k none (hostWrite (hostOf x.dst).1 (hostOf x.dst).2 bs u) := by
        rw [show t = _ from ht, settleDrain]
        simp only [hc, hm, hd, hl, hxs]
        rfl
      rw [hstop]
      obtain ⟨_, _, _, _, hidle, _⟩ := stopCore_end (k := k) (s := hostWrite (hostOf x.dst).1 (hostOf x.dst).2 bs u) (l := l)
        (by rw [hc]; exact hl) ((hnotu u hu l hl).of_cmds hostWrite_cmds)
      exact hidle
    · rw [hstay hm, hc]
  · obtain ⟨u, hu, ht⟩ := hdev h6
    obtain ⟨hok, hmem⟩ := daWrite_of (s := s) (u := u) (a := x.dst) (bs := bs) (hu.mem.trans rfl) (by rw [hu.rest]; rfl)
      (by rw [hu.rest]; rfl)
    have hc : (daWrite u x.dst bs).2.cores = u.cores := by rw [daWrite_rest]
    have hcmds : (daWrite u x.dst bs).2.cmds = u.cmds := by rw [daWrite_rest]
    refine ⟨?_, fun h => absurd h h6, fun _ hm hw => ?_, fun _ _ _ _ h => absurd h h6, fun _ h => absurd h h6⟩
    · rw [show t = _ from ht]
      split
      · exact hkept u _ hu (.of_cores hc) fun l hl => (hnotu u hu l hl).of_cmds hcmds
      · split
        case h_2 => exact hkept u _ hu (.of_cores hc) fun l hl => (hnotu u hu l hl).of_cmds hcmds
        case h_1 c hcc =>
          obtain ⟨l', hl', hcl⟩ := Option.bind_eq_some_iff.1 hcc
          rw [hc, hcore u hu] at hl'
          have hl'' : K.launch = some l' := hl'
          have huid : c.uid = l'.cmd := cmdOf_uid hcl
          have hn : NotKv c.uid (daWrite u x.dst bs).2 := by
            rw [huid]
            exact (hnotu u hu l' hl'').of_cmds hcmds
          refine hkept u _ hu ((SameXfers.of_cores hc).trans (sameXfers_killLaunch hn)) fun l hl => ?_
          have hll : l = l' := Option.some.inj (hl.symm.trans hl'')
          rw [hll, ← huid]
          exact hn.killLaunch
    · have hstay : t = (daWrite u x.dst bs).2 := by
        rw [show t = _ from ht, if_pos (by rw [hok]; exact hw)]
        exact settleDrain_of_mode (by rw [hc, hcore u hu]; exact hm)
      rw [hstay]
      refine ⟨hmem, ?_⟩
      rw [daWrite_rest]
      exact hu.out

/-! ### Stores and transfers of a bundle (R452, R456, R464) -/

/-- The state around one operation of an issuing bundle, and the core and what has been sent when its operations are done. -/
theorem issueBundle_around {s : State} {k : Nat} {c : Cmd} {ops pre post : List Op} {o : Op} (hi : Issuing s k c ops)
    (e : ops = pre ++ o :: post) :
    ∃ s1, CoreStep k s s1 ∧ (∃ l, (vat s1.cores k).xfers = (vat s.cores k).xfers ++ l) ∧
      (∃ l, (vat (issueBundle c ops k s).cores k).stores =
        ((vat (opIn c ops k s s1 o).cores k).stores ++ l).filter
          (fun p => !decide (p.due ≤ (vat s.cores k).cycles + bundleCycles (vat s.cores k) ops))) ∧
      (∃ l, (vat (issueBundle c ops k s).cores k).xfers = (vat (opIn c ops k s s1 o).cores k).xfers ++ l) ∧
      ∃ l, (issueBundle c ops k s).out = l ++ (opIn c ops k s s1 o).out := by
  obtain ⟨s0, h1, _, h3, C, hC, _, hst, hxf, _, _, hout, _⟩ := issueBundle_waits hi
  obtain ⟨hpre, _, hpost⟩ := opsEffect_split (s0 := s0) hi e
  obtain ⟨l1, e1⟩ := hpre.xfers
  obtain ⟨l2, e2⟩ := hpost.stores
  obtain ⟨l3, e3⟩ := hpost.xfers
  refine ⟨pre.foldl (opIn c ops k s) s0, h3.trans hpre.toCoreStep, ⟨l1, by rw [e1, h1]⟩, ⟨l2, by rw [hst, hC, e2]⟩,
    ⟨l3, by rw [hxf, hC, e3]⟩, ?_⟩
  have hfold : ops.foldl (opIn c ops k s) s0 =
      post.foldl (opIn c ops k s) (opIn c ops k s (pre.foldl (opIn c ops k s) s0) o) :=
    (congrArg (List.foldl _ s0) e).trans (by rw [List.foldl_append, List.foldl_cons])
  rw [hout, hfold]
  exact (Keeps.foldl (fun _ _ h => opEffect_keeps h) (Keeps.same _)).out

/-- The bytes that a store writes (Table 12-6). -/
def storeBytes (K : Core) (o : Op) : List Byte :=
  if o.code = 0x0A then leBytes 64 (rdV K o.b).toNat else leBytes (memSize o.code) (rdG K o.b).toNat

theorem opIn_store {s s1 : State} {k : Nat} {c : Cmd} {ops : List Op} {o : Op} (hc : o.cls = .mem)
    (hm : 6 ≤ o.code ∧ o.code ≤ 0x0A) :
    (vat (opIn c ops k s s1 o).cores k).stores = (vat s1.cores k).stores ++
      [{ addr := memAddr (vat s.cores k) o, bytes := storeBytes (vat s.cores k) o, due := (vat s.cores k).cycles + 2 }] := by
  have he : opIn c ops k s s1 o = memEffect c k (vat s.cores k) o s1 := by simp only [opIn, opEffect, hc]
  have h4 : ¬ o.code ≤ 4 := by omega
  have h5 : ¬ o.code = 5 := by omega
  have hx : ¬ (o.code = 0x0B ∨ o.code = 0x0C) := by omega
  rw [he]
  simp only [memEffect, if_neg h4, if_neg h5, if_neg hx, vat_onCore, memCharge.cores, storeBytes]

/-- R452, R456: a store of an issuing bundle waits, where the bundle does not wait for accumulator slots. -/
theorem store_waits {s : State} {k : Nat} {c : Cmd} {ops : List Op} {o : Op} (hi : Issuing s k c ops) (ho : o ∈ ops)
    (hc : o.cls = .mem) (hm : 6 ≤ o.code ∧ o.code ≤ 0x0A) (hacc : ∀ x ∈ ops, x.cls ≠ .acc) :
    ({ addr := memAddr (vat s.cores k) o, bytes := storeBytes (vat s.cores k) o, due := (vat s.cores k).cycles + 2 } : PendStore) ∈
      (vat (issueBundle c ops k s).cores k).stores := by
  obtain ⟨pre, post, e⟩ := List.append_of_mem ho
  obtain ⟨s1, _, _, ⟨l, hst⟩, _, _⟩ := issueBundle_around hi e
  rw [hst, opIn_store hc hm, bundleCycles_plain hacc]
  refine List.mem_filter.2 ⟨List.mem_append_left _ (List.mem_append_right _ (List.mem_singleton.2 rfl)), ?_⟩
  simp

/-- The transfer that XFER.IN or XFER.OUT names (R464). -/
def opXfer (K : Core) (o : Op) : Xfer :=
  let n := (rdG K o.d).toNat
  let crib := (rdG K o.a).toNat
  let dev := (rdG K o.b).toNat
  if o.code = 0x0B then { src := dev, dst := crib, len := n } else { src := crib, dst := dev, len := n }

theorem opIn_xfer {s s1 : State} {k : Nat} {c : Cmd} {ops : List Op} {o : Op} (hc : o.cls = .mem)
    (hm : o.code = 0x0B ∨ o.code = 0x0C) :
    (vat (opIn c ops k s s1 o).cores k).xfers = (vat s1.cores k).xfers ++ [opXfer (vat s.cores k) o] ∧
    ((opXfer (vat s.cores k) o).src / 2 ^ 52 = 6 →
      .hostRead { func := c.func, addr := (hostOf (opXfer (vat s.cores k) o).src).2, len := (rdG (vat s.cores k) o.d).toNat,
                  ats := false } (attrOf s1 c.func false) ∈ (opIn c ops k s s1 o).out) := by
  have hcode : ¬ o.code ≤ 0x0A := by omega
  have he : opIn c ops k s s1 o = issueXfer c.func k (vat s.cores k) o s1 := by
    have h4 : ¬ o.code ≤ 4 := by omega
    have h5 : ¬ o.code = 5 := by omega
    simp only [opIn, opEffect, hc, memEffect, if_neg hcode, if_neg h4, if_neg h5, if_pos hm]
  have hx : issueXfer c.func k (vat s.cores k) o s1 =
      if (opXfer (vat s.cores k) o).src / 2 ^ 52 = 6 then
        hostAsk { func := c.func, addr := (hostOf (opXfer (vat s.cores k) o).src).2, len := (rdG (vat s.cores k) o.d).toNat,
                  ats := false } (onCore k (fun C => { C with xfers := C.xfers ++ [opXfer (vat s.cores k) o] }) s1)
      else onCore k (fun C => { C with xfers := C.xfers ++ [opXfer (vat s.cores k) o] }) s1 := rfl
  rw [he, hx]
  have hone : (vat (onCore k (fun C => { C with xfers := C.xfers ++ [opXfer (vat s.cores k) o] }) s1).cores k).xfers =
      (vat s1.cores k).xfers ++ [opXfer (vat s.cores k) o] := congrArg Core.xfers vat_onCore
  constructor
  · split
    · exact hone
    · exact hone
  · intro h6
    rw [if_pos h6]
    exact List.mem_cons_self

/-- R464: a transfer of an issuing bundle joins the outstanding ones; one that reads host memory sends its read. -/
theorem xfer_issued {s : State} {k : Nat} {c : Cmd} {ops : List Op} {o : Op} (hi : Issuing s k c ops) (ho : o ∈ ops)
    (hc : o.cls = .mem) (hm : o.code = 0x0B ∨ o.code = 0x0C) :
    let x := opXfer (vat s.cores k) o
    let t := issueBundle c ops k s
    x ∈ (vat t.cores k).xfers ∧ (∃ l, (vat t.cores k).xfers = (vat s.cores k).xfers ++ l) ∧
      (x.src / 2 ^ 52 = 6 → .hostRead { func := c.func, addr := (hostOf x.src).2, len := (rdG (vat s.cores k) o.d).toNat, ats := false }
        (attrOf s c.func false) ∈ t.out) := by
  intro x t
  obtain ⟨pre, post, e⟩ := List.append_of_mem ho
  obtain ⟨s1, h1, ⟨l1, e1⟩, _, ⟨l2, e2⟩, ⟨l3, e3⟩⟩ := issueBundle_around hi e
  obtain ⟨hx, hout⟩ := opIn_xfer (s := s) (s1 := s1) (k := k) (c := c) (ops := ops) hc hm
  have hattr : attrOf s1 c.func false = attrOf s c.func false := by
    rw [h1.rest]
    rfl
  refine ⟨?_, ⟨l1 ++ [x] ++ l2, ?_⟩, fun h6 => ?_⟩
  · rw [show (vat t.cores k).xfers = _ from e2, hx]
    exact List.mem_append_left _ (List.mem_append_right _ (List.mem_singleton.2 rfl))
  · rw [show (vat t.cores k).xfers = _ from e2, hx, e1, List.append_assoc, List.append_assoc, List.append_assoc]
  · rw [show t.out = _ from e3, ← hattr]
    exact List.mem_append_right _ (hout h6)

/-- Settles O47: the stores and transfers of a bundle, and the end of a transfer. -/
theorem storesAndTransfersAreIssued : Obligations.StoresAndTransfersAreIssued := by
  unfold Obligations.StoresAndTransfersAreIssued
  refine ⟨?_, fun s k x xs r bs hx hb hr hkv => ⟨_, exec_xferComplete hx hb, xferComplete_spec hx hb hr hkv⟩⟩
  intro s k slot c ops o hi hg ho hs K a dev crib len stores moves
  have row {m : Nat} {i : Instr} (hm : o.code = m) (h0 : m ≠ 0) (hr : coreRow i = some (k.val, .mem, m, slot.val + 3)) :
      o.cls = .mem ∧ exec i s = .next (issueBundle c ops k.val s) := by
    have hc : o.cls = .mem := cls_of_mem hs (hm ▸ h0)
    exact ⟨hc, exec_issues hi hg ho (by simp [hc]) (by rw [hr, hc, hm, hs])⟩
  have stored {m : Nat} {i : Instr} {bs : List Byte} (hm : o.code = m) (hr : 6 ≤ m ∧ m ≤ 0x0A)
      (he : coreRow i = some (k.val, .mem, m, slot.val + 3)) (hb : storeBytes K o = bs) : stores i bs := by
    obtain ⟨hc, hexec⟩ := row hm (by omega) he
    exact ⟨_, hexec, fun hacc => hb ▸ store_waits hi ho hc (hm ▸ hr) hacc⟩
  have moved {m : Nat} {i : Instr} {x : Xfer} (hm : o.code = m) (hr : m = 0x0B ∨ m = 0x0C)
      (he : coreRow i = some (k.val, .mem, m, slot.val + 3)) (hx : opXfer K o = x) : moves i x := by
    obtain ⟨hc, hexec⟩ := row hm (by omega) he
    exact ⟨_, hexec, hx ▸ xfer_issued hi ho hc (hm ▸ hr)⟩
  have bytes {m : Nat} (hm : o.code = m) (h : m ≠ 0x0A) : storeBytes K o = leBytes (memSize m) (rdG K o.b).toNat := by
    rw [storeBytes, hm, if_neg h]
  exact ⟨fun h => stored h (by decide) rfl (bytes h (by decide)), fun h => stored h (by decide) rfl (bytes h (by decide)),
    fun h => stored h (by decide) rfl (bytes h (by decide)), fun h => stored h (by decide) rfl (bytes h (by decide)),
    fun h => stored h (by decide) rfl (if_pos h), fun h => moved h (by decide) rfl (if_pos h),
    fun h => moved h (by decide) rfl (if_neg (by omega))⟩

end Sys2Proof.Machine
end

section
/-!
PROOFS. The ACC operations of a bundle (section 12.3, Table 12-8): each acts on the one slot that no other operation of its
bundle names.
-/
namespace Sys2Proof.Machine

/-- The class of an operation in an ACC slot is what its code says. -/
theorem accIllegal_of {s : State} {f k : Nat} {K : Core} {o : Op} (hc : o.cls = .acc) (h : illegalOp s f k K o = false) :
    accIllegal K o = false := by
  simp only [illegalOp, hc, Bool.or_eq_false_iff] at h
  exact h.1

/-- A slot operation of a legal bundle names one of the four front tiles when the slots are split in banks (R431). -/
theorem tile_lt_of {K : Core} {o : Op} (h : accIllegal K o = false) (hm : o.code < 0x87) (hd : modeDbuf K.modeReg = true) :
    o.tile < 4 := by
  have h87 : ¬ (o.code = 0x87 ∨ o.code = 0x88) := by omega
  have h88 : ¬ 0x88 < o.code := by omega
  by_contra h4
  have h4' : modeDbuf K.modeReg ∧ 4 ≤ o.tile := ⟨hd, by omega⟩
  rw [accIllegal, if_neg h87, if_neg h88, if_pos h4'] at h
  cases h

/-- The slot that a slot operation of a legal bundle names. -/
theorem accSlot_of {K : Core} {o : Op} (hc : o.cls = .acc) (h : accIllegal K o = false) (hm : 0x80 ≤ o.code ∧ o.code ≤ 0x86) :
    accSlot K o = some (physSlot K o.back o.tile) := by
  have h4 : (modeDbuf K.modeReg && decide (4 ≤ o.tile)) = false := by
    rw [Bool.and_eq_false_iff]
    by_cases hd : modeDbuf K.modeReg = true
    · exact .inr (decide_eq_false (by have := tile_lt_of h (by omega) hd; omega))
    · exact .inl (Bool.eq_false_iff.2 hd)
  simp [accSlot, hc, hm, h4]

/-- An operation of a legal bundle leaves the slots that it does not name. -/
theorem opEffect_tile {M : List Host.Cell} {w f k n : Nat} {c : Cmd} {K : Core} {s s' : State} {o : Op} (hn : n < 8)
    (hok : illegalOp s' f k K o = false) (hs : o.cls = .acc → accSlot K o ≠ some n) :
    vat (vat (opEffect M w c k K s o).cores k).tiles n = vat (vat s.cores k).tiles n := by
  by_cases hc : o.cls = .acc
  · have hill := accIllegal_of hc hok
    rw [opEffect_acc hc, accBook_tiles.1]
    by_cases h86 : o.code ≤ 0x86
    · exact accEffect_tile hc hn (fun hd => tile_lt_of (K := K) hill (by omega) hd) (hs hc)
    · unfold accEffect
      extract_lets m t kc strip addr
      split
      case h_8 => rw [vat_onCore]
      case h_9 => rw [resultG_tiles.1]
      all_goals omega
  · rw [(opEffect_tiles hc).1]

theorem opsEffect_tile_of {M : List Host.Cell} {w f k n : Nat} {c : Cmd} {K : Core} {s' : State} (hn : n < 8) :
    ∀ {ops : List Op} {s : State}, (∀ o ∈ ops, illegalOp s' f k K o = false) → (∀ o ∈ ops, o.cls = .acc → accSlot K o ≠ some n) →
    vat (vat (ops.foldl (opEffect M w c k K) s).cores k).tiles n = vat (vat s.cores k).tiles n
  | [], _, _, _ => rfl
  | o :: ops, s, hok, hs => by
    rw [List.foldl_cons, opsEffect_tile_of hn (fun x hx => hok x (List.mem_cons_of_mem _ hx)) fun x hx => hs x (List.mem_cons_of_mem _ hx)]
    exact opEffect_tile hn (hok o List.mem_cons_self) (hs o List.mem_cons_self)

/-- Nothing passes a filter before an entry that alone passes it. -/
theorem filter_before_alone {α : Type} {p : α → Bool} {pre post : List α} {o : α} (ho : p o = true)
    (h : (pre ++ o :: post).filter p = [o]) : pre.filter p = [] := by
  rw [List.filter_append, List.filter_cons_of_pos ho] at h
  have hlen := congrArg List.length h
  simp only [List.length_append, List.length_cons, List.length_nil] at hlen
  exact List.length_eq_zero_iff.1 (by omega)

/-- The slot of an operation after its bundle is what the operation made of the slot before it. -/
theorem issueBundle_tile {s : State} {k : Nat} {c : Cmd} {ops : List Op} {o : Op} (hi : Issuing s k c ops) (ho : o ∈ ops)
    (hc : o.cls = .acc) (hm : 0x80 ≤ o.code ∧ o.code ≤ 0x86) :
    let K := vat s.cores k
    let n := physSlot K o.back o.tile
    ∃ s1, (CoreStep k s s1 ∧ (ops.filter (·.cls != .nop) = [o] → s1.mem = s.mem)) ∧ vat (vat s1.cores k).tiles n = vat K.tiles n ∧
      vat (vat (issueBundle c ops k s).cores k).tiles n = vat (vat (opIn c ops k s s1 o).cores k).tiles n := by
  intro K n
  obtain ⟨pre, post, e⟩ := List.append_of_mem ho
  obtain ⟨hb, hall⟩ := illegalBundle_of hi.2.2.1
  have hslot : accSlot K o = some n := accSlot_of hc (accIllegal_of hc (hall o ho)) hm
  have hother (x : Op) (hx : x ∈ pre ∨ x ∈ post) (hxc : x.cls = .acc) : accSlot K x ≠ some n :=
    accSlot_ne hb e hc hslot hx hxc
  have hn : n < 8 := physSlot_lt
  obtain ⟨s0, h1, h2, h3, C, hC, _, _, _, htiles, _⟩ := issueBundle_waits hi
  obtain ⟨hpre, _, _⟩ := opsEffect_split (s0 := s0) hi e
  refine ⟨pre.foldl (opIn c ops k s) s0, ⟨h3.trans hpre.toCoreStep, fun halone => ?_⟩, ?_, ?_⟩
  · rw [opsEffect_live, filter_before_alone (by simp [hc]) (e ▸ halone)]
    exact h2
  · rw [opsEffect_tile_of hn (fun x hx => hall x (e ▸ List.mem_append_left _ hx)) fun x hx => hother x (.inl hx), h1]
  · have hfold : ops.foldl (opIn c ops k s) s0 = post.foldl (opIn c ops k s) (opIn c ops k s (pre.foldl (opIn c ops k s) s0) o) :=
      (congrArg (List.foldl _ s0) e).trans (by rw [List.foldl_append, List.foldl_cons])
    rw [htiles, hC, hfold]
    exact opsEffect_tile_of hn (fun x hx => hall x (e ▸ List.mem_append_right _ (List.mem_cons_of_mem _ hx)))
      fun x hx => hother x (.inr hx)

/-- The core on which an ACC operation of a bundle acts: its wait for its slots is over. -/
def waited (K : Core) (ops : List Op) : Core := { K with cycles := K.cycles + bundleWait K ops }

theorem waited_rdG (K : Core) (ops : List Op) (r : Nat) : rdG (waited K ops) r = rdG K r := rfl

theorem waited_tiles (K : Core) (ops : List Op) : (waited K ops).tiles = K.tiles := rfl

theorem waited_physSlot (K : Core) (ops : List Op) (b : Bool) (t : Nat) : physSlot (waited K ops) b t = physSlot K b t := rfl

/-- What a bundle's operations read of memory after its wait. -/
def waitedMem (ops : List Op) (k : Nat) (s : State) : List Host.Cell := preMem (bundleWait (vat s.cores k) ops) k s

/-- A slot operation of a bundle whose effect is one change of its slot. -/
theorem slot_set {s : State} {k : Nat} {c : Cmd} {ops : List Op} {o : Op} {g : Tile → Tile} (hi : Issuing s k c ops) (ho : o ∈ ops)
    (hc : o.cls = .acc) (hm : 0x80 ≤ o.code ∧ o.code ≤ 0x86)
    (hg : ∀ s1, CoreStep k s s1 → (ops.filter (·.cls != .nop) = [o] → s1.mem = s.mem) →
      ∃ u, u.cores = s1.cores ∧ (accEffect (waitedMem ops k s) c k (waited (vat s.cores k) ops) o s1).cores =
        (onTile k (physSlot (vat s.cores k) o.back o.tile) g u).cores) :
    let K := vat s.cores k
    let n := physSlot K o.back o.tile
    vat (vat (issueBundle c ops k s).cores k).tiles n = g (vat K.tiles n) := by
  intro K n
  obtain ⟨s1, ⟨h1, hmem⟩, htile, he⟩ := issueBundle_tile hi ho hc hm
  obtain ⟨u, hu, heff⟩ := hg s1 h1 hmem
  have hop : opIn c ops k s s1 o = onCore k (accBook (waited K ops).cycles o) (accEffect (waitedMem ops k s) c k (waited K ops) o s1) :=
    opEffect_acc hc
  rw [he, hop, accBook_tiles.1, heff, onTile_tile, if_pos rfl, hu, htile]

/-- An ACC result lands, counted from the end of the bundle's wait. -/
theorem acc_pend {s s1 : State} {k : Nat} {c : Cmd} {ops : List Op} {o : Op} (hc : o.cls = .acc) :
    (vat (opIn c ops k s s1 o).cores k).pend =
      (vat (accEffect (waitedMem ops k s) c k (waited (vat s.cores k) ops) o s1).cores k).pend := by
  have hop : opIn c ops k s s1 o = onCore k (accBook (waited (vat s.cores k) ops).cycles o)
      (accEffect (waitedMem ops k s) c k (waited (vat s.cores k) ops) o s1) := opEffect_acc hc
  rw [hop, vat_onCore, accBook_rest]

/-- ACC.RDS of an issuing bundle. -/
theorem rds_lands {s : State} {k : Nat} {slot : Fin 2} {c : Cmd} {ops : List Op} {o : Op} (hi : Issuing s k c ops)
    (hg : goesOn ops = true) (ho : o ∈ ops) (hs : o.slot = slot.val + 6) (hc : o.cls = .acc) (hm : o.code = 0x82) :
    let K := vat s.cores k
    let due := K.cycles + bundleWait K ops + 6
    SettledBy K (.v (o.d % 32)) due →
    Lands (issueOp .acc 0x82 (slot.val + 6) k s) k (.v (o.d % 32))
      (ofStrip (readStrip (vat K.tiles (physSlot K o.back o.tile)) (bits o.w 29 4))) due := by
  intro K due hq
  refine issueOp_lands (e := ⟨.v (o.d % 32), ofStrip (readStrip (vat K.tiles (physSlot K o.back o.tile)) (bits o.w 29 4)), due⟩)
    hi hg ho hs hc hm (by decide) (decide_eq_true (mod32_lt _)) ?_ (by simp) hq fun pre post s1 _ _ _ _ => ?_
  · rw [writes_acc hc, if_pos hm]
    exact List.mem_singleton.2 rfl
  · rw [acc_pend hc]
    simp only [accEffect, hm]
    exact result_pend

/-- ACC.FLAGS of an issuing bundle. -/
theorem flags_land {s : State} {k : Nat} {slot : Fin 2} {c : Cmd} {ops : List Op} {o : Op} (hi : Issuing s k c ops)
    (hg : goesOn ops = true) (ho : o ∈ ops) (hs : o.slot = slot.val + 6) (hc : o.cls = .acc) (hm : o.code = 0x88) :
    let K := vat s.cores k
    let due := K.cycles + bundleWait K ops + 2
    SettledBy K (.g o.d) due →
    LandsG (issueOp .acc 0x88 (slot.val + 6) k s) k o.d (BitVec.ofNat 64 (accFlags K)) due := by
  intro K due hq
  refine issueOp_landsG hi hg ho hs hc hm (by decide) (fun hd => ?_) hq fun pre post s1 _ _ _ _ hd => ?_
  · rw [writes_acc hc, if_neg (by omega), if_pos hm]
    exact mem_gName hd
  · rw [acc_pend hc]
    simp only [accEffect, hm]
    exact resultG_pend hd

/-- Operations of other classes leave slots and bank alone. -/
theorem opsEffect_tiles {M : List Host.Cell} {w k : Nat} {c : Cmd} {K : Core} : ∀ {ops : List Op} {s : State},
    (∀ o ∈ ops, o.cls ≠ .acc) →
    (vat (ops.foldl (opEffect M w c k K) s).cores k).tiles = (vat s.cores k).tiles ∧
    (vat (ops.foldl (opEffect M w c k K) s).cores k).bank = (vat s.cores k).bank
  | [], _, _ => ⟨rfl, rfl⟩
  | o :: ops, s, h => by
    obtain ⟨h1, h2⟩ := opsEffect_tiles (M := M) (w := w) (c := c) (k := k) (K := K) (ops := ops) (s := opEffect M w c k K s o)
      fun x hx => h x (List.mem_cons_of_mem _ hx)
    obtain ⟨h3, h4⟩ := opEffect_tiles (M := M) (w := w) (c := c) (k := k) (K := K) (s := s) (h o List.mem_cons_self)
    exact ⟨h1.trans h3, h2.trans h4⟩

/-- ACC.SWAP changes the bank and no slot (R431). -/
theorem swap_spec {s : State} {k : Nat} {c : Cmd} {ops : List Op} {o : Op} (hi : Issuing s k c ops) (ho : o ∈ ops)
    (hc : o.cls = .acc) (hm : o.code = 0x87) :
    (vat (issueBundle c ops k s).cores k).bank = !(vat s.cores k).bank ∧
    (vat (issueBundle c ops k s).cores k).tiles = (vat s.cores k).tiles := by
  obtain ⟨pre, post, e⟩ := List.append_of_mem ho
  have hb := (illegalBundle_of hi.2.2.1).1
  obtain ⟨s0, h1, _, _, C, hC, _, _, _, htiles, hbank, _⟩ := issueBundle_waits hi
  have hfold : ops.foldl (opIn c ops k s) s0 = post.foldl (opIn c ops k s) (opIn c ops k s (pre.foldl (opIn c ops k s) s0) o) :=
    (congrArg (List.foldl _ s0) e).trans (by rw [List.foldl_append, List.foldl_cons])
  obtain ⟨t1, b1⟩ := opsEffect_tiles (M := waitedMem ops k s) (w := bundleWait (vat s.cores k) ops) (c := c) (k := k)
    (K := vat s.cores k) (ops := pre) (s := s0) fun x hx => accSwap_alone hb e hc hm (.inl hx)
  obtain ⟨t2, b2⟩ := opsEffect_tiles (M := waitedMem ops k s) (w := bundleWait (vat s.cores k) ops) (c := c) (k := k)
    (K := vat s.cores k) (ops := post) (s := opIn c ops k s (pre.foldl (opIn c ops k s) s0) o)
    fun x hx => accSwap_alone hb e hc hm (.inr hx)
  have hswap (u : State) : (vat (opIn c ops k s u o).cores k).tiles = (vat u.cores k).tiles ∧
      (vat (opIn c ops k s u o).cores k).bank = !(vat u.cores k).bank := by
    rw [opIn, opEffect_acc hc, accBook_tiles.1, accBook_tiles.2]
    simp only [accEffect, hm, vat_onCore, and_self]
  obtain ⟨t3, b3⟩ := hswap (pre.foldl (opIn c ops k s) s0)
  rw [htiles, hbank, hC, hfold]
  exact ⟨b2.trans (b3.trans (congrArg (!·) (b1.trans (by rw [h1])))), t2.trans (t3.trans (t1.trans (by rw [h1])))⟩

/-- ACC.SAVE, alone in its bundle, writes the image of its slot (R428). -/
theorem save_mem {s : State} {k : Nat} {c : Cmd} {ops : List Op} {o : Op} (hi : Issuing s k c ops) (hc : o.cls = .acc)
    (hm : o.code = 0x84) (hst : (vat s.cores k).stores = []) (halone : ops.filter (·.cls != .nop) = [o]) :
    let K := vat s.cores k
    (issueBundle c ops k s).mem = (daPoke s (rdG K o.a).toNat (slotImage (vat K.tiles (physSlot K o.back o.tile)))).mem := by
  intro K
  obtain ⟨s0, h1, h2, h3, C, hC, _, _, _, _, _, _, hmem⟩ := issueBundle_waits hi
  have hone : ops.foldl (opIn c ops k s) s0 = onCore k (accBook (waited K ops).cycles o)
      (accEffect (waitedMem ops k s) c k (waited K ops) o s0) := by
    rw [opsEffect_live, halone]
    exact opEffect_acc hc
  have hstores : C.stores = [] := by
    rw [hC, hone, vat_onCore, accBook_rest, ← hst, ← h1]
    exact accEffect_stores
  rw [hmem hstores, hone]
  simp only [accEffect, hm, waited_rdG, waited_tiles, waited_physSlot, onCore_mem]
  have hch := chargeCmd_charged (c := c) (da := (rdG K o.a).toNat) (n := slotImageLen) (s := s0)
  exact daPoke_mem_of (hch.mem.trans h2) (by rw [hch.rest, h3.rest])

/-- What ACC.RESTORE, alone in its bundle with no store waiting, reads is what memory holds (R428). -/
theorem restore_reads {s s1 : State} {k : Nat} {ops : List Op} {a n : Nat} (h : CoreStep k s s1) (hm : s1.mem = s.mem)
    (hst : (vat s.cores k).stores = []) : daRead { s1 with mem := waitedMem ops k s } a n = daRead s a n := by
  have hM : waitedMem ops k s = s1.mem := (landBy_mem hst).trans hm.symm
  rw [hM]
  exact h.daRead hm n a

/-- Settles O49: the operations that set a slot by `slot_set`, the others by what they read, write or swap. -/
theorem accumulatorOperations : Obligations.AccumulatorOperations := by
  unfold Obligations.AccumulatorOperations
  intro s k slot c ops o hi hg ho hs hc K n tile kc strip addr start alone sets
  have row {m : Nat} {i : Instr} (hm : o.code = m) (hr : coreRow i = some (k.val, .acc, m, slot.val + 6)) :
      exec i s = .next (issueBundle c ops k.val s) := exec_issues hi hg ho (by simp [hc]) (by rw [hr, hc, hm, hs])
  refine ⟨fun hm fa fb hf => ⟨_, row hm rfl, ?_⟩, fun hm => ⟨_, row hm rfl, ?_⟩,
    fun hm => ⟨_, rfl, rds_lands hi hg ho hs hc hm⟩, fun hm => ⟨_, row hm rfl, ?_⟩,
    fun hm ha => ⟨_, row hm rfl, save_mem hi hc hm ha.1 ha.2⟩, fun hm ha x hx => ⟨_, row hm rfl, ?_⟩,
    fun hm => ⟨_, row hm rfl, swap_spec hi ho hc hm⟩, fun hm => ⟨_, rfl, flags_land hi hg ho hs hc hm⟩⟩
  · refine slot_set (g := macTile (fun r => vat K.v r) kc (macFields o.w) (o.a % 32) (o.b % 32) fa fb) hi ho hc (by omega)
      fun s1 _ _ => ⟨s1, rfl, ?_⟩
    simp only [accEffect, hm, hf, tally_cores, activity_charged.cores]
    rfl
  · refine slot_set (g := fun _ => tileOverwrite (bit o.w 29) kc (bits o.w 30 3)) hi ho hc (by omega)
      fun s1 _ _ => ⟨s1, rfl, ?_⟩
    simp only [accEffect, hm]
    rfl
  · refine slot_set (g := fun t => writeStrip t (bit o.w 33) kc (bits o.w 34 3) strip
      ((lanesOf .i32 (rdV K o.a)).map fun x => BitVec.ofNat 32 x)) hi ho hc (by omega) fun s1 _ _ => ⟨s1, rfl, ?_⟩
    simp only [accEffect, hm]
    rfl
  · refine slot_set (g := fun _ => x) hi ho hc (by omega)
      fun s1 h1 hmem => ⟨chargeCmd c addr slotImageLen s1, chargeCmd_charged.cores, ?_⟩
    have hread : daRead { s1 with mem := waitedMem ops k.val s } (rdG (waited (vat s.cores k.val) ops) o.a).toNat slotImageLen = daRead s addr slotImageLen :=
      restore_reads h1 (hmem ha.2) ha.1
    simp only [accEffect, hm, hread, hx]
    rfl

end Sys2Proof.Machine
end

section
/-!
PROOFS. Kernels that end (sections 12.9 and 12.12): END and FAULT drain their core and stop it, the command keeps what it has
been charged, and a command that has ended stays ended while its other cores are told.
-/
namespace Sys2Proof.Machine

/-! ### What is charged only adds -/

/-- Every command of `s` is in `t` with no less energy. -/
structure Paid (s t : State) : Prop where
  kept : ∀ u c, cmdOf s u = some c → ∃ e, c.energy ≤ e ∧ cmdOf t u = some { c with energy := e }

theorem Paid.of_cmds {s t : State} (h : t.cmds = s.cmds) : Paid s t :=
  ⟨fun u c hc => ⟨c.energy, le_rfl, by rw [← hc, cmdOf, h]; rfl⟩⟩

theorem Paid.refl (s : State) : Paid s s := .of_cmds rfl

theorem Paid.trans {a b c : State} (h1 : Paid a b) (h2 : Paid b c) : Paid a c := by
  refine ⟨fun u x hx => ?_⟩
  obtain ⟨e1, l1, hb⟩ := h1.kept u x hx
  obtain ⟨e2, l2, hc⟩ := h2.kept u _ hb
  exact ⟨e2, l1.trans l2, hc⟩

theorem Paid.foldl {α : Type} {g : State → α → State} (h : ∀ s x, Paid s (g s x)) : ∀ (l : List α) (s : State), Paid s (l.foldl g s)
  | [], s => .refl s
  | x :: l, s => (h s x).trans (Paid.foldl h l (g s x))

/-- A change of another command leaves a command as it is. -/
theorem cmdOf_onCmd_ne {s : State} {u v : Nat} {g : Cmd → Cmd} (hg : ∀ c, (g c).uid = c.uid) (h : v ≠ u) :
    cmdOf (onCmd v g s) u = cmdOf s u := by
  unfold cmdOf onCmd
  dsimp only
  induction s.cmds with
  | nil => rfl
  | cons c l ih =>
    rw [List.map_cons, List.find?_cons, List.find?_cons, ih]
    by_cases hc : c.uid = v
    · simp [hc, hg, beq_eq_false_iff_ne.2 h]
    · simp [hc]

theorem payEnergy_paid (p : Payer) (e : Nat) (s : State) : Paid s (payEnergy p e s) := by
  unfold payEnergy
  split
  case h_2 => exact .of_cmds rfl
  case h_1 v =>
    split
    case isFalse => exact .of_cmds rfl
    case isTrue =>
      refine ⟨fun u c hc => ?_⟩
      by_cases hv : v = u
      · refine ⟨c.energy + e, Nat.le_add_right .., hv ▸ ?_⟩
        have hpaid := cmdOf_onCmd (s := s) (u := v) (g := fun c => { c with energy := c.energy + e }) fun _ => rfl
        rw [hpaid, hv, hc]
        rfl
      · have hother := cmdOf_onCmd_ne (s := s) (u := u) (v := v) (g := fun c => { c with energy := c.energy + e }) (fun _ => rfl) hv
        exact ⟨c.energy, le_rfl, hother.trans hc⟩

theorem activity_paid (p : Payer) (d n : Nat) (s : State) : Paid s (activity p d n s) := by
  unfold activity
  extract_lets D a
  split
  · exact .refl s
  · refine Paid.trans ?_ (payEnergy_paid ..)
    exact .of_cmds rfl

theorem memActivity_paid (p : Payer) (da n : Nat) (s : State) : Paid s (memActivity p da n s) := by
  unfold memActivity
  extract_lets o pieces
  split
  · exact .foldl (fun _ _ => activity_paid ..) _ _
  · refine .foldl (fun s a => ?_) _ _
    split
    · exact activity_paid ..
    · exact .refl s
  · split
    · exact .foldl (fun _ _ => activity_paid ..) _ _
    · exact .refl s

theorem chargeClass_paid (i da n : Nat) (s : State) : Paid s (chargeClass i da n s) := by
  have hcharge (i r n : Nat) (s : State) : Paid s (charge i r n s) := .of_cmds rfl
  unfold chargeClass
  extract_lets s1
  have h1 : Paid s s1 := hcharge ..
  split
  · exact h1.trans (Paid.trans (hcharge ..) (.foldl (fun _ _ => hcharge ..) _ _))
  · exact h1

theorem chargeCmd_paid (c : Cmd) (da n : Nat) (s : State) : Paid s (chargeCmd c da n s) := by
  unfold chargeCmd
  extract_lets r
  split
  · exact .refl s
  · exact (memActivity_paid (.cmd c.uid) da n s).trans (chargeClass_paid ..)

/-! ### A bundle's operations only charge its command -/

theorem resultG_cmds {k : Nat} {K : Core} {d : Nat} {v : BitVec 64} {lat : Nat} {s : State} :
    (resultG k K d v lat s).cmds = s.cmds := by
  unfold resultG
  split <;> rfl

theorem daPoke_cmds {s : State} {a : Nat} {bs : List Byte} : (daPoke s a bs).cmds = s.cmds := by rw [daPoke_rest]

theorem ctlEffect_paid (c : Cmd) (k : Nat) (K : Core) (o : Op) (s : State) : Paid s (ctlEffect c k K o s) := by
  unfold ctlEffect
  split
  case h_2 => exact .of_cmds rfl
  case h_3 => exact (chargeCmd_paid ..).trans (.of_cmds rfl)
  case h_4 =>
    obtain ⟨m, e⟩ | e | ⟨p, v, e⟩ := movtcEffect_cases k K o s
    · exact .of_cmds (by rw [e]; rfl)
    · exact .of_cmds (by rw [e])
    · exact .of_cmds (by rw [e]; rfl)
  case h_8 => exact .refl s
  all_goals exact .of_cmds resultG_cmds

theorem memEffect_paid (c : Cmd) (k : Nat) (K : Core) (o : Op) (s : State) : Paid s (memEffect c k K o s) := by
  unfold memEffect
  extract_lets a n s1 bs
  have h1 : Paid s s1 := by
    unfold s1
    split
    · exact chargeCmd_paid ..
    · exact .refl s
  refine h1.trans ?_
  split
  · exact .of_cmds resultG_cmds
  · split
    · exact .of_cmds rfl
    · split
      · unfold issueXfer
        extract_lets
        split <;> exact .of_cmds rfl
      · exact .of_cmds rfl

theorem accEffect_paid (M : List Host.Cell) (c : Cmd) (k : Nat) (K : Core) (o : Op) (s : State) : Paid s (accEffect M c k K o s) := by
  unfold accEffect
  extract_lets n t kc strip addr
  split
  case h_1 =>
    split
    · exact .refl s
    · refine (Paid.trans ?_ (activity_paid ..)).trans (.of_cmds tally_cmds)
      exact .of_cmds rfl
  case h_5 => exact (chargeCmd_paid ..).trans (.of_cmds daPoke_cmds)
  case h_6 =>
    split
    · exact (chargeCmd_paid ..).trans (.of_cmds rfl)
    · exact .refl s
  case h_7 => exact .refl s
  case h_9 => exact .of_cmds resultG_cmds
  all_goals exact .of_cmds rfl

theorem opEffect_paid (M : List Host.Cell) (w : Nat) (c : Cmd) (k : Nat) (K : Core) (s : State) (o : Op) :
    Paid s (opEffect M w c k K s o) := by
  unfold opEffect
  split
  case h_1 => exact ctlEffect_paid ..
  case h_2 =>
    rw [intEffect_eq]
    exact .of_cmds resultG_cmds
  case h_3 => exact memEffect_paid ..
  case h_4 =>
    unfold vecEffect
    extract_lets t t2
    split
    · exact .of_cmds resultG_cmds
    · exact .of_cmds rfl
  case h_5 => exact (accEffect_paid ..).trans (.of_cmds rfl)
  case h_6 => exact .refl s

theorem passCycles_cmds {n k : Nat} {s : State} : (passCycles n k s).cmds = s.cmds := by
  unfold passCycles landNow landBy
  dsimp only [onCore]
  rw [foldl_daPoke_rest]

theorem endingOp_cmds {K0 : Core} {ops : List Op} {k : Nat} {s : State} : (endingOp K0 ops k s).cmds = s.cmds := by
  obtain ⟨m, d, e⟩ := @endingOp_rest K0 ops k s
  rw [e]
  rfl

/-- A bundle without a long instruction only adds to what commands have been charged. -/
theorem issueBundle_paid {c : Cmd} {ops : List Op} {k : Nat} {s : State} (hl : ops.any (·.isLong) = false) :
    Paid s (issueBundle c ops k s) := by
  unfold issueBundle
  extract_lets K0 live wait n M s1 s2 s3 s4
  have h1 : Paid s s1 := .of_cmds (by unfold s1; rw [tally_cmds, tally_cmds])
  have h2 : Paid s1 s2 := (Paid.of_cmds tally_cmds).trans (activity_paid ..)
  have h3 : Paid s2 s3 := .foldl (fun _ _ => opEffect_paid ..) _ _
  rw [if_neg (by simp [hl])]
  refine (h1.trans (h2.trans h3)).trans (.of_cmds ?_)
  rw [endingOp_cmds]
  exact passCycles_cmds

/-! ### END, FAULT and TRAP (R465, R480, R484) -/

/-- The command of an issuing core is that of its launch. -/
theorem issuing_command {s : State} {k : Nat} {c : Cmd} {ops : List Op} {l : Launch} (hi : Issuing s k c ops)
    (hl : (vat s.cores k).launch = some l) : cmdOf s l.cmd = some c := by
  obtain ⟨p, hp, hb⟩ := Option.bind_eq_some_iff.1 hi.2.1
  obtain ⟨ops', _, he⟩ := Option.map_eq_some_iff.1 hb
  have hc : p.2.1 = c := congrArg Prod.fst he
  simp only [kernelOf, hl] at hp
  split at hp
  case h_1 => cases hp
  case h_2 c' hc' =>
    obtain ⟨x, _, rfl⟩ := Option.map_eq_some_iff.1 hp
    exact hc'.trans (congrArg some hc)

/-- What an ending bundle's core drains for. -/
def endsFor (K : Core) (o : Op) (pc : Nat) : DrainFor :=
  if o.code = 7 then .endKernel else if o.code = 8 then .faultKernel
  else .exception 6 0 0 (bits o.w 26 16) 0 pc K.pc false K.modePend.isSome false

/-- After a bundle with END, FAULT or TRAP its core drains. -/
theorem issueBundle_ends {s : State} {k : Nat} {c : Cmd} {ops : List Op} {o : Op} (hi : Issuing s k c ops) (ho : o ∈ ops)
    (hc : o.cls = .ctl) (hm : 7 ≤ o.code ∧ o.code ≤ 9) :
    let T := vat (issueBundle c ops k s).cores k
    T.mode = .draining ∧ T.drain = endsFor (vat s.cores k) o T.pc := by
  have hl := long_alone hi.2.2.1 ho (short_of_code hc (by omega)) (by simp [hc])
  obtain ⟨u, _, hu⟩ := (issueBundle_mode hi).2 hl
  have hany (n : Nat) : ops.any (fun x => x.is .ctl n) = decide (o.code = n) := by
    rw [Bool.eq_iff_iff, List.any_eq_true, decide_eq_true_eq]
    constructor
    · rintro ⟨x, hx, hxn⟩
      simp only [Op.is, Bool.and_eq_true, beq_iff_eq] at hxn
      rw [← ctl_unique hi ho hc hx hxn.1, hxn.2]
    · exact fun h => ⟨o, ho, by simp [Op.is, hc, h]⟩
  intro T
  have hT : T = vat (endingOp (vat s.cores k) ops k u).cores k := by rw [← hu]
  unfold endingOp at hT
  rw [hany, hany] at hT
  by_cases h7 : o.code = 7
  · rw [if_pos (decide_eq_true h7), vat_onCore] at hT
    rw [hT, endsFor, if_pos h7]
    exact ⟨rfl, rfl⟩
  rw [if_neg (by simp [h7])] at hT
  by_cases h8 : o.code = 8
  · rw [if_pos (decide_eq_true h8), vat_onCore] at hT
    rw [hT, endsFor, if_neg h7, if_pos h8]
    exact ⟨rfl, rfl⟩
  rw [if_neg (by simp [h8])] at hT
  obtain ⟨post, e, _⟩ := slot0_first hi ho (ctl_slot hc)
  have h9 : o.is .ctl 9 = true := by
    have : o.code = 9 := by omega
    simp [Op.is, hc, this]
  have hfind : (ops.find? fun o => o.is .ctl 0x09) = some o := by
    rw [e]
    exact List.find?_cons_of_pos (p := fun x : Op => x.is .ctl 0x09) h9
  rw [hfind] at hT
  dsimp only at hT
  rw [vat_onCore] at hT
  rw [hT, endsFor, if_neg h7, if_neg h8]
  exact ⟨rfl, rfl⟩

theorem endsFor_end {K : Core} {o : Op} {pc : Nat} (h : o.code = 7) : endsFor K o pc = .endKernel := if_pos h

theorem endsFor_fault {K : Core} {o : Op} {pc : Nat} (h : o.code = 8) : endsFor K o pc = .faultKernel := by
  rw [endsFor, if_neg (by omega), if_pos h]

/-- A core that drains for END with nothing outstanding stops. -/
theorem settleDrain_end {k : Nat} {s : State} (hm : (vat s.cores k).mode = .draining) (hx : (vat s.cores k).xfers.isEmpty = true)
    (hd : (vat s.cores k).drain = .endKernel) : settleDrain k s = stopCore k none s := by
  simp only [settleDrain, hm, hx, hd]
  rfl

theorem settleDrain_fault {k : Nat} {s : State} {l : Launch} (hm : (vat s.cores k).mode = .draining)
    (hx : (vat s.cores k).xfers.isEmpty = true) (hd : (vat s.cores k).drain = .faultKernel)
    (hl : (vat s.cores k).launch = some l) :
    settleDrain k s = abortLaunch l.cmd 0x24 (stopCore k (some (faultCause (vat s.cores k))) s) := by
  simp only [settleDrain, hm, hx, hd, hl]
  rfl

/-- A core with a transfer outstanding goes on draining. -/
theorem settleDrain_waits {k : Nat} {s : State} (hx : (vat s.cores k).xfers.isEmpty = false) : settleDrain k s = s := by
  simp only [settleDrain, hx]
  rw [if_pos (by simp)]

/-- A core that drains for an exception waits for it. -/
theorem settleDrain_trap {k : Nat} {s : State} (h7 : (vat s.cores k).drain ≠ .endKernel)
    (h8 : (vat s.cores k).drain ≠ .faultKernel) : settleDrain k s = s := by
  unfold settleDrain
  extract_lets K
  split
  · rfl
  · split
    case h_1 h => exact absurd h h7
    case h_2 h _ => exact absurd h h8
    case h_3 => rfl

/-- What a bundle issues of transfers. -/
def quietOps (K : Core) (ops : List Op) : Bool := K.xfers.isEmpty && ops.all fun o => !o.is .mem 0x0B && !o.is .mem 0x0C

theorem issueBundle_quiet {s : State} {k : Nat} {c : Cmd} {ops : List Op} (hi : Issuing s k c ops) :
    (vat (issueBundle c ops k s).cores k).xfers.isEmpty = quietOps (vat s.cores k) ops := by
  rw [issueBundle_xfers hi, quietOps]
  simp only [moves, Bool.not_or]

theorem NotKv.of_opcode {u : Nat} {s : State} (h : ∀ c, cmdOf s u = some c → opcodeOf c.bytes = 0x60) : NotKv u s := by
  intro c hc
  rw [isKv, h c hc]
  decide

/-- The command of an issuing core after its bundle. -/
theorem issueBundle_command {s : State} {k : Nat} {c : Cmd} {ops : List Op} {l : Launch} (hi : Issuing s k c ops)
    (hl : (vat s.cores k).launch = some l) (hlong : ops.any (·.isLong) = false) (h60 : opcodeOf c.bytes = 0x60) :
    (vat (issueBundle c ops k s).cores k).launch = some l ∧ NotKv l.cmd (issueBundle c ops k s) ∧
      ∃ e, c.energy ≤ e ∧ cmdOf (issueBundle c ops k s) l.cmd = some { c with energy := e } := by
  have hcmd := issuing_command hi hl
  refine ⟨(issueBundle_kept hi).launch.trans hl, ?_, (issueBundle_paid hlong).kept _ _ hcmd⟩
  refine notKv_of_stripped (issueBundle_step hi).cmds (.of_opcode fun x hx => ?_)
  rw [hcmd] at hx
  cases hx
  exact h60

/-! ### A command that has ended, while other cores are told (R477, R484) -/

/-- Command `u` has ended with KERNEL_FAULT and this DETAIL, and no core runs for it. -/
def FaultEnded (u : Nat) (x : BitVec 32) (s : State) : Prop :=
  ∃ d, cmdOf s u = some d ∧ d.phase = .ended ∧ d.status = 0x23 ∧ d.detail = x ∧ d.cores = 0

theorem FaultEnded.of_cmds {u : Nat} {x : BitVec 32} {s t : State} (h : FaultEnded u x s) (e : t.cmds = s.cmds) :
    FaultEnded u x t := by
  obtain ⟨d, hd, hrest⟩ := h
  exact ⟨d, by rw [← hd, cmdOf, e]; rfl, hrest⟩

/-- A core that ends with ABORT's cause for another core's fault notes no fault. -/
theorem FaultEnded.noteFault {u r : Nat} {x : BitVec 32} {s : State} (h : FaultEnded u x s) :
    FaultEnded u x (noteFault u r 0x24 s) := by
  obtain ⟨d, hd, hrest⟩ := h
  refine ⟨d, ?_, hrest⟩
  refine (cmdOf_onCmd fun _ => ?_).trans (by rw [hd]; rfl)
  rfl

/-- What the end of a command's last core gives it: its own status, where it has one, else its fault (R484). -/
def GivesStatus (c : Cmd) (st dt : Nat) : Prop :=
  (c.status ≠ 0 ∧ st = c.status.toNat ∧ dt = c.detail.toNat) ∨
  (c.status = 0 ∧ ∃ r x, c.fault = some (r, x) ∧ st = 0x23 ∧ dt = x + 256 * r)

theorem coreDone_last {u : Nat} {s : State} {c : Cmd} {st dt : Nat} (h : cmdOf s u = some c) (h1 : c.cores ≤ 1)
    (hp : c.phase ≠ .discarded) (hst : GivesStatus c st dt) :
    ∃ d, cmdOf (coreDone u s) u = some d ∧ d.phase = .ended ∧ d.status = BitVec.ofNat 8 st ∧ d.detail = BitVec.ofNat 32 dt ∧
      d.cores = 0 := by
  have e1 : cmdOf (onCmd u (fun c => { c with cores := c.cores - 1 }) s) u = some { c with cores := c.cores - 1 } :=
    (cmdOf_onCmd (s := s) (u := u) (g := fun c => { c with cores := c.cores - 1 }) fun _ => rfl).trans (by rw [h]; rfl)
  unfold coreDone
  extract_lets s1
  change cmdOf s1 u = _ at e1
  rw [e1]
  dsimp only
  obtain ⟨l, e2⟩ := @stamp_cmdOf u 8 false s1
  rw [e1, Option.map_some] at e2
  have hdone : ∃ d, cmdOf (finishWork u st dt (stamp u 8 false s1)) u = some d ∧ d.phase = .ended ∧
      d.status = BitVec.ofNat 8 st ∧ d.detail = BitVec.ofNat 32 dt ∧ d.cores = 0 := by
    unfold finishWork
    rw [e2]
    dsimp only
    rw [if_neg (by simpa using hp)]
    refine ⟨_, (cmdOf_onCmd fun c => by split <;> rfl).trans (by rw [e2]; rfl), ?_⟩
    dsimp only
    rw [if_neg (by simpa using hp)]
    exact ⟨rfl, rfl, rfl, Nat.sub_eq_zero_of_le h1⟩
  rw [if_neg (by omega)]
  obtain ⟨hne, rfl, rfl⟩ | ⟨h0, r, x, hf, rfl, rfl⟩ := hst
  · rw [if_pos hne]
    exact hdone
  · rw [if_neg (by simp [h0]), hf]
    exact hdone

/-- A command that has ended with a status keeps it when one more core is done. -/
theorem FaultEnded.coreDone {u : Nat} {x : BitVec 32} {s : State} (h : FaultEnded u x s) : FaultEnded u x (coreDone u s) := by
  obtain ⟨d, hd, hphase, hst, hdet, hcores⟩ := h
  obtain ⟨d', hd', hp', hst', hdet', hc'⟩ := coreDone_last hd (by omega) (by simp [hphase])
    (.inl ⟨by rw [hst]; decide, rfl, rfl⟩)
  exact ⟨d', hd', hp', by rw [hst', hst]; rfl, by rw [hdet']; simp [hdet], hc'⟩

theorem coreReset_cmds {k : Nat} {s : State} : (coreReset k s).cmds = s.cmds := rfl

theorem FaultEnded.stopCore {u k : Nat} {x : BitVec 32} {s : State} {l : Launch} (h : FaultEnded u x s)
    (hl : (vat s.cores k).launch = some l) (hu : l.cmd = u) : FaultEnded u x (stopCore k (some 0x24) s) := by
  unfold Machine.stopCore
  rw [hl]
  dsimp only
  rw [hu]
  refine FaultEnded.coreDone (FaultEnded.noteFault (h.of_cmds ?_))
  rw [coreReset_cmds, onCore_cmds, landAll_cmds]

theorem FaultEnded.foldl_coreDone {u : Nat} {x : BitVec 32} : ∀ {g : List Launch} {s : State}, FaultEnded u x s →
    FaultEnded u x (g.foldl (fun s l => Machine.coreDone u (Machine.noteFault u l.rank 0x24 s)) s)
  | [], _, h => h
  | _ :: g, _, h => FaultEnded.foldl_coreDone (g := g) h.noteFault.coreDone

theorem FaultEnded.abortOn {u j : Nat} {x : BitVec 32} {s : State} (h : FaultEnded u x s) (hk : NotKv u s) :
    FaultEnded u x (abortOn u 0x24 s j) := by
  unfold Machine.abortOn
  extract_lets K gone s1 s2
  have h1 : FaultEnded u x s1 := h.of_cmds rfl
  have hl1 : (vat s1.cores j).launch = K.launch := by
    unfold s1
    rw [vat_onCore]
  have h2 : FaultEnded u x s2 := h1.foldl_coreDone
  have hc2 : s2.cores = s1.cores := (Machine.foldl_coreDone (x := 0x24) (g := gone) (s := s1) (hk.of_cmds rfl)).2
  split
  case isFalse => exact h2
  case isTrue hu =>
    split
    · obtain ⟨l, hl, hlu⟩ := Option.map_eq_some_iff.1 (beq_iff_eq.1 hu)
      exact h2.stopCore (by rw [hc2, hl1, hl]) hlu
    · split
      · exact h2
      · exact h2.of_cmds rfl

theorem FaultEnded.abortLaunch {u : Nat} {x : BitVec 32} {s : State} (h : FaultEnded u x s) (hk : NotKv u s) :
    FaultEnded u x (abortLaunch u 0x24 s) := by
  suffices hall : ∀ (js : List Nat) (s : State), FaultEnded u x s → NotKv u s → FaultEnded u x (js.foldl (Machine.abortOn u 0x24) s) from
    hall _ s h hk
  intro js
  induction js with
  | nil => exact fun _ h _ => h
  | cons j js ih => exact fun s h hk => ih _ (h.abortOn hk) (abortOn_xfers hk).1

/-- A command that notes the fault of one of its cores: the fault of the least rank stands (R484). -/
def faulted (rank cause : Nat) (c : Cmd) : Cmd :=
  if cause = 0x24 then c else { c with fault := some (match c.fault with
    | some (r, x) => if rank < r then (rank, cause) else (r, x)
    | none => (rank, cause)) }

theorem cmdOf_noteFault {u r x : Nat} {s : State} : cmdOf (noteFault u r x s) u = (cmdOf s u).map (faulted r x) := by
  refine (cmdOf_onCmd (g := faulted r x) fun c => ?_)
  unfold faulted
  split <;> rfl

/-- The last core of a command ends with a fault: the command ends with KERNEL_FAULT (R484). -/
theorem stopCore_faultEnded {k : Nat} {s : State} {l : Launch} {c : Cmd} (hl : (vat s.cores k).launch = some l)
    (hc : cmdOf s l.cmd = some c) (h1 : c.cores = 1) (hp : c.phase = .working) (hs : c.status = 0) (hf : c.fault = none)
    (y : Nat) (hy : y ≠ 0x24) : FaultEnded l.cmd (BitVec.ofNat 32 (y + 256 * l.rank)) (stopCore k (some y) s) := by
  unfold Machine.stopCore
  rw [hl]
  dsimp only
  generalize hg : coreReset k _ = s1
  have hcmds : s1.cmds = s.cmds := by rw [← hg, coreReset_cmds, onCore_cmds, landAll_cmds]
  have hc1 : cmdOf s1 l.cmd = some c := by rw [← hc, cmdOf, hcmds]; rfl
  have hnote : cmdOf (noteFault l.cmd l.rank y s1) l.cmd = some { c with fault := some (l.rank, y) } := by
    rw [cmdOf_noteFault, hc1, Option.map_some, faulted, if_neg hy, hf]
  obtain ⟨d, hd, hphase, hst, hdet, hcores⟩ := coreDone_last hnote (Nat.le_of_eq h1) (by simp [hp]) (.inr ⟨hs, _, _, rfl, rfl, rfl⟩)
  exact ⟨d, hd, hphase, hst, hdet, hcores⟩

theorem rteTarget_nest {s : State} {K0 K : Core} {ops : List Op} : (rteTarget s K0 ops K).nest = K.nest := by rw [rteTarget_rest]

theorem nextPc_nest {K0 K : Core} {ops : List Op} : (nextPc K0 ops K).nest = K.nest := by rw [nextPc_rest]

theorem stepMode_nest {K : Core} : (stepMode K).nest = K.nest := by rw [stepMode_rest]

theorem passCycles_nest {n k : Nat} {s : State} : (vat (passCycles n k s).cores k).nest = (vat s.cores k).nest := by
  obtain ⟨_, _, _, _, _, _, _, _, _, _, _, e⟩ := @passCycles_core n k s
  rw [e]

/-- FAULT leaves the core's depth of handlers (R472). -/
theorem issueBundle_nest {s : State} {k : Nat} {c : Cmd} {ops : List Op} {o : Op} (hi : Issuing s k c ops) (ho : o ∈ ops)
    (hc : o.cls = .ctl) (hm : o.code = 8) : (vat (issueBundle c ops k s).cores k).nest = (vat s.cores k).nest := by
  have hl := long_alone hi.2.2.1 ho (short_of_code hc (by omega)) (by simp [hc])
  obtain ⟨s0, h1, _, _, m, d, hcore⟩ := issueBundle_next (c := c) (s := s) (k := k) hl
  have hop : opIn c ops k s s0 o = s0 := by simp only [opIn, opEffect, hc, ctlEffect, hm]
  have hplain := slot0_rest (s0 := s0) hi ho hc
  rw [hop] at hplain
  have hcores : (vat (ops.foldl (opIn c ops k s) s0).cores k).nest = (vat s0.cores k).nest := by rw [hplain]
  rw [hcore]
  dsimp only
  rw [rteTarget_nest, nextPc_nest, stepMode_nest, passCycles_nest, hcores, h1]

/-! ### The three rows -/

/-- R484: END. -/
theorem end_spec {s : State} {k : Nat} {c : Cmd} {ops : List Op} {o : Op} {l : Launch} (hi : Issuing s k c ops) (ho : o ∈ ops)
    (hc : o.cls = .ctl) (hm : o.code = 7) (hl : (vat s.cores k).launch = some l) (h60 : opcodeOf c.bytes = 0x60) :
    let t := settleDrain k (issueBundle c ops k s)
    let quiet := quietOps (vat s.cores k) ops
    ((quiet = true → (vat t.cores k).mode = .idle ∧ (vat t.cores k).launch = none) ∧
      (quiet = false → (vat t.cores k).mode = .draining ∧ (vat t.cores k).drain = .endKernel ∧ (vat t.cores k).launch = some l)) ∧
    (∀ j, j % 136 ≠ k % 136 → vat t.cores j = vat s.cores j) ∧
    (quiet = true → 1 < c.cores → ∃ e, c.energy ≤ e ∧ cmdOf t l.cmd = some { c with cores := c.cores - 1, energy := e }) ∧
    (quiet = true → c.cores = 1 → c.phase = .working → c.status = 0 → ∃ d, cmdOf t l.cmd = some d ∧ d.phase = .ended ∧
      (c.fault = none → d.status = 0) ∧
      ∀ r x, c.fault = some (r, x) → d.status = 0x23 ∧ d.detail = BitVec.ofNat 32 (x + 256 * r)) := by
  intro t quiet
  have hlong := long_alone hi.2.2.1 ho (short_of_code hc (by omega)) (by simp [hc])
  obtain ⟨hmode, hdrain⟩ := issueBundle_ends hi ho hc (by omega)
  rw [endsFor_end hm] at hdrain
  obtain ⟨hlaunch, hkv, e, hle, hcmd⟩ := issueBundle_command hi hl hlong h60
  have hq := issueBundle_quiet hi
  have hstep := issueBundle_step hi
  by_cases hquiet : quiet = true
  · obtain ⟨s1, hcmds, hdone, _, hidle, hnone, hothers⟩ := stopCore_end hlaunch hkv
    have ht : t = stopCore k none (issueBundle c ops k s) := settleDrain_end hmode (hq.trans hquiet) hdrain
    have hcmd1 : cmdOf s1 l.cmd = some { c with energy := e } := by rw [← hcmd, cmdOf, hcmds]; rfl
    rw [ht]
    refine ⟨⟨fun _ => ⟨hidle, hnone⟩, fun h => absurd hquiet (by simp [h])⟩, fun j hj => (hothers j hj).trans (hstep.others j hj),
      fun _ h1 => ⟨e, hle, ?_⟩, fun _ h1 hp hs => ?_⟩
    · rw [hdone]
      exact (coreDone_cmdOf hcmd1).1 h1
    · rw [hdone]
      exact (coreDone_cmdOf hcmd1).2 h1 (by simp [hp]) hs
  · have ht : t = issueBundle c ops k s := settleDrain_waits (hq.trans (Bool.eq_false_iff.2 hquiet))
    rw [ht]
    exact ⟨⟨fun h => absurd h hquiet, fun _ => ⟨hmode, hdrain, hlaunch⟩⟩, hstep.others, fun h => absurd h hquiet,
      fun h => absurd h hquiet⟩

/-- R484: FAULT. -/
theorem fault_spec {s : State} {k : Nat} {c : Cmd} {ops : List Op} {o : Op} {l : Launch} (hi : Issuing s k c ops) (ho : o ∈ ops)
    (hc : o.cls = .ctl) (hm : o.code = 8) (hl : (vat s.cores k).launch = some l) (h60 : opcodeOf c.bytes = 0x60) :
    let t := settleDrain k (issueBundle c ops k s)
    let quiet := quietOps (vat s.cores k) ops
    ((quiet = true → (vat t.cores k).mode = .idle ∧ (vat t.cores k).launch = none) ∧
      (quiet = false → (vat t.cores k).mode = .draining ∧ (vat t.cores k).drain = .faultKernel ∧ (vat t.cores k).launch = some l)) ∧
    (quiet = true → (vat s.cores k).nest = 0 → c.cores = 1 → c.phase = .working → c.status = 0 → c.fault = none →
      ∃ d, cmdOf t l.cmd = some d ∧ d.phase = .ended ∧ d.status = 0x23 ∧ d.detail = BitVec.ofNat 32 (256 * l.rank)) := by
  intro t quiet
  have hlong := long_alone hi.2.2.1 ho (short_of_code hc (by omega)) (by simp [hc])
  obtain ⟨hmode, hdrain⟩ := issueBundle_ends hi ho hc (by omega)
  rw [endsFor_fault hm] at hdrain
  obtain ⟨hlaunch, hkv, e, hle, hcmd⟩ := issueBundle_command hi hl hlong h60
  have hq := issueBundle_quiet hi
  by_cases hquiet : quiet = true
  · generalize hx : faultCause (vat (issueBundle c ops k s).cores k) = x
    obtain ⟨hkv', hidle, hnone, _⟩ := stopCore_fault (x := x) hlaunch hkv
    have ht : t = abortLaunch l.cmd 0x24 (stopCore k (some x) (issueBundle c ops k s)) := by
      rw [← hx]
      exact settleDrain_fault hmode (hq.trans hquiet) hdrain hlaunch
    obtain ⟨q, v, hcore⟩ := abortLaunch_other (x := 0x24) (k := k) hkv' (by rw [hnone]; exact nofun)
    rw [ht]
    refine ⟨⟨fun _ => ?_, fun h => absurd hquiet (by simp [h])⟩, fun _ hnest h1 hp hs hf => ?_⟩
    · rw [hcore]
      exact ⟨hidle, hnone⟩
    · have hx0 : x = 0 := by
        rw [← hx, faultCause, if_pos ((issueBundle_nest hi ho hc hm).trans hnest)]
      have hend := stopCore_faultEnded hlaunch hcmd h1 hp hs hf x (by rw [hx0]; decide)
      obtain ⟨d, hd, hphase, hst, hdet, _⟩ := hend.abortLaunch hkv'
      exact ⟨d, hd, hphase, hst, by rw [hdet, hx0, Nat.zero_add]⟩
  · have ht : t = issueBundle c ops k s := settleDrain_waits (hq.trans (Bool.eq_false_iff.2 hquiet))
    rw [ht]
    exact ⟨⟨fun h => absurd h hquiet, fun _ => ⟨hmode, hdrain, hlaunch⟩⟩, fun h => absurd h hquiet⟩

/-- R480: TRAP. -/
theorem trap_spec {s : State} {k : Nat} {c : Cmd} {ops : List Op} {o : Op} (hi : Issuing s k c ops) (ho : o ∈ ops)
    (hc : o.cls = .ctl) (hm : o.code = 9) :
    let t := settleDrain k (issueBundle c ops k s)
    (vat t.cores k).mode = .draining ∧ (vat t.cores k).drain =
      .exception 6 0 0 (bits o.w 26 16) 0 (vat t.cores k).pc (vat s.cores k).pc false (vat s.cores k).modePend.isSome false := by
  intro t
  obtain ⟨hmode, hdrain⟩ := issueBundle_ends hi ho hc (by omega)
  rw [endsFor, if_neg (by omega), if_neg (by omega)] at hdrain
  have ht : t = issueBundle c ops k s := settleDrain_trap (by rw [hdrain]; exact nofun) (by rw [hdrain]; exact nofun)
  rw [ht]
  exact ⟨hmode, hdrain⟩

/-- Settles O53: END, FAULT and TRAP. -/
theorem kernelsEnd : Obligations.KernelsEnd := by
  unfold Obligations.KernelsEnd
  intro s k c ops o l hi ho hc hl h60 K quiet stops
  have row {m : Nat} {i : Instr} (hm : o.code = m) (hr : coreRow i = some (k.val, .ctl, m, 0)) :
      exec i s = .next (settleDrain k.val (issueBundle c ops k.val s)) := by
    rw [exec_of_coreRow hr, ← issueOp_eq hi ho (by simp [hc]), hc, hm, ctl_slot hc]
  have hne (j : Nat) (hj : j ≠ k.val) (hlt : j < 136) : j % 136 ≠ k.val % 136 := by
    rwa [Nat.mod_eq_of_lt hlt, Nat.mod_eq_of_lt k.isLt]
  refine ⟨fun hm => ⟨_, row hm rfl, (end_spec hi ho hc hm hl h60).1⟩,
    fun hm => ⟨_, row hm rfl, fun j hj hlt => (end_spec hi ho hc hm hl h60).2.1 j (hne j hj hlt)⟩,
    fun hm hq h1 => ⟨_, row hm rfl, (end_spec hi ho hc hm hl h60).2.2.1 hq h1⟩,
    fun hm hq h1 hp hs => ?_, fun hm => ⟨_, row hm rfl, (fault_spec hi ho hc hm hl h60).1⟩,
    fun hm hq hn h1 hp hs hf => ?_, fun hm => ⟨_, row hm rfl, trap_spec hi ho hc hm⟩⟩
  · obtain ⟨d, hd⟩ := (end_spec hi ho hc hm hl h60).2.2.2 hq h1 hp hs
    exact ⟨_, d, row hm rfl, hd⟩
  · obtain ⟨d, hd⟩ := (fault_spec hi ho hc hm hl h60).2 hq hn h1 hp hs hf
    exact ⟨_, d, row hm rfl, hd⟩

end Sys2Proof.Machine
end

section
/-!
PROOFS. Cores that are stopped (sections 12.10 and 12.11): a core that stops with a cause is idle and reset, and its command runs on
one core fewer.
-/
namespace Sys2Proof.Machine

/-- What a core reset makes of a core (R443); `n` numbers the free values of its slots. -/
def wipedCore (n : Nat) (K : Core) : Core :=
  { K with g := Vector.replicate 64 0, v := Vector.replicate 32 0, lc := Vector.replicate 3 0,
           ls := Vector.replicate 3 0, le := Vector.replicate 3 0, prog := 0, nest := 0, modeReg := 8,
           modePend := none, bank := false, bd := false, ms := false, li := false,
           tiles := Vector.ofFn fun i : Fin 8 => freeTile (n + 256 * i.val) (vat K.tiles i.val),
           pend := [], stores := [], branch := none, long := false, drain := .none, ymaskCycles := 0,
           arrFree := 0, slotFree := Vector.replicate 8 0, slotBusy := Vector.replicate 8 0 }

theorem vat_coreReset {k : Nat} {s : State} : vat (coreReset k s).cores k = wipedCore s.freeCtr (vat s.cores k) := vat_onCore

theorem coreReset_other {j k : Nat} {s : State} (h : j % 136 ≠ k % 136) : vat (coreReset k s).cores j = vat s.cores j :=
  vat_onCore_ne h

/-- A reset core (R443). -/
structure ResetCore (T : Core) : Prop where
  g : ∀ i, rdG T i = 0
  v : ∀ i < 32, vat T.v i = 0
  loops : ∀ i < 3, vat T.lc i = 0 ∧ vat T.ls i = 0 ∧ vat T.le i = 0
  modeReg : T.modeReg = 8
  prog : T.prog = 0
  nest : T.nest = 0
  bank : T.bank = false
  tiles : ∀ i < 8, (vat T.tiles i).live = false ∧ (vat T.tiles i).sat = false ∧ (vat T.tiles i).nan = false

theorem vat_replicate {α : Type} {n : Nat} [NeZero n] (a : α) (i : Nat) : vat (Vector.replicate n a) i = a := by simp [vat]

theorem wipedCore_reset (n : Nat) (K : Core) : ResetCore (wipedCore n K) := by
  refine ⟨fun i => ?_, fun i _ => vat_replicate .., fun i _ => ⟨vat_replicate .., vat_replicate .., vat_replicate ..⟩,
    rfl, rfl, rfl, rfl, fun i _ => ?_⟩
  · rw [rdG]
    split
    · rfl
    · exact vat_replicate ..
  · simp [wipedCore, vat, freeTile]

theorem stopCore_some_eq {k x : Nat} {s : State} {l : Launch} (hl : (vat s.cores k).launch = some l) :
    ∃ s1, s1.cmds = s.cmds ∧ stopCore k (some x) s = coreDone l.cmd (noteFault l.cmd l.rank x (coreReset k s1)) := by
  unfold stopCore
  rw [hl]
  dsimp only
  refine ⟨_, ?_, rfl⟩
  rw [onCore_cmds, landAll_cmds]

/-- A core whose launch ends with a cause, and its command. -/
theorem stopCore_cause {k x : Nat} {s : State} {l : Launch} {c : Cmd} (hl : (vat s.cores k).launch = some l)
    (hc : cmdOf s l.cmd = some c) (h60 : opcodeOf c.bytes = 0x60) :
    let t := stopCore k (some x) s
    let T := vat t.cores k
    (T.mode = .idle ∧ T.launch = none ∧ T.abort = none ∧ ResetCore T) ∧ (∀ j, j % 136 ≠ k % 136 → vat t.cores j = vat s.cores j) ∧
      (1 < c.cores → cmdOf t l.cmd = some { faulted l.rank x c with cores := c.cores - 1 }) := by
  intro t T
  have hkv : NotKv l.cmd s := .of_opcode fun y hy => by
    rw [hc] at hy
    cases hy
    exact h60
  obtain ⟨_, hidle, hnone, habort, _, _, hothers⟩ := stopCore_fault (x := x) hl hkv
  obtain ⟨s1, hcmds, ht⟩ : ∃ s1, s1.cmds = s.cmds ∧ t = coreDone l.cmd (noteFault l.cmd l.rank x (coreReset k s1)) :=
    stopCore_some_eq hl
  have hkv1 : NotKv l.cmd (coreReset k s1) := hkv.of_cmds hcmds
  have hT : T = wipedCore s1.freeCtr (vat s1.cores k) := by
    have hcores := coreDone_cores (hkv1.noteFault (r := l.rank) (x := x))
    have hstop : T = vat (coreDone l.cmd (noteFault l.cmd l.rank x (coreReset k s1))).cores k := by rw [← ht]
    exact hstop.trans ((congrArg (vat · k) hcores).trans vat_coreReset)
  refine ⟨⟨hidle, hnone, habort, hT ▸ wipedCore_reset ..⟩, hothers, fun h1 => ?_⟩
  have hnote : cmdOf (noteFault l.cmd l.rank x (coreReset k s1)) l.cmd = some (faulted l.rank x c) := by
    have hc1 : cmdOf (coreReset k s1) l.cmd = some c := by rw [← hc, cmdOf, coreReset_cmds, hcmds]; rfl
    rw [cmdOf_noteFault, hc1, Option.map_some]
  have hcores : (faulted l.rank x c).cores = c.cores := by
    unfold faulted
    split <;> rfl
  rw [ht, ← hcores]
  exact (coreDone_cmdOf hnote).1 (by rwa [hcores])

/-- The command of a stopped core: one core fewer, and the fault of the least rank (R484). -/
theorem faulted_eq (r x : Nat) (c : Cmd) :
    { faulted r x c with cores := c.cores - 1 } = { c with
      cores := c.cores - 1,
      fault := if x = 0x24 then c.fault else match c.fault with
        | some (q, y) => if r < q then some (r, x) else some (q, y)
        | none => some (r, x) } := by
  unfold faulted
  by_cases hx : x = 0x24
  · simp only [if_pos hx]
  · simp only [if_neg hx]
    congr 1
    cases c.fault with
    | none => rfl
    | some p =>
      dsimp only
      split <;> rfl

/-- A locked core whose beat has passed is reset, and idle (R479). -/
theorem unlockCore_spec {k : Nat} {s : State} :
    let T := vat (unlockCore k s).cores k
    (T.mode = .idle ∧ T.lockedAt = none ∧ T.launch = (vat s.cores k).launch ∧ ResetCore T) ∧
      ∀ j, j % 136 ≠ k % 136 → vat (unlockCore k s).cores j = vat s.cores j := by
  intro T
  have hT : T = { wipedCore s.freeCtr (vat s.cores k) with mode := .idle, lockedAt := none } := by
    unfold T unlockCore
    rw [vat_onCore, vat_coreReset]
  have hreset := wipedCore_reset s.freeCtr (vat s.cores k)
  rw [hT]
  refine ⟨⟨rfl, rfl, rfl, ⟨hreset.g, hreset.v, hreset.loops, rfl, rfl, rfl, rfl, hreset.tiles⟩⟩, fun j hj => ?_⟩
  unfold unlockCore
  rw [vat_onCore_ne hj, coreReset_other hj]

/-- Settles O54: every way to stop a core is `stopCore` with its cause; the end of a lock is `unlockCore`. -/
theorem coresAreStopped : Obligations.CoresAreStopped := by
  unfold Obligations.CoresAreStopped
  intro s k K clean stops
  have hne (j : Nat) (hj : j ≠ k.val) (hlt : j < 136) : j % 136 ≠ k.val % 136 := by
    rwa [Nat.mod_eq_of_lt hlt, Nat.mod_eq_of_lt k.isLt]
  have stopped {i : Instr} {x : Nat}
      (he : (K.mode == .kernel || K.mode == .draining) = true → exec i s = .next (stopCore k.val (some x) s)) : stops i x := by
    intro l c hl hmode hc h60
    obtain ⟨⟨hidle, hnone, habort, hreset⟩, hothers, hcmd⟩ := stopCore_cause (x := x) hl hc h60
    obtain ⟨hg, hv, hloops, hmr, hprog, hnest, hbank, htiles⟩ := hreset
    refine ⟨_, he (by simpa [Bool.or_eq_true] using hmode), ⟨hidle, hnone, hg, hv, hloops, hmr, hprog, hnest, hbank, htiles,
      fun j hj hlt => hothers j (hne j hj hlt)⟩, habort, fun h1 => ?_⟩
    rw [hcmd h1, faulted_eq] <;> rfl
  refine ⟨fun x hx => stopped fun hm => ?_, fun ⟨l, hl, hb⟩ => stopped fun hm => ?_, fun hy => stopped fun hm => ?_,
    fun p hm hl hp hle => ⟨unlockCore k.val s, ?_, ?_⟩⟩
  · change execAbort k s = _
    simp only [execAbort, show (vat s.cores k.val).abort = some x from hx]
    exact congrArg _ (if_pos hm)
  · change execBudget k s = _
    have hover : overBudget K = true := by simp [overBudget, hl, hb]
    exact congrArg _ (if_pos (Bool.and_eq_true_iff.2 ⟨hm, hover⟩))
  · change execYmaskLimit k s = _
    have hover : overYmask K = true := by simp [overYmask, hy]
    exact congrArg _ (if_pos (Bool.and_eq_true_iff.2 ⟨hm, hover⟩))
  · change execCoreLockExpiry k s = _
    have hexp : lockExpired s k.val = true := by
      simp only [lockExpired, show (vat s.cores k.val).mode = .locked from hm, show (vat s.cores k.val).lockedAt = some p from hp,
        beq_self_eq_true, Bool.true_and, decide_eq_true_eq]
      exact hle
    rw [execCoreLockExpiry, if_pos hexp]
  · obtain ⟨⟨hidle, hlock, hlaunch, hreset⟩, hothers⟩ := @unlockCore_spec k.val s
    obtain ⟨hg, hv, hloops, hmr, hprog, hnest, hbank, htiles⟩ := hreset
    exact ⟨⟨hidle, hlaunch.trans hl, hg, hv, hloops, hmr, hprog, hnest, hbank, htiles, fun j hj hlt => hothers j (hne j hj hlt)⟩, hlock⟩

end Sys2Proof.Machine
end

section
/-!
PROOFS. EXCEPTION_ENTRY charges the trap frame's bytes to the class of the command after the frame's STAT has been read: when
that charge takes the class below NORMAL, a GUARANTEED work item in the queue makes a YIELD pending (R475) that the frame
does not show.
-/
namespace Sys2Proof.Machine

/-- A command of class `cls` whose opcode is RUN_KERNEL. -/
def kernelCmd (uid cls : Nat) : Cmd :=
  { uid := uid, q := 0, func := 1, bytes := 0x60 :: zeros 63, gen := 0, pos := 0, order := 0, cls := cls, shared := false,
    phase := .working, data := [], wants := [], held := [], fresh := 0, early := [], sent := [], arrived := [], far := [],
    done := 0, total := 0, subst := 0, degraded := false, status := 0, detail := 0, checked := false, cutAt := none,
    waits := [], cores := 1, fault := none, edges := 0, attLens := [], kvReads := [], energy := 0, carry := 0, pip := false,
    pipNo := 0, fetchPos := 0, fetchClk := 0, stamps := [], lastDies := (0, 0) }

/-- A class whose only limit is its ceiling in CRIB. -/
def cribClass (base : Level) (c : Option Nat) : ClassEnt :=
  { base := base, mask := 0, da := 0, size := 0,
    budget := #v[⟨1000, none⟩, ⟨1000, none⟩, ⟨0, c⟩, ⟨1000, none⟩, ⟨1000, none⟩] }

/-- A launch of kernel 3 for command `u`. -/
def trapLaunch (u : Nat) : Launch := { cmd := u, kernel := 3, rank := 0, total := 1, area := 65536, budget := 100000, args := [] }

/-- A kernel with room for trap frames. -/
def trapKernel : Kernel := { id := 3, off := 0, len := 0, entry := 0, trapBytes := 40960, scratch := 4096, code := [] }

/-- Class 14 is GUARANTEED; class 15 is NORMAL until it has used a byte of CRIB, and SCAVENGER from then on. -/
def trapCfg (C : Cfg) : Cfg :=
  { C with
    kernels := [trapKernel]
    classes := vupd (vupd C.classes 14 fun _ => cribClass .guaranteed none) 15 fun _ => cribClass .normal (some 0) }

/-- A core of class 15's command that drains for a TRAP, while a launch of class 14 waits for it. -/
def trappingCore (K : Core) : Core :=
  { K with
    mode := .draining
    drain := .exception 6 0 0 7 0 1 0 false false false
    launch := some (trapLaunch 5)
    tsp := BitVec.ofNat 56 (cribDa 0 (65536 + 40960))
    queue := [.launch (trapLaunch 6)] }

/-- Core 0 drains for a TRAP. -/
def trapping : State :=
  { State.reset with
    cfg := { State.reset.cfg with cur := trapCfg State.reset.cfg.cur }
    cmds := [kernelCmd 5 15, kernelCmd 6 14]
    cores := vupd State.reset.cores 0 trappingCore }

/-- The TSP with which core 0 enters its exception. -/
def trappingTsp : Nat := (vat (landAll 0 trapping).cores 0).tsp.toNat

/-- The state in which core 0 has entered its exception. -/
def trapped : State := tryEnter 0 trapping

theorem exec_exceptionEntry_trapping : exec (.exceptionEntry 0) trapping = .next trapped := by
  have hstill : issues trapping 0 = false := by decide +kernel
  have hskip : skipEmpty emptyRun 0 trapping = trapping := by
    rw [emptyRun, skipEmpty, hstill]
    rfl
  have hdue : trapDue trapping 0 = none := by decide +kernel
  change execExceptionEntry 0 trapping = _
  simp only [execExceptionEntry, Fin.val_zero, hskip, hdue, trapped]

/-- The checks of R479 hold. -/
theorem lockReason_trapping :
    lockReason (vat (landAll 0 trapping).cores 0) (cribDa 0 65536) (cribDa 0 65536 + 40960) = 0 := by
  decide +kernel

theorem kernelOf_trapping : kernelOf trapping 0 = some (trapLaunch 5, kernelCmd 5 15, trapKernel) := by decide +kernel

/-- No bundle lies at PC: the kernel has no code. -/
theorem bundleNow_trapping : bundleNow trapping 0 = none := by decide +kernel

/-- The frame in memory has bit 20 of STAT clear, while a YIELD is pending in the state after. -/
theorem trapped_mem :
    trapped.mem ≠ (daPoke (landAll 0 trapping) (trappingTsp - 256) (trapFrame trapped 0 trappingTsp 0)).mem := by
  decide +kernel

/-- Refutes O57: the frame's STAT is read before its bytes are charged; in `trapping` the charge takes class 15 from NORMAL to
SCAVENGER, so that a YIELD is pending in the state after that STAT in the frame does not show. -/
theorem not_exceptionsAreEntered : ¬ Obligations.ExceptionsAreEntered := by
  unfold Obligations.ExceptionsAreEntered
  intro h
  have hbundle : ∀ c ops, bundleNow trapping (0 : Fin 136).val = some (c, ops) → ops.all (·.cls == .nop) = false := by
    intro c ops hc
    rw [Fin.val_zero, bundleNow_trapping] at hc
    cases hc
  obtain ⟨t, ht, hT, -⟩ := (h.1 trapping 0 (trapLaunch 5) (kernelCmd 5 15) trapKernel kernelOf_trapping (by decide)
    (by decide +kernel) (by decide +kernel) hbundle).2 6 0 0 7 0 1 0 false false false (by decide +kernel) (by decide +kernel)
  obtain rfl : trapped = t := by
    rw [exec_exceptionEntry_trapping] at ht
    exact Host.Outcome.next.inj ht
  obtain ⟨-, -, -, -, -, -, -, -, -, -, -, -, -, -, -, -, hmem, -⟩ := hT lockReason_trapping
  exact trapped_mem hmem

end Sys2Proof.Machine
end

section
/-!
PROOFS. The first step of ACC.DRAIN promotes its slot (R428) before it takes the row, so that the row in memory is of the
promoted cells and not of those that the slot held before.
-/
namespace Sys2Proof.Machine

/-- A kernel of one bundle: ACC.DRAIN of slot 0, in 32-bit words. -/
def drainKernel : Kernel := { trapKernel with len := 64, code := zeros 56 ++ leBytes 8 0x86 }

/-- An open integer reduction with one step since the last promotion: each cell's sum is 1, still in `a`. -/
def openTile : Tile :=
  { int := true, kc := 8, n := 1, shape := 8, sat := false, nan := false, live := true, cells := List.replicate 256 ⟨1, 0⟩ }

/-- The core's first bundle is a drain in progress, to its scratch. -/
def drainingCore (K : Core) : Core :=
  { K with
    mode := .kernel
    long := true
    lsrc := #v[BitVec.ofNat 64 (cribDa 0 65536), 0, 0]
    tiles := Vector.replicate 8 openTile
    launch := some (trapLaunch 5) }

/-- Core 0 drains the slots into function 1's crib part. -/
def draining : State :=
  { State.reset with
    cfg := { State.reset.cfg with cur := { State.reset.cfg.cur with kernels := [drainKernel] } }
    image := { resetImage with
      carve := { resetCarve with cribParts := [{ func := 1, scratch := true, slices := 1, off := 65536, size := 65536 }] } }
    cmds := [kernelCmd 5 15]
    cores := vupd State.reset.cores 0 drainingCore }

/-- The operations of its bundle. -/
def drainOps : List Op := bundleOps (bundleBytes drainKernel 0)

/-- The drain. -/
def drainOp : Op := { slot := 7, w := 0x86 }

/-- The step that the slot would make if it were not promoted. -/
def unpromotedStep : LongStep := longStep draining (kernelCmd 5 15) 0 (vat draining.cores 0) drainOp 0

theorem longAt_draining : longAt draining 0 = some (kernelCmd 5 15, drainOps, drainOp) := by decide +kernel

/-- The core at the drain before its first step. -/
theorem draining_core :
    mayGo draining 0 = true ∧ (vat draining.cores 0).mode = .kernel ∧ (vat draining.cores 0).long = true ∧
      (vat draining.cores 0).stores = [] ∧ (vat draining.cores 0).pend = [] ∧ (vat draining.cores 0).branch = none ∧
      (vat draining.cores 0).modePend = none ∧ ∀ l < 3, vat (vat draining.cores 0).lc l = 0 := by
  decide +kernel

/-- Its checks hold. -/
theorem unpromotedStep_passes :
    stepFault draining (kernelCmd 5 15).func 0 unpromotedStep = none ∧
      poisonedRead draining (kernelCmd 5 15) (vat draining.cores 0) drainOp 0 = none := by
  decide +kernel

/-- The step's row is 1, of the promoted cell; before the promotion W is 0. -/
theorem drained_mem :
    (longInstr 0 (kernelCmd 5 15) drainOps drainOp draining).mem ≠
      (unpromotedStep.writes.foldl (fun s w => daPoke s w.1 w.2) draining).mem := by
  decide +kernel

theorem exec_longInstrStep_draining :
    exec (.longInstrStep 0) draining = .next (longInstr 0 (kernelCmd 5 15) drainOps drainOp draining) := by
  obtain ⟨hgo, hmode, hlong, -⟩ := draining_core
  change execLongInstrStep 0 draining = _
  simp [execLongInstrStep, hgo, hmode, hlong, longAt_draining]

/-- Refutes O58: in `draining` the first step of ACC.DRAIN takes its row from a slot with N = 1, which it promotes first, while
the statement takes the row from the slot as it was. -/
theorem not_longInstructionsRun : ¬ Obligations.LongInstructionsRun := by
  unfold Obligations.LongInstructionsRun
  intro h
  obtain ⟨hgo, hmode, hlong, hst, hpd, hbr, hmp, hlc⟩ := draining_core
  obtain ⟨t, ht, -, -, -, -, -, -, hmem⟩ := h.2 draining 0 (kernelCmd 5 15) drainOps drainOp hgo hmode hlong longAt_draining
    hst hpd hbr hmp hlc (.inr unpromotedStep_passes) (by decide +kernel)
  obtain rfl : longInstr 0 (kernelCmd 5 15) drainOps drainOp draining = t := by
    rw [exec_longInstrStep_draining] at ht
    exact Host.Outcome.next.inj ht
  rw [if_pos (by decide +kernel)] at hmem
  exact drained_mem hmem

end Sys2Proof.Machine
end

section
/-!
PROOFS. How a core starts, sets aside and takes up again its work (sections 12.10 and 12.12): launches, work items, YIELD and
YIELD_RESUME.
-/
namespace Sys2Proof.Machine

/-- Every other core is as it was. -/
theorem CoreStep.othersBut {k : Fin 136} {s t : State} (h : CoreStep k.val s t) :
    ∀ j, j ≠ k.val → j < 136 → vat t.cores j = vat s.cores j := by
  intro j hj hlt
  apply h.others
  have := k.isLt
  omega

/-! ### CORE_LAUNCH (R483) -/

/-- The registers of the ABI in the order of Table 12-23. -/
theorem vat_abiRegs {k : Nat} {l : Launch} {x : Kernel} {f i : Nat} (hi : i < 64) :
    vat (abiRegs k l x f) i =
      if i = 62 then BitVec.ofNat 64 (cribDa (coreSlice k) (l.area + x.trapBytes) + x.scratch)
      else if i = 7 then BitVec.ofNat 64 f
      else if i = 6 then BitVec.ofNat 64 (put (coreSlice k) 0 5 + put (k % 8) 8 3 + put l.rank 16 8 + put (l.total - 1) 24 8)
      else if i = 5 then BitVec.ofNat 64 x.scratch
      else if i = 4 then BitVec.ofNat 64 (cribDa (coreSlice k) (l.area + x.trapBytes))
      else if 0 < i ∧ i < 4 then BitVec.ofNat 64 (nth l.args (i - 1) 0).toNat
      else 0 := by
  have hm : i % 64 = i := Nat.mod_eq_of_lt hi
  simp only [abiRegs, List.range_succ, List.range_zero, List.nil_append, List.cons_append, List.foldl_cons, List.foldl_nil,
    vat_vupd, vat_replicate, hm]
  grind

/-- A launched core that is idle starts. -/
theorem launchCore_eq {k : Nat} {s : State} {l : Launch} {c : Cmd} {x : Kernel} (hm : (vat s.cores k).mode = .idle)
    (hk : kernelOf s k = some (l, c, x)) :
    CoreStep k (stamp c.uid 4 false s) (launchCore k s) ∧
    vat (launchCore k s).cores k = { vat s.cores k with
      mode := .kernel, g := abiRegs k l x c.func, v := Vector.replicate 32 0, lc := Vector.replicate 3 0,
      ls := Vector.replicate 3 0, le := Vector.replicate 3 0, pc := x.entry, modeReg := 8, modePend := none,
      prog := 0, nest := 0, bd := false, ms := false, li := false, bank := false, cause := 0, epc := 0,
      tsp := BitVec.ofNat 56 (cribDa (coreSlice k) (l.area + x.trapBytes)),
      tiles := (vat s.cores k).tiles.map fun t => { t with live := false }, pend := [], stores := [], branch := none,
      cycles := 0, ymaskCycles := 0, long := false, abort := none, drain := .none,
      arrFree := 0, slotFree := Vector.replicate 8 0, slotBusy := Vector.replicate 8 0 } := by
  simp only [launchCore, hm, hk]
  exact ⟨CoreStep.onCore, by rw [vat_onCore, stamp_cores]⟩

/-! ### The next work (R391, R475) -/

/-- A work is not at a lower level than another. -/
def NotBelow (s : State) (a b : CoreWork) : Prop := levelCode (workLevel s a) ≤ levelCode (workLevel s b)

/-- The better of two works is one of them, and neither is at a better level. -/
theorem betterWork_cases (s : State) (a b : CoreWork) :
    (betterWork s a b = a ∨ betterWork s a b = b) ∧ NotBelow s (betterWork s a b) a ∧ NotBelow s (betterWork s a b) b := by
  unfold betterWork NotBelow
  extract_lets u key la lb
  by_cases h1 : lb < la
  · rw [if_pos h1]
    exact ⟨.inr rfl, Nat.le_of_lt h1, le_refl _⟩
  by_cases h2 : la < lb
  · rw [if_neg h1, if_pos h2]
    exact ⟨.inl rfl, le_refl _, Nat.le_of_lt h2⟩
  rw [if_neg h1, if_neg h2]
  by_cases h3 : key b < key a
  · rw [if_pos h3]
    exact ⟨.inr rfl, Nat.le_of_not_lt h2, le_refl _⟩
  · rw [if_neg h3]
    exact ⟨.inl rfl, le_refl _, Nat.le_of_not_lt h1⟩

/-- The best of a list of works is in the list, and none is at a better level. -/
theorem foldl_betterWork (s : State) : ∀ (ws : List CoreWork) (w : CoreWork),
    ws.foldl (betterWork s) w ∈ w :: ws ∧ ∀ x ∈ w :: ws, NotBelow s (ws.foldl (betterWork s) w) x
  | [], w => ⟨List.mem_singleton_self _, fun x hx => by rw [List.mem_singleton.1 hx]; exact le_refl _⟩
  | a :: ws, w => by
    obtain ⟨hmem, hbest⟩ := foldl_betterWork s ws (betterWork s w a)
    obtain ⟨hor, hw, ha⟩ := betterWork_cases s w a
    rw [List.foldl_cons]
    have hhead := hbest _ List.mem_cons_self
    constructor
    · rcases List.mem_cons.1 hmem with h | h
      · rcases hor with e | e <;> rw [h, e] <;> simp
      · exact List.mem_cons_of_mem _ (List.mem_cons_of_mem _ h)
    · intro x hx
      rcases List.mem_cons.1 hx with rfl | hx
      · exact Nat.le_trans hhead hw
      rcases List.mem_cons.1 hx with rfl | hx
      · exact Nat.le_trans hhead ha
      · exact hbest x (List.mem_cons_of_mem _ hx)

/-- The next work waits, and without a saved context none that waits is at a better level. -/
theorem nextWork_spec {s : State} {k : Nat} {w : CoreWork} (h : nextWork s k = some w) :
    w ∈ (vat s.cores k).queue ∧
      ((vat s.cores k).saved = none → ∀ w' ∈ (vat s.cores k).queue, levelCode (workLevel s w) ≤ levelCode (workLevel s w')) := by
  unfold nextWork at h
  extract_lets K at h
  split at h
  case h_1 => cases h
  case h_2 a ws hq =>
    obtain rfl := Option.some.inj h
    obtain ⟨hmem, hbest⟩ := foldl_betterWork s ws a
    rw [← hq] at hmem hbest
    refine ⟨(List.mem_filter.1 hmem).1, fun hs w' hw' => hbest w' (List.mem_filter.2 ⟨hw', ?_⟩)⟩
    rw [show K.saved = none from hs]
    rfl

/-- The next work, and with it the preempting command, depend on what waits, not on the rest of the cores or on memory. -/
theorem nextWork_of {s : State} {k : Nat} {m : List Host.Cell} {v : Vector Core 136}
    (hq : (vat v k).queue = (vat s.cores k).queue) (hs : (vat v k).saved = (vat s.cores k).saved) :
    nextWork { s with mem := m, cores := v } k = nextWork s k := by
  have hw (w : CoreWork) : workLevel { s with mem := m, cores := v } w = workLevel s w := rfl
  have hb : betterWork { s with mem := m, cores := v } = betterWork s := rfl
  simp only [nextWork, hq, hs, hw, hb]

theorem preempting_of {s : State} {k : Nat} {m : List Host.Cell} {v : Vector Core 136}
    (hq : (vat v k).queue = (vat s.cores k).queue) (hs : (vat v k).saved = (vat s.cores k).saved) :
    preempting { s with mem := m, cores := v } k = preempting s k := by
  simp only [preempting, nextWork_of hq hs]
  rfl

/-! ### WORK_ITEM_START (R391) -/

/-- A free core takes its next work from its queue. -/
theorem takeWork_queue {k : Nat} {s : State} {w : CoreWork} (hf : coreFree (vat s.cores k) = true) (hw : nextWork s k = some w) :
    CoreStep k s (takeWork k s) ∧ (vat (takeWork k s).cores k).queue = (vat s.cores k).queue.erase w := by
  simp only [takeWork, hf, hw, Bool.not_true, Bool.false_eq_true, if_false]
  cases w with
  | launch l => exact ⟨CoreStep.onCore.trans CoreStep.onCore, by simp only [vat_onCore]⟩
  | item i =>
    dsimp only
    split
    · exact ⟨CoreStep.onCore, by rw [vat_onCore]⟩
    · split
      · exact ⟨CoreStep.onCore, by rw [vat_onCore]⟩
      · exact ⟨CoreStep.onCore.trans CoreStep.onCore, by simp only [vat_onCore]⟩

/-- A launch waits on its core for CORE_LAUNCH. -/
theorem takeWork_launch {k : Nat} {s : State} {l : Launch} (hf : coreFree (vat s.cores k) = true)
    (hw : nextWork s k = some (.launch l)) :
    (vat (takeWork k s).cores k).launch = some l ∧ (vat (takeWork k s).cores k).mode = (vat s.cores k).mode := by
  simp only [takeWork, hf, hw, Bool.not_true, Bool.false_eq_true, if_false, vat_onCore, and_self]

/-- A work item starts with empty partials. -/
theorem takeWork_item {k : Nat} {s : State} {i : WorkItem} {c : Cmd} {d : KvDecl} (hf : coreFree (vat s.cores k) = true)
    (hw : nextWork s k = some (.item i)) (hc : cmdOf s i.cmd = some c) (hd : kvFor s c = some d) :
    (vat (takeWork k s).cores k).mode = .attn ∧ (vat (takeWork k s).cores k).item = some i ∧
      (vat (takeWork k s).cores k).prog = 0 ∧ (vat (takeWork k s).cores k).parts = List.replicate (attnQ c) (emptyPartial d) := by
  have hcmd (g : Core → Core) : cmdOf (onCore k g s) i.cmd = some c := hc
  have hkv (g : Core → Core) : kvFor (onCore k g s) c = some d := hd
  simp only [takeWork, hf, hw, Bool.not_true, Bool.false_eq_true, if_false, hcmd, hkv, vat_onCore, and_self]

/-! ### YIELD (R475, R476) -/

/-- Everything issued lands in memory and in the core. -/
theorem landAll_frame {k : Nat} {s : State} : landAll k s = { s with mem := (landAll k s).mem, cores := (landAll k s).cores } := by
  unfold landAll landBy
  dsimp only [onCore]
  rw [foldl_daPoke_rest]

/-- The core whose MODE write takes effect before its context is saved. -/
def modeSettled (K : Core) : Core := { K with modeReg := (K.modePend.map (·.1)).getD K.modeReg, modePend := none }

/-- The core whose context has been saved: it is free. -/
def freedCore (x : SavedCtx) (K : Core) : Core :=
  { K with saved := some { x with parts := K.parts }, mode := .idle, launch := none, item := none, parts := [], long := false, branch := none,
           drain := .none, ymaskCycles := 0 }

/-- What a YIELD saves of the core's work. -/
def savedWork (k : Nat) (w : CoreWork) (s : State) : SavedCtx :=
  ⟨w, saveDa k (vat s.cores k), (preempting s k).elim 0 (·.uid), (preempting s k).elim 31 (·.cls), (vat s.cores k).parts⟩

/-- A landed core keeps what it works for. -/
theorem landed_works {k : Nat} {s : State} :
    let K := modeSettled (vat (landAll k s).cores k)
    runningWork K = runningWork (vat s.cores k) ∧ saveDa k K = saveDa k (vat s.cores k) ∧
      K.parts = (vat s.cores k).parts ∧ K.queue = (vat s.cores k).queue ∧ K.saved = (vat s.cores k).saved := by
  obtain ⟨g, v, lc, ls, le, pr, ts, pe, st, hland⟩ := @landAll_core k s
  intro K
  have hK : K = modeSettled (vat (landAll k s).cores k) := rfl
  rw [hK, hland]
  exact ⟨rfl, rfl, rfl, rfl, rfl⟩

/-- What preempts a core is the same once everything has landed. -/
theorem preempting_landed {k : Nat} {s : State} : preempting (onCore k modeSettled (landAll k s)) k = preempting s k := by
  obtain ⟨-, -, -, hq, hs⟩ := @landed_works k s
  have e : onCore k modeSettled (landAll k s) =
      { s with mem := (landAll k s).mem, cores := (onCore k modeSettled (landAll k s)).cores } := by
    conv_lhs => rw [landAll_frame]
    rfl
  rw [e]
  exact preempting_of (by rw [vat_onCore]; exact hq) (by rw [vat_onCore]; exact hs)

/-- The traffic of a context is charged, no more. -/
theorem contextTraffic_charged {u cls da n : Nat} {s : State} : Charged s (contextTraffic u cls da n s) :=
  memActivity_charged.trans chargeClass_charged

/-- A context is saved once everything has landed. -/
theorem saveContext_eq {k : Nat} {s : State} {w : CoreWork} (hw : runningWork (vat s.cores k) = some w) :
    ∃ s3, CoreStep k s s3 ∧ s3.cores = (onCore k modeSettled (landAll k s)).cores ∧
      saveContext k s = onCore k (freedCore (savedWork k w s)) s3 := by
  obtain ⟨hrun, hda, hparts, -, -⟩ := @landed_works k s
  have hpre := @preempting_landed k s
  have hpoke (a : Nat) (bs : List Byte) (u : State) : CoreStep k u (daPoke u a bs) := (daPoke_step (ns := [])).toCoreStep
  unfold saveContext
  extract_lets s1 s2 K img img' at_ u cls tag
  have hK : K = modeSettled (vat (landAll k s).cores k) := vat_onCore
  have hs2 : CoreStep k s s2 := landAll_step.trans CoreStep.onCore
  have hrunK : runningWork K = some w := by rw [hK, hrun, hw]
  have hu : preempting s2 k = preempting s k := hpre
  rw [hrunK]
  dsimp only
  set s3 := tally (.core k) 0x207 1 tag (daPoke (contextTraffic u cls at_ (contextLen w) s2) at_ img') with hs3eq
  have hs3 : CoreStep k s2 s3 :=
    (contextTraffic_charged.step (ns := [])).toCoreStep.trans ((hpoke ..).trans (tally_step (ns := [])).toCoreStep)
  have hat : at_ = saveDa k (vat s.cores k) := (congrArg (saveDa k) hK).trans hda
  have hcores : s3.cores = s2.cores := by rw [hs3eq, tally_cores, daPoke_rest, contextTraffic_charged.cores]
  refine ⟨s3, hs2.trans hs3, hcores, ?_⟩
  rw [savedWork, ← hat, ← hu]
  rfl

/-- YIELD where nothing ends the core and no exception is due: the context is saved, or the core drains first (R490). -/
theorem yield_eq {k : Nat} {s : State} (ht : yieldTaken s k = true) (hm : mustEnd (vat s.cores k) = false)
    (hd : (vat s.cores k).drain ≠ .yield) (hx : trapDue s k = none) :
    yield_ k s = if (vat s.cores k).xfers.isEmpty then saveContext k s
      else onCore k (fun K => { K with mode := .draining, drain := .yield }) s := by
  have hd' : ((vat s.cores k).drain == .yield) = false := beq_eq_false_iff_ne.2 hd
  simp [yield_, ht, hm, hd', hx]

/-- A YIELD is pending only where no context is saved. -/
theorem saved_of_yieldTaken {k : Nat} {s : State} (h : yieldTaken s k = true) : (vat s.cores k).saved = none := by
  simp only [yieldTaken, yieldPending, Bool.and_eq_true, Option.isNone_iff_eq_none] at h
  exact h.1.1.1.1

/-! ### YIELD_RESUME (R475) -/

/-- A saved work goes on as its image says. -/
theorem resume_eq {k : Nat} {s : State} {x : SavedCtx} (hs : (vat s.cores k).saved = some x)
    (hf : coreFree (vat s.cores k) = true) (hw : nextWork s k = none) :
    CoreStep k s (resume k s) ∧ (resume k s).mem = s.mem ∧
      vat (resume k s).cores k = match x.work with
        | .launch l => restoreCore (daRead s x.at_ 20480) l (vat s.cores k)
        | .item w => { vat s.cores k with mode := .attn, item := some w, saved := none, parts := x.parts,
                                          prog := BitVec.ofNat 32 (leNat (daRead s (x.at_ + 0x10) 4)) } := by
  have hc := @contextTraffic_charged x.by_ x.cls x.at_ (contextLen x.work) s
  have hstep : CoreStep k s (contextTraffic x.by_ x.cls x.at_ (contextLen x.work) s) := (hc.step (ns := [])).toCoreStep
  have hread (a n : Nat) : daRead (contextTraffic x.by_ x.cls x.at_ (contextLen x.work) s) a n = daRead s a n :=
    hstep.daRead hc.mem n a
  simp only [resume, hs, hf, hw, Bool.not_true, Option.isSome_none, Bool.or_self, Bool.false_eq_true, if_false, hread]
  cases hx : x.work with
  | launch l =>
    rw [hx] at hstep hc
    exact ⟨hstep.trans CoreStep.onCore, by rw [onCore_mem, hc.mem], by rw [vat_onCore, hc.cores]⟩
  | item w =>
    rw [hx] at hstep hc
    exact ⟨hstep.trans CoreStep.onCore, by rw [onCore_mem, hc.mem], by rw [vat_onCore, hc.cores]⟩

/-! ### The statement -/

/-- Settles O55. -/
theorem coresStartWork : Obligations.CoresStartWork := by
  unfold Obligations.CoresStartWork
  intro s k K core others
  refine ⟨fun l c x hm hk => ?_, fun w hf hw => ?_, fun w ht ha hb hy hw hd hx => ?_, fun x hs hf hw => ?_⟩
  · obtain ⟨hstep, hcore⟩ := launchCore_eq hm hk
    have hothers : others (launchCore k.val s) := fun j hj hlt => by
      rw [hstep.othersBut j hj hlt, stamp_cores]
    refine ⟨_, rfl, hothers, ?_⟩
    have hT : core (launchCore k.val s) = _ := hcore
    rw [hT]
    have hg (i : Nat) : i ≠ 0 → ∀ v : BitVec 64, vat (abiRegs k.val l x c.func) i = v → rdG (core (launchCore k.val s)) i = v := by
      intro hi v hv
      rw [rdG, if_neg hi, hT]
      exact hv
    rw [hT] at hg
    refine ⟨rfl, rfl, rfl, rfl, rfl, rfl, rfl, rfl, rfl, rfl, rfl, fun i hi => ?_, ?_, ?_, ?_, ?_, ?_, fun i hi => ?_, fun i hi => ?_,
      fun i hi => ?_, fun i hi => ?_⟩
    · exact hg _ (by omega) _ (by rw [vat_abiRegs (by omega)]; grind)
    · exact hg _ (by omega) _ (by rw [vat_abiRegs (by omega)]; rfl)
    · exact hg _ (by omega) _ (by rw [vat_abiRegs (by omega)]; rfl)
    · exact hg _ (by omega) _ (by rw [vat_abiRegs (by omega)]; rfl)
    · exact hg _ (by omega) _ (by rw [vat_abiRegs (by omega)]; rfl)
    · exact hg _ (by omega) _ (by rw [vat_abiRegs (by omega)]; rfl)
    · by_cases h0 : i = 0
      · rw [rdG, if_pos h0]
      · exact hg _ h0 _ (by rw [vat_abiRegs (by omega)]; grind)
    · exact vat_replicate ..
    · exact ⟨vat_replicate .., vat_replicate .., vat_replicate ..⟩
    · exact congrArg Tile.live (vat_map ..)
  · obtain ⟨hstep, hq⟩ := takeWork_queue hf hw
    obtain ⟨hmem, hbest⟩ := nextWork_spec hw
    have hidle : K.mode = .idle := by
      have h := hf
      simp only [coreFree, Bool.and_eq_true, beq_iff_eq] at h
      exact h.1.1.1
    refine ⟨_, rfl, hstep.othersBut, hq, hmem, hbest, fun l e => ?_, fun i c d e hc hkv => ?_⟩
    · subst e
      obtain ⟨h1, h2⟩ := takeWork_launch hf hw
      exact ⟨h1, h2.trans hidle⟩
    · subst e
      exact takeWork_item hf hw hc hkv
  · have hend : mustEnd K = false := by simp [mustEnd, ha, hb, hy]
    have he := yield_eq ht hend hd hx
    refine ⟨_, rfl, ?_, fun hxf => ?_, fun hxf => ?_⟩
    · rw [he]
      split
      · obtain ⟨s3, h3, -, e⟩ := saveContext_eq hw
        rw [e]
        exact (h3.trans CoreStep.onCore).othersBut
      · exact CoreStep.onCore.othersBut
    · obtain ⟨s3, -, hc3, e⟩ := saveContext_eq hw
      obtain ⟨-, -, hparts, -, -⟩ := @landed_works k.val s
      have hT : core (yield_ k.val s) = freedCore (savedWork k.val w s) (modeSettled (vat (landAll k.val s).cores k.val)) := by
        change vat (yield_ k.val s).cores k.val = _
        rw [he, if_pos (by rw [show (vat s.cores k.val).xfers = [] from hxf]; rfl), e, vat_onCore, hc3, vat_onCore]
      rw [hT]
      refine ⟨rfl, rfl, rfl, ?_, rfl⟩
      rw [freedCore, hparts]
      rfl
    · have hT : core (yield_ k.val s) = { K with mode := .draining, drain := .yield } := by
        change vat (yield_ k.val s).cores k.val = _
        rw [he, if_neg (by rwa [List.isEmpty_iff]), vat_onCore]
      rw [hT]
      exact ⟨rfl, rfl, saved_of_yieldTaken ht⟩
  · obtain ⟨hstep, hmem, hcore⟩ := resume_eq hs hf hw
    have hT : core (resume k.val s) = _ := hcore
    refine ⟨_, rfl, hstep.othersBut, ?_, hmem, fun l e => ?_, fun i e => ?_⟩
    · rw [hT]
      cases x.work <;> rfl
    · rw [hT, e]
      refine ⟨rfl, rfl, rfl, rfl, rfl, fun i hi hlt => ?_, fun i hi => ?_⟩
      · rw [rdG, if_neg (by omega)]
        exact (vat_ofFn ..).trans (by simp [Nat.mod_eq_of_lt hlt])
      · exact (vat_ofFn ..).trans (by simp [Nat.mod_eq_of_lt hi])
    · rw [hT, e]
      exact ⟨rfl, rfl, rfl⟩

end Sys2Proof.Machine
end

section
/-!
PROOFS. Configuration requests, the end of translations and function resets (sections 13.2, 13.4 and 13.6).
-/
namespace Sys2Proof.Machine

/-! ### Messages leave a function's registers alone, its pending bits apart (R510, R511) -/

/-- Of the functions, only pending bits differ. -/
structure PbaOnly (s t : State) : Prop where
  funcs : ∀ f, vat t.funcs f = { vat s.funcs f with pba := (vat t.funcs f).pba }

theorem PbaOnly.of_funcs {s t : State} (h : t.funcs = s.funcs) : PbaOnly s t := ⟨fun f => by rw [h]⟩

theorem PbaOnly.refl (s : State) : PbaOnly s s := .of_funcs rfl

theorem PbaOnly.trans {a b c : State} (h1 : PbaOnly a b) (h2 : PbaOnly b c) : PbaOnly a c :=
  ⟨fun f => by rw [h2.funcs f, h1.funcs f]⟩

theorem PbaOnly.foldl {α : Type} {g : State → α → State} (h : ∀ s x, PbaOnly s (g s x)) : ∀ (l : List α) (s : State),
    PbaOnly s (l.foldl g s)
  | [], s => .refl s
  | x :: l, s => (h s x).trans (.foldl h l _)

theorem PbaOnly.pci {s t : State} (h : PbaOnly s t) (f : Nat) : (vat t.funcs f).pci = (vat s.funcs f).pci := by
  rw [h.funcs f]

/-- One function changed. -/
theorem vat_onFunc {f : Nat} {g : Func → Func} {s : State} : vat (onFunc f g s).funcs f = g (vat s.funcs f) := vat_vupd_self ..

theorem vat_onFunc_cases (f j : Nat) (g : Func → Func) (s : State) :
    vat (onFunc f g s).funcs j = if f % 64 = j % 64 then g (vat s.funcs j) else vat s.funcs j := vat_vupd ..

theorem onFunc_pbaOnly {f : Nat} {g : Func → Func} {s : State} (h : ∀ F, g F = { F with pba := (g F).pba }) :
    PbaOnly s (onFunc f g s) := by
  refine ⟨fun j => ?_⟩
  rw [vat_onFunc_cases]
  split
  · exact h _
  · rfl

theorem raiseMsix_pbaOnly (f v : Nat) (s : State) : PbaOnly s (raiseMsix f v s) := by
  unfold raiseMsix
  dsimp only
  split
  · exact .refl s
  split
  · exact onFunc_pbaOnly fun F => rfl
  split
  · exact .of_funcs rfl
  · exact .refl s

theorem deliverEvent_pbaOnly (n : Nat) (e : Event) (s : State) : PbaOnly s (deliverEvent n e s) := by
  unfold deliverEvent
  dsimp only
  split
  · split
    · exact .of_funcs rfl
    · refine PbaOnly.trans ?_ (raiseMsix_pbaOnly ..)
      exact .of_funcs hostWrite_funcs
  · exact .of_funcs rfl

theorem raiseEvent_pbaOnly (t a b : Nat) (s : State) : PbaOnly s (raiseEvent t a b s) := by
  unfold raiseEvent
  dsimp only
  split
  · exact .refl s
  split
  · refine PbaOnly.trans ?_ (.of_funcs (tally_funcs.trans jKick_funcs))
    refine PbaOnly.trans ?_ (deliverEvent_pbaOnly ..)
    exact .of_funcs rfl
  · exact .of_funcs tally_funcs

theorem releaseEvents_pbaOnly (s : State) : PbaOnly s (releaseEvents s) := by
  have h0 : PbaOnly s { s with jr := { s.jr with evtHeld := [] } } := .of_funcs rfl
  have h1 (u : State) (x : Nat × Event) : PbaOnly u (deliverEvent x.1 x.2 u) := deliverEvent_pbaOnly ..
  exact h0.trans (.foldl h1 s.jr.evtHeld _)

theorem enterState_pbaOnly (n : DevState) (c a : Nat) (s : State) : PbaOnly s (enterState n c a s) := by
  unfold enterState
  refine PbaOnly.trans ?_ (raiseEvent_pbaOnly ..)
  exact .of_funcs jAdd_funcs

/-- Events that waited leave their rings and registers alone. -/
theorem releaseEvents_frame {s : State} : releaseEvents s =
    { s with jr := (releaseEvents s).jr, funcs := (releaseEvents s).funcs, out := (releaseEvents s).out } := by
  have h : ∀ (l : List (Nat × Event)) (u : State), ∃ j f o,
      l.foldl (fun s e => deliverEvent e.1 e.2 s) u = { u with jr := j, funcs := f, out := o } := by
    intro l
    induction l with
    | nil => exact fun u => ⟨_, _, _, rfl⟩
    | cons x l ih =>
      intro u
      obtain ⟨j0, f0, o0, e0⟩ : ∃ j f o, deliverEvent x.1 x.2 u = { u with jr := j, funcs := f, out := o } :=
        ⟨_, _, _, deliverEvent_frame⟩
      obtain ⟨j, f, o, e⟩ := ih (deliverEvent x.1 x.2 u)
      rw [List.foldl_cons, e, e0]
      exact ⟨j, f, o, rfl⟩
  obtain ⟨j, f, o, e⟩ := h s.jr.evtHeld { s with jr := { s.jr with evtHeld := [] } }
  have he : releaseEvents s = { s with jr := j, funcs := f, out := o } := e
  rw [he]

/-! ### Configuration requests (R500, R512) -/

/-- Pending vectors go out: messages and pending bits alone. -/
theorem sendPending_spec (f : Nat) (s : State) :
    PbaOnly s (sendPending f s) ∧
      sendPending f s = { s with funcs := (sendPending f s).funcs, out := (sendPending f s).out } := by
  unfold sendPending
  extract_lets F due s1
  split
  · exact ⟨.refl s, rfl⟩
  have h1 : PbaOnly s s1 := onFunc_pbaOnly fun _ => rfl
  have h2 : ∀ (l : List Nat) (u : State), ∃ g o, l.foldl (fun s v => raiseMsix f v s) u = { u with funcs := g, out := o } := by
    intro l
    induction l with
    | nil => exact fun u => ⟨_, _, rfl⟩
    | cons v l ih =>
      intro u
      obtain ⟨g0, o0, e0⟩ : ∃ g o, raiseMsix f v u = { u with funcs := g, out := o } := ⟨_, _, raiseMsix_frame⟩
      obtain ⟨g, o, e⟩ := ih (raiseMsix f v u)
      rw [List.foldl_cons, e, e0]
      exact ⟨g, o, rfl⟩
  obtain ⟨g, o, e⟩ := h2 due s1
  have he : due.foldl (fun s v => raiseMsix f v s) s1 = { s with funcs := g, out := o } := e
  exact ⟨h1.trans (.foldl (fun _ _ => raiseMsix_pbaOnly ..) _ _), by rw [he]⟩

/-- A request that writes a function's own registers. -/
theorem configuration_spec {s : State} {f : Fin 68} {r : ConfigReq} (hf : f.val < 64) (ht : linksTraining s = true)
    (hp : portUp s (f.val / 16) = true) (he : (vat s.funcs f).pci.en = true) (ha : funcAbsent s f = false)
    (hr : configWrite f r s = onFunc f (fun F => { F with pci := pciWrite s f r F.pci }) s) :
    ∃ t, exec (.configurationRequest f r) s = .next t ∧ (vat t.funcs f).pci = pciWrite s f r (vat s.funcs f).pci ∧
      t.sys = s.sys ∧ t.mem = s.mem ∧ t.qs = s.qs ∧ t.cmds = s.cmds := by
  have hexec : exec (.configurationRequest f r) s = .next (sendPending f (configWrite f r s)) := by
    change execConfigurationRequest f r s = _
    rw [execConfigurationRequest, if_neg (by omega), if_pos (by simp [ht, he, ha, portOf, hp])]
  obtain ⟨hpba, hframe⟩ := sendPending_spec f (configWrite f r s)
  refine ⟨_, hexec, ?_, ?_⟩
  · rw [hpba.pci, hr, vat_onFunc]
  · rw [hframe, hr]
    exact ⟨rfl, rfl, rfl, rfl⟩

/-! ### ATS_INVALIDATE (R501) -/

/-- What an Invalidate Request leaves of a command: no held translation that its range covers, all else but what the command
waits for as it was. -/
theorem invalidateCmd_spec (f a n : Nat) (c : Cmd) :
    (c.func = f → ∀ h ∈ (invalidateCmd f a n c).1.held, rangesMeet h.1 h.2 a n = false) ∧
      ∃ w x, (invalidateCmd f a n c).1 = { c with held := (invalidateCmd f a n c).1.held, wants := w, fresh := x } := by
  unfold invalidateCmd
  extract_lets hit out ask
  split
  case isTrue h =>
    refine ⟨fun hc x hx => ?_, _, _, rfl⟩
    have hempty : hit = [] := by simpa [hc] using h
    have hno := List.filter_eq_nil_iff.1 hempty x hx
    simpa using hno
  case isFalse h =>
    refine ⟨fun _ x hx => ?_, _, _, rfl⟩
    simpa using (List.mem_filter.1 hx).2

/-- A command without a held translation is left alone. -/
theorem invalidateCmd_none {f a n : Nat} {c : Cmd} (h : c.func = f → c.held = []) : invalidateCmd f a n c = (c, none) := by
  unfold invalidateCmd
  extract_lets hit out ask
  rw [if_pos]
  by_cases hc : c.func = f
  · have : hit = [] := by unfold hit; rw [h hc]; rfl
    simp [this]
  · simp [hc]

/-- Requests that go out. -/
theorem foldl_hostAsk (l : List HostRead) (s : State) : ∃ o, l.foldl (fun s w => hostAsk w s) s = { s with out := o } := by
  induction l generalizing s with
  | nil => exact ⟨_, rfl⟩
  | cons w l ih =>
    obtain ⟨o, e⟩ := ih (hostAsk w s)
    exact ⟨o, e⟩

/-- An Invalidate Request to a function that translates: its commands, and what goes out. -/
theorem atsInvalidate_spec {s : State} {f : Fin 64} {a n : Nat} (h : (vat s.funcs f).pci.atsEn = true) :
    ∃ g o, exec (.atsInvalidate f a n) s =
      .next { s with cmds := s.cmds.map fun c => (invalidateCmd f a n c).1, funcs := g, out := o } ∧
      ((∀ c ∈ s.cmds, c.func = f.val → c.held = []) → .invalidation f.val ∈ o) := by
  change ∃ g o, execAtsInvalidate f a n s = _ ∧ _
  have hu : usesAts s f.val = true := h
  unfold execAtsInvalidate
  rw [if_neg (by simp [hu])]
  extract_lets rs fresh s1 out
  obtain ⟨o1, e1⟩ := foldl_hostAsk fresh { s with cmds := rs.map (·.1) }
  have hs1 : s1 = { s with cmds := s.cmds.map fun c => (invalidateCmd f a n c).1, out := o1 } := by
    refine e1.trans ?_
    have hm : rs.map (·.1) = s.cmds.map fun c => (invalidateCmd f a n c).1 := List.map_map
    rw [hm]
  split
  case isTrue ho =>
    refine ⟨s.funcs, .invalidation f.val :: o1, ?_, fun _ => List.mem_cons_self⟩
    rw [hs1]
    rfl
  case isFalse ho =>
    refine ⟨_, o1, by rw [hs1]; rfl, fun hno => absurd ?_ ho⟩
    have hnone : out = [] := by
      refine List.filterMap_eq_nil_iff.2 fun x hx => ?_
      obtain ⟨c, hc, rfl⟩ := List.mem_map.1 hx
      rw [invalidateCmd_none (hno c hc)]
    rw [hnone]
    rfl

/-- Settles O19. -/
theorem configurationIsTaken : Obligations.ConfigurationIsTaken := by
  unfold Obligations.ConfigurationIsTaken
  intro s ht
  refine ⟨fun k hp hm h1 h2 => ?_, fun k hp hm => ?_, fun f on hf hp he ha => ?_, fun f a n hats => ?_⟩
  · change execResizableBarWrite k s = _
    rw [execResizableBarWrite, if_neg (by simp [ht, hp]), if_neg (by simp [hm]), if_pos ⟨h1, h2⟩]
  · change execResizableBarWrite k s = _
    rw [execResizableBarWrite, if_neg (by simp [ht, hp]), if_pos hm]
    rfl
  · have hk : decide (funcKind f ≠ .peer) = true := by
      unfold funcKind
      rw [if_neg (by omega)]
      split <;> rfl
    have hw (r : ConfigReq) : configWrite f r s = onFunc f (fun F => { F with pci := pciWrite s f r F.pci }) s →
        ∃ t, exec (.configurationRequest f r) s = .next t ∧ (vat t.funcs f).pci = pciWrite s f r (vat s.funcs f).pci ∧
          t.sys = s.sys ∧ t.mem = s.mem ∧ t.qs = s.qs ∧ t.cmds = s.cmds := configuration_spec hf ht hp he ha
    refine ⟨?_, ?_, ?_, ?_⟩
    · obtain ⟨t, e, hpci, hsys, hmem, hqs, hcmds⟩ := hw (.memorySpace on) (if_neg (by omega))
      exact ⟨t, e, by rw [hpci]; rfl, hsys, hmem, hqs, hcmds⟩
    · obtain ⟨t, e, hpci, hsys, hmem, -, -⟩ := hw (.atsEnable on) (if_neg (by omega))
      exact ⟨t, e, by rw [hpci]; simp only [pciWrite, hk, if_true], hsys, hmem⟩
    · obtain ⟨t, e, hpci, hsys, hmem, -, -⟩ := hw (.msixEnable on) (if_neg (by omega))
      exact ⟨t, e, by rw [hpci]; simp only [pciWrite, hk, if_true], hsys, hmem⟩
    · obtain ⟨t, e, hpci, hsys, hmem, -, -⟩ := hw .toD3hot (if_neg (by omega))
      exact ⟨t, e, by rw [hpci]; rfl, hsys, hmem⟩
  · obtain ⟨g, o, e, hout⟩ := atsInvalidate_spec (a := a) (n := n) hats
    refine ⟨_, e, rfl, rfl, rfl, fun c hc hf => ?_, ?_, fun hno => ⟨hout hno, ?_⟩⟩
    · obtain ⟨c0, h0, rfl⟩ := List.mem_map.1 hc
      obtain ⟨hheld, w, x, hrest⟩ := invalidateCmd_spec f a n c0
      exact hheld (by rw [hrest] at hf; exact hf)
    · rw [List.map_map]
      refine List.map_congr_left fun c _ => ?_
      obtain ⟨-, w, x, hrest⟩ := invalidateCmd_spec f a n c
      rw [Function.comp_apply, hrest]
    · refine (List.map_congr_left fun c hc => ?_).trans (List.map_id _)
      rw [invalidateCmd_none (hno c hc)]
      rfl

end Sys2Proof.Machine
end

section
/-!
PROOFS. Function resets (section 13.6): which functions a trigger resets, what stops at once, and what FUNC_RESET_COMPLETE leaves
of the function.
-/
namespace Sys2Proof.Machine

/-! ### Which functions a trigger resets (R513, R522) -/

theorem exec_fundamentalReset {s : State} {p : Fin 8} (hm : portMode s p = .host) (ht : linksTraining s = true) :
    exec (.fundamentalReset p) s = .next (resetFuncs (portFuncs s p) 0 s) := by
  change execFundamentalReset p s = _
  rw [execFundamentalReset, if_neg (by simp [ht]), if_pos (by simp [hm])]

theorem exec_flr {s : State} {f : Fin 68} (hf : f.val < 64) (ht : linksTraining s = true) (ha : funcAbsent s f = false)
    (he : (vat s.funcs f).pci.en = true) :
    exec (.flr f) s = .next (if f.val % 16 = 0 then resetFuncs (f :: (portFuncs s (f.val / 16)).drop 1) 2 s
      else resetFuncs [f] 4 s) := by
  change execFlr f s = _
  rw [execFlr, if_neg (by omega), if_neg (by simp [ht, ha, he])]
  split
  · rfl
  · rename_i h
    simp [funcReset, h]

theorem exec_vfEnableClear {s : State} {p : Fin 4} (ht : linksTraining s = true)
    (hv : (vat s.funcs (16 * p)).pci.vfEnable = true) :
    exec (.vfEnableClear p) s = .next (resetFuncs ((portFuncs s p).filter (· != 16 * p.val)) 3
      (onFunc (16 * p) (fun F => { F with pci := { F.pci with vfEnable := false } }) s)) := by
  change execVfEnableClear p s = _
  unfold execVfEnableClear
  dsimp only
  rw [if_pos (by simp [ht, hv])]

theorem exec_numvfsLowered {s : State} {p : Fin 4} {n : Fin 16} (ht : linksTraining s = true)
    (hn : n.val < (vat s.funcs (16 * p)).pci.numVfs) :
    exec (.numvfsLowered p n) s = .next (resetFuncs ((portFuncs s p).filter fun g => decide (16 * p.val + n.val < g)) 5
      (onFunc (16 * p) (fun F => { F with pci := { F.pci with numVfs := n } }) s)) := by
  change execNumvfsLowered p n s = _
  unfold execNumvfsLowered
  dsimp only
  rw [if_pos (by simp [ht, hn])]

/-- A PF's VFs are reset after it. -/
theorem funcReset_eq (trigger : Nat) (s : State) (f : Nat) :
    funcReset trigger s f =
      if f % 16 = 0 ∧ (portFuncs s (f / 16)).filter (· != f) ≠ [] then
        resetFuncs ((portFuncs s (f / 16)).filter (· != f)) 3 (resetFuncs [f] trigger s)
      else resetFuncs [f] trigger s := by
  simp only [funcReset, portOf]
  by_cases h : f % 16 = 0
  · simp only [h, if_true, true_and, List.isEmpty_iff, ite_not, ne_eq]
  · simp [h]

theorem exec_d3hotToD0 {s : State} {f : Fin 68} (hf : f.val < 64) (hd : (vat s.funcs f).pci.d3hot = true) :
    exec (.d3hotToD0 f) s = .next (funcReset 6 s f) := by
  change execD3hotToD0 f s = _
  rw [execD3hotToD0, if_neg (by omega), if_pos hd]

theorem exec_flr_peer {s : State} {f : Fin 68} (hf : 64 ≤ f.val) (hm : portMode s (f.val - 60) = .peer)
    (ht : linksTraining s = true) : exec (.flr f) s = .next (peerReset false (f.val - 60) s) := by
  change execFlr f s = _
  rw [execFlr, if_pos hf, if_pos (by simp [ht, hm])]

theorem exec_d3hotToD0_peer {s : State} {f : Fin 68} (hf : 64 ≤ f.val) (hm : portMode s (f.val - 60) = .peer)
    (hd : (vat s.ports (f.val - 60)).peer.d3hot = true) :
    exec (.d3hotToD0 f) s = .next (peerReset false (f.val - 60) s) := by
  change execD3hotToD0 f s = _
  rw [execD3hotToD0, if_pos hf, if_pos (by simp [hd, hm])]

/-! ### What stops at once (R514) -/

/-- A stopped queue pair: disabled, with no doorbell recorded and no command fetched. -/
def stoppedQueue (Q : Queue) : Queue := { Q with en := false, tail := 0, head := 0, stopped := false, fetched := [] }

/-- The registers of a function apart from its counters. -/
structure CountOnly (s t : State) : Prop where
  funcs : ∀ f, vat t.funcs f = { vat s.funcs f with cnt := (vat t.funcs f).cnt }

/-- Fetched commands are dropped from one queue pair and counted. -/
theorem dropFetched_spec (q : Nat) (s : State) :
    CountOnly s (dropFetched q s) ∧ (∃ g l n, dropFetched q s =
      { onQ q (fun Q => { Q with fetched := [] }) s with funcs := g, led := l, freeCtr := n }) := by
  unfold dropFetched
  extract_lets Q n s1
  split
  · exact ⟨⟨fun _ => rfl⟩, s.funcs, s.led, s.freeCtr, rfl⟩
  · refine ⟨⟨fun f => ?_⟩, _, _, _, rfl⟩
    change vat (countFunc (funcOfQ s1 q) 7 n s1).funcs f = { vat s.funcs f with cnt := (vat (countFunc (funcOfQ s1 q) 7 n s1).funcs f).cnt }
    rw [countFunc, vat_onFunc_cases]
    split <;> rfl

/-- A queue pair of the function stops. -/
def stopQueue (s : State) (q : Nat) : State :=
  onQ q (fun Q => { Q with en := false, tail := 0, head := 0, stopped := false }) (dropFetched q s)

theorem stopQueue_spec (q : Nat) (s : State) :
    CountOnly s (stopQueue s q) ∧ (∃ g l n, stopQueue s q =
      { s with qs := vupd s.qs q stoppedQueue, funcs := g, led := l, freeCtr := n }) := by
  obtain ⟨hf, g, l, n, e⟩ := dropFetched_spec q s
  refine ⟨⟨hf.funcs⟩, g, l, n, ?_⟩
  rw [stopQueue, e]
  simp only [onQ, State.mk.injEq, true_and, and_true]
  simp [vupd, stoppedQueue, vat]

/-- The queue pairs of a list stop, one after another. -/
theorem foldl_stopQueue : ∀ (l : List Nat) (s : State), (∀ q ∈ l, q < 256) → l.Nodup →
    CountOnly s (l.foldl stopQueue s) ∧
      (∃ q g e n, l.foldl stopQueue s = { s with qs := q, funcs := g, led := e, freeCtr := n }) ∧
      ∀ q < 256, vat (l.foldl stopQueue s).qs q = if q ∈ l then stoppedQueue (vat s.qs q) else vat s.qs q
  | [], s, _, _ => ⟨⟨fun _ => rfl⟩, ⟨_, _, _, _, rfl⟩, fun q _ => by simp⟩
  | x :: l, s, hl, hn => by
    obtain ⟨hx, hnodup⟩ := List.nodup_cons.1 hn
    obtain ⟨hc, g, e, n, h1⟩ := stopQueue_spec x s
    obtain ⟨hc', ⟨q', g', e', n', h2⟩, hqs⟩ := foldl_stopQueue l (stopQueue s x) (fun q hq => hl q (List.mem_cons_of_mem _ hq)) hnodup
    rw [List.foldl_cons]
    refine ⟨⟨fun f => by rw [hc'.funcs f, hc.funcs f]⟩, ⟨q', g', e', n', by rw [h2, h1]⟩, fun q hq => ?_⟩
    have hxlt := hl x List.mem_cons_self
    have hvat : vat (stopQueue s x).qs q = if x = q then stoppedQueue (vat s.qs q) else vat s.qs q := by
      rw [h1, vat_vupd, Nat.mod_eq_of_lt hxlt, Nat.mod_eq_of_lt hq]
    rw [hqs q hq, hvat]
    by_cases hqx : x = q
    · subst hqx
      simp [hx]
    · have : q ≠ x := fun h => hqx h.symm
      simp [hqx, this]

/-- The queue pairs of a function stop. -/
theorem resetQueues_spec (f : Nat) (s : State) :
    CountOnly s (resetQueues f s) ∧ (∃ q g e n, resetQueues f s = { s with qs := q, funcs := g, led := e, freeCtr := n }) ∧
      ∀ q < 256, vat (resetQueues f s).qs q = if (vat s.qs q).func = some f then stoppedQueue (vat s.qs q) else vat s.qs q := by
  have h := foldl_stopQueue ((List.range 256).filter fun q => (vat s.qs q).func == some f) s
    (fun q hq => List.mem_range.1 (List.mem_filter.1 hq).1) (List.nodup_range.filter _)
  obtain ⟨h1, h2, h3⟩ := h
  refine ⟨h1, h2, fun q hq => (h3 q hq).trans ?_⟩
  simp [hq]

/-- A function's window cache goes; nothing waits to be served. -/
theorem dropWindow_spec {f : Nat} {s : State} (h : (vat s.brg (bridgeOf f)).waiting = []) :
    ∃ b, dropWindow f s = { s with brg := b } := by
  unfold dropWindow serveWaiting
  extract_lets b idxs s1
  have hw : (vat s1.brg b).waiting = [] := by
    change (vat (vupd s.brg b _) b).waiting = []
    rw [vat_vupd_self]
    exact congrArg (List.filter _) h
  rw [hw]
  exact ⟨_, rfl⟩

/-- A mailbox operation in progress runs on without its mailbox. -/
theorem leaveMailbox_frame (f : Nat) (s : State) : ∃ m j c, leaveMailbox f s = { s with mg := m, jr := j, cnt := c } := by
  unfold leaveMailbox
  extract_lets M op s1
  split
  · exact ⟨_, _, _, rfl⟩
  split
  · exact ⟨_, _, _, rfl⟩
  split
  · rename_i h
    have hop : op = 0x60 ∨ op = 0x61 ∨ op = 0x62 := by omega
    obtain e | e | e := hop <;> rw [e] <;> exact ⟨_, _, _, rfl⟩
  · exact ⟨_, _, _, rfl⟩

/-- The registers of function `f` as its reset begins. -/
structure StoppedFunc (trigger : Nat) (F T : Func) : Prop where
  resetting : T.resetting = true
  mbx : T.mbx = resetMbx
  win : T.win = resetWin
  pci : T.pci = pciAfter (decide (trigger ≤ 1)) F.pci
  held : T.held = []

/-- A function without commands and without waiting accesses stops. -/
theorem funcStops_spec {s : State} {f : Nat} (trigger : Nat) (hc : ∀ c ∈ s.cmds, c.func ≠ f)
    (hw : (vat s.brg (bridgeOf f)).waiting = []) :
    StoppedFunc trigger (vat s.funcs f) (vat (funcStops trigger s f).funcs f) ∧
      (∀ q < 256, vat (funcStops trigger s f).qs q =
        if (vat s.qs q).func = some f then stoppedQueue (vat s.qs q) else vat s.qs q) ∧
      (funcStops trigger s f).cmds = s.cmds ∧ (funcStops trigger s f).mem = s.mem := by
  unfold funcStops
  extract_lets s1 led s2 s3 s4 s5 s6 cfg s7 sys s8
  obtain ⟨hcount, ⟨q, g, e, n, h3⟩, hqs⟩ := resetQueues_spec f s2
  have h3 : s3 = { s2 with qs := q, funcs := g, led := e, freeCtr := n } := h3
  have hcmds3 : s3.cmds = s.cmds := by rw [h3]; rfl
  have hnone : s3.cmds.filter (·.func == f) = [] := by
    rw [hcmds3, List.filter_eq_nil_iff]
    exact fun c hcm => by simpa using hc c hcm
  have h4 : s4 = s3 := by unfold s4; rw [hnone]; rfl
  obtain ⟨b, h5⟩ : ∃ b, s5 = { loseNotices f s3 with brg := b } := by
    unfold s5
    rw [h4]
    refine dropWindow_spec ?_
    change (vat s3.brg (bridgeOf f)).waiting = []
    rw [h3]
    exact hw
  obtain ⟨m, j, c, h6⟩ := leaveMailbox_frame f s5
  have hf1 : (vat s1.funcs f).resetting = true ∧ (vat s1.funcs f).pci = pciAfter (decide (trigger ≤ 1)) (vat s.funcs f).pci := by
    unfold s1
    rw [vat_onFunc]
    exact ⟨rfl, rfl⟩
  have hf3 : vat s3.funcs f = { vat s1.funcs f with cnt := (vat s3.funcs f).cnt } := hcount.funcs f
  have hf5 : (vat s5.funcs f).held = [] ∧ (vat s5.funcs f).resetting = true ∧
      (vat s5.funcs f).pci = pciAfter (decide (trigger ≤ 1)) (vat s.funcs f).pci := by
    rw [h5]
    change (vat (loseNotices f s3).funcs f).held = [] ∧ (vat (loseNotices f s3).funcs f).resetting = true ∧
      (vat (loseNotices f s3).funcs f).pci = _
    rw [loseNotices, vat_onFunc, hf3]
    exact ⟨rfl, hf1⟩
  have hs6 : StoppedFunc trigger (vat s.funcs f) (vat s6.funcs f) := by
    unfold s6
    rw [vat_onFunc, h6]
    obtain ⟨h1, h2, h3⟩ := hf5
    exact ⟨h2, rfl, rfl, h3, h1⟩
  have hrest6 : s6.qs = s3.qs ∧ s6.cmds = s3.cmds ∧ s6.mem = s3.mem := by
    unfold s6
    rw [h6, h5]
    exact ⟨rfl, rfl, rfl⟩
  obtain ⟨hq6, hc6, hm6⟩ := hrest6
  clear_value s6
  obtain ⟨y, h8⟩ : ∃ y, s8 = { s7 with sys := y } := by
    unfold s8
    split
    · exact ⟨_, rfl⟩
    · exact ⟨s7.sys, rfl⟩
  have h8f : s8.funcs = s6.funcs := by rw [h8]
  have h8q : s8.qs = s3.qs := by rw [h8]; exact hq6
  have h8c : s8.cmds = s3.cmds := by rw [h8]; exact hc6
  have h8m : s8.mem = s3.mem := by rw [h8]; exact hm6
  refine ⟨?_, fun i hi => ?_, ?_, ?_⟩
  · rw [(raiseEvent_pbaOnly ..).funcs f, h8f]
    exact ⟨hs6.resetting, hs6.mbx, hs6.win, hs6.pci, hs6.held⟩
  · rw [raiseEvent_qs, h8q]
    exact hqs i hi
  · rw [raiseEvent_cmds, h8c, hcmds3]
  · rw [raiseEvent_mem, h8m, h3]
    rfl

/-! ### The end of a reset (R514 step 7) -/

/-- Only the count of locked lines of functions differs. -/
structure LockedOnly (s t : State) : Prop where
  funcs : ∀ f, ∃ n, vat t.funcs f = { vat s.funcs f with win := { (vat s.funcs f).win with locked := n } }

/-- Zeroed granules are a change of memory. -/
theorem zeroGranules_frame (base n : Nat) (s : State) : ∃ m p, zeroGranules base n s = { s with mem := m, poison := p } := by
  have h : ∀ (l : List Nat) (u : State), ∃ m p,
      l.foldl (fun s k => zeroRange (stackDa k (s.image.carve.stripeBase + base * 4096)) (n * 4096) s) u =
        { u with mem := m, poison := p } := by
    intro l
    induction l with
    | nil => exact fun u => ⟨_, _, rfl⟩
    | cons k l ih =>
      intro u
      obtain ⟨m, p, e⟩ := ih (zeroRange (stackDa k (u.image.carve.stripeBase + base * 4096)) (n * 4096) u)
      exact ⟨m, p, e⟩
  exact h _ s

/-- Buffers freed and waited for no longer leave the pool. -/
theorem settleBuffers_spec (s : State) : ∃ p m q, settleBuffers s = { s with pool := p, mem := m, poison := q } ∧
    ∀ b ∈ p.bufs, b ∈ s.pool.bufs := by
  have h : ∀ (l : List Buffer) (u : State), ∃ m p,
      l.foldl (fun s b => zeroGranules b.base (2 ^ b.k) s) u = { u with mem := m, poison := p } := by
    intro l
    induction l with
    | nil => exact fun u => ⟨_, _, rfl⟩
    | cons b l ih =>
      intro u
      obtain ⟨m0, p0, e0⟩ := zeroGranules_frame b.base (2 ^ b.k) u
      obtain ⟨m, p, e⟩ := ih (zeroGranules b.base (2 ^ b.k) u)
      rw [List.foldl_cons, e, e0]
      exact ⟨m, p, rfl⟩
  unfold settleBuffers
  rw [List.partition_eq_filter_filter]
  dsimp only
  obtain ⟨m, p, e⟩ := h (s.pool.bufs.filter fun b => b.freed == some [])
    { s with pool := { s.pool with bufs := s.pool.bufs.filter (not ∘ fun b => b.freed == some []) } }
  rw [e]
  exact ⟨_, m, p, rfl, fun b hb => (List.mem_filter.1 hb).1⟩

/-- A freed buffer: those that start where it does are freed, and no other becomes unfreed. -/
theorem freeBuffer_spec (before : List Nat) (b : Buffer) (s : State) :
    LockedOnly s (freeBuffer before b s) ∧
      (∃ p m q r g, freeBuffer before b s = { s with pool := p, mem := m, poison := q, brg := r, funcs := g }) ∧
      ∀ x ∈ (freeBuffer before b s).pool.bufs, x.freed.isSome = true ∨ (x ∈ s.pool.bufs ∧ x ≠ b) := by
  unfold freeBuffer
  extract_lets g s1
  obtain ⟨p, m, q, e, hp⟩ := settleBuffers_spec (discardLines b.func (granuleDa b.base) (granule * 2 ^ b.k) s1)
  rw [e]
  refine ⟨⟨fun f => ?_⟩, ⟨_, _, _, _, _, rfl⟩, fun x hx => ?_⟩
  · change ∃ n, vat (discardLines b.func (granuleDa b.base) (granule * 2 ^ b.k) s1).funcs f = _
    rw [discardLines, vat_onFunc_cases]
    split
    · exact ⟨_, rfl⟩
    · exact ⟨_, rfl⟩
  · obtain ⟨y, hy, rfl⟩ := List.mem_map.1 (show x ∈ s1.pool.bufs from hp x hx)
    split
    · exact .inl rfl
    · rename_i hb
      exact .inr ⟨hy, fun e => hb (by rw [e]; exact beq_self_eq_true _)⟩

/-- The buffers of a function are freed, one after another. -/
theorem foldl_freeBuffer (us : State → List Nat) : ∀ (l : List Buffer) (s : State),
    LockedOnly s (l.foldl (fun s b => freeBuffer (us s) b s) s) ∧
      (∃ p m q r g, l.foldl (fun s b => freeBuffer (us s) b s) s = { s with pool := p, mem := m, poison := q, brg := r, funcs := g }) ∧
      ∀ x ∈ (l.foldl (fun s b => freeBuffer (us s) b s) s).pool.bufs,
        x.freed.isSome = true ∨ (x ∈ s.pool.bufs ∧ x ∉ l)
  | [], s => ⟨⟨fun f => ⟨_, rfl⟩⟩, ⟨_, _, _, _, _, rfl⟩, fun x hx => .inr ⟨hx, List.not_mem_nil⟩⟩
  | b :: l, s => by
    obtain ⟨h1, ⟨p, m, q, r, g, e⟩, hb⟩ := freeBuffer_spec (us s) b s
    obtain ⟨h1', ⟨p', m', q', r', g', e'⟩, hb'⟩ := foldl_freeBuffer us l (freeBuffer (us s) b s)
    rw [List.foldl_cons]
    refine ⟨⟨fun f => ?_⟩, ⟨p', m', q', r', g', by rw [e', e]⟩, fun x hx => ?_⟩
    · obtain ⟨n, hn⟩ := h1.funcs f
      obtain ⟨n', hn'⟩ := h1'.funcs f
      exact ⟨n', by rw [hn', hn]⟩
    · obtain h | ⟨hx', hl⟩ := hb' x hx
      · exact .inl h
      obtain h | ⟨h, hne⟩ := hb x hx'
      · exact .inl h
      · exact .inr ⟨h, by simp [hne, hl]⟩

/-- A queue pair of a function after its reset keeps its assignment alone. -/
def queueAfterReset (f : Nat) (Q : Queue) : Queue :=
  if Q.func == some f then { resetQueue with func := Q.func, reserve := Q.reserve, maxf := Q.maxf } else Q

/-- A function whose reset is over, before the steward's waiting events are delivered. -/
def resetOver (f : Nat) (s : State) : State :=
  let s := onFunc f funcAfterReset (reclaimBuffers f s)
  { s with qs := s.qs.map (queueAfterReset f) }

/-- What is left of a function, its queue pairs and its buffers once its reset is over. -/
theorem resetOver_spec (f : Nat) (s : State) :
    (∃ F, vat (resetOver f s).funcs f = funcAfterReset F ∧ F.pci = (vat s.funcs f).pci) ∧
      (resetOver f s).qs = s.qs.map (queueAfterReset f) ∧ (resetOver f s).sys = s.sys ∧ (resetOver f s).cmds = s.cmds ∧
      ∀ b ∈ (resetOver f s).pool.bufs, b.func = f → b.freed.isSome = true := by
  obtain ⟨hl, ⟨p, m, q, r, g, e⟩, hb⟩ := foldl_freeBuffer (fun s => (s.cmds.filter (·.func == f)).map (·.uid))
    (s.pool.bufs.filter fun b => b.func == f && b.freed.isNone) s
  have he : reclaimBuffers f s = { s with pool := p, mem := m, poison := q, brg := r, funcs := g } := e
  refine ⟨⟨vat (reclaimBuffers f s).funcs f, vat_onFunc, ?_⟩, ?_, ?_, ?_, fun b hbm hf => ?_⟩
  · obtain ⟨n, hn⟩ := hl.funcs f
    have hn : vat (reclaimBuffers f s).funcs f = _ := hn
    rw [hn]
  · change (reclaimBuffers f s).qs.map _ = _
    rw [he]
  · change (reclaimBuffers f s).sys = _
    rw [he]
  · change (reclaimBuffers f s).cmds = _
    rw [he]
  · obtain h | ⟨hin, hnot⟩ := hb b hbm
    · exact h
    · by_contra hno
      exact hnot (List.mem_filter.2 ⟨hin, by simpa [hf] using hno⟩)

theorem exec_funcResetComplete {s : State} {f : Fin 64} (hr : (vat s.funcs f).resetting = true)
    (hc : ∀ c ∈ s.cmds, c.func ≠ f.val) :
    exec (.funcResetComplete f) s = .next (if f.val = 0 then releaseEvents (resetOver f s) else resetOver f s) := by
  have hall : s.cmds.all (·.func != f.val) = true := List.all_eq_true.2 fun c hcm => by simpa using hc c hcm
  change execFuncResetComplete f s = _
  rw [execFuncResetComplete]
  dsimp only
  rw [if_pos (by simp [hr, hall])]
  rfl

/-- Settles O18. -/
theorem functionsAreReset : Obligations.FunctionsAreReset := by
  unfold Obligations.FunctionsAreReset
  refine ⟨fun s => ⟨fun p hm ht => exec_fundamentalReset hm ht, fun f hf ht ha he => exec_flr hf ht ha he,
    fun p ht hv => exec_vfEnableClear ht hv, fun p n ht hn => exec_numvfsLowered ht hn, fun f hf hd => ?_, fun f hf hm => ?_,
    fun f trigger hc hw => ?_⟩, fun s f hr hc => ?_⟩
  · intro vfs
    rw [exec_d3hotToD0 hf hd, funcReset_eq]
  · exact ⟨fun ht => exec_flr_peer hf hm ht, fun hd => exec_d3hotToD0_peer hf hm hd⟩
  · obtain ⟨hT, hqs, hcmds, hmem⟩ := funcStops_spec trigger hc hw
    refine ⟨hT.resetting, hT.mbx, hT.win, hT.pci, hT.held, fun q hq hf => ?_, fun q hq hf => ?_, hcmds, hmem⟩
    · rw [hqs q hq, if_pos hf]
      exact ⟨rfl, rfl⟩
    · rw [hqs q hq, if_neg hf]
  · obtain ⟨⟨F, hF, hpci⟩, hqs, hsys, hcmds, hbufs⟩ := resetOver_spec f.val s
    have hend : ∃ t, exec (.funcResetComplete f) s = .next t ∧ PbaOnly (resetOver f s) t ∧ t.qs = (resetOver f s).qs ∧
        t.sys = (resetOver f s).sys ∧ t.cmds = (resetOver f s).cmds ∧ t.pool = (resetOver f s).pool := by
      refine ⟨_, exec_funcResetComplete hr hc, ?_⟩
      split
      · refine ⟨releaseEvents_pbaOnly _, ?_⟩
        rw [releaseEvents_frame]
        exact ⟨rfl, rfl, rfl, rfl⟩
      · exact ⟨.refl _, rfl, rfl, rfl, rfl⟩
    obtain ⟨t, e, hpba, htq, hts, htc, htp⟩ := hend
    have hq (q : Nat) : vat t.qs q = queueAfterReset f.val (vat s.qs q) := by rw [htq, hqs, vat_map]
    refine ⟨t, e, ?_, ?_, ?_, ?_, ?_, fun q _ hf => ?_, fun q _ hf => ?_, hts.trans hsys, htc.trans hcmds, ?_⟩
    · rw [hpba.funcs f, hF]
      rfl
    · rw [hpba.funcs f, hF]
      rfl
    · rw [hpba.funcs f, hF]
      rfl
    · rw [hpba.funcs f, hF]
      rfl
    · rw [hpba.funcs f, hF]
      exact hpci
    · rw [hq, queueAfterReset, if_pos (by rw [hf]; exact beq_self_eq_true _), hf]
    · rw [hq, queueAfterReset, if_neg (by simpa using hf)]
    · rw [htp]
      exact hbufs

end Sys2Proof.Machine
end

section
/-!
PROOFS. The merging of attention partials (sections 10.5 and 10.6), and shards made ready for their table (sections 5.5 and 5.6).
-/
namespace Sys2Proof.Machine

/-! ### Partials (R393 to R395) -/

/-- What passes on a ring segment is charged, no more. -/
theorem ringSend_charged {p : Payer} {a c n : Nat} {s : State} : Charged s (ringSend p a c n s) := by
  unfold ringSend
  extract_lets s1
  have h1 : Charged s s1 := activity_charged
  split
  · exact h1
  · exact h1.trans (activity_charged.trans (activity_charged.trans activity_charged))

/-- A state that differs in what is charged has the same ring and the same commands but for energy. -/
theorem Charged.ring {s t : State} (h : Charged s t) : t.ring = s.ring := by rw [h.rest]

theorem Charged.cmdsBut {s t : State} (h : Charged s t) : cmdsBut t = cmdsBut s := h.cmds

/-- The partials that remain when those of a pair at a slice go hold none of its cores'. -/
theorem corePartials_folded {s t : State} {u i h k : Nat} {x : CorePartial} (hx : x.core = 8)
    (ht : t.partials = (s.partials.filter fun x => !(x.cmd == u && x.entry == i && x.head == h && x.slice == k)) ++ [x]) :
    corePartials t u i h k = [] := by
  have hnone : (t.partials.filter fun p => p.cmd == u && p.entry == i && p.head == h && p.slice == k && decide (p.core < 8)) = [] := by
    rw [List.filter_eq_nil_iff, ht]
    intro p hp
    obtain hp | hp := List.mem_append.1 hp
    · have hno := (List.mem_filter.1 hp).2
      intro hyes
      simp only [Bool.and_eq_true, decide_eq_true_eq] at hyes
      simp [hyes.1] at hno
    · rw [List.mem_singleton.1 hp, hx]
      simp
  rw [corePartials, hnone]
  rfl

/-- The packet of a pair leaves its slice. -/
def mergePut (c : Cmd) (d : KvDecl) (i : Nat) (m x : MergePkt) (s : State) : State :=
  let k := if m.next = 16 then 16 else actor s m.next
  ringSend (.cmd c.uid) k ((k + 1) % 17) (attnQ c * (8 + 4 * d.headDim))
    { s with ring := { s.ring with merges := s.ring.merges.set i x } }

theorem mergePut_spec (c : Cmd) (d : KvDecl) (i : Nat) (m x : MergePkt) (s : State) :
    (mergePut c d i m x s).mem = s.mem ∧ cmdsBut (mergePut c d i m x s) = cmdsBut s ∧
      (mergePut c d i m x s).ring.merges = s.ring.merges.set i x := by
  unfold mergePut
  refine ⟨?_, ?_, ?_⟩
  · rw [ringSend_charged.mem]
  · rw [ringSend_charged.cmdsBut]
    rfl
  · rw [ringSend_charged.ring]

/-- A packet passes a slice that holds nothing of its pair. -/
theorem mergeHop_passes {s : State} {i : Nat} {m : MergePkt} {c : Cmd} {d : KvDecl} (hm : s.ring.merges[i]? = some m)
    (hc : cmdOf s m.cmd = some c) (hd : kvFor s c = some d) (hn : m.next ∉ pairSlices c m.entry m.head) :
    mergeHop i s = mergePut c d i m { m with next := nextPosition s m.next } s := by
  have hcon : (pairSlices c m.entry m.head).contains m.next = false := by simpa using hn
  simp only [mergeHop, hm, hc, hd, hcon, Bool.not_false, if_true]
  rfl

/-- A packet merges the partial of its slice in and goes on. -/
theorem mergeHop_merges {s : State} {i : Nat} {m : MergePkt} {c : Cmd} {d : KvDecl} {p : CorePartial}
    (hm : s.ring.merges[i]? = some m) (hc : cmdOf s m.cmd = some c) (hd : kvFor s c = some d)
    (hn : m.next ∈ pairSlices c m.entry m.head) (hl : (pairSlices c m.entry m.head).getLast? ≠ some m.next)
    (hw : ∀ w ∈ c.wants, w.ats = false)
    (hp : s.partials.find? (fun p => p.cmd == m.cmd && p.entry == m.entry && p.head == m.head && p.slice == m.next && p.core == 8) = some p) :
    mergeHop i s = mergePut c d i m { m with next := nextPosition s m.next, parts := mergeRows m.parts p.parts } s := by
  have hcon : (pairSlices c m.entry m.head).contains m.next = true := by simpa using hn
  have hats : c.wants.any (·.ats) = false := by simpa using hw
  have hlast : ((pairSlices c m.entry m.head).getLast? == some m.next) = false := beq_eq_false_iff_ne.2 hl
  simp only [mergeHop, hm, hc, hd, hcon, hp, hats, hlast, Bool.not_true, Bool.false_eq_true, if_false]
  rfl

/-- Settles O41. -/
theorem partialsAreMerged : Obligations.PartialsAreMerged := by
  unfold Obligations.PartialsAreMerged
  intro s
  refine ⟨fun u e h k c d p ps hc hd hps hlen hmany => ?_, fun i m c d hm hc hd => ⟨fun hn => ?_, fun p hn hl hw hp => ?_⟩⟩
  · have hfold : foldSlice u e h k s = { s with
        partials := (s.partials.filter fun x => !(x.cmd == u && x.entry == e.val && x.head == h.val && x.slice == k.val)) ++
          [{ p with core := 8, parts := ps.foldl (fun a x => mergeRows a x.parts) p.parts }] } := by
      simp only [foldSlice, hc, hd, hps, List.length_cons, hlen, ne_eq, not_true_eq_false, if_false, if_neg (Nat.not_le.2 hmany)]
    refine ⟨_, rfl, ?_, ?_, ?_, ?_⟩
    · rw [hfold]
    · rw [hfold]
    · rw [hfold]
      exact List.mem_append_right _ (List.mem_singleton_self _)
    · exact corePartials_folded (s := s) rfl (by rw [hfold])
  · obtain ⟨hmem, hcmds, hring⟩ := mergePut_spec c d i m { m with next := nextPosition s m.next } s
    rw [← mergeHop_passes hm hc hd hn] at hmem hcmds hring
    exact ⟨_, rfl, hmem, hcmds, hring⟩
  · obtain ⟨hmem, hcmds, hring⟩ :=
      mergePut_spec c d i m { m with next := nextPosition s m.next, parts := mergeRows m.parts p.parts } s
    rw [← mergeHop_merges hm hc hd hn hl hw hp] at hmem hcmds hring
    exact ⟨_, rfl, hmem, hcmds, hring⟩

/-! ### Zeroed ranges (R195) -/

/-- No cell of memory stands at an address. -/
def Absent (m : List Host.Cell) (x : Nat) : Prop := ∀ c ∈ m, c.1 ≠ x

theorem memRead1_absent {m : List Host.Cell} {x : Nat} (h : Absent m x) : memRead1 m x = emptyByte := by
  induction m with
  | nil => rfl
  | cons c m ih =>
    have hc : x ≠ c.1 := (h c List.mem_cons_self).symm
    rw [memRead1, if_neg hc]
    split
    · rfl
    · exact ih fun y hy => h y (List.mem_cons_of_mem _ hy)

theorem absent_zeroRange {s : State} {da n x : Nat} (h : da ≤ x ∧ x < da + n) : Absent (zeroRange da n s).mem x := by
  intro c hc e
  have hno := (List.mem_filter.1 hc).2
  rw [e] at hno
  simp [h] at hno

theorem Absent.zeroRange {s : State} {da n x : Nat} (h : Absent s.mem x) : Absent (zeroRange da n s).mem x :=
  fun c hc => h c (List.mem_filter.1 hc).1

/-- A range on each of some slices is zeroed. -/
theorem foldl_zeroRange (da : Nat → Nat) (n : Nat) : ∀ (ks : List Nat) (s : State),
    (∃ m p, ks.foldl (fun s k => zeroRange (da k) n s) s = { s with mem := m, poison := p }) ∧
      ∀ x, (Absent s.mem x ∨ ∃ k ∈ ks, da k ≤ x ∧ x < da k + n) → Absent (ks.foldl (fun s k => zeroRange (da k) n s) s).mem x
  | [], s => ⟨⟨_, _, rfl⟩, fun x h => by
      obtain h | ⟨k, hk, -⟩ := h
      · exact h
      · cases hk⟩
  | k :: ks, s => by
    obtain ⟨⟨m, p, e⟩, hx⟩ := foldl_zeroRange da n ks (zeroRange (da k) n s)
    rw [List.foldl_cons]
    refine ⟨⟨m, p, by rw [e]; rfl⟩, fun x h => hx x ?_⟩
    obtain h | ⟨j, hj, hin⟩ := h
    · exact .inl h.zeroRange
    · obtain rfl | hj := List.mem_cons.1 hj
      · exact .inl (absent_zeroRange hin)
      · exact .inr ⟨j, hj, hin⟩

/-- The extent of a shard is zeroed on the medium of its tier. -/
def zeroExtent (t : TableDecl) (i : Nat) (s : State) : State :=
  let sh := nth t.shards i noShard
  let n := shardExtent t sh.tier i
  let ks := (List.range 17).filter fun k => sliceLive s k && (k != 16 || t.husk)
  match sh.tier with
  | .stack => ks.foldl (fun s k => zeroRange (stackDa k (sh.base * 65536)) n s) s
  | .ddr => zeroRange (regionBase 4 + sh.base * 65536) n s
  | .cxl => zeroRange (regionBase 5 + sh.base * 65536) n s
  | .none => s

theorem zeroExtent_frame (t : TableDecl) (i : Nat) (s : State) :
    ∃ m p, zeroExtent t i s = { s with mem := m, poison := p } := by
  unfold zeroExtent
  extract_lets sh n ks
  cases sh.tier with
  | stack => exact (foldl_zeroRange (fun k => stackDa k (sh.base * 65536)) n ks s).1
  | ddr => exact ⟨_, _, rfl⟩
  | cxl => exact ⟨_, _, rfl⟩
  | none => exact ⟨_, _, rfl⟩

/-- The bytes of a zeroed extent read zero. -/
theorem zeroExtent_reads {t : TableDecl} {i : Nat} {s : State} :
    let sh := nth t.shards i noShard
    ∀ j < shardExtent t sh.tier i,
      (sh.tier = .stack → ∀ k < 17, sliceLive s k = true → (k ≠ 16 ∨ t.husk = true) →
        memRead1 (zeroExtent t i s).mem (stackDa k (sh.base * 65536) + j) = 0) ∧
      (sh.tier = .ddr → memRead1 (zeroExtent t i s).mem (regionBase 4 + sh.base * 65536 + j) = 0) ∧
      (sh.tier = .cxl → memRead1 (zeroExtent t i s).mem (regionBase 5 + sh.base * 65536 + j) = 0) := by
  intro sh j hj
  refine ⟨fun ht k hk hl hh => ?_, fun ht => ?_, fun ht => ?_⟩
  · rw [zeroExtent, ht]
    refine memRead1_absent ((foldl_zeroRange (fun k => stackDa k (sh.base * 65536)) _ _ s).2 _ (.inr ⟨k, ?_, ?_, ?_⟩))
    · exact List.mem_filter.2 ⟨List.mem_range.2 hk, by simpa [hl] using hh⟩
    · exact Nat.le_add_right ..
    · exact Nat.add_lt_add_left (ht ▸ hj) _
  · rw [zeroExtent, ht]
    exact memRead1_absent (absent_zeroRange ⟨Nat.le_add_right .., Nat.add_lt_add_left (ht ▸ hj) _⟩)
  · rw [zeroExtent, ht]
    exact memRead1_absent (absent_zeroRange ⟨Nat.le_add_right .., Nat.add_lt_add_left (ht ▸ hj) _⟩)

/-! ### What starts on the ring -/

/-- Reconstructions and reductions that start are packets on the ring. -/
theorem sendRecons_frame (u chunk : Nat) (t : TableDecl) (rows : List Nat) (s : State) :
    ∃ r, sendRecons u chunk t rows s = { s with ring := r } := ⟨_, rfl⟩

theorem reconsAfterFresh_frame (t : TableDecl) (i : Nat) (s : State) (c : Cmd) :
    ∃ r, reconsAfterFresh t i s c = { s with ring := r } := by
  unfold reconsAfterFresh
  split
  · exact ⟨_, rfl⟩
  dsimp only
  split
  · exact ⟨_, rfl⟩
  · exact ⟨_, rfl⟩

theorem startReds_frame (range : Bool) (s : State) : ∃ r, startReds range s = { s with ring := r } := by
  unfold startReds
  split
  · exact ⟨_, rfl⟩
  extract_lets done need running
  split
  · exact ⟨_, rfl⟩
  split
  · exact ⟨_, rfl⟩
  · exact ⟨_, rfl⟩

theorem startChunkRecons_frame (s : State) : ∃ r, startChunkRecons s = { s with ring := r } := by
  unfold startChunkRecons
  split
  · exact ⟨_, rfl⟩
  · exact ⟨_, rfl⟩

theorem kickFlail_frame (s : State) : ∃ r, kickFlail s = { s with ring := r } := by
  obtain ⟨r1, e1⟩ := startChunkRecons_frame s
  obtain ⟨r2, e2⟩ := startReds_frame false (startChunkRecons s)
  obtain ⟨r3, e3⟩ := startReds_frame true (startReds false (startChunkRecons s))
  exact ⟨r3, by rw [kickFlail, e3, e2, e1]⟩

/-! ### Shards of the live generations -/

/-- A shard changed in every live generation is changed wherever its table is found. -/
theorem onShard_shards {id i : Nat} {g : Shard → Shard} {s : State} {T : TableDecl} {sh : Shard}
    (hT : T ∈ liveTables (onShard id i g s)) (hid : T.id = id) (hsh : T.shards[i]? = some sh) : ∃ x, sh = g x := by
  have hmap : ∀ l : List TableDecl, T ∈ (l.map fun t => if t.id == id then { t with shards := t.shards.modify i g } else t) →
      ∃ x, sh = g x := by
    intro l hl
    obtain ⟨t, -, rfl⟩ := List.mem_map.1 hl
    by_cases ht : t.id = id
    · rw [if_pos (beq_iff_eq.2 ht)] at hsh
      change (t.shards.modify i g)[i]? = some sh at hsh
      simp only [List.getElem?_modify, if_true] at hsh
      obtain ⟨x, -, rfl⟩ := Option.map_eq_some_iff.1 hsh
      exact ⟨x, rfl⟩
    · rw [if_neg (by simpa using ht)] at hid
      exact absurd hid ht
  unfold liveTables mappedTables at hT
  obtain hT | hT := List.mem_append.1 hT
  · exact hmap _ hT
  · have hT := (List.mem_filter.1 hT).1
    cases ho : s.cfg.old with
    | none => simp [onShard, onTable, ho] at hT
    | some o =>
      simp only [onShard, onTable, ho, Option.map_some, Option.getD_some] at hT
      exact hmap _ hT

/-- A zeroed shard: its extent, its FRESH flag, and reconstructions that may start. -/
theorem zeroShard_eq {x : Nat × Nat} {s : State} {t : TableDecl} (ht : (liveTables s).find? (·.id == x.1) = some t) :
    ∃ r, zeroShard x s = { onShard x.1 x.2 (fun sh => { sh with fresh := false }) (zeroExtent t x.2 s) with ring := r } := by
  have hfold : ∀ (l : List Cmd) (u : State), ∃ r, l.foldl (fun s c => match tableFor s c x.1 with
      | some t => reconsAfterFresh t x.2 s c
      | none => s) u = { u with ring := r } := by
    intro l
    induction l with
    | nil => exact fun u => ⟨_, rfl⟩
    | cons c l ih =>
      intro u
      rw [List.foldl_cons]
      split
      · rename_i t' _
        obtain ⟨r0, e0⟩ := reconsAfterFresh_frame t' x.2 u c
        obtain ⟨r, e⟩ := ih (reconsAfterFresh t' x.2 u c)
        exact ⟨r, by rw [e, e0]⟩
      · exact ih u
  unfold zeroShard
  simp only [ht]
  exact hfold _ _

/-- A completed step of the change in progress is noted and staged: the generation in force stays. -/
theorem headStepDone_frame (s : State) :
    (headStepDone s).cfg.cur = s.cfg.cur ∧ ∃ cfg jr, headStepDone s = { s with cfg := cfg, jr := jr } := by
  refine ⟨?_, ?_⟩
  · unfold headStepDone stageHead
    split
    · rfl
    split
    · rfl
    · rw [jAdd_cfg]
      rfl
  · obtain ⟨c, j, e⟩ := stageHead_frame (onHead (fun ch => { ch with stepDone := true }) s)
    exact ⟨c, j, by rw [headStepDone, e]; rfl⟩

/-- The parity of data slices is a change of memory. -/
theorem xorExtents_frame (off n : Nat) (s : State) : ∃ m p, xorExtents off n s = { s with mem := m, poison := p } := by
  have hin : ∀ (k : Nat) (l : List Host.Cell) (u : State), ∃ m, l.foldl (fun acc c =>
      daPoke acc (stackDa 16 (off + (c.1 - stackDa k off)))
        (xorBytes (daRead acc (stackDa 16 (off + (c.1 - stackDa k off))) 1) [c.2])) u = { u with mem := m } := by
    intro k l
    induction l with
    | nil => exact fun u => ⟨_, rfl⟩
    | cons c l ih =>
      intro u
      obtain ⟨m, e⟩ := ih (daPoke u (stackDa 16 (off + (c.1 - stackDa k off)))
        (xorBytes (daRead u (stackDa 16 (off + (c.1 - stackDa k off))) 1) [c.2]))
      rw [daPoke_rest] at e
      exact ⟨m, e⟩
  have hout : ∀ (l : List Nat) (u : State), ∃ m, l.foldl (fun acc k =>
      (s.mem.filter fun c => decide (stackDa k off ≤ c.1 ∧ c.1 < stackDa k off + n)).foldl (fun acc c =>
        daPoke acc (stackDa 16 (off + (c.1 - stackDa k off)))
          (xorBytes (daRead acc (stackDa 16 (off + (c.1 - stackDa k off))) 1) [c.2])) acc) u = { u with mem := m } := by
    intro l
    induction l with
    | nil => exact fun u => ⟨_, rfl⟩
    | cons k l ih =>
      intro u
      obtain ⟨m0, e0⟩ := hin k (s.mem.filter fun c => decide (stackDa k off ≤ c.1 ∧ c.1 < stackDa k off + n)) u
      obtain ⟨m, e⟩ := ih { u with mem := m0 }
      rw [List.foldl_cons, e0]
      exact ⟨m, e⟩
  obtain ⟨m, e⟩ := hout (List.range 16) (zeroRange (stackDa 16 off) n s)
  exact ⟨m, _, e⟩

/-- Settles O35. -/
theorem shardsAreMadeReady : Obligations.ShardsAreMadeReady := by
  unfold Obligations.ShardsAreMadeReady
  intro s hs
  refine ⟨fun x T hx hT => ?_, fun T i hp hh hl h16 => ?_⟩
  · obtain ⟨r, e⟩ := zeroShard_eq hT
    obtain ⟨r', e'⟩ := kickFlail_frame (zeroShard x s)
    obtain ⟨m, p, ez⟩ := zeroExtent_frame T x.2 s
    have hexec : exec .shardZeroDone s = .next (kickFlail (zeroShard x s)) := by
      change execShardZeroDone s = _
      simp only [execShardZeroDone, hx, hs, if_true]
    have hcfg : (kickFlail (zeroShard x s)).cfg = (onShard x.1 x.2 (fun sh => { sh with fresh := false }) (zeroExtent T x.2 s)).cfg := by
      rw [e', e]
    refine ⟨_, hexec, fun T' hT' hid sh hsh => ?_, ?_, ?_, ?_, ?_⟩
    · have hlive : liveTables (kickFlail (zeroShard x s)) =
          liveTables (onShard x.1 x.2 (fun sh => { sh with fresh := false }) (zeroExtent T x.2 s)) := by
        unfold liveTables mappedTables
        rw [hcfg]
      rw [hlive] at hT'
      obtain ⟨y, rfl⟩ := onShard_shards hT' hid hsh
      rfl
    · have hmem : (kickFlail (zeroShard x s)).mem = (zeroExtent T x.2 s).mem := by
        rw [e', e]
        rfl
      rw [hmem]
      exact zeroExtent_reads
    · rw [e', e, ez]
      rfl
    · rw [e', e, ez]
      rfl
    · rw [e', e, ez]
      rfl
  · have hready : ∃ m p, (if (nth T.shards i noShard).fresh then
        zeroRange (stackDa 16 ((nth T.shards i noShard).base * 65536)) (shardExtent T .stack i) s
          else xorExtents ((nth T.shards i noShard).base * 65536) (shardExtent T .stack i) s) = { s with mem := m, poison := p } := by
      split
      · exact ⟨_, _, rfl⟩
      · exact xorExtents_frame _ _ s
    obtain ⟨m, p, er⟩ := hready
    obtain ⟨hcur, cfg, jr, ed⟩ := headStepDone_frame (onShard T.id i (fun sh => { sh with parity := true })
      { s with mem := m, poison := p })
    have hexec : exec .shardParityDone s = .next (headStepDone (onShard T.id i (fun sh => { sh with parity := true })
        { s with mem := m, poison := p })) := by
      change execShardParityDone s = _
      rw [execShardParityDone, if_pos hs]
      simp only [parityDone, hp]
      rw [if_neg (by simp [hh, hl, h16]), er]
    refine ⟨_, hexec, fun T' hT' hid sh hsh => ?_, ?_, ?_, ?_, ?_⟩
    · rw [hcur] at hT'
      obtain ⟨y, rfl⟩ := onShard_shards (List.mem_append_left _ hT') hid hsh
      rfl
    · refine Eq.trans ?_ (congrArg State.mem er).symm
      rw [ed]
      rfl
    · rw [ed]
      rfl
    · rw [ed]
      rfl
    · rw [ed]
      rfl

end Sys2Proof.Machine
end

section
/-!
PROOFS. Admission (section 14.5): what the bridge makes of the command at the head of the queue pair that is next.
-/
namespace Sys2Proof.Machine

/-! ### The steps of an admission -/

/-- A command without what its admission goes on charging and stamping. -/
def bareCmd (c : Cmd) : Cmd := { c with energy := 0, stamps := [] }

/-- The commands in flight are the same but for energy and stamps. -/
structure SameCmds (s t : State) : Prop where
  cmds : t.cmds.map bareCmd = s.cmds.map bareCmd

theorem SameCmds.of_cmds {s t : State} (h : t.cmds = s.cmds) : SameCmds s t := ⟨by rw [h]⟩

theorem SameCmds.trans {a b c : State} (h1 : SameCmds a b) (h2 : SameCmds b c) : SameCmds a c := ⟨h2.cmds.trans h1.cmds⟩

theorem Charged.sameCmds {s t : State} (h : Charged s t) : SameCmds s t := by
  refine ⟨?_⟩
  have hb : ∀ l : List Cmd, l.map bareCmd = (l.map fun c => { c with energy := 0 }).map fun c => { c with stamps := [] } :=
    fun l => by rw [List.map_map]; rfl
  rw [hb, hb, h.cmds]

theorem onCmd_sameCmds {u : Nat} {g : Cmd → Cmd} {s : State} (h : ∀ c, bareCmd (g c) = bareCmd c) : SameCmds s (onCmd u g s) := by
  refine ⟨?_⟩
  simp only [onCmd, List.map_map]
  refine List.map_congr_left fun c _ => ?_
  dsimp only [Function.comp_apply]
  split
  · exact h c
  · rfl

/-- A stamp changes the stamps of a command and draws a free value. -/
theorem stamp_spec (u n : Nat) (b : Bool) (s : State) :
    SameCmds s (stamp u n b s) ∧ stamp u n b s = { s with cmds := (stamp u n b s).cmds, freeCtr := (stamp u n b s).freeCtr } := by
  unfold stamp
  split
  · exact ⟨.of_cmds rfl, rfl⟩
  split
  · exact ⟨.of_cmds rfl, rfl⟩
  · refine ⟨SameCmds.trans (onCmd_sameCmds fun c => ?_) (.of_cmds rfl), rfl⟩
    rfl

/-- The class a command is admitted under. -/
theorem relabel_spec (f q tag c : Nat) (s : State) :
    (relabel f q tag c s).1 = (if classPermits s f c then c else 15) ∧
      ∃ j g o t u, (relabel f q tag c s).2 = { s with jr := j, funcs := g, out := o, cnt := t, qos := { s.qos with usage := u } } := by
  unfold relabel
  split
  · exact ⟨rfl, _, _, _, _, _, rfl⟩
  · refine ⟨rfl, ?_⟩
    dsimp only
    rw [raiseEvent_frame]
    exact ⟨_, _, _, _, _, rfl⟩

/-- A draw of the pip sampler changes its counters. -/
theorem pipDraw_frame (s : State) (b : Nat) : ∃ t n, (pipDraw s b).2 = { s with cnt := t, freeCtr := n } := by
  unfold pipDraw
  split
  · exact ⟨_, _, rfl⟩
  extract_lets hit n s1
  split
  · exact ⟨_, _, rfl⟩
  split
  · exact ⟨_, _, rfl⟩
  · exact ⟨_, _, rfl⟩

/-- What an admission leaves as it was. -/
structure AdmitFrame (s a : State) : Prop where
  rest : ∃ jr funcs out cnt qos n u cmds qs brg led pmc, a =
    { s with
      jr := jr, funcs := funcs, out := out, cnt := cnt, qos := qos, freeCtr := n, nextUid := u, cmds := cmds, qs := qs,
      brg := brg, led := led, pmc := pmc }

theorem AdmitFrame.trans {a b c : State} (h1 : AdmitFrame a b) (h2 : AdmitFrame b c) : AdmitFrame a c := by
  obtain ⟨_, _, _, _, _, _, _, _, _, _, _, _, rfl⟩ := h1.rest
  obtain ⟨_, _, _, _, _, _, _, _, _, _, _, _, rfl⟩ := h2.rest
  exact ⟨_, _, _, _, _, _, _, _, _, _, _, _, rfl⟩

theorem Charged.admitFrame {s t : State} (h : Charged s t) : AdmitFrame s t :=
  ⟨_, _, _, _, _, _, _, _, _, _, _, _, h.rest⟩

/-- The command has its place in the queue pair, at the bridge and among those in flight; what follows counts and charges. -/
def entered (q : Nat) (rest : List Fetched) (c : Cmd) (s : State) : State :=
  let b := bridgeOf (funcOfQ s q)
  onBrg b (fun B => { B with lastQ := q, admits := B.admits + 1 }) (onQ q (fun Q => { Q with fetched := rest, inflight := Q.inflight + 1 })
    { s with nextUid := s.nextUid + 1, cmds := s.cmds ++ [c],
             qos := { s.qos with aged := vupd s.qos.aged b fun n => if n = 31 then 0 else n + 1 } })

/-- What is counted and charged for an admission. -/
structure Booked (s t : State) : Prop where
  cmds : SameCmds s t
  rest : ∃ jr funcs out cnt qos n cmds led pmc, t =
    { s with jr := jr, funcs := funcs, out := out, cnt := cnt, qos := qos, freeCtr := n, cmds := cmds, led := led, pmc := pmc }

theorem Booked.trans {a b c : State} (h1 : Booked a b) (h2 : Booked b c) : Booked a c := by
  refine ⟨h1.cmds.trans h2.cmds, ?_⟩
  obtain ⟨_, _, _, _, _, _, _, _, _, e1⟩ := h1.rest
  obtain ⟨_, _, _, _, _, _, _, _, _, e2⟩ := h2.rest
  rw [e2, e1]
  exact ⟨_, _, _, _, _, _, _, _, _, rfl⟩

theorem Charged.booked {s t : State} (h : Charged s t) : Booked s t := ⟨h.sameCmds, _, _, _, _, _, _, _, _, _, h.rest⟩

theorem booked_tally {i : BankId} {e n : Nat} {t : Tag} {s : State} : Booked s (tally i e n t s) :=
  ⟨.of_cmds tally_cmds, _, _, _, _, _, _, _, _, _, tally_frame⟩

theorem booked_stamp {u n : Nat} {b : Bool} {s : State} : Booked s (stamp u n b s) := by
  obtain ⟨h, e⟩ := stamp_spec u n b s
  exact ⟨h, _, _, _, _, _, _, _, _, _, e⟩

theorem booked_countFunc {f i n : Nat} {s : State} : Booked s (countFunc f i n s) :=
  ⟨.of_cmds rfl, _, _, _, _, _, _, _, _, _, rfl⟩

theorem booked_setSlots {i n : Nat} {s : State} : Booked s (setSlots i n s) :=
  ⟨.of_cmds rfl, _, _, _, _, _, _, _, _, _, rfl⟩

theorem booked_relabel {f q tag c : Nat} {s : State} : Booked s (relabel f q tag c s).2 := by
  obtain ⟨-, _, _, _, _, _, e⟩ := relabel_spec f q tag c s
  rw [e]
  exact ⟨.of_cmds rfl, _, _, _, _, _, _, _, _, _, rfl⟩

theorem booked_pipDraw {b : Nat} {s : State} : Booked s (pipDraw s b).2 := by
  obtain ⟨_, _, e⟩ := pipDraw_frame s b
  rw [e]
  exact ⟨.of_cmds rfl, _, _, _, _, _, _, _, _, _, rfl⟩

/-- An admission books, enters the command, and books again. -/
theorem admitHead_eq {s : State} {q : Nat} {F : Fetched} {rest : List Fetched} (hF : (vat s.qs q).fetched = F :: rest) :
    ∃ s1 shared pip, Booked s s1 ∧
      Booked (entered q rest (newCmd s1 q F (if classPermits s (funcOfQ s q) (classOf F.bytes) then classOf F.bytes else 15) shared pip) s1)
        (admitHead q s) := by
  obtain ⟨hcls, -⟩ := relabel_spec (funcOfQ s q) q (tagOf F.bytes) (classOf F.bytes) s
  have h1 : Booked s (pipDraw (relabel (funcOfQ s q) q (tagOf F.bytes) (classOf F.bytes) s).2 (bridgeOf (funcOfQ s q))).2 :=
    booked_relabel.trans booked_pipDraw
  have hfunc : funcOfQ (pipDraw (relabel (funcOfQ s q) q (tagOf F.bytes) (classOf F.bytes) s).2 (bridgeOf (funcOfQ s q))).2 q = funcOfQ s q := by
    obtain ⟨_, _, _, _, _, _, _, _, _, e⟩ := h1.rest
    rw [e]
    rfl
  refine ⟨_, decide ((vat s.qs q).reserve ≤ inFlightOf s q),
    (pipDraw (relabel (funcOfQ s q) q (tagOf F.bytes) (classOf F.bytes) s).2 (bridgeOf (funcOfQ s q))).1, h1, ?_⟩
  unfold admitHead entered
  simp only [hF, hcls, hfunc]
  refine Booked.trans ?_ booked_stamp
  refine Booked.trans ?_ booked_countFunc
  refine Booked.trans ?_ booked_setSlots
  refine Booked.trans ?_ booked_tally
  exact (activity_charged.trans busActivity_charged).booked

/-- The head command of queue pair `q` becomes the newest command in flight. -/
theorem admitHead_spec {s : State} {q : Nat} {F : Fetched} {rest : List Fetched} (hF : (vat s.qs q).fetched = F :: rest) :
    AdmitFrame s (admitHead q s) ∧ (admitHead q s).nextUid = s.nextUid + 1 ∧
      (admitHead q s).qs = vupd s.qs q (fun Q => { Q with fetched := rest, inflight := Q.inflight + 1 }) ∧
      (admitHead q s).brg = vupd s.brg (bridgeOf (funcOfQ s q)) (fun B => { B with lastQ := q, admits := B.admits + 1 }) ∧
      ∃ c : Cmd, (admitHead q s).cmds.map bareCmd = s.cmds.map bareCmd ++ [c] ∧ c.uid = s.nextUid ∧ c.bytes = F.bytes ∧
        c.q = q ∧ c.func = funcOfQ s q ∧ c.phase = .working ∧
        c.cls = (if classPermits s (funcOfQ s q) (classOf F.bytes) then classOf F.bytes else 15) ∧ c.gen = s.cfg.cur.gen ∧
        c.pos = posOf s := by
  obtain ⟨s1, shared, pip, h1, h2⟩ := admitHead_eq hF
  have hc1 := h1.cmds.cmds
  have hc2 := h2.cmds.cmds
  obtain ⟨_, _, _, _, _, _, _, _, _, e1⟩ := h1.rest
  obtain ⟨_, _, _, _, _, _, _, _, _, e2⟩ := h2.rest
  refine ⟨?_, ?_, ?_, ?_, newCmd s1 q F (if classPermits s (funcOfQ s q) (classOf F.bytes) then classOf F.bytes else 15) shared pip, ?_⟩
  · rw [e2, e1]
    exact ⟨_, _, _, _, _, _, _, _, _, _, _, _, rfl⟩
  · rw [e2, e1]
    rfl
  · rw [e2, e1]
    rfl
  · rw [e2, e1]
    rfl
  · refine ⟨?_, ?_⟩
    · rw [hc2, ← hc1]
      exact List.map_append
    · rw [e1]
      exact ⟨rfl, rfl, rfl, rfl, rfl, rfl, rfl, rfl⟩

/-- The newest command in flight is the admitted one. -/
theorem admitHead_newest {s : State} {q : Nat} {F : Fetched} {rest : List Fetched} (hF : (vat s.qs q).fetched = F :: rest) :
    ∃ x ∈ (admitHead q s).cmds, x.uid = s.nextUid ∧ x.bytes = F.bytes ∧ x.q = q ∧ x.func = funcOfQ s q ∧ x.phase = .working ∧
      x.cls = (if classPermits s (funcOfQ s q) (classOf F.bytes) then classOf F.bytes else 15) ∧ x.gen = s.cfg.cur.gen ∧
      x.pos = posOf s := by
  obtain ⟨-, -, -, -, c, hcmds, huid, hbytes, hq, hfunc, hphase, hcls, hgen, hpos⟩ := admitHead_spec hF
  have hc : c ∈ (admitHead q s).cmds.map bareCmd := by
    rw [hcmds]
    exact List.mem_append_right _ (List.mem_singleton_self _)
  obtain ⟨x, hx, rfl⟩ := List.mem_map.1 hc
  exact ⟨x, hx, huid, hbytes, hq, hfunc, hphase, hcls, hgen, hpos⟩

/-! ### The rows that admit -/

/-- How a row starts the command that it admits. -/
def startOf : Instr → Nat → State → State
  | .nop _ => fun u s => stamp u 1 false (endCmd u 0 0 s)
  | .lookupPool _ => startLookup
  | .lookupRaw _ => startLookup
  | .scatterAdd _ => startUpdate
  | .scatterOpt _ => startUpdate
  | .kvAppend _ => andPump startKv
  | .kvRelease _ => andPump startKv
  | .prefixMatch _ => andPump startKv
  | .attnDecode _ => andPump startAttn
  | .copyH2d _ => startCopy
  | .tableLoad _ => startLoad
  | .copyD2h _ => startCopy
  | .bufAlloc _ => beginAlloc
  | .bufFree _ => fun _ s => pumpBufs s
  | .fence _ => startFence
  | .runKernel _ => startKernel
  | .counterSnap _ => startSnap
  | _ => fun _ s => s

/-- A row that admits runs its admission; of COPY_H2D's two rows that of the command's form does. -/
theorem exec_admitRow {i : Instr} {q : Fin 256} {o : Nat} {s : State} (h : admitRow i = some (q.val, o))
    (hform : o = 0x40 → (headForm s q = 1 ↔ i = .tableLoad q)) :
    exec i s = .next (admitCommand (· == o) q (startOf i) s) := by
  unfold admitRow at h
  split at h
  case h_10 p =>
    obtain ⟨hp, rfl⟩ := Prod.mk.inj (Option.some.inj h)
    obtain rfl := Fin.ext hp
    change execCopyH2d p s = _
    rw [execCopyH2d, if_neg fun h1 => by simpa using (hform rfl).1 h1]
    rfl
  case h_11 p =>
    obtain ⟨hp, rfl⟩ := Prod.mk.inj (Option.some.inj h)
    obtain rfl := Fin.ext hp
    change execTableLoad p s = _
    rw [execTableLoad, if_pos ((hform rfl).2 rfl)]
    rfl
  case h_18 => cases h
  all_goals
    obtain ⟨hp, rfl⟩ := Prod.mk.inj (Option.some.inj h)
    obtain rfl := Fin.ext hp
    rfl

/-- The head command of the queue pair that is next is admitted, and started or refused. -/
theorem admitCommand_eq {s : State} {q : Nat} {F : Fetched} {rest : List Fetched} {f : Nat} {p : Nat → Bool}
    {start : Nat → State → State} {c : Cmd} (hF : (vat s.qs q).fetched = F :: rest) (hf : (vat s.qs q).func = some f)
    (hm : mayAdmit s (f / 32) = true) (hn : nextQueue s (f / 32) = some q) (hp : p (opcodeOf F.bytes) = true)
    (hc : cmdOf (admitHead q s) s.nextUid = some c) :
    admitCommand p q start s =
      if !knownOpcode (opcodeOf c.bytes) then stamp s.nextUid 1 false (endCmd s.nextUid 0x10 0x0101 (admitHead q s))
      else if badChain c.bytes then stamp s.nextUid 1 false (endCmd s.nextUid 0x10 0x0102 (admitHead q s))
      else start s.nextUid (admitHead q s) := by
  have hadm : admits s q p = true := by
    simp [admits, hF, hf, hp, funcOfQ, bridgeOf, hm, hn]
  simp only [admitCommand, hadm, if_true, hc]

/-- A command that ends as it starts. -/
theorem endCmd_newest {s : State} {u st d : Nat} {x : Cmd} (hx : x ∈ s.cmds) (hu : x.uid = u) (hp : x.phase = .working) :
    ∃ y ∈ (stamp u 1 false (endCmd u st d s)).cmds, y.uid = u ∧ y.phase = .ended ∧ y.status = BitVec.ofNat 8 st ∧
      y.detail = BitVec.ofNat 32 d := by
  have hm : { x with phase := .ended, status := BitVec.ofNat 8 st, detail := BitVec.ofNat 32 d, wants := [] } ∈
      (endCmd u st d s).cmds := by
    refine List.mem_map.2 ⟨x, hx, ?_⟩
    rw [if_pos (beq_iff_eq.2 hu)]
    exact if_neg (by rw [hp]; decide)
  have hm := List.mem_map_of_mem (f := bareCmd) hm
  rw [← (stamp_spec u 1 false _).1.cmds] at hm
  obtain ⟨y, hy, e⟩ := List.mem_map.1 hm
  have huid : y.uid = x.uid := (congrArg Cmd.uid e :)
  exact ⟨y, hy, huid.trans hu, (congrArg Cmd.phase e :), (congrArg Cmd.status e :), (congrArg Cmd.detail e :)⟩

/-- Settles O24. -/
theorem theNextCommandIsAdmitted : Obligations.TheNextCommandIsAdmitted := by
  unfold Obligations.TheNextCommandIsAdmitted
  intro s q F rest f hF hf hm hn a
  obtain ⟨x, hx, huid, hbytes, hq, hfunc, hphase, hcls, hgen, hpos⟩ := admitHead_newest hF
  have hfq : funcOfQ s q = f := by rw [funcOfQ, hf]; rfl
  rw [hfq] at hfunc hcls
  refine ⟨?_, fun c hc hknown hbad i hi hform => ?_⟩
  · obtain ⟨hframe, huid', hqs, hbrg, c, hcmds, hcu, -⟩ := admitHead_spec hF
    obtain ⟨_, _, _, _, _, _, _, _, _, _, _, _, e⟩ := hframe.rest
    refine ⟨huid', ?_, ?_, fun p hp hne => ?_, ?_, ⟨x, hx, huid, hbytes, hq, hfunc, hphase, hcls, hgen, hpos⟩, fun hf64 => ?_, ?_, ?_, ?_⟩
    · rw [hqs, vat_vupd_self]
    · rw [hqs, vat_vupd_self]
    · rw [hqs, vat_vupd_ne]
      have := q.isLt
      omega
    · have h := congrArg (List.map Cmd.uid) hcmds
      rw [List.map_append, List.map_map, List.map_map] at h
      refine h.trans ?_
      rw [← hcu]
      rfl
    · rw [hbrg, hfq]
      exact ⟨congrArg _ (vat_vupd_self ..), congrArg _ (vat_vupd_self ..)⟩
    · exact (congrArg State.mem e :)
    · exact (congrArg State.sys e :)
    · exact (congrArg State.cores e :)
  · have hhead : headForm s q = copyForm F.bytes := by rw [headForm, hF]
    refine ⟨_, exec_admitRow hi (fun h => by rw [hhead]; exact hform h), ?_⟩
    rw [admitCommand_eq (p := (· == opcodeOf F.bytes)) hF hf hm hn (beq_self_eq_true _) hc, if_neg (by simp [hknown]), if_pos hbad]
    exact endCmd_newest hx huid hphase

end Sys2Proof.Machine
end

section
/-!
PROOFS. The start of a load when a command already in flight has the identity that admission gives next: the command that
`cmdOf` then finds is the older one, whose form decides.
-/
namespace Sys2Proof.Machine

/-- A table of 100 rows of 64 bytes, owned by function 1. -/
def loadTable : TableDecl :=
  { id := 7, fmt := .fp32, opt := .none, dim := 16, husk := false, migrate := false, invalid := .zero, releaseOnLoss := false,
    owner := 1, homeTier := .stack, rows := 100, homeBase := 0, readMask := 0, writeMask := 0, segStride := 32,
    logicalStride := 64, userTag := [], defaultRow := [], defaultOff := 0, lost := false,
    shards := [{ noShard with tier := .stack }] }

/-- The slot of a COPY_H2D of this form, its other fields zero but the one at 8. -/
def copySlotOf (form : Nat) : List Byte := patch (patch (0x40 :: zeros 63) 0x10 (leBytes 1 form)) 0x18 (leBytes 8 1)

/-- A COPY_H2D in flight with identity 5, of a form that is not a load. -/
def olderCopy : Cmd := { kernelCmd 5 15 with bytes := copySlotOf 7 }

/-- A fetched load. -/
def fetchedLoad : Fetched := { bytes := copySlotOf 1, slot := 0, no := 0, pos := 0, clk := 0 }

/-- The load is the next command that its bridge admits, and takes identity 5 too. -/
def loading : State :=
  { State.reset with
    sys := { State.reset.sys with state := .run }
    cfg := { State.reset.cfg with cur := { State.reset.cfg.cur with tables := [loadTable] } }
    qs := vupd State.reset.qs 0 fun Q => { Q with func := some 1, sqs := 3, cqs := 3, en := true, fetched := [fetchedLoad] }
    cmds := [olderCopy]
    nextUid := 5 }

/-- The load has been admitted. -/
def loadAdmitted : State := admitHead 0 loading

/-- TABLE_LOAD has run. -/
def loadStarted : State := admitCommand (· == 0x40) (0 : Fin 256) (startOf (.tableLoad 0)) loading

theorem loading_head : (vat loading.qs 0).fetched = [fetchedLoad] ∧ (vat loading.qs 0).func = some 1 ∧
    mayAdmit loading (1 / 32) = true ∧ nextQueue loading (1 / 32) = some (0 : Fin 256).val := by
  decide +kernel

/-- The checks of a load pass on the older command. -/
theorem olderCopy_passes :
    cmdOf loadAdmitted 5 = some olderCopy ∧ tableChecks loadAdmitted olderCopy true = .inr loadTable ∧
      rngKind loadAdmitted olderCopy.func false (loadRange loadTable olderCopy) = 0 ∧ usesAts loadAdmitted olderCopy.func = false := by
  decide +kernel

theorem olderCopy_fields :
    opcodeOf olderCopy.bytes = opcodeOf fetchedLoad.bytes ∧ badChain olderCopy.bytes = false ∧ entryCount olderCopy = 1 ∧
      copyInline olderCopy.bytes = false := by
  decide +kernel

theorem badLoadRow_olderCopy : badLoadRow loadTable olderCopy = none := by decide +kernel

theorem olderCopy_rows : onHost (loadRange loadTable olderCopy) = true ∧ entryBytes loadTable olderCopy 0 = none := by
  decide +kernel

/-- No command waits for the host. -/
theorem loadStarted_waits : loadStarted.cmds.all (·.phase != .waitHost) = true := by decide +kernel

theorem exec_tableLoad_loading : exec (.tableLoad 0) loading = .next loadStarted := by
  have hform : headForm loading 0 = 1 := by decide +kernel
  rw [loadStarted]
  exact exec_admitRow (q := 0) (o := 0x40) (s := loading) (i := .tableLoad 0) rfl fun _ => ⟨fun _ => rfl, fun _ => hform⟩

/-- Refutes O25: in `loading` a COPY_H2D in flight that is not a load has the identity that the admitted load takes; TABLE_LOAD then
starts that older command, for which it asks the host for nothing. -/
theorem not_commandsStart : ¬ Obligations.CommandsStart := by
  unfold Obligations.CommandsStart
  intro h
  obtain ⟨hF, hf, hm, hn⟩ := loading_head
  obtain ⟨hcmd, htable, hkind, hats⟩ := olderCopy_passes
  obtain ⟨hop, hchain, hone, hinline⟩ := olderCopy_fields
  obtain ⟨hhost, hbytes⟩ := olderCopy_rows
  obtain ⟨-, hrows⟩ := h loading 0 fetchedLoad [] 1 hF hf hm hn olderCopy hcmd hop
  obtain ⟨-, -, hload, -⟩ := hrows hchain
  obtain ⟨t, ht, ⟨⟨x, hx, -, hwait, -⟩, -⟩, -⟩ := hload loadTable (by decide +kernel) (by decide +kernel) htable (by omega) (by omega) hinline
    hkind badLoadRow_olderCopy hhost hats hbytes
  obtain rfl : loadStarted = t := by
    rw [exec_tableLoad_loading] at ht
    exact Host.Outcome.next.inj ht
  have hno := List.all_eq_true.1 loadStarted_waits x hx
  rw [hwait] at hno
  cases hno

end Sys2Proof.Machine
end

section
/-!
PROOFS. Queue pairs: what their registers and their fetches do to the pair itself, and that they leave everything else of the queues,
memory, the commands and the device state as it was.
-/
namespace Sys2Proof.Machine

/-- The queue pair becomes `Q`; the other pairs, memory, the commands and the device state stay. -/
structure QueueMade (q : Nat) (Q : Queue) (s t : State) : Prop where
  own : vat t.qs q = Q
  rest : ∀ p < 256, p ≠ q → vat t.qs p = vat s.qs p
  mem : t.mem = s.mem
  cmds : t.cmds = s.cmds
  sys : t.sys = s.sys
  uid : t.nextUid = s.nextUid

variable {q : Nat} {Q R : Queue} {s t u : State}

theorem QueueMade.trans (h : QueueMade q Q s t) (k : QueueMade q R t u) : QueueMade q R s u :=
  ⟨k.own, fun p hp hn => (k.rest p hp hn).trans (h.rest p hp hn), k.mem.trans h.mem, k.cmds.trans h.cmds, k.sys.trans h.sys,
    k.uid.trans h.uid⟩

/-- A change that leaves all of this alone makes the pair what it was. -/
theorem QueueMade.idle (hq : t.qs = s.qs) (hm : t.mem = s.mem) (hc : t.cmds = s.cmds) (hs : t.sys = s.sys)
    (hu : t.nextUid = s.nextUid) : QueueMade q (vat s.qs q) s t :=
  ⟨by rw [hq], fun p _ _ => by rw [hq], hm, hc, hs, hu⟩

theorem QueueMade.then_idle (h : QueueMade q Q s t) (hq : u.qs = t.qs) (hm : u.mem = t.mem) (hc : u.cmds = t.cmds)
    (hs : u.sys = t.sys) (hu : u.nextUid = t.nextUid) : QueueMade q Q s u :=
  h.own ▸ h.trans (.idle hq hm hc hs hu)

theorem onQ_made (hq : q < 256) (g : Queue → Queue) (s : State) : QueueMade q (g (vat s.qs q)) s (onQ q g s) :=
  ⟨vat_vupd_self .., fun p hp hn => vat_vupd_ne _ _ (by omega), rfl, rfl, rfl, rfl⟩

theorem QueueMade.onQ (h : QueueMade q Q s t) (hq : q < 256) (g : Queue → Queue) : QueueMade q (g Q) s (onQ q g t) :=
  h.own ▸ h.trans (onQ_made hq g t)

theorem QueueMade.raiseMsix (h : QueueMade q Q s t) (f v : Nat) : QueueMade q Q s (raiseMsix f v t) := by
  have e := raiseMsix_frame (f := f) (v := v) (s := t)
  exact h.then_idle (congrArg State.qs e :) (congrArg State.mem e :) (congrArg State.cmds e :) (congrArg State.sys e :)
    (congrArg State.nextUid e :)

theorem QueueMade.queueErrorEvent (h : QueueMade q Q s t) (p code : Nat) : QueueMade q Q s (queueErrorEvent p code t) := by
  have e := raiseEvent_frame (t := evQueueError) (a := source (pageDie (funcOfQ t p)) (pageBlock (funcOfQ t p)))
    (b := p + 256 * code) (s := t)
  exact h.then_idle (congrArg State.qs e :) (congrArg State.mem e :) (congrArg State.cmds e :) (congrArg State.sys e :)
    (congrArg State.nextUid e :)

theorem QueueMade.dropFetched (h : QueueMade q Q s t) (hq : q < 256) :
    QueueMade q { Q with fetched := [] } s (dropFetched q t) := by
  obtain ⟨-, g, l, n, e⟩ := dropFetched_spec q t
  rw [e]
  exact (h.onQ hq fun Q => { Q with fetched := [] }).then_idle rfl rfl rfl rfl rfl

/-- The pair with an error noted (R528, R534). -/
def erredQueue (code : Nat) (Q : Queue) : Queue :=
  { Q with err := true, errcode := if Q.err then Q.errcode else BitVec.ofNat 4 code }

/-- The pair that an error stops (R534). -/
def failedQueue (code : Nat) (Q : Queue) : Queue :=
  { erredQueue code Q with fetched := [], stopped := true, cqDead := Q.cqDead || code == 6 }

theorem configError_made (h : QueueMade q Q s t) (hq : q < 256) : QueueMade q (erredQueue 1 Q) s (configError q t) :=
  (h.onQ hq _).queueErrorEvent q 1

theorem queueError_made (hq : q < 256) (code : Nat) (s : State) :
    QueueMade q (failedQueue code (vat s.qs q)) s (queueError q code s) := by
  have h := (((onQ_made hq _ s : QueueMade q (erredQueue code (vat s.qs q)) s (noteQueueError q code s)).dropFetched hq).onQ hq
    fun Q => { Q with stopped := true, cqDead := Q.cqDead || code == 6 })
  unfold queueError
  extract_lets s1 s2 Q1 s3
  refine QueueMade.queueErrorEvent ?_ q code
  unfold s3
  split
  · exact h.raiseMsix _ _
  · exact h

theorem failedQueue_errcode {code : Nat} (h : Q.err = false) : (failedQueue code Q).errcode = BitVec.ofNat 4 code := by
  simp [failedQueue, erredQueue, h]

theorem queueDisable_made (hq : q < 256) (v : Nat) (s : State) :
    QueueMade q { vat s.qs q with fetched := [], en := false, ien := bit v 49, iall := bit v 50 } s (queueDisable q v s) :=
  have h := (QueueMade.idle rfl rfl rfl rfl rfl : QueueMade q (vat s.qs q) s s).dropFetched hq
  have h1 : QueueMade q { vat s.qs q with fetched := [] } s (countPage (funcOfQ s q) (Machine.dropFetched q s)) :=
    h.then_idle rfl rfl rfl rfl rfl
  h1.onQ hq fun Q => { Q with en := false, ien := bit v 49, iall := bit v 50 }

/-- The answer's record in AER leaves the queues alone. -/
theorem noteReply_made (f : Nat) (r : HostReply) (s : State) : QueueMade q (vat s.qs q) s (noteReply f r s) := by
  have haer (b : Nat) : QueueMade q (vat s.qs q) s (aerError f b s) := by
    unfold aerError
    extract_lets p fatal s1
    exact iteInduction (motive := QueueMade q _ s) (fun _ => .idle rfl rfl rfl rfl rfl) fun _ => .idle rfl rfl rfl rfl rfl
  unfold noteReply
  split
  · exact haer 12
  · exact haer 14
  · exact .idle rfl rfl rfl rfl rfl

/-- The command that a device in HALT holds for its DEVICE_HOLD completion (R563). -/
structure HeldFor (q uid : Nat) (c : Cmd) : Prop where
  q : c.q = q
  phase : c.phase = .ended
  status : c.status = 0x3F
  uid : c.uid = uid

/-- What the fetch of one command leaves behind (R539, R563). -/
theorem fetchCommand_spec (hq : q < 256) (bs : List Byte) (s : State) :
    let t := fetchCommand q bs s
    let n := 1 + chainOf bs
    ((∀ p < 256, p ≠ q → vat t.qs p = vat s.qs p) ∧ t.mem = s.mem ∧ t.sys = s.sys) ∧
      (vat t.qs q).sqh = ((vat s.qs q).sqh + 1 + chainOf bs) % ((vat s.qs q).sqs + 1) ∧ (vat t.qs q).tail = (vat s.qs q).tail ∧
      (s.sys.state ≠ .halt → t.cmds = s.cmds ∧
        (vat t.qs q).fetched.map (·.bytes) = (vat s.qs q).fetched.map (·.bytes) ++ [fitTo bs (64 * n)]) ∧
      (s.sys.state = .halt → (vat t.qs q).fetched = (vat s.qs q).fetched ∧
        ∃ c, t.cmds = s.cmds ++ [c] ∧ HeldFor q s.nextUid c) := by
  intro t n
  have h1 := onQ_made hq (fun Q => { Q with sqh := (Q.sqh + 1 + chainOf bs) % (Q.sqs + 1) }) s
  unfold t fetchCommand
  extract_lets Q b F s1 s2 cl s3
  have h3 : QueueMade q { vat s.qs q with sqh := ((vat s.qs q).sqh + 1 + chainOf bs) % ((vat s.qs q).sqs + 1) } s s3 := by
    obtain ⟨o, e⟩ := foldl_hostAsk (slotReads Q (funcOfQ s2 q) (1 + chainOf bs)) s2
    unfold s3
    rw [e]
    exact h1.then_idle rfl rfl rfl rfl rfl
  clear_value s3
  rw [h3.sys]
  by_cases hh : s.sys.state = .halt
  · rw [if_pos (by simp [hh])]
    refine ⟨⟨h3.rest, h3.mem, h3.sys⟩, ?_, ?_, fun hn => absurd hh hn, fun _ => ⟨?_,
      { newCmd s3 q F (classOf F.bytes) false false with phase := .ended, status := 0x3F }, ?_, ?_⟩⟩
    · exact (congrArg Queue.sqh h3.own :)
    · exact (congrArg Queue.tail h3.own :)
    · exact (congrArg Queue.fetched h3.own :)
    · exact congrArg (· ++ _) h3.cmds
    · exact ⟨rfl, rfl, rfl, h3.uid⟩
  · have h4 := h3.onQ hq fun Q => { Q with fetched := Q.fetched ++ [F] }
    rw [if_neg (by simp [hh])]
    refine ⟨⟨h4.rest, h4.mem, h4.sys⟩, (congrArg Queue.sqh h4.own :), (congrArg Queue.tail h4.own :), fun _ => ⟨h4.cmds, ?_⟩,
      fun h => absurd h hh⟩
    rw [h4.own, List.map_append]
    rfl

/-- A slice from the start of a string long enough is what it begins with. -/
theorem fitTo_eq_take {bs : List Byte} {n : Nat} (h : n ≤ bs.length) : fitTo bs n = bs.take n := by
  simp [fitTo, slice, Nat.min_eq_left h]

theorem execSlotFetch_of_mayFetch {q : Fin 256} {r : HostReply} (hm : mayFetch s q = true) (hr : 0 < slotsReady (vat s.qs q))
    (ht : timeoutOff (funcOfQ s q) r s = false) :
    exec (.slotFetch q r) s = .next (slotFetch q r (noteReply (funcOfQ s q) r s)) := by
  change execSlotFetch q r s = _
  rw [execSlotFetch, if_pos (by simp [hm, hr, ht])]

/-- The registers of a queue pair whose function is in service (R528 to R534). -/
theorem queueRegisters (s : State) (q : Fin 256) (f : Nat) (hl : linksTraining s = true) (hf : (vat s.qs q).func = some f)
    (hr : funcInReset s f = false) :
    let Q := vat s.qs q
    (∀ v : BitVec 64, bit v.toNat 48 = true → Q.en = false → exec (.queueEnable q v) s = .next (queueEnable q v.toNat s)) ∧
    (∀ v : BitVec 64, bit v.toNat 48 = false → Q.en = true → exec (.queueDisable q v) s = .next (queueDisable q v.toNat s)) ∧
    (∀ v : BitVec 32, Q.en = true → Q.stopped = false → exec (.sqTailDoorbell q v) s = .next
      (if Q.sqs < v.toNat % 4096 then queueError q 2 s else onQ q (fun Q => { Q with tail := v.toNat % 4096 }) s)) ∧
    (∀ v : BitVec 32, queueActive Q = true → exec (.cqHeadDoorbell q v) s = .next
      (if headOk Q (v.toNat % 4096) then onQ q (fun Q => { Q with head := v.toNat % 4096 }) s else queueError q 3 s)) := by
  intro Q
  have hfn : funcOfQ s q = f := by rw [funcOfQ, hf]; rfl
  refine ⟨fun v hv he => ?_, fun v hv he => ?_, fun v he hs => ?_, fun v ha => ?_⟩
  · change execQueueEnable q v s = _
    simp only [execQueueEnable, hl, hf, hv, show (vat s.qs q).en = false from he, hfn, hr]
    rfl
  · change execQueueDisable q v s = _
    simp only [execQueueDisable, hl, hf, hv, show (vat s.qs q).en = true from he, hfn, hr]
    rfl
  · change execSqTailDoorbell q v s = _
    simp only [execSqTailDoorbell, tailDoorbell, hl, hf, hfn, hr, show (vat s.qs q).en = true from he,
      show (vat s.qs q).stopped = false from hs]
    rfl
  · change execCqHeadDoorbell q v s = _
    simp only [execCqHeadDoorbell, headDoorbell, hl, hf, hfn, hr, show queueActive (vat s.qs q) = true from ha]
    cases hh : headOk Q (v.toNat % 4096) <;> simp [hh, Q] at *

/-- Settles O23: each register write and each fetch makes the queue pair one known pair and leaves the rest alone. -/
theorem queuesTakeDoorbellsAndFetch : Obligations.QueuesTakeDoorbellsAndFetch := by
  unfold Obligations.QueuesTakeDoorbellsAndFetch
  refine ⟨fun s q f hl hf hr => ?_, fun s q hm h0 => ?_⟩
  · intro Q others
    obtain ⟨henable, hdisable, htail, hhead⟩ := queueRegisters s q f hl hf hr
    have hoth {R : Queue} {t : State} (h : QueueMade q R s t) : others t := ⟨h.rest, h.mem, h.cmds, h.sys⟩
    refine ⟨fun v hv he hc => ?_, fun v hv he hc => ?_, fun v hv he => ?_, fun v he hs => ⟨fun hle => ?_, fun hlt => ?_⟩,
      fun v ha => ⟨fun hok => ?_, fun hbad => ?_⟩⟩
    · have h := onQ_made q.isLt (fun _ => startQueue (qcfgFields v.toNat Q)) s
      rw [henable v hv he, queueEnable, if_pos hc]
      refine ⟨_, rfl, hoth h, ?_⟩
      rw [h.own]
      exact ⟨rfl, rfl, rfl, rfl, rfl, rfl, rfl, rfl, hf, rfl⟩
    · have h := configError_made (onQ_made q.isLt (fun _ => qcfgFields v.toNat Q) s) q.isLt
      rw [henable v hv he, queueEnable, if_neg (by rw [hc]; decide)]
      refine ⟨_, rfl, hoth h, ?_⟩
      rw [h.own]
      exact ⟨he, rfl, fun hn => if_neg (by rw [show (qcfgFields v.toNat Q).err = Q.err from rfl, hn]; decide)⟩
    · have h := queueDisable_made q.isLt v.toNat s
      refine ⟨_, hdisable v hv he, hoth h, ?_⟩
      rw [h.own]
      exact ⟨rfl, rfl, rfl, rfl, rfl⟩
    · rw [htail v he hs, if_neg (Nat.not_lt.2 hle)]
    · have h := queueError_made q.isLt 2 s
      rw [htail v he hs, if_pos hlt]
      refine ⟨_, rfl, hoth h, ?_⟩
      rw [h.own]
      exact ⟨rfl, rfl, failedQueue_errcode, rfl⟩
    · rw [hhead v ha, if_pos hok]
    · have h := queueError_made q.isLt 3 s
      rw [hhead v ha, if_neg (by rw [hbad]; decide)]
      refine ⟨_, rfl, hoth h, ?_⟩
      rw [h.own]
      exact ⟨rfl, rfl, failedQueue_errcode⟩
  · intro Q others
    have hfetch {r : HostReply} (ht : timeoutOff (funcOfQ s q) r s = false) := execSlotFetch_of_mayFetch hm h0 ht
    have herr (code : Nat) (r : HostReply) := (noteReply_made (q := q) (funcOfQ s q) r s).trans
      (queueError_made q.isLt code (noteReply (funcOfQ s q) r s))
    have hoth {R : Queue} {t : State} (h : QueueMade q R s t) : others t := ⟨h.rest, h.mem, h.sys⟩
    have hdata (bs : List Byte) : exec (.slotFetch q (.data bs)) s = .next (slotFetch q (.data bs) s) := hfetch rfl
    refine ⟨fun bs hc hn ha hlen => ?_, fun bs hc hn => ?_, fun bs hc => ?_, fun r ht => ?_, fun r hd hg ht => ?_⟩
    · obtain ⟨hrest, hsqh, htail, hrun, hhalt⟩ := fetchCommand_spec q.isLt bs s
      rw [hdata, slotFetch, if_neg (Nat.not_le.2 hc), if_neg (by change ¬ (slotsReady Q < _ ∨ 64 < slotsAhead Q + _ ∨ _); omega)]
      rw [fitTo_eq_take hlen] at hrun
      refine ⟨_, rfl, hrest, hsqh, htail, hrun, fun hs => ?_⟩
      obtain ⟨hfe, c, hcm, hheld⟩ := hhalt hs
      exact ⟨hfe, c, hcm, hheld.q, hheld.phase, hheld.status, hheld.uid⟩
    · rw [hdata, slotFetch, if_neg (Nat.not_le.2 hc), if_pos (.inl hn)]
    · have h := queueError_made q.isLt 4 s
      rw [hdata, slotFetch, if_pos hc]
      refine ⟨_, rfl, hoth h, ?_⟩
      rw [h.own]
      exact ⟨rfl, rfl, failedQueue_errcode, h.cmds⟩
    · change execSlotFetch q r s = _
      rw [execSlotFetch, if_neg (by simp [ht])]
    · have h := herr 5 r
      have hq := (noteReply_made (q := q) (funcOfQ s q) r s).own
      refine ⟨_, (hfetch ht).trans (congrArg _ ?_), hoth h, ?_⟩
      · unfold slotFetch
        split
        · exact absurd rfl (hd _)
        · exact absurd rfl hg
        · rfl
      · rw [h.own, hq]
        exact ⟨rfl, rfl, failedQueue_errcode, h.cmds⟩

end Sys2Proof.Machine
end

section
/-!
PROOFS. Stolon: evictions, the decision of the leader, and the batches of a move, as what they leave of Stolon's state.
-/
namespace Sys2Proof.Machine

/-! ### Traffic of the house -/

/-- Traffic that no command pays for changes the slices' counts, the classes' usage, the ledger and the meters alone. -/
structure HousePaid (s t : State) : Prop where
  rest : t = { s with slices := t.slices, qos := t.qos, led := t.led, pmc := t.pmc }

theorem HousePaid.refl (s : State) : HousePaid s s := ⟨rfl⟩

theorem HousePaid.trans {a b c : State} (h1 : HousePaid a b) (h2 : HousePaid b c) : HousePaid a c :=
  ⟨by rw [h2.rest, h1.rest]⟩

theorem HousePaid.foldl {α : Type} {g : State → α → State} (h : ∀ s x, HousePaid s (g s x)) : ∀ (l : List α) (s : State),
    HousePaid s (l.foldl g s)
  | [], s => .refl s
  | x :: l, s => (h s x).trans (foldl h l (g s x))

theorem activity_housePaid (d n : Nat) (s : State) : HousePaid s (activity .house d n s) := by
  unfold activity
  extract_lets D a
  split <;> exact ⟨rfl⟩

theorem memActivity_housePaid (da n : Nat) (s : State) : HousePaid s (memActivity .house da n s) := by
  unfold memActivity
  extract_lets o pieces
  split
  · exact .foldl (fun _ _ => activity_housePaid ..) ..
  · refine .foldl (fun _ _ => ?_) ..
    split
    · exact activity_housePaid ..
    · exact .refl _
  · split
    · exact .foldl (fun _ _ => activity_housePaid ..) ..
    · exact .refl _

theorem charge_housePaid (i r n : Nat) (s : State) : HousePaid s (charge i r n s) := ⟨rfl⟩

theorem chargeClass_housePaid (i da n : Nat) (s : State) : HousePaid s (chargeClass i da n s) := by
  unfold chargeClass
  extract_lets s1
  split
  · exact (charge_housePaid ..).trans ((charge_housePaid ..).trans (.foldl (fun _ _ => charge_housePaid ..) ..))
  · exact charge_housePaid ..

theorem noteAtoms_housePaid (da n : Nat) (s : State) : HousePaid s (noteAtoms da n s) := by
  unfold noteAtoms
  split <;> exact ⟨rfl⟩

theorem chargeMove_housePaid (da n : Nat) (s : State) : HousePaid s (chargeMove da n s) :=
  ((noteAtoms_housePaid ..).trans (memActivity_housePaid ..)).trans (chargeClass_housePaid ..)

theorem chargePlace_housePaid (t : TableDecl) (sh : Shard) (row : Nat) (s : State) : HousePaid s (chargePlace t sh row s) := by
  unfold chargePlace
  split
  · exact chargeMove_housePaid ..
  · exact .foldl (fun _ _ => chargeMove_housePaid ..) ..

theorem chargeBatch_housePaid (k : BatchKind) (s : State) : HousePaid s (chargeBatch k s) := by
  refine .foldl (fun s x => (chargePlace_housePaid x.1 (shardOf x.1 x.2) x.2 s).trans ?_) ..
  cases k with
  | shard =>
    refine (chargePlace_housePaid x.1 (batchDst (chargePlace x.1 (shardOf x.1 x.2) x.2 s)) x.2 _).trans ?_
    dsimp only
    split
    · exact chargeMove_housePaid ..
    · exact .refl _
  | lift => exact .foldl (fun _ _ => chargeMove_housePaid ..) ..

/-! ### Counts, and the rows of a batch -/

/-- An event counted on every live slice. -/
theorem foldl_tallySlices (e : Nat) : ∀ (l : List Nat) (s : State), ∃ c,
    l.foldl (fun s k => tally (.slice k) e 1 .house s) s = { s with cnt := c }
  | [], s => ⟨_, rfl⟩
  | k :: l, s => by
    obtain ⟨c, e1⟩ := foldl_tallySlices e l (tally (.slice k) e 1 .house s)
    exact ⟨c, e1⟩

/-- Rows written change memory, poison and counts alone. -/
structure RowsWritten (s t : State) : Prop where
  rest : t = { s with mem := t.mem, poison := t.poison, cnt := t.cnt }

theorem RowsWritten.refl (s : State) : RowsWritten s s := ⟨rfl⟩

theorem RowsWritten.trans {a b c : State} (h1 : RowsWritten a b) (h2 : RowsWritten b c) : RowsWritten a c :=
  ⟨by rw [h2.rest, h1.rest]⟩

theorem RowsWritten.foldl {α : Type} {g : State → α → State} (h : ∀ s x, RowsWritten s (g s x)) : ∀ (l : List α) (s : State),
    RowsWritten s (l.foldl g s)
  | [], s => .refl s
  | x :: l, s => (h s x).trans (foldl h l (g s x))

theorem daWrite_rowsWritten (s : State) (a : Nat) (bs : List Byte) : RowsWritten s (daWrite s a bs).2 := ⟨by rw [daWrite_rest]⟩

theorem copyRow_rowsWritten (t : TableDecl) (row : Nat) (dst : Shard) (s : State) : RowsWritten s (copyRow t row dst s) := by
  unfold copyRow
  extract_lets recs s1
  split
  · exact daWrite_rowsWritten ..
  · have h1 : RowsWritten s s1 := .foldl (fun _ _ => daWrite_rowsWritten ..) ..
    split
    · exact h1.trans (daWrite_rowsWritten ..)
    · exact h1

theorem copyLift_rowsWritten (t : TableDecl) (row : Nat) (s : State) : RowsWritten s (copyLift t row s) := by
  unfold copyLift
  extract_lets recs
  split
  · exact .refl s
  · refine .foldl (fun u p => ⟨?_⟩) ..
    rw [tally_frame, daPoke_rest]

/-! ### The rows of Stolon -/

/-- The batch `k` has been put in flight, its traffic apart (R319). -/
def batchStarted (k : BatchKind) (s : State) : State :=
  let st := s.stolon
  let mine (e : LiftEntry) : Bool := match k with
    | .lift keys => keys.contains (e.table, e.row)
    | .shard _ _ _ _ => false
  { s with stolon := { st with
    batch := some { what := k, retried := st.stalled.isSome, since := clkOf s }, stalled := none,
    windowBytes := st.windowBytes + sourceBytes k s, liftsDue := st.liftsDue.filter fun e => !mine e,
    lift := st.lift ++ st.liftsDue.filter mine } }

theorem exec_eviction_spec {s : State} {b w : Nat} {rest : List (Nat × Nat)} (h : s.stolon.evictions = (b, w) :: rest) :
    ∃ c, exec .eviction s = .next { s with stolon := { s.stolon with evictions := rest, lift := s.stolon.lift.filter fun e => !(e.bucket == b && e.way == w) }, cnt := c } := by
  obtain ⟨c, e⟩ := foldl_tallySlices 0x141 (liveData s)
    { s with stolon := { s.stolon with evictions := rest, lift := s.stolon.lift.filter fun e => !(e.bucket == b && e.way == w) } }
  refine ⟨c, ?_⟩
  change execEviction s = _
  rw [execEviction, h]
  exact congrArg _ e

/-- Without AUTO_LIFT the leader decides evictions only (R310, R339). -/
theorem liftDecision_evicts {s : State} (h : s.cfg.cur.migration.autoLift = false) :
    liftDecision s = { s with stolon := { s.stolon with evictions := s.stolon.evictions ++
      (if s.image.carve.liftBytes = 0 then [] else
        ((s.stolon.lift.filter fun e => !e.frozen && decide (e.hits < s.cfg.cur.migration.evictHits)).map fun e =>
          (e.bucket, e.way)).filter (!s.stolon.evictions.contains ·)) } } := by
  unfold liftDecision
  extract_lets st m gone p0 cands p s1
  have hp : p = p0 := if_neg (by simp [m, h])
  split
  next hz => rw [List.append_nil]
  next hz =>
    have hs : s1 = { s with stolon := { st with evictions := st.evictions ++ p0.evict.filter (!st.evictions.contains ·) } } := by
      unfold s1
      rw [hp]
      simp [p0]
    have hskip : p.skips = 0 := by rw [hp]
    rw [hs]
    split
    · rfl
    · rw [if_pos hskip]

/-- The row decides when it is due: once in a beat, while a data slice lives (R104, R307). -/
theorem exec_stolonDecision {s : State} (hi : inService s = true) (ht : s.tb.tick = 32768) (hl : liveData s ≠ [])
    (hd : s.stolon.decided ≠ some s.tb.beat.toNat) :
    let u := moveDecision (liftDecision s)
    exec .stolonDecision s = .next
      { u with stolon := { u.stolon with candidates := [], newLeader := false, decided := some u.tb.beat.toNat } } := by
  intro u
  have hd' : (s.stolon.decided != some s.tb.beat.toNat) = true := bne_iff_ne.2 hd
  change execStolonDecision s = _
  rw [execStolonDecision, if_pos (by simp [hi, ht, hl, hd'])]

theorem liftDecision_idle {s : State} (h : s.image.carve.liftBytes = 0) : liftDecision s = s := by
  unfold liftDecision
  extract_lets st m
  rw [if_pos h]


theorem exec_moveBatchStart {s : State} {k : BatchKind} (hi : inService s = true) (hn : s.stolon.batch = none)
    (hl : liveData s ≠ []) (hk : nextBatch s = some k) (hb : ∀ x ∈ batchRows s k, rowBusy s x.1 x.2 = false)
    (hw : s.stolon.windowBytes + sourceBytes k s ≤ windowCap s) :
    exec .moveBatchStart s = .next (startBatch s) ∧ HousePaid (batchStarted k s) (startBatch s) := by
  constructor
  · change execMoveBatchStart s = _
    rw [execMoveBatchStart, if_pos (by simp [hi, hn, hl])]
  · unfold startBatch
    rw [hk]
    dsimp only
    rw [if_neg (by simpa using ⟨fun t r h => hb (t, r) h, hw⟩)]
    exact chargeBatch_housePaid ..

/-- Without AUTO_MOVE no shard move is decided (R314, R338). -/
theorem moveDecision_off {s : State} (h : s.cfg.cur.migration.autoMove = false) : moveDecision s = s := by
  rw [moveDecision, if_pos (by simp [h])]

/-- With nothing pending, a single shard to move back is moved back (R314). -/
theorem moveDecision_single {s : State} {x : Nat × Nat × Nat × Tier} (hm : s.cfg.cur.migration.autoMove = true)
    (hc : s.cfg.changes = []) (hq : s.mg.changeQueue = []) (hn : s.stolon.newLeader = false)
    (hx : moveCandidates s true = [x]) (hok : checkChange s (projected s) none (.shardMove x.1 x.2.1 x.2.2.2) = 0) :
    moveDecision s = acceptChange (.shardMove x.1 x.2.1 x.2.2.2) none s := by
  rw [moveDecision, if_neg (by simp [hm, hc, hq, hn]), hx]
  change ownChange _ s = _
  rw [ownChange, if_pos (by rw [hq]; rfl), validateOwn, if_pos hok]

/-- An abandoned batch of a shard leaves its rows at the source (R323). -/
theorem dropBatch_of_shard {s : State} {b : MoveBatch} (hb : s.stolon.batch = some b) (h : isShard b.what = true) :
    dropBatch s = { s with stolon := { s.stolon with batch := none } } := by
  unfold dropBatch
  rw [hb]
  dsimp only
  split
  · rfl
  next hk => rw [hk] at h; cases h

/-- The lifts of an abandoned batch are due again (R323). -/
theorem dropBatch_of_lift {s : State} {b : MoveBatch} {keys : List (Nat × Nat)} (hb : s.stolon.batch = some b)
    (hk : b.what = .lift keys) :
    dropBatch s = { s with stolon := { s.stolon with
      batch := none, lift := s.stolon.lift.filter fun e =>
        !(s.stolon.lift.filter fun e => e.frozen && keys.contains (e.table, e.row)).contains e
      liftsDue := (s.stolon.lift.filter fun e => e.frozen && keys.contains (e.table, e.row)) ++ s.stolon.liftsDue } } := by
  simp only [dropBatch, hb, hk]

/-- The first failure of a batch: it is abandoned and stalled, for its one retry (R323). -/
theorem exec_moveBatchTimeout {s : State} {b : MoveBatch} (hi : inService s = true) (hb : s.stolon.batch = some b)
    (hr : b.retried = false) : ∃ t, exec .moveBatchTimeout s = .next t ∧ t.mem = s.mem ∧ t.cmds = s.cmds ∧ t.sys = s.sys ∧
      t.stolon = { (dropBatch s).stolon with stalled := some b.what } := by
  have hd : ∃ st, dropBatch s = { s with stolon := st } := by
    unfold dropBatch
    rw [hb]
    dsimp only
    split <;> exact ⟨_, rfl⟩
  obtain ⟨st, ed⟩ := hd
  obtain ⟨r, er⟩ := kickFlail_frame (batchTimeout s)
  have eb : ∃ jr fs o cn, batchTimeout s = { dropBatch s with jr := jr, funcs := fs, out := o, cnt := cn
                                                              stolon := { (dropBatch s).stolon with stalled := some b.what } } := by
    unfold batchTimeout
    rw [hb]
    dsimp only
    rw [if_pos (by simp [hr]), raiseEvent_frame]
    exact ⟨_, _, _, _, rfl⟩
  obtain ⟨jr, fs, o, cn, eb⟩ := eb
  refine ⟨kickFlail (batchTimeout s), ?_, ?_⟩
  · change execMoveBatchTimeout s = _
    rw [execMoveBatchTimeout, if_pos hi]
  · rw [er, eb, ed]
    exact ⟨rfl, rfl, rfl, rfl⟩

theorem ackBatch_of_lift {s : State} {b : MoveBatch} {keys : List (Nat × Nat)} (hb : s.stolon.batch = some b)
    (hp : batchPossible s b.what = true) (hk : b.what = .lift keys) :
    (ackBatch s).stolon = { s.stolon with batch := none, lift := s.stolon.lift.map fun e =>
      (if keys.contains (e.table, e.row) then { e with frozen := false } else e) } := by
  obtain ⟨c, e⟩ := foldl_tallySlices 0x142 (liveData s) s
  rw [hk] at hp
  unfold ackBatch
  simp only [hb, hk, hp, e, Bool.not_true, Bool.false_eq_true, if_false]
  have h : RowsWritten { s with cnt := c } ((batchRows s (.lift keys)).foldl (fun s x => copyLift x.1 x.2 s) { s with cnt := c }) :=
    .foldl (fun _ _ => copyLift_rowsWritten ..) ..
  have hs := (congrArg State.stolon h.rest :)
  simp only [hs]

theorem ackBatch_of_shard {s : State} {b : MoveBatch} {table shard first n : Nat} {m : ShardMove} {T : TableDecl}
    (hb : s.stolon.batch = some b) (hp : batchPossible s b.what = true) (hk : b.what = .shard table shard first n)
    (hm : s.stolon.move = some m) (hT : tableOf s.cfg.cur table = some T) (hn : first + n < shardRows T.rows shard) :
    (ackBatch s).stolon = { s.stolon with batch := none, move := some { m with cursor := first + n, staged := false } } := by
  obtain ⟨c, e⟩ := foldl_tallySlices 0x142 (liveData s) s
  rw [hk] at hp
  unfold ackBatch
  simp only [hb, hk, hp, e, Bool.not_true, Bool.false_eq_true, if_false]
  set dst := batchDst { s with cnt := c }
  have h : RowsWritten { s with cnt := c } ((batchRows s (.shard table shard first n)).foldl (fun s x => copyRow x.1 x.2 dst s) { s with cnt := c }) :=
    .foldl (fun _ _ => copyRow_rowsWritten ..) ..
  have hs := (congrArg State.stolon h.rest :)
  have hc := (congrArg State.cfg h.rest :)
  simp only [hs, hc, hT, hm]
  simp [Nat.not_le.2 hn]

theorem exec_moveBatchAck {s : State} {b : MoveBatch} (hi : inService s = true) (hb : s.stolon.batch = some b)
    (hc : clkOf s ≤ b.since + 2 * usec) : ∃ t, exec .moveBatchAck s = .next t ∧ t.stolon = (ackBatch s).stolon := by
  have hf : frozenLong s = false := by simp [frozenLong, hb, hc]
  obtain ⟨r, e⟩ := kickFlail_frame (ackBatch s)
  refine ⟨kickFlail (ackBatch s), ?_, (congrArg State.stolon e :)⟩
  change execMoveBatchAck s = _
  rw [execMoveBatchAck, if_pos hi, hf]
  rfl

/-- Settles O59: every row of Stolon is one change of Stolon's state with the traffic and the counts that go with it. -/
theorem stolonRowsComplete : Obligations.StolonRowsComplete := by
  unfold Obligations.StolonRowsComplete
  intro s S
  refine ⟨fun b w rest h => ?_, fun hi => ⟨fun ht hl hd => ⟨fun hmove hlift => ?_, fun x hmove hch hq hnew hz hc hok => ?_⟩,
    fun hn hl k hk hb hw => ?_, fun b hb hp hc => ⟨fun keys hk => ?_, fun m table shard first n T hk hm hT hn => ?_⟩,
    fun b hb hr => ?_⟩⟩
  · obtain ⟨c, e⟩ := exec_eviction_spec h
    exact ⟨_, e, rfl, rfl, rfl, rfl, rfl⟩
  · refine ⟨_, exec_stolonDecision hi ht hl hd, ?_⟩
    rw [moveDecision_off (by rw [liftDecision_evicts hlift]; exact hmove), liftDecision_evicts hlift]
  · refine ⟨_, exec_stolonDecision hi ht hl hd, ?_⟩
    rw [liftDecision_idle hz, moveDecision_single hmove hch hq hnew hc hok, acceptChange, jAdd_frame]
    refine ⟨?_, rfl, rfl, rfl⟩
    simp [hch]
  · obtain ⟨e, h⟩ := exec_moveBatchStart hi hn hl hk hb hw
    have hstolon := (congrArg State.stolon h.rest :)
    refine ⟨_, e, (congrArg State.mem h.rest :), (congrArg State.cfg h.rest :), (congrArg State.cmds h.rest :),
      (congrArg State.sys h.rest :), fun hshard => ?_, fun keys hkeys => ?_⟩
    · rw [hstolon]
      cases k with
      | shard => simp [batchStarted, S]
      | lift => cases hshard
    · rw [hstolon, hkeys]
      rfl
  · obtain ⟨t, e, ht⟩ := exec_moveBatchAck hi hb hc
    exact ⟨t, e, ht.trans (ackBatch_of_lift hb hp hk)⟩
  · obtain ⟨t, e, ht⟩ := exec_moveBatchAck hi hb hc
    exact ⟨t, e, ht.trans (ackBatch_of_shard hb hp hk hm hT hn)⟩
  · obtain ⟨t, e, hmem, hcmds, hsys, hst⟩ := exec_moveBatchTimeout hi hb hr
    refine ⟨t, e, hmem, hcmds, hsys, fun hshard => ?_, fun keys hkeys => ?_⟩
    · rw [hst, dropBatch_of_shard hb hshard]
    · rw [hst, dropBatch_of_lift hb hkeys]

end Sys2Proof.Machine
end

section
/-!
PROOFS. Mailboxes: what a GO starts, and what each operation of Table 22-5 answers.
-/
namespace Sys2Proof.Machine

/-! ### A GO that is taken -/

/-- The mailbox that a GO starts. -/
theorem mbxOf_goStarted (op n f : Nat) (s : State) : mbxOf (goStarted op n f s) f =
    { mbxOf s f with op := BitVec.ofNat 16 op, len := BitVec.ofNat 16 n, st := .busy, opseq := (mbxOf s f).opseq + 1,
                     result := none, want := none, input := [], bulk := [] } :=
  congrArg Func.mbx vat_onFunc

/-- A GO that is taken starts its operation (R824). -/
theorem mbxGo_of_taken {op n f : Nat} {s : State} (h : goTaken s f) : mbxGo op n f s = startOp f (goStarted op n f s) := by
  obtain ⟨hl, hen, hr, hst⟩ := h
  rw [mbxGo, if_neg (by simp [hl, hen]), if_neg (by simp [hr, hst])]
  rfl

/-- The rows of Table 22-5 are GOs. -/
theorem exec_goRow {c : Instr} {op n f : Nat} {s : State} (hc : goRow c = some (op, f, n)) (h : goTaken s f) :
    exec c s = .next (startOp f (goStarted op n f s)) := by
  rw [← mbxGo_of_taken h]
  unfold goRow at hc
  split at hc
  case h_33 => cases hc
  case h_32 g o m =>
    split at hc
    · next ho =>
      obtain ⟨rfl, rfl, rfl⟩ : o.toNat = op ∧ g.val = f ∧ m.val = n := by simpa using hc
      change execBadOp g o m s = _
      rw [execBadOp, if_pos ho]
    · cases hc
  all_goals
    obtain ⟨rfl, rfl, rfl⟩ : _ ∧ _ ∧ _ := by simpa using hc
    rfl

/-- OP and LEN of a row fit their registers. -/
theorem goRow_bounds {c : Instr} {op n f : Nat} (hc : goRow c = some (op, f, n)) : op < 65536 ∧ n < 4096 ∧ f < 64 := by
  unfold goRow at hc
  split at hc
  case h_33 => cases hc
  case h_32 g o m =>
    split at hc
    · obtain ⟨rfl, rfl, rfl⟩ : o.toNat = op ∧ g.val = f ∧ m.val = n := by simpa using hc
      exact ⟨o.isLt, m.isLt, g.isLt⟩
    · cases hc
  all_goals
    rename_i g m
    obtain ⟨rfl, rfl, rfl⟩ : _ ∧ g.val = f ∧ m.val = n := by simpa using hc
    exact ⟨by decide, m.isLt, g.isLt⟩

/-- BUSY, the operation and its length, as a GO leaves them. -/
structure GoneTo (op n f : Nat) (s t : State) : Prop where
  st : (mbxOf t f).st = .busy
  op : (mbxOf t f).op.toNat = op
  len : (mbxOf t f).len.toNat = n
  opseq : (mbxOf t f).opseq = (mbxOf s f).opseq + 1
  data : (mbxOf t f).data = (mbxOf s f).data

section
variable {c : Instr} {op n f : Nat} {s : State}

theorem goStarted_op (h : op < 65536) : (mbxOf (goStarted op n f s) f).op.toNat = op := by
  rw [mbxOf_goStarted]
  exact Nat.mod_eq_of_lt h

theorem goStarted_input (h : n < 4096) : mbxInput (mbxOf (goStarted op n f s) f) = fitTo (mbxOf s f).data n := by
  rw [mbxOf_goStarted]
  exact congrArg _ (Nat.mod_eq_of_lt (by omega))

/-- An answer whose output fits is the answer given (log 41). -/
theorem reply_goStarted {r : Reply} (h : r.bulk = [] ∨ bulkFits (mbxOf s f) r.bulk) :
    reply f r (goStarted op n f s) = goAnswered op n f r s := by
  rw [reply, if_neg]
  · rfl
  · rw [mbxOf_goStarted]
    rcases h with h | ⟨h1, h2⟩
    · simp [h]
    · simp [h1, h2]

theorem reply_bare (k : Nat) : reply f (bare k) (goStarted op n f s) = goAnswered op n f (bare k) s := reply_goStarted (.inl rfl)

/-- A GO with a right, in a state that serves it, runs (R828, R830, Table 22-4). -/
theorem startOp_runs (hop : op < 65536) (hh : s.sys.state ≠ .halt) (hi : inService s = true ∨ earlyOp op = true)
    (hk : inlineLen op ≠ none) (hr : stewardOnly op = true → f = 0) (hl : lenFits (mbxOf (goStarted op n f s) f) = true) :
    startOp f (goStarted op n f s) = runOp f (goStarted op n f s) := by
  have hserves : (!inService (goStarted op n f s) && !earlyOp op) = false := by
    change (!inService s && !earlyOp op) = false
    rcases hi with hi | hi <;> simp [hi]
  unfold startOp
  simp only [goStarted_op hop]
  rw [if_neg (by change ¬ (s.sys.state == .halt) = true; simpa using hh), if_neg (by simp [hserves]), if_neg (by simpa using hk), if_neg (by simpa using hr), if_neg (by simp [hl])]

theorem running_ne_halt (h : inService s = true) : s.sys.state ≠ .halt := by
  intro hh
  simp [inService, running, hh] at h

/-! ### Operations that answer at once -/

/-- The operations whose answer `quickOp` gives. -/
def isQuick (op : Nat) : Bool :=
  !isChangeOp op && op != 0x23 && op != 0x30 && op != 0x70 && op != 0x10

/-- The length that an operation other than a registration asks for fits it. -/
theorem lenFits_of_inlineLen (hop : op < 65536) (hn : n < 4096) (h10 : op ≠ 0x10) (h : inlineLen op = some n) :
    lenFits (mbxOf (goStarted op n f s) f) = true := by
  rw [lenFits, goStarted_op hop, if_neg h10, h, mbxOf_goStarted]
  exact beq_iff_eq.2 (congrArg some (Nat.mod_eq_of_lt (by omega)).symm)

theorem inputLen_of_quick (hop : op < 65536) (hq : isQuick op = true) : inputLen (mbxOf (goStarted op n f s) f) = some 0 := by
  have h : op ≠ 0x10 ∧ op ≠ 0x20 ∧ op ≠ 0x30 := by
    simp only [isQuick, isChangeOp] at hq
    simp at hq
    omega
  unfold inputLen
  simp only [goStarted_op hop]
  split
  · omega
  · omega
  · omega
  · rfl

/-- A quick operation answers what `quickOp` says. -/
theorem exec_quick (hc : goRow c = some (op, f, n)) (ht : goTaken s f) (hi : inService s = true) (hq : isQuick op = true)
    (hl : inlineLen op = some n) (hr : stewardOnly op = true → f = 0) :
    let r := quickOp f op (fitTo (mbxOf s f).data n) (mbxOf s f).xlen.toNat (goStarted op n f s)
    exec c s = .next (reply f r.1 r.2) := by
  intro r
  obtain ⟨hop, hn, -⟩ := goRow_bounds hc
  have hq' := hq
  simp only [isQuick, Bool.and_eq_true, Bool.not_eq_true', bne_iff_ne] at hq'
  obtain ⟨⟨⟨⟨hch, h23⟩, h30⟩, h70⟩, h10⟩ := hq'
  rw [exec_goRow hc ht, startOp_runs hop (running_ne_halt hi) (.inl hi) (by rw [hl]; simp) hr (lenFits_of_inlineLen hop hn h10 hl)]
  unfold runOp
  simp only [goStarted_op hop, inputLen_of_quick hop hq, goStarted_input hn]
  rw [if_neg (by simp), if_neg (by simp [hch]), if_neg h23, if_neg h30, if_neg h70]
  simp only [mbxOf_goStarted]
  rfl

/-- One that changes nothing answers. -/
theorem exec_quick_answers (hc : goRow c = some (op, f, n)) (ht : goTaken s f) (hi : inService s = true) (hq : isQuick op = true)
    (hl : inlineLen op = some n) (hr : stewardOnly op = true → f = 0) {r : Reply}
    (h : quickOp f op (fitTo (mbxOf s f).data n) (mbxOf s f).xlen.toNat (goStarted op n f s) = (r, goStarted op n f s))
    (hb : r.bulk = [] ∨ bulkFits (mbxOf s f) r.bulk) : exec c s = .next (goAnswered op n f r s) := by
  rw [exec_quick hc ht hi hq hl hr, h]
  exact congrArg _ (reply_goStarted hb)

end

/-! ### What the reading operations answer -/

theorem opTableQuery_denied {a : Asker} {inp : List Byte} {room : Nat} {s : State} {t : TableDecl}
    (ht : tableOf s.cfg.cur (numAt inp 0 2) = some t) (h : mayRead t a.func = false) : opTableQuery a inp room s = bare mbDenied := by
  simp [opTableQuery, ht, h]

theorem opTableQuery_table {a : Asker} {inp : List Byte} {room : Nat} {s : State} {t : TableDecl}
    (ht : tableOf s.cfg.cur (numAt inp 0 2) = some t) (h : mayRead t a.func = true) : opTableQuery a inp room s =
      { okWith (tableBytes t) with bulk := if 4 * t.shards.length ≤ room then (t.shards.map shardBytes).flatten else [] } := by
  simp [opTableQuery, ht, h]

theorem opTableQuery_kv {a : Asker} {inp : List Byte} {room : Nat} {s : State} {k : KvDecl}
    (ht : tableOf s.cfg.cur (numAt inp 0 2) = none) (hk : s.cfg.cur.kvs.find? (·.id == numAt inp 0 2) = some k) :
    opTableQuery a inp room s = if mayReadKv k a.func then okWith (kvBytes k) else bare mbDenied := by
  simp [opTableQuery, ht, hk]

theorem opTableQuery_absent {a : Asker} {inp : List Byte} {room : Nat} {s : State}
    (ht : tableOf s.cfg.cur (numAt inp 0 2) = none) (hk : ∀ k ∈ s.cfg.cur.kvs, k.id ≠ numAt inp 0 2) :
    opTableQuery a inp room s = bare mbRejected := by
  have hnone : s.cfg.cur.kvs.find? (·.id == numAt inp 0 2) = none := by simpa [List.find?_eq_none] using hk
  simp [opTableQuery, ht, hnone]

theorem flatten_shardBytes_length (l : List Shard) : (l.map shardBytes).flatten.length = 4 * l.length := by
  have h (sh : Shard) : (shardBytes sh).length = 4 := rfl
  induction l with
  | nil => rfl
  | cons sh l ih => rw [List.map_cons, List.flatten_cons, List.length_append, ih, h, List.length_cons]; omega

theorem opDumpRead_held {inp b : List Byte} {s : State} (h : s.cnt.dumps[numAt inp 0 1]? = some b) :
    opDumpRead inp s = { okWith [] with bulk := b } := by
  simp [opDumpRead, h]

theorem opDumpRead_absent {inp : List Byte} {s : State} (h : s.cnt.dumps[numAt inp 0 1]? = none) : opDumpRead inp s = bare mbAbsent := by
  simp [opDumpRead, h]

theorem opSummaryRead_held {inp : List Byte} {l : List (List Byte)} {s : State} (h : summariesOf s (numAt inp 0 8) = some l) :
    opSummaryRead inp s = { okWith [] with bulk := l.flatten } := by
  simp [opSummaryRead, h]

theorem opSummaryRead_absent {inp : List Byte} {s : State} (h : summariesOf s (numAt inp 0 8) = none) :
    opSummaryRead inp s = bare mbAbsent := by
  simp [opSummaryRead, h]

theorem opEpochRead_absent {inp : List Byte} {s : State} (h : ∀ r ∈ journaledRecords s, r.1 ≠ numAt inp 0 8) :
    opEpochRead inp s = bare mbAbsent := by
  rw [opEpochRead, if_pos]
  simpa using fun a b hb _ _ => h (a, b) hb

theorem opEpochRead_single {inp b : List Byte} {s : State} (h : journaledRecords s = [(numAt inp 0 8, b)]) (hn : 0 < numAt inp 8 4) :
    opEpochRead inp s = { okWith (leBytes 4 1) with bulk := b } := by
  simp [opEpochRead, h, hn]

theorem opEventFetch_none {inp : List Byte} {s : State} (h : numberedEvents s = []) : opEventFetch inp s = okWith (leBytes 4 0) := by
  rw [opEventFetch, h]
  rfl

theorem opEventFetch_single {inp : List Byte} {s : State} {e : Event} (h : numberedEvents s = [(numAt inp 0 8, e)])
    (hn : 0 < numAt inp 8 4) : opEventFetch inp s = { okWith (leBytes 4 1) with bulk := eventBytes e } := by
  simp [opEventFetch, h, hn]

theorem opReportRead_absent {a : Asker} {inp : List Byte} {s : State} (h : ∀ r ∈ s.recov.reports, r.1 ≠ numAt inp 0 4) :
    opReportRead a inp s = bare mbAbsent := by
  have hnone : s.recov.reports.find? (·.1 == numAt inp 0 4) = none := by simpa [List.find?_eq_none] using fun a b hb => h (a, b) hb
  rw [opReportRead, hnone]

theorem opReportRead_found {a : Asker} {inp b : List Byte} {n : Nat} {s : State}
    (h : s.recov.reports.find? (·.1 == numAt inp 0 4) = some (n, b)) :
    opReportRead a inp s = { okWith [] with bulk := if a.func = 0 then b else reportFor a.func b } := by
  rw [opReportRead, h]

theorem opCrashRead_named {a : Asker} {inp : List Byte} {k : Nat} {s : State} (h : coreNamed inp = some k) :
    opCrashRead a inp s = if a.func = 0 ∨ numAt (crashRecord s k) 4 1 = a.func then okWith (crashRecord s k) else bare mbDenied := by
  simp [opCrashRead, h, crashOwner]

theorem opCrashRead_unnamed {a : Asker} {inp : List Byte} {s : State} (h : coreNamed inp = none) :
    opCrashRead a inp s = invalid ckRange := by
  rw [opCrashRead, h]

theorem proofBundle_absent {n g : Nat} {s : State} (h : ∀ r ∈ s.led.retained, r.1 ≠ n) : proofBundle s n g = bare mbAbsent := by
  have hnone : s.led.retained.find? (·.1 == n) = none := by simpa [List.find?_eq_none] using fun a b c hb => h (a, b, c) hb
  rw [proofBundle, hnone]

theorem proofBundle_found {n m g : Nat} {sums : List (List Byte)} {r : List Byte} {s : State}
    (h : s.led.retained.find? (·.1 == n) = some (m, sums, r)) :
    proofBundle s n g = if r = [] then bare mbAbsent else okWith (r ++ nth sums g [] ++ zeros 16 ++ auditPath sums g) := by
  rw [proofBundle, h]
  simp

/-- PROOF_READ of a right that holds goes to its proof (R703, R712). -/
theorem exec_proofRead {f : Fin 64} {s : State} (ht : goTaken s f.val) (hi : inService s = true) :
    exec (.proofRead f 16) s = .next (startProof f.val (fitTo (mbxOf s f.val).data 16) (goStarted 0x70 16 f.val s)) := by
  have hop : 0x70 < 65536 := by decide
  have hlen : inputLen (mbxOf (goStarted 0x70 16 f.val s) f.val) = some 0 := by
    rw [inputLen, goStarted_op hop]
    rfl
  rw [exec_goRow (op := 0x70) (n := 16) (f := f.val) rfl ht, startOp_runs hop (running_ne_halt hi) (.inl hi) (by decide)
    (fun h => absurd h (by decide)) (lenFits_of_inlineLen hop (by decide) (by decide) rfl)]
  unfold runOp
  simp only [goStarted_op hop, hlen, goStarted_input (show 16 < 4096 by decide)]
  rfl

/-- Settles O30: each reading operation answers what the device holds, which a GO leaves as it was. -/
theorem mailboxReadsAnswer : Obligations.MailboxReadsAnswer := by
  unfold Obligations.MailboxReadsAnswer
  intro s f ht hi M d gives
  have quick {c : Instr} {op n : Nat} {r : Reply} (hc : goRow c = some (op, f.val, n)) (hq : isQuick op = true)
      (hl : inlineLen op = some n) (hr : stewardOnly op = true → f.val = 0)
      (h : quickOp f op (d n) M.xlen.toNat (goStarted op n f s) = (r, goStarted op n f s))
      (hb : r.bulk = [] ∨ bulkFits M r.bulk) : gives c op n r := exec_quick_answers hc ht hi hq hl hr h hb
  have open_ {op : Nat} (h : stewardOnly op = false) : stewardOnly op = true → f.val = 0 := fun h1 => by rw [h] at h1; cases h1
  have same {op n : Nat} {r r' : Reply} (h : r' = r) : (r', goStarted op n f s) = (r, goStarted op n f s) := by rw [h]
  have proof (h0 : f.val = 0 ∨ numAt (d 16) 8 1 = f.val) (hle : numAt (d 16) 8 1 ≤ 63)
      (hp : epochPending s (numAt (d 16) 0 8) = false) :
      exec (.proofRead f 16) s = .next (reply f (proofBundle s (numAt (d 16) 0 8) (numAt (d 16) 8 1)) (goStarted 0x70 16 f s)) := by
    have hnot : ¬ (f.val ≠ 0 ∧ numAt (d 16) 8 1 ≠ f.val) := by tauto
    have hnp : ¬ epochPending (goStarted 0x70 16 f s) (numAt (d 16) 0 8) = true := by
      change ¬ epochPending s (numAt (d 16) 0 8) = true
      simp [hp]
    rw [exec_proofRead ht hi, startProof, if_neg hnot, if_neg (Nat.not_lt.2 hle), if_neg hnp]
    rfl
  refine ⟨?_, ?_, ?_, ?_, fun t hT => ⟨fun hd => ?_, fun hr hroom => ?_, fun hr hroom hx => ?_⟩,
    fun hT => ⟨fun k hk => ?_, fun hk => ?_⟩, fun h0 => ⟨fun b hb hfit => ?_, fun hb => ?_⟩, fun h0 => ⟨fun l hb hfit => ?_, fun hb => ?_⟩,
    fun h0 => ⟨fun hb => ?_, fun b hb hpos hfit => ?_⟩, fun h0 => ⟨fun hb => ?_, fun e hb hpos hfit => ?_⟩,
    fun hb => ?_, fun b hb hfit => ?_, fun k hk => ?_, fun hk => ?_, fun h0 hg => ?_, fun h0 hle => ⟨fun hp => ?_, fun hp => ⟨fun hb => ?_, fun sums r hb => ?_⟩⟩⟩
  · exact quick rfl rfl rfl (open_ rfl) rfl (.inl rfl)
  · exact quick rfl rfl rfl (open_ rfl) rfl (.inl rfl)
  · exact quick rfl rfl rfl (open_ rfl) rfl (.inl rfl)
  · exact quick rfl rfl rfl (open_ rfl) rfl (.inl rfl)
  · exact quick rfl rfl rfl (open_ rfl) (same (opTableQuery_denied hT hd)) (.inl rfl)
  · refine quick rfl rfl rfl (open_ rfl) (same ((opTableQuery_table hT hr).trans ?_)) (.inl rfl)
    rw [if_neg (by omega)]
    rfl
  · refine quick rfl rfl rfl (open_ rfl) (same ((opTableQuery_table hT hr).trans ?_)) (.inr ⟨?_, hx⟩)
    · rw [if_pos hroom]
      rfl
    · exact (flatten_shardBytes_length _).trans_le hroom
  · refine quick rfl rfl rfl (open_ rfl) (same (opTableQuery_kv hT hk)) (.inl ?_)
    split <;> rfl
  · exact quick rfl rfl rfl (open_ rfl) (same (opTableQuery_absent hT hk)) (.inl rfl)
  · exact quick rfl rfl rfl (fun _ => h0) (same (opDumpRead_held hb)) (.inr hfit)
  · exact quick rfl rfl rfl (fun _ => h0) (same (opDumpRead_absent hb)) (.inl rfl)
  · exact quick rfl rfl rfl (fun _ => h0) (same (opSummaryRead_held hb)) (.inr hfit)
  · exact quick rfl rfl rfl (fun _ => h0) (same (opSummaryRead_absent hb)) (.inl rfl)
  · exact quick rfl rfl rfl (fun _ => h0) (same (opEpochRead_absent hb)) (.inl rfl)
  · exact quick rfl rfl rfl (fun _ => h0) (same (opEpochRead_single hb hpos)) (.inr hfit)
  · exact quick rfl rfl rfl (fun _ => h0) (same (opEventFetch_none hb)) (.inl rfl)
  · exact quick rfl rfl rfl (fun _ => h0) (same (opEventFetch_single hb hpos)) (.inr hfit)
  · exact quick rfl rfl rfl (open_ rfl) (same (opReportRead_absent hb)) (.inl rfl)
  · exact quick rfl rfl rfl (open_ rfl) (same (opReportRead_found hb)) (.inr hfit)
  · refine quick rfl rfl rfl (open_ rfl) (same (opCrashRead_named (a := ⟨f, f⟩) hk)) (.inl ?_)
    split <;> rfl
  · exact quick rfl rfl rfl (open_ rfl) (same (opCrashRead_unnamed hk)) (.inl rfl)
  · change exec _ s = _
    rw [exec_proofRead ht hi, startProof, if_pos ⟨h0, hg⟩, reply_bare]
    rfl
  · have hnot : ¬ (f.val ≠ 0 ∧ numAt (d 16) 8 1 ≠ f.val) := by tauto
    rw [exec_proofRead ht hi, startProof, if_neg hnot, if_neg (Nat.not_lt.2 hle), if_pos (show epochPending (goStarted 0x70 16 f s) (numAt (d 16) 0 8) = true from hp)]
  · exact (proof h0 hle hp).trans (congrArg _ ((congrArg (reply f · _) (proofBundle_absent hb)).trans (reply_bare _)))
  · refine (proof h0 hle hp).trans (congrArg _ ((congrArg (reply f · _) (proofBundle_found hb)).trans (reply_goStarted (.inl ?_))))
    split <;> rfl

end Sys2Proof.Machine
end

section
/-!
PROOFS. Mailboxes: the operations that change the configuration, and the registration of rings.
-/
namespace Sys2Proof.Machine

/-! ### A mailbox changed -/

/-- A mailbox is no other part of its function's registers. -/
theorem vat_onMbx (f : Nat) (g : Mailbox → Mailbox) (s : State) (j : Nat) :
    ∃ M, vat (onMbx f g s).funcs j = { vat s.funcs j with mbx := M } := by
  rw [onMbx, vat_onFunc_cases]
  split <;> exact ⟨_, rfl⟩

theorem ringOk_onMbx {f : Nat} {g : Mailbox → Mailbox} {s : State} {j op : Nat} {d : RingDesc} :
    ringOk (onMbx f g s) j op d = ringOk s j op d := by
  obtain ⟨M, e⟩ := vat_onMbx f g s j
  rw [ringOk, ringOk, e]

theorem attrOf_onMbx {f : Nat} {g : Mailbox → Mailbox} {s : State} {j : Nat} {ro : Bool} :
    attrOf (onMbx f g s) j ro = attrOf s j ro := by
  obtain ⟨M, e⟩ := vat_onMbx f g s j
  simp only [attrOf, e]
  rfl

section
variable {c : Instr} {op n f m : Nat} {s : State}

/-- The operation of a change, its right and its length hold (R828, R830). -/
structure ChangeRuns (c : Instr) (op n f : Nat) (s : State) : Prop where
  row : goRow c = some (op, f, n)
  taken : goTaken s f
  serves : inService s = true
  change : isChangeOp op = true
  listed : inlineLen op ≠ none
  right : stewardOnly op = true → f = 0
  fits : lenFits (mbxOf (goStarted op n f s) f) = true
  owns : ownsChange (goStarted op n f s) f (mbxOf (goStarted op n f s) f) = true
  alone : s.mg.changeQueue = []

/-- The state in which the change stands alone in its order (R831). -/
def queuedChange (op n f : Nat) (s : State) : State :=
  { goStarted op n f s with mg := { s.mg with changeQueue := [.mailbox f] } }

theorem ChangeRuns.runOp (h : ChangeRuns c op n f s) (hm : inputLen (mbxOf (goStarted op n f s) f) = some m)
    (ha : m ≠ 0 → (mbxOf s f).xaddr.toNat % 64 = 0) : exec c s = .next (pump (askInput f m (queuedChange op n f s))) := by
  obtain ⟨hop, hn, -⟩ := goRow_bounds h.row
  rw [exec_goRow h.row h.taken, startOp_runs hop (running_ne_halt h.serves) (.inl h.serves) h.listed h.right h.fits]
  have halign : ¬ (m ≠ 0 ∧ (mbxOf (goStarted op n f s) f).xaddr.toNat % 64 ≠ 0) := by
    rw [mbxOf_goStarted]
    exact fun hx => hx.2 (ha hx.1)
  unfold Machine.runOp
  simp only [hm, goStarted_op hop]
  rw [if_neg halign, if_pos h.change, if_neg (by simp [h.owns])]
  have hq : (goStarted op n f s).mg.changeQueue = [] := h.alone
  rw [hq]
  rfl

theorem pump_queuedChange (h : s.mg.changeQueue = []) :
    pump (queuedChange op n f s) = validateChange f none (goStarted op n f s) := by
  have hw : (mbxOf (queuedChange op n f s) f).want = none := congrArg Mailbox.want (mbxOf_goStarted op n f s)
  have hback : { queuedChange op n f s with mg := { (queuedChange op n f s).mg with changeQueue := [] } } = goStarted op n f s := by
    rw [← h]
    rfl
  have hone : pump (queuedChange op n f s) = if (mbxOf (queuedChange op n f s) f).want.isSome then queuedChange op n f s
      else validateChange f none
        { queuedChange op n f s with mg := { (queuedChange op n f s).mg with changeQueue := [] } } := rfl
  rw [hone, hw, hback]
  rfl

/-- With nothing to read the change is judged at once (R831). -/
theorem ChangeRuns.judged (h : ChangeRuns c op n f s) (hm : inputLen (mbxOf (goStarted op n f s) f) = some 0) :
    exec c s = .next (validateChange f none (goStarted op n f s)) := by
  rw [h.runOp hm fun h0 => absurd rfl h0]
  exact congrArg _ (pump_queuedChange h.alone)

theorem ChangeRuns.busy (h : ChangeRuns c op n f s) (hm : inputLen (mbxOf (goStarted op n f s) f) = some 0)
    (hj : journalBusy s = true) : exec c s = .next (goAnswered op n f (bare mbJournalBusy) s) := by
  have hj' : journalBusy (goStarted op n f s) = true := hj
  rw [h.judged hm, validateChange, Option.getD_none, judgeChange, if_neg (by simp [h.owns]), if_pos hj']
  exact congrArg _ (reply_bare _)

theorem ChangeRuns.unreadable (h : ChangeRuns c op n f s) (hm : inputLen (mbxOf (goStarted op n f s) f) = some 0)
    (hj : journalBusy s = false) {e : Nat} (hc : changeOf (goStarted op n f s) (mbxOf (goStarted op n f s) f) = .error e) :
    exec c s = .next (goAnswered op n f (invalid e) s) := by
  have hj' : journalBusy (goStarted op n f s) = false := hj
  rw [h.judged hm, validateChange, Option.getD_none, judgeChange, if_neg (by simp [h.owns]), if_neg (by simp [hj']), hc]
  exact congrArg _ (reply_goStarted (r := Machine.invalid _) (.inl rfl))

theorem ChangeRuns.invalid (h : ChangeRuns c op n f s) (hm : inputLen (mbxOf (goStarted op n f s) f) = some 0)
    (hj : journalBusy s = false) {k : ChangeKind} (hc : changeOf (goStarted op n f s) (mbxOf (goStarted op n f s) f) = .ok k)
    (hk : checkChange (goStarted op n f s) (projected (goStarted op n f s)) (tenantOf (some f)) k ≠ 0) :
    exec c s = .next (goAnswered op n f
      (Machine.invalid (checkChange (goStarted op n f s) (projected (goStarted op n f s)) (tenantOf (some f)) k)) s) := by
  have hj' : journalBusy (goStarted op n f s) = false := hj
  rw [h.judged hm, validateChange, Option.getD_none, judgeChange, if_neg (by simp [h.owns]), if_neg (by simp [hj']), hc]
  dsimp only
  rw [if_neg hk]
  exact congrArg _ (reply_goStarted (r := Machine.invalid _) (.inl rfl))

theorem ChangeRuns.accepted (h : ChangeRuns c op n f s) (hm : inputLen (mbxOf (goStarted op n f s) f) = some 0)
    (hj : journalBusy s = false) {k : ChangeKind} (hc : changeOf (goStarted op n f s) (mbxOf (goStarted op n f s) f) = .ok k)
    (hk : checkChange (goStarted op n f s) (projected (goStarted op n f s)) (tenantOf (some f)) k = 0) :
    exec c s = .next (acceptChange k (some f) (goStarted op n f s)) := by
  have hj' : journalBusy (goStarted op n f s) = false := hj
  rw [h.judged hm, validateChange, Option.getD_none, judgeChange, if_neg (by simp [h.owns]), if_neg (by simp [hj']), hc]
  dsimp only
  rw [if_pos hk]
  rfl

/-- A change with data at MBX_XADDR asks the host for it and waits (R829). -/
theorem ChangeRuns.asks (h : ChangeRuns c op n f s) (hm : inputLen (mbxOf (goStarted op n f s) f) = some m) (h0 : m ≠ 0)
    (ha : (mbxOf s f).xaddr.toNat % 64 = 0) : ∃ t, exec c s = .next t ∧
      .hostRead ⟨f, (mbxOf s f).xaddr.toNat, m, false⟩ (attrOf s f false) ∈ t.out ∧ (mbxOf t f).st = .busy ∧
      (mbxOf t f).result = none ∧ t.mg.changeQueue = [.mailbox f] ∧ t.cfg = s.cfg := by
  have hst := mbxOf_goStarted op n f s
  have hx : (mbxOf (queuedChange op n f s) f).xaddr = (mbxOf s f).xaddr := (congrArg Mailbox.xaddr hst :)
  have hask : askInput f m (queuedChange op n f s) = hostAsk ⟨f, (mbxOf s f).xaddr.toNat, m, false⟩
      (onMbx f (fun M => { M with want := some ⟨f, (mbxOf s f).xaddr.toNat, m, false⟩ }) (queuedChange op n f s)) := by
    rw [askInput, if_neg h0, hx]
  have hmbx : mbxOf (askInput f m (queuedChange op n f s)) f =
      { mbxOf (goStarted op n f s) f with want := some ⟨f, (mbxOf s f).xaddr.toNat, m, false⟩ } := by
    rw [hask]
    exact (congrArg Func.mbx vat_onFunc :)
  have hwaits : pump (askInput f m (queuedChange op n f s)) = askInput f m (queuedChange op n f s) := by
    have hone : pump (askInput f m (queuedChange op n f s)) =
        if (mbxOf (askInput f m (queuedChange op n f s)) f).want.isSome then askInput f m (queuedChange op n f s)
        else validateChange f none { askInput f m (queuedChange op n f s) with mg := { (queuedChange op n f s).mg with changeQueue := [] } } := by
      rw [hask]
      rfl
    rw [hone, hmbx]
    rfl
  refine ⟨_, (h.runOp hm fun _ => ha).trans (congrArg _ hwaits), ?_, ?_, ?_, ?_, ?_⟩
  · rw [hask]
    have ea : attrOf (onMbx f (fun M => { M with want := some ⟨f, (mbxOf s f).xaddr.toNat, m, false⟩ }) (queuedChange op n f s)) f false =
        attrOf s f false := by
      have e0 : attrOf (goStarted op n f s) f false = attrOf s f false := attrOf_onMbx
      exact attrOf_onMbx.trans e0
    exact List.mem_cons.2 (.inl (by rw [← ea]))
  · rw [hmbx, hst]
  · rw [hmbx, hst]
  · rw [hask]
    rfl
  · rw [hask]
    rfl

end

/-- A ring's descriptor is accepted by its rules (R845). -/
theorem exec_ring {c : Instr} {op : Nat} {f : Nat} {s : State} (hc : goRow c = some (op, f, 16)) (ht : goTaken s f)
    (hi : inService s = true) (hlo : 0x60 ≤ op) (hhi : op ≤ 0x63) (hr : op ≠ 0x63 → f = 0) :
    exec c s = .next (goAnswered op 16 f (if ringOk s f op (ringDesc (fitTo (mbxOf s f).data 16)) then bare mbOk else invalid ckRange) s) := by
  obtain rfl | rfl | rfl | rfl : op = 0x60 ∨ op = 0x61 ∨ op = 0x62 ∨ op = 0x63 := by omega
  all_goals
    refine exec_quick_answers hc ht hi rfl rfl (fun h => ?_) (congrArg (·, goStarted _ 16 f s) ?_) (.inl (by split <;> rfl))
    rotate_left
    · exact congrArg (fun b : Bool => if b then bare mbOk else invalid ckRange) ringOk_onMbx
  · exact hr (by decide)
  · exact hr (by decide)
  · exact hr (by decide)
  · cases h

/-- A code that Table 22-5 does not list (R830). -/
theorem exec_unlisted {c : Instr} {op n f : Nat} {s : State} (hc : goRow c = some (op, f, n)) (ht : goTaken s f)
    (hi : inService s = true) (hl : inlineLen op = none) : exec c s = .next (goAnswered op n f (bare mbBadOp) s) := by
  obtain ⟨hop, -, -⟩ := goRow_bounds hc
  have hi' : inService (goStarted op n f s) = true := hi
  rw [exec_goRow hc ht]
  unfold startOp
  simp only [goStarted_op hop]
  rw [if_neg (by simpa using running_ne_halt hi'), if_neg (by simp [hi']), if_pos (by simp [hl]), reply_bare]

/-- Settles O60: a change with its right and its length is judged at once or asks for its data; a ring's descriptor is judged. -/
theorem mailboxChangesAndRingsComplete : Obligations.MailboxChangesAndRingsComplete := by
  unfold Obligations.MailboxChangesAndRingsComplete
  intro s f n ht hi s0 may accepts asksFor ring
  have runs {c : Instr} {op : Nat} (hc : goRow c = some (op, f.val, n.val)) (hch : isChangeOp op = true)
      (hl : (inlineLen op).isSome = true) (hmay : may op) : ChangeRuns c op n f s := by
    obtain ⟨hr, hfit, hown, hq⟩ := hmay
    exact ⟨hc, ht, hi, hch, by rw [← Option.isSome_iff_ne_none]; exact hl, hr, hfit, hown, hq⟩
  have accept {c : Instr} {op : Nat} (hc : goRow c = some (op, f.val, n.val)) (hch : isChangeOp op = true)
      (hl : (inlineLen op).isSome = true) : accepts c op := fun hmay hm hj k hk hok =>
    (runs hc hch hl hmay).accepted hm hj hk hok
  have ask {c : Instr} {op : Nat} (hc : goRow c = some (op, f.val, n.val)) (hch : isChangeOp op = true)
      (hl : (inlineLen op).isSome = true) : asksFor c op := fun hmay m hm h0 ha => (runs hc hch hl hmay).asks hm h0 ha
  have rings {c : Instr} {op : Nat} (hc : goRow c = some (op, f.val, n.val)) (hlo : 0x60 ≤ op) (hhi : op ≤ 0x63) :
      ring c op := fun hn hr hok => by
    rw [exec_ring (hn ▸ hc) ht hi hlo hhi hr, if_pos hok]
    rfl
  refine ⟨accept rfl rfl rfl, ask rfl rfl rfl, accept rfl rfl rfl, accept rfl rfl rfl, accept rfl rfl rfl, accept rfl rfl rfl,
    accept rfl rfl rfl, accept rfl rfl rfl, ask rfl rfl rfl, accept rfl rfl rfl, accept rfl rfl rfl, rings rfl (by decide) (by decide),
    rings rfl (by decide) (by decide), rings rfl (by decide) (by decide), rings rfl (by decide) (by decide), fun op hop => ?_⟩
  exact exec_unlisted (by simp [goRow, hop]) ht hi hop

end Sys2Proof.Machine
end

section
/-!
PROOFS. The rows that ask their host for a list: the requests of `askHost`, and the KV commands that stay behind it in their order.
-/
namespace Sys2Proof.Machine

/-! ### What is asked of the host -/

theorem foldl_hostAsk_mem {r : HostRead} : ∀ {l : List HostRead} {s : State},
    r ∈ l ∨ .hostRead r (attrOf s r.func false) ∈ s.out →
      .hostRead r (attrOf s r.func false) ∈ (l.foldl (fun s w => hostAsk w s) s).out
  | [], _, h => h.resolve_left (List.not_mem_nil)
  | w :: l, s, h => by
    refine foldl_hostAsk_mem (l := l) (s := hostAsk w s) ?_
    rcases h with h | h
    · rcases List.mem_cons.1 h with rfl | h
      · exact .inr (List.mem_cons_self ..)
      · exact .inl h
    · exact .inr (List.mem_cons_of_mem _ h)

/-- Requests go out and are counted, and the command waits for them; nothing else changes. -/
theorem askHost_frame (u : Nat) (rs : List HostRead) (s : State) : ∃ c o, askHost u rs s =
    onCmd u (fun c => { c with wants := c.wants ++ rs, phase := .waitHost }) { s with cnt := c, out := o } ∧
      ∀ r ∈ rs, .hostRead r (attrOf s r.func false) ∈ o := by
  have hcount : ∃ c, (match cmdOf s u with
      | none => s
      | some c => tally (.bridge (bridgeOf c.func)) 0x310 (rs.filter (·.ats)).length (.cmd c.func c.cls) s) = { s with cnt := c } := by
    split
    · exact ⟨_, rfl⟩
    · exact ⟨_, rfl⟩
  obtain ⟨c, hc⟩ := hcount
  obtain ⟨o, ho⟩ := foldl_hostAsk rs { s with cnt := c }
  refine ⟨c, o, ?_, fun r hr => ?_⟩
  · rw [← ho, ← hc]
    rfl
  · have h := foldl_hostAsk_mem (s := { s with cnt := c }) (Or.inl hr)
    rw [ho] at h
    exact h

theorem askHost_asks {u : Nat} {rs : List HostRead} {s : State} {x : Cmd} (hx : x ∈ s.cmds) (hu : x.uid = u) :
    asks (askHost u rs s) u rs := by
  obtain ⟨c, o, e, ho⟩ := askHost_frame u rs s
  refine ⟨⟨{ x with wants := x.wants ++ rs, phase := .waitHost }, ?_, hu, rfl, fun r hr => List.mem_append_right _ hr⟩, fun r hr => ?_⟩
  · rw [e]
    exact List.mem_map.2 ⟨x, hx, by rw [if_pos (by simp [hu])]⟩
  · rw [e]
    exact ho r hr

/-! ### The order of the KV commands -/

theorem foldl_before_mem : ∀ (l : List Cmd) (m : Cmd), l.foldl (fun m x => if before x m then x else m) m ∈ m :: l
  | [], m => List.mem_cons_self ..
  | x :: l, m => by
    rcases List.mem_cons.1 (foldl_before_mem l (if before x m then x else m)) with h | h
    · rw [List.foldl_cons, h]
      split
      · exact List.mem_cons_of_mem _ (List.mem_cons_self ..)
      · exact List.mem_cons_self ..
    · exact List.mem_cons_of_mem _ (List.mem_cons_of_mem _ h)

theorem nextKv_mem {s : State} {id : Nat} {c : Cmd} (h : nextKv s id = some c) : c ∈ s.cmds ∧ kvWaits id c = true := by
  have hmem : c ∈ s.cmds.filter (kvWaits id) := by
    unfold nextKv at h
    split at h
    · cases h
    · next x xs hx =>
      rw [hx, ← Option.some.inj h]
      exact foldl_before_mem xs x
  exact List.mem_filter.1 hmem

/-- With no KV command past its checks that waits for its turn, none takes it (R348). -/
theorem pumpKv_idle {s : State} {id : Nat} (h : ∀ x ∈ s.cmds, kvWaits id x = true → x.checked = false) : ∀ n, pumpKv id n s = s
  | 0 => rfl
  | n + 1 => by
    unfold pumpKv
    split
    · rfl
    · next c hc =>
      obtain ⟨hm, hk⟩ := nextKv_mem hc
      rw [if_pos (by simp [h c hm hk])]

theorem pumpAllKv_idle {s : State} (h : ∀ id, ∀ x ∈ s.cmds, kvWaits id x = true → x.checked = false) : pumpAllKv s = s := by
  have hall (l : List KvTable) : l.foldl (fun s t => pumpTable t.id s) s = s := by
    induction l with
    | nil => rfl
    | cons t l ih => rw [List.foldl_cons, pumpTable, pumpKv_idle (h t.id), ih]
  exact hall s.kv

/-! ### The admitted command -/

section
variable {s : State} {q : Nat} {F : Fetched} {rest : List Fetched}

/-- Of the commands in flight after an admission, those that are not past their checks are the newest, and those of before. -/
theorem admitHead_unchecked (hF : (vat s.qs q).fetched = F :: rest) (h : ∀ x ∈ s.cmds, isKv x = false) :
    ∀ x ∈ (admitHead q s).cmds, isKv x = true → x.checked = false := by
  obtain ⟨s1, shared, pip, h1, h2⟩ := admitHead_eq hF
  intro x hx hk
  have hb : bareCmd x ∈ (admitHead q s).cmds.map bareCmd := List.mem_map_of_mem hx
  rw [h2.cmds.cmds] at hb
  obtain ⟨y, hy, hyx⟩ := List.mem_map.1 hb
  rcases List.mem_append.1 (show y ∈ s1.cmds ++ [newCmd s1 q F _ shared pip] from hy) with hy | hy
  · have hb1 : bareCmd y ∈ s1.cmds.map bareCmd := List.mem_map_of_mem hy
    rw [h1.cmds.cmds] at hb1
    obtain ⟨z, hz, hzy⟩ := List.mem_map.1 hb1
    have hbytes : z.bytes = x.bytes := (congrArg Cmd.bytes (hzy.trans hyx) :)
    have hzk := h z hz
    unfold isKv at hk hzk
    rw [hbytes, hk] at hzk
    cases hzk
  · rw [List.mem_singleton.1 hy] at hyx
    exact (congrArg Cmd.checked hyx :).symm

/-- A row whose start asks the host for `rs` does so for the command that it admits. -/
theorem admitRow_asks {i : Instr} {q : Fin 256} {f : Nat} {c : Cmd} {rs : List HostRead} (hF : (vat s.qs q).fetched = F :: rest)
    (hf : (vat s.qs q).func = some f) (hm : mayAdmit s (f / 32) = true) (hn : nextQueue s (f / 32) = some q.val)
    (hc : cmdOf (admitHead q s) s.nextUid = some c) (hop : opcodeOf c.bytes = opcodeOf F.bytes)
    (hknown : knownOpcode (opcodeOf F.bytes) = true) (hb : badChain c.bytes = false)
    (hi : admitRow i = some (q.val, opcodeOf F.bytes)) (hform : opcodeOf F.bytes = 0x40 → (copyForm F.bytes = 1 ↔ i = .tableLoad q))
    (hstart : startOf i s.nextUid (admitHead q s) = askHost s.nextUid rs (admitHead q s)) :
    ∃ t, exec i s = .next t ∧ asks t s.nextUid rs ∧ t.mem = s.mem ∧ t.nextUid = s.nextUid + 1 ∧ (vat t.qs q).fetched = rest := by
  obtain ⟨x, hx, hxu, -⟩ := admitHead_newest hF
  obtain ⟨⟨_, _, _, _, _, _, _, _, _, _, _, _, e⟩, hu, hq, -⟩ := admitHead_spec hF
  obtain ⟨_, _, eask, -⟩ := askHost_frame s.nextUid rs (admitHead q s)
  have hhead : headForm s q = copyForm F.bytes := by rw [headForm, hF]
  refine ⟨askHost s.nextUid rs (admitHead q s), ?_, askHost_asks hx hxu, ?_, ?_, ?_⟩
  · rw [exec_admitRow hi (by rw [hhead]; exact hform),
      admitCommand_eq (p := (· == opcodeOf F.bytes)) hF hf hm hn (beq_self_eq_true _) hc, if_neg (by simp [hop, hknown]),
      if_neg (by simp [hb]), hstart]
  · rw [eask]
    exact (congrArg State.mem e :)
  · rw [eask]
    exact hu
  · rw [eask]
    change (vat (admitHead q s).qs q).fetched = rest
    rw [hq, vat_vupd_self]

/-- After a request the order of the KV commands stands still, when the asking one is its only command. -/
theorem pumpAllKv_askHost {u : Nat} {rs : List HostRead} (hF : (vat s.qs q).fetched = F :: rest) (h : ∀ x ∈ s.cmds, isKv x = false) :
    pumpAllKv (askHost u rs (admitHead q s)) = askHost u rs (admitHead q s) := by
  obtain ⟨_, _, e, -⟩ := askHost_frame u rs (admitHead q s)
  refine pumpAllKv_idle fun id x hx hw => ?_
  have hk : isKv x = true := by
    simp only [kvWaits, Bool.and_eq_true] at hw
    exact hw.1.1.1
  rw [e] at hx
  obtain ⟨y, hy, rfl⟩ := List.mem_map.1 hx
  have hu := admitHead_unchecked hF h y hy
  by_cases hid : (y.uid == u) = true
  · rw [if_pos hid] at hk ⊢
    exact hu hk
  · rw [if_neg hid] at hk ⊢
    exact hu hk

end

/-- A host address has no decode to fail. -/
theorem rngKind_host {s : State} {f : Nat} {w : Bool} {r : Rng} (h : r.dev = false) : rngKind s f w r = 0 := by simp [rngKind, h]

theorem onHost_of_host {r : Rng} (h : r.dev = false) : onHost r = true := by simp [onHost, h]

section
variable {a : State} {u : Nat} {c : Cmd}

theorem startLookup_asks {T : TableDecl} (hc : cmdOf a u = some c) (hT : tableChecks a c false = .inr T)
    (hcode : lookupCode T c = none) (hl : lkInline c = false) (hd : (lkListRange c).dev = false)
    (ho : rngKind a c.func true (lkOutRange T c) = 0) :
    startLookup u a = askHost u (translations a c.func [lkListRange c, lkOutRange T c] ++ [readOf c.func (lkListRange c)]) a := by
  simp [startLookup, hc, hT, hcode, hl, ho, rngKind_host hd, onHost_of_host hd]

theorem startUpdate_asks {T : TableDecl} (hc : cmdOf a u = some c) (hT : tableChecks a c true = .inr T)
    (hcode : updateCode T c = none) (hl : bit (param c.bytes 4 1) 1 = false)
    (hd : (updListRange T ((gradFmt c.bytes).getD .fp32) c).dev = false) :
    startUpdate u a = askHost u (translations a c.func [updListRange T ((gradFmt c.bytes).getD .fp32) c] ++
      [readOf c.func { updListRange T ((gradFmt c.bytes).getD .fp32) c with len := listHead c.bytes }]) a := by
  simp [startUpdate, hc, hT, hcode, hl, rngKind_host hd, onHost_of_host hd]

theorem startCopy_asks (hc : cmdOf a u = some c) (hcode : copyHeadCode c.bytes = none) (hform : copyForm c.bytes = 2)
    (hl : copyInline c.bytes = false) (hd : (segListRange c.bytes).dev = false) :
    startCopy u a = askHost u (translations a c.func [segListRange c.bytes] ++ [readOf c.func (segListRange c.bytes)]) a := by
  simp [startCopy, fetchList, hc, hcode, hform, hl, rngKind_host hd, onHost_of_host hd]

/-- The list of a KV command, its entries or its short form (R353, R360, R362). -/
def kvList (c : Cmd) : Rng := kvListRange c (if opcodeOf c.bytes = 0x30 then 32 * kvNent c else shortListLen c)

theorem startKv_asks {d : KvDecl} (hc : cmdOf a u = some c) (hd : kvChecks a c = .inr d) (hcode : kvHeadCode c d = none)
    (hl : kvInline c = false) (hda : kvListDa c = false) (halign : kvListAddr c % 8 = 0) (htrie : opcodeOf c.bytes = 0x32 → d.maxNodes ≠ 0) :
    startKv u a = askHost u (translations a c.func [kvList c] ++ [readOf c.func (kvList c)]) a := by
  have hlist : kvListRange c (if (opcodeOf c.bytes == 0x30) = true then 32 * kvNent c else shortListLen c) = kvList c := by
    simp only [kvList, beq_iff_eq]
  have hdev : (kvList c).dev = false := hda
  have haddr : (kvList c).addr % 8 = 0 := halign
  have hnoTrie : (opcodeOf c.bytes == 0x32 && d.maxNodes == 0) = false := by simpa using htrie
  unfold startKv
  simp only [hc, hd, hcode, hl, hlist, hnoTrie, haddr, rngKind_host hdev]
  simp [fetchList, hc, onHost_of_host hdev]

theorem startAttn_asks {d : KvDecl} (hc : cmdOf a u = some c) (hd : kvChecks a c = .inr d) (hcode : attnCode d c = none)
    (hl : kvInline c = false) (hda : kvListDa c = false) (ho : rngKind a c.func true (attnOutRange d c) = 0) :
    startAttn u a = askHost u (translations a c.func [kvListRange c (attnListLen d c), attnOutRange d c] ++
      [readOf c.func (kvListRange c (attnListLen d c))]) a := by
  have hdev : (kvListRange c (attnListLen d c)).dev = false := hda
  simp [startAttn, hc, hd, hcode, hl, ho, rngKind_host hdev, onHost_of_host hdev]

end

/-- Settles O26: the start of each of these rows is a request, which the admitted command then waits for. -/
theorem listsAreAskedFor : Obligations.ListsAreAskedFor := by
  unfold Obligations.ListsAreAskedFor
  intro s q F rest f hF hf hm hn u a o runs c hc hop hb
  have row {i : Instr} {rs : List HostRead} {n : Nat} (ho : o = n) (hk : knownOpcode n = true) (hi : admitRow i = some (q.val, n))
      (hform : n = 0x40 → copyForm F.bytes = 2 ∧ i ≠ .tableLoad q) (hstart : startOf i u a = askHost u rs a) : runs i rs := by
    subst ho
    exact admitRow_asks hF hf hm hn hc hop hk hb hi (fun h => by simp [hform h]) hstart
  have noCopy {i : Instr} {n : Nat} (h : n ≠ 0x40) : n = 0x40 → copyForm F.bytes = 2 ∧ i ≠ .tableLoad q := fun h' => absurd h' h
  refine ⟨fun T hT hcode hl hd hout => ?_, fun T hT hcode hl => ?_, fun d hnokv hd hl hda => ?_, fun hcode hform hF2 hl => ?_⟩
  · have h := startLookup_asks hc hT hcode hl hd hout
    exact ⟨fun ho => row ho rfl rfl (noCopy (by decide)) h, fun ho => row ho rfl rfl (noCopy (by decide)) h⟩
  · intro r rs hd
    have h := startUpdate_asks hc hT hcode hl hd
    exact ⟨fun ho => row ho rfl rfl (noCopy (by decide)) h, fun ho => row ho rfl rfl (noCopy (by decide)) h⟩
  · have kv {rs : List HostRead} {start : Nat → State → State} (h : start u a = askHost u rs a) :
        andPump start u a = askHost u rs a := by
      rw [andPump, h]
      exact pumpAllKv_askHost hF hnokv
    have append (ho : o = 0x30) : kvList c = kvListRange c (32 * kvNent c) := by rw [kvList, if_pos (hop.trans ho)]
    have short (ho : o ≠ 0x30) : kvList c = kvListRange c (shortListLen c) := by rw [kvList, if_neg (fun h => ho (hop.symm.trans h))]
    refine ⟨?_, ?_, ?_⟩
    · intro r ho hcode ha
      refine row ho rfl rfl (noCopy (by decide)) (kv ?_)
      unfold r
      rw [← append ho]
      exact startKv_asks hc hd hcode hl hda ha fun h => by rw [hop.trans ho] at h; cases h
    · intro r hcode ha
      refine ⟨fun ho => row ho rfl rfl (noCopy (by decide)) (kv ?_), fun ho hn => row ho rfl rfl (noCopy (by decide)) (kv ?_)⟩
      · unfold r
        rw [← short (by rw [ho]; decide)]
        exact startKv_asks hc hd hcode hl hda ha fun h => by rw [hop.trans ho] at h; cases h
      · unfold r
        rw [← short (by rw [ho]; decide)]
        exact startKv_asks hc hd hcode hl hda ha fun _ => hn
    · intro l ho hcode hout
      exact row ho rfl rfl (noCopy (by decide)) (kv (startAttn_asks hc hd hcode hl hda hout))
  · intro r ha hd
    have h := startCopy_asks hc hcode hform hl hd
    exact ⟨fun ho => row ho rfl rfl (fun _ => ⟨hF2, by simp⟩) h, fun ho => row ho rfl rfl (noCopy (by decide)) h⟩

end Sys2Proof.Machine
end

section
/-!
PROOFS. What the host answers to a command: the command itself, one of its kind in flight, and the others, which stand still.
-/
namespace Sys2Proof.Machine

/-! ### One command among others that wait for nothing -/

/-- Of a kind that a change of another command lets go on: a KV command, an update or load, a buffer command. -/
def isStirred (c : Cmd) : Bool := isKv c || writesRows c || opcodeOf c.bytes == 0x48 || opcodeOf c.bytes == 0x49

/-- The commands with identity `u` are in flight and as `P` says. -/
structure Standing (u : Nat) (P : Cmd → Prop) (s : State) : Prop where
  here : ∃ x ∈ s.cmds, x.uid = u
  each : ∀ x ∈ s.cmds, x.uid = u → P x

/-- No other command is of a kind that another's change lets go on. -/
def OthersRest (u : Nat) (s : State) : Prop := ∀ x ∈ s.cmds, x.uid ≠ u → isStirred x = false

/-- A statement about a command that its energy and its stamps do not enter. -/
def Bare (P : Cmd → Prop) : Prop := ∀ x y, bareCmd x = bareCmd y → P x → P y

section
variable {u : Nat} {P Q : Cmd → Prop} {s t : State}

theorem Standing.cmdOf (h : Standing u P s) : ∃ x, cmdOf s u = some x ∧ P x := by
  obtain ⟨x, hx, hu⟩ := h.here
  obtain ⟨y, hy⟩ := Option.isSome_iff_exists.1 (List.find?_isSome.2 ⟨x, hx, beq_iff_eq.2 hu⟩ : (Machine.cmdOf s u).isSome = true)
  exact ⟨y, hy, h.each y (List.mem_of_find?_eq_some hy) (beq_iff_eq.1 (List.find?_some hy :))⟩

theorem Standing.mono (h : Standing u P s) (hPQ : ∀ x, P x → Q x) : Standing u Q s := ⟨h.here, fun x hx hu => hPQ x (h.each x hx hu)⟩

theorem Standing.of_cmds (h : Standing u P s) (e : t.cmds = s.cmds) : Standing u P t := ⟨by rw [e]; exact h.here, by rw [e]; exact h.each⟩

theorem Standing.onCmd {g : Cmd → Cmd} (h : Standing u P s) (hg : ∀ x, P x → Q (g x) ∧ (g x).uid = x.uid) :
    Standing u Q (onCmd u g s) := by
  obtain ⟨x, hx, hu⟩ := h.here
  refine ⟨⟨g x, List.mem_map.2 ⟨x, hx, if_pos (beq_iff_eq.2 hu)⟩, (hg x (h.each x hx hu)).2.trans hu⟩, fun y hy hyu => ?_⟩
  obtain ⟨z, hz, rfl⟩ := List.mem_map.1 hy
  by_cases hzu : z.uid = u
  · rw [if_pos (beq_iff_eq.2 hzu)]
    exact (hg z (h.each z hz hzu)).1
  · rw [if_neg (by simpa using hzu)] at hyu
    exact absurd hyu hzu

theorem SameCmds.exists_of_mem (h : SameCmds s t) {y : Cmd} (hy : y ∈ t.cmds) : ∃ x ∈ s.cmds, bareCmd x = bareCmd y := by
  have hb : bareCmd y ∈ t.cmds.map bareCmd := List.mem_map_of_mem hy
  rw [h.cmds] at hb
  exact List.mem_map.1 hb

theorem SameCmds.symm (h : SameCmds s t) : SameCmds t s := ⟨h.cmds.symm⟩

theorem bareCmd_uid {x y : Cmd} (h : bareCmd x = bareCmd y) : x.uid = y.uid := (congrArg Cmd.uid h :)

theorem Standing.same (h : Standing u P s) (hs : SameCmds s t) (hP : Bare P) : Standing u P t := by
  obtain ⟨x, hx, hu⟩ := h.here
  obtain ⟨y, hy, hyx⟩ := hs.symm.exists_of_mem hx
  refine ⟨⟨y, hy, (bareCmd_uid hyx).trans hu⟩, fun z hz hzu => ?_⟩
  obtain ⟨w, hw, hwz⟩ := hs.exists_of_mem hz
  exact hP w z hwz (h.each w hw ((bareCmd_uid hwz).trans hzu))

theorem OthersRest.of_cmds (h : OthersRest u s) (e : t.cmds = s.cmds) : OthersRest u t := by
  unfold OthersRest
  rw [e]
  exact h

theorem OthersRest.onCmd {g : Cmd → Cmd} (h : OthersRest u s) (hg : ∀ x, (g x).uid = x.uid) : OthersRest u (Machine.onCmd u g s) := by
  intro y hy hyu
  obtain ⟨z, hz, rfl⟩ := List.mem_map.1 hy
  by_cases hzu : z.uid = u
  · rw [if_pos (beq_iff_eq.2 hzu), hg] at hyu
    exact absurd hzu hyu
  · rw [if_neg (by simpa using hzu)]
    exact h z hz hzu

theorem OthersRest.same (h : OthersRest u s) (hs : SameCmds s t) : OthersRest u t := by
  intro y hy hyu
  obtain ⟨x, hx, hxy⟩ := hs.exists_of_mem hy
  have hb : x.bytes = y.bytes := (congrArg Cmd.bytes hxy :)
  have hr := h x hx (by rw [bareCmd_uid hxy]; exact hyu)
  simpa [isStirred, isKv, writesRows, isUpdate, isLoad, hb] using hr

/-! ### What stands still -/

theorem isStirred_false {c : Cmd} (h : isStirred c = false) :
    isKv c = false ∧ writesRows c = false ∧ opcodeOf c.bytes ≠ 0x48 ∧ opcodeOf c.bytes ≠ 0x49 := by
  simpa [isStirred, and_assoc] using h

/-- Neither the order of the KV commands nor that of the buffer commands moves. -/
theorem letOthers_idle (h : Standing u P s) (ho : OthersRest u s)
    (hP : ∀ x, P x → x.phase = .ended ∨ isKv x = false ∧ opcodeOf x.bytes ≠ 0x48 ∧ opcodeOf x.bytes ≠ 0x49) : letOthers s = s := by
  have hquiet : ∀ x ∈ s.cmds, x.phase = .ended ∨ isKv x = false ∧ opcodeOf x.bytes ≠ 0x48 ∧ opcodeOf x.bytes ≠ 0x49 := by
    intro x hx
    by_cases hu : x.uid = u
    · exact hP x (h.each x hx hu)
    · obtain ⟨hk, -, h48, h49⟩ := isStirred_false (ho x hx hu)
      exact .inr ⟨hk, h48, h49⟩
  have hbufs : pumpBufs s = s := by
    have hnone : s.cmds.filter bufOpen = [] := by
      rw [List.filter_eq_nil_iff]
      intro x hx
      rcases hquiet x hx with he | ⟨-, h48, h49⟩
      · simp [bufOpen, he]
      · simp [bufOpen, h48, h49]
    rw [pumpBufs, hnone]
    rfl
  rw [letOthers, hbufs]
  refine pumpAllKv_idle fun id x hx hw => ?_
  rcases hquiet x hx with he | ⟨hk, -, -⟩
  · simp [kvWaits, he] at hw
  · simp [kvWaits, hk] at hw

/-- The unfinished updates and loads are the standing ones. -/
theorem uid_of_mem_updQueue (ho : OthersRest u s) {c : Cmd} (hc : c ∈ updQueue s) : c.uid = u ∧ c ∈ s.cmds ∧ writesRows c = true := by
  obtain ⟨hm, hw⟩ := List.mem_filter.1 ((mem_sortBy _).1 hc)
  obtain ⟨hw, -⟩ := Bool.and_eq_true_iff.1 hw
  refine ⟨?_, hm, hw⟩
  by_contra hu
  obtain ⟨-, hn, -⟩ := isStirred_false (ho c hm hu)
  rw [hn] at hw
  cases hw

theorem settleUpdates_idle (h : Standing u P s) (ho : OthersRest u s) (hP : ∀ x, P x → x.phase = .ended ∨ writesRows x = false) :
    settleUpdates s = s := by
  have hnone : updQueue s = [] := by
    rw [List.eq_nil_iff_forall_not_mem]
    intro c hc
    obtain ⟨hu, hm, hw⟩ := uid_of_mem_updQueue ho hc
    obtain ⟨-, hf⟩ := List.mem_filter.1 ((mem_sortBy _).1 hc)
    rcases hP c (h.each c hm hu) with he | hn
    · simp [unfinished, he] at hf
    · rw [hn] at hw
      cases hw
  rw [settleUpdates, hnone]
  rfl

/-- One update or load whose work is over ends. -/
def settleOne (s : State) (c : Cmd) : State :=
  finishWork c.uid (updateStatus c).1 (updateStatus c).2 (stamp c.uid 8 false (stamp c.uid 7 true (forgetUpdate c.uid s)))

theorem settleUpdates_eq (s : State) : settleUpdates s = ((updQueue s).filter (updateSettled s)).foldl settleOne s := rfl

theorem settleOne_standing {c : Cmd} (hc : c.uid = u) (h : Standing u P s) (ho : OthersRest u s) (hb : Bare P)
    (hd : ∀ x, P x → x.phase ≠ .discarded)
    (he : ∀ x st d, P x → P { x with phase := .ended, status := st, detail := d, wants := [] }) :
    Standing u P (settleOne s c) ∧ OthersRest u (settleOne s c) := by
  subst hc
  have h0 : SameCmds s (forgetUpdate c.uid s) := .of_cmds rfl
  have h1 := (stamp_spec c.uid 7 true (forgetUpdate c.uid s)).1
  have h2 := (stamp_spec c.uid 8 false (stamp c.uid 7 true (forgetUpdate c.uid s))).1
  have hs := h.same (h0.trans (h1.trans h2)) hb
  have ho := ho.same (h0.trans (h1.trans h2))
  obtain ⟨x, hx, hPx⟩ := hs.cmdOf
  unfold settleOne finishWork
  simp only [hx]
  rw [if_neg (by simpa using hd x hPx)]
  refine ⟨hs.onCmd fun y hy => ?_, ho.onCmd fun y => ?_⟩
  · rw [if_neg (by simpa using hd y hy)]
    exact ⟨he y _ _ hy, rfl⟩
  · split <;> rfl

/-- An update that ends keeps what `P` says, when that leaves out how it ends. -/
theorem settleUpdates_standing (h : Standing u P s) (ho : OthersRest u s) (hb : Bare P) (hd : ∀ x, P x → x.phase ≠ .discarded)
    (he : ∀ x st d, P x → P { x with phase := .ended, status := st, detail := d, wants := [] }) :
    Standing u P (settleUpdates s) ∧ OthersRest u (settleUpdates s) := by
  have hall : ∀ (l : List Cmd) (s : State), (∀ c ∈ l, c.uid = u) → Standing u P s → OthersRest u s →
      Standing u P (l.foldl settleOne s) ∧ OthersRest u (l.foldl settleOne s) := by
    intro l
    induction l with
    | nil => exact fun s _ hs ho => ⟨hs, ho⟩
    | cons c l ih =>
      intro s hl hs ho
      obtain ⟨hs1, ho1⟩ := settleOne_standing (hl c (List.mem_cons_self ..)) hs ho hb hd he
      exact ih _ (fun x hx => hl x (List.mem_cons_of_mem _ hx)) hs1 ho1
  rw [settleUpdates_eq]
  exact hall _ s (fun c hc => (uid_of_mem_updQueue ho (List.mem_of_mem_filter hc)).1) h ho

end

/-! ### The answer to a command's first request -/

/-- An answer is at most noted in AER. -/
theorem noteReply_frame (f : Nat) (r : HostReply) (s : State) : ∃ g o, noteReply f r s = { s with funcs := g, out := o } := by
  have haer (b : Nat) : ∃ g o, aerError f b s = { s with funcs := g, out := o } := by
    unfold aerError
    extract_lets p fatal s1
    exact iteInduction (motive := fun t : State => ∃ g o, t = { s with funcs := g, out := o }) (fun _ => ⟨s1.funcs, _, rfl⟩)
      fun _ => ⟨s1.funcs, s.out, rfl⟩
  unfold noteReply
  split
  · exact haer 12
  · exact haer 14
  · exact ⟨_, _, rfl⟩

/-- The completion of a read may send Invalidation Completions (R501). -/
theorem readDone_frame (f u : Nat) (s : State) : ∃ g o, readDone f u s = { s with funcs := g, out := o } := by
  have hemit : ∀ (l : List Nat) (s : State), ∃ o, l.foldl (fun s _ => emit (.invalidation f) s) s = { s with out := o } := by
    intro l
    induction l with
    | nil => exact fun s => ⟨_, rfl⟩
    | cons x l ih => exact fun s => (ih (emit (.invalidation f) s)).imp fun o e => e
  unfold readDone
  extract_lets step after n s1
  obtain ⟨o, e⟩ := hemit (List.range n) s1
  exact ⟨s1.funcs, o, e⟩

section
variable {s : State} {u : Nat} {c : Cmd} {w : HostRead} {rest : List HostRead}

theorem exec_commandReply (hc : cmdOf s u = some c) (hw : c.wants = w :: rest) (hp : portUp s (portOf c.func) = true)
    {r : HostReply} (hr : r ≠ .timeout) :
    exec (.hostReadCompletion (.command u) r) s = .next (commandReply u c w r (noteReply c.func r s)) := by
  obtain ⟨g, o, e⟩ := noteReply_frame c.func r s
  have hf : readFunc s (.command u) = some c.func := by rw [readFunc, hc]; rfl
  have hc1 : cmdOf (noteReply c.func r s) u = some c := by rw [e]; exact hc
  change execHostReadCompletion (.command u) r s = _
  rw [execHostReadCompletion, if_neg (by simp [hr, hf, hp]), hf]
  change Host.Outcome.next (answerCommand u r (noteReply c.func r s)) = _
  rw [answerCommand, hc1]
  simp only [hw]

theorem exec_commandTimeout (hc : cmdOf s u = some c) (hw : c.wants = w :: rest) (ht : timeoutOff c.func .timeout s = false) :
    exec (.completionTimeout (.command u)) s = .next (commandReply u c w .timeout (noteReply c.func .timeout s)) := by
  obtain ⟨g, o, e⟩ := noteReply_frame c.func .timeout s
  have hf : readFunc s (.command u) = some c.func := by rw [readFunc, hc]; rfl
  have hc1 : cmdOf (noteReply c.func .timeout s) u = some c := by rw [e]; exact hc
  change execCompletionTimeout (.command u) s = _
  rw [execCompletionTimeout, if_neg (by simp [hf, ht]), hf]
  change Host.Outcome.next (answerCommand u .timeout (noteReply c.func .timeout s)) = _
  rw [answerCommand, hc1]
  simp only [hw]

/-- The command as its first request is granted, more of them being out (R501). -/
theorem commandReply_granted (hw : c.wants = w :: rest) (hc : cmdOf s u = some c) (ha : w.ats = true) (hr : rest ≠ [])
    (he : c.early = [] ∨ rest.head?.any (·.ats) = true) :
    commandReply u c w .granted s =
      onCmd u (fun c => { c with held := (w.addr, w.len) :: c.held, fresh := c.fresh - 1 }) (popWant u s) := by
  set s1 := onCmd u (fun c => { c with held := (w.addr, w.len) :: c.held, fresh := c.fresh - 1 }) (popWant u s)
  have hc1 : cmdOf s1 u = some { c with wants := rest, held := (w.addr, w.len) :: c.held, fresh := c.fresh - 1 } := by
    rw [cmdOf_onCmd (g := fun c : Cmd => { c with held := (w.addr, w.len) :: c.held, fresh := c.fresh - 1 }) fun _ => rfl, popWant,
      cmdOf_onCmd (g := fun c : Cmd => { c with wants := c.wants.drop 1 }) fun _ => rfl, hc, Option.map_some, Option.map_some, hw]
    rfl
  have hlen : (c.phase == .waitHost && c.wants.length == 1) = false := by
    rw [hw]
    cases rest with
    | nil => exact absurd rfl hr
    | cons => simp
  unfold commandReply
  simp only [ha, Bool.not_true, Bool.false_eq_true, if_false, hlen]
  cases hearly : c.early with
  | nil => rfl
  | cons b es =>
    have hnext : rest.head?.any (·.ats) = true := he.resolve_left (by rw [hearly]; exact List.cons_ne_nil _ _)
    cases rest with
    | nil => cases hnext
    | cons w1 ws =>
      change useEarly u (es.length + 1) s1 = s1
      simp only [useEarly, hc1, hearly]
      exact if_pos hnext

/-- What a failed read or a refused translation leaves (R501, R502, log 48). -/
def FailsAs (u : Nat) (c : Cmd) (s t : State) : Prop :=
  ∃ x, cmdOf t u = some x ∧
    (writesRows c = false ∨ c.checked = false → x.phase = .ended ∧ x.status = 0x12 ∧ x.detail = 2 ∧ x.wants = [] ∧
      t.mem = s.mem ∧ t.qs = s.qs) ∧
    (writesRows c = true → c.checked = true → x.cutAt.isSome = true)

theorem cutUpdate_cuts {a : Nat × Nat} {st d : Nat} (h : Standing u (·.phase ≠ .discarded) s) (ho : OthersRest u s) :
    Standing u (fun x => x.cutAt.isSome = true ∧ x.phase ≠ .discarded) (cutUpdate u a st d s) ∧ OthersRest u (cutUpdate u a st d s) := by
  have h1 : Standing u (fun x => x.cutAt.isSome = true ∧ x.phase ≠ .discarded) (onCmd u (fun c => { c with
    cutAt := some a, status := BitVec.ofNat 8 st, detail := BitVec.ofNat 32 d }) s) := h.onCmd fun x hx => ⟨⟨rfl, hx⟩, rfl⟩
  have ec : (cutUpdate u a st d s).cmds = (onCmd u (fun c => { c with
      cutAt := some a, status := BitVec.ofNat 8 st, detail := BitVec.ofNat 32 d }) s).cmds := by
    unfold cutUpdate
    extract_lets cut gone s1
    exact (kickFlail_frame _).elim fun r e => (congrArg State.cmds e :)
  have ho1 : OthersRest u (onCmd u (fun c => { c with
      cutAt := some a, status := BitVec.ofNat 8 st, detail := BitVec.ofNat 32 d }) s) := ho.onCmd fun _ => rfl
  exact ⟨h1.of_cmds ec, ho1.of_cmds ec⟩

theorem failUpdate_cuts {st d : Nat} (h : Standing u (· = c) s) (ho : OthersRest u s) (hp : c.phase ≠ .discarded) :
    Standing u (fun x => x.cutAt.isSome = true ∧ x.phase ≠ .discarded) (failUpdate u st d s) ∧ OthersRest u (failUpdate u st d s) := by
  obtain ⟨x, hx, rfl⟩ := h.cmdOf
  have h1 : Standing u (·.phase ≠ .discarded) (onCmd u (fun c => { c with wants := [] }) s) :=
    h.onCmd fun y hy => ⟨by rw [hy]; exact hp, rfl⟩
  have ho1 : OthersRest u (onCmd u (fun c => { c with wants := [] }) s) := ho.onCmd fun _ => rfl
  unfold failUpdate
  simp only [hx]
  split <;> exact cutUpdate_cuts h1 ho1

theorem readFailed_ends (h : Standing u (· = c) s) (ho : OthersRest u s) (hp : c.phase = .waitHost) : FailsAs u c s (readFailed u c s) := by
  unfold readFailed FailsAs
  split
  · next hwc =>
    obtain ⟨hwr, hck⟩ := Bool.and_eq_true_iff.1 hwc
    obtain ⟨h1, ho1⟩ := failUpdate_cuts (st := 0x12) (d := 2) h ho (by rw [hp]; decide)
    have hbare : Bare fun x => x.cutAt.isSome = true ∧ x.phase ≠ .discarded := fun x y hxy hx => by
      have hcut : x.cutAt = y.cutAt := (congrArg Cmd.cutAt hxy :)
      have hph : x.phase = y.phase := (congrArg Cmd.phase hxy :)
      exact ⟨hcut ▸ hx.1, hph ▸ hx.2⟩
    obtain ⟨h2, -⟩ := settleUpdates_standing h1 ho1 hbare (fun x hx => hx.2) fun x st d hx => ⟨hx.1, by simp⟩
    obtain ⟨x, hx, hcut, -⟩ := h2.cmdOf
    exact ⟨x, hx, fun hn => by simp [hwr, hck] at hn, fun _ _ => hcut⟩
  · next hwc =>
    have h1 : Standing u (fun x => x.phase = .ended ∧ x.status = 0x12 ∧ x.detail = 2 ∧ x.wants = []) (endCmd u 0x12 2 s) := by
      refine h.onCmd fun x hx => ?_
      subst hx
      rw [if_neg (by simp [hp])]
      exact ⟨⟨rfl, rfl, rfl, rfl⟩, rfl⟩
    have ho1 : OthersRest u (endCmd u 0x12 2 s) := ho.onCmd fun x => by split <;> rfl
    rw [letOthers_idle h1 ho1 fun x hx => .inl hx.1]
    obtain ⟨x, hx, he, hst, hd, hws⟩ := h1.cmdOf
    exact ⟨x, hx, fun _ => ⟨he, hst, hd, hws, rfl, rfl⟩, fun hwr hck => absurd (by rw [hwr, hck]; rfl) hwc⟩

end

/-! ### What the data of a read start -/

/-- A change that keeps memory, the others at rest, and what `P` says of the commands with identity `u`. -/
structure KeptFor (u : Nat) (P : Cmd → Prop) (s t : State) : Prop where
  standing : Standing u P s → Standing u P t
  rest : OthersRest u s → OthersRest u t
  mem : t.mem = s.mem

section
variable {s t v : State} {u : Nat} {P : Cmd → Prop}

theorem KeptFor.trans (h1 : KeptFor u P s t) (h2 : KeptFor u P t v) : KeptFor u P s v :=
  ⟨h2.standing ∘ h1.standing, h2.rest ∘ h1.rest, h2.mem.trans h1.mem⟩

theorem SameCmds.keptFor (h : SameCmds s t) (hm : t.mem = s.mem) (hP : Bare P) : KeptFor u P s t :=
  ⟨fun hs => hs.same h hP, fun ho => ho.same h, hm⟩

theorem Charged.keptFor (h : Charged s t) (hP : Bare P) : KeptFor u P s t := h.sameCmds.keptFor h.mem hP

theorem stamp_keptFor (hP : Bare P) (n : Nat) (b : Bool) (s : State) : KeptFor u P s (stamp u n b s) := by
  obtain ⟨h, e⟩ := stamp_spec u n b s
  exact h.keptFor (congrArg State.mem e :) hP

theorem onCmd_keptFor {g : Cmd → Cmd} (hg : ∀ x, P x → P (g x)) (hu : ∀ x, (g x).uid = x.uid) (s : State) : KeptFor u P s (onCmd u g s) :=
  ⟨fun h => h.onCmd fun x hx => ⟨hg x hx, hu x⟩, fun h => h.onCmd hu, rfl⟩

/-- What a lookup keeps as it is checked and ends, or goes to the slices. -/
structure Dispatches (P : Cmd → Prop) : Prop where
  bare : Bare P
  ends : ∀ x st d, P x → P { x with phase := .ended, status := st, detail := d, wants := [] }
  goes : ∀ x n, P x → P { x with phase := .working, checked := true, total := n }

theorem endCmd_keptFor (hP : Dispatches P) (st d : Nat) (s : State) : KeptFor u P s (endCmd u st d s) :=
  onCmd_keptFor (fun x hx => by split <;> [exact hx; exact hP.ends x _ _ hx]) (fun x => by split <;> rfl) s

theorem mapTraffic_charged {c : Cmd} {t : TableDecl} {row k : Nat} {s : State} : Charged s (mapTraffic c t row k s) := by
  unfold mapTraffic issueAtoms
  dsimp only
  split
  · exact chargeCmd_charged.trans activity_charged
  · exact chargeCmd_charged

theorem resolutionPass_charged (c : Cmd) (t : TableDecl) (idx : List Nat) (s : State) : Charged s (resolutionPass c t idx s) := by
  unfold resolutionPass
  split
  · exact .foldl (fun _ _ => .foldl (fun _ _ => mapTraffic_charged) ..) ..
  · exact .refl s

theorem dispatchLookup_keptFor (hP : Dispatches P) (s : State) : KeptFor u P s (dispatchLookup u s) := by
  have hfail (n st d : Nat) (b : Bool) (v : State) (h : KeptFor u P s v) : KeptFor u P s (stamp u n b (endCmd u st d v)) :=
    h.trans ((endCmd_keptFor hP st d v).trans (stamp_keptFor hP.bare n b _))
  have hs : KeptFor u P s s := ⟨id, id, rfl⟩
  unfold dispatchLookup
  split
  · exact hs
  split
  · exact endCmd_keptFor hP ..
  next c _ _ t _ =>
    extract_lets idx s1 s2
    have hr := (resolutionPass_charged c t idx s).keptFor (u := u) hP.bare
    split
    · exact hfail _ _ _ _ _ hs
    split
    · exact hfail _ _ _ _ _ hr
    split
    · exact hfail _ _ _ _ _ hr
    split
    · exact hfail _ _ _ _ _ (hr.trans ((SameCmds.of_cmds (s := s1) (t := noteLoss u s1) rfl).keptFor rfl hP.bare))
    · have h1 : KeptFor u P s1 s2 := onCmd_keptFor (fun x hx => hP.goes x _ hx) (fun _ => rfl) s1
      have h2 : KeptFor u P s2 (startRecons u t idx s2) :=
        (SameCmds.of_cmds (s := s2) (t := startRecons u t idx s2) rfl).keptFor rfl hP.bare
      refine (hr.trans h1).trans (h2.trans ?_)
      exact (stamp_keptFor hP.bare ..).trans (stamp_keptFor hP.bare ..)

end

/-! ### The data of a read -/

/-- A command like another, but for what is charged to it and stamped on it. -/
def Like (c x : Cmd) : Prop := bareCmd x = bareCmd c

theorem like_bare (c : Cmd) : Bare (Like c) := fun _ _ h hx => h.symm.trans hx

theorem Like.map {c x : Cmd} {g : Cmd → Cmd} (hg : ∀ x, bareCmd (g x) = g (bareCmd x)) (h : Like c x) : Like (g c) (g x) := by
  rw [Like, hg, hg, show bareCmd x = bareCmd c from h]

section
variable {s : State} {u : Nat} {c : Cmd} {w : HostRead} {rest : List HostRead}

/-- The command once its read is answered: the request is gone, and it works when that was the last. -/
def readAnswered (c : Cmd) : Cmd :=
  if c.phase = .waitHost ∧ c.wants.drop 1 = [] then { c with wants := c.wants.drop 1, phase := .working }
  else { c with wants := c.wants.drop 1 }

/-- The state in which a command goes on with its data. -/
def dataCame (u f n : Nat) (s : State) : State := backToWork u (readDone f u (popWant u (busActivity (.cmd u) f n s)))

theorem dataCame_standing (f n : Nat) (h : Standing u (Like c) s) (ho : OthersRest u s) :
    Standing u (Like (readAnswered c)) (dataCame u f n s) ∧ OthersRest u (dataCame u f n s) ∧ (dataCame u f n s).mem = s.mem ∧
      (dataCame u f n s).poison = s.poison ∧ (dataCame u f n s).image = s.image ∧ (dataCame u f n s).cfg = s.cfg := by
  have hb : Charged s (busActivity (.cmd u) f n s) := busActivity_charged
  obtain ⟨g, o, e⟩ := readDone_frame f u (popWant u (busActivity (.cmd u) f n s))
  have h1 : Standing u (Like { c with wants := c.wants.drop 1 }) (popWant u (busActivity (.cmd u) f n s)) :=
    (h.same hb.sameCmds (like_bare c)).onCmd fun x hx => ⟨hx.map (g := fun c => { c with wants := c.wants.drop 1 }) fun _ => rfl, rfl⟩
  have ho1 : OthersRest u (popWant u (busActivity (.cmd u) f n s)) := (ho.same hb.sameCmds).onCmd fun _ => rfl
  have h2 : Standing u (Like { c with wants := c.wants.drop 1 }) (readDone f u (popWant u (busActivity (.cmd u) f n s))) := by
    rw [e]
    exact h1.of_cmds rfl
  have ho2 : OthersRest u (readDone f u (popWant u (busActivity (.cmd u) f n s))) := by
    rw [e]
    exact ho1.of_cmds rfl
  have hs := hb.rest
  refine ⟨h2.onCmd fun x hx => ⟨?_, by split <;> rfl⟩, ho2.onCmd fun x => by split <;> rfl, ?_, ?_, ?_, ?_⟩
  · have hph : x.phase = c.phase := (congrArg Cmd.phase hx :)
    have hws : x.wants = c.wants.drop 1 := (congrArg Cmd.wants hx :)
    unfold readAnswered
    by_cases hcond : c.phase = .waitHost ∧ c.wants.drop 1 = []
    · rw [if_pos hcond, if_pos (by rw [hph, hws, hcond.1, hcond.2]; rfl)]
      exact hx.map (g := fun c => { c with phase := .working }) fun _ => rfl
    · rw [if_neg hcond, if_neg (by rw [hph, hws]; simpa using hcond)]
      exact hx
  all_goals rw [dataCame, backToWork, e]
  · exact (congrArg State.mem hs :)
  · exact (congrArg State.poison hs :)
  · exact (congrArg State.image hs :)
  · exact (congrArg State.cfg hs :)

theorem commandReply_data (ha : w.ats = false) {bs : List Byte} (hl : bs.length = w.len) : commandReply u c w (.data bs) s =
    letOthers (settleUpdates (resumeCmd u c w (some bs) (dataCame u c.func bs.length s))) := by
  simp only [commandReply, ha, Bool.false_eq_true, if_false]
  rw [if_neg fun h => h hl]
  rfl

theorem readAnswered_phase (hp : c.phase = .waitHost) (hw : c.wants = w :: rest) :
    (readAnswered c).phase = if rest = [] then .working else .waitHost := by
  unfold readAnswered
  rw [hw, List.drop_succ_cons, List.drop_zero]
  by_cases h : rest = []
  · rw [if_pos ⟨hp, h⟩, if_pos h]
  · rw [if_neg fun hx => h hx.2, if_neg h]
    exact hp

theorem readAnswered_rest : ∃ ws ph, readAnswered c = { c with wants := ws, phase := ph } := by
  unfold readAnswered
  split <;> exact ⟨_, _, rfl⟩

/-- The list of a lookup has come, and it is checked. -/
theorem lookupData (h : Standing u (Like c) s) (ho : OthersRest u s) (hl : isLookup c = true) (hp : c.phase = .waitHost)
    (hw : c.wants = [w]) (ha : w.ats = false) {bs : List Byte} (hlen : bs.length = w.len) :
    ∃ x, cmdOf (commandReply u c w (.data bs) s) u = some x ∧ x.data = bs ∧ x.phase ≠ .waitHost ∧
      (commandReply u c w (.data bs) s).mem = s.mem := by
  obtain ⟨h1, ho1, hm1, -⟩ := dataCame_standing c.func bs.length h ho
  have hop : opcodeOf c.bytes = 0x10 ∨ opcodeOf c.bytes = 0x11 := by simpa [isLookup] using hl
  have hP : Dispatches fun x => x.data = bs ∧ x.phase ≠ .waitHost ∧ isLookup x = true :=
    ⟨fun x y hxy hx => ⟨((congrArg Cmd.data hxy :) : x.data = y.data) ▸ hx.1, ((congrArg Cmd.phase hxy :) : x.phase = y.phase) ▸ hx.2.1,
      by
        have hb : x.bytes = y.bytes := (congrArg Cmd.bytes hxy :)
        rw [isLookup, ← hb]
        exact hx.2.2⟩,
      fun x st d hx => ⟨hx.1, by simp, hx.2.2⟩, fun x n hx => ⟨hx.1, by simp, hx.2.2⟩⟩
  have h2 : Standing u (fun x => x.data = bs ∧ x.phase ≠ .waitHost ∧ isLookup x = true)
      (onCmd u (fun c => { c with data := bs }) (dataCame u c.func bs.length s)) := by
    refine h1.onCmd fun x hx => ⟨⟨rfl, ?_, ?_⟩, rfl⟩
    · have hph : x.phase = (readAnswered c).phase := (congrArg Cmd.phase hx :)
      rw [show ({ x with data := bs } : Cmd).phase = x.phase from rfl, hph, readAnswered_phase hp hw]
      decide
    · obtain ⟨ws, ph, er⟩ := readAnswered_rest (c := c)
      have hb : x.bytes = c.bytes := by
        have hb := (congrArg Cmd.bytes hx :)
        rw [er] at hb
        exact hb
      rw [isLookup, show ({ x with data := bs } : Cmd).bytes = x.bytes from rfl, hb]
      exact hl
  have ho2 : OthersRest u (onCmd u (fun c => { c with data := bs }) (dataCame u c.func bs.length s)) := ho1.onCmd fun _ => rfl
  have hk := (stamp_keptFor (u := u) hP.bare 2 false (onCmd u (fun c => { c with data := bs }) (dataCame u c.func bs.length s))).trans
    (dispatchLookup_keptFor hP _)
  have h3 := hk.standing h2
  have ho3 := hk.rest ho2
  have hnot (x : Cmd) (hx : isLookup x = true) : writesRows x = false ∧ isKv x = false ∧ opcodeOf x.bytes ≠ 0x48 ∧ opcodeOf x.bytes ≠ 0x49 := by
    have hop : opcodeOf x.bytes = 0x10 ∨ opcodeOf x.bytes = 0x11 := by simpa [isLookup] using hx
    rcases hop with e | e <;> simp [writesRows, isUpdate, isLoad, isKv, e]
  have hgo : commandReply u c w (.data bs) s =
      dispatchLookup u (stamp u 2 false (onCmd u (fun c => { c with data := bs }) (dataCame u c.func bs.length s))) := by
    rw [commandReply_data ha hlen, resumeCmd, if_pos hop, lookupHost]
    rw [settleUpdates_idle h3 ho3 fun x hx => .inr (hnot x hx.2.2).1, letOthers_idle h3 ho3 fun x hx => .inr (hnot x hx.2.2).2]
  obtain ⟨x, hx, hd, hph, -⟩ := h3.cmdOf
  rw [hgo]
  exact ⟨x, hx, hd, hph, hk.mem.trans hm1⟩

/-- The opcodes that write rows. -/
theorem writesRows_opcode (h : writesRows c = true) : (opcodeOf c.bytes = 0x20 ∨ opcodeOf c.bytes = 0x21 ∨ isLoad c = true) ∧
    (opcodeOf c.bytes = 0x20 ∨ opcodeOf c.bytes = 0x21 ∨ opcodeOf c.bytes = 0x40) := by
  simp only [writesRows, isUpdate, isLoad, Bool.or_eq_true, Bool.and_eq_true, beq_iff_eq] at h ⊢
  tauto

/-- The data of a row of an update or load have come. -/
theorem rowData {T : TableDecl} (h : Standing u (Like c) s) (ho : OthersRest u s) (hp : c.phase = .waitHost) (hw : c.wants = w :: rest)
    (hwr : writesRows c = true) (hck : c.checked = true) (hT : tableFor s c (cmdTable c) = some T) (ha : w.ats = false)
    {bs : List Byte} (hlen : bs.length = w.len) :
    ∃ x, cmdOf (commandReply u c w (.data bs) s) u = some x ∧ x.arrived = (entryOfRead T c w, 0, bs) :: c.arrived := by
  obtain ⟨h1, ho1, -, -, -, hcfg⟩ := dataCame_standing c.func bs.length h ho
  obtain ⟨ws, ph, er⟩ := readAnswered_rest (c := c)
  obtain ⟨c1, hc1, hlike⟩ := h1.cmdOf
  have hfields : c1.bytes = c.bytes ∧ c1.gen = c.gen ∧ c1.func = c.func ∧ c1.checked = c.checked := by
    rw [er] at hlike
    exact ⟨(congrArg Cmd.bytes hlike :), (congrArg Cmd.gen hlike :), (congrArg Cmd.func hlike :), (congrArg Cmd.checked hlike :)⟩
  obtain ⟨hb, hg, hf, hk⟩ := hfields
  obtain ⟨hop, hnot⟩ := writesRows_opcode hwr
  have hT1 : tableFor (dataCame u c.func bs.length s) c1 (cmdTable c1) = some T := by
    have e : tableFor (dataCame u c.func bs.length s) c1 (cmdTable c1) = tableFor s c (cmdTable c) := by
      have et : cmdTable c1 = cmdTable c := by
        unfold cmdTable isLoad
        rw [hb]
      rw [tableFor, tableFor, et, hg, cfgOf, cfgOf, hcfg]
    rw [e, hT]
  have hentry (x : Cmd) (hb : x.bytes = c.bytes) (hf : x.func = c.func) : entryOfRead T x w = entryOfRead T c w := by
    simp only [entryOfRead, isLoad, readOf, listHead, hb, hf]
  have h2 : Standing u (fun x => x.arrived = (entryOfRead T c w, 0, bs) :: c.arrived ∧ x.phase ≠ .discarded ∧ x.bytes = c.bytes)
      (onCmd u (fun x => { x with arrived := (entryOfRead T x w, 0, bs) :: x.arrived }) (dataCame u c.func bs.length s)) := by
    refine h1.onCmd fun x hx => ⟨?_, rfl⟩
    have hph : x.phase = (readAnswered c).phase := (congrArg Cmd.phase hx :)
    rw [er] at hx
    have hxb : x.bytes = c.bytes := (congrArg Cmd.bytes hx :)
    have hxa : x.arrived = c.arrived := (congrArg Cmd.arrived hx :)
    refine ⟨by rw [hentry x hxb (congrArg Cmd.func hx :), hxa], ?_, hxb⟩
    rw [readAnswered_phase hp hw] at hph
    intro hd
    rw [show x.phase = .discarded from hd] at hph
    split at hph <;> cases hph
  have ho2 : OthersRest u (onCmd u (fun x => { x with arrived := (entryOfRead T x w, 0, bs) :: x.arrived })
      (dataCame u c.func bs.length s)) := ho1.onCmd fun _ => rfl
  obtain ⟨r, ek⟩ := kickFlail_frame (onCmd u (fun x => { x with arrived := (entryOfRead T x w, 0, bs) :: x.arrived })
    (dataCame u c.func bs.length s))
  have hbare : Bare fun x => x.arrived = (entryOfRead T c w, 0, bs) :: c.arrived ∧ x.phase ≠ .discarded ∧ x.bytes = c.bytes :=
    fun x y hxy hx => ⟨((congrArg Cmd.arrived hxy :) : x.arrived = y.arrived) ▸ hx.1,
      ((congrArg Cmd.phase hxy :) : x.phase = y.phase) ▸ hx.2.1, ((congrArg Cmd.bytes hxy :) : x.bytes = y.bytes) ▸ hx.2.2⟩
  obtain ⟨h3, ho3⟩ := settleUpdates_standing (h2.of_cmds (congrArg State.cmds ek :)) (ho2.of_cmds (congrArg State.cmds ek :)) hbare
    (fun x hx => hx.2.1) fun x st d hx => ⟨hx.1, by simp, hx.2.2⟩
  have hres : resumeCmd u c w (some bs) (dataCame u c.func bs.length s) = kickFlail
      (onCmd u (fun x => { x with arrived := (entryOfRead T x w, 0, bs) :: x.arrived }) (dataCame u c.func bs.length s)) := by
    rw [resumeCmd, if_neg (by omega), if_pos hop, updateHost]
    simp only [hc1, hT1]
    rw [if_pos (hk.trans hck)]
  have hidle := letOthers_idle h3 ho3 fun x hx => .inr (by
    rw [isKv, hx.2.2]
    rcases hnot with e | e | e <;> simp [e])
  have hgo := commandReply_data (u := u) (c := c) (s := s) ha hlen
  rw [hres, hidle] at hgo
  obtain ⟨x, hx, harr, -⟩ := h3.cmdOf
  rw [hgo]
  exact ⟨x, hx, harr⟩

/-- A piece whose destination lies in device memory, where no poison is, is written (R570, R651). -/
theorem putPiece_written {dst : Rng} {bs : List Byte} (hd : dst.dev = true) (h6 : dst.addr / 2 ^ 52 ≠ 6)
    (hn : poisonedUnits s dst.addr bs.length = []) :
    ∃ v, putPiece c dst bs s = (true, v) ∧ SameCmds s v ∧ v.mem = (daPoke s dst.addr bs).mem := by
  set s1 := tally (.bridge (bridgeOf c.func)) 0x305 (ceilDiv bs.length 64) (.cmd c.func c.cls) s
  set s2 := activity (.cmd c.uid) (306 + 10 * bridgeOf c.func + 6) (ceilDiv bs.length 64) s1
  set s3 := chargeCmd c dst.addr bs.length s2
  have h13 : Charged s1 s3 := activity_charged.trans chargeCmd_charged
  have hpoison : s3.poison = s.poison := (congrArg State.poison h13.rest :)
  have himage : s3.image = s.image := (congrArg State.image h13.rest :)
  have hnone : poisonedUnits s3 dst.addr bs.length = [] := by
    rw [← hn]
    simp only [poisonedUnits, poisonAt, hpoison, himage]
  have hput : putPiece c dst bs s = daWrite s3 dst.addr bs := by
    have hstep : putPiece c dst bs s = rngWriteRo (vat s3.funcs c.func).pci.roEn c dst.dev dst.addr bs s3 := by
      have e : (if dst.dev then s3 else s2) = s3 := if_pos hd
      exact congrArg (fun v : State => rngWriteRo (vat v.funcs c.func).pci.roEn c dst.dev dst.addr bs v) e
    rw [hstep, rngWriteRo, if_neg (by simp [hd]), if_neg h6]
  have hw : daWrite s3 dst.addr bs = (true, { daPoke s3 dst.addr bs with poison := s3.poison.filter fun u => !([] : List Nat).contains u }) := by
    simp only [daWrite, hnone]
    rfl
  refine ⟨_, hput.trans hw, ?_, ?_⟩
  · refine SameCmds.trans (.of_cmds rfl : SameCmds s s1) (h13.sameCmds.trans (.of_cmds ?_))
    exact daPoke_cmds
  · exact daPoke_mem_of (congrArg State.mem h13.rest :) himage

theorem movePieces_done {n : Nat} (hc : cmdOf s u = some c) (hp : c.phase ≠ .ended)
    (hn : pieceAt c.bytes (copySegs c) c.done = none) : movePieces u (n + 1) s = stamp u 10 false (endCmd u 0 0 s) := by
  rw [movePieces]
  simp only [hc, hn]
  rw [if_neg (by simpa using hp)]

/-- A piece has been written, and the copy goes on. -/
def pieceWritten (u : Nat) (v : State) : State :=
  onCmd u (fun c => { c with phase := .working }) (onCmd u (fun c => { c with done := c.done + 1 }) v)

/-- The last piece of a copy has come from the host (R570). -/
theorem pieceData {src dst : Rng} (h : Standing u (Like c) s) (ho : OthersRest u s) (hp : c.phase = .waitHost) (hw : c.wants = [w])
    (hop : opcodeOf c.bytes = 0x40) (hload : isLoad c = false) (hck : c.checked = true)
    (hpiece : pieceAt c.bytes (copySegs c) c.done = some (src, dst)) (hlast : pieceAt c.bytes (copySegs c) (c.done + 1) = none)
    (hd : dst.dev = true) (h6 : dst.addr / 2 ^ 52 ≠ 6) (ha : w.ats = false) {bs : List Byte} (hlen : bs.length = w.len)
    (hn : poisonedUnits s dst.addr bs.length = []) :
    ∃ x, (commandReply u c w (.data bs) s).mem = (daPoke s dst.addr bs).mem ∧
      cmdOf (commandReply u c w (.data bs) s) u = some x ∧ x.phase = .ended ∧ x.status = 0 := by
  obtain ⟨h1, ho1, hm1, hpo1, him1, -⟩ := dataCame_standing c.func bs.length h ho
  set s1 := dataCame u c.func bs.length s
  obtain ⟨ws, ph, er⟩ := readAnswered_rest (c := c)
  rw [er] at h1
  have hph : ph = .working := by
    have e := readAnswered_phase hp hw
    rw [er] at e
    exact e
  subst hph
  obtain ⟨c1, hc1, hl1⟩ := h1.cmdOf
  have hn1 : poisonedUnits s1 dst.addr bs.length = [] := by
    rw [← hn]
    simp only [poisonedUnits, poisonAt, hpo1, him1]
  obtain ⟨v, hv, hsame, hmem⟩ := putPiece_written (c := c1) hd h6 hn1
  have h2 := (h1.same hsame (like_bare _)).onCmd (Q := Like { c with wants := ws, phase := .working, done := c.done + 1 })
    (g := fun c => { c with done := c.done + 1 }) fun x hx => ⟨hx.map (g := fun c => { c with done := c.done + 1 }) fun _ => rfl, rfl⟩
  have ho2 : OthersRest u (onCmd u (fun c => { c with done := c.done + 1 }) v) := (ho1.same hsame).onCmd fun _ => rfl
  obtain ⟨c2, hc2, -⟩ := h2.cmdOf
  have h3 : Standing u (Like { c with wants := ws, phase := .working, done := c.done + 1 }) (pieceWritten u v) := h2.onCmd
    (g := fun c => { c with phase := .working }) fun x hx => ⟨hx.map (g := fun c => { c with phase := .working }) fun _ => rfl, rfl⟩
  have ho3 : OthersRest u (pieceWritten u v) :=
    ho2.onCmd fun _ => rfl
  obtain ⟨c3, hc3, hl3⟩ := h3.cmdOf
  have hend : ∀ n, movePieces u (n + 1) (pieceWritten u v) =
      stamp u 10 false (endCmd u 0 0 (pieceWritten u v)) := by
    intro n
    refine movePieces_done hc3 ?_ ?_
    · rw [show c3.phase = .working from (congrArg Cmd.phase hl3 :)]
      decide
    · have e := congrArg (fun x : Cmd => pieceAt x.bytes (copySegs x) x.done) hl3
      exact Eq.trans e hlast
  have hres : resumeCmd u c w (some bs) s1 = stamp u 10 false (endCmd u 0 0 (pieceWritten u v)) := by
    have hp1 : pieceAt c1.bytes (copySegs c1) c1.done = some (src, dst) := by
      have e := congrArg (fun x : Cmd => pieceAt x.bytes (copySegs x) x.done) hl1
      exact Eq.trans e hpiece
    have hck1 : c1.checked = true := (congrArg Cmd.checked hl1 :).trans hck
    rw [resumeCmd, if_neg (by omega), if_neg (by simp [hop, hload]), if_pos (.inl hop), copyHost]
    simp only [hc1]
    rw [if_neg (by simp [hck1]), hp1]
    simp only [hv, if_true, donePiece, moveCopy, hc2]
    exact hend _
  have hbare : Bare fun x => x.phase = .ended ∧ x.status = 0 := fun x y hxy hx =>
    ⟨((congrArg Cmd.phase hxy :) : x.phase = y.phase) ▸ hx.1, ((congrArg Cmd.status hxy :) : x.status = y.status) ▸ hx.2⟩
  have h4 : Standing u (fun x => x.phase = .ended ∧ x.status = 0) (endCmd u 0 0 (pieceWritten u v)) := by
    refine h3.onCmd fun x hx => ?_
    rw [if_neg (by rw [show x.phase = .working from (congrArg Cmd.phase hx :)]; decide)]
    exact ⟨⟨rfl, rfl⟩, rfl⟩
  have ho4 : OthersRest u (endCmd u 0 0 (pieceWritten u v)) := ho3.onCmd fun x => by split <;> rfl
  have hk := stamp_keptFor (u := u) hbare 10 false (endCmd u 0 0 (pieceWritten u v))
  have h5 := hk.standing h4
  have hgo := commandReply_data (u := u) (c := c) (s := s) ha hlen
  rw [hres, settleUpdates_idle h5 (hk.rest ho4) fun x hx => .inl hx.1, letOthers_idle h5 (hk.rest ho4) fun x hx => .inl hx.1] at hgo
  obtain ⟨x, hx, he, hst⟩ := h5.cmdOf
  rw [hgo]
  exact ⟨x, hk.mem.trans (hmem.trans (daPoke_mem_of hm1 him1)), hx, he, hst⟩

/-- Data that come under an old translation are kept (R501). -/
theorem earlyData (h : Standing u (Like c) s) (ha : w.ats = true) (hf : c.fresh ≠ 0) {x : HostRead}
    (hx : (c.wants.filter fun w => !w.ats)[c.early.length]? = some x) {bs : List Byte} (hlen : bs.length = x.len) :
    ∃ y, cmdOf (commandReply u c w (.data bs) s) u = some y ∧ y.early = c.early ++ [bs] ∧ y.wants = c.wants ∧
      (commandReply u c w (.data bs) s).mem = s.mem ∧ (commandReply u c w (.data bs) s).qs = s.qs := by
  have hb : Charged s (busActivity (.cmd u) c.func bs.length s) := busActivity_charged
  have hs := hb.rest
  have h1 := (h.same hb.sameCmds (like_bare c)).onCmd (Q := fun y => y.early = c.early ++ [bs] ∧ y.wants = c.wants)
    (g := fun c => { c with early := c.early ++ [bs] }) fun y hy =>
      ⟨⟨congrArg (· ++ [bs]) (congrArg Cmd.early hy :), (congrArg Cmd.wants hy :)⟩, rfl⟩
  obtain ⟨g, o, e⟩ := readDone_frame c.func u (onCmd u (fun c => { c with early := c.early ++ [bs] })
    (busActivity (.cmd u) c.func bs.length s))
  have hgo : commandReply u c w (.data bs) s = readDone c.func u (onCmd u (fun c => { c with early := c.early ++ [bs] })
      (busActivity (.cmd u) c.func bs.length s)) := by
    simp only [commandReply, ha, if_true, if_neg hf, keepEarly, hx, hlen]
  obtain ⟨y, hy, hye, hyw⟩ := h1.cmdOf
  rw [hgo, e]
  exact ⟨y, hy, hye, hyw, (congrArg State.mem hs :), (congrArg State.qs hs :)⟩

/-- Data that answer nothing are moved, and no more. -/
theorem strayData {bs : List Byte} (hf : w.ats = true → c.fresh = 0) (hl : w.ats = true ∨ bs.length ≠ w.len) :
    commandReply u c w (.data bs) s = busActivity (.cmd u) c.func bs.length s := by
  unfold commandReply
  dsimp only
  by_cases ha : w.ats = true
  · rw [if_pos ha, if_pos (hf ha)]
  · rw [if_neg ha, if_pos (hl.resolve_left ha)]

end

/-- What the host answers to a command (R501, R502). -/
theorem commandAnswers (s : State) (u : Nat) (c : Cmd) (w : HostRead) (rest : List HostRead) (hc : cmdOf s u = some c)
    (hw : c.wants = w :: rest) (hp : c.phase = .waitHost) (honly : ∀ x ∈ s.cmds, x.uid = u → x = c)
    (hport : portUp s (portOf c.func) = true)
    (hothers : ∀ x ∈ s.cmds, x.uid ≠ u → isKv x = false ∧ writesRows x = false ∧ opcodeOf x.bytes ≠ 0x48 ∧ opcodeOf x.bytes ≠ 0x49) :
    let fails (o : Host.Outcome State Fault Refusal) : Prop := ∃ t, o = .next t ∧ FailsAs u c s t
    fails (exec (.hostReadCompletion (.command u) .failed) s) ∧ fails (exec (.hostReadCompletion (.command u) .poisoned) s) ∧
    (timeoutOff c.func .timeout s = false → fails (exec (.completionTimeout (.command u)) s)) ∧
    (w.ats = true → fails (exec (.hostReadCompletion (.command u) .refused) s)) := by
  intro fails
  have hs : Standing u (· = c) s := ⟨⟨c, List.mem_of_find?_eq_some hc, beq_iff_eq.1 (List.find?_some hc :)⟩, honly⟩
  have ho : OthersRest u s := fun x hx hu => by
    obtain ⟨h1, h2, h3, h4⟩ := hothers x hx hu
    simp [isStirred, h1, h2, h3, h4]
  have hfail (r : HostReply) (hr : ∀ v, commandReply u c w r v = readFailed u c (if w.ats && c.fresh == 0 then v else readDone c.func u v)) :
      FailsAs u c s (commandReply u c w r (noteReply c.func r s)) := by
    obtain ⟨g1, o1, e1⟩ := noteReply_frame c.func r s
    have hv : ∃ g o, (if w.ats && c.fresh == 0 then noteReply c.func r s else readDone c.func u (noteReply c.func r s)) =
        { s with funcs := g, out := o } := by
      split
      · exact ⟨g1, o1, e1⟩
      · obtain ⟨g2, o2, e2⟩ := readDone_frame c.func u (noteReply c.func r s)
        exact ⟨g2, o2, by rw [e2, e1]⟩
    obtain ⟨g, o, ev⟩ := hv
    rw [hr, ev]
    obtain ⟨x, hx, h1, h2⟩ := readFailed_ends (s := { s with funcs := g, out := o }) (hs.of_cmds rfl) (ho.of_cmds rfl) hp
    exact ⟨x, hx, h1, h2⟩
  refine ⟨⟨_, exec_commandReply hc hw hport (by simp), hfail .failed fun _ => rfl⟩,
    ⟨_, exec_commandReply hc hw hport (by simp), hfail .poisoned fun _ => rfl⟩,
    fun ht => ⟨_, exec_commandTimeout hc hw ht, hfail .timeout fun _ => rfl⟩, fun ha => ⟨_, exec_commandReply hc hw hport (by simp), ?_⟩⟩
  rw [show commandReply u c w .refused (noteReply c.func .refused s) = readFailed u c s from if_pos ha]
  exact readFailed_ends hs ho hp

end Sys2Proof.Machine
end

section
/-!
PROOFS. What the host answers to a mailbox, and a write of HEAD of a function's ring of notices.
-/
namespace Sys2Proof.Machine

/-! ### A mailbox and its answer -/

section
variable {s : State} {f : Nat} {r : Reply}

theorem mbxOf_onMbx {g : Mailbox → Mailbox} : mbxOf (onMbx f g s) f = g (mbxOf s f) := congrArg Func.mbx vat_onFunc

/-- An answer sets RESULT of its mailbox and changes no other register of it that the answer does not need. -/
theorem reply_spec (f : Nat) (r : Reply) (s : State) :
    ∃ x, ∃ b : Mailbox → List Byte, reply f r s = onMbx f (fun M => { M with result := some x, bulk := b M }) s := by
  unfold reply
  dsimp only
  split
  · exact ⟨_, fun M => M.bulk, rfl⟩
  · exact ⟨_, fun _ => r.bulk, rfl⟩

theorem reply_of_noBulk (h : r.bulk = []) :
    reply f r s = onMbx f (fun M => { M with result := some (BitVec.ofNat 8 r.status, r.out), bulk := r.bulk }) s := by
  rw [reply, if_neg (by simp [h])]

theorem noteReply_mbx (f : Nat) (r : HostReply) (s : State) (j : Nat) : mbxOf (noteReply f r s) j = mbxOf s j := by
  have haer (b : Nat) : mbxOf (aerError f b s) j = mbxOf s j := by
    have hpci (g : PciCfg → PciCfg) : mbxOf (onFunc f (fun F => { F with pci := g F.pci }) s) j = mbxOf s j := by
      rw [mbxOf, vat_onFunc_cases]
      split <;> rfl
    unfold aerError
    extract_lets p fatal s1
    have hs1 : mbxOf s1 j = mbxOf s j := hpci fun P => { P with aerStat := P.aerStat ||| (1 <<< b) }
    exact iteInduction (motive := fun t : State => mbxOf t j = mbxOf s j) (fun _ => hs1) fun _ => hs1
  unfold noteReply
  split
  · exact haer 12
  · exact haer 14
  · rfl

/-- The answer to a request of a mailbox whose function has left no operation behind. -/
theorem exec_mailboxReply {f : Fin 64} {r : HostReply} (hr : r ≠ .timeout) (hp : portUp s (portOf f.val) = true)
    (hl : leftChange s f.val = none) (hleft : ∀ x ∈ s.mg.left, x.1 ≠ f.val) :
    exec (.hostReadCompletion (.mailbox f) r) s = .next (answerMailbox f.val r (noteReply f.val r s)) := by
  obtain ⟨g, o, e⟩ := noteReply_frame f.val r s
  have hl1 : leftChange (noteReply f.val r s) f.val = none := by rw [e]; exact hl
  have hf1 : (noteReply f.val r s).mg.left.find? (·.1 == f.val) = none := by
    rw [e]
    simpa [List.find?_eq_none] using fun a b h => hleft (a, b) h
  change execHostReadCompletion (.mailbox f) r s = _
  rw [execHostReadCompletion, if_neg (by simp [hr, readFunc, hp])]
  change Host.Outcome.next ((answerLeft f.val r (noteReply f.val r s)).getD (answerMailbox f.val r (noteReply f.val r s))) = _
  rw [answerLeft, hl1, hf1]
  rfl

theorem exec_mailboxTimeout {f : Fin 64} (ht : timeoutOff f.val .timeout s = false)
    (hl : leftChange s f.val = none) (hleft : ∀ x ∈ s.mg.left, x.1 ≠ f.val) :
    exec (.completionTimeout (.mailbox f)) s = .next (answerMailbox f.val .timeout (noteReply f.val .timeout s)) := by
  obtain ⟨g, o, e⟩ := noteReply_frame f.val .timeout s
  have hl1 : leftChange (noteReply f.val .timeout s) f.val = none := by rw [e]; exact hl
  have hf1 : (noteReply f.val .timeout s).mg.left.find? (·.1 == f.val) = none := by
    rw [e]
    simpa [List.find?_eq_none] using fun a b h => hleft (a, b) h
  change execCompletionTimeout (.mailbox f) s = _
  rw [execCompletionTimeout, if_neg (by simp [readFunc, ht])]
  change Host.Outcome.next ((answerLeft f.val .timeout (noteReply f.val .timeout s)).getD (answerMailbox f.val .timeout (noteReply f.val .timeout s))) = _
  rw [answerLeft, hl1, hf1]
  rfl

/-- The queue of changes holds none that a function has left. -/
theorem leftChange_none (h : s.mg.changeQueue = [] ∨ s.mg.changeQueue = [.mailbox f]) : leftChange s f = none := by
  rcases h with h | h <;> rw [leftChange, h] <;> rfl

/-- The queue of changes holds at most the one of the mailbox. -/
theorem pump_single (hq : s.mg.changeQueue = [.mailbox f]) (hw : (mbxOf s f).want = none) :
    pump s = validateChange f none { s with mg := { s.mg with changeQueue := [] } } := by
  rw [pump, hq]
  change pumpChanges 1 s = _
  rw [pumpChanges, hq]
  dsimp only
  rw [hw]
  rfl

theorem pump_empty (hq : s.mg.changeQueue = []) : pump s = s := by
  rw [pump, hq]
  rfl

/-- A change that is judged: it is accepted, or the mailbox is told. -/
theorem validateChange_spec (f : Nat) (s : State) :
    let t := validateChange f none s
    (mbxOf t f).want = (mbxOf s f).want ∧ (mbxOf t f).input = (mbxOf s f).input ∧ t.mg = s.mg ∧
      ((mbxOf t f).result.isSome = true ∨ t.cfg.changes.length = s.cfg.changes.length + 1) := by
  unfold validateChange
  split
  · next k _ =>
    rw [acceptChange, jAdd_frame]
    exact ⟨rfl, rfl, rfl, .inr (by simp)⟩
  · next r _ =>
    obtain ⟨x, b, e⟩ := reply_spec f r s
    rw [if_neg (by simp), e]
    intro t
    have hm : mbxOf t f = { mbxOf s f with result := some x, bulk := b (mbxOf s f) } := mbxOf_onMbx
    rw [hm]
    exact ⟨rfl, rfl, rfl, .inl rfl⟩

end

/-- The bytes that a mailbox operation waits for, or their failure (R502, R829). -/
theorem mailboxAnswers (s : State) (f : Fin 64) (w : HostRead) (hw : (mbxOf s f.val).want = some w) (hp : portUp s (portOf f.val) = true)
    (hleft : ∀ x ∈ s.mg.left, x.1 ≠ f.val) (hq : s.mg.changeQueue = [] ∨ s.mg.changeQueue = [.mailbox f.val]) :
    let M := mbxOf s f.val
    (∀ bs, bs.length = w.len → M.op = 0x30 → ∃ t, exec (.hostReadCompletion (.mailbox f) (.data bs)) s = .next t ∧
      t.flash = (stageBytes (numAt (mbxInput M) 0 4) bs s).flash ∧ t.mg = (stageBytes (numAt (mbxInput M) 0 4) bs s).mg ∧
      (mbxOf t f.val).result = some (0, []) ∧ (mbxOf t f.val).want = none) ∧
    (∀ bs, bs.length = w.len → M.op ≠ 0x30 → M.result = none → s.mg.changeQueue = [.mailbox f.val] →
      ∃ t, exec (.hostReadCompletion (.mailbox f) (.data bs)) s = .next t ∧ (mbxOf t f.val).want = none ∧
        (mbxOf t f.val).input = bs ∧ t.mg.changeQueue = [] ∧
        ((mbxOf t f.val).result.isSome = true ∨ t.cfg.changes.length = s.cfg.changes.length + 1)) ∧
    (∀ bs, bs.length ≠ w.len → exec (.hostReadCompletion (.mailbox f) (.data bs)) s = .next s) ∧
    (let fails (c : Instr) : Prop := ∃ t, exec c s = .next t ∧ (mbxOf t f.val).want = none ∧
       (mbxOf t f.val).result = some (0x07, leBytes 1 2) ∧ t.mg.changeQueue = [] ∧ t.cfg = s.cfg ∧ t.flash = s.flash
     fails (.hostReadCompletion (.mailbox f) .failed) ∧ fails (.hostReadCompletion (.mailbox f) .poisoned) ∧
     (timeoutOff f.val .timeout s = false → fails (.completionTimeout (.mailbox f)))) := by
  intro M
  have hl : leftChange s f.val = none := leftChange_none hq
  have data (bs : List Byte) : exec (.hostReadCompletion (.mailbox f) (.data bs)) s = .next
      (if bs.length = w.len then mailboxData f.val bs s else s) := by
    rw [exec_mailboxReply (by simp) hp hl hleft]
    change Host.Outcome.next (answerMailbox f.val (.data bs) s) = _
    rw [answerMailbox, hw]
  refine ⟨fun bs hlen hop => ?_, fun bs hlen hop hres hq1 => ?_, fun bs hlen => ?_, ?_⟩
  · have hop' : M.op.toNat = 0x30 := by rw [hop]; rfl
    have hgo : mailboxData f.val bs s = onMbx f.val (fun M => { M with result := some (BitVec.ofNat 8 mbOk, []), bulk := [] })
        (stageBytes (numAt (mbxInput M) 0 4) bs (onMbx f.val (fun M => { M with want := none, input := bs }) s)) := by
      unfold mailboxData
      rw [if_pos hop']
      exact reply_of_noBulk rfl
    refine ⟨_, data bs, ?_⟩
    rw [if_pos hlen, hgo, mbxOf_onMbx]
    have hm : mbxOf (stageBytes (numAt (mbxInput M) 0 4) bs (onMbx f.val (fun M => { M with want := none, input := bs }) s)) f.val =
      { M with want := none, input := bs } :=
        (mbxOf_onMbx : mbxOf (onMbx f.val (fun M => { M with want := none, input := bs }) s) f.val = { M with want := none, input := bs })
    rw [hm]
    exact ⟨rfl, rfl, rfl, rfl⟩
  · have hop' : M.op.toNat ≠ 0x30 := fun h => hop (BitVec.eq_of_toNat_eq h)
    have hm : mbxOf (onMbx f.val (fun M => { M with want := none, input := bs }) s) f.val = { M with want := none, input := bs } :=
      mbxOf_onMbx
    have hgo : mailboxData f.val bs s = validateChange f.val none
        { onMbx f.val (fun M => { M with want := none, input := bs }) s with mg := { s.mg with changeQueue := [] } } := by
      unfold mailboxData
      rw [if_neg hop']
      exact pump_single hq1 (by rw [hm])
    obtain ⟨h1, h2, h3, h4⟩ := validateChange_spec f.val
      { onMbx f.val (fun M => { M with want := none, input := bs }) s with mg := { s.mg with changeQueue := [] } }
    refine ⟨_, data bs, ?_⟩
    rw [if_pos hlen, hgo]
    exact ⟨h1.trans (congrArg Mailbox.want hm), h2.trans (congrArg Mailbox.input hm), by rw [h3], h4⟩
  · rw [data, if_neg hlen]
  · intro fails
    have hfail (v : State) (hm : (mbxOf v f.val).want = some w) (hmg : v.mg = s.mg) : ∃ t, mailboxFails f.val v = t ∧
        (mbxOf t f.val).want = none ∧ (mbxOf t f.val).result = some (0x07, leBytes 1 2) ∧ t.mg.changeQueue = [] ∧
        t.cfg = v.cfg ∧ t.flash = v.flash := by
      have hmb : mailboxFails f.val v = onMbx f.val (fun M => { M with result := some (0x07, leBytes 1 2), bulk := [] })
          { onMbx f.val (fun M => { M with want := none }) v with
            mg := { v.mg with changeQueue := [] } } := by
        have hqv : v.mg.changeQueue = [] ∨ v.mg.changeQueue = [.mailbox f.val] := hmg ▸ hq
        have hnone : (v.mg.changeQueue.filter fun q => !(match q with | .mailbox g => g == f.val | _ => false)) = [] := by
          rcases hqv with h | h <;> rw [h] <;> simp
        have hgo : mailboxFails f.val v = pump (reply f.val { status := mbXfer, out := leBytes 1 2, bulk := [] }
            { onMbx f.val (fun M => { M with want := none }) v with mg := { v.mg with changeQueue := [] } }) := by
          rw [← hnone]
          rfl
        rw [hgo, reply_of_noBulk rfl, pump_empty rfl]
        rfl
      refine ⟨_, hmb, ?_⟩
      rw [mbxOf_onMbx]
      have hm1 : mbxOf { onMbx f.val (fun M => { M with want := none }) v with mg := { v.mg with changeQueue := [] } } f.val =
          { mbxOf v f.val with want := none } :=
        (mbxOf_onMbx : mbxOf (onMbx f.val (fun M => { M with want := none }) v) f.val = { mbxOf v f.val with want := none })
      rw [hm1]
      exact ⟨rfl, rfl, rfl, rfl, rfl⟩
    have hnote (r : HostReply) : (mbxOf (noteReply f.val r s) f.val).want = some w ∧ (noteReply f.val r s).mg = s.mg ∧
        (noteReply f.val r s).cfg = s.cfg ∧ (noteReply f.val r s).flash = s.flash := by
      obtain ⟨g, o, e⟩ := noteReply_frame f.val r s
      rw [noteReply_mbx, e]
      exact ⟨hw, rfl, rfl, rfl⟩
    have hanswer (r : HostReply) (hr : ∀ v, (mbxOf v f.val).want = some w → answerMailbox f.val r v = mailboxFails f.val v) :
        ∃ t, answerMailbox f.val r (noteReply f.val r s) = t ∧ (mbxOf t f.val).want = none ∧
          (mbxOf t f.val).result = some (0x07, leBytes 1 2) ∧ t.mg.changeQueue = [] ∧ t.cfg = s.cfg ∧ t.flash = s.flash := by
      obtain ⟨h1, h2, h3, h4⟩ := hnote r
      obtain ⟨t, e, ht⟩ := hfail _ h1 h2
      rw [h3, h4] at ht
      exact ⟨t, (hr _ h1).trans e, ht⟩
    refine ⟨?_, ?_, fun ht => ?_⟩
    · obtain ⟨t, e, h⟩ := hanswer .failed fun v hv => by rw [answerMailbox, hv]
      exact ⟨t, (exec_mailboxReply (by simp) hp hl hleft).trans (congrArg _ e), h⟩
    · obtain ⟨t, e, h⟩ := hanswer .poisoned fun v hv => by rw [answerMailbox, hv]
      exact ⟨t, (exec_mailboxReply (by simp) hp hl hleft).trans (congrArg _ e), h⟩
    · obtain ⟨t, e, h⟩ := hanswer .timeout fun v hv => by rw [answerMailbox, hv]
      exact ⟨t, (exec_mailboxTimeout ht hl hleft).trans (congrArg _ e), h⟩

/-- An answer to a mailbox that waits for nothing. -/
theorem mailboxIgnores (s : State) (f : Fin 64) (hw : (mbxOf s f.val).want = none) (hl : leftChange s f.val = none)
    (hleft : ∀ x ∈ s.mg.left, x.1 ≠ f.val) :
    (∀ r : HostReply, exec (.hostReadCompletion (.mailbox f) r) s =
      .next (if r = .poisoned ∧ portUp s (portOf f.val) = true then noteReply f.val r s else s)) ∧
    exec (.completionTimeout (.mailbox f)) s =
      .next (if timeoutOff f.val .timeout s then s else noteReply f.val .timeout s) := by
  have hidle (r : HostReply) : answerMailbox f.val r (noteReply f.val r s) = noteReply f.val r s := by
    rw [answerMailbox, noteReply_mbx, hw]
  constructor
  · intro r
    by_cases hr : r = .timeout
    · subst hr
      rw [if_neg (by simp)]
      rfl
    · by_cases hp : portUp s (portOf f.val) = true
      · rw [exec_mailboxReply hr hp hl hleft, hidle]
        cases r with
        | poisoned => rw [if_pos ⟨rfl, hp⟩]
        | timeout => exact absurd rfl hr
        | granted => rfl
        | refused => rfl
        | data bs => rfl
        | failed => rfl
      · rw [if_neg fun h => hp h.2]
        change execHostReadCompletion (.mailbox f) r s = _
        rw [execHostReadCompletion, if_pos (by simp [readFunc, hp])]
  · by_cases ht : timeoutOff f.val .timeout s = true
    · rw [if_pos ht]
      change execCompletionTimeout (.mailbox f) s = _
      rw [execCompletionTimeout, if_pos (by simp [readFunc, ht])]
    · rw [if_neg ht, exec_mailboxTimeout (by simpa using ht) hl hleft, hidle]

/-- A judged change of a function that has been reset since reports to no mailbox. -/
theorem validateChange_left (f : Nat) (M : Mailbox) (s : State) :
    (validateChange f (some M) s).mg = s.mg ∧ (validateChange f (some M) s).funcs = s.funcs := by
  unfold validateChange
  split
  · next k _ =>
    rw [acceptChange, jAdd_frame]
    exact ⟨rfl, rfl⟩
  · exact ⟨rfl, rfl⟩

/-- The bytes of a change whose function has been reset since, or their failure (R519). -/
theorem leftAnswers (s : State) (f : Fin 64) (M : Mailbox) (w : HostRead) (hq : s.mg.changeQueue = [.left f.val M])
    (hw : M.want = some w) (hp : portUp s (portOf f.val) = true) :
    (∀ bs, bs.length = w.len → ∃ t, exec (.hostReadCompletion (.mailbox f) (.data bs)) s = .next t ∧ t.mg.changeQueue = [] ∧
      t.funcs = s.funcs) ∧
    ∃ t, exec (.hostReadCompletion (.mailbox f) .failed) s = .next t ∧ t.mg.changeQueue = [] ∧ t.cfg = s.cfg ∧
      t.funcs = s.funcs := by
  have hl : leftChange s f.val = some (M, w) := by
    rw [leftChange, hq]
    simp [hw]
  have hgo (r : HostReply) (hr : r ≠ .timeout) : exec (.hostReadCompletion (.mailbox f) r) s =
      .next (answerRead (.mailbox f) r (noteReply f.val r s)) := by
    change execHostReadCompletion (.mailbox f) r s = _
    rw [execHostReadCompletion, if_neg (by simp [hr, readFunc, hp])]
    rfl
  have hset (q : List QueuedChange) : setLeft f.val M q s = { s with mg := { s.mg with changeQueue := q } } := by
    unfold setLeft
    rw [hq]
    simp [List.findIdx_cons]
  constructor
  · intro bs hlen
    refine ⟨_, (hgo _ (by simp)).trans (congrArg _ (?_ : _ = validateChange f.val (some { M with want := none, input := bs })
      { s with mg := { s.mg with changeQueue := [] } })), ?_⟩
    · change (answerLeft f.val (.data bs) s).getD _ = _
      rw [answerLeft, hl]
      dsimp only
      rw [if_pos hlen, hset, Option.getD_some]
      rfl
    · obtain ⟨h1, h2⟩ := validateChange_left f.val { M with want := none, input := bs } { s with mg := { s.mg with changeQueue := [] } }
      exact ⟨by rw [h1], h2⟩
  · refine ⟨{ s with mg := { s.mg with changeQueue := [] } }, (hgo _ (by simp)).trans (congrArg _ ?_), rfl, rfl, rfl⟩
    change (answerLeft f.val .failed s).getD _ = _
    rw [answerLeft, hl]
    dsimp only
    rw [hset, Option.getD_some]
    exact pump_empty rfl

/-! ### HEAD of QDB_KVN (R365) -/

/-- A notice is written: the ring goes on, and the function's host gets it when the function may issue. -/
theorem writeNotice_spec (f : Nat) (bs : List Byte) (s : State) : let t := writeNotice f bs s
    (vat t.funcs f).held = (vat s.funcs f).held ∧ (vat t.funcs f).kvn = ringStep (vat s.funcs f).kvn ∧
      (mayIssue s f = true → .hostWrite f ((vat s.funcs f).kvn.addr.toNat + 32 * (vat s.funcs f).kvn.tail)
        (leBytes 1 (b2n (vat s.funcs f).kvn.phase) ++ bs.drop 1) (attrOf s f false) ∈ t.out) := by
  intro t
  let w := hostWrite f ((vat s.funcs f).kvn.addr.toNat + 32 * (vat s.funcs f).kvn.tail)
    (leBytes 1 (b2n (vat s.funcs f).kvn.phase) ++ bs.drop 1) s
  let u := onFunc f (fun F => { F with kvn := ringStep F.kvn }) w
  have hcharge : Charged (raiseMsix f (vat s.funcs f).kvn.vector u) t := houseBytes_charged
  have hw : w.funcs = s.funcs := by
    rw [show w = _ from hostWrite_frame]
  have hfuncs : t.funcs = (raiseMsix f (vat s.funcs f).kvn.vector u).funcs := by rw [hcharge.rest]
  have hf : vat t.funcs f = { vat u.funcs f with pba := (vat t.funcs f).pba } := by
    rw [hfuncs]
    exact (raiseMsix_pbaOnly f _ u).funcs f
  have hu : vat u.funcs f = { vat s.funcs f with kvn := ringStep (vat s.funcs f).kvn } := by
    rw [show vat u.funcs f = _ from vat_onFunc, hw]
  rw [hf, hu]
  refine ⟨rfl, rfl, fun hi => ?_⟩
  have hout : t.out = (raiseMsix f (vat s.funcs f).kvn.vector u).out := by rw [hcharge.rest]
  obtain ⟨l, hl⟩ := (raiseMsix_keeps (a0 := f) (a1 := (vat s.funcs f).kvn.vector) (Keeps.same u)).out
  have hwo : u.out = .hostWrite f ((vat s.funcs f).kvn.addr.toNat + 32 * (vat s.funcs f).kvn.tail)
      (leBytes 1 (b2n (vat s.funcs f).kvn.phase) ++ bs.drop 1) (attrOf s f false) :: s.out :=
    congrArg State.out (if_pos hi : w = _)
  rw [hout, hl, hwo]
  simp

/-- A write of HEAD is taken, and lets a held notice go to the ring. -/
theorem kvnHeadTaken (s : State) (f : Fin 64) (h : BitVec 16) (hl : linksTraining s = true) (he : earlyState s = false)
    (hp : pageTakes s f.val = true) :
    ((vat s.funcs f.val).held = [] →
      exec (.qdbKvnHead f h) s = .next (onFunc f.val (fun F => { F with kvn := { F.kvn with head := h } }) s)) ∧
    (∀ b, (vat s.funcs f.val).held = [b] → ringRoom { (vat s.funcs f.val).kvn with head := h } = true →
      ∃ t, exec (.qdbKvnHead f h) s = .next t ∧ (vat t.funcs f.val).held = [] ∧
        (vat t.funcs f.val).kvn = ringStep { (vat s.funcs f.val).kvn with head := h } ∧
        (portUp s (portOf f.val) = true → .hostWrite f.val
          ((vat s.funcs f.val).kvn.addr.toNat + 32 * (vat s.funcs f.val).kvn.tail)
          (leBytes 1 (b2n (vat s.funcs f.val).kvn.phase) ++ b.drop 1) (attrOf s f.val false) ∈ t.out)) := by
  let u := onFunc f.val (fun F => { F with kvn := { F.kvn with head := h } }) s
  have hu : vat u.funcs f.val = { vat s.funcs f.val with kvn := { (vat s.funcs f.val).kvn with head := h } } := vat_onFunc
  have hgo : exec (.qdbKvnHead f h) s = .next (flushNotices f.val 256 u) := by
    change execQdbKvnHead f h s = _
    rw [execQdbKvnHead, if_neg (by simp [hl, he]), if_pos hp]
    rfl
  constructor
  · intro hn
    rw [hgo, flushNotices, hu]
    dsimp only
    rw [hn]
  · intro b hb hroom
    let v := onFunc f.val (fun F => { F with held := [] }) u
    have hv : vat v.funcs f.val = { vat s.funcs f.val with kvn := { (vat s.funcs f.val).kvn with head := h }, held := [] } := by
      rw [show vat v.funcs f.val = _ from vat_onFunc, hu]
    obtain ⟨h1, h2, h3⟩ := writeNotice_spec f.val b v
    rw [hv] at h1 h2 h3
    have hrun : flushNotices f.val 256 u = writeNotice f.val b v := by
      rw [flushNotices, hu]
      dsimp only
      rw [hb]
      dsimp only
      rw [if_pos hroom]
      change flushNotices f.val 255 (writeNotice f.val b v) = _
      rw [flushNotices, h1]
    refine ⟨_, hgo.trans (congrArg _ hrun), h1, h2, fun hup => ?_⟩
    have hres : (vat s.funcs f.val).resetting = false := by
      simp only [pageTakes, funcInReset, hl, Bool.true_and, Bool.not_eq_true', Bool.or_eq_false_iff] at hp
      exact hp.1.1
    have hi : mayIssue v f.val = true := by
      rw [mayIssue, hv]
      simp only [hres, Bool.not_false, Bool.and_true]
      exact hup
    have hattr : attrOf v f.val false = attrOf s f.val false := by
      simp only [attrOf, hv]
      rfl
    exact hattr ▸ h3 hi

/-! ### The obligation -/

/-- Settles O27: the first request of a waiting command is answered, fails or is no answer; a mailbox operation gets its bytes
or fails, also when its function has been reset since; and a write of HEAD lets a held notice go. -/
theorem hostsAnswer : Obligations.HostsAnswer := by
  unfold Obligations.HostsAnswer
  refine ⟨fun s u c w rest hc hw hp honly hport => ?_, fun s f w hw hp hleft hq => mailboxAnswers s f w hw hp hleft hq,
    fun s f hw hl hleft => mailboxIgnores s f hw hl hleft, fun s f M w hq hw hp => leftAnswers s f M w hq hw hp,
    fun s f h hl he hp => kvnHeadTaken s f h hl he hp⟩
  intro answer
  have hs : Standing u (Like c) s :=
    ⟨⟨c, List.mem_of_find?_eq_some hc, beq_iff_eq.1 (List.find?_some hc :)⟩, fun x hx hu => congrArg bareCmd (honly x hx hu)⟩
  have hgo {r : HostReply} (hr : r ≠ .timeout) (hn : noteReply c.func r s = s) : answer r (commandReply u c w r s) :=
    (exec_commandReply hc hw hport hr).trans (by rw [hn])
  refine ⟨fun ha hr he => ⟨_, hgo (by simp) rfl, ?_, ?_⟩, fun ha => ⟨?_, ?_⟩, fun bs hf hl => ⟨_, hgo (by simp) rfl, ?_⟩,
    fun bs x ha hf hx hlen => ?_, rfl, fun hothers => ?_⟩
  · rw [commandReply_granted hw hc ha hr he]
    rw [cmdOf_onCmd (g := fun c : Cmd => { c with held := (w.addr, w.len) :: c.held, fresh := c.fresh - 1 }) fun _ => rfl, popWant,
      cmdOf_onCmd (g := fun c : Cmd => { c with wants := c.wants.drop 1 }) fun _ => rfl, hc, Option.map_some, Option.map_some, hw]
    rfl
  · rw [commandReply_granted hw hc ha hr he]
    rfl
  · refine (hgo (by simp) rfl).trans ?_
    rw [commandReply, if_pos (by simp [ha])]
  · refine (hgo (by simp) rfl).trans ?_
    rw [commandReply, if_neg (by simp [ha])]
  · rw [strayData hf hl]
    have hb : Charged s (busActivity (.cmd u) c.func bs.length s) := busActivity_charged
    refine ⟨?_, ?_, ?_, ?_, ?_⟩
    · exact hb.cmds
    all_goals rw [hb.rest]
  · obtain ⟨y, h1, h2, h3, h4, h5⟩ := earlyData hs ha hf hx hlen
    exact ⟨_, y, hgo (by simp) rfl, h1, h2, h3, h4, h5⟩
  · have ho : OthersRest u s := fun x hx hu => by
      obtain ⟨h1, h2, h3, h4⟩ := hothers x hx hu
      simp [isStirred, h1, h2, h3, h4]
    obtain ⟨h1, h2, h3, h4⟩ := commandAnswers s u c w rest hc hw hp honly hport hothers
    have flat {o : Host.Outcome State Fault Refusal} (h : ∃ t, o = .next t ∧ FailsAs u c s t) : ∃ t x, o = .next t ∧ cmdOf t u = some x ∧
        (writesRows c = false ∨ c.checked = false → x.phase = .ended ∧ x.status = 0x12 ∧ x.detail = 2 ∧ x.wants = [] ∧
          t.mem = s.mem ∧ t.qs = s.qs) ∧ (writesRows c = true → c.checked = true → x.cutAt.isSome = true) := by
      obtain ⟨t, e, x, hx⟩ := h
      exact ⟨t, x, e, hx⟩
    refine ⟨flat h1, flat h2, fun ht => flat (h3 ht), fun ht => ?_, fun ha => flat (h4 ha), fun bs ha hlen => ⟨fun hl hck hr => ?_,
      fun T hwr hck hT => ?_, fun src dst hop hload hck hr hpiece hlast hd h6 hn => ?_⟩⟩
    · change execCompletionTimeout (.command u) s = _
      rw [execCompletionTimeout, if_pos (by simp [readFunc, hc, ht])]
    · obtain ⟨x, hx⟩ := lookupData hs ho hl hp (hr ▸ hw) ha hlen
      exact ⟨_, x, hgo (by simp) rfl, hx⟩
    · obtain ⟨x, hx⟩ := rowData hs ho hp hw hwr hck hT ha hlen
      exact ⟨_, x, hgo (by simp) rfl, hx⟩
    · obtain ⟨x, hx⟩ := pieceData hs ho hp (hr ▸ hw) hop hload hck hpiece hlast hd h6 ha hlen hn
      exact ⟨_, x, hgo (by simp) rfl, hx⟩

end Sys2Proof.Machine
end

section
/-!
PROOFS. The start path from BOOT to RUN or DEGRADED.
-/
namespace Sys2Proof.Machine

/-! ### What fills memory at the end of replay -/

/-- Between `s` and `t` memory was written and KV tables came into force, and nothing else happened. -/
def Filled (s t : State) : Prop := t = { s with mem := t.mem, poison := t.poison, kv := t.kv, freeCtr := t.freeCtr }

theorem Filled.refl (s : State) : Filled s s := rfl

theorem Filled.trans {a b c : State} (h1 : Filled a b) (h2 : Filled b c) : Filled a c := by
  unfold Filled at *
  rw [h2, h1]

theorem Filled.foldl {α : Type} {g : State → α → State} (h : ∀ s x, Filled s (g s x)) : ∀ (l : List α) (s : State),
    Filled s (l.foldl g s)
  | [], s => .refl s
  | x :: l, s => (h s x).trans (foldl h l (g s x))

theorem daPoke_filled (s : State) (a : Nat) (bs : List Byte) : Filled s (daPoke s a bs) := by
  unfold Filled
  rw [daPoke_rest]

theorem zeroRange_filled (a n : Nat) (s : State) : Filled s (zeroRange a n s) := rfl

theorem clearPageTables_filled (d : KvDecl) (s : State) : Filled s (clearPageTables d s) :=
  .foldl (fun _ _ => zeroRange_filled ..) _ _

theorem drew_filled (s : State) : Filled s (drew s) := rfl

theorem openKv_filled (d : KvDecl) (s : State) : Filled s (openKv d s) := by
  have hkv : Filled s { s with kv := s.kv ++ [newKvTable d (freeAt s)] } := rfl
  exact (hkv.trans (clearPageTables_filled d _)).trans (drew_filled _)

theorem openKvs_filled (s : State) : Filled s (openKvs s) := .foldl (fun s d => openKv_filled d s) _ _

theorem placeKernels_filled (s : State) : Filled s (placeKernels s) :=
  .foldl (fun _ _ => .foldl (fun s _ => daPoke_filled s _ _) _ _) _ _

theorem storeDefault_filled (t : TableDecl) (p : Nat) (s : State) : Filled s (storeDefault t p s) :=
  (daPoke_filled s (defaultDa t (actor s p)) (splitRow t t.defaultRow p)).trans rfl

theorem storeDefaults_filled (moved : TableDecl → Bool) (ts : List TableDecl) (ps : List Nat) (s : State) :
    Filled s (storeDefaults moved ts ps s) :=
  .foldl (fun s t => .foldl (fun s p => storeDefault_filled t p s) ps s) _ s

/-! ### The rows -/

/-- The state in which a device enters RUN or DEGRADED (R26). -/
theorem enterRun_spec (s : State) : let t := enterRun s
    t.sys.state = (if s.sys.lossSeen then .degraded else .run) ∧ t.sys.cause = 0x05 ∧ t.sys.entered = s.tb.beat ∧
      t.led.isOpen = true ∧ t.led.epoch = s.led.epoch + 1 ∧ t.led.house = 0 ∧ t.led.carryIn = s.led.meterPj / 1000 ∧
      t.qos.openPos = posOf s ∧ t.mem = s.mem := by
  unfold enterRun
  rw [enterState_frame]
  exact ⟨rfl, rfl, rfl, rfl, rfl, rfl, rfl, rfl, rfl⟩

/-- REPLAY is entered: KV tables come into force, and the library and the default rows are stored (R115). -/
def enterReplay (m : State) : State :=
  let e := enterState .replay 0x04 0 m
  let u := storeDefaults (fun _ => true) e.cfg.cur.tables (positions e) (placeKernels (openKvs e))
  jKick { u with sys := { u.sys with replayDone := true } }

theorem enterReplay_spec (m : State) : let t := enterReplay m
    t.sys.state = .replay ∧ t.sys.cause = 0x04 ∧ t.sys.replayDone = true ∧ t.cfg = m.cfg ∧ t.slices = m.slices := by
  intro t
  let e := enterState .replay 0x04 0 m
  let u := storeDefaults (fun _ => true) e.cfg.cur.tables (positions e) (placeKernels (openKvs e))
  have hu : Filled e u := ((openKvs_filled e).trans (placeKernels_filled _)).trans (storeDefaults_filled ..)
  have ht : t = { u with sys := { u.sys with replayDone := true }, jr := t.jr } := jKick_frame
  have he : e = { m with sys := { m.sys with state := .replay, cause := BitVec.ofNat 8 0x04, entered := m.tb.beat },
                         jr := e.jr, funcs := e.funcs, out := e.out, cnt := e.cnt } := enterState_frame
  rw [ht, hu, he]
  exact ⟨rfl, rfl, rfl, rfl, rfl⟩

/-- What training found is noted, and REPLAY is entered (R37, R115). -/
def afterReplay (missing : List PartId) (r : State) : State :=
  let m := missing.foldl missingPart (repairExpanders (markTrained missing r))
  if m.sys.state != .train then m else enterReplay m

theorem trained_eq (missing : List PartId) (s : State) : trained missing s = afterReplay missing (replayLosses (replayJournal s)) := rfl

theorem afterReplay_nil {r : State} (h : r.sys.state = .train) : afterReplay [] r = enterReplay (repairExpanders (markTrained [] r)) :=
  if_neg (by simp [repairExpanders, markTrained, h])

theorem markTrained_nil_trained (r : State) {k : Nat} (hk : k < 17) :
    (vat (markTrained [] r).slices k).trained = !(vat r.slices k).offline := by
  simp [markTrained, vat_ofFn, Nat.mod_eq_of_lt hk]

/-- A device that has replayed its journal with nothing missing (R115, R145). -/
theorem afterReplay_spec {r : State} (h : r.sys.state = .train) : let t := afterReplay [] r
    t.sys.state = .replay ∧ t.sys.cause = 0x04 ∧ t.sys.replayDone = true ∧ t.cfg.cur.tables = r.cfg.cur.tables ∧
      ∀ k < 17, (vat t.slices k).trained = !(vat r.slices k).offline := by
  obtain ⟨h1, h2, h3, h4, h5⟩ := enterReplay_spec (repairExpanders (markTrained [] r))
  rw [afterReplay_nil h]
  refine ⟨h1, h2, h3, by rw [h4]; rfl, fun k hk => ?_⟩
  rw [h5]
  exact markTrained_nil_trained r hk

theorem dueSeq_frame {id part : Nat} {s : State} : dueSeq id part s = { s with pmc := (dueSeq id part s).pmc } := by
  unfold dueSeq
  split <;> rfl

/-- An image comes into force (R116). -/
theorem acceptImage_spec (slot : Nat) (ic : ImageCfg) (c : Cfg) (s : State) : let t := acceptImage slot ic c s
    t.sys = { s.sys with bootSrc := BitVec.ofNat 2 (slot + 1), versionLo := ic.version.setWidth 32 } ∧ t.imageOk = true ∧
      t.image = ic ∧ t.cfg.cur = c := by
  unfold acceptImage
  rw [dueSeq_frame, jAdd_frame]
  exact ⟨rfl, rfl, rfl, rfl⟩

/-- The code of a slot is recorded. -/
def slotNoted (slot : Fin 2) (code : BitVec 8) (s : State) : State :=
  { s with sys := if slot = 0 then { s.sys with aChecked := true, aCode := code } else { s.sys with bChecked := true, bCode := code } }

theorem exec_imageCheck {slot : Fin 2} {s : State} (hs : s.sys.state = .image) (hi : s.imageOk = false) (hn : slotNext s = some slot.val) :
    exec (.imageCheck slot) s = .next (
      let v := slotNoted slot (BitVec.ofNat 8 (checkSlot s (vat s.flash slot.val)).1) s
      match (checkSlot s (vat s.flash slot.val)).2 with
      | none => v
      | some (ic, c) => acceptImage slot.val ic c (if slot = 0 then v else raiseEvent evImageFallback (source dieC 0) v.sys.aCode.toNat v)) :=
  congrArg Host.Outcome.next (if_neg (by simp [hs, hi, hn]))

/-- A slot is checked: its code is recorded, and a good image put in force (R135, R137). -/
theorem imageCheck_spec {slot : Fin 2} {s : State} (hs : s.sys.state = .image) (hi : s.imageOk = false) (hn : slotNext s = some slot.val) :
    ∃ t, exec (.imageCheck slot) s = .next t ∧
      let r := checkSlot s (vat s.flash slot.val)
      t.sys.state = .image ∧ t.imageOk = r.2.isSome ∧
      (if slot = 0 then t.sys.aChecked = true ∧ t.sys.aCode = BitVec.ofNat 8 r.1 ∧ t.sys.bCode = s.sys.bCode
       else t.sys.bChecked = true ∧ t.sys.bCode = BitVec.ofNat 8 r.1 ∧ t.sys.aCode = s.sys.aCode) ∧
      (∀ ic c, r.2 = some (ic, c) → t.image = ic ∧ t.cfg.cur = c ∧ t.sys.bootSrc = BitVec.ofNat 2 (slot.val + 1)) ∧
      (r.2 = none → t.image = s.image ∧ t.cfg = s.cfg ∧ t.jr = s.jr) := by
  refine ⟨_, exec_imageCheck hs hi hn, ?_⟩
  generalize checkSlot s (vat s.flash slot.val) = r
  intro r'
  have hv : (slotNoted slot (BitVec.ofNat 8 r.1) s).sys.state = .image ∧
      (if slot = 0 then (slotNoted slot (BitVec.ofNat 8 r.1) s).sys.aChecked = true ∧
          (slotNoted slot (BitVec.ofNat 8 r.1) s).sys.aCode = BitVec.ofNat 8 r.1 ∧ (slotNoted slot (BitVec.ofNat 8 r.1) s).sys.bCode = s.sys.bCode
        else (slotNoted slot (BitVec.ofNat 8 r.1) s).sys.bChecked = true ∧
          (slotNoted slot (BitVec.ofNat 8 r.1) s).sys.bCode = BitVec.ofNat 8 r.1 ∧
          (slotNoted slot (BitVec.ofNat 8 r.1) s).sys.aCode = s.sys.aCode) := by
    unfold slotNoted
    split <;> exact ⟨hs, rfl, rfl, rfl⟩
  obtain ⟨h1, h2⟩ := hv
  obtain ⟨code, o⟩ := r
  cases o with
  | none => exact ⟨h1, hi, h2, fun _ _ h => (nomatch h), fun _ => ⟨rfl, rfl, rfl⟩⟩
  | some x =>
    obtain ⟨ic, c⟩ := x
    let v := slotNoted slot (BitVec.ofNat 8 code) s
    let w := if slot = 0 then v else raiseEvent evImageFallback (source dieC 0) v.sys.aCode.toNat v
    have hw : w.sys = v.sys := iteInduction (motive := fun t : State => t.sys = v.sys) (fun _ => rfl) fun _ => by rw [raiseEvent_frame]
    obtain ⟨e1, e2, e3, e4⟩ := acceptImage_spec slot.val ic c w
    rw [hw] at e1
    refine ⟨(congrArg Sys.state e1).trans h1, e2, ?_, ?_, fun h => (nomatch h)⟩
    · change if slot = 0 then (acceptImage slot.val ic c w).sys.aChecked = true ∧ _ else _
      rw [e1]
      exact h2
    · rintro ic' c' ⟨⟩
      exact ⟨e3, e4, congrArg Sys.bootSrc e1⟩

/-- Settles O12: ROM_DONE, IMAGE_CHECK, TRAINED and ENTER_RUN, each with what it records on the way. -/
theorem startupGoesStateByState : Obligations.StartupGoesStateByState := by
  unfold Obligations.StartupGoesStateByState
  refine fun s => ⟨fun hs => ?_, fun slot hs hi hn => ?_, fun hs h => ?_, fun hs hd ht => ?_⟩
  · refine ⟨_, congrArg Host.Outcome.next (if_pos (by simp [hs])), ?_⟩
    rw [enterState_frame, raiseEvent_frame, jAdd_frame]
    exact ⟨rfl, rfl, rfl, rfl, rfl, rfl⟩
  · exact imageCheck_spec hs hi hn
  · exact ⟨_, congrArg Host.Outcome.next (if_pos (by simp [hs])), afterReplay_spec h⟩
  · exact ⟨_, congrArg Host.Outcome.next (if_pos (by simp [hs, hd, ht])), enterRun_spec s⟩

end Sys2Proof.Machine
end

section
/-!
PROOFS. What the BMC's requests do.
-/
namespace Sys2Proof.Machine

/-! ### Slot B (R834) -/

section
variable {base bs : List Byte} {off i : Nat}

theorem patch_getElem?_in (h : off + bs.length ≤ base.length) (hi : i < bs.length) : (patch base off bs)[off + i]? = bs[i]? := by
  have hlen : (base.take off).length = off := List.length_take_of_le (by omega)
  have htake : bs.take (base.length - off) = bs := List.take_of_length_le (by omega)
  rw [patch, htake, List.append_assoc, List.getElem?_append_right (by omega), hlen, Nat.add_sub_cancel_left,
    List.getElem?_append_left hi]

theorem patch_getElem?_out (h : off + bs.length ≤ base.length) (hi : i < off ∨ off + bs.length ≤ i) : (patch base off bs)[i]? = base[i]? := by
  have hlen : (base.take off).length = off := List.length_take_of_le (by omega)
  have htake : bs.take (base.length - off) = bs := List.take_of_length_le (by omega)
  rw [patch, htake]
  rcases hi with hi | hi
  · rw [List.append_assoc, List.getElem?_append_left (by rw [hlen]; exact hi), List.getElem?_take_of_lt hi]
  · rw [List.getElem?_append_right (by simp; omega), List.getElem?_drop]
    congr 1
    simp only [List.length_append, hlen]
    omega

end

/-- Bytes staged into slot B stand where they belong, and the rest of both slots stays. -/
theorem stageBytes_spec (off : Nat) (bs : List Byte) (s : State) : let t := stageBytes off bs s
    vat t.flash 0 = vat s.flash 0 ∧ (∀ i < bs.length, (vat t.flash 1).slot[off + i]? = bs[i]?) ∧
      (∀ i, i < off ∨ off + bs.length ≤ i → i < (vat s.flash 1).slot.length → (vat t.flash 1).slot[i]? = (vat s.flash 1).slot[i]?) ∧
      t.mg.parts = s.mg.parts ++ [(off, bs.length)] := by
  let base := (vat s.flash 1).slot ++
    List.replicate (max (vat s.flash 1).slot.length (off + bs.length) - (vat s.flash 1).slot.length) (0xFF : Byte)
  have hbase : off + bs.length ≤ base.length := by simp [base]
  have hslot : (vat (stageBytes off bs s).flash 1).slot = patch base off bs := congrArg Flash.slot (vat_vupd_self ..)
  intro t
  refine ⟨vat_vupd_ne _ _ (by decide), fun i hi => ?_, fun i hi hlt => ?_, rfl⟩
  · rw [hslot, patch_getElem?_in hbase hi]
  · rw [hslot, patch_getElem?_out hbase hi, List.getElem?_append_left hlt]

/-- An activation of the image in slot B of `s` that has ended as `t` gives the digest `d` of the copy. -/
def ActivatedAs (s : State) (d : List Byte) (t : State) : Prop :=
  (vat t.flash 0).slot = (vat s.flash 1).slot ∧ t.mg.staging = none ∧
    d = sha256 (slotBytes (vat t.flash 0) 0 (numAt (slotBytes (vat s.flash 1) 0 256) 0x10 4))

/-- An activation that succeeds has copied slot B into slot A, and gives the digest of the copy (R122, R172). -/
theorem activate_some {by_ : Stager} {s : State} {d : List Byte} (h : (activate by_ s).1 = some d) :
    ActivatedAs s d (activate by_ s).2 := by
  have hcopy : (vat (copySlot s).flash 0).slot = (vat s.flash 1).slot := by
    rw [copySlot, vat_vupd_self]
  revert h
  unfold activate
  dsimp only
  refine iteInduction (motive := fun r : Option (List Byte) × State => r.1 = some d → ActivatedAs s d r.2) (fun _ h => nomatch h) fun _ => ?_
  cases hd : slotDigest (vat (copySlot s).flash 0) (numAt (slotBytes (vat s.flash 1) 0 256) 0x10 4) with
  | none => exact fun h => nomatch h
  | some d' =>
    refine iteInduction (motive := fun r : Option (List Byte) × State => r.1 = some d → ActivatedAs s d r.2) (fun _ h => nomatch h) fun _ h => ?_
    obtain rfl : d' = d := Option.some.inj h
    have hdig : d' = sha256 (slotBytes (vat (copySlot s).flash 0) 0 (numAt (slotBytes (vat s.flash 1) 0 256) 0x10 4)) := by
      rw [slotDigest] at hd
      split at hd
      · exact (Option.some.inj hd).symm
      · cases hd
    split <;> exact ⟨hcopy, rfl, hdig⟩

/-! ### The obligation (R837 to R843) -/

section
variable {s : State} {e : Fin 2}

/-- The state after a response. -/
abbrev bmcSent (e : Fin 2) (bytes : List Byte) (t : State) : Host.Outcome State Fault Refusal := .next (emit (.bmc e.val bytes) t)

theorem onEndpoint_on {g : State → State} (h : bmcOn s e.val = true) : onEndpoint e g s = g s := if_pos h

theorem onEndpoint_off {g : State → State} (h : bmcOn s e.val = false) : onEndpoint e g s = s := if_neg (by simp [h])

/-- The endpoint is busy with the answer of an operation. -/
theorem keepOutput_spec (r : Reply) (s : State) : let t := keepOutput e.val r s
    vat t.mg.oemBusy e.val = true ∧ vat t.mg.oem e.val = some (BitVec.ofNat 8 r.status, r.bulk ++ r.out) :=
  ⟨vat_vupd_self .., vat_vupd_self ..⟩

/-- A request that starts an operation on an endpoint that is on and free. -/
theorem exec_oem (hon : bmcOn s e.val = true) (hb : vat s.mg.oemBusy e.val = false) (op : BitVec 16) (i : List Byte) :
    exec (.pldmOemRequest e 0x1E71 op 0 i) s = .next (keepOutput e.val (oemOp op.toNat i s).1 (oemOp op.toNat i s).2) := by
  change execPldmOemRequest e 0x1E71 op 0 i s = _
  rw [execPldmOemRequest, onEndpoint_on hon, if_neg (by simp [hb]), if_neg (by simp), if_neg (by simp)]

theorem exec_oemKeeps (hon : bmcOn s e.val = true) (hb : vat s.mg.oemBusy e.val = false) {op : BitVec 16} {i : List Byte} {r : Reply}
    (h : (oemOp op.toNat i s).1 = r) : ∃ t, exec (.pldmOemRequest e 0x1E71 op 0 i) s = .next t ∧
      vat t.mg.oemBusy e.val = true ∧ vat t.mg.oem e.val = some (BitVec.ofNat 8 r.status, r.bulk ++ r.out) :=
  ⟨_, exec_oem hon hb op i, by rw [h]; exact keepOutput_spec r _⟩

theorem exec_regReadKeeps (hon : bmcOn s e.val = true) (hb : vat s.mg.oemBusy e.val = false) {d b : BitVec 8} {o : BitVec 16} {r : Reply}
    (h : regReadReply s d.toNat b.toNat o.toNat = r) : ∃ t, exec (.regRead e d b o) s = .next t ∧
      vat t.mg.oemBusy e.val = true ∧ vat t.mg.oem e.val = some (BitVec.ofNat 8 r.status, r.bulk ++ r.out) := by
  refine ⟨_, ?_, keepOutput_spec r s⟩
  change execRegRead e d b o s = _
  rw [execRegRead, onEndpoint_on hon, if_neg (by simp [hb]), h]

end

/-- What the update requests do (R839, R843). -/
theorem updatesServed {s : State} {e : Fin 2} (hon : bmcOn s e.val = true) :
    let sends (c : Instr) (bytes : List Byte) (t : State) : Prop := exec c s = .next (emit (.bmc e.val bytes) t)
    (stagingHeld s .steward = true ∨ stagingHeld s .bmc = true → sends (.requestUpdate e) (leBytes 1 0x81) s) ∧
    (stagingHeld s .steward = false → stagingHeld s .bmc = false → ∃ t, sends (.requestUpdate e) (leBytes 1 0) t ∧
      t.mg.staging = some .bmc ∧ t.mg.parts = [] ∧ stagingHeld t .bmc = true ∧ t.flash = s.flash ∧ t.funcs = s.funcs) ∧
    (stagingHeld s .bmc = true → ∀ off bytes, bytes.length = 1024 → off.toNat % 1024 = 0 → off.toNat + 1024 ≤ 100663296 →
      ∃ t, sends (.requestFirmwareData e off bytes) (leBytes 1 0) t ∧ vat t.flash 0 = vat s.flash 0 ∧
        (∀ i < 1024, (vat t.flash 1).slot[off.toNat + i]? = bytes[i]?) ∧
        (∀ i, i < off.toNat ∨ off.toNat + 1024 ≤ i → i < (vat s.flash 1).slot.length →
          (vat t.flash 1).slot[i]? = (vat s.flash 1).slot[i]?) ∧ t.mg.parts = s.mg.parts ++ [(off.toNat, 1024)]) ∧
    (stagingHeld s .bmc = true →
      sends (.verifyComplete e) (leBytes 1 0 ++ leBytes 1 (checkSlot s (vat s.flash 1)).1)
        { s with mg := { s.mg with verified := (checkSlot s (vat s.flash 1)).1 == 0 } } ∧
      (let r := activate .bmc s
       sends (.activateFirmware e) (leBytes 1 (if r.1.isSome then 0 else 2)) r.2 ∧
         (∀ d, r.1 = some d → (vat r.2.flash 0).slot = (vat s.flash 1).slot ∧ r.2.mg.staging = none ∧
           d = sha256 (slotBytes (vat r.2.flash 0) 0 (numAt (slotBytes (vat s.flash 1) 0 256) 0x10 4))))) := by
  intro sends
  refine ⟨fun h => ?_, fun h1 h2 => ⟨takeStaging .bmc s, ?_, rfl, ?_, ?_, rfl, rfl⟩, fun h off bytes hlen hal hlim => ?_,
    fun h => ⟨?_, ?_, fun d hd => activate_some hd⟩⟩
  · change execRequestUpdate e s = _
    rw [execRequestUpdate, onEndpoint_on hon, if_pos (by simpa using h)]
    rfl
  · change execRequestUpdate e s = _
    rw [execRequestUpdate, onEndpoint_on hon, if_neg (by simp [h1, h2])]
    rfl
  · simp [takeStaging, h2]
  · simp [takeStaging, stagingHeld, clkOf, second]
  · obtain ⟨h1, h2, h3, h4⟩ := stageBytes_spec off.toNat bytes s
    rw [hlen] at h2 h3 h4
    refine ⟨_, ?_, h1, h2, h3, h4⟩
    change execRequestFirmwareData e off bytes s = _
    rw [execRequestFirmwareData, onEndpoint_on hon, if_neg (by simp [h]), if_neg]
    · rfl
    · have : slotLimit = 100663296 := rfl
      omega
  · change execVerifyComplete e s = _
    rw [execVerifyComplete, onEndpoint_on hon, if_neg (by simp [h])]
    rfl
  · change execActivateFirmware e s = _
    rw [execActivateFirmware, onEndpoint_on hon, if_neg (by simp [h])]
    generalize activate .bmc s = r
    obtain ⟨o, t⟩ := r
    cases o <;> rfl

/-- The OEM type and REG_READ on a free endpoint (R840, R841, R849). -/
theorem oemServed {s : State} {e : Fin 2} (hon : bmcOn s e.val = true) (hb : vat s.mg.oemBusy e.val = false) :
    let sends (c : Instr) (bytes : List Byte) (t : State) : Prop := exec c s = .next (emit (.bmc e.val bytes) t)
    let keeps (c : Instr) (status : BitVec 8) (out : List Byte) : Prop := ∃ t, exec c s = .next t ∧
      vat t.mg.oemBusy e.val = true ∧ vat t.mg.oem e.val = some (status, out)
    (∀ o (p : BitVec 32) i, p ≠ 0 → ∀ status out, vat s.mg.oem e.val = some (status, out) →
      sends (.pldmOemRequest e 0x1E71 o p i)
        (leBytes 1 0 ++ (leBytes 1 status.toNat ++ leBytes 4 out.length ++ (out.drop p.toNat).take 1024)) s) ∧
    (∀ (o : BitVec 16) i, oemAllowed o.toNat = false → keeps (.pldmOemRequest e 0x1E71 o 0 i) 0x06 []) ∧
    keeps (.pldmOemRequest e 0x1E71 2 0 []) 0 (leBytes 4 s.cfg.cur.gen ++ leBytes 4 s.cfg.changes.length) ∧
    keeps (.pldmOemRequest e 0x1E71 0x41 0 []) 0 ((vat s.flash 0).cert.take 2048) ∧
    (∀ (d b : BitVec 8) o, d ≠ 0x13 ∨ bmcBlock b.toNat = false → keeps (.regRead e d b o) 0x06 []) ∧
    (∀ (b : BitVec 8) (o : BitVec 16), bmcBlock b.toNat = true → o.toNat % 8 = 0 →
      keeps (.regRead e 0x13 b o) 0 (leBytes 8 (regRead s 0x13 b.toNat o.toNat))) := by
  intro sends keeps
  refine ⟨fun o p i hp status out hout => ?_, fun o i ho => ?_, ?_, ?_, fun d b o h => ?_, fun b o hblk ho => ?_⟩
  · change execPldmOemRequest e 0x1E71 o p i s = _
    rw [execPldmOemRequest, onEndpoint_on hon, if_neg (by simp [hb]), if_neg (by simp), if_pos hp, hout]
    rfl
  · exact exec_oemKeeps hon hb (r := bare mbDenied) (congrArg Prod.fst (if_pos (by simp [ho]) : oemOp o.toNat i s = (bare mbDenied, s)))
  · exact exec_oemKeeps hon hb (r := opGenQuery s) rfl
  · exact exec_oemKeeps hon hb (r := opCertRead s) rfl
  · refine exec_regReadKeeps hon hb (r := bare mbDenied) (if_pos (h.imp_left fun hd hn => hd (BitVec.eq_of_toNat_eq hn)))
  · exact exec_regReadKeeps hon hb (r := okWith (leBytes 8 (regRead s 0x13 b.toNat o.toNat)))
      ((if_neg (by simp [hblk, dieC])).trans (if_neg (by simp [ho])))

/-- Settles O32: an endpoint that is on answers the BMC's requests, one that is off none; a staging times out. -/
theorem endpointsServeTheBmc : Obligations.EndpointsServeTheBmc := by
  unfold Obligations.EndpointsServeTheBmc
  refine fun s e => ⟨fun hoff c hc => ?_, fun hon => ?_, fun ⟨h1, h2⟩ => ?_, fun h => ?_⟩
  · have hno (g : State → State) : Host.Outcome.next (onEndpoint e g s) = (.next s : Host.Outcome State Fault Refusal) :=
      congrArg _ (onEndpoint_off hoff)
    rcases hc with hc | ⟨x, rfl⟩ | ⟨x, rfl⟩ | ⟨x, rfl⟩ | ⟨x, rfl⟩ | ⟨o, b, rfl⟩ | ⟨v, o, p, i, rfl⟩ | ⟨d, b, o, rfl⟩
    · simp only [List.mem_cons, List.not_mem_nil, or_false] at hc
      rcases hc with rfl | rfl | rfl <;> exact hno _
    all_goals exact hno _
  · intro sends
    have hgo (g : State → State) : Host.Outcome.next (onEndpoint e g s) = (.next (g s) : Host.Outcome State Fault Refusal) :=
      congrArg _ (onEndpoint_on hon)
    obtain ⟨h1, h2, h3, h4⟩ := updatesServed hon
    refine ⟨fun x => hgo _, hgo _, hgo _, hgo _, fun i => ?_, hgo _, hgo _, fun h => hgo _, h1, h2, h3, h4, fun hb => ⟨?_, ?_⟩,
      fun hb => oemServed hon hb⟩
    · have hid : (BitVec.ofNat 16 (16 + i.val)).toNat = 16 + i.val := by
        rw [BitVec.toNat_ofNat]
        omega
      have hread : sensorReading s (BitVec.ofNat 16 (16 + i.val)).toNat = some (vat s.pmc.temps i.val) := by
        rw [hid, sensorReading, if_neg (by omega), if_neg (by omega), if_neg (by omega), if_pos (by omega), Nat.add_sub_cancel_left]
      refine (hgo _).trans (congrArg _ ?_)
      simp only [hread]
      rfl
    · intro v o p i
      exact (hgo _).trans (congrArg _ (if_pos hb))
    · intro d b o
      exact (hgo _).trans (congrArg _ (if_pos hb))
  · exact congrArg _ (if_pos (by simp [h1, h2]))
  · refine congrArg _ (if_neg ?_)
    rcases h with h | h
    · simp [h]
    · simp [Nat.not_le.2 h]

end Sys2Proof.Machine
end

section
/-!
PROOFS. A tenant's window access within one line: in bypass, and through the cache of its bridge.
-/
namespace Sys2Proof.Machine

/-! ### What charging leaves of an access -/

theorem chargeWindow_charged {da n : Nat} {s : State} : Charged s (chargeWindow da n s) := memActivity_charged.trans chargeRanges_charged

section
variable {s t : State}

/-- Device addresses read the same after charging. -/
theorem Charged.daRead (h : Charged s t) : ∀ n a, daRead t a n = daRead s a n
  | 0, _ => rfl
  | n + 1, a => by
    have hb : daByte t a = daByte s a := by
      rw [h.rest]
      rfl
    exact congrArg₂ List.cons hb (Charged.daRead h n (a + 1))

theorem Charged.poisoned (h : Charged s t) (a n : Nat) : poisoned t a n = poisoned s a n := by
  rw [h.rest]
  rfl

theorem Charged.daWrite (h : Charged s t) (a : Nat) (bs : List Byte) : (daWrite t a bs).2.mem = (daWrite s a bs).2.mem :=
  (daWrite_of h.mem (by rw [h.rest]) (by rw [h.rest])).2

/-- Neither memory nor what has been sent changed. -/
structure Unseen (s t : State) : Prop where
  mem : t.mem = s.mem
  out : t.out = s.out

theorem Unseen.refl (s : State) : Unseen s s := ⟨rfl, rfl⟩

theorem Unseen.trans {a b c : State} (h1 : Unseen a b) (h2 : Unseen b c) : Unseen a c := ⟨h2.mem.trans h1.mem, h2.out.trans h1.out⟩

theorem Charged.unseen (h : Charged s t) : Unseen s t := ⟨h.mem, by rw [h.rest]⟩

theorem tally_unseen (i : BankId) (e n : Nat) (g : Tag) (s : State) : Unseen s (tally i e n g s) := by
  rw [tally_frame]
  exact ⟨rfl, rfl⟩

theorem onBrg_unseen (b : Nat) (g : Bridge → Bridge) (s : State) : Unseen s (onBrg b g s) := ⟨rfl, rfl⟩

theorem setWatch_unseen (w : PfWatch) (s : State) : Unseen s (setWatch w s) := onBrg_unseen ..

/-- A line goes ahead into the side buffer. -/
theorem prefetchLine_unseen (f da : Nat) (s : State) : Unseen s (prefetchLine f da s) := by
  unfold prefetchLine
  extract_lets b s1 s2
  split
  · exact .refl s
  have h1 : Unseen s s1 := chargeWindow_charged.unseen.trans (tally_unseen ..)
  have h2 : Unseen s1 s2 := by
    unfold s2
    split
    · exact onBrg_unseen ..
    · exact .refl s1
  refine (h1.trans h2).trans ?_
  split
  · exact .refl s2
  · exact onBrg_unseen ..

theorem watchHit_unseen (f line : Nat) (s : State) : Unseen s (watchHit f line s) := by
  unfold watchHit
  extract_lets w
  split
  · unfold extendRun
    extract_lets n s1
    have h1 : Unseen s s1 := setWatch_unseen ..
    split
    · exact h1
    · exact h1.trans (prefetchLine_unseen ..)
  · exact .refl s

end

/-! ### A line comes into the main array -/

/-- Lines of the cache changed, and memory with those that were written back: nothing was sent, and no fill began or ended. -/
structure LinesMoved (s t : State) : Prop where
  out : t.out = s.out
  filling : ∀ b, (vat t.brg b).filling = (vat s.brg b).filling

theorem LinesMoved.refl (s : State) : LinesMoved s s := ⟨rfl, fun _ => rfl⟩

theorem LinesMoved.trans {a b c : State} (h1 : LinesMoved a b) (h2 : LinesMoved b c) : LinesMoved a c :=
  ⟨h2.out.trans h1.out, fun i => (h2.filling i).trans (h1.filling i)⟩

theorem Charged.linesMoved {s t : State} (h : Charged s t) : LinesMoved s t := ⟨by rw [h.rest], fun _ => by rw [h.rest]⟩

theorem tally_linesMoved (i : BankId) (e n : Nat) (g : Tag) (s : State) : LinesMoved s (tally i e n g s) := by
  rw [tally_frame]
  exact ⟨rfl, fun _ => rfl⟩

theorem onBrg_linesMoved {b : Nat} {g : Bridge → Bridge} (hg : ∀ B, (g B).filling = B.filling) (s : State) : LinesMoved s (onBrg b g s) := by
  refine ⟨rfl, fun j => ?_⟩
  rw [onBrg_brg, vat_vupd]
  split
  · exact hg _
  · rfl

theorem dropEntry_linesMoved (b i : Nat) (s : State) : LinesMoved s (dropEntry b i s) := by
  refine onBrg_linesMoved ?_ s
  exact fun _ => rfl

theorem onLines_linesMoved (b : Nat) (g : List WinLine → List WinLine) (s : State) : LinesMoved s (onLines b g s) := by
  refine onBrg_linesMoved ?_ s
  exact fun _ => rfl

theorem writeBack_linesMoved (l : WinLine) (s : State) : LinesMoved s (writeBack l s) := by
  unfold writeBack
  extract_lets s1
  split
  · exact .refl s
  have h1 : LinesMoved s s1 := chargeWindow_charged.linesMoved.trans (tally_linesMoved ..)
  split
  · exact h1
  · refine h1.trans ?_
    rw [daWrite_rest]
    exact ⟨rfl, fun _ => rfl⟩

theorem toVictim_linesMoved (b : Nat) (l : WinLine) (s : State) : LinesMoved s (toVictim b l s) := by
  unfold toVictim
  extract_lets put
  have hput (i : Nat) (u : State) : LinesMoved u (put i u) := by
    refine onBrg_linesMoved ?_ u
    exact fun _ => rfl
  split
  · exact hput ..
  · split
    · exact .refl s
    · refine LinesMoved.trans ?_ (hput ..)
      split
      · exact (writeBack_linesMoved ..).trans (dropEntry_linesMoved ..)
      · exact dropEntry_linesMoved ..

theorem takeMain_linesMoved (b : Nat) (s : State) : LinesMoved s (takeMain b s).2 := by
  unfold takeMain
  split
  · exact .refl s
  · extract_lets can i
    split
    · refine LinesMoved.trans ?_ (toVictim_linesMoved ..)
      have hd : LinesMoved s (drew s) := ⟨rfl, fun _ => rfl⟩
      exact hd.trans (dropEntry_linesMoved ..)
    · exact .refl s

theorem installMain_linesMoved (b : Nat) (l : WinLine) (s : State) : LinesMoved s (installMain b l s) := by
  have h := takeMain_linesMoved b s
  unfold installMain
  generalize takeMain b s = r at h ⊢
  exact h.trans (onLines_linesMoved ..)

/-- A write's data goes into its line. -/
theorem applyHit_write {a : WinAccess} {bs : List Byte} (h : a.write = some bs) (s : State) :
    LinesMoved s (applyHit a s) ∧ (applyHit a s).mem = s.mem := by
  cases hl : lineAt s a.func (a.da - a.off) with
  | none =>
    have e : applyHit a s = s := by simp only [applyHit, hl]
    rw [e]
    exact ⟨.refl s, rfl⟩
  | some l =>
    have e : applyHit a s = onLines (bridgeOf a.func) (fun ls => ls.map fun x =>
        if x.idx == l.idx then { x with bytes := patch x.bytes a.off bs, dirty := true } else x) s := by
      rw [applyHit, hl, h]
    rw [e]
    exact ⟨onLines_linesMoved .., (onBrg_unseen ..).mem⟩

theorem applyHit_read {a : WinAccess} {s : State} {l : WinLine} (h : a.write = none) (hl : lineAt s a.func (a.da - a.off) = some l) :
    applyHit a s = emit (.readData (slice l.bytes a.off a.len)) s := by
  simp only [applyHit, hl, h]

/-! ### One access (R582, R587, R588) -/

section
variable {s : State} {a : WinAccess}

/-- The access takes no fill's turn, and its function may reach what it names. -/
structure Allowed (s : State) (a : WinAccess) : Prop where
  plain : a.carved = none
  owner : ownerAllows s (.tenant a.func) a.da a.len = true
  online : targetOffline s (.tenant a.func) a.da a.len = false
  free : (vat s.brg (bridgeOf a.func)).filling = none

theorem arriveAccess_free (h : Allowed s a) : arriveAccess a s = serveAccess a s := if_neg (by simp [h.free])

theorem serveAccess_bypass (h : Allowed s a) (hc : (vat s.funcs a.func).win.cen = false) : serveAccess a s =
    match a.write with
    | none => emit (.readData (if poisoned s a.da a.len then onesBytes a.len else daRead s a.da a.len)) (chargeWindow a.da a.len s)
    | some bs => (daWrite (chargeWindow a.da a.len s) a.da bs).2 := by
  have hcharge : Charged s (chargeWindow a.da a.len s) := chargeWindow_charged
  unfold serveAccess
  simp only [h.plain, hc, Bool.not_false, Bool.true_or, if_true]
  unfold directAccess
  simp only [h.owner, h.online, Bool.not_true, Bool.false_eq_true, if_false, hcharge.poisoned, hcharge.daRead] <;>
  cases a.write <;> rfl

/-- The cache of the bridge looks its lines up for the access. -/
theorem lineAt_of_brg {t : State} (hb : t.brg = s.brg) (f da : Nat) : lineAt t f da = lineAt s f da := by rw [lineAt, lineAt, hb]

theorem serveAccess_hit (h : Allowed s a) (hc : (vat s.funcs a.func).win.cen = true) {l : WinLine} (hl : lineAt s a.func (a.da - a.off) = some l)
    (hm : inMain l = true) : serveAccess a s = watchHit a.func ((a.da - a.off) / lineSize)
      (applyHit a (tally (.bridge (bridgeOf a.func)) 0x306 1 .house (lineActivity (bridgeOf a.func) s))) := by
  unfold serveAccess
  simp only [h.plain, hc, h.owner, hl, Bool.not_true, Bool.or_false, Bool.false_eq_true, if_false]
  rw [promote, if_pos hm]

/-- The bridge has found the line that an access hits. -/
theorem hitCounted_spec (b : Nat) (s : State) : let u := tally (.bridge b) 0x306 1 .house (lineActivity b s)
    Unseen s u ∧ u.brg = s.brg := by
  have hcharge : Charged s (lineActivity b s) := activity_charged
  exact ⟨hcharge.unseen.trans (tally_unseen ..), by rw [tally_brg, hcharge.rest]⟩

theorem serveAccess_miss (h : Allowed s a) (hc : (vat s.funcs a.func).win.cen = true) (hl : lineAt s a.func (a.da - a.off) = none) :
    ∃ u, Unseen s u ∧ u.brg = s.brg ∧ serveAccess a s =
      if a.write.isSome && a.len == lineSize then
        applyHit a (installMain (bridgeOf a.func) { idx := 0, func := a.func, da := a.da - a.off, bytes := zeros lineSize, dirty := true,
                                                    locked := false, carved := none } u)
      else onBrg (bridgeOf a.func) (fun B => { B with filling := some a }) u := by
  have hcharge : Charged s (lineActivity (bridgeOf a.func) s) := activity_charged
  refine ⟨tally (.bridge (bridgeOf a.func)) 0x307 1 .house (lineActivity (bridgeOf a.func) s),
    hcharge.unseen.trans (tally_unseen ..), by rw [tally_brg, hcharge.rest], ?_⟩
  unfold serveAccess
  simp only [h.plain, hc, h.owner, hl, Bool.not_true, Bool.or_false, Bool.false_eq_true, if_false]

/-- A read that hits is answered by its line. -/
theorem serveAccess_hitRead (h : Allowed s a) (hc : (vat s.funcs a.func).win.cen = true) {l : WinLine}
    (hl : lineAt s a.func (a.da - a.off) = some l) (hm : inMain l = true) (hw : a.write = none) :
    .readData (slice l.bytes a.off a.len) ∈ (serveAccess a s).out ∧ (serveAccess a s).mem = s.mem := by
  obtain ⟨hu, hbrg⟩ := hitCounted_spec (bridgeOf a.func) s
  rw [serveAccess_hit h hc hl hm, applyHit_read hw ((lineAt_of_brg hbrg ..).trans hl), (watchHit_unseen ..).out, (watchHit_unseen ..).mem]
  exact ⟨List.mem_cons_self, hu.mem⟩

/-- A write that hits goes into its line. -/
theorem serveAccess_hitWrite (h : Allowed s a) (hc : (vat s.funcs a.func).win.cen = true) {l : WinLine}
    (hl : lineAt s a.func (a.da - a.off) = some l) (hm : inMain l = true) {bs : List Byte} (hw : a.write = some bs) :
    Unseen s (serveAccess a s) := by
  obtain ⟨hu, -⟩ := hitCounted_spec (bridgeOf a.func) s
  obtain ⟨hhit, hmem⟩ := applyHit_write hw (tally (.bridge (bridgeOf a.func)) 0x306 1 .house (lineActivity (bridgeOf a.func) s))
  rw [serveAccess_hit h hc hl hm]
  exact (hu.trans ⟨hmem, hhit.out⟩).trans (watchHit_unseen ..)

/-- A miss that is no write of a whole line begins a fill. -/
theorem serveAccess_fills (h : Allowed s a) (hc : (vat s.funcs a.func).win.cen = true) (hl : lineAt s a.func (a.da - a.off) = none)
    (hw : (a.write.isSome && a.len == lineSize) = false) :
    Unseen s (serveAccess a s) ∧ (vat (serveAccess a s).brg (bridgeOf a.func)).filling = some a ∧
      (vat (serveAccess a s).brg (bridgeOf a.func)).lines = (vat s.brg (bridgeOf a.func)).lines := by
  obtain ⟨u, hu, hbrg, hgo⟩ := serveAccess_miss h hc hl
  rw [hgo, if_neg (by simp [hw]), onBrg_brg, vat_vupd_self, hbrg]
  exact ⟨hu.trans (onBrg_unseen ..), rfl, rfl⟩

/-- A write of a whole line needs no fill. -/
theorem serveAccess_whole (h : Allowed s a) (hc : (vat s.funcs a.func).win.cen = true) (hl : lineAt s a.func (a.da - a.off) = none)
    {bs : List Byte} (hw : a.write = some bs) (hlen : a.len = lineSize) :
    (serveAccess a s).out = s.out ∧ (vat (serveAccess a s).brg (bridgeOf a.func)).filling = none := by
  obtain ⟨u, hu, hbrg, hgo⟩ := serveAccess_miss h hc hl
  have hinst (l : WinLine) := installMain_linesMoved (bridgeOf a.func) l u
  have hhit (v : State) := (applyHit_write hw v).1
  rw [hgo, if_pos (by simp [hw, hlen]), (hhit _).out, (hhit _).filling, (hinst _).out, (hinst _).filling, hu.out, hbrg]
  exact ⟨rfl, h.free⟩

end

/-! ### The obligation -/

section
variable {s : State} {f : Fin 64} {off : BitVec 28} {n : Nat}

/-- An access that crosses no line boundary is one part. -/
theorem lineParts_single {o n : Nat} (hn : 1 ≤ n) (h : o % 512 + n ≤ 512) : lineParts o n = [(0, n)] := by
  have h1 : (o + n - 1) / 512 - o / 512 + 1 = 1 := by omega
  have h2 : max o (o / 512 * 512) = o := by omega
  have h3 : min (o + n) ((o / 512 + 1) * 512) - o = n := by omega
  rw [lineParts, if_neg (by omega)]
  simp [h1, h2, h3]

theorem partData_whole {data : Option (List Byte)} (h : ∀ bs, data = some bs → bs.length = n) : partData data (0, n) = data := by
  cases data with
  | none => rfl
  | some bs => simp [partData, slice, h bs rfl]

/-- The access of a tenant within one line of device memory (R582). -/
def lineAccess (s : State) (f : Fin 64) (off : BitVec 28) (n : Nat) (data : Option (List Byte)) : WinAccess :=
  { func := f, carved := none, da := (vat s.funcs f).win.base.toNat + off.toNat, off := ((vat s.funcs f).win.base.toNat + off.toNat) % 512,
    write := data, len := n }

/-- What the statement asks of the access, but for its checks. -/
structure WithinLine (s : State) (f : Fin 64) (off : BitVec 28) (n : Nat) : Prop where
  reaches : hostReaches s f = true
  tenant : f.val ≠ 0
  running : funcInReset s f = false
  late : earlyState s = false
  some : 1 ≤ n
  line : off.toNat % 512 + n ≤ 512
  inside : off.toNat + n ≤ 2 ^ 28 - 512 * (vat s.funcs f).win.carved
  memory : ((vat s.funcs f).win.base.toNat + off.toNat) / 2 ^ 52 ≠ 0
  free : (vat s.brg (f.val / 32)).filling = none

theorem exec_windowAccess (h : WithinLine s f off n) {len : Nat} {data : Option (List Byte)} (hlen : requestLen len data = n)
    (hdata : ∀ bs, data = some bs → bs.length = n)
    (hk : decodeKind s (.tenant f) data.isSome ((vat s.funcs f).win.base.toNat + off.toNat) n = 0) :
    Allowed s (lineAccess s f off n data) ∧ exec (.windowAccess f off len data) s = .next (serveAccess (lineAccess s f off n data) s) := by
  obtain ⟨hr, h0, hf, he, hn, hl, hi, hm, hfill⟩ := h
  have hallow : Allowed s (lineAccess s f off n data) := by
    refine ⟨rfl, ?_, ?_, hfill⟩ <;> revert hk <;> unfold decodeKind <;> grind [lineAccess]
  have hmax : maxRequest = 4096 := rfl
  have hregs : windowRegs s f = (vat s.funcs f).win := if_neg (by simp [hf])
  refine ⟨hallow, ?_⟩
  change execWindowAccess f off len data s = _
  rw [execWindowAccess, hlen]
  rw [if_neg (by simp [hr, h0]; omega), if_neg (by simp [he]), lineParts_single hn hl]
  change Host.Outcome.next (windowPart f.val (off.toNat + 0) n (partData data (0, n)) s) = _
  rw [partData_whole hdata, windowPart, hregs]
  rw [if_neg (by omega), Nat.add_zero, if_neg hm, if_neg (by simp [hk])]
  exact congrArg _ (arriveAccess_free hallow)

end

/-- Settles O21: an access within one line goes to memory in bypass, to the line that is held, to a line of its own when it
writes the whole of it, and else begins the fill of its bridge. -/
theorem windowAccessesAreServed : Obligations.WindowAccessesAreServed := by
  unfold Obligations.WindowAccessesAreServed
  intro s f off n bs w da hr h0 hf he hn hlen hl hb hi hm hkr hkw hfill
  have hin : WithinLine s f off n := ⟨hr, h0, hf, he, hn, hl, hi, hm, hfill⟩
  obtain ⟨har, hread⟩ := exec_windowAccess hin (len := n) (data := none) rfl (by simp) hkr
  obtain ⟨haw, hwrite⟩ := exec_windowAccess hin (len := 0) (data := some bs) hlen (by rintro _ ⟨⟩; exact hlen) hkw
  have hcharge : Charged s (chargeWindow da n s) := chargeWindow_charged
  refine ⟨fun hc => ⟨⟨_, hread, ?_⟩, _, hwrite, ?_⟩, fun l hc hline hmain => ⟨⟨_, hread, ?_⟩, _, hwrite, ?_⟩,
    fun hc hline => ⟨⟨_, hread, ?_⟩, fun hlt => ⟨_, hwrite, ?_⟩, fun h512 => ⟨_, hwrite, ?_⟩⟩⟩
  · rw [serveAccess_bypass har hc]
    exact ⟨congrArg (_ :: ·) hcharge.unseen.out, hcharge.mem, (by rw [hcharge.rest] : (chargeWindow da n s).brg = s.brg)⟩
  · rw [serveAccess_bypass haw hc]
    refine ⟨hcharge.daWrite da bs, ?_, ?_⟩
    all_goals
      dsimp only [lineAccess]
      rw [daWrite_rest]
    · exact hcharge.unseen.out
    · exact (by rw [hcharge.rest] : (chargeWindow da n s).brg = s.brg)
  · exact serveAccess_hitRead har hc hline hmain rfl
  · exact ⟨(serveAccess_hitWrite haw hc hline hmain rfl).out, (serveAccess_hitWrite haw hc hline hmain rfl).mem⟩
  · obtain ⟨hu, hfills, hlines⟩ := serveAccess_fills har hc hline rfl
    exact ⟨hu.mem, hu.out, hfills, hlines⟩
  · obtain ⟨hu, hfills, -⟩ := serveAccess_fills haw hc hline (by simp [lineAccess, lineSize]; omega)
    exact ⟨hu.mem, hu.out, hfills⟩
  · exact serveAccess_whole haw hc hline rfl h512

end Sys2Proof.Machine
end

section
/-!
PROOFS. What the work of commands leaves of the block, down to a command's leaving it: where the device stands, its links and
ports, which parts are lost, the registers of functions and queue pairs, the husk chain and the losses that are declared.
-/
namespace Sys2Proof.Machine

/-! ### Recoveries -/

/-- What a recovery keeps from its declaration to its cut. -/
def lossKey (r : Recovery) : Nat × PartKind × Nat × Nat × Nat × Option Nat := (r.epoch, r.kind, r.num, r.cause, r.lossPos, r.cutPos)

/-- `r` is not yet closed, nor is there a closed recovery of its epoch among `l`. -/
def OpenLoss (l : List Recovery) (r : Recovery) : Prop := r.cutPos = none ∧ ∀ x ∈ l, x.cutPos = none ∨ x.epoch ≠ r.epoch

/-- Recoveries of `a` go on in `b`: none was declared, those that wait for their cut still do, and commands leave them. -/
structure RecovsGoOn (a b : Rec) : Prop where
  hold : b.hold = a.hold
  epoch : b.epoch = a.epoch
  done : b.done = true → a.done = true ∨ b.active = []
  origin : ∀ y ∈ b.active, ∃ x ∈ a.active, lossKey y = lossKey x ∧ y.preLoss ⊆ x.preLoss
  stays : ∀ x ∈ a.active, OpenLoss a.active x → ∃ y ∈ b.active, lossKey y = lossKey x ∧ y.preLoss ⊆ x.preLoss

theorem RecovsGoOn.refl (a : Rec) : RecovsGoOn a a :=
  ⟨rfl, rfl, fun h => .inl h, fun y hy => ⟨y, hy, rfl, fun _ => id⟩, fun x hx _ => ⟨x, hx, rfl, fun _ => id⟩⟩

theorem lossKey_epoch {x y : Recovery} (h : lossKey y = lossKey x) : y.epoch = x.epoch := congrArg (·.1) h

theorem lossKey_cutPos {x y : Recovery} (h : lossKey y = lossKey x) : y.cutPos = x.cutPos := congrArg (·.2.2.2.2.2) h

theorem RecovsGoOn.trans {a b c : Rec} (h1 : RecovsGoOn a b) (h2 : RecovsGoOn b c) : RecovsGoOn a c := by
  refine ⟨h2.hold.trans h1.hold, h2.epoch.trans h1.epoch, fun hd => ?_, fun z hz => ?_, fun x hx ho => ?_⟩
  · rcases h2.done hd with hb | hc
    · rcases h1.done hb with ha | hb0
      · exact .inl ha
      · refine .inr (List.eq_nil_iff_forall_not_mem.2 fun z hz => ?_)
        obtain ⟨y, hy, -⟩ := h2.origin z hz
        rw [hb0] at hy
        cases hy
    · exact .inr hc
  · obtain ⟨y, hy, e2, p2⟩ := h2.origin z hz
    obtain ⟨x, hx, e1, p1⟩ := h1.origin y hy
    exact ⟨x, hx, e2.trans e1, List.Subset.trans p2 p1⟩
  · obtain ⟨y, hy, e1, p1⟩ := h1.stays x hx ho
    have hoy : OpenLoss b.active y := by
      refine ⟨(lossKey_cutPos e1).trans ho.1, fun w hw => ?_⟩
      obtain ⟨v, hv, e, -⟩ := h1.origin w hw
      rw [lossKey_cutPos e, lossKey_epoch e, lossKey_epoch e1]
      exact ho.2 v hv
    obtain ⟨z, hz, e2, p2⟩ := h2.stays y hy hoy
    exact ⟨z, hz, e2.trans e1, List.Subset.trans p2 p1⟩

/-- Each recovery was changed in what does not say which loss it is of. -/
theorem RecovsGoOn.map {a b : Rec} {g : Recovery → Recovery} (hb : b = { a with active := a.active.map g })
    (hg : ∀ r, lossKey (g r) = lossKey r ∧ (g r).preLoss ⊆ r.preLoss) : RecovsGoOn a b := by
  subst hb
  refine ⟨rfl, rfl, fun h => .inl h, fun y hy => ?_, fun x hx _ => ⟨g x, List.mem_map_of_mem hx, hg x⟩⟩
  obtain ⟨x, hx, rfl⟩ := List.mem_map.1 hy
  exact ⟨x, hx, hg x⟩

/-- A part of a vector before and after one part of it changed. -/
theorem vat_vupd_rel {α : Type} {n : Nat} [NeZero n] {R : α → α → Prop} {g : α → α} (hr : ∀ x, R x x) (hg : ∀ x, R x (g x)) (v : Vector α n)
    (i j : Nat) : R (vat v j) (vat (vupd v i g) j) := by
  rw [vat_vupd]
  split
  · exact hg _
  · exact hr _

/-! ### The relation -/

/-- From `s` to `t` commands did their work and ended, left the device or let others go on. Beside them that shows in memory, in
what is charged and counted, in the journal and in what goes out. -/
structure Calm (s t : State) : Prop where
  frame : t = { s with cfg := { s.cfg with old := t.cfg.old }, jr := t.jr, cmds := t.cmds, kv := t.kv, stolon := t.stolon, partials := t.partials,
                       cores := t.cores, pool := t.pool, qos := t.qos, led := t.led, pmc := t.pmc, cnt := t.cnt, mem := t.mem,
                       poison := t.poison, out := t.out, freeCtr := t.freeCtr, slices := t.slices, funcs := t.funcs, qs := t.qs,
                       flails := t.flails, ring := t.ring, recov := { t.recov with standin := s.recov.standin } }
  slices : ∀ k, vat t.slices k = { vat s.slices k with chNow := (vat t.slices k).chNow }
  funcs : ∀ f, vat t.funcs f = { vat s.funcs f with pba := (vat t.funcs f).pba, cnt := (vat t.funcs f).cnt, kvn := (vat t.funcs f).kvn,
                                                    held := (vat t.funcs f).held }
  qs : ∀ q, vat t.qs q = { vat s.qs q with inflight := (vat t.qs q).inflight }
  holds : ∀ k, (vat t.flails k).holds = (vat s.flails k).holds
  ring : t.ring = { s.ring with given := t.ring.given, recons := t.ring.recons, rebuilt := t.ring.rebuilt, reds := t.ring.reds,
                                farParts := t.ring.farParts, merges := t.ring.merges, arrivals := t.ring.arrivals }
  recov : RecovsGoOn s.recov t.recov

section
variable {s t : State}

theorem Calm.refl (s : State) : Calm s s := ⟨rfl, fun _ => rfl, fun _ => rfl, fun _ => rfl, fun _ => rfl, rfl, .refl _⟩

theorem Calm.trans {a b c : State} (h1 : Calm a b) (h2 : Calm b c) : Calm a c where
  frame := by rw [h2.frame, h1.frame]
  slices k := by rw [h2.slices, h1.slices]
  funcs f := by rw [h2.funcs, h1.funcs]
  qs q := by rw [h2.qs, h1.qs]
  holds k := (h2.holds k).trans (h1.holds k)
  ring := by rw [h2.ring, h1.ring]
  recov := h1.recov.trans h2.recov

theorem Calm.foldl {α : Type} {g : State → α → State} (h : ∀ s x, Calm s (g s x)) : ∀ (l : List α) (s : State), Calm s (l.foldl g s)
  | [], s => .refl s
  | x :: l, s => (h s x).trans (foldl h l (g s x))

/-- Only what `Calm` leaves open changed. -/
theorem Calm.rest (h : t = { s with cfg := { s.cfg with old := t.cfg.old }, jr := t.jr, cmds := t.cmds, kv := t.kv, stolon := t.stolon,
                                    partials := t.partials, cores := t.cores, pool := t.pool, qos := t.qos, led := t.led, pmc := t.pmc,
                                    cnt := t.cnt, mem := t.mem, poison := t.poison, out := t.out, freeCtr := t.freeCtr }) : Calm s t where
  frame := by rw [h]
  slices k := by rw [h]
  funcs f := by rw [h]
  qs q := by rw [h]
  holds k := by rw [h]
  ring := by rw [h]
  recov := by
    rw [h]
    exact .refl _

theorem Charged.calm (h : Charged s t) : Calm s t := .rest (by rw [h.rest])

theorem Calm.ofRing {r : Ring} (h : r = { s.ring with given := r.given, recons := r.recons, rebuilt := r.rebuilt, reds := r.reds,
                                                       farParts := r.farParts, merges := r.merges, arrivals := r.arrivals }) : Calm s { s with ring := r } where
  frame := rfl
  slices _ := rfl
  funcs _ := rfl
  qs _ := rfl
  holds _ := rfl
  ring := h
  recov := .refl _

theorem Calm.ofRecov {r : Rec} (hs : r.standin = s.recov.standin) (h : RecovsGoOn s.recov r) : Calm s { s with recov := r } where
  frame := by rw [← hs]
  slices _ := rfl
  funcs _ := rfl
  qs _ := rfl
  holds _ := rfl
  ring := rfl
  recov := h

theorem onFunc_calm {f : Nat} {g : Func → Func}
    (h : ∀ F, g F = { F with pba := (g F).pba, cnt := (g F).cnt, kvn := (g F).kvn, held := (g F).held }) : Calm s (onFunc f g s) where
  frame := rfl
  slices _ := rfl
  funcs j := by
    rw [vat_onFunc_cases]
    split
    · exact h _
    · rfl
  qs _ := rfl
  holds _ := rfl
  ring := rfl
  recov := .refl _

theorem onQ_calm {q : Nat} {g : Queue → Queue} (h : ∀ Q, g Q = { Q with inflight := (g Q).inflight }) : Calm s (onQ q g s) where
  frame := rfl
  slices _ := rfl
  funcs _ := rfl
  qs j := vat_vupd_rel (R := fun a b : Queue => b = { a with inflight := b.inflight }) (fun _ => rfl) h s.qs q j
  holds _ := rfl
  ring := rfl
  recov := .refl _

theorem onCmd_calm (u : Nat) (g : Cmd → Cmd) (s : State) : Calm s (onCmd u g s) := .rest rfl

theorem onCore_calm (k : Nat) (g : Core → Core) (s : State) : Calm s (onCore k g s) := .rest rfl

theorem emit_calm (o : Out) (s : State) : Calm s (emit o s) := .rest rfl

/-! ### Messages, events and the journal -/

theorem hostWriteRo_calm (ro : Bool) (f a : Nat) (bs : List Byte) (s : State) : Calm s (hostWriteRo ro f a bs s) := by
  unfold hostWriteRo
  split
  · exact emit_calm ..
  · exact .refl s

theorem hostWrite_calm (f a : Nat) (bs : List Byte) (s : State) : Calm s (hostWrite f a bs s) := hostWriteRo_calm ..

theorem raiseMsix_calm (f v : Nat) (s : State) : Calm s (raiseMsix f v s) := by
  unfold raiseMsix
  extract_lets F
  split
  · exact .refl s
  split
  · exact onFunc_calm fun _ => rfl
  split
  · exact emit_calm ..
  · exact .refl s

theorem tally_calm (i : BankId) (e n : Nat) (g : Tag) (s : State) : Calm s (tally i e n g s) := .rest (by rw [tally_frame])

theorem jKick_calm (s : State) : Calm s (jKick s) := .rest (by rw [jKick_frame])

theorem jAdd_calm (b : JBody) (s : State) : Calm s (jAdd b s) := .rest (by rw [jAdd_frame])

theorem deliverEvent_calm (n : Nat) (e : Event) (s : State) : Calm s (deliverEvent n e s) := by
  have hjr (j : Journal) : Calm s { s with jr := j } := .rest rfl
  unfold deliverEvent
  extract_lets r entry
  split
  · split
    · exact hjr _
    · exact ((hjr _).trans (hostWrite_calm ..)).trans (raiseMsix_calm ..)
  · exact hjr _

theorem raiseEvent_calm (t a b : Nat) (s : State) : Calm s (raiseEvent t a b s) := by
  have hjr (j : Journal) : Calm s { s with jr := j } := .rest rfl
  unfold raiseEvent
  split
  · exact .refl s
  extract_lets e
  split
  · exact (((hjr _).trans (deliverEvent_calm ..)).trans (jKick_calm _)).trans (tally_calm ..)
  · exact (hjr _).trans (tally_calm ..)

theorem logError_calm (k c : Nat) (e : ErrInfo) (r : List Byte) (s : State) : Calm s (logError k c e r s) :=
  (jAdd_calm ..).trans (raiseEvent_calm ..)

/-! ### Memory -/

theorem daPoke_calm (s : State) (a : Nat) (bs : List Byte) : Calm s (daPoke s a bs) := .rest (by rw [daPoke_rest])

theorem daWrite_calm (s : State) (a : Nat) (bs : List Byte) : Calm s (daWrite s a bs).2 := .rest (by rw [daWrite_rest])

theorem zeroRange_calm (a n : Nat) (s : State) : Calm s (zeroRange a n s) := .rest rfl

theorem noteAtoms_calm (da n : Nat) (s : State) : Calm s (noteAtoms da n s) := by
  unfold noteAtoms
  split
  · exact .refl s
  · exact { frame := rfl, funcs := fun _ => rfl, qs := fun _ => rfl, holds := fun _ => rfl, ring := rfl, recov := .refl _,
            slices := fun k => vat_vupd_rel (R := fun a b : Slice => b = { a with chNow := b.chNow }) (fun _ => rfl) (fun _ => rfl)
              s.slices _ k }

theorem rowTraffic_calm (c : Cmd) (da n : Nat) (s : State) : Calm s (rowTraffic c da n s) :=
  (noteAtoms_calm ..).trans chargeCmd_charged.calm

/-! ### Commands -/

theorem endCmd_calm (u st d : Nat) (s : State) : Calm s (endCmd u st d s) := onCmd_calm ..

theorem badOpcode_calm (u c : Nat) (s : State) : Calm s (badOpcode u c s) := endCmd_calm ..

theorem noteLoss_calm (u : Nat) (s : State) : Calm s (noteLoss u s) := by
  unfold noteLoss
  refine Calm.ofRecov rfl (.map rfl fun r => ?_)
  split <;> exact ⟨rfl, fun _ => id⟩

theorem endLoss_calm (u st d : Nat) (s : State) : Calm s (endLoss u st d s) := (noteLoss_calm ..).trans (endCmd_calm ..)

theorem stamp_calm (u i : Nat) (again : Bool) (s : State) : Calm s (stamp u i again s) := by
  unfold stamp
  split
  · exact .refl s
  · split
    · exact .refl s
    · exact .rest rfl

theorem rngWriteRo_calm (ro : Bool) (c : Cmd) (dev : Bool) (a : Nat) (bs : List Byte) (s : State) :
    Calm s (rngWriteRo ro c dev a bs s).2 := by
  have hhost (a : Nat) : Calm s (busActivity (.cmd c.uid) c.func bs.length (hostWriteRo ro c.func a bs s)) :=
    (hostWriteRo_calm ..).trans busActivity_charged.calm
  unfold rngWriteRo
  extract_lets host
  split
  · exact hhost _
  · split
    · exact hhost _
    · exact daWrite_calm ..

theorem rngWrite_calm (c : Cmd) (dev : Bool) (a : Nat) (bs : List Byte) (s : State) : Calm s (rngWrite c dev a bs s).2 :=
  rngWriteRo_calm ..

/-! ### Notices (R365) -/

theorem houseBytes_calm (was : State) (f n : Nat) (s : State) : Calm s (houseBytes was f n s) := houseBytes_charged.calm

theorem writeNotice_calm (f : Nat) (bs : List Byte) (s : State) : Calm s (writeNotice f bs s) :=
  (((hostWrite_calm ..).trans (onFunc_calm fun _ => rfl)).trans (raiseMsix_calm ..)).trans (houseBytes_calm ..)

theorem postNotice_calm (f : Nat) (bs : List Byte) (s : State) : Calm s (postNotice f bs s) := by
  unfold postNotice
  extract_lets F
  split
  · exact onFunc_calm fun _ => rfl
  split
  · exact writeNotice_calm ..
  split
  · exact onFunc_calm fun _ => rfl
  · exact onFunc_calm fun _ => rfl

theorem postNotices_calm (d : KvDecl) (t : KvTable) (b : Option (Nat × Nat × Nat)) (es : List Evicted) (s : State) :
    Calm s (postNotices d t b es s) := .foldl (fun _ _ => postNotice_calm ..) _ _

/-! ### KV tables -/

theorem kvPoke_calm (c : Option Cmd) (da v : Nat) (s : State) : Calm s (kvPoke c da v s) := by
  cases c with
  | some c => exact (rowTraffic_calm ..).trans (daPoke_calm ..)
  | none => exact ((noteAtoms_calm ..).trans memActivity_charged.calm).trans (daPoke_calm ..)

theorem commitKv_calm (c : Option Cmd) (d : KvDecl) (old new : KvTable) (s : State) : Calm s (commitKv c d old new s) := by
  unfold commitKv
  extract_lets s1 s2
  have h1 : Calm s s1 := .rest rfl
  have h2 : Calm s1 s2 := by
    unfold s2
    split
    · exact .refl s1
    · exact .foldl (fun _ _ => .foldl (fun _ _ => kvPoke_calm ..) _ _) _ _
  exact (h1.trans h2).trans (.foldl (fun _ _ => kvPoke_calm ..) _ _)

theorem writeKvPage_calm (c : Cmd) (d : KvDecl) (t : KvTable) (es : List AppendEntry) (x : Bool × State) (w : PageWrite) :
    Calm x.2 (writeKvPage c d t es x w).2 := by
  unfold writeKvPage
  extract_lets s
  split
  · split
    · exact .refl _
    · exact (rowTraffic_calm ..).trans (daWrite_calm ..)
  · exact .refl _

/-- The pages of an append are written one after another. -/
theorem foldl_writeKvPage_calm (c : Cmd) (d : KvDecl) (t : KvTable) (es : List AppendEntry) : ∀ (ws : List PageWrite) (x : Bool × State),
    Calm x.2 (ws.foldl (writeKvPage c d t es) x).2
  | [], x => .refl x.2
  | w :: ws, x => (writeKvPage_calm c d t es x w).trans (foldl_writeKvPage_calm c d t es ws _)

theorem loseSlots_calm (d : KvDecl) (ids : List Nat) (t : KvTable) (s : State) : Calm s (loseSlots d ids t s) :=
  (commitKv_calm ..).trans (postNotices_calm ..)

theorem doAppend_calm (u : Nat) (c : Cmd) (d : KvDecl) (t : KvTable) (es : List AppendEntry) (s : State) : Calm s (doAppend u c d t es s) := by
  unfold doAppend
  extract_lets readers t1 r t2
  have hr : Calm s r.2 := foldl_writeKvPage_calm c d t1 es (pageWrites d es) (true, s)
  split
  · exact hr.trans (endCmd_calm ..)
  · exact ((hr.trans (commitKv_calm ..)).trans (endCmd_calm ..)).trans (stamp_calm ..)

theorem appendFits_calm (u : Nat) (c : Cmd) (d : KvDecl) (t : KvTable) (es : List AppendEntry) (s : State) :
    Calm s (appendFits u c d t es s).2 := by
  unfold appendFits
  split
  · exact .refl s
  extract_lets bad
  split
  · exact (loseSlots_calm ..).trans (endCmd_calm ..)
  · exact doAppend_calm ..

theorem appendTurn_calm (u : Nat) (c : Cmd) (d : KvDecl) (t : KvTable) (s : State) : Calm s (appendTurn u c d t s).2 := by
  unfold appendTurn
  extract_lets es layer demand named
  split
  · exact endLoss_calm ..
  split
  · exact badOpcode_calm ..
  split
  · exact endCmd_calm ..
  split
  · exact badOpcode_calm ..
  split
  · exact appendFits_calm ..
  split
  · exact endCmd_calm ..
  · exact (((commitKv_calm ..).trans (postNotices_calm ..)).trans (onCmd_calm ..)).trans (appendFits_calm ..)

theorem releaseTurn_calm (u : Nat) (c : Cmd) (d : KvDecl) (t : KvTable) (s : State) : Calm s (releaseTurn u c d t s) := by
  unfold releaseTurn
  extract_lets xs r
  split
  · exact badOpcode_calm ..
  · exact (commitKv_calm ..).trans (endCmd_calm ..)

theorem matchTurn_calm (u : Nat) (c : Cmd) (d : KvDecl) (t : KvTable) (s : State) : Calm s (matchTurn u c d t s) := by
  unfold matchTurn
  extract_lets seq r
  split
  · exact endLoss_calm ..
  split
  · exact badOpcode_calm ..
  split
  · exact endCmd_calm ..
  split
  · exact badOpcode_calm ..
  · exact (commitKv_calm ..).trans (endCmd_calm ..)

/-! ### Attention -/

theorem dropAttn_calm (u : Nat) (s : State) : Calm s (dropAttn u s) := by
  have hring : Calm s { s with ring := { s.ring with merges := s.ring.merges.filter (·.cmd != u) } } := .ofRing rfl
  exact hring.trans (.rest rfl)

theorem dealItem_calm (d : KvDecl) (c : Cmd) (i h k core : Nat) (run : List Nat) (s : State) : Calm s (dealItem d c i h k core run s) := by
  unfold dealItem
  split
  · exact .rest rfl
  · exact onCore_calm ..

theorem dealPair_calm (d : KvDecl) (c : Cmd) (k n i h : Nat) (bl : List Nat) (s : State) : Calm s (dealPair d c k n i h bl s) :=
  .foldl (fun _ _ => dealItem_calm ..) _ _

/-- The pairs of a slice are dealt one after another. -/
theorem foldl_dealPair_calm (d : KvDecl) (c : Cmd) (k : Nat) : ∀ (ps : List (Nat × Nat × List Nat)) (x : Nat × State),
    Calm x.2 (ps.foldl (fun (x : Nat × State) p => (x.1 + 1, dealPair d c k x.1 p.1 p.2.1 p.2.2 x.2)) x).2
  | [], x => .refl x.2
  | p :: ps, x => (dealPair_calm d c k x.1 p.1 p.2.1 p.2.2 x.2).trans
      (foldl_dealPair_calm d c k ps (x.1 + 1, dealPair d c k x.1 p.1 p.2.1 p.2.2 x.2))

theorem dealSlice_calm (d : KvDecl) (c : Cmd) (lens : List Nat) (s : State) (k : Nat) : Calm s (dealSlice d c lens s k) :=
  foldl_dealPair_calm d c k _ (0, s)

theorem openPair_calm (d : KvDecl) (u : Nat) (s : State) (p : Nat × Nat) : Calm s (openPair d u s p) := by
  unfold openPair
  split
  · exact .refl s
  split
  · exact onCmd_calm ..
  · exact .refl s
  · exact .ofRing rfl

theorem writeEntries_calm (u : Nat) (d : KvDecl) : ∀ (n : Nat) (s : State), Calm s (writeEntries u d n s)
  | 0, s => .refl s
  | n + 1, s => by
    unfold writeEntries
    split
    · exact .refl s
    split
    · exact ((endCmd_calm ..).trans (stamp_calm ..)).trans (stamp_calm ..)
    split
    · exact .refl s
    next c _ _ _ bs _ =>
    extract_lets o at_ s1 r
    have h1 : Calm s s1 := by
      unfold s1
      split
      · exact chargeCmd_charged.calm
      · exact .refl s
    have hr : Calm s r.2 := h1.trans (rngWrite_calm ..)
    split
    · exact (hr.trans (endCmd_calm ..)).trans (dropAttn_calm ..)
    · exact (hr.trans (onCmd_calm ..)).trans (writeEntries_calm u d n _)

theorem attnTurn_calm (u : Nat) (c : Cmd) (d : KvDecl) (t : KvTable) (s : State) : Calm s (attnTurn u c d t s) := by
  unfold attnTurn
  extract_lets n es layer slot len lens reads bad s1 s2 s3
  split
  · exact endLoss_calm ..
  split
  · exact badOpcode_calm ..
  split
  · exact endCmd_calm ..
  split
  · exact badOpcode_calm ..
  split
  · exact badOpcode_calm ..
  split
  · exact (loseSlots_calm ..).trans (endCmd_calm ..)
  · have h1 (v : State) : Calm v ((List.range 16).foldl (dealSlice d c lens) v) := .foldl (fun v k => dealSlice_calm d c lens v k) _ _
    have h2 (v : State) (ps : List (Nat × Nat)) : Calm v (ps.foldl (openPair d u) v) := .foldl (fun v p => openPair_calm d u v p) _ _
    exact ((((onCmd_calm ..).trans (h1 _)).trans (h2 _ _)).trans (stamp_calm ..)).trans (writeEntries_calm ..)

/-! ### The order of KV commands (R348) -/

theorem kvTurn_calm (c : Cmd) (s : State) : Calm s (kvTurn c s).2 := by
  unfold kvTurn
  split
  · split
    · exact appendTurn_calm ..
    · exact releaseTurn_calm ..
    · exact matchTurn_calm ..
    · exact attnTurn_calm ..
  · exact endCmd_calm ..

theorem pumpKv_calm (id : Nat) : ∀ (n : Nat) (s : State), Calm s (pumpKv id n s)
  | 0, s => .refl s
  | n + 1, s => by
    unfold pumpKv
    split
    · exact .refl s
    next c _ =>
    split
    · exact .refl s
    · extract_lets r
      split
      · exact (kvTurn_calm c s).trans (pumpKv_calm id n _)
      · exact kvTurn_calm c s

theorem pumpAllKv_calm (s : State) : Calm s (pumpAllKv s) := .foldl (fun _ _ => pumpKv_calm ..) _ _

theorem kvLeft_calm (c : Cmd) (s : State) : Calm s (kvLeft c s) := by
  unfold kvLeft
  split
  · refine Calm.trans ?_ (pumpAllKv_calm _)
    exact (dropAttn_calm c.uid s).trans (.rest rfl)
  · exact .refl s

/-! ### A command leaves the device -/

theorem releaseFences_calm (u : Nat) (s : State) : Calm s (releaseFences u s) := .rest rfl

theorem setSlots_calm (i n : Nat) (s : State) : Calm s (setSlots i n s) := .rest rfl

theorem settleOld_calm (s : State) : Calm s (settleOld s) := by
  unfold settleOld
  split
  · exact .refl s
  · split
    · exact .refl s
    · exact .rest rfl

theorem zeroGranules_calm (b n : Nat) (s : State) : Calm s (zeroGranules b n s) := .foldl (fun _ _ => zeroRange_calm ..) _ _

theorem settleBuffers_calm (s : State) : Calm s (settleBuffers s) := by
  have hpool (p : Pool) : Calm s { s with pool := p } := .rest rfl
  exact (hpool _).trans (.foldl (fun _ _ => zeroGranules_calm ..) _ _)

theorem releaseBuffers_calm (u : Nat) (s : State) : Calm s (releaseBuffers u s) := by
  have hpool (p : Pool) : Calm s { s with pool := p } := .rest rfl
  exact (hpool _).trans (settleBuffers_calm _)

/-- The losses may be replaced on both sides. -/
theorem Calm.replaceRecov (h : Calm s t) (r : Rec) : Calm { s with recov := r } { t with recov := r } where
  frame := by rw [h.frame]
  slices := h.slices
  funcs := h.funcs
  qs := h.qs
  holds := h.holds
  ring := h.ring
  recov := .refl _

/-- The losses as a recovery is done. -/
def recovAfter (r : Recovery) (rep : List Byte) (a : Rec) : Rec :=
  { a with reports := ((r.epoch, rep) :: a.reports).take 8, active := a.active.filter (·.epoch != r.epoch),
           done := (a.active.filter (·.epoch != r.epoch)).isEmpty }

theorem finishRecovery_calm (r : Recovery) (s : State) : ∃ rep, (finishRecovery r s).recov = recovAfter r rep s.recov ∧
    Calm { s with recov := recovAfter r rep s.recov } (finishRecovery r s) := by
  let rep := rebuildReport r (posOf s)
  let s1 := logError 3 4 { cause := r.cause, die := match r.kind with | .slice => r.num | .bridge => r.num | _ => dieC } rep s
  have hr : s1.recov = s.recov := by
    rw [show s1 = _ from logError_frame]
  have hgo : finishRecovery r s = raiseEvent evRecoveryDone (source dieC 0) r.epoch { s1 with recov := recovAfter r rep s.recov } := by
    rw [← hr]
    rfl
  have h1 : Calm s s1 := logError_calm ..
  rw [hgo]
  refine ⟨rep, ?_, (h1.replaceRecov _).trans (raiseEvent_calm ..)⟩
  rw [raiseEvent_frame]

/-- Recoveries are done one after another: those of their epochs are gone. -/
theorem foldl_finishRecovery_calm : ∀ (l : List Recovery) (s : State), ∃ a : Rec, Calm { s with recov := a } (l.foldl (fun s r => finishRecovery r s) s) ∧
    a.hold = s.recov.hold ∧ a.epoch = s.recov.epoch ∧ a.standin = s.recov.standin ∧ (a.done = true → s.recov.done = true ∨ a.active = []) ∧
    ∀ x, x ∈ a.active ↔ x ∈ s.recov.active ∧ ∀ r ∈ l, x.epoch ≠ r.epoch
  | [], s => ⟨s.recov, .refl s, rfl, rfl, rfl, .inl, by simp⟩
  | r :: l, s => by
    obtain ⟨rep, hr, h1⟩ := finishRecovery_calm r s
    obtain ⟨a, h2, hh, he, hs, hd, ha⟩ := foldl_finishRecovery_calm l (finishRecovery r s)
    rw [hr] at hh he hs hd ha
    refine ⟨a, (h1.replaceRecov a).trans h2, hh, he, hs, fun h => ?_, fun x => ?_⟩
    · rcases hd h with h0 | h0
      · refine .inr (List.eq_nil_iff_forall_not_mem.2 fun x hx => ?_)
        have hm : x ∈ s.recov.active.filter (·.epoch != r.epoch) := ((ha x).1 hx).1
        rw [List.isEmpty_iff.1 h0] at hm
        cases hm
      · exact .inr h0
    · rw [ha]
      simp [recovAfter, and_assoc]

theorem settleRecoveries_calm (s : State) : Calm s (settleRecoveries s) := by
  unfold settleRecoveries
  split
  · exact .refl s
  · obtain ⟨a, h, hh, he, hs, hd, ha⟩ := foldl_finishRecovery_calm (s.recov.active.filter fun r => r.cutPos.isSome && r.preLoss.isEmpty) s
    refine (Calm.ofRecov hs ⟨hh, he, hd, fun y hy => ⟨y, ((ha y).1 hy).1, rfl, fun _ => id⟩, fun x hx ho => ⟨x, (ha x).2 ⟨hx, ?_⟩, rfl, fun _ => id⟩⟩).trans h
    intro r hr
    obtain ⟨hm, hc⟩ := List.mem_filter.1 hr
    rcases ho.2 r hm with h0 | h0
    · simp [h0] at hc
    · exact Ne.symm h0

theorem leavePreLoss_calm (u : Nat) (e : Option (List Byte)) (s : State) : Calm s (leavePreLoss u e s) := by
  unfold leavePreLoss
  extract_lets f
  have hf (r : Recovery) : lossKey (f r) = lossKey r ∧ (f r).preLoss ⊆ r.preLoss := by
    unfold f
    split
    · cases e with
      | none => exact ⟨rfl, List.erase_subset⟩
      | some e => dsimp only; split <;> exact ⟨rfl, List.erase_subset⟩
    · exact ⟨rfl, fun _ => id⟩
  have h1 : Calm s { s with recov := { s.recov with active := s.recov.active.map f } } := .ofRecov rfl (.map rfl hf)
  exact h1.trans (settleRecoveries_calm _)

theorem retire_calm (c : Cmd) (e : Option (List Byte)) (s : State) : Calm s (retire c e s) := by
  have hgone (l : List Cmd) : Calm s { s with cmds := l } := .rest rfl
  have hq (v : State) : Calm v (onQ c.q (fun Q => { Q with inflight := Q.inflight - 1 }) v) := onQ_calm fun _ => rfl
  unfold retire
  exact ((((((hgone _).trans (releaseFences_calm ..)).trans (hq _)).trans (setSlots_calm ..)).trans (settleOld_calm _)).trans
    (releaseBuffers_calm ..)).trans ((leavePreLoss_calm ..).trans (kvLeft_calm ..))

/-! ### The end of an update's work -/

theorem countFunc_calm (f i n : Nat) (s : State) : Calm s (countFunc f i n s) := onFunc_calm fun _ => rfl

theorem writePip_calm (c : Cmd) (n : Nat) (m d : Bool) (s : State) : Calm s (writePip c n m d s) := by
  have hcnt (v : State) (x : Cnt) : Calm v { v with cnt := x } := .rest rfl
  unfold writePip
  split
  · exact .refl s
  extract_lets r t
  split
  · exact (((hostWrite_calm ..).trans (hcnt ..)).trans (raiseMsix_calm ..)).trans (houseBytes_calm ..)
  · exact hcnt ..

theorem toHouse_calm (n : Nat) (s : State) : Calm s (toHouse n s) := .rest rfl

theorem drew_calm (s : State) : Calm s (drew s) := .rest rfl

theorem houseCmd_calm (c : Cmd) (s : State) : Calm s (houseCmd c s) := (toHouse_calm ..).trans (drew_calm _)

theorem discardNow_calm (c : Cmd) (s : State) : Calm s (discardNow c s) := by
  exact ((houseCmd_calm ..).trans (countFunc_calm ..)).trans (writePip_calm ..)

theorem promoteChunk_holds (F : Flail) : (promoteChunk F).holds = F.holds := by
  unfold promoteChunk
  split <;> rfl

theorem forgetUpdate_calm (u : Nat) (s : State) : Calm s (forgetUpdate u s) := by
  unfold forgetUpdate
  extract_lets is clean
  exact { frame := rfl, slices := fun _ => rfl, funcs := fun _ => rfl, qs := fun _ => rfl, ring := rfl, recov := .refl _,
          holds := fun k => by rw [vat_map]; exact promoteChunk_holds _ }

theorem finishWork_calm (u st d : Nat) (s : State) : Calm s (finishWork u st d s) := by
  unfold finishWork
  split
  · exact .refl s
  · split
    · exact (discardNow_calm ..).trans (retire_calm ..)
    · exact endCmd_calm ..

theorem settleOne_calm (s : State) (c : Cmd) : Calm s (settleOne s c) :=
  (((forgetUpdate_calm ..).trans (stamp_calm ..)).trans (stamp_calm ..)).trans (finishWork_calm ..)

theorem settleUpdates_calm (s : State) : Calm s (settleUpdates s) := by
  rw [settleUpdates_eq]
  exact .foldl settleOne_calm _ _

theorem startReds_calm (r : Bool) (s : State) : Calm s (startReds r s) := by
  unfold startReds
  split
  · exact .refl s
  extract_lets done need running
  split
  · exact .refl s
  split
  · exact .refl s
  · exact .ofRing rfl

theorem sendRecons_calm (u j : Nat) (t : TableDecl) (rows : List Nat) (s : State) : Calm s (sendRecons u j t rows s) := .ofRing rfl

theorem startChunkRecons_calm (s : State) : Calm s (startChunkRecons s) := by
  unfold startChunkRecons
  split
  · exact .refl s
  · exact sendRecons_calm ..

theorem kickFlail_calm (s : State) : Calm s (kickFlail s) :=
  ((startChunkRecons_calm s).trans (startReds_calm false _)).trans (startReds_calm true _)

end

end Sys2Proof.Machine
end

section
/-!
PROOFS. The husk chain: a packet goes on, is folded at S16, and its acknowledgement releases the old records.
-/
namespace Sys2Proof.Machine

section
variable {s t : State}

/-! ### Updates that have not ended -/

theorem updQueue_eq_nil : updQueue s = [] ↔ ∀ c ∈ s.cmds, (writesRows c && unfinished c) = false := by
  rw [List.eq_nil_iff_forall_not_mem]
  constructor
  · intro h c hc
    by_contra hn
    exact h c ((mem_sortBy _).2 (List.mem_filter.2 ⟨hc, by simpa using hn⟩))
  · intro h c hc
    obtain ⟨hm, hw⟩ := List.mem_filter.1 ((mem_sortBy _).1 hc)
    rw [h c hm] at hw
    cases hw

/-- Charging begins and ends no update. -/
theorem updQueue_nil_of_cmdsBut (h : cmdsBut t = cmdsBut s) (hs : updQueue s = []) : updQueue t = [] := by
  rw [updQueue_eq_nil] at hs ⊢
  intro c hc
  have hm : { c with energy := 0 } ∈ cmdsBut s := h ▸ List.mem_map_of_mem hc
  obtain ⟨c0, h0, e⟩ := List.mem_map.1 hm
  have hw : (writesRows { c0 with energy := 0 } && unfinished { c0 with energy := 0 }) = false := hs c0 h0
  rw [e] at hw
  exact hw

theorem settleUpdates_none (h : updQueue s = []) : settleUpdates s = s := by
  rw [settleUpdates, h]
  rfl

/-! ### Parity is folded and paid for -/

/-- Accesses were charged, and the atoms read on the stacks noted. -/
structure Billed (s t : State) : Prop where
  rest : t = { s with slices := t.slices, cmds := t.cmds, qos := t.qos, led := t.led, pmc := t.pmc }
  cmds : cmdsBut t = cmdsBut s

theorem Billed.refl (s : State) : Billed s s := ⟨rfl, rfl⟩

theorem Billed.trans {a b c : State} (h1 : Billed a b) (h2 : Billed b c) : Billed a c := ⟨by rw [h2.rest, h1.rest], h2.cmds.trans h1.cmds⟩

theorem Billed.foldl {α : Type} {g : State → α → State} (h : ∀ s x, Billed s (g s x)) : ∀ (l : List α) (s : State), Billed s (l.foldl g s)
  | [], s => .refl s
  | x :: l, s => (h s x).trans (foldl h l (g s x))

theorem Charged.billed (h : Charged s t) : Billed s t := ⟨by rw [h.rest], h.cmds⟩

theorem noteAtoms_billed (da n : Nat) (s : State) : Billed s (noteAtoms da n s) := by
  unfold noteAtoms
  split <;> exact ⟨rfl, rfl⟩

theorem rowTraffic_billed (c : Cmd) (da n : Nat) (s : State) : Billed s (rowTraffic c da n s) :=
  (noteAtoms_billed ..).trans chargeCmd_charged.billed

theorem chargeMove_billed (da n : Nat) (s : State) : Billed s (chargeMove da n s) :=
  ((noteAtoms_billed ..).trans memActivity_charged.billed).trans chargeClass_charged.billed

theorem parityTraffic_billed (pk : ChainPkt) (c : Cmd) (T : TableDecl) (s : State) : Billed s (parityTraffic pk c T s) := by
  unfold parityTraffic
  extract_lets home
  refine .foldl (fun s pl => ?_) _ s
  extract_lets da s1
  have h1 : Billed s s1 := rowTraffic_billed ..
  split
  · exact chargeMove_billed ..
  · split
    · exact h1.trans (rowTraffic_billed ..)
    · exact h1

theorem writeParity_frame (T : TableDecl) (row : Nat) (par : List Byte) (s : State) : ∃ m, writeParity T row par s = { s with mem := m } := by
  unfold writeParity
  generalize (rowPlaces s T row).filter (·.1 == .stack) = l
  induction l generalizing s with
  | nil => exact ⟨_, rfl⟩
  | cons p l ih =>
    obtain ⟨m, e⟩ := ih (daPoke s (segDa T (placeShard p) row 16) par)
    exact ⟨m, by rw [List.foldl_cons, e, daPoke_rest]⟩

/-- A fold writes parity, and is paid for. -/
theorem foldParity_spec (pk : ChainPkt) (own : List Byte) (s : State) :
    (foldParity pk own s).ring = s.ring ∧ cmdsBut (foldParity pk own s) = cmdsBut s := by
  have hfold (c : Cmd) (T : TableDecl) (par : List Byte) : (parityTraffic pk c T (writeParity T pk.row par s)).ring = s.ring ∧
      cmdsBut (parityTraffic pk c T (writeParity T pk.row par s)) = cmdsBut s := by
    obtain ⟨m, e⟩ := writeParity_frame T pk.row par s
    have h := parityTraffic_billed pk c T (writeParity T pk.row par s)
    rw [h.cmds, h.rest, e]
    exact ⟨rfl, rfl⟩
  unfold foldParity
  split
  · exact ⟨rfl, rfl⟩
  · split
    · exact hfold ..
    · exact hfold ..
    · exact ⟨rfl, rfl⟩

/-- An acknowledgement starts, when it is due. -/
theorem ackIfDue_frame (s : State) : ∃ a l, ackIfDue s = { s with ring := { s.ring with acked := a, acks := l } } := by
  unfold ackIfDue
  extract_lets g
  split
  · exact ⟨_, _, rfl⟩
  · split <;> exact ⟨_, _, rfl⟩

/-! ### The rows -/

/-- Updates that have ended leave the chain, the numbers folded and the acknowledgements as they are. -/
theorem settleUpdates_ring (s : State) : (settleUpdates s).ring.folded = s.ring.folded ∧ (settleUpdates s).ring.chain = s.ring.chain ∧
    (settleUpdates s).ring.acks = s.ring.acks ∧ (settleUpdates s).ring.farHolds = s.ring.farHolds := by
  rw [(settleUpdates_calm s).ring]
  exact ⟨rfl, rfl, rfl, rfl⟩

/-- A packet whose delta is there goes on from a data slice (R283). -/
theorem chainHop_slice {i : Nat} {pk : ChainPkt} {d dd : List Byte} (hpk : s.ring.chain[i]? = some pk) (hn : pk.next ≠ 16)
    (hd : pk.payload = some d) (hdd : deltaFor s pk pk.next = some dd) (ht : ringTurn s pk.next pk.arr = true) :
    let u := chainHop i s
    Charged { s with ring := u.ring } u ∧ u.ring.folded = s.ring.folded ∧ u.ring.chain = s.ring.chain.set i { pk with
      payload := some (xorBytes d dd), next := ringNext s pk.next, arr := s.ring.arrivals } := by
  have hready : (!chainReady s pk || !ringTurn s pk.next pk.arr) = false := by simp [chainReady, hn, hdd, ht]
  have hgo : chainHop i s = ringSend (.cmd pk.uid) pk.next (ringNext s pk.next) d.length { s with ring := { s.ring with
      chain := s.ring.chain.set i { pk with payload := some (xorBytes d dd), next := ringNext s pk.next, arr := s.ring.arrivals },
      deltas := s.ring.deltas.filter fun x => !(x.1 == pk.next && x.2.1 == pk.seq), arrivals := s.ring.arrivals + 1 } } := by
    unfold chainHop
    simp only [hpk, hready, Bool.false_eq_true, if_false, hn, hd, hdd, Option.map_some, Option.getD_some]
  have hc := ringSend_charged (p := .cmd pk.uid) (a := pk.next) (c := ringNext s pk.next) (n := d.length) (s := { s with ring := { s.ring with
      chain := s.ring.chain.set i { pk with payload := some (xorBytes d dd), next := ringNext s pk.next, arr := s.ring.arrivals },
      deltas := s.ring.deltas.filter fun x => !(x.1 == pk.next && x.2.1 == pk.seq), arrivals := s.ring.arrivals + 1 } })
  intro u
  rw [show u = _ from hgo, hc.ring]
  exact ⟨hc, rfl, rfl⟩

/-- S16 folds the packet whose turn it is (R284). -/
theorem chainHop_fold {i : Nat} {pk : ChainPkt} (hpk : s.ring.chain[i]? = some pk) (hn : pk.next = 16) (hseq : pk.seq = s.ring.folded + 1)
    (hh : foldHeld s pk = false) (hs : s.recov.standin = none) (ht : ringTurn s 16 pk.arr = true) :
    let u := chainHop i s
    u.ring.folded = pk.seq ∧ u.ring.chain = s.ring.chain.eraseIdx i ∧ cmdsBut u = cmdsBut s ∧
      u.mem = (foldParity pk ((deltaFor s pk 16).getD []) s).mem := by
  have hready : (!chainReady s pk || !ringTurn s 16 pk.arr) = false := by
    rw [ht]
    simp [chainReady, hn, hseq, hh, hs]
  obtain ⟨hring, hcmds⟩ := foldParity_spec pk ((deltaFor s pk 16).getD []) s
  let v := foldParity pk ((deltaFor s pk 16).getD []) s
  let w : State := { v with ring := { v.ring with
    chain := v.ring.chain.eraseIdx i, folded := pk.seq, deltas := s.ring.deltas.filter fun d => !(d.1 == 16 && d.2.1 == pk.seq) } }
  have hgo : chainHop i s = ackIfDue (ringActivity (.cmd pk.uid) 16 ((pk.payload.map (·.length)).getD 0) w) := by
    unfold chainHop
    simp only [hpk, hready, Bool.false_eq_true, if_false, hn, if_true]
    rfl
  have hc : Charged w (ringActivity (.cmd pk.uid) 16 ((pk.payload.map (·.length)).getD 0) w) := activity_charged
  obtain ⟨a, l, e⟩ := ackIfDue_frame (ringActivity (.cmd pk.uid) 16 ((pk.payload.map (·.length)).getD 0) w)
  intro u
  rw [show u = _ from hgo, e]
  refine ⟨congrArg Ring.folded hc.ring, (congrArg Ring.chain hc.ring).trans (congrArg (fun r : Ring => r.chain.eraseIdx i) hring),
    hc.cmds.trans hcmds, hc.mem⟩

/-- An acknowledgement reaches a data slice (R285, R286). -/
theorem ackHop_slice {i : Nat} {a : AckPkt} (ha : s.ring.acks[i]? = some a) (hn : a.next < 16) :
    let u := ackHop i s
    u.mem = s.mem ∧ u.cmds = s.cmds ∧ (vat u.flails a.next).holds = (vat s.flails a.next).holds.filter (fun h => seqLater h.seq a.seq) ∧
      (∀ n, (liveData s).find? (a.next < ·) = some n → u.ring.acks = s.ring.acks.set i { a with next := n }) ∧
      ((liveData s).find? (a.next < ·) = none → u.ring.acks = s.ring.acks.eraseIdx i ∧
        u.ring.farHolds = s.ring.farHolds.filter fun h => seqLater h.seq a.seq) := by
  have h16 : a.next ≠ 16 := by omega
  intro u
  have hu : u = (let v := onFlail a.next (fun F => { F with holds := F.holds.filter fun h => seqLater h.seq a.seq }) s
      match (liveData s).find? (a.next < ·) with
      | some n => { v with ring := { v.ring with acks := v.ring.acks.set i { a with next := n } } }
      | none => { v with ring := { v.ring with acks := v.ring.acks.eraseIdx i,
                                               farHolds := v.ring.farHolds.filter fun h => seqLater h.seq a.seq } }) := by
    show ackHop i s = _
    unfold ackHop
    simp only [ha, h16, if_false]
    rfl
  have hf : (vat (onFlail a.next (fun F => { F with holds := F.holds.filter fun h => seqLater h.seq a.seq }) s).flails a.next).holds =
      (vat s.flails a.next).holds.filter (fun h => seqLater h.seq a.seq) := congrArg Flail.holds (vat_vupd_self ..)
  rw [hu]
  cases (liveData s).find? (a.next < ·) with
  | none => exact ⟨rfl, rfl, hf, fun _ h => (nomatch h), fun _ => ⟨rfl, rfl⟩⟩
  | some n =>
    refine ⟨rfl, rfl, hf, ?_, fun h => (nomatch h)⟩
    rintro m ⟨⟩
    rfl

/-- Settles O40: a packet goes on from a data slice, is folded at S16, and an acknowledgement releases what it covers. -/
theorem theHuskChainMoves : Obligations.TheHuskChainMoves := by
  unfold Obligations.TheHuskChainMoves
  refine fun s => ⟨fun i pk d dd hpk hn hd hdd ht => ?_, fun i pk hpk hn hseq hh hs ht => ?_, fun i a ha hn => ?_⟩
  · obtain ⟨hc, hf, hch⟩ := chainHop_slice hpk hn hd hdd ht
    obtain ⟨h1, h2, -, -⟩ := settleUpdates_ring (chainHop i s)
    refine ⟨_, rfl, h1.trans hf, fun hq => ?_, h2.trans hch⟩
    rw [settleUpdates_none (updQueue_nil_of_cmdsBut (s := s) hc.cmds hq)]
    exact ⟨hc.mem, hc.cmds⟩
  · obtain ⟨hf, hch, hc, hm⟩ := chainHop_fold hpk hn hseq hh hs ht
    obtain ⟨h1, h2, -, -⟩ := settleUpdates_ring (chainHop i s)
    refine ⟨_, rfl, h1.trans hf, h2.trans hch, fun hq => ?_⟩
    rw [settleUpdates_none (updQueue_nil_of_cmdsBut hc hq)]
    exact ⟨hc, hm⟩
  · obtain ⟨hm, hc, hf, hsome, hnone⟩ := ackHop_slice ha hn
    obtain ⟨-, -, h3, h4⟩ := settleUpdates_ring (ackHop i s)
    refine ⟨_, rfl, fun hq => ?_, fun h hh => ?_, fun n hl => h3.trans (hsome n hl), fun hl => ⟨h3.trans (hnone hl).1, fun h hh => ?_⟩⟩
    · rw [settleUpdates_none (updQueue_nil_of_cmdsBut (congrArg (List.map _) hc) hq)]
      exact ⟨hm, hc⟩
    · rw [(settleUpdates_calm _).holds, hf] at hh
      exact List.mem_filter.1 hh
    · rw [h4, (hnone hl).2] at hh
      exact (List.mem_filter.1 hh).2

end

end Sys2Proof.Machine
end

section
/-!
PROOFS. The Flails' work: a chunk is sorted and its gradient rows are read, rows are applied, and row reductions go round.
-/
namespace Sys2Proof.Machine

/-! ### Rows are applied (R270, R280) -/

/-- The device state is the same, and so is what the Flails hold, but for old records. -/
structure AtFlails (s t : State) : Prop where
  sys : t.sys = s.sys
  flails : ∀ j, vat t.flails j = { vat s.flails j with holds := (vat t.flails j).holds }

section
variable {s t : State}

theorem AtFlails.refl (s : State) : AtFlails s s := ⟨rfl, fun _ => rfl⟩

theorem AtFlails.trans {a b c : State} (h1 : AtFlails a b) (h2 : AtFlails b c) : AtFlails a c :=
  ⟨h2.sys.trans h1.sys, fun j => by rw [h2.flails, h1.flails]⟩

theorem AtFlails.foldl {α : Type} {g : State → α → State} (h : ∀ s x, AtFlails s (g s x)) : ∀ (l : List α) (s : State),
    AtFlails s (l.foldl g s)
  | [], s => .refl s
  | x :: l, s => (h s x).trans (foldl h l (g s x))

theorem AtFlails.of (hs : t.sys = s.sys) (hf : t.flails = s.flails) : AtFlails s t := ⟨hs, fun j => by rw [hf]⟩

theorem Billed.atFlails (h : Billed s t) : AtFlails s t := .of (by rw [h.rest]) (by rw [h.rest])

theorem Charged.atFlails (h : Charged s t) : AtFlails s t := h.billed.atFlails

theorem daPoke_atFlails (s : State) (a : Nat) (bs : List Byte) : AtFlails s (daPoke s a bs) := .of (by rw [daPoke_rest]) (by rw [daPoke_rest])

theorem rowWrite_atFlails (s : State) (a : Nat) (bs : List Byte) : AtFlails s (rowWrite s a bs) :=
  (daPoke_atFlails s a bs).trans (.of rfl rfl)

theorem giveSeq_atFlails (u j row : Nat) (s : State) : AtFlails s (giveSeq u j row s).2 := by
  unfold giveSeq
  split <;> exact .of rfl rfl

theorem writeStackCopies_atFlails (T : TableDecl) (row k : Nat) (r : List Byte) (s : State) : AtFlails s (writeStackCopies T row k r s) := by
  unfold writeStackCopies
  extract_lets s1
  have h1 : AtFlails s s1 := .foldl (fun _ _ => rowWrite_atFlails ..) _ _
  split
  · exact h1.trans (daPoke_atFlails ..)
  · exact h1

theorem writeTraffic_atFlails (c : Cmd) (T : TableDecl) (row k : Nat) (s : State) : AtFlails s (writeTraffic c T row k s) := by
  unfold writeTraffic
  extract_lets home s1
  have h1 : AtFlails s s1 := .foldl (fun s pl => by
    dsimp only
    split
    · exact (rowTraffic_billed ..).atFlails
    · exact (chargeMove_billed ..).atFlails) _ _
  split
  · exact h1.trans chargeCmd_charged.atFlails
  · exact h1

theorem issueAtoms_atFlails (c : Cmd) (k da n : Nat) (s : State) : AtFlails s (issueAtoms c k da n s) := by
  unfold issueAtoms
  split
  · exact activity_charged.atFlails
  · exact .refl s

theorem mapTraffic_atFlails (c : Cmd) (T : TableDecl) (row k : Nat) (s : State) : AtFlails s (mapTraffic c T row k s) :=
  chargeCmd_charged.atFlails.trans (issueAtoms_atFlails ..)

theorem readTraffic_atFlails (c : Cmd) (T : TableDecl) (row p : Nat) (s : State) : AtFlails s (readTraffic c T row p s) := by
  unfold readTraffic
  extract_lets k probe found s1 s2 da s3
  clear_value found
  have h1 : AtFlails s s1 := by
    unfold s1
    split
    · exact chargeCmd_charged.atFlails.trans (issueAtoms_atFlails ..)
    · exact .refl s
  have h2 : AtFlails s1 s2 := by
    unfold s2
    split
    · exact .refl s1
    · exact .refl s1
    · exact mapTraffic_atFlails ..
  refine (h1.trans h2).trans ?_
  split
  · split
    · exact .refl s2
    · exact chargeCmd_charged.atFlails.trans (issueAtoms_atFlails ..)
  · split
    · exact (rowTraffic_billed ..).atFlails.trans (issueAtoms_atFlails ..)
    · exact .refl s2
  · exact .refl s2
  · split
    · have h3 : AtFlails s2 s3 := by
        unfold s3
        split
        · exact .of (by rw [storeDefault_filled T p s2]) (by rw [storeDefault_filled T p s2])
        · exact .refl s2
      exact h3.trans ((rowTraffic_billed ..).atFlails.trans (issueAtoms_atFlails ..))
    · exact .refl s2

theorem holdFar_atFlails (c : Cmd) (T : TableDecl) (x : SortedChunk) (row : Nat) (recs : List (List Byte)) (s : State) :
    AtFlails s (holdFar c T x row recs s) := by
  have h := giveSeq_atFlails c.uid x.chunk row s
  exact h.trans (.of rfl rfl)

theorem assembleFar_atFlails (c : Cmd) (T : TableDecl) (x : SortedChunk) (row : Nat) (s : State) : AtFlails s (assembleFar c T x row s) := by
  unfold assembleFar
  extract_lets mine parts home
  split
  · exact .refl s
  extract_lets s1 s2
  have h1 : AtFlails s s1 := by
    unfold s1
    split
    · exact holdFar_atFlails ..
    · exact .refl s
  have h2 : AtFlails s1 s2 := .foldl (fun s pl => by
    extract_lets da s3
    have h3 : AtFlails s s3 := rowWrite_atFlails ..
    split
    · exact h3.trans chargeCmd_charged.atFlails
    · exact h3.trans (chargeMove_billed ..).atFlails) _ _
  exact (h1.trans h2).trans (.of rfl rfl)

theorem onFlail_holds_atFlails {k : Nat} {g : Flail → Flail} (h : ∀ F, g F = { F with holds := (g F).holds }) (s : State) :
    AtFlails s (onFlail k g s) :=
  ⟨rfl, vat_vupd_rel (R := fun a b : Flail => b = { a with holds := b.holds }) (fun _ => rfl) h s.flails k⟩

theorem chainRow_atFlails (c : Cmd) (T : TableDecl) (x : SortedChunk) (k row : Nat) (old new : List Byte) (s : State) :
    AtFlails s (chainRow c T x k row old new s) := by
  have hseq := giveSeq_atFlails c.uid x.chunk row s
  unfold chainRow
  generalize giveSeq c.uid x.chunk row s = r at hseq ⊢
  obtain ⟨n, v⟩ := r
  dsimp -zeta only
  extract_lets stack delta h s1 nx
  have h1 : AtFlails v s1 := by
    unfold s1
    split
    · exact onFlail_holds_atFlails (fun _ => rfl) v
    · exact .refl v
  refine (hseq.trans h1).trans ?_
  split <;> exact .of rfl rfl

theorem countLoad_atFlails (up : Bool) (T : TableDecl) (row k : Nat) (s : State) : AtFlails s (countLoad up T row k s) := by
  unfold countLoad
  split <;> exact .of rfl rfl

/-- A row is applied: the Flail has come one row further. -/
theorem applyRow_spec (c : Cmd) (T : TableDecl) (x : SortedChunk) (p row : Nat) (s : State) : let t := applyRow c T x p row s
    t.sys = s.sys ∧ (vat t.flails (actor s p)).applied = (vat s.flails (actor s p)).applied + 1 ∧
      (vat t.flails (actor s p)).cur = (vat s.flails (actor s p)).cur := by
  unfold applyRow
  extract_lets k F sh old new s1 s2 s3 lead part orphan parts r4 s4 r5 s5 s6
  have h1 : AtFlails s s1 := by
    unfold s1
    split
    · exact chainRow_atFlails ..
    · exact .refl s
  have h3 : AtFlails s2 s3 := by
    unfold s3
    split
    · exact .refl s2
    · exact (writeStackCopies_atFlails ..).trans (writeTraffic_atFlails ..)
  have h4 : AtFlails s3 s4 := by
    unfold s4
    split
    · refine AtFlails.trans ?_ (assembleFar_atFlails ..)
      exact .of rfl rfl
    · exact .refl s3
  have h5 : AtFlails s4 s5 := by
    unfold s5
    split
    · exact .of rfl rfl
    · exact .refl s4
  have h : AtFlails s s6 := ((h1.trans (readTraffic_atFlails ..)).trans h3).trans ((h4.trans h5).trans
    ((countLoad_atFlails ..).trans activity_charged.atFlails))
  obtain ⟨hsys, hfl⟩ := h
  have hk : vat (onFlail k (fun F => { F with applied := F.applied + 1 }) s6).flails k =
      { vat s6.flails k with applied := (vat s6.flails k).applied + 1 } := vat_vupd_self ..
  refine ⟨hsys, ?_, ?_⟩
  · rw [hk, hfl]
  · rw [hk, hfl]

/-- The Flail applies the first row and waits at the second. -/
theorem applyRows_stops {c : Cmd} {T : TableDecl} {x : SortedChunk} {p row row2 : Nat} {rest : List Nat} {s : State}
    (hc : cmdOf s c.uid = some c) (hready : rowReady s c T x (vat s.flails (actor s p)) p row = true)
    (hfails : rowFails s c T x row = false) (hnext : ∀ c1, cmdOf (applyRow c T x p row s) c.uid = some c1 →
      rowReady (applyRow c T x p row s) c1 T x (vat (applyRow c T x p row s).flails (actor (applyRow c T x p row s) p)) p row2 = false) :
    applyRows c T x p (row :: row2 :: rest) s = applyRow c T x p row s := by
  rw [applyRows, hc]
  dsimp only
  rw [hready, hfails, if_neg Bool.noConfusion, if_neg Bool.noConfusion]
  generalize applyRow c T x p row s = s1 at hnext ⊢
  rw [applyRows]
  split
  next => rfl
  next c1 hc1 => rw [hnext c1 hc1, Bool.not_false, if_pos rfl]

/-- CHUNK_APPLY applies a row that is ready and stops at one that must wait. -/
theorem chunkApply_stops {k : Fin 17} {p row row2 : Nat} {x : SortedChunk} {c : Cmd} {T : TableDecl} {rest : List Nat} {s : State}
    (hp : placeOf s k = some p) (hx : (vat s.flails k).cur = some x) (hc : cmdOf s x.uid = some c) 
    (hT : tableFor s c (cmdTable c) = some T) (hdrop : (rowsOf x.keys).drop (vat s.flails k).applied = row :: row2 :: rest)
    (hk : actor s p = k.val) (hrows : applyRows c T x p (row :: row2 :: rest) s = applyRow c T x p row s) :
    ∃ t, exec (.chunkApply k) s = .next t ∧ (vat t.flails k).applied = (vat s.flails k).applied + 1 ∧
      (vat t.flails k).cur = some x ∧ t.mem = (applyRow c T x p row s).mem ∧ t.sys = s.sys := by
  have hlen : (vat s.flails k).applied + 1 < (rowsOf x.keys).length := by
    have h := congrArg List.length hdrop
    rw [List.length_drop, List.length_cons, List.length_cons] at h
    omega
  obtain ⟨hsys, happlied, hcur⟩ := applyRow_spec c T x p row s
  rw [hk] at happlied hcur
  have hexec : exec (.chunkApply k) s = .next (kickFlail (applyRow c T x p row s)) := by
    refine congrArg Host.Outcome.next ?_
    unfold chunkApply
    rw [hp, hx]
    dsimp only
    rw [hc]
    dsimp only
    rw [hT]
    dsimp only
    rw [hdrop, hrows, hcur, happlied, hx, Option.any_some, decide_eq_true hlen, if_pos rfl]
  obtain ⟨r, hr⟩ := kickFlail_frame (applyRow c T x p row s)
  exact ⟨_, hexec, by rw [hr]; exact happlied, by rw [hr]; exact hcur.trans hx, by rw [hr], by rw [hr]; exact hsys⟩

end

end Sys2Proof.Machine
end

section
/-!
PROOFS. The Flails' work: chunks are sorted, their gradient rows are asked for or read, and row reductions go round.
-/
namespace Sys2Proof.Machine

/-! ### Gradient rows come (R265) -/

/-- A command but for what comes and goes while its rows are fetched. -/
def atFetch (c : Cmd) : Cmd := { bareCmd c with arrived := [], wants := [], phase := .working }

/-- Only what is charged, counted and sent differs, and of the commands what comes while rows are fetched. -/
structure RowsFetched (s t : State) : Prop where
  rest : t = { s with cmds := t.cmds, cnt := t.cnt, out := t.out, qos := { s.qos with usage := t.qos.usage },
                      led := { s.led with house := t.led.house }, pmc := { s.pmc with domains := t.pmc.domains } }
  cmds : t.cmds.map atFetch = s.cmds.map atFetch

section
variable {s t : State} {u : Nat}

theorem RowsFetched.refl (s : State) : RowsFetched s s := ⟨rfl, rfl⟩

theorem RowsFetched.trans {a b c : State} (h1 : RowsFetched a b) (h2 : RowsFetched b c) : RowsFetched a c :=
  ⟨by rw [h2.rest, h1.rest], h2.cmds.trans h1.cmds⟩

theorem SameCmds.atFetch (h : SameCmds s t) : t.cmds.map atFetch = s.cmds.map atFetch := by
  have hb : ∀ l : List Cmd, l.map Machine.atFetch = (l.map bareCmd).map Machine.atFetch := fun l => by rw [List.map_map]; rfl
  rw [hb t.cmds, hb s.cmds, h.cmds]

theorem Charged.rowsFetched (h : Charged s t) : RowsFetched s t := ⟨by rw [h.rest], h.sameCmds.atFetch⟩

theorem onCmd_rowsFetched {g : Cmd → Cmd} (h : ∀ c, atFetch (g c) = atFetch c) (s : State) : RowsFetched s (onCmd u g s) := by
  refine ⟨rfl, ?_⟩
  simp only [onCmd, List.map_map]
  refine List.map_congr_left fun c _ => ?_
  rw [Function.comp_apply]
  split
  · exact h c
  · rfl

theorem cmdOf_of_atFetch {l m : List Cmd} (h : m.map atFetch = l.map atFetch) {c : Cmd} (hc : l.find? (·.uid == u) = some c) :
    ∃ c1, m.find? (·.uid == u) = some c1 ∧ atFetch c1 = atFetch c := by
  induction l generalizing m with
  | nil => cases hc
  | cons x l ih =>
    cases m with
    | nil => cases h
    | cons y m =>
      obtain ⟨hxy, hm⟩ := List.cons.inj h
      have hu : y.uid = x.uid := (congrArg Cmd.uid hxy :)
      rw [List.find?_cons] at hc ⊢
      rw [hu]
      split at hc
      · obtain rfl := Option.some.inj hc
        exact ⟨y, rfl, hxy⟩
      · exact ih hm hc

theorem RowsFetched.cmdOf (h : RowsFetched s t) {c : Cmd} (hc : cmdOf s u = some c) : ∃ c1, cmdOf t u = some c1 ∧ atFetch c1 = atFetch c :=
  cmdOf_of_atFetch h.cmds hc

/-- The sort keys do not depend on the rows fetched. -/
theorem RowsFetched.chunkKeys (h : RowsFetched s t) {c c1 : Cmd} (hc : atFetch c1 = atFetch c) (T : TableDecl) (j : Nat) :
    chunkKeys t T c1 j = chunkKeys s T c j := by
  have h1 : Machine.chunkKeys t T c1 j = Machine.chunkKeys t T (atFetch c1) j := rfl
  rw [h1, hc, h.rest]
  rfl

theorem RowsFetched.daRead (h : RowsFetched s t) : ∀ n a, daRead t a n = daRead s a n
  | 0, _ => rfl
  | n + 1, a => by
    have hb : daByte t a = daByte s a := by
      rw [h.rest]
      rfl
    exact congrArg₂ List.cons hb (RowsFetched.daRead h n (a + 1))

/-- The range of device memory can be read. -/
def readable (s : State) (f : Nat) (r : Rng) : Prop :=
  poisoned s r.addr r.len = false ∧ targetOffline s (.copy f) r.addr r.len = false

theorem RowsFetched.readable (h : RowsFetched s t) {f : Nat} {r : Rng} (hr : readable s f r) : readable t f r := by
  rw [h.rest]
  exact hr

/-- The row of an entry has come. -/
def rowCame (i : Nat) (bs : List Byte) (c : Cmd) : Cmd := { c with arrived := (i, 0, bs) :: c.arrived }

/-- One row is read. -/
theorem readRow_fetches {i a n : Nat} {bs : List Byte} {c x : Cmd} {s : State} (hx : x ∈ s.cmds) (hu : x.uid = c.uid) :
    let t := chargeCmd c a n (onCmd c.uid (rowCame i bs) s)
    RowsFetched s t ∧ ∃ y ∈ t.cmds, y.uid = c.uid ∧ y.arrived = (i, 0, bs) :: x.arrived := by
  have hcharge : Charged (onCmd c.uid (rowCame i bs) s) (chargeCmd c a n (onCmd c.uid (rowCame i bs) s)) := chargeCmd_charged
  have hmem : rowCame i bs x ∈ (onCmd c.uid (rowCame i bs) s).cmds := List.mem_map.2 ⟨x, hx, if_pos (beq_iff_eq.2 hu)⟩
  obtain ⟨y, hy, hyx⟩ := hcharge.sameCmds.symm.exists_of_mem hmem
  exact ⟨(onCmd_rowsFetched (g := rowCame i bs) (fun _ => rfl) s).trans hcharge.rowsFetched, y, hy, (bareCmd_uid hyx).trans hu, (congrArg Cmd.arrived hyx :)⟩

/-- Rows that can be read are read, and what had come before is kept. -/
theorem readRows_fetches (c : Cmd) : ∀ (R : List (Nat × Rng)) (s : State) (x : Cmd), x ∈ s.cmds → x.uid = c.uid →
    (∀ y ∈ R, readable s c.func y.2) →
    RowsFetched s (readRows c R s) ∧ ∃ x' ∈ (readRows c R s).cmds, x'.uid = c.uid ∧ x.arrived ⊆ x'.arrived ∧
      ∀ y ∈ R, (y.1, 0, daRead s y.2.addr y.2.len) ∈ x'.arrived
  | [], s, x, hx, hu, _ => ⟨.refl s, x, hx, hu, fun _ h => h, fun _ h => by cases h⟩
  | (i, r) :: R, s, x, hx, hu, hR => by
    obtain ⟨hpoison, honline⟩ := hR (i, r) List.mem_cons_self
    rw [readRows, if_neg (by rw [hpoison]; exact Bool.noConfusion), if_neg (by rw [honline]; exact Bool.noConfusion)]
    obtain ⟨hrow, y, hy, hyu, hya⟩ := readRow_fetches (i := i) (a := r.addr) (n := r.len) (bs := daRead s r.addr r.len) hx hu
    obtain ⟨hrows, x', hx', hu', hsub, hall⟩ := readRows_fetches c R _ y hy hyu
      fun z hz => hrow.readable (hR z (List.mem_cons_of_mem _ hz))
    refine ⟨hrow.trans hrows, x', hx', hu', fun a ha => hsub (by rw [hya]; exact List.mem_cons_of_mem _ ha), fun z hz => ?_⟩
    rcases List.mem_cons.1 hz with rfl | hz
    · exact hsub (by rw [hya]; exact List.mem_cons_self)
    · rw [← hrow.daRead]
      exact hall z hz

theorem askHost_fetches (rs : List HostRead) (s : State) : RowsFetched s (askHost u rs s) := by
  obtain ⟨c, o, e, -⟩ := askHost_frame u rs s
  rw [e]
  exact ⟨rfl, (onCmd_rowsFetched (g := fun c => { c with wants := c.wants ++ rs, phase := .waitHost }) (fun _ => rfl) s).cmds⟩

/-! ### A chunk is sorted (R264) -/

/-- Entries of a command are counted as substituted. -/
def substMore (n : Nat) (c : Cmd) : Cmd := { c with subst := c.subst + n }

/-- A sorted chunk stands on its Flail, and is applied next when the Flail is free. -/
def chunkStands (x : SortedChunk) (F : Flail) : Flail := promoteChunk { F with sorted := some x }

/-- The lowest position counts the entries that the policy removes from a chunk. -/
def countGone (p : Nat) (T : TableDecl) (c : Cmd) (u j : Nat) (s : State) : State :=
  if (positions s).head? == some p then onCmd u (substMore ((chunkPositions c j).length - (chunkKeys s T c j).length)) s else s

theorem countGone_frame (p : Nat) (T : TableDecl) (c : Cmd) (u j : Nat) (s : State) : ∃ l, countGone p T c u j s = { s with cmds := l } := by
  unfold countGone
  split
  · exact ⟨_, rfl⟩
  · exact ⟨_, rfl⟩

theorem countGone_command {p : Nat} {T : TableDecl} {c : Cmd} {j : Nat} {P : Cmd → Prop} (hP : ∀ x n, P x → P (substMore n x))
    (h : ∃ x ∈ s.cmds, x.uid = u ∧ P x) : ∃ x ∈ (countGone p T c u j s).cmds, x.uid = u ∧ P x := by
  obtain ⟨x, hx, hu, hPx⟩ := h
  unfold countGone
  split
  · exact ⟨_, List.mem_map.2 ⟨x, hx, if_pos (beq_iff_eq.2 hu)⟩, hu, hP x _ hPx⟩
  · exact ⟨x, hx, hu, hPx⟩

theorem placeChunk_eq {k p j : Nat} {T : TableDecl} {c : Cmd} (hc : cmdOf s u = some c) : placeChunk k p T u j s =
    kickFlail (onFlail k (chunkStands ⟨u, j, chunkKeys s T c j⟩) (activity (.cmd u) (18 * k + 9) (chunkKeys s T c j).length
      (stamp u 4 false (countGone p T c u j s)))) := by
  unfold placeChunk
  rw [hc]
  rfl

theorem placeChunk_frame {k p j : Nat} {T : TableDecl} {c : Cmd} (hc : cmdOf s u = some c) : ∃ l v o e m r, placeChunk k p T u j s =
    { s with cmds := l, freeCtr := v, qos := o, led := e, pmc := m, ring := r,
             flails := vupd s.flails k (chunkStands ⟨u, j, chunkKeys s T c j⟩) } := by
  rw [placeChunk_eq hc]
  obtain ⟨l, hl⟩ := countGone_frame p T c u j s
  obtain ⟨-, hst⟩ := stamp_spec u 4 false (countGone p T c u j s)
  have hact : Charged (stamp u 4 false (countGone p T c u j s))
    (activity (.cmd u) (18 * k + 9) (chunkKeys s T c j).length (stamp u 4 false (countGone p T c u j s))) := activity_charged
  obtain ⟨r, hr⟩ := kickFlail_frame (onFlail k (chunkStands ⟨u, j, chunkKeys s T c j⟩)
    (activity (.cmd u) (18 * k + 9) (chunkKeys s T c j).length (stamp u 4 false (countGone p T c u j s))))
  rw [hr, hact.rest, hst, hl]
  exact ⟨_, _, _, _, _, _, rfl⟩

theorem placeChunk_command {k p j : Nat} {T : TableDecl} {c : Cmd} {P : Cmd → Prop} (hc : cmdOf s u = some c) (hb : Bare P)
    (hP : ∀ x n, P x → P (substMore n x)) (h : ∃ x ∈ s.cmds, x.uid = u ∧ P x) :
    ∃ x ∈ (placeChunk k p T u j s).cmds, x.uid = u ∧ P x := by
  rw [placeChunk_eq hc]
  obtain ⟨x, hx, hu, hPx⟩ := countGone_command (p := p) (T := T) (c := c) (j := j) hP h
  have hact : Charged (stamp u 4 false (countGone p T c u j s))
    (activity (.cmd u) (18 * k + 9) (chunkKeys s T c j).length (stamp u 4 false (countGone p T c u j s))) := activity_charged
  obtain ⟨y, hy, hyx⟩ := ((stamp_spec u 4 false (countGone p T c u j s)).1.trans hact.sameCmds).symm.exists_of_mem hx
  obtain ⟨r, hr⟩ := kickFlail_frame (onFlail k (chunkStands ⟨u, j, chunkKeys s T c j⟩)
    (activity (.cmd u) (18 * k + 9) (chunkKeys s T c j).length (stamp u 4 false (countGone p T c u j s))))
  rw [hr]
  exact ⟨y, hy, (bareCmd_uid hyx).trans hu, hb x y hyx.symm hPx⟩

/-- Whether the chunk's gradient rows have to be fetched. -/
def fetchesRows (s : State) (k : Nat) (T : TableDecl) (c : Cmd) (j : Nat) : Prop :=
  (liveData s).head? = some k ∧ isLoad c = false ∧ c.cutAt = none ∧ entryBytes T c (j * chunkSize) = none

/-- What the sort of a chunk makes the home bridge do. -/
def sortAsks (k : Nat) (c : Cmd) (T : TableDecl) (j : Nat) (s : State) : State :=
  if (liveData s).head? == some k then askRows c T j s else s

theorem sortAsks_rest {k j : Nat} {c : Cmd} {T : TableDecl} (h : ¬ fetchesRows s k T c j) : sortAsks k c T j s = s := by
  unfold sortAsks
  split
  case isFalse => rfl
  case isTrue hk =>
    unfold askRows
    refine if_pos ?_
    by_contra hn
    have hn := eq_false_of_ne_true hn
    rw [Bool.or_eq_false_iff, Bool.or_eq_false_iff] at hn
    obtain ⟨⟨hl, hcut⟩, he⟩ := hn
    exact h ⟨beq_iff_eq.1 hk, hl, by simpa using hcut, by simpa using he⟩

theorem sortAsks_eq {k j : Nat} {c : Cmd} {T : TableDecl} (h : fetchesRows s k T c j) (hph : c.phase ≠ .discarded) : sortAsks k c T j s =
    if (chunkRanges T c j).any fun x => !onHost x.2 then readRows c (chunkRanges T c j) s
    else askHost c.uid ((chunkRanges T c j).map fun x => readOf c.func x.2) s := by
  obtain ⟨hk, hl, hcut, he⟩ := h
  unfold sortAsks askRows
  rw [if_pos (beq_iff_eq.2 hk), if_neg (by simp [hl, hcut, he]), if_neg (show ¬ (c.phase == .discarded) = true by simpa using hph)]

theorem exec_chunkSort {k : Fin 17} {p j : Nat} {c : Cmd} {T : TableDecl} (hp : placeOf s k = some p) (hn : nextChunk s k = some (c, j))
    (hfree : (vat s.flails k).sorted = none) (hT : tableFor s c (cmdTable c) = some T) :
    exec (.chunkSort k) s = .next (placeChunk k p T c.uid j (sortAsks k c T j s)) := by
  refine congrArg Host.Outcome.next ?_
  unfold chunkSort
  rw [hp, hn]
  dsimp only
  rw [hfree, hT]
  rfl

/-- What the bridge does before a sorted chunk stands only fetches rows. -/
theorem sortAsks_fetches {k j : Nat} {c : Cmd} {T : TableDecl} (hc : cmdOf s c.uid = some c) (hph : c.phase ≠ .discarded)
    (hrange : fetchesRows s k T c j → (∀ y ∈ chunkRanges T c j, onHost y.2 = true) ∨
      ∀ y ∈ chunkRanges T c j, onHost y.2 = false ∧ poisoned s y.2.addr y.2.len = false ∧
        targetOffline s (.copy c.func) y.2.addr y.2.len = false) :
    RowsFetched s (sortAsks k c T j s) ∧
      (fetchesRows s k T c j → (∀ y ∈ chunkRanges T c j, onHost y.2 = true) →
        asks (sortAsks k c T j s) c.uid ((chunkRanges T c j).map fun y => readOf c.func y.2)) ∧
      (fetchesRows s k T c j → (∀ y ∈ chunkRanges T c j, onHost y.2 = false) →
        ∃ x ∈ (sortAsks k c T j s).cmds, x.uid = c.uid ∧ ∀ y ∈ chunkRanges T c j, (y.1, 0, daRead s y.2.addr y.2.len) ∈ x.arrived) := by
  by_cases hf : fetchesRows s k T c j
  case neg =>
    rw [sortAsks_rest hf]
    exact ⟨.refl s, fun h => absurd h hf, fun h => absurd h hf⟩
  case pos =>
    have hmem : c ∈ s.cmds := List.mem_of_find?_eq_some hc
    rw [sortAsks_eq hf hph]
    by_cases hany : ∃ y ∈ chunkRanges T c j, onHost y.2 = false
    · obtain ⟨y, hy, hdev⟩ := hany
      have hread : ∀ y ∈ chunkRanges T c j, readable s c.func y.2 := by
        rcases hrange hf with hhost | hread
        · rw [hhost y hy] at hdev
          cases hdev
        · exact fun y hy => (hread y hy).2
      obtain ⟨hrows, x, hx, hu, -, hall⟩ := readRows_fetches c (chunkRanges T c j) s c hmem rfl hread
      rw [if_pos (List.any_eq_true.2 ⟨y, hy, by rw [hdev]; rfl⟩)]
      refine ⟨hrows, fun _ hhost => ?_, fun _ _ => ⟨x, hx, hu, hall⟩⟩
      rw [hhost y hy] at hdev
      cases hdev
    · have hhost : ∀ y ∈ chunkRanges T c j, onHost y.2 = true := fun y hy => by
        by_contra hn
        exact hany ⟨y, hy, eq_false_of_ne_true hn⟩
      rw [if_neg (by simpa using fun a b hab => hhost (a, b) hab)]
      have hasks := askHost_asks (rs := (chunkRanges T c j).map fun x => readOf c.func x.2) hmem rfl
      refine ⟨askHost_fetches _ s, fun _ _ => hasks, fun _ hdev => ?_⟩
      obtain ⟨⟨x, hx, hu, -⟩, -⟩ := hasks
      refine ⟨x, hx, hu, fun y hy => ?_⟩
      exact absurd (hhost y hy) (by rw [hdev y hy]; exact Bool.noConfusion)

/-- The command waits for its host to answer the reads. -/
def awaitsReads (rs : List HostRead) (x : Cmd) : Prop := x.phase = .waitHost ∧ ∀ r ∈ rs, r ∈ x.wants

theorem awaitsReads_bare (rs : List HostRead) : Bare (awaitsReads rs) := fun x y hxy hx => by
  have hphase : x.phase = y.phase := (congrArg Cmd.phase hxy :)
  have hwants : x.wants = y.wants := (congrArg Cmd.wants hxy :)
  unfold awaitsReads at hx ⊢
  rwa [← hphase, ← hwants]

/-- The command holds the entries' rows. -/
def holdsRows (rows : List (Nat × Nat × List Byte)) (x : Cmd) : Prop := ∀ y ∈ rows, y ∈ x.arrived

theorem holdsRows_bare (rows : List (Nat × Nat × List Byte)) : Bare (holdsRows rows) := fun x y hxy hx => by
  have harrived : x.arrived = y.arrived := (congrArg Cmd.arrived hxy :)
  unfold holdsRows at hx ⊢
  rwa [← harrived]

/-- CHUNK_SORT sorts the next chunk of a slice. -/
theorem chunkSort_sorts {k : Fin 17} {p j : Nat} {c : Cmd} {T : TableDecl} (hp : placeOf s k = some p)
    (hn : nextChunk s k = some (c, j)) (hfree : (vat s.flails k).sorted = none) (hT : tableFor s c (cmdTable c) = some T)
    (hc : cmdOf s c.uid = some c) (hph : c.phase ≠ .discarded)
    (hrange : fetchesRows s k T c j → (∀ y ∈ chunkRanges T c j, onHost y.2 = true) ∨
      ∀ y ∈ chunkRanges T c j, onHost y.2 = false ∧ poisoned s y.2.addr y.2.len = false ∧
        targetOffline s (.copy c.func) y.2.addr y.2.len = false) :
    ∃ t, exec (.chunkSort k) s = .next t ∧ t.mem = s.mem ∧ t.sys = s.sys ∧
      vat t.flails k = chunkStands ⟨c.uid, j, chunkKeys s T c j⟩ (vat s.flails k) ∧
      (∀ q < 17, q ≠ k.val → vat t.flails q = vat s.flails q) ∧
      (fetchesRows s k T c j → (∀ y ∈ chunkRanges T c j, onHost y.2 = true) →
        asks t c.uid ((chunkRanges T c j).map fun y => readOf c.func y.2)) ∧
      (fetchesRows s k T c j → (∀ y ∈ chunkRanges T c j, onHost y.2 = false) → ∃ x ∈ t.cmds, x.uid = c.uid ∧
        ∀ y ∈ chunkRanges T c j, (y.1, 0, daRead s y.2.addr y.2.len) ∈ x.arrived) := by
  obtain ⟨hfetched, hasks, hreads⟩ := sortAsks_fetches hc hph hrange
  refine ⟨_, exec_chunkSort hp hn hfree hT, ?_⟩
  generalize sortAsks k c T j s = s1 at *
  obtain ⟨c1, hc1, hlike⟩ := hfetched.cmdOf hc
  obtain ⟨l, v, o, e, m, r, hr⟩ := placeChunk_frame (k := k) (p := p) (j := j) (T := T) hc1
  have hkeys := hfetched.chunkKeys hlike T j
  have hflails : (placeChunk k p T c.uid j s1).flails = vupd s.flails k (chunkStands ⟨c.uid, j, chunkKeys s T c j⟩) := by
    rw [hr, hkeys, hfetched.rest]
  have hout : (placeChunk k p T c.uid j s1).out = s1.out := by rw [hr]
  have hfuncs : (placeChunk k p T c.uid j s1).funcs = s1.funcs := by rw [hr]
  have hattr : ∀ f b, attrOf (placeChunk k p T c.uid j s1) f b = attrOf s1 f b := fun f b => by rw [hr]; rfl
  refine ⟨by rw [hr, hfetched.rest], by rw [hr, hfetched.rest], ?_, fun q hq hqk => ?_, fun hf hhost => ?_, fun hf hdev => ?_⟩
  · rw [hflails, vat_vupd_self]
  · rw [hflails, vat_vupd_ne]
    rw [Nat.mod_eq_of_lt k.isLt, Nat.mod_eq_of_lt hq]
    exact fun h => hqk h.symm
  · obtain ⟨hx, hsent⟩ := hasks hf hhost
    exact ⟨placeChunk_command (P := awaitsReads _) hc1 (awaitsReads_bare _) (fun _ _ hx => hx) hx, fun r hr => by
      rw [hattr, hout]
      exact hsent r hr⟩
  · obtain ⟨x, hx, hu, hrows⟩ := hreads hf hdev
    obtain ⟨y, hy, hyu, hyr⟩ := placeChunk_command (k := k) (p := p) (j := j) (T := T)
      (P := holdsRows ((chunkRanges T c j).map fun y => (y.1, 0, daRead s y.2.addr y.2.len))) hc1 (holdsRows_bare _) (fun _ _ hx => hx)
      ⟨x, hx, hu, fun z hz => by
        obtain ⟨y, hy, rfl⟩ := List.mem_map.1 hz
        exact hrows y hy⟩
    exact ⟨y, hy, hyu, fun z hz => hyr _ (List.mem_map_of_mem hz)⟩

/-! ### Row reductions go round (R277) -/

/-- A packet that leaves a slice changes the reductions on the ring and what is charged. -/
theorem placeRed_frame (i k : Nat) (pk : RedPkt) (s : State) : ∃ l o e m, placeRed i k pk s = { s with
    cmds := l, qos := o, led := e, pmc := m,
    ring := { s.ring with reds := if pk.total && (positions s).all pk.got.contains then s.ring.reds.eraseIdx i else s.ring.reds.set i pk } } := by
  unfold placeRed
  extract_lets done
  have h : Charged { s with ring := { s.ring with reds := if done then s.ring.reds.eraseIdx i else s.ring.reds.set i pk } }
    (ringSend (.cmd pk.uid) k ((k + 1) % 17) ((if pk.range then 8 else 4) * pk.vals.length)
      { s with ring := { s.ring with reds := if done then s.ring.reds.eraseIdx i else s.ring.reds.set i pk } }) := ringSend_charged
  rw [h.rest]
  exact ⟨_, _, _, _, rfl⟩

theorem startReds_reds (range : Bool) (s : State) : ∃ l, (startReds range s).ring.reds = s.ring.reds ++ l := by
  have h0 : ∃ l, s.ring.reds = s.ring.reds ++ l := ⟨[], (List.append_nil _).symm⟩
  unfold startReds
  split
  · exact h0
  extract_lets done need running
  split
  · exact h0
  split
  · exact h0
  · exact ⟨_, rfl⟩

theorem startChunkRecons_reds (s : State) : (startChunkRecons s).ring.reds = s.ring.reds := by
  unfold startChunkRecons
  split
  · rfl
  · rfl

/-- What the Flails start joins the reductions in flight behind the others. -/
theorem kickFlail_reds {s : State} {i : Nat} {pk : RedPkt} (h : s.ring.reds[i]? = some pk) : (kickFlail s).ring.reds[i]? = some pk := by
  obtain ⟨l1, h1⟩ := startReds_reds false (startChunkRecons s)
  obtain ⟨l2, h2⟩ := startReds_reds true (startReds false (startChunkRecons s))
  rw [kickFlail, h2, h1, startChunkRecons_reds, List.append_assoc, List.getElem?_append_left (List.getElem?_eq_some_iff.1 h).1]
  exact h

/-- ROW_REDUCTION_PACKET brings a result to the next served position. -/
theorem reduction_delivers {s : State} {i : Nat} {pk : RedPkt} (hi : s.ring.reds[i]? = some pk) (ht : pk.total = true)
    (hserved : pk.next ∈ positions s) (hnew : pk.next ∉ pk.got) (hr : pk.range = false) :
    ∃ t, exec (.rowReductionPacket i) s = .next t ∧ t.mem = s.mem ∧
      (vat t.flails (actor s pk.next)).reduced = (vat s.flails (actor s pk.next)).reduced ++ pk.vals := by
  have hhop : redHop i s = placeRed i (actor s pk.next) { pk with got := pk.next :: pk.got, next := (pk.next + 1) % 17 }
      (deliverRed pk (actor s pk.next) s) := by
    unfold redHop
    rw [hi]
    dsimp only
    rw [if_pos ht, if_pos]
    rw [List.contains_iff_mem.2 hserved, Bool.true_and, Bool.not_eq_true']
    simpa using hnew
  obtain ⟨l, o, e, m, hp⟩ := placeRed_frame i (actor s pk.next) { pk with got := pk.next :: pk.got, next := (pk.next + 1) % 17 }
    (deliverRed pk (actor s pk.next) s)
  obtain ⟨r, hk⟩ := kickFlail_frame (redHop i s)
  refine ⟨kickFlail (redHop i s), rfl, ?_, ?_⟩
  · rw [hk, hhop, hp]
    rfl
  · rw [hk, hhop, hp]
    unfold deliverRed
    dsimp only
    rw [onFlail_flails, vat_vupd_self, hr]
    rfl

/-- ROW_REDUCTION_PACKET combines the values of the next served position. -/
theorem reduction_combines {s : State} {i n : Nat} {pk : RedPkt} {x : SortedChunk} {c : Cmd} {T : TableDecl} {vals : List (Nat × (F32 × F32))}
    (hi : s.ring.reds[i]? = some pk) (ht : pk.total = false) (hx : (vat s.flails (actor s pk.next)).cur = some x)
    (hc : cmdOf s pk.uid = some c) (hu : x.uid = pk.uid) (hch : x.chunk = pk.chunk) (hT : tableFor s c (cmdTable c) = some T)
    (hv : pk.vals.mapM (fun v => (reductionPart s c T (vat s.flails (actor s pk.next)) x pk.range pk.next v.1).map fun w =>
      (v.1, combine pk.range v.2 w)) = some vals) (hn : nextPlace s pk.next = some n) :
    ∃ t, exec (.rowReductionPacket i) s = .next t ∧ t.mem = s.mem ∧ t.flails = s.flails ∧
      t.ring.reds[i]? = some { pk with vals := vals, next := n } := by
  have hhop : redHop i s = placeRed i (actor s pk.next) { pk with vals := vals, next := n } s := by
    unfold redHop
    rw [hi]
    dsimp only
    rw [if_neg (by rw [ht]; exact Bool.noConfusion), hx, hc]
    dsimp only
    rw [if_neg (by simp [hu, hch]), hT]
    dsimp only
    rw [hv]
    dsimp only
    rw [hn]
  obtain ⟨l, o, e, m, hp⟩ := placeRed_frame i (actor s pk.next) { pk with vals := vals, next := n } s
  obtain ⟨r, hk⟩ := kickFlail_frame (redHop i s)
  refine ⟨kickFlail (redHop i s), rfl, by rw [hk, hhop, hp], by rw [hk, hhop, hp], kickFlail_reds ?_⟩
  rw [hhop, hp]
  dsimp only
  rw [ht, Bool.false_and, if_neg Bool.noConfusion]
  exact List.getElem?_set_self (List.getElem?_eq_some_iff.1 hi).1

end

/-- Settles O39: by what each function of the Flails leaves of them (`AtFlails`), by an induction over the rows that a chunk's
bridge reads, and by the place of a reduction among those in flight. -/
theorem flailsWork : Obligations.FlailsWork := by
  unfold Obligations.FlailsWork
  refine fun s => ⟨?_, ?_, ?_, ?_⟩
  · intro k p c j T hp hn hfree hT hc hph R fetches hrange
    exact chunkSort_sorts hp hn hfree hT hc hph hrange
  · intro k p x c T row row2 rest hp hx hc hu hT hdrop hready hfails hnext hk
    rw [← hu] at hnext
    exact chunkApply_stops hp hx hc hT hdrop hk (applyRows_stops (by rw [hu]; exact hc) hready hfails hnext)
  · intro i pk hi ht hserved hnew hr
    exact reduction_delivers hi ht hserved hnew hr
  · intro i pk x c T vals n hi ht hx hc hu hch hT hv hn
    exact reduction_combines hi ht hx hc hu hch hT hv hn

end Sys2Proof.Machine
end

section
/-!
PROOFS. What the loss of a part, the reset of a function and the entry into HALT leave of the block: its links, which parts are
lost, what each slice and each far part holds of its own, the losses that are declared, and of each function whether it is there.
-/
namespace Sys2Proof.Machine

/-! ### The relation -/

/-- What the reset of a function leaves of it, or makes of it. -/
structure FuncStays (F G : Func) : Prop where
  en : G.pci.en = F.pci.en
  disabled : G.pci.disabled = F.pci.disabled
  resetting : F.resetting = true → G.resetting = true

theorem FuncStays.refl (F : Func) : FuncStays F F := ⟨rfl, rfl, id⟩

theorem FuncStays.trans {F G H : Func} (h1 : FuncStays F G) (h2 : FuncStays G H) : FuncStays F H :=
  ⟨h2.en.trans h1.en, h2.disabled.trans h1.disabled, h2.resetting ∘ h1.resetting⟩

/-- The operation that a mailbox works on. -/
def mbxWork (M : Mailbox) : MbxState × BitVec 16 × BitVec 16 × BitVec 32 × List Byte := (M.st, M.op, M.len, M.opseq, M.data)

/-- A far part is the same, but that it may have been lost. -/
structure FarStays (x y : FarPart) : Prop where
  rest : y = { x with lost := y.lost }
  lost : x.lost = true → y.lost = true

theorem FarStays.refl (x : FarPart) : FarStays x x := ⟨rfl, id⟩

theorem FarStays.trans {x y z : FarPart} (h1 : FarStays x y) (h2 : FarStays y z) : FarStays x z :=
  ⟨by rw [h2.rest, h1.rest], h2.lost ∘ h1.lost⟩

/-- What stays of the block, whatever the device state. No port comes up, and a function may be reset where `P` has it. -/
structure Weathered (P : Nat → Prop) (s t : State) : Prop where
  links : t.links = { s.links with detour := t.links.detour }
  image : t.image = s.image
  slices : ∀ k, vat t.slices k = { vat s.slices k with chNow := (vat t.slices k).chNow }
  bridges : ∀ b, (vat t.brg b).offline = (vat s.brg b).offline
  dimms : ∀ d, FarStays (vat s.dimms d) (vat t.dimms d)
  cxl : ∀ e, FarStays (vat s.cxl e) (vat t.cxl e)
  ports : ∀ p, (vat t.ports p).up = true → (vat s.ports p).up = true
  funcs : ∀ f, FuncStays (vat s.funcs f) (vat t.funcs f)
  mbx : ∀ f, ¬ P (f % 64) → mbxWork (mbxOf t f) = mbxWork (mbxOf s f)
  recov : RecovsGoOn s.recov t.recov

/-- And the device state is the same. -/
structure Steady (P : Nat → Prop) (s t : State) : Prop extends Weathered P s t where
  sys : t.sys = { s.sys with bar2 := t.sys.bar2 }

section
variable {P : Nat → Prop} {s t : State}

theorem Weathered.trans {a b c : State} (h1 : Weathered P a b) (h2 : Weathered P b c) : Weathered P a c where
  links := by rw [h2.links, h1.links]
  image := h2.image.trans h1.image
  slices k := by rw [h2.slices, h1.slices]
  bridges b := (h2.bridges b).trans (h1.bridges b)
  dimms d := (h1.dimms d).trans (h2.dimms d)
  cxl e := (h1.cxl e).trans (h2.cxl e)
  ports p := h1.ports p ∘ h2.ports p
  funcs f := (h1.funcs f).trans (h2.funcs f)
  mbx f hf := (h2.mbx f hf).trans (h1.mbx f hf)
  recov := h1.recov.trans h2.recov

theorem Steady.trans {a b c : State} (h1 : Steady P a b) (h2 : Steady P b c) : Steady P a c :=
  ⟨h1.toWeathered.trans h2.toWeathered, by rw [h2.sys, h1.sys]⟩

/-- Only what `Steady` does not speak of changed. -/
theorem Steady.rest (h : t = { s with orphanSince := t.orphanSince, flash := t.flash, cfg := t.cfg, jr := t.jr, mg := t.mg, qs := t.qs,
                                      cmds := t.cmds, nextUid := t.nextUid, flails := t.flails, ring := t.ring, stolon := t.stolon,
                                      kv := t.kv, partials := t.partials, cores := t.cores, pool := t.pool, qos := t.qos, led := t.led,
                                      pmc := t.pmc, cnt := t.cnt, mem := t.mem, poison := t.poison, out := t.out,
                                      freeCtr := t.freeCtr }) : Steady P s t where
  links := by rw [h]
  image := by rw [h]
  slices k := by rw [h]
  bridges b := by rw [h]
  dimms d := by rw [h]; exact .refl _
  cxl e := by rw [h]; exact .refl _
  ports p := by rw [h]; exact id
  funcs f := by rw [h]; exact .refl _
  mbx f _ := by rw [h]; rfl
  recov := by rw [h]; exact .refl _
  sys := by rw [h]

theorem Steady.refl (s : State) : Steady P s s := .rest rfl

theorem Steady.foldl {α : Type} {g : State → α → State} (h : ∀ s x, Steady P s (g s x)) : ∀ (l : List α) (s : State),
    Steady P s (l.foldl g s)
  | [], s => .refl s
  | x :: l, s => (h s x).trans (foldl h l (g s x))

theorem Calm.steady (h : Calm s t) : Steady P s t where
  links := by rw [h.frame]
  image := by rw [h.frame]
  slices := h.slices
  bridges b := by rw [h.frame]
  dimms d := by rw [h.frame]; exact .refl _
  cxl e := by rw [h.frame]; exact .refl _
  ports p := by rw [h.frame]; exact id
  funcs f := by rw [h.funcs f]; exact ⟨rfl, rfl, id⟩
  mbx f _ := by rw [mbxOf, h.funcs f]; rfl
  recov := h.recov
  sys := by rw [h.frame]

theorem Charged.steady (h : Charged s t) : Steady P s t := h.calm.steady

theorem onBrg_steady {b : Nat} {g : Bridge → Bridge} (hg : ∀ B, (g B).offline = B.offline) (s : State) : Steady P s (onBrg b g s) :=
  { (Steady.refl s : Steady P s s) with
    bridges := fun j => vat_vupd_rel (R := fun x y : Bridge => y.offline = x.offline) (fun _ => rfl) hg s.brg b j }

/-- A function changes in what its reset leaves of it, and goes on with its mailbox operation. -/
theorem onFunc_steady {f : Nat} {g : Func → Func} (hg : ∀ F, FuncStays F (g F)) (hm : ∀ F, mbxWork (g F).mbx = mbxWork F.mbx) (s : State) :
    Steady P s (onFunc f g s) :=
  { (Steady.refl s : Steady P s s) with
    funcs := fun j => vat_vupd_rel (R := FuncStays) .refl hg s.funcs f j
    mbx := fun j _ => vat_vupd_rel (R := fun F G : Func => mbxWork G.mbx = mbxWork F.mbx) (fun _ => rfl) hm s.funcs f j }

/-- A function that may be reset changes in what its reset leaves of it. -/
theorem onFunc_steady_of {f : Nat} {g : Func → Func} (hP : P (f % 64)) (hg : ∀ F, FuncStays F (g F)) (s : State) : Steady P s (onFunc f g s) :=
  { (Steady.refl s : Steady P s s) with
    funcs := fun j => vat_vupd_rel (R := FuncStays) .refl hg s.funcs f j
    mbx := fun j hj => by
      rw [mbxOf, vat_onFunc_cases, if_neg fun e : f % 64 = j % 64 => hj (by rw [← e]; exact hP)]
      rfl }

/-! ### Energy, epochs and configuration -/

theorem tally_steady (i : BankId) (e n : Nat) (g : Tag) (s : State) : Steady P s (tally i e n g s) := (tally_calm ..).steady

theorem jAdd_steady (b : JBody) (s : State) : Steady P s (jAdd b s) := (jAdd_calm ..).steady

theorem raiseEvent_steady (t a b : Nat) (s : State) : Steady P s (raiseEvent t a b s) := (raiseEvent_calm ..).steady

theorem onCmd_steady (u : Nat) (g : Cmd → Cmd) (s : State) : Steady P s (onCmd u g s) := (onCmd_calm ..).steady

theorem daPoke_steady (s : State) (a : Nat) (bs : List Byte) : Steady P s (daPoke s a bs) := (daPoke_calm ..).steady

theorem endLoss_steady (u st d : Nat) (s : State) : Steady P s (endLoss u st d s) := (endLoss_calm ..).steady

theorem kickFlail_steady (s : State) : Steady P s (kickFlail s) := (kickFlail_calm s).steady

theorem cutCmd_steady (u : Nat) (s : State) : Steady P s (cutCmd u s) := by
  unfold cutCmd
  split
  · exact .refl s
  · exact (onCmd_steady ..).trans (drew_calm _).steady

theorem houseNow_steady (u : Nat) (s : State) : Steady P s (houseNow u s) := by
  unfold houseNow
  split
  · exact (houseCmd_calm ..).steady.trans (onCmd_steady ..)
  · exact .refl s

theorem cutAll_steady (s : State) : Steady P s (cutAll s) :=
  ((Steady.foldl (fun _ _ => cutCmd_steady ..) _ _).trans (toHouse_calm ..).steady).trans (drew_calm _).steady

theorem takeCut_steady (s : State) : Steady P s (takeCut s) := by
  obtain ⟨cmds, led, d, e⟩ := takeCut_frame s
  rw [e]
  exact .rest rfl

theorem undoCut_steady (s : State) : Steady P s (undoCut s) := by
  unfold undoCut
  split
  · exact .refl s
  · exact .rest rfl

theorem epochClosed_steady (n : Nat) (l : Ledger) (o : Qos) (m : Pmc) (s : State) :
    Steady P s { s with freeCtr := n, led := l, qos := o, pmc := m } := .rest rfl

theorem closeCut_steady (halt early : Bool) (k : EpochCut) (s : State) : Steady P s (closeCut halt early k s) := by
  unfold closeCut
  extract_lets v g gap n sums s1 s2
  clear_value sums gap g n v
  split
  extract_lets rec_
  clear_value rec_
  have h1 : Steady P s s1 := by
    unfold s1
    split
    · exact raiseEvent_steady ..
    · exact .refl s
  have h2 : Steady P s1 s2 := by
    unfold s2
    split
    · exact raiseEvent_steady ..
    · exact .refl s1
  exact (h1.trans h2).trans (epochClosed_steady ..)

theorem closeEpoch_steady (halt final : Bool) (s : State) : Steady P s (closeEpoch halt final s) := by
  unfold closeEpoch
  extract_lets s1
  have h1 : Steady P s s1 := by
    unfold s1
    split
    · exact (undoCut_steady s).trans (takeCut_steady _)
    split
    · exact .refl s
    · exact takeCut_steady s
  refine h1.trans ?_
  split
  · exact closeCut_steady ..
  · exact .refl s1

theorem signEpoch_steady (s : State) : Steady P s (signEpoch s) := by
  unfold signEpoch
  split
  · exact .refl s
  · refine Steady.trans (Steady.trans (Steady.trans ?_ (jAdd_steady ..)) activity_charged.steady) (tally_steady ..)
    exact .rest rfl

theorem keepSummaries_steady (e : ClosedEpoch) (s : State) : Steady P s (keepSummaries e s) := .rest rfl

theorem acceptChange_steady (k : ChangeKind) (o : Option Nat) (s : State) : Steady P s (acceptChange k o s) :=
  (Steady.rest rfl).trans (jAdd_steady ..)

theorem onHead_steady (g : Change → Change) (s : State) : Steady P s (onHead g s) := .rest rfl

theorem stageHead_steady (s : State) : Steady P s (stageHead s) := by
  unfold stageHead
  split
  · exact .refl s
  split
  · exact .refl s
  · exact (onHead_steady ..).trans (jAdd_steady ..)

theorem decideRollback_steady (r : Reason) (s : State) : Steady P s (decideRollback r s) := by
  unfold decideRollback
  split
  · exact .refl s
  split
  · exact .refl s
  · exact (Steady.rest rfl).trans (jAdd_steady ..)

theorem validateOwn_steady (k : ChangeKind) (s : State) : Steady P s (validateOwn k s) := by
  unfold validateOwn
  split
  · exact acceptChange_steady ..
  · exact .refl s

theorem ownChange_steady (k : ChangeKind) (s : State) : Steady P s (ownChange k s) := by
  unfold ownChange
  split
  · exact validateOwn_steady ..
  · exact .rest rfl

theorem answerMbx_steady (o : Option Nat) (st : Nat) (d : List Byte) (s : State) : Steady P s (answerMbx o st d s) := by
  unfold answerMbx
  split
  · exact .refl s
  · refine onFunc_steady (fun F => ?_) (fun F => ?_) s
    · split
      · exact ⟨rfl, rfl, id⟩
      · exact .refl F
    · split <;> rfl

theorem revalidate_steady (n : Nat) (s : State) : Steady P s (revalidate n s) := by
  unfold revalidate
  extract_lets first keep
  split
  exact (Steady.rest rfl).trans (.foldl (fun _ _ => answerMbx_steady ..) _ _)

theorem dropHead_steady (st : Nat) (d : List Byte) (again : Bool) (s : State) : Steady P s (dropHead st d again s) := by
  unfold dropHead
  extract_lets origin cfg s1 s2
  have h1 : Steady P s s1 := .rest rfl
  have h2 : Steady P s s2 := h1.trans (answerMbx_steady ..)
  refine h2.trans (Steady.trans ?_ (stageHead_steady _))
  split
  · exact revalidate_steady ..
  · exact .refl s2

theorem abandonAt_steady (i : Nat) (r : Reason) (s : State) : Steady P s (abandonAt i r s) := by
  unfold abandonAt
  split
  · exact .refl s
  extract_lets s1
  have h1 : Steady P s s1 := jAdd_steady ..
  refine h1.trans ?_
  split
  · exact dropHead_steady ..
  · exact ((Steady.rest rfl).trans (answerMbx_steady ..)).trans (revalidate_steady ..)

theorem abandonLater_steady (r : Reason) (hit : Change → Bool) (s : State) : Steady P s (abandonLater r hit s) :=
  .foldl (fun s i => by
    split
    · exact abandonAt_steady ..
    · exact .refl s) _ _

theorem rollHead_steady (r : Reason) (s : State) : Steady P s (rollHead r s) := by
  unfold rollHead
  split
  · exact .refl s
  split
  · exact .refl s
  split
  · exact abandonAt_steady ..
  · exact decideRollback_steady ..

theorem onTable_steady (id : Nat) (g : TableDecl → TableDecl) (s : State) : Steady P s (onTable id g s) := .rest rfl

theorem dropBatch_steady (s : State) : Steady P s (dropBatch s) := by
  unfold dropBatch
  split
  · exact .refl s
  split
  · exact .rest rfl
  · exact .rest rfl

theorem abandonMove_steady (s : State) : Steady P s (abandonMove s) := by
  unfold abandonMove
  extract_lets s1
  have h1 : Steady P s s1 := by
    unfold s1
    split
    · split
      · exact dropBatch_steady s
      · exact .refl s
    · exact .refl s
  exact h1.trans (.rest rfl)

end

end Sys2Proof.Machine
end

section
/-!
PROOFS. What the reset of a function leaves of the block: its queues, its commands and kernels, its window and its mailbox.
-/
namespace Sys2Proof.Machine

section
variable {P : Nat → Prop}

/-! ### Kernels and cores -/

theorem landBy_steady (n k : Nat) (s : State) : Steady P s (landBy n k s) :=
  (Steady.foldl (fun _ _ => daPoke_steady ..) _ _).trans (.rest rfl)

theorem coreReset_steady (k : Nat) (s : State) : Steady P s (coreReset k s) := .rest rfl

theorem coreDone_steady (u : Nat) (s : State) : Steady P s (coreDone u s) := by
  unfold coreDone
  extract_lets s1 s2
  have h1 : Steady P s s1 := onCmd_steady ..
  refine h1.trans ?_
  split
  · exact .refl s1
  split
  · exact .refl s1
  have h2 : Steady P s1 s2 := (stamp_calm ..).steady
  refine h2.trans ?_
  split
  · exact (finishWork_calm ..).steady
  split
  · exact (finishWork_calm ..).steady
  · exact (finishWork_calm ..).steady

theorem stopCore_steady (k : Nat) (cause : Option Nat) (s : State) : Steady P s (stopCore k cause s) := by
  unfold stopCore
  split
  · exact .refl s
  extract_lets s1 s2
  have h1 : Steady P s s1 := landBy_steady ..
  have h2 : Steady P s1 s2 := (onCore_calm ..).steady
  refine (h1.trans h2).trans ?_
  split
  · exact coreDone_steady ..
  · exact ((coreReset_steady ..).trans (onCmd_steady ..)).trans (coreDone_steady ..)

theorem abortOn_steady (u cause : Nat) (s : State) (k : Nat) : Steady P s (abortOn u cause s k) := by
  unfold abortOn
  extract_lets K gone s1 s2
  have h1 : Steady P s s1 := (onCore_calm ..).steady
  have h2 : Steady P s1 s2 := .foldl (fun _ _ => (onCmd_steady ..).trans (coreDone_steady ..)) _ _
  refine (h1.trans h2).trans ?_
  split
  · split
    · exact stopCore_steady ..
    split
    · exact .refl s2
    · exact (onCore_calm ..).steady
  · exact .refl s2

theorem abortLaunch_steady (u cause : Nat) (s : State) : Steady P s (abortLaunch u cause s) := .foldl (fun _ _ => abortOn_steady ..) _ _

theorem killLaunch_steady (u st d : Nat) (s : State) : Steady P s (killLaunch u st d s) := (onCmd_steady ..).trans (abortLaunch_steady ..)

/-! ### The window of a function -/

theorem chargeWindow_steady (da n : Nat) (s : State) : Steady P s (chargeWindow da n s) := chargeWindow_charged.steady

theorem emit_steady (o : Out) (s : State) : Steady P s (emit o s) := .rest rfl

theorem onLines_steady (b : Nat) (g : List WinLine → List WinLine) (s : State) : Steady P s (onLines b g s) := by
  refine onBrg_steady ?_ s
  exact fun _ => rfl

theorem dropEntry_steady (b i : Nat) (s : State) : Steady P s (dropEntry b i s) := by
  refine onBrg_steady ?_ s
  exact fun _ => rfl

theorem writeBack_steady (l : WinLine) (s : State) : Steady P s (writeBack l s) := by
  unfold writeBack
  extract_lets s1
  split
  · exact .refl s
  have h1 : Steady P s s1 := (chargeWindow_steady ..).trans (tally_steady ..)
  refine h1.trans ?_
  split
  · exact .refl s1
  · exact (daWrite_calm ..).steady

theorem markClean_steady (b i : Nat) (s : State) : Steady P s (markClean b i s) := onLines_steady ..

theorem toVictim_steady (b : Nat) (l : WinLine) (s : State) : Steady P s (toVictim b l s) := by
  unfold toVictim
  extract_lets put
  have hput (i : Nat) (u : State) : Steady P u (put i u) := by
    refine onBrg_steady ?_ u
    exact fun _ => rfl
  split
  · exact hput ..
  split
  · exact .refl s
  refine Steady.trans ?_ (hput ..)
  split
  · exact (writeBack_steady ..).trans (dropEntry_steady ..)
  · exact dropEntry_steady ..

theorem takeMain_steady (b : Nat) (s : State) : Steady P s (takeMain b s).2 := by
  unfold takeMain
  split
  · exact .refl s
  extract_lets can i
  split
  · exact ((drew_calm s).steady.trans (dropEntry_steady ..)).trans (toVictim_steady ..)
  · exact .refl s

theorem installMain_steady (b : Nat) (l : WinLine) (s : State) : Steady P s (installMain b l s) := by
  have h := takeMain_steady (P := P) b s
  unfold installMain
  generalize takeMain b s = r at h ⊢
  exact h.trans (onLines_steady ..)

theorem promote_steady (b : Nat) (l : WinLine) (s : State) : Steady P s (promote b l s) := by
  unfold promote
  split
  · exact tally_steady ..
  · exact ((tally_steady ..).trans (dropEntry_steady ..)).trans (installMain_steady ..)

theorem applyHit_steady (a : WinAccess) (s : State) : Steady P s (applyHit a s) := by
  unfold applyHit
  split
  · exact .refl s
  split
  · exact emit_steady ..
  · exact onLines_steady ..

theorem decodeError_steady (w : Who) (k da : Nat) (s : State) : Steady P s (decodeError w k da s) := by
  refine Steady.trans ?_ (raiseEvent_steady ..)
  refine onFunc_steady ?_ ?_ s
  · exact fun _ => ⟨rfl, rfl, id⟩
  · exact fun _ => rfl

theorem directAccess_steady (a : WinAccess) (s : State) : Steady P s (directAccess a s) := by
  unfold directAccess
  split
  · extract_lets s1
    have h1 : Steady P s s1 := decodeError_steady ..
    refine h1.trans ?_
    split
    · exact emit_steady ..
    · exact .refl s1
  split
  · split
    · exact emit_steady ..
    · exact .refl s
  extract_lets s1
  have h1 : Steady P s s1 := chargeWindow_steady ..
  refine h1.trans ?_
  split
  · exact emit_steady ..
  · exact (daWrite_calm ..).steady

theorem carvedAccess_steady (a : WinAccess) (i : Nat) (s : State) : Steady P s (carvedAccess a i s) := by
  unfold carvedAccess
  split
  · exact emit_steady ..
  · exact emit_steady ..
  · exact onLines_steady ..
  · exact .refl s

theorem setWatch_steady (w : PfWatch) (s : State) : Steady P s (setWatch w s) := by
  refine onBrg_steady ?_ s
  exact fun _ => rfl

theorem prefetchLine_steady (f da : Nat) (s : State) : Steady P s (prefetchLine f da s) := by
  unfold prefetchLine
  extract_lets b s1 s2
  split
  · exact .refl s
  have h1 : Steady P s s1 := (chargeWindow_steady ..).trans (tally_steady ..)
  have h2 : Steady P s1 s2 := by
    unfold s2
    split
    · exact dropEntry_steady ..
    · exact .refl s1
  refine (h1.trans h2).trans ?_
  split
  · exact .refl s2
  · refine onBrg_steady ?_ s2
    exact fun _ => rfl

theorem extendRun_steady (f line : Nat) (d : Int) (s : State) : Steady P s (extendRun f line d s) := by
  unfold extendRun
  extract_lets n w s1
  have h1 : Steady P s s1 := setWatch_steady ..
  split
  · exact h1
  · exact h1.trans (prefetchLine_steady ..)

theorem watchHit_steady (f line : Nat) (s : State) : Steady P s (watchHit f line s) := by
  unfold watchHit
  extract_lets w
  split
  · exact extendRun_steady ..
  · exact .refl s

theorem lineActivity_steady (b : Nat) (s : State) : Steady P s (lineActivity b s) := activity_charged.steady

theorem serveAccess_steady (a : WinAccess) (s : State) : Steady P s (serveAccess a s) := by
  unfold serveAccess
  extract_lets b line s1 l
  split
  · exact (lineActivity_steady ..).trans (carvedAccess_steady ..)
  split
  · exact directAccess_steady ..
  split
  · exact ((lineActivity_steady ..).trans (promote_steady ..)).trans ((applyHit_steady ..).trans (watchHit_steady ..))
  have h1 : Steady P s s1 := (lineActivity_steady ..).trans (tally_steady ..)
  refine h1.trans ?_
  split
  · exact (installMain_steady ..).trans (applyHit_steady ..)
  · refine onBrg_steady ?_ s1
    exact fun _ => rfl

theorem fillLine_steady (f da : Nat) (s : State) : Steady P s (fillLine f da s) := by
  unfold fillLine
  extract_lets s1
  have h1 : Steady P s s1 := chargeWindow_steady ..
  exact h1.trans (installMain_steady ..)

theorem maintFail_steady (f c : Nat) (s : State) : Steady P s (maintFail f c s) := by
  refine onFunc_steady ?_ ?_ s
  · exact fun _ => ⟨rfl, rfl, id⟩
  · exact fun _ => rfl

theorem countLocked_steady (f : Nat) (s : State) : Steady P s (countLocked f s) := by
  refine onFunc_steady ?_ ?_ s
  · exact fun _ => ⟨rfl, rfl, id⟩
  · exact fun _ => rfl

theorem maintLine_steady (op : Nat) (l : WinLine) (s : State) : Steady P s (maintLine op l s) := by
  unfold maintLine
  extract_lets b
  split
  · exact (writeBack_steady ..).trans (markClean_steady ..)
  split
  · exact (dropEntry_steady ..).trans (countLocked_steady ..)
  split
  · exact ((writeBack_steady ..).trans (dropEntry_steady ..)).trans (countLocked_steady ..)
  split
  · exact (onLines_steady ..).trans (countLocked_steady ..)
  · exact .refl s

theorem maintOp_steady (f op : Nat) (e : Bool) (m : Nat) (s : State) : Steady P s (maintOp f op e m s) := by
  unfold maintOp
  split
  · split
    · exact maintLine_steady ..
    · exact .refl s
  split
  · exact maintFail_steady ..
  split
  · exact maintLine_steady ..
  · exact .refl s

theorem lockOp_steady (f : Nat) (e : Bool) (m : Nat) (s : State) : Steady P s (lockOp f e m s) := by
  unfold lockOp
  extract_lets da b setLock
  have hlock (u : State) : Steady P u (setLock u) := (onLines_steady ..).trans (countLocked_steady ..)
  split
  · exact maintFail_steady ..
  split
  · exact maintFail_steady ..
  split
  · split
    · exact .refl s
    split
    · exact maintFail_steady ..
    · exact (promote_steady ..).trans (hlock _)
  · split
    · exact maintFail_steady ..
    split
    · exact maintFail_steady ..
    · exact (fillLine_steady ..).trans (hlock _)

theorem mopTurn_steady (f op : Nat) (e : Bool) (m : Nat) (s : State) : Steady P s (mopTurn f op e m s) := by
  unfold mopTurn
  split
  · exact lockOp_steady ..
  split
  · exact maintOp_steady ..
  · exact maintFail_steady ..

theorem syncTurn_steady (f n : Nat) (s : State) : Steady P s (syncTurn f n s) :=
  (Steady.foldl (fun _ _ => (writeBack_steady ..).trans (markClean_steady ..)) _ _).trans (emit_steady ..)

theorem waitTurn_steady (b : Nat) (s : State) (x : WinWait) : Steady P s (waitTurn b s x) := by
  unfold waitTurn
  split
  · refine onBrg_steady ?_ s
    exact fun _ => rfl
  split
  · exact serveAccess_steady ..
  · exact mopTurn_steady ..
  · exact syncTurn_steady ..

theorem serveWaiting_steady (b : Nat) (s : State) : Steady P s (serveWaiting b s) := by
  refine Steady.trans ?_ (.foldl (waitTurn_steady b) _ _)
  refine onBrg_steady ?_ s
  exact fun _ => rfl

theorem dropWindow_steady (f : Nat) (s : State) : Steady P s (dropWindow f s) := by
  refine Steady.trans ?_ (serveWaiting_steady ..)
  refine onBrg_steady ?_ s
  exact fun _ => rfl

/-! ### A function is reset (R514) -/

theorem dropFetched_steady (q : Nat) (s : State) : Steady P s (dropFetched q s) := by
  unfold dropFetched
  extract_lets Q n s1
  have h1 : Steady P s s1 := .rest rfl
  refine h1.trans ?_
  split
  · exact .refl s1
  · exact ((countFunc_calm ..).trans (toHouse_calm ..)).steady.trans (drew_calm _).steady

theorem resetCmd_steady (s : State) (u : Nat) : Steady P s (resetCmd s u) := by
  unfold resetCmd
  split
  · exact .refl s
  extract_lets left
  have h : Steady P s left := (onCmd_steady ..).trans (leavePreLoss_calm ..).steady
  split
  · exact h.trans (houseNow_steady ..)
  split
  · exact (h.trans (houseNow_steady ..)).trans (abortLaunch_steady ..)
  · exact (((forgetUpdate_calm ..).trans (discardNow_calm ..)).trans (retire_calm ..)).steady

theorem resetQueues_steady (f : Nat) (s : State) : Steady P s (resetQueues f s) :=
  .foldl (fun _ _ => (dropFetched_steady ..).trans (.rest rfl)) _ _

theorem applyOnLoss_steady (fs : List Nat) (s : State) : Steady P s (applyOnLoss fs s) := .foldl (fun _ _ => ownChange_steady ..) _ _

theorem loseNotices_steady (f : Nat) (s : State) : Steady P s (loseNotices f s) := by
  refine onFunc_steady ?_ ?_ s
  · exact fun _ => ⟨rfl, rfl, id⟩
  · exact fun _ => rfl

theorem leaveMailbox_steady (f : Nat) (s : State) : Steady P s (leaveMailbox f s) := by
  obtain ⟨m, j, c, e⟩ := leaveMailbox_frame f s
  rw [e]
  exact .rest rfl

/-- What the reset does at once, before what goes with the function. -/
def funcStarts (trigger f : Nat) (s : State) : State :=
  let s := onFunc f (fun F => { F with resetting := true, pci := pciAfter (decide (trigger ≤ 1)) F.pci, pba := [], invals := [] }) s
  { s with led := { s.led with resets := s.led.resets ||| (1 <<< f) } }

theorem funcStarts_steady {f : Nat} (hP : P (f % 64)) (trigger : Nat) (s : State) : Steady P s (funcStarts trigger f s) := by
  refine Steady.trans (onFunc_steady_of hP (fun F => ?_) s) (.rest rfl)
  exact ⟨rfl, rfl, fun _ => rfl⟩

theorem setCfg_steady (c : ConfigState) (s : State) : Steady P s { s with cfg := c } := .rest rfl

theorem setBar2_steady (n : Nat) (s : State) : Steady P s { s with sys := { s.sys with bar2 := n } } :=
  { (Steady.refl s : Steady P s s) with sys := rfl }

theorem funcStops_steady {f : Nat} (hP : P (f % 64)) (trigger : Nat) (s : State) : Steady P (funcStarts trigger f s) (funcStops trigger s f) := by
  unfold funcStops
  extract_lets s1 led s2 s3 s4 s5 s6 cfg s7 sys s8
  have h3 : Steady P s2 s3 := resetQueues_steady ..
  have h4 : Steady P s3 s4 := .foldl resetCmd_steady _ _
  have h5 : Steady P s4 s5 := (loseNotices_steady ..).trans (dropWindow_steady ..)
  have h6 : Steady P s5 s6 := by
    refine (leaveMailbox_steady f s5).trans (onFunc_steady_of hP ?_ _)
    exact fun _ => ⟨rfl, rfl, id⟩
  have h7 : Steady P s6 s7 := setCfg_steady ..
  have h8 : Steady P s7 s8 := by
    unfold s8
    split
    · exact setBar2_steady ..
    · exact .refl s7
  exact (((h3.trans h4).trans (h5.trans h6)).trans (h7.trans h8)).trans (raiseEvent_steady ..)

/-- Functions are reset: they are resetting, and the rest of the block stays. -/
theorem resetFuncs_steady (fs : List Nat) (hP : ∀ f ∈ fs, P (f % 64)) (trigger : Nat) (s : State) :
    Steady P s (resetFuncs fs trigger s) ∧ ∀ f ∈ fs, (vat (resetFuncs fs trigger s).funcs f).resetting = true := by
  suffices h : Steady P s (fs.foldl (funcStops trigger) s) ∧ ∀ f ∈ fs, (vat (fs.foldl (funcStops trigger) s).funcs f).resetting = true by
    obtain ⟨h1, h2⟩ := h
    have h3 : Steady P _ (resetFuncs fs trigger s) := applyOnLoss_steady fs (fs.foldl (funcStops trigger) s)
    exact ⟨h1.trans h3, fun f hf => (h3.funcs f).resetting (h2 f hf)⟩
  induction fs generalizing s with
  | nil => exact ⟨.refl s, fun f hf => by cases hf⟩
  | cons f fs ih =>
    have h1 : Steady P _ _ := funcStops_steady (hP f List.mem_cons_self) trigger s
    obtain ⟨h2, h3⟩ := ih (fun g hg => hP g (List.mem_cons_of_mem _ hg)) (funcStops trigger s f)
    refine ⟨((funcStarts_steady (hP f List.mem_cons_self) trigger s).trans h1).trans h2, fun g hg => ?_⟩
    rcases List.mem_cons.1 hg with rfl | hg
    · refine (h2.funcs g).resetting ((h1.funcs g).resetting ?_)
      change (vat (vupd s.funcs g _) g).resetting = true
      rw [vat_vupd_self]
    · exact h3 g hg

theorem watchOrphan_steady (s : State) : Steady P s (watchOrphan s) := .rest rfl

end

end Sys2Proof.Machine
end

section
/-!
PROOFS. What the loss of a part leaves of the block beside the part.
-/
namespace Sys2Proof.Machine

section
variable {P : Nat → Prop}

/-! ### Updates, tables and commands in flight -/

theorem onLatest_steady {g : Recovery → Recovery} (hg : ∀ r, lossKey (g r) = lossKey r ∧ (g r).preLoss ⊆ r.preLoss) (s : State) :
    Steady P s (onLatest g s) := by
  have h : RecovsGoOn s.recov (onLatest g s).recov := by
    refine ⟨rfl, rfl, fun h => .inl h, fun y hy => ?_, fun x hx _ => ?_⟩
    · obtain ⟨i, hi, rfl⟩ := List.getElem_of_mem hy
      have hi' : i < s.recov.active.length := by simpa [onLatest] using hi
      refine ⟨s.recov.active[i], List.getElem_mem hi', ?_⟩
      simp only [onLatest, List.getElem_modify]
      split
      · exact hg _
      · exact ⟨rfl, fun _ => id⟩
    · obtain ⟨i, hi, rfl⟩ := List.getElem_of_mem hx
      have hi' : i < (onLatest g s).recov.active.length := by simpa [onLatest] using hi
      refine ⟨(onLatest g s).recov.active[i], List.getElem_mem hi', ?_⟩
      simp only [onLatest, List.getElem_modify]
      split
      · exact hg _
      · exact ⟨rfl, fun _ => id⟩
  exact { (Steady.refl s : Steady P s s) with recov := h }

theorem loseTables_steady (ids : List Nat) (s : State) : Steady P s (loseTables ids s) := by
  unfold loseTables
  extract_lets new s1
  have h1 : Steady P s s1 := .foldl (fun _ _ => onTable_steady ..) _ _
  refine h1.trans (onLatest_steady ?_ s1)
  exact fun _ => ⟨rfl, fun _ => id⟩

theorem loseKvs_steady (ids : List Nat) (s : State) : Steady P s (loseKvs ids s) := by
  unfold loseKvs
  extract_lets f new
  refine Steady.trans ?_ (onLatest_steady ?_ _)
  · exact .rest rfl
  · exact fun _ => ⟨rfl, fun _ => id⟩

theorem cutUpdate_steady (u : Nat) (p : Nat × Nat) (st d : Nat) (s : State) : Steady P s (cutUpdate u p st d s) := by
  unfold cutUpdate
  extract_lets cut gone s1
  have h1 : Steady P s s1 := onCmd_steady ..
  refine (h1.trans ?_).trans (kickFlail_steady _)
  exact .rest rfl

theorem failUpdate_steady (u st d : Nat) (s : State) : Steady P s (failUpdate u st d s) := by
  unfold failUpdate
  split
  · exact .refl s
  extract_lets p s1
  have h1 : Steady P s s1 := onCmd_steady ..
  refine h1.trans ?_
  split
  · exact cutUpdate_steady ..
  · exact cutUpdate_steady ..

theorem lateUpdates_steady (hit : Cmd → Bool) (s : State) : Steady P s (lateUpdates hit s) := .foldl (fun _ _ => endLoss_steady ..) _ _

theorem stopUpdate_steady (u : Nat) (x : Nat × Nat × Bool) (s : State) : Steady P s (stopUpdate u x s) := by
  unfold stopUpdate
  split
  · exact .refl s
  extract_lets s1
  have h1 : Steady P s s1 := (forgetUpdate_calm ..).steady
  refine h1.trans ?_
  split
  · exact ((discardNow_calm ..).trans (retire_calm ..)).steady
  split
  · exact endLoss_steady ..
  · exact (endCmd_calm ..).steady

theorem rowWrite_steady (s : State) (a : Nat) (bs : List Byte) : Steady P s (rowWrite s a bs) := (daPoke_steady ..).trans (.rest rfl)

theorem writeStackCopies_steady (T : TableDecl) (row k : Nat) (r : List Byte) (s : State) : Steady P s (writeStackCopies T row k r s) := by
  unfold writeStackCopies
  extract_lets s1
  have h1 : Steady P s s1 := .foldl (fun _ _ => rowWrite_steady ..) _ _
  refine h1.trans ?_
  split
  · exact daPoke_steady ..
  · exact .refl s1

theorem writeParity_steady (T : TableDecl) (row : Nat) (r : List Byte) (s : State) : Steady P s (writeParity T row r s) :=
  .foldl (fun _ _ => daPoke_steady ..) _ _

theorem restoreHold_steady (k : Nat) (s : State) (h : HoldRec) : Steady P s (restoreHold k s h) := by
  unfold restoreHold
  split
  · exact .refl s
  · exact (writeStackCopies_steady ..).trans (.foldl (fun _ _ => daPoke_steady ..) _ _)

theorem spreadRow_steady (T : TableDecl) (row : Nat) (bs : List Byte) (s : State) : Steady P s (spreadRow T row bs s) := by
  unfold spreadRow
  extract_lets seg s1
  have h1 : Steady P s s1 := .foldl (fun _ _ => writeStackCopies_steady ..) _ _
  refine h1.trans ?_
  split
  · exact writeParity_steady ..
  · exact .refl s1

theorem restoreFar_steady (s : State) (h : HoldRec) : Steady P s (restoreFar s h) := by
  unfold restoreFar
  split
  · exact .refl s
  · exact (Steady.foldl (fun _ _ => daPoke_steady ..) _ _).trans (spreadRow_steady ..)

theorem restoreLost_steady (k : Nat) (s : State) (x : Nat × Nat) : Steady P s (restoreLost k s x) := by
  unfold restoreLost
  split
  · exact .refl s
  split
  · exact .refl s
  · exact .foldl (fun _ _ => daPoke_steady ..) _ _

theorem dropFarParts_steady (s : State) : Steady P s (dropFarParts s) :=
  .foldl (fun s x => by
    split
    · exact .refl s
    split
    · exact spreadRow_steady ..
    · exact .refl s) _ _

theorem rollback_steady (k : Nat) (s : State) : Steady P s (rollback k s) := by
  unfold rollback
  extract_lets later rows far s1
  have h1 : Steady P s s1 := .foldl (fun _ _ => .foldl (restoreHold_steady _) _ _) _ _
  exact ((h1.trans (.foldl (restoreLost_steady k) _ _)).trans (dropFarParts_steady _)).trans (.foldl restoreFar_steady _ _)

theorem rollbackFar_steady (s : State) : Steady P s (rollbackFar s) := (dropFarParts_steady s).trans (.foldl restoreFar_steady _ _)

theorem stopFlails_steady (f : BitVec 48) (s : State) : Steady P s (stopFlails f s) := .rest rfl

theorem lossUpdates_steady (k : Nat) (kept : Cmd → Bool) {undo : State → State} (hu : ∀ s, Steady P s (undo s)) (s : State) :
    Steady P s (lossUpdates k kept undo s) := by
  unfold lossUpdates
  extract_lets q ends named rows sec s1 s2
  have h1 : Steady P s s1 := lateUpdates_steady ..
  have h2 : Steady P s1 s2 := by
    refine (hu s1).trans (onLatest_steady ?_ _)
    exact fun _ => ⟨rfl, fun _ => id⟩
  exact ((h1.trans h2).trans (stopFlails_steady ..)).trans (.foldl (fun _ _ => stopUpdate_steady ..) _ _)

theorem lastLossUpdates_steady (k : Nat) (s : State) : Steady P s (lastLossUpdates k s) := by
  unfold lastLossUpdates
  extract_lets ends s1
  split
  · exact lossUpdates_steady _ _ rollbackFar_steady s
  · have h1 : Steady P s s1 := (lateUpdates_steady ..).trans (dropFarParts_steady _)
    exact (h1.trans (stopFlails_steady ..)).trans (.foldl (fun _ _ => stopUpdate_steady ..) _ _)

theorem endLookups_steady (s : State) : Steady P s (endLookups s) := .foldl (fun _ _ => endLoss_steady ..) _ _

theorem endCopies_steady (s : State) : Steady P s (endCopies s) := .foldl (fun _ _ => endLoss_steady ..) _ _

theorem endKernels_steady (k : Nat) (s : State) : Steady P s (endKernels k s) := by
  unfold endKernels
  extract_lets mine s1 s2
  have h1 : Steady P s s1 := .foldl (fun _ _ => (noteLoss_calm ..).steady.trans (killLaunch_steady ..)) _ _
  have h2 : Steady P s1 s2 := .foldl (fun _ _ => endLoss_steady ..) _ _
  exact (h1.trans h2).trans (.foldl (fun _ _ => (onCore_calm ..).steady.trans (stopCore_steady ..)) _ _)

theorem abortAttn_steady (u : Nat) (s : State) : Steady P s (abortAttn u s) := by
  unfold abortAttn
  split
  · exact .refl s
  · exact ((endCmd_calm ..).trans (dropAttn_calm ..)).steady

theorem kvLoss_steady (k : Nat) (s : State) (T : KvTable) : Steady P s (kvLoss k s T) := by
  unfold kvLoss
  split
  · exact .refl s
  extract_lets gone bad kept notes done hit s1 s2 s3
  have h1 : Steady P s s1 := .foldl (fun _ _ => (noteLoss_calm ..).steady.trans (abortAttn_steady ..)) _ _
  have h2 : Steady P s1 s2 := .foldl (fun _ _ => endLoss_steady ..) _ _
  have h3 : Steady P s2 s3 := (commitKv_calm ..).steady
  refine ((h1.trans h2).trans h3).trans (onLatest_steady ?_ s3)
  exact fun _ => ⟨rfl, fun _ => id⟩

theorem kvGone_steady (k : Nat) (s : State) : Steady P s (kvGone k s) := by
  unfold kvGone
  extract_lets ids s1
  have h1 : Steady P s s1 := loseKvs_steady ..
  exact h1.trans (.foldl (fun _ _ => (noteLoss_calm ..).steady.trans (abortAttn_steady ..)) _ _)

/-! ### Slices -/

theorem rollHusk_steady (s : State) : Steady P s (rollHusk s) := by
  unfold rollHusk
  split
  · exact .refl s
  split
  · split
    · split
      · exact .refl s
      · exact rollHead_steady ..
    · exact .refl s
  · exact .refl s

theorem rollOnSlice_steady (s : State) : Steady P s (rollOnSlice s) := by
  unfold rollOnSlice
  extract_lets s1
  have h1 : Steady P s s1 := abandonLater_steady ..
  refine h1.trans ?_
  split
  · exact (abandonMove_steady _).trans (rollHead_steady ..)
  · exact rollHusk_steady _

theorem passLeader_steady (k : Nat) (s : State) : Steady P s (passLeader k s) := by
  unfold passLeader
  split
  · exact .refl s
  · exact .rest rfl

theorem sliceCommon_steady (k : Nat) (s : State) : Steady P s (sliceCommon k s) :=
  (((endLookups_steady s).trans (endCopies_steady _)).trans (endKernels_steady ..)).trans ((dropBatch_steady _).trans (passLeader_steady ..))

theorem firstSliceLoss_steady (k : Nat) (s : State) : Steady P s (firstSliceLoss k s) := by
  unfold firstSliceLoss
  extract_lets lost s1 s2
  have h1 : Steady P s s1 := (lossUpdates_steady _ _ (rollback_steady k) s).trans (sliceCommon_steady ..)
  have h2 : Steady P s1 s2 := rollOnSlice_steady _
  exact ((h1.trans h2).trans (loseTables_steady ..)).trans (.foldl (kvLoss_steady k) _ _)

theorem goOn_husk {a : Rec} {x : Option Nat} {h : Bool} : RecovsGoOn a { a with standin := x, huskLost := h } :=
  ⟨rfl, rfl, fun h => .inl h, fun y hy => ⟨y, hy, rfl, fun _ => id⟩, fun y hy _ => ⟨y, hy, rfl, fun _ => id⟩⟩

theorem noHusk_steady (x : Option Nat) (s : State) : Steady P s { s with recov := { s.recov with standin := x, huskLost := true } } :=
  { (Steady.refl s : Steady P s s) with recov := goOn_husk }

theorem lastSliceLoss_steady (k : Nat) (s : State) : Steady P s (lastSliceLoss k s) := by
  unfold lastSliceLoss
  extract_lets lost s1 s2 s3 s4 p s5
  have h1 : Steady P s s1 := lastLossUpdates_steady ..
  have h2 : Steady P s1 s2 := by
    unfold s2
    split
    · exact sliceCommon_steady ..
    · exact (endCopies_steady _).trans (endLookups_steady _)
  have h3 : Steady P s2 s3 := rollOnSlice_steady _
  have h4 : Steady P s3 s4 := loseTables_steady ..
  have h5 : Steady P s4 s5 := (kvGone_steady ..).trans (.foldl (kvLoss_steady p) _ _)
  exact ((h1.trans h2).trans (h3.trans h4)).trans (h5.trans (noHusk_steady ..))

theorem huskGone_steady (c : ConfigState) (v : Vector Flail 17) (r : Ring) (s : State) :
    Steady P s { s with cfg := c, flails := v, ring := r, recov := { s.recov with huskLost := true } } :=
  { (Steady.rest rfl : Steady P s { s with cfg := c, flails := v, ring := r }) with recov := goOn_husk }

theorem huskLoss_steady (s : State) : Steady P s (huskLoss s) := by
  unfold huskLoss
  extract_lets plain strip s1 f c2 r2 v2 s2
  have h1 : Steady P s s1 := rollHusk_steady s
  have h2 : Steady P s1 s2 := huskGone_steady ..
  exact ((h1.trans h2).trans (endKernels_steady ..)).trans ((settleUpdates_calm _).steady.trans (kickFlail_steady _))

theorem sliceLoss_steady (k : Nat) (s : State) : Steady P s (sliceLoss k s) := by
  unfold sliceLoss
  extract_lets others
  split
  · split
    · exact huskLoss_steady s
    · exact lastSliceLoss_steady ..
  split
  · exact firstSliceLoss_steady ..
  · exact lastSliceLoss_steady ..

/-! ### Far tiers -/

theorem emptyPackets_steady (u : Nat) (s : State) : Steady P s (emptyPackets u s) := .rest rfl

theorem setRing_steady (r : Ring) (s : State) : Steady P s { s with ring := r } := .rest rfl

theorem setStolon_steady (o : Stolon) (s : State) : Steady P s { s with stolon := o } := .rest rfl

theorem farLoss_steady (k : PartKind) (n : Nat) (s : State) : Steady P s (farLoss k n s) := by
  unfold farLoss
  extract_lets ids us s1 s2 r3 s3 needs s4 s5 s6 s7 o8 s8
  have h1 : Steady P s s1 := .foldl (fun _ _ => (emptyPackets_steady ..).trans (stopUpdate_steady ..)) _ _
  have h2 : Steady P s1 s2 := .foldl (fun _ _ => endLoss_steady ..) _ _
  have h3 : Steady P s2 s3 := setRing_steady ..
  have h4 : Steady P s3 s4 := .foldl (fun _ _ => endLoss_steady ..) _ _
  have h5 : Steady P s4 s5 := endCopies_steady _
  have h6 : Steady P s5 s6 := abandonLater_steady ..
  have h7 : Steady P s6 s7 := by
    unfold s7
    split
    · exact (abandonMove_steady _).trans (rollHead_steady ..)
    · exact .refl s6
  have h8 : Steady P s7 s8 := setStolon_steady ..
  exact (((h1.trans h2).trans (h3.trans h4)).trans ((h5.trans h6).trans (h7.trans h8))).trans
    ((loseTables_steady ..).trans (kickFlail_steady _))

end

end Sys2Proof.Machine
end

section
/-!
PROOFS. The loss of a part: HALT at the loss of a bridge that the device cannot serve without, the declaration of a loss, and what
it leaves of the rest.
-/
namespace Sys2Proof.Machine

/-! ### The entry into HALT -/

/-- The device goes on in its state, or is in HALT now. -/
structure HaltsAtMost (s t : State) : Prop where
  seen : t.sys.lossSeen = s.sys.lossSeen
  state : t.sys.state = s.sys.state ∨ t.sys.state = .halt

section
variable {P : Nat → Prop} {s t : State}

theorem HaltsAtMost.trans {a b c : State} (h1 : HaltsAtMost a b) (h2 : HaltsAtMost b c) : HaltsAtMost a c := by
  refine ⟨h2.seen.trans h1.seen, ?_⟩
  rcases h2.state with h | h
  · rw [h]
    exact h1.state
  · exact .inr h

theorem Steady.haltsAtMost (h : Steady P s t) : HaltsAtMost s t := ⟨by rw [h.sys], .inl (by rw [h.sys])⟩

theorem setSys_weathered (y : Sys) (s : State) : Weathered P s { s with sys := y } :=
  { (Steady.refl s : Steady P s s).toWeathered with }

theorem setLed_steady (l : Ledger) (s : State) : Steady P s { s with led := l } := .rest rfl

theorem haltEpoch_steady (c : Nat) (s : State) : Steady P s (haltEpoch c s) := by
  unfold haltEpoch
  split
  · exact .refl s
  extract_lets n s1
  have h1 : Steady P s s1 := closeEpoch_steady ..
  refine h1.trans ?_
  split
  · exact .foldl (fun _ _ => signEpoch_steady _) _ _
  · exact (setLed_steady ..).trans (.foldl (fun _ _ => keepSummaries_steady ..) _ _)

theorem holdFetched_steady (q : Nat) (F : Fetched) (s : State) : Steady P s (holdFetched q F s) := .rest rfl

theorem holdAll_steady (s : State) : Steady P s (holdAll s) := by
  unfold holdAll
  extract_lets s1 s2 s3
  have h1 : Steady P s s1 := .foldl (fun _ _ => ((forgetUpdate_calm ..).trans (discardNow_calm ..)).steady.trans (retire_calm ..).steady) _ _
  have h2 : Steady P s1 s2 := .foldl (fun _ _ => (forgetUpdate_calm ..).steady) _ _
  have h3 : Steady P s2 s3 := .rest rfl
  exact ((h1.trans h2).trans h3).trans (.foldl (fun _ _ => (Steady.foldl (fun _ _ => holdFetched_steady ..) _ _).trans (.rest rfl)) _ _)

theorem holdMbx_stays (F : Func) : FuncStays F (holdMbx F) ∧ mbxWork (holdMbx F).mbx = mbxWork F.mbx := by
  unfold holdMbx
  split
  · exact ⟨⟨rfl, rfl, id⟩, rfl⟩
  · exact ⟨.refl F, rfl⟩

theorem holdMailboxes_steady (s : State) : Steady P s { s with funcs := s.funcs.map holdMbx } :=
  { (Steady.refl s : Steady P s s) with
    funcs := fun f => by rw [vat_map]; exact (holdMbx_stays _).1
    mbx := fun f _ => by rw [mbxOf, vat_map]; exact (holdMbx_stays _).2 }

/-- HALT leaves of the block what the loss of a part leaves of it. -/
theorem enterHalt_weathered (c : Nat) (s : State) : Weathered P s (enterHalt c s) ∧ HaltsAtMost s (enterHalt c s) := by
  unfold enterHalt
  split
  · exact ⟨(Steady.refl s).toWeathered, rfl, .inl rfl⟩
  split
  · exact ⟨setSys_weathered .., rfl, .inl rfl⟩
  extract_lets s1 old y s2 s3 s4
  have h1 : Steady P s s1 := haltEpoch_steady ..
  have h2 : Weathered P s1 s2 := setSys_weathered ..
  have h3 : Steady P s2 s3 := by
    unfold s3
    split
    · exact (jAdd_steady ..).trans (jAdd_steady ..)
    · exact .refl s2
  have h4 : Steady P s3 s4 := holdAll_steady _
  have h5 : Steady P s4 { s4 with funcs := s4.funcs.map holdMbx } := holdMailboxes_steady s4
  have hend : Steady P s2 { s4 with funcs := s4.funcs.map holdMbx } := (h3.trans h4).trans h5
  have hsys : s2.sys = { s1.sys with state := .halt, cause := BitVec.ofNat 8 c, entered := s1.tb.beat, haltCause := BitVec.ofNat 8 c } := rfl
  refine ⟨(h1.toWeathered.trans h2).trans hend.toWeathered, ?_, .inr ?_⟩
  · rw [hend.sys, hsys, h1.sys]
  · rw [hend.sys, hsys]

/-! ### Bridges (R771 to R776) -/

theorem resetPort_ports {l : List Nat} : ∀ {v : Vector Port 8} {p : Nat}, (vat (l.foldl (fun v p => vupd v p fun _ => resetPort) v) p).up = true →
    (vat v p).up = true := by
  induction l with
  | nil => exact id
  | cons x l ih =>
    intro v p h
    have h := ih h
    rw [vat_vupd] at h
    split at h
    · cases h
    · exact h

theorem portsDown_steady (l : List Nat) (s : State) : Steady P s { s with ports := l.foldl (fun v p => vupd v p fun _ => resetPort) s.ports } :=
  { (Steady.refl s : Steady P s s) with ports := fun _ => resetPort_ports }

theorem peerDown_steady (p : Nat) (s : State) : Steady P s (peerDown p s) := (portsDown_steady [p] s).trans (raiseEvent_steady ..)

theorem cutOff_steady (b : Nat) (s : State) : Steady P s (cutOff b s) := .foldl (fun _ _ => failUpdate_steady ..) _ _

theorem reportLoss_steady (k : PartKind) (n c : Nat) (r : Recovery) (s : State) : Steady P s (reportLoss k n c r s) :=
  (logError_calm ..).steady.trans (raiseEvent_steady ..)

theorem dimmLost_steady (n : Nat) (s : State) : Steady P s (offlinePart .dimm n s) :=
  { (Steady.refl s : Steady P s s) with dimms := fun d => vat_vupd_rel (R := FarStays) .refl (fun _ => ⟨rfl, fun _ => rfl⟩) s.dimms n d }

theorem expanderLost_steady (n : Nat) (s : State) : Steady P s (offlinePart .expander n s) :=
  { (Steady.refl s : Steady P s s) with cxl := fun d => vat_vupd_rel (R := FarStays) .refl (fun _ => ⟨rfl, fun _ => rfl⟩) s.cxl (n - 4) d }

theorem farOfBridge_steady {k : PartKind} (hk : ∀ s, Steady P s (offlinePart k n s)) (c : Nat) (s : State) : Steady P s (farOfBridge k n c s) := by
  unfold farOfBridge
  split
  · exact ((hk s).trans (reportLoss_steady ..)).trans (farLoss_steady ..)
  · exact .refl s

theorem setDetour_steady (d : Vector Detour 17) (s : State) : Steady P s { s with links := { s.links with detour := d } } :=
  { (Steady.refl s : Steady P s s) with links := rfl }

/-- Any function may be reset. -/
def anyFunc (_ : Nat) : Prop := True

theorem bridgeLoss_weathered (b c : Nat) (s : State) : Weathered anyFunc s (bridgeLoss b c s) ∧ HaltsAtMost s (bridgeLoss b c s) := by
  unfold bridgeLoss
  extract_lets hosts peers s1 s2 s3 s4 s5 s6 l7 s7
  have h1 : Steady anyFunc s s1 := (resetFuncs_steady _ (fun _ _ => trivial) 8 s).1
  have h2 : Steady anyFunc s1 s2 := portsDown_steady ..
  have h3 : Steady anyFunc s2 s3 := (Steady.foldl (fun _ _ => peerDown_steady ..) _ _).trans (watchOrphan_steady _)
  have h4 : Steady anyFunc s3 s4 := by
    refine Steady.trans ?_ (cutOff_steady ..)
    refine onBrg_steady ?_ s3
    exact fun _ => rfl
  have h5 : Steady anyFunc s4 s5 := .foldl (fun _ i => farOfBridge_steady (dimmLost_steady _) ..) _ _
  have h6 : Steady anyFunc s5 s6 := .foldl (fun _ p => farOfBridge_steady (expanderLost_steady p) ..) _ _
  have h7 : Steady anyFunc s6 s7 := setDetour_steady ..
  have h : Steady anyFunc s s7 := (((h1.trans h2).trans (h3.trans h4)).trans (h5.trans h6)).trans h7
  have halts (c : Nat) : Weathered anyFunc s (enterHalt c s7) ∧ HaltsAtMost s (enterHalt c s7) := by
    obtain ⟨hw, hh⟩ := enterHalt_weathered (P := anyFunc) c s7
    exact ⟨h.toWeathered.trans hw, h.haltsAtMost.trans hh⟩
  split
  · exact halts _
  split
  · exact halts _
  · have h8 : Steady anyFunc s (settleUpdates s7) := h.trans (settleUpdates_calm _).steady
    exact ⟨h8.toWeathered, h8.haltsAtMost⟩

/-! ### The declaration of a loss (R760) -/

/-- The loss is noted: admission is held, the recovery epoch is raised, and a recovery waits for its cut. -/
def lossNoted (s : State) (r : Recovery) : State :=
  { s with recov := { s.recov with hold := true, epoch := s.recov.epoch + 1, done := false, active := s.recov.active ++ [r] },
           sys := { s.sys with lossSeen := true } }

/-- The recovery that a loss declared now begins. -/
def lossNow (s : State) (kind : PartKind) (num cause : Nat) : Recovery :=
  newRecovery { s with recov := { s.recov with hold := true, epoch := s.recov.epoch + 1, done := false } } kind num cause

theorem enterState_weathered (d : DevState) (c a : Nat) (s : State) : Weathered P s (enterState d c a s) ∧
    (enterState d c a s).sys.lossSeen = s.sys.lossSeen ∧ (enterState d c a s).sys.state = d := by
  unfold enterState
  extract_lets old y s1 s2
  have h1 : Weathered P s s1 := setSys_weathered ..
  have h2 : Steady P s1 (raiseEvent evStateChange (source dieC 0) (stateCode old + 16 * stateCode d + 256 * c) s2) :=
    (jAdd_steady ..).trans (raiseEvent_steady ..)
  have hsys : s1.sys = { s.sys with state := d, cause := BitVec.ofNat 8 c, entered := s.tb.beat } := rfl
  exact ⟨h1.trans h2.toWeathered, by rw [h2.sys, hsys], by rw [h2.sys, hsys]⟩

theorem declareLoss_eq (kind : PartKind) (num cause : Nat) (s : State) : declareLoss kind num cause s =
    let u := offlinePart kind num (lossNoted s (lossNow s kind num cause))
    reportLoss kind num cause (lossNow s kind num cause)
      (if u.sys.state == .run then enterState .degraded 0x10 (lossArg kind num cause) u else u) := rfl

theorem declareLoss_spec (kind : PartKind) (num cause : Nat) (s : State) : let t := declareLoss kind num cause s
    Weathered P (offlinePart kind num (lossNoted s (lossNow s kind num cause))) t ∧ t.sys.lossSeen = true ∧
      t.sys.state = if s.sys.state = .run then .degraded else s.sys.state := by
  have hsys : (offlinePart kind num (lossNoted s (lossNow s kind num cause))).sys = { s.sys with lossSeen := true } := by
    cases kind <;> rfl
  rw [declareLoss_eq]
  generalize offlinePart kind num (lossNoted s (lossNow s kind num cause)) = u at hsys ⊢
  dsimp only
  have hrep (v : State) : Steady P v (reportLoss kind num cause (lossNow s kind num cause) v) := reportLoss_steady ..
  by_cases hr : s.sys.state = .run
  · obtain ⟨hw, hl, hs⟩ := enterState_weathered (P := P) .degraded 0x10 (lossArg kind num cause) u
    rw [if_pos (show (u.sys.state == .run) = true by rw [hsys]; exact beq_iff_eq.2 hr), if_pos hr]
    exact ⟨hw.trans (hrep _).toWeathered, by rw [(hrep _).sys, hl, hsys], by rw [(hrep _).sys, hs]⟩
  · rw [if_neg (show ¬ (u.sys.state == .run) = true by rw [hsys]; simpa using hr), if_neg hr]
    exact ⟨(hrep u).toWeathered, by rw [(hrep u).sys, hsys], by rw [(hrep u).sys, hsys]⟩

/-- What goes with a part leaves the rest as it is; only with a bridge may the device halt. -/
theorem lossActions_weathered (kind : PartKind) (num cause : Nat) (s : State) : let t := lossActions kind num cause s
    Weathered anyFunc s t ∧ HaltsAtMost s t ∧ (kind ≠ .bridge → t.sys.state = s.sys.state) := by
  have hsteady {t : State} (h : Steady anyFunc s t) : Weathered anyFunc s t ∧ HaltsAtMost s t ∧ (kind ≠ .bridge → t.sys.state = s.sys.state) :=
    ⟨h.toWeathered, h.haltsAtMost, fun _ => by rw [h.sys]⟩
  cases kind with
  | slice => exact hsteady (sliceLoss_steady ..)
  | bridge => exact ⟨(bridgeLoss_weathered ..).1, (bridgeLoss_weathered ..).2, fun h => absurd rfl h⟩
  | dimm => exact hsteady (farLoss_steady ..)
  | expander => exact hsteady (farLoss_steady ..)

/-- A part that is declared lost is offline, and its recovery goes on. -/
structure LossDeclared (kind : PartKind) (num cause : Nat) (s t : State) : Prop where
  rest : Weathered anyFunc (offlinePart kind num (lossNoted s (lossNow s kind num cause))) t
  seen : t.sys.lossSeen = true
  state : t.sys.state = (if s.sys.state = .run then .degraded else s.sys.state) ∨ kind = .bridge ∧ t.sys.state = .halt

theorem partLoss_declared {kind : PartKind} {num : Nat} (cause : Nat) (hc : s.sys.state ≠ .cold) (hh : s.sys.state ≠ .halt)
    (hp : partLive s kind num = true) : LossDeclared kind num cause s (partLoss kind num cause s) := by
  obtain ⟨hw1, hl1, hs1⟩ := declareLoss_spec (P := anyFunc) kind num cause s
  obtain ⟨hw2, hh2, hs2⟩ := lossActions_weathered kind num cause (declareLoss kind num cause s)
  have e : partLoss kind num cause s = settleRecoveries (pumpAllKv (lossActions kind num cause (declareLoss kind num cause s))) :=
    if_neg (by simp [hc, hh, hp])
  have h3 : Steady anyFunc (lossActions kind num cause (declareLoss kind num cause s)) (partLoss kind num cause s) := by
    rw [e]
    exact ((pumpAllKv_calm _).trans (settleRecoveries_calm _)).steady
  refine ⟨(hw1.trans hw2).trans h3.toWeathered, by rw [h3.sys, hh2.seen, hl1], ?_⟩
  rw [h3.sys, ← hs1]
  by_cases hk : kind = .bridge
  · exact hh2.state.imp id fun h => ⟨hk, h⟩
  · exact .inl (hs2 hk)

end

end Sys2Proof.Machine
end

section
/-!
PROOFS. Parts are lost and recovered (sections 20.5 and 20.7).
-/
namespace Sys2Proof.Machine

section
variable {P : Nat → Prop} {s t : State}

/-! ### Which parts are there -/

theorem Weathered.sliceLive (h : Weathered P s t) (k : Nat) : sliceLive t k = sliceLive s k := by
  rw [Machine.sliceLive, h.slices k]
  rfl

theorem Weathered.farDeclared (h : Weathered P s t) (kind : PartKind) (num : Nat) : farDeclared t kind num = farDeclared s kind num := by
  unfold Machine.farDeclared
  rw [h.image]

/-- A part that has gone stays away. -/
theorem Weathered.partLive (h : Weathered P s t) {kind : PartKind} {num : Nat} (hl : partLive s kind num = false) :
    partLive t kind num = false := by
  cases kind with
  | slice => exact (h.sliceLive num).trans hl
  | bridge => exact (congrArg Bool.not (h.bridges (num - 0x11))).trans hl
  | dimm =>
    rw [Machine.partLive, Bool.and_eq_false_iff, Bool.not_eq_false'] at hl ⊢
    rw [h.farDeclared]
    exact hl.imp id (h.dimms num).lost
  | expander =>
    rw [Machine.partLive, Bool.and_eq_false_iff, Bool.not_eq_false'] at hl ⊢
    rw [h.farDeclared]
    exact hl.imp id (h.cxl (num - 4)).lost

theorem partLive_offlinePart (kind : PartKind) (num : Nat) (s : State) : partLive (offlinePart kind num s) kind num = false := by
  cases kind with
  | slice => exact congrArg (fun S : Slice => !S.offline) (vat_vupd_self ..)
  | bridge => exact congrArg (fun B : Bridge => !B.offline) (vat_vupd_self ..)
  | dimm =>
    refine Bool.and_eq_false_iff.2 (.inr ?_)
    exact congrArg (fun d : FarPart => !d.lost) (vat_vupd_self ..)
  | expander =>
    refine Bool.and_eq_false_iff.2 (.inr ?_)
    exact congrArg (fun d : FarPart => !d.lost) (vat_vupd_self ..)

theorem sliceLive_offlinePart {kind : PartKind} {num k : Nat} (hk : kind ≠ .slice ∨ k % 17 ≠ num % 17) (s : State) :
    sliceLive (offlinePart kind num s) k = sliceLive s k := by
  cases kind with
  | slice =>
    have hne : num % 17 ≠ k % 17 := fun h => hk.elim (fun hn => hn rfl) (fun hn => hn h.symm)
    exact congrArg (fun S : Slice => !S.offline) (vat_vupd_ne _ _ hne)
  | bridge => rfl
  | dimm => rfl
  | expander => rfl

theorem offlinePart_recov (kind : PartKind) (num : Nat) (s : State) : (offlinePart kind num s).recov = s.recov := by
  cases kind <;> rfl

/-! ### What a declared loss shows -/

section
variable {kind : PartKind} {num cause : Nat}

theorem LossDeclared.recov (h : LossDeclared kind num cause s t) : RecovsGoOn (lossNoted s (lossNow s kind num cause)).recov t.recov := by
  have h := h.rest.recov
  rwa [offlinePart_recov] at h

theorem LossDeclared.hold (h : LossDeclared kind num cause s t) : t.recov.hold = true := h.recov.hold

theorem LossDeclared.epoch (h : LossDeclared kind num cause s t) : t.recov.epoch = s.recov.epoch + 1 := h.recov.epoch

theorem LossDeclared.gone (h : LossDeclared kind num cause s t) : partLive t kind num = false :=
  h.rest.partLive (partLive_offlinePart ..)

/-- The recovery of the loss waits for its cut. -/
theorem LossDeclared.recovery (h : LossDeclared kind num cause s t)
    (hopen : ∀ r ∈ s.recov.active, r.cutPos = none ∨ r.epoch ≠ (s.recov.epoch + 1).toNat) :
    ∃ r ∈ t.recov.active, lossKey r = lossKey (lossNow s kind num cause) ∧ r.preLoss ⊆ (lossNow s kind num cause).preLoss := by
  refine h.recov.stays _ (List.mem_append_right _ List.mem_cons_self) ⟨rfl, fun x hx => ?_⟩
  rcases List.mem_append.1 hx with hx | hx
  · exact hopen x hx
  · rw [List.mem_singleton.1 hx]
    exact .inl rfl

theorem lossNow_preLoss {x : Nat} (hx : x ∈ (lossNow s kind num cause).preLoss) : ∃ c ∈ s.cmds, c.uid = x := by
  obtain ⟨c, hc, rfl⟩ := List.mem_map.1 hx
  exact ⟨c, (List.mem_filter.1 hc).1, rfl⟩

theorem LossDeclared.notDone (h : LossDeclared kind num cause s t)
    (hopen : ∀ r ∈ s.recov.active, r.cutPos = none ∨ r.epoch ≠ (s.recov.epoch + 1).toNat) : t.recov.done = false := by
  by_contra hd
  obtain ⟨r, hr, -⟩ := h.recovery hopen
  rcases h.recov.done (eq_true_of_ne_false hd) with he | he
  · cases he
  · rw [he] at hr
    cases hr

end

theorem LossDeclared.bridges {kind : PartKind} {num cause : Nat} (h : LossDeclared kind num cause s t) (hk : kind = .dimm ∨ kind = .expander) :
    t.brg.map (·.offline) = s.brg.map (·.offline) := by
  have hb : (offlinePart kind num (lossNoted s (lossNow s kind num cause))).brg = s.brg := by
    rcases hk with rfl | rfl <;> rfl
  ext1 b hlt
  rw [Vector.getElem_map, Vector.getElem_map]
  have hv := h.rest.bridges b
  rw [hb] at hv
  simpa [vat, Nat.mod_eq_of_lt hlt] using hv

/-- The slice is not the part. -/
theorem otherSlice {p : PartId} {k : Fin 17} (h : (partOf p).1 ≠ .slice ∨ k.val ≠ (partOf p).2) :
    (partOf p).1 ≠ .slice ∨ k.val % 17 ≠ (partOf p).2 % 17 := by
  cases p with
  | slice j =>
    refine h.imp id fun h => ?_
    rw [Nat.mod_eq_of_lt k.isLt]
    exact fun e => h (e.trans (Nat.mod_eq_of_lt j.isLt))
  | bridge b => exact .inl PartKind.noConfusion
  | dimm d => exact .inl PartKind.noConfusion
  | expander e => exact .inl PartKind.noConfusion

/-! ### PART_LOSS -/

theorem mayLose_supplies (h : mayLose s = true) : s.sys.state ≠ .cold ∧ s.sys.state ≠ .halt := by
  unfold mayLose linksTraining at h
  constructor
  · intro hs
    simp [hs] at h
  · intro hs
    simp [hs] at h

theorem exec_partLoss {p : PartId} {cause : Nat} (hm : mayLose s = true) (hc : causeFits (partOf p).1 cause = true) :
    exec (.partLoss p cause) s = .next (partLoss (partOf p).1 (partOf p).2 cause s) := by
  change Host.Outcome.next (if mayLose s && causeFits (partOf p).1 cause then partLoss (partOf p).1 (partOf p).2 cause s else s) = _
  rw [hm, hc]
  rfl

theorem exec_partLoss_idle {p : PartId} {cause : Nat}
    (h : causeFits (partOf p).1 cause = false ∨ partLive s (partOf p).1 (partOf p).2 = false) : exec (.partLoss p cause) s = .next s := by
  change Host.Outcome.next (if mayLose s && causeFits (partOf p).1 cause then partLoss (partOf p).1 (partOf p).2 cause s else s) = .next s
  rcases h with h | h
  · rw [h, Bool.and_false, if_neg Bool.noConfusion]
  · rw [show partLoss (partOf p).1 (partOf p).2 cause s = s from if_pos (by rw [h]; simp), ite_self]

/-! ### RECOVERY_CUT -/

/-- What the cut does at once: HOLD clears, every recovery has its cut, S16 stands in, and the queues are marked. -/
def cutMade (s : State) : State :=
  { s with recov := { s.recov with hold := false, standin := standinFor s, mirrors := s.recov.mirrors.map (replaceMirrors s),
                                   active := s.recov.active.map fun r =>
                                     if r.cutPos.isNone then { r with cutPos := some (posOf s), notices := [] } else r },
           qs := s.qs.map fun Q => if Q.en then { Q with rmark := true } else Q }

/-- The sequences that follow a loss are due. -/
def sequencesDue (l : List SeqDue) (s : State) : State := { s with pmc := { s.pmc with due := s.pmc.due ++ l } }

theorem Filled.calm (h : Filled s t) : Calm s t := .rest (by
  unfold Filled at h
  rw [h])

theorem rebuildDefaults_calm (s : State) : Calm s (rebuildDefaults s) := by
  unfold rebuildDefaults
  split
  · exact .refl s
  · exact ((storeDefaults_filled ..).trans (storeDefaults_filled ..)).calm

/-- What follows the cut is the work of commands. -/
theorem recoveryCut_calm (s : State) : Calm (cutMade s) (recoveryCut s) := by
  have hdue (l : List SeqDue) (u : State) : Calm u (sequencesDue l u) := .rest rfl
  exact ((((hdue _ _).trans (rebuildDefaults_calm _)).trans (.foldl (fun _ _ => postNotice_calm ..) _ _)).trans (pumpAllKv_calm _)).trans
    ((kickFlail_calm _).trans (settleRecoveries_calm _))

theorem exec_recoveryCut (hh : s.recov.hold = true) (h1 : s.sys.state ≠ .halt) (h2 : s.sys.state ≠ .cold) (ht : tickSettled s = true) :
    exec .recoveryCut s = .next (recoveryCut s) :=
  congrArg Host.Outcome.next (if_pos (by simp [hh, h1, h2, ht]))

theorem standinFor_one {k : Nat} (hl : lostData s = [k]) (h16 : sliceLive s 16 = true) (hh : s.recov.huskLost = false) : standinFor s = some k := by
  unfold standinFor
  rw [hl]
  dsimp only
  rw [h16, hh]
  rfl

theorem standinFor_none (hl : lostData s = []) : standinFor s = none := by
  unfold standinFor
  rw [hl]

/-- Every recovery of the cut state has its cut. -/
theorem cutMade_closed {r : Recovery} (hr : r ∈ (cutMade s).recov.active) : r.cutPos.isSome = true := by
  obtain ⟨x, -, rfl⟩ := List.mem_map.1 hr
  split
  · rfl
  · rename_i h
    rwa [Option.isNone_iff_eq_none, ← ne_eq, Option.ne_none_iff_isSome] at h

theorem recoveryCut_queue (q : Nat) : (vat (recoveryCut s).qs q).en = (vat s.qs q).en ∧
    (vat (recoveryCut s).qs q).rmark = ((vat s.qs q).en || (vat s.qs q).rmark) := by
  have hq : vat (cutMade s).qs q = if (vat s.qs q).en then { vat s.qs q with rmark := true } else vat s.qs q := vat_map ..
  rw [(recoveryCut_calm s).qs q, hq]
  cases he : (vat s.qs q).en with
  | true => exact ⟨he, rfl⟩
  | false => exact ⟨he, rfl⟩

end

/-- Settles O42: a loss is noted before what goes with the part, which leaves the rest of the block as it is (`Weathered`), and what
follows the cut is the work of commands (`Calm`). -/
theorem partsAreLostAndRecovered : Obligations.PartsAreLostAndRecovered := by
  unfold Obligations.PartsAreLostAndRecovered
  refine ⟨fun s p cause hm hc hp hopen => ?_, fun s p cause => exec_partLoss_idle, fun s hh h1 h2 ht => ?_, fun s hh => ?_⟩
  · obtain ⟨hcold, hhalt⟩ := mayLose_supplies hm
    have h := partLoss_declared cause hcold hhalt hp
    obtain ⟨r, hr, hkey, hpre⟩ := h.recovery hopen
    obtain ⟨hepoch, hkind, hnum, hcause, hpos, hcut⟩ : r.epoch = (s.recov.epoch + 1).toNat ∧ r.kind = (partOf p).1 ∧ r.num = (partOf p).2 ∧
        r.cause = cause ∧ r.lossPos = posOf s ∧ r.cutPos = none := by simpa [lossKey, lossNow, newRecovery, posOf] using hkey
    refine ⟨_, exec_partLoss hm hc, h.hold, h.epoch, h.notDone hopen, h.gone, h.seen,
      ⟨r, hr, hkind, hnum, hcause, hepoch, hpos, hcut, fun x hx => lossNow_preLoss (hpre hx)⟩, fun hk => ?_, fun hk => ?_, fun k hk => ?_, fun hk => ?_⟩
    · exact h.state.resolve_right fun hb => hk hb.1
    · exact h.state.imp id And.right
    · rw [h.rest.sliceLive, sliceLive_offlinePart (otherSlice hk)]
      rfl
    · exact h.bridges hk
  · have h := recoveryCut_calm s
    refine ⟨_, exec_recoveryCut hh h1 h2 ht, h.recov.hold, fun r hr => ?_, fun q _ hq => ?_, fun q _ hq => ?_, fun k hl h16 hu => ?_, fun hl => ?_, ?_⟩
    · obtain ⟨x, hx, hkey, -⟩ := h.recov.origin r hr
      rw [lossKey_cutPos hkey]
      exact cutMade_closed hx
    · rw [(recoveryCut_queue q).1, (recoveryCut_queue q).2, hq]
      exact ⟨rfl, rfl⟩
    · rw [(recoveryCut_queue q).2, hq]
      rfl
    · rw [h.frame]
      exact standinFor_one hl h16 hu
    · rw [h.frame]
      exact standinFor_none hl
    · rw [h.frame]
      rfl
  · exact congrArg Host.Outcome.next (if_neg (by simp [hh]))

end Sys2Proof.Machine
end

section
/-!
PROOFS. Links come and go (sections 13.1, 13.6 and 13.7).
-/
namespace Sys2Proof.Machine

section
variable {s t : State}

/-! ### The port of a link -/

theorem port_lt_of_host {p : Nat} (h : portMode s p = .host) : p < 4 := by
  by_contra hp
  unfold portMode at h
  rw [if_neg hp] at h
  split at h
  · cases h
  split at h
  · cases h
  · cases h

theorem linksTraining_of_mayTrain {p : Nat} (h : mayTrain s p = true) : linksTraining s = true := by
  unfold mayTrain at h
  simp only [Bool.and_eq_true] at h
  exact h.1.1

theorem portUp_of_ports (h : t.ports = s.ports) (p : Nat) : portUp t p = portUp s p := by rw [portUp, portUp, h]

/-- A port goes down, and no other. -/
theorem portUp_portDown {p q : Nat} (hp : p < 8) (hq : q < 8) :
    portUp { s with ports := vupd s.ports p fun _ => resetPort } q = if q = p then false else portUp s q := by
  change (vat (vupd s.ports p fun _ => resetPort) q).up = _
  rw [vat_vupd, Nat.mod_eq_of_lt hp, Nat.mod_eq_of_lt hq]
  by_cases h : q = p
  · rw [if_pos h.symm, if_pos h]
    rfl
  · rw [if_neg (Ne.symm h), if_neg h]
    rfl

/-! ### HOST_LINK_UP (R498, R515) -/

/-- A link that has trained as `l` is up. -/
def linkUp (l : LinkTrained 4) (s : State) : State := watchOrphan { s with ports := vupd s.ports l.port.val (linkedPort l) }

theorem exec_hostLinkUp {l : LinkTrained 4} (hm : portMode s l.port = .host) (ht : mayTrain s l.port = true) (hd : portUp s l.port = false)
    (ha : linkAllowed .host l = true) (he : s.sys.state = .orphanHold → epochDue s = false) :
    exec (.hostLinkUp l) s = .next (if s.sys.state = .orphanHold then
      enterState (if s.sys.lossSeen then .degraded else s.sys.prior) 0x12 0 (linkUp l s) else linkUp l s) := by
  refine congrArg Host.Outcome.next ?_
  have hdue : (s.sys.state == .orphanHold && epochDue s) = false := by
    rw [Bool.and_eq_false_iff]
    by_cases h : s.sys.state = .orphanHold
    · exact .inr (he h)
    · exact .inl (by simpa using h)
  rw [if_neg (by simp [hm, ht, hd]), if_neg (by simp [ha]), if_pos (by rw [hdue]; rfl)]
  change (if (linkUp l s).sys.state == .orphanHold then
    enterState (if s.sys.lossSeen then .degraded else s.sys.prior) 0x12 0 (linkUp l s) else linkUp l s) = _
  by_cases h : s.sys.state = .orphanHold
  · rw [if_pos h, if_pos (show ((linkUp l s).sys.state == .orphanHold) = true from beq_iff_eq.2 h)]
  · rw [if_neg h, if_neg (show ¬ ((linkUp l s).sys.state == .orphanHold) = true from fun e => h (beq_iff_eq.1 e))]

/-- Its port being a host's, some host port is up. -/
theorem linkUp_orphanSince {l : LinkTrained 4} (hm : portMode s l.port = .host) : (linkUp l s).orphanSince = none := by
  refine if_neg ?_
  have hup : portUp { s with ports := vupd s.ports l.port.val (linkedPort l) } l.port.val = true :=
    congrArg Port.up (vat_vupd_self s.ports l.port.val (linkedPort l))
  have hm : portMode { s with ports := vupd s.ports l.port.val (linkedPort l) } l.port.val = .host := hm
  unfold noHostUp
  rw [List.all_eq_true]
  intro h
  have h := h l.port.val (List.mem_range.2 l.port.isLt)
  rw [hup, hm] at h
  cases h

theorem linkUp_ports {l : LinkTrained 4} : vat (linkUp l s).ports l.port = linkedPort l (vat s.ports l.port) ∧
    ∀ q < 8, q ≠ l.port.val → vat (linkUp l s).ports q = vat s.ports q := by
  refine ⟨vat_vupd_self .., fun q hq hne => vat_vupd_ne _ _ ?_⟩
  have hl := l.port.isLt
  omega

/-! ### Links that go down or cannot train -/

theorem exec_hostLinkDown {p : Fin 4} (hm : portMode s p = .host) (hu : portUp s p = true) : exec (.hostLinkDown p) s = .next (hostDown p s) :=
  congrArg Host.Outcome.next (if_pos (by simp [hm, hu]))

/-- A host port that goes down stays down, and its functions are reset. -/
theorem hostDown_spec {p : Nat} (hp : p < 8) (s : State) : portUp (hostDown p s) p = false ∧
    ∀ f ∈ portFuncs s p, (vat (hostDown p s).funcs f).resetting = true := by
  obtain ⟨h1, h2⟩ := resetFuncs_steady (P := anyFunc) (portFuncs s p) (fun _ _ => trivial) 1
    { s with ports := vupd s.ports p fun _ => resetPort }
  have e : hostDown p s = watchOrphan (resetFuncs (portFuncs s p) 1 { s with ports := vupd s.ports p fun _ => resetPort }) := rfl
  rw [e]
  generalize resetFuncs (portFuncs s p) 1 _ = u at h1 h2 ⊢
  refine ⟨?_, h2⟩
  have hdown := (portUp_portDown (s := s) hp hp).trans (if_pos rfl)
  by_contra h
  have h := h1.ports p (eq_true_of_ne_false h)
  rw [show (vat (vupd s.ports p fun _ => resetPort) p).up = false from hdown] at h
  cases h

theorem trainFail_down {p : Nat} (hp : p < 4) (hd : portUp s p = false) :
    trainFail p s = raiseEvent evLinkTrainFail (source (dieB (p / 2)) 0) p s := by
  unfold trainFail
  dsimp only
  rw [if_pos hp, portUp_of_ports raiseEvent_ports, hd]
  rfl

/-- What the failure or the loss of a peer's link leaves. -/
structure PeerStays (s t : State) : Prop where
  sys : t.sys = s.sys
  mem : t.mem = s.mem
  cmds : t.cmds = s.cmds
  qs : t.qs = s.qs

theorem PeerStays.trans {a b c : State} (h1 : PeerStays a b) (h2 : PeerStays b c) : PeerStays a c :=
  ⟨h2.sys.trans h1.sys, h2.mem.trans h1.mem, h2.cmds.trans h1.cmds, h2.qs.trans h1.qs⟩

theorem raiseEvent_peerStays (t a b : Nat) (s : State) : PeerStays s (raiseEvent t a b s) := by
  rw [raiseEvent_frame]
  exact ⟨rfl, rfl, rfl, rfl⟩

theorem peerDown_peerStays (p : Nat) (s : State) : PeerStays s (peerDown p s) := by
  refine PeerStays.trans ?_ (raiseEvent_peerStays ..)
  exact ⟨rfl, rfl, rfl, rfl⟩

theorem portUp_peerDown {p q : Nat} (hp : p < 8) (hq : q < 8) : portUp (peerDown p s) q = if q = p then false else portUp s q :=
  (portUp_of_ports raiseEvent_ports q).trans (portUp_portDown hp hq)

/-- A peer's link that cannot train is down. -/
theorem trainFail_peer {p : Nat} (hp : p < 8) (hm : portMode s p = .peer) : portUp (trainFail p s) p = false ∧ PeerStays s (trainFail p s) := by
  unfold trainFail
  extract_lets m s1
  have h1 : PeerStays s s1 := raiseEvent_peerStays ..
  have hm : m = .peer := hm
  split
  case isTrue h => exact ⟨by simpa using h, h1⟩
  case isFalse =>
    rw [hm, if_neg (by decide), portUp_peerDown hp hp, if_pos rfl]
    exact ⟨rfl, h1.trans (peerDown_peerStays ..)⟩

end

/-- Settles O17: each row on its port, the reset of a port's functions as the loss of a part has it (`Steady`), and what an event
leaves. -/
theorem linksComeAndGo : Obligations.LinksComeAndGo := by
  unfold Obligations.LinksComeAndGo
  refine fun s => ⟨fun l hm ht hd ha he => ?_, fun l hm ht hd ha => ?_, fun p hm hu => exec_hostLinkDown hm hu, fun p hm hu => ?_,
    fun l hm ht ha => ?_, fun p hm hu => ?_, fun p ht hm => ?_, fun p ht hm hd => ?_⟩
  · refine ⟨_, exec_hostLinkUp hm ht hd ha he, ?_⟩
    obtain ⟨hp1, hp2⟩ := linkUp_ports (s := s) (l := l)
    have ho := linkUp_orphanSince (s := s) (l := l) hm
    by_cases h : s.sys.state = .orphanHold
    · have hpba := enterState_pbaOnly (if s.sys.lossSeen then .degraded else s.sys.prior) 0x12 0 (linkUp l s)
      rw [if_pos h, if_pos h, enterState_ports, enterState_orphanSince, enterState_mem, enterState_cmds, enterState_qs]
      refine ⟨hp1, hp2, ho, rfl, rfl, fun f _ => hpba.funcs f, rfl, ?_⟩
      rw [enterState_frame]
    · rw [if_neg h, if_neg h]
      exact ⟨hp1, hp2, ho, rfl, rfl, fun _ _ => rfl, rfl, rfl⟩
  · refine congrArg Host.Outcome.next ?_
    rw [if_neg (by simp [hm, ht, hd]), if_pos (by simp [ha])]
    exact trainFail_down l.port.isLt hd
  · obtain ⟨h1, h2⟩ := hostDown_spec (p := p) (by omega) s
    exact ⟨_, exec_hostLinkDown hm hu, h1, h2⟩
  · refine congrArg Host.Outcome.next ?_
    rw [if_neg (by simp [hm, ht]), if_neg (by simp [ha])]
  · have h := peerDown_peerStays p s
    refine ⟨_, congrArg Host.Outcome.next (if_pos (by simp [hm, hu])), ?_, fun q hq hne => ?_, h.sys, h.mem, h.cmds, h.qs⟩
    · rw [portUp_peerDown p.isLt p.isLt, if_pos rfl]
    · rw [portUp_peerDown p.isLt hq, if_neg hne]
  · obtain ⟨hd, h⟩ := trainFail_peer p.isLt hm
    exact ⟨_, congrArg Host.Outcome.next (if_neg (by simp [hm, ht])), hd, h.sys, h.mem, h.cmds, h.qs⟩
  · refine congrArg Host.Outcome.next ?_
    rw [if_neg (by simp [hm, ht])]
    exact trainFail_down (port_lt_of_host hm) hd

end Sys2Proof.Machine
end

section
/-!
PROOFS. Links are repaired or lost (sections 2.2, 2.3 and 17.3).
-/
namespace Sys2Proof.Machine

section
variable {s t : State}

/-! ### Modules (R47, R48, R77) -/

theorem exec_linkRepair {x : ModuleId} (ht : linksTraining s = true) (hu : moduleUp s x = true) : exec (.linkRepair x) s =
    .next (raiseEvent evLinkRepair (source (linkDie x) 0) (linkArg x) (onModule x (fun l => { l with repaired := l.repaired + 1 }) s)) :=
  congrArg Host.Outcome.next (if_pos (by rw [ht, hu]; rfl))

theorem exec_linkDegraded {x : ModuleId} (hm : mayLose s = true) (hu : moduleUp s x = true) :
    exec (.linkDegraded x) s = .next (loseModule x s) := congrArg Host.Outcome.next (if_pos (by rw [hm, hu]; rfl))

theorem moduleUp_of_links (h : t.links = { s.links with detour := t.links.detour }) (x : ModuleId) : moduleUp t x = moduleUp s x := by
  cases x <;> rw [moduleUp, moduleUp, h]

/-- The module of a slice link, before and after one of them changed. -/
theorem sliceModule_onModule (k : Fin 17) (b m : Fin 2) (g : LinkModule → LinkModule) (s : State) :
    vat (vat (onModule (.sliceLink k b m) g s).links.slice (2 * k.val + b.val)) m.val =
      g (vat (vat s.links.slice (2 * k.val + b.val)) m.val) := by
  change vat (vat (vupd s.links.slice (2 * k.val + b.val) fun l => vupd l m.val g) (2 * k.val + b.val)) m.val = _
  rw [vat_vupd_self, vat_vupd_self]

theorem ringModule_onModule (k : Fin 17) (g : LinkModule → LinkModule) (s : State) :
    vat (onModule (.ringHop k) g s).links.ring k.val = g (vat s.links.ring k.val) := vat_vupd_self ..

theorem moduleUp_onModule (x : ModuleId) {g : LinkModule → LinkModule} {u : Bool} (hg : ∀ l, (g l).up = u) (s : State) :
    moduleUp (onModule x g s) x = u := by
  cases x with
  | sliceLink k b m => exact (congrArg LinkModule.up (sliceModule_onModule ..)).trans (hg _)
  | ringHop k => exact (congrArg LinkModule.up (ringModule_onModule ..)).trans (hg _)

/-- Only links differ. -/
theorem onModule_links (x : ModuleId) (g : LinkModule → LinkModule) (s : State) : ∃ l, onModule x g s = { s with links := l } := by
  cases x <;> exact ⟨_, rfl⟩

/-- A module is lost, and the detours follow. -/
def moduleDown (x : ModuleId) (s : State) : State := checkDetours (onModule x (fun l => { l with up := false }) s)

theorem moduleDown_links (x : ModuleId) (s : State) : ∃ l, moduleDown x s = { s with links := l } := by
  obtain ⟨l, h⟩ := onModule_links x (fun l => { l with up := false }) s
  exact ⟨_, by rw [moduleDown, h]; rfl⟩

theorem checkDetours_links (s : State) : (checkDetours s).links = { s.links with detour := (checkDetours s).links.detour } := by
  rw [checkDetours]

theorem moduleUp_moduleDown (x : ModuleId) (s : State) : moduleUp (moduleDown x s) x = false := by
  have h : moduleUp (onModule x (fun l => { l with up := false }) s) x = false :=
    moduleUp_onModule x (g := fun l => { l with up := false }) (fun _ => rfl) s
  unfold moduleDown
  rw [moduleUp_of_links (checkDetours_links (onModule x (fun l => { l with up := false }) s)), h]

/-- A slice's links carry traffic as before when a ring hop is lost. -/
theorem sliceLinkUp_hopDown (k : Fin 17) (j b : Nat) (s : State) : sliceLinkUp (moduleDown (.ringHop k) s) j b = sliceLinkUp s j b := rfl

theorem detourFor_eq (s : State) (k : Nat) : detourFor s k =
    if sliceLinkUp s k 0 = true ∧ sliceLinkUp s ((k + 1) % 17) 0 = true then .viaB0 else .viaB1 := by
  unfold detourFor routeBridge
  cases sliceLinkUp s k 0 <;> cases sliceLinkUp s ((k + 1) % 17) 0 <;> rfl

theorem loseHop_spec (k : Fin 17) (s : State) : let t := loseHop k.val (moduleDown (.ringHop k) s)
    moduleUp t (.ringHop k) = false ∧ t.sys = s.sys ∧ t.slices = s.slices ∧ vat t.links.detour k.val = detourFor s k.val := by
  have hd : detourFor (moduleDown (.ringHop k) s) k.val = detourFor s k.val := rfl
  have hmod := moduleUp_moduleDown (.ringHop k) s
  obtain ⟨l, hl⟩ := moduleDown_links (.ringHop k) s
  have hsys : (moduleDown (.ringHop k) s).sys = s.sys := by rw [hl]
  have hslices : (moduleDown (.ringHop k) s).slices = s.slices := by rw [hl]
  rw [← hd, ← hsys, ← hslices]
  generalize moduleDown (.ringHop k) s = u at hmod
  unfold loseHop
  dsimp only
  rw [raiseEvent_sys, raiseEvent_slices, raiseEvent_links]
  refine ⟨?_, rfl, rfl, vat_vupd_self ..⟩
  rw [← hmod, moduleUp, moduleUp, raiseEvent_links]

/-- The other module of a slice link. -/
theorem otherModule {v : Vector LinkModule 2} {m m' : Fin 2} (hne : m ≠ m') (hm : (vat v m.val).up = false) :
    ((vat v 0).up || (vat v 1).up) = (vat v m'.val).up := by
  have hcases : m.val = 0 ∧ m'.val = 1 ∨ m.val = 1 ∧ m'.val = 0 := by omega
  rcases hcases with ⟨h0, h1⟩ | ⟨h0, h1⟩
  · rw [h0] at hm
    rw [h1, hm, Bool.false_or]
  · rw [h0] at hm
    rw [h1, hm, Bool.or_false]

/-! ### A slice that is lost, and its links -/

theorem LossDeclared.slice {num cause : Nat} (h : LossDeclared .slice num cause s t) :
    sliceLive t num = false ∧ t.recov.hold = true ∧ t.recov.epoch = s.recov.epoch + 1 := ⟨h.gone, h.hold, h.epoch⟩

theorem offlinePart_links (kind : PartKind) (num : Nat) (s : State) : (offlinePart kind num s).links = s.links := by cases kind <;> rfl

theorem LossDeclared.links {kind : PartKind} {num cause : Nat} (h : LossDeclared kind num cause s t) :
    t.links = { s.links with detour := t.links.detour } := by
  have h := h.rest.links
  rwa [offlinePart_links] at h

theorem partLoss_idle {kind : PartKind} {num : Nat} (cause : Nat)
    (h : s.sys.state = .cold ∨ s.sys.state = .halt ∨ partLive s kind num = false) : partLoss kind num cause s = s := by
  refine if_pos ?_
  rcases h with h | h | h <;> simp [h]

/-- A part that is lost takes none of the links. -/
theorem partLoss_links (kind : PartKind) (num cause : Nat) (s : State) :
    (partLoss kind num cause s).links = { s.links with detour := (partLoss kind num cause s).links.detour } := by
  by_cases h : s.sys.state = .cold ∨ s.sys.state = .halt ∨ partLive s kind num = false
  · rw [partLoss_idle cause h]
  · obtain ⟨hc, hh, hl⟩ : s.sys.state ≠ .cold ∧ s.sys.state ≠ .halt ∧ partLive s kind num = true := by simpa using h
    exact (partLoss_declared cause hc hh hl).links

/-- A slice link loses a module: it is degraded, or the slice is lost with the last one (R48). -/
theorem loseModule_sliceLink {k : Fin 17} {b m m' : Fin 2} (hne : m ≠ m') (s : State) : loseModule (.sliceLink k b m) s =
    if moduleUp s (.sliceLink k b m') = true then
      raiseEvent evLinkDegraded (source (linkDie (.sliceLink k b m)) 0) (linkArg (.sliceLink k b m)) (moduleDown (.sliceLink k b m) s)
    else partLoss .slice k.val 5 (moduleDown (.sliceLink k b m) s) := by
  have hm' : moduleUp (moduleDown (.sliceLink k b m) s) (.sliceLink k b m') = moduleUp s (.sliceLink k b m') := by
    have hv : m.val % 2 ≠ m'.val % 2 := by omega
    unfold moduleDown
    rw [moduleUp_of_links (checkDetours_links _)]
    change (vat (vat (vupd s.links.slice (2 * k.val + b.val) fun l => vupd l m.val _) (2 * k.val + b.val)) m'.val).up = _
    rw [vat_vupd_self, vat_vupd_ne _ _ hv]
    rfl
  have hlink := otherModule hne (moduleUp_moduleDown (.sliceLink k b m) s)
  rw [show (vat (vat (moduleDown (.sliceLink k b m) s).links.slice (2 * k.val + b.val)) m'.val).up = _ from hm'] at hlink
  change (if ((vat (vat (moduleDown (.sliceLink k b m) s).links.slice (2 * k.val + b.val)) 0).up ||
      (vat (vat (moduleDown (.sliceLink k b m) s).links.slice (2 * k.val + b.val)) 1).up) = true then _ else _) = _
  rw [hlink]
  rfl

/-! ### The management ring (R53) -/

/-- Segments that have failed. -/
def segmentsDown (s : State) : Nat := s.links.mgmt.toList.countP fun up => !up

/-- A segment fails. -/
def segmentDown (i : Nat) (s : State) : State := { s with links := { s.links with mgmt := vupd s.links.mgmt i fun _ => false } }

theorem vat_of_lt {α : Type} {n : Nat} [NeZero n] (v : Vector α n) {i : Nat} (h : i < n) : vat v i = v[i] := by
  simp [vat, Nat.mod_eq_of_lt h]

theorem segmentsDown_segmentDown {i : Fin 20} (h : vat s.links.mgmt i.val = true) :
    segmentsDown (segmentDown i s) = segmentsDown s + 1 := by
  have hi : Fin.ofNat 20 i.val = i := Fin.ext (Nat.mod_eq_of_lt i.isLt)
  have hget : s.links.mgmt.toList[i.val]'(by simp) = true := by
    rw [Vector.getElem_toList, ← vat_of_lt _ i.isLt]
    exact h
  change ((s.links.mgmt.set (Fin.ofNat 20 i.val) false).toList.countP fun up => !up) = _
  rw [Vector.toList_set, List.countP_set (by simp)]
  simp only [hi, hget]
  rfl

/-- No segment had failed. -/
theorem segmentsDown_zero (h : ∀ j < 20, vat s.links.mgmt j = true) : segmentsDown s = 0 := by
  unfold segmentsDown
  rw [List.countP_eq_zero]
  intro x hx
  obtain ⟨j, hj, rfl⟩ := List.getElem_of_mem hx
  have hj : j < 20 := by simpa using hj
  have h := h j hj
  rw [vat_of_lt _ hj] at h
  rw [Vector.getElem_toList]
  simpa using h

theorem segmentsDown_pos {j : Nat} (h : vat s.links.mgmt j = false) : 0 < segmentsDown s := by
  unfold segmentsDown
  rw [List.countP_pos_iff]
  exact ⟨vat s.links.mgmt j, Vector.mem_toList_iff.2 (Vector.getElem_mem _), by rw [h]; rfl⟩

/-- A die that the management ring does not reach is lost. -/
def dieLost (s : State) (die : Nat) : State :=
  if dieReached s die then s else if die ≤ 0x10 then partLoss .slice die 0x10 s else partLoss .bridge die 0x10 s

/-- The dies around the management ring, but for the control die. -/
def ringDies : List Nat := (List.range 19).map fun j => mgmtDie (j + 1)

theorem loseSegment_eq (i : Nat) (s : State) : loseSegment i s =
    if segmentsDown (segmentDown i s) = 1 then
      raiseEvent evMgmtRing (source dieC 0) (mgmtDie i + 256 * mgmtDie ((i + 1) % 20)) (segmentDown i s)
    else ringDies.foldl dieLost (segmentDown i s) := by
  rw [segmentsDown, List.countP_eq_length_filter]
  rfl

/-- The die's part is gone. -/
def dieGone (s : State) (die : Nat) : Bool :=
  if die ≤ 0x10 then !partLive s .slice die else !partLive s .bridge die

/-- Losses around the ring leave its segments, dies that have gone away, and HALT. -/
structure RingLosses (s t : State) : Prop where
  links : t.links = { s.links with detour := t.links.detour }
  gone : ∀ d, dieGone s d = true → dieGone t d = true
  supplied : s.sys.state ≠ .cold → t.sys.state ≠ .cold
  halt : s.sys.state = .halt → t.sys.state = .halt

theorem RingLosses.refl (s : State) : RingLosses s s := ⟨rfl, fun _ => id, id, id⟩

theorem RingLosses.trans {a b c : State} (h1 : RingLosses a b) (h2 : RingLosses b c) : RingLosses a c :=
  ⟨by rw [h2.links, h1.links], fun d => h2.gone d ∘ h1.gone d, h2.supplied ∘ h1.supplied, h2.halt ∘ h1.halt⟩

theorem RingLosses.dieReached (h : RingLosses s t) (d : Nat) : dieReached t d = dieReached s d := by
  unfold Machine.dieReached
  rw [h.links]

theorem dieGone_eq (s : State) (d : Nat) : dieGone s d = if d ≤ 0x10 then (vat s.slices d).offline else (vat s.brg (d - 0x11)).offline := by
  unfold dieGone
  split
  · exact Bool.not_not _
  · exact Bool.not_not _

theorem dieGone_offlinePart {kind : PartKind} {num d : Nat} (h : dieGone s d = true) : dieGone (offlinePart kind num s) d = true := by
  rw [dieGone_eq] at h ⊢
  cases kind with
  | slice =>
    by_cases hd : d ≤ 0x10
    · rw [if_pos hd] at h ⊢
      exact vat_vupd_rel (R := fun a b : Slice => a.offline = true → b.offline = true) (fun _ => id) (fun _ _ => rfl) s.slices num d h
    · rw [if_neg hd] at h ⊢
      exact h
  | bridge =>
    by_cases hd : d ≤ 0x10
    · rw [if_pos hd] at h ⊢
      exact h
    · rw [if_neg hd] at h ⊢
      exact vat_vupd_rel (R := fun a b : Bridge => a.offline = true → b.offline = true) (fun _ => id) (fun _ _ => rfl) s.brg (num - 0x11) (d - 0x11) h
  | dimm => exact h
  | expander => exact h

theorem Weathered.dieGone {P : Nat → Prop} (h : Weathered P s t) (d : Nat) : dieGone t d = dieGone s d := by
  rw [dieGone_eq, dieGone_eq, h.slices d, h.bridges]

theorem partLoss_ringLosses (kind : PartKind) (num cause : Nat) (s : State) : RingLosses s (partLoss kind num cause s) := by
  by_cases h : s.sys.state = .cold ∨ s.sys.state = .halt ∨ partLive s kind num = false
  · rw [partLoss_idle cause h]
    exact .refl s
  · obtain ⟨hc, hh, hl⟩ : s.sys.state ≠ .cold ∧ s.sys.state ≠ .halt ∧ partLive s kind num = true := by simpa using h
    have hd := partLoss_declared cause hc hh hl
    refine ⟨hd.links, fun d hg => ?_, fun _ => ?_, fun h => absurd h hh⟩
    · rw [hd.rest.dieGone]
      exact dieGone_offlinePart hg
    · rcases hd.state with e | ⟨-, e⟩
      · rw [e]
        split
        · exact DevState.noConfusion
        · exact hc
      · rw [e]
        exact DevState.noConfusion

theorem dieLost_ringLosses (s : State) (d : Nat) : RingLosses s (dieLost s d) := by
  unfold dieLost
  split
  · exact .refl s
  split
  · exact partLoss_ringLosses ..
  · exact partLoss_ringLosses ..

/-- A part is gone once it has been declared lost in a device that has supplies and does not halt. -/
theorem partLive_partLoss {kind : PartKind} {num cause : Nat} (hc : s.sys.state ≠ .cold) (hh : s.sys.state ≠ .halt) :
    partLive (partLoss kind num cause s) kind num = false := by
  cases hl : partLive s kind num with
  | false =>
    rw [partLoss_idle cause (.inr (.inr hl))]
    exact hl
  | true => exact (partLoss_declared cause hc hh hl).gone

theorem dieGone_dieLost {d : Nat} (hc : s.sys.state ≠ .cold) (hh : s.sys.state ≠ .halt) (hr : dieReached s d = false) :
    dieGone (dieLost s d) d = true := by
  unfold dieLost dieGone
  rw [hr, if_neg (show ¬ false = true from Bool.noConfusion)]
  by_cases hd : d ≤ 0x10
  · rw [if_pos hd, if_pos hd, partLive_partLoss hc hh]
    rfl
  · rw [if_neg hd, if_neg hd, partLive_partLoss hc hh]
    rfl

/-- Every die of the list that is cut off is lost, unless the device halts. -/
theorem foldl_dieLost : ∀ (l : List Nat) (s : State), s.sys.state ≠ .cold → RingLosses s (l.foldl dieLost s) ∧
    ((l.foldl dieLost s).sys.state ≠ .halt → ∀ d ∈ l, dieReached s d = false → dieGone (l.foldl dieLost s) d = true)
  | [], s, _ => ⟨.refl s, fun _ d hd => by cases hd⟩
  | x :: l, s, hc => by
    have h1 := dieLost_ringLosses s x
    obtain ⟨h2, h3⟩ := foldl_dieLost l (dieLost s x) (h1.supplied hc)
    refine ⟨h1.trans h2, fun hh d hd hr => ?_⟩
    rcases List.mem_cons.1 hd with rfl | hd
    · exact h2.gone d (dieGone_dieLost hc (fun e => hh ((h1.trans h2).halt e)) hr)
    · exact h3 hh d hd ((h1.dieReached d).trans hr)

theorem mem_ringDies_slice (k : Fin 17) : k.val ∈ ringDies :=
  List.mem_map.2 ⟨k.val + 1, List.mem_range.2 (by omega), by simp [mgmtDie]; omega⟩

theorem mem_ringDies_bridge (b : Fin 2) : dieB b.val ∈ ringDies := by
  have h : ∀ b : Fin 2, dieB b.val ∈ ringDies := by decide
  exact h b

/-! ### Stack lanes (R653) -/

/-- Spare lanes left on a channel. -/
def lanesLeft (data : Bool) (k ch : Nat) (s : State) : Nat :=
  if data then vat (vat s.slices k).spareData ch else vat (vat s.slices k).spareCa ch

/-- A lane is repaired onto a spare. -/
def laneUsed (data : Bool) (ch : Nat) (S : Slice) : Slice :=
  if data then { S with spareData := vupd S.spareData ch (· - 1) } else { S with spareCa := vupd S.spareCa ch (· - 1) }

theorem laneUsed_spec (data : Bool) (ch : Nat) (S : Slice) : (laneUsed data ch S).offline = S.offline ∧
    (if data then vat (laneUsed data ch S).spareData ch else vat (laneUsed data ch S).spareCa ch) =
      (if data then vat S.spareData ch else vat S.spareCa ch) - 1 := by
  cases data with
  | true => exact ⟨rfl, vat_vupd_self ..⟩
  | false => exact ⟨rfl, vat_vupd_self ..⟩

theorem laneFail_repairs {k ch : Nat} {data : Bool} (h : lanesLeft data k ch s ≠ 0) : ∃ a b, laneFail k ch data s =
    raiseEvent evLaneRepair a b (onSlice k (laneUsed data ch) s) := ⟨_, _, if_neg h⟩

theorem laneFail_loses {k ch : Nat} {data : Bool} (h : lanesLeft data k ch s = 0) : laneFail k ch data s = partLoss .slice k 1 s := if_pos h

theorem laneFail_spec {k ch : Nat} {data : Bool} (h : lanesLeft data k ch s ≠ 0) : let t := laneFail k ch data s
    lanesLeft data k ch t = lanesLeft data k ch s - 1 ∧ sliceLive t k = sliceLive s k ∧ t.sys = s.sys ∧ t.mem = s.mem ∧ t.recov = s.recov := by
  obtain ⟨a, b, e⟩ := laneFail_repairs h
  obtain ⟨hoff, hleft⟩ := laneUsed_spec data ch (vat s.slices k)
  have hslice : vat (laneFail k ch data s).slices k = laneUsed data ch (vat s.slices k) := by
    rw [e, raiseEvent_slices]
    exact vat_vupd_self ..
  refine ⟨?_, ?_, ?_, ?_, ?_⟩
  · rw [lanesLeft, hslice]
    exact hleft
  · rw [sliceLive, hslice, hoff]
    rfl
  · rw [e, raiseEvent_sys]
    rfl
  · rw [e, raiseEvent_mem]
    rfl
  · rw [e, raiseEvent_recov]
    rfl

end

/-- Settles O43: a lost module, a failed segment and a stack without a spare lane, by what the loss of a part leaves
(`LossDeclared`), and by an induction over the dies around the management ring. -/
theorem linksAreRepairedOrLost : Obligations.LinksAreRepairedOrLost := by
  unfold Obligations.LinksAreRepairedOrLost
  refine ⟨fun s x ht hu => ?_, fun s k hm hu => ?_, fun s k b m m' hne hm hu => ?_, fun s i hm hu => ?_, fun s k ch data hm hl => ?_⟩
  · obtain ⟨l, hl⟩ := onModule_links x (fun l => { l with repaired := l.repaired + 1 }) s
    have hup : moduleUp (onModule x (fun l => { l with repaired := l.repaired + 1 }) s) x = true := by
      cases x with
      | sliceLink k b m => exact (congrArg LinkModule.up (sliceModule_onModule ..)).trans hu
      | ringHop k => exact (congrArg LinkModule.up (ringModule_onModule ..)).trans hu
    refine ⟨_, exec_linkRepair ht hu, ?_, ?_, ?_, ?_, ?_, ?_⟩
    · rw [moduleUp_of_links (s := onModule x _ s) (by rw [raiseEvent_links])]
      exact hup
    · rw [raiseEvent_mem, hl]
    · rw [raiseEvent_cmds, hl]
    · rw [raiseEvent_slices, hl]
    · rw [raiseEvent_brg, hl]
    · rw [raiseEvent_links]
      cases x with
      | sliceLink k b m => exact congrArg LinkModule.repaired (sliceModule_onModule ..)
      | ringHop k => exact congrArg LinkModule.repaired (ringModule_onModule ..)
  · obtain ⟨h1, h2, h3, h4⟩ := loseHop_spec k s
    exact ⟨_, exec_linkDegraded hm hu, h1, h2, h3, h4.trans (detourFor_eq s k)⟩
  · obtain ⟨hcold, hhalt⟩ := mayLose_supplies hm
    have hdown := moduleUp_moduleDown (.sliceLink k b m) s
    obtain ⟨l, hlinks⟩ := moduleDown_links (.sliceLink k b m) s
    have hsys : (moduleDown (.sliceLink k b m) s).sys = s.sys := by rw [hlinks]
    have hrecov : (moduleDown (.sliceLink k b m) s).recov = s.recov := by rw [hlinks]
    have hslices : (moduleDown (.sliceLink k b m) s).slices = s.slices := by rw [hlinks]
    refine ⟨_, exec_linkDegraded hm hu, ?_, fun hu' => ?_, fun hu' hl => ?_⟩
    · rw [loseModule_sliceLink hne]
      split
      · rw [moduleUp_of_links (s := moduleDown (.sliceLink k b m) s) (by rw [raiseEvent_links])]
        exact hdown
      · rw [moduleUp_of_links (partLoss_links ..)]
        exact hdown
    · rw [loseModule_sliceLink hne, if_pos hu', raiseEvent_sys, raiseEvent_slices, raiseEvent_recov]
      exact ⟨hsys, hslices, hrecov⟩
    · rw [loseModule_sliceLink hne, if_neg (by rw [hu']; exact Bool.noConfusion), ← hrecov]
      exact (partLoss_declared 5 (by rw [hsys]; exact hcold) (by rw [hsys]; exact hhalt) (by
        rw [partLive, sliceLive, hslices]
        exact hl)).slice
  · obtain ⟨hcold, hhalt⟩ := mayLose_supplies hm
    have hcount := segmentsDown_segmentDown hu
    obtain ⟨hring, hgone⟩ := foldl_dieLost ringDies (segmentDown i s) hcold
    have hdown : vat (segmentDown i s).links.mgmt i.val = false := vat_vupd_self ..
    refine ⟨_, congrArg Host.Outcome.next (if_pos (by rw [hm, hu]; rfl)), ?_, fun hall => ?_, fun hh hsome => ?_⟩
    · rw [loseSegment_eq]
      split
      · rw [raiseEvent_links]
        exact hdown
      · rw [hring.links]
        exact hdown
    · rw [loseSegment_eq, if_pos (by rw [hcount, segmentsDown_zero hall]), raiseEvent_sys, raiseEvent_slices, raiseEvent_brg, raiseEvent_recov]
      exact ⟨rfl, rfl, rfl, rfl⟩
    · obtain ⟨j, -, hj⟩ := hsome
      have hpos := segmentsDown_pos hj
      have e : loseSegment i.val s = ringDies.foldl dieLost (segmentDown i s) := by
        rw [loseSegment_eq, if_neg (by omega)]
      rw [e] at hh ⊢
      refine ⟨fun k hr => ?_, fun b hr => ?_⟩
      · have hg := hgone hh k (mem_ringDies_slice k) ((hring.dieReached k).symm.trans hr)
        rw [dieGone_eq, if_pos (by omega)] at hg
        rw [sliceLive, hg]
        rfl
      · have hg := hgone hh (dieB b) (mem_ringDies_bridge b) ((hring.dieReached _).symm.trans hr)
        rw [dieGone_eq, if_neg (by unfold dieB; omega)] at hg
        rwa [show dieB b.val - 0x11 = b.val by unfold dieB; omega] at hg
  · obtain ⟨hcold, hhalt⟩ := mayLose_supplies hm
    refine ⟨_, congrArg Host.Outcome.next (if_pos (by rw [hm, hl]; rfl)), fun hleft => ?_, fun hleft => ?_⟩
    · obtain ⟨h1, h2, h3⟩ := laneFail_spec (k := k.val) (ch := ch.val) (data := data) hleft
      exact ⟨h1, h2.trans hl, h3⟩
    · rw [laneFail_loses hleft]
      exact (partLoss_declared (kind := .slice) 1 hcold hhalt hl).slice

end Sys2Proof.Machine
end

section
/-!
PROOFS. Errors are counted and contained: the patrol scrub and the expanders' event records (chapter 17).
-/
namespace Sys2Proof.Machine

section
variable {s t : State}

/-! ### Poison -/

theorem mem_addPoison (da : Nat) (s : State) : da ∈ (addPoison da s).poison := by
  unfold addPoison
  dsimp only
  split
  · exact List.contains_iff_mem.1 ‹_›
  · exact (mem_sortBy _).2 List.mem_cons_self

/-- Only poison, and what tells of it, differs. -/
structure OnlyTold (s t : State) : Prop where
  rest : t = { s with jr := t.jr, funcs := t.funcs, out := t.out, cnt := t.cnt }

theorem OnlyTold.refl (s : State) : OnlyTold s s := ⟨rfl⟩

theorem memUe_told (die unit addr missed : Nat) (b : Bool) (s : State) : OnlyTold s (memUe die unit addr missed b s) := ⟨logError_frame⟩

theorem told_if {c : Prop} [Decidable c] {die unit addr missed : Nat} {b : Bool} :
    OnlyTold s (if c then memUe die unit addr missed b s else s) := by
  split
  · exact memUe_told ..
  · exact .refl s

/-! ### An atom of a stack (R649, R757) -/

/-- The slice counts an uncorrectable read of a channel. -/
def stackUeCounted (ch n : Nat) (tell : Bool) (S : Slice) : Slice :=
  { S with ue := sat16 S.ue, ueBeat := vupd S.ueBeat ch fun _ => n, ueMissed := vupd S.ueMissed ch fun m => if tell then 0 else m + 1 }

/-- An uncorrectable atom is counted, and marked where it cannot be rebuilt; the slice may be lost for it. -/
theorem stackUe_spec (k off : Nat) (s : State) : ∃ v g, stackUe k off s =
      (if reservedTop off ∨ 64 < vat (vat s.slices k).ueBeat (channelOf off) + 1 then partLoss .slice k 4 v else v) ∧
    OnlyTold (onSlice k g (if repairable s k off then s else addPoison (stackDa k off) s)) v ∧
    ∀ S : Slice, (g S).scrub = S.scrub ∧ (g S).ue = sat16 S.ue ∧ (g S).offline = S.offline := by
  have hsl : (if repairable s k off then s else addPoison (stackDa k off) s).slices = s.slices := by
    split <;> rfl
  unfold stackUe
  extract_lets ch fix s1 n missed tell s2 s3
  have hn : n = vat (vat s.slices k).ueBeat (channelOf off) + 1 := by
    unfold n
    rw [show s1.slices = s.slices from hsl]
  refine ⟨s3, stackUeCounted ch n tell, ?_, told_if, fun S => ⟨rfl, rfl, rfl⟩⟩
  rw [← hn]

/-- What an uncorrectable atom of a live slice leaves of it. -/
structure StackUe (k off : Nat) (s t : State) : Prop where
  scrub : (vat t.slices k).scrub = (vat s.slices k).scrub
  ue : (vat t.slices k).ue = sat16 (vat s.slices k).ue
  marked : repairable s k off = false → reservedTop off = false → vat (vat s.slices k).ueBeat (channelOf off) < 64 → stackDa k off ∈ t.poison
  rebuilt : repairable s k off = true → reservedTop off = false → vat (vat s.slices k).ueBeat (channelOf off) < 64 →
    t.poison = s.poison ∧ t.mem = s.mem
  kept : reservedTop off = false → vat (vat s.slices k).ueBeat (channelOf off) < 64 → sliceLive t k = sliceLive s k ∧ t.sys = s.sys
  lost : reservedTop off = true ∨ 64 ≤ vat (vat s.slices k).ueBeat (channelOf off) → sliceLive t k = false ∧ t.recov.hold = true

theorem stackUe_stackUe {k off : Nat} (hc : s.sys.state ≠ .cold) (hh : s.sys.state ≠ .halt) (hl : sliceLive s k = true) :
    StackUe k off s (stackUe k off s) := by
  obtain ⟨v, g, e, hv, hg⟩ := stackUe_spec k off s
  obtain ⟨hscrub, hue, hoff⟩ := hg (vat s.slices k)
  have hrest := hv.rest
  have hslice : vat v.slices k = g (vat s.slices k) := by
    rw [hrest]
    have hsl : (if repairable s k off then s else addPoison (stackDa k off) s).slices = s.slices := by
      split <;> rfl
    change vat (vupd (if repairable s k off then s else addPoison (stackDa k off) s).slices k g) k = _
    rw [vat_vupd_self, hsl]
  have hsys : v.sys = s.sys := by
    rw [hrest]
    change (if repairable s k off then s else addPoison (stackDa k off) s).sys = _
    split <;> rfl
  have hlive : sliceLive v k = sliceLive s k := by
    rw [sliceLive, hslice, hoff]
    rfl
  have hless : reservedTop off = false → vat (vat s.slices k).ueBeat (channelOf off) < 64 → stackUe k off s = v := fun hr hn => by
    rw [e, if_neg]
    rw [hr]
    exact fun h => h.elim Bool.noConfusion fun h => by omega
  have hmore : reservedTop off = true ∨ 64 ≤ vat (vat s.slices k).ueBeat (channelOf off) →
      LossDeclared .slice k 4 v (stackUe k off s) := fun h => by
    rw [e, if_pos (h.imp id fun h => by omega)]
    exact partLoss_declared 4 (by rwa [hsys]) (by rwa [hsys]) (hlive.trans hl)
  have hall : ∃ o c, vat (stackUe k off s).slices k = { vat v.slices k with offline := o, chNow := c } := by
    by_cases h : reservedTop off = true ∨ 64 ≤ vat (vat s.slices k).ueBeat (channelOf off)
    · have hs := (hmore h).rest.slices k
      rw [show vat (offlinePart .slice k (lossNoted v (lossNow v .slice k 4))).slices k = { vat v.slices k with offline := true } from
        vat_vupd_self ..] at hs
      exact ⟨true, _, hs⟩
    · rw [hless (by simpa using fun hr => h (.inl hr)) (by omega)]
      exact ⟨(vat v.slices k).offline, (vat v.slices k).chNow, rfl⟩
  obtain ⟨o, c, hall⟩ := hall
  refine ⟨?_, ?_, fun hf hr hn => ?_, fun hf hr hn => ?_, fun hr hn => ?_, fun h => ⟨(hmore h).gone, (hmore h).hold⟩⟩
  · rw [hall, hslice]
    exact hscrub
  · rw [hall, hslice]
    exact hue
  · rw [hless hr hn, hrest, hf]
    exact mem_addPoison ..
  · rw [hless hr hn, hrest, hf]
    exact ⟨rfl, rfl⟩
  · rw [hless hr hn]
    exact ⟨hlive, hsys⟩

/-- The scrub's place does not say whether an atom can be rebuilt. -/
theorem repairable_onSlice {k off : Nat} {g : Slice → Slice} (hg : ∀ S, (g S).offline = S.offline) :
    repairable (onSlice k g s) k off = repairable s k off := by
  have hl (j : Nat) : sliceLive (onSlice k g s) j = sliceLive s j :=
    vat_vupd_rel (R := fun a b : Slice => (!b.offline) = !a.offline) (fun _ => rfl) (fun S => by rw [hg S]) s.slices k j
  unfold repairable lostData protectedTable
  simp only [hl]
  rfl

/-! ### An access of a far part (R662, R663, R667, R668) -/

/-- A far part counts an uncorrectable access. -/
structure FarUe (x y : FarPart) : Prop where
  scrub : y.scrub = x.scrub
  ue : y.ue = sat16 x.ue
  lost : y.lost = x.lost

/-- An uncorrectable access has been counted, marked and told. -/
structure FarUeNoted (kind : PartKind) (num da : Nat) (s v : State) : Prop where
  sys : v.sys = s.sys
  marked : da ∈ v.poison
  live : partLive v kind num = partLive s kind num

theorem farUe_dimm (num da : Nat) (s : State) : ∃ v, farUe .dimm num da s =
      (if 64 < (vat s.dimms num).ueBeat + 1 then partLoss .dimm num 0x16 v else v) ∧
    FarUeNoted .dimm num da s v ∧ FarUe (vat s.dimms num) (vat v.dimms num) := by
  unfold farUe
  extract_lets p n tell g s1 s2 s3
  have h3 : OnlyTold s2 s3 := told_if
  have hd : vat s3.dimms num = g (vat s.dimms num) := by
    rw [h3.rest]
    exact vat_vupd_self ..
  refine ⟨s3, rfl, ⟨?_, ?_, ?_⟩, ?_⟩
  · rw [h3.rest]
    rfl
  · rw [h3.rest]
    exact mem_addPoison ..
  · rw [partLive, hd, h3.rest]
    rfl
  · rw [hd]
    exact ⟨rfl, rfl, rfl⟩

theorem farUe_expander (num da : Nat) (s : State) : ∃ v, farUe .expander num da s =
      (if 64 < (vat s.cxl (num - 4)).ueBeat + 1 then partLoss .expander num 0x1A v else v) ∧
    FarUeNoted .expander num da s v ∧ FarUe (vat s.cxl (num - 4)) (vat v.cxl (num - 4)) := by
  unfold farUe
  extract_lets p n tell g s1 s2 s3
  have h3 : OnlyTold s2 s3 := told_if
  have hd : vat s3.cxl (num - 4) = g (vat s.cxl (num - 4)) := by
    rw [h3.rest]
    exact vat_vupd_self ..
  refine ⟨s3, rfl, ⟨?_, ?_, ?_⟩, ?_⟩
  · rw [h3.rest]
    rfl
  · rw [h3.rest]
    exact mem_addPoison ..
  · rw [partLive, hd, h3.rest]
    rfl
  · rw [hd]
    exact ⟨rfl, rfl, rfl⟩

/-- What the loss of a far part leaves of it. -/
theorem LossDeclared.dimm {num cause : Nat} (h : LossDeclared .dimm num cause s t) :
    vat t.dimms num = { vat s.dimms num with lost := true } := by
  have hd := h.rest.dimms num
  rw [show vat (offlinePart .dimm num (lossNoted s (lossNow s .dimm num cause))).dimms num = { vat s.dimms num with lost := true } from
    vat_vupd_self ..] at hd
  rw [hd.rest, hd.lost rfl]

theorem LossDeclared.expander {num cause : Nat} (h : LossDeclared .expander num cause s t) :
    vat t.cxl (num - 4) = { vat s.cxl (num - 4) with lost := true } := by
  have hd := h.rest.cxl (num - 4)
  rw [show vat (offlinePart .expander num (lossNoted s (lossNow s .expander num cause))).cxl (num - 4) =
    { vat s.cxl (num - 4) with lost := true } from vat_vupd_self ..] at hd
  rw [hd.rest, hd.lost rfl]

theorem farUe_dimm_spec {num da : Nat} (hc : s.sys.state ≠ .cold) (hh : s.sys.state ≠ .halt) (hl : partLive s .dimm num = true) :
    let t := farUe .dimm num da s
    (vat t.dimms num).scrub = (vat s.dimms num).scrub ∧ (vat t.dimms num).ue = sat16 (vat s.dimms num).ue ∧
      ((vat s.dimms num).ueBeat < 64 → da ∈ t.poison ∧ (vat t.dimms num).lost = (vat s.dimms num).lost ∧ t.sys = s.sys) ∧
      (64 ≤ (vat s.dimms num).ueBeat → (vat t.dimms num).lost = true ∧ t.recov.hold = true) := by
  obtain ⟨v, e, hv, hd⟩ := farUe_dimm num da s
  dsimp only
  rw [e]
  split
  case isTrue hn =>
    have h := partLoss_declared (kind := .dimm) 0x16 (by rwa [hv.sys]) (by rwa [hv.sys]) (hv.live.trans hl)
    rw [h.dimm]
    exact ⟨hd.scrub, hd.ue, fun hlt => by omega, fun _ => ⟨rfl, h.hold⟩⟩
  case isFalse hn => exact ⟨hd.scrub, hd.ue, fun _ => ⟨hv.marked, hd.lost, hv.sys⟩, fun hge => by omega⟩

theorem farUe_expander_spec {num da : Nat} (hc : s.sys.state ≠ .cold) (hh : s.sys.state ≠ .halt) (hl : partLive s .expander num = true) :
    let t := farUe .expander num da s
    (vat t.cxl (num - 4)).ue = sat16 (vat s.cxl (num - 4)).ue ∧
      ((vat s.cxl (num - 4)).ueBeat < 64 → da ∈ t.poison ∧ (vat t.cxl (num - 4)).lost = (vat s.cxl (num - 4)).lost) ∧
      (64 ≤ (vat s.cxl (num - 4)).ueBeat → (vat t.cxl (num - 4)).lost = true) := by
  obtain ⟨v, e, hv, hd⟩ := farUe_expander num da s
  dsimp only
  rw [e]
  split
  case isTrue hn =>
    have h := partLoss_declared (kind := .expander) 0x1A (by rwa [hv.sys]) (by rwa [hv.sys]) (hv.live.trans hl)
    rw [h.expander]
    exact ⟨hd.ue, fun hlt => by omega, fun _ => rfl⟩
  case isFalse hn => exact ⟨hd.ue, fun _ => ⟨hv.marked, hd.lost⟩, fun hge => by omega⟩

/-! ### The rows -/

theorem exec_patrolScrub {p : ScrubPart} (hm : mayLose s = true) (hl : scrubLive s p = true) (r : EccResult) :
    exec (.patrolScrub p r) s = .next (scrub p r s) := congrArg Host.Outcome.next (if_pos (by rw [hm, hl]; rfl))

theorem exec_cxlEventInterrupt {e : Fin 4} (hm : mayLose s = true) (hb : (vat s.brg (e.val / 2)).offline = false) (rs : List CxlRecord) :
    exec (.cxlEventInterrupt e rs) s = .next (rs.foldl (cxlRecord e.val) s) := congrArg Host.Outcome.next (if_pos (by rw [hm, hb]; rfl))

theorem partLive_expander_lost {e : Nat} (h : partLive s .expander (4 + e) = true) : (vat s.cxl e).lost = false := by
  rw [partLive, Bool.and_eq_true, Bool.not_eq_true', Nat.add_sub_cancel_left] at h
  exact h.2

end

/-- Settles O44: what an uncorrectable read counts, marks and tells, and the loss of its part (`LossDeclared`) past the limit. -/
theorem errorsAreCountedAndContained : Obligations.ErrorsAreCountedAndContained := by
  unfold Obligations.ErrorsAreCountedAndContained
  refine ⟨fun s k hm hl => ?_, fun s d hm hl => ?_, fun s e hm hb hl => ?_⟩
  · obtain ⟨hc, hh⟩ := mayLose_supplies hm
    intro off next moved
    have hfix : repairable moved k off = repairable s k off := repairable_onSlice fun _ => rfl
    have hslice : vat moved.slices k = { vat s.slices k with scrub := next } := vat_vupd_self ..
    have hlive : sliceLive moved k = sliceLive s k := by
      rw [sliceLive, hslice]
      rfl
    obtain ⟨hscrub, hue, hmarked, hrebuilt, hkept, hlost⟩ := stackUe_stackUe (s := moved) (k := k) (off := off) hc hh (hlive.trans hl)
    rw [hslice] at hscrub hue hmarked hrebuilt hkept hlost
    rw [hfix] at hmarked hrebuilt
    have hrow := exec_patrolScrub (p := .stack k) hm hl
    refine ⟨hrow .good, hrow .corrected, _, hrow .uncorrectable, hscrub, hue,
      hmarked, hrebuilt, fun hr hn => ?_, hlost⟩
    obtain ⟨h1, h2⟩ := hkept hr hn
    exact ⟨h1.trans (hlive.trans hl), h2⟩
  · obtain ⟨hc, hh⟩ := mayLose_supplies hm
    intro a next moved
    have hlive : partLive s .dimm d = true := (Bool.and_eq_true_iff.1 hl).1
    have hdimm : vat moved.dimms d = { vat s.dimms d with scrub := next } := vat_vupd_self ..
    have hmoved : partLive moved .dimm d = true := by
      rw [partLive, hdimm]
      exact hlive
    obtain ⟨h1, h2, h3, h4⟩ := farUe_dimm_spec (s := moved) (num := d) (da := dimmDa s d a) hc hh hmoved
    rw [hdimm] at h1 h2 h3 h4
    have hrow := exec_patrolScrub (p := .dimm d) hm hl
    exact ⟨hrow .good, hrow .corrected, _, hrow .uncorrectable, h1, h2, h3, h4⟩
  · obtain ⟨hc, hh⟩ := mayLose_supplies hm
    have hrec (r : CxlRecord) : exec (.cxlEventInterrupt e [r]) s = .next (cxlRecord e.val s r) := exec_cxlEventInterrupt hm hb [r]
    have hgo {α : Type} (x y : α) : (if !partLive s .expander (4 + e.val) then x else y) = y := if_neg (by rw [hl]; exact Bool.noConfusion)
    refine ⟨exec_cxlEventInterrupt hm hb [], (hrec _).trans (congrArg _ (hgo ..)), fun a ha => ?_, ?_⟩
    · have e1 : cxlRecord e.val s (.uncorrectable a) = farUe .expander (4 + e.val) (regionBase 5 + cxlStart s e + a / 64 * 64) s :=
        (hgo ..).trans (if_neg (by omega))
      have h := farUe_expander_spec (da := regionBase 5 + cxlStart s e + a / 64 * 64) hc hh hl
      rw [Nat.add_sub_cancel_left, partLive_expander_lost hl] at h
      exact ⟨_, (hrec _).trans (congrArg _ e1), h⟩
    · have e1 : cxlRecord e.val s .fatal = partLoss .expander (4 + e.val) 0x19 s := hgo ..
      have h := partLoss_declared (kind := .expander) 0x19 hc hh hl
      have hx := h.expander
      rw [Nat.add_sub_cancel_left] at hx
      exact ⟨_, (hrec _).trans (congrArg _ e1), by rw [hx], h.hold, h.epoch⟩

end Sys2Proof.Machine
end

section
/-!
PROOFS. Mailboxes: a GO keeps its operation until it is complete, and what MAILBOX_COMPLETE does.
-/
namespace Sys2Proof.Machine

/-! ### What an operation's start leaves of the block -/

section
variable {P : Nat → Prop}

theorem onMbx_steady {g : Mailbox → Mailbox} (hg : ∀ M, mbxWork (g M) = mbxWork M) (f : Nat) (s : State) : Steady P s (onMbx f g s) := by
  refine onFunc_steady ?_ (fun F => hg F.mbx) s
  exact fun _ => ⟨rfl, rfl, id⟩

theorem reply_steady (f : Nat) (r : Reply) (s : State) : Steady P s (reply f r s) := by
  obtain ⟨x, b, e⟩ := reply_spec f r s
  rw [e]
  refine onMbx_steady ?_ f s
  exact fun _ => rfl

theorem askInput_steady (f n : Nat) (s : State) : Steady P s (askInput f n s) := by
  unfold askInput
  extract_lets M r
  split
  · exact .refl s
  · refine Steady.trans (onMbx_steady ?_ f s) (emit_steady ..)
    exact fun _ => rfl

theorem setMg_steady (m : Mgmt) (s : State) : Steady P s { s with mg := m } := .rest rfl

theorem validateChange_steady (f : Nat) (left : Option Mailbox) (s : State) : Steady P s (validateChange f left s) := by
  unfold validateChange
  split
  · exact acceptChange_steady ..
  split
  · exact .refl s
  · exact reply_steady ..

theorem pumpChanges_steady : ∀ (n : Nat) (s : State), Steady P s (pumpChanges n s)
  | 0, s => .refl s
  | n + 1, s => by
    unfold pumpChanges
    split
    · exact .refl s
    · exact ((setMg_steady ..).trans (validateOwn_steady ..)).trans (pumpChanges_steady n _)
    · split
      · exact .refl s
      · exact ((setMg_steady ..).trans (validateChange_steady ..)).trans (pumpChanges_steady n _)
    · split
      · exact .refl s
      · exact ((setMg_steady ..).trans (validateChange_steady ..)).trans (pumpChanges_steady n _)

theorem pump_steady (s : State) : Steady P s (pump s) := pumpChanges_steady ..

theorem startStage_steady (f n : Nat) (s : State) : Steady P s (startStage f n s) := by
  unfold startStage
  split
  · exact reply_steady ..
  extract_lets s1
  have h1 : Steady P s s1 := (setMg_steady ..).trans (askInput_steady ..)
  split
  · exact h1.trans (reply_steady ..)
  · exact h1

theorem startProof_steady (f : Nat) (inp : List Byte) (s : State) : Steady P s (startProof f inp s) := by
  unfold startProof
  extract_lets n g
  split
  · exact reply_steady ..
  split
  · exact reply_steady ..
  split
  · exact .refl s
  · exact reply_steady ..

theorem opCoreReset_steady (a : Asker) (inp : List Byte) (s : State) : Steady P s (opCoreReset a inp s).2 := by
  unfold opCoreReset
  split
  · exact .refl s
  split
  · exact .refl s
  split
  · exact .refl s
  · exact (coreReset_steady ..).trans (onCore_calm ..).steady

theorem setTb_weathered (b : Tb) (s : State) : Weathered P s { s with tb := b } := { (Steady.refl s : Steady P s s).toWeathered with }

theorem opAnchorSet_weathered (inp : List Byte) (s : State) : Weathered P s (opAnchorSet inp s).2 := by
  unfold opAnchorSet
  split
  · exact (Steady.refl s).toWeathered
  · exact (setTb_weathered ..).trans (jAdd_steady ..).toWeathered

theorem watchBacklog_steady (s : State) : Steady P s (watchBacklog s) := by
  unfold watchBacklog
  extract_lets n high jr s1
  have h1 : Steady P s s1 := .rest rfl
  split
  · exact h1.trans (raiseEvent_steady ..)
  · exact h1

theorem opCollectAck_steady (inp : List Byte) (s : State) : Steady P s (opCollectAck inp s).2 := by
  unfold opCollectAck
  extract_lets n
  split
  · exact .refl s
  split
  · exact .refl s
  · exact ((setLed_steady ..).trans (watchBacklog_steady _)).trans (jAdd_steady ..)

/-- Activation writes slot A, frees the lock and may begin IMAGE again. -/
theorem activate_frame (x : Stager) (s : State) : ∃ fl mg sys, (activate x s).2 = { s with flash := fl, mg := mg, sys := sys } := by
  unfold activate
  extract_lets other b n s1 mg s2 again sys
  split
  · exact ⟨_, _, _, rfl⟩
  split
  · exact ⟨_, _, _, rfl⟩
  split
  · exact ⟨_, _, _, rfl⟩
  dsimp only
  split <;> exact ⟨_, _, _, rfl⟩

theorem opImageActivate_eq (s : State) :
    opImageActivate s = (((activate .steward s).1.map okWith).getD (bare mbRejected), (activate .steward s).2) := by
  unfold opImageActivate
  split <;> next e => rw [e]; rfl

theorem opImageActivate_weathered (s : State) : Weathered P s (opImageActivate s).2 := by
  obtain ⟨fl, mg, sys, e⟩ := activate_frame .steward s
  rw [opImageActivate_eq, e]
  exact { (Steady.refl s : Steady P s s).toWeathered with }

theorem quickOp_weathered (f op : Nat) (inp : List Byte) (room : Nat) (s : State) : Weathered P s (quickOp f op inp room s).2 := by
  unfold quickOp
  dsimp only
  split
  case h_4 => exact (opCoreReset_steady ..).toWeathered
  case h_5 => exact opImageActivate_weathered s
  case h_8 => exact opAnchorSet_weathered ..
  case h_13 => exact (opCollectAck_steady ..).toWeathered
  all_goals exact (Steady.refl s).toWeathered

end

/-! ### The mailbox that takes a GO keeps its operation -/

/-- The mailbox of function `f` goes on with its operation. -/
def MbxGoesOn (f : Nat) (s t : State) : Prop := mbxWork (mbxOf t f) = mbxWork (mbxOf s f)

section
variable {f : Nat} {a b c s : State}

theorem MbxGoesOn.trans (h1 : MbxGoesOn f a b) (h2 : MbxGoesOn f b c) : MbxGoesOn f a c := Eq.trans h2 h1

theorem Weathered.mbxGoesOn {P : Nat → Prop} (h : Weathered P a b) (hf : ¬ P (f % 64)) : MbxGoesOn f a b := h.mbx f hf

theorem Steady.mbxGoesOn (h : Steady (fun _ => False) a b) : MbxGoesOn f a b := h.mbx f id

/-- The functions of a port are its own sixteen. -/
theorem mem_portFuncs {p g : Nat} (h : g ∈ portFuncs s p) : 16 * p ≤ g ∧ g < 16 * p + 16 := by
  obtain ⟨i, hi, rfl⟩ := List.mem_map.1 (List.mem_filter.1 h).1
  have := List.mem_range.1 hi
  omega

/-- A reset is of functions of one port: function 0 goes on unless it is reset itself. -/
theorem funcReset_steady {g : Nat} (trigger : Nat) (s : State) (hg : g < 64) (h0 : g ≠ 0) :
    Steady (· ≠ 0) s (funcReset trigger s g) ∧ (vat (funcReset trigger s g).funcs g).resetting = true := by
  obtain ⟨h1, h2⟩ := resetFuncs_steady (P := (· ≠ 0)) [g] (by simpa using by omega) trigger s
  rw [funcReset_eq]
  split
  · next hp =>
    obtain ⟨h3, -⟩ := resetFuncs_steady (P := (· ≠ 0)) ((portFuncs s (g / 16)).filter (· != g)) (fun j hj => by
      have := mem_portFuncs (List.mem_filter.1 hj).1
      omega) 3 (resetFuncs [g] trigger s)
    exact ⟨h1.trans h3, (h3.funcs g).resetting (h2 g (by simp))⟩
  · exact ⟨h1, h2 g (by simp)⟩

/-- FUNC_CTL of another function keeps the steward's mailbox. -/
theorem opFuncCtl_mbxGoesOn {inp : List Byte} (h0 : numAt inp 0 1 ≠ 0) : MbxGoesOn 0 s (opFuncCtl inp s).2 := by
  have hset (off : Bool) (v : State) :
      MbxGoesOn 0 v (onFunc (numAt inp 0 1) (fun F => { F with pci := { F.pci with disabled := off } }) v) := by
    unfold MbxGoesOn
    rw [mbxOf, vat_onFunc_cases]
    split <;> rfl
  unfold opFuncCtl
  extract_lets g set
  split
  · rfl
  · next hg =>
    split
    · exact hset false s
    split
    · rfl
    · exact ((funcReset_steady 7 s (by omega) h0).1.toWeathered.mbxGoesOn (by simp)).trans (hset true _)

theorem runOp_mbxGoesOn (h : (mbxOf s f).op.toNat = 0x23 → f = 0 ∧ numAt (mbxInput (mbxOf s f)) 0 1 ≠ 0) : MbxGoesOn f s (runOp f s) := by
  unfold runOp
  extract_lets M op inp
  split
  · exact (reply_steady ..).mbxGoesOn
  split
  · exact (reply_steady ..).mbxGoesOn
  split
  · split
    · exact (reply_steady ..).mbxGoesOn
    · exact ((setMg_steady ..).trans ((askInput_steady ..).trans (pump_steady _))).mbxGoesOn
  split
  · next h23 =>
    obtain ⟨rfl, h0⟩ := h h23
    exact (opFuncCtl_mbxGoesOn h0).trans (reply_steady ..).mbxGoesOn
  split
  · exact (startStage_steady ..).mbxGoesOn
  split
  · exact (startProof_steady ..).mbxGoesOn
  · exact ((quickOp_weathered ..).trans (reply_steady ..).toWeathered).mbxGoesOn (P := fun _ => False) id

/-- An operation keeps its mailbox, unless it resets the mailbox's own function. -/
theorem startOp_mbxGoesOn (h : (mbxOf s f).op.toNat = 0x23 → lenFits (mbxOf s f) = true → numAt (mbxInput (mbxOf s f)) 0 1 ≠ f) :
    MbxGoesOn f s (startOp f s) := by
  unfold startOp
  extract_lets M op
  split
  · exact (reply_steady ..).mbxGoesOn
  split
  · exact (reply_steady ..).mbxGoesOn
  split
  · exact (reply_steady ..).mbxGoesOn
  split
  · exact (reply_steady ..).mbxGoesOn
  next hr =>
  split
  · exact (reply_steady ..).mbxGoesOn
  next hl =>
  refine runOp_mbxGoesOn fun h23 => ?_
  have h0 : f = 0 := by
    have h23' : op = 0x23 := h23
    rw [h23'] at hr
    simpa [stewardOnly] using hr
  subst h0
  exact ⟨rfl, h h23 (by simpa using hl)⟩

end

/-! ### A GO that is refused (Table 22-4) -/

section
variable {c : Instr} {op n f : Nat} {s : State}

theorem exec_held (hc : goRow c = some (op, f, n)) (ht : goTaken s f) (hh : s.sys.state = .halt) :
    exec c s = .next (goAnswered op n f (bare mbHold) s) := by
  rw [exec_goRow hc ht, startOp, if_pos (show ((goStarted op n f s).sys.state == .halt) = true from beq_iff_eq.2 hh), reply_bare]

theorem exec_early (hc : goRow c = some (op, f, n)) (ht : goTaken s f) (hh : s.sys.state ≠ .halt) (hi : inService s = false)
    (he : earlyOp op = false) : exec c s = .next (goAnswered op n f (bare mbStateDenied) s) := by
  have hi' : inService (goStarted op n f s) = false := hi
  have hh' : ¬ ((goStarted op n f s).sys.state == .halt) = true := by simpa using show (goStarted op n f s).sys.state ≠ .halt from hh
  rw [exec_goRow hc ht]
  unfold startOp
  simp only [goStarted_op (goRow_bounds hc).1]
  rw [if_neg hh', if_pos (by simp [hi', he]), reply_bare]

theorem exec_denied (hc : goRow c = some (op, f, n)) (ht : goTaken s f) (hi : inService s = true) (hl : inlineLen op ≠ none)
    (hr : stewardOnly op = true) (hf : f ≠ 0) : exec c s = .next (goAnswered op n f (bare mbDenied) s) := by
  have hi' : inService (goStarted op n f s) = true := hi
  rw [exec_goRow hc ht]
  unfold startOp
  simp only [goStarted_op (goRow_bounds hc).1]
  rw [if_neg (by simpa using running_ne_halt hi'), if_neg (by simp [hi']), if_neg (by simpa using hl), if_pos (by simp [hr, hf]), reply_bare]

theorem exec_badLen (hc : goRow c = some (op, f, n)) (ht : goTaken s f) (hh : s.sys.state ≠ .halt)
    (hi : inService s = true ∨ earlyOp op = true) (hl : inlineLen op ≠ none) (hr : stewardOnly op = true → f = 0)
    (hfit : lenFits (mbxOf (goStarted op n f s) f) = false) : exec c s = .next (goAnswered op n f (bare mbBadLen) s) := by
  have hh' : ¬ ((goStarted op n f s).sys.state == .halt) = true := by simpa using show (goStarted op n f s).sys.state ≠ .halt from hh
  have hserves : (!inService (goStarted op n f s) && !earlyOp op) = false := by
    change (!inService s && !earlyOp op) = false
    rcases hi with hi | hi <;> simp [hi]
  rw [exec_goRow hc ht]
  unfold startOp
  simp only [goStarted_op (goRow_bounds hc).1]
  rw [if_neg hh', if_neg (by simp [hserves]), if_neg (by simpa using hl), if_neg (by simpa using hr), if_pos (by simp [hfit]), reply_bare]

/-- What the steward alone may issue is listed in Table 22-5. -/
theorem inlineLen_of_stewardOnly (h : stewardOnly op = true) : inlineLen op ≠ none := by
  have hmem := List.contains_iff_mem.1 h
  have hall : ∀ o ∈ [0x14, 0x15, 0x16, 0x17, 0x18, 0x20, 0x21, 0x23, 0x30, 0x31, 0x50, 0x60, 0x61, 0x62, 0x64, 0x65, 0x71, 0x72, 0x73],
      inlineLen o ≠ none := by decide
  exact hall op hmem

end

/-- A GO leaves its mailbox BUSY with the row's OP and LEN. -/
theorem go_busy {op n f : Nat} {s : State} (hop : op < 65536) (hn : n < 4096) (h : ¬ (op = 0x23 ∧ numAt (mbxOf s f).data 0 1 = f)) :
    GoneTo op n f s (startOp f (goStarted op n f s)) := by
  have hgo : MbxGoesOn f (goStarted op n f s) (startOp f (goStarted op n f s)) := by
    refine startOp_mbxGoesOn fun h23 hl => ?_
    rw [goStarted_op hop] at h23
    subst h23
    have h8 : n = 8 := by
      rw [lenFits, goStarted_op hop, if_neg (by decide), mbxOf_goStarted] at hl
      have : 8 = n % 65536 := by simpa [inlineLen] using hl
      omega
    subst h8
    rw [goStarted_input hn]
    have hfit : numAt (fitTo (mbxOf s f).data 8) 0 1 = numAt (mbxOf s f).data 0 1 := by
      cases (mbxOf s f).data <;> rfl
    rw [hfit]
    exact fun e => h ⟨rfl, e⟩
  rw [MbxGoesOn, mbxOf_goStarted] at hgo
  simp only [mbxWork, Prod.mk.injEq] at hgo
  obtain ⟨h1, h2, h3, h4, h5⟩ := hgo
  refine ⟨h1, ?_, ?_, h4, h5⟩
  · rw [h2]
    exact Nat.mod_eq_of_lt hop
  · rw [h3]
    exact Nat.mod_eq_of_lt (by omega)

/-! ### MAILBOX_COMPLETE (R826, R840) -/

/-- The output for MBX_XADDR is written (R829). -/
def bulkSent (f : Nat) (M : Mailbox) (s : State) : State :=
  if M.bulk.isEmpty then s else houseBytes s f M.bulk.length (hostWrite f M.xaddr.toNat M.bulk s)

/-- A ring that the operation registers comes into force (R845). -/
def ringTaken (f : Nat) (status : BitVec 8) (M : Mailbox) (s : State) : State :=
  if 0x60 ≤ M.op.toNat ∧ M.op.toNat ≤ 0x63 ∧ status = 0 then setRing f M.op.toNat (ringDesc (mbxInput M)) s else s

/-- The registers of a mailbox whose operation is complete. -/
def mbxDone (status : BitVec 8) (out : List Byte) (M : Mailbox) : Mailbox :=
  { M with data := patch M.data 0 out, status := status, outLen := out.length, st := .done, doneEv := true,
           result := none, input := [], bulk := [] }

section
variable {f : Nat} {s : State}

theorem finishOp_eq (f : Nat) (status : BitVec 8) (out : List Byte) (s : State) : finishOp f status out s =
    raiseMsix f 0 (tally .control 0x406 1 .none
      (onMbx f (mbxDone status out) (ringTaken f status (mbxOf s f) (bulkSent f (mbxOf s f) s)))) := rfl

theorem houseBytes_housePaid (was : State) (f n : Nat) (s : State) : HousePaid s (houseBytes was f n s) := by
  unfold houseBytes
  split
  · exact .refl s
  · exact activity_housePaid ..

theorem bulkSent_frame (f : Nat) (M : Mailbox) (s : State) : ∃ k q l p o,
    bulkSent f M s = { s with slices := k, qos := q, led := l, pmc := p, out := o } := by
  unfold bulkSent
  split
  · exact ⟨_, _, _, _, _, rfl⟩
  · rw [(houseBytes_housePaid ..).rest, hostWrite_frame]
    exact ⟨_, _, _, _, _, rfl⟩

theorem bulkSent_out {M : Mailbox} (hb : M.bulk ≠ []) (hi : mayIssue s f = true) :
    .hostWrite f M.xaddr.toNat M.bulk (attrOf s f false) ∈ (bulkSent f M s).out := by
  rw [bulkSent, if_neg (by simpa using hb), (houseBytes_housePaid ..).rest, hostWrite, hostWriteRo, if_pos hi]
  exact List.mem_cons_self

theorem loseNotices_func (f : Nat) (s : State) : vat (loseNotices f s).funcs f =
    { vat s.funcs f with held := [], kvn := (vat s.funcs f).held.foldl (fun r _ => ringLost r) (vat s.funcs f).kvn } := vat_onFunc

/-- A ring's registration changes the ring alone, or, for a ring of notices, its function. -/
theorem ringTaken_frame (f : Nat) (status : BitVec 8) (M : Mailbox) (s : State) : ∃ j n fs,
    ringTaken f status M s = { s with jr := j, cnt := n, funcs := fs } := by
  unfold ringTaken
  split
  · unfold setRing
    split <;> exact ⟨_, _, _, rfl⟩
  · exact ⟨_, _, _, rfl⟩

theorem ringTaken_mbx (status : BitVec 8) (M : Mailbox) : mbxOf (ringTaken f status M s) f = mbxOf s f := by
  unfold ringTaken
  split
  · unfold setRing
    split
    · rfl
    · rfl
    · rfl
    · have h1 : mbxOf (loseNotices f s) f = mbxOf s f := (congrArg Func.mbx (loseNotices_func f s) :)
      exact (congrArg Func.mbx vat_onFunc).trans h1
  · rfl

theorem ringTaken_other {status : BitVec 8} {M : Mailbox} (h : M.op.toNat < 0x60 ∨ 0x63 < M.op.toNat ∨ status ≠ 0) :
    ringTaken f status M s = s := by
  rw [ringTaken, if_neg]
  rintro ⟨h1, h2, h3⟩
  rcases h with h | h | h
  · omega
  · omega
  · exact h h3

theorem ringTaken_ring {op : Nat} {M : Mailbox} (hop : M.op.toNat = op) (h : 0x60 ≤ op ∧ op ≤ 0x63) :
    ringTaken f 0 M s = setRing f op (ringDesc (mbxInput M)) s := by
  rw [ringTaken, hop, if_pos ⟨h.1, h.2, rfl⟩]

/-- With no change in the order and no proof held, the answer alone decides. -/
theorem completeOp_eq (hq : s.mg.changeQueue = []) (hop : (mbxOf s f).op ≠ 0x70) : completeOp f s =
    match (mbxOf s f).result with
    | some (status, out) => if (mbxOf s f).st != .busy || stillRuns s (mbxOf s f) then s else finishOp f status out s
    | none => s := by
  have h : settleProof f (pump s) = s := by
    rw [pump_empty hq, settleProof, beq_eq_false_iff_ne.2 hop]
    rfl
  rw [completeOp, h] <;> rfl

end

/-- A mailbox operation whose answer is known completes. -/
theorem mailboxCompletes (s : State) (f : Fin 64) (hq : s.mg.changeQueue = []) (hst : (mbxOf s f.val).st = .busy)
    (hop : (mbxOf s f.val).op ≠ 0x70) (status : BitVec 8) (out : List Byte) (hr : (mbxOf s f.val).result = some (status, out))
    (hs : stillRuns s (mbxOf s f.val) = false) : let M := mbxOf s f.val
    ∃ t, exec (.mailboxComplete (.func f)) s = .next t ∧ (mbxOf t f.val).st = .done ∧ (mbxOf t f.val).doneEv = true ∧
      (mbxOf t f.val).status = status ∧ (mbxOf t f.val).outLen = out.length ∧ (mbxOf t f.val).data = patch M.data 0 out ∧
      (mbxOf t f.val).result = none ∧ (mbxOf t f.val).opseq = M.opseq ∧ t.mem = s.mem ∧ t.cmds = s.cmds ∧ t.cfg = s.cfg ∧
      (M.bulk ≠ [] → mayIssue s f.val = true → .hostWrite f.val M.xaddr.toNat M.bulk (attrOf s f.val false) ∈ t.out) ∧
      (M.op = 0x60 → status = 0 → t.jr.evt = registerRing (ringDesc (mbxInput M)) s.jr.evt) ∧
      (M.op = 0x61 → status = 0 → t.cnt.dump = registerRing (ringDesc (mbxInput M)) s.cnt.dump) ∧
      (M.op = 0x62 → status = 0 → t.cnt.pip = registerRing (ringDesc (mbxInput M)) s.cnt.pip) ∧
      (M.op = 0x63 → status = 0 → (vat t.funcs f.val).held = [] ∧
        (vat t.funcs f.val).kvn = registerRing (ringDesc (mbxInput M)) (vat (loseNotices f.val s).funcs f.val).kvn) ∧
      ((M.op.toNat < 0x60 ∨ 0x63 < M.op.toNat ∨ status ≠ 0) → t.jr = s.jr ∧ t.cnt.dump = s.cnt.dump ∧ t.cnt.pip = s.cnt.pip) := by
  intro M
  let b := bulkSent f.val M s
  let r := ringTaken f.val status M b
  let v := tally .control 0x406 1 .none (onMbx f.val (mbxDone status out) r)
  let t := raiseMsix f.val 0 v
  have hgo : exec (.mailboxComplete (.func f)) s = .next t := by
    change Host.Outcome.next (completeOp f.val s) = _
    rw [completeOp_eq hq hop, hr]
    dsimp only
    rw [if_neg (by simp [hst, hs]), finishOp_eq]
  obtain ⟨k, q, l, p, o, hb⟩ := bulkSent_frame f.val M s
  have hb : b = { s with slices := k, qos := q, led := l, pmc := p, out := o } := hb
  obtain ⟨j, n, fs, hring⟩ := ringTaken_frame f.val status M b
  have hring : r = { b with jr := j, cnt := n, funcs := fs } := hring
  have hrest : t = { v with funcs := t.funcs, out := t.out } := raiseMsix_frame
  have hv : v = { onMbx f.val (mbxDone status out) r with cnt := v.cnt } := tally_frame
  have hF : vat t.funcs f.val = { vat r.funcs f.val with mbx := mbxDone status out M, pba := (vat t.funcs f.val).pba } := by
    have hvf : vat v.funcs f.val = { vat r.funcs f.val with mbx := mbxDone status out M } := by
      have hm : mbxOf r f.val = M := (ringTaken_mbx status M).trans (by rw [mbxOf, hb]; rfl)
      rw [hv, ← hm]
      exact (vat_onFunc :)
    exact ((raiseMsix_pbaOnly f.val 0 v).funcs f.val).trans (by rw [hvf])
  have hM : mbxOf t f.val = mbxDone status out M := congrArg Func.mbx hF
  have hjr : t.jr = r.jr := by rw [hrest, hv]; rfl
  have hdump : t.cnt.dump = r.cnt.dump ∧ t.cnt.pip = r.cnt.pip := by rw [hrest]; exact ⟨rfl, rfl⟩
  have ringIs {op : Nat} (h : M.op = BitVec.ofNat 16 op) (hlo : 0x60 ≤ op) (hhi : op ≤ 0x63) (h0 : status = 0) :
      r = setRing f.val op (ringDesc (mbxInput M)) b := by
    subst h0
    refine ringTaken_ring ?_ ⟨hlo, hhi⟩
    rw [h]
    exact Nat.mod_eq_of_lt (by omega)
  refine ⟨t, hgo, (congrArg Mailbox.st hM :), (congrArg Mailbox.doneEv hM :), (congrArg Mailbox.status hM :), (congrArg Mailbox.outLen hM :),
    (congrArg Mailbox.data hM :), (congrArg Mailbox.result hM :), (congrArg Mailbox.opseq hM :), ?_, ?_, ?_, fun hbulk hi => ?_, fun h h0 => ?_, fun h h0 => ?_, fun h h0 => ?_, fun h h0 => ?_, fun h => ?_⟩
  · rw [hrest, hv]
    change r.mem = _
    rw [hring, hb]
  · rw [hrest, hv]
    change r.cmds = _
    rw [hring, hb]
  · rw [hrest, hv]
    change r.cfg = _
    rw [hring, hb]
  · obtain ⟨l, hl⟩ := (raiseMsix_keeps (a0 := f.val) (a1 := 0) (Keeps.same v)).out
    have hvo : v.out = b.out := by
      rw [hv]
      change r.out = _
      rw [hring]
    rw [show t.out = _ from hl, hvo]
    exact List.mem_append_right l (bulkSent_out hbulk hi)
  · rw [hjr, ringIs h (by decide) (by decide) h0]
    change registerRing _ b.jr.evt = _
    rw [hb]
  · rw [hdump.1, ringIs h (by decide) (by decide) h0]
    change registerRing _ b.cnt.dump = _
    rw [hb]
  · rw [hdump.2, ringIs h (by decide) (by decide) h0]
    change registerRing _ b.cnt.pip = _
    rw [hb]
  · have hk : vat r.funcs f.val = { vat (loseNotices f.val s).funcs f.val with
        kvn := registerRing (ringDesc (mbxInput M)) (vat (loseNotices f.val s).funcs f.val).kvn } := by
      rw [ringIs h (by decide) (by decide) h0, hb]
      exact vat_onFunc
    rw [hF, hk]
    exact ⟨(congrArg Func.held (loseNotices_func f.val s) :), rfl⟩
  · have hsame : r = b := ringTaken_other h
    rw [hjr, hdump.1, hdump.2, hsame, hb]
    exact ⟨rfl, rfl, rfl⟩

/-- An operation of an endpoint whose output is known completes. -/
theorem endpointCompletes (s : State) (e : Fin 2) (status : BitVec 8) (out : List Byte) (hb : vat s.mg.oemBusy e.val = true)
    (ho : vat s.mg.oem e.val = some (status, out)) : ∃ t, exec (.mailboxComplete (.endpoint e)) s = .next t ∧
      vat t.mg.oemBusy e.val = false ∧ t.mg.oem = s.mg.oem ∧
      .bmc e.val (leBytes 1 0 ++ (leBytes 1 status.toNat ++ leBytes 4 out.length ++ out.take 1024)) ∈ t.out ∧
      t.mem = s.mem ∧ t.funcs = s.funcs := by
  have hgo : exec (.mailboxComplete (.endpoint e)) s = .next (emit (.bmc e.val (leBytes 1 pldmOk ++ oemBytes status out 0))
      (tally .control 0x406 1 .none { s with mg := { s.mg with oemBusy := vupd s.mg.oemBusy e.val fun _ => false } })) := by
    change Host.Outcome.next (completeOem e.val s) = _
    rw [completeOem, hb, ho]
  refine ⟨_, hgo, vat_vupd_self .., rfl, ?_, rfl, rfl⟩
  exact List.mem_cons_self

theorem endpointIdles (s : State) (e : Fin 2) (hb : vat s.mg.oemBusy e.val = false) :
    exec (.mailboxComplete (.endpoint e)) s = .next s := by
  change Host.Outcome.next (completeOem e.val s) = _
  rw [completeOem, hb]

/-- Settles O29: a GO that is taken keeps its operation or refuses it, and an answer that is known completes it. -/
theorem mailboxesTakeOperations : Obligations.MailboxesTakeOperations := by
  unfold Obligations.MailboxesTakeOperations
  refine ⟨?_, ?_, fun s e => ⟨endpointCompletes s e, endpointIdles s e⟩⟩
  · intro s c op f n hc ht answers fits
    obtain ⟨hop, hn, hf⟩ := goRow_bounds hc
    have hgo := exec_goRow hc ht
    have early (h : inService s = true ∨ s.sys.state ≠ .halt ∧ op ∈ [0x01, 0x40, 0x41]) :
        s.sys.state ≠ .halt ∧ (inService s = true ∨ earlyOp op = true) := by
      rcases h with h | ⟨h1, h2⟩
      · exact ⟨running_ne_halt h, .inl h⟩
      · exact ⟨h1, .inr (by simpa [earlyOp, or_assoc] using h2)⟩
    refine ⟨fun h => ?_, fun hh => exec_held hc ht hh, fun hh hi hop' => exec_early hc ht hh hi (by simpa [earlyOp, and_assoc] using hop'),
      fun hi hl => exec_unlisted hc ht hi hl, fun hi hso hf0 => exec_denied hc ht hi (inlineLen_of_stewardOnly hso) hso hf0,
      fun h hl hso hfit => exec_badLen hc ht (early h).1 (early h).2 hl hso hfit⟩
    obtain ⟨h1, h2, h3, h4, h5⟩ := go_busy hop hn h
    exact ⟨_, hgo, h1, h2, h3, h4, h5⟩
  · intro s f hq M hst hop
    refine ⟨mailboxCompletes s f hq hst hop, fun hr => ?_⟩
    change Host.Outcome.next (completeOp f.val s) = _
    rw [completeOp_eq hq hop, show (mbxOf s f.val).result = none from hr]

end Sys2Proof.Machine
end

section
/-!
PROOFS. Mailboxes: what the operations that act do.
-/
namespace Sys2Proof.Machine

/-- A GO leaves a function's registers but its mailbox. -/
theorem vat_goStarted (op n f : Nat) (s : State) (j : Nat) : ∃ M, vat (goStarted op n f s).funcs j = { vat s.funcs j with mbx := M } :=
  vat_onMbx ..

section
variable {f : Nat} {r : Reply} {s : State}

/-- An answer without output at MBX_XADDR is the mailbox's result. -/
theorem mbxOf_reply (h : r.bulk = []) : (mbxOf (reply f r s) f).result = some (BitVec.ofNat 8 r.status, r.out) := by
  rw [reply_of_noBulk h, mbxOf_onMbx]

theorem vat_reply (f : Nat) (r : Reply) (s : State) (j : Nat) : ∃ M, vat (reply f r s).funcs j = { vat s.funcs j with mbx := M } := by
  obtain ⟨x, b, e⟩ := reply_spec f r s
  rw [e]
  exact vat_onMbx ..

theorem reply_frame (f : Nat) (r : Reply) (s : State) : reply f r s = { s with funcs := (reply f r s).funcs } := by
  obtain ⟨x, b, e⟩ := reply_spec f r s
  rw [e]
  rfl

end

/-! ### Changes of the steward (R831) -/

theorem ownsChange_steward (s : State) (M : Mailbox) : ownsChange s 0 M = true := rfl

/-- A change of the steward's is judged at once, or asks the host for its data. -/
theorem stewardChanges {c : Instr} {op n : Nat} {s : State} (ht : goTaken s 0) (hi : inService s = true) (hc : goRow c = some (op, 0, n))
    (hch : isChangeOp op = true) (hl : (inlineLen op).isSome = true) (hfit : lenFits (mbxOf (goStarted op n 0 s) 0) = true)
    (hq : s.mg.changeQueue = []) : let s0 := goStarted op n 0 s
    (inputLen (mbxOf s0 0) = some 0 →
      (journalBusy s = true → exec c s = .next (goAnswered op n 0 (bare 0x01) s)) ∧
      (journalBusy s = false →
        (∀ e, changeOf s0 (mbxOf s0 0) = .error e → exec c s = .next (goAnswered op n 0 (invalid e) s)) ∧
        (∀ k, changeOf s0 (mbxOf s0 0) = .ok k →
          (checkChange s0 (projected s0) (tenantOf (some 0)) k ≠ 0 →
            exec c s = .next (goAnswered op n 0 (invalid (checkChange s0 (projected s0) (tenantOf (some 0)) k)) s)) ∧
          (checkChange s0 (projected s0) (tenantOf (some 0)) k = 0 → exec c s = .next (acceptChange k (some 0) s0))))) ∧
    (∀ m, inputLen (mbxOf s0 0) = some m → m ≠ 0 → (mbxOf s 0).xaddr.toNat % 64 = 0 → ∃ t, exec c s = .next t ∧
      .hostRead ⟨0, (mbxOf s 0).xaddr.toNat, m, false⟩ (attrOf s 0 false) ∈ t.out ∧ (mbxOf t 0).result = none ∧
      t.mg.changeQueue = [.mailbox 0] ∧ t.cfg = s.cfg) := by
  intro s0
  have runs : ChangeRuns c op n 0 s :=
    ⟨hc, ht, hi, hch, Option.isSome_iff_ne_none.1 hl, fun _ => rfl, hfit, ownsChange_steward .., hq⟩
  refine ⟨fun hm => ⟨runs.busy hm, fun hj => ⟨fun e he => runs.unreadable hm hj he, fun k hk => ⟨runs.invalid hm hj hk, runs.accepted hm hj hk⟩⟩⟩,
    fun m hm h0 ha => ?_⟩
  obtain ⟨t, hgo, hout, -, hres, hmq, hcfg⟩ := runs.asks hm h0 ha
  exact ⟨t, hgo, hout, hres, hmq, hcfg⟩

/-! ### CORE_RESET and FUNC_CTL -/

section
variable {s : State} {f : Fin 64}

theorem coreNamed_lt {inp : List Byte} {k : Nat} (h : coreNamed inp = some k) : k < 136 := by
  unfold coreNamed at h
  split at h
  · cases h
    omega
  · cases h

/-- CORE_RESET of a core whose crash record the function may read (R479, R830). -/
theorem coreResets (ht : goTaken s f.val) (hi : inService s = true) {k : Nat} (hk : coreNamed (fitTo (mbxOf s f.val).data 8) = some k)
    (ho : f.val = 0 ∨ numAt (crashRecord s k) 4 1 = f.val) :
    ((vat s.cores k).mode ≠ .locked → exec (.coreReset f 8) s = .next (goAnswered 0x22 8 f.val (bare 0x0A) s)) ∧
    ((vat s.cores k).mode = .locked → ∃ t, exec (.coreReset f 8) s = .next t ∧ (vat t.cores k).mode = .idle ∧
      (vat t.cores k).lockedAt = none ∧ (∀ j < 136, j ≠ k → vat t.cores j = vat s.cores j) ∧
      (mbxOf t f.val).result = some (0, [])) := by
  have hown : crashOwner (goStarted 0x22 8 f.val s) ⟨f.val, f.val⟩ k = true := by
    change (f.val == 0 || numAt (crashRecord s k) 4 1 == f.val) = true
    simpa using ho
  have hop : quickOp f.val 0x22 (fitTo (mbxOf s f.val).data 8) (mbxOf s f.val).xlen.toNat (goStarted 0x22 8 f.val s) =
      if ((vat s.cores k).mode != .locked) = true then (bare mbRejected, goStarted 0x22 8 f.val s)
      else (bare mbOk, unlockCore k (goStarted 0x22 8 f.val s)) := by
    change opCoreReset _ _ _ = _
    rw [opCoreReset, hk]
    dsimp only
    rw [hown]
    rfl
  refine ⟨fun hm => ?_, fun hm => ?_⟩
  · rw [if_pos (by simpa using hm)] at hop
    exact exec_quick_answers rfl ht hi rfl rfl (fun h => absurd h (by decide)) hop (.inl rfl)
  · rw [if_neg (by simp [hm])] at hop
    have hgo : exec (.coreReset f 8) s = .next (reply f.val (bare mbOk) (unlockCore k (goStarted 0x22 8 f.val s))) := by
      rw [exec_quick (c := .coreReset f 8) (op := 0x22) (n := 8) rfl ht hi rfl rfl (fun h => absurd h (by decide)), hop]
    obtain ⟨⟨hidle, hlock, -, -⟩, hothers⟩ := @unlockCore_spec k (goStarted 0x22 8 f.val s)
    have hklt := coreNamed_lt hk
    refine ⟨_, hgo, ?_, ?_, fun j hj hne => ?_, mbxOf_reply rfl⟩
    · rw [reply_frame]
      exact hidle
    · rw [reply_frame]
      exact hlock
    · rw [reply_frame]
      exact hothers j (by omega)

/-- FUNC_CTL of the steward's (R513). -/
theorem exec_funcCtl (ht : goTaken s f.val) (hi : inService s = true) (h0 : f.val = 0) :
    let r := opFuncCtl (fitTo (mbxOf s f.val).data 8) (goStarted 0x23 8 f.val s)
    exec (.funcCtl f 8) s = .next (reply f.val r.1 r.2) := by
  intro r
  have hop : 0x23 < 65536 := by decide
  have hlen : inputLen (mbxOf (goStarted 0x23 8 f.val s) f.val) = some 0 := by
    rw [inputLen, goStarted_op hop]
    rfl
  rw [exec_goRow (op := 0x23) (n := 8) (f := f.val) rfl ht, startOp_runs hop (running_ne_halt hi) (.inl hi) (by decide)
    (fun _ => h0) (lenFits_of_inlineLen hop (by decide) (by decide) rfl)]
  unfold runOp
  simp only [goStarted_op hop, hlen, goStarted_input (show 8 < 4096 by decide)]
  rfl

theorem funcCtlRejects (ht : goTaken s f.val) (hi : inService s = true) (h0 : f.val = 0)
    (h : 63 < numAt (fitTo (mbxOf s f.val).data 8) 0 1 ∨ (vat s.funcs (numAt (fitTo (mbxOf s f.val).data 8) 0 1)).pci.en = false) :
    exec (.funcCtl f 8) s = .next (goAnswered 0x23 8 f.val (bare 0x0A) s) := by
  obtain ⟨M, hM⟩ := vat_goStarted 0x23 8 f.val s (numAt (fitTo (mbxOf s f.val).data 8) 0 1)
  rw [exec_funcCtl ht hi h0, opFuncCtl]
  dsimp only
  rw [hM, if_pos h]
  exact congrArg _ (reply_bare _)

theorem funcCtlEnables (ht : goTaken s f.val) (hi : inService s = true) (h0 : f.val = 0) (hg : numAt (fitTo (mbxOf s f.val).data 8) 0 1 ≤ 63)
    (hen : (vat s.funcs (numAt (fitTo (mbxOf s f.val).data 8) 0 1)).pci.en = true)
    (hb : bit (numAt (fitTo (mbxOf s f.val).data 8) 1 1) 0 = true) :
    ∃ t, exec (.funcCtl f 8) s = .next t ∧ (vat t.funcs (numAt (fitTo (mbxOf s f.val).data 8) 0 1)).pci.disabled = false ∧
      (mbxOf t f.val).result = some (0, []) := by
  have hgo := exec_funcCtl ht hi h0
  generalize hd : fitTo (mbxOf s f.val).data 8 = d at *
  obtain ⟨M, hM⟩ := vat_goStarted 0x23 8 f.val s (numAt d 0 1)
  refine ⟨_, hgo, ?_, ?_⟩
  all_goals
    rw [opFuncCtl]
    dsimp only
    rw [hM, if_neg (by simp [hen]; omega), if_pos hb]
  · obtain ⟨N, hN⟩ := vat_reply f.val (bare mbOk)
      (onFunc (numAt d 0 1) (fun F => { F with pci := { F.pci with disabled := false } }) (goStarted 0x23 8 f.val s)) (numAt d 0 1)
    rw [hN, vat_onFunc]
  · exact mbxOf_reply rfl

theorem funcCtlDisables (ht : goTaken s f.val) (hi : inService s = true) (h0 : f.val = 0) (hg : numAt (fitTo (mbxOf s f.val).data 8) 0 1 ≤ 63)
    (hne : numAt (fitTo (mbxOf s f.val).data 8) 0 1 ≠ 0) (hen : (vat s.funcs (numAt (fitTo (mbxOf s f.val).data 8) 0 1)).pci.en = true)
    (hb : bit (numAt (fitTo (mbxOf s f.val).data 8) 1 1) 0 = false)
    (hoff : (vat s.funcs (numAt (fitTo (mbxOf s f.val).data 8) 0 1)).pci.disabled = false) :
    ∃ t, exec (.funcCtl f 8) s = .next t ∧ (vat t.funcs (numAt (fitTo (mbxOf s f.val).data 8) 0 1)).pci.disabled = true ∧
      (vat t.funcs (numAt (fitTo (mbxOf s f.val).data 8) 0 1)).resetting = true := by
  have hgo := exec_funcCtl ht hi h0
  generalize hd : fitTo (mbxOf s f.val).data 8 = d at *
  obtain ⟨M, hM⟩ := vat_goStarted 0x23 8 f.val s (numAt d 0 1)
  have hop : opFuncCtl d (goStarted 0x23 8 f.val s) = (bare mbOk,
      onFunc (numAt d 0 1) (fun F => { F with pci := { F.pci with disabled := true } }) (funcReset 7 (goStarted 0x23 8 f.val s) (numAt d 0 1))) := by
    rw [opFuncCtl]
    dsimp only
    rw [hM, if_neg (by simp [hen]; omega), if_neg (by simp [hb]), if_neg (by simp [hoff])]
  rw [hop] at hgo
  obtain ⟨N, hN⟩ := vat_reply f.val (bare mbOk)
    (onFunc (numAt d 0 1) (fun F => { F with pci := { F.pci with disabled := true } }) (funcReset 7 (goStarted 0x23 8 f.val s) (numAt d 0 1))) (numAt d 0 1)
  refine ⟨_, hgo, ?_⟩
  rw [hN, vat_onFunc]
  exact ⟨rfl, (funcReset_steady 7 _ (by omega) hne).2⟩

/-! ### IMAGE_STAGE and IMAGE_ACTIVATE (R172, R843) -/

/-- IMAGE_STAGE of a part that fits its slot goes on to the lock. -/
theorem exec_imageStage (ht : goTaken s f.val) (hi : inService s = true) (h0 : f.val = 0)
    (hoff : numAt (fitTo (mbxOf s f.val).data 8) 0 4 % 64 = 0)
    (hend : numAt (fitTo (mbxOf s f.val).data 8) 0 4 + (mbxOf s f.val).xlen.toNat ≤ 100663296) (ha : (mbxOf s f.val).xaddr.toNat % 64 = 0) :
    exec (.imageStage f 8) s = .next (startStage f.val (mbxOf s f.val).xlen.toNat (goStarted 0x30 8 f.val s)) := by
  have hop : 0x30 < 65536 := by decide
  have hlen : inputLen (mbxOf (goStarted 0x30 8 f.val s) f.val) = some (mbxOf s f.val).xlen.toNat := by
    have hx : (mbxOf (goStarted 0x30 8 f.val s) f.val).xlen = (mbxOf s f.val).xlen := by rw [mbxOf_goStarted]
    unfold inputLen
    rw [goStarted_op hop, goStarted_input (show 8 < 4096 by decide), hx]
    exact if_pos ⟨hoff, hend⟩
  have hx : (mbxOf (goStarted 0x30 8 f.val s) f.val).xaddr = (mbxOf s f.val).xaddr := by rw [mbxOf_goStarted]
  rw [exec_goRow (op := 0x30) (n := 8) (f := f.val) rfl ht, startOp_runs hop (running_ne_halt hi) (.inl hi) (by decide)
    (fun _ => h0) (lenFits_of_inlineLen hop (by decide) (by decide) rfl)]
  unfold runOp
  simp only [goStarted_op hop, hlen, hx]
  rw [if_neg fun h => h.2 ha]
  rfl

/-- The BMC's lock keeps the steward out. -/
theorem stageRejects (ht : goTaken s f.val) (hi : inService s = true) (h0 : f.val = 0) (hheld : stagingHeld s .bmc = true)
    (hoff : numAt (fitTo (mbxOf s f.val).data 8) 0 4 % 64 = 0)
    (hend : numAt (fitTo (mbxOf s f.val).data 8) 0 4 + (mbxOf s f.val).xlen.toNat ≤ 100663296) (ha : (mbxOf s f.val).xaddr.toNat % 64 = 0) :
    exec (.imageStage f 8) s = .next (goAnswered 0x30 8 f.val (bare 0x0A) s) := by
  rw [exec_imageStage ht hi h0 hoff hend ha, startStage, if_pos (show stagingHeld (goStarted 0x30 8 f.val s) .bmc = true from hheld)]
  exact congrArg _ (reply_bare _)

/-- The steward takes the lock and its part is read. -/
theorem stageTakes (ht : goTaken s f.val) (hi : inService s = true) (h0 : f.val = 0) (hheld : stagingHeld s .bmc = false)
    (hoff : numAt (fitTo (mbxOf s f.val).data 8) 0 4 % 64 = 0)
    (hend : numAt (fitTo (mbxOf s f.val).data 8) 0 4 + (mbxOf s f.val).xlen.toNat ≤ 100663296) (ha : (mbxOf s f.val).xaddr.toNat % 64 = 0)
    (hn : (mbxOf s f.val).xlen.toNat ≠ 0) : ∃ t, exec (.imageStage f 8) s = .next t ∧ t.mg.staging = some .steward ∧
      .hostRead ⟨f.val, (mbxOf s f.val).xaddr.toNat, (mbxOf s f.val).xlen.toNat, false⟩ (attrOf s f.val false) ∈ t.out ∧ t.flash = s.flash ∧
      (mbxOf t f.val).result = none := by
  let u := takeStaging .steward (goStarted 0x30 8 f.val s)
  let r : HostRead := ⟨f.val, (mbxOf s f.val).xaddr.toNat, (mbxOf s f.val).xlen.toNat, false⟩
  have hu : mbxOf u f.val = mbxOf (goStarted 0x30 8 f.val s) f.val := rfl
  have hgo : exec (.imageStage f 8) s = .next (hostAsk r (onMbx f.val (fun M => { M with want := some r }) u)) := by
    have hx : (mbxOf u f.val).xaddr = (mbxOf s f.val).xaddr := by rw [hu, mbxOf_goStarted]
    rw [exec_imageStage ht hi h0 hoff hend ha, startStage, if_neg (by
      rw [show stagingHeld (goStarted 0x30 8 f.val s) .bmc = false from hheld]
      simp)]
    dsimp only
    rw [if_neg hn, askInput]
    dsimp only
    rw [if_neg hn, hx]
  refine ⟨_, hgo, rfl, ?_, rfl, ?_⟩
  · have hattr : attrOf (onMbx f.val (fun M => { M with want := some r }) u) f.val false = attrOf s f.val false :=
      attrOf_onMbx.trans (show attrOf (goStarted 0x30 8 f.val s) f.val false = _ from attrOf_onMbx)
    exact List.mem_cons.2 (.inl (by rw [← hattr]))
  · have hm : mbxOf (hostAsk r (onMbx f.val (fun M => { M with want := some r }) u)) f.val = { mbxOf u f.val with want := some r } :=
      (mbxOf_onMbx : mbxOf (onMbx f.val (fun M => { M with want := some r }) u) f.val = { mbxOf u f.val with want := some r })
    rw [hm, hu, mbxOf_goStarted]

/-- Activation of slot B is refused before anything is copied (R172). -/
def ActivationRefused (x : Stager) (s : State) : Prop :=
  (checkSlot s (vat s.flash 1)).1 ≠ 0 ∨ stagingHeld s (match x with | .steward => .bmc | .bmc => .steward) = true ∨
    stagingComplete s = false

/-- The lock is freed, and a device without an image begins IMAGE again (R36). -/
def activationDone (s : State) : State :=
  let s := { s with mg := { s.mg with staging := none, parts := [], verified := false } }
  let again := s.sys.state == .image && !s.imageOk
  if again then { s with sys := { s.sys with aChecked := false, bChecked := false, aCode := 0, bCode := 0 } } else s

/-- The copy in slot A is checked against slot B, whose digest is `b` (log 134). -/
def copyChecked (a b : Option (List Byte)) (s : State) : Option (List Byte) × State :=
  match a with
  | none => (none, s)
  | some d => if b ≠ some d then (none, s) else (some d, activationDone s)

theorem activate_refused {x : Stager} (h : ActivationRefused x s) : activate x s = (none, s) := if_pos h

theorem activate_copies {x : Stager} (h : ¬ ActivationRefused x s) : activate x s =
    copyChecked (slotDigest (vat (copySlot s).flash 0) (numAt (slotBytes (vat s.flash 1) 0 256) 0x10 4))
      (slotDigest (vat s.flash 1) (numAt (slotBytes (vat s.flash 1) 0 256) 0x10 4)) (copySlot s) := if_neg h

theorem activationDone_funcs (s : State) (F : Vector Func 64) :
    activationDone { s with funcs := F } = { activationDone s with funcs := F } := by
  simp only [activationDone, apply_ite (fun t : State => { t with funcs := F })]

theorem copyChecked_funcs (a b : Option (List Byte)) (s : State) (F : Vector Func 64) :
    copyChecked a b { s with funcs := F } = ((copyChecked a b s).1, { (copyChecked a b s).2 with funcs := F }) := by
  unfold copyChecked
  split
  · rfl
  split
  · rfl
  · rw [activationDone_funcs]

/-- What the checks of an image look at besides its slot. -/
structure SameChecks (u v : State) : Prop where
  sys : u.sys = v.sys
  image : u.image = v.image
  cfg : u.cfg = v.cfg

section
variable {u v : State} (h : SameChecks u v)
include h

theorem SameChecks.lingering : lingering u = lingering v := by
  funext c
  rw [Machine.lingering, Machine.lingering, h.cfg]

theorem SameChecks.assignedTo : assignedTo u = assignedTo v := by
  funext t f
  rw [Machine.assignedTo, Machine.assignedTo, h.image]

theorem SameChecks.claimsOf : claimsOf u = claimsOf v := by
  funext c n
  rw [Machine.claimsOf, Machine.claimsOf, h.lingering, h.image]

theorem SameChecks.withinTier : withinTier u = withinTier v := by
  have hspan : cxlSpan u = cxlSpan v := by
    funext e
    rw [cxlSpan, cxlSpan, h.image]
  have hstart : cxlStart u = cxlStart v := by
    funext e
    rw [cxlStart, cxlStart, hspan]
  have hsockets : socketsOf u = socketsOf v := by
    funext b
    simp only [socketsOf, h.image]
  have hdimm : dimmBytes u = dimmBytes v := by rw [dimmBytes, dimmBytes, h.image]
  funext x
  rw [Machine.withinTier, Machine.withinTier, ddrSplit, ddrSplit, ddrBytes, ddrBytes, hspan, hstart, hsockets, hdimm]

theorem SameChecks.checkTable : checkTable u = checkTable v := by
  funext c f t
  unfold Machine.checkTable
  rw [h.assignedTo, h.lingering, h.claimsOf, h.withinTier]

theorem SameChecks.checkKv : checkKv u = checkKv v := by
  funext c f d
  have hcrib : cribStoreOk u = cribStoreOk v := by
    funext c d
    rw [cribStoreOk, cribStoreOk, h.image]
  unfold Machine.checkKv
  rw [hcrib, h.assignedTo, h.claimsOf, h.withinTier]

theorem SameChecks.imageConfig : imageConfig u = imageConfig v := by
  have htable : addTable u = addTable v := by
    funext en l acc b
    simp only [addTable, h.checkTable]
  have hkv : addKv u = addKv v := by
    funext en acc b
    simp only [addKv, h.checkKv]
  have hfit : rangesFit u = rangesFit v := by
    funext c d
    simp only [rangesFit, h.withinTier]
  have hpools : poolsOk u = poolsOk v := by
    funext c m
    simp only [poolsOk, h.claimsOf, h.withinTier]
  funext img ic
  simp only [Machine.imageConfig, htable, hkv, hfit, hpools]

theorem SameChecks.checkSlot (f : Flash) : checkSlot u f = checkSlot v f := by
  have hcontents : checkContents u = checkContents v := by
    funext img
    have h' : SameChecks { u with image := readImage img, cfg := resetConfig } { v with image := readImage img, cfg := resetConfig } :=
      ⟨h.sys, rfl, rfl⟩
    rw [checkContents, checkContents, h'.imageConfig]
  rw [Machine.checkSlot, Machine.checkSlot, h.sys, hcontents]

end

theorem activationRefused_funcs (x : Stager) (s : State) (F : Vector Func 64) :
    ActivationRefused x { s with funcs := F } ↔ ActivationRefused x s := by
  have hsame : SameChecks { s with funcs := F } s := ⟨rfl, rfl, rfl⟩
  unfold ActivationRefused
  rw [hsame.checkSlot]
  rfl

/-- Activation does not look at the functions. -/
theorem activate_funcs (x : Stager) (s : State) (F : Vector Func 64) :
    activate x { s with funcs := F } = ((activate x s).1, { (activate x s).2 with funcs := F }) := by
  have hr : ActivationRefused x { s with funcs := F } ↔ ActivationRefused x s := activationRefused_funcs x s F
  by_cases h : ActivationRefused x s
  · rw [activate_refused h, activate_refused (hr.2 h)]
  · rw [activate_copies h, activate_copies (mt hr.1 h)]
    exact copyChecked_funcs _ _ (copySlot s) F

/-- IMAGE_ACTIVATE of the steward's. -/
theorem imageActivates (ht : goTaken s f.val) (hi : inService s = true) (h0 : f.val = 0) : let r := activate .steward s
    ∃ t, exec (.imageActivate f 0) s = .next t ∧ t.flash = r.2.flash ∧ t.mg = r.2.mg ∧
      (mbxOf t f.val).result = some ((r.1.map fun d => (0, d)).getD (0x0A, [])) := by
  intro r
  have hact : activate .steward (goStarted 0x31 0 f.val s) = (r.1, { r.2 with funcs := (goStarted 0x31 0 f.val s).funcs }) :=
    activate_funcs .steward s (goStarted 0x31 0 f.val s).funcs
  have hop : quickOp f.val 0x31 (fitTo (mbxOf s f.val).data 0) (mbxOf s f.val).xlen.toNat (goStarted 0x31 0 f.val s) =
      ((r.1.map okWith).getD (bare mbRejected), { r.2 with funcs := (goStarted 0x31 0 f.val s).funcs }) := by
    change opImageActivate _ = _
    rw [opImageActivate_eq, hact]
  have hgo : exec (.imageActivate f 0) s = .next
      (reply f.val ((r.1.map okWith).getD (bare mbRejected)) { r.2 with funcs := (goStarted 0x31 0 f.val s).funcs }) := by
    rw [exec_quick (c := .imageActivate f 0) (op := 0x31) (n := 0) rfl ht hi rfl rfl (fun _ => h0), hop]
  refine ⟨_, hgo, by rw [reply_frame], by rw [reply_frame], ?_⟩
  cases r.1 with
  | none => exact mbxOf_reply rfl
  | some d => exact mbxOf_reply rfl

/-! ### ANCHOR_SET and COLLECT_ACK (R107, R704) -/

theorem anchorRejects (ht : goTaken s f.val) (hi : inService s = true) (h0 : f.val = 0)
    (h : ∀ x ∈ s.tb.history, x.beat.toNat ≠ numAt (fitTo (mbxOf s f.val).data 16) 0 8) :
    exec (.anchorSet f 16) s = .next (goAnswered 0x50 16 f.val (bare 0x0A) s) := by
  have hnone : s.tb.history.find? (fun x => x.beat.toNat == numAt (fitTo (mbxOf s f.val).data 16) 0 8) = none := by
    simpa [List.find?_eq_none] using h
  refine exec_quick_answers (op := 0x50) (n := 16) rfl ht hi rfl rfl (fun _ => h0) ?_ (.inl rfl)
  change opAnchorSet _ _ = _
  rw [opAnchorSet, show (goStarted 0x50 16 f.val s).tb = s.tb from rfl, hnone]
  rfl

/-- The ID of the next anchor: ID 0 is left out. -/
def nextAnchorId (s : State) : BitVec 32 :=
  match s.tb.anchor with | some a => (if a.id = 0xFFFFFFFF then 1 else a.id + 1) | none => 1

theorem nextAnchorId_ne_zero (s : State) : nextAnchorId s ≠ 0 := by
  unfold nextAnchorId
  split
  · split
    · decide
    · bv_omega
  · decide

theorem anchorSets (ht : goTaken s f.val) (hi : inService s = true) (h0 : f.val = 0) {x : Boundary}
    (h : s.tb.history.find? (fun x => x.beat.toNat == numAt (fitTo (mbxOf s f.val).data 16) 0 8) = some x) :
    ∃ t a, exec (.anchorSet f 16) s = .next t ∧ t.tb.anchor = some a ∧ a.beat = x.beat ∧
      a.time = BitVec.ofNat 64 (numAt (fitTo (mbxOf s f.val).data 16) 8 8) ∧ a.id ≠ 0 ∧
      (mbxOf t f.val).result = some (0, leBytes 4 a.id.toNat) := by
  let id := nextAnchorId s
  let a : Anchor := { id := id, beat := x.beat, time := BitVec.ofNat 64 (numAt (fitTo (mbxOf s f.val).data 16) 8 8), start := x.start }
  have hgo : exec (.anchorSet f 16) s = .next (reply f.val (okWith (leBytes 4 id.toNat))
      (jAdd (.anchor a) { goStarted 0x50 16 f.val s with tb := { s.tb with anchor := some a } })) := by
    have hop : opAnchorSet (fitTo (mbxOf s f.val).data 16) (goStarted 0x50 16 f.val s) = (okWith (leBytes 4 id.toNat),
        jAdd (.anchor a) { goStarted 0x50 16 f.val s with tb := { s.tb with anchor := some a } }) := by
      rw [opAnchorSet, show (goStarted 0x50 16 f.val s).tb = s.tb from rfl, h]
      rfl
    rw [exec_quick (c := .anchorSet f 16) (op := 0x50) (n := 16) rfl ht hi rfl rfl (fun _ => h0)]
    change Host.Outcome.next (reply f.val (opAnchorSet (fitTo (mbxOf s f.val).data 16) (goStarted 0x50 16 f.val s)).1
      (opAnchorSet (fitTo (mbxOf s f.val).data 16) (goStarted 0x50 16 f.val s)).2) = _
    rw [hop]
  refine ⟨_, a, hgo, ?_, rfl, rfl, nextAnchorId_ne_zero s, mbxOf_reply rfl⟩
  rw [reply_frame, jAdd_frame]

/-- COLLECT_ACK of an epoch: refused beyond the last committed, without effect below the last acknowledged. -/
theorem collectAcks (ht : goTaken s f.val) (hi : inService s = true) (h0 : f.val = 0) :
    let n := numAt (fitTo (mbxOf s f.val).data 8) 0 8
    (highestCommitted s < n → exec (.collectAck f 8) s = .next (goAnswered 0x73 8 f.val (bare 0x0A) s)) ∧
    (n ≤ highestCommitted s → n < s.led.collected → exec (.collectAck f 8) s = .next (goAnswered 0x73 8 f.val (bare 0) s)) ∧
    (n ≤ highestCommitted s → s.led.collected ≤ n → ∃ t, exec (.collectAck f 8) s = .next t ∧
      t.led = { s.led with collected := n } ∧ (mbxOf t f.val).result = some (0, [])) := by
  intro n
  have hop : opCollectAck (fitTo (mbxOf s f.val).data 8) (goStarted 0x73 8 f.val s) =
      if highestCommitted s < n then (bare mbRejected, goStarted 0x73 8 f.val s)
      else if n < s.led.collected then (bare mbOk, goStarted 0x73 8 f.val s)
      else (bare mbOk, jAdd (.collected n) (watchBacklog { goStarted 0x73 8 f.val s with led := { s.led with collected := n } })) := rfl
  have answers {r : Reply} (h : opCollectAck (fitTo (mbxOf s f.val).data 8) (goStarted 0x73 8 f.val s) = (r, goStarted 0x73 8 f.val s))
      (hb : r.bulk = []) : exec (.collectAck f 8) s = .next (goAnswered 0x73 8 f.val r s) :=
    exec_quick_answers (op := 0x73) (n := 8) rfl ht hi rfl rfl (fun _ => h0) h (.inl hb)
  refine ⟨fun h => answers (hop.trans (if_pos h)) rfl,
    fun h1 h2 => answers (hop.trans ((if_neg (Nat.not_lt.2 h1)).trans (if_pos h2))) rfl, fun h1 h2 => ?_⟩
  rw [if_neg (Nat.not_lt.2 h1), if_neg (Nat.not_lt.2 h2)] at hop
  have hgo : exec (.collectAck f 8) s = .next (reply f.val (bare mbOk)
      (jAdd (.collected n) (watchBacklog { goStarted 0x73 8 f.val s with led := { s.led with collected := n } }))) := by
    rw [exec_quick (c := .collectAck f 8) (op := 0x73) (n := 8) rfl ht hi rfl rfl (fun _ => h0)]
    change Host.Outcome.next (reply f.val (opCollectAck (fitTo (mbxOf s f.val).data 8) (goStarted 0x73 8 f.val s)).1
      (opCollectAck (fitTo (mbxOf s f.val).data 8) (goStarted 0x73 8 f.val s)).2) = _
    rw [hop]
  refine ⟨_, hgo, ?_, mbxOf_reply rfl⟩
  have hled (u : State) : (watchBacklog u).led = u.led := by
    unfold watchBacklog
    extract_lets k high jr v
    split
    · rw [raiseEvent_frame]
    · rfl
  have hsent (u : State) : (reply f.val (bare mbOk) (jAdd (.collected n) u)).led = u.led := by rw [reply_frame, jAdd_frame]
  exact (hsent _).trans (hled _)

end

/-- Settles O31: each operation that acts does what its row says, from the state that its GO leaves. -/
theorem mailboxOperationsAct : Obligations.MailboxOperationsAct := by
  unfold Obligations.MailboxOperationsAct
  intro s f ht hi M d gives
  refine ⟨?_, fun k hk ho => coreResets ht hi hk ho, ?_, funcCtlDisables ht hi, funcCtlRejects ht hi, stageRejects ht hi, ?_, ?_,
    anchorRejects ht hi, ?_, ?_, fun c op hc hlo hhi hr => exec_ring hc ht hi hlo hhi hr⟩
  · intro c op n hc h0 hch hl hfit hq
    obtain rfl : f = 0 := Fin.ext h0
    exact stewardChanges ht hi hc hch hl hfit hq
  · intro h0 hg hen hb
    obtain rfl : f = 0 := Fin.ext h0
    exact funcCtlEnables ht hi rfl hg hen hb
  · intro h0 hheld hoff hend ha hn
    obtain rfl : f = 0 := Fin.ext h0
    exact stageTakes ht hi rfl hheld hoff hend ha hn
  · intro h0
    obtain rfl : f = 0 := Fin.ext h0
    exact imageActivates ht hi rfl
  · intro h0 x hx
    obtain rfl : f = 0 := Fin.ext h0
    exact anchorSets ht hi rfl hx
  · intro h0
    obtain rfl : f = 0 := Fin.ext h0
    exact collectAcks ht hi rfl

end Sys2Proof.Machine
end
